-- ==== Sys2Proof/Word.lean ====
section
/-! DEFINITION. The word types of the DXN-2408 model: bytes, 32- and 64-bit words, and the index types of
Table 00.4 (partitions, contexts, engines, links, ports, tiles). Plain abbreviations, no arithmetic of their own. -/

namespace Sys2Proof

/-- One byte; multi-byte fields are little-endian (R5). -/
abbrev Byte := BitVec 8

/-- A 32-bit word: an entry value, a register, a descriptor word. -/
abbrev Word := BitVec 32

/-- A 64-bit word: a signature, a launch count, an address. -/
abbrev Word64 := BitVec 64

/-- Partitions P0 to P15 (Table 00.4). -/
abbrev PartId := Fin 16

/-- Image slots 0 to 7 of a partition. -/
abbrev SlotId := Fin 8

/-- Launch entries 0 to 63 of a partition (Table 06.8). -/
abbrev EntryId := Fin 64

/-- Contexts C0 to C63. -/
abbrev CtxId := Fin 64

/-- Submission rings 0 to 7 of a context (R347). -/
abbrev RingId := Fin 8

/-- PCIe functions and the control port: 0 PF0, 1 to 15 VF, 16 the control port (Table 21.8, FUNC). -/
abbrev FuncId := Fin 17

/-- Logical tiles T(row, col), numbered 15 * row + col (Table 00.4). -/
abbrev TileId := Fin 240

/-- The two slots of a PAIR stroke word (Table 06.11). -/
abbrev StrokeSlot := Fin 2

/-- Nib engines N0 to N15. -/
abbrev EngineId := Fin 16

/-- Quill links Q0 to Q15. -/
abbrev LinkId := Fin 16

/-- Direct ports D0 to D7. -/
abbrev PortId := Fin 8

/-- Ethernet ports E0 to E3. -/
abbrev EthId := Fin 4

/-- Partner-table entries (R397). -/
abbrev PartnerId := Fin 256

end Sys2Proof
end

