-- ==== Sys2Proof/Syntax.lean ====
section
/-! DEFINITION. The commands of the DXN-2408: one constructor of `Instr` per row of spec/opcode_table.json, with the
operands the row's rule names (an address, a value, an index), and the small data types those operands need. -/

namespace Sys2Proof

/-- The host that makes a register or doorbell access: PCIe or the xSPI control port (R343, R345, R536). -/
inductive HostPort where
  | pcie
  | xspi
deriving DecidableEq, Repr

/-- The two sequenced frame classes of a Quill link (Table 14.5). -/
inductive FrameClass where
  | lc
  | be
deriving DecidableEq, Repr

/-- What the receiver found on the wire beside the frame's own fields (R379): nothing, a failed CRC, a code
violation, or an ABORT at its end. -/
inductive WireFault where
  | none
  | crc
  | code
  | abort
deriving DecidableEq, Repr

/-- A Quill frame as it reaches the receiver (Table 14.4): the header's fields, the eight payload words and the fault
found on the wire. TYPE is fixed by the command that carries the frame. -/
structure QuillFrame where
  seq : BitVec 16
  stat : BitVec 4
  last : Bool
  frag : BitVec 2
  retx : Bool
  rsv : BitVec 4
  payload : List Word
  wire : WireFault
deriving DecidableEq, Repr

/-- A direct-port frame as it reaches the port (R393, R394): header, words, the CRC received and the beats DFRM was
high. -/
structure PortFrame where
  header : Word
  words : List Word
  crc : BitVec 16
  beats : Nat
deriving DecidableEq, Repr

/-- The Sync of a completed PTP exchange (R412, R415): the master's time with its corrections, in 2^(−16) ns; T, in 2^(−32) ns, as the
start-of-frame delimiter crosses from PMA to PCS; the local tick of that crossing. -/
structure PtpSync where
  tx : Int
  rx : Nat
  began : Nat
deriving DecidableEq, Repr

/-- The path delay messages of a completed PTP exchange, in the units of `PtpSync`: peer-to-peer, request and response measure the link;
else the request is a Delay_Req, and its response carries only `reqRx`. `began` is the local tick of the first crossing. -/
structure PtpDelay where
  peer : Bool
  reqTx : Nat
  reqRx : Int
  respTx : Int
  respRx : Nat
  began : Nat
deriving DecidableEq, Repr

/-- An Ethernet frame as it reaches the port (R396): source MAC, EtherType, the two header words, the payload words and
whether its FCS passed. -/
structure EthFrame where
  src : BitVec 48
  etype : BitVec 16
  header0 : Word
  header1 : Word
  payload : List Word
  fcsOk : Bool
deriving DecidableEq, Repr

/-- What may befall a verdict on its way to the commit gate (Table 10.7): nothing, delivery to another posting, or
corruption of the candidate words the gate holds. -/
inductive VerdictFault where
  | none
  | misrouted
  | corrupted
deriving DecidableEq, Repr

/-- The seven supplies of Table 17.5. -/
inductive Rail where
  | vddK
  | vddS
  | vaux
  | vddio
  | vddq
  | vddSd
  | vddSh
deriving DecidableEq, Repr

/-- A field port or Ethernet port, as RST_PORT_REQ numbers them (Table 21.11). -/
inductive Port where
  | quill (q : LinkId)
  | direct (d : PortId)
  | eth (e : EthId)
deriving DecidableEq, Repr

/-- The PLLs whose loss of lock asserts CLOCK_LOSS (R447), and the Assay PLL, whose loss does not. -/
inductive Pll where
  | tick
  | fabric
  | nib
  | platform
  | assay
deriving DecidableEq, Repr

/-- The tamper detectors of R499. -/
inductive TamperKind where
  | glitch
  | oscillator
deriving DecidableEq, Repr

/-- What a release finds wrong (R464, R483): nothing, an invalid fuse shadow, a GDDR6 channel that fails training, or a wipe whose
read-back fails. -/
inductive BootFault where
  | none
  | shadow
  | training
  | wipe
deriving DecidableEq, Repr

/-- Power states of Table 17.6, coded as PWR_PART_FLOOR. -/
inductive PowerState where
  | run
  | gated
  | retain
  | off
deriving DecidableEq, Repr

/-- What a block that a re-shape saved to the Ferrule region held of its partition's share (R335): an instance's state, a slot's entry table
or staged bytes. -/
inductive SavedBlock where
  | state (num : BitVec 10)
  | table (k : SlotId) (masterBad : Bool)
  | stage
deriving DecidableEq, Repr

/-- Where an uncorrectable error lies (Table 16.8). -/
inductive ErrorPlace where
  | scratchpad (t : TileId)
  | accumulator (t : TileId)
  | primary (p : PartId) (num : BitVec 10)
  | assayCopy (p : PartId) (num : BitVec 10)
  | workspace (p : PartId)
  | strokes (p : PartId) (k : SlotId) (masterBad : Bool)
  | store (p : PartId) (k : SlotId) (masterBad : Bool)
  | entryTable (p : PartId) (k : SlotId) (masterBad : Bool)
  | master (p : PartId) (k : SlotId)
  | staging (p : PartId)
  | mailbox (c : CtxId)
  | retained
  | blotter (seq : Word)
  | saved (p : PartId) (b : SavedBlock)
  | ferrule (core : Fin 4)
  | unowned (array : Fin 55)
deriving DecidableEq, Repr

/-- The commands and events of the block: one constructor per row of spec/opcode_table.json. -/
inductive Instr where
  -- host interface
  | doorbellSubmit (f : FuncId) (page : Fin 64) (off : Nat) (bytes : Nat) (v : Word64)
  | doorbellCqHead (f : FuncId) (page : Fin 64) (bytes : Nat) (v : Word64)
  | descriptorFetch (c : CtxId) (r : RingId)
  | nop (c : CtxId) (r : RingId)
  | object (c : CtxId) (r : RingId)
  | imageBind (c : CtxId) (r : RingId)
  | bindComplete (p : PartId) (k : SlotId)
  | imageUnbind (c : CtxId) (r : RingId)
  | unbindAtBoundary (p : PartId) (k : SlotId)
  | resultRead (c : CtxId) (r : RingId)
  | beSolve (c : CtxId) (r : RingId)
  | beModel (c : CtxId) (r : RingId)
  | pause (c : CtxId) (r : RingId)
  | resume (c : CtxId) (r : RingId)
  | hostReadFail (c : CtxId)
  | journalRelease (c : CtxId)
  | functionLoss (f : Fin 16)
  | warmRecovery (c : CtxId)
  -- the range gate
  | dataBlock (p : PartId)
  | updateList (p : PartId)
  | instDecl (p : PartId)
  | instRelease (p : PartId)
  | warmStart (p : PartId)
  | streamSetVerdict (p : PartId)
  | commitSetVerdict (p : PartId)
  -- launches and solves
  | cutoff (p : PartId) (j : EntryId)
  | launch (p : PartId) (j : EntryId)
  | segmentBoundary (p : PartId)
  | assayVerdict (p : PartId) (fault : VerdictFault)
  | deadlineTick (p : PartId) (j : EntryId)
  | release (p : PartId) (j : EntryId)
  -- best-effort work
  | windowOpen (p : PartId) (w : Fin 255)
  | killEnd (p : PartId)
  | rerunStart (p : PartId) (j : EntryId)
  | beStart (p : PartId)
  | kernelStart (p : PartId)
  | kernelEnd (p : PartId)
  | beCommit (p : PartId)
  | bulkHandover (p : PartId)
  -- tile operations
  | packetBankWrite (t : TileId)
  | opRetire (t : TileId) (k : Fin 16)
  | strokeNop (t : TileId) (sl : StrokeSlot)
  | mac (t : TileId) (sl : StrokeSlot)
  | accadd (t : TileId) (sl : StrokeSlot)
  | accWb (t : TileId) (sl : StrokeSlot)
  | tmac (t : TileId) (sl : StrokeSlot)
  | twb (t : TileId) (sl : StrokeSlot)
  | mwadd (t : TileId) (sl : StrokeSlot)
  | mwsub (t : TileId) (sl : StrokeSlot)
  | mwmul (t : TileId) (sl : StrokeSlot)
  | mwext (t : TileId) (sl : StrokeSlot)
  | mwnarrow (t : TileId) (sl : StrokeSlot)
  | fadd (t : TileId) (sl : StrokeSlot)
  | fsub (t : TileId) (sl : StrokeSlot)
  | fmul (t : TileId) (sl : StrokeSlot)
  | fma (t : TileId) (sl : StrokeSlot)
  | min (t : TileId) (sl : StrokeSlot)
  | max (t : TileId) (sl : StrokeSlot)
  | cmpeq (t : TileId) (sl : StrokeSlot)
  | cmplt (t : TileId) (sl : StrokeSlot)
  | cmple (t : TileId) (sl : StrokeSlot)
  | cvt (t : TileId) (sl : StrokeSlot)
  | recip (t : TileId) (sl : StrokeSlot)
  | rsqrt (t : TileId) (sl : StrokeSlot)
  | div (t : TileId) (sl : StrokeSlot)
  | cxfer (t : TileId) (sl : StrokeSlot)
  | lcopy (t : TileId) (sl : StrokeSlot)
  | dmard (t : TileId) (sl : StrokeSlot)
  | dmawr (t : TileId) (sl : StrokeSlot)
  | pkt (t : TileId) (sl : StrokeSlot)
  | idle (t : TileId)
  | accopen (t : TileId)
  | fpbar (t : TileId)
  | loop (t : TileId)
  | famcall (t : TileId)
  | famret (t : TileId)
  | segend (t : TileId)
  -- Hold, re-shape, power, errors
  | holdEntry
  | holdExit
  | reshapeStart
  | reshapeEnd
  | powerDomainLower (d : Fin 96) (st : PowerState)
  | powerDomainWake (d : Fin 96)
  | strokeReload (quad : Fin 64)
  | uncorrectableError (e : ErrorPlace) (addr : Word)
  | scrub (array : Fin 55) (addr : Word) (corrected : Bool)
  | assayKat (lane : Fin 16) (pass : Bool)
  | assayClockFault
  | tileKat (t : TileId) (pass : Bool)
  | tjSample (readings : List Int)
  | throttleStep
  | powerEstimate (mW : Nat)
  | tjShut (sensor : Fin 32)
  -- Nib engines
  | nibSample (n : EngineId)
  | freeRunSlot (n : EngineId)
  | arm (n : EngineId)
  | rearm (n : EngineId)
  | stop (n : EngineId)
  | swap (n : EngineId)
  | nibCoefDataAccess (n : EngineId) (write : Option Word)
  -- Quill links
  | dataHandover (q : LinkId)
  | data (q : LinkId) (f : QuillFrame)
  | bulk (q : LinkId) (f : QuillFrame)
  | ident (q : LinkId) (f : QuillFrame)
  | leave (q : LinkId) (f : QuillFrame)
  | null (q : LinkId) (f : QuillFrame)
  | linkUp (q : LinkId) (epoch : BitVec 16)
  | linkAck (q : LinkId) (epoch : BitVec 16)
  | nakLc (q : LinkId) (seq : BitVec 16)
  | nakBe (q : LinkId) (seq : BitVec 16)
  | credit (q : LinkId) (lc be : BitVec 8)
  | down (q : LinkId)
  | nakTimeout (q : LinkId) (cl : FrameClass)
  | replayExpire (q : LinkId) (cl : FrameClass)
  | linkUpTimer (q : LinkId)
  | creditTimer (q : LinkId)
  | unconfNullTimer (q : LinkId)
  | lockAcquired (q : LinkId)
  | linkErrors (q : LinkId)
  | portPllLock (port : Port)
  | safeFrameTimer (d : PortId)
  | dpFrameRx (d : PortId) (f : PortFrame)
  | ethStreamRx (e : EthId) (f : EthFrame)
  | partnerSilence (n : PartnerId)
  | approve (n : PartnerId)
  | reject (n : PartnerId)
  | loopRoleWrite (q : LinkId)
  -- the time unit
  | tick
  | ptpMeasurement (port : EthId) (e : PtpSync) (pd : PtpDelay)
  | syncInEdge (te : Int) (narrow : Bool)
  | syncOutPulse
  | sourceTimeout
  | tuStepCmd (v : Word)
  | stepApply
  | accept
  | tuSrcWrite (v : Word)
  | refclkLoss
  | refclkReturn
  -- resets
  | resetNLow (ns : Nat)
  | brownout (r : Rail)
  | powerOn
  | supplyGood (r : Rail)
  | vddkWarnRise
  | watchdogExpire
  | rstWdogKick
  | rstWarmReq (v : Word)
  | rstPartReq (v : Word)
  | rstPortReq (v : Word)
  | tamper (k : TamperKind)
  | coldRelease (fault : BootFault)
  | warmRelease (fault : BootFault)
  | partitionRelease (p : PartId) (fault : BootFault)
  | portRelease (port : Port)
  | bootPauseEnd
  -- register writes with a behaviour of their own
  | enable (p : PartId)
  | disable (p : PartId)
  | reshape (p : PartId)
  | fabPartCutoffWrite (p : PartId) (v : Word)
  | fabSemWrite (n : BitVec 8) (v : Word)
  | cntClr (off : BitVec 24) (v : Word)
  | launchEntryEnable (p : PartId) (j : EntryId) (v : Word)
  | launchEntryDisable (p : PartId) (j : EntryId) (v : Word)
  | slotTableWrite (p : PartId) (k : BitVec 8) (w : Fin 4) (v : Word)
  | ducBindWrite (p : PartId) (k : SlotId) (w : Fin 32) (v : Word)
  | ringCreate (c : CtxId) (r : RingId) (v : Word)
  | ringDisable (c : CtxId) (r : RingId)
  | ringDrained (c : CtxId) (r : RingId)
  | contextCreate (c : CtxId) (v : Word)
  | contextDestroy (c : CtxId)
  | pwrSafeClr
  | anlGo
  | hmkAttCmd (h : HostPort)
  | hmkChalRead
  | hmkTokenCmd (h : HostPort)
  | hmkRevoke (v : Word)
  | hmkSvnCmd
  | hmkExportLoad
  | trngHealthFail
  -- the Blotter
  | bltModeWrite (v : Word)
  | bltSnap (v : Word)
  | snapTimer
  | bltMark (tag : Word64)
  | bltTrig
  | postTriggerEnd
  | blotterDrain
  | bltExpCmd
  | exportDone
  | bltImpCmd
  | bltRplArm
  | bltRplAbort
  | replayStart
  | replayDelivery
  -- register writes and the events of the table's end
  -- the address on the port that carries the write: an offset of BAR0, or a control-port address (Table 13.2)
  | registerWrite (h : HostPort) (addr : BitVec 32) (bytes : Nat) (v : Word)
  | vddkWarnClear
  | pllLockLoss (pll : Pll)
  | debugReset
  | attestationDone
  | oscillatorCycle
  | ethLinkDown (e : EthId)
  | grandmasterChange (identity : Word64)
deriving DecidableEq, Repr

end Sys2Proof
end

