-- ==== Sys2Proof/Decode.lean ====
section
/-! DEFINITION. The table of commands gives no row any bits: a command reaches the block as a register access, a frame, a
pin event or an internal event, never as an encoded word, so no word spells a command. -/

namespace Sys2Proof

/-- The command a word of the table's numbering spells: none, since no row has bits. -/
def decodeTableWord (_nbits _w : Nat) : Option Instr := none

end Sys2Proof
end

