-- ==== Sys2Proof/Machine/Table.lean ====
section
/-! DEFINITION. Sparse tables: lists of (index, value) pairs in one canonical form (indices strictly rising, no entry
equal to what an unlisted index reads as). Memories, register files and the arrays of the state are held so. -/

namespace Sys2Proof.Machine

/-- A sparse table: an index that is not listed reads as the default the caller gives. -/
abbrev Tbl (α : Type) := List (Nat × α)

/-- The listed value of an index. -/
def tblFind {α : Type} : Tbl α → Nat → Option α
  | [], _ => none
  | (a, x) :: t, k => if a = k then some x else tblFind t k

/-- List a value at an index, in order. -/
def tblInsert {α : Type} : Tbl α → Nat → α → Tbl α
  | [], k, v => [(k, v)]
  | (a, x) :: t, k, v =>
    if k = a then (k, v) :: t
    else if k < a then (k, v) :: (a, x) :: t
    else (a, x) :: tblInsert t k v

/-- Take an index out of the list. -/
def tblErase {α : Type} : Tbl α → Nat → Tbl α
  | [], _ => []
  | (a, x) :: t, k => if a = k then tblErase t k else (a, x) :: tblErase t k

/-- Read with a default. -/
def tblGet {α : Type} (d : α) (t : Tbl α) (k : Nat) : α := (tblFind t k).getD d

/-- Write with a default: the default is never listed. -/
def tblSet {α : Type} [DecidableEq α] (d : α) (t : Tbl α) (k : Nat) (v : α) : Tbl α :=
  if v = d then tblErase t k else tblInsert t k v

/-- Indices strictly rising. -/
def tblSorted {α : Type} : Tbl α → Bool
  | [] => true
  | [_] => true
  | (a, _) :: (b, y) :: t => decide (a < b) && tblSorted ((b, y) :: t)

/-- The canonical form under a default. -/
def tblWf {α : Type} [DecidableEq α] (d : α) (t : Tbl α) : Bool :=
  tblSorted t && t.all (fun e => decide (e.2 ≠ d))

/-- A byte memory: an unlisted address reads 0. -/
abbrev Memory := List (Nat × BitVec 8)

/-- The canonical form of a byte memory. -/
abbrev memWf (m : Memory) : Bool := tblWf (0 : BitVec 8) m

/-- One byte. -/
def memByte (m : Memory) (a : Nat) : Byte := tblGet 0 m a

/-- Store one byte. -/
def memPut (m : Memory) (a : Nat) (b : Byte) : Memory := tblSet 0 m a b

/-- Store bytes at consecutive addresses. -/
def memPutBytes : Memory → Nat → List Byte → Memory
  | m, _, [] => m
  | m, a, b :: bs => memPutBytes (memPut m a b) (a + 1) bs

/-- Read bytes at consecutive addresses. -/
def memBytes (m : Memory) (a : Nat) : Nat → List Byte
  | 0 => []
  | n + 1 => memByte m a :: memBytes m (a + 1) n

/-- The value of bytes, least significant first (R5). -/
def leNat : List Byte → Nat
  | [] => 0
  | b :: bs => b.toNat + 256 * leNat bs

/-- The `n` bytes of a value, least significant first (R5). -/
def leBytes : Nat → Nat → List Byte
  | 0, _ => []
  | n + 1, x => BitVec.ofNat 8 x :: leBytes n (x / 256)

/-- Read a 32-bit word. -/
def memWord (m : Memory) (a : Nat) : Word := BitVec.ofNat 32 (leNat (memBytes m a 4))

/-- Store a 32-bit word. -/
def memPutWord (m : Memory) (a : Nat) (w : Word) : Memory := memPutBytes m a (leBytes 4 w.toNat)

/-- Read consecutive words. -/
def memWords (m : Memory) (a : Nat) : Nat → List Word
  | 0 => []
  | n + 1 => memWord m a :: memWords m (a + 4) n

/-- Store consecutive words. -/
def memPutWords : Memory → Nat → List Word → Memory
  | m, _, [] => m
  | m, a, w :: ws => memPutWords (memPutWord m a w) (a + 4) ws

/-- Clear the bytes of an address range. -/
def memClear (m : Memory) (a n : Nat) : Memory :=
  m.filter (fun e => decide (e.1 < a) || decide (a + n ≤ e.1))

/-- Bytes as 32-bit words, least significant byte first; a short tail counts as zero bytes. -/
def bytesWords : List Byte → List Word
  | b0 :: b1 :: b2 :: b3 :: t => BitVec.ofNat 32 (leNat [b0, b1, b2, b3]) :: bytesWords t
  | [] => []
  | t => [BitVec.ofNat 32 (leNat t)]

/-- Words as bytes. -/
def wordsBytes : List Word → List Byte
  | [] => []
  | w :: t => leBytes 4 w.toNat ++ wordsBytes t

/-- The bits hi..lo of a word as a number. -/
def fld (w : Word) (hi lo : Nat) : Nat := w.toNat / 2 ^ lo % 2 ^ (hi + 1 - lo)

/-- One bit of a word. -/
def wbit (w : Word) (i : Nat) : Bool := w.getLsbD i

/-- A number placed at a bit position of a word. -/
def put (x lo : Nat) : Word := BitVec.ofNat 32 (x * 2 ^ lo)

/-- A 64-bit value from its low and high words. -/
def word64 (lo hi : Word) : Word64 := BitVec.ofNat 64 (lo.toNat + 2 ^ 32 * hi.toNat)

/-- The low and the high word of a 64-bit value. -/
def lo32 (x : Word64) : Word := BitVec.ofNat 32 x.toNat
def hi32 (x : Word64) : Word := BitVec.ofNat 32 (x.toNat / 2 ^ 32)

/-- Add 1 without passing the largest value of w bits. -/
def satInc (w n : Nat) : Nat := if n + 1 < 2 ^ w then n + 1 else 2 ^ w - 1

/-- Add without passing the largest value of w bits. -/
def satAdd (w a b : Nat) : Nat := if a + b < 2 ^ w then a + b else 2 ^ w - 1

/-- ⌈a / b⌉. -/
def ceilDiv (a b : Nat) : Nat := (a + b - 1) / b

/-- The numbers from 0 to n − 1. -/
def upTo (n : Nat) : List Nat := List.range n

end Sys2Proof.Machine
end

