-- ==== Sys2Proof/Machine/Crc.lean ====
section
/-! DEFINITION. The cyclic redundancy codes the device computes: CRC-32C of certificates and SET records (Table 10.5,
Table 19.3) and CRC-16 of direct-port frames (R393). -/

namespace Sys2Proof.Machine

/-- One bit of the reflected CRC-32C register, polynomial 0x1EDC6F41. -/
def crc32cBit (c : Nat) : Nat := if c % 2 = 1 then (c / 2) ^^^ 0x82F63B78 else c / 2

def crc32cByte (c : Nat) (b : Byte) : Nat :=
  crc32cBit (crc32cBit (crc32cBit (crc32cBit (crc32cBit (crc32cBit (crc32cBit (crc32cBit (c ^^^ b.toNat))))))))

/-- CRC-32C of a byte string: initial value and final inversion of all ones. -/
def crc32c (bs : List Byte) : Word := BitVec.ofNat 32 (bs.foldl crc32cByte 0xFFFFFFFF ^^^ 0xFFFFFFFF)

/-- CRC-32C over words, each least significant byte first (R5). -/
def crcWords (ws : List Word) : Word := crc32c (wordsBytes ws)

/-- One bit into the CRC-16 register, generator 0x1021, most significant bit first (R394). -/
def crc16Bit (c : Nat) (b : Bool) : Nat :=
  if decide (c / 32768 % 2 = 1) != b then (c * 2 % 65536) ^^^ 0x1021 else c * 2 % 65536

/-- CRC-16 over bits in the order they are sent: initial value 0xFFFF, no final inversion (R394). -/
def crc16 (bits : List Bool) : BitVec 16 := BitVec.ofNat 16 (bits.foldl crc16Bit 0xFFFF)

end Sys2Proof.Machine
end

