-- ==== Sys2Proof/Machine/ImageTypes.lean ====
section
/-! DEFINITION. A Ductus image as the sequencer holds it once read (chapters 02, 03, 06, 08, 09, 10): its header,
sections and records as structures, field by field as the tables name them. -/

namespace Sys2Proof.Machine

/-- The dimensions of a structure (Table 02.2). -/
structure Dims where
  nx : Nat
  nu : Nat
  ny : Nat
  stages : Nat
  n : Nat
  m : Nat
deriving DecidableEq, Repr, Inhabited

/-- An entry record (Table 06.3). -/
structure EntryRec where
  obj : Nat
  fmtM : Nat
  u : Bool
  factor : Bool
  stage : Nat
  lo : Word
  hi : Word
  dflt : Word
deriving DecidableEq, Repr, Inhabited

/-- A target record of the commit map (Table 06.4). -/
structure MapTarget where
  valid : Bool
  part : Nat
  slot : Nat
  inst : Nat
  tsig : Word64
deriving DecidableEq, Repr, Inhabited

/-- A map record, stream or commit (Table 06.4). -/
structure MapRec where
  form : Nat
  entry : Nat
  src : Nat
  word : Nat
  srcM : Nat
  srcU : Bool
deriving DecidableEq, Repr, Inhabited

/-- A variable record of the certificate (Table 03.6). -/
structure VarRec where
  fmtM : Nat
  cls : Nat
  first : Nat
  count : Nat
  lo : Word
  hi : Word
deriving DecidableEq, Repr, Inhabited

/-- An accumulation record (Table 03.7). -/
structure AccRec where
  frac : Nat
  id : Nat
  headroom : Nat
deriving DecidableEq, Repr, Inhabited

/-- A range certificate (Table 03.5). -/
structure Cert where
  arch : Nat
  id : Word
  sig : Word64
  varTotal : Nat
  vars : List VarRec
  accs : List AccRec
  iterMax : Nat
  rank1Max : Nat
  refineMax : Nat
  carried : Bool
deriving DecidableEq, Repr, Inhabited

/-- A WCET row (Table 06.16). -/
structure WcetRow where
  mode : Nat
  start : Nat
  aNs : Nat
  x : Nat
  l : Nat
  total : Nat
  minTicks : Nat
deriving DecidableEq, Repr, Inhabited

/-- A tile block of the STROKES section. -/
structure TileBlock where
  row : Nat
  col : Nat
  start : Nat
  words : List (BitVec 128)
deriving DecidableEq, Repr, Inhabited

/-- An ANNOTATION record (Table 06.2). -/
structure AnnRec where
  num : Nat
  kind : Nat
  fmts : Word
deriving DecidableEq, Repr, Inhabited

/-- A ROUTES record (Table 06.2): one tile on a route. -/
structure RouteRec where
  route : Nat
  row : Nat
  col : Nat
  inPort : Nat
  outPort : Nat
deriving DecidableEq, Repr, Inhabited

/-- A segment entry (Table 06.9). -/
structure SegRec where
  entry : Nat
  kind : Nat
  span : Nat
deriving DecidableEq, Repr, Inhabited

/-- A family (Table 06.10). -/
structure FamRec where
  family : Nat
  members : Nat
  span : Nat
  addrs : List Nat
deriving DecidableEq, Repr, Inhabited

/-- METHOD_PARAMS (Table 08.1); the FP64 fields are bit patterns. -/
structure MethodParams where
  arch : Nat
  method : Nat
  settle : Nat
  eligible : Nat
  sigmaP : Nat
  sigmaD : Nat
  rho : Nat
  admmSigma : Nat
  relax : Nat
  epsAbs : Nat
  epsRel : Nat
  refineTol : Nat
  stepFrac : Nat
  center : Nat
  infeasTol : Nat
  weights : List Nat
deriving DecidableEq, Repr, Inhabited

/-- A threshold set (Table 10.2): FP64 bit patterns. -/
structure ThrSet where
  pres : Nat
  viol : Nat
  dres : Nat
  gap : Nat
deriving DecidableEq, Repr, Inhabited

/-- A pattern record (Table 10.3). -/
structure PatRec where
  entry : Nat
  role : Nat
  neg : Bool
  row : Nat
  col : Nat
deriving DecidableEq, Repr, Inhabited

/-- The THRESHOLDS section (Table 10.2). -/
structure Thresholds where
  batchMax : Nat
  work : Nat
  sets : List ThrSet
  pattern : List PatRec
deriving DecidableEq, Repr, Inhabited

/-- A layer record (Table 09.2). -/
structure LayerRec where
  ltype : Nat
  act : Nat
  wFmt : Nat
  aFmt : Nat
  oFmt : Nat
  dual : Bool
  bias : Bool
  srcA : Nat
  srcB : Nat
  kh : Nat
  kw : Nat
  strideH : Nat
  strideW : Nat
  pad : Nat
  sub : Bool
  pmax : Bool
  inH : Nat
  inW : Nat
  cIn : Nat
  cOut : Nat
  wOff : Nat
  actArg : Nat
  tshift : Nat
  inFirst : Nat
  k : Nat
deriving DecidableEq, Repr, Inhabited

/-- A kernel record (Table 09.6). -/
structure KernelRec where
  entry : Nat
  layer : Nat
  span : Nat
  stageBytes : Nat
deriving DecidableEq, Repr, Inhabited

/-- The LAYERS section (Table 09.1) with its blocks. -/
structure Layers where
  kernelCount : Nat
  srcSig : Word64
  srcValid : Bool
  srcSlot : Nat
  tangents : Nat
  batch : Nat
  inWords : Nat
  wsBytes : Nat
  layers : List LayerRec
  kernels : List KernelRec
  weights : List Byte
  pwl : List Word
  classMap : List Word
  linDef : List Word
deriving DecidableEq, Repr, Inhabited

/-- The image header (Table 06.1). -/
structure ImgHeader where
  arch : Nat
  ikind : Nat
  pkind : Nat
  method : Nat
  cls : Nat
  gcols : Nat
  ghalves : Nat
  bytes : Nat
  sig : Word64
  certId : Word
  fFac : Nat
  qAssumed : Nat
  chkEvery : Nat
  tau : Nat
  deltaD : Nat
  fBuf : Nat
  certDigest : Nat
  digest : Nat
  -- the KEY_ID of its seal (Table 06.5)
  sealKey : Nat
deriving DecidableEq, Repr, Inhabited

/-- An image, whole. -/
structure Image where
  hdr : ImgHeader
  dims : Dims
  entries : List EntryRec
  streamMap : List MapRec
  targets : List MapTarget
  commitMap : List MapRec
  cert : Option Cert
  wcet : List WcetRow
  strokes : List TileBlock
  anns : List AnnRec
  routes : List RouteRec
  segs : List SegRec
  fams : List FamRec
  params : Option MethodParams
  thr : Option Thresholds
  layers : Option Layers
deriving DecidableEq, Repr, Inhabited

/-- IKIND MODEL. -/
def Image.isModel (i : Image) : Bool := decide (i.hdr.ikind = 2)

/-- CLASS 0, latency-critical. -/
def Image.isLc (i : Image) : Bool := decide (i.hdr.cls = 0)

/-- A QP kind (Table 02.1). -/
def Image.isQp (i : Image) : Bool :=
  decide (i.hdr.ikind = 1) && (decide (i.hdr.pkind = 1) || decide (i.hdr.pkind = 2) || decide (i.hdr.pkind = 5))

/-- A KF or EKF kind. -/
def Image.isEstimator (i : Image) : Bool :=
  decide (i.hdr.ikind = 1) && (decide (i.hdr.pkind = 3) || decide (i.hdr.pkind = 4))

/-- W, the warm-start or carried-state words (Table 02.9). -/
def Image.w (i : Image) : Nat :=
  let d := i.dims
  if i.hdr.method = 3 then d.n + d.m + ceilDiv d.m 32
  else if i.hdr.method = 4 then d.nx + d.nx * (d.nx + 1) / 2
  else d.n + 2 * d.m

/-- E, the number of entries. -/
def Image.e (i : Image) : Nat := i.entries.length

/-- The reservation of an instance in bytes (R60). -/
def Image.reservation (i : Image) : Nat := ceilDiv (8 * i.e + 4 * i.w + i.hdr.fFac) 4096 * 4096

/-- BATCH_MAX of Table 10.2; 1 without a THRESHOLDS section (R177). -/
def Image.batchMax (i : Image) : Nat := match i.thr with | some t => t.batchMax | none => 1

/-- The segment of a kind (Table 06.9). -/
def Image.seg? (i : Image) (kind : Nat) : Option SegRec := i.segs.find? (fun s => s.kind == kind)

/-- The SPAN of a segment kind, 0 when it is missing (R188). -/
def Image.span (i : Image) (kind : Nat) : Nat := match i.seg? kind with | some s => s.span | none => 0

/-- Limits of R84. An image without a certificate carries no limit of its own; ITER_DONE's largest value stands for
ITER_MAX there, and no update or refinement runs. DEDUCED (assumption 20). -/
def Image.iterMax (i : Image) : Nat := match i.cert with | some c => c.iterMax | none => 65535
def Image.rank1Max (i : Image) : Nat := match i.cert with | some c => c.rank1Max | none => 0
def Image.refineMax (i : Image) : Nat := match i.cert with | some c => c.refineMax | none => 0

/-- The certificate record that covers a variable. -/
def Image.varRec? (i : Image) (v : Nat) : Option VarRec :=
  match i.cert with
  | some c => c.vars.find? (fun r => decide (r.first ≤ v) && decide (v < r.first + r.count))
  | none => none

/-- The WCET row of a mode and start case. -/
def Image.wcetRow? (i : Image) (mode start : Nat) : Option WcetRow :=
  i.wcet.find? (fun r => r.mode == mode && r.start == start)

/-- The rows of a layer's output: out height and width (Table 09.3). -/
def LayerRec.outH (r : LayerRec) : Nat :=
  if r.ltype = 2 ∨ r.ltype = 3 ∨ r.ltype = 4 then (r.inH + 2 * r.pad - r.kh) / (r.strideH + 1) + 1
  else if r.ltype = 6 then r.inH else 1
def LayerRec.outW (r : LayerRec) : Nat :=
  if r.ltype = 2 ∨ r.ltype = 3 ∨ r.ltype = 4 then (r.inW + 2 * r.pad - r.kw) / (r.strideW + 1) + 1
  else if r.ltype = 6 then r.inW else 1

/-- Output channels. -/
def LayerRec.outC (r : LayerRec) : Nat :=
  if r.ltype = 1 ∨ r.ltype = 2 ∨ r.ltype = 3 then r.cOut else if r.ltype = 7 then 1 else r.cIn

/-- Output elements per item. -/
def LayerRec.outSize (r : LayerRec) : Nat := r.outC * r.outH * r.outW

/-- Output words of a command (R572): W for a SOLVE image; R253 or R265 for a MODEL image. -/
def Image.outputWords (i : Image) : Nat :=
  match i.layers with
  | some l =>
    match l.layers.getLast? with
    | some r => if r.ltype = 8 then r.k else l.batch * r.outSize * (l.tangents + 1)
    | none => 0
  | none => i.w

end Sys2Proof.Machine
end

