-- ==== Sys2Proof/Config.lean ====
section
/-! DEFINITION. What an implementation or the world outside the device fixes, and the free values: opaque constants
with no body, so that no proof can see a value of them. -/

namespace Sys2Proof

/-- A free value: the n-th value the spec leaves open (assumption 3). -/
opaque Config.freeWord : Nat → BitVec 32

/-- A free bit: the n-th choice the spec leaves open (R450, assumption 3). -/
opaque Config.freeBit : Nat → Bool

/-- A window of 1,024 raw bits of the entropy source (R491; assumption 94). -/
opaque Config.rawBits : Nat → BitVec 1024

/-- AES-256 of a block under a key (R491; assumption 22). -/
opaque Config.aes256 : BitVec 256 → BitVec 128 → BitVec 128

/-- The safe code of an output stream that is not a direct port's (R307; assumption 3). -/
opaque Config.safeCode : Nat → BitVec 32

/-- The dimensions of the structure a signature names (R33; assumption 21). -/
opaque Config.structDims : Word64 → Machine.Dims

/-- The operand elements of tensor accumulator k (R113, R137; assumption 26): index into A's elements, then B's. -/
opaque Config.tensorA : Nat → Nat → Nat
opaque Config.tensorB : Nat → Nat → Nat

/-- SHA-512 of a byte string, as a number, first byte most significant (chapter 18; assumption 22). -/
opaque Config.sha512 : List Byte → BitVec 512

/-- ECDSA P-521 verification: KEY_ID, digest, r and s (R485; assumption 22). -/
opaque Config.ecdsaVerify : Nat → BitVec 512 → Nat → Nat → Bool

/-- The digest of the key a KEY_ID names in the manifest (R484). -/
opaque Config.keyDigest : Nat → Nat

/-- The KEY_ID digest the boot ROM holds for MROOT (Table 18.2). -/
opaque Config.mroot : Nat

/-- PID of the device by UDS and identity class (R489, R490). -/
opaque Config.pid : Nat → Nat → BitVec 64

/-- DeviceID and Alias public keys, endorsement and report signature (R489, R493), as byte strings by their inputs. -/
opaque Config.deviceIdPub : Nat → Nat → List Byte
opaque Config.aliasPub : Nat → Nat → Nat → Nat → Nat → Nat → List Byte
opaque Config.endorse : Nat → Nat → List Byte → List Byte
opaque Config.signReport : Nat → List Byte → List Byte

/-- Export encryption (R496): the ephemeral public key of a drawn private one, and a chunk's ciphertext with its tag. -/
opaque Config.exportPub : Nat → List Byte
opaque Config.exportChunk : Nat → Nat → Nat → List Byte → List Byte → List Byte

end Sys2Proof
end

