-- ==== Sys2Proof/Machine/FieldTypes.lean ====
section
/-! DEFINITION. The state of the Nib engines (chapter 11) and of the field ports and partners (chapter 14). -/

namespace Sys2Proof.Machine

/-- A block of block-floating values (R290): an exponent and integer mantissas. -/
structure Block where
  e : Int
  m : List Int
deriving DecidableEq, Repr, Inhabited

/-- Engine states (Table 11.3), in the code order of NIB_ENG_STAT.STATE. -/
inductive NibState where
  | config
  | armed
  | run
  | hold
  | coast
  | ramp
  | safe
deriving DecidableEq, Repr, Inhabited

def NibState.code : NibState → Nat
  | .config => 0
  | .armed => 1
  | .run => 2
  | .hold => 3
  | .coast => 4
  | .ramp => 5
  | .safe => 6

/-- An accepted frame as an engine sees it: capture tick, sequence where the framing has one with its step from one
sample to the next, words. -/
structure NibFrame where
  cap : Nat
  seq : Option (BitVec 16)
  step : BitVec 16
  words : List Word
deriving DecidableEq, Repr, Inhabited

/-- What a stream's watchdog found in one accepted frame (Table 11.5): its capture tick, the flags it completes, and
whether it meets any condition. -/
structure FrameJudge where
  cap : Nat
  fired : List Nat
  bad : Bool
deriving DecidableEq, Repr, Inhabited

/-- One input stream's watchdog (R310, Table 11.5). -/
structure StreamWd where
  -- the last accepted frame, and how many in a row carried its payload and its timestamp
  seen : Option NibFrame
  sameVal : Nat
  sameTs : Nat
  -- judged frames the next sample takes up
  pend : List FrameJudge
  misses : Nat
  lost : Bool
  good : Nat
deriving DecidableEq, Repr, Inhabited

def StreamWd.reset : StreamWd := ⟨none, 0, 0, [], 0, false, 0⟩

/-- A trajectory an engine holds: adoption tick, the period of its entry, stages 0 and 1 with each word's format m. -/
structure NibTraj where
  count : Nat
  period : Nat
  s0 : List (Word × Nat)
  s1 : List (Word × Nat)
deriving DecidableEq, Repr, Inhabited

/-- A Nib engine. Configuration lies in the set-up registers; coefficient window words by bank or preload. -/
structure Nib where
  st : NibState
  bank : Bool
  coef0 : Tbl Word
  coef1 : Tbl Word
  preload : Tbl Word
  xi : Block
  pred : Block
  -- s1 and s2 of each level, input levels first
  secs : List (Block × Block)
  -- the output words driven last, and their status code
  out : List Word
  status : Nat
  expected : Option Nat
  swapAt : Option Nat
  traj : Option NibTraj
  oldTraj : Option NibTraj
  planHold : Bool
  holdN : Nat
  coastN : Nat
  settleLeft : Nat
  stopAsked : Bool
  safeAsked : Bool
  wds : Tbl StreamWd
  -- accepted frames of each stream, latest first, as far back as a sample still to come may ask (R296)
  frames : Tbl (List NibFrame)
  -- the trigger frame of the latest sample
  trig : Option NibFrame
  -- accepted trigger frames, oldest first
  triggers : List NibFrame
deriving DecidableEq, Repr, Inhabited

def Nib.reset : Nib :=
  ⟨.config, false, [], [], [], ⟨-128, []⟩, ⟨-128, []⟩, [], [], 6, none, none, none, none, false, 0, 0, 0, false, false,
    [], [], none, []⟩

/-- Quill link states (Table 14.6, R391). -/
inductive LinkState where
  | off
  | unconf
  | train
  | sync
  | up
  | looped
deriving DecidableEq, Repr, Inhabited

/-- QL_STAT.STATE; a looped link is in the state UP (R391). -/
def LinkState.code : LinkState → Nat
  | .off => 0
  | .unconf => 1
  | .train => 2
  | .sync => 3
  | .up => 4
  | .looped => 4

/-- A frame as a link or port sent it, or holds it for replay: type, sequence, status, fragment, payload. -/
structure TxFrame where
  ftype : Nat
  seq : BitVec 16
  stat : Nat
  frag : Nat
  last : Bool
  retx : Bool
  payload : List Word
deriving DecidableEq, Repr, Inhabited

/-- Control sets of Table 14.3, and the ABORT that ends a BE-class frame. -/
inductive CtrlSet where
  | linkUp (epoch : BitVec 16)
  | linkAck (epoch : BitVec 16)
  | nakLc (seq : BitVec 16)
  | nakBe (seq : BitVec 16)
  | credit (lc be : Nat)
  | down
  | abort
deriving DecidableEq, Repr, Inhabited

/-- One class of a link: sequences, retry and replay (R383 to R386), credits (R390). -/
structure LinkClass where
  tx : BitVec 16
  rx : BitVec 16
  -- a NAK for the expected SEQ is outstanding; and only a copy with RETX = 1 ends it (R385)
  nak : Bool
  waitRetx : Bool
  replay : List TxFrame
  -- frames sent taking credit, and the partner's freed count; frames this receiver freed
  sent : Nat
  partnerFreed : Nat
  freed : Nat
deriving DecidableEq, Repr, Inhabited

def LinkClass.reset : LinkClass := ⟨0, 0, false, false, [], 0, 0, 0⟩

/-- A sample waiting to be handed to a link (R387, R389): its frames' words with STAT. -/
structure OutSample where
  stat : Nat
  words : List Word
deriving DecidableEq, Repr, Inhabited

/-- A Quill link. -/
structure Link where
  st : LinkState
  pll : Bool
  epoch : BitVec 16
  -- the last SEQ used in either class since Cold reset (R383)
  lastUsed : BitVec 16
  conflict : Bool
  -- CR_LC and RX_LC in force since the last entry to SYNC (R550)
  crLc : Nat
  rxLc : Nat
  lc : LinkClass
  be : LinkClass
  -- fragments of a DATA sample, and of a BULK message, received so far
  frags : List QuillFrame
  bulkIn : List (List Word)
  dataOut : List OutSample
  bulkOut : List TxFrame
  -- the BE-class or NULL frame sent last, and the local tick it began (R387)
  busy : Option TxFrame
  busyAt : Nat
  partnerBuf : Nat
  lastTx : Option TxFrame
  lastSet : Option CtrlSet
  -- the local tick UP began, and those of the code violations and CRC failures of the last 10 s of it (Table 20.2)
  upAt : Nat
  errs : List Nat
deriving DecidableEq, Repr, Inhabited

def Link.reset : Link :=
  ⟨.off, false, 0, 0, false, 0, 8, .reset, .reset, [], [], [], [], none, 0, 16, none, none, 0, []⟩

/-- Phases of a field output pad (Table 14.15). -/
inductive PadPhase where
  | rising
  | alwaysOn
  | locked
  | configured
  | inReset
deriving DecidableEq, Repr, Inhabited

/-- A direct port: PLL lock, sequence of its configured and of its safe frames, the last frame sent. -/
structure DirectPort where
  pll : Bool
  txSeq : BitVec 16
  safeSeq : BitVec 16
  lastTx : Option TxFrame
deriving DecidableEq, Repr, Inhabited

def DirectPort.reset : DirectPort := ⟨false, 0, 0, none⟩

/-- An Ethernet port: PLL lock, link, slave lock (R412), expected SEQ and sent SEQ by stream (R396), the last stream frame
sent. -/
structure EthPort where
  pll : Bool
  up : Bool
  slave : Bool
  expect : Tbl (Option (BitVec 16))
  txSeq : Tbl (BitVec 16)
  lastTx : Option TxFrame
deriving DecidableEq, Repr, Inhabited

def EthPort.reset : EthPort := ⟨false, false, false, [], [], none⟩

/-- Partner states (R397), coded as FIO_PTN_ENTRY. -/
inductive PartnerState where
  | free
  | joining
  | active
  | gone
deriving DecidableEq, Repr, Inhabited

def PartnerState.code : PartnerState → Nat
  | .free => 0
  | .joining => 1
  | .active => 2
  | .gone => 3

/-- Where a partner is attached: a Quill link, or an Ethernet port with a MAC address. -/
inductive Attach where
  | quill (q : Nat)
  | eth (e : Nat) (mac : BitVec 48)
deriving DecidableEq, Repr, Inhabited

/-- A partner entry (R397). -/
structure Partner where
  st : PartnerState
  pid : Word64
  kind : Nat
  model : Word
  att : Attach
  join : Nat
  leave : Nat
  seen : Nat
deriving DecidableEq, Repr, Inhabited

def Partner.reset : Partner := ⟨.free, 0, 0, 0, .quill 0, 0, 0, 0⟩

end Sys2Proof.Machine
end

