-- ==== Sys2Proof/Machine/HostTypes.lean ====
section
/-! DEFINITION. The state of the host interface (chapter 13): contexts, rings, accepted items and the completion
journal. -/

namespace Sys2Proof.Machine

/-- Submission ring states (Table 13.3), coded as HQ_RING_STAT.STATE. -/
inductive RingState where
  | uncreated
  | enabled
  | draining
  | halted
  | lost
deriving DecidableEq, Repr, Inhabited

def RingState.code : RingState → Nat
  | .uncreated => 0
  | .enabled => 1
  | .draining => 2
  | .halted => 3
  | .lost => 4

/-- An accepted, uncommitted item (R356): its position, its sixteen words, and the status of the first failed check of
Table 13.6 with its cause, when one failed. -/
structure Item where
  seq : Word
  words : List Word
  early : Option (Nat × Nat)
  -- handed to the range gate, loading, or pausing: no opcode command begins it again
  begun : Bool
  -- the local tick of its acceptance (R283)
  tick : Nat
deriving DecidableEq, Repr, Inhabited

/-- A submission ring. Sequence numbers wrap modulo 2^32 (R347). -/
structure Ring where
  st : RingState
  base : Word64
  log2 : Nat
  gen : BitVec 8
  lastGen : Option (BitVec 8)
  version : Nat
  tail : Word
  acc : Word
  cmp : Word
  items : List Item
  paused : Bool
  headTick : Nat
deriving DecidableEq, Repr, Inhabited

def Ring.reset : Ring := ⟨.uncreated, 0, 0, 0, none, 0, 0, 0, 0, [], false, 0⟩

/-- A context with its completion ring (R346, R347). -/
structure Ctx where
  on : Bool
  func : Nat
  part : Nat
  page : Nat
  cqBase : Word64
  cqLog2 : Nat
  cqGen : BitVec 8
  cqLastGen : Option (BitVec 8)
  cqTail : Word
  cqHead : Word
  drop : Bool
  notify : Bool
  -- Warm recovery (R369): waits for Bus Master Enable
  recover : Bool
deriving DecidableEq, Repr, Inhabited

def Ctx.reset : Ctx := ⟨false, 0, 0, 0, 0, 0, 0, none, 0, 0, false, false, false⟩

/-- A completion slot: eight 32-bit words. -/
abbrev CSlot := List Word

/-- A group in the completion journal (R358): its context, the position of its first slot, its slots in ring order. -/
structure JGroup where
  ctx : Nat
  pos : Word
  slots : List CSlot
deriving DecidableEq, Repr, Inhabited

/-- A group that waits for space in the journal (R358): its slots without PHASE and DROP; the ring and GEN of the item it completes,
none for a LAUNCH or EVENT group; the item's NOTIFY. -/
structure WaitGroup where
  ctx : Nat
  item : Option (Nat × BitVec 8)
  notify : Bool
  head : CSlot
  exts : List CSlot
deriving DecidableEq, Repr, Inhabited

end Sys2Proof.Machine
end

