-- ==== Sys2Proof/Machine/Fixed.lean ====
section
/-! DEFINITION. Fixed-point arithmetic to the bit (chapter 03 and the multi-word part of chapter 04): rounding of an
exact value, ranges of Qm.n and UQm.n, alignment, the 80-bit saturating accumulator, writeback and the multi-word
operations. Exact values are integers; the narrowing stands at the end of each definition. -/

namespace Sys2Proof.Machine

/-- Rounding modes: ROUND of Table 03.2 (rne, rdn, rha) and FRND of Table 04.3 (rne, rtz, rdn, rup). -/
inductive RoundMode where
  | rne
  | rdn
  | rha
  | rtz
  | rup
deriving DecidableEq, Repr

/-- Where an exact value lies above its floor. -/
inductive Rem where
  | zero
  | low
  | half
  | high
deriving DecidableEq, Repr

/-- The ROUND field of a writeback stroke (Table 03.2); 0b11 is reserved. -/
def roundOfCode (c : Nat) : Option RoundMode :=
  match c with
  | 0 => some .rne
  | 1 => some .rdn
  | 2 => some .rha
  | _ => none

/-- The FRND field of the FP control word (Table 04.3). -/
def frndOfCode (c : Nat) : RoundMode :=
  match c with
  | 0 => .rne
  | 1 => .rtz
  | 2 => .rdn
  | _ => .rup

/-- The place of `r` in an interval of length `d`. -/
def remOf (r d : Nat) : Rem :=
  if r = 0 then .zero else if 2 * r < d then .low else if 2 * r = d then .half else .high

/-- Round a value whose floor is `q` and whose excess over it is `rem` (R76, R100). -/
def roundFloor (m : RoundMode) (q : Int) (rem : Rem) : Int :=
  match rem with
  | .zero => q
  | .low =>
    match m with
    | .rne => q
    | .rdn => q
    | .rha => q
    | .rtz => if q < 0 then q + 1 else q
    | .rup => q + 1
  | .half =>
    match m with
    | .rne => if q % 2 = 0 then q else q + 1
    | .rdn => q
    | .rha => if q < 0 then q else q + 1
    | .rtz => if q < 0 then q + 1 else q
    | .rup => q + 1
  | .high =>
    match m with
    | .rne => q + 1
    | .rdn => q
    | .rha => q + 1
    | .rtz => if q < 0 then q + 1 else q
    | .rup => q + 1

/-- `num / den` rounded to an integer; `den` is positive. -/
def roundQuot (m : RoundMode) (num : Int) (den : Nat) : Int :=
  roundFloor m (num / (den : Int)) (remOf (num % (den : Int)).toNat den)

/-- Shift by k under R74: divide by 2^k with rounding for positive k, an exact left shift otherwise. -/
def shiftRound (m : RoundMode) (x : Int) (k : Int) : Int :=
  if 0 < k then roundQuot m x (2 ^ k.toNat) else x * 2 ^ (-k).toNat

/-- Least and greatest integers of a signed or unsigned w-bit word (R7, R8). -/
def rangeLo (u : Bool) (w : Nat) : Int := if u then 0 else -(2 ^ (w - 1))
def rangeHi (u : Bool) (w : Nat) : Int := if u then 2 ^ w - 1 else 2 ^ (w - 1) - 1

/-- Whether an integer lies in a range. -/
def inRange (lo hi x : Int) : Bool := decide (lo ≤ x) && decide (x ≤ hi)

/-- The nearer bound of a range when the value lies outside it (R75). -/
def clamp (lo hi x : Int) : Int := if x < lo then lo else if hi < x then hi else x

/-- The integer a 32-bit word stands for, unsigned when `u` (R7, R8). -/
def wordInt (u : Bool) (w : Word) : Int := if u then (w.toNat : Int) else w.toInt

/-- Saturate to a signed 32-bit word, with the saturation flag (R75). -/
def sat32 (x : Int) : Word × Bool :=
  (BitVec.ofInt 32 (clamp (rangeLo false 32) (rangeHi false 32) x),
    !(inRange (rangeLo false 32) (rangeHi false 32) x))

/-- Load of an entry value into its solver variable (R68): from n_e to n_v fraction bits, RNE, saturating. -/
def loadConvert (u : Bool) (w : Word) (ne nv : Nat) : Word × Bool :=
  sat32 (shiftRound .rne (wordInt u w) ((ne : Int) - (nv : Int)))

/-- Alignment of an operand to the accumulator by s bits (R70): zeros appended, or bits discarded toward −∞. -/
def align (x : Int) (s : Int) : Int :=
  if 0 ≤ s then x * 2 ^ s.toNat else x / 2 ^ (-s).toNat

/-- The accumulator's addition: 80-bit two's complement with saturation (R72). -/
def accAdd (acc : BitVec 80) (x : Int) : BitVec 80 × Bool :=
  let s := acc.toInt + x
  (BitVec.ofInt 80 (clamp (rangeLo false 80) (rangeHi false 80) s),
    !(inRange (rangeLo false 80) (rangeHi false 80) s))

/-- Multiply and accumulate one lane (R69, R70, R72). -/
def macLane (acc : BitVec 80) (a b : Word) (s : Int) : BitVec 80 × Bool :=
  accAdd acc (align (a.toInt * b.toInt) s)

/-- Writeback of an accumulator under k and ROUND (R74, R75). -/
def accWriteback (acc : BitVec 80) (k : Int) (m : RoundMode) : Word × Bool :=
  sat32 (shiftRound m acc.toInt k)

/-- Conversion of a routed word from its source format to the entry's input format (R90): RNE at unlimited width,
none where the rounded value does not fit. -/
def gateConvert (su : Bool) (w : Word) (sn : Nat) (du : Bool) (dn : Nat) : Option Word :=
  let x := shiftRound .rne (wordInt su w) ((sn : Int) - (dn : Int))
  if inRange (rangeLo du 32) (rangeHi du 32) x then some (BitVec.ofInt 32 x) else none

/-- The integer of a multi-word value, least significant word first (R126). -/
def mwNat : List Word → Nat
  | [] => 0
  | w :: ws => w.toNat + 2 ^ 32 * mwNat ws

/-- The integer a multi-word value of `ws.length` words stands for. -/
def mwInt (sg : Bool) (ws : List Word) : Int :=
  let n := mwNat ws
  let w := 32 * ws.length
  if sg && decide (2 ^ (w - 1) ≤ n) then (n : Int) - 2 ^ w else (n : Int)

/-- The `k` words of an integer, least significant first, reduced modulo 2^(32 k). -/
def mwWords : Nat → Int → List Word
  | 0, _ => []
  | k + 1, x => BitVec.ofInt 32 x :: mwWords k (x / 2 ^ 32)

/-- Narrow an exact integer to `k` words: saturated, or reduced when `wrap` (R127). -/
def mwNarrowTo (sg wrap : Bool) (k : Nat) (x : Int) : List Word × Bool :=
  if wrap then (mwWords k x, false)
  else
    let lo := rangeLo (!sg) (32 * k)
    let hi := rangeHi (!sg) (32 * k)
    (mwWords k (clamp lo hi x), !(inRange lo hi x))

/-- MWADD and MWSUB (R127). -/
def mwAddSub (sub sg wrap : Bool) (a b : List Word) : List Word × Bool :=
  let x := mwInt sg a
  let y := mwInt sg b
  mwNarrowTo sg wrap a.length (if sub then x - y else x + y)

/-- MWMUL (R128): the exact product shifted right by k with ROUND, saturated to the signed destination. -/
def mwMul (sa sb : Bool) (a b : List Word) (k : Nat) (m : RoundMode) (dwords : Nat) : List Word × Bool :=
  mwNarrowTo true false dwords (shiftRound m (mwInt sa a * mwInt sb b) k)

/-- MWEXT (R129): a 32-bit word widened to k words by sign or zero extension. -/
def mwExt (sg : Bool) (w : Word) (k : Nat) : List Word :=
  mwWords k (wordInt (!sg) w)

/-- MWNARROW (R129): a W-bit value to a 32-bit word under R74 and R75. -/
def mwToWord (a : List Word) (k : Int) (m : RoundMode) : Word × Bool :=
  sat32 (shiftRound m (mwInt true a) k)

/-- Integer square root by bits, from the highest of `n` bit pairs down. -/
def isqrtBits : Nat → Nat → Nat → Nat
  | 0, _, acc => acc
  | n + 1, x, acc =>
    let c := acc + 2 ^ n
    isqrtBits n x (if c * c ≤ x then c else acc)

/-- The floor of the square root of x. -/
def isqrt (x : Nat) : Nat := isqrtBits (x.log2 / 2 + 1) x 0

/-- RECIP in fixed point (R119): Qa.b source, n destination fraction bits; zero gives the upper bound. -/
def fixRecip (d : Word) (b n : Nat) (m : RoundMode) : Word × Bool :=
  if d.toInt = 0 then (BitVec.ofInt 32 (rangeHi false 32), true)
  else
    let s : Int := if d.toInt < 0 then -1 else 1
    sat32 (roundQuot m (s * 2 ^ (b + n)) d.toInt.natAbs)

/-- DIV in fixed point (R119): both operands with their own fraction bits. -/
def fixDiv (a : Word) (ba : Nat) (d : Word) (bd n : Nat) (m : RoundMode) : Word × Bool :=
  if d.toInt = 0 then
    (BitVec.ofInt 32 (if a.toInt < 0 then rangeLo false 32 else rangeHi false 32), true)
  else
    let s : Int := if d.toInt < 0 then -1 else 1
    sat32 (roundQuot m (s * a.toInt * 2 ^ (bd + n)) (d.toInt.natAbs * 2 ^ ba))

/-- RSQRT in fixed point (R119): 2^n / √(d / 2^b); zero and negative sources give the upper bound. -/
def fixRsqrt (d : Word) (b n : Nat) (m : RoundMode) : Word × Bool :=
  if d.toInt ≤ 0 then (BitVec.ofInt 32 (rangeHi false 32), true)
  else
    let dn := d.toInt.toNat
    let num := 2 ^ (2 * n + b)
    let q := isqrt (num / dn)
    let rem : Rem :=
      if q * q * dn = num then .zero
      else if 4 * num < (2 * q + 1) * (2 * q + 1) * dn then .low
      else if 4 * num = (2 * q + 1) * (2 * q + 1) * dn then .half
      else .high
    sat32 (roundFloor m (q : Int) rem)

/-- The guard of a fixed-point pivot (Table 07.3): d′ and whether it was replaced, was zero, has the wrong sign. -/
def fixGuard (blockD : Bool) (tauq ddq : Int) (d : Int) : Int × Bool × Bool × Bool :=
  if d = 0 then (if blockD then -ddq else ddq, true, true, false)
  else
    let wrong := if blockD then decide (0 < d) else decide (d < 0)
    if d.natAbs < tauq.toNat then ((if d < 0 then -ddq else ddq), true, false, wrong)
    else (d, false, false, wrong)

end Sys2Proof.Machine
end

