-- ==== Sys2Proof/Machine/Float.lean ====
section
/-! DEFINITION. Floating-point and tensor arithmetic to the bit (chapter 04): the formats of Table 04.1, correctly
rounded operations with their flags, NaN rules, conversions and the tensor accumulation. -/

namespace Sys2Proof.Machine

/-- A binary format (Table 04.1): exponent bits, fraction bits, and whether it is E4M3 (no infinity, one NaN). -/
structure FFmt where
  eb : Nat
  mb : Nat
  e4m3 : Bool
deriving DecidableEq, Repr

def fp64 : FFmt := ⟨11, 52, false⟩
def fp32 : FFmt := ⟨8, 23, false⟩
def bf16 : FFmt := ⟨8, 7, false⟩
def e4m3 : FFmt := ⟨4, 3, true⟩
def e5m2 : FFmt := ⟨5, 2, false⟩

/-- Exponent bias. -/
def FFmt.bias (f : FFmt) : Int := 2 ^ (f.eb - 1) - 1

/-- The exponent of the least normal number. -/
def FFmt.emin (f : FFmt) : Int := 1 - f.bias

/-- Bits of an encoding without its sign. -/
def FFmt.signAt (f : FFmt) : Nat := f.eb + f.mb

/-- The encoding of the largest finite value M, without sign. -/
def FFmt.maxBits (f : FFmt) : Nat :=
  if f.e4m3 then 2 ^ f.signAt - 2 else (2 ^ f.eb - 1) * 2 ^ f.mb - 1

/-- A value of a format: a NaN with sign, quiet bit and whole fraction, an infinity, or ±m · 2^e. -/
inductive FVal where
  | nan (neg quiet : Bool) (frac : Nat)
  | inf (neg : Bool)
  | fin (neg : Bool) (m : Nat) (e : Int)
deriving DecidableEq, Repr

/-- The flags of one scalar or pivot operation (Table 04.2). -/
structure FpFlags where
  nv : Bool := false
  dz : Bool := false
  ofl : Bool := false
  uf : Bool := false
  nx : Bool := false
deriving DecidableEq, Repr

def FpFlags.or (a b : FpFlags) : FpFlags :=
  ⟨a.nv || b.nv, a.dz || b.dz, a.ofl || b.ofl, a.uf || b.uf, a.nx || b.nx⟩

/-- Read an encoding (R96). -/
def FFmt.unpack (f : FFmt) (x : Nat) : FVal :=
  let neg := x.testBit f.signAt
  let ex := x / 2 ^ f.mb % 2 ^ f.eb
  let fr := x % 2 ^ f.mb
  if f.e4m3 && decide (x % 2 ^ f.signAt = 2 ^ f.signAt - 1) then .nan neg true fr
  else if !f.e4m3 && decide (ex = 2 ^ f.eb - 1) then
    if fr = 0 then .inf neg else .nan neg (fr.testBit (f.mb - 1)) fr
  else if ex = 0 then .fin neg fr (f.emin - f.mb)
  else .fin neg (2 ^ f.mb + fr) ((ex : Int) - f.bias - f.mb)

/-- The sign bit of an encoding. -/
def FFmt.sgn (f : FFmt) (neg : Bool) : Nat := if neg then 2 ^ f.signAt else 0

/-- Infinity; in E4M3, which has none, the NaN of that sign (R117). -/
def FFmt.infBits (f : FFmt) (neg : Bool) : Nat :=
  f.sgn neg + (if f.e4m3 then 2 ^ f.signAt - 1 else (2 ^ f.eb - 1) * 2 ^ f.mb)

/-- The default NaN (R102). -/
def FFmt.defaultNan (f : FFmt) : Nat :=
  if f.e4m3 then 2 ^ f.signAt - 1 else (2 ^ f.eb - 1) * 2 ^ f.mb + 2 ^ (f.mb - 1)

/-- A NaN of the format with its quiet bit forced to 1 (R101). -/
def FFmt.quietNan (f : FFmt) (neg : Bool) (frac : Nat) : Nat :=
  if f.e4m3 then f.sgn neg + (2 ^ f.signAt - 1)
  else f.sgn neg + (2 ^ f.eb - 1) * 2 ^ f.mb + (frac ||| 2 ^ (f.mb - 1))

/-- A positive real: num/den, or its square root. -/
structure Mag where
  num : Nat
  den : Nat
  root : Bool
deriving DecidableEq, Repr

/-- ⌊log2⌋ of num/den. -/
def log2Rat (num den : Nat) : Int :=
  let l : Int := (num.log2 : Int) - (den.log2 : Int)
  let ge : Bool := if 0 ≤ l then decide (den * 2 ^ l.toNat ≤ num) else decide (den ≤ num * 2 ^ (-l).toNat)
  if ge then l else l - 1

def Mag.log2 (v : Mag) : Int :=
  let e := log2Rat v.num v.den
  if v.root then e / 2 else e

/-- The floor of v / 2^q and the excess over it. -/
def Mag.floorAt (v : Mag) (q : Int) : Nat × Rem :=
  let k : Int := if v.root then 2 * q else q
  let n := if k < 0 then v.num * 2 ^ (-k).toNat else v.num
  let d := if k < 0 then v.den else v.den * 2 ^ k.toNat
  if v.root then
    let r := isqrt (n / d)
    (r, if r * r * d = n then .zero
        else if 4 * n < (2 * r + 1) * (2 * r + 1) * d then .low
        else if 4 * n = (2 * r + 1) * (2 * r + 1) * d then .half
        else .high)
  else (n / d, remOf (n % d) d)

/-- Round a nonnegative floor with a sign: the direction of the directed modes follows the sign. -/
def roundMag (m : RoundMode) (neg : Bool) (q : Nat) (rem : Rem) : Nat :=
  let m' : RoundMode :=
    match m with
    | .rdn => if neg then .rup else .rdn
    | .rup => if neg then .rdn else .rup
    | .rtz => .rdn
    | x => x
  (roundFloor m' (q : Int) rem).toNat

/-- Whether overflow in this direction delivers infinity. -/
def overflowsToInf (m : RoundMode) (neg : Bool) : Bool :=
  match m with
  | .rne => true
  | .rha => true
  | .rtz => false
  | .rdn => neg
  | .rup => !neg

/-- Round a positive real with a sign into a format (R97, R99, R100): encoding and flags. -/
def FFmt.round (f : FFmt) (m : RoundMode) (neg : Bool) (v : Mag) : Nat × FpFlags :=
  let e := v.log2
  let qn : Int := e - f.mb
  let qe : Int := if qn < f.emin - f.mb then f.emin - f.mb else qn
  let fl := v.floorAt qe
  let r := roundMag m neg fl.1 fl.2
  let inexact := decide (fl.2 ≠ .zero)
  let fn := v.floorAt qn
  let tiny := decide (e < f.emin) && !(decide (e = f.emin - 1) && decide (roundMag m neg fn.1 fn.2 = 2 ^ (f.mb + 1)))
  let enc : Nat :=
    if r < 2 ^ f.mb then r
    else if r = 2 ^ (f.mb + 1) then (qe + f.mb + 1 + f.bias).toNat * 2 ^ f.mb
    else (qe + f.mb + f.bias).toNat * 2 ^ f.mb + (r - 2 ^ f.mb)
  if f.maxBits < enc then
    (if overflowsToInf m neg then f.infBits neg else f.sgn neg + f.maxBits, { ofl := true, nx := true })
  else (f.sgn neg + enc, { uf := tiny && inexact, nx := inexact })

/-- An exact finite value ±m · 2^e as a positive real (m is nonzero). -/
def magOf (m : Nat) (e : Int) : Mag :=
  if 0 ≤ e then ⟨m * 2 ^ e.toNat, 1, false⟩ else ⟨m, 2 ^ (-e).toNat, false⟩

/-- Round an exact signed dyadic; `zneg` is the sign of an exact zero. -/
def FFmt.roundDyadic (f : FFmt) (m : RoundMode) (zneg : Bool) (x : Int) (e : Int) : Nat × FpFlags :=
  if x = 0 then (f.sgn zneg, {}) else f.round m (decide (x < 0)) (magOf x.natAbs e)

def sgnInt (neg : Bool) (m : Nat) : Int := if neg then -(m : Int) else m

/-- First NaN among the operands, quieted, with NV for any signalling operand (R101). -/
def firstNan (f : FFmt) : List FVal → Option Nat
  | [] => none
  | .nan neg _ fr :: _ => some (f.quietNan neg fr)
  | _ :: t => firstNan f t

def isSignalling : FVal → Bool
  | .nan _ quiet _ => !quiet
  | _ => false

/-- The sign of an exact zero sum (IEEE 754, R97): both signs alike, else −0 only toward −∞. -/
def zeroSign (m : RoundMode) (an bn : Bool) : Bool := if an = bn then an else decide (m = .rdn)

/-- The sum of two dyadics, exactly. -/
def addDyadic (x : Int) (ex : Int) (y : Int) (ey : Int) : Int × Int :=
  let e := if ex ≤ ey then ex else ey
  (x * 2 ^ (ex - e).toNat + y * 2 ^ (ey - e).toNat, e)

/-- Addition of two values (R97, R101, R102). -/
def FFmt.addV (f : FFmt) (m : RoundMode) (a b : FVal) : Nat × FpFlags :=
  match firstNan f [a, b] with
  | some r => (r, { nv := isSignalling a || isSignalling b })
  | none =>
    match a, b with
    | .inf sa, .inf sb => if sa = sb then (f.infBits sa, {}) else (f.defaultNan, { nv := true })
    | .inf sa, _ => (f.infBits sa, {})
    | _, .inf sb => (f.infBits sb, {})
    | .fin sa ma ea, .fin sb mb eb =>
      let s := addDyadic (sgnInt sa ma) ea (sgnInt sb mb) eb
      f.roundDyadic m (zeroSign m sa sb) s.1 s.2
    | _, _ => (f.defaultNan, { nv := true })

def FVal.negate : FVal → FVal
  | .nan n q fr => .nan n q fr
  | .inf n => .inf (!n)
  | .fin n m e => .fin (!n) m e

def FFmt.add (f : FFmt) (m : RoundMode) (a b : Nat) : Nat × FpFlags := f.addV m (f.unpack a) (f.unpack b)
def FFmt.sub (f : FFmt) (m : RoundMode) (a b : Nat) : Nat × FpFlags := f.addV m (f.unpack a) (f.unpack b).negate

/-- Multiplication (R97, R102). -/
def FFmt.mul (f : FFmt) (m : RoundMode) (a b : Nat) : Nat × FpFlags :=
  let x := f.unpack a
  let y := f.unpack b
  match firstNan f [x, y] with
  | some r => (r, { nv := isSignalling x || isSignalling y })
  | none =>
    match x, y with
    | .inf sa, .inf sb => (f.infBits (sa != sb), {})
    | .inf sa, .fin sb mb _ => if mb = 0 then (f.defaultNan, { nv := true }) else (f.infBits (sa != sb), {})
    | .fin sa ma _, .inf sb => if ma = 0 then (f.defaultNan, { nv := true }) else (f.infBits (sa != sb), {})
    | .fin sa ma ea, .fin sb mb eb => f.roundDyadic m (sa != sb) (sgnInt (sa != sb) (ma * mb)) (ea + eb)
    | _, _ => (f.defaultNan, { nv := true })

/-- Whether a product is 0 × ∞. -/
def zeroTimesInf : FVal → FVal → Bool
  | .inf _, .fin _ m _ => decide (m = 0)
  | .fin _ m _, .inf _ => decide (m = 0)
  | _, _ => false

/-- Fused multiply-add a·b + c, one rounding (R97, R101, R102). -/
def FFmt.fma (f : FFmt) (m : RoundMode) (a b c : Nat) : Nat × FpFlags :=
  let x := f.unpack a
  let y := f.unpack b
  let z := f.unpack c
  let zi := zeroTimesInf x y
  match firstNan f [x, y, z] with
  | some r => (r, { nv := isSignalling x || isSignalling y || isSignalling z || zi })
  | none =>
    if zi then (f.defaultNan, { nv := true })
    else
      match x, y, z with
      | .fin sa ma ea, .fin sb mb eb, .fin sc mc ec =>
        let s := addDyadic (sgnInt (sa != sb) (ma * mb)) (ea + eb) (sgnInt sc mc) ec
        f.roundDyadic m (zeroSign m (sa != sb) sc) s.1 s.2
      | .fin _ _ _, .fin _ _ _, .inf sc => (f.infBits sc, {})
      | .inf sa, .inf sb, .inf sc =>
        if (sa != sb) = sc then (f.infBits sc, {}) else (f.defaultNan, { nv := true })
      | .inf sa, .fin sb _ _, .inf sc =>
        if (sa != sb) = sc then (f.infBits sc, {}) else (f.defaultNan, { nv := true })
      | .fin sa _ _, .inf sb, .inf sc =>
        if (sa != sb) = sc then (f.infBits sc, {}) else (f.defaultNan, { nv := true })
      | .inf sa, .inf sb, _ => (f.infBits (sa != sb), {})
      | .inf sa, .fin sb _ _, _ => (f.infBits (sa != sb), {})
      | .fin sa _ _, .inf sb, _ => (f.infBits (sa != sb), {})
      | _, _, _ => (f.defaultNan, { nv := true })

/-- Division (R118). -/
def FFmt.div (f : FFmt) (m : RoundMode) (a b : Nat) : Nat × FpFlags :=
  let x := f.unpack a
  let y := f.unpack b
  match firstNan f [x, y] with
  | some r => (r, { nv := isSignalling x || isSignalling y })
  | none =>
    match x, y with
    | .inf _, .inf _ => (f.defaultNan, { nv := true })
    | .inf sa, .fin sb _ _ => (f.infBits (sa != sb), {})
    | .fin sa _ _, .inf sb => (f.sgn (sa != sb), {})
    | .fin sa ma ea, .fin sb mb eb =>
      if mb = 0 then
        if ma = 0 then (f.defaultNan, { nv := true }) else (f.infBits (sa != sb), { dz := true })
      else if ma = 0 then (f.sgn (sa != sb), {})
      else
        let e := ea - eb
        let v : Mag := if 0 ≤ e then ⟨ma * 2 ^ e.toNat, mb, false⟩ else ⟨ma, mb * 2 ^ (-e).toNat, false⟩
        f.round m (sa != sb) v
    | _, _ => (f.defaultNan, { nv := true })

/-- The encoding of 1. -/
def FFmt.one (f : FFmt) : Nat := f.bias.toNat * 2 ^ f.mb

/-- Reciprocal (R118). -/
def FFmt.recip (f : FFmt) (m : RoundMode) (a : Nat) : Nat × FpFlags := f.div m f.one a

/-- Reciprocal square root (R118). -/
def FFmt.rsqrt (f : FFmt) (m : RoundMode) (a : Nat) : Nat × FpFlags :=
  match f.unpack a with
  | .nan neg q fr => (f.quietNan neg fr, { nv := !q })
  | .inf neg => if neg then (f.defaultNan, { nv := true }) else (0, {})
  | .fin neg ma ea =>
    if ma = 0 then (f.infBits neg, { dz := true })
    else if neg then (f.defaultNan, { nv := true })
    else
      let v : Mag := if 0 ≤ ea then ⟨1, ma * 2 ^ ea.toNat, true⟩ else ⟨2 ^ (-ea).toNat, ma, true⟩
      f.round m false v

/-- Exact comparison of two non-NaN values: an integer negative, zero or positive. -/
def cmpVal (a b : FVal) : Int :=
  match a, b with
  | .inf sa, .inf sb => if sa = sb then 0 else if sa then -1 else 1
  | .inf sa, _ => if sa then -1 else 1
  | _, .inf sb => if sb then 1 else -1
  | .fin sa ma ea, .fin sb mb eb => (addDyadic (sgnInt sa ma) ea (-(sgnInt sb mb)) eb).1
  | _, _ => 0

def isNanV : FVal → Bool
  | .nan _ _ _ => true
  | _ => false

def FVal.isNeg : FVal → Bool
  | .nan n _ _ => n
  | .inf n => n
  | .fin n _ _ => n

/-- MIN and MAX (R104). -/
def FFmt.minMax (f : FFmt) (isMax : Bool) (a b : Nat) : Nat × FpFlags :=
  let x := f.unpack a
  let y := f.unpack b
  if isSignalling x || isSignalling y then ((firstNan f [x, y]).getD f.defaultNan, { nv := true })
  else if isNanV x && isNanV y then ((firstNan f [x, y]).getD f.defaultNan, {})
  else if isNanV x then (b, {})
  else if isNanV y then (a, {})
  else
    let c := cmpVal x y
    let less := decide (c < 0) || (decide (c = 0) && x.isNeg && !y.isNeg)
    (if less != isMax then a else b, {})

/-- Comparisons CMPEQ, CMPLT, CMPLE (R104). -/
inductive CmpOp where
  | eq
  | lt
  | le
deriving DecidableEq, Repr

def FFmt.compare (f : FFmt) (op : CmpOp) (a b : Nat) : Bool × FpFlags :=
  let x := f.unpack a
  let y := f.unpack b
  if isNanV x || isNanV y then
    (false, { nv := isSignalling x || isSignalling y || decide (op ≠ .eq) })
  else
    let c := cmpVal x y
    (match op with
      | .eq => decide (c = 0)
      | .lt => decide (c < 0)
      | .le => decide (c ≤ 0), {})

/-- Conversion of a value between binary formats with the NaN mapping of R103. -/
def convert (src dst : FFmt) (m : RoundMode) (a : Nat) : Nat × FpFlags :=
  match src.unpack a with
  | .nan neg q fr =>
    let fr' :=
      if src.e4m3 then 0
      else if src.mb ≤ dst.mb then fr * 2 ^ (dst.mb - src.mb) else fr / 2 ^ (src.mb - dst.mb)
    (dst.quietNan neg fr', { nv := !q })
  | .inf neg => (dst.infBits neg, {})
  | .fin neg ma e => dst.roundDyadic m neg (sgnInt neg ma) e

/-- Fixed point to floating point (R120). -/
def fixedToFloat (dst : FFmt) (m : RoundMode) (u : Bool) (w : Word) (n : Nat) : Nat × FpFlags :=
  let r := dst.roundDyadic m false (wordInt u w) (-(n : Int))
  (r.1, { nx := r.2.nx })

/-- Floating point to fixed point (R121): word, SAT_CONV, FP_NV. -/
def floatToFixed (src : FFmt) (m : RoundMode) (u : Bool) (n : Nat) (a : Nat) : Word × Bool × Bool :=
  let lo := rangeLo u 32
  let hi := rangeHi u 32
  match src.unpack a with
  | .nan _ _ _ => (0, true, true)
  | .inf neg => (BitVec.ofInt 32 (if neg then lo else hi), true, false)
  | .fin neg ma e =>
    let x := shiftRound m (sgnInt neg ma) (-(e + n))
    (BitVec.ofInt 32 (clamp lo hi x), !(inRange lo hi x), false)

/-- The exact rational of a finite encoding, as numerator and a power-of-two denominator. -/
def FVal.dyadic : FVal → Option (Int × Int)
  | .fin neg m e => some (sgnInt neg m, e)
  | _ => none

/-- The guard of a floating-point pivot (Table 07.3); τ and δd are encodings of the source's format (R195). A NaN or
infinite source is kept: the comparisons of the table replace neither. -/
def FFmt.guard (f : FFmt) (blockD : Bool) (tau dd : Nat) (d : Nat) : Nat × Bool × Bool × Bool :=
  match f.unpack d with
  | .nan _ _ _ => (d, false, false, false)
  | .inf neg => (d, false, false, if blockD then !neg else neg)
  | .fin neg ma e =>
    if ma = 0 then (f.sgn blockD + dd, true, true, false)
    else
      let wrong := if blockD then !neg else neg
      if decide (cmpVal (.fin false ma e) (f.unpack tau) < 0) then (f.sgn neg + dd, true, false, wrong)
      else (d, false, false, wrong)

/-- Tensor operand formats by code (Table 06.12a). -/
inductive TFmt where
  | int8
  | uint8
  | int4
  | uint4
  | e4m3
  | e5m2
  | bf16
deriving DecidableEq, Repr

def TFmt.ofCode (c : Nat) : Option TFmt :=
  match c with
  | 0 => some .int8
  | 1 => some .uint8
  | 2 => some .int4
  | 3 => some .uint4
  | 4 => some .e4m3
  | 5 => some .e5m2
  | 6 => some .bf16
  | _ => none

def TFmt.bits : TFmt → Nat
  | .int8 => 8
  | .uint8 => 8
  | .int4 => 4
  | .uint4 => 4
  | .e4m3 => 8
  | .e5m2 => 8
  | .bf16 => 16

def TFmt.float? : TFmt → Option FFmt
  | .e4m3 => some Sys2Proof.Machine.e4m3
  | .e5m2 => some Sys2Proof.Machine.e5m2
  | .bf16 => some Sys2Proof.Machine.bf16
  | _ => none

/-- Pairs of formats a tensor MAC may take (R113): two 8-bit integer formats, two 4-bit ones, or two floating ones. -/
def tensorPairOk (a b : TFmt) : Bool :=
  match a.float?, b.float? with
  | some _, some _ => true
  | none, none => decide (a.bits = b.bits)
  | _, _ => false

/-- MACs per lane of a pair: 32 for INT4, 4 for BF16 × BF16, 16 otherwise (R113, R137). -/
def tensorCount (a b : TFmt) : Nat :=
  if a.bits = 4 then 32 else if a = .bf16 && b = .bf16 then 4 else 16

/-- The flags of one tensor operation (Table 04.2). -/
structure TfFlags where
  nv : Bool := false
  ofl : Bool := false
  uf : Bool := false
  nx : Bool := false
  sat : Bool := false
  daz : Bool := false
deriving DecidableEq, Repr

def TfFlags.or (a b : TfFlags) : TfFlags :=
  ⟨a.nv || b.nv, a.ofl || b.ofl, a.uf || b.uf, a.nx || b.nx, a.sat || b.sat, a.daz || b.daz⟩

/-- An integer tensor element. -/
def tensorInt (t : TFmt) (x : Nat) : Int :=
  match t with
  | .int8 => (BitVec.ofNat 8 x).toInt
  | .uint8 => ((x % 256 : Nat) : Int)
  | .int4 => (BitVec.ofNat 4 x).toInt
  | _ => ((x % 16 : Nat) : Int)

/-- An integer tensor MAC (R116). -/
def tensorMacInt (acc : Word) (a b : Int) : Word × Bool := sat32 (acc.toInt + a * b)

/-- A tensor input with TDAZ applied (R115): the value, and whether a nonzero subnormal was taken as zero. -/
def tensorInput (f : FFmt) (tdaz : Bool) (x : Nat) : FVal × Bool :=
  match f.unpack x with
  | .fin neg m e =>
    if tdaz && decide (m ≠ 0) && decide (m < 2 ^ f.mb) then (.fin neg 0 e, true) else (.fin neg m e, false)
  | v => (v, false)

/-- The FP32 image of a narrow NaN (R103). -/
def nanTo32 (f : FFmt) : FVal → FVal
  | .nan neg q fr => .nan neg q (if f.e4m3 then 2 ^ 22 else fr * 2 ^ (fp32.mb - f.mb))
  | v => v

/-- A floating-point tensor MAC: exact product, one RNE rounding into FP32 (R114, R101, R102). Of the invalid operations
Table 04.2 gives TF_NV to a 0 × ∞ product and a signalling NaN input, not to ∞ − ∞ (R105). -/
def tensorMacFp (fa fb : FFmt) (tdaz : Bool) (acc : Word) (a b : Nat) : Word × TfFlags :=
  let xa := tensorInput fa tdaz a
  let xb := tensorInput fb tdaz b
  let c := fp32.unpack acc.toNat
  let va := nanTo32 fa xa.1
  let vb := nanTo32 fb xb.1
  let daz := xa.2 || xb.2
  let zi := zeroTimesInf va vb
  match firstNan fp32 [va, vb, c] with
  | some r => (BitVec.ofNat 32 r, { nv := isSignalling va || isSignalling vb || isSignalling c || zi, daz := daz })
  | none =>
    if zi then (BitVec.ofNat 32 fp32.defaultNan, { nv := true, daz := daz })
    else
      let p : FVal :=
        match va, vb with
        | .fin sa ma ea, .fin sb mb eb => .fin (sa != sb) (ma * mb) (ea + eb)
        | _, _ => .inf (va.isNeg != vb.isNeg)
      let r := fp32.addV .rne p c
      (BitVec.ofNat 32 r.1, { ofl := r.2.ofl, uf := r.2.uf, nx := r.2.nx, daz := daz })

/-- Tensor writeback of an FP32 accumulator (R117, R124). -/
def tensorConvert (t : FFmt) (satcvt : Bool) (acc : Word) : Nat × TfFlags :=
  match fp32.unpack acc.toNat with
  | .nan neg q fr => (if t.e4m3 then t.infBits neg else t.quietNan neg (fr / 2 ^ (fp32.mb - t.mb)), { nv := !q })
  | .inf neg => (t.infBits neg, { nv := t.e4m3 })
  | .fin neg m e =>
    let r := t.roundDyadic .rne neg (sgnInt neg m) e
    if r.2.ofl then
      (if satcvt then t.sgn neg + t.maxBits else t.infBits neg, { ofl := true, nx := true })
    else (r.1, { uf := r.2.uf, nx := r.2.nx })

/-- Tensor writeback of an INT32 accumulator (R117): shift with RNE, saturate at the target's range. -/
def tensorRequant (t : TFmt) (shift : Nat) (acc : Word) : Nat × Bool :=
  let w := t.bits
  let u := decide (t = .uint8) || decide (t = .uint4)
  let x := roundQuot .rne acc.toInt (2 ^ shift)
  let lo := rangeLo u w
  let hi := rangeHi u w
  ((BitVec.ofInt w (clamp lo hi x)).toNat, !(inRange lo hi x))

end Sys2Proof.Machine
end

