-- ==== Sys2Proof/Machine/Flags.lean ====
section
/-! DEFINITION. Every flag computation of the spec: the arithmetic sticky flags of a command (Tables 03.3 and 04.2, in
the ARITH order of Table 13.9), the FP control word with its traps (Table 04.3), the completion FLAGS (Table 13.10)
and the pivot counters (R198). -/

namespace Sys2Proof.Machine

/-- ARITH of Table 13.9: bit 0 SAT_LOAD to bit 14 TF_DAZ. -/
abbrev Arith := BitVec 15

def satLoad : Arith := 0x0001
def satAcc : Arith := 0x0002
def satWb : Arith := 0x0004
def satConv : Arith := 0x0008
def fpNv : Arith := 0x0010
def fpDz : Arith := 0x0020
def fpOf : Arith := 0x0040
def fpUf : Arith := 0x0080
def fpNx : Arith := 0x0100
def tfNv : Arith := 0x0200
def tfOf : Arith := 0x0400
def tfUf : Arith := 0x0800
def tfNx : Arith := 0x1000
def tfSat : Arith := 0x2000
def tfDaz : Arith := 0x4000

/-- A flag when its condition holds. -/
def flagIf (b : Bool) (f : Arith) : Arith := if b then f else 0

/-- The flags of Table 03.3, whose setting under a certificate is a range breach (R79). -/
def breachMask : Arith := 0x000F

/-- ARITH of one scalar or pivot operation. -/
def FpFlags.arith (f : FpFlags) : Arith :=
  flagIf f.nv fpNv ||| flagIf f.dz fpDz ||| flagIf f.ofl fpOf ||| flagIf f.uf fpUf ||| flagIf f.nx fpNx

/-- ARITH of one tensor operation. -/
def TfFlags.arith (f : TfFlags) : Arith :=
  flagIf f.nv tfNv ||| flagIf f.ofl tfOf ||| flagIf f.uf tfUf ||| flagIf f.nx tfNx ||| flagIf f.sat tfSat
    ||| flagIf f.daz tfDaz

/-- The FP control word of a command (Table 04.3). -/
abbrev Fpcw := BitVec 16

def Fpcw.tdaz (c : Fpcw) : Bool := c.getLsbD 11
def Fpcw.satcvt (c : Fpcw) : Bool := c.getLsbD 10
def Fpcw.frnd (c : Fpcw) : RoundMode := frndOfCode (c.toNat / 256 % 4)

/-- RSV bits of the FP control word: [15:12] and [1:0]. -/
def Fpcw.rsvZero (c : Fpcw) : Bool := decide (c &&& 0xF003 = 0)

/-- The ARITH flags whose trap the control word enables (Table 04.2). -/
def Fpcw.trapMask (c : Fpcw) : Arith :=
  flagIf (c.getLsbD 7) fpNv ||| flagIf (c.getLsbD 6) fpDz ||| flagIf (c.getLsbD 5) fpOf ||| flagIf (c.getLsbD 4) fpUf
    ||| flagIf (c.getLsbD 3) tfNv ||| flagIf (c.getLsbD 2) tfOf

/-- FLAGS of Table 13.10. -/
abbrev CFlags := BitVec 64

def cfColdStart : CFlags := 1 <<< 0
def cfWsDiscarded : CFlags := 1 <<< 1
def cfFirstLaunch : CFlags := 1 <<< 2
def cfSettling : CFlags := 1 <<< 3
def cfBestEarlier : CFlags := 1 <<< 4
def cfPlanShifted : CFlags := 1 <<< 5
def cfNoPlan : CFlags := 1 <<< 6
def cfNoIterate : CFlags := 1 <<< 7
def cfCheckLate : CFlags := 1 <<< 8
def cfOverDeadline : CFlags := 1 <<< 9
def cfRangeBreach : CFlags := 1 <<< 10
def cfFamilyIndex : CFlags := 1 <<< 11
def cfDecisionWord : CFlags := 1 <<< 12
def cfDualMismatch : CFlags := 1 <<< 13
def cfPivotReplaced : CFlags := 1 <<< 14
def cfPivotInertia : CFlags := 1 <<< 15
def cfUpdateLimit : CFlags := 1 <<< 16
def cfRefineIncomplete : CFlags := 1 <<< 17
def cfUpstreamRefused : CFlags := 1 <<< 18
def cfUpstreamStale : CFlags := 1 <<< 19
def cfCertMismatch : CFlags := 1 <<< 20
def cfCopyMismatch : CFlags := 1 <<< 21
def cfAssayFault : CFlags := 1 <<< 22
def cfUngated : CFlags := 1 <<< 23
def cfLinDefault : CFlags := 1 <<< 24
def cfNoValidItem : CFlags := 1 <<< 25
def cfSemOvf : CFlags := 1 <<< 26

/-- A completion flag when its condition holds. -/
def cfIf (b : Bool) (f : CFlags) : CFlags := if b then f else 0

/-- Whether a completion flag is set. -/
def cfHas (x f : CFlags) : Bool := decide (x &&& f ≠ 0)

/-- The three pivot counters of a command, 16 bits each, saturating (R198). -/
structure PivCounts where
  repl : Nat := 0
  zero : Nat := 0
  inertia : Nat := 0
deriving DecidableEq, Repr, Inhabited

/-- Count one guarded pivot (Table 07.3). -/
def PivCounts.count (c : PivCounts) (repl zero inertia : Bool) : PivCounts :=
  ⟨if repl then satInc 16 c.repl else c.repl, if zero then satInc 16 c.zero else c.zero,
    if inertia then satInc 16 c.inertia else c.inertia⟩

/-- PIVOT_REPLACED and PIVOT_INERTIA (R198). -/
def PivCounts.flags (c : PivCounts) : CFlags :=
  cfIf (decide (c.repl ≠ 0)) cfPivotReplaced ||| cfIf (decide (c.inertia ≠ 0)) cfPivotInertia

end Sys2Proof.Machine
end

