-- ==== Sys2Proof/Machine/PartitionTypes.lean ====
section
/-! DEFINITION. The state a partition holds (chapters 02, 06, 07, 08, 10, 12): instances, update sets at the range gate,
commands of launch entries and of rings, postings at Assay, image slots and the best-effort scheduler. -/

namespace Sys2Proof.Machine

/-- States of a command (Table 08.7). -/
inductive CmdState where
  | wait
  | start
  | run
  | finish
  | verify
  | waitRerun
  | gate
  | done
deriving DecidableEq, Repr, Inhabited

/-- STOP_REASON (Table 13.8). -/
inductive StopReason where
  | converged
  | iterMax
  | deadline
  | updateLimit
  | infeasible
  | breach
  | notStarted
  | killed
deriving DecidableEq, Repr, Inhabited

def StopReason.code : StopReason → Nat
  | .converged => 0
  | .iterMax => 1
  | .deadline => 2
  | .updateLimit => 3
  | .infeasible => 4
  | .breach => 5
  | .notStarted => 6
  | .killed => 7

/-- Start case (R187), coded as Table 13.8 codes START. -/
inductive StartCase where
  | warm
  | refac
  | cold
deriving DecidableEq, Repr, Inhabited

def StartCase.code : StartCase → Nat
  | .warm => 0
  | .refac => 1
  | .cold => 2

/-- Outcome of the warm-start tests (Table 02.10), coded as WS_REASON of Table 13.8. -/
inductive WsReason where
  | none
  | signature
  | stale
  | range
  | used
deriving DecidableEq, Repr, Inhabited

def WsReason.code : WsReason → Nat
  | .none => 0
  | .signature => 1
  | .stale => 2
  | .range => 3
  | .used => 4

/-- A warm start: words, signature and source launch (R53, R56). -/
structure WarmStart where
  sig : Word64
  src : Nat
  words : List Word
deriving DecidableEq, Repr, Inhabited

/-- A queued update set of an instance (R45): its ASN, the values in record order, or a warm start (R53). -/
structure QSet where
  asn : Word
  vals : List (Nat × Word)
  warm : Option WarmStart
  -- the count at which its last record was accepted (R46)
  at_ : Nat
deriving DecidableEq, Repr, Inhabited

/-- A committed trajectory (R232, R235): iterate words and nominal release count. -/
structure Traj where
  words : List Word
  release : Nat
  -- the count at which it was committed (R255)
  tick : Nat
  -- the instance that committed it
  inst : Nat
deriving DecidableEq, Repr, Inhabited

/-- A certificate as Assay stamps it (Table 10.5). -/
structure AssayCert where
  fails : BitVec 4
  posting : Nat
  pass : Bool
  nan : Bool
  thr : Nat
  iter : Nat
  inst : Nat
  crc : Word
  pres : Word
  viol : Word
  dres : Word
  gap : Word64
deriving DecidableEq, Repr, Inhabited

/-- An admitted instance (R36, R37, R59 to R62, R201 to R203). -/
structure Inst where
  num : Nat
  incarn : BitVec 6
  ctx : Nat
  slot : Nat
  batched : Bool
  member : Nat
  wsMaxAge : Nat
  wsShift : Nat
  period : Nat
  released : Bool
  -- the count at which its INST_DECL was accepted (R63)
  joinedAt : Nat
  bytes : Nat
  -- the primary part, SPACE 1 (R178), and the Assay copy (R39)
  space : Memory
  assay : List Word
  queue : List QSet
  warm : Option WarmStart
  -- the cached factor (R201, Table 07.4)
  factorValid : Bool
  factorSkip : Bool
  bufSwap : Bool
  -- what the taken sets of the next launch leave (R50, R187)
  takenAsn : Word
  takenSets : Nat
  factorTaken : Bool
  -- estimators: carried state and Assay's retained copy of x̂, as FP64 (R55, R268)
  carried : Option (List Word)
  xPrev : Option (List Word64)
  -- commits since admission (R226) and what RESULT_READ copies (R354)
  commits : Nat
  -- L of the last commit (Table 19.2, SNAP)
  lastL : Nat
  launched : Bool
  lastWords : Option (List Word)
  lastCert : Option AssayCert
  -- the trajectory committed last and the one before it (R255)
  traj : Option Traj
  prevTraj : Option Traj
  -- pending completion flags of the next launch that starts (R92, R234)
  upRefused : Bool
  upStale : Bool
deriving DecidableEq, Repr, Inhabited

/-- Where a set at the gate comes from (R44). -/
inductive GateSrc where
  | host (ctx ring seq : Nat)
  | stream (num seq : Nat)
  | commit (part await target entry launch : Nat)
  -- a set presented from a recording (R514): the SEQ of its record, and SOURCE of Table 19.3
  | replay (seq source : Nat)
deriving DecidableEq, Repr, Inhabited

/-- An object or set waiting at a partition's gate (R44): for a host object its words, header first; for a stream frame
its payload words; for a device commit the output words its map routes. -/
structure GateItem where
  src : GateSrc
  kind : Nat
  slot : Nat
  bytes : Nat
  words : List Word
  recs : List MapRec
  inst : Nat
  tsig : Word64
  -- the recorded ASN of a replayed set, 0 when none (R515)
  asn : Word
  -- the local tick of its arrival (R44)
  tick : Nat
deriving DecidableEq, Repr, Inhabited

/-- The best certified iterate (R228). -/
structure BestIter where
  iter : Nat
  words : List Word
  cert : AssayCert
deriving DecidableEq, Repr, Inhabited

/-- One instance's part in a command: a stand-alone instance, or a member of a batch (R63). -/
structure Member where
  inst : Nat
  reason : WsReason
  start : StartCase
  age : Nat
  first : Bool
  upRefused : Bool
  upStale : Bool
  asn : Word
  taken : Nat
  final : Option (List Word)
  cert : Option AssayCert
  best : Option BestIter
  -- verdict faults of R278, R284, R285
  mismatch : Bool
  copyBad : Bool
  assayBad : Bool
deriving DecidableEq, Repr, Inhabited

/-- What stopped a command by R219: the completion flag, and whether it is an FP trap. -/
structure Stop where
  flag : CFlags
  trap : Bool
  tile : Nat
  arith : Arith
deriving DecidableEq, Repr, Inhabited

/-- A command (Table 08.7) with the controller's variables (R178, R181, R218, R221). -/
structure Cmd where
  st : CmdState
  launch : Nat
  slot : Nat
  entry : Nat
  thr : Nat
  fpcw : Fpcw
  fair : Bool
  batch : Bool
  deadline : Nat
  -- the local tick of the launch tick (R410)
  lt0 : Nat
  start : StartCase
  members : List Member
  -- segment controller: fcyc of the present boundary, D_f, present segment, counts
  t : Nat
  df : Int
  seg : Nat
  iter : Nat
  rank1 : Nat
  refine : Nat
  -- REFINE segments run, and whether the last one left its residual above REFINE_TOL (R212)
  steps : Nat
  refineOpen : Bool
  stop : Option StopReason
  -- flags and counters of the command (R77, R105, R198)
  arith : Arith
  flags : CFlags
  firstTile : Option (Nat × Arith)
  halted : Option Stop
  piv : PivCounts
  chkSkipped : Nat
  -- a Hold killed it (R222)
  held : Bool
  endTime : Word64
  -- items of a MODEL command, frozen at its launch, and the flags their conversions set (R255)
  items : List (List Nat)
  itemArith : Arith
  -- the members as they stood before the launch froze them (R543)
  before : List Inst
deriving DecidableEq, Repr, Inhabited

/-- Which command a posting belongs to: a launch entry's, or a ring's (64 rings of 8 numbered 8·context + ring). -/
inductive CmdKey where
  | entry (j : Nat)
  | ring (k : Nat)
deriving DecidableEq, Repr, Inhabited

/-- A posting to Assay (R227): 0 intermediate, 1 final, 2 best-effort. -/
structure Posting where
  key : CmdKey
  kind : Nat
  iter : Nat
  words : List (Nat × List Word)
deriving DecidableEq, Repr, Inhabited

/-- The contents of a LAUNCH group (Tables 13.8 and 13.9) before it is laid into slots. -/
structure LaunchRec where
  ctx : Nat
  status : Nat
  cause : Nat
  part : Nat
  img : Nat
  fair : Bool
  inst : Nat
  entry : Nat
  iterDone : Nat
  committedIter : Nat
  rank1 : Nat
  refine : Nat
  rseg : Nat
  start : Nat
  stop : Nat
  reason : Nat
  asn : Word
  launch : Nat
  subopt : Word64
  flags : CFlags
  arith : Arith
  piv : PivCounts
  chkSkipped : Nat
  nanItems : Nat
  refusedEntry : Nat
  endTime : Word64
  taken : Nat
  cert : Option AssayCert
deriving DecidableEq, Repr, Inhabited

/-- A completed command whose commit sets are still being judged (R366): the group to write then. `be` names the ring
item that carries it, for a best-effort command; `refused` holds the lowest refused target with its status; `step` holds the
instances whose step lasts until it is written (R62). -/
structure Await where
  id : Nat
  grp : LaunchRec
  be : Option (Nat × Nat)
  left : Nat
  refused : Option (Nat × Nat × Nat × Nat)
  step : List Nat
deriving DecidableEq, Repr, Inhabited

/-- A release that lies ahead (R231): its count, and the trajectory when its launch committed one in time. -/
structure Release where
  count : Nat
  traj : Option Traj
deriving DecidableEq, Repr, Inhabited

/-- A launch entry's run-time state beside its register words. -/
structure EntryRun where
  on : Bool
  next : Nat
  cutDone : Bool
  cutBlocked : Bool
  -- the cutoff tick of the next launch, fixed when it passed (R46, R63)
  cutTick : Nat
  cmd : Option Cmd
  rels : List Release
  traj : Option Traj
deriving DecidableEq, Repr, Inhabited

def EntryRun.reset : EntryRun := ⟨false, 0, false, false, 0, none, [], none⟩

/-- METHOD_PARAMS as binding converts them (R192, R215): for every guarded RECIP of the image, in stroke order, whether its block is D
and σ_p or σ_d in the format of that diagonal entry; and the FP64 fields of Table 08.1 from RHO on, each beside its FP32 value. -/
structure BoundParams where
  shifts : List (Bool × Nat)
  values : List (Nat × Nat)
deriving DecidableEq, Repr, Inhabited

/-- An image slot (R170): the image, SPACE 0, its converted parameters, and the marks of Table 06.7. -/
structure Slot where
  img : Option Image
  -- an IMAGE_BIND that has passed its checks and is loading: image, context, ring
  loading : Option (Image × Nat × Nat)
  -- an IMAGE_UNBIND accepted while a command runs: context, ring
  unbinding : Option (Nat × Nat)
  space : Memory
  params : BoundParams
  masterBad : Bool
deriving DecidableEq, Repr, Inhabited

def Slot.reset : Slot := ⟨none, none, none, [], ⟨[], []⟩, false⟩

/-- Who holds a partition's tiles. -/
abbrev Holder := Option CmdKey

/-- Why a kill was made (Table 12.3). -/
inductive KillCause where
  | window
  | hold
  | teardown
  | reshape
  | reset
  | pause
  | reload
  | staging
  | lostFunction
deriving DecidableEq, Repr, Inhabited

/-- A kill in progress (R329): the command, the cause and the PAUSE items that wait for its end (context, ring). -/
structure Kill where
  key : CmdKey
  cause : KillCause
  rerun : Bool
  pause : List (Nat × Nat)
deriving DecidableEq, Repr, Inhabited

/-- Parameters a partition runs with (R316, R540): the register words in force. -/
structure PartParams where
  geom : Word
  mem : Word
  sched : Word
  lanes : Word
deriving DecidableEq, Repr, Inhabited

def PartParams.reset : PartParams := ⟨0, 0, 0, 0⟩

/-- One partition. -/
structure Part where
  on : Bool
  reshaping : Bool
  -- a re-shape request that waits for the boundary of R335 step 1
  reshapeAsked : Bool
  -- the re-shape under way was asked for, and brings in the pending parameters (R540)
  applyPars : Bool
  pars : PartParams
  pendingPars : Bool
  slots : Tbl Slot
  insts : List Inst
  lastIncarn : Tbl (Option (BitVec 6))
  gate : List GateItem
  entries : Tbl EntryRun
  holder : Holder
  kill : Option Kill
  postings : List Posting
  awaits : List Await
  nextAwait : Nat
  -- best-effort scheduler (R325, R326)
  rrLast : Nat
  cycle : Nat
  agedLeft : Nat
  agedOver : Nat
  -- FAB_PART_CUTOFF: the old TICKS that still governs after a lowering (R540)
  oldTicks : Option Nat
  -- the owner's command has left the fabric in the present window (R321)
  returned : Bool
  -- the fcyc of local time at which the last kill freed the tiles (R329)
  tilesFree : Nat
  holdSkips : Nat
  -- the present millisecond, its open and returned ticks so far, and those best-effort commands held (R475)
  msTick : Nat
  msAvail : Nat
  msUsed : Nat
deriving DecidableEq, Repr, Inhabited

def Part.reset : Part :=
  ⟨false, false, false, false, .reset, false, [], [], [], [], [], none, none, [], [], 0, 0, 0, 0, 0, none, false, 0, 0, 0, 0, 0⟩

/-- A best-effort command at the head of its ring (R242, R260, R321). -/
structure BeCmd where
  ctx : Nat
  ring : Nat
  part : Nat
  model : Bool
  slot : Nat
  inst : Nat
  addr : Nat
  bytes : Nat
  items : Nat
  inAddr : Nat
  inBytes : Nat
  sem : Word
  -- the local ticks at which it became the head of its ring, and at which its descriptor was accepted
  headTick : Nat
  accepted : Nat
  firstStart : Option Nat
  cmd : Cmd
  -- MODEL: input frozen at the first start, GDDR6 reservation, kernel cursor, staged kernel
  input : List Byte
  ws : Nat
  wsAt : Nat
  cursor : Nat
  staged : Bool
  -- bytes staged into the share for the kernel that runs (R261)
  stageBytes : Nat
  -- the output tensors of the kernels ended, in the workspace: a layer with its elements for every item (R261)
  tensors : List (Nat × List (List Nat))
  -- flags and counters of the kernels ended, which a re-run keeps (R262, R240)
  keptArith : Arith
  keptPiv : PivCounts
  outputs : List (List Nat)
  -- SOLVE: posted to the pool; verdict in hand
  posted : Bool
  judged : Bool
  -- waits in GATE for link credit (R332); the Quill link its frames leave on once its commit sets are accepted, and its group then (R333)
  linkWait : Bool
  outLink : Option Nat
  outGrp : Option LaunchRec
  -- granted by step 3 of R325, and in the AGED band
  aged : Bool
  free : Bool
deriving DecidableEq, Repr, Inhabited

end Sys2Proof.Machine
end

