-- ==== Sys2Proof/Machine/PlatformTypes.lean ====
section
/-! DEFINITION. The state of the platform: the time unit (chapter 15), memory ownership and error logs (chapter 16),
reset, boot and power (chapter 17), Hallmark (chapter 18), the Blotter (chapter 19), sparing and health (chapter 20). -/

namespace Sys2Proof.Machine

/-- Servo states (Table 15.3), by code. -/
inductive ServoState where
  | freerun
  | acquire
  | locked
  | holdover
  | stepPending
deriving DecidableEq, Repr, Inhabited

def ServoState.code : ServoState → Nat
  | .freerun => 0
  | .acquire => 1
  | .locked => 2
  | .holdover => 3
  | .stepPending => 4

/-- Holdover causes (Table 15.7): 0 none, 1 ASYM, 2 SOURCE, 3 RESET, 4 REF. -/
abbrev HoldCause := Nat

/-- The time unit (R405, R408, R416, R417). Offsets are Q48.16 ns, path delays UQ24.8 ns. -/
structure TimeUnit where
  t : BitVec 96
  incr : BitVec 40
  -- highest LC before a step back, above which counts are reached again
  mark : Nat
  st : ServoState
  cause : HoldCause
  integ : Int
  -- exact: numerator over 2^(8 + k)
  pdMean : Option (Int × Nat)
  lastPd : Int
  lastE : Int
  refused : Nat
  lockRun : Nat
  recover : Nat
  proposal : Int
  stepId : BitVec 16
  stepNext : BitVec 16
  accepted : Option (Int × BitVec 16)
  syncOut : Bool
  syncLeft : Nat
  lastEdge : Option Int
  refLost : Bool
  port : Nat
  -- local tick of the last applied step: a measurement with an earlier timestamp is discarded (R417)
  stepTick : Nat
deriving DecidableEq, Repr, Inhabited

def TimeUnit.reset : TimeUnit :=
  ⟨0, 0x280000000, 0, .freerun, 0, 0, none, 0, 0, 0, 0, 0, 0, 0, 0, none, false, 0, none, false, 0, 0⟩

/-- An entry of MEM_UE_LOG (R444): array, address, tick. -/
structure UeEntry where
  array : Nat
  addr : Word
  tick : Nat
deriving DecidableEq, Repr, Inhabited

/-- Memory ownership and error records (R432, R440, R444). Side n: owner partition, and whether as an Assay side. -/
structure MemSys where
  sides : Tbl (Option (Nat × Bool))
  enabledOnce : Bool
  ce : Tbl Nat
  ceMulti : Tbl Nat
  log : List UeEntry
  ueCount : Nat
  -- GDDR6 workspace bytes reserved, image-region bytes held by masters
  wsUsed : Nat
  imgUsed : Nat
deriving DecidableEq, Repr, Inhabited

def MemSys.reset : MemSys := ⟨[], false, [], [], [], 0, 0, 0⟩

/-- Where the device stands among resets and releases (R448 to R466). -/
inductive Phase where
  | coldReset
  | coldRelease
  | warmReset
  | warmRelease
  | ready
  | bootFail
deriving DecidableEq, Repr, Inhabited

/-- Reset sources, levels and boot (R448, R464, R467). `cold` and `warm` are the source bits of RST_SRC_STAT. -/
structure ResetUnit where
  phase : Phase
  cold : BitVec 6
  warm : BitVec 4
  vddkWarn : Bool
  cause : Nat
  paused : Bool
  bootCause : Nat
  bootSlot : Bool
  -- supplies good, by rail, and brown-outs asserted, by rail
  good : BitVec 7
  brown : BitVec 7
  -- the request bits of RST_PART_REQ and RST_PORT_REQ, and the scopes in reset until their own release has run
  partHeld : BitVec 16
  portHeld : BitVec 28
  partRst : BitVec 16
  portRst : BitVec 28
  -- the pad latch holds the fuse-defined safe levels (R402); the SAFE_MODE pins (R401)
  latch : Bool
  safeMode : BitVec 2
  warmCount : Nat
  -- the local tick of the last watchdog kick
  kickAt : Nat
  -- the local ticks at which the watchdog's and the software's pulse end (R451)
  wdogEnd : Nat
  softEnd : Nat
  -- the tick a device Hold was entered
  hold : Option Nat
  -- retained SRAM holds a GDDR6 training record (Table 17.9)
  trained : Bool
deriving DecidableEq, Repr, Inhabited

def ResetUnit.reset : ResetUnit :=
  ⟨.coldReset, 0, 0, false, 0, false, 0, false, 0x7F, 0, 0, 0, 0, 0, true, 0, 0, 0, 0, 0, none, false⟩

/-- Power and temperature (R469 to R476). -/
structure PowerUnit where
  doms : Tbl PowerState
  -- the quads woken from Off or Retain in the present µs, and the tick that µs began
  wakes : Nat
  wakeTick : Nat
  -- quads woken from Off whose resident strokes are being reloaded (R167)
  reloads : List Nat
  safe : Bool
  readings : List Int
  -- the local tick since which Tj has been at or below TJ_CRIT − 10 °C
  coolSince : Option Nat
  estimate : Nat
deriving DecidableEq, Repr, Inhabited

def PowerUnit.reset : PowerUnit := ⟨[], 0, 0, [], false, [], none, 0⟩

/-- Fuses and the fuse shadow (R463, R482, R484, R488, R403, R523). -/
structure Fuses where
  lifecycle : Nat
  intent : Option Nat
  uds : Option Nat
  owners : List Nat
  revoked : BitVec 4
  fwSvn : Nat
  cfgSvn : Nat
  -- the Anneal fuse records (R523): maps, spares taken by store and by Quill group, cores in use and failed
  skips : Tbl Nat
  rowSpares : Tbl Nat
  quillSpares : Tbl Nat
  cores : BitVec 4
  coresBad : BitVec 4
  annealUsed : Nat
  dpOutputs : BitVec 8
  -- by direct port: the safe-frame group as FIO_DP_SAFE, the safe word, the static levels of the data lanes
  dpSafe : Tbl Word
  dpSafeWord : Tbl Word
  dpLevels : Tbl Word
  macs : Tbl (BitVec 48)
  pcieOff : Bool
  -- the ordering grade -AI, else -AC (Table 17.7)
  gradeAI : Bool
deriving DecidableEq, Repr, Inhabited

def Fuses.reset : Fuses := ⟨1, none, some 0, [], 0, 0, 0, [], [], [], 0x7, 0, 0, 0, [], [], [], [], false, false⟩

/-- An attestation request under way (R493): whether it came from the control port, its buffer address, and the nonce. -/
structure AttReq where
  xspi : Bool
  addr : Nat
  nonce : List Word
deriving DecidableEq, Repr, Inhabited

/-- Hallmark's generator (R491): instantiated, its key and counter block, and the requests since its last seed. -/
structure Drbg where
  on : Bool
  key : BitVec 256
  v : BitVec 128
  requests : Nat
deriving DecidableEq, Repr, Inhabited

def Drbg.reset : Drbg := ⟨false, 0, 0, 0⟩

/-- Hallmark (R485 to R499): the present challenge, entropy failures of this Cold epoch (the second is final), the debug level a token opened,
the report under way, the recipient key of exports, the exports counted, the salt and the ephemeral key drawn for the running one, and the
generator. -/
structure Hallmark where
  challenge : Option Nat
  fails : Nat
  debugOpen : Nat
  busy : Option AttReq
  done : Bool
  recipient : Option Nat
  exportNo : Nat
  exportDraw : Option (Nat × Nat)
  drbg : Drbg
deriving DecidableEq, Repr, Inhabited

def Hallmark.reset : Hallmark := ⟨none, 0, 0, none, false, none, 0, none, Drbg.reset⟩

/-- A Blotter record (Table 19.1). -/
structure BRec where
  kind : Nat
  src : Nat
  seq : Word
  tick : Nat
  cont : Bool
  corrupt : Bool
  payload : List Word
deriving DecidableEq, Repr, Inhabited

/-- Blotter modes (R503), coded as BLT_CFG.MODE. -/
inductive BltMode where
  | off
  | wrap
  | fill
  | trigger
deriving DecidableEq, Repr, Inhabited

/-- A replay (R512 to R517). -/
structure Replay where
  armed : Bool
  started : Bool
  rlc : Nat
  sub : Nat
  window : List BRec
  results : List (List Word)
  diverged : Option Word
  halted : Bool
  -- outbound frames compared so far, by stream
  outs : Tbl Nat
  -- records of the window still to be delivered, oldest first
  todo : List BRec
deriving DecidableEq, Repr, Inhabited

def Replay.reset : Replay := ⟨false, false, 0, 0, [], [], none, false, [], []⟩

/-- The Blotter (R501 to R511). `ring` holds what has reached GDDR6, `buf` what waits on Sloni, oldest first. -/
structure Blotter where
  mode : BltMode
  frozen : Bool
  full : Bool
  triggered : Bool
  next : Word
  trigSeq : Word
  postLeft : Nat
  ignored : Nat
  ring : List BRec
  buf : List BRec
  dropped : Nat
  dropMask : Word
  -- FIRST_SEQ and LAST_SEQ of a running export
  exporting : Option (Word × Word)
  replay : Replay
deriving DecidableEq, Repr, Inhabited

def Blotter.reset : Blotter :=
  ⟨.off, false, false, false, 0, 0, 0, 0, [], [], 0, 0, none, .reset⟩

/-- A failed unit (Table 20.1): kind, index, and the partitions its spare would touch. -/
structure FailedUnit where
  kind : Nat
  index : Nat
  parts : BitVec 16
deriving DecidableEq, Repr, Inhabited

/-- A fault record (Table 20.5). -/
structure FaultRec where
  kind : Nat
  part : Nat
  ctx : Nat
  inst : Nat
  index : Word
  tick : Nat
  sig : Word64
  flag : Nat
  row : Nat
  col : Nat
  place : Word
  stroke : Word
  prev : Word
  detail : Word
deriving DecidableEq, Repr, Inhabited

/-- Sparing, wear and health (R519 to R530). -/
structure Health where
  skip : Tbl Nat
  -- failed units whose spare waits, and those a running re-shape brings in
  pending : List FailedUnit
  bringing : List FailedUnit
  -- granules that hold a tile no spare can hide (R522)
  retired : BitVec 30
  -- by physical tile, 16·row + column: consecutive known-answer failures, and local ticks of uncorrectable errors and of
  -- corrected errors (Table 20.2)
  kat : Tbl Nat
  tileUe : Tbl (List Nat)
  tileCe : Tbl (List Nat)
  -- local ticks of the corrections since reset, by array · 2^32 + address
  rowCe : Tbl (List Nat)
  -- spares used, by array (and tile) and by Quill group
  rowSpares : Tbl Nat
  quillSpares : Tbl Nat
  -- local ticks of the re-shapes Ferrule started under AUTO in the past hour (R525)
  reshapes : List Nat
  coresActive : BitVec 4
  coresFailed : BitVec 4
  goAsked : Bool
  log : List FaultRec
  -- the last fault record, in retained SRAM (Table 17.9)
  last : Option FaultRec
  index : Word
  slackAt : Tbl (Option Nat)
deriving DecidableEq, Repr, Inhabited

def Health.reset : Health := ⟨[], [], [], 0, [], [], [], [], [], [], [], 0x7, 0, false, [], none, 0, []⟩

/-- Assay as a whole (R273, R283 to R285): lanes marked faulty, the clock, lanes proven since a clock fault, and the
best-effort checks in acceptance order (8·context + ring). -/
structure Assay where
  faulty : BitVec 16
  clockOk : Bool
  proven : BitVec 16
  beQueue : List Nat
deriving DecidableEq, Repr, Inhabited

def Assay.reset : Assay := ⟨0, true, 0xFFFF, []⟩

end Sys2Proof.Machine
end

