-- ==== Sys2Proof/Machine/TileTypes.lean ====
section
/-! DEFINITION. The state of a tile (chapter 05): lane accumulators, scratchpad with valid bits, stroke memory,
sequencer, operations in flight, circuits and packets. -/

namespace Sys2Proof.Machine

/-- A stroke word in stroke memory with its slots' ANNOTATION records and the image slot it belongs to. -/
structure StoredWord where
  word : BitVec 128
  slot : Nat
  overlay : Bool
  ann0 : Option AnnRec
  ann1 : Option AnnRec
deriving DecidableEq, Repr, Inhabited

/-- Where a result goes at retirement: a tile's scratchpad, the image space, an instance's space, a packet from one tile to
another. -/
inductive WritePlace where
  | pad (tile : Nat)
  | image
  | inst (member : Nat)
  | packet (source dest : Nat)
deriving DecidableEq, Repr, Inhabited

/-- One scheduled write. -/
structure WriteReq where
  place : WritePlace
  addr : Nat
  bytes : List Byte
deriving DecidableEq, Repr, Inhabited

/-- A DMA read in flight (R434): the fcyc it holds its side's port, what it reads and where to, and the beat once a later
write has reached the port. -/
structure DmaRead where
  port : Nat
  space : Nat
  member : Nat
  addr : Nat
  dest : Nat
  ann : Option AnnRec
  data : Option (List Byte)
deriving DecidableEq, Repr, Inhabited

/-- An operation in flight (R150): the fcyc from which its result may be read, its writes, its flags, its guard
outcome (R198) and its DMA read. -/
structure InFlight where
  due : Nat
  writes : List WriteReq
  flags : Arith
  piv : PivCounts
  read : Option DmaRead
deriving DecidableEq, Repr, Inhabited

/-- A running LOOP (Table 06.13). -/
structure LoopFrame where
  first : Nat
  last : Nat
  left : Nat
deriving DecidableEq, Repr, Inhabited

/-- A flit of a packet (R156). The header names the destination tile, the scratchpad address and the flit count; a data flit
goes where the header before it went, and `dest` and `addr` hold what the routers have from that header for it. -/
inductive Flit where
  | header (dest addr count : Nat)
  | data (dest addr : Nat) (bytes : List Byte)
deriving DecidableEq, Repr, Inhabited

/-- A router's inputs: 0 north, 1 south, 2 east, 3 west, 4 the tile's own (R153). -/
abbrev RouterInputs := Tbl (List Flit)

/-- A tile. -/
structure Tile where
  acc : Tbl (BitVec 80)
  accF : Tbl Nat
  tacc : Tbl Word
  tcount : Nat
  pad : Memory
  valid : List Nat
  strokes : Tbl StoredWord
  -- sequencer
  running : Bool
  pc : Nat
  cyc : Nat
  done0 : Bool
  done1 : Bool
  loops : List LoopFrame
  ret : Option Nat
  ended : Bool
  decision : Option Word
  flight : List InFlight
  routes : List Nat
  -- packet mode (R144, R156): flits the tile has still to send, router inputs, arrivals waiting in the local input buffer
  sending : List Flit
  inputs : RouterInputs
  inbox : List Flit
  -- pending trap and the address of the last barrier (R107, R110)
  trap : Arith
  lastBar : Nat
deriving DecidableEq, Repr, Inhabited

def Tile.reset : Tile :=
  ⟨[], [], [], 16, [], [], [], false, 0, 0, false, false, [], none, false, none, [], [], [], [], [], 0, 0⟩

end Sys2Proof.Machine
end

