-- ==== Sys2Proof/Machine/State.lean ====
section
/-! DEFINITION. The whole state of the DXN-2408 as plain data, its reset, and the reasons a step can stop. The
sub-structures stand in the files PartitionTypes, HostTypes, TileTypes, FieldTypes and PlatformTypes. -/

namespace Sys2Proof.Machine

/-- Reasons a command can fault. The model raises none: an event the state does not allow leaves the state as it is
(R230), and every refusal the spec describes is an effect on registers and completions. -/
inductive Fault where
  /-- Kept for completeness of the interface; no meaning raises it. Safe. -/
  | none
deriving DecidableEq, Repr

/-- Reasons a command is refused. -/
inductive Refusal where
  /-- Raised by an arm of exec whose command has no meaning yet; the string is the table's mnemonic. Safe. -/
  | notModelled (mnemonic : String)
deriving DecidableEq, Repr

/-- What verification finds in a boot-flash slot (R464, R487, R488). -/
structure BootSlot where
  valid : Bool
  fwSvn : Nat
  cfgSvn : Nat
  fwDigest : Nat
  cfgDigest : Nat
  -- digests of the keys of its configuration: the owner list, and the development keys (Table 18.2)
  owners : List Nat
  devs : List Nat
  -- the owner key that sealed the configuration (R486)
  sealedBy : Nat
deriving DecidableEq, Repr, Inhabited

def BootSlot.reset : BootSlot := ⟨true, 0, 0, 0, 0, [], [], 4⟩

/-- The state of the block. Tables are sparse: an index that is not listed reads as the reset value of its kind. -/
structure State where
  /-- Commands waiting, first in, first out. -/
  pending : List Instr
  /-- The model's own counter behind free values. -/
  freeCtr : Nat
  /-- Local ticks since the time unit last started (R407). -/
  lt : Nat
  /-- Set-up registers by BAR0 offset (chapter 21); unlisted offsets hold their Cold reset value. -/
  regs : Tbl Word
  /-- Low words of 64-bit registers that wait for their upper word (R535). -/
  latch64 : Tbl (Option Word)
  parts : Tbl Part
  tiles : Tbl Tile
  /-- Best-effort commands, by 8·context + ring. -/
  be : Tbl (Option BeCmd)
  ctxs : Tbl Ctx
  /-- Submission rings, by 8·context + ring. -/
  rings : Tbl Ring
  journal : List JGroup
  waiting : List WaitGroup
  /-- The ring, 8 to a context, at which the round robin of R357 goes on. -/
  serveNext : Nat
  /-- Host memory of the PCIe side, and the mailbox (R344, R345). -/
  host : Memory
  mailbox : Memory
  /-- Bus Master Enable by function (R369). -/
  bme : BitVec 16
  nibs : Tbl Nib
  links : Tbl Link
  dports : Tbl DirectPort
  eths : Tbl EthPort
  partners : Tbl Partner
  tu : TimeUnit
  mem : MemSys
  rst : ResetUnit
  pwr : PowerUnit
  fuse : Fuses
  flash : Tbl BootSlot
  hmk : Hallmark
  blt : Blotter
  anl : Health
  assay : Assay
deriving DecidableEq, Repr

/-- The device held in Cold reset with its supplies good and every Cold source deasserted: every register at its Cold
reset value, no partition, context, ring or image, T = 0 (R405, R428, R448, R463). -/
def State.reset : State where
  pending := []
  freeCtr := 0
  lt := 0
  regs := []
  latch64 := []
  parts := []
  tiles := []
  be := []
  ctxs := []
  rings := []
  journal := []
  waiting := []
  serveNext := 0
  host := []
  mailbox := []
  bme := 0xFFFF
  nibs := []
  links := []
  dports := []
  eths := []
  partners := []
  tu := TimeUnit.reset
  mem := MemSys.reset
  rst := ResetUnit.reset
  pwr := PowerUnit.reset
  fuse := Fuses.reset
  flash := []
  hmk := Hallmark.reset
  blt := Blotter.reset
  anl := Health.reset
  assay := Assay.reset

end Sys2Proof.Machine
end

