-- ==== Sys2Proof/Machine/Registers.lean ====
section
/-! DEFINITION. The set-up register file (chapter 21): where each register that holds a value of its own lies, which of
its bits software writes, which it clears by writing 1, and what each reset leaves in it (R537). Registers whose value is
a view of another part of the state (states, levels, logs) have no row; `readReg` in Machine/RegView.lean computes
them. -/

namespace Sys2Proof.Machine

/-- One kind of register: base offset, its repetitions as (count, stride) from the largest stride down, the bits software
writes (RW) and clears (W1C), the Cold value, and whether Warm, Partition and Port resets set that value again (R13).
`wide` is 1 for the low and 2 for the high word of a 64-bit register (R535). -/
structure RegRow where
  base : Nat
  dims : List (Nat × Nat)
  rw : Nat
  w1c : Nat
  cold : Nat
  warm : Bool
  part : Bool
  port : Bool
  wide : Nat
deriving DecidableEq, Repr, Inhabited

def row (base : Nat) (dims : List (Nat × Nat)) (rw : Nat) (cold : Nat := 0) (warm := true) (part := false)
    (port := false) (wide : Nat := 0) : RegRow := ⟨base, dims, rw, 0, cold, warm, part, port, wide⟩

/-- A register with VALID in bit 31, W1C (R538). -/
def errRow (base : Nat) (dims : List (Nat × Nat)) (part := false) (warm := true) : RegRow :=
  ⟨base, dims, 0, 0x80000000, 0, warm, part, false, 0⟩

/-- The two words of a 64-bit register (R535). -/
def wideRows (base : Nat) (dims : List (Nat × Nat)) (warm := true) (part := false) : List RegRow :=
  [⟨base, dims, 0xFFFFFFFF, 0, 0, warm, part, false, 1⟩, ⟨base + 4, dims, 0xFFFFFFFF, 0, 0, warm, part, false, 2⟩]

/-- Table 21.3. -/
def fabRows : List RegRow :=
  let ps := [(16, 0x1000)]
  [row 0x000 ps 0x80FF3800, row 0x004 ps 0xFFFF03FF, row 0x008 ps 0xFF1FFFFF, row 0x00C ps 0xFFFFFF,
    row 0x010 ps 0x1FFF (cold := 0x28), errRow 0x01C ps (part := true), row 0x020 [(16, 0x1000), (7, 4)] 0 (part := true),
    row 0x03C ps 0 (part := true), row 0x11000 [(256, 4)] 0xFFFF]

/-- Table 21.4. -/
def ducRows : List RegRow :=
  [row 0x100000 [(16, 0x1000), (8, 0x80)] 0xF0000000 (part := true)]
  ++ wideRows 0x100008 [(16, 0x1000), (8, 0x80)] (part := true)
  ++ [row 0x100040 [(16, 0x1000), (8, 0x80), (16, 4)] 0xFFFFFFFF (part := true),
    row 0x100400 [(16, 0x1000), (64, 0x20), (8, 4)] 0xFFFFFFFF (part := true),
    errRow 0x100C00 [(16, 0x1000)] (part := true), errRow 0x100C04 [(16, 0x1000)] (part := true),
    row 0x110000 [(16, 0x1000), (256, 0x10), (4, 4)] 0xFFFFFFFF (part := true)]

/-- Table 21.5. NIB_ENG_STAT holds FLAGS and CFG_CAUSE here; its other fields are views of the engine. -/
def nibRows : List RegRow :=
  let ns := [(16, 0x1000)]
  [row 0x200000 ns 0xFFFFFFF8, row 0x200004 ns 0x7FFFF, row 0x200008 ns 0x3FFFF, row 0x20000C ns 0xFFFFFFFF,
    row 0x200010 ns 0x7FFF, row 0x200014 ns 0xE000003F, row 0x200018 ns 0xFFFFFF00,
    row 0x200020 [(16, 0x1000), (4, 8)] 0xC0FFFFFF, row 0x200024 [(16, 0x1000), (4, 8)] 0xFFFF0000]
  ++ wideRows 0x200040 ns (part := true) ++ wideRows 0x200048 ns (part := true)
  ++ [⟨0x200054, ns, 0, 0x3FFF, 0, true, true, false, 0⟩, row 0x200060 [(16, 0x1000), (7, 4)] 0 (part := true),
    row 0x200080 ns 0x7FFF, row 0x200100 [(16, 0x1000), (32, 4)] 0xFFFFC000,
    row 0x200180 [(16, 0x1000), (16, 4)] 0x8FFFC000, row 0x2001C0 [(16, 0x1000), (32, 4)] 0x1F]

/-- Table 21.7. -/
def asyMemRows : List RegRow :=
  [row 0x300000 [(16, 4)] 0x1F0, row 0x400080 [] 0x1FFF07FF (cold := 0x100) (warm := false), errRow 0x400084 [],
    row 0x400090 [] 0xFF, row 0x4000A0 [] 0xF]

/-- Table 21.8. -/
def hqRows : List RegRow :=
  let cs := [(64, 0x200)]
  let rs := [(64, 0x200), (8, 0x20)]
  [row 0x500000 cs 0x9FF00000 (warm := false), row 0x500004 cs 0x7E (warm := false),
    row 0x500008 cs 0x3FFFF (warm := false), errRow 0x50000C cs]
  ++ wideRows 0x500020 cs (warm := false) ++ [row 0x500028 cs 0x9FFF0000 (warm := false)]
  ++ wideRows 0x500040 rs (warm := false) ++ [row 0x500048 rs 0x9FFFFFFF (warm := false),
    ⟨0x500050, rs, 0, 0x10000000, 0, false, false, false, 0⟩, row 0x50005C rs 0, row 0x50003C cs 0,
    row 0x500140 [(64, 0x200), (3, 4)] 0, row 0x508004 [(2, 4)] 0]

/-- Table 21.9. -/
def fioRows : List RegRow :=
  let ss := [(88, 0x40)]
  [row 0x600000 ss 0xFFFFFC00] ++ wideRows 0x600008 ss
  ++ [row 0x600010 ss 0x3FFFF, row 0x600014 ss 0xFFFFFFE0, row 0x600018 ss 0,
    row 0x602000 [(8, 0x40)] 0xFFF80000, row 0x602004 [(8, 0x40)] 0 (port := true), row 0x603000 [] 0,
    row 0x603008 [] 0xFF, row 0x603030 [] 0x3FFF (cold := 0x64), row 0x603040 [(4, 4)] 0, errRow 0x603050 []]
  ++ wideRows 0x603100 [(32, 8)] (warm := false)
  ++ [row 0x700000 [(16, 0x100)] 0xFFF80000 (cold := 0x00400000), row 0x700010 [(16, 0x100), (6, 4)] 0 (port := true),
    row 0x800000 [(4, 0x1000)] 0xFFFFFC00 (cold := 0x88B50000), row 0x800004 [(4, 0x1000)] 0xFFFFFFFF (warm := false),
    row 0x800010 [(4, 0x1000)] 0 (port := true)]
  ++ wideRows 0x800020 [(4, 0x1000)]
  ++ [row 0x800028 [(4, 0x1000)] 0x3FFFFFFF, row 0x80002C [(4, 0x1000)] 0x1FF,
    row 0x800030 [(4, 0x1000), (2, 4)] 0xFFFFFFFF, row 0x800800 [(4, 0x1000), (256, 8)] 0xFF,
    row 0x800804 [(4, 0x1000), (256, 8)] 0x3FFFFFFF]

/-- Table 21.10; Warm and Partition leave all unchanged (R428). -/
def tuRows : List RegRow :=
  [row 0x900000 [] 0xFFFFFFFF (cold := 0x80000000) (warm := false) (wide := 1),
    row 0x900004 [] 0xFF (cold := 2) (warm := false) (wide := 2), row 0x900040 [] 3 (warm := false),
    row 0x900044 [] 0xFFFFFFFF (cold := 0x00040000) (warm := false),
    row 0x900048 [] 0xFFFFFFFF (cold := 0x00001000) (warm := false),
    row 0x90004C [] 0xFF0FFFFF (cold := 0x040003E8) (warm := false),
    row 0x900050 [] 0xFF0F03FF (cold := 0x08040014) (warm := false),
    row 0x900054 [] 0xFFFF03FF (cold := 0x1008000A) (warm := false),
    row 0x900058 [] 0x801F00FF (cold := 0x00100010) (warm := false), row 0x90005C [] 0xFFFFFFFF (warm := false),
    row 0x900060 [(4, 4)] 0xFFFFFFFF (warm := false), row 0x900070 [] 0xFFFF (warm := false)]
  ++ wideRows 0x900080 [] (warm := false)
  ++ [errRow 0x900090 [] (warm := false), row 0x900094 [] 0 (warm := false)]

/-- Table 21.11. PWR_TJ_CFG stands here with the -AC value; gradeRegs gives an -AI device its own. RST_BKP0 to 7 are RO, 8 to 15 RW
(R479). -/
def rstPwrRows : List RegRow :=
  [row 0xA00014 [] 0x3FF (cold := 0x64), ⟨0xA0001C, [], 0, 1, 0, false, false, false, 0⟩]
  ++ [row 0xA00100 [(8, 8), (2, 4)] 0 (warm := false)] ++ wideRows 0xA00140 [(8, 8)] (warm := false)
  ++ [row 0xB00000 [] 0xFFFFFFFF (cold := 0xFFFFFFFF), row 0xB00030 [] 0xFF (cold := 0xE6),
    row 0xB00038 [] 0xFFFF (cold := 0x168), row 0xB0003C [] 0]

/-- Table 21.12. -/
def ferHmkRows : List RegRow :=
  [errRow 0xC00000 [], row 0xC00010 [] 0xFFFFFFFF, row 0xC01000 [(16, 0x100), (64, 4)] 0xFFFFFF (part := true),
    row 0xC02000 [(16, 0x100), (64, 4)] 0 (cold := 0xFFFFFF) (part := true), errRow 0xD00004 [],
    row 0xD0000C [] 0 (warm := false)]
  ++ wideRows 0xD00080 [] ++ [row 0xD000C0 [(16, 4)] 0xFFFFFFFF] ++ wideRows 0xD00100 []
  ++ [row 0xD00200 [(70, 4)] 0xFFFFFFFF (warm := false)]

/-- Table 21.13. -/
def bltAnlRows : List RegRow :=
  [row 0xE00000 [] 0xC3FFFFFF (cold := 0x00647FFE) (warm := false), row 0xE00004 [(4, 4)] 0xFFFFFFFF (warm := false),
    row 0xE00030 [] 0xFFFFFF07 (warm := false), row 0xE00034 [] 0x7FFF (warm := false)]
  ++ wideRows 0xE00038 [] (warm := false)
  ++ [row 0xE00040 [] 0x1FFFF (cold := 1) (warm := false), row 0xE00080 [(2, 4)] 0xFFFFFFFF]
  ++ wideRows 0xE00088 [] ++ [row 0xE00090 [] 0xFFFFFFFF, row 0xE00098 [] 0]
  ++ wideRows 0xE000A0 [] ++ [row 0xE000A8 [] 0xFFFFFFFF, row 0xE000B0 [(2, 4)] 0, row 0xE000C0 [] 0xC01FFFFF,
    errRow 0xE000C8 []]
  ++ wideRows 0xE000D0 [] ++ wideRows 0xE000D8 []
  ++ [row 0xE000E0 [(2, 4)] 0xFFFFFFFF, row 0xE00100 [(88, 4)] 0x1F,
    row 0xF00000 [] 0x80FFFFFF (cold := 0x80030040), row 0xF00004 [] 0x3FFF (cold := 0x64),
    row 0xF00008 [] 0xFFFFFFFF (cold := 0x55555555), row 0xF0000C [] 0xFF (cold := 4), errRow 0xF00020 []]

/-- Every row. -/
def regRows : List RegRow :=
  fabRows ++ ducRows ++ nibRows ++ asyMemRows ++ hqRows ++ fioRows ++ tuRows ++ rstPwrRows ++ ferHmkRows ++ bltAnlRows

/-- The indices of an offset within a row's repetitions. -/
def rowIdx : List (Nat × Nat) → Nat → Option (List Nat)
  | [], d => if d = 0 then some [] else none
  | (n, st) :: t, d => if d / st < n then (rowIdx t (d % st)).map (fun is => d / st :: is) else none

/-- The rows of the block an offset lies in (Table 21.2). -/
def blockRows (off : Nat) : List RegRow :=
  match off / 0x100000 with
  | 0 => fabRows
  | 1 => ducRows
  | 2 => nibRows
  | 3 | 4 => asyMemRows
  | 5 => hqRows
  | 6 | 7 | 8 => fioRows
  | 9 => tuRows
  | 10 | 11 => rstPwrRows
  | 12 | 13 => ferHmkRows
  | 14 | 15 => bltAnlRows
  | _ => []

/-- The row of an offset with its indices. -/
def findRow : List RegRow → Nat → Option (RegRow × List Nat)
  | [], _ => none
  | r :: rs, off =>
    if r.base ≤ off then
      match rowIdx r.dims (off - r.base) with
      | some is => some (r, is)
      | none => findRow rs off
    else findRow rs off

def regRow? (off : Nat) : Option (RegRow × List Nat) := findRow (blockRows off) off

/-- What an unlisted offset holds: its Cold reset value. -/
def regDefault (off : Nat) : Word :=
  match regRow? off with
  | some (r, _) => BitVec.ofNat 32 r.cold
  | none => 0

/-- Read and write the stored value of a register. -/
def regGet (s : State) (off : Nat) : Word := tblGet (regDefault off) s.regs off
def regSet (s : State) (off : Nat) (v : Word) : State := { s with regs := tblSet (regDefault off) s.regs off v }

/-- The 64-bit value of a register pair (R535). -/
def regGet64 (s : State) (off : Nat) : Word64 := word64 (regGet s off) (regGet s (off + 4))

/-- Increment a counter, saturating (R539). -/
def bump (s : State) (off : Nat) : State := regSet s off (BitVec.ofNat 32 (satInc 32 (regGet s off).toNat))

/-- Record a refusal: the first cause stands until software clears VALID (R538). -/
def recordErr (s : State) (off : Nat) (cause : Nat) : State :=
  if wbit (regGet s off) 31 then s else regSet s off (put 1 31 ||| BitVec.ofNat 32 cause)

/-- Offsets of the registers of chapter 21 that the rules name. -/
def fabOff (p k : Nat) : Nat := 0x1000 * p + k
def ducOff (p k : Nat) : Nat := 0x100000 + 0x1000 * p + k
def launchOff (p j w : Nat) : Nat := ducOff p (0x400 + 0x20 * j + 4 * w)
def slotTabOff (p k w : Nat) : Nat := 0x110000 + 0x1000 * p + 0x10 * k + 4 * w
def semOff (n : Nat) : Nat := 0x11000 + 4 * n
def nibOff (n k : Nat) : Nat := 0x200000 + 0x1000 * n + k
def ctxOff (c k : Nat) : Nat := 0x500000 + 0x200 * c + k
def ringOff (c r k : Nat) : Nat := ctxOff c (0x40 + 0x20 * r + k)
def strmOff (i k : Nat) : Nat := 0x600000 + 0x40 * i + k
def dpOff (d k : Nat) : Nat := 0x602000 + 0x40 * d + k
def fioOff (k : Nat) : Nat := 0x603000 + k
def qlOff (q k : Nat) : Nat := 0x700000 + 0x100 * q + k
def ethOff (e k : Nat) : Nat := 0x800000 + 0x1000 * e + k
def tuOff (k : Nat) : Nat := 0x900000 + k
def rstOff (k : Nat) : Nat := 0xA00000 + k
def pwrOff (k : Nat) : Nat := 0xB00000 + k
def ferOff (k : Nat) : Nat := 0xC00000 + k
def hmkOff (k : Nat) : Nat := 0xD00000 + k
def bltOff (k : Nat) : Nat := 0xE00000 + k
def anlOff (k : Nat) : Nat := 0xF00000 + k

def fabErr (p : Nat) : Nat := fabOff p 0x1C
def regErr : Nat := 0x508008

/-- Whether a register belongs to a partition, for a Partition reset: by its first index, or, for an engine's registers,
by the partition's NIB_MASK (R450). -/
def rowOwned (mask : Nat) (p : Nat) (r : RegRow) (is : List Nat) : Bool :=
  match is with
  | i :: _ => if r.base / 0x100000 = 2 then mask.testBit i else decide (i = p)
  | [] => false

/-- The registers after a Cold, a Warm, a Partition and a Port reset (Tables 21.3 to 21.13). -/
def regsCold : Tbl Word := []
def regsWarm (t : Tbl Word) : Tbl Word :=
  t.filter (fun e => match regRow? e.1 with | some (r, _) => !r.warm | none => false)
def regsPart (t : Tbl Word) (mask p : Nat) : Tbl Word :=
  t.filter (fun e => match regRow? e.1 with | some (r, is) => !(r.part && rowOwned mask p r is) | none => false)
def regsPort (t : Tbl Word) (block idx : Nat) : Tbl Word :=
  t.filter (fun e =>
    match regRow? e.1 with
    | some (r, is) => !(r.port && decide (r.base / 0x1000 = block) && decide (is.head? = some idx))
    | none => false)

end Sys2Proof.Machine
end

