-- ==== Sys2Proof/Machine/Ops.lean ====
section
/-! DEFINITION. The named operations over the state: reading and writing its tables, time, free values, Blotter records
and triggers (chapter 19), completions and the journal (chapter 13), events, health events and fault records
(chapter 20). -/

namespace Sys2Proof.Machine

/-- The outcome of a command whose event the present state does not allow: nothing changes (R230; assumption 2). -/
abbrev Result := Host.Outcome State Fault Refusal

/-- A host's write of a register: in BOOT_FAIL the device serves reads only (R464). -/
def hostWrite (s t : State) : Result := .next (if s.rst.phase = .bootFail then s else t)

/-- Run an effect when its condition holds; otherwise nothing changes. -/
def whenDo (c : Bool) (s t : State) : State := if c then t else s

-- tables of the state

def getPart (s : State) (p : Nat) : Part := tblGet Part.reset s.parts p
def setPart (s : State) (p : Nat) (x : Part) : State := { s with parts := tblSet Part.reset s.parts p x }

def getTile (s : State) (t : Nat) : Tile := tblGet Tile.reset s.tiles t
def setTile (s : State) (t : Nat) (x : Tile) : State := { s with tiles := tblSet Tile.reset s.tiles t x }

def getCtx (s : State) (c : Nat) : Ctx := tblGet Ctx.reset s.ctxs c
def setCtx (s : State) (c : Nat) (x : Ctx) : State := { s with ctxs := tblSet Ctx.reset s.ctxs c x }

def getRing (s : State) (c r : Nat) : Ring := tblGet Ring.reset s.rings (8 * c + r)
def setRing (s : State) (c r : Nat) (x : Ring) : State := { s with rings := tblSet Ring.reset s.rings (8 * c + r) x }

def getBe (s : State) (k : Nat) : Option BeCmd := tblGet none s.be k
def setBe (s : State) (k : Nat) (x : Option BeCmd) : State := { s with be := tblSet none s.be k x }

def getNib (s : State) (n : Nat) : Nib := tblGet Nib.reset s.nibs n
def setNib (s : State) (n : Nat) (x : Nib) : State := { s with nibs := tblSet Nib.reset s.nibs n x }

def getLink (s : State) (q : Nat) : Link := tblGet Link.reset s.links q
def setLink (s : State) (q : Nat) (x : Link) : State := { s with links := tblSet Link.reset s.links q x }

def getDport (s : State) (d : Nat) : DirectPort := tblGet DirectPort.reset s.dports d
def setDport (s : State) (d : Nat) (x : DirectPort) : State := { s with dports := tblSet DirectPort.reset s.dports d x }

def getEth (s : State) (e : Nat) : EthPort := tblGet EthPort.reset s.eths e
def setEth (s : State) (e : Nat) (x : EthPort) : State := { s with eths := tblSet EthPort.reset s.eths e x }

def getPartner (s : State) (n : Nat) : Partner := tblGet Partner.reset s.partners n
def setPartner (s : State) (n : Nat) (x : Partner) : State :=
  { s with partners := tblSet Partner.reset s.partners n x }

def Part.slot (x : Part) (k : Nat) : Slot := tblGet Slot.reset x.slots k
def Part.setSlot (x : Part) (k : Nat) (v : Slot) : Part := { x with slots := tblSet Slot.reset x.slots k v }
def Part.run (x : Part) (j : Nat) : EntryRun := tblGet EntryRun.reset x.entries j
def Part.setRun (x : Part) (j : Nat) (v : EntryRun) : Part := { x with entries := tblSet EntryRun.reset x.entries j v }

def getSlot (s : State) (p k : Nat) : Slot := (getPart s p).slot k
def setSlot (s : State) (p k : Nat) (v : Slot) : State := setPart s p ((getPart s p).setSlot k v)
def getRun (s : State) (p j : Nat) : EntryRun := (getPart s p).run j
def setRun (s : State) (p j : Nat) (v : EntryRun) : State := setPart s p ((getPart s p).setRun j v)

/-- The admitted instance of a number (R37). -/
def Part.inst? (x : Part) (n : Nat) : Option Inst := x.insts.find? (fun i => i.num == n)

/-- Replace an admitted instance. -/
def Part.putInst (x : Part) (i : Inst) : Part :=
  { x with insts := x.insts.map (fun j => if j.num = i.num then i else j) }

def putInst (s : State) (p : Nat) (i : Inst) : State := setPart s p ((getPart s p).putInst i)

-- time

/-- LC = ⌊T / 2.5 ns⌋ (R408); T counts 2^(−32) ns. -/
def lc (s : State) : Nat := s.tu.t.toNat * 2 / (5 * 2 ^ 32)

/-- The time unit's nanosecond count. -/
def nsCount (s : State) : Word64 := BitVec.ofNat 64 (s.tu.t.toNat / 2 ^ 32)

/-- A partition enabled with REPLAY = 1 (chapter 19). -/
def replayPart (s : State) (p : Nat) : Bool := wbit (getPart s p).pars.geom 31

/-- A partition that runs in a started replay: one of BLT_RPL_CFG.PARTS (R513). -/
def isReplay (s : State) (p : Nat) : Bool := s.blt.replay.started && replayPart s p && wbit (regGet s (bltOff 0xC0)) p

/-- The count a partition's launches are on: LC, or in a replay partition RLC, which stands at 0 until a replay runs (R409, R513). -/
def count (s : State) (p : Nat) : Nat := if isReplay s p then s.blt.replay.rlc else if replayPart s p then 0 else lc s

/-- Ticks of local time since a command's launch tick (R410). -/
def elapsed (s : State) (c : Cmd) : Nat := s.lt - c.lt0

/-- Every reach of reset released and boot or recovery done (R465). -/
def isReady (s : State) : Bool := decide (s.rst.phase = .ready)

/-- In Hold (R339). -/
def inHold (s : State) : Bool := s.rst.hold.isSome

-- free values

/-- Draw a value the spec leaves open (assumption 3). -/
def drawWord (s : State) : Word × State := (Config.freeWord s.freeCtr, { s with freeCtr := s.freeCtr + 1 })
def drawBit (s : State) : Bool × State := (Config.freeBit s.freeCtr, { s with freeCtr := s.freeCtr + 1 })

/-- `n` open words. -/
def drawWords (s : State) (n : Nat) : List Word × State :=
  ((List.range n).map (fun i => Config.freeWord (s.freeCtr + i)), { s with freeCtr := s.freeCtr + n })

/-- A number as bytes, the first most significant. -/
def bigBytes (n x : Nat) : List Byte := (leBytes n x).reverse

/-- A digest as sixteen words: byte 4k in bits [7:0] of word k (Table 21.4). -/
def digestWords (d : Nat) : List Word := bytesWords (bigBytes 64 d)

/-- The identity class of the lifecycle state (Table 18.1), none where no identity exists. -/
def identityClass (s : State) : Option Nat :=
  if s.fuse.lifecycle = 1 ∨ s.fuse.lifecycle = 2 then some 0 else if s.fuse.lifecycle = 3 then some 1 else none

/-- The device's PID (R490). -/
def devicePid (s : State) : Option Word64 := (identityClass s).map (fun c => Config.pid (s.fuse.uds.getD 0) c)

/-- The words of the PID; where the device has none, open words. -/
def pidWords (s : State) : List Word × State :=
  match devicePid s with
  | some p => ([lo32 p, hi32 p], s)
  | none => drawWords s 2

-- statuses (Table 13.12)

def stOk : Nat := 0x00
def stOkSubopt : Nat := 0x01
def stCert : Nat := 0x10
def stInfeasible : Nat := 0x11
def stFpTrap : Nat := 0x12
def stDeadlineHold : Nat := 0x13
def stStructure : Nat := 0x20
def stRange : Nat := 0x21
def stAdmit : Nat := 0x22
def stImage : Nat := 0x23
def stStale : Nat := 0x24
def stContext : Nat := 0x30
def stReset : Nat := 0x31

/-- The place of a status in the order of Table 13.12, for BLT_TRIG_CFG1. -/
def statusPos (st : Nat) : Nat :=
  ([stOk, stOkSubopt, stCert, stInfeasible, stFpTrap, stDeadlineHold, stStructure, stRange, stAdmit, stImage, stStale,
    stContext, stReset].idxOf st)

-- the Blotter (chapter 19)

def kFrame : Nat := 1
def kSet : Nat := 2
def kLaunch : Nat := 3
def kSkip : Nat := 4
def kDesc : Nat := 5
def kCompl : Nat := 6
def kCert : Nat := 7
def kTime : Nat := 8
def kPartner : Nat := 9
def kSnap : Nat := 10
def kMark : Nat := 11
def kLoss : Nat := 12
def kConfig : Nat := 13
def kSession : Nat := 14
def kPad : Nat := 15
def kEnd : Nat := 16

/-- Length of a record in bytes: a whole number of 16-byte units, header included (R501). -/
def BRec.bytes (r : BRec) : Nat := 16 * (1 + ceilDiv r.payload.length 4)

/-- Bytes held on the ring and in its buffer. -/
def recBytes (l : List BRec) : Nat := (l.map BRec.bytes).sum

/-- The size of the Blotter region (Table 16.5). -/
def bltRegion (s : State) : Nat := fld (regGet s 0x400080) 28 16 * 2 ^ 20

/-- Whether the masks select a record (R502). -/
def bltSelected (s : State) (kind src : Nat) : Bool :=
  if kind = kTime || kind = kLoss || kind = kMark || kind = kSession || kind = kPad then true
  else
    wbit (regGet s (bltOff 0x00)) kind
    && (if kind = kFrame then wbit (regGet s (bltOff (0x08 + 4 * (src / 32)))) (src % 32)
        else if kind = kSet || kind = kLaunch || kind = kSkip || kind = kCert || kind = kSnap || kind = kConfig then
          wbit (regGet s (bltOff 0x04)) src
        else true)

/-- Whether the Blotter records at present (R503, R507): armed, not frozen, not full, no post-trigger count run out, and
no Warm reset on. -/
def bltOn (s : State) : Bool :=
  decide (s.blt.mode ≠ .off) && !s.blt.frozen && !s.blt.full && !(s.blt.triggered && decide (s.blt.postLeft = 0))
  && decide (s.rst.phase ≠ .warmReset) && decide (s.rst.phase ≠ .warmRelease)

/-- Place a record in the buffer with the next SEQ, after a PAD record when it would cross a 64 KiB boundary. -/
def bltPlace (b : Blotter) (r : BRec) : Blotter :=
  let off := (recBytes b.ring + recBytes b.buf) % 65536
  let b1 :=
    if off ≠ 0 ∧ 65536 < off + r.bytes then
      let pad : BRec := ⟨kPad, 0, b.next, r.tick, false, false, List.replicate ((65536 - off - 16) / 4) 0⟩
      { b with buf := b.buf ++ [pad], next := b.next + 1 }
    else b
  { b1 with
    buf := b1.buf ++ [{ r with seq := b1.next }]
    next := b1.next + 1
    postLeft := if b1.triggered then b1.postLeft - r.bytes else b1.postLeft }

/-- The size of the buffer on Sloni (R504). -/
def bltBuf : Nat := 262144

/-- Split a payload into records of at most 4,095 units (R502). -/
def bltSplit (kind src tick : Nat) : Nat → Bool → List Word → List BRec
  | 0, _, _ => []
  | n + 1, cont, ws =>
    if ws.length ≤ 16376 then [⟨kind, src, 0, tick, cont, false, ws⟩]
    else ⟨kind, src, 0, tick, cont, false, ws.take 16376⟩ :: bltSplit kind src tick n true (ws.drop 16376)

/-- A sequence number lies in a range, in the order of R502. -/
def seqIn (first last q : Word) : Bool := decide ((q - first).toNat ≤ (last - first).toNat)

/-- A record of a running export's range (R509). -/
def exportHolds (b : Blotter) (r : BRec) : Bool :=
  match b.exporting with
  | some (f, l) => seqIn f l r.seq
  | none => false

/-- The records of the oldest n bytes. -/
def oldestRecs : Nat → List BRec → List BRec
  | _, [] => []
  | n, r :: t => if n = 0 then [] else r :: oldestRecs (n - r.bytes) t

/-- n more bytes would overwrite a record that a running export has still to read (R509). -/
def exportBlocks (b : Blotter) (region n : Nat) : Bool :=
  let total := recBytes b.ring + recBytes b.buf + n
  (oldestRecs (ceilDiv (total - region) 65536 * 65536) (b.ring ++ b.buf)).any (exportHolds b)

/-- Write the records of one payload, or drop them whole (R504, R509); FILL stops when the ring is full (R503). -/
def bltWrite (s : State) (kind src tick : Nat) (payload : List Word) : State :=
  let b := s.blt
  let rs := bltSplit kind src tick (payload.length / 16376 + 1) false payload
  let n := recBytes rs
  let loss : List BRec := if b.dropped = 0 then [] else [⟨kLoss, 0, 0, tick, false, false, [BitVec.ofNat 32 b.dropped, b.dropMask]⟩]
  if bltBuf < recBytes b.buf + n + recBytes loss || exportBlocks b (bltRegion s) (n + recBytes loss) then
    { s with blt := { b with dropped := b.dropped + 1, dropMask := b.dropMask ||| put 1 kind } }
  else if b.mode = .fill ∧ bltRegion s < recBytes b.ring + recBytes b.buf + n + recBytes loss then
    { s with blt := { b with full := true } }
  else
    let b1 := (loss ++ rs).foldl bltPlace b
    { s with blt := { b1 with dropped := 0, dropMask := 0 } }

/-- Write a record, when the Blotter is on and its masks select it. -/
def bltRecord (s : State) (kind src tick : Nat) (payload : List Word) : State :=
  if bltOn s && bltSelected s kind src then bltWrite s kind src tick payload else s

/-- A MARK record of a trigger of this tick; a MARK with a tag has no cause (R506). -/
def isTrigMark (r : BRec) (tick : Nat) : Bool := decide (r.kind = kMark ∧ r.tick = tick ∧ r.payload.getD 0 0 ≠ 0)

/-- Mark bits onto the MARK record of the triggers of the same tick, while it is in the buffer (R506). -/
def bltShareMark (b : Blotter) (tick bits : Nat) : Option Blotter :=
  match b.buf.findIdx? (isTrigMark · tick) with
  | some k => some { b with buf := b.buf.modify k (fun r => { r with
      payload := (r.payload.getD 0 0 ||| BitVec.ofNat 32 bits) :: r.payload.drop 1 }) }
  | none => none

/-- A trigger cause: bit `cause` of R506. In TRIGGER mode it writes a MARK record and the first starts the post-trigger
count (R505); a FROZEN ring counts it (Table 19.6). -/
def bltTrigger (s : State) (cause : Nat) : State :=
  if s.blt.mode ≠ .trigger then s
  else if s.blt.frozen then { s with blt := { s.blt with ignored := satInc 16 s.blt.ignored } }
  else
    let s1 :=
      match bltShareMark s.blt (lc s) (2 ^ cause) with
      | some b => { s with blt := b }
      | none => bltRecord s kMark 0 (lc s) [BitVec.ofNat 32 (2 ^ cause), 0, 0]
    if s1.blt.triggered then s1
    else
      { s1 with blt := { s1.blt with
          triggered := true, trigSeq := s1.blt.next - 1,
          postLeft := (regGet s1 (bltOff 0x40)).toNat * 65536 } }

/-- A completion whose STATUS or FLAGS the trigger masks name (R505, causes 0 and 1). -/
def bltTriggerCompletion (s : State) (status : Nat) (flags : CFlags) : State :=
  let s1 := if wbit (regGet s (bltOff 0x34)) (statusPos status) then bltTrigger s 0 else s
  if regGet64 s1 (bltOff 0x38) &&& flags ≠ 0 then bltTrigger s1 1 else s1

-- completions and the journal (chapter 13)

/-- Slots of a completion ring in use, from the consumed head to the tail. -/
def Ctx.used (x : Ctx) : Nat := (x.cqTail - x.cqHead).toNat

/-- Free slots of a completion ring, counted from the consumed head. -/
def Ctx.free (x : Ctx) : Nat := 2 ^ x.cqLog2 - x.used

/-- Accepted and uncommitted items of a context: those in its rings, and those whose group waits for the journal (R358). -/
def openItems (s : State) (c : Nat) : Nat :=
  ((upTo 8).map (fun r => (getRing s c r).items.length)).sum
    + (s.waiting.filter (fun w => decide (w.ctx = c) && w.item.isSome)).length

/-- PHASE of a position: 1 on even passes of the ring (R361). -/
def phaseOf (k : Nat) (pos : Word) : Word := if pos.toNat / 2 ^ k % 2 = 0 then put 1 31 else 0

/-- PAD slots before a group of `n` slots, which must not cross the ring's end (R361). -/
def padCount (x : Ctx) (n : Nat) : Nat :=
  let at0 := x.cqTail.toNat % 2 ^ x.cqLog2
  if 2 ^ x.cqLog2 < at0 + n then 2 ^ x.cqLog2 - at0 else 0

/-- A PAD head slot: KIND 7, EXT 0, DROP 0 (R361, R362). -/
def padSlot (k : Nat) (pos : Word) : CSlot := [phaseOf k pos ||| put 7 28, 0, 0, 0, 0, 0, 0, 0]

/-- Store to the memory of a context's host: host memory, or the mailbox for the control port (R344, R345). -/
def hostStore (s : State) (x : Ctx) (a : Nat) (ws : List Word) : State :=
  if x.func = 16 then { s with mailbox := memPutWords s.mailbox a ws } else { s with host := memPutWords s.host a ws }

/-- The memory of a context's host. -/
def hostMem (s : State) (x : Ctx) : Memory := if x.func = 16 then s.mailbox else s.host

/-- The 512 slots of the journal, 16 KiB (R358). -/
def journalSlots : Nat := 512

def journalUsed (s : State) : Nat := (s.journal.map (fun g => g.slots.length)).sum

/-- Write a group's slots into its completion ring, continuation slots before the head (R361). -/
def writeSlots (s : State) (g : JGroup) : State :=
  let x := getCtx s g.ctx
  let a := fun i => x.cqBase.toNat + 32 * ((g.pos.toNat + i) % 2 ^ x.cqLog2)
  let body := (g.slots.zipIdx.drop 1).foldl (fun t e => hostStore t x (a e.2) e.1) s
  match g.slots with
  | h :: _ => hostStore body x (a 0) h
  | [] => body

/-- Stamp TIME into the head slot of a DESC or EVENT group as it enters the journal (Table 13.7, R364). -/
def stampTime (t : Word64) (sl : CSlot) : CSlot :=
  match sl with
  | w0 :: rest =>
    if fld w0 30 28 = 0 ∨ fld w0 30 28 = 2 then (w0 :: rest).take 4 ++ [lo32 t, hi32 t] ++ (w0 :: rest).drop 6 else sl
  | [] => []

/-- Put a group into the journal and write it to the ring (R358). -/
def journalAdd (s : State) (g : JGroup) : State :=
  let g1 := { g with slots := match g.slots with | h :: t => stampTime (nsCount s) h :: t | [] => [] }
  writeSlots { s with journal := s.journal ++ [g1] } g1

/-- Set PHASE and DROP in a head slot. -/
def headBits (sl : CSlot) (phase : Word) (drop : Bool) : CSlot :=
  match sl with
  | w0 :: t => (w0 ||| phase ||| (if drop then put 1 24 else 0)) :: t
  | [] => []

/-- Write PAD slots at the tail. -/
def writePads : Nat → State → Nat → State
  | 0, s, _ => s
  | n + 1, s, c =>
    let x := getCtx s c
    let s1 := journalAdd s ⟨c, x.cqTail, [padSlot x.cqLog2 x.cqTail]⟩
    writePads n (setCtx s1 c { x with cqTail := x.cqTail + 1 }) c

/-- Write a group at the tail of a context's completion ring (R361): PAD slots first, then the group. -/
def writeGroup (s : State) (c : Nat) (head : CSlot) (exts : List CSlot) : State :=
  let s1 := writePads (padCount (getCtx s c) (1 + exts.length)) s c
  let x := getCtx s1 c
  let g : JGroup := ⟨c, x.cqTail, headBits head (phaseOf x.cqLog2 x.cqTail) x.drop :: exts⟩
  let s2 := journalAdd s1 g
  let x2 := getCtx s2 c
  setCtx s2 c { x2 with cqTail := x2.cqTail + BitVec.ofNat 32 (1 + exts.length), drop := false }

/-- Room for a LAUNCH or EVENT group: after it and its PAD slots, 4 slots for every accepted and uncommitted item plus 4
more are left (R362). -/
def roomFor (s : State) (c n : Nat) : Bool :=
  let x := getCtx s c
  decide (padCount x n + n + (4 * openItems s c + 4) ≤ x.free)

/-- A group of `n` slots and the PAD slots before it find space in the journal. -/
def fitsJournal (s : State) (c n : Nat) : Bool := decide (journalUsed s + padCount (getCtx s c) n + n ≤ journalSlots)

/-- A group enters the journal and its ring: the commit index passes its item, and NOTIFY raises the context's interrupt (R358); a
LAUNCH or EVENT group that finds no room is dropped and counted (R362). -/
def enterGroup (s : State) (w : WaitGroup) : State :=
  match w.item with
  | some (r, gen) =>
    let s1 := writeGroup s w.ctx w.head w.exts
    let x := getCtx s1 w.ctx
    let s2 := setCtx s1 w.ctx { x with notify := x.notify || w.notify }
    let g := getRing s2 w.ctx r
    if g.gen = gen then setRing s2 w.ctx r { g with cmp := g.cmp + 1 } else s2
  | none =>
    let x := getCtx s w.ctx
    if !x.on then s
    else if roomFor s w.ctx (1 + w.exts.length) then writeGroup s w.ctx w.head w.exts
    else setCtx (bump s (ctxOff w.ctx 0x148)) w.ctx { x with drop := true }

/-- Hand a group to the journal; while others wait, or without space, it waits (R358). -/
def postGroup (s : State) (w : WaitGroup) : State :=
  if s.waiting = [] ∧ fitsJournal s w.ctx (1 + w.exts.length) = true then enterGroup s w else { s with waiting := s.waiting ++ [w] }

/-- The waiting groups enter, in order, as far as the journal has space (R358). -/
def flushJournal : Nat → State → State
  | 0, s => s
  | n + 1, s =>
    match s.waiting with
    | [] => s
    | w :: ws =>
      if fitsJournal s w.ctx (1 + w.exts.length) then flushJournal n (enterGroup { s with waiting := ws } w) else s

/-- Write a LAUNCH or EVENT group of a context (R362). -/
def writeOrDrop (s : State) (c : Nat) (head : CSlot) (exts : List CSlot) : State :=
  if (getCtx s c).on then postGroup s ⟨c, none, false, head, exts⟩ else s

/-- An EVENT head slot (R364). -/
def eventSlot (ev sub : Nat) (a0 a1 a2 : Word) (a3 : Word64) : CSlot :=
  [put 2 28 ||| put ev 16 ||| put sub 8, a0, a1, a2, 0, 0, lo32 a3, hi32 a3]

/-- The device may write to the memory of a context's host: a PCIe function has Bus Master Enable (R369, R370). -/
def busOk (s : State) (x : Ctx) : Bool := decide (x.func = 16) || s.bme.getLsbD x.func

/-- Write an event to every context whose mask enables it, and, for a partition's event, whose partition it is (R364). -/
def raiseEvent (s : State) (ev : Nat) (p : Option Nat) (sub : Nat) (a0 a1 a2 : Word) (a3 : Word64) : State :=
  (upTo 64).foldl (fun t c =>
    let x := getCtx t c
    if x.on && !x.recover && busOk t x && wbit (regGet t (ctxOff c 0x04)) ev && (match p with | some q => decide (x.part = q) | none => true) then
      let t1 := writeOrDrop t c (eventSlot ev sub a0 a1 a2 a3) []
      if (getCtx t1 c).drop ∧ t1.waiting = [] then t1 else bltRecord t1 kCompl c (lc t1) (eventSlot ev sub a0 a1 a2 a3)
    else t) s

/-- A HEALTH event (R528): code, unit kind, unit index and two values. -/
def healthEvent (s : State) (code kind : Nat) (index a2 : Nat) (a3 : Nat) : State :=
  raiseEvent s 0x06 none 0 (put kind 8 ||| BitVec.ofNat 32 code) (BitVec.ofNat 32 index) (BitVec.ofNat 32 a2)
    (BitVec.ofNat 64 a3)

/-- A fault record with nothing named. -/
def faultOf (kind part : Nat) : FaultRec := ⟨kind, part, 0, 0, 0, 0, 0, 0xFF, 0xF, 0xF, 0, 0, 0, 0⟩

/-- Write a fault record (R529): the next INDEX, the log of 4,096 newest, the FAULT_RECORD event and the trigger. -/
def writeFault (s : State) (f : FaultRec) : State :=
  let ix := s.anl.index + 1
  let g : FaultRec := { f with index := ix, tick := lc s }
  let log := s.anl.log ++ [g]
  let s1 := { s with anl := { s.anl with index := ix, log := log.drop (log.length - 4096), last := some g } }
  let s2 := raiseEvent s1 0x04 (some f.part) f.part ix 0 0 0
  if wbit (regGet s2 (bltOff 0x30)) 1 then bltTrigger s2 5 else s2

/-- A DESC head slot (Table 13.7). -/
def descSlot (ext status cause ring : Nat) (seq detail asn : Word) (user : Word64) : CSlot :=
  [put ext 26 ||| put status 16 ||| put cause 8 ||| BitVec.ofNat 32 ring, seq, detail, asn, 0, 0, lo32 user, hi32 user]

/-- NOTIFY of an accepted descriptor, USER, OPCODE (Table 13.4). -/
def Item.word (i : Item) (k : Nat) : Word := i.words.getD k 0
def Item.notify (i : Item) : Bool := wbit (i.word 0) 0
def Item.user (i : Item) : Word64 := word64 (i.word 2) (i.word 3)
def Item.opcode (i : Item) : Nat := fld (i.word 0) 15 8

/-- The item behind becomes the head. -/
def popItem (s : State) (c r : Nat) : State :=
  let g := getRing s c r
  setRing s c r { g with items := g.items.drop 1, headTick := s.lt }

/-- Complete the head item of a ring (R356, R358): CMP_IDX moves past it as its group enters the journal. -/
def completeOne (s : State) (c r : Nat) (status cause : Nat) (detail asn : Word) (exts : List CSlot) (flags : CFlags) :
    State :=
  match (getRing s c r).items with
  | [] => s
  | it :: _ =>
    let head := descSlot exts.length status cause r it.seq detail asn it.user
    let s1 := postGroup (popItem s c r) ⟨c, some (r, (getRing s c r).gen), it.notify, head, exts⟩
    bltTriggerCompletion (bltRecord s1 kCompl c (lc s1) (head ++ exts.flatten)) status flags

/-- Items at the head that failed checks 1 to 6 of Table 13.6 complete with that status and no other effect (R355). -/
def settle : Nat → State → Nat → Nat → State
  | 0, s, _, _ => s
  | n + 1, s, c, r =>
    match (getRing s c r).items with
    | it :: _ =>
      match it.early with
      | some (st, cause) => settle n (completeOne s c r st cause 0 0 [] 0) c r
      | none => s
    | [] => s

/-- Complete the head item, and the items behind it that failed their descriptor checks (R357). -/
def completeItem (s : State) (c r : Nat) (status cause : Nat) (detail asn : Word) (exts : List CSlot) (flags : CFlags) :
    State :=
  settle (getRing s c r).items.length (completeOne s c r status cause detail asn exts flags) c r

/-- Complete the head item with a status alone. -/
def finishItem (s : State) (c r status cause : Nat) : State := completeItem s c r status cause 0 0 [] 0

/-- The place of a source in the order of R44: device commits, streams, host objects; a recorded set keeps the order it is
presented in. -/
def GateSrc.rank : GateSrc → Nat
  | .commit part _ _ _ _ => part
  | .stream num _ => 16 + num
  | .host ctx ring _ => 128 + 8 * ctx + ring
  | .replay _ _ => 0

/-- An item joins the items at a gate: behind those that arrived earlier, and among those of its own tick by the order of R44. -/
def gateInsert (g : GateItem) : List GateItem → List GateItem
  | [] => [g]
  | h :: t => if h.tick = g.tick ∧ g.src.rank < h.src.rank then g :: h :: t else h :: gateInsert g t

/-- A group of one of a ring's items waits for the journal. -/
def ringWaits (s : State) (c r : Nat) : Bool :=
  s.waiting.any (fun w => decide (w.ctx = c) && (match w.item with | some (q, _) => decide (q = r) | none => false))

/-- The head item of a ring that may begin: its partition is out of reset, and the completions before it are committed (R357). -/
def headItem (s : State) (c r : Nat) : Option Item :=
  if s.rst.partRst.getLsbD (getCtx s c).part then none
  else if ringWaits s c r then none else (getRing s c r).items.head?

-- semaphores (R331)

def semGet (s : State) (n : Nat) : Nat := (regGet s (semOff n)).toNat
def semSet (s : State) (n v : Nat) : State := regSet s (semOff n) (BitVec.ofNat 32 v)

-- partitions

/-- Parameters in force (R316). -/
def PartParams.gcols (q : PartParams) : Nat := fld q.geom 19 16
def PartParams.origin (q : PartParams) : Nat := fld q.geom 23 20
def PartParams.ghalves (q : PartParams) : Nat := fld q.geom 13 12
def PartParams.half (q : PartParams) : Nat := fld q.geom 11 11
def PartParams.replay (q : PartParams) : Bool := wbit q.geom 31
def PartParams.store (q : PartParams) : Nat := fld q.mem 31 16
def PartParams.share (q : PartParams) : Nat := fld q.mem 9 0 * 65536
def PartParams.liveq (q : PartParams) : Nat := fld q.sched 31 24
def PartParams.agedShare (q : PartParams) : Nat := fld q.sched 20 16
def PartParams.nibMask (q : PartParams) : Nat := fld q.sched 15 0
def PartParams.laneCount (q : PartParams) : Nat := fld q.lanes 8 4

/-- The half column rows of a partition: rows 0 to 7 of the upper half, 8 to 15 of the lower (R315). -/
def PartParams.rows (q : PartParams) : List Nat :=
  if q.ghalves = 2 then upTo 16 else (upTo 8).map (fun r => r + 8 * q.half)

/-- The logical tiles of a partition, numbered 15 · row + col (R315). -/
def PartParams.tiles (q : PartParams) : List Nat :=
  q.rows.flatMap (fun r => (upTo q.gcols).map (fun c => 15 * r + q.origin + c))

/-- The granules of a partition (R135): 2c for the upper half of column c, 2c + 1 for the lower. -/
def PartParams.granules (q : PartParams) : List Nat :=
  let halves := if q.ghalves = 2 then [0, 1] else [q.half]
  (upTo q.gcols).flatMap (fun c => halves.map (fun h => 2 * (q.origin + c) + h))

/-- The partition a tile belongs to. -/
def tilePart (s : State) (t : Nat) : Option Nat :=
  (upTo 16).find? (fun p => (getPart s p).on && (getPart s p).pars.tiles.contains t)

/-- The partition that owns a Nib engine (R316). -/
def enginePart (s : State) (n : Nat) : Option Nat :=
  (upTo 16).find? (fun p => (getPart s p).on && (getPart s p).pars.nibMask.testBit n)

/-- SKIP of a row (R130): 15 where no tile has failed. -/
def skipOf (s : State) (row : Nat) : Nat := tblGet 15 s.anl.skip row

/-- The physical column of a logical tile (R130). -/
def physCol (s : State) (row col : Nat) : Nat := if col < skipOf s row then col else col + 1

/-- The power domain of a logical tile: PD 4c + q (Table 17.6). -/
def tileQuad (s : State) (t : Nat) : Nat := 4 * physCol s (t / 15) (t % 15) + t / 15 / 4

/-- A best-effort workspace or staging access may come (R470). -/
def workspaceBusy (s : State) : Bool := s.be.any (fun e => match e.2 with | some b => decide (0 < b.ws) | none => false)

/-- The stroke feed has something to load: a binding's strokes, a re-shape's, or those of a quad that woke (R438). -/
def feedBusy (s : State) : Bool :=
  decide (s.pwr.reloads ≠ []) || s.parts.any (fun e => e.2.reshaping || e.2.slots.any (fun k => k.2.loading.isSome))

/-- The GDDR6 PHY pairs are in Run whatever state they were moved to (R470): the Blotter records, a workspace is reserved, or the stroke
feed runs. -/
def gddrNeeded (s : State) : Bool := bltOn s || workspaceBusy s || feedBusy s

/-- State of a power domain; a PHY pair that is needed is in Run (assumption 96). -/
def domState (s : State) (d : Nat) : PowerState :=
  if 76 ≤ d ∧ d < 84 ∧ gddrNeeded s = true then .run else tblGet .run s.pwr.doms d
def setDom (s : State) (d : Nat) (x : PowerState) : State :=
  { s with pwr := { s.pwr with doms := tblSet .run s.pwr.doms d x } }

/-- Every quad of a partition is in Run (R166). -/
def quadsRun (s : State) (p : Nat) : Bool :=
  (getPart s p).pars.tiles.all (fun t => decide (domState s (tileQuad s t) = .run))

end Sys2Proof.Machine
end

