-- ==== Sys2Proof/Machine/NibOps.lean ====
section
/-! DEFINITION. What the rest of the device does to a Nib engine: raising its flags, reporting NO_PLAN and presenting a
trajectory (R299 to R302, R312). -/

namespace Sys2Proof.Machine

/-- Engine flags by bit (Table 11.6). -/
def nfMissed : Nat := 0
def nfEarly : Nat := 1
def nfPlanLost : Nat := 2
def nfShifted : Nat := 3
def nfGap : Nat := 4
def nfTimeout : Nat := 5
def nfFrozenVal : Nat := 6
def nfFrozenTs : Nat := 7
def nfSat : Nat := 8
def nfOutSat : Nat := 9
def nfLim : Nat := 10
def nfRate : Nat := 11
def nfSettling : Nat := 12
def nfCfgErr : Nat := 13

/-- Count a flag in its 16-bit half of NIB_ENG_CNT, saturating (R312). -/
def nibCount (s : State) (n f : Nat) : State :=
  let off := nibOff n (0x60 + 4 * (f / 2))
  let w := regGet s off
  let lo := fld w 15 0
  let hi := fld w 31 16
  regSet s off (if f % 2 = 0 then put hi 16 ||| put (satInc 16 lo) 0 else put (satInc 16 hi) 16 ||| put lo 0)

/-- Set flags of an engine: sticky, counted, raised as an event to the owner's contexts when newly set (R312), and a
Blotter trigger of the engine mask (R505). -/
def nibFlags (s : State) (n : Nat) (fs : List Nat) : State :=
  let old := regGet s (nibOff n 0x54)
  let bits := fs.foldl (fun w f => w ||| put 1 f) (0 : Word)
  let s1 := fs.foldl (fun t f => nibCount t n f) (regSet s (nibOff n 0x54) (old ||| bits))
  let fresh := bits &&& (old ^^^ 0xFFFFFFFF)
  if fresh = 0 then s1
  else
    let s2 := match enginePart s1 n with
      | some p => raiseEvent s1 0x01 (some p) n fresh 0 0 0
      | none => s1
    if wbit (regGet s2 (bltOff 0x30)) (16 + n) then bltTrigger s2 2 else s2

/-- A refused arm, swap or register write: CFG_CAUSE and CFG_ERR (R288, R304, R545). -/
def nibRefuse (s : State) (n cause : Nat) : State :=
  let w := regGet s (nibOff n 0x54)
  nibFlags (regSet s (nibOff n 0x54) ((w &&& 0xF0FFFFFF) ||| put cause 24)) n [nfCfgErr]

/-- The engines of a partition whose trajectory binding names an entry (R299). -/
def boundEngines (s : State) (p j : Nat) : List Nat :=
  (upTo 16).filter (fun n =>
    let w := regGet s (nibOff n 0x14)
    (getPart s p).pars.nibMask.testBit n && wbit w 31 && decide (fld w 5 0 = j))

/-- NO_PLAN reported to an engine (R301, R302): PLAN_LOST, and HOLD unless a more severe state applies; outside RUN the hold waits for
the next RUN, and no trajectory of before serves again. -/
def noPlan (s : State) (n : Nat) : State :=
  let e := getNib s n
  if e.st = .config then s
  else
    let e1 := match e.st with
      | .run | .coast | .hold => { e with st := .hold, planHold := true, holdN := if e.st = .hold then e.holdN else 0 }
      | _ => { e with traj := none, oldTraj := none, planHold := true }
    nibFlags (setNib s n e1) n [nfPlanLost]

/-- NO_PLAN to every engine bound to an entry. -/
def noPlanEntry (s : State) (p j : Nat) : State := (boundEngines s p j).foldl noPlan s

/-- Adoption by an engine at the release count (R19, R299): a fallback sets PLAN_SHIFTED_IN; a HOLD entered on NO_PLAN
ends, and the next sample decides the state. -/
def adopt (s : State) (n : Nat) (t : NibTraj) (shifted : Bool) : State :=
  let e := getNib s n
  if e.st = .config then s
  else
    let e1 := { e with traj := some t, oldTraj := e.traj, planHold := false }
    let s1 := setNib s n e1
    if shifted then nibFlags s1 n [nfShifted] else s1

end Sys2Proof.Machine
end

