-- ==== Sys2Proof/Machine/Windows.lean ====
section
/-! DEFINITION. The slot table of a partition and its ticks (R318 to R321): windows, open and returned ticks, and the live queues whose
positions a kill saves (R317, R329). -/

namespace Sys2Proof.Machine

def cycleTicks (s : State) (p : Nat) : Nat := (regGet s (slotTabOff p 0 3)).toNat
def cycleBase (s : State) (p : Nat) : Nat := (regGet64 s (slotTabOff p 0 1)).toNat
def windowCount (s : State) (p : Nat) : Nat := fld (regGet s (slotTabOff p 0 0)) 31 24

/-- A window: start, length, owner (Table 12.2). -/
structure Window where
  start : Nat
  length : Nat
  owner : Nat
deriving DecidableEq, Repr, Inhabited

def window (s : State) (p w : Nat) : Window :=
  let w2 := regGet s (slotTabOff p (w + 1) 2)
  ⟨(regGet s (slotTabOff p (w + 1) 3)).toNat, fld w2 31 8, fld w2 7 2⟩

def windows (s : State) (p : Nat) : List Window := (upTo (windowCount s p)).map (window s p)

/-- The tick of the present cycle a count falls on, none before cycle 0. -/
def cycleTick (s : State) (p n : Nat) : Option Nat :=
  if cycleBase s p ≤ n then some ((n - cycleBase s p) % max 1 (cycleTicks s p)) else none

/-- Whether a count falls in a window. -/
def inWindow (s : State) (p n : Nat) (w : Window) : Bool :=
  match cycleTick s p n with
  | some t => decide (w.start ≤ t ∧ t < w.start + w.length)
  | none => false

/-- A tick outside every window is open (R321). -/
def openTick (s : State) (p n : Nat) : Bool := (windows s p).all (fun w => !inWindow s p n w)

/-- O, the open ticks of a cycle. -/
def openTicks (s : State) (p : Nat) : Nat := cycleTicks s p - ((windows s p).map (fun w => w.length)).sum

/-- The cycle a count lies in, numbered from 1; 0 before the first. -/
def cycleNo (s : State) (p n : Nat) : Nat :=
  if cycleBase s p ≤ n then (n - cycleBase s p) / max 1 (cycleTicks s p) + 1 else 0

/-- The window a count falls in. -/
def windowNow (s : State) (p n : Nat) : Option Window := (windows s p).find? (inWindow s p n)

/-- The command of a key is that of the present window's owner. -/
def ownsWindow (s : State) (p : Nat) (k : CmdKey) : Bool :=
  match windowNow s p (count s p), k with
  | some w, .entry j => decide (w.owner = j)
  | _, _ => false

/-- The owner's command leaves the fabric, or its launch does not start: the rest of the window is returned (R321). -/
def leaveFabric (s : State) (p : Nat) (k : CmdKey) : State :=
  if ownsWindow s p k then setPart s p { getPart s p with returned := true } else s

/-- Best-effort work may hold the tiles: the tick is open or returned (R322). -/
def freeTick (s : State) (p : Nat) : Bool := openTick s p (count s p) || (getPart s p).returned

/-- Live queues of a partition: its enabled and draining rings (R317). -/
def liveQueues (s : State) (p : Nat) : Nat :=
  ((upTo 64).map (fun c =>
    if (getCtx s c).on ∧ (getCtx s c).part = p then
      ((upTo 8).filter (fun r => decide ((getRing s c r).st = .enabled ∨ (getRing s c r).st = .draining))).length
    else 0)).sum

end Sys2Proof.Machine
end

