-- ==== Sys2Proof/Machine/Command.lean ====
section
/-! DEFINITION. The shared operations over commands: certificates and launch groups as slots (Tables 10.5, 13.8, 13.9), the
command boundary of the tiles (Table 05.4), kills (R328 to R330), the end of an instance's step (R64) and the teardown of
a context (R338). -/

namespace Sys2Proof.Machine

/-- A certificate as eight words (Table 10.5). -/
def AssayCert.words (c : AssayCert) : CSlot :=
  [put 1 28 ||| put c.fails.toNat 24 ||| put c.posting 22 ||| put (if c.pass then 1 else 0) 21
      ||| put (if c.nan then 1 else 0) 20 ||| put c.thr 12,
    put c.iter 16 ||| BitVec.ofNat 32 c.inst, c.crc, c.pres, c.viol, c.dres, lo32 c.gap, hi32 c.gap]

/-- The CERT slot: all zero when no certificate was stamped. -/
def certSlot : Option AssayCert → CSlot
  | some c => c.words
  | none => [0, 0, 0, 0, 0, 0, 0, 0]

/-- The LAUNCH head slot (Table 13.8), PHASE 0 and DROP 0. -/
def LaunchRec.head (r : LaunchRec) (ext : Nat) : CSlot :=
  [put 1 28 ||| put ext 26 ||| put r.status 16 ||| put r.cause 8 ||| put r.part 4 ||| put r.img 1
      ||| BitVec.ofNat 32 (if r.fair then 1 else 0),
    put r.inst 22 ||| put r.entry 16 ||| BitVec.ofNat 32 r.iterDone,
    put r.committedIter 16 ||| put r.rank1 12 ||| put r.refine 10 ||| put r.start 8 ||| put r.stop 5 ||| put r.reason 2,
    r.asn, BitVec.ofNat 32 r.launch, BitVec.ofNat 32 (r.launch / 2 ^ 32), lo32 r.subopt, hi32 r.subopt]

/-- The LAUNCH_EXT slot (Table 13.9). -/
def LaunchRec.ext (r : LaunchRec) : CSlot :=
  [lo32 r.flags, hi32 r.flags, BitVec.ofNat 32 r.arith.toNat, put r.piv.repl 16 ||| BitVec.ofNat 32 r.piv.zero,
    put r.piv.inertia 16 ||| put r.chkSkipped 8 ||| BitVec.ofNat 32 r.nanItems, BitVec.ofNat 32 r.refusedEntry,
    lo32 r.endTime, hi32 r.endTime]

/-- Write the LAUNCH group of a command to its context (R363), with its Blotter record and triggers. -/
def writeLaunch (s : State) (r : LaunchRec) : State :=
  let head := r.head 2
  let exts := [r.ext, certSlot r.cert]
  let s1 := writeOrDrop s r.ctx head exts
  let s2 := bltRecord s1 kLaunch r.part (lc s1)
    ([put r.part 28 ||| put r.entry 22 ||| put r.rseg 20, BitVec.ofNat 32 r.taken, 0, 0] ++ head ++ exts.flatten)
  bltTriggerCompletion s2 r.status r.flags

/-- A tile at a command boundary (Table 05.4): stroke memory stays, everything else starts afresh. -/
def Tile.boundary (t : Tile) : Tile := { Tile.reset with strokes := t.strokes }

/-- A tile that stops issuing: operations in flight are discarded (R329). -/
def Tile.halt (t : Tile) : Tile := { t with running := false, flight := [] }

/-- Every tile of a partition. -/
def modTiles (s : State) (p : Nat) (f : Tile → Tile) : State :=
  (getPart s p).pars.tiles.foldl (fun t i => setTile t i (f (getTile t i))) s

def boundaryTiles (s : State) (p : Nat) : State := modTiles s p Tile.boundary

/-- The command of a key. -/
def getCmd (s : State) (p : Nat) (k : CmdKey) : Option Cmd :=
  match k with
  | .entry j => (getRun s p j).cmd
  | .ring r => (getBe s r).map (fun b => b.cmd)

/-- Replace the command of a key. -/
def putCmd (s : State) (p : Nat) (k : CmdKey) (c : Cmd) : State :=
  match k with
  | .entry j => setRun s p j { getRun s p j with cmd := some c }
  | .ring r =>
    match getBe s r with
    | some b => setBe s r (some { b with cmd := c })
    | none => s

/-- The tiles are free again: boundary state, no holder. -/
def freeTiles (s : State) (p : Nat) : State :=
  let s1 := boundaryTiles s p
  setPart s1 p { getPart s1 p with holder := none }

/-- Drop every posting of a command: in check, waiting or queued on the pool (R230, Table 10.6). -/
def dropPostings (s : State) (p : Nat) (k : CmdKey) : State :=
  let x := getPart s p
  let s1 := setPart s p { x with postings := x.postings.filter (fun q => q.key ≠ k) }
  match k with
  | .ring r => { s1 with assay := { s1.assay with beQueue := s1.assay.beQueue.filter (fun q => q ≠ r) } }
  | .entry _ => s1

/-- What a killed command keeps (Table 08.10): its frozen values and decisions, LIN_DEFAULT among them (R255); the rest is
cleared. -/
def Cmd.killed (c : Cmd) (hold : Bool) : Cmd :=
  { c with
    st := .waitRerun, t := 0, seg := 0, iter := 0, rank1 := 0, refine := 0, steps := 0, refineOpen := false, stop := none,
    arith := c.itemArith, flags := c.flags &&& cfLinDefault, firstTile := none, halted := none, piv := {}, chkSkipped := 0, held := c.held || hold,
    members := c.members.map (fun m => { m with final := none, cert := none, best := none, mismatch := false,
                                                copyBad := false, assayBad := false }) }

/-- A best-effort command put back to wait: a MODEL keeps what its ended kernels left (R262, R240). -/
def BeCmd.killed (b : BeCmd) : BeCmd :=
  { b with
    posted := false, judged := false, linkWait := false, staged := false, stageBytes := 0
    cmd := { b.cmd with arith := b.keptArith, piv := b.keptPiv } }

/-- Put a command back to wait for its re-run (R230): its postings dropped, its counters cleared. -/
def toRerun (s : State) (p : Nat) (k : CmdKey) (hold : Bool) : State :=
  let s1 := dropPostings s p k
  match getCmd s1 p k with
  | some c =>
    let s2 := putCmd s1 p k (c.killed hold)
    match k with
    | .ring r =>
      match getBe s2 r with
      | some b => setBe s2 r (some b.killed)
      | none => s2
    | .entry _ => s2
  | none => s1

/-- The best-effort commands of a partition in VERIFY are killed: their checks are abandoned and they wait for a re-run (R328,
Table 10.6). -/
def killChecks (s : State) (p : Nat) (hold : Bool) : State :=
  s.be.foldl (fun t e => match getBe t e.1 with
    | some b => if b.part = p ∧ b.cmd.st = .verify then toRerun t p (.ring e.1) hold else t
    | none => t) s

/-- Begin a kill of the command that holds a partition's tiles (R329): issue stops and operations in flight are
discarded; KILL_END frees the tiles 50 + 6·Q fcyc later. A second cause in the meantime adds nothing. -/
def beginKill (s : State) (p : Nat) (cause : KillCause) (rerun : Bool) (pause : List (Nat × Nat)) : State :=
  let x := getPart s p
  match x.kill, x.holder with
  | none, some k =>
    let s1 := modTiles s p Tile.halt
    let s2 := setPart s1 p { getPart s1 p with
      kill := some ⟨k, cause, rerun, pause⟩, tilesFree := 7 * s.lt + 50 + 6 * liveQueues s p }
    if rerun then toRerun s2 p k (decide (cause = .hold)) else dropPostings s2 p k
  | some kl, _ =>
    setPart s p { x with kill := some { kl with rerun := kl.rerun && rerun, pause := kl.pause ++ pause } }
  | none, none => s

/-- Instances leave a partition: their memory is freed, their pending sets are dropped (R36, R64, R173), and a trajectory of theirs
is no longer the last committed since admission (R232, R255). -/
def Part.dropInsts (x : Part) (gone : Inst → Bool) : Part :=
  let left := x.insts.filter (fun i => !gone i)
  let stays := fun (t : Traj) => left.any (fun i => i.num == t.inst)
  { x with
    insts := left
    entries := (x.entries.map (fun e => (e.1, { e.2 with traj := e.2.traj.filter stays }))).filter (fun e => decide (e.2 ≠ EntryRun.reset)) }

def dropInsts (s : State) (p : Nat) (gone : Inst → Bool) : State := setPart s p ((getPart s p).dropInsts gone)

/-- Remove an instance. -/
def removeInst (s : State) (p num : Nat) : State := dropInsts s p (fun i => i.num == num)

/-- Whether a command runs on an instance, or a step it is a member of still has a completion to write (R62, R64). -/
def instBusy (s : State) (p num : Nat) : Bool :=
  let x := getPart s p
  x.entries.any (fun e => match e.2.cmd with
    | some c => decide (c.st ≠ .done) && c.members.any (fun m => m.inst == num)
    | none => false)
  || x.awaits.any (fun a => a.step.contains num)
  || s.be.any (fun e => match e.2 with
    | some b => decide (b.part = p ∧ b.model = false ∧ b.inst = num ∧ b.cmd.st ≠ .wait)
    | none => false)

/-- Releases that were accepted take effect once no command runs on the instance and its step has ended (R64, R65). -/
def freeReleased (s : State) (p : Nat) : State := dropInsts s p (fun i => i.released && !instBusy s p i.num)

/-- The image a command runs. -/
def cmdImage (s : State) (p : Nat) (c : Cmd) : Option Image := (getSlot s p c.slot).img

/-- The targets of a commit map that some map record names (R572), by target record number. -/
def Image.usedTargets (i : Image) : List (Nat × MapTarget) :=
  (i.targets.zipIdx.filter (fun e => e.1.valid && i.commitMap.any (fun r => r.src == e.2))).map (fun e => (e.2, e.1))

/-- A command commits nothing: UPSTREAM_STALE for the next launch of each target instance (R234, R258). -/
def staleTargets (s : State) (im : Image) : State :=
  im.usedTargets.foldl (fun t e =>
    match (getPart t e.2.part).inst? e.2.inst with
    | some i => if i.slot = e.2.slot then putInst t e.2.part { i with upStale := true } else t
    | none => t) s

/-- The same for the command of a slot that holds an image. -/
def staleOf (s : State) (p k : Nat) : State :=
  match (getSlot s p k).img with
  | some im => staleTargets s im
  | none => s

/-- The flags a launch reports whatever its outcome (Table 08.6, R92, R198, R212). -/
def startFlags (im : Image) (c : Cmd) (m : Member) (commits : Nat) : CFlags :=
  let settle := match im.params with | some q => q.settle | none => 0
  c.flags ||| c.piv.flags
    ||| cfIf (decide (c.start = .cold)) cfColdStart
    ||| cfIf (decide (m.reason = .signature ∨ m.reason = .stale ∨ m.reason = .range)) cfWsDiscarded
    ||| cfIf m.first cfFirstLaunch ||| cfIf (decide (commits < settle)) cfSettling
    ||| cfIf m.upRefused cfUpstreamRefused ||| cfIf m.upStale cfUpstreamStale
    ||| cfIf c.refineOpen cfRefineIncomplete

/-- The fields of a LAUNCH group that a command and one of its members give. -/
def launchRecOf (p : Nat) (c : Cmd) (m : Member) (ctx status : Nat) (endTime : Word64) : LaunchRec where
  ctx := ctx
  status := status
  cause := 0
  part := p
  img := c.slot
  fair := c.fair
  inst := m.inst
  entry := c.entry
  iterDone := c.iter
  committedIter := 0
  rank1 := c.rank1
  refine := c.refine
  rseg := c.steps
  start := m.start.code
  stop := match c.stop with | some r => r.code | none => 0
  reason := m.reason.code
  asn := m.asn
  launch := c.launch
  subopt := 0
  flags := c.flags
  arith := c.arith
  piv := c.piv
  chkSkipped := c.chkSkipped
  nanItems := 0
  refusedEntry := 0
  endTime := endTime
  taken := m.taken
  cert := none

/-- The LAUNCH group of a member whose launch is ended from outside (R338, Table 12.4): STOP_REASON KILLED, NO_PLAN and the flags
of Tables 08.6 and 07.3; its targets run on what they hold. -/
def endMember (s : State) (p : Nat) (cmd : Cmd) (m : Member) (ctx status cause : Nat) : State :=
  let r := launchRecOf p cmd m ctx status (nsCount s)
  let start := match cmdImage s p cmd, (getPart s p).inst? m.inst with
    | some im, some i => startFlags im cmd { m with first := m.first && i.launched } i.commits
    | _, _ => cmd.flags ||| cmd.piv.flags
  staleOf (writeLaunch s { r with cause := cause, stop := StopReason.killed.code, flags := start ||| cfNoPlan }) p cmd.slot

/-- End, by a teardown, the part of a launch that belongs to a context (R338): one LAUNCH group for each of its members
with FAIL_CONTEXT, STOP_REASON KILLED and NO_PLAN. Members of other contexts wait for a re-run without it. -/
def teardownLaunch (s : State) (p j c cause : Nat) : State :=
  match (getRun s p j).cmd with
  | none => s
  | some cmd =>
    let x := getPart s p
    let mine := cmd.members.filter (fun m => match x.inst? m.inst with | some i => i.ctx == c | none => false)
    if mine = [] ∨ cmd.st = .done then s
    else
      let rest := cmd.members.filter (fun m => !mine.contains m)
      let s1 := if (getPart s p).holder = some (.entry j) then beginKill s p .teardown (decide (rest ≠ [])) []
                else dropPostings s p (.entry j)
      let s2 := mine.foldl (fun t m => endMember t p cmd m c stContext cause) s1
      let e := getRun s2 p j
      if rest = [] then leaveFabric (setRun s2 p j { e with cmd := none, rels := [], traj := none }) p (.entry j)
      else setRun s2 p j { e with cmd := some { cmd.killed false with members := rest } }

/-- An uncommitted item's group that waits for the journal reports another status (R366). -/
def WaitGroup.fail (w : WaitGroup) (c r status cause : Nat) : WaitGroup :=
  match w.item with
  | some (q, _) =>
    if w.ctx = c ∧ q = r then
      { w with head := descSlot 0 status cause r (w.head.getD 1 0) 0 0 (word64 (w.head.getD 6 0) (w.head.getD 7 0)), exts := [] }
    else w
  | none => w

/-- Complete every accepted and uncommitted item of a ring with a status, in order, and set its state (R366 to R368). -/
def failRing (s : State) (c r status cause : Nat) (st : RingState) : State :=
  let g := getRing s c r
  let s0 := { s with waiting := s.waiting.map (fun w => w.fail c r status cause) }
  let s1 := g.items.foldl (fun t _ => completeOne t c r status cause 0 0 [] 0) s0
  let g1 := getRing s1 c r
  setRing s1 c r { g1 with st := if g1.st = .uncreated ∨ g1.st = .lost then g1.st else st, items := [], paused := false }

/-- Forget the best-effort command of a ring; one that has not committed commits nothing (R234, R258). -/
def dropRing (s : State) (p k : Nat) : State :=
  let s1 := match getBe s k with
    | some b => if (getPart s p).awaits.any (fun a => a.be == some (b.ctx, b.ring)) || b.outGrp.isSome then s else staleOf s p b.slot
    | none => s
  setBe (dropPostings s1 p (.ring k)) k none

/-- Forget what the best-effort commands and slots of a context still wait for. -/
def dropContextWork (s : State) (c : Nat) : State :=
  let p := (getCtx s c).part
  let s1 := (upTo 8).foldl (fun t r => dropRing t p (8 * c + r)) s
  let x := getPart s1 p
  setPart s1 p { x with
    gate := x.gate.filter (fun g => match g.src with | .host c2 _ _ => c2 ≠ c | _ => true)
    awaits := x.awaits.filter (fun a => match a.be with | some (c2, _) => c2 ≠ c | none => true)
    slots := x.slots.map (fun e => (e.1, { e.2 with
      loading := match e.2.loading with | some (im, c2, r) => if c2 = c then none else some (im, c2, r) | none => none
      unbinding := match e.2.unbinding with | some (c2, r) => if c2 = c then none else some (c2, r) | none => none })) }

/-- The GDDR6 workspace a best-effort MODEL command of the context holds is given back (R260). -/
def freeWorkspaces (s : State) (c : Nat) : State :=
  let n := ((upTo 8).map (fun r => match getBe s (8 * c + r) with | some b => b.ws | none => 0)).sum
  { s with mem := { s.mem with wsUsed := s.mem.wsUsed - n } }

/-- The batch member of the lowest slot, whose trajectory a batch entry offers (assumption 67). -/
def batchLead (x : Part) (k : Nat) : Option Inst :=
  (x.insts.filter (fun i => i.batched && i.slot == k)).foldl (fun (b : Option Inst) i =>
    match b with
    | some y => if i.member < y.member then some i else some y
    | none => some i) none

/-- Release the instances of a context (R338): engines bound to entries that launch them lose their plan (R302). -/
def releaseInstances (s : State) (c : Nat) : State :=
  let p := (getCtx s c).part
  let nums := ((getPart s p).insts.filter (fun i => i.ctx == c)).map (fun i => i.num)
  let js := (upTo 64).filter (fun j =>
    let w6 := regGet s (launchOff p j 6)
    wbit w6 15 && (if wbit w6 12 then (match batchLead (getPart s p) (fld w6 11 9) with | some i => i.ctx == c | none => false)
      else nums.contains (fld w6 8 0 * 2 + fld (regGet s (launchOff p j 5)) 31 31)))
  let s1 := js.foldl (fun t j => setRun (noPlanEntry t p j) p j { getRun t p j with traj := none, rels := [] }) s
  nums.foldl (fun t n => removeInst t p n) s1

/-- What a teardown does before its completions: the running command is killed and the work it waits for is forgotten. -/
def teardownStart (s : State) (c : Nat) (cause : KillCause) : State :=
  let p := (getCtx s c).part
  let s1 := match (getPart s p).holder with
    | some (.ring k) => if k / 8 = c then beginKill s p cause false [] else s
    | _ => s
  dropContextWork (freeWorkspaces s1 c) c

/-- The teardown of a context (R338, R367): its running command is killed, its items complete FAIL_CONTEXT in ring order,
its launches end, its instances are released and a fault record is written. -/
def teardown (s : State) (c cause : Nat) : State :=
  let x := getCtx s c
  if !x.on then s
  else
    let p := x.part
    let s2 := teardownStart s c .teardown
    let s3 := (upTo 8).foldl (fun t r => failRing t c r stContext cause .halted) s2
    let s4 := (upTo 64).foldl (fun t j => teardownLaunch t p j c cause) s3
    let s5 := releaseInstances s4 c
    writeFault s5 { faultOf 0x03 p with ctx := c, detail := BitVec.ofNat 32 cause }

end Sys2Proof.Machine
end

