-- ==== Sys2Proof/Machine/HostIface.lean ====
section
/-! DEFINITION. The host interface's commands (chapter 13): doorbells, descriptor acceptance with its checks, the opcodes that
act at once, host-side faults, the journal and Warm recovery. -/

namespace Sys2Proof.Machine

/-- The context that a doorbell page of a function belongs to (R534). -/
def pageCtx (s : State) (f page : Nat) : Option Nat :=
  (upTo 64).find? (fun c => let x := getCtx s c; x.on && decide (x.func = f) && decide (x.page = page))

/-- One index lies ahead of another, modulo 2^32. -/
def ahead (a b : Word) : Bool := decide (a ≠ b) && decide ((a - b).toNat < 2 ^ 31)

/-- A tail doorbell of ring r (R351): stale ones are counted, an overrun tears the context down. -/
def tailDoorbell (s : State) (c r : Nat) (v : Word64) : State :=
  let g := getRing s c r
  let idx := lo32 v
  if g.st ≠ .enabled ∨ v.toNat / 2 ^ 56 ≠ g.gen.toNat ∨ ahead idx g.tail = false then bump s (ctxOff c 0x144)
  else if 2 ^ g.log2 < (idx - g.cmp).toNat then teardown s c 3
  else setRing s c r { g with tail := idx }

/-- A head doorbell (R351): the consumed head moves, or the doorbell is stale. -/
def headDoorbell (s : State) (c : Nat) (v : Word64) : State :=
  let x := getCtx s c
  let idx := lo32 v
  if v.toNat / 2 ^ 56 ≠ x.cqGen.toNat ∨ ahead idx x.cqHead = false ∨ (x.cqTail - x.cqHead).toNat < (idx - x.cqHead).toNat then
    bump s (ctxOff c 0x144)
  else setCtx s c { x with cqHead := idx, notify := false }

/-- A write to a doorbell page (R350, R465, R534). -/
def doorbell (s : State) (f page off bytes : Nat) (v : Word64) : State :=
  match pageCtx s f page with
  | none => s
  | some c =>
    if !isReady s || decide (bytes ≠ 8) || decide (0x40 < off) || decide (off % 8 ≠ 0) then bump s (ctxOff c 0x140)
    else if off = 0x40 then headDoorbell s c v
    else tailDoorbell s c (off / 8) v

/-- DOORBELL_SUBMIT (R350, R351). -/
def execDoorbellSubmit (f : FuncId) (page : Fin 64) (off : Nat) (bytes : Nat) (v : Word64) (s : State) : Result :=
  .next (doorbell s f.val page.val off bytes v)

/-- DOORBELL_CQ_HEAD (R351): the write at offset 0x40. -/
def execDoorbellCqHead (f : FuncId) (page : Fin 64) (bytes : Nat) (v : Word64) (s : State) : Result :=
  .next (doorbell s f.val page.val 0x40 bytes v)

/-- The bits of words 4 to 15 that an opcode uses; every other bit is RSV (Table 13.5). FPCW's own RSV bits count. -/
def opMasks (op : Nat) : List Word :=
  let none12 := List.replicate 12 (0 : Word)
  match op with
  | 0x01 | 0x02 => [0xFFFFFFFF, 0xFFFFFFFF, 0xFFFFFFFF, 7, 0, 0, 0, 0, 0, 0, 0, 0]
  | 0x03 | 0x07 | 0x08 => [0, 0, 0, 7, 0, 0, 0, 0, 0, 0, 0, 0]
  | 0x04 => [0xFFFFFFFF, 0xFFFFFFFF, 0xFFFFFFFF, 7, 0x3FF, 0, 0, 0, 0, 0, 0, 0]
  | 0x05 => [0xFFFFFFFF, 0xFFFFFFFF, 0xFFFFFFFF, 7, 0xFFFFC000, 0x0FFC0000, 0xFFFFC000, 0, 0, 0, 0, 0]
  | 0x06 => [0xFFFFFFFF, 0xFFFFFFFF, 0xFFFFFFFF, 7, 0x1FF, 0x0FFC0000, 0xFFFFC000, 0, 0xFFFFFFFF, 0xFFFFFFFF,
      0xFFFFFFFF, 0]
  | _ => none12

/-- The class of an opcode (Table 13.5). -/
def opClass (op : Nat) : Option Nat :=
  match op with
  | 0x00 | 0x02 | 0x03 | 0x07 | 0x08 => some 0
  | 0x01 | 0x04 => some 1
  | 0x05 | 0x06 => some 2
  | _ => none

/-- ADDR, BYTES and SLOT of a descriptor (Table 13.5). -/
def Item.addr (i : Item) : Nat := (word64 (i.word 4) (i.word 5)).toNat
def Item.bytes (i : Item) : Nat := (i.word 6).toNat
def Item.slot (i : Item) : Nat := fld (i.word 7) 2 0

/-- Check 6 of Table 13.6: addresses aligned to 64, BYTES within what Table 13.5 gives, a mailbox address within the
mailbox. The BYTES of an IMAGE_BIND are judged at check 2 of Table 06.6 (R170). -/
def addrOk (x : Ctx) (i : Item) : Bool :=
  let op := i.opcode
  let has := op = 1 ∨ op = 2 ∨ op = 4 ∨ op = 5 ∨ op = 6
  let fits := fun (a n : Nat) => a % 64 = 0 ∧ (x.func = 16 → a + n ≤ 262144)
  let b := i.bytes
  let range := op = 1 → b % 8 = 0 ∧ 32 ≤ b ∧ b ≤ 4194336
  decide ((has → fits i.addr b) ∧ range ∧ (op = 6 → 8 * fld (i.word 8) 8 0 ≤ b)
    ∧ (op = 6 → fits (word64 (i.word 12) (i.word 13)).toNat (i.word 14).toNat))

/-- Checks 1 to 6 of Table 13.6, in order. -/
def descChecks (x : Ctx) (g : Ring) (i : Item) : Option (Nat × Nat) :=
  let w0 := i.word 0
  if fld w0 23 16 ≠ g.gen.toNat then some (stStale, 1)
  else if i.word 1 ≠ g.acc then some (stStale, 2)
  else if fld w0 31 28 ≠ g.version then some (stStructure, 6)
  else if opClass i.opcode ≠ some (fld w0 27 26) then some (stStructure, 7)
  else if fld w0 25 24 ≠ 0 ∨ fld w0 7 1 ≠ 0
      ∨ ((i.words.drop 4).zip (opMasks i.opcode)).any (fun e => e.1 &&& ~~~e.2 != 0) then some (stStructure, 2)
  else if addrOk x i = false then some (stStructure, 8)
  else none

/-- Room to accept another descriptor (R359). -/
def acceptRoom (s : State) (c : Nat) : Bool :=
  decide (4 * openItems s c + fld (regGet s (ctxOff c 0x08)) 17 0 + 4 ≤ (getCtx s c).free)

/-- A descriptor of the ring can be read and accepted now (R351, R355, R359). -/
def fetchReady (s : State) (c r : Nat) : Bool :=
  let x := getCtx s c
  let g := getRing s c r
  x.on && !x.recover && !s.rst.partRst.getLsbD x.part && decide (g.st = .enabled) && decide (g.acc ≠ g.tail) && acceptRoom s c

/-- Accept the descriptor at ACC_IDX (R355, R356): one that fails checks 1 to 6 holds its status until it is at the head, and a stale one
is counted. -/
def fetchOne (s : State) (c r : Nat) : State :=
  let x := getCtx s c
  let g := getRing s c r
  let ws := memWords (hostMem s x) (g.base.toNat + 64 * (g.acc.toNat % 2 ^ g.log2)) 16
  let it0 : Item := ⟨g.acc, ws, none, false, s.lt⟩
  let it := { it0 with early := descChecks x g it0 }
  let stale := match it.early with | some (st, _) => decide (st = stStale) | none => false
  let s1 := if stale then bump s (ringOff c r 0x1C) else s
  let s2 := setRing s1 c r { g with
    acc := g.acc + 1, items := g.items ++ [it], headTick := if g.items = [] then s.lt else g.headTick }
  settle 1 (bltRecord s2 kDesc c (lc s) ws) c r

/-- Accept up to n descriptors. -/
def fetchUpTo : Nat → State → Nat → Nat → State
  | 0, s, _, _ => s
  | n + 1, s, c, r => if fetchReady s c r then fetchUpTo n (fetchOne s c r) c r else s

/-- The ring whose turn it is (R357): the next with a descriptor to read, by ascending context and then ring. -/
def fetchTurn (s : State) : Option Nat :=
  ((upTo 512).map (fun i => (s.serveNext + i) % 512)).find? (fun k => fetchReady s (k / 8) (k % 8))

/-- DESCRIPTOR_FETCH (R355 to R357): in its turn a ring has up to 4 descriptors read and accepted. -/
def execDescriptorFetch (c : CtxId) (r : RingId) (s : State) : Result :=
  let k := 8 * c.val + r.val
  if fetchTurn s = some k then .next (fetchUpTo 4 { s with serveNext := (k + 1) % 512 } c.val r.val) else .next s

/-- The head item of a ring when it has the opcode and has not begun (R357). -/
def headOp (s : State) (c r op : Nat) : Option Item :=
  match headItem s c r with
  | some i => if i.opcode = op ∧ i.early = none ∧ i.begun = false then some i else none
  | none => none

/-- Mark the head item as begun. -/
def beginItem (s : State) (c r : Nat) : State :=
  let g := getRing s c r
  setRing s c r { g with items := match g.items with | i :: t => { i with begun := true } :: t | [] => [] }

/-- NOP (R352). -/
def execNop (c : CtxId) (r : RingId) (s : State) : Result :=
  match headOp s c.val r.val 0x00 with
  | some _ => .next (finishItem s c.val r.val stOk 0)
  | none => .next s

/-- OBJECT (R352): the object is read and takes its place at the partition's gate (R44). -/
def execObject (c : CtxId) (r : RingId) (s : State) : Result :=
  match headOp s c.val r.val 0x01 with
  | some i =>
    let x := getCtx s c.val
    let ws := memWords (hostMem s x) i.addr (i.bytes / 4)
    let g : GateItem :=
      { src := .host c.val r.val i.seq.toNat, kind := fld (ws.getD 0 0) 23 16, slot := i.slot, bytes := i.bytes, words := ws,
        recs := [], inst := fld (ws.getD 0 0) 9 0, tsig := 0, asn := 0, tick := s.lt }
    let s1 := beginItem s c.val r.val
    .next (setPart s1 x.part { getPart s1 x.part with gate := gateInsert g (getPart s1 x.part).gate })
  | none => .next s

/-- The checks of a RESULT_READ: status and cause, or the instance (R354). -/
def resultReadCheck (x : Part) (i : Item) : (Nat × Nat) ⊕ Inst :=
  match (x.slot i.slot).img with
  | none => .inl (stImage, 0xC)
  | some im =>
    if im.isModel then .inl (stStructure, 9)
    else
      match x.inst? (fld (i.word 8) 9 0) with
      | none => .inl (stAdmit, 1)
      | some t =>
        if t.released ∨ t.slot ≠ i.slot then .inl (stAdmit, 1)
        else if i.bytes < 4 * im.w + 32 then .inl (stStructure, 8)
        else .inr t

/-- RESULT_READ (R354). -/
def execResultRead (c : CtxId) (r : RingId) (s : State) : Result :=
  match headOp s c.val r.val 0x04 with
  | some i =>
    let x := getCtx s c.val
    match resultReadCheck (getPart s x.part) i with
    | .inl (st, cause) => .next (finishItem s c.val r.val st cause)
    | .inr t =>
      match t.lastWords with
      | none => .next (completeItem s c.val r.val stOk 0 0 0 [] 0)
      | some ws =>
        let out := ws ++ certSlot t.lastCert
        .next (completeItem (hostStore s x i.addr out) c.val r.val stOk 0 (BitVec.ofNat 32 (4 * out.length)) 0 [] 0)
  | none => .next s

/-- PAUSE (R353): starts stop on the named ring; a running head command is killed and the item completes when the kill
ends. -/
def execPause (c : CtxId) (r : RingId) (s : State) : Result :=
  match headOp s c.val r.val 0x07 with
  | some i =>
    let t := i.slot
    let p := (getCtx s c.val).part
    let s1 := setRing s c.val t { getRing s c.val t with paused := true }
    if (getPart s1 p).holder = some (.ring (8 * c.val + t)) then
      .next (beginKill (beginItem s1 c.val r.val) p .pause true [(c.val, r.val)])
    else .next (finishItem s1 c.val r.val stOk 0)
  | none => .next s

/-- RESUME (R353): the head is a candidate again, with its head tick unchanged (R323). -/
def execResume (c : CtxId) (r : RingId) (s : State) : Result :=
  match headOp s c.val r.val 0x08 with
  | some i =>
    .next (finishItem (setRing s c.val i.slot { getRing s c.val i.slot with paused := false }) c.val r.val stOk 0)
  | none => .next s

/-- HOST_READ_FAIL (R337): the context is torn down, cause HOST_READ. -/
def execHostReadFail (c : CtxId) (s : State) : Result := .next (teardown s c.val 1)

/-- Take the oldest group of a context out of the journal. -/
def dropGroup (l : List JGroup) (c : Nat) : List JGroup :=
  match l with
  | [] => []
  | g :: gs => if g.ctx = c then gs else g :: dropGroup gs c

/-- JOURNAL_RELEASE (R358): over PCIe once its TLPs are acknowledged; on the control port once the head doorbell has
passed the group's last slot. Groups that waited enter as space is free. -/
def execJournalRelease (c : CtxId) (s : State) : Result :=
  let x := getCtx s c.val
  match s.journal.find? (fun g => g.ctx == c.val) with
  | none => .next s
  | some g =>
    let done := decide (x.func ≠ 16) || decide (g.slots.length ≤ (x.cqHead - g.pos).toNat ∧ (x.cqHead - g.pos).toNat < 2 ^ 31)
    if done then .next (flushJournal journalSlots { s with journal := dropGroup s.journal c.val })
    else .next s

/-- No completion of a lost context is written any more (R370): its journal groups, those that wait, and the launches whose commit sets
are still being judged. -/
def dropGroups (s : State) (c p : Nat) : State :=
  let x := getPart s p
  let s1 := freeReleased (setPart s p { x with awaits := x.awaits.filter (fun a => decide (a.grp.ctx ≠ c)) }) p
  flushJournal journalSlots { s1 with
    journal := s1.journal.filter (fun g => g.ctx ≠ c), waiting := s1.waiting.filter (fun w => w.ctx ≠ c) }

/-- The loss of a context with its PCIe function (R370): torn down without completions; its rings enter LOST and its
groups are discarded. -/
def loseContext (s : State) (c : Nat) : State :=
  let x := getCtx s c
  if !x.on ∨ x.func = 16 then s
  else
    let p := x.part
    let s1 := teardownStart s c .lostFunction
    let s2 := (upTo 8).foldl (fun t r =>
      let g := getRing t c r
      setRing t c r { g with st := if g.st = .uncreated then .uncreated else .lost, items := [], cmp := g.acc, paused := false }) s1
    let s3 := (upTo 64).foldl (fun t j =>
      match (getRun t p j).cmd with
      | none => t
      | some cmd =>
        let y := getPart t p
        let rest := cmd.members.filter (fun m => match y.inst? m.inst with | some i => !(i.ctx == c) | none => true)
        if rest.length = cmd.members.length then t
        else
          let t1 := if y.holder = some (.entry j) then beginKill t p .lostFunction (decide (rest ≠ [])) [] else dropPostings t p (.entry j)
          let e := getRun t1 p j
          setRun t1 p j { e with cmd := if rest = [] then none else some { cmd.killed false with members := rest } }) s2
    let s4 := releaseInstances s3 c
    writeFault (dropGroups s4 c p) { faultOf 0x03 p with ctx := c }

/-- FUNCTION_LOSS (R370): PF0's loss affects every context on a PCIe function, a VF's only its own; the functions lose Bus Master
Enable, so nothing is written to their hosts until it is set again. -/
def execFunctionLoss (f : Fin 16) (s : State) : Result :=
  let s1 := { s with bme := if f.val = 0 then 0 else s.bme &&& ~~~(BitVec.ofNat 16 (2 ^ f.val)) }
  .next ((upTo 64).foldl (fun t c => if f.val = 0 ∨ (getCtx t c).func = f.val then loseContext t c else t) s1)

/-- WARM_RECOVERY (R369): every journal group of the context is written again into its slots, then FAIL_RESET, cause WARM,
is committed for each open item in ascending ring and sequence order; the rings enter HALTED. Contexts recover in ascending order, and
one of a PCIe function waits for its Bus Master Enable, which this event says has been set. -/
def execWarmRecovery (c : CtxId) (s : State) : Result :=
  let x := getCtx s c.val
  let first := (upTo c.val).all (fun d => !(getCtx s d).recover)
  if x.recover && first && isReady s then
    let s0 := setCtx s c.val { x with recover := false }
    let s1 := (s0.journal.filter (fun g => g.ctx == c.val)).foldl writeSlots s0
    let bme := if x.func = 16 then s1.bme else s1.bme ||| BitVec.ofNat 16 (2 ^ x.func)
    .next ((upTo 8).foldl (fun t r => failRing t c.val r stReset 2 .halted) { s1 with bme := bme })
  else .next s

end Sys2Proof.Machine
end

