-- ==== Sys2Proof/Machine/Assay.lean ====
section
/-! DEFINITION. Assay (chapter 10): the four measures in binary64 with the order of operations R269 fixes, the thresholds and
the certificate. Values are FP64 bit patterns. -/

namespace Sys2Proof.Machine

def f64Add (a b : Nat) : Nat := (fp64.add .rne a b).1
def f64Sub (a b : Nat) : Nat := (fp64.sub .rne a b).1
def f64Mul (a b : Nat) : Nat := (fp64.mul .rne a b).1
def f64Fma (a b c : Nat) : Nat := (fp64.fma .rne a b c).1
def f64Neg (a : Nat) : Nat := if a / 2 ^ 63 % 2 = 1 then a - 2 ^ 63 else a + 2 ^ 63
def f64Abs (a : Nat) : Nat := a % 2 ^ 63

/-- NaN by its bits. -/
def f64IsNan (a : Nat) : Bool := isNanV (fp64.unpack a)

/-- The larger of two values; a NaN stays (R270). -/
def f64Max (a b : Nat) : Nat :=
  if f64IsNan a then a
  else if f64IsNan b then b
  else if cmpVal (fp64.unpack a) (fp64.unpack b) < 0 then b else a

/-- A word in a signed or unsigned format, exactly (R120, R269). -/
def f64Word (u : Bool) (w : Word) (n : Nat) : Nat := (fixedToFloat fp64 .rne u w n).1

/-- FP64 1.0. -/
def f64One : Nat := 0x3FF0000000000000

/-- One FMA chain from +0 over pairs. -/
def f64Chain (l : List (Nat × Nat)) (start : Nat) : Nat := l.foldl (fun acc e => f64Fma e.1 e.2 acc) start

/-- Blocks of 256 consecutive indices, each one chain; the partials are added in block order (R269). -/
def f64Blocks : Nat → List (Nat × Nat) → Nat → Nat
  | 0, _, acc => acc
  | _, [], acc => acc
  | n + 1, l, acc => f64Blocks n (l.drop 256) (f64Add acc (f64Chain (l.take 256) 0))

/-- A sum of products over indices (R269): the first block starts the total. -/
def f64Dot (l : List (Nat × Nat)) : Nat :=
  f64Blocks (l.length / 256 + 1) (l.drop 256) (f64Chain (l.take 256) 0)

/-- A sum of products over the indices below n, some of which have no term, in blocks of 256 consecutive indices (R269). -/
def f64Sum (n : Nat) (term : Nat → Option (Nat × Nat)) : Nat :=
  (upTo (ceilDiv n 256)).foldl (fun acc b =>
    let part := f64Chain ((upTo (min 256 (n - 256 * b))).filterMap (fun i => term (256 * b + i))) 0
    if b = 0 then part else f64Add acc part) 0

/-- The value of an entry in the Assay copy. -/
def assayEntry (im : Image) (copy : List Word) (i : Nat) : Nat :=
  let e := im.entries.getD i default
  f64Word e.u (copy.getD i 0) (32 - e.fmtM)

/-- A record's coefficient: its entry's value, or 1, negated when NEG = 1 (R269). -/
def patCoef (im : Image) (copy : List Word) (r : PatRec) : Nat :=
  let v := if r.entry = 0xFFFFFF then f64One else assayEntry im copy r.entry
  if r.neg then f64Neg v else v

/-- What Assay reads of a posting: image, Assay copy, candidate as FP64. -/
structure Posted where
  im : Image
  copy : List Word
  cand : List Nat
deriving DecidableEq, Repr, Inhabited

def Posted.pat (q : Posted) : List PatRec := match q.im.thr with | some t => t.pattern | none => []
def Posted.coef (q : Posted) (r : PatRec) : Nat := patCoef q.im q.copy r
def Posted.x (q : Posted) (j : Nat) : Nat := q.cand.getD j 0

/-- The dual of a row (Table 02.9). -/
def Posted.y (q : Posted) (i : Nat) : Nat :=
  let d := q.im.dims
  q.cand.getD (if q.im.hdr.method = 3 then d.n + i else d.n + d.m + i) 0

def Posted.rowRec (q : Posted) (role i : Nat) : Option PatRec := q.pat.find? (fun r => r.role == role && r.row == i)

/-- The row chain (R269); an equality row's l record is in it. -/
def Posted.rowChain (q : Posted) (i : Nat) (eq : Bool) : Nat :=
  (q.pat.filter (fun r => r.row == i)).foldl (fun acc r =>
    if r.role = 1 then f64Fma (q.coef r) (q.x r.col) acc
    else if r.role = 2 then f64Fma (f64Neg (q.coef r)) (assayEntry q.im q.copy r.col) acc
    else if r.role = 4 ∧ eq then f64Sub acc (q.coef r)
    else acc) 0

/-- One row's part in PRES, VIOL and t3: (equality residual, violation, term of t3). -/
def Posted.rowParts (q : Posted) (i : Nat) : Nat × Nat × (Nat × Nat) :=
  let l := (q.rowRec 4 i).map q.coef
  let u := (q.rowRec 5 i).map q.coef
  let y := q.y i
  let sgn := cmpVal (fp64.unpack y) (.fin false 0 0)
  match l, u with
  | some lv, none => (f64Abs (q.rowChain i true), 0, if sgn = 0 then (0, 0) else (lv, y))
  | lo, some uv =>
    let c := q.rowChain i false
    let v1 := f64Sub c uv
    let v := match lo with | some lv => f64Max (f64Sub lv c) v1 | none => v1
    (0, f64Max 0 v, if 0 < sgn then (uv, y) else if sgn < 0 then (match lo with | some lv => (lv, y) | none => (0, 0)) else (0, 0))
  | none, none => (0, 0, (0, 0))

/-- p_j: the FMA chain over the P records that touch j, mirrored (R269). -/
def Posted.pChain (q : Posted) (j : Nat) : Nat :=
  (q.pat.filter (fun r => r.role == 0)).foldl (fun acc r =>
    if r.row = j then f64Fma (q.coef r) (q.x r.col) acc
    else if r.col = j then f64Fma (q.coef r) (q.x r.row) acc
    else acc) 0

/-- The DRES chain of column j, from p_j. -/
def Posted.dChain (q : Posted) (j : Nat) : Nat :=
  let a := match q.rowRec 3 j with | some r => f64Add (q.pChain j) (q.coef r) | none => q.pChain j
  (q.pat.filter (fun r => r.role == 1 && r.col == j)).foldl (fun acc r => f64Fma (q.coef r) (q.y r.row) acc) a

/-- The measures of a QP posting (Table 10.1): PRES, VIOL, DRES, GAP. -/
def Posted.qpMeasures (q : Posted) : Nat × Nat × Nat × Nat :=
  let d := q.im.dims
  let rows := (upTo d.m).map q.rowParts
  let pres := rows.foldl (fun acc r => f64Max acc r.1) 0
  let viol := rows.foldl (fun acc r => f64Max acc r.2.1) 0
  let dres := (upTo d.n).foldl (fun acc j => f64Max acc (f64Abs (q.dChain j))) 0
  let t1 := f64Dot ((upTo d.n).map (fun j => (q.x j, q.pChain j)))
  let t2 := f64Dot ((upTo d.n).map (fun j => (match q.rowRec 3 j with | some r => q.coef r | none => 0, q.x j)))
  let t3 := f64Dot (rows.map (fun r => r.2.2))
  (pres, viol, dres, f64Abs (f64Add (f64Add t1 t2) t3))

/-- Index of element (i, j) of a packed upper triangle by rows. -/
def packedIdx (nx i j : Nat) : Nat :=
  let a := min i j
  let b := max i j
  a * nx - a * (a - 1) / 2 + (b - a)

/-- The measures of an estimator's posting (Table 10.1). The candidate holds x̂, packed Y, η⁻ and packed Y⁻ (R268). Products
with the diagonal R⁻¹ are rounded once before they enter a dot product (assumption 32). -/
def Posted.kfMeasures (q : Posted) (prev : List Nat) : Nat × Nat × Nat × Nat :=
  let nx := q.im.dims.nx
  let tri := nx * (nx + 1) / 2
  let yAt := fun i j => q.x (nx + packedIdx nx i j)
  let eta := fun i => q.x (nx + tri + i)
  let ymAt := fun i j => q.x (nx + tri + nx + packedIdx nx i j)
  let hs := q.pat.filter (fun r => r.role == 9)
  let rinv := fun k => match q.rowRec 0xB k with | some r => q.coef r | none => 0
  let meas := fun k => match q.rowRec 0xA k with | some r => q.coef r | none => 0
  let ix := upTo nx
  let rows := (hs.map (fun r => r.row + 1)).foldl max 0
  let h := fun k i => (hs.find? (fun r => r.row == k && r.col == i)).map q.coef
  let hrm := fun i => f64Sum rows (fun k => (h k i).map (fun c => (c, f64Mul (rinv k) (meas k))))
  let pres := ix.foldl (fun acc i =>
    f64Max acc (f64Abs (f64Sub (f64Sub (f64Dot (ix.map (fun j => (yAt i j, q.x j)))) (eta i)) (hrm i)))) 0
  let hrh := fun i j => f64Sum rows (fun k => (h k i).map (fun c => ((h k j).getD 0, f64Mul c (rinv k))))
  let viol := ix.foldl (fun acc i => (ix.filter (fun j => decide (i ≤ j))).foldl (fun a j =>
    f64Max a (f64Abs (f64Sub (f64Sub (yAt i j) (ymAt i j)) (hrh i j)))) acc) 0
  let fx := fun i => f64Sum nx (fun j =>
    (q.pat.find? (fun r => r.role == 7 && r.row == i && r.col == j)).map (fun r => (q.coef r, prev.getD j 0)))
  let dres := ix.foldl (fun acc i =>
    f64Max acc (f64Abs (f64Sub (f64Dot (ix.map (fun j => (ymAt i j, fx j)))) (eta i)))) 0
  (pres, viol, dres, 0)

/-- A measure that is NaN or +∞ (R270). -/
def measureBad (a : Nat) : Bool := decide (0x7FF0000000000000 ≤ a)

/-- FP32 rounded toward +∞; a NaN converts to 0x7FC0_0000 (R277). -/
def certFp32 (a : Nat) : Word := if f64IsNan a then 0x7FC00000 else BitVec.ofNat 32 (convert fp64 fp32 .rup a).1

/-- The words of a candidate as FP64, each in its record's format (R571); a word without a certificate record counts no fraction bits
(DESIGN CHOICE, assumption 77). -/
def candidateFp (im : Image) (ws : List Word) : List Nat :=
  ws.zipIdx.map (fun e => f64Word false e.1 (match im.varRec? e.2 with | some r => 32 - r.fmtM | none => 0))

/-- The certificate Assay stamps on one instance's candidate (R268 to R279). -/
def assayCheck (im : Image) (i : Inst) (ws : List Word) (thr posting iter : Nat) : AssayCert :=
  let q : Posted := ⟨im, i.assay, candidateFp im ws⟩
  let prev := match i.xPrev with | some l => l.map (fun w => w.toNat) | none => []
  let m := if im.isEstimator then q.kfMeasures prev else q.qpMeasures
  let sets := match im.thr with | some t => t.sets | none => []
  let nan := measureBad m.1 || measureBad m.2.1 || measureBad m.2.2.1 || measureBad m.2.2.2
  let fails : BitVec 4 :=
    match sets[thr]? with
    | some t =>
      let exceeds := fun (a lim bit : Nat) => if measureBad a || decide (lim < a) then BitVec.ofNat 4 bit else 0
      exceeds m.1 t.pres 1 ||| exceeds m.2.1 t.viol 2 ||| exceeds m.2.2.1 t.dres 4 ||| exceeds m.2.2.2 t.gap 8
    | none => 0
  { fails := fails, posting := posting, pass := decide (fails = 0) && !nan && sets[thr]?.isSome, nan := nan, thr := thr,
    iter := iter, inst := i.num, crc := crcWords (ws.take im.w), pres := certFp32 m.1, viol := certFp32 m.2.1,
    dres := certFp32 m.2.2.1, gap := BitVec.ofNat 64 m.2.2.2 }

end Sys2Proof.Machine
end

