-- ==== Sys2Proof/Machine/Gate.lean ====
section
/-! DEFINITION. The range gate (chapters 02 and 03): the order of Table 02.7a, the value checks of Table 03.9, acceptance
with its sequence number, admission and release, and the reports of a verdict to its source. -/

namespace Sys2Proof.Machine

/-- A refusal: status, cause and the first failing entry (R43, R91). -/
structure Refused where
  status : Nat
  cause : Nat
  entry : Nat
deriving DecidableEq, Repr, Inhabited

/-- What a judged set comes to: values in record order, or a refusal. -/
abbrev Judged := Refused ⊕ List (Nat × Word)

def refuse (st cause : Nat) : Judged := .inl ⟨st, cause, 0⟩

/-- Header fields of an object (Tables 02.3, 02.5). -/
def GateItem.hw (g : GateItem) (k : Nat) : Word := g.words.getD k 0
def GateItem.payload (g : GateItem) : List Word := g.words.drop 8
def GateItem.sig (g : GateItem) : Word64 := word64 (g.hw 2) (g.hw 3)
def GateItem.incarn (g : GateItem) : BitVec 6 := BitVec.ofNat 6 (fld (g.hw 0) 15 10)
def GateItem.arg2 (g : GateItem) : Word64 := word64 (g.hw 6) (g.hw 7)

/-- A defined object kind (Table 02.4). -/
def kindDefined (k : Nat) : Bool :=
  decide ((1 ≤ k ∧ k ≤ 0x0D) ∨ k = 0x20 ∨ k = 0x21 ∨ k = 0x30 ∨ k = 0x31)

/-- Whether a kind suits an image (R568, R55). -/
def kindSuits (k : Nat) (im : Image) : Bool :=
  if im.isModel then false
  else if k ≤ 5 then im.isQp
  else if k ≤ 8 then true
  else if k ≤ 0x0D then im.isEstimator || decide (im.hdr.pkind = 2)
  else if k = 0x31 then im.isQp
  else true

/-- Step 2 of Table 02.7a: RSV fields, KIND and the ARG fields' ranges (R4, R41, R570). The rules of R570 that need the
problem kind are judged when the slot holds an image. -/
def headerOk (g : GateItem) (im : Option Image) : Bool :=
  let a0 := g.hw 4
  let a1 := g.hw 5
  decide (fld (g.hw 0) 27 24 = 0) && kindDefined g.kind &&
  (if g.kind ≤ 0x0D then
    decide (fld a0 31 24 = 0 ∧ fld a1 31 24 = 0 ∧ 1 ≤ fld a1 23 0 ∧ g.arg2 = 0)
  else if g.kind = 0x20 then
    decide (fld a0 31 16 = 0 ∧ fld a0 7 2 = 0 ∧ fld a0 1 0 ≤ 1 ∧ fld a1 31 7 = 0
      ∧ (wbit a1 6 = false → fld a1 5 0 = 0) ∧ 200 ≤ g.arg2.toNat ∧ g.arg2.toNat ≤ 4294967295)
    && (match im with
        | some i => decide ((i.isQp = true → 1 ≤ fld a0 15 8) ∧ (i.isEstimator = true → fld a0 15 8 = 0 ∧ fld a0 1 0 = 0))
        | none => true)
  else if g.kind = 0x21 then decide (a0 = 0 ∧ a1 = 0 ∧ g.arg2 = 0)
  else if g.kind = 0x30 then decide (1 ≤ a0.toNat ∧ a1 = 0 ∧ g.arg2 = 0)
  else decide (a0 = 0 ∧ a1 = 0))

/-- Round up to a multiple of 8. -/
def up8 (n : Nat) : Nat := (n + 7) / 8 * 8

/-- Step 3: PAYLOAD_BYTES (R40, R41, R53). A WARM_START at an image that is not of a QP kind is held to no W: it passes here and step 5
gives it TARGET (DESIGN CHOICE, assumption 69). -/
def lengthOk (g : GateItem) (im : Option Image) : Bool :=
  let n := (g.hw 1).toNat
  decide (n % 8 = 0 ∧ n ≤ 4194304 ∧ n + 32 = g.bytes) &&
  (if g.kind ≤ 0x0D then decide (n = up8 (4 * fld (g.hw 5) 23 0))
  else if g.kind = 0x20 ∨ g.kind = 0x21 then decide (n = 0)
  else if g.kind = 0x31 then
    match im with
    | some i => !i.isQp || decide (n = up8 (4 * i.w))
    | none => true
  else true)

/-- Steps 1 to 8 of Table 02.7a for a host object: a refusal, or the image. An instance that is admitted under another slot than the
object's SLOT counts as not admitted (DESIGN CHOICE, assumption 68). -/
def hostSteps (x : Part) (g : GateItem) : Refused ⊕ Image :=
  let im := (x.slot g.slot).img
  if fld (g.hw 0) 31 28 ≠ 1 then .inl ⟨stStructure, 1, 0⟩
  else if headerOk g im = false then .inl ⟨stStructure, 2, 0⟩
  else if lengthOk g im = false then .inl ⟨stStructure, 4, 0⟩
  else
    match im with
    | none => .inl ⟨stImage, 0xC, 0⟩
    | some i =>
      if kindSuits g.kind i = false then .inl ⟨stStructure, 9, 0⟩
      else if g.kind ≠ 0x31 ∧ g.sig ≠ i.hdr.sig then .inl ⟨stStructure, 3, 0⟩
      else if g.kind = 0x20 then .inr i
      else
        match x.inst? g.inst with
        | none => .inl ⟨stAdmit, 1, 0⟩
        | some t =>
          if t.released ∨ t.slot ≠ g.slot then .inl ⟨stAdmit, 1, 0⟩
          else if g.incarn ≠ t.incarn then .inl ⟨stAdmit, 2, 0⟩
          else .inr i

/-- Step 10 for a data block (R41): its padding, then its entries. -/
def dataBlockValues (g : GateItem) (im : Image) : Judged :=
  let first := fld (g.hw 4) 23 0
  let n := fld (g.hw 5) 23 0
  if (g.payload.drop n).any (fun w => w != 0) then refuse stStructure 2
  else if im.e < first + n ∨ ((im.entries.drop first).take n).any (fun e => e.obj != g.kind) then refuse stStructure 5
  else .inr ((g.payload.take n).zipIdx.map (fun e => (first + e.2, e.1)))

/-- Step 10 for an update list (Table 02.6), one record at a time: RSV, FORM, COUNT and padding, then the record's end, then
its entries; the record count last. The first argument bounds the number of records. -/
def listValues (e count : Nat) : Nat → List Word → Nat → List (Nat × Word) → Judged
  | _, [], found, acc => if found = count then .inr acc else refuse stStructure 4
  | 0, _, _, _ => refuse stStructure 4
  | fuel + 1, w0 :: t, found, acc =>
    let ix := fld w0 23 0
    if fld w0 29 24 ≠ 0 ∨ wbit w0 31 then refuse stStructure 2
    else if wbit w0 30 = false then
      match t with
      | v :: t1 => if e ≤ ix then refuse stStructure 5 else listValues e count fuel t1 (found + 1) (acc ++ [(ix, v)])
      | [] => refuse stStructure 4
    else
      match t with
      | w1 :: t1 =>
        let n := fld w1 15 0
        if fld w1 31 16 ≠ 0 ∨ n = 0 ∨ (n % 2 = 1 ∧ t1.getD n 0 ≠ 0) then refuse stStructure 2
        else if t1.length < n + n % 2 then refuse stStructure 4
        else if e < ix + n then refuse stStructure 5
        else listValues e count fuel (t1.drop (n + n % 2)) (found + 1)
          (acc ++ (t1.take n).zipIdx.map (fun (v : Word × Nat) => (ix + v.2, v.1)))
      | [] => refuse stStructure 4

/-- Distinct entries of a set (R47). -/
def distinctEntries (vals : List (Nat × Word)) : Nat :=
  (vals.foldl (fun (t : Tbl Unit) v => tblInsert t v.1 ()) []).length

/-- The pending capacity of R46, on the TICKS in force for the gate (R540). -/
def pendingCapacity (s : State) (p : Nat) : Nat := 64 * fld (regGet s (fabOff p 0x10)) 12 0

/-- Checks 4 and 5 of Table 03.9 on one value (R89). -/
def boundCheck (e : EntryRec) (v : Word) : Option Nat :=
  if wordInt e.u v < wordInt e.u e.lo then some 1
  else if wordInt e.u e.hi < wordInt e.u v then some 2
  else none

/-- Checks 2, 4 and 5 over the values of a set in record order (R87). -/
def valueChecks (im : Image) (vals : List (Nat × Word)) : Option Refused :=
  match vals with
  | [] => none
  | (ix, v) :: t =>
    if im.cert.isNone && im.isLc then some ⟨stRange, 4, ix⟩
    else
      match boundCheck (im.entries.getD ix default) v with
      | some c => some ⟨stRange, c, ix⟩
      | none => valueChecks im t

/-- Steps 10 and 11 and the value checks of a host set. -/
def hostSet (s : State) (p : Nat) (g : GateItem) (im : Image) : Judged :=
  let vals := if g.kind = 0x30 then listValues im.e (g.hw 4).toNat (g.payload.length + 1) g.payload 0 []
              else dataBlockValues g im
  match vals with
  | .inl r => .inl r
  | .inr vs =>
    if pendingCapacity s p < distinctEntries vs then refuse stAdmit 3
    else match valueChecks im vs with | some r => .inl r | none => .inr vs

/-- The word a map record routes, converted to its entry's format: checks 2 to 5 in record order (R87, R90). -/
def routedValues (im : Image) (words : List Word) : List MapRec → List (Nat × Word) → Judged
  | [], acc => .inr acc
  | r :: t, acc =>
    let e := im.entries.getD r.entry default
    if im.cert.isNone && im.isLc then .inl ⟨stRange, 4, r.entry⟩
    else
      match gateConvert r.srcU (words.getD r.word 0) (32 - r.srcM) e.u (32 - e.fmtM) with
      | none => .inl ⟨stRange, 3, r.entry⟩
      | some v =>
        match boundCheck e v with
        | some c => .inl ⟨stRange, c, r.entry⟩
        | none => routedValues im words t (acc ++ [(r.entry, v)])

/-- A stream frame's or device commit's set against its image: steps 10 and 11, then the values. -/
def routedSet (s : State) (p : Nat) (g : GateItem) (im : Image) : Judged :=
  if g.recs.any (fun r => decide (g.words.length ≤ r.word)) then refuse stStructure 4
  else if g.recs.any (fun r => decide (im.e ≤ r.entry)) then refuse stStructure 5
  else if pendingCapacity s p < distinctEntries (g.recs.map (fun r => (r.entry, (0 : Word)))) then refuse stAdmit 3
  else routedValues im g.words g.recs []

/-- Step 7 for a set that names an instance number alone (R62). -/
def instStep (x : Part) (g : GateItem) : Bool :=
  match x.inst? g.inst with
  | some t => !t.released && decide (t.slot = g.slot)
  | none => false

/-- Judge a stream frame's set (R375). -/
def judgeStream (s : State) (p : Nat) (g : GateItem) : Judged :=
  let x := getPart s p
  match (x.slot g.slot).img with
  | none => refuse stAdmit 1
  | some im => if instStep x g then routedSet s p g im else refuse stAdmit 1

/-- Judge a device commit's set: step 6 (R572), step 7 and on. -/
def judgeCommit (s : State) (p : Nat) (g : GateItem) : Judged :=
  let x := getPart s p
  match (x.slot g.slot).img with
  | none => refuse stStructure 9
  | some im =>
    if im.isModel then refuse stStructure 9
    else if im.hdr.sig ≠ g.tsig then refuse stStructure 3
    else if instStep x g then routedSet s p g im
    else refuse stAdmit 1

/-- Judge a recorded commit set (R514): its values stand as the gate once converted them, in record order. -/
def judgeReplayed (s : State) (p : Nat) (g : GateItem) : Judged :=
  let x := getPart s p
  match (x.slot g.slot).img with
  | none => refuse stStructure 9
  | some im =>
    let vals := (g.recs.map (fun r => r.entry)).zip g.words
    if !instStep x g then refuse stAdmit 1
    else if vals.length ≠ g.words.length ∨ vals.any (fun v => decide (im.e ≤ v.1)) = true then refuse stStructure 5
    else if pendingCapacity s p < distinctEntries vals then refuse stAdmit 3
    else match valueChecks im vals with | some r => .inl r | none => .inr vals

/-- The ASN after the last accepted one: 1 follows 0xFFFF_FFFF, and 0 is never given (R360). -/
def nextAsn (s : State) (p : Nat) : Word :=
  let a := regGet s (fabOff p 0x3C)
  if a = 0xFFFFFFFF then 1 else a + 1

/-- Take the next ASN of a partition. -/
def takeAsn (s : State) (p : Nat) : State := regSet s (fabOff p 0x3C) (nextAsn s p)

/-- Queue an accepted set at its instance's tail (R45). -/
def queueSet (s : State) (p num : Nat) (q : QSet) : State :=
  match (getPart s p).inst? num with
  | some i => putInst s p { i with queue := i.queue ++ [q] }
  | none => s

/-- The SET record of a judged set (Table 19.3): SOURCE, verdict, ASN, target, REF and ORIGIN, then what follows it. -/
def setRecord (s : State) (p : Nat) (g : GateItem) (st cause : Nat) (asn : Word) (vals : List (Nat × Word)) : State :=
  let words := vals.map (fun (v : Nat × Word) => v.2)
  let fixed := fun (source : Nat) (ref o4 o5 : Word) =>
    [put source 30 ||| put st 16 ||| put cause 8, asn, put g.inst 22 ||| put g.slot 19, ref, o4, o5,
      BitVec.ofNat 32 vals.length, crcWords words]
  bltRecord s kSet p (lc s)
    (match g.src with
    | .host c r seq => fixed 0 (put c 26 ||| put r 23) (BitVec.ofNat 32 seq) 0 ++ g.words
    | .stream _ seq => fixed 1 (BitVec.ofNat 32 seq) 0 0
    | .commit q _ _ j l => fixed 2 (put q 28 ||| put j 22) (BitVec.ofNat 32 l) (BitVec.ofNat 32 (l / 2 ^ 32))
        ++ (if wbit (regGet s (bltOff 0x04)) (16 + q) then words else [])
    | .replay seq k => fixed k (BitVec.ofNat 32 seq) 0 0)

/-- Report a host object's verdict: its descriptor completes (R43). -/
def reportHost (s : State) (g : GateItem) (st cause entry : Nat) (asn : Word) : State :=
  match g.src with
  | .host c r _ => completeItem s c r st cause (if st = stRange then BitVec.ofNat 32 entry else 0) asn [] 0
  | _ => s

/-- Take an item of a gate away. -/
def popGate (s : State) (p : Nat) (g : GateItem) : State :=
  let x := getPart s p
  setPart s p { x with gate := x.gate.erase g }

/-- The item whose turn it is at a gate: the first in the order of R44; at a replay partition's gate the one that carries the next ASN,
so that a set that arrives early waits for its predecessors (R515). -/
def gateHead (s : State) (p : Nat) : Option GateItem :=
  (getPart s p).gate.find? (fun g => decide (g.asn = 0 ∨ g.asn = nextAsn s p))

/-- Note a divergence of a replay (R517): the first stands. -/
def diverge (s : State) (seq : Word) : State :=
  let r := s.blt.replay
  { s with blt := { s.blt with replay := { r with
      diverged := some (r.diverged.getD seq), halted := r.halted || wbit (regGet s (bltOff 0xC0)) 30 } } }

/-- The recorded SET of a replayed set (R515): the record of the window with its partition and ASN. -/
def recordedSet (s : State) (p : Nat) (asn : Word) : Option BRec :=
  s.blt.replay.window.find? (fun r => decide (r.kind = kSet ∧ r.src = p ∧ r.payload.getD 1 0 = asn))

/-- A replayed set is accepted: a VCRC other than the recorded one is a divergence (R515). -/
def replayAccepted (s : State) (p : Nat) (g : GateItem) (vals : List (Nat × Word)) : State :=
  if g.asn = 0 then s
  else
    match recordedSet s p g.asn with
    | some r => if r.payload.getD 7 0 = crcWords (vals.map (fun (v : Nat × Word) => v.2)) then s else diverge s r.seq
    | none => s

/-- A replayed set that the recording accepted is refused: a divergence; its number is passed over (R515). -/
def replayRefused (s : State) (p : Nat) (g : GateItem) : State :=
  if g.asn = 0 then s
  else
    let s1 := takeAsn s p
    match recordedSet s1 p g.asn with
    | some r => diverge s1 r.seq
    | none => s1

/-- Whether a gate item is a host object, live or replayed. -/
def GateItem.isObject (g : GateItem) : Bool :=
  match g.src with
  | .host _ _ _ => true
  | .replay _ k => decide (k = 0)
  | _ => false

/-- Judge the host object at the head of a gate when its kind is one of those a command names. `accept` applies an
accepted object; it is given the state with the ASN taken. -/
def judgeObject (s : State) (p : Nat) (kinds : Nat → Bool) (judge : GateItem → Image → Judged)
    (accept : State → GateItem → Image → List (Nat × Word) → State × Word) : State :=
  match gateHead s p with
  | none => s
  | some g =>
    if !(g.isObject && kinds g.kind) then s
    else
      let s0 := popGate s p g
      let no := fun (r : Refused) =>
        let s1 := if r.status = stAdmit ∧ r.cause = 2 ∧ g.kind ≠ 0x20 then bump s0 (fabOff p 0x28) else s0
        reportHost (replayRefused (setRecord s1 p g r.status r.cause 0 []) p g) g r.status r.cause r.entry 0
      match hostSteps (getPart s p) g with
      | .inl r => no r
      | .inr im =>
        match judge g im with
        | .inl r => no r
        | .inr vals =>
          let asn := nextAsn s0 p
          let (s2, detail) := accept (takeAsn s0 p) g im vals
          let s3 := replayAccepted (setRecord s2 p g 0 0 asn vals) p g vals
          match g.src with
          | .host c r _ => completeItem s3 c r stOk 0 detail asn [] 0
          | _ => s3

/-- Accept an update set. -/
def acceptSet (p : Nat) (s : State) (g : GateItem) (_im : Image) (vals : List (Nat × Word)) : State × Word :=
  (queueSet s p g.inst ⟨regGet s (fabOff p 0x3C), vals, none, count s p⟩, 0)

/-- DATA_BLOCK (R41, R569); an object of an undefined kind is judged here too. -/
def execDataBlock (p : PartId) (s : State) : Result :=
  .next (judgeObject s p.val (fun k => decide (k ≤ 0x0D) || !kindDefined k) (fun g im => hostSet s p.val g im) (acceptSet p.val))

/-- UPDATE_LIST (R569). -/
def execUpdateList (p : PartId) (s : State) : Result :=
  .next (judgeObject s p.val (fun k => decide (k = 0x30)) (fun g im => hostSet s p.val g im) (acceptSet p.val))

/-- WARM_START (R53): step 10 checks the padding word; the object is queued as an update set. -/
def execWarmStart (p : PartId) (s : State) : Result :=
  .next (judgeObject s p.val (fun k => decide (k = 0x31))
    (fun g im => if (g.payload.drop im.w).any (fun w => w != 0) then refuse stStructure 2 else .inr [])
    (fun t g im _ => (queueSet t p.val g.inst
      ⟨regGet t (fabOff p.val 0x3C), [], some ⟨g.sig, g.arg2.toNat, g.payload.take im.w⟩, count t p.val⟩, 0)))

/-- Bytes of a partition's share in use (R60, R433): instances, and the entry tables of bound and loading images. -/
def shareUsed (x : Part) : Nat :=
  (x.insts.map (fun i => i.bytes)).sum
    + (x.slots.map (fun e => match e.2.img, e.2.loading with
        | some im, _ => 16 * im.e
        | none, some (im, _, _) => 16 * im.e
        | none, none => 0)).sum

/-- A side holds 1,572,864 bytes (R432). -/
def sideBytes : Nat := 1572864

/-- The fabric sides of a share (R432). -/
def fabricSides (share : Nat) : Nat := max 1 (ceilDiv share sideBytes)

/-- What an item takes of the interleaved space of F fabric sides: it starts at a multiple of 32·F bytes (R433). -/
def fabricItem (f bytes : Nat) : Nat := ceilDiv bytes (32 * f) * (32 * f)

/-- The primary part of an instance (Table 16.3). -/
def Image.primaryBytes (i : Image) : Nat := 4 * i.e + 4 * i.w + i.hdr.fFac

/-- The fabric items a partition holds: primary parts, and the entry tables of bound and loading images (Table 16.3). -/
def fabricUsed (x : Part) : Nat :=
  let f := fabricSides x.pars.share
  (x.insts.map (fun i => match (x.slot i.slot).img with | some im => fabricItem f im.primaryBytes | none => 0)).sum
    + (x.slots.map (fun e => match e.2.img, e.2.loading with
        | some im, _ => fabricItem f (16 * im.e)
        | none, some (im, _, _) => fabricItem f (16 * im.e)
        | none, none => 0)).sum

/-- Another fabric item finds room on the fabric sides (R433); every item counts as packed without a gap (DESIGN CHOICE, assumption 95). -/
def fabricFits (x : Part) (bytes : Nat) : Bool :=
  let f := fabricSides x.pars.share
  decide (fabricUsed x + fabricItem f bytes ≤ f * sideBytes)

/-- First-fit of Assay parts onto the Assay sides, each whole on one side in 64-byte units (R433). -/
def placeAssay : List Nat → List Nat → Bool
  | _, [] => true
  | free, n :: ns =>
    match free.findIdx? (fun f => decide (n ≤ f)) with
    | some k => placeAssay (free.set k (free.getD k 0 - n)) ns
    | none => false

/-- Whether the share can hold another instance, with room of the kinds of Table 16.3 (R59, R433). -/
def shareHolds (x : Part) (im : Image) : Bool :=
  let f := fabricSides x.pars.share
  let need := fun (i : Image) => (4 * i.e + 63) / 64 * 64
  let parts := x.insts.map (fun i => match (x.slot i.slot).img with | some j => need j | none => 0)
  decide (shareUsed x + im.reservation ≤ x.pars.share) && fabricFits x im.primaryBytes
  && placeAssay (List.replicate ((f + 1) / 2) sideBytes) (parts ++ [need im])

/-- The admission rules of R59, in order: the cause of the first that fails. A member slot is free when no batch member of the same
bound image holds it (DESIGN CHOICE, assumption 70). -/
def admitCause (x : Part) (g : GateItem) (im : Image) : Option Nat :=
  let batched := wbit (g.hw 5) 6
  let slot := fld (g.hw 5) 5 0
  let mates := x.insts.filter (fun i => i.batched)
  if (x.inst? g.inst).isSome then some 9
  else if tblGet none x.lastIncarn g.inst = some g.incarn then some 2
  else if batched ∧ mates.any (fun i => i.slot == g.slot && i.member == slot) then some 6
  else if 1024 ≤ x.insts.length then some 5
  else if batched ∧ (64 ≤ mates.length ∨ im.batchMax ≤ (mates.filter (fun i => i.slot == g.slot)).length) then some 8
  else if shareHolds x im = false then some 4
  else none

/-- The entries of one object kind, by index. -/
def entriesOf (im : Image) (obj : Nat) : List EntryRec := im.entries.filter (fun e => e.obj == obj)

/-- Carried state at admission (R55): x̂ from the INIT_STATE entries and the packed matrix from the INIT_COV entries, in
entry order, each converted to its variable's format by R68 (assumption 31). -/
def initialCarried (im : Image) : List Word :=
  let nx := im.dims.nx
  let xs := (entriesOf im 0x08).take nx
  let ys := (entriesOf im 0x0D).take (nx * (nx + 1) / 2)
  let pad := fun (l : List EntryRec) (n : Nat) => l ++ List.replicate (n - l.length) default
  (pad xs nx ++ pad ys (nx * (nx + 1) / 2)).zipIdx.map (fun e =>
    let nv := match im.varRec? e.2 with | some r => 32 - r.fmtM | none => 32 - e.1.fmtM
    (loadConvert e.1.u e.1.dflt (32 - e.1.fmtM) nv).1)

/-- A fresh instance (R37, R39): both copies hold the defaults; an estimator starts from its declared state. -/
def newInst (s : State) (p : Nat) (g : GateItem) (im : Image) (ctx : Nat) : Inst :=
  let dflt := im.entries.map (fun e => e.dflt)
  let est := im.isEstimator
  let carried := initialCarried im
  let space0 := memPutWords [] 0 dflt
  { num := g.inst, incarn := g.incarn, ctx := ctx, slot := g.slot, batched := wbit (g.hw 5) 6, member := fld (g.hw 5) 5 0,
    wsMaxAge := fld (g.hw 4) 15 8, wsShift := fld (g.hw 4) 1 0, period := g.arg2.toNat, released := false,
    joinedAt := count s p, bytes := im.reservation,
    space := if est then memPutWords space0 (4 * im.e) carried else space0,
    assay := dflt, queue := [], warm := none,
    factorValid := (im.seg? 3).isNone, factorSkip := false, bufSwap := false, takenAsn := 0, takenSets := 0,
    factorTaken := false, carried := if est then some carried else none,
    xPrev := if est then some (((entriesOf im 0x08).take im.dims.nx).map (fun e =>
        BitVec.ofNat 64 (fixedToFloat fp64 .rne e.u e.dflt (32 - e.fmtM)).1)) else none,
    commits := 0, lastL := 0, launched := false, lastWords := none, lastCert := none, traj := none, prevTraj := none,
    upRefused := false, upStale := false }

/-- INST_DECL (R59 to R61): admission reserves memory; DETAIL gives the reservation in 4,096-byte units. -/
def execInstDecl (p : PartId) (s : State) : Result :=
  .next (judgeObject s p.val (fun k => decide (k = 0x20))
    (fun g im => match admitCause (getPart s p.val) g im with | some c => refuse stAdmit c | none => .inr [])
    (fun t g im _ =>
      let ctx := match g.src with
        | .host c _ _ => c
        | .replay q _ =>
          match t.blt.replay.window.find? (fun r => r.seq.toNat == q) with
          | some r => fld (r.payload.getD 3 0) 31 26
          | none => 0
        | _ => 0
      let x := getPart t p.val
      (setPart t p.val { x with
        insts := x.insts ++ [newInst t p.val g im ctx], lastIncarn := tblSet none x.lastIncarn g.inst (some g.incarn) },
        BitVec.ofNat 32 (im.reservation / 4096))))

/-- INST_RELEASE (R64): queued sets are dropped; the memory is freed at once unless a command runs on the instance. -/
def execInstRelease (p : PartId) (s : State) : Result :=
  .next (judgeObject s p.val (fun k => decide (k = 0x21)) (fun _ _ => .inr [])
    (fun t g _ _ =>
      match (getPart t p.val).inst? g.inst with
      | some i => (freeReleased (putInst t p.val { i with released := true, queue := [] }) p.val, 0)
      | none => (t, 0)))

/-- STREAM_SET_VERDICT (R375, R43): a refused frame is counted and raised as STREAM_REFUSED. -/
def execStreamSetVerdict (p : PartId) (s : State) : Result :=
  match gateHead s p.val with
  | none => .next s
  | some g =>
    match g.src with
    | .stream num _ =>
      let s0 := popGate s p.val g
      match judgeStream s p.val g with
      | .inr vals =>
        let s1 := takeAsn s0 p.val
        let asn := regGet s1 (fabOff p.val 0x3C)
        .next (replayAccepted (setRecord (queueSet s1 p.val g.inst ⟨asn, vals, none, count s1 p.val⟩) p.val g 0 0 asn vals) p.val g vals)
      | .inl r =>
        let s1 := bump s0 (strmOff num 0x18)
        let s2 := raiseEvent s1 0x03 (some p.val) num (put r.status 8 ||| BitVec.ofNat 32 r.cause) (BitVec.ofNat 32 r.entry)
          (regGet s1 (strmOff num 0x18)) 0
        .next (replayRefused (setRecord s2 p.val g r.status r.cause 0 []) p.val g)
    | _ => .next s

/-- The slots that follow the DESC head of a best-effort command that ran (Table 13.7). -/
def beSlots (model : Bool) (r : LaunchRec) : List CSlot :=
  if model then [r.ext] else [r.head 0, r.ext, certSlot r.cert]

/-- Complete a best-effort command's item and forget the command; its GDDR6 workspace is freed (R260), and an instance whose release
waited for it (R64). -/
def completeBe (s : State) (c ring : Nat) (r : LaunchRec) : State :=
  let k := 8 * c + ring
  match getBe s k with
  | none => s
  | some b =>
    let s1 := setBe { s with mem := { s.mem with wsUsed := s.mem.wsUsed - b.ws } } k none
    freeReleased (completeItem s1 c ring r.status r.cause (if r.status = stRange then BitVec.ofNat 32 r.refusedEntry else 0) 0
      (beSlots b.model r) r.flags) b.part

/-- A command whose commit sets have all been judged writes its completion (R366); with the last of its step a release that waited
takes effect (R62, R64). -/
def finishAwait (s : State) (p : Nat) (a : Await) : State :=
  let x := getPart s p
  let s1 := setPart s p { x with awaits := x.awaits.filter (fun b => b.id ≠ a.id) }
  let r := match a.refused with
    | some (_, st, cause, entry) => { a.grp with status := st, cause := cause, refusedEntry := entry }
    | none => a.grp
  match a.be with
  | some (c, ring) =>
    match getBe s1 (8 * c + ring) with
    | some b =>
      -- its sets accepted, the command hands its frames over before it completes (R333)
      if b.outLink.isSome ∧ r.status = stOk then setBe s1 (8 * c + ring) (some { b with linkWait := true, outGrp := some r })
      else completeBe s1 c ring r
    | none => s1
  | none => freeReleased (writeLaunch s1 r) p

/-- Report a judged commit set to the command that produced it: the refusal of the lowest-numbered target stands (R366). -/
def judgedCommit (s : State) (p id target : Nat) (v : Option Refused) : State :=
  let x := getPart s p
  match x.awaits.find? (fun a => a.id == id) with
  | none => s
  | some a =>
    let worse := match v, a.refused with
      | some r, some (t, st, cause, e) => if target < t then some (target, r.status, r.cause, r.entry) else some (t, st, cause, e)
      | some r, none => some (target, r.status, r.cause, r.entry)
      | none, old => old
    let a1 := { a with left := a.left - 1, refused := worse }
    let s1 := setPart s p { x with awaits := x.awaits.map (fun b => if b.id = id then a1 else b) }
    if a1.left = 0 then finishAwait s1 p a1 else s1

/-- COMMIT_SET_VERDICT (R43, R92): a refused set sets UPSTREAM_REFUSED for the next launch of the instance its slot holds. -/
def execCommitSetVerdict (p : PartId) (s : State) : Result :=
  match gateHead s p.val with
  | none => .next s
  | some g =>
    let s0 := popGate s p.val g
    let ok := fun (vals : List (Nat × Word)) =>
      let s1 := takeAsn s0 p.val
      let asn := regGet s1 (fabOff p.val 0x3C)
      setRecord (queueSet s1 p.val g.inst ⟨asn, vals, none, count s1 p.val⟩) p.val g 0 0 asn vals
    let bad := fun (r : Refused) =>
      let s1 := match (getPart s0 p.val).inst? g.inst with
        | some i => if i.slot = g.slot then putInst s0 p.val { i with upRefused := true } else s0
        | none => s0
      setRecord s1 p.val g r.status r.cause 0 []
    match g.src with
    | .commit q id target _ _ =>
      match judgeCommit s p.val g with
      | .inr vals => .next (judgedCommit (ok vals) q id target none)
      | .inl r => .next (judgedCommit (bad r) q id target (some r))
    | .replay _ 2 =>
      match judgeReplayed s p.val g with
      | .inr vals => .next (replayAccepted (ok vals) p.val g vals)
      | .inl r => .next (replayRefused (bad r) p.val g)
    | _ => .next s

end Sys2Proof.Machine
end

