-- ==== Sys2Proof/Machine/Streams.lean ====
section
/-! DEFINITION. Streams (chapter 14): bindings, the FRAME record of every frame, the way of an accepted frame to the Nib engines and to
the range gate (R374, R375), and the way of output words to a direct port, a Quill link or an Ethernet port. -/

namespace Sys2Proof.Machine

-- bindings (Table 21.9)

def strmBind (s : State) (i : Nat) : Word := regGet s (strmOff i 0x00)
def strmOn (s : State) (i : Nat) : Bool := wbit (strmBind s i) 31
def strmIsOut (s : State) (i : Nat) : Bool := wbit (strmBind s i) 30
def strmPart (s : State) (i : Nat) : Nat := fld (strmBind s i) 29 26
def strmFps (s : State) (i : Nat) : Nat := fld (strmBind s i) 11 10 + 1
def strmPid (s : State) (i : Nat) : Word64 := regGet64 s (strmOff i 0x08)

/-- The ACTIVE partner on an attachment (R399). -/
def activePartner (s : State) (att : Attach → Bool) : Option Partner :=
  (s.partners.find? (fun e => decide (e.2.st = .active) && att e.2.att)).map (fun e => e.2)

/-- Attached to Quill link q. -/
def onQuill (q : Nat) (a : Attach) : Bool := decide (a = .quill q)

/-- A stream delivers only while its attachment's partner is ACTIVE and is the one its binding names (R399). -/
def pidMatches (s : State) (i : Nat) (p : Option Partner) : Bool :=
  match p with
  | some x => decide (strmPid s i = 0 ∨ strmPid s i = x.pid)
  | none => false

/-- Verdicts of a FRAME record (Table 19.2). -/
def vAccepted : Nat := 0
def vDiscarded : Nat := 1
def vLate : Nat := 2
def vNotValid : Nat := 3
def vPidMismatch : Nat := 4
def vOutbound : Nat := 5

/-- The FRAME record of a frame, and the number it was given; a frame that is not recorded has no number (assumption 3). -/
def frameRecord (s : State) (i verdict stat fseq tick : Nat) (ws : List Word) : State × Word :=
  if bltOn s && bltSelected s kFrame i then
    let s1 := bltWrite s kFrame i tick
      ((put verdict 28 ||| put stat 24 ||| put (ws.length) 16 ||| BitVec.ofNat 32 (fseq % 65536)) :: ws)
    (s1, s1.blt.next - 1)
  else
    let d := drawWord s
    (d.2, d.1)

-- the way in

/-- Input streams and trigger of an engine (NIB_ENG_STRM). -/
def nibStreams (s : State) (n : Nat) : List Nat :=
  let w := regGet s (nibOff n 0x0C)
  (upTo (fld w 31 30 + 1)).map (fun k => fld w (7 * k + 6) (7 * k))
def nibTrig (s : State) (n : Nat) : Nat := fld (regGet s (nibOff n 0x0C)) 29 28

/-- Watchdog words of input stream k (NIB_ENG_WD_k). -/
def nibWd0 (s : State) (n k : Nat) : Word := regGet s (nibOff n (0x20 + 8 * k))
def nibWd1 (s : State) (n k : Nat) : Word := regGet s (nibOff n (0x24 + 8 * k))
def nibFrozenN (s : State) (n k : Nat) : Nat := fld (nibWd0 s n k) 15 8

/-- Judge an accepted frame by GAP, FROZEN_VAL and FROZEN_TS (Table 11.5). -/
def StreamWd.judge (w : StreamWd) (frozenN : Nat) (ts : Option Nat) (f : NibFrame) : StreamWd :=
  let gap := match w.seen, f.seq with
    | some o, some q => match o.seq with | some p => decide (q ≠ p + f.step) | none => false
    | _, _ => false
  let same := fun (get : NibFrame → Option (List Word)) (k : Nat) =>
    match w.seen with | some o => if get o = get f ∧ (get f).isSome then k + 1 else 1 | none => 1
  let nv := same (fun g => some g.words) w.sameVal
  let nt := match ts with | some i => same (fun g => (g.words[i]?).map (fun x => [x])) w.sameTs | none => 0
  let on := decide (frozenN ≠ 0)
  let fired := (if gap then [nfGap] else []) ++ (if on && decide (nv = frozenN) then [nfFrozenVal] else [])
    ++ (if on && decide (nt = frozenN) then [nfFrozenTs] else [])
  let bad := gap || (on && decide (frozenN ≤ nv)) || (on && decide (frozenN ≤ nt))
  { w with seen := some f, sameVal := nv, sameTs := nt, pend := w.pend ++ [⟨f.cap, fired, bad⟩] }

/-- The declared timestamp word of input stream k. -/
def nibTsWord (s : State) (n k : Nat) : Option Nat :=
  let w := nibWd1 s n k
  if wbit w 23 then some (fld w 22 16) else none

/-- An accepted frame reaches input stream k of an engine (R296): outside CONFIG its watchdog judges it, and a trigger frame waits for
its sample. -/
def feedStream (s : State) (n k : Nat) (f : NibFrame) : State :=
  let e := getNib s n
  let w := (tblGet StreamWd.reset e.wds k).judge (nibFrozenN s n k) (nibTsWord s n k) f
  let e1 := if e.st = .config then e else { e with wds := tblSet StreamWd.reset e.wds k w }
  setNib s n (if k = nibTrig s n then { e1 with triggers := e1.triggers ++ [f] } else e1)

/-- Frames of a stream that a sample at count `c` or later may still ask: those captured from `c` on, and the latest before. -/
def keepFrames (c : Nat) : List NibFrame → List NibFrame
  | [] => []
  | f :: fs => if f.cap < c then [f] else f :: keepFrames c fs

/-- The earliest count a sample of the engine still to come may have. -/
def Nib.nextCap (e : Nib) (f : NibFrame) : Nat :=
  let t := match e.triggers with | g :: _ => min g.cap f.cap | [] => f.cap
  match e.expected with | some x => min x t | none => t

/-- The frame joins those of its stream (R296), in CONFIG too. -/
def noteFrame (s : State) (n i : Nat) (f : NibFrame) : State :=
  let e := getNib s n
  setNib s n { e with frames := tblInsert e.frames i (keepFrames (e.nextCap f) (f :: tblGet [] e.frames i)) }

/-- Whether an engine belongs to a replay partition. -/
def engineReplays (s : State) (n : Nat) : Bool :=
  match enginePart s n with | some p => replayPart s p | none => false

/-- An accepted frame reaches every engine, and its watchdog and trigger where the engine reads its stream (R374). -/
def feedEngines (s : State) (i : Nat) (f : NibFrame) (replay : Bool) : State :=
  (upTo 16).foldl (fun t n =>
    if (enginePart t n).isNone ∨ engineReplays t n ≠ replay then t
    else
      (nibStreams t n).zipIdx.foldl (fun u e => if e.1 = i then feedStream u n e.2 f else u) (noteFrame t n i f)) s

/-- The update set an accepted frame forms (R375): the words the target image's stream map routes from this stream. -/
def streamSet (s : State) (i : Nat) (ref asn : Word) (ws : List Word) (replay : Bool) : State :=
  let b := strmBind s i
  let p := strmPart s i
  let k := fld b 24 22
  if !(wbit b 31 && !wbit b 30 && wbit b 25) || decide (replayPart s p ≠ replay) then s
  else
    match (getSlot s p k).img with
    | none => s
    | some im =>
      let recs := im.streamMap.filter (fun r => r.src == i)
      if recs = [] then s
      else
        let g : GateItem :=
          { src := .stream i ref.toNat, kind := 0, slot := k, bytes := 0, words := ws, recs := recs, inst := fld b 21 12,
            tsig := 0, asn := asn, tick := s.lt }
        setPart s p { getPart s p with gate := gateInsert g (getPart s p).gate }

/-- An accepted frame of a stream: recorded, fed to the engines, and formed into an update set. -/
def acceptFrame (s : State) (i stat : Nat) (f : NibFrame) : State :=
  let fseq := match f.seq with | some q => q.toNat | none => 0
  let (s1, ref) := frameRecord s i vAccepted stat fseq f.cap f.words
  streamSet (feedEngines s1 i f false) i ref 0 f.words false

-- the way out

/-- A direct port is configured as an output. -/
def dpIsOut (s : State) (d : Nat) : Bool :=
  let w := regGet s (dpOff d 0)
  wbit w 31 && wbit w 30
def dpWords (s : State) (d : Nat) : Nat := fld (regGet s (dpOff d 0)) 28 24 + 1
def dpWidth (s : State) (d : Nat) : Nat := fld (regGet s (dpOff d 0)) 23 19 + 1

/-- Normalise a word of WB bits: its bits stand at the top, zeros below (R375). -/
def topBits (wb : Nat) (w : Word) : Word := (w >>> (32 - wb)) <<< (32 - wb)

/-- A payload of exactly n words. -/
def padWords (n : Nat) (ws : List Word) : List Word := (ws ++ List.replicate n 0).take n

/-- Send one frame on a configured direct port (R393, R395). -/
def dpSend (s : State) (d stat : Nat) (ws : List Word) : State :=
  let x := getDport s d
  if !dpIsOut s d || s.rst.portRst.getLsbD (16 + d) || !x.pll then s
  else
    let ps := (padWords (dpWords s d) ws).map (topBits (dpWidth s d))
    let s1 := (frameRecord s (16 + d) vOutbound stat x.txSeq.toNat (lc s) ps).1
    setDport s1 d { x with txSeq := x.txSeq + 1, lastTx := some ⟨1, x.txSeq, stat, 0, true, false, ps⟩ }

/-- Offer a sample to a Quill link's DATA class; DATA_HANDOVER hands it over (R387). A Quill stream runs both ways (R373): DIR of its
binding says which way its target or layout is for (assumption 90). -/
def linkOffer (s : State) (q stat : Nat) (ws : List Word) : State :=
  if !strmOn s q then s
  else
    let x := getLink s q
    setLink s q { x with dataOut := x.dataOut ++ [⟨stat, padWords (8 * strmFps s q) ws⟩] }

/-- The Ethernet port of stream i and its tag. -/
def strmEthPort (s : State) (i : Nat) : Nat := fld (regGet s (strmOff i 0x10)) 17 16
def strmTag (s : State) (i : Nat) : Nat := fld (regGet s (strmOff i 0x10)) 15 0

/-- Send one stream frame on an Ethernet port (R396). -/
def ethSend (s : State) (i stat : Nat) (ws : List Word) : State :=
  let e := strmEthPort s i
  let x := getEth s e
  if !strmOn s i || !strmIsOut s i || !x.up || s.rst.portRst.getLsbD (24 + e) then s
  else
    let q := tblGet 0 x.txSeq i
    let s1 := (frameRecord s i vOutbound stat q.toNat (lc s) ws).1
    setEth s1 e { x with txSeq := tblSet 0 x.txSeq i (q + 1), lastTx := some ⟨1, q, stat, 0, true, false, ws⟩ }

/-- The recorded OUTBOUND frames of a stream in the replay window (R517). -/
def recordedOut (s : State) (i : Nat) : List BRec :=
  s.blt.replay.window.filter (fun r => decide (r.kind = kFrame ∧ r.src = i ∧ fld (r.payload.getD 0 0) 31 28 = vOutbound))

/-- The output frame of a replay engine drives no pad: it is compared with the recorded frame of its turn (R517). -/
def compareOut (s : State) (i stat : Nat) (ws : List Word) : State :=
  let r := s.blt.replay
  let k := tblGet 0 r.outs i
  match (recordedOut s i)[k]? with
  | none => s
  | some b =>
    let s1 := { s with blt := { s.blt with replay := { r with outs := tblSet 0 r.outs i (k + 1) } } }
    let w0 := b.payload.getD 0 0
    let old := (b.payload.drop 1).take (fld w0 23 16)
    if fld w0 27 24 = stat ∧ old = padWords old.length ws then s1 else diverge s1 b.seq

/-- Drive the words of one output stream (R307). -/
def driveStream (s : State) (n i stat : Nat) (ws : List Word) : State :=
  if engineReplays s n then (if s.blt.replay.started then compareOut s i stat ws else s)
  else if i < 16 then linkOffer s i stat ws
  else if i < 24 then dpSend s (i - 16) stat ws
  else ethSend s i stat ws

end Sys2Proof.Machine
end

