-- ==== Sys2Proof/Machine/Partners.lean ====
section
/-! DEFINITION. The partner table (R397, R398): states with their generation and records, joins by IDENT, and leaves. -/

namespace Sys2Proof.Machine

/-- The eight words of a partner entry (Table 21.9, FIO_PTN_ENTRY). -/
def Partner.words (x : Partner) : List Word :=
  let att := match x.att with
    | .quill q => (0, q, (0 : BitVec 48))
    | .eth e mac => (1, e, mac)
  [put x.st.code 30 ||| put x.kind 24 ||| put att.1 22 ||| put att.2.1 16, lo32 x.pid, hi32 x.pid, x.model,
    BitVec.ofNat 32 att.2.2.toNat, BitVec.ofNat 32 (att.2.2.toNat / 2 ^ 32), BitVec.ofNat 32 x.join, BitVec.ofNat 32 x.leave]

/-- Replace an entry; a change of state advances FIO_PTN_GEN and is recorded (R397). -/
def putPartner (s : State) (n : Nat) (x : Partner) : State :=
  let old := (getPartner s n).st
  let s1 := setPartner s n x
  if old = x.st then s1
  else
    let s2 := regSet s1 (fioOff 0) (regGet s1 (fioOff 0) + 1)
    bltRecord s2 kPartner n (lc s2) (x.words.take 6)

/-- An entry goes to GONE (Table 14.14). -/
def partnerGone (s : State) (n : Nat) : State :=
  let x := getPartner s n
  if x.st = .joining ∨ x.st = .active then putPartner s n { x with st := .gone, leave := lc s } else s

/-- Every partner on an attachment leaves. -/
def attachmentGone (s : State) (att : Attach → Bool) : State :=
  (upTo 256).foldl (fun t n => if att (getPartner t n).att then partnerGone t n else t) s

/-- A PID is in FIO_PTN_ALLOW. -/
def pidAllowed (s : State) (pid : Word64) : Bool := (upTo 32).any (fun i => regGet64 s (fioOff (0x100 + 8 * i)) == pid)

/-- The entry that holds a PID. -/
def pidEntry (s : State) (pid : Word64) : Option Nat :=
  (upTo 256).find? (fun n => decide ((getPartner s n).st ≠ .free ∧ (getPartner s n).pid = pid))

/-- The entry a new PID takes: the lowest FREE one, else the GONE one with the oldest leave tick. -/
def freeEntry (s : State) : Option Nat :=
  match (upTo 256).find? (fun n => decide ((getPartner s n).st = .free)) with
  | some n => some n
  | none =>
    (upTo 256).foldl (fun (b : Option Nat) n =>
      if (getPartner s n).st ≠ .gone then b
      else match b with
        | some m => if (getPartner s n).leave < (getPartner s m).leave then some n else some m
        | none => some n) none

/-- Take or reuse an entry: ACTIVE by the list, else JOINING. -/
def joinEntry (s : State) (n : Nat) (x : Partner) : State :=
  let st : PartnerState := if pidAllowed s x.pid then .active else .joining
  putPartner s n { x with st := st, join := lc s, leave := (getPartner s n).leave, seen := s.lt }

/-- An IDENT payload (Table 14.13): its fields and whether R398 refuses it. -/
structure Ident where
  pid : Word64
  kind : Nat
  buf : Nat
  model : Word
  bad : Bool
deriving DecidableEq, Repr, Inhabited

def identOf (ws : List Word) : Ident :=
  let w2 := ws.getD 2 0
  let rsv := decide (fld w2 15 0 ≠ 0) || (ws.drop 4).any (fun w => decide (w ≠ 0))
  let pid := word64 (ws.getD 0 0) (ws.getD 1 0)
  ⟨pid, fld w2 27 24, fld w2 23 16, ws.getD 3 0, rsv || decide (pid = 0) || decide (3 < fld w2 27 24)⟩

/-- An IDENT that passed its frame's checks (Table 14.14). -/
def identify (s : State) (att : Attach) (i : Ident) : State :=
  if i.bad then bump s (fioOff 0x40)
  else
    let x : Partner := ⟨.joining, i.pid, i.kind, i.model, att, 0, 0, 0⟩
    match pidEntry s i.pid with
    | some n =>
      let old := getPartner s n
      if (old.st = .active ∨ old.st = .joining) ∧ old.att ≠ att then bump s (fioOff 0x44)
      else if old.st = .active ∧ old.kind ≠ i.kind then joinEntry (partnerGone s n) n x
      else joinEntry s n x
    | none =>
      match freeEntry s with
      | some n => joinEntry s n x
      | none => bump s (fioOff 0x48)

/-- PARTNER_SILENCE (Table 14.14): no frame from the MAC for FIO_PTN_SILENCE milliseconds. -/
def execPartnerSilence (n : PartnerId) (s : State) : Result :=
  let x := getPartner s n.val
  match x.att with
  | .eth _ _ =>
    if x.seen + 400000 * fld (regGet s (fioOff 0x30)) 13 0 ≤ s.lt then .next (partnerGone s n.val) else .next s
  | .quill _ => .next s

/-- APPROVE: JOINING to ACTIVE (Table 14.14). -/
def approve (s : State) (n : Nat) : State :=
  let x := getPartner s n
  if x.st = .joining then putPartner s n { x with st := .active } else s
def execApprove (n : PartnerId) (s : State) : Result := hostWrite s (approve s n.val)

/-- REJECT: JOINING to GONE (Table 14.14). -/
def reject (s : State) (n : Nat) : State :=
  let x := getPartner s n
  if x.st = .joining then putPartner s n { x with st := .gone, leave := lc s } else s
def execReject (n : PartnerId) (s : State) : Result := hostWrite s (reject s n.val)

end Sys2Proof.Machine
end

