-- ==== Sys2Proof/Machine/Sparing.lean ====
section
/-! DEFINITION. Failed units and their spares (chapter 20): where a word's row lies, marking a unit failed, the spares left, and bringing
a spare in. -/

namespace Sys2Proof.Machine

def ticksHour : Nat := 1440000000000
def ticksDay : Nat := 24 * ticksHour

/-- Kinds of R528. -/
def uTile : Nat := 0
def uRow : Nat := 1
def uGd : Nat := 2
def uQuill : Nat := 3
def uCore : Nat := 4
def uLane : Nat := 5

/-- The row of a word (Table 20.1): Reservoir rows of 1 KiB, GDDR6 rows of 2,048 bytes, scratchpad rows of 32 words of a bank, stroke
rows of 16 words; 1 KiB in the arrays whose row size no rule gives (assumption 51). A scratchpad address carries its tile
above bit 16, a stroke address above bit 15. -/
def rowOfAddr (array a : Nat) : Nat :=
  if 32 ≤ array ∧ array < 48 then a / 2048
  else if array = 48 then ((a / 2 ^ 17 * 8 + a / 16 % 8) * 24) + a % 2 ^ 17 / 4096
  else if array = 49 then a / 16
  else a / 1024

/-- The unit a row is: kind and index. -/
def rowUnit (array row : Nat) : Nat × Nat :=
  if 32 ≤ array ∧ array < 48 then (uGd, (array - 32) * 2 ^ 20 + row) else (uRow, array * 2 ^ 20 + row)

/-- Which store of spares a row draws on, and how many it holds (Table 20.1). -/
def spareStore (kind index : Nat) : Nat × Nat :=
  if kind = uGd then (32 * 2 ^ 20 + index / 2 ^ 20, 256)
  else
    let array := index / 2 ^ 20
    let row := index % 2 ^ 20
    if array = 48 then (48 * 2 ^ 20 + row / 24, 2)
    else if array = 49 then (49 * 2 ^ 20 + row / 4096, 4)
    else if array < 32 then (array * 2 ^ 20, 32)
    else (array * 2 ^ 20, 16)

/-- Whether a unit is marked already. -/
def unitMarked (s : State) (kind index : Nat) : Bool :=
  (s.anl.pending ++ s.anl.bringing).any (fun u => decide (u.kind = kind ∧ u.index = index))

/-- Waiting units that will take a spare of the same store. -/
def spareClaims (s : State) (kind index : Nat) : Nat :=
  ((s.anl.pending ++ s.anl.bringing).filter (fun u =>
    decide (u.kind = kind) && (if kind = uTile then decide (u.index / 16 = index / 16)
      else if kind = uQuill then decide (u.index / 8 = index / 8)
      else if kind = uRow ∨ kind = uGd then decide (spareStore kind u.index = spareStore kind index)
      else true))).length

/-- The lanes of a partition's group (R273). -/
def groupLanes (s : State) (p : Nat) : List Nat :=
  let w := (getPart s p).pars.lanes
  (upTo (fld w 8 4)).map (fun i => fld w 3 0 + i)

/-- The partition whose group a lane is in. -/
def laneParts (s : State) (l : Nat) : BitVec 16 :=
  (upTo 16).foldl (fun (m : BitVec 16) p =>
    if (getPart s p).on && (groupLanes s p).contains l then m ||| BitVec.ofNat 16 (2 ^ p) else m) 0

/-- Healthy lanes of the shared pool (R273, R284). -/
def poolLanes (s : State) : List Nat :=
  (upTo 16).filter (fun l => !s.assay.faulty.getLsbD l
    && (upTo 16).all (fun p => !(getPart s p).on || (let w := (getPart s p).pars.lanes
        decide (l < fld w 3 0 ∨ fld w 3 0 + fld w 8 4 ≤ l))))

/-- Spares left for a unit. -/
def sparesLeft (s : State) (kind index : Nat) : Nat :=
  if kind = uTile then (if skipOf s (index / 16) = 15 then 1 else 0)
  else if kind = uQuill then 1 - tblGet 0 s.anl.quillSpares (index / 8)
  else if kind = uCore then (if s.anl.coresActive.getLsbD 3 then 0 else 1)
  else if kind = uLane then (poolLanes s).length
  else (spareStore kind index).2 - tblGet 0 s.anl.rowSpares (spareStore kind index).1

/-- The logical column a physical tile serves, none for the position a map skips (R130). -/
def logCol (s : State) (row col : Nat) : Option Nat :=
  if col = skipOf s row then none else some (if col < skipOf s row then col else col - 1)

/-- The granule of a logical tile (R135). -/
def granuleOf (row col : Nat) : Nat := 2 * col + row / 8

/-- Partitions that hold a tile of a row from a column on (R334). -/
def rowParts (s : State) (row col : Nat) : BitVec 16 :=
  (upTo 16).foldl (fun (m : BitVec 16) p =>
    if (getPart s p).on && (getPart s p).pars.tiles.any (fun t => decide (t / 15 = row ∧ col ≤ t % 15)) then
      m ||| BitVec.ofNat 16 (2 ^ p)
    else m) 0

/-- A unit's spare comes in (R519, R523): the map or the row's remap changes, the spare is burned when BURN is 1 and a record
is free, and SPARE_APPLIED is raised. -/
def applySpare (s : State) (u : FailedUnit) : State :=
  let a := s.anl
  let st := (spareStore u.kind u.index).1
  let a1 : Health :=
    if u.kind = uTile then { a with skip := tblSet 15 a.skip (u.index / 16) (u.index % 16) }
    else if u.kind = uQuill then { a with quillSpares := tblSet 0 a.quillSpares (u.index / 8) (tblGet 0 a.quillSpares (u.index / 8) + 1) }
    else if u.kind = uCore then { a with coresActive := (a.coresActive &&& (a.coresFailed ^^^ 0xF)) ||| 0x8 }
    else if u.kind = uLane then a
    else { a with rowSpares := tblSet 0 a.rowSpares st (tblGet 0 a.rowSpares st + 1) }
  let s1 := { s with anl := a1 }
  let burn := wbit (regGet s (anlOff 0)) 31 && decide (u.kind ≠ uLane)
  let rec' := if burn ∧ s.fuse.annealUsed < 256 then s.fuse.annealUsed else 0xFFFFFFFF
  let s2 := if burn ∧ s.fuse.annealUsed < 256 then
      { s1 with fuse := { s1.fuse with annealUsed := s1.fuse.annealUsed + 1,
                                       skips := if u.kind = uTile then tblSet 15 s1.fuse.skips (u.index / 16) (u.index % 16) else s1.fuse.skips
                                       rowSpares := if u.kind = uRow ∨ u.kind = uGd then
                                           tblSet 0 s1.fuse.rowSpares st (tblGet 0 s1.fuse.rowSpares st + 1)
                                         else s1.fuse.rowSpares
                                       quillSpares := if u.kind = uQuill then
                                           tblSet 0 s1.fuse.quillSpares (u.index / 8) (tblGet 0 s1.fuse.quillSpares (u.index / 8) + 1)
                                         else s1.fuse.quillSpares
                                       cores := if u.kind = uCore then a1.coresActive else s1.fuse.cores
                                       coresBad := if u.kind = uCore then a1.coresFailed else s1.fuse.coresBad } }
    else s1
  let s3 := healthEvent s2 0x03 u.kind u.index (sparesLeft s2 u.kind u.index) rec'
  if burn ∧ 256 ≤ s.fuse.annealUsed then healthEvent s3 0x0A 7 0 0 0 else s3

/-- A unit is marked failed, its spare pending (R524), or exhausted (R522): a fault record and UNIT_FAILED, then SPARE_PENDING with
the partitions the spare would affect, or SPARE_EXHAUSTED. The row of a side no partition owns takes its spare at once. -/
def markUnit (s : State) (kind index crit n : Nat) (parts : BitVec 16) : State :=
  if unitMarked s kind index then s
  else
    let part := ((upTo 16).find? (fun p => parts.getLsbD p)).getD 0
    let s1 := writeFault s { faultOf 0x08 part with place := BitVec.ofNat 32 index }
    let s2 := healthEvent s1 0x01 kind index crit n
    if spareClaims s2 kind index < sparesLeft s2 kind index then
      if kind = uRow ∧ index / 2 ^ 20 < 32 ∧ parts = 0 then applySpare s2 ⟨kind, index, parts⟩
      else
        healthEvent { s2 with anl := { s2.anl with pending := s2.anl.pending ++ [⟨kind, index, parts⟩] } } 0x02 kind index
          parts.toNat 0
    else if kind = uTile then
      match logCol s2 (index / 16) (index % 16) with
      | some c =>
        let g := granuleOf (index / 16) c
        healthEvent { s2 with anl := { s2.anl with retired := s2.anl.retired ||| BitVec.ofNat 30 (2 ^ g) } } 0x04 kind index g 0
      | none => healthEvent s2 0x04 kind index 0xFF 0
    else healthEvent s2 0x04 kind index 0xFF 0

/-- A physical tile has failed. -/
def markTile (s : State) (phys crit n : Nat) : State :=
  let row := phys / 16
  let parts := match logCol s row (phys % 16) with | some c => rowParts s row c | none => 0
  markUnit s uTile phys crit n parts

/-- The partition a side, or a tile's memory, belongs to. -/
def arrayParts (s : State) (array row : Nat) : BitVec 16 :=
  if array < 32 then
    match tblGet none s.mem.sides array with
    | some (p, _) => BitVec.ofNat 16 (2 ^ p)
    | none => 0
  else if array = 48 ∨ array = 49 then
    match tilePart s (if array = 48 then row / 24 / 8 else row / 4096) with
    | some p => BitVec.ofNat 16 (2 ^ p)
    | none => 0
  else 0

/-- A row has failed. -/
def markRow (s : State) (array addr crit n : Nat) : State :=
  let row := rowOfAddr array addr
  let u := rowUnit array row
  markUnit s u.1 u.2 crit n (arrayParts s array row)

/-- A pending unit with the partitions its spare would affect as they stand now (R131, R334): for a tile those that hold one of the
tiles its map change moves, for a row or a lane those that own it. -/
def FailedUnit.now (s : State) (u : FailedUnit) : FailedUnit :=
  { u with parts :=
      if u.kind = uTile then
        let row := u.index / 16
        rowParts s row (min (skipOf s row) (u.index % 16))
      else if u.kind = uRow then arrayParts s (u.index / 2 ^ 20) (u.index % 2 ^ 20)
      else if u.kind = uLane then laneParts s u.index
      else u.parts }

/-- Times of the past span, with the present one. -/
def within (l : List Nat) (now span : Nat) : List Nat := l.filter (fun t => decide (now < t + span)) ++ [now]

/-- The physical tile of a logical tile. -/
def physTile (s : State) (t : Nat) : Nat := 16 * (t / 15) + physCol s (t / 15) (t % 15)

/-- A Ferrule core fails (Table 20.2). -/
def failCore (s : State) (k : Nat) : State :=
  markUnit { s with anl := { s.anl with coresFailed := s.anl.coresFailed ||| BitVec.ofNat 4 (2 ^ k) } } uCore k 3 1 0

/-- An uncorrectable error in a tile's memories counts toward its failure (Table 20.2). -/
def countTileUe (s : State) (t : Nat) : State :=
  let k := physTile s t
  let l := within (tblGet [] s.anl.tileUe k) s.lt ticksDay
  let s1 := { s with anl := { s.anl with tileUe := tblSet [] s.anl.tileUe k l } }
  if 2 ≤ l.length then markTile s1 k 0 l.length else s1

/-- A corrected error in a tile's memories counts toward its failure. -/
def countTileCe (s : State) (t : Nat) : State :=
  let k := physTile s t
  let l := within (tblGet [] s.anl.tileCe k) s.lt ticksHour
  let s1 := { s with anl := { s.anl with tileCe := tblSet [] s.anl.tileCe k l } }
  if fld (regGet s (anlOff 0)) 15 0 < l.length then markTile s1 k 0 l.length else s1

/-- Units a re-shape can bring in (Table 20.1). -/
def needsReshape (u : FailedUnit) : Bool :=
  decide (u.kind = uTile ∨ u.kind = uGd ∨ u.kind = uLane)
    || (decide (u.kind = uRow) && (decide (u.index / 2 ^ 20 < 32) || decide (u.index / 2 ^ 20 = 48 ∨ u.index / 2 ^ 20 = 49)))

/-- Bring in every pending unit a test picks: at boot and Warm release all, at a Port reset the link's transceiver (Table 20.1). -/
def bringIn (s : State) (pick : FailedUnit → Bool) : State :=
  let us := s.anl.pending.filter pick
  let s1 := { s with anl := { s.anl with pending := s.anl.pending.filter (fun u => !pick u) } }
  us.foldl applySpare s1

end Sys2Proof.Machine
end

