-- ==== Sys2Proof/Machine/Links.lean ====
section
/-! DEFINITION. Quill links (chapter 14): states and epochs, sequence classification and retry, credits, DATA and BULK hand-over, and the
samples and messages a link receives. -/

namespace Sys2Proof.Machine

/-- Counters of a link (Table 21.9). -/
def qlCode : Nat := 0x10
def qlType : Nat := 0x14
def qlLate : Nat := 0x18
def qlLost : Nat := 0x1C
def qlNakIgn : Nat := 0x20
def qlNoCred : Nat := 0x24

def qlRole (s : State) (q : Nat) : Nat := fld (regGet s (qlOff q 0)) 31 30
def qlOn (s : State) (q : Nat) : Bool := wbit (regGet s (qlOff q 0)) 29

/-- One class of a link, by name. -/
def Link.cls (x : Link) : FrameClass → LinkClass
  | .lc => x.lc
  | .be => x.be
def Link.setCls (x : Link) (k : FrameClass) (c : LinkClass) : Link :=
  match k with
  | .lc => { x with lc := c }
  | .be => { x with be := c }

/-- The set that requests a retransmission in a class (Table 14.3). -/
def nakSet (k : FrameClass) (seq : BitVec 16) : CtrlSet :=
  match k with
  | .lc => .nakLc seq
  | .be => .nakBe seq

-- states (Table 14.6)

/-- The state an enabled or a disabled link is in when it is not UP: TRAIN while enabled with a role; else UNCONF with its PLL
locked, else OFF. -/
def restState (s : State) (q : Nat) : LinkState :=
  if !(getLink s q).pll then .off
  else if qlOn s q && decide (qlRole s q ≠ 0) then .train
  else .unconf

/-- The link leaves UP, or any other state: what it holds of frames is lost; a half-received sample is discarded and its
partner leaves (R380, Table 14.16). -/
def leaveLink (s : State) (q : Nat) (st : LinkState) : State :=
  let x := getLink s q
  let x1 := { x with
    st := st, frags := [], bulkIn := [], dataOut := [], bulkOut := [], busy := none
    lc := { x.lc with nak := false, waitRetx := false, replay := [] }
    be := { x.be with nak := false, waitRetx := false, replay := [] } }
  let s1 := setLink s q x1
  if x.st = .up then attachmentGone s1 (onQuill q) else s1

-- sending

/-- Credits of a class left (R390). -/
def Link.credits (x : Link) (k : FrameClass) : Nat :=
  match k with
  | .lc => min x.crLc x.partnerBuf - (x.lc.sent - x.lc.partnerFreed)
  | .be => x.partnerBuf - x.crLc - (x.be.sent - x.be.partnerFreed)

/-- Send a new frame of a class: it takes the next SEQ and a credit, and goes into the replay buffer of 4 (R383, R386). -/
def Link.send (x : Link) (k : FrameClass) (f : TxFrame) : Link :=
  let c := x.cls k
  let g := { f with seq := c.tx, retx := false }
  let rp := c.replay ++ [g]
  let x1 := x.setCls k { c with tx := c.tx + 1, sent := c.sent + 1, replay := rp.drop (rp.length - 4) }
  { x1 with lastUsed := c.tx, lastTx := some g }

/-- Send a BE-class frame, which is then in progress. -/
def Link.sendBe (x : Link) (now : Nat) (f : TxFrame) : Link :=
  let x1 := x.send .be f
  { x1 with busy := x1.lastTx, busyAt := now }

/-- Send the queued BE-class frames that credit allows (R332). -/
def Link.pump : Nat → Nat → Link → Link
  | 0, _, x => x
  | n + 1, now, x =>
    match x.bulkOut with
    | [] => x
    | f :: t => if 0 < x.credits .be then Link.pump n now ({ x with bulkOut := t }.sendBe now f) else x

def Link.pumpAll (x : Link) (now : Nat) : Link := Link.pump x.bulkOut.length now x

/-- The device's IDENT (Table 14.13): kind 3, 16 frames of buffer; its product code is stated by no rule. -/
def ownIdent (s : State) : State × TxFrame :=
  let (pid, s0) := pidWords s
  let (m, s1) := drawWord s0
  (s1, ⟨3, 0, 0, 0, true, false, pid ++ [put 1 28 ||| put 3 24 ||| put 16 16, m, 0, 0, 0, 0]⟩)

/-- Entry to UP (R383): both classes begin at the epoch, and the IDENT is sent. -/
def enterUp (s : State) (q : Nat) : State :=
  let (s1, f) := ownIdent s
  let x := getLink s1 q
  let fresh : LinkClass := ⟨x.epoch, x.epoch, false, false, [], 0, 0, 0⟩
  let x1 := { x with
    st := LinkState.up, lc := fresh, be := fresh, frags := [], bulkIn := [], dataOut := [], bulkOut := [f], busy := none, partnerBuf := 16,
    upAt := s1.lt, errs := [] }
  setLink s1 q (x1.pumpAll s1.lt)

/-- A BE-class or NULL frame is in progress: 84 ns from its start (R378). -/
def Link.inProgress (x : Link) (now : Nat) : Bool := x.busy.isSome && decide (5 * (now - x.busyAt) < 168)

/-- The frames of a sample (R380). -/
def sampleFrames (stat : Nat) (ws : List Word) : List TxFrame :=
  let n := ceilDiv ws.length 8
  (upTo n).map (fun f => ⟨1, 0, stat, f, decide (f + 1 = n), false, padWords 8 (ws.drop (8 * f))⟩)

/-- DATA_HANDOVER (R387, R390, R391): a sample's frames are sent, ahead of a BE-class frame in progress, which is sent again
whole; without credit for all of them they are dropped and counted. -/
def execDataHandover (q : LinkId) (s : State) : Result :=
  let x := getLink s q.val
  match x.dataOut with
  | [] => .next s
  | o :: rest =>
    let fs := sampleFrames o.stat o.words
    let x1 := { x with dataOut := rest }
    if x.st = .looped then
      let s1 := (frameRecord s q.val vOutbound o.stat x.lc.tx.toNat (lc s) o.words).1
      .next (setLink s1 q.val x1)
    else if x.st ≠ .up then .next (setLink s q.val x1)
    else if x.credits .lc < fs.length then
      let off := qlOff q.val qlNoCred
      .next (regSet (setLink s q.val x1) off (BitVec.ofNat 32 (satAdd 32 (regGet s off).toNat fs.length)))
    else
      let busy := x.inProgress s.lt
      let x2 := fs.foldl (fun (y : Link) f => y.send .lc f) x1
      let x3 := if busy then { x2 with lastSet := some .abort, lastTx := x2.busy, busyAt := s.lt } else { x2 with busy := none }
      let s1 := (frameRecord s q.val vOutbound o.stat (x2.lc.tx - 1).toNat (lc s) o.words).1
      .next (setLink s1 q.val x3)

/-- A link's partner is an ACTIVE peer (R333). -/
def peerOn (s : State) (q : Nat) : Bool :=
  match activePartner s (onQuill q) with | some x => decide (x.kind = 3) | none => false

/-- The frames of a BULK message: eight words each, LAST on the last. -/
def bulkFrames (ws : List Word) : List TxFrame :=
  let n := ceilDiv ws.length 8
  (upTo n).map (fun f => ⟨2, 0, 0, f % 4, decide (f + 1 = n), false, padWords 8 (ws.drop (8 * f))⟩)

/-- Whether a best-effort commit may hand its frames to a link: it has credit, or the frames would be discarded (R332,
R333, R391). -/
def bulkReady (s : State) (q : Nat) : Bool :=
  let x := getLink s q
  !peerOn s q || decide (x.st ≠ .up) || (decide (0 < x.credits .be) && decide (x.bulkOut = []))

/-- Hand a best-effort commit's words to a link (R333): without an ACTIVE peer they are discarded and counted. -/
def bulkHand (s : State) (q : Nat) (ws : List Word) : State :=
  let fs := bulkFrames ws
  let x := getLink s q
  if x.st = .looped then s
  else if !peerOn s q || decide (x.st ≠ .up) then
    regSet s (fioOff 0x4C) (BitVec.ofNat 32 (satAdd 32 (regGet s (fioOff 0x4C)).toNat fs.length))
  else setLink s q ({ x with bulkOut := x.bulkOut ++ fs }.pumpAll s.lt)

-- receiving

/-- Reserved sample status codes (Table 11.3). -/
def statReserved (n : Nat) : Bool := decide (6 < n)

/-- What the checks of R379 find: the frame is judged further, discarded and counted, or handed to the retry rules. -/
inductive RxCheck where
  | good
  | discard
  | retry
deriving DecidableEq, Repr, Inhabited

def rxCheck (f : QuillFrame) : RxCheck :=
  match f.wire with
  | .crc | .code => .retry
  | .abort => .discard
  | .none => if f.rsv ≠ 0 || statReserved f.stat.toNat then .discard else .good

/-- Sequence judgement (Table 14.7, R385). -/
inductive SeqCheck where
  | accept
  | late
  | drop
deriving DecidableEq, Repr, Inhabited

/-- Judge a frame that passed its checks against its class: the class after it, the outcome, and whether a NAK is sent. -/
def LinkClass.judge (c : LinkClass) (seq : BitVec 16) (retx : Bool) : LinkClass × SeqCheck × Bool :=
  let took := { c with rx := c.rx + 1, nak := false, waitRetx := false, freed := c.freed + 1 }
  if c.waitRetx then
    if seq = c.rx ∧ retx = true then (took, .accept, false) else (c, .drop, false)
  else if seq = c.rx then (took, .accept, false)
  else if (c.rx - seq).toNat ≤ 2 ^ 15 then (c, .late, false)
  else ({ c with nak := true }, .drop, !c.nak)

/-- Send a NAK for a class's expected SEQ. -/
def sendNak (s : State) (q : Nat) (k : FrameClass) : State :=
  let x := getLink s q
  setLink s q { x with lastSet := some (nakSet k (x.cls k).rx) }

/-- Ten seconds in local ticks. -/
def ticks10s : Nat := 4000000000

/-- A code violation or a CRC failure in UP: it is counted, and once the link has been UP for 10 s its transceiver has failed when the
errors of the last 10 s come to more than LANE_ERR in 10^12 of their 5 · 10^9 code groups (R524, Table 20.2). -/
def laneError (s : State) (q : Nat) : State :=
  let x := getLink s q
  let l := within x.errs s.lt ticks10s
  let s1 := setLink (bump s (qlOff q qlCode)) q { x with errs := l }
  if x.upAt + ticks10s ≤ s.lt ∧ fld (regGet s (anlOff 4)) 13 0 < 200 * l.length then markUnit s1 uQuill q 2 l.length 0 else s1

/-- A frame of a class passes the checks of R379 and Table 14.7 or is discarded: the outcome, and the state with the counters
and NAKs this takes. -/
def receive (s : State) (q : Nat) (k : FrameClass) (f : QuillFrame) : State × Option SeqCheck :=
  let x := getLink s q
  let c := x.cls k
  match rxCheck f with
  | .discard => (bump s (qlOff q (if f.wire = .abort then qlCode else qlType)), none)
  | .retry =>
    let s1 := laneError s q
    let s2 := setLink s1 q ((getLink s1 q).setCls k { c with nak := true, waitRetx := true })
    (if c.nak then s2 else sendNak s2 q k, none)
  | .good =>
    let j := c.judge f.seq f.retx
    let s1 := setLink s q (x.setCls k j.1)
    let s2 := if j.2.2 then sendNak s1 q k else s1
    (if j.2.1 = .late then bump s2 (qlOff q qlLate) else s2, some j.2.1)

/-- A link receives frames: it is UP and not held in reset. A LOOP link ignores its pins (R391). -/
def linkHears (s : State) (q : Nat) : Bool := decide ((getLink s q).st = .up) && !s.rst.portRst.getLsbD q

/-- A whole sample that a DATA stream brings in (R373, R381, R399). -/
def takeSample (s : State) (q stat : Nat) (seq : BitVec 16) (ws : List Word) : State :=
  let f : NibFrame := ⟨lc s, some seq, BitVec.ofNat 16 (strmFps s q), ws⟩
  let rec' := fun (t : State) (v : Nat) => (frameRecord t q v stat seq.toNat (lc t) ws).1
  if stat = 6 then rec' s vNotValid
  else if !strmOn s q then rec' s vDiscarded
  else if !pidMatches s q (activePartner s (onQuill q)) then bump (rec' s vPidMismatch) (fioOff 0x4C)
  else acceptFrame s q stat f

/-- The words of fragments, eight for each. -/
def fragWords (l : List QuillFrame) : List Word := l.flatMap (fun f => padWords 8 f.payload)

/-- Discard the fragments of a sample received so far (R380); their record carries the STAT and SEQ of the last one, as a sample's does. -/
def dropFrags (s : State) (q : Nat) : State :=
  let x := getLink s q
  let s1 := setLink s q { x with frags := [] }
  match x.frags.getLast? with
  | none => s1
  | some f => (frameRecord s1 q vDiscarded f.stat.toNat f.seq.toNat (lc s1) (fragWords x.frags)).1

/-- An accepted DATA frame joins its sample (R380). -/
def takeFragment (s : State) (q : Nat) (f : QuillFrame) : State :=
  let fps := strmFps s q
  let s0 := if f.frag.toNat = (getLink s q).frags.length then s else dropFrags s q
  let x := getLink s0 q
  let frags := x.frags ++ [f]
  if f.frag.toNat ≠ x.frags.length ∨ fps ≤ f.frag.toNat ∨ f.last ≠ decide (f.frag.toNat + 1 = fps) then
    dropFrags (setLink s0 q { x with frags := frags }) q
  else if f.last then takeSample (setLink s0 q { x with frags := [] }) q f.stat.toNat f.seq (fragWords frags)
  else setLink s0 q { x with frags := frags }

/-- DATA (R374, R379 to R385): checked, classified, and accepted or discarded. -/
def execData (q : LinkId) (f : QuillFrame) (s : State) : Result :=
  if !linkHears s q.val then .next s
  else
    let (s1, o) := receive s q.val .lc f
    match o with
    | some .accept => .next (takeFragment s1 q.val f)
    | some .late => .next (frameRecord s1 q.val vLate f.stat.toNat f.seq.toNat (lc s1) f.payload).1
    | _ => .next (frameRecord s1 q.val vDiscarded f.stat.toNat f.seq.toNat (lc s1) f.payload).1

/-- A whole BULK message of a peer forms an update set under the stream map, and nothing else (R333). -/
def takeBulk (s : State) (q stat : Nat) (seq : BitVec 16) (ws : List Word) : State :=
  if !strmOn s q || strmIsOut s q then s
  else if !pidMatches s q (activePartner s (onQuill q)) then bump s (fioOff 0x4C)
  else
    let (s1, ref) := frameRecord s q vAccepted stat seq.toNat (lc s) ws
    streamSet s1 q ref 0 ws false

/-- BULK (R333, R379, R384, R385). -/
def execBulk (q : LinkId) (f : QuillFrame) (s : State) : Result :=
  if !linkHears s q.val then .next s
  else
    let (s1, o) := receive s q.val .be f
    match o with
    | some .accept =>
      let x := getLink s1 q.val
      let ws := x.bulkIn ++ [padWords 8 f.payload]
      if f.last then .next (takeBulk (setLink s1 q.val { x with bulkIn := [] }) q.val f.stat.toNat f.seq ws.flatten)
      else .next (setLink s1 q.val { x with bulkIn := ws })
    | _ => .next s1

/-- IDENT (R398): the partner's buffer and its entry. -/
def execIdent (q : LinkId) (f : QuillFrame) (s : State) : Result :=
  if !linkHears s q.val then .next s
  else
    let (s1, o) := receive s q.val .be f
    match o with
    | some .accept =>
      let i := identOf (padWords 8 f.payload)
      let s2 := identify s1 (.quill q.val) i
      if i.bad then .next s2
      else
        let x := getLink s2 q.val
        .next (setLink s2 q.val ({ x with partnerBuf := i.buf }.pumpAll s2.lt))
    | _ => .next s1

/-- LEAVE (Table 14.14). -/
def execLeave (q : LinkId) (f : QuillFrame) (s : State) : Result :=
  if !linkHears s q.val then .next s
  else
    let (s1, o) := receive s q.val .be f
    match o with
    | some .accept => .next (attachmentGone s1 (onQuill q.val))
    | _ => .next s1

/-- NULL (R378, R379): discarded after its checks; a failed one is counted. -/
def execNull (q : LinkId) (f : QuillFrame) (s : State) : Result :=
  if !linkHears s q.val then .next s
  else
    match rxCheck f with
    | .good => .next s
    | .retry => .next (laneError s q.val)
    | .discard => .next (bump s (qlOff q.val (if f.wire = .abort then qlCode else qlType)))

-- control sets

/-- LINK_UP (R382, R383): in SYNC a node adopts the epoch, answers and is UP; a controller notes the conflict of roles. -/
def execLinkUp (q : LinkId) (epoch : BitVec 16) (s : State) : Result :=
  let x := getLink s q.val
  if x.st ≠ .sync then .next s
  else if qlRole s q.val = 2 then .next (enterUp (setLink s q.val { x with epoch := epoch, lastSet := some (.linkAck epoch) }) q.val)
  else .next (setLink s q.val { x with conflict := true })

/-- LINK_ACK (R383): a controller in SYNC that receives its epoch is UP. -/
def execLinkAck (q : LinkId) (epoch : BitVec 16) (s : State) : Result :=
  let x := getLink s q.val
  if x.st = .sync ∧ qlRole s q.val = 1 ∧ epoch = x.epoch then .next (enterUp s q.val) else .next s

/-- A NAK (R386): the frame and those after it are sent again with RETX = 1, or the NAK is ignored and counted. -/
def takeNak (s : State) (q : Nat) (k : FrameClass) (seq : BitVec 16) : State :=
  let x := getLink s q
  let c := x.cls k
  if x.st ≠ .up then s
  else
    match c.replay.findIdx? (fun f => decide (f.seq = seq ∧ f.retx = false)) with
    | none => bump s (qlOff q qlNakIgn)
    | some i =>
      let rp := c.replay.zipIdx.map (fun e => if i ≤ e.2 then { e.1 with retx := true } else e.1)
      let x1 := x.setCls k { c with replay := rp }
      setLink s q { x1 with lastTx := rp.getLast? }

def execNakLc (q : LinkId) (seq : BitVec 16) (s : State) : Result := .next (takeNak s q.val .lc seq)
def execNakBe (q : LinkId) (seq : BitVec 16) (s : State) : Result := .next (takeNak s q.val .be seq)

/-- A freed count modulo 256, taken forward from the last (R390). -/
def freedOf (old : Nat) (n : BitVec 8) : Nat := old + (n.toNat + 256 - old % 256) % 256

/-- CREDIT (R390): freed frames come back, and waiting BE-class frames are sent. -/
def execCredit (q : LinkId) (lc be : BitVec 8) (s : State) : Result :=
  let x := getLink s q.val
  if x.st ≠ .up then .next s
  else
    let x1 := { x with lc := { x.lc with partnerFreed := freedOf x.lc.partnerFreed lc },
                       be := { x.be with partnerFreed := freedOf x.be.partnerFreed be } }
    .next (setLink s q.val (x1.pumpAll s.lt))

/-- DOWN (R382, Table 14.6): an orderly shutdown ends UP. -/
def execDown (q : LinkId) (s : State) : Result :=
  if (getLink s q.val).st = .up then .next (leaveLink s q.val (restState s q.val)) else .next s

/-- NAK_TIMEOUT (R385): the expected frame is lost and counted; its sample is discarded. -/
def execNakTimeout (q : LinkId) (cl : FrameClass) (s : State) : Result :=
  let x := getLink s q.val
  let c := x.cls cl
  if x.st ≠ .up ∨ c.nak = false then .next s
  else
    let s1 := setLink s q.val (x.setCls cl { c with rx := c.rx + 1, nak := false, waitRetx := false, freed := c.freed + 1 })
    let s2 := bump s1 (qlOff q.val qlLost)
    match cl with
    | .lc => .next (dropFrags s2 q.val)
    | .be => .next (setLink s2 q.val { getLink s2 q.val with bulkIn := [] })

/-- REPLAY_EXPIRE (R386): the oldest frame leaves the replay buffer of its class. -/
def execReplayExpire (q : LinkId) (cl : FrameClass) (s : State) : Result :=
  let x := getLink s q.val
  let c := x.cls cl
  match c.replay with
  | [] => .next s
  | f :: t =>
    let x1 := x.setCls cl { c with replay := t }
    let sentAll := match cl, x1.busy with
      | .be, some b => decide (b.seq = f.seq)
      | _, _ => false
    .next (setLink s q.val (if sentAll then { x1 with busy := none } else x1))

/-- LINK_UP_TIMER (Table 14.6): a controller in SYNC sends LINK_UP. -/
def execLinkUpTimer (q : LinkId) (s : State) : Result :=
  let x := getLink s q.val
  if x.st = .sync ∧ qlRole s q.val = 1 then .next (setLink s q.val { x with lastSet := some (.linkUp x.epoch) }) else .next s

/-- CREDIT_TIMER (R390). -/
def execCreditTimer (q : LinkId) (s : State) : Result :=
  let x := getLink s q.val
  if x.st = .up then
    .next (setLink s q.val { x with lastSet := some (.credit (x.lc.freed % 256) (x.be.freed % 256)) })
  else .next s

/-- UNCONF_NULL_TIMER (Table 14.6): a NULL frame with STAT NOT_VALID. -/
def execUnconfNullTimer (q : LinkId) (s : State) : Result :=
  let x := getLink s q.val
  if x.st = .unconf then
    let f : TxFrame := ⟨0, 0, 6, 0, false, false, List.replicate 8 0⟩
    .next (setLink s q.val { x with lastTx := some f, busy := some f, busyAt := s.lt })
  else .next s

/-- LOCK_ACQUIRED (R383, Table 14.6): TRAIN to SYNC; the controller picks its epoch, and CR_LC and RX_LC apply (R550). -/
def execLockAcquired (q : LinkId) (s : State) : Result :=
  let x := getLink s q.val
  if x.st ≠ .train then .next s
  else
    let w := regGet s (qlOff q.val 0)
    .next (setLink s q.val { x with
      st := .sync, conflict := false, crLc := fld w 28 24, rxLc := fld w 23 19
      epoch := if qlRole s q.val = 1 then x.lastUsed + 0x4000 else x.epoch })

/-- LINK_ERRORS (Table 14.6): 8 code violations within 64 code groups, or loss of lock, end UP. -/
def execLinkErrors (q : LinkId) (s : State) : Result :=
  if (getLink s q.val).st = .up then .next (leaveLink s q.val (restState s q.val)) else .next s

/-- Enter LOOP (R391, Table 14.16): an UP link sends DOWN first. -/
def enterLoop (s : State) (q : Nat) : State :=
  let x := getLink s q
  let s1 := if x.st = .up then setLink s q { x with lastSet := some .down } else s
  leaveLink s1 q .looped

/-- LOOP_ROLE_WRITE (R550): ROLE = LOOP may be written at any time. -/
def loopRole (s : State) (q : Nat) : State := enterLoop (regSet s (qlOff q 0) (regGet s (qlOff q 0) ||| 0xC0000000)) q
def execLoopRoleWrite (q : LinkId) (s : State) : Result := hostWrite s (loopRole s q.val)

end Sys2Proof.Machine
end

