-- ==== Sys2Proof/Machine/Model.lean ====
section
/-! DEFINITION. Learned models (chapter 09): what one command of a MODEL image computes from its items, layer by layer, with
the orders and the rounding points of R250 to R254 and the class results of R263 to R265. Activations are laid out by
channel, row and column (assumption 33). -/

namespace Sys2Proof.Machine

/-- How a command converts: TDAZ, SATCVT, and the sign, fraction count and ROUND of a FIX32 output word. -/
structure ModelCfg where
  tdaz : Bool
  satcvt : Bool
  fix : Nat → Bool × Nat × RoundMode

/-- The format of a code of Table 09.2. -/
def tfmtOf (c : Nat) : TFmt := (TFmt.ofCode c).getD .int8

/-- Elements of packed bytes: 16, 8 or 4 bits each, the lower index in the lower bits (R247). -/
def unpackElems (t : TFmt) : List Byte → List Nat
  | [] => []
  | [b] => if t.bits = 4 then [b.toNat % 16, b.toNat / 16] else [b.toNat]
  | b0 :: b1 :: bs =>
    if t.bits = 16 then (b0.toNat + 256 * b1.toNat) :: unpackElems t bs
    else if t.bits = 8 then b0.toNat :: b1.toNat :: unpackElems t bs
    else b0.toNat % 16 :: b0.toNat / 16 :: b1.toNat % 16 :: b1.toNat / 16 :: unpackElems t bs

/-- Bytes of n elements of a format. -/
def elemBytes (t : TFmt) (n : Nat) : Nat := ceilDiv (n * t.bits) 8

/-- A layer that works on floating-point activations. -/
def LayerRec.floating (r : LayerRec) : Bool := (tfmtOf r.aFmt).float?.isSome

/-- Weights of a layer (R247). -/
def LayerRec.weightCount (r : LayerRec) : Nat :=
  if r.ltype = 1 then r.cOut * r.cIn
  else if r.ltype = 2 then r.cOut * r.cIn * r.kh * r.kw
  else if r.ltype = 3 then r.cIn * r.kh * r.kw
  else 0

def Layers.weightsOf (l : Layers) (r : LayerRec) : List Nat :=
  (unpackElems (tfmtOf r.wFmt) ((l.weights.drop r.wOff).take (elemBytes (tfmtOf r.wFmt) r.weightCount))).take r.weightCount

/-- Bias words (R247); zeros without them. -/
def Layers.biasOf (l : Layers) (r : LayerRec) : List Word :=
  if r.bias then bytesWords ((l.weights.drop (r.wOff + elemBytes (tfmtOf r.wFmt) r.weightCount)).take (4 * r.outC))
  else List.replicate r.outC 0

/-- One accumulation in order (R250): weight and activation pairs onto the bias word. -/
def accumulate (c : ModelCfg) (w a : TFmt) (start : Word) (l : List (Nat × Nat)) : Word × Arith :=
  l.foldl (fun (acc : Word × Arith) e =>
    match w.float?, a.float? with
    | some fw, some fa =>
      let r := tensorMacFp fw fa c.tdaz acc.1 e.1 e.2
      (r.1, acc.2 ||| r.2.arith)
    | _, _ =>
      let r := tensorMacInt acc.1 (tensorInt w e.1) (tensorInt a e.2)
      (r.1, acc.2 ||| flagIf r.2 tfSat)) (start, 0)

/-- The input element of a window position, none where it is padding. -/
def windowAt (r : LayerRec) (src : List Nat) (ch oy ox ky kx : Nat) : Option Nat :=
  let y : Int := oy * (r.strideH + 1) + ky - r.pad
  let x : Int := ox * (r.strideW + 1) + kx - r.pad
  if 0 ≤ y ∧ y < r.inH ∧ 0 ≤ x ∧ x < r.inW then some (src.getD ((ch * r.inH + y.toNat) * r.inW + x.toNat) 0) else none

/-- The weight and activation pairs of one output element, in the order of R250. -/
def pairsOf (r : LayerRec) (ws src : List Nat) (ch oy ox : Nat) : List (Nat × Nat) :=
  if r.ltype = 1 then ((ws.drop (ch * r.cIn)).take r.cIn).zip src
  else
    let cins := if r.ltype = 3 then [ch] else upTo r.cIn
    cins.flatMap (fun ci => (upTo r.kh).flatMap (fun ky => (upTo r.kw).filterMap (fun kx =>
      (windowAt r src ci oy ox ky kx).map (fun a =>
        let wi := if r.ltype = 3 then (ch * r.kh + ky) * r.kw + kx else ((ch * r.cIn + ci) * r.kh + ky) * r.kw + kx
        (ws.getD wi 0, a)))))

/-- An element as FP32, exactly; integers by R120. -/
def elemFp32 (t : TFmt) (x : Nat) : Nat :=
  match t.float? with
  | some f => (convert f fp32 .rne x).1
  | none => (fp32.roundDyadic .rne false (tensorInt t x) 0).1

/-- An element as a layer takes it in: a subnormal is zero under TDAZ (R115, R251), with the flags its reading sets: TF_DAZ,
and TF_NV for a signalling NaN (Table 04.2). -/
def elemIn (tdaz : Bool) (t : TFmt) (x : Nat) : Nat × Arith :=
  match t.float? with
  | some f =>
    let v := tensorInput f tdaz x
    (if v.2 then f.sgn v.1.isNeg else x, flagIf v.2 tfDaz ||| flagIf (isSignalling v.1) tfNv)
  | none => (x, 0)

/-- The elements a layer takes in, and their flags together. -/
def elemsIn (tdaz : Bool) (t : TFmt) (l : List Nat) : List Nat × Arith :=
  let es := l.map (elemIn tdaz t)
  (es.map (fun e => e.1), es.foldl (fun f e => f ||| e.2) 0)

def fp32NaN (x : Nat) : Bool := isNanV (fp32.unpack x)

/-- ARITH of an FP32 product made for a layer. -/
def FpFlags.tensor (f : FpFlags) : Arith :=
  flagIf f.nv tfNv ||| flagIf f.ofl tfOf ||| flagIf f.uf tfUf ||| flagIf f.nx tfNx

/-- ARITH of an FP32 sum made for a layer: Table 04.2 gives ∞ − ∞ no TF_NV. -/
def FpFlags.tensorSum (f : FpFlags) : Arith := ({ f with nv := false } : FpFlags).tensor

/-- The larger of two FP32 values, ordering −0 below +0 (R250). -/
def poolMax (a b : Nat) : Nat :=
  let c := cmpVal (fp32.unpack a) (fp32.unpack b)
  if c < 0 then b else if c = 0 ∧ (fp32.unpack a).isNeg then b else a

/-- FP32 of 1 / count. -/
def fp32Inv (n : Nat) : Nat := (fp32.div .rne fp32.one (fp32.roundDyadic .rne false n 0).1).1

/-- Reduction of a window (R250): POOL and GAP. -/
def reduceWindow (t : TFmt) (isMax : Bool) (l : List Nat) : Word × Arith :=
  if isMax then
    match t.float? with
    | some f =>
      match l.find? (fun x => isNanV (f.unpack x)) with
      | some n => (BitVec.ofNat 32 (convert f fp32 .rne n).1, 0)
      | none =>
        match l.map (elemFp32 t) with
        | x :: xs => (BitVec.ofNat 32 (xs.foldl poolMax x), 0)
        | [] => (0, 0)
    | none =>
      match l.map (tensorInt t) with
      | x :: xs => (BitVec.ofInt 32 (xs.foldl (fun m v => if m < v then v else m) x), 0)
      | [] => (0, 0)
  else
    match l.map (elemFp32 t) with
    | [] => (0, 0)
    | x :: xs =>
      let s := xs.foldl (fun (acc : Nat × Arith) v =>
        let r := fp32.add .rne acc.1 v
        (r.1, acc.2 ||| r.2.tensorSum)) (x, 0)
      let p := fp32.mul .rne s.1 (fp32Inv l.length)
      if t.float?.isSome then (BitVec.ofNat 32 p.1, s.2 ||| p.2.tensor)
      else ((floatToFixed fp32 .rne false 0 p.1).1, s.2 ||| p.2.tensor)

/-- The pre-activation values of a layer. -/
def preActs (c : ModelCfg) (l : Layers) (r : LayerRec) (srcA srcB : List Nat) : List (Word × Arith) :=
  let a := tfmtOf r.aFmt
  let reduce := fun (l : List Nat) =>
    let es := elemsIn c.tdaz a l
    let v := reduceWindow a r.pmax es.1
    (v.1, v.2 ||| es.2)
  let at3 := (upTo r.outC).flatMap (fun ch => (upTo r.outH).flatMap (fun oy => (upTo r.outW).map (fun ox => (ch, oy, ox))))
  if r.ltype = 1 ∨ r.ltype = 2 ∨ r.ltype = 3 then
    let ws := l.weightsOf r
    let bs := l.biasOf r
    at3.map (fun q => accumulate c (tfmtOf r.wFmt) a (bs.getD q.1 0) (pairsOf r ws srcA q.1 q.2.1 q.2.2))
  else if r.ltype = 4 then
    at3.map (fun q => reduce ((upTo r.kh).flatMap (fun ky => (upTo r.kw).filterMap (fun kx =>
      windowAt r srcA q.1 q.2.1 q.2.2 ky kx))))
  else if r.ltype = 5 then
    (upTo r.cIn).map (fun ch => reduce ((srcA.drop (ch * r.inH * r.inW)).take (r.inH * r.inW)))
  else if r.ltype = 6 then
    (srcA.zip srcB).map (fun e =>
      if a.float?.isSome then
        let x := elemIn c.tdaz a e.1
        let y := elemIn c.tdaz a e.2
        let o := (if r.sub then fp32.sub else fp32.add) .rne (elemFp32 a x.1) (elemFp32 a y.1)
        (BitVec.ofNat 32 o.1, o.2.tensorSum ||| x.2 ||| y.2)
      else
        let o := sat32 (if r.sub then tensorInt a e.1 - tensorInt a e.2 else tensorInt a e.1 + tensorInt a e.2)
        (o.1, flagIf o.2 tfSat))
  else srcA.map (fun x => (BitVec.ofNat 32 x, 0))

/-- 2^e in FP32. -/
def fp32Pow (e : Int) : Nat := (fp32.roundDyadic .rne false 1 e).1

/-- ACT_ARG of CLIP as a signed number. -/
def clipArg (c : Nat) : Int := (BitVec.ofNat 8 c).toInt

/-- The segment of a PWL table that holds a value. -/
def pwlSegment (tab : List Word) (a : Nat) : Nat :=
  ((tab.take 15).filter (fun b => decide (0 ≤ cmpVal (fp32.unpack a) (fp32.unpack b.toNat)))).length

/-- An FP32 activation with its slope (Table 09.5). -/
def activateFp (pwl : List Word) (act arg : Nat) (a : Word) : Word × Word × Arith :=
  let x := a.toNat
  let one := BitVec.ofNat 32 fp32.one
  let pos := decide (0 < cmpVal (fp32.unpack x) (.fin false 0 0))
  if fp32NaN x then
    match fp32.unpack x with
    | .nan neg _ fr => (BitVec.ofNat 32 (fp32.quietNan neg fr), BitVec.ofNat 32 (fp32.quietNan neg fr), 0)
    | _ => (a, one, 0)
  else
    match act with
    | 1 => if pos then (a, one, 0) else (0, 0, 0)
    | 2 =>
      if pos then (a, one, 0)
      else
        let m := fp32Pow (-(arg : Int))
        let r := fp32.mul .rne x m
        (BitVec.ofNat 32 r.1, BitVec.ofNat 32 m, r.2.tensor)
    | 3 =>
      let hi := fp32Pow (clipArg arg)
      let lo := fp32.sgn true + hi
      if decide (cmpVal (fp32.unpack x) (fp32.unpack lo) ≤ 0) then (BitVec.ofNat 32 lo, 0, 0)
      else if decide (0 ≤ cmpVal (fp32.unpack x) (fp32.unpack hi)) then (BitVec.ofNat 32 hi, 0, 0)
      else (a, one, 0)
    | 4 =>
      let tab := (pwl.drop (48 * arg)).take 48
      let i := pwlSegment tab x
      let m := tab.getD (15 + i) 0
      let r := fp32.fma .rne m.toNat x (tab.getD (31 + i) 0).toNat
      (BitVec.ofNat 32 r.1, m, r.2.tensor)
    | _ => (a, one, 0)

/-- An integer activation (Table 09.5). -/
def activateInt (act arg : Nat) (a : Word) : Word :=
  match act with
  | 1 => if 0 < a.toInt then a else 0
  | 3 => BitVec.ofInt 32 (clamp (-(2 ^ arg)) (2 ^ arg) a.toInt)
  | _ => a

/-- The conversion of R251 to a layer's output format; `w` is the output word a FIX32 result lies in. -/
def convertOut (c : ModelCfg) (r : LayerRec) (w : Nat) (a : Word) : Nat × Arith :=
  if r.oFmt = 7 then
    let f := c.fix w
    let q := floatToFixed fp32 f.2.2 f.1 f.2.1 a.toNat
    (q.1.toNat, flagIf q.2.1 satConv ||| flagIf q.2.2 fpNv)
  else
    match (tfmtOf r.oFmt).float? with
    | some t =>
      let q := tensorConvert t c.satcvt a
      (q.1, q.2.arith)
    | none =>
      let q := tensorRequant (tfmtOf r.oFmt) r.tshift a
      (q.1, flagIf q.2 tfSat)

/-- What a layer leaves for one item. -/
structure LayerOut where
  outs : List Nat
  slopes : List Word
  flags : Arith
deriving DecidableEq, Repr, Inhabited

/-- Elements of a layer's input shape. -/
def LayerRec.inSize (r : LayerRec) : Nat := r.cIn * max 1 r.inH * max 1 r.inW

/-- The source of a layer: an earlier layer's outputs, or as many elements of the item as the layer's shape holds, from
IN_FIRST on. -/
def sourceOf (item : List Nat) (done : List (List Nat)) (r : LayerRec) (src : Nat) : List Nat :=
  if src = 255 then (item.drop r.inFirst).take r.inSize else done.getD src []

/-- The result of ARGMAX on one item (R263): class, largest and second largest inputs, tie, NaN; and whether TF_SAT was
set in the item. -/
structure ClassRes where
  cls : Nat
  top : Nat
  margin : Nat
  sat : Bool
  tie : Bool
  nan : Bool
deriving DecidableEq, Repr, Inhabited

/-- The ARGMAX of a list of inputs in a format. -/
def argmaxOf (c : ModelCfg) (t : TFmt) (xs : List Nat) (sat : Bool) : ClassRes :=
  let vs := (elemsIn c.tdaz t xs).1.map (elemFp32 t)
  if vs.any fp32NaN then ⟨255, 0, 0, sat, false, true⟩
  else
    let best := vs.zipIdx.foldl (fun (b : Nat × Nat) e =>
      if decide (cmpVal (fp32.unpack b.1) (fp32.unpack e.1) < 0) then (e.1, e.2) else b) (vs.headD 0, 0)
    let rest := vs.eraseIdx best.2
    let second := rest.foldl (fun b v => if decide (cmpVal (fp32.unpack b) (fp32.unpack v) < 0) then v else b) (rest.headD 0)
    let tie := decide (cmpVal (fp32.unpack best.1) (fp32.unpack second) = 0)
    ⟨best.2, (tensorConvert bf16 c.satcvt (BitVec.ofNat 32 best.1)).1,
      if tie then 0 else (tensorConvert bf16 c.satcvt (BitVec.ofNat 32 (fp32.sub .rne best.1 second).1)).1, sat, tie, false⟩

/-- One layer of one item; `base` is the output word of its first element. ARGMAX leaves the index it selects (R263);
CLASSMAP passes it on. -/
def evalLayer (c : ModelCfg) (l : Layers) (base : Nat) (item : List Nat) (done : List (List Nat)) (r : LayerRec) : LayerOut :=
  let srcA := sourceOf item done r r.srcA
  let pre := preActs c l r srcA (sourceOf item done r r.srcB)
  if r.ltype = 7 then ⟨[(argmaxOf c (tfmtOf r.aFmt) srcA false).cls], [], (elemsIn c.tdaz (tfmtOf r.aFmt) srcA).2⟩
  else if r.ltype = 8 then ⟨srcA, [], 0⟩
  else
    let acts := pre.map (fun e =>
      if r.floating then
        let q := activateFp l.pwl r.act r.actArg e.1
        (q.1, q.2.1, e.2 ||| q.2.2)
      else (activateInt r.act r.actArg e.1, (0 : Word), e.2))
    let conv := acts.zipIdx.map (fun e => convertOut c r (base + e.2) e.1.1)
    ⟨conv.map (fun q => q.1), acts.map (fun q => q.2.1),
      (acts.map (fun q => q.2.2)).foldl (· ||| ·) 0 ||| (conv.map (fun q => q.2)).foldl (· ||| ·) 0⟩

/-- Every layer of one item, in index order. -/
def evalItem (c : ModelCfg) (l : Layers) (base : Nat) (item : List Nat) : List LayerOut :=
  l.layers.foldl (fun done r => done ++ [evalLayer c l base item (done.map (fun d => d.outs)) r]) []

/-- One layer's tangents (R252): the accumulation without a bias, times the slope, converted. -/
def evalTangentLayer (c : ModelCfg) (l : Layers) (base : Nat) (item : List Nat) (done : List (List Nat)) (r : LayerRec)
    (slopes : List Word) : List Nat × Arith :=
  let r0 := { r with bias := false }
  let pre := preActs c l r0 (sourceOf item done r r.srcA) (sourceOf item done r r.srcB)
  let t := (pre.zip slopes).map (fun e =>
    let m := fp32.mul .rne e.2.toNat e.1.1.toNat
    ((BitVec.ofNat 32 m.1 : Word), e.1.2 ||| m.2.tensor))
  let conv := t.zipIdx.map (fun e => convertOut c r (base + e.2) e.1.1)
  (conv.map (fun q => q.1), (t.map (fun q => q.2)).foldl (· ||| ·) 0 ||| (conv.map (fun q => q.2)).foldl (· ||| ·) 0)

/-- The tangents of one direction through every layer. -/
def evalTangent (c : ModelCfg) (l : Layers) (base : Nat) (seed : List Nat) (prim : List LayerOut) : List (List Nat) × Arith :=
  (l.layers.zip prim).foldl (fun (done : List (List Nat) × Arith) e =>
    let q := evalTangentLayer c l base seed done.1 e.1 e.2.slopes
    (done.1 ++ [q.1], done.2 ||| q.2)) ([], 0)

/-- The input tangent of direction j (R253): exactly 1.0 at element j, +0 elsewhere. -/
def tangentSeed (t : TFmt) (n j : Nat) : List Nat :=
  (upTo n).map (fun i => if i = j then (match t.float? with | some f => f.one | none => 1) else 0)

/-- The output words of one item (R253): its primal outputs, then each direction's tangents; with its flags. -/
def itemWords (c : ModelCfg) (l : Layers) (k : Nat) (item : List Nat) : List Nat × Arith :=
  let n := match l.layers.getLast? with | some r => r.outSize | none => 0
  let base := k * n * (l.tangents + 1)
  let prim := evalItem c l base item
  let t0 := match l.layers.head? with | some r => tfmtOf r.aFmt | none => .bf16
  let tans := (upTo l.tangents).map (fun j => evalTangent c l (base + n * (j + 1)) (tangentSeed t0 item.length j) prim)
  let last := fun (x : List (List Nat)) => (x.getLast?).getD []
  (last (prim.map (fun d => d.outs)) ++ tans.flatMap (fun q => last q.1),
    (prim.map (fun d => d.flags)).foldl (· ||| ·) 0 ||| (tans.map (fun q => q.2)).foldl (· ||| ·) 0)

/-- Every output word of a command over its items, with the flags (R253). -/
def modelWords (c : ModelCfg) (l : Layers) (items : List (List Nat)) : List Word × Arith :=
  let rs := items.zipIdx.map (fun e => itemWords c l e.2 e.1)
  (rs.flatMap (fun q => q.1.map (fun x => BitVec.ofNat 32 x)), (rs.map (fun q => q.2)).foldl (· ||| ·) 0)

/-- The output tensor of a layer over the items of a command (R261). -/
def layerTensor (c : ModelCfg) (l : Layers) (items : List (List Nat)) (y : Nat) : List (List Nat) :=
  let n := match l.layers.getLast? with | some r => r.outSize | none => 0
  items.zipIdx.map (fun e => ((evalItem c l (e.2 * n * (l.tangents + 1)) e.1)[y]?.map (fun o => o.outs)).getD [])

/-- The class result of one item, for an image with an ARGMAX layer (R263). -/
def itemClass (c : ModelCfg) (l : Layers) (item : List Nat) : Option ClassRes :=
  match l.layers.findIdx? (fun r => r.ltype == 7) with
  | none => none
  | some i =>
    let prim := evalItem c l 0 item
    let r := l.layers.getD i default
    let fl := (prim.map (fun d => d.flags)).foldl (· ||| ·) 0
    some (argmaxOf c (tfmtOf r.aFmt) (sourceOf item (prim.map (fun d => d.outs)) r r.srcA) (decide (fl &&& tfSat ≠ 0)))

/-- TF_SAT was set in an item (Table 09.7). -/
def itemSat (c : ModelCfg) (l : Layers) (item : List Nat) : Bool := decide ((itemWords c l 0 item).2 &&& tfSat ≠ 0)

/-- A result record (Table 09.7) as two words. -/
def ClassRes.words (r : ClassRes) : List Word :=
  let v : Word64 := BitVec.ofNat 64 (r.cls * 2 ^ 56 + r.top * 2 ^ 40 + r.margin * 2 ^ 24 + (if r.sat then 4 else 0)
    + (if r.tie then 2 else 0) + (if r.nan then 1 else 0))
  [lo32 v, hi32 v]

/-- The words a CLASSMAP layer outputs (R265): those of the valid class of highest SEVERITY; none with no valid item. -/
def classMapWords (l : Layers) (rs : List ClassRes) : Option (List Word) :=
  match l.layers.find? (fun r => r.ltype == 8) with
  | none => some []
  | some r =>
    let row := fun (cl : Nat) => (l.classMap.drop (cl * (r.k + 1))).take (r.k + 1)
    let sev := fun (cl : Nat) => fld ((row cl).headD 0) 7 0
    let cls := (rs.filter (fun q => !q.nan)).map (fun q => q.cls)
    match cls with
    | [] => none
    | x :: xs =>
      let best := xs.foldl (fun b cl => if sev b < sev cl ∨ (sev b = sev cl ∧ cl < b) then cl else b) x
      some ((row best).drop 1)

/-- The FIX32 format and ROUND of output words of an image (R251): the certificate's record of the word, else the commit
map's source format; ROUND from the ANNOTATION record of the word's conversion, bits [29:28] (assumption 34). -/
def fixOf (im : Image) (w : Nat) : Bool × Nat × RoundMode :=
  let rd := match im.anns.find? (fun a => a.num == w) with
    | some a => (roundOfCode (fld a.fmts 29 28)).getD .rne
    | none => .rne
  match im.varRec? w with
  | some r => (false, 32 - r.fmtM, rd)
  | none =>
    match im.commitMap.find? (fun r => r.word == w) with
    | some r => (r.srcU, 32 - r.srcM, rd)
    | none => (false, 0, rd)

def modelCfg (im : Image) (fp : Fpcw) : ModelCfg := ⟨fp.tdaz, fp.satcvt, fixOf im⟩

end Sys2Proof.Machine
end

