-- ==== Sys2Proof/Machine/CommitGate.lean ====
section
/-! DEFINITION. The commit gate (chapters 08 and 10): what it decides for a command (Table 08.8), the commit and its sets, the
fallback plan, and the end of a launch with its LAUNCH groups. -/

namespace Sys2Proof.Machine

/-- What the gate decides for one member of a command. -/
structure GateOut where
  words : Option (List Word)
  cert : Option AssayCert
  status : Nat
  iter : Nat
  flags : CFlags
deriving DecidableEq, Repr, Inhabited

/-- Flags of a verdict that failed by R278, R284 or R285. -/
def Member.verdictFlags (m : Member) : CFlags :=
  cfIf m.mismatch cfCertMismatch ||| cfIf m.copyBad cfCopyMismatch ||| cfIf m.assayBad cfAssayFault

/-- Flags that make a stop a range breach under R79, whatever trap falls with it (R111, R182, R217, R254). -/
def breachFlags : CFlags := cfRangeBreach ||| cfFamilyIndex ||| cfDecisionWord ||| cfDualMismatch

/-- Table 08.8 for one member. -/
def gateOutcome (c : Cmd) (m : Member) : GateOut :=
  let ok := match m.cert with | some k => k.pass && !m.mismatch && !m.copyBad && !m.assayBad | none => false
  match c.stop with
  | some .breach => ⟨none, none, if cfHas c.flags breachFlags then stCert else stFpTrap, 0, 0⟩
  | some .infeasible => ⟨none, m.cert, stInfeasible, 0, m.verdictFlags⟩
  | some .notStarted => ⟨none, none, if c.held then stDeadlineHold else stCert, 0, cfNoIterate⟩
  | some .killed => ⟨none, none, stContext, 0, cfNoPlan⟩
  | r =>
    if ok then ⟨m.final, m.cert, if r = some .converged then stOk else stOkSubopt, c.iter, m.verdictFlags⟩
    else
      match m.best with
      | some b => ⟨some b.words, some b.cert, stOkSubopt, b.iter, m.verdictFlags ||| cfBestEarlier⟩
      | none => ⟨none, m.cert, stCert, 0, m.verdictFlags⟩

/-- A kind whose fallback is a shifted plan (R232). -/
def Image.plans (i : Image) : Bool := decide (i.hdr.ikind = 1) && (decide (i.hdr.pkind = 1) || decide (i.hdr.pkind = 5))

/-- The words of stage k of an iterate, with their formats (R567); an estimator has one stage, its x̂ (R299). -/
def stageWords (im : Image) (ws : List Word) (k : Nat) : List (Word × Nat) :=
  let d := im.dims
  let first := if im.isQp then k * (d.nx + d.nu) else 0
  let n := if im.isQp then d.nx + d.nu else d.nx
  ((ws.drop first).take n).zipIdx.map (fun (e : Word × Nat) =>
    (e.1, match im.varRec? (first + e.2) with | some r => r.fmtM | none => 0))

/-- Stages of a committed trajectory. -/
def Image.trajStages (i : Image) : Nat := if i.isQp then i.dims.stages else 1

/-- Fields of a launch entry (Table 06.14). -/
def entryImg (s : State) (p j : Nat) : Nat := fld (regGet s (launchOff p j 6)) 11 9
def entryBatch (s : State) (p j : Nat) : Bool := wbit (regGet s (launchOff p j 6)) 12
def entryFair (s : State) (p j : Nat) : Bool := wbit (regGet s (launchOff p j 6)) 13
def entryValid (s : State) (p j : Nat) : Bool := wbit (regGet s (launchOff p j 6)) 15
def entryThr (s : State) (p j : Nat) : Nat := fld (regGet s (launchOff p j 6)) 23 16
def entryInst (s : State) (p j : Nat) : Nat :=
  2 * fld (regGet s (launchOff p j 6)) 8 0 + fld (regGet s (launchOff p j 5)) 31 31
def entryFpcw (s : State) (p j : Nat) : Fpcw :=
  BitVec.ofNat 16 (fld (regGet s (launchOff p j 6)) 31 24 + 256 * fld (regGet s (launchOff p j 7)) 7 0)
def entryPhase (s : State) (p j : Nat) : Nat := (regGet64 s (launchOff p j 2)).toNat

/-- PERIOD_TICKS, DEADLINE_TICKS and RELEASE_TICKS of a launch entry (Table 06.14). -/
def entryPeriod (s : State) (p j : Nat) : Nat := (regGet s (launchOff p j 1)).toNat
def entryDeadline (s : State) (p j : Nat) : Nat := fld (regGet s (launchOff p j 0)) 31 8
def entryRelease (s : State) (p j : Nat) : Nat := fld (regGet s (launchOff p j 7)) 31 8

/-- k of R232: the launch periods between a trajectory's release count and another. -/
def planAge (s : State) (p j : Nat) (t : Traj) (release : Nat) : Nat := (release - t.release) / max 1 (entryPeriod s p j)

/-- The last trajectory an entry committed since its instance's admission (R232): one of an instance it no longer names does not
count. -/
def entryTraj (s : State) (p j : Nat) : Option Traj :=
  (getRun s p j).traj.filter (fun t => entryBatch s p j || t.inst == entryInst s p j)

/-- The fallback for a release count (R232): the trajectory and its k, none when nothing is released. -/
def fallback (s : State) (p j : Nat) (im : Image) (release : Nat) : Option (Traj × Nat) :=
  if im.plans then
    match entryTraj s p j with
    | some t => if planAge s p j t release < im.dims.stages then some (t, planAge s p j t release) else none
    | none => none
  else none

/-- Present a trajectory to the engines bound to an entry (R19, R299), advanced by k stages; past its end the last stage
repeats. -/
def presentPlan (s : State) (p j : Nat) (im : Image) (t : Traj) (k : Nat) (shifted : Bool) : State :=
  let last := im.trajStages - 1
  let nt : NibTraj := ⟨count s p, entryPeriod s p j, stageWords im t.words (min k last), stageWords im t.words (min (k + 1) last)⟩
  (boundEngines s p j).foldl (fun u n => adopt u n nt shifted) s

/-- The outbound Quill streams bound to a launch entry (R389). -/
def leStreams (s : State) (p j : Nat) : List Nat :=
  (upTo 16).filter (fun q =>
    let w := regGet s (strmOff q 0x14)
    strmOn s q && strmIsOut s q && wbit w 31 && decide (strmPart s q = p ∧ fld w 30 25 = j))

/-- The words of a launch-entry output (R389): the release count, then the stage words its binding names, from a trajectory
advanced by k stages. -/
def leWords (s : State) (q : Nat) (im : Image) (ws : List Word) (k release : Nat) : List Word :=
  let w := regGet s (strmOff q 0x14)
  let last := im.trajStages - 1
  [BitVec.ofNat 32 release, BitVec.ofNat 32 (release / 2 ^ 32)]
    ++ (upTo (fld w 10 5)).flatMap (fun n =>
      (((stageWords im ws (min (n + k) last)).map (fun e => e.1)).drop (fld w 24 18)).take (fld w 17 11))

/-- Offer a launch-entry output to its links; those of a replay partition are compared (R517). -/
def leOffer (s : State) (p j stat : Nat) (words : Nat → List Word) : State :=
  (leStreams s p j).foldl (fun t q =>
    if replayPart t p then (if t.blt.replay.started then compareOut t q stat (words q) else t)
    else linkOffer t q stat (words q)) s

/-- Hand the commit sets of a command to the gates of their targets (R43, R245); the group waits for their verdicts. -/
def pushCommits (s : State) (p : Nat) (im : Image) (c : Cmd) (words : List Word) (grp : LaunchRec) (be : Option (Nat × Nat)) :
    State :=
  match im.usedTargets with
  | [] =>
    match be with
    | some (cx, ring) => completeBe s cx ring grp
    | none => writeLaunch s grp
  | ts =>
    let x := getPart s p
    let id := x.nextAwait
    let s1 := setPart s p { x with nextAwait := id + 1, awaits := x.awaits ++ [⟨id, grp, be, ts.length, none, c.members.map (fun m => m.inst)⟩] }
    ts.foldl (fun t e =>
      let y := getPart t e.2.part
      let g : GateItem :=
        { src := .commit p id e.1 c.entry c.launch, kind := 0, slot := e.2.slot, bytes := 0, words := words,
          recs := im.commitMap.filter (fun r => r.src == e.1), inst := e.2.inst, tsig := e.2.tsig, asn := 0,
          tick := s.lt }
      setPart t e.2.part { y with gate := gateInsert g y.gate }) s1

/-- Whether a command wrote the other factor buffer (R201). -/
def wroteFactor (im : Image) (c : Cmd) : Bool := (im.seg? 3).isSome && (decide (c.start ≠ .warm) || decide (0 < c.rank1))

/-- What a commit leaves in its instance (R201, Table 07.4, R281): the iterate, the certificate, the warm start or carried
state, the current factor and the commit count. -/
def Inst.commit (i : Inst) (im : Image) (c : Cmd) (words : List Word) (cert : Option AssayCert) : Inst :=
  let out := words.take im.w
  { i with
    lastWords := some out, lastCert := cert, commits := i.commits + 1, lastL := c.launch,
    warm := if im.isQp then some ⟨im.hdr.sig, c.launch, out⟩ else i.warm,
    carried := if im.isEstimator then some out else i.carried,
    xPrev := if im.isEstimator then some ((candidateFp im (out.take im.dims.nx)).map (BitVec.ofNat 64)) else i.xPrev,
    bufSwap := if wroteFactor im c then !i.bufSwap else i.bufSwap,
    factorValid := i.factorValid || wroteFactor im c }

/-- FER_SLACK and SLACK_LOW of a committed launch (R527): once in a second of 4 × 10^8 ticks for each entry. -/
def slackOf (s : State) (p j : Nat) (c : Cmd) : State :=
  let slack := c.deadline - elapsed s c
  let off := ferOff (0x2000 + 0x100 * p + 4 * j)
  let s1 := if slack < (regGet s off).toNat then regSet s off (BitVec.ofNat 32 slack) else s
  let lim := (regGet s1 (ferOff (0x1000 + 0x100 * p + 4 * j))).toNat
  let key := 64 * p + j
  let due : Bool := match tblGet none s1.anl.slackAt key with | some t => decide (400000000 ≤ s1.lt - t) | none => true
  if slack < lim ∧ due then
    healthEvent { s1 with anl := { s1.anl with slackAt := tblSet none s1.anl.slackAt key (some s1.lt) } } 0x06 7 key slack c.launch
  else s1

/-- The recorded LAUNCH of a replayed launch (R513): the record of the window with its partition, entry and count. -/
def recordedLaunch (s : State) (p j l : Nat) : Option BRec :=
  if isReplay s p then
    s.blt.replay.window.find? (fun r => decide (r.kind = kLaunch ∧ r.src = p ∧ fld (r.payload.getD 0 0) 27 22 = j)
      && decide ((word64 (r.payload.getD 8 0) (r.payload.getD 9 0)).toNat = l))
  else none

/-- The MATCH mask of a replayed launch (R517; assumption 36): bit 0 STATUS, 1 FLAGS, 2 the counters of Table 13.9, 3
ITER_DONE, 4 COMMITTED_ITER, 5 the certificate. -/
def matchMask (r : BRec) (g : List Word) : Word :=
  let old := r.payload.drop 4
  let same := fun (k : Nat) => decide (old.getD k 0 = g.getD k 0)
  let fieldSame := fun (k hi lo : Nat) => decide (fld (old.getD k 0) hi lo = fld (g.getD k 0) hi lo)
  put (if fieldSame 0 23 16 then 1 else 0) 0 ||| put (if same 8 && same 9 then 1 else 0) 1
    ||| put (if same 10 && same 11 && same 12 then 1 else 0) 2 ||| put (if fieldSame 1 15 0 then 1 else 0) 3
    ||| put (if fieldSame 2 31 16 then 1 else 0) 4
    ||| put (if (old.drop 16).take 8 = (g.drop 16).take 8 then 1 else 0) 5

/-- The result record of a replayed launch (R517), with the first divergence. -/
def replayResult (s : State) (r : LaunchRec) : State :=
  match recordedLaunch s r.part r.entry r.launch with
  | none => s
  | some b =>
    let g := r.head 2 ++ r.ext ++ certSlot r.cert
    let mask := matchMask b g
    let div := if mask = 0x3F then s.blt.replay.diverged else some (s.blt.replay.diverged.getD b.seq)
    let n := s.blt.replay.results.length
    let rec8 := [BitVec.ofNat 32 r.launch, BitVec.ofNat 32 (r.launch / 2 ^ 32), put r.part 28 ||| put r.entry 22, mask,
      div.getD 0, 0, 0, 0]
    let halt := decide (mask ≠ 0x3F) && wbit (regGet s (bltOff 0xC0)) 30
    { s with
      host := memPutWords s.host ((regGet64 s (bltOff 0xD8)).toNat + 32 * n) rec8
      blt := { s.blt with replay := { s.blt.replay with
        results := s.blt.replay.results ++ [rec8], diverged := div, halted := s.blt.replay.halted || halt } } }

/-- The trajectory a member commits (R232, R255). -/
def memberTraj (s : State) (p j : Nat) (im : Image) (c : Cmd) (m : Member) (ws : List Word) : Traj :=
  ⟨ws.take im.w, c.launch + entryRelease s p j, count s p, m.inst⟩

/-- One member's part in the end of a launch: commit or not, then its group. A launch that never passed R222 is no first launch
(Table 08.6). -/
def gateMember (s : State) (p j : Nat) (im : Image) (c : Cmd) (m : Member) : State :=
  let o := gateOutcome c m
  match (getPart s p).inst? m.inst with
  | none => s
  | some i =>
    let late := cfIf (c.fair && decide (c.deadline < elapsed s c)) cfOverDeadline
    let noPlanFlag :=
      if o.words.isSome ∨ im.isModel then (0 : CFlags)
      else if (fallback s p j im (c.launch + entryRelease s p j)).isSome then cfPlanShifted else cfNoPlan
    let base := launchRecOf p c m i.ctx o.status c.endTime
    let grp := { base with
      committedIter := if o.words.isSome then o.iter else 0
      subopt := match o.words, o.cert with | some _, some k => k.gap | _, _ => 0
      flags := startFlags im c { m with first := m.first && i.launched } i.commits ||| o.flags ||| late ||| noPlanFlag
      cert := o.cert }
    let s0 := replayResult s grp
    let skip := cfHas c.flags cfUpdateLimit
    match o.words with
    | some ws =>
      let s1 := putInst s0 p { i.commit im c ws o.cert with
        factorSkip := skip, traj := some (memberTraj s p j im c m ws), prevTraj := i.traj }
      pushCommits (slackOf s1 p j c) p im c (ws.take im.w) grp none
    | none =>
      let s1 := putInst s0 p { i with factorSkip := i.factorSkip || skip }
      writeLaunch (staleTargets s1 im) grp

/-- The trajectory an entry keeps after a commit (R232, R235): that of the lowest member slot. It is released at its own
release count only when it was committed by then; its frames leave at once (R389). -/
def keepTraj (s : State) (p j : Nat) (im : Image) (c : Cmd) : State :=
  match c.members with
  | [] => s
  | m :: _ =>
    match (gateOutcome c m).words with
    | none => s
    | some ws =>
      let release := c.launch + entryRelease s p j
      let e := getRun s p j
      let t := memberTraj s p j im c m ws
      let late := decide (release < count s p)
      let s1 := setRun s p j { e with
        traj := some t
        rels := if late then e.rels
                else e.rels.map (fun r => if r.count = release then { r with traj := some t } else r) }
      let settling := match (getPart s p).inst? m.inst, im.params with
        | some i, some q => decide (i.commits ≤ q.settle)
        | _, _ => false
      -- the frames of R389 leave at commit; a late commit's are never adopted (R235)
      if late then s1
      else leOffer s1 p j (if settling then 1 else 0) (fun q => leWords s1 q im t.words 0 release)

/-- A launch is DONE: its entry has no command, and its owner has left the fabric (R321). -/
def endRun (s : State) (p j : Nat) : State := leaveFabric (setRun s p j { getRun s p j with cmd := none }) p (.entry j)

/-- The decision of the gate on a command of a launch entry (GATE to DONE, Table 08.7). -/
def gateDecide (s : State) (p j : Nat) : State :=
  match (getRun s p j).cmd with
  | none => s
  | some c0 =>
    let c := { c0 with endTime := nsCount s, st := CmdState.gate }
    let s1 := dropPostings s p (.entry j)
    let s2 := regSet s1 (fabOff p 0x34) (BitVec.ofNat 32 (satAdd 32 (regGet s1 (fabOff p 0x34)).toNat c.piv.repl))
    match cmdImage s2 p c with
    | none => endRun s2 p j
    | some im =>
      let s3 := c.members.foldl (fun t m => gateMember t p j im c m) s2
      let s4 := if im.isModel then s3 else keepTraj s3 p j im c
      freeReleased (endRun s4 p j) p

/-- The commit of a MODEL command of a launch entry (R258): its commit sets, OK. -/
def gateModel (s : State) (p j : Nat) (im : Image) (c0 : Cmd) (words : List Word) : State :=
  let c := { c0 with endTime := nsCount s, st := CmdState.gate }
  let s1 := match c.members with
    | m :: _ =>
      match (getPart s p).inst? m.inst with
      | some i =>
        let late := cfIf (c.fair && decide (c.deadline < elapsed s c)) cfOverDeadline
        let base := launchRecOf p c m i.ctx stOk c.endTime
        let grp := { base with flags := startFlags im c m i.commits ||| late }
        pushCommits (slackOf (replayResult s grp) p j c) p im c words grp none
      | none => s
    | [] => s
  freeReleased (endRun s1 p j) p

/-- The fault record of a command stopped by a breach, trap or fault (R81, R110). -/
def stopFault (s : State) (p : Nat) (k : CmdKey) (c : Cmd) (kind flag tile stroke prev : Nat) : State :=
  let m := c.members.headD default
  let x := getPart s p
  let ctx := match k with
    | .ring r => r / 8
    | .entry _ => match x.inst? m.inst with | some i => i.ctx | none => 0
  let sig := match (x.slot c.slot).img with | some im => im.hdr.sig | none => 0
  writeFault s { faultOf kind p with
    ctx := ctx, inst := m.inst, sig := sig, flag := flag, row := tile / 15, col := tile % 15,
    stroke := BitVec.ofNat 32 stroke, prev := BitVec.ofNat 32 prev }

/-- The number of the lowest flag of an ARITH mask that is set. -/
def lowestFlag (a : Arith) : Nat := ((upTo 15).find? (fun i => a.getLsbD i)).getD 0xFF

/-- End the chain of a command at once (R219): its tiles are freed and the gate decides without a candidate. A command of
a ring waits in GATE for its commit. -/
def breakChain (s : State) (p : Nat) (k : CmdKey) (c : Cmd) : State :=
  let s1 := putCmd s p k { c with stop := some .breach, st := .gate }
  let s2 := freeTiles s1 p
  match k with
  | .entry j => gateDecide s2 p j
  | .ring _ => s2

/-- A range breach (R79, R81): counted, recorded, and the chain ends. Of a model whose conversion of R251 alone sets SAT_CONV, with no
tile's flag, the record names tile 0 (DESIGN CHOICE, assumption 78). -/
def breakBreach (s : State) (p : Nat) (k : CmdKey) (c : Cmd) : State :=
  let t := match c.firstTile with | some (t, _) => t | none => 0
  let fl := match c.firstTile with | some (_, a) => a &&& breachMask | none => c.arith &&& breachMask
  let c1 := { c with flags := c.flags ||| cfRangeBreach }
  breakChain (stopFault (bump s (fabOff p 0x2C)) p k c1 0x01 (lowestFlag fl) t 0 0) p k c1

/-- A trap taken at a barrier (R110): counted, recorded, and the chain ends. -/
def breakTrap (s : State) (p : Nat) (k : CmdKey) (c : Cmd) (tile : Nat) (a : Arith) (bar prev : Nat) : State :=
  breakChain (stopFault (bump s (fabOff p 0x30)) p k c 0x02 (lowestFlag a) tile bar prev) p k c

/-- A FAMILY_INDEX, DECISION_WORD or DUAL_MISMATCH fault, handled as a range breach (R79, R81, R182, R217, R254): counted, recorded with
the bit number in FLAGS and the tile it comes from, and the chain ends. The first two stand in place of RANGE_BREACH, the last
beside it. -/
def breakFault (s : State) (p : Nat) (k : CmdKey) (c : Cmd) (flag : CFlags) (tile : Nat) : State :=
  let c1 := { c with flags := c.flags ||| flag ||| cfIf (decide (flag = cfDualMismatch)) cfRangeBreach }
  breakChain (stopFault (bump s (fabOff p 0x2C)) p k c1 0x01 flag.toNat.log2 tile 0 0) p k c1

/-- A command runs under a range certificate (R79). -/
def certified (s : State) (p : Nat) (c : Cmd) : Bool :=
  match cmdImage s p c with | some im => im.cert.isSome | none => false

end Sys2Proof.Machine
end

