-- ==== Sys2Proof/Machine/Segment.lean ====
section
/-! DEFINITION. The segment controller (chapters 06 and 08): starting a segment on a partition's tiles, D_f and the time tests,
the start test, the choice of the next segment (Table 08.3), postings, and the command SEGMENT_BOUNDARY. -/

namespace Sys2Proof.Machine

/-- KIND of a segment (Table 06.9). -/
def sPrologue : Nat := 1
def sColdInit : Nat := 2
def sFactor : Nat := 3
def sIter : Nat := 4
def sUpdate : Nat := 5
def sRefine : Nat := 6
def sEpilogue : Nat := 7
def sBody : Nat := 8

/-- A tile at the first word of a segment (R179, R181); a tile with no word there has ended. The SEGEND behind it was a barrier
(R108, R110); no TMAC of the segment has run (assumption 72). -/
def Tile.startAt (t : Tile) (slot entry : Nat) : Tile :=
  let there := match tblFind t.strokes entry with | some w => decide (w.slot = slot) | none => false
  { t with running := there, ended := !there, pc := entry, cyc := 0, done0 := false, done1 := false, loops := [], ret := none,
           decision := none, lastBar := if t.ended then t.pc else t.lastBar, tcount := 16 }

/-- The WCET row of a command's start case; a kind with WARM rows only uses those. -/
def rowOf (im : Image) (start : StartCase) (fair : Bool) : WcetRow :=
  let m := if fair then 1 else 0
  match im.wcetRow? m start.code with
  | some r => r
  | none => (im.wcetRow? m 0).getD default

/-- D_f of R221, from the Deadline-mode row of the start case. -/
def deadlineFcyc (im : Image) (start : StartCase) (deadline : Nat) : Int :=
  let r := rowOf im start false
  ((70 * deadline : Int) - 28 * (r.aNs + 40 + 12 * r.x + 240 * r.l : Nat)) / 10 - 1

/-- The segments of the shortest path of a start (R222), in order. -/
def startPath (im : Image) (start : StartCase) : List Nat :=
  if im.isModel then [sBody]
  else
    [sPrologue]
      ++ (if start = .cold ∧ (im.seg? sColdInit).isSome then [sColdInit] else [])
      ++ (if start ≠ .warm ∧ (im.seg? sFactor).isSome then [sFactor] else [])
      ++ [sIter, sEpilogue]

/-- The fcyc that segments take, each after its boundary. -/
def pathFcyc (im : Image) (l : List Nat) : Nat := (l.map (fun k => 8 + im.span k)).sum

/-- The start test of R222, from the fcyc of the first boundary; a MODEL image's absent segments count their boundaries
(R188, R259). -/
def startTest (im : Image) (c : Cmd) (t : Nat) : Bool :=
  c.fair || decide ((t + pathFcyc im (startPath im c.start) + (if im.isModel then 16 else 0) : Nat) ≤ c.df)

/-- The time test of Table 08.4 for segments that must still fit, EPILOGUE last; it always passes in Fair-copy mode. -/
def timeTest (im : Image) (c : Cmd) (l : List Nat) : Bool :=
  c.fair || decide ((c.t + pathFcyc im (l ++ [sEpilogue]) : Nat) ≤ c.df)

/-- Start a segment of the command that holds the tiles: every tile at its first word (R181). -/
def startSegment (s : State) (p : Nat) (k : CmdKey) (c : Cmd) (im : Image) (kind : Nat) : State :=
  let entry := match im.seg? kind with | some g => g.entry | none => 0
  let c1 := { c with seg := kind, t := c.t + 8 + im.span kind,
                     st := if kind = sRefine ∨ kind = sEpilogue then CmdState.finish else CmdState.run }
  putCmd (modTiles s p (fun t => t.startAt c.slot entry)) p k c1

/-- A command takes the free tiles and starts: R222, then PROLOGUE, or BODY for a model (Table 08.7). -/
def startCommand (s : State) (p : Nat) (k : CmdKey) (c : Cmd) (im : Image) (t0 : Nat) : State :=
  let c0 := { c with t := t0 }
  if startTest im c0 t0 then
    let s1 := boundaryTiles s p
    let y := getPart s1 p
    let s2 := setPart s1 p { y with holder := some k, returned := y.returned && !ownsWindow s p k }
    startSegment s2 p k { c0 with st := .run } im (if im.isModel then sBody else sPrologue)
  else
    match k with
    | .entry j => gateDecide (putCmd s p k { c0 with stop := some .notStarted }) p j
    | .ring _ => s

/-- Where a posting's iterate lies in the instance space (assumption 8): at the start of the workspace (R178). -/
def iterateAddr (im : Image) : Nat := 4 * im.e + 4 * im.w + 2 * im.hdr.fBuf

/-- Words a posting holds: the iterate, and for an estimator the prior pair behind it (R268). -/
def postedWords (im : Image) : Nat :=
  if im.isEstimator then im.w + im.dims.nx + im.dims.nx * (im.dims.nx + 1) / 2 else im.w

/-- The iterate of every member, in member-slot order. -/
def iterates (s : State) (p : Nat) (im : Image) (c : Cmd) : List (Nat × List Word) :=
  c.members.filterMap (fun m =>
    ((getPart s p).inst? m.inst).map (fun i => (m.inst, memWords i.space (iterateAddr im) (postedWords im))))

/-- Make an intermediate posting (R183, R227): in Deadline mode one waits behind the one in check, and a newer one takes
its place. With the Assay clock at fault it fails as it arrives (R285). -/
def postIntermediate (s : State) (p : Nat) (k : CmdKey) (c : Cmd) (im : Image) : State × Cmd :=
  if !s.assay.clockOk then (s, { c with flags := c.flags ||| cfAssayFault })
  else
  let x := getPart s p
  let q : Posting := ⟨k, 0, c.iter, iterates s p im c⟩
  let mine := x.postings.filter (fun r => r.key = k)
  if mine.length ≤ 1 then (setPart s p { x with postings := x.postings ++ [q] }, c)
  else
    let kept := match x.postings with | h :: _ => [h] | [] => []
    (setPart s p { x with postings := kept ++ [q] }, { c with chkSkipped := satInc 8 c.chkSkipped })

/-- The local tick at which a ring's best-effort command was accepted. -/
def acceptedAt (s : State) (r : Nat) : Nat := match getBe s r with | some b => b.accepted | none => 0

/-- A place among waiting commands in acceptance order; those of one tick go by ring number (assumption 82). -/
def poolPlace (s : State) (r : Nat) : List Nat → List Nat
  | [] => [r]
  | q :: u =>
    if acceptedAt s r < acceptedAt s q ∨ (acceptedAt s r = acceptedAt s q ∧ r < q) then r :: q :: u else q :: poolPlace s r u

/-- A command joins the shared pool: behind the one in check, in acceptance order (R283). -/
def poolInsert (s : State) (r : Nat) : List Nat → List Nat
  | [] => [r]
  | h :: t => h :: poolPlace s r t

/-- Make the final posting (R227): it pre-empts every intermediate posting still waiting or in check. -/
def postFinal (s : State) (p : Nat) (k : CmdKey) (c : Cmd) (im : Image) : State :=
  let x := getPart s p
  match k with
  | .entry _ =>
    let lost := (x.postings.filter (fun r => r.key = k)).length
    let q : Posting := ⟨k, 1, c.iter, iterates s p im c⟩
    let s1 := setPart s p { x with postings := x.postings.filter (fun r => r.key ≠ k) ++ [q] }
    putCmd s1 p k { c with st := .verify, chkSkipped := satAdd 8 c.chkSkipped lost }
  | .ring r =>
    match getBe s r with
    | some b =>
      let s1 := setBe s r (some { b with posted := true, cmd := { c with
        st := .verify, members := c.members.map (fun m =>
          { m with final := (iterates s p im c).find? (fun e => e.1 == m.inst) |>.map (fun e => e.2) }) } })
      { s1 with assay := { s1.assay with beQueue := poolInsert s1 r s1.assay.beQueue } }
    | none => s

/-- A final posting that arrives with the Assay clock at fault has failed (R285): the gate decides at once. -/
def failFinal (s : State) (p : Nat) (k : CmdKey) : State :=
  let bad := fun (c : Cmd) => { c with members := c.members.map (fun m => { m with assayBad := true }) }
  match k with
  | .entry j =>
    match (getRun s p j).cmd with
    | some c => gateDecide (putCmd s p k (bad c)) p j
    | none => s
  | .ring r =>
    match getBe s r with
    | some b => setBe (dropPostings s p k) r (some { b with judged := true, cmd := { bad b.cmd with st := .gate } })
    | none => s

/-- What the chain does after a segment. -/
inductive Choice where
  | next (kind : Nat)
  | stop (r : StopReason)
  | infeasible
  | final
deriving DecidableEq, Repr

/-- STOP of a replay with STOP = RECORDED (R516): recorded ITER_DONE, STOP_REASON and REFINE segments. -/
structure RecStop where
  iter : Nat
  stop : Nat
  refine : Nat
deriving DecidableEq, Repr

def recordedStop (s : State) (p : Nat) (k : CmdKey) (c : Cmd) : Option RecStop :=
  match k with
  | .entry j =>
    if wbit (regGet s (bltOff 0xC0)) 31 then
      (recordedLaunch s p j c.launch).map (fun r =>
        ⟨fld (r.payload.getD 5 0) 15 0, fld (r.payload.getD 6 0) 7 5, fld (r.payload.getD 0 0) 21 20⟩)
    else none
  | .ring _ => none

def stopOfCode (n : Nat) : StopReason :=
  match n with
  | 0 => .converged
  | 1 => .iterMax
  | 2 => .deadline
  | 3 => .updateLimit
  | 4 => .infeasible
  | 5 => .breach
  | 6 => .notStarted
  | _ => .killed

/-- After an ITER segment (Table 08.3); the iteration count includes it. A recorded stop (R516) stays within the limits of R84. -/
def afterIter (im : Image) (c : Cmd) (d : Word) (rs : Option RecStop) : Choice :=
  let change := wbit d 1
  match rs with
  | some r =>
    if r.iter ≤ c.iter then (if r.stop = 4 then .infeasible else .stop (stopOfCode r.stop))
    else if im.iterMax ≤ c.iter then .stop .iterMax
    else if change && decide (im.rank1Max ≤ c.rank1) then .stop .updateLimit
    else if change then .next sUpdate else .next sIter
  | none =>
    if fld d 7 6 ≠ 0 then .infeasible
    else if wbit d 0 then .stop .converged
    else if im.iterMax ≤ c.iter then .stop .iterMax
    else if change && decide (c.rank1 = im.rank1Max) then .stop .updateLimit
    else if change then (if timeTest im c [sUpdate, sIter] then .next sUpdate else .stop .deadline)
    else if timeTest im c [sIter] then .next sIter
    else .stop .deadline

/-- An ITER segment that has not converged decides a change after RANK1_MAX modifications have run (R208), whichever stop row
of Table 08.3 comes first. -/
def limitHit (im : Image) (c : Cmd) (d : Word) : Bool := wbit d 1 && !wbit d 0 && decide (im.rank1Max ≤ c.rank1)

/-- After a stop row: REFINE when it may run, else EPILOGUE. -/
def afterStop (im : Image) (c : Cmd) (rs : Option RecStop) : Nat :=
  match rs with
  | some r => if 0 < r.refine ∧ 0 < im.refineMax then sRefine else sEpilogue
  | none => if 0 < im.refineMax && timeTest im c [sRefine] then sRefine else sEpilogue

/-- After a REFINE segment. -/
def afterRefine (im : Image) (c : Cmd) (d : Word) (rs : Option RecStop) : Nat :=
  match rs with
  | some r => if c.steps < r.refine ∧ c.steps < im.refineMax then sRefine else sEpilogue
  | none => if wbit d 2 || decide (im.refineMax ≤ c.steps) || !timeTest im c [sRefine] then sEpilogue else sRefine

/-- The bits a segment kind may set in its decision word (Tables 08.2, R254). -/
def decisionMask (im : Image) (kind : Nat) : Word :=
  if kind = sIter then (if im.hdr.method = 3 then 0xC3 else 0xC1)
  else if kind = sRefine then 0x04
  else if kind = sBody then 0x01
  else 0xFFFFFFFF

/-- A decision word that R217 faults. -/
def decisionBad (im : Image) (kind : Nat) (d : Word) : Bool :=
  decide (d &&& ~~~(decisionMask im kind) ≠ 0) || (decide (kind = sIter) && decide (fld d 7 6 = 3))

/-- A segment that has ended counts whatever follows it: an ITER in ITER_DONE (R220), an UPDATE in RANK1_USED (R207), a REFINE
in the steps, and in REFINE_USED when it applied a correction (R212); a decision word that R217 faults says nothing of it. -/
def Cmd.counted (c : Cmd) (d : Word) (bad : Bool) : Cmd :=
  if c.seg = sIter then { c with iter := satInc 16 c.iter }
  else if c.seg = sUpdate then { c with rank1 := c.rank1 + 1 }
  else if c.seg = sRefine then
    if bad then { c with steps := c.steps + 1 }
    else { c with steps := c.steps + 1, refine := if wbit d 2 then c.refine else c.refine + 1, refineOpen := !wbit d 2 }
  else c

/-- The decision word of a segment: the DECIDER tile's (R180, R181). -/
def decisionOf (s : State) (p : Nat) : Word :=
  ((getPart s p).pars.tiles.filterMap (fun t => (getTile s t).decision)).headD 0

/-- The DECIDER tile: the one that wrote the word, else the first. -/
def deciderTile (s : State) (p : Nat) : Nat :=
  let ts := (getPart s p).pars.tiles
  (ts.find? (fun t => (getTile s t).decision.isSome)).getD (ts.headD 0)

/-- Every tile has reached its SEGEND with nothing in flight (R180, R109). -/
def tilesEnded (s : State) (p : Nat) : Bool :=
  (getPart s p).pars.tiles.all (fun t => (getTile s t).ended && decide ((getTile s t).flight = []))

/-- The tile with a trap pending, lowest first (R108). -/
def trappedTile (s : State) (p : Nat) : Option Nat :=
  (getPart s p).pars.tiles.find? (fun t => decide ((getTile s t).trap ≠ 0))

/-- The fcyc a Fair-copy command waits for an intermediate verdict (R183): ⌈2.8·A⌉ + 6. -/
def fairWait (im : Image) (c : Cmd) : Nat := ceilDiv (28 * (rowOf im c.start true).aNs) 10 + 6

/-- The segment after the one just ended and counted, for a command that was not stopped by R219. -/
def chooseNext (s : State) (p : Nat) (k : CmdKey) (im : Image) (c : Cmd) (d : Word) : State :=
  let rs := recordedStop s p k c
  let go := fun (u : State) (c1 : Cmd) (kind : Nat) => startSegment u p k c1 im kind
  if c.seg = sPrologue ∧ c.start = .cold ∧ (im.seg? sColdInit).isSome then go s c sColdInit
  else if (c.seg = sPrologue ∨ c.seg = sColdInit) ∧ c.start ≠ .warm ∧ (im.seg? sFactor).isSome then go s c sFactor
  else if c.seg = sPrologue ∨ c.seg = sColdInit ∨ c.seg = sFactor then go s c sIter
  else if c.seg = sUpdate then go s c sIter
  else if c.seg = sIter then
    let lc := match k with | .entry _ => true | .ring _ => false
    let post := lc && decide (im.hdr.chkEvery ≠ 0) && decide (c.iter % im.hdr.chkEvery = 0) && decide (c.iter < im.iterMax)
    let (s1, c2) := if post then postIntermediate s p k c im else (s, c)
    let c3 := if post && c.fair && s.assay.clockOk then { c2 with t := c2.t + fairWait im c } else c2
    match afterIter im c3 d rs with
    | .next kind => go s1 c3 kind
    | .infeasible => go s1 { c3 with stop := some .infeasible } sEpilogue
    | .stop r =>
      let lim := decide (r = .updateLimit) || limitHit im c d
      go s1 { c3 with stop := some r, flags := c3.flags ||| cfIf lim cfUpdateLimit } (afterStop im c3 rs)
    | .final => s1
  else if c.seg = sRefine then
    go s c (afterRefine im c d rs)
  else
    -- EPILOGUE: the final check; the command leaves the fabric (R321)
    let s1 := postFinal s p k c im
    let s2 := leaveFabric (freeTiles s1 p) p k
    if s2.assay.clockOk then s2 else failFinal s2 p k

/-- The end of BODY of a latency-critical MODEL command (R258): its outputs and their commit. -/
def endBody (s : State) (p : Nat) (k : CmdKey) (im : Image) (c : Cmd) (words : List Word) : State :=
  let s2 := freeTiles (putCmd s p k c) p
  match k with
  | .entry j => gateModel s2 p j im c words
  | .ring _ => s2

/-- The boundary after a segment (R181, R218, R219): the segment counts, then breach, trap and decision-word fault first, then Table 08.3. -/
def segmentEnd (s : State) (p : Nat) (k : CmdKey) (im : Image) (c0 : Cmd) : State :=
  let d := decisionOf s p
  let model := decide (c0.seg = sBody)
  -- R258: a model's conversions are those of R251
  let out := match model, im.layers with
    | true, some l => modelWords (modelCfg im c0.fpcw) l c0.items
    | _, _ => ([], 0)
  let c := { c0.counted d (decisionBad im c0.seg d) with arith := c0.arith ||| out.2 }
  let breach := im.cert.isSome && decide (c.arith &&& breachMask ≠ 0)
  let dual := model && wbit d 0
  let c1 := { c with flags := c.flags ||| cfIf dual cfDualMismatch }
  if breach then breakBreach s p k c1
  else
    match trappedTile s p with
    | some t =>
      let tl := getTile s t
      breakTrap s p k c1 t tl.trap tl.pc tl.lastBar
    | none =>
      if model && decide (out.2 &&& c.fpcw.trapMask ≠ 0) then
        let t := (getPart s p).pars.tiles.headD 0
        breakTrap s p k c1 t (out.2 &&& c.fpcw.trapMask) (getTile s t).pc (getTile s t).lastBar
      else if decisionBad im c.seg d then breakFault s p k c1 cfDecisionWord (deciderTile s p)
      else if dual then breakFault s p k c1 cfDualMismatch (deciderTile s p)
      else if model then endBody s p k im c out.1
      else chooseNext s p k im c d

/-- A command waits for an intermediate verdict in Fair-copy mode (R183, R227). -/
def waitsVerdict (s : State) (p : Nat) (k : CmdKey) (c : Cmd) : Bool :=
  c.fair && (getPart s p).postings.any (fun q => decide (q.key = k))

/-- SEGMENT_BOUNDARY (R181): at the SEGEND of every tile the segment controller reads the decision word and chooses the
next segment. -/
def execSegmentBoundary (p : PartId) (s : State) : Result :=
  let x := getPart s p.val
  match x.holder, x.kill with
  | some k, none =>
    match getCmd s p.val k with
    | some c =>
      match cmdImage s p.val c with
      | some im =>
        let beModel := im.isModel && !im.isLc
        if tilesEnded s p.val && decide (c.st = .run ∨ c.st = .finish) && !waitsVerdict s p.val k c && !beModel then
          .next (segmentEnd s p.val k im c)
        else .next s
      | none => .next s
    | none => .next s
  | _, _ => .next s

end Sys2Proof.Machine
end

