-- ==== Sys2Proof/Machine/Launch.lean ====
section
/-! DEFINITION. Launches (chapters 02, 06, 08): the cutoff with its sets, the launch count with the warm-start tests and the
start case, verdicts of Assay, the deadline tick, and the re-run of a killed command. -/

namespace Sys2Proof.Machine

/-- Batch members in member-slot order. -/
def insertMember (i : Inst) : List Inst → List Inst
  | [] => [i]
  | x :: xs => if i.member < x.member then i :: x :: xs else x :: insertMember i xs

/-- The instances a launch entry names (R63, R257): the batch of its slot, or its instance, admitted at or before a
count. -/
def entryMembers (s : State) (p j : Nat) (by_ : Nat) : List Inst :=
  let x := getPart s p
  let k := entryImg s p j
  if entryBatch s p j then
    (x.insts.filter (fun i => i.batched && i.slot == k && decide (i.joinedAt ≤ by_) && !i.released)).foldl
      (fun l i => insertMember i l) []
  else
    match x.inst? (entryInst s p j) with
    | some i =>
      let home := match (x.slot k).img with
        | some im => if im.isModel then (match im.layers with | some l => l.srcSlot | none => k) else k
        | none => k
      if i.slot = home ∧ i.joinedAt ≤ by_ ∧ i.released = false then [i] else []
    | none => []

/-- The distinct entries of a list of sets. -/
def setsEntries (l : List QSet) : Nat := distinctEntries (l.flatMap (fun q => q.vals))

/-- Whole sets from the head of a queue within a capacity, of those accepted at or before the cutoff (R45, R46): taken, and left. -/
def takeSets (cap cut : Nat) : List QSet → List QSet → List QSet × List QSet
  | acc, [] => (acc, [])
  | acc, q :: t =>
    if q.at_ ≤ cut ∧ setsEntries (acc ++ [q]) ≤ cap then takeSets cap cut (acc ++ [q]) t else (acc, q :: t)

/-- The sets a replayed launch takes (R515): those up to its recorded ASN, none where it is 0. -/
def takeUpTo (asn : Word) : List QSet → List QSet × List QSet
  | [] => ([], [])
  | q :: t => if asn ≠ 0 ∧ (asn - q.asn).toNat < 2 ^ 31 then ((q :: (takeUpTo asn t).1), (takeUpTo asn t).2) else ([], q :: t)

/-- Apply a taken set to both copies (R39, R47), to the warm start (R53) and to the cached factor (Table 07.4). -/
def Inst.apply (im : Image) (i : Inst) (q : QSet) : Inst :=
  let factor := q.vals.any (fun v => (im.entries.getD v.1 default).factor)
  let space := q.vals.foldl (fun m v => memPutWord m (4 * v.1) v.2) i.space
  let copy := q.vals.foldl (fun (l : List Word) v => l.set v.1 v.2) i.assay
  { i with
    space := space, assay := copy,
    warm := match q.warm with | some w => some w | none => i.warm,
    factorValid := i.factorValid
      && !(((factor || (q.warm.isSome && decide (im.hdr.method = 3))) && (im.seg? 3).isSome))
    factorTaken := i.factorTaken || factor }

/-- An instance after a cutoff takes its sets; what a launch that did not start left taken counts for the next that does (R50,
assumption 71). -/
def Inst.takeCut (im : Image) (i : Inst) (tk : List QSet × List QSet) : Inst :=
  let i1 := tk.1.foldl (fun a q => Inst.apply im a q) { i with factorTaken := false }
  { i1 with
    queue := tk.2, takenSets := i.takenSets + tk.1.length
    takenAsn := match tk.1.getLast? with | some q => q.asn | none => i.takenAsn }

/-- A command state in which no set is taken for its instances (R48). -/
def CmdState.holds (x : CmdState) : Bool :=
  decide (x = .start ∨ x = .run ∨ x = .finish ∨ x = .verify ∨ x = .waitRerun)

/-- A SOLVE command of the instance, of a launch entry or of a ring, or a posting of it is still open (R48). A MODEL command on the
instance as its source holds nothing back (Table 09.8). -/
def instHeld (s : State) (p num : Nat) : Bool :=
  let x := getPart s p
  x.entries.any (fun e => match e.2.cmd with
    | some c => c.st.holds && c.members.any (fun m => m.inst == num)
        && !(match (x.slot c.slot).img with | some im => im.isModel | none => false)
    | none => false)
  || x.postings.any (fun q => q.words.any (fun w => w.1 == num))
  || s.be.any (fun e => match e.2 with
    | some b => decide (b.part = p ∧ b.model = false ∧ b.inst = num) && (b.cmd.st.holds || s.assay.beQueue.contains e.1)
    | none => false)

/-- The TICKS that governs the next cutoff (R540): after a lowering the old value stands until no queued set holds more
entries than the new capacity. -/
def ticksEff (s : State) (p : Nat) : Nat :=
  let x := getPart s p
  let new := fld (regGet s (fabOff p 0x10)) 12 0
  match x.oldTicks with
  | some t => if x.insts.any (fun i => i.queue.any (fun q => decide (64 * new < distinctEntries q.vals))) then t else new
  | none => new

/-- Take sets for one member at its cutoff tick. In a batch the capacity holds for each member by itself (DESIGN CHOICE, assumption
71). -/
def cutMember (s : State) (p j cap cut : Nat) (num : Nat) : State :=
  match (getPart s p).inst? num with
  | none => s
  | some i =>
    match (getSlot s p i.slot).img with
    | none => s
    | some im =>
      let tk := match recordedLaunch s p j (getRun s p j).next with
        | some r => takeUpTo (r.payload.getD 7 0) i.queue
        | none => takeSets cap cut [] i.queue
      putInst s p (i.takeCut im tk)

/-- Every set up to a recorded ASN has been accepted (R513). -/
def asnReached (s : State) (p : Nat) (asn : Word) : Bool :=
  decide (asn = 0) || decide ((regGet s (fabOff p 0x3C) - asn).toNat < 2 ^ 31)

/-- A replayed launch takes its sets only once all of them are accepted and nothing holds them up: its count waits (R513, R515). -/
def cutWaits (s : State) (p j : Nat) (blocked : Bool) : Bool :=
  isReplay s p && (blocked || inHold s || s.pwr.safe || (getPart s p).reshaping
    || !(match recordedLaunch s p j (getRun s p j).next with | some r => asnReached s p (r.payload.getD 7 0) | none => true))

/-- CUTOFF (R45 to R48): at tick L − TICKS whole sets are taken for launch L and applied; with a command or check of an
instance still open none is, and L does not start. In Hold, the safe state or a re-shape the sets wait (Table 02.8), also where that
state ends before L and the launch starts after all (DESIGN CHOICE, assumption 71). -/
def execCutoff (p : PartId) (j : EntryId) (s : State) : Result :=
  let e := getRun s p.val j.val
  let ticks := ticksEff s p.val
  if e.on && !e.cutDone && decide (e.next ≤ count s p.val + ticks) then
    let x := getPart s p.val
    let s0 := if ticks = fld (regGet s (fabOff p.val 0x10)) 12 0 then setPart s p.val { x with oldTicks := none } else s
    let isModel := match (x.slot (entryImg s p.val j.val)).img with | some im => im.isModel | none => false
    let cut := e.next - ticks
    let ms := if isModel then [] else entryMembers s p.val j.val cut
    let blocked := ms.any (fun i => instHeld s p.val i.num)
    let s1 := setRun s0 p.val j.val { e with cutDone := true, cutBlocked := blocked, cutTick := cut }
    if cutWaits s p.val j.val blocked then .next s
    else if blocked || inHold s || s.pwr.safe || x.reshaping then .next s1
    else .next (ms.foldl (fun t i => cutMember t p.val j.val (64 * ticks) cut i.num) s1)
  else .next s

-- the warm start (R56, R57, R567)

/-- The tests of Table 02.10: the reason and the age. A word with no certificate record has no range to break and passes test 4 (DESIGN
CHOICE, assumption 77). -/
def warmTest (im : Image) (i : Inst) (l : Nat) : WsReason × Nat :=
  match i.warm with
  | none => (.none, 0)
  | some w =>
    if w.sig ≠ im.hdr.sig then (.signature, 0)
    else
      let a := (l - w.src) / max 1 i.period
      if w.src ≤ l ∧ 1 ≤ a ∧ a ≤ min i.wsMaxAge (im.dims.stages - 1) then
        if w.words.zipIdx.all (fun e => match im.varRec? e.2 with
            | some r => inRange r.lo.toInt r.hi.toInt e.1.toInt
            | none => true)
        then (.used, a) else (.range, a)
      else (.stale, a)

/-- Shift one stage-aligned run of `n` words per stage, forward by a of N stages (R57). -/
def shiftRun (stages n a : Nat) (ws : List Word) : List Word :=
  ws.zipIdx.map (fun e =>
    if e.2 < stages * n then
      let k := e.2 / n
      ws.getD (min (k + a) (stages - 1) * n + e.2 % n) e.1
    else e.1)

/-- Shift the bits of the active-row bitmap with their rows. -/
def shiftBits (stages n a m : Nat) (ws : List Word) : List Word :=
  let bit := fun (i : Nat) => (ws.getD (i / 32) 0).getLsbD (i % 32)
  let src := fun (i : Nat) => if i < stages * n then min (i / n + a) (stages - 1) * n + i % n else i
  ws.zipIdx.map (fun e => (upTo 32).foldl (fun (w : Word) b =>
    let i := 32 * e.2 + b
    if i < m ∧ bit (src i) then w ||| put 1 b else w) 0)

/-- A warm start shifted by a stages (R57, R567). -/
def shiftWarm (im : Image) (a : Nat) (ws : List Word) : List Word :=
  let d := im.dims
  let ms := d.m / max 1 d.stages
  let x := shiftRun d.stages (d.nx + d.nu) a (ws.take d.n)
  let rows := fun (k : Nat) => shiftRun d.stages ms a ((ws.drop (d.n + k * d.m)).take d.m)
  if im.hdr.method = 3 then x ++ rows 0 ++ shiftBits d.stages ms a d.m (ws.drop (d.n + d.m))
  else x ++ rows 0 ++ rows 1

-- the launch

/-- Write a SKIP record and count the launch (R186): reasons of Table 19.2. -/
def skipLaunch (s : State) (p j reason : Nat) : State :=
  let e := getRun s p j
  let s1 := bltRecord (bump s (fabOff p 0x24)) kSkip p e.next [put j 26 ||| put reason 23, 0, 0, 0]
  let x := getPart s1 p
  let s2 := leaveFabric (setPart s1 p { x with holdSkips := if reason = 2 then x.holdSkips + 1 else x.holdSkips }) p (.entry j)
  let im := (getSlot s p (entryImg s p j)).img
  let s3 := match im with
    | some i => if i.isModel || (decide (reason = 3) && i.isEstimator) then staleTargets s2 i else s2
    | none => s2
  let release := e.next + entryRelease s p j
  let solve := match im with | some i => !i.isModel | none => false
  let held := solve && decide (entryMembers s p j e.next ≠ [])
  let e3 := getRun s3 p j
  setRun s3 p j { e3 with
    next := e.next + entryPeriod s p j, cutDone := false, cutBlocked := false
    rels := if held then e3.rels ++ [⟨release, none⟩] else e3.rels }

/-- What a launch froze or used of an instance, given back (R543). -/
def Inst.unfreeze (i b : Inst) : Inst :=
  { i with takenAsn := b.takenAsn, takenSets := b.takenSets, warm := b.warm, launched := b.launched
           upRefused := i.upRefused || b.upRefused, upStale := i.upStale || b.upStale }

/-- Withdraw the launch that started in this tick (R543, Table 21.15): it freezes nothing, writes no LAUNCH group and is counted
as skipped with reason 7; the sets its cutoff took stay applied. -/
def withdrawLaunch (s : State) (p j : Nat) (c : Cmd) : State :=
  let s1 := if (getPart s p).holder = some (.entry j) then freeTiles s p else s
  let s2 := c.before.foldl (fun t b =>
    match (getPart t p).inst? b.num with | some i => putInst t p (i.unfreeze b) | none => t) (dropPostings s1 p (.entry j))
  let e := getRun s2 p j
  let release := c.launch + entryRelease s p j
  skipLaunch (setRun s2 p j { e with cmd := none, next := c.launch, rels := e.rels.filter (fun r => r.count ≠ release) }) p j 7

/-- The reason a launch does not start, in the order the model takes them (Table 19.2; assumption 9). -/
def skipReason (s : State) (p j : Nat) : Option Nat :=
  let e := getRun s p j
  let x := getPart s p
  if s.pwr.safe then some 4
  else if inHold s then some 2
  else if x.reshaping then some 3
  else if e.cmd.isSome || e.cutBlocked then some 6
  else if entryMembers s p j e.cutTick = [] then some 0
  else if quadsRun s p = false then some 1
  else none

/-- The start case of one member (R187, R202): its warm-start result, its factor. -/
def memberCase (im : Image) (i : Inst) (r : WsReason) (age : Nat) : StartCase :=
  if im.isQp && decide (r ≠ .used) then .cold
  else if (im.seg? sFactor).isSome
      && (!i.factorValid || i.factorSkip
          || (decide (im.hdr.method = 3) && im.isQp && decide (i.wsShift = 1 ∧ 0 < age))) then .refac
  else .warm

/-- A member at its launch, and its instance with the frozen warm start written into its space (R49, R57, R178). -/
def startMember (im : Image) (i : Inst) (l : Nat) : Member × Inst :=
  let w := if im.isQp then warmTest im i l else (WsReason.none, 0)
  let used := decide (w.1 = .used)
  let words :=
    if im.isEstimator then i.carried
    else if used then i.warm.map (fun q => if i.wsShift = 1 then shiftWarm im w.2 q.words else q.words)
    else none
  let space := match words with | some ws => memPutWords i.space (4 * im.e) ws | none => i.space
  ({ inst := i.num, reason := w.1, start := memberCase im i w.1 w.2, age := w.2, first := !i.launched,
     upRefused := i.upRefused, upStale := i.upStale, asn := i.takenAsn, taken := i.takenSets, final := none, cert := none,
     best := none, mismatch := false, copyBad := false, assayBad := false },
   { i with
     space := space, upRefused := false, upStale := false, takenAsn := 0, takenSets := 0,
     warm := if im.isQp && !used then none else i.warm })

/-- The source instance of a MODEL launch (R257): it takes no set and tests no warm start. -/
def modelMember (im : Image) (i : Inst) (l : Nat) : Member × Inst :=
  let m := (startMember im i l).1
  ({ m with reason := .none, start := .warm, first := false, upRefused := false, upStale := false, asn := 0, taken := 0 }, i)

/-- The start case of a command (R187): COLD when a member starts cold, else REFAC when one needs its factor. -/
def batchCase (l : List Member) : StartCase :=
  if l.any (fun m => decide (m.start = .cold)) then .cold
  else if l.any (fun m => decide (m.start = .refac)) then .refac
  else .warm

/-- The launch entry of a source instance, its own or its batch's, for R255. -/
def sourceEntry (s : State) (p num : Nat) : Option Nat :=
  let batched := match (getPart s p).inst? num with | some i => if i.batched then some i.slot else none | none => none
  (upTo 64).find? (fun j => entryValid s p j
    && (if entryBatch s p j then decide (batched = some (entryImg s p j)) else decide (entryInst s p j = num))
    && (match (getSlot s p (entryImg s p j)).img with | some im => !im.isModel | none => false))

/-- One word of a source trajectory as a model input (R255): FP32 by R120, then BF16 by R117, with the flags of both. -/
def itemWord (fp : Fpcw) (w : Word) (m : Nat) : Nat × Arith :=
  let f := fixedToFloat fp32 fp.frnd false w (32 - m)
  let b := tensorConvert bf16 fp.satcvt (BitVec.ofNat 32 f.1)
  (b.1, f.2.arith ||| b.2.arith)

/-- The items of the LINDEF block, in the certified formats of their source words (R255, R256). -/
def linDefItems (src : Image) (l : Layers) (fp : Fpcw) : List (List (Nat × Arith)) :=
  (upTo l.batch).map (fun k => ((l.linDef.drop (k * l.inWords)).take l.inWords).zipIdx.map (fun e =>
    itemWord fp e.1 (match src.varRec? (k * l.inWords + e.2) with | some r => r.fmtM | none => 0)))

/-- The items of a MODEL launch at count L with their flags (R255), and whether they come from the defaults. -/
def modelItems (s : State) (p num : Nat) (im : Image) (fp : Fpcw) (launch : Nat) : List (List (Nat × Arith)) × Bool :=
  match im.layers with
  | none => ([], false)
  | some l =>
    match (getSlot s p l.srcSlot).img, sourceEntry s p num with
    | some src, some j =>
      let e := getRun s p j
      let i := (getPart s p).inst? num
      let t := match i.bind (fun x => x.traj) with
        | some t => if t.tick < launch then some t else i.bind (fun x => x.prevTraj)
        | none => none
      match t with
      | some t =>
        let period := max 1 (entryPeriod s p j)
        -- the entry's first launch at or after L, and its release
        let first := if launch ≤ e.next then e.next - (e.next - launch) / period * period else e.next
        let k := (first + entryRelease s p j - t.release) / period
        if k < src.dims.stages then
          ((upTo l.batch).map (fun n =>
            (stageWords src t.words (min (n + k) (src.dims.stages - 1))).map (fun e => itemWord fp e.1 e.2)), false)
        else (linDefItems src l fp, true)
      | none => (linDefItems src l fp, true)
    | some src, none => (linDefItems src l fp, true)
    | none, _ => ([], true)

/-- A command in START with its values frozen (R230). -/
def newCmd (s : State) (p j : Nat) (im : Image) (is : List Inst) (ms : List Member) (items : List (List (Nat × Arith)))
    (lin : Bool) : Cmd :=
  let st := batchCase ms
  let launch := (getRun s p j).next
  let ar := (items.flatten.map (fun e => e.2)).foldl (· ||| ·) 0
  { st := .start, launch := launch, slot := entryImg s p j, entry := j, thr := entryThr s p j, fpcw := entryFpcw s p j,
    fair := entryFair s p j, batch := entryBatch s p j, deadline := entryDeadline s p j,
    lt0 := s.lt - (count s p - launch), start := st,
    members := ms.map (fun m => { m with start := st }), t := 0, df := deadlineFcyc im st (entryDeadline s p j), seg := 0,
    iter := 0, rank1 := 0, refine := 0, steps := 0, refineOpen := false, stop := none, arith := ar,
    flags := cfIf lin cfLinDefault, firstTile := none, halted := none, piv := {}, chkSkipped := 0, held := false,
    endTime := 0, items := items.map (fun l => l.map (fun e => e.1)), itemArith := ar, before := is }

/-- Mark the first launch of each member that enters RUN (Table 08.6). -/
def markLaunched (s : State) (p : Nat) (c : Cmd) : State :=
  c.members.foldl (fun t m =>
    match (getPart t p).inst? m.inst with | some i => putInst t p { i with launched := true } | none => t) s

/-- The fcyc, counted from a command's fcyc 0, at which it starts in the present tick (R179, R221): at the tick's first, or where a
kill freed the tiles within it, at that one (R329). -/
def startFcyc (s : State) (p : Nat) (c : Cmd) : Nat :=
  let free := (getPart s p).tilesFree
  (if 7 * s.lt < free + 7 ∧ 7 * c.lt0 < free then free else 7 * s.lt) - 7 * c.lt0

/-- Start a command of a launch entry on free tiles (START to RUN), or end it by R222. -/
def startEntry (s : State) (p j : Nat) (c : Cmd) (im : Image) : State :=
  let t0 := startFcyc s p c
  let s1 := if startTest im c t0 && !im.isModel then markLaunched s p c else s
  startCommand s1 p (.entry j) c im t0

/-- LAUNCH (R230, Table 08.7): at the launch count, values freeze, the start case is decided and the command starts; or
the launch is skipped and counted. A best-effort command that holds the tiles is killed first (R21, R328); while the command of
another entry holds them the launch waits in START (assumption 83). -/
def execLaunch (p : PartId) (j : EntryId) (s : State) : Result :=
  let e := getRun s p.val j.val
  if !(e.on && e.cutDone && decide (e.next ≤ count s p.val)) then .next s
  else
    match skipReason s p.val j.val, (getSlot s p.val (entryImg s p.val j.val)).img with
    | some r, _ => .next (skipLaunch s p.val j.val r)
    | none, none => .next (skipLaunch s p.val j.val 0)
    | none, some im =>
      let is := entryMembers s p.val j.val e.cutTick
      let ms := is.map (fun i => if im.isModel then modelMember im i e.next else startMember im i e.next)
      let s1 := if im.isModel then s else ms.foldl (fun t m => putInst t p.val m.2) s
      let it := if im.isModel then
          modelItems s p.val (entryInst s p.val j.val) im (entryFpcw s p.val j.val) e.next
        else ([], false)
      let c := newCmd s p.val j.val im is (ms.map (fun m => m.1)) it.1 it.2
      let rel := if im.isModel then e.rels else e.rels ++ [⟨e.next + entryRelease s p.val j.val, none⟩]
      let s2 := setRun s1 p.val j.val { e with
        next := e.next + entryPeriod s p.val j.val, cutDone := false, cutBlocked := false, cmd := some c, rels := rel }
      match (getPart s2 p.val).holder with
      | none => .next (startEntry s2 p.val j.val c im)
      | some (.ring _) => .next (beginKill s2 p.val .window true [])
      | some (.entry _) => .next s2

/-- DEADLINE_TICK (R229, R341): in Deadline mode, at L + DEADLINE_TICKS a verdict not in hand is late and counts as failed,
and a command that still waits for its re-run has not started. -/
def execDeadlineTick (p : PartId) (j : EntryId) (s : State) : Result :=
  match (getRun s p.val j.val).cmd with
  | some c =>
    if !c.fair && decide (c.deadline ≤ elapsed s c) then
      if c.st = .verify then
        .next (gateDecide (putCmd s p.val (.entry j.val) { c with
          flags := c.flags ||| cfCheckLate,
          members := c.members.map (fun m => { m with final := none, cert := none }) }) p.val j.val)
      else if c.st = .waitRerun then
        .next (gateDecide (putCmd s p.val (.entry j.val) { c with stop := some .notStarted }) p.val j.val)
      else .next s
    else .next s
  | none => .next s

/-- The warm start or carried state of a re-run, written into each member's space as its launch wrote it (R239). -/
def rerunSpace (s : State) (p : Nat) (im : Image) (c : Cmd) : State :=
  c.members.foldl (fun t m =>
    match (getPart t p).inst? m.inst with
    | some i =>
      let words :=
        if im.isEstimator then i.carried
        else if m.reason = .used then i.warm.map (fun q => if i.wsShift = 1 then shiftWarm im m.age q.words else q.words)
        else none
      match words with
      | some ws => putInst t p { i with space := memPutWords i.space (4 * im.e) ws }
      | none => t
    | none => t) s

/-- RERUN_START (R230, R239): a killed command starts again from its frozen values once the partition may launch. -/
def execRerunStart (p : PartId) (j : EntryId) (s : State) : Result :=
  let x := getPart s p.val
  match (getRun s p.val j.val).cmd with
  | some c =>
    match cmdImage s p.val c with
    | some im =>
      if decide ((c.st = .waitRerun ∨ c.st = .start) ∧ x.holder = none ∧ x.kill = none) && !inHold s && !x.reshaping
          && quadsRun s p.val then
        let c1 := { c with st := CmdState.start }
        .next (startEntry (if im.isModel then s else rerunSpace s p.val im c) p.val j.val c1 im)
      else .next s
    | none => .next s
  | none => .next s

-- verdicts (R276 to R285)

/-- A partition's verdicts count as failed (R284, R285). -/
def assayFails (s : State) (p : Nat) : Bool :=
  !s.assay.clockOk || (groupLanes s p).any (fun l => s.assay.faulty.getLsbD l)

/-- The CERT record of a certificate (Table 19.2). -/
def certRecord (s : State) (p entry : Nat) (c : AssayCert) : State :=
  bltRecord s kCert p (lc s) ([put entry 26, 0, 0, 0] ++ c.words)

/-- A recorded certificate lets a replayed posting be a candidate (R516). -/
def recordedCert (s : State) (p entry inst iter : Nat) : Bool :=
  s.blt.replay.window.any (fun r => decide (r.kind = kCert ∧ r.src = p ∧ fld (r.payload.getD 0 0) 31 26 = entry)
    && decide (fld (r.payload.getD 5 0) 31 16 = iter ∧ fld (r.payload.getD 5 0) 9 0 = inst ∧ fld (r.payload.getD 4 0) 23 22 = 0))

/-- A smaller gap, or an equal one, makes a later iterate the best (R228). -/
def betterGap (a b : AssayCert) : Bool :=
  decide (cmpVal (fp64.unpack a.gap.toNat) (fp64.unpack b.gap.toNat) ≤ 0)

/-- Hand the verdict on an intermediate posting to a member. -/
def Member.takeBest (m : Member) (iter : Nat) (ws : List Word) (c : AssayCert) : Member :=
  match m.best with
  | some b => if betterGap c b.cert then { m with best := some ⟨iter, ws, c⟩ } else m
  | none => { m with best := some ⟨iter, ws, c⟩ }

/-- Check one instance's words of a posting (R268). -/
def checkOne (s : State) (p : Nat) (im : Image) (inst thr kind iter : Nat) (ws : List Word) : Option AssayCert :=
  ((getPart s p).inst? inst).map (fun i => assayCheck im i ws thr kind iter)

/-- The verdict on the oldest posting of a launch entry's command. -/
def entryVerdict (s : State) (p j : Nat) (q : Posting) (fault : VerdictFault) : State :=
  let x := getPart s p
  let s0 := setPart s p { x with postings := x.postings.drop 1 }
  match (getRun s p j).cmd with
  | none => s0
  | some c =>
    match cmdImage s p c with
    | none => s0
    | some im =>
      -- with the Assay clock at fault no check runs and no certificate is stamped (R285)
      let certs := q.words.map (fun w =>
        (w.1, w.2, if s.assay.clockOk then checkOne s p im w.1 c.thr q.kind q.iter w.2 else none))
      let s1 := certs.foldl (fun t e => match e.2.2 with | some k => certRecord t p j k | none => t) s0
      let bad := assayFails s p
      let wrong := decide (fault = .misrouted)
      let torn := decide (fault = .corrupted)
      let seen := cfIf wrong cfCertMismatch ||| cfIf torn cfCopyMismatch ||| cfIf bad cfAssayFault
      let rec_ := recordedStop s p (.entry j) c
      let ms := c.members.map (fun m =>
        match certs.find? (fun e => e.1 == m.inst) with
        | some (_, ws, some k) =>
          if q.kind = 0 then
            let cand := match rec_ with | some _ => recordedCert s p j m.inst q.iter | none => true
            if k.pass && !bad && !wrong && !torn && cand then m.takeBest q.iter ws k else m
          else { m with final := some ws, cert := some k, mismatch := wrong, copyBad := torn, assayBad := bad }
        | some (_, _, none) => if q.kind = 0 then m else { m with assayBad := bad }
        | none => m)
      let s2 := if wrong || torn then writeFault s1 { faultOf 0x05 p with inst := (c.members.headD default).inst } else s1
      let recLate := match recordedLaunch s p j c.launch, rec_ with
        | some r, some _ => decide ((word64 (r.payload.getD 12 0) (r.payload.getD 13 0)) &&& cfCheckLate ≠ 0)
        | _, _ => false
      let late := (!c.fair && decide (c.deadline < elapsed s c)) || recLate
      -- an intermediate posting that failed by R278, R284 or R285 leaves its flag on the command
      if q.kind = 0 then putCmd s2 p (.entry j) { c with members := ms, flags := c.flags ||| seen }
      else
        let c1 := { c with members := if late then ms.map (fun m => { m with final := none, cert := none }) else ms,
                           flags := c.flags ||| cfIf late cfCheckLate }
        gateDecide (putCmd s2 p (.entry j) c1) p j

/-- The verdict on the best-effort command at the head of the shared pool (R283); BE_COMMIT acts on it. -/
def poolVerdict (s : State) (p r : Nat) (b : BeCmd) (fault : VerdictFault) : State :=
  let s0 := { s with assay := { s.assay with beQueue := s.assay.beQueue.drop 1 } }
  match cmdImage s p b.cmd with
  | none => s0
  | some im =>
    match b.cmd.members with
    | [] => s0
    | m :: _ =>
      let ws := m.final.getD []
      let k0 := if s.assay.clockOk then checkOne s p im m.inst b.cmd.thr 2 b.cmd.iter ws else none
      let k := if im.thr.isSome then k0 else k0.map (fun c => { c with thr := 0, nan := c.nan, fails := 0, pass := false })
      let s1 := match k with | some c => certRecord s0 p 0 c | none => s0
      let m1 := { m with cert := k, mismatch := decide (fault = .misrouted), copyBad := decide (fault = .corrupted),
                         assayBad := !s.assay.clockOk }
      let s2 := if fault ≠ .none then writeFault s1 { faultOf 0x05 p with ctx := b.ctx, inst := m.inst } else s1
      setBe s2 r (some { b with judged := true, cmd := { b.cmd with st := .gate, members := [m1] } })

/-- The verdict on the oldest posting of a partition. -/
def partVerdict (s : State) (p : Nat) (fault : VerdictFault) : State :=
  match (getPart s p).postings with
  | q :: _ =>
    match q.key with
    | .entry j => entryVerdict s p j q fault
    | .ring _ => s
  | [] => s

/-- ASSAY_VERDICT (R274, R276): the check of the oldest posting of the partition ends; with none, that of the best-effort
command at the head of the pool. -/
def execAssayVerdict (p : PartId) (fault : VerdictFault) (s : State) : Result :=
  match (getPart s p.val).postings with
  | _ :: _ => .next (partVerdict s p.val fault)
  | [] =>
    match s.assay.beQueue with
    | r :: _ =>
      match getBe s r with
      | some b => if b.part = p.val then .next (poolVerdict s p.val r b fault) else .next s
      | none => .next s
    | [] => .next s

end Sys2Proof.Machine
end

