-- ==== Sys2Proof/Machine/Quads.lean ====
section
/-! DEFINITION. The quads of the fabric as power domains (R166, R469 to R471, Table 17.6): their tiles and partitions, and lowering an idle
one. -/

namespace Sys2Proof.Machine

/-- A lower state comes later in this order. -/
def depthOf : PowerState → Nat
  | .run => 0
  | .gated => 1
  | .retain => 2
  | .off => 3

def powerOfCode (n : Nat) : PowerState := if n = 0 then .run else if n = 1 then .gated else if n = 2 then .retain else .off

/-- The logical tiles of a quad: PD 4c + q holds physical column c, rows 4q to 4q + 3; a skipped position is no tile. -/
def quadTiles (s : State) (d : Nat) : List Nat :=
  (upTo 4).filterMap (fun i =>
    let row := 4 * (d % 4) + i
    (logCol s row (d / 4)).bind (fun c => if c < 15 then some (15 * row + c) else none))

/-- The partitions with a tile in a quad. -/
def quadParts (s : State) (d : Nat) : List Nat :=
  (upTo 16).filter (fun p => (getPart s p).on && (quadTiles s d).any (fun t => (getPart s p).pars.tiles.contains t))

/-- A quad is idle: no command of a partition with tiles in it holds tiles (R166). -/
def quadIdle (s : State) (d : Nat) : Bool :=
  (quadParts s d).all (fun p => (getPart s p).holder.isNone && (getPart s p).kill.isNone)

/-- The floor of the quad's partitions (R471). -/
def quadFloor (s : State) (d : Nat) : Nat :=
  (quadParts s d).foldl (fun m p => min m (let w := regGet s (pwrOff 0); fld w (2 * p + 1) (2 * p))) 3

/-- Every tile of a quad as a lower state leaves it: Clock-gated keeps all, Retain keeps stroke memory, Off nothing. -/
def lowerTiles (s : State) (d : Nat) (st : PowerState) : State :=
  (quadTiles s d).foldl (fun t i =>
    match st with
    | .run | .gated => t
    | .retain => setTile t i (getTile t i).boundary
    | .off => setTile t i Tile.reset) s

/-- Lower a domain; the eight GDDR6 PHY pairs move together (R470). -/
def lowerDom (s : State) (d : Nat) (st : PowerState) : State :=
  if 76 ≤ d ∧ d < 84 then (upTo 8).foldl (fun t i => setDom t (76 + i) st) s
  else if d < 64 then setDom (lowerTiles s d st) d st
  else setDom s d st

/-- Lower an idle quad to a state, within its floor. -/
def lowerQuad (s : State) (d : Nat) (st : PowerState) : State :=
  let q := powerOfCode (min (depthOf st) (quadFloor s d))
  if quadIdle s d && decide (depthOf (domState s d) < depthOf q) then lowerDom s d q else s

/-- A partition with tiles in the quad has a valid launch entry, so needs the quad for its next launch (R166, R339). -/
def quadNeeded (s : State) (d : Nat) : Bool :=
  (quadParts s d).any (fun p => (upTo 64).any (fun j => (getRun s p j).on))

/-- In Hold every quad that no partition needs for its next launch is clock-gated (R339), as soon as it is idle. -/
def gateQuads (s : State) : State := (upTo 64).foldl (fun t d => if quadNeeded t d then t else lowerQuad t d .gated) s

end Sys2Proof.Machine
end

