-- ==== Sys2Proof/Machine/BestEffort.lean ====
section
/-! DEFINITION. Best-effort work (chapters 09, 12, 13): the descriptors BE_SOLVE and BE_MODEL, the slot table's windows, the
choice of the next candidate, kills and their end, kernels, and the best-effort commit with its semaphores. -/

namespace Sys2Proof.Machine

/-- The aged budget of a cycle (R326). -/
def agedBudget (s : State) (p : Nat) : Nat := (getPart s p).pars.agedShare * openTicks s p / 16

/-- At a new cycle the budget starts afresh, less the overrun of the last (R326). -/
def rollCycle (s : State) (p : Nat) : State :=
  let x := getPart s p
  let c := cycleNo s p (count s p)
  if c = x.cycle then s
  else setPart s p { x with cycle := c, agedLeft := agedBudget s p - x.agedOver, agedOver := 0 }

/-- A tick in which an AGED-band command holds the tiles counts against the budget (R326). -/
def chargeAged (s : State) (p : Nat) : State :=
  let x := getPart s p
  match x.holder with
  | some (.ring r) =>
    match getBe s r with
    | some b =>
      if b.aged && !b.free then
        if 0 < x.agedLeft then setPart s p { x with agedLeft := x.agedLeft - 1 }
        else setPart s p { x with agedOver := x.agedOver + 1 }
      else s
    | none => s
  | _ => s

-- the descriptors

/-- GDDR6 bytes free for workspaces (R260, Table 16.5). -/
def workspaceFree (s : State) : Nat :=
  let w := regGet s 0x400080
  15 * 2 ^ 30 - 64 * 2 ^ 20 - fld w 10 0 * 2 ^ 20 - fld w 28 16 * 2 ^ 20 - s.mem.wsUsed

/-- Where a workspace goes: the lowest offset of the region, at its start or behind another workspace, whose bytes no other holds
(assumption 86). -/
def placeWs (s : State) (n : Nat) : Nat :=
  let held := s.be.filterMap (fun e => e.2.bind (fun b => if 0 < b.ws then some (b.wsAt, b.ws) else none))
  let fits := fun (a : Nat) => held.all (fun h => decide (a + n ≤ h.1 ∨ h.1 + h.2 ≤ a))
  (0 :: held.map (fun h => h.1 + h.2)).foldl (fun (b : Option Nat) a =>
    if fits a then (match b with | some x => some (min x a) | none => some a) else b) none |>.getD 0

/-- Fields of a best-effort descriptor (Table 13.5). -/
def Item.thr (i : Item) : Nat := fld (i.word 8) 21 14
def Item.beInst (i : Item) : Nat := fld (i.word 8) 31 22
def Item.nItems (i : Item) : Nat := fld (i.word 8) 8 0
def Item.fpcw (i : Item) : Fpcw := BitVec.ofNat 16 (fld (i.word 9) 31 16)

/-- An empty command of a ring, which starts when it is chosen. -/
def ringCmd (slot thr : Nat) (fp : Fpcw) : Cmd :=
  { st := .wait, launch := 0, slot := slot, entry := 0, thr := thr, fpcw := fp, fair := true, batch := false, deadline := 0, lt0 := 0,
    start := .warm, members := [], t := 0, df := 0, seg := 0, iter := 0, rank1 := 0, refine := 0, steps := 0,
    refineOpen := false, stop := none, arith := 0, flags := 0, firstTile := none, halted := none, piv := {}, chkSkipped := 0,
    held := false, endTime := 0, items := [], itemArith := 0, before := [] }

/-- A best-effort command as its descriptor gives it. -/
def beOf (s : State) (c r : Nat) (i : Item) (model : Bool) (ws at_ : Nat) : BeCmd :=
  { ctx := c, ring := r, part := (getCtx s c).part, model := model, slot := i.slot, inst := if model then 0 else i.beInst,
    addr := i.addr, bytes := i.bytes, items := i.nItems, inAddr := (word64 (i.word 12) (i.word 13)).toNat,
    inBytes := (i.word 14).toNat, sem := i.word 10, headTick := (getRing s c r).headTick, accepted := i.tick,
    firstStart := none,
    cmd := ringCmd i.slot (if model then 0 else i.thr) i.fpcw, input := [], ws := ws, wsAt := at_, cursor := 0, staged := false,
    stageBytes := 0, tensors := [], keptArith := 0, keptPiv := {},
    outputs := [], posted := false, judged := false, linkWait := false, outLink := none, outGrp := none, aged := false, free := false }

/-- The slot of a best-effort descriptor: a best-effort image of the class the opcode runs. -/
def beImage (s : State) (c slot : Nat) (model : Bool) : (Nat × Nat) ⊕ Image :=
  let k := getSlot s (getCtx s c).part slot
  match k.img, k.unbinding with
  | some im, none => if im.isLc ∨ im.isModel ≠ model then .inl (stStructure, 9) else .inr im
  | _, _ => .inl (stImage, 0xC)

/-- BE_SOLVE (R352, R242): judged when it reaches the head of its ring; then it waits to be chosen. -/
def execBeSolve (c : CtxId) (r : RingId) (s : State) : Result :=
  match headOp s c.val r.val 0x05 with
  | none => .next s
  | some i =>
    match beImage s c.val i.slot false with
    | .inl e => .next (finishItem s c.val r.val e.1 e.2)
    | .inr im =>
      let ok := match (getPart s (getCtx s c.val).part).inst? i.beInst with
        | some t => !t.released && decide (t.slot = i.slot)
        | none => false
      let thrOk := match im.thr with | some t => decide (i.thr < t.sets.length) | none => true
      if !ok then .next (finishItem s c.val r.val stAdmit 1)
      else if !thrOk then .next (finishItem s c.val r.val stStructure 2)
      else if i.bytes < 4 * im.w then .next (finishItem s c.val r.val stStructure 8)
      else .next (setBe (beginItem s c.val r.val) (8 * c.val + r.val) (some (beOf s c.val r.val i false 0 0)))

/-- Input bytes of a BE_MODEL (Table 13.5). -/
def modelInputBytes (l : Layers) (items : Nat) : Nat :=
  match l.layers.head? with | some q => elemBytes (tfmtOf q.aFmt) (items * l.inWords) | none => 0

/-- BE_MODEL (R352, R260): reserves its GDDR6 workspace, or completes FAIL_ADMIT, cause WORKSPACE. -/
def execBeModel (c : CtxId) (r : RingId) (s : State) : Result :=
  match headOp s c.val r.val 0x06 with
  | none => .next s
  | some i =>
    match beImage s c.val i.slot true with
    | .inl e => .next (finishItem s c.val r.val e.1 e.2)
    | .inr im =>
      match im.layers with
      | none => .next (finishItem s c.val r.val stImage 0xC)
      | some l =>
        if i.nItems = 0 ∨ l.batch < i.nItems then .next (finishItem s c.val r.val stStructure 2)
        else if i.bytes < 8 * i.nItems ∨ (i.word 14).toNat ≠ modelInputBytes l i.nItems then
          .next (finishItem s c.val r.val stStructure 8)
        else if workspaceFree s < l.wsBytes then .next (finishItem s c.val r.val stAdmit 7)
        else
          let s1 := { s with mem := { s.mem with wsUsed := s.mem.wsUsed + l.wsBytes } }
          .next (setBe (beginItem s1 c.val r.val) (8 * c.val + r.val) (some (beOf s c.val r.val i true l.wsBytes (placeWs s l.wsBytes))))

-- starts (R322 to R327)

/-- Semaphore fields of a descriptor's SEM word. -/
def semWait (w : Word) : Option Nat := if wbit w 31 then some (fld w 30 23) else none
def semSignal (w : Word) : Option Nat := if wbit w 22 then some (fld w 21 14) else none

/-- A command that may be chosen: it waits, its ring is not paused, and its wait semaphore counts 1 or more (R331). -/
def isCandidate (s : State) (p r : Nat) : Bool :=
  match getBe s r with
  | some b =>
    let g := getRing s (r / 8) (r % 8)
    decide (b.part = p ∧ (b.cmd.st = .wait ∨ b.cmd.st = .waitRerun)) && !g.paused
      && (match semWait b.sem with | some n => decide (1 ≤ semGet s n) | none => true)
      && (getSlot s p b.slot).unbinding.isNone && (getSlot s p b.slot).img.isSome
  | none => false

/-- The AGED band (R323). -/
def isAged (s : State) (p r : Nat) : Bool :=
  let age := fld (regGet s (fabOff p 0x0C)) 23 0
  match getBe s r with
  | some b => decide (age ≠ 0) && decide (age ≤ s.lt - b.headTick)
  | none => false

/-- The AGED candidate with the earliest head tick; a tie goes to the lower ring number (R325). -/
def agedFirst (s : State) (p : Nat) : Option Nat :=
  ((upTo 512).filter (fun r => isCandidate s p r && isAged s p r)).foldl (fun (b : Option Nat) r =>
    match b, getBe s r with
    | none, _ => some r
    | some q, some x => (match getBe s q with
        | some y => if x.headTick < y.headTick then some r else some q
        | none => some r)
    | some q, none => some q) none

/-- The next NORMAL candidate in round-robin order, after the queue served last (R325). -/
def normalNext (s : State) (p : Nat) : Option Nat :=
  let l := (upTo 512).filter (fun r => isCandidate s p r && !isAged s p r)
  match l.find? (fun r => decide ((getPart s p).rrLast ≤ r)) with
  | some r => some r
  | none => l.head?

/-- The choice of R325: the ring, whether it is AGED, and whether step 3 granted it. -/
def chooseBe (s : State) (p : Nat) : Option (Nat × Bool × Bool) :=
  let isOpen := openTick s p (count s p)
  match (if isOpen && decide (0 < (getPart s p).agedLeft) then agedFirst s p else none) with
  | some r => some (r, true, false)
  | none =>
    match normalNext s p with
    | some r => some (r, false, false)
    | none => if isOpen then (agedFirst s p).map (fun r => (r, true, true)) else none

/-- The logical tile of a relative row and column (R315). -/
def relTile (q : PartParams) (row col : Nat) : Nat := 15 * (q.rows.getD row 0) + q.origin + col

/-- Load an image's strokes into its partition's tiles (R146, R171): each word with the annotations of its slots. -/
def loadStrokes (s : State) (p k : Nat) (ovl : Bool) (blocks : List (TileBlock × List StoredWord)) : State :=
  blocks.foldl (fun t b =>
    let n := relTile (getPart t p).pars b.1.row b.1.col
    let u := getTile t n
    setTile t n { u with strokes := b.2.zipIdx.foldl (fun m e =>
      tblInsert m (b.1.start + e.2) { e.1 with slot := k, overlay := ovl }) u.strokes }) s

/-- Remove an image's strokes from its partition's tiles. -/
def dropStrokes (s : State) (p : Nat) (f : StoredWord → Bool) : State :=
  modTiles s p (fun t => { t with strokes := t.strokes.filter (fun e => !f e.2) })

/-- How many ANNOTATION records a stroke slot takes: those slots that write fixed point (Table 06.2; assumption 7). -/
def slotAnnotated (im : Image) (sl : Nat) : Bool :=
  let cls := sl / 2 ^ 58 % 4
  let op := sl / 2 ^ 53 % 32
  if cls = 0 then decide (1 ≤ op ∧ op ≤ 3) || decide (6 ≤ op ∧ op ≤ 0x0A)
  else if cls = 1 then decide (op = 0x0A) && decide (4 ≤ sl / 2 ^ 21 % 16)
  else if cls = 2 then decide (1 ≤ op ∧ op ≤ 3) && (decide (sl / 2 ^ 9 % 4 = 2) || decide (op = 1))
  else decide (op = 3) && decide (sl / 2 ^ 18 % 4 = 1) && decide (sl / 2 ^ 32 % 2 ^ 21 * 32 < 4 * im.e)

/-- The slots of a stroke word, SLOT0 first; a control word has none. -/
def wordSlots (w : BitVec 128) : List Nat :=
  if w.toNat / 2 ^ 125 = 0 then [w.toNat % 2 ^ 60, w.toNat / 2 ^ 60 % 2 ^ 60] else []

/-- Pair the stroke words of an image with its ANNOTATION records in section order (assumption 7). -/
def annotateWord (im : Image) (anns : List AnnRec) (w : BitVec 128) : StoredWord × List AnnRec :=
  match wordSlots w with
  | [a, b] =>
    let (n0, r0) := if slotAnnotated im a then (anns.head?, anns.drop 1) else (none, anns)
    let (n1, r1) := if slotAnnotated im b then (r0.head?, r0.drop 1) else (none, r0)
    (⟨w, 0, false, n0, n1⟩, r1)
  | _ => (⟨w, 0, false, none, none⟩, anns)

def annotateWords (im : Image) : List AnnRec → List (BitVec 128) → List StoredWord × List AnnRec
  | anns, [] => ([], anns)
  | anns, w :: t =>
    let a := annotateWord im anns w
    let b := annotateWords im a.2 t
    (a.1 :: b.1, b.2)

def annotateBlocks (im : Image) : List AnnRec → List TileBlock → List (TileBlock × List StoredWord)
  | _, [] => []
  | anns, b :: t =>
    let a := annotateWords im anns b.words
    (b, a.1) :: annotateBlocks im a.2 t

/-- The strokes of an image with their annotations. -/
def Image.stored (im : Image) : List (TileBlock × List StoredWord) := annotateBlocks im im.anns im.strokes

/-- A member of a best-effort SOLVE command at its first start (R239; assumption 37): its instance takes its queued sets as
at a cutoff, unless another command or check of it is open (R48), and the warm start is tested and frozen. -/
def beMember (s : State) (p num : Nat) (im : Image) (l : Nat) : Option (Member × State) :=
  match (getPart s p).inst? num with
  | none => none
  | some i0 =>
    let i := if instHeld s p num then i0 else i0.takeCut im (takeSets (pendingCapacity s p) l [] i0.queue)
    let m := startMember im i l
    some (m.1, putInst s p { m.2 with launched := true })

/-- Bytes as packed elements of the input format of a model. -/
def inputItems (l : Layers) (bytes : List Byte) (items : Nat) : List (List Nat) :=
  let t := match l.layers.head? with | some q => tfmtOf q.aFmt | none => .int8
  let es := unpackElems t bytes
  (upTo items).map (fun k => (es.drop (k * l.inWords)).take l.inWords)

/-- The first start of a best-effort command freezes its values (R239). -/
def firstStart (s : State) (p : Nat) (b : BeCmd) (im : Image) : State × BeCmd :=
  let l := count s p
  if b.model then
    let input := memBytes (hostMem s (getCtx s b.ctx)) b.inAddr b.inBytes
    let items := match im.layers with | some y => inputItems y input b.items | none => []
    (s, { b with firstStart := some l, input := input, cmd := { b.cmd with launch := l, items := items } })
  else
    match beMember s p b.inst im l with
    | some (m, s1) =>
      (s1, { b with firstStart := some l, cmd := { b.cmd with launch := l, start := m.start, members := [m] } })
    | none => (s, { b with firstStart := some l })

/-- At throttle level k best-effort commands hold no more than (8 − k)/8 of the open and returned ticks of a millisecond, and
none starts at level 8 (R475). -/
def throttleAllows (s : State) (x : Part) : Bool :=
  let k := fld (regGet s (pwrOff 0x3C)) 3 0
  decide (k < 8) && decide (8 * x.msUsed ≤ (8 - k) * x.msAvail)

/-- Complete a waiting best-effort command with a status alone: it commits nothing (R234, R258), its workspace is freed (R260), and
so is an instance whose release waited for it (R64). -/
def dropBe (s : State) (r status cause : Nat) : State :=
  match getBe s r with
  | none => s
  | some b =>
    let s1 := staleOf s b.part b.slot
    freeReleased (finishItem (setBe { s1 with mem := { s1.mem with wsUsed := s1.mem.wsUsed - b.ws } } r none) b.ctx b.ring status cause)
      b.part

/-- A best-effort SOLVE that starts for the first time finds its instance no longer admitted (R64). -/
def instGone (s : State) (p : Nat) (b : BeCmd) : Bool :=
  !b.model && b.firstStart.isNone && (match (getPart s p).inst? b.inst with
    | some i => i.released || decide (i.slot ≠ b.slot)
    | none => true)

/-- A MODEL command whose kernels have all ended, put back by its semaphore (R331): its re-run has only the commit left. -/
def kernelsDone (im : Image) (b : BeCmd) : Bool :=
  b.model && (match im.layers with | some l => decide (l.kernels.length ≤ b.cursor) && decide (l.kernels ≠ []) | none => false)

/-- BE_START (R322 to R327): with the tiles free in an open or returned tick, Ferrule's choice starts at once; its overlay
strokes are loaded. At throttle level 8, in Hold, in a re-shape or in the safe state none starts (R475, R339). A SOLVE whose instance
has been released completes FAIL_ADMIT (R64; assumption 84). -/
def execBeStart (p : PartId) (s0 : State) : Result :=
  let s := rollCycle s0 p.val
  let x := getPart s p.val
  if !(x.on && freeTick s p.val) || decide (x.holder ≠ none ∨ x.kill ≠ none) || inHold s || x.reshaping || s.pwr.safe
      || !throttleAllows s x || !quadsRun s p.val then .next s0
  else
    match chooseBe s p.val with
    | none => .next s0
    | some (r, aged, granted) =>
      match getBe s r with
      | none => .next s0
      | some b =>
        match (getSlot s p.val b.slot).img with
        | none => .next s0
        | some im =>
          if instGone s p.val b then .next (dropBe s r stAdmit 1)
          else if kernelsDone im b then .next (setBe s r (some { b with cmd := { b.cmd with st := .gate } }))
          else
          let (s1, b1) := if b.firstStart.isNone then firstStart s p.val b im else (rerunSpace s p.val im b.cmd, b)
          let wait := s.lt - b.headTick
          let off := fabOff p.val 0x20
          let s2 := if (regGet s1 off).toNat < wait then regSet s1 off (BitVec.ofNat 32 (min wait (2 ^ 32 - 1))) else s1
          let y := getPart s2 p.val
          let s3 := setPart s2 p.val { y with rrLast := r + 1 }
          let s4 := setBe s3 r (some { b1 with aged := aged, free := granted, posted := false, judged := false, staged := false })
          let s5 := loadStrokes (dropStrokes s4 p.val (fun w => w.overlay)) p.val b.slot true im.stored
          if b.model then
            let s6 := boundaryTiles s5 p.val
            let s7 := setPart s6 p.val { getPart s6 p.val with holder := some (.ring r) }
            .next (putCmd s7 p.val (.ring r) { b1.cmd with st := .run, seg := sBody })
          else .next (startCommand s5 p.val (.ring r) b1.cmd im 0)

/-- The owner of a window has a launch in it: a command that has not left the fabric, or a launch count before its end (R321). -/
def ownerComes (s : State) (p : Nat) (w : Window) : Bool :=
  let e := getRun s p w.owner
  let left := match cycleTick s p (count s p) with | some t => w.start + w.length - t | none => 0
  (match e.cmd with
    | some c => decide (c.st = .start ∨ c.st = .run ∨ c.st = .finish ∨ c.st = .waitRerun)
    | none => false)
  || (e.on && decide (e.next < count s p + left))

/-- WINDOW_OPEN (R21, R328): a best-effort command that still holds the tiles is killed; the window is reserved, or returned whole when
no launch of its owner falls in it (R321). -/
def execWindowOpen (p : PartId) (w : Fin 255) (s : State) : Result :=
  let x := getPart s p.val
  if x.on && decide (w.val < windowCount s p.val) && inWindow s p.val (count s p.val) (window s p.val w.val) then
    let s1 := match x.holder with
      | some (.ring _) => beginKill s p.val .window true []
      | _ => s
    .next (setPart s1 p.val { getPart s1 p.val with returned := !ownerComes s p.val (window s p.val w.val) })
  else .next s

/-- KILL_END (R329, R330): the tiles reach the boundary state and are free; waiting PAUSE items complete, and a launch that
waited for the tiles starts. -/
def execKillEnd (p : PartId) (s : State) : Result :=
  match (getPart s p.val).kill with
  | none => .next s
  | some k =>
    let s1 := freeTiles s p.val
    let s2 := setPart s1 p.val { getPart s1 p.val with kill := none }
    let s3 := k.pause.foldl (fun t e => finishItem t e.1 e.2 stOk 0) s2
    let s4 := freeReleased s3 p.val
    let waiting := (upTo 64).find? (fun j => match (getRun s4 p.val j).cmd with
      | some c => decide (c.st = .start)
      | none => false)
    match waiting with
    | some j =>
      match (getRun s4 p.val j).cmd with
      | some c =>
        match cmdImage s4 p.val c with
        | some im =>
          if inHold s4 then .next (gateQuads s4)
          else if (getPart s4 p.val).reshaping then .next s4
          else .next (startEntry s4 p.val j c im)
        | none => .next s4
      | none => .next s4
    | none => .next (if inHold s4 then gateQuads s4 else s4)

-- kernels (R261, R262)

/-- The best-effort MODEL command that holds a partition's tiles. -/
def modelHolder (s : State) (p : Nat) : Option (Nat × BeCmd) :=
  match (getPart s p).holder, (getPart s p).kill with
  | some (.ring r), none => (getBe s r).bind (fun b => if b.model then some (r, b) else none)
  | _, _ => none

/-- KERNEL_START (R261): with its bytes staged, the kernel at the cursor starts on every tile. -/
def execKernelStart (p : PartId) (s : State) : Result :=
  match modelHolder s p.val with
  | none => .next s
  | some (r, b) =>
    match (getSlot s p.val b.slot).img with
    | none => .next s
    | some im =>
      match im.layers with
      | none => .next s
      | some l =>
        match l.kernels[b.cursor]? with
        | none => .next s
        | some q =>
          if b.staged then .next s
          else
            let s1 := modTiles s p.val (fun t => t.startAt b.slot q.entry)
            .next (setBe s1 r (some { b with staged := true, stageBytes := q.stageBytes, cmd := { b.cmd with t := b.cmd.t + q.span } }))

/-- A kernel ends: its layer's output tensor is in the workspace, with the last kernel that names the layer where several compute it in
parts (assumption 85), and the cursor moves on. -/
def BeCmd.endKernel (b : BeCmd) (im : Image) (l : Layers) : BeCmd :=
  let y := match l.kernels[b.cursor]? with | some q => q.layer | none => 0
  let whole := !(l.kernels.drop (b.cursor + 1)).any (fun q => q.layer == y)
  { b with
    cursor := b.cursor + 1, staged := false, stageBytes := 0
    tensors := if whole then b.tensors ++ [(y, layerTensor (modelCfg im b.cmd.fpcw) l b.cmd.items y)] else b.tensors }

/-- The flags and counters a re-run from the cursor keeps (R262, R240). -/
def BeCmd.keep (b : BeCmd) (c : Cmd) : BeCmd := { b with keptArith := c.arith, keptPiv := c.piv }

/-- The last kernel's end is the end of BODY: the results of every item (R250 to R254, R263). -/
def endModel (s : State) (p r : Nat) (b : BeCmd) (im : Image) (l : Layers) : State :=
  let c := b.cmd
  let d := decisionOf s p
  let out := modelWords (modelCfg im c.fpcw) l c.items
  let c1 := { c with arith := c.arith ||| out.2, flags := c.flags ||| cfIf (wbit d 0) cfDualMismatch }
  let trap := c1.arith &&& c.fpcw.trapMask
  if im.cert.isSome && decide (c1.arith &&& breachMask ≠ 0) then breakBreach s p (.ring r) c1
  else if trap ≠ 0 then breakTrap s p (.ring r) c1 ((getPart s p).pars.tiles.headD 0) trap 0 0
  else if decisionBad im sBody d then breakFault s p (.ring r) c1 cfDecisionWord (deciderTile s p)
  else if wbit d 0 then breakFault s p (.ring r) c1 cfDualMismatch (deciderTile s p)
  else
    let b1 := (b.endKernel im l).keep c1
    freeTiles (setBe s r (some { b1 with outputs := [out.1.map (fun w => w.toNat)], cmd := { c1 with st := .gate } })) p

/-- KERNEL_END (R261, R108): the kernel's output is committed to the workspace and the cursor moves on; the end is a
barrier. -/
def execKernelEnd (p : PartId) (s : State) : Result :=
  match modelHolder s p.val with
  | none => .next s
  | some (r, b) =>
    match (getSlot s p.val b.slot).img with
    | none => .next s
    | some im =>
      match im.layers with
      | none => .next s
      | some l =>
        let last := decide (l.kernels.length ≤ b.cursor + 1)
        if !(b.staged && tilesEnded s p.val) then .next s
        else if im.cert.isSome && decide (b.cmd.arith &&& breachMask ≠ 0) then
          .next (breakBreach s p.val (.ring r) { b.cmd with
            flags := b.cmd.flags ||| cfIf (last && wbit (decisionOf s p.val) 0) cfDualMismatch })
        else
          match trappedTile s p.val with
          | some t => .next (breakTrap s p.val (.ring r) b.cmd t (getTile s t).trap (getTile s t).pc (getTile s t).lastBar)
          | none =>
            if last then .next (endModel s p.val r b im l)
            else .next (setBe s r (some ((b.endKernel im l).keep b.cmd)))

-- the commit (R331, R264, R283)

/-- The semaphore step of a commit (R331): none when the wait count is 0. -/
def semStep (s : State) (w : Word) : Option (State × Bool) :=
  let s1? : Option State := match semWait w with
    | some n => if semGet s n = 0 then none else some (semSet s n (semGet s n - 1))
    | none => some s
  match s1? with
  | none => none
  | some s1 =>
    match semSignal w with
    | some n => if 65535 ≤ semGet s1 n then some (s1, true) else some (semSet s1 n (semGet s1 n + 1), false)
    | none => some (s1, false)

/-- The status a best-effort SOLVE completes with (R283, Table 08.8), and UNGATED; a verdict that failed by R278, R284 or R285 fails
an image without thresholds too. -/
def beStatus (im : Image) (c : Cmd) (m : Member) : Nat × CFlags :=
  match c.stop with
  | some .breach => (if cfHas c.flags breachFlags then stCert else stFpTrap, 0)
  | some .infeasible => (stInfeasible, m.verdictFlags)
  | _ =>
    if im.thr.isNone then (if m.verdictFlags = 0 then (stOk, cfUngated) else (stCert, m.verdictFlags))
    else
      let pass := match m.cert with | some k => k.pass && !m.mismatch && !m.copyBad && !m.assayBad | none => false
      (if pass then stOk else stCert, m.verdictFlags)

/-- The group of a best-effort command: the fields of Tables 13.8 and 13.9. -/
def beGroup (s : State) (p : Nat) (b : BeCmd) (status : Nat) (flags : CFlags) (m : Member) : LaunchRec :=
  let base := launchRecOf p b.cmd m b.ctx status (nsCount s)
  { base with flags := b.cmd.flags ||| b.cmd.piv.flags ||| flags, launch := b.firstStart.getD 0 }

/-- Commit a best-effort SOLVE: the result buffer, the instance, the commit sets. -/
def commitSolve (s : State) (p : Nat) (b : BeCmd) (im : Image) (ovf : Bool) : State :=
  let m := b.cmd.members.headD default
  let st := beStatus im b.cmd m
  let commits := match (getPart s p).inst? m.inst with | some i => i.commits | none => 0
  let words := (m.final.getD []).take im.w
  let wrote := decide (b.cmd.stop ≠ some .breach)
  let s1 := if wrote then hostStore s (getCtx s b.ctx) b.addr words else s
  let g0 := beGroup s p b st.1 (st.2 ||| startFlags im b.cmd m commits ||| cfIf ovf cfSemOvf) m
  let g := { g0 with cert := m.cert, committedIter := if st.1 = stOk then b.cmd.iter else 0,
                     subopt := match m.cert with | some k => if st.1 = stOk then k.gap else 0 | none => 0 }
  if st.1 = stOk then
    let s2 := match (getPart s1 p).inst? m.inst with
      | some i => putInst s1 p { i.commit im b.cmd words m.cert with factorSkip := cfHas b.cmd.flags cfUpdateLimit }
      | none => s1
    pushCommits s2 p im b.cmd words g (some (b.ctx, b.ring))
  else
    -- R208: the factor is rebuilt whether or not the command commits
    let s2 := match (getPart s1 p).inst? m.inst with
      | some i => putInst s1 p { i with factorSkip := i.factorSkip || cfHas b.cmd.flags cfUpdateLimit }
      | none => s1
    completeBe (staleTargets s2 im) b.ctx b.ring g

/-- Result records of a MODEL command (R264): those of ARGMAX; without one CLASS, TOP, MARGIN, TIE and NAN_LOGIT are open (assumption
3), RSV is 0 and SAT is the item's. -/
def resultWords (s : State) (c : ModelCfg) (l : Layers) (items : List (List Nat)) : List Word × List ClassRes × State :=
  items.foldl (fun (a : List Word × List ClassRes × State) it =>
    match itemClass c l it with
    | some r =>
      if r.nan then
        -- TOP and MARGIN of an item with a NaN input are stated by no rule
        let (w0, s1) := drawWord a.2.2
        let (w1, s2) := drawWord s1
        let v := r.words
        (a.1 ++ [(w0 &&& 0xFF000000) ||| v.getD 0 0, (w1 &&& 0x00FFFFFF) ||| v.getD 1 0], a.2.1 ++ [r], s2)
      else (a.1 ++ r.words, a.2.1 ++ [r], a.2.2)
    | none =>
      let (w0, s1) := drawWord a.2.2
      let (w1, s2) := drawWord s1
      let sat := if itemSat c l it then put 1 2 else 0
      (a.1 ++ [(w0 &&& 0xFF000003) ||| sat, w1], a.2.1, s2)) ([], [], s)

/-- Commit a best-effort MODEL: the result records, then the hand-back's commit sets (R264 to R266). -/
def commitModel (s : State) (p : Nat) (b : BeCmd) (im : Image) (ovf : Bool) : State :=
  let m : Member := { (default : Member) with inst := 0 }
  if b.cmd.stop = some .breach then
    let st := if cfHas b.cmd.flags breachFlags then stCert else stFpTrap
    completeBe (staleTargets s im) b.ctx b.ring (beGroup s p b st 0 m)
  else
    match im.layers with
    | none => s
    | some l =>
      let (ws, rs, s0) := resultWords s (modelCfg im b.cmd.fpcw) l b.cmd.items
      let s1 := hostStore s0 (getCtx s0 b.ctx) b.addr ws
      let nan := (rs.filter (fun r => r.nan)).length
      let hasMap := l.layers.any (fun r => r.ltype == 8)
      let words : Option (List Word) :=
        if hasMap then classMapWords l rs else some ((b.outputs.headD []).map (fun x => BitVec.ofNat 32 x))
      let g0 := beGroup s p b stOk (cfIf ovf cfSemOvf) m
      let g := { g0 with nanItems := min 255 nan }
      match words with
      | some out => pushCommits s1 p im b.cmd out g (some (b.ctx, b.ring))
      | none => completeBe s1 b.ctx b.ring { g with flags := g.flags ||| cfNoValidItem }

/-- A best-effort command that is ready for the gate. -/
def readyBe (s : State) (p r : Nat) : Option BeCmd :=
  match getBe s r with
  | some b =>
    if b.part = p ∧ b.cmd.st = .gate ∧ (b.model = true ∨ b.judged = true ∨ b.cmd.stop = some .breach) then some b else none
  | none => none

/-- The command of a context waits only for its sets to be judged. -/
def awaitsSets (x : Part) (b : BeCmd) : Bool := x.awaits.any (fun a => a.be == some (b.ctx, b.ring))

/-- The Quill link a best-effort SOLVE's output leaves on (R332, R333): the lowest whose outbound binding targets its image and its
instance, and names no launch entry (assumption 47). -/
def bulkLink (s : State) (p : Nat) (b : BeCmd) : Option Nat :=
  (upTo 16).find? (fun q =>
    let w := strmBind s q
    strmOn s q && strmIsOut s q && decide (strmPart s q = p) && wbit w 25 && decide (fld w 24 22 = b.slot ∧ fld w 21 12 = b.inst) && !wbit (regGet s (strmOff q 0x14)) 31)

/-- The link a command's commit hands frames to: none unless it commits OK through the gate (R333); a MODEL's outputs leave by its
commit map and its result records alone (R245). -/
def bulkRoute (s : State) (p : Nat) (b : BeCmd) (im : Image) : Option Nat :=
  if b.model then none
  else
    let st := beStatus im b.cmd (b.cmd.members.headD default)
    if st.1 = stOk ∧ cfHas st.2 cfUngated = false then bulkLink s p b else none

/-- The words a best-effort commit sends. -/
def bulkWords (im : Image) (b : BeCmd) : List Word :=
  ((b.cmd.members.headD default).final.getD []).take im.w

/-- Hand a commit's frames over, or keep their link until every commit set has been accepted (R333, R366). -/
def sendBulk (s : State) (p r : Nat) (b : BeCmd) (im : Image) : State :=
  match bulkRoute s p b im with
  | some q => if im.usedTargets = [] then bulkHand s q (bulkWords im b) else setBe s r (some { b with outLink := some q })
  | none => s

/-- The commit of the command at the head of a ring (R331 to R333): its semaphores move, its frames are handed over and its
results are written in the same step; a wait count of 0 sends it back to the head of its ring. A command that commits nothing
moves no semaphore (assumption 38). -/
def commitRing (s : State) (p r : Nat) (b : BeCmd) (im : Image) : State :=
  let s0 := regSet s (fabOff p 0x34) (BitVec.ofNat 32 (satAdd 32 (regGet s (fabOff p 0x34)).toNat b.cmd.piv.repl))
  let commits := if b.model then decide (b.cmd.stop ≠ some .breach)
    else decide ((beStatus im b.cmd (b.cmd.members.headD default)).1 = stOk)
  if commits then
    match semStep s0 b.sem with
    | none => toRerun (bump s (fabOff p 0x38)) p (.ring r) false
    | some (s1, ovf) => if b.model then commitModel s1 p b im ovf else commitSolve (sendBulk s1 p r b im) p b im ovf
  else if b.model then commitModel s0 p b im false
  else commitSolve s0 p b im false

/-- The lowest ring whose command is ready for the gate, and waits or does not wait for link credit. -/
def gateRing (s : State) (p : Nat) (waits : Bool) : Option (Nat × BeCmd) :=
  ((upTo 512).find? (fun r => match readyBe s p r with
      | some b => !awaitsSets (getPart s p) b && (b.linkWait == waits)
      | none => false)).bind (fun r => (readyBe s p r).map (fun b => (r, b)))

/-- BE_COMMIT (R331, R332): the lowest ring in the gate commits; one whose frames find no credit waits in GATE. -/
def execBeCommit (p : PartId) (s : State) : Result :=
  match gateRing s p.val false with
  | none => .next s
  | some (r, b) =>
    match (getSlot s p.val b.slot).img with
    | none => .next (dropBe s r stImage 0xC)
    | some im =>
      match bulkRoute s p.val b im with
      | some q =>
        if bulkReady s q then .next (commitRing s p.val r b im) else .next (setBe s r (some { b with linkWait := true }))
      | none => .next (commitRing s p.val r b im)

/-- BULK_HANDOVER (R332, R333): a commit that waits in GATE for link credit hands its frames over once there is credit; one whose
commit sets had to be accepted first then completes. -/
def execBulkHandover (p : PartId) (s : State) : Result :=
  match gateRing s p.val true with
  | none => .next s
  | some (r, b) =>
    match (getSlot s p.val b.slot).img with
    | none => .next (dropBe s r stImage 0xC)
    | some im =>
      match b.outLink, b.outGrp with
      | some q, some g =>
        if bulkReady s q then .next (completeBe (bulkHand s q (bulkWords im b)) b.ctx b.ring g) else .next s
      | _, _ =>
      match bulkRoute s p.val b im with
      | some q => if bulkReady s q then .next (commitRing s p.val r b im) else .next s
      | none => .next (commitRing s p.val r b im)

end Sys2Proof.Machine
end

