-- ==== Sys2Proof/Machine/NibLaw.lean ====
section
/-! DEFINITION. The law of a Nib engine (chapter 11): block floating point (R290 to R293), the biquad levels (R287), the law and its
predictions. Exact values are pairs (m, e) worth m × 2^e. -/

namespace Sys2Proof.Machine

/-- An exact value m × 2^e. -/
abbrev Dyad := Int × Int

/-- A value rounded to nearest, ties to even, in units of 2^t. -/
def Dyad.roundAt (v : Dyad) (t : Int) : Int := shiftRound .rne v.1 (t - v.2)

/-- ⌊log2 |m|⌋ + e of a nonzero value. -/
def Dyad.log2 (v : Dyad) : Int := (v.1.natAbs.log2 : Int) + v.2

/-- Whether a mantissa of exponent e holds a value (R291). -/
def Dyad.fits (v : Dyad) (e : Int) : Bool := inRange (-8388608) 8388607 (v.roundAt (e - 23))

/-- The smallest exponent from −128 at which a value fits; 128 stands for none. -/
def Dyad.minExp (v : Dyad) : Int :=
  if v.1 = 0 then -128
  else
    let k := v.log2
    let try_ := fun (e : Int) => max (-128) e
    if v.fits (try_ k) then min 128 (try_ k)
    else if v.fits (try_ (k + 1)) then min 128 (try_ (k + 1))
    else min 128 (try_ (k + 2))

/-- Renormalise a block from exact values (R291), and whether it saturated. -/
def renorm (vs : List Dyad) : Block × Bool :=
  let e := vs.foldl (fun a v => max a v.minExp) (-128)
  let e1 := min e 127
  (⟨e1, vs.map (fun v => clamp (-8388608) 8388607 (v.roundAt (e1 - 23)))⟩, decide (127 < e))

/-- The value of an element (R290). -/
def Block.value (b : Block) (i : Nat) : Dyad := (b.m.getD i 0, b.e - 23)

/-- One product with its group's exponent; `neg` subtracts it. -/
structure NibTerm where
  prod : Int
  ge : Int
  neg : Bool
deriving DecidableEq, Repr

/-- The accumulator (R292): each product is shifted right to the largest group exponent, then added. -/
def accTerms (l : List NibTerm) : Dyad :=
  match l with
  | [] => (0, 0)
  | t :: _ =>
    let top := l.foldl (fun a u => max a u.ge) t.ge
    (l.foldl (fun a u =>
      let p := u.prod / 2 ^ (top - u.ge).toNat
      if u.neg then a - p else a + p) 0, top)

/-- A group of products: a coefficient row against a data block. -/
def rowTerms (cm : List Int) (ce : Int) (d : Block) : List NibTerm :=
  (cm.zip d.m).map (fun e => ⟨e.1 * e.2, ce + d.e - 46, false⟩)

/-- A state word as a term: its product with 1.0, whose block form is 2^22 at exponent 1 (R291; assumption 42). -/
def stateTerm (b : Block) (i : Nat) : NibTerm := ⟨b.m.getD i 0 * 4194304, b.e + 1 - 46, false⟩

/-- The exact value of a finite FP32 word. -/
def fp32Dyad (w : Word) : Option Dyad := (fp32.unpack w.toNat).dyadic

/-- Finite FP32. -/
def fp32Finite (w : Word) : Bool := decide (fld w 30 23 ≠ 255)

/-- A block of coefficient words (R293). A word that is not finite never reaches the law (R288). -/
def coefBlock (ws : List Word) : Block × Bool := renorm (ws.map (fun w => (fp32Dyad w).getD (0, 0)))

/-- A matrix of the coefficient window, rows of 32 words (Table 21.6): the part the dimensions use. -/
def matWords (bank : Tbl Word) (base rows cols : Nat) : List Word :=
  (upTo rows).flatMap (fun r => (upTo cols).map (fun c => tblGet 0 bank (base + 32 * r + c)))

/-- Row r of a block that holds a matrix of `cols` columns. -/
def Block.row (b : Block) (r cols : Nat) : List Int := (b.m.drop (r * cols)).take cols

/-- The law's dimensions (NIB_ENG_DIM). -/
structure NibDims where
  nIn : Nat
  nOut : Nat
  nSt : Nat
  nP : Nat
  lIn : Nat
  lOut : Nat
deriving DecidableEq, Repr, Inhabited

def nibDims (w : Word) : NibDims := ⟨fld w 31 26, fld w 25 21, fld w 20 15, fld w 14 9, fld w 8 6, fld w 5 3⟩

def NibDims.sections (d : NibDims) : Nat := d.lIn * d.nIn + d.lOut * d.nOut

/-- WORK of R289. -/
def NibDims.work (d : NibDims) : Nat :=
  ceilDiv (d.nOut * (d.nIn + d.nSt) + d.nSt * (d.nSt + d.nIn) + d.nP * d.nSt + 5 * d.sections) 16 + 13 + 3 * (d.lIn + d.lOut)

/-- The blocks of a coefficient bank. -/
structure NibBank where
  d : Block
  c : Block
  a : Block
  b : Block
  m : Block
  -- one block for each level, input levels first, with its channels
  levels : List (Block × Nat)
deriving DecidableEq, Repr, Inhabited

/-- Level ℓ's coefficient words: five for each of its sections, from section `first` on. -/
def levelWords (bank : Tbl Word) (first n : Nat) : List Word :=
  (upTo (5 * n)).map (fun i => tblGet 0 bank (4096 + 5 * first + i))

/-- Load a bank (R293), and whether a block saturated. -/
def loadBank (bank : Tbl Word) (d : NibDims) : NibBank × Bool :=
  let mD := coefBlock (matWords bank 0 d.nOut d.nIn)
  let mC := coefBlock (matWords bank 512 d.nOut d.nSt)
  let mA := coefBlock (matWords bank 1024 d.nSt d.nSt)
  let mB := coefBlock (matWords bank 2048 d.nSt d.nIn)
  let mM := coefBlock (matWords bank 3072 d.nP d.nSt)
  let ins := (upTo d.lIn).map (fun l => (coefBlock (levelWords bank (l * d.nIn) d.nIn), d.nIn))
  let outs := (upTo d.lOut).map (fun l => (coefBlock (levelWords bank (d.lIn * d.nIn + l * d.nOut) d.nOut), d.nOut))
  let lv := ins ++ outs
  (⟨mD.1, mC.1, mA.1, mB.1, mM.1, lv.map (fun e => (e.1.1, e.2))⟩,
    mD.2 || mC.2 || mA.2 || mB.2 || mM.2 || lv.any (fun e => e.1.2))

/-- One level of biquads (R287): its outputs, its new s1 and s2, and whether a block saturated. -/
def biquadLevel (cf : Block) (n : Nat) (x : Block) (st : Block × Block) : Block × (Block × Block) × Bool :=
  let k := fun (c i : Nat) => cf.m.getD (5 * c + i) 0
  let gx := cf.e + x.e - 46
  let y := renorm ((upTo n).map (fun c => accTerms [⟨k c 0 * x.m.getD c 0, gx, false⟩, stateTerm st.1 c]))
  let gy := cf.e + y.1.e - 46
  let s1 := renorm ((upTo n).map (fun c => accTerms
    [⟨k c 1 * x.m.getD c 0, gx, false⟩, ⟨k c 3 * y.1.m.getD c 0, gy, true⟩, stateTerm st.2 c]))
  let s2 := renorm ((upTo n).map (fun c => accTerms
    [⟨k c 2 * x.m.getD c 0, gx, false⟩, ⟨k c 4 * y.1.m.getD c 0, gy, true⟩]))
  (y.1, (s1.1, s2.1), y.2 || s1.2 || s2.2)

/-- Levels in order, each with its state. -/
def biquadLevels : List (Block × Nat) → List (Block × Block) → Block → Block × List (Block × Block) × Bool
  | (cf, n) :: ls, st :: sts, x =>
    let r := biquadLevel cf n x st
    let t := biquadLevels ls sts r.1
    (t.1, r.2.1 :: t.2.1, r.2.2 || t.2.2)
  | _, _, x => (x, [], false)

/-- Rows of two products added (y = D·w + C·ξ, ξ' = A·ξ + B·w). -/
def twoProducts (p q : Block) (pc qc rows : Nat) (x y : Block) : Block × Bool :=
  renorm ((upTo rows).map (fun r => accTerms (rowTerms (p.row r pc) p.e x ++ rowTerms (q.row r qc) q.e y)))

/-- The predictions M·ξ. -/
def predictions (k : NibBank) (d : NibDims) (xi : Block) : Block × Bool :=
  renorm ((upTo d.nP).map (fun r => accTerms (rowTerms (k.m.row r d.nSt) k.m.e xi)))

/-- What one full sample computes: outputs, law state, section states, predictions, saturation. -/
structure LawStep where
  y : Block
  xi : Block
  secs : List (Block × Block)
  pred : Block
  sat : Bool
deriving DecidableEq, Repr, Inhabited

/-- The law on exact inputs (R293). -/
def lawStep (k : NibBank) (d : NibDims) (xi : Block) (secs : List (Block × Block)) (w : List Dyad) : LawStep :=
  let x0 := renorm w
  let i := biquadLevels (k.levels.take d.lIn) (secs.take d.lIn) x0.1
  let y0 := twoProducts k.d k.c d.nIn d.nSt d.nOut i.1 xi
  let o := biquadLevels (k.levels.drop d.lIn) (secs.drop d.lIn) y0.1
  let x1 := twoProducts k.a k.b d.nSt d.nIn d.nSt xi i.1
  let p := predictions k d x1.1
  ⟨o.1, x1.1, i.2.1 ++ o.2.1, p.1, x0.2 || i.2.2 || y0.2 || o.2.2 || x1.2 || p.2⟩

/-- A preload word (R309): a word that is not finite has no stated value (assumption 3). -/
def preloadValue (free : Nat) (t : Tbl Word) (i : Nat) : Dyad :=
  let w := tblGet 0 t i
  match fp32Dyad w with
  | some v => if fp32Finite w then v else ((Config.freeWord (free + i)).toInt, -31)
  | none => ((Config.freeWord (free + i)).toInt, -31)

/-- Law and section states from the preload (R309, Table 21.6): state words 0 to 31, then s1 and s2 of each section
(assumption 43). -/
def preloadState (free : Nat) (t : Tbl Word) (d : NibDims) : Block × List (Block × Block) × Bool :=
  let v := preloadValue free t
  let xi := renorm ((upTo d.nSt).map v)
  let level := fun (first n : Nat) =>
    (renorm ((upTo n).map (fun c => v (32 + 2 * (first + c)))), renorm ((upTo n).map (fun c => v (33 + 2 * (first + c)))))
  let l := (upTo d.lIn).map (fun i => level (i * d.nIn) d.nIn)
    ++ (upTo d.lOut).map (fun i => level (d.lIn * d.nIn + i * d.nOut) d.nOut)
  (xi.1, l.map (fun e => (e.1.1, e.2.1)), xi.2 || l.any (fun e => e.1.2 || e.2.2))

end Sys2Proof.Machine
end

