-- ==== Sys2Proof/Machine/Nib.lean ====
section
/-! DEFINITION. The Nib engines (chapter 11): arming and its checks, samples and free-running slots, the watchdogs, the engine states,
the output limits, the swap of banks and the coefficient window. -/

namespace Sys2Proof.Machine

-- configuration (Table 21.5)

def nibDim (s : State) (n : Nat) : NibDims := nibDims (regGet s (nibOff n 0x00))
def nibSample (s : State) (n : Nat) : Nat := fld (regGet s (nibOff n 0x04)) 18 0
def nibLate (s : State) (n : Nat) : Nat := fld (regGet s (nibOff n 0x08)) 17 0
def nibTrj (s : State) (n : Nat) : Word := regGet s (nibOff n 0x14)
def nibTrjReq (s : State) (n : Nat) : Bool := wbit (nibTrj s n) 30
def nibInterp (s : State) (n : Nat) : Bool := wbit (nibTrj s n) 29
def nibSettleN (s : State) (n : Nat) : Nat := fld (regGet s (nibOff n 0x18)) 31 16
def nibHoldMax (s : State) (n : Nat) : Nat := fld (regGet s (nibOff n 0x18)) 15 8
def nibIn (s : State) (n i : Nat) : Word := regGet s (nibOff n (0x100 + 4 * i))
def nibOutMap (s : State) (n k : Nat) : Word := regGet s (nibOff n (0x180 + 4 * k))
def nibPredIn (s : State) (n r : Nat) : Nat := fld (regGet s (nibOff n (0x1C0 + 4 * r))) 4 0
def nibOuts (s : State) (n : Nat) : List Nat :=
  let w := regGet s (nibOff n 0x10)
  if wbit w 14 then [fld w 6 0, fld w 13 7] else [fld w 6 0]

/-- The count an engine's capture ticks are on: its partition's (R513). -/
def nibCountNow (s : State) (n : Nat) : Nat := match enginePart s n with | some p => count s p | none => lc s

/-- The active bank's window words, and the other's. -/
def Nib.active (e : Nib) : Tbl Word := if e.bank then e.coef1 else e.coef0
def Nib.idle (e : Nib) : Tbl Word := if e.bank then e.coef0 else e.coef1

-- output words (R294; an output word of WB bits stands at the top of its 32-bit word, R375; assumption 44)

/-- Format of output k: width in bits, m, unsigned. -/
structure OutFmt where
  wb : Nat
  m : Nat
  u : Bool
deriving DecidableEq, Repr, Inhabited

/-- The width of the words of an output or input stream (R288): a configured direct port's WB, 32 elsewhere. -/
def streamWidth (s : State) (i : Nat) : Nat :=
  if 16 ≤ i ∧ i < 24 ∧ wbit (regGet s (dpOff (i - 16) 0)) 31 = true then dpWidth s (i - 16) else 32

/-- The stream output k leaves on. -/
def nibOutStream (s : State) (n k : Nat) : Nat := (nibOuts s n).getD (if wbit (nibOutMap s n k) 31 then 1 else 0) 127

def nibOutFmt (s : State) (n k : Nat) : OutFmt :=
  ⟨streamWidth s (nibOutStream s n k), fld (nibOutMap s n k) 20 15, wbit (nibOutMap s n k) 14⟩

def OutFmt.int (f : OutFmt) (w : Word) : Int := wordInt f.u w / 2 ^ (32 - f.wb)
def OutFmt.word (f : OutFmt) (x : Int) : Word := BitVec.ofInt 32 (x * 2 ^ (32 - f.wb))

/-- A format of Qm.n or UQm.n with WB bits (R7, R8). -/
def OutFmt.ok (f : OutFmt) : Bool := decide (8 ≤ f.wb ∧ f.wb ≤ 32 ∧ f.m ≤ f.wb ∧ (f.u = false → 1 ≤ f.m))

/-- LO, HI, RATE and RAMP_STEP of output k, in units of its format (Table 21.6). -/
def limitInt (bank : Tbl Word) (f : OutFmt) (which k : Nat) : Int := f.int (tblGet 0 bank (4448 + 16 * which + k))

/-- The safe code of output k: the fuse-defined word of its direct port (R403). -/
def safeCode (s : State) (n k : Nat) : Word :=
  let i := nibOutStream s n k
  let w := if 16 ≤ i ∧ i < 24 then tblGet 0 s.fuse.dpSafeWord (i - 16) else Config.safeCode i
  topBits (nibOutFmt s n k).wb w

def safeCodes (s : State) (n : Nat) : List Word := (upTo (nibDim s n).nOut).map (safeCode s n)

-- arming (R288, Table 11.1)

/-- Measurement inputs. -/
def nibMeasured (s : State) (n : Nat) : List Nat := (upTo (nibDim s n).nIn).filter (fun i => decide (fld (nibIn s n i) 31 30 = 0))

/-- Every coefficient word of a bank is a finite FP32 value. -/
def bankFinite (bank : Tbl Word) : Bool := bank.all (fun e => decide (4448 ≤ e.1) || fp32Finite e.2)

/-- RAMP_STEP of each output word lies within Table 11.1. -/
def rampOk (s : State) (n : Nat) (bank : Tbl Word) : Bool :=
  (upTo (nibDim s n).nOut).all (fun k =>
    let f := nibOutFmt s n k
    let lo := limitInt bank f 0 k
    let hi := limitInt bank f 1 k
    let step := limitInt bank f 3 k
    decide (1 ≤ step ∧ step ≤ (if hi = lo then 1 else hi - lo)))

/-- A bank the law may run on. -/
def bankOk (s : State) (n : Nat) (bank : Tbl Word) : Bool := bankFinite bank && rampOk s n bank

/-- One input's sort, stream and format. -/
def nibInputOk (s : State) (n i : Nat) : Bool :=
  let w := nibIn s n i
  let strms := nibStreams s n
  match fld w 31 30 with
  | 0 =>
    let k := fld w 29 28
    let f : OutFmt := ⟨streamWidth s (strms.getD k 127), fld w 20 15, wbit w 14⟩
    decide (k < strms.length) && f.ok
  | 1 => wbit (nibTrj s n) 31
  | 2 => decide (fld w 27 21 < 32)
  | _ => false

/-- The bound entry launches a MODEL image (R299 and the text before it). -/
def nibModelBound (s : State) (n : Nat) : Bool :=
  match enginePart s n with
  | some p =>
    let j := fld (nibTrj s n) 5 0
    wbit (nibTrj s n) 31 && entryValid s p j
      && (match (getSlot s p (entryImg s p j)).img with | some im => im.isModel | none => false)
  | none => false

/-- The checks of Table 11.1 in its order: the cause of the first limit that is broken. -/
def armCause (s : State) (n : Nat) : Option Nat :=
  let d := nibDim s n
  let e := getNib s n
  let meas := nibMeasured s n
  let preds := (upTo d.nP).map (nibPredIn s n)
  let strms := nibStreams s n
  let outs := nibOuts s n
  let st := nibSample s n
  let late := nibLate s n
  if !(decide (1 ≤ d.nIn ∧ d.nIn ≤ 32 ∧ 1 ≤ d.nOut ∧ d.nOut ≤ 16 ∧ d.nSt ≤ 32 ∧ d.nP ≤ min 32 meas.length ∧ d.lIn ≤ 4
      ∧ d.lOut ≤ 4 ∧ d.sections ≤ 64) && preds.all (fun i => meas.contains i)) then some 1
  else if !(decide (nibTrig s n < strms.length) && strms.all (fun i => decide (i < 88)) && outs.all (fun i => decide (i < 88))
      && (upTo d.nIn).all (nibInputOk s n) && (upTo d.nOut).all (fun k => (nibOutFmt s n k).ok && decide (nibOutStream s n k < 88))
      && (upTo strms.length).all (fun k => decide (fld (nibWd0 s n k) 31 30 ≠ 3)) && !nibModelBound s n) then some 2
  else if !decide (40 ≤ st ∧ st ≤ 400000 ∧ late ≤ st / 2) then some 3
  else if !decide (d.work ≤ 7 * (st - late) / 2) then some 4
  else if !bankFinite e.active then some 5
  else if !(upTo strms.length).all (fun k => decide (fld (nibWd0 s n k) 31 30 ≠ 1)
      || meas.all (fun i => decide (fld (nibIn s n i) 29 28 ≠ k) || preds.contains i)) then some 6
  else if !rampOk s n e.active then some 5
  else none

/-- An engine in ARMED: nothing of an earlier run stays. -/
def Nib.arm (e : Nib) (safe : Bool) : Nib :=
  { Nib.reset with
    st := .armed, bank := e.bank, coef0 := e.coef0, coef1 := e.coef1, preload := e.preload, safeAsked := safe
    swapAt := e.swapAt, frames := e.frames }

/-- Note a bank whose blocks saturate (R291). -/
def bankFlag (s : State) (n : Nat) : State :=
  if (loadBank (getNib s n).active (nibDim s n)).2 then nibFlags s n [nfSat] else s

/-- ARM (R288, R465, Table 11.4). -/
def armEngine (s : State) (n : Nat) : State :=
  let e := getNib s n
  if !isReady s then nibRefuse s n 8
  else if e.st ≠ .config then nibRefuse s n 7
  else
    match armCause s n with
    | some c => nibRefuse s n c
    | none => bankFlag (setNib s n (e.arm s.pwr.safe)) n
def execArm (n : EngineId) (s : State) : Result := hostWrite s (armEngine s n.val)

/-- REARM (Table 11.4): from SAFE to ARMED; elsewhere refused. -/
def rearmEngine (s : State) (n : Nat) : State :=
  let e := getNib s n
  if e.st = .safe then
    setNib s n { e.arm s.pwr.safe with traj := e.traj, oldTraj := e.oldTraj, planHold := e.planHold, out := e.out, wds := e.wds, trig := e.trig }
  else nibRefuse s n 7
def execRearm (n : EngineId) (s : State) : Result := hostWrite s (rearmEngine s n.val)

/-- STOP (Table 11.4): RUN, HOLD and COAST go to RAMP, and a RAMP goes on to CONFIG; elsewhere refused (assumption 45). -/
def stopEngine (s : State) (n : Nat) : State :=
  let e := getNib s n
  match e.st with
  | .run | .hold | .coast => setNib s n { e with st := .ramp, stopAsked := true }
  | .ramp => setNib s n { e with stopAsked := true }
  | _ => nibRefuse s n 7
def execStop (n : EngineId) (s : State) : Result := hostWrite s (stopEngine s n.val)

/-- SWAP (R304): the inactive bank is checked; the samples from S on use it. An engine in CONFIG has no sample before an S that has come,
so the bank is active at once. -/
def askSwap (s : State) (n : Nat) : State :=
  let e := getNib s n
  let at_ := (regGet64 s (nibOff n 0x48)).toNat
  if bankOk s n e.idle then
    setNib s n (if e.st = .config ∧ at_ ≤ nibCountNow s n then { e with bank := !e.bank, swapAt := none } else { e with swapAt := some at_ })
  else nibRefuse s n 5
def execSwap (n : EngineId) (s : State) : Result := hostWrite s (askSwap s n.val)

-- watchdogs (R310, R311)

/-- A stream's action: 0 HOLD, 1 COAST, 2 RAMP. -/
def nibAction (s : State) (n k : Nat) : Nat := fld (nibWd0 s n k) 31 30

/-- Take up a stream's judged frames at a sample or slot with tick c: the watchdog after it, and the flags it fires. -/
def StreamWd.sample (w : StreamWd) (isTrig slot : Bool) (c timeoutN recoverN : Nat) : StreamWd × List Nat :=
  let now := fun (j : FrameJudge) => decide (j.cap < c) || (isTrig && decide (j.cap ≤ c))
  let taken := w.pend.filter now
  let brought := if isTrig then !slot else decide (taken ≠ [])
  let misses := if brought then 0 else w.misses + 1
  let fired := taken.flatMap (fun j => j.fired) ++ (if !brought && decide (misses = timeoutN) then [nfTimeout] else [])
  let good := brought && taken.all (fun j => !j.bad)
  let w1 := { w with pend := w.pend.filter (fun j => !now j), misses := misses }
  if fired ≠ [] then ({ w1 with lost := true, good := 0 }, fired)
  else if w.lost then
    let k := if good then w.good + 1 else 0
    if recoverN ≤ k ∧ 0 < k then ({ w1 with lost := false, good := 0 }, []) else ({ w1 with good := k }, [])
  else (w1, [])

/-- Every stream's watchdog at one sample or slot. -/
def watchAll (s : State) (n : Nat) (e : Nib) (slot : Bool) (c : Nat) : Nib × List Nat :=
  (upTo (nibStreams s n).length).foldl (fun (a : Nib × List Nat) k =>
    let w0 := nibWd0 s n k
    let r := (tblGet StreamWd.reset a.1.wds k).sample (decide (k = nibTrig s n)) slot c (fld w0 23 16) (fld w0 7 0)
    ({ a.1 with wds := tblSet StreamWd.reset a.1.wds k r.1 }, a.2 ++ r.2)) (e, [])

/-- Input streams that are lost. -/
def lostStreams (s : State) (n : Nat) (e : Nib) : List Nat :=
  (upTo (nibStreams s n).length).filter (fun k => (tblGet StreamWd.reset e.wds k).lost)

-- states (R307, R308)

/-- Severity of R308. -/
def NibState.rank : NibState → Nat
  | .coast => 1
  | .hold => 2
  | .ramp => 3
  | .safe => 4
  | _ => 0

/-- The more severe of two states. -/
def worse (a b : NibState) : NibState := if a.rank < b.rank then b else a

/-- The state an action asks for. -/
def actionState (a : Nat) : NibState := if a = 0 then .hold else if a = 1 then .coast else .ramp

/-- The state that governs a sample or slot (Table 11.4, R308, R311): every reason that holds, the most severe first;
HOLD_MAX samples in HOLD and COAST_K in COAST lead to RAMP (assumption 46). -/
def nextState (s : State) (n : Nat) (e : Nib) : NibState :=
  if e.safeAsked then .safe
  else
    match e.st with
    | .ramp => .ramp
    | .safe => .safe
    | _ =>
      let lost := lostStreams s n e
      let base : NibState := if e.planHold then .hold else .run
      let st := lost.foldl (fun a k => worse a (actionState (nibAction s n k))) base
      let coastK := (lost.filter (fun k => decide (nibAction s n k = 1))).foldl
        (fun a k => min a (fld (nibWd1 s n k) 31 24)) 255
      if st = .hold ∧ nibHoldMax s n ≤ e.holdN then .ramp
      else if st = .coast ∧ coastK ≤ e.coastN then .ramp
      else st

-- a sample (R296, R299, R300)

/-- The trajectory a sample with capture tick c uses (R299). -/
def trajAt (e : Nib) (c : Nat) : Option NibTraj :=
  match e.traj with
  | some t => if t.count ≤ c then some t else e.oldTraj
  | none => none

/-- A trajectory input (R300): stage 0, or the interpolation toward stage 1. -/
def trajInput (interp : Bool) (t : NibTraj) (c i : Nat) : Option Dyad :=
  match t.s0[i]? with
  | none => none
  | some (w0, m) =>
    let a := w0.toInt
    if interp then
      let b := (t.s1.getD i (w0, m)).1.toInt
      let f := min (2 ^ 24) (roundQuot .rne ((c - t.count : Nat) * 2 ^ 24 : Nat) (max 1 t.period))
      some (a * 2 ^ 24 + f * (b - a), -(56 - (m : Int)))
    else some (a, -(32 - (m : Int)))

/-- The frame a non-trigger stream contributes to a sample with capture tick c (R296). -/
def Nib.before (e : Nib) (i c : Nat) : Option NibFrame := (tblGet [] e.frames i).find? (fun f => decide (f.cap < c))

/-- A measurement input from a stream's words; a word no frame has brought has no stated value (assumption 3). -/
def measured (free : Nat) (w : Word) (i : Nat) (f : Option NibFrame) : Dyad :=
  let x := match f with
    | some g => (g.words[fld w 27 21]?).getD (Config.freeWord (free + i))
    | none => Config.freeWord (free + i)
  (wordInt (wbit w 14) x, -(32 - (fld w 20 15 : Int)))

/-- Input i of a sample: measurement, prediction, trajectory or constant (R286, R310). -/
def nibInput (s : State) (n : Nat) (e : Nib) (c : Nat) (coast : Bool) (i : Nat) : Dyad :=
  let w := nibIn s n i
  match fld w 31 30 with
  | 0 =>
    let k := fld w 29 28
    let sw := tblGet StreamWd.reset e.wds k
    let row := (upTo (nibDim s n).nP).find? (fun r => decide (nibPredIn s n r = i))
    match coast && sw.lost, row with
    | true, some r => e.pred.value r
    | _, _ => measured s.freeCtr w i (if k = nibTrig s n then e.trig else e.before ((nibStreams s n).getD k 127) c)
  | 1 =>
    match (trajAt e c).bind (fun t => trajInput (nibInterp s n) t c (fld w 27 21)) with
    | some v => v
    | none => ((Config.freeWord (s.freeCtr + i)).toInt, -(32 - (fld w 20 15 : Int)))
  | _ => (fp32Dyad (tblGet 0 e.active (4416 + fld w 27 21))).getD (0, 0)

/-- Limit one converted word (R294): clamp, then rate; the word, and whether each limit changed it. -/
def limitWord (bank : Tbl Word) (f : OutFmt) (k : Nat) (old x : Int) : Int × Bool × Bool :=
  let y := clamp (limitInt bank f 0 k) (limitInt bank f 1 k) x
  let rate : Int := (limitInt bank f 2 k).natAbs
  let z := if rate = 0 then y else clamp (old - rate) (old + rate) y
  (z, decide (y ≠ x), decide (z ≠ y))

/-- The output words of a law output (R294), and the flags it sets. -/
def outputWords (s : State) (n : Nat) (e : Nib) (y : Block) : List Word × List Nat :=
  let rs := (upTo (nibDim s n).nOut).map (fun k =>
    let f := nibOutFmt s n k
    let v := (y.value k).roundAt (-((f.wb : Int) - f.m))
    let x := clamp (rangeLo f.u f.wb) (rangeHi f.u f.wb) v
    let r := limitWord e.active f k (f.int (e.out.getD k 0)) x
    (f.word r.1, decide (x ≠ v), r.2.1, r.2.2))
  (rs.map (fun r => r.1),
    (if rs.any (fun r => r.2.1) then [nfOutSat] else []) ++ (if rs.any (fun r => r.2.2.1) then [nfLim] else [])
      ++ (if rs.any (fun r => r.2.2.2) then [nfRate] else []))

/-- The previous words moved one RAMP_STEP toward the safe codes. -/
def rampWords (s : State) (n : Nat) (e : Nib) : List Word :=
  (upTo (nibDim s n).nOut).map (fun k =>
    let f := nibOutFmt s n k
    let old := f.int (e.out.getD k 0)
    let goal := f.int (safeCode s n k)
    let step := limitInt e.active f 3 k
    f.word (clamp (old - step) (old + step) goal))

/-- Sample status of a state (Table 11.3, Table 11.8, R313). -/
def statusOf (st : NibState) (slot settling : Bool) : Nat :=
  match st with
  | .run => if slot then 2 else if settling then 1 else 0
  | .hold => 2
  | .coast => 3
  | .ramp => 4
  | .safe => 5
  | _ => 6

/-- Drive the output words on the engine's output streams with a status. -/
def driveOutputs (s : State) (n stat : Nat) (ws : List Word) : State :=
  (nibOuts s n).zipIdx.foldl (fun t o =>
    let mine := (upTo (nibDim s n).nOut).filter (fun k => decide ((if wbit (nibOutMap s n k) 31 then 1 else 0) = o.2))
    let place := fun (k : Nat) => fld (nibOutMap s n k) 27 21
    let len := mine.foldl (fun a k => max a (place k + 1)) 0
    let frame := mine.foldl (fun (l : List Word) k => l.set (place k) (ws.getD k 0)) (List.replicate len 0)
    driveStream t n o.1 stat frame) s

/-- What a state does to the engine in one sample or slot: words, engine, flags (Tables 11.3 and 11.8). -/
def runState (s : State) (n : Nat) (e : Nib) (st : NibState) (slot : Bool) (c : Nat) : List Word × Nib × List Nat :=
  if st = .safe then (safeCodes s n, e, [])
  else if st = .ramp then (rampWords s n e, e, [])
  else if st = .hold ∨ (st = .run ∧ slot = true) then (e.out, e, [])
  else
    let d := nibDim s n
    let k := (loadBank e.active d).1
    let r := lawStep k d e.xi e.secs ((upTo d.nIn).map (nibInput s n e c (decide (st = .coast))))
    let o := outputWords s n e r.y
    (o.1, { e with xi := r.xi, secs := r.secs, pred := r.pred }, (if r.sat then [nfSat] else []) ++ o.2)

/-- A sample or free-running slot with tick c of an engine in RUN, HOLD, COAST, RAMP or SAFE. -/
def runSample (s : State) (n : Nat) (e0 : Nib) (slot : Bool) (c : Nat) : State :=
  let swap := match e0.swapAt with | some a => decide (a ≤ c) | none => false
  let e1 := if swap then { e0 with bank := !e0.bank, swapAt := none } else e0
  let swapSat := swap && (loadBank e1.active (nibDim s n)).2
  let (e2, fired) := watchAll s n e1 slot c
  let st := nextState s n e2
  let e3 := { e2 with
    st := st
    holdN := if st = .hold then e2.holdN + 1 else 0
    coastN := if st = .coast then e2.coastN + 1 else 0
    safeAsked := false }
  let (ws, e4, fs) := runState s n e3 st slot c
  let stat := statusOf st slot (decide (0 < e4.settleLeft))
  let done := decide (st = .ramp ∧ ws = safeCodes s n)
  let e5 := { e4 with
    out := ws, status := stat, settleLeft := e4.settleLeft - 1, expected := some (c + nibSample s n)
    st := if done then (if e4.stopAsked then .config else .safe) else st }
  let e6 := if e5.st = .config then
      { Nib.reset with bank := e5.bank, coef0 := e5.coef0, coef1 := e5.coef1, preload := e5.preload, frames := e5.frames }
    else e5
  let s1 := setNib { s with freeCtr := s.freeCtr + 64 } n e6
  let s2 := driveOutputs s1 n stat ws
  nibFlags s2 n ((if slot then [nfMissed] else []) ++ (if swapSat then [nfSat] else []) ++ fired ++ fs
    ++ (if stat = 1 then [nfSettling] else []))

/-- ARMED to RUN (R309, R313): states from the preload, the previous words at the safe code; the watchdogs go on (assumption 89). -/
def enterRun (s : State) (n : Nat) (e : Nib) : State × Nib :=
  let d := nibDim s n
  let p := preloadState s.freeCtr e.preload d
  let m := predictions (loadBank e.active d).1 d p.1
  let e1 := { e with
    st := NibState.run, xi := p.1, secs := p.2.1, pred := m.1, out := safeCodes s n, settleLeft := nibSettleN s n, holdN := 0,
    coastN := 0 }
  let s1 := { s with freeCtr := s.freeCtr + 160 }
  (if p.2.2 || m.2 then nibFlags (setNib s1 n e1) n [nfSat] else s1, e1)

/-- A trigger frame found by an engine in ARMED (Table 11.4): the first at or after ARM_COUNT, with a trajectory adopted
when TRJ_REQ = 1, starts RUN; any other drives the safe code, and the watchdogs judge it (R310). -/
def armedSample (s : State) (n : Nat) (e : Nib) (f : NibFrame) : State :=
  if e.safeAsked then runSample s n { e with out := safeCodes s n } false f.cap
  else if decide ((regGet64 s (nibOff n 0x40)).toNat ≤ f.cap) && (!nibTrjReq s n || (trajAt e f.cap).isSome) then
    let (s1, e1) := enterRun s n e
    runSample s1 n e1 false f.cap
  else
    let (e1, fired) := watchAll s n e false f.cap
    nibFlags (driveOutputs (setNib s n { e1 with status := 6 }) n 6 (safeCodes s n)) n fired

/-- A trigger frame found by an engine in CONFIG (Table 11.3): one that has outputs drives their safe codes with NOT_VALID. -/
def configSample (s : State) (n : Nat) (e : Nib) : State :=
  let s1 := setNib s n { e with status := 6 }
  if (enginePart s n).isSome ∧ (nibDim s n).nOut ≠ 0 then driveOutputs s1 n 6 (safeCodes s n) else s1

/-- The trigger frame becomes the one the engine's inputs read. -/
def Nib.useTrigger (e : Nib) (f : NibFrame) : Nib := { e with trig := some f }

/-- NIB_SAMPLE (R296 to R298): the oldest accepted trigger frame starts its sample, or is early. A frame that comes at or after
the tick of a free-running slot waits for the slot. -/
def execNibSample (n : EngineId) (s : State) : Result :=
  let e := getNib s n.val
  match e.triggers with
  | [] => .next s
  | f :: rest =>
    let e1 := { e with triggers := rest }
    match e.st with
    | .config => .next (configSample s n.val e1)
    | .armed => .next (armedSample s n.val (e1.useTrigger f) f)
    | _ =>
      match e.expected with
      | some x =>
        if f.cap + nibLate s n.val < x then .next (nibFlags (setNib s n.val e1) n.val [nfEarly])
        else if x + nibLate s n.val ≤ f.cap then .next s
        else .next (runSample s n.val (e1.useTrigger f) false f.cap)
      | none => .next (runSample s n.val (e1.useTrigger f) false f.cap)

/-- FREE_RUN_SLOT (R297): no trigger came by the end of the tolerance. -/
def execFreeRunSlot (n : EngineId) (s : State) : Result :=
  let e := getNib s n.val
  let runs := decide (e.st = .run ∨ e.st = .hold ∨ e.st = .coast ∨ e.st = .ramp ∨ e.st = .safe)
  match runs, e.expected with
  | true, some x =>
    let at_ := x + nibLate s n.val
    let inTime := match e.triggers with | f :: _ => decide (f.cap < at_) | [] => false
    if decide (at_ ≤ nibCountNow s n.val) && !inTime then .next (runSample s n.val e true at_) else .next s
  | _, _ => .next s

/-- Every engine enters SAFE at its next sample slot (R476, Table 11.4). -/
def askSafe (s : State) : State :=
  (upTo 16).foldl (fun t n =>
    let e := getNib t n
    if e.st = .config then t else setNib t n { e with safeAsked := true }) s

/-- An engine a Partition reset reaches (Table 11.4): its outputs go to the safe code, and it is in CONFIG with its banks, preload and
swap forgotten. -/
def resetEngine (s : State) (n : Nat) : State := setNib (configSample s n (getNib s n)) n Nib.reset

-- the coefficient window (Table 21.6, R545)

/-- Words of a region: the two banks, the preload, none for the reserved code. -/
def coefRegion (region : Nat) : Nat := if region < 2 then 4512 else if region = 2 then 160 else 0

/-- The word NIB_COEF_ADDR points to. -/
def coefWord (e : Nib) (region w : Nat) : Word :=
  tblGet 0 (if region = 0 then e.coef0 else if region = 1 then e.coef1 else if region = 2 then e.preload else []) w

/-- NIB_COEF_DATA: a read, or a write that the active bank refuses (R304, R545); each access advances WORD by 1. -/
def coefAccess (s : State) (n : Nat) (write : Option Word) : State :=
  let a := regGet s (nibOff n 0x80)
  let region := fld a 14 13
  let w := fld a 12 0
  let s1 := regSet s (nibOff n 0x80) (put region 13 ||| BitVec.ofNat 32 ((w + 1) % 8192))
  match write with
  | none => s1
  | some v =>
    let e := getNib s1 n
    if decide (coefRegion region ≤ w) || (decide (region < 2) && (decide (region = 1) == e.bank)) then
      nibRefuse s1 n 7
    else if region = 0 then setNib s1 n { e with coef0 := tblSet 0 e.coef0 w v }
    else if region = 1 then setNib s1 n { e with coef1 := tblSet 0 e.coef1 w v }
    else setNib s1 n { e with preload := tblSet 0 e.preload w v }

/-- NIB_COEF_DATA_ACCESS (Table 21.5, R545). -/
def execNibCoefDataAccess (n : EngineId) (write : Option Word) (s : State) : Result :=
  match write with
  | none => .next (coefAccess s n.val none)
  | some v => hostWrite s (coefAccess s n.val (some v))

end Sys2Proof.Machine
end

