-- ==== Sys2Proof/Machine/Operands.lean ====
section
/-! DEFINITION. The operand forms of stroke words (Tables 06.11 to 06.13) and the latencies of Table 05.3: field by field,
from the 128-bit word or the 60-bit slot, as numbers. -/

namespace Sys2Proof.Machine

/-- Bits hi..lo of a number. -/
def nbits (x hi lo : Nat) : Nat := x / 2 ^ lo % 2 ^ (hi + 1 - lo)

/-- A field of n bits as a signed number. -/
def sfield (n x : Nat) : Int := if 2 ^ (n - 1) ≤ x then (x : Int) - 2 ^ n else (x : Int)

-- words (Table 06.11)

def wFmt (w : BitVec 128) : Nat := nbits w.toNat 127 125
def wNext (w : BitVec 128) : Nat := nbits w.toNat 124 120
def wSlot (w : BitVec 128) (k : Nat) : Nat := if k = 0 then nbits w.toNat 59 0 else nbits w.toNat 119 60
def wCop (w : BitVec 128) : Nat := nbits w.toNat 119 115

-- slots: class, operation and operands (Tables 06.12a to 06.12c)

def slCls (x : Nat) : Nat := nbits x 59 58
def slOp (x : Nat) : Nat := nbits x 57 53
def slMask (x : Nat) : Nat := nbits x 52 45

/-- Vector operands in bytes: A, operand and result or DEST at [44:33], B or SRC at [32:21]. -/
def slVa (x : Nat) : Nat := 32 * nbits x 44 33
def slVb (x : Nat) : Nat := 32 * nbits x 32 21
def slShift (x : Nat) : Int := sfield 7 (nbits x 20 14)
def slK8 (x : Nat) : Int := sfield 8 (nbits x 20 13)
def slRoundWb (x : Nat) : Nat := nbits x 12 11
def slFmtA (x : Nat) : Nat := nbits x 20 18
def slFmtB (x : Nat) : Nat := nbits x 17 15
def slTwbShift (x : Nat) : Nat := nbits x 17 13
/-- Words of a multi-word operand: W = 0 selects 96 bits, W = 1 selects 128. -/
def slMw (x : Nat) : Nat := 3 + nbits x 20 20
def slMwSigned (x : Nat) : Bool := x.testBit 19
def slMwWrap (x : Nat) : Bool := x.testBit 18
def slB32 (x : Nat) : Bool := x.testBit 19
def slSa (x : Nat) : Bool := x.testBit 18
def slSb (x : Nat) : Bool := x.testBit 17
def slD32 (x : Nat) : Bool := x.testBit 16
def slMulK (x : Nat) : Nat := nbits x 15 8
def slMulRound (x : Nat) : Nat := nbits x 7 6
def slNarK (x : Nat) : Int := sfield 8 (nbits x 19 12)
def slNarRound (x : Nat) : Nat := nbits x 11 10

/-- Scalar operands in bytes: D, A and B. -/
def slD (x : Nat) : Nat := 8 * nbits x 52 39
def slA (x : Nat) : Nat := 8 * nbits x 38 25
def slB (x : Nat) : Nat := 8 * nbits x 24 11
def slP (x : Nat) : Bool := x.testBit 10
def slCk (x : Nat) : Nat := nbits x 24 21
def slN (x : Nat) : Nat := nbits x 20 15
def slU (x : Nat) : Bool := x.testBit 14
def slCvtRound (x : Nat) : Nat := nbits x 13 12
def slForm (x : Nat) : Nat := nbits x 10 9
def slNd (x : Nat) : Nat := nbits x 8 3
def slPivRound (x : Nat) : Nat := nbits x 2 1

/-- Transfer operands (Table 06.12c), addresses in bytes. -/
def slRoute (x : Nat) : Nat := nbits x 52 47
def slXsrc (x : Nat) : Nat := 32 * nbits x 46 35
def slXdst (x : Nat) : Nat := 32 * nbits x 34 23
def slLast (x : Nat) : Bool := x.testBit 22
def slRoff (x : Nat) : Nat := 32 * nbits x 52 32
def slDmaV (x : Nat) : Nat := 32 * nbits x 31 20
def slSpace (x : Nat) : Nat := nbits x 19 18
def slMember (x : Nat) : Nat := nbits x 17 12
def slPkRow (x : Nat) : Nat := nbits x 52 49
def slPkCol (x : Nat) : Nat := nbits x 48 45
def slPkSrc (x : Nat) : Nat := 32 * nbits x 44 33
def slPkDst (x : Nat) : Nat := 32 * nbits x 32 21
def slPkFlits (x : Nat) : Nat := nbits x 20 18 + 1

-- control words (Table 06.13)

def cIdle (w : BitVec 128) : Nat := nbits w.toNat 114 99
def cAccMask (w : BitVec 128) : Nat := nbits w.toNat 114 107
def cAccF (w : BitVec 128) : Nat := nbits w.toNat 106 100
def cAccId (w : BitVec 128) : Nat := nbits w.toNat 99 76
def cLoopCount (w : BitVec 128) : Nat := nbits w.toNat 114 99
def cLoopEnd (w : BitVec 128) : Nat := nbits w.toNat 98 88
def cFamily (w : BitVec 128) : Nat := nbits w.toNat 114 103
def cIdx (w : BitVec 128) : Nat := 8 * nbits w.toNat 102 89
def cDecider (w : BitVec 128) : Bool := w.toNat.testBit 114
def cDec (w : BitVec 128) : Nat := 8 * nbits w.toNat 113 100

/-- Source formats of an ANNOTATION record (assumption 7): [5:0] m of A, [13:8] m of B; in a PIVOT record [31:8] is the
variable of the reciprocal. -/
def annM (a : Option AnnRec) : Nat := match a with | some r => fld r.fmts 5 0 | none => 32
def annMB (a : Option AnnRec) : Nat := match a with | some r => fld r.fmts 13 8 | none => 32

/-- A positive FP64 value times 2^n as an integer: rounded up, or by RNE (R195). -/
def fp64Scaled (up : Bool) (n : Nat) (x : Nat) : Int :=
  match (fp64.unpack x).dyadic with
  | some (m, e) => shiftRound (if up then .rup else .rne) m (-(e + n))
  | none => 0

/-- The block of a guarded pivot: kind 0x10 is P, 0x11 is D. -/
def guardBlock (a : Option AnnRec) : Option Bool :=
  match a with
  | some r => if r.kind = 0x10 then some false else if r.kind = 0x11 then some true else none
  | none => none

/-- A floating tensor format among the two. -/
def fmtFloats (x : Nat) : Bool := match TFmt.ofCode (slFmtA x) with | some f => f.float?.isSome | none => false

/-- Latency of an operation (Table 05.3): h is a circuit's hops, d the rows from the granule's edge tile. -/
def opLatency (x h d : Nat) : Nat :=
  match slCls x with
  | 0 =>
    match slOp x with
    | 0x01 | 0x02 => 4
    | 0x03 => 3
    | 0x04 => if fmtFloats x then 5 else 4
    | 0x05 => 3
    | 0x06 | 0x07 => slMw x + 1
    | 0x08 => if slB32 x then slMw x + 3 else (if slMw x = 3 then 12 else 19)
    | 0x09 => 2
    | 0x0A => slMw x + 3
    | _ => 1
  | 1 => if slOp x ≤ 4 then (if slP x then 4 else 5) else if slOp x = 0x0A then 3 else 2
  | 2 => 12
  | _ =>
    match slOp x with
    | 0x01 => 4 + h
    | 0x02 => 3
    | 0x03 => 20 + d
    | 0x04 => 4 + d
    | _ => 1

/-- Issue interval of an operation's class (Table 05.3). -/
def opInterval (x : Nat) : Nat :=
  match slCls x with
  | 0 =>
    match slOp x with
    | 0x06 | 0x07 => slMw x
    | 0x08 => if slB32 x then slMw x else slMw x * slMw x
    | 0x0A => slMw x
    | _ => 1
  | _ => 1

/-- Rows from a granule's edge tile (R159): row 0 for the upper half, row 15 for the lower. -/
def edgeRows (tile : Nat) : Nat := let r := tile / 15; if r < 8 then r else 15 - r

end Sys2Proof.Machine
end

