-- ==== Sys2Proof/Machine/ImageParse.lean ====
section
/-! DEFINITION. Reading a Ductus image from its bytes (Tables 06.1 to 06.5, 06.9, 06.10, 06.16, 03.5 to 03.7, 08.1, 09.1, 09.2,
09.6, 10.2, 10.3), with check 2 of Table 06.6: the layout, the reserved fields and the codes. -/

namespace Sys2Proof.Machine

/-- A section-table record (R169): kind, offset and length in bytes. -/
structure SecRec where
  kind : Nat
  off : Nat
  len : Nat
deriving DecidableEq, Repr, Inhabited

/-- An image as words with its section table. -/
structure RawImage where
  bytes : Nat
  ws : List Word
  secs : List SecRec
deriving DecidableEq, Repr, Inhabited

def RawImage.w (r : RawImage) (k : Nat) : Word := r.ws.getD k 0
def RawImage.sec? (r : RawImage) (kind : Nat) : Option SecRec := r.secs.find? (fun q => q.kind == kind)
def RawImage.has (r : RawImage) (kind : Nat) : Bool := (r.sec? kind).isSome
def RawImage.body (r : RawImage) (kind : Nat) : List Word :=
  match r.sec? kind with
  | some q => (r.ws.drop (q.off / 4)).take (q.len / 4)
  | none => []

/-- Words in groups of n; `fuel` bounds the groups. -/
def groupsOf (n : Nat) : Nat → List Word → List (List Word)
  | 0, _ => []
  | fuel + 1, ws => if ws.isEmpty then [] else ws.take n :: groupsOf n fuel (ws.drop n)

def chunks (n : Nat) (ws : List Word) : List (List Word) := groupsOf n ws.length ws

/-- A 64-bit and a 128-bit field of a word list. -/
def u64At (ws : List Word) (k : Nat) : Nat := (ws.getD k 0).toNat + 2 ^ 32 * (ws.getD (k + 1) 0).toNat
def u128At (ws : List Word) (k : Nat) : Nat := u64At ws k + 2 ^ 64 * u64At ws (k + 2)

/-- A digest from sixteen words, its first byte most significant. -/
def digestOf (ws : List Word) : Nat := (wordsBytes ws).foldl (fun a b => 256 * a + b.toNat) 0

def readRaw (bs : List Byte) : RawImage :=
  let ws := bytesWords bs
  let n := fld (ws.getD 5 0) 15 0
  let secs := (chunks 4 ((ws.drop 64).take (4 * n))).map (fun r => ⟨fld (r.getD 0 0) 7 0, (r.getD 1 0).toNat, (r.getD 2 0).toNat⟩)
  ⟨bs.length, ws, secs⟩

-- structures, field by field

def readHeader (r : RawImage) : ImgHeader :=
  let a := r.w 0
  { arch := fld a 31 28, ikind := fld a 27 24, pkind := fld a 23 20, method := fld a 19 16, cls := fld a 8 8,
    gcols := fld a 7 4, ghalves := fld a 1 0, bytes := (r.w 1).toNat, sig := word64 (r.w 2) (r.w 3), certId := r.w 4,
    fFac := (r.w 6).toNat, qAssumed := fld (r.w 7) 15 8, chkEvery := fld (r.w 7) 7 0, tau := u64At r.ws 8,
    deltaD := u64At r.ws 10, fBuf := (r.w 12).toNat, certDigest := digestOf ((r.ws.drop 16).take 16),
    digest := digestOf ((r.ws.drop 32).take 16),
    sealKey := digestOf ((r.ws.drop (r.ws.length - 36)).take 2) }

def readEntry (q : List Word) : EntryRec :=
  let a := q.getD 0 0
  ⟨fld a 31 24, fld a 23 18, wbit a 17, wbit a 16, fld a 15 8, q.getD 1 0, q.getD 2 0, q.getD 3 0⟩

def readTarget (q : List Word) : MapTarget :=
  let a := q.getD 0 0
  ⟨wbit a 31, fld a 30 27, fld a 26 24, fld a 9 0, word64 (q.getD 1 0) (q.getD 2 0)⟩

def readMap (q : List Word) : MapRec :=
  let a := q.getD 0 0
  let b := q.getD 1 0
  let c := q.getD 2 0
  ⟨fld a 31 30, fld a 23 0, fld b 31 16, fld b 15 0, fld c 31 26, wbit c 25⟩

def readCert (ws : List Word) : Cert :=
  let nv := (ws.getD 5 0).toNat
  let na := (ws.getD 6 0).toNat
  let l := ws.getD 7 0
  { arch := fld (ws.getD 0 0) 31 28, id := ws.getD 1 0, sig := word64 (ws.getD 2 0) (ws.getD 3 0),
    varTotal := fld (ws.getD 4 0) 23 0,
    vars := (chunks 4 ((ws.drop 16).take (4 * nv))).map (fun q =>
      let a := q.getD 0 0
      ⟨fld a 31 26, fld a 25 24, fld a 23 0, fld (q.getD 1 0) 23 0, q.getD 2 0, q.getD 3 0⟩),
    accs := (chunks 2 ((ws.drop (16 + 4 * nv)).take (2 * na))).map (fun q =>
      let a := q.getD 0 0
      ⟨fld a 31 25, fld a 23 0, fld (q.getD 1 0) 6 0⟩),
    iterMax := fld l 31 16, rank1Max := fld l 11 8, refineMax := fld l 1 0, carried := wbit (ws.getD 8 0) 0 }

def readWcet (q : List Word) : WcetRow :=
  let a := q.getD 0 0
  let c := q.getD 2 0
  ⟨fld a 31 30, fld a 29 28, (q.getD 1 0).toNat, fld c 15 8, fld c 7 0, (q.getD 3 0).toNat, (q.getD 4 0).toNat⟩

/-- Tile blocks: an 8-byte head, then its stroke words. -/
def readBlocks : Nat → List Word → List TileBlock
  | 0, _ => []
  | fuel + 1, ws =>
    if ws.isEmpty then []
    else
      let h := u64At ws 0
      let n := h / 2 ^ 33 % 2 ^ 12
      let body := (chunks 4 ((ws.drop 2).take (4 * n))).map (fun q => BitVec.ofNat 128 (u128At q 0))
      ⟨h / 2 ^ 60 % 16, h / 2 ^ 56 % 16, h / 2 ^ 45 % 2 ^ 11, body⟩ :: readBlocks fuel (ws.drop (2 + 4 * n))

def readAnn (q : List Word) : AnnRec := ⟨fld (q.getD 1 0) 31 8, fld (q.getD 1 0) 7 0, q.getD 0 0⟩

/-- A ROUTES record (assumption 39): word 0 the route, word 1 row [15:8] and column [7:0], words 2 and 3 the ports. -/
def readRoute (q : List Word) : RouteRec :=
  ⟨(q.getD 0 0).toNat, fld (q.getD 1 0) 15 8, fld (q.getD 1 0) 7 0, (q.getD 2 0).toNat, (q.getD 3 0).toNat⟩

def readSeg (q : List Word) : SegRec :=
  let x := u128At q 0
  ⟨x / 2 ^ 117 % 2 ^ 11, x / 2 ^ 113 % 16, x / 2 ^ 89 % 2 ^ 24⟩

/-- Family entries: a header, then eight members to an entry. -/
def readFams : Nat → List Word → List FamRec
  | 0, _ => []
  | fuel + 1, ws =>
    if ws.isEmpty then []
    else
      let h := u128At ws 0
      let n := h / 2 ^ 104 % 2 ^ 12
      let body := (ws.drop 4).take (4 * ceilDiv n 8)
      let halves := body.flatMap (fun w => [w.toNat % 2 ^ 11, w.toNat / 2 ^ 16 % 2 ^ 11])
      ⟨h / 2 ^ 116 % 2 ^ 12, n, h / 2 ^ 80 % 2 ^ 24, halves.take n⟩ :: readFams fuel (ws.drop (4 + 4 * ceilDiv n 8))

def readParams (ws : List Word) : MethodParams :=
  let a := ws.getD 0 0
  let n := fld a 11 0
  { arch := fld a 31 28, method := fld a 27 24, settle := fld a 23 16, eligible := n, sigmaP := u64At ws 2,
    sigmaD := u64At ws 4, rho := u64At ws 6, admmSigma := u64At ws 8, relax := u64At ws 10, epsAbs := u64At ws 12,
    epsRel := u64At ws 14, refineTol := u64At ws 16, stepFrac := u64At ws 18, center := u64At ws 20,
    infeasTol := u64At ws 22, weights := (upTo (if fld a 27 24 = 3 then n else 0)).map (fun j => u64At ws (32 + 2 * j)) }

def readThr (ws : List Word) : Thresholds :=
  let a := ws.getD 0 0
  let n := fld a 23 16
  { batchMax := fld a 15 8, work := (ws.getD 2 0).toNat,
    sets := (chunks 8 ((ws.drop 8).take (8 * n))).map (fun q => ⟨u64At q 0, u64At q 2, u64At q 4, u64At q 6⟩),
    pattern := (chunks 2 ((ws.drop (8 + 8 * n)).take (2 * (ws.getD 1 0).toNat))).map (fun q =>
      let x := u64At q 0
      ⟨x / 2 ^ 40 % 2 ^ 24, x / 2 ^ 36 % 16, x.testBit 35, x / 2 ^ 20 % 2 ^ 15, x % 2 ^ 20⟩) }

def readLayer (q : List Word) : LayerRec :=
  let g := fun k hi lo => fld (q.getD k 0) hi lo
  { ltype := g 0 31 24, act := g 0 23 20, wFmt := g 0 19 17, aFmt := g 0 16 14, oFmt := g 0 13 11,
    dual := wbit (q.getD 0 0) 10, bias := wbit (q.getD 0 0) 9, srcA := g 1 31 24, srcB := g 1 23 16, kh := g 1 15 12,
    kw := g 1 11 8, strideH := g 1 7 6, strideW := g 1 5 4, pad := g 1 3 2, sub := wbit (q.getD 1 0) 1,
    pmax := wbit (q.getD 1 0) 0, inH := g 2 31 20, inW := g 2 19 8, cIn := g 3 31 16, cOut := g 3 15 0,
    wOff := (q.getD 4 0).toNat, actArg := g 5 31 24, tshift := g 5 23 19, inFirst := g 5 11 0, k := g 6 31 25 }

def readLayers (ws : List Word) : Layers :=
  let a := ws.getD 0 0
  let d := ws.getD 4 0
  let recs := (chunks 8 ((ws.drop 16).take (8 * fld a 23 16))).map readLayer
  let at4 := fun (k n : Nat) => (ws.drop ((ws.getD k 0).toNat / 4)).take n
  let batch := fld d 15 0
  let inw := (ws.getD 5 0).toNat
  let cmapWords := match recs.find? (fun r => r.ltype == 8) with | some r => r.cIn * (r.k + 1) | none => 0
  let tables := (recs.map (fun r => if r.act = 4 then r.actArg + 1 else 0)).foldl max 0
  { kernelCount := fld a 15 0, srcSig := word64 (ws.getD 2 0) (ws.getD 3 0), srcValid := wbit d 31, srcSlot := fld d 30 28,
    tangents := fld d 27 22, batch := batch, inWords := inw, wsBytes := (ws.getD 6 0).toNat, layers := recs,
    kernels := if ws.getD 10 0 = 0 then [] else (chunks 4 (at4 10 (4 * fld a 15 0))).map (fun q =>
      ⟨fld (q.getD 0 0) 31 21, fld (q.getD 0 0) 20 13, (q.getD 1 0).toNat, (q.getD 2 0).toNat⟩),
    weights := if ws.getD 11 0 = 0 then [] else wordsBytes (at4 11 ((ws.getD 1 0).toNat / 4)),
    pwl := if ws.getD 7 0 = 0 then [] else at4 7 (48 * tables),
    classMap := if ws.getD 8 0 = 0 then [] else at4 8 cmapWords,
    linDef := if ws.getD 9 0 = 0 then [] else at4 9 (batch * inw) }

/-- The image whole; its dimensions are those of the structure its signature names (assumption 21). -/
def readImage (r : RawImage) : Image :=
  let opt := fun {α : Type} (k : Nat) (f : List Word → α) => if r.has k then some (f (r.body k)) else none
  { hdr := readHeader r, dims := Config.structDims (word64 (r.w 2) (r.w 3)),
    entries := (chunks 4 (r.body 0x01)).map readEntry, streamMap := (chunks 4 (r.body 0x02)).map readMap,
    targets := (chunks 4 ((r.body 0x03).take 64)).map readTarget, commitMap := (chunks 4 ((r.body 0x03).drop 64)).map readMap,
    cert := opt 0x04 readCert, wcet := (chunks 8 (r.body 0x05)).map readWcet,
    strokes := readBlocks (r.body 0x06).length (r.body 0x06), anns := (chunks 2 (r.body 0x07)).map readAnn,
    routes := (chunks 4 (r.body 0x08)).map readRoute, segs := (chunks 4 (r.body 0x09)).map readSeg,
    fams := readFams (r.body 0x0A).length (r.body 0x0A), params := opt 0x0B readParams, thr := opt 0x0C readThr,
    layers := opt 0x0D readLayers }

-- check 2: layout, reserved fields, codes

/-- Bits hi..lo of a word are zero. -/
def zeroBits (w : Word) (hi lo : Nat) : Bool := decide (fld w hi lo = 0)
def zeroWords (ws : List Word) : Bool := ws.all (fun w => decide (w = 0))

/-- Sections: inside the image, clear of the header, the table and the seal, no two overlapping, each kind once. -/
def sectionsOk (r : RawImage) : Bool :=
  let n := fld (r.w 5) 15 0
  let lo := 256 + 16 * n
  let hi := r.bytes - 144
  decide (1 ≤ n) && decide (n ≤ 32) && decide (lo ≤ hi)
  && (upTo n).all (fun i => zeroBits (r.w (64 + 4 * i)) 31 8 && decide (r.w (67 + 4 * i) = 0))
  && r.secs.all (fun q => decide (1 ≤ q.kind ∧ q.kind ≤ 0x0D ∧ q.off % 16 = 0 ∧ lo ≤ q.off ∧ q.off + q.len ≤ hi ∧ q.len % 4 = 0))
  && decide ((r.secs.map (fun q => q.kind)).Nodup)
  && r.secs.zipIdx.all (fun a => r.secs.zipIdx.all (fun b =>
      decide (b.2 ≤ a.2) || decide (a.1.off + a.1.len ≤ b.1.off) || decide (b.1.off + b.1.len ≤ a.1.off)))

/-- The sections Table 06.2 requires for an IKIND and CLASS. -/
def requiredOk (r : RawImage) (h : ImgHeader) : Bool :=
  let solve := decide (h.ikind = 1)
  let lcls := decide (h.cls = 0)
  [0x06, 0x07, 0x09].all r.has
  && (!solve || [0x01, 0x0B].all r.has) && (solve || r.has 0x0D)
  && (!lcls || [0x04, 0x05].all r.has) && (!(solve && lcls) || r.has 0x0C)

/-- A positive, finite and normal FP64 value (Table 07.2). -/
def f64Normal (x : Nat) : Bool := decide (0x10000000000000 ≤ x ∧ x < 0x7FF0000000000000)

/-- The header (Table 06.1, R78, Table 07.2). -/
def headerFieldsOk (r : RawImage) (h : ImgHeader) : Bool :=
  decide (h.arch = 1) && decide (h.ikind = 1 ∨ h.ikind = 2)
  && (if h.ikind = 1 then decide (1 ≤ h.pkind ∧ h.pkind ≤ 5 ∧ 1 ≤ h.method ∧ h.method ≤ 4) else decide (h.pkind = 0 ∧ h.method = 0))
  && zeroBits (r.w 0) 15 9 && zeroBits (r.w 0) 3 2 && decide (1 ≤ h.gcols ∧ (h.ghalves = 1 ∨ h.ghalves = 2))
  && decide (h.bytes = r.bytes ∧ h.bytes % 16 = 0 ∧ 1024 ≤ h.bytes ∧ h.bytes ≤ 268435456)
  && zeroBits (r.w 5) 31 16 && zeroBits (r.w 7) 31 16 && zeroWords ((r.ws.drop 13).take 3) && zeroWords ((r.ws.drop 48).take 16)
  && decide (h.fBuf % 64 = 0 ∧ 2 * h.fBuf ≤ h.fFac)
  && decide ((h.certId = 0) ↔ r.has 0x04 = false) && (decide (h.certId ≠ 0) || decide (h.certDigest = 0))
  && (decide (h.ikind = 2) || (f64Normal h.tau && f64Normal h.deltaD))

/-- m of an input format: 1 to 32 signed, 0 to 32 unsigned (Table 06.3). -/
def fmtOk (u : Bool) (m : Nat) : Bool := decide (m ≤ 32) && (u || decide (1 ≤ m))

def entriesOk (r : RawImage) : Bool :=
  (chunks 4 (r.body 0x01)).all (fun q =>
    let e := readEntry q
    decide (q.length = 4) && zeroBits (q.getD 0 0) 7 0 && decide (1 ≤ e.obj ∧ e.obj ≤ 0x0D) && fmtOk e.u e.fmtM)

def mapsOk (r : RawImage) : Bool :=
  let ok := fun (form top : Nat) (q : List Word) =>
    let m := readMap q
    decide (q.length = 4 ∧ m.form = form ∧ m.src ≤ top ∧ q.getD 3 0 = 0) && zeroBits (q.getD 0 0) 29 24
      && zeroBits (q.getD 2 0) 24 0 && fmtOk m.srcU m.srcM
  (chunks 4 (r.body 0x02)).all (ok 0 87)
  && (!r.has 0x03 || decide (64 ≤ (r.body 0x03).length))
  && (chunks 4 ((r.body 0x03).take 64)).all (fun q => zeroBits (q.getD 0 0) 23 10 && decide (q.getD 3 0 = 0))
  && (chunks 4 ((r.body 0x03).drop 64)).all (ok 1 15)

def wcetFieldsOk (r : RawImage) : Bool :=
  (chunks 8 (r.body 0x05)).all (fun q =>
    let w := readWcet q
    decide (q.length = 8 ∧ w.mode ≤ 1 ∧ w.start ≤ 2 ∧ w.x ≤ 4 ∧ w.l ≤ 4) && zeroBits (q.getD 0 0) 27 0
      && zeroBits (q.getD 2 0) 31 16 && zeroWords (q.drop 5))

/-- Tile blocks fill the section: heads with RSV 0 and 1 to 2,048 words inside the stroke memory. -/
def blocksOk : Nat → List Word → Bool
  | 0, ws => ws.isEmpty
  | fuel + 1, ws =>
    if ws.isEmpty then true
    else
      let h := u64At ws 0
      let n := h / 2 ^ 33 % 2 ^ 12
      decide (h % 2 ^ 33 = 0 ∧ h / 2 ^ 56 % 16 ≤ 14 ∧ 1 ≤ n ∧ n ≤ 2048 ∧ h / 2 ^ 45 % 2 ^ 11 + n ≤ 2048 ∧ 2 + 4 * n ≤ ws.length)
        && blocksOk fuel (ws.drop (2 + 4 * n))

/-- RSV bits of a slot's operands are zero, and its operation is one of Tables 06.12a to 06.12c. -/
def slotRsvOk (x : Nat) : Bool :=
  let z := fun hi lo => decide (nbits x hi lo = 0)
  match slCls x, slOp x with
  | 0, 1 => z 13 0
  | 0, 2 => z 32 21 && z 13 0
  | 0, 3 => z 32 21 && z 10 0
  | 0, 4 => z 14 0
  | 0, 5 => z 32 21 && z 12 0
  | 0, 6 => z 17 0
  | 0, 7 => z 17 0
  | 0, 8 => z 5 0
  | 0, 9 => z 18 0
  | 0, 10 => z 9 0
  | 1, 10 => z 11 0
  | 1, n => decide (1 ≤ n ∧ n ≤ 9) && z 9 0
  | 2, 3 => z 0 0
  | 2, n => decide (n = 1 ∨ n = 2) && z 24 11 && z 0 0
  | 3, 1 => z 21 0
  | 3, 2 => z 52 47 && z 22 0
  | 3, 3 => z 11 0
  | 3, 4 => z 11 0
  | 3, 5 => z 17 0
  | _, _ => false

/-- Codes of a slot's operands (R4, R76, Tables 06.12a and 06.12b): ROUND, tensor formats, CK, N, FORM and ND. -/
def slotCodesOk (x : Nat) : Bool :=
  let rnd := fun c => (roundOfCode c).isSome
  match slCls x, slOp x with
  | 0, 3 => rnd (slRoundWb x)
  | 0, 4 => (TFmt.ofCode (slFmtA x)).isSome && (TFmt.ofCode (slFmtB x)).isSome
  | 0, 5 => (TFmt.ofCode (slFmtA x)).isSome
  | 0, 8 => rnd (slMulRound x)
  | 0, 10 => rnd (slNarRound x)
  | 1, 10 => decide (slCk x ≤ 5 ∧ slN x ≤ 32) && rnd (slCvtRound x)
  | 2, _ => decide (slForm x ≤ 2 ∧ slNd x ≤ 31) && rnd (slPivRound x)
  | _, _ => true

/-- Codes and RSV bits of a control word (Table 06.13). -/
def ctrlCodesOk (w : BitVec 128) : Bool :=
  let z := fun hi lo => decide (nbits w.toNat hi lo = 0)
  match wCop w with
  | 0 => decide (1 ≤ cIdle w) && z 98 0
  | 1 => z 75 0
  | 2 => z 114 0
  | 3 => decide (1 ≤ cLoopCount w) && z 87 0
  | 4 => z 88 0
  | 5 => z 114 0
  | 6 => z 99 0
  | _ => false

/-- No RSV bit of a stroke word is set and no code is reserved (R4, Table 06.11). -/
def wordCodesOk (w : BitVec 128) : Bool :=
  if wFmt w = 0 then [wSlot w 0, wSlot w 1].all (fun x => decide (slOp x = 0) || (slotRsvOk x && slotCodesOk x))
  else decide (wFmt w = 1) && ctrlCodesOk w

/-- Segment entries: whole, with defined kinds, SPAN from 1 (R4) and RSV 0; F_BUF only with a FACTOR segment (Table 06.1). -/
def segsOk (r : RawImage) (im : Image) : Bool :=
  (chunks 4 (r.body 0x09)).all (fun q =>
    let g := readSeg q
    decide (q.length = 4 ∧ u128At q 0 % 2 ^ 89 = 0 ∧ 1 ≤ g.kind ∧ g.kind ≤ 8 ∧ 1 ≤ g.span))
  && ((im.seg? 3).isSome || decide (im.hdr.fBuf = 0))

/-- Family entries fill the section, with RSV 0 and 1 to 4,095 members (R4). -/
def famsOk : Nat → List Word → Bool
  | 0, ws => ws.isEmpty
  | fuel + 1, ws =>
    if ws.isEmpty then true
    else
      let h := u128At ws 0
      let n := h / 2 ^ 104 % 2 ^ 12
      let body := (ws.drop 4).take (4 * ceilDiv n 8)
      decide (h % 2 ^ 80 = 0 ∧ 1 ≤ n ∧ body.length = 4 * ceilDiv n 8)
        && body.all (fun w => zeroBits w 15 11 && zeroBits w 31 27)
        && famsOk fuel (ws.drop (4 + 4 * ceilDiv n 8))

/-- Weights that follow the fields of METHOD_PARAMS: one per eligible row of an active-set image (Table 08.1). -/
def paramWeights (ws : List Word) : Nat := if fld (ws.getD 0 0) 27 24 = 3 then fld (ws.getD 0 0) 11 0 else 0

def paramsRsvOk (r : RawImage) : Bool :=
  let ws := r.body 0x0B
  !r.has 0x0B || (decide (fld (ws.getD 0 0) 31 28 = 1 ∧ ws.getD 1 0 = 0 ∧ ws.length = 32 + 2 * paramWeights ws)
    && zeroBits (ws.getD 0 0) 15 12 && zeroWords ((ws.drop 24).take 8))

/-- Field codes of the THRESHOLDS section (R271). -/
def thrCodesOk (r : RawImage) : Bool :=
  let ws := r.body 0x0C
  let t := readThr ws
  !r.has 0x0C || (decide (fld (ws.getD 0 0) 31 28 = 1 ∧ ws.length = 8 + 8 * fld (ws.getD 0 0) 23 16 + 2 * (ws.getD 1 0).toNat)
    && zeroBits (ws.getD 0 0) 27 24 && zeroBits (ws.getD 0 0) 7 0 && zeroWords ((ws.drop 3).take 5)
    && t.pattern.all (fun q => decide (q.role ≤ 5 ∨ q.role = 7 ∨ (9 ≤ q.role ∧ q.role ≤ 0xB))))

/-- One layer record (Table 09.2, R246): reserved bits, codes, the ranges of its fields, ACT_ARG (Table 09.5), and the fields its
type does not use (assumption 79). -/
def layerCodesOk (i : Nat) (q : List Word) : Bool :=
  let l := readLayer q
  let t := l.ltype
  let win := decide (2 ≤ t ∧ t ≤ 4)
  let weighted := decide (1 ≤ t ∧ t ≤ 3)
  let src := fun (k : Nat) => decide (k < i ∨ k = 255)
  let fl := (tfmtOf l.aFmt).float?.isSome
  let c := (BitVec.ofNat 8 l.actArg).toInt
  decide (1 ≤ t ∧ t ≤ 8 ∧ l.act ≤ 4 ∧ l.wFmt ≤ 6 ∧ l.aFmt ≤ 6 ∧ l.wOff % 16 = 0)
  && zeroBits (q.getD 0 0) 8 0 && zeroBits (q.getD 2 0) 7 0 && zeroBits (q.getD 5 0) 18 12 && zeroBits (q.getD 6 0) 24 0
  && decide (q.getD 7 0 = 0) && src l.srcA && (if t = 6 then src l.srcB else decide (l.srcB = 0 ∧ l.sub = false))
  && (if win then decide (1 ≤ l.kh ∧ l.kh ≤ 7 ∧ 1 ≤ l.kw ∧ l.kw ≤ 7)
      else decide (l.kh = 0 ∧ l.kw = 0 ∧ l.strideH = 0 ∧ l.strideW = 0 ∧ l.pad = 0)) && (decide (t = 4) || !l.pmax)
  && (weighted || (decide (l.wOff = 0 ∧ l.wFmt = 0 ∧ l.cOut = 0) && !l.bias))
  && (if t = 8 then decide (1 ≤ l.k ∧ l.k ≤ 64 ∧ l.aFmt = 0) else decide (l.k = 0))
  && (if t ≤ 6 then decide (1 ≤ l.inH ∧ l.inH ≤ 512 ∧ 1 ≤ l.inW ∧ l.inW ≤ 512)
      else decide (l.inH = 0 ∧ l.inW = 0 ∧ l.act = 0 ∧ l.oFmt = 0 ∧ l.tshift = 0))
  && (decide (t = 1 ∨ t = 6) || !l.dual) && (decide (l.srcA = 255) || decide (l.inFirst = 0))
  && (match l.act with
      | 2 => decide (1 ≤ l.actArg ∧ l.actArg ≤ 15)
      | 3 => if fl then inRange (-8) 8 c else inRange 0 30 c
      | 4 => decide (l.actArg ≤ 15)
      | _ => decide (l.actArg = 0))

def layersCodesOk (r : RawImage) (cls : Nat) : Bool :=
  let ws := r.body 0x0D
  let a := ws.getD 0 0
  let d := ws.getD 4 0
  let n := fld a 23 16
  let recs := (chunks 8 ((ws.drop 16).take (8 * n))).map readLayer
  -- the block at an offset holds its words; without the offset it must hold none
  let off := fun (k need : Nat) =>
    let o := (ws.getD k 0).toNat
    decide (o % 16 = 0) && (if o = 0 then decide (need = 0) else decide (o + 4 * need ≤ 4 * ws.length))
  let rows := match recs.find? (fun q => q.ltype == 8) with | some q => (q.cIn, q.k + 1) | none => (0, 0)
  let cmap := (ws.drop ((ws.getD 8 0).toNat / 4)).take (rows.1 * rows.2)
  !r.has 0x0D || (
    decide (fld a 31 28 = 1 ∧ 1 ≤ n ∧ 16 + 8 * n ≤ ws.length) && zeroBits a 27 24 && zeroBits d 21 16
    && decide ((cls = 0) ↔ fld a 15 0 = 0) && decide ((ws.getD 1 0).toNat % 16 = 0 ∧ (ws.getD 1 0).toNat ≤ 201326592)
    && (wbit d 31 || decide (u64At ws 2 = 0)) && decide (fld d 27 22 ≤ 32 ∧ 1 ≤ (ws.getD 5 0).toNat ∧ (ws.getD 5 0).toNat ≤ 786432)
    && (decide (cls = 0) || decide (1 ≤ fld d 15 0 ∧ fld d 15 0 ≤ 256))
    && (if cls = 0 then decide (ws.getD 6 0 = 0) else decide ((ws.getD 6 0).toNat % 4096 = 0))
    && off 7 (48 * (recs.map (fun q => if q.act = 4 then q.actArg + 1 else 0)).foldl max 0) && off 8 (rows.1 * rows.2)
    && off 9 (if wbit d 31 then fld d 15 0 * (ws.getD 5 0).toNat else 0) && off 10 (4 * fld a 15 0)
    && off 11 ((ws.getD 1 0).toNat / 4) && zeroWords ((ws.drop 12).take 4)
    && (chunks rows.2 cmap).all (fun q => zeroBits (q.getD 0 0) 31 8)
    && (chunks 8 ((ws.drop 16).take (8 * n))).zipIdx.all (fun e => layerCodesOk e.2 e.1)
    && (chunks 4 ((ws.drop ((ws.getD 10 0).toNat / 4)).take (if ws.getD 10 0 = 0 then 0 else 4 * fld a 15 0))).all (fun q =>
        zeroBits (q.getD 0 0) 12 0 && decide (q.getD 3 0 = 0)))

/-- The seal's RSV word. -/
def sealOk (r : RawImage) : Bool := decide (r.w (r.bytes / 4 - 1) = 0)

/-- Check 2 of Table 06.6, whole. -/
def check2 (bytes : Nat) (r : RawImage) (im : Image) : Bool :=
  decide (bytes = im.hdr.bytes) && headerFieldsOk r im.hdr && sectionsOk r && requiredOk r im.hdr && entriesOk r && mapsOk r
  && wcetFieldsOk r && blocksOk (r.body 0x06).length (r.body 0x06) && im.strokes.all (fun b => b.words.all wordCodesOk)
  && decide ((r.body 0x07).length % 2 = 0 ∧ (r.body 0x08).length % 4 = 0) && segsOk r im
  && famsOk (r.body 0x0A).length (r.body 0x0A) && paramsRsvOk r && thrCodesOk r && layersCodesOk r im.hdr.cls && sealOk r

end Sys2Proof.Machine
end

