-- ==== Sys2Proof/Machine/Strokes.lean ====
section
/-! DEFINITION. Issue and retirement of stroke words on the tiles (chapters 05 and 06): the scratchpad with its valid bits, the
two spaces of R178, the turn of a tile, the issue of one slot of a PAIR word, the control words, OP_RETIRE and
PACKET_BANK_WRITE. The arithmetic of each slot stands in TileOps. -/

namespace Sys2Proof.Machine

-- scratchpad (R139, R162)

/-- A byte of the scratchpad: 0 in a 16-byte word that is not valid (R162). -/
def Tile.byte (t : Tile) (a : Nat) : Byte := if t.valid.contains (a / 16) then memByte t.pad a else 0

def Tile.bytes (t : Tile) (a n : Nat) : List Byte := (upTo n).map (fun i => t.byte (a + i))

/-- A little-endian value of n bytes. -/
def Tile.value (t : Tile) (a n : Nat) : Nat := leNat (t.bytes a n)
def Tile.word (t : Tile) (a : Nat) : Word := BitVec.ofNat 32 (t.value a 4)

/-- The eight words of a vector. -/
def Tile.vector (t : Tile) (a : Nat) : List Word := (upTo 8).map (fun i => t.word (a + 4 * i))

/-- Insert a number into a rising list. -/
def insertNat (x : Nat) : List Nat → List Nat
  | [] => [x]
  | y :: ys => if x = y then y :: ys else if x < y then x :: y :: ys else y :: insertNat x ys

/-- Make a 16-byte word valid: the rest of the word is zero (R162). -/
def Tile.validate (t : Tile) (w : Nat) : Tile :=
  if t.valid.contains w then t
  else { t with pad := memPutBytes t.pad (16 * w) (List.replicate 16 0), valid := insertNat w t.valid }

/-- Store bytes. -/
def Tile.store (t : Tile) (a : Nat) (bs : List Byte) : Tile :=
  let ws := (upTo ((a + bs.length + 15) / 16 - a / 16)).map (fun i => a / 16 + i)
  let u := if bs.isEmpty then t else ws.foldl Tile.validate t
  { u with pad := memPutBytes u.pad a bs }

-- the instance space (R178)

/-- The address of the instance's part that a byte of SPACE 1 names: the factor window shows the current buffer first. -/
def spaceAddr (im : Image) (swap : Bool) (a : Nat) : Nat :=
  let base := 4 * im.e + 4 * im.w
  let f := im.hdr.fBuf
  if swap && decide (base ≤ a) && decide (a < base + 2 * f) then base + (a - base + f) % (2 * f) else a

/-- The instance a DMA stroke reaches: the command's own, or the member in slot k of a batch (R178). -/
def dmaInst (x : Part) (c : Cmd) (k : Nat) : Option Inst :=
  if c.batch then (c.members.filterMap (fun m => x.inst? m.inst)).find? (fun i => i.member == k)
  else (c.members.head?).bind (fun m => x.inst? m.inst)

/-- Read n bytes of a space; no active member reads zeros. -/
def spaceRead (x : Part) (im : Image) (c : Cmd) (space k a n : Nat) : List Byte :=
  if space = 0 then memBytes (x.slot c.slot).space a n
  else
    match dmaInst x c k with
    | some i => (upTo n).map (fun d => memByte i.space (spaceAddr im i.bufSwap (a + d)))
    | none => List.replicate n 0

/-- Store bytes at SPACE 1 of an instance, byte by byte. -/
def spaceStore (im : Image) (i : Inst) (a : Nat) : Nat → List Byte → Memory
  | _, [] => i.space
  | d, b :: bs => memPut (spaceStore im i a (d + 1) bs) (spaceAddr im i.bufSwap (a + d)) b

-- issue

/-- The running command of a tile's partition: partition, key, command, image. -/
def tileRun (s : State) (t : Nat) : Option (Nat × CmdKey × Cmd × Image) :=
  match tilePart s t with
  | none => none
  | some p =>
    match (getPart s p).holder, (getPart s p).kill with
    | some k, none =>
      match getCmd s p k with
      | some c =>
        if c.st = .run ∨ c.st = .finish then (cmdImage s p c).map (fun im => (p, k, c, im)) else none
      | none => none
    | _, _ => none

/-- A tile's turn at fcyc c (R133, R179): every running tile of the partition has reached c, and every operation due by c has
retired. -/
def tileTurn (s : State) (p cyc : Nat) : Bool :=
  (getPart s p).pars.tiles.all (fun t =>
    let u := getTile s t
    (!u.running || decide (cyc ≤ u.cyc)) && u.flight.all (fun f => decide (cyc < f.due)))

/-- The word a tile is to issue, when it is the tile's turn. -/
def tileWord (s : State) (p t : Nat) : Option StoredWord :=
  let u := getTile s t
  if u.running && !u.ended && tileTurn s p u.cyc then tblFind u.strokes u.pc else none

/-- The word after the one at `pc`: the innermost loop that ends here runs again or is done (Table 06.13). -/
def Tile.after (t : Tile) (pc : Nat) : List LoopFrame → Tile
  | [] => { t with pc := pc + 1, loops := [] }
  | f :: fs =>
    if f.last = pc then
      if 0 < f.left then { t with pc := f.first, loops := { f with left := f.left - 1 } :: fs }
      else t.after pc fs
    else { t with pc := pc + 1, loops := f :: fs }

/-- Move past the word at `pc` after `n` fcyc. -/
def Tile.advance (t : Tile) (pc n : Nat) : Tile :=
  { t.after pc t.loops with cyc := t.cyc + n, done0 := false, done1 := false }

/-- One slot issued; when both are, the next word follows NEXT + 1 fcyc later (R179). -/
def Tile.slotDone (t : Tile) (w : BitVec 128) (sl : Nat) : Tile :=
  let u := if sl = 0 then { t with done0 := true } else { t with done1 := true }
  if u.done0 && u.done1 then u.advance u.pc (wNext w + 1) else u

/-- What a slot's operation sees when it issues. -/
structure Issue where
  part : Nat
  key : CmdKey
  cmd : Cmd
  img : Image
  x : Part
  tile : Nat
  t : Tile
  ops : Nat
  ann : Option AnnRec
deriving Repr

/-- What a slot's operation does: the tile's accumulators and circuits at issue; writes, flags and guard counts at
retirement; hops of a circuit. -/
structure OpOut where
  t : Tile
  writes : List WriteReq
  flags : Arith
  piv : PivCounts := {}
  hops : Nat := 0
  read : Option DmaRead := none
deriving Repr

def OpOut.plain (t : Tile) (writes : List WriteReq) (flags : Arith) : OpOut := { t := t, writes := writes, flags := flags }

/-- The slot `sl` of the word at a tile's pc, when it holds the operation and has not issued. -/
def issueOf (s : State) (t sl cls op : Nat) : Option (Issue × BitVec 128) :=
  match tileRun s t with
  | none => none
  | some (p, k, c, im) =>
    match tileWord s p t with
    | none => none
    | some w =>
      let u := getTile s t
      let x := wSlot w.word sl
      let there := if op = 0 then decide (slOp x = 0) else decide (slCls x = cls) && decide (slOp x = op)
      if decide (wFmt w.word = 0) && there && !(if sl = 0 then u.done0 else u.done1) && decide (u.flight.length < 16) then
        some (⟨p, k, c, im, getPart s p, t, u, x, if sl = 0 then w.ann0 else w.ann1⟩, w.word)
      else none

/-- Issue one slot (R149, R150): the operation is in flight for the latency of Table 05.3. -/
def runSlot (s : State) (t sl cls op : Nat) (eff : Issue → Option OpOut) : State :=
  match issueOf s t sl cls op with
  | none => s
  | some (i, w) =>
    match eff i with
    | none => s
    | some o =>
      let due := i.t.cyc + opLatency i.ops o.hops (edgeRows t)
      let u : Tile := { o.t with flight := o.t.flight ++ [⟨due, o.writes, o.flags, o.piv, o.read⟩] }
      setTile s t (u.slotDone w sl)

/-- STROKE_NOP: a slot with OP 0 takes its issue and starts nothing (R176). -/
def execStrokeNop (t : TileId) (sl : StrokeSlot) (s : State) : Result :=
  match issueOf s t.val sl.val 0 0 with
  | none => .next s
  | some (i, w) => .next (setTile s t.val (i.t.slotDone w sl.val))

-- retirement

/-- The bytes of a DMA read. -/
def DmaRead.fetch (r : DmaRead) (x : Part) (im : Image) (c : Cmd) : List Byte :=
  match r.data with
  | some bs => bs
  | none => spaceRead x im c r.space r.member r.addr 32

/-- Reads that held their port in fcyc `w` or before have their beat: a DMA write of fcyc `w` is not seen by them (R434). -/
def captureReads (s : State) (p : Nat) (im : Image) (c : Cmd) (w : Nat) : State :=
  let x := getPart s p
  modTiles s p (fun t => { t with flight := t.flight.map (fun f =>
    match f.read with
    | some r => if r.port ≤ w then { f with read := some { r with data := some (r.fetch x im c) } } else f
    | none => f) })

/-- Put one write where it belongs (R150, R178, R156); `due` is the fcyc of a DMA write's port. -/
def applyWrite (p : Nat) (im : Image) (c : Cmd) (due : Nat) (s : State) (w : WriteReq) : State :=
  match w.place with
  | .pad t => setTile s t ((getTile s t).store w.addr w.bytes)
  | .image =>
    let s1 := captureReads s p im c due
    let k := getSlot s1 p c.slot
    setSlot s1 p c.slot { k with space := memPutBytes k.space w.addr w.bytes }
  | .inst k =>
    let s1 := captureReads s p im c due
    match dmaInst (getPart s1 p) c k with
    | some i => putInst s1 p { i with space := spaceStore im i w.addr 0 w.bytes }
    | none => s1
  | .packet t d =>
    let u := getTile s t
    let n := w.bytes.length / 32
    let data := (upTo n).map (fun i => Flit.data d (w.addr + 32 * i) ((w.bytes.drop (32 * i)).take 32))
    setTile s t { u with sending := u.sending ++ .header d w.addr n :: data }

/-- Load words of an entry copy into their variables (R68): word k goes to variable num + k. -/
def loadWords (im : Image) (a : AnnRec) (first : Nat) (ws : List Word) : List (Word × Bool) :=
  ws.zipIdx.map (fun e =>
    match im.entries[first + e.2]?, im.varRec? (a.num + e.2) with
    | some q, some v => loadConvert q.u e.1 (32 - q.fmtM) (32 - v.fmtM)
    | _, _ => (e.1, false))

/-- A DMA read completes: the beat goes to the scratchpad; entry words under an annotation load their variables
(assumption 7), and SAT_LOAD is set when one saturates. -/
def DmaRead.finish (r : DmaRead) (x : Part) (im : Image) (c : Cmd) (tile : Nat) : WriteReq × Arith :=
  let bs := r.fetch x im c
  match r.ann with
  | some a =>
    let ws := loadWords im a (r.addr / 4) ((upTo 8).map (fun k => BitVec.ofNat 32 (leNat ((bs.drop (4 * k)).take 4))))
    (⟨.pad tile, r.dest, wordsBytes (ws.map (fun e => e.1))⟩, flagIf (ws.any (fun e => e.2)) satLoad)
  | none => (⟨.pad tile, r.dest, bs⟩, 0)

/-- An operation as it retires: a DMA read has its beat. -/
def InFlight.land (f : InFlight) (x : Part) (im : Image) (c : Cmd) (tile : Nat) : InFlight :=
  match f.read with
  | some r => let o := r.finish x im c tile; { f with writes := f.writes ++ [o.1], flags := f.flags ||| o.2, read := none }
  | none => f

/-- Flags and guard counts of a retired operation reach its command; a first saturation keeps its tile (R77, R81, R198). -/
def Cmd.merge (c : Cmd) (t : Nat) (f : InFlight) : Cmd :=
  let first := if f.flags &&& breachMask = 0 then c.firstTile
               else match c.firstTile with | some q => some q | none => some (t, f.flags)
  { c with arith := c.arith ||| f.flags, firstTile := first,
           piv := ⟨satAdd 16 c.piv.repl f.piv.repl, satAdd 16 c.piv.zero f.piv.zero, satAdd 16 c.piv.inertia f.piv.inertia⟩ }

/-- Whether an operation due at `due` may retire: every running tile has reached it, and nothing due earlier is in flight. -/
def retireTurn (s : State) (p due : Nat) : Bool :=
  (getPart s p).pars.tiles.all (fun t =>
    let u := getTile s t
    (!u.running || decide (due ≤ u.cyc)) && u.flight.all (fun f => decide (due ≤ f.due)))

/-- OP_RETIRE (R150): the k-th operation in flight on a tile writes its result; its flags are merged, and an enabled trap is
marked pending (R107). -/
def execOpRetire (t : TileId) (k : Fin 16) (s : State) : Result :=
  match tileRun s t.val with
  | none => .next s
  | some (p, key, c, im) =>
    let u := getTile s t.val
    match u.flight[k.val]? with
    | none => .next s
    | some f0 =>
      let f := f0.land (getPart s p) im c t.val
      if retireTurn s p f.due then
        let s1 := setTile s t.val { u with flight := u.flight.eraseIdx k.val, trap := u.trap ||| (f.flags &&& c.fpcw.trapMask) }
        let s2 := f.writes.foldl (applyWrite p im c f.due) s1
        .next (putCmd s2 p key (c.merge t.val f))
      else .next s

-- control words (Table 06.13)

/-- The control word at a tile's pc, with what the tile runs. -/
def ctrlOf (s : State) (t cop : Nat) : Option (Nat × CmdKey × Cmd × Image × BitVec 128) :=
  match tileRun s t with
  | none => none
  | some (p, k, c, im) =>
    match tileWord s p t with
    | none => none
    | some w => if wFmt w.word = 1 ∧ wCop w.word = cop then some (p, k, c, im, w.word) else none

/-- IDLE: the next word issues COUNT + NEXT + 1 fcyc later. -/
def execIdle (t : TileId) (s : State) : Result :=
  match ctrlOf s t.val 0 with
  | none => .next s
  | some (_, _, _, _, w) =>
    let u := getTile s t.val
    .next (setTile s t.val (u.advance u.pc (cIdle w + wNext w + 1)))

/-- Clear the accumulators of the masked lanes, fixed-point and tensor, and give them F fraction bits. -/
def Tile.openAcc (t : Tile) (mask f : Nat) : Tile :=
  (upTo 8).foldl (fun u l =>
    if mask.testBit l then
      { u with acc := tblSet 0 u.acc l 0, accF := tblSet 0 u.accF l f, tacc := u.tacc.filter (fun e => e.1 / 32 ≠ l) }
    else u) t

/-- ACCOPEN: the masked accumulators are 0 with F fraction bits (R69). -/
def execAccopen (t : TileId) (s : State) : Result :=
  match ctrlOf s t.val 1 with
  | none => .next s
  | some (_, _, _, _, w) =>
    let u := (getTile s t.val).openAcc (cAccMask w) (cAccF w)
    .next (setTile s t.val (u.advance u.pc (wNext w + 1)))

/-- FPBAR: a barrier (R108). A pending trap is taken here and ends the chain (R110, R219); a range breach with it decides
(R111). Otherwise the tile remembers the barrier. -/
def execFpbar (t : TileId) (s : State) : Result :=
  match ctrlOf s t.val 2 with
  | none => .next s
  | some (p, k, c, im, w) =>
    let u := getTile s t.val
    if u.flight ≠ [] then .next s
    else if u.trap = 0 then
      let v : Tile := { u with lastBar := u.pc }
      .next (setTile s t.val (v.advance u.pc (wNext w + 1)))
    else if im.cert.isSome && decide (c.arith &&& breachMask ≠ 0) then .next (breakBreach s p k c)
    else .next (breakTrap s p k c t.val u.trap u.pc u.lastBar)

/-- LOOP: the words from the next to END run COUNT times. -/
def execLoop (t : TileId) (s : State) : Result :=
  match ctrlOf s t.val 3 with
  | none => .next s
  | some (_, _, _, _, w) =>
    let u := getTile s t.val
    .next (setTile s t.val { u with
      loops := ⟨u.pc + 1, cLoopEnd w, cLoopCount w - 1⟩ :: u.loops, pc := u.pc + 1, cyc := u.cyc + wNext w + 1 })

/-- FAMCALL: the member the index names follows 4 fcyc later; an index of MEMBERS or more ends the chain (R182, R219), and the
UPDATE segment that ran it counts (R207). -/
def execFamcall (t : TileId) (s : State) : Result :=
  match ctrlOf s t.val 4 with
  | none => .next s
  | some (p, k, c, im, w) =>
    let u := getTile s t.val
    match im.fams.find? (fun f => f.family == cFamily w) with
    | none => .next s
    | some f =>
      let ix := (u.word (cIdx w)).toNat
      if f.members ≤ ix then
        .next (breakFault s p k { c with rank1 := if c.seg = sUpdate then c.rank1 + 1 else c.rank1 } cfFamilyIndex t.val)
      else .next (setTile s t.val { u with ret := some u.pc, pc := f.addrs.getD ix 0, cyc := u.cyc + 4 })

/-- FAMRET: the word after the FAMCALL follows by the FAMRET's NEXT. -/
def execFamret (t : TileId) (s : State) : Result :=
  match ctrlOf s t.val 5 with
  | none => .next s
  | some (_, _, _, _, w) =>
    let u := getTile s t.val
    match u.ret with
    | none => .next s
    | some pc =>
      let v : Tile := { u with ret := none }
      .next (setTile s t.val (v.advance pc (wNext w + 1)))

/-- SEGEND: the tile ends the segment; on the decider tile the decision word is read (R180). -/
def execSegend (t : TileId) (s : State) : Result :=
  match ctrlOf s t.val 6 with
  | none => .next s
  | some (_, _, _, _, w) =>
    let u := getTile s t.val
    if u.flight ≠ [] then .next s
    else .next (setTile s t.val { u with
      running := false, ended := true, decision := if cDecider w then some (u.word (cDec w)) else none })

end Sys2Proof.Machine
end

