-- ==== Sys2Proof/Machine/TileOps.lean ====
section
/-! DEFINITION. The operations of a PAIR word's slots (Tables 06.12a to 06.12c): one meaning per operation over the issue of
Strokes and the arithmetic of Fixed and Float. Results are computed at issue and written at retirement (R150). -/

namespace Sys2Proof.Machine

-- shared forms

/-- A write of bytes to the issuing tile's scratchpad. -/
def Issue.put (i : Issue) (a : Nat) (bs : List Byte) : WriteReq := ⟨.pad i.tile, a, bs⟩

/-- The lanes a stroke selects (R138). -/
def maskLanes (x : Nat) : List Nat := (upTo 8).filter (fun l => (slMask x).testBit l)

/-- The certificate record of the variable an annotation names. -/
def Issue.var? (i : Issue) : Option VarRec := i.ann.bind (fun a => i.img.varRec? a.num)

-- lane group: accumulators (R69 to R75)

/-- Fold an accumulator operation over the selected lanes: new accumulators, and whether one saturated. -/
def foldLanes (i : Issue) (f : Nat → BitVec 80 → BitVec 80 × Bool) : Tbl (BitVec 80) × Bool :=
  (maskLanes i.ops).foldl (fun r l =>
    let v := f l (tblGet 0 r.1 l)
    (tblSet 0 r.1 l v.1, r.2 || v.2)) (i.t.acc, false)

def effMac (i : Issue) : Option OpOut :=
  let a := i.t.vector (slVa i.ops)
  let b := i.t.vector (slVb i.ops)
  let r := foldLanes i (fun l acc => macLane acc (a.getD l 0) (b.getD l 0) (slShift i.ops))
  some (.plain { i.t with acc := r.1 } [] (flagIf r.2 satAcc))

def effAccadd (i : Issue) : Option OpOut :=
  let a := i.t.vector (slVa i.ops)
  let r := foldLanes i (fun l acc => accAdd acc (align (a.getD l 0).toInt (slShift i.ops)))
  some (.plain { i.t with acc := r.1 } [] (flagIf r.2 satAcc))

/-- One 32-bit result per selected lane, with its saturation. -/
def laneWords (i : Issue) (f : Nat → Word × Bool) (dest : Nat) : List WriteReq × Bool :=
  ((maskLanes i.ops).map (fun l => i.put (dest + 4 * l) (leBytes 4 (f l).1.toNat)),
    (maskLanes i.ops).any (fun l => (f l).2))

def effAccWb (i : Issue) : Option OpOut :=
  (roundOfCode (slRoundWb i.ops)).map (fun m =>
    let r := laneWords i (fun l => accWriteback (tblGet 0 i.t.acc l) (slK8 i.ops) m) (slVa i.ops)
    .plain i.t r.1 (flagIf r.2 satWb))

-- lane group: tensor (R113 to R117)

/-- Elements of `w` bits in a word. -/
def wordElems (w : Nat) (x : Word) : List Nat := (upTo (32 / w)).map (fun k => x.toNat / 2 ^ (w * k) % 2 ^ w)

/-- The operand elements of tensor accumulator k of a lane (R113, R137; assumption 26). -/
def tensorPick (code k : Nat) (ea eb : List Nat) : Nat × Nat :=
  (ea.getD (Config.tensorA code k % ea.length) 0, eb.getD (Config.tensorB code k % eb.length) 0)

/-- One tensor MAC into an accumulator word. -/
def tensorStep (fa fb : TFmt) (tdaz : Bool) (acc : Word) (a b : Nat) : Word × Arith :=
  match fa.float?, fb.float? with
  | some x, some y =>
    let r := tensorMacFp x y tdaz acc a b
    (r.1, r.2.arith)
  | _, _ =>
    let r := tensorMacInt acc (tensorInt fa a) (tensorInt fb b)
    (r.1, flagIf r.2 tfSat)

def effTmac (i : Issue) : Option OpOut :=
  match TFmt.ofCode (slFmtA i.ops), TFmt.ofCode (slFmtB i.ops) with
  | some fa, some fb =>
    let n := tensorCount fa fb
    let va := i.t.vector (slVa i.ops)
    let vb := i.t.vector (slVb i.ops)
    let r := (maskLanes i.ops).foldl (fun q l =>
      let ea := wordElems fa.bits (va.getD l 0)
      let eb := wordElems fb.bits (vb.getD l 0)
      (upTo n).foldl (fun (u : Tbl Word × Arith) k =>
        let e := tensorPick (8 * slFmtA i.ops + slFmtB i.ops) k ea eb
        let v := tensorStep fa fb i.cmd.fpcw.tdaz (tblGet 0 u.1 (32 * l + k)) e.1 e.2
        (tblSet 0 u.1 (32 * l + k) v.1, u.2 ||| v.2)) q) (i.t.tacc, (0 : Arith))
    some (.plain { i.t with tacc := r.1, tcount := n } [] r.2)
  | _, _ => none

/-- Convert one tensor accumulator to a target (R117). -/
def tensorOut (t : TFmt) (satcvt : Bool) (shift : Nat) (acc : Word) : Nat × Arith :=
  match t.float? with
  | some f =>
    let r := tensorConvert f satcvt acc
    (r.1, r.2.arith)
  | none =>
    let r := tensorRequant t shift acc
    (r.1, flagIf r.2 tfSat)

/-- Pack elements of `w` bits, the first in the low bits. -/
def packElems (w : Nat) : List Nat → Nat
  | [] => 0
  | x :: xs => x + 2 ^ w * packElems w xs

def effTwb (i : Issue) : Option OpOut :=
  (TFmt.ofCode (slFmtA i.ops)).map (fun t =>
    let outs := (maskLanes i.ops).map (fun l =>
      (l, (upTo i.t.tcount).map (fun k =>
        tensorOut t i.cmd.fpcw.satcvt (slTwbShift i.ops) (tblGet 0 i.t.tacc (32 * l + k)))))
    let n := t.bits * i.t.tcount / 8
    .plain i.t
      (outs.map (fun o => i.put (slVa i.ops + 32 * o.1) (leBytes n (packElems t.bits (o.2.map (fun e => e.1))))))
      ((outs.flatMap (fun o => o.2)).foldl (fun f e => f ||| e.2) 0))

-- lane group: multi-word (R126 to R129)

/-- The k words of a lane's multi-word value: word j is in vector A + j. -/
def mwRead (i : Issue) (a k l : Nat) : List Word := (upTo k).map (fun j => i.t.word (a + 32 * j + 4 * l))

/-- Write the words of each selected lane's result. -/
def mwWrites (i : Issue) (dest : Nat) (f : Nat → List Word × Bool) : List WriteReq × Bool :=
  ((maskLanes i.ops).flatMap (fun l =>
      (f l).1.zipIdx.map (fun e => i.put (dest + 32 * e.2 + 4 * l) (leBytes 4 e.1.toNat))),
    (maskLanes i.ops).any (fun l => (f l).2))

def effMwAddSub (sub : Bool) (i : Issue) : Option OpOut :=
  let k := slMw i.ops
  let r := mwWrites i (slVa i.ops) (fun l =>
    mwAddSub sub (slMwSigned i.ops) (slMwWrap i.ops) (mwRead i (slVa i.ops) k l) (mwRead i (slVb i.ops) k l))
  some (.plain i.t r.1 (flagIf r.2 satWb))

def effMwmul (i : Issue) : Option OpOut :=
  (roundOfCode (slMulRound i.ops)).map (fun m =>
    let k := slMw i.ops
    let r := mwWrites i (slVa i.ops) (fun l =>
      mwMul (slSa i.ops) (slSb i.ops) (mwRead i (slVa i.ops) k l) (mwRead i (slVb i.ops) (if slB32 i.ops then 1 else k) l)
        (slMulK i.ops) m (if slD32 i.ops then 1 else k))
    .plain i.t r.1 (flagIf r.2 satWb))

def effMwext (i : Issue) : Option OpOut :=
  let src := i.t.vector (slVb i.ops)
  let r := mwWrites i (slVa i.ops) (fun l => (mwExt (slMwSigned i.ops) (src.getD l 0) (slMw i.ops), false))
  some (.plain i.t r.1 0)

def effMwnarrow (i : Issue) : Option OpOut :=
  (roundOfCode (slNarRound i.ops)).map (fun m =>
    let r := laneWords i (fun l => mwToWord (mwRead i (slVb i.ops) (slMw i.ops) l) (slNarK i.ops) m) (slVa i.ops)
    .plain i.t r.1 (flagIf r.2 satWb))

-- scalar FP (R97 to R104)

/-- Operate on FP64, or on both FP32 halves with their flags ORed (R105); a half's result is 4 bytes, FP64's is 8. -/
def scalar (p : Bool) (f : FFmt → Nat → Nat → Nat → Nat × FpFlags) (a b d : Nat) : List Byte × FpFlags :=
  if p then
    let lo := f fp32 (a % 2 ^ 32) (b % 2 ^ 32) (d % 2 ^ 32)
    let hi := f fp32 (a / 2 ^ 32) (b / 2 ^ 32) (d / 2 ^ 32)
    (leBytes 4 lo.1 ++ leBytes 4 hi.1, lo.2.or hi.2)
  else
    let r := f fp64 a b d
    (leBytes 8 r.1, r.2)

/-- A scalar operation of A, B and D into D. -/
def effScalar (f : FFmt → Nat → Nat → Nat → Nat × FpFlags) (i : Issue) : Option OpOut :=
  let x := i.ops
  let r := scalar (slP x) f (i.t.value (slA x) 8) (i.t.value (slB x) 8) (i.t.value (slD x) 8)
  some (.plain i.t [i.put (slD x) r.1] r.2.arith)

def Issue.rnd (i : Issue) : RoundMode := i.cmd.fpcw.frnd

def effFadd (i : Issue) : Option OpOut := effScalar (fun f a b _ => f.add i.rnd a b) i
def effFsub (i : Issue) : Option OpOut := effScalar (fun f a b _ => f.sub i.rnd a b) i
def effFmul (i : Issue) : Option OpOut := effScalar (fun f a b _ => f.mul i.rnd a b) i
def effFma (i : Issue) : Option OpOut := effScalar (fun f a b d => f.fma i.rnd a b d) i
def effMinMax (isMax : Bool) (i : Issue) : Option OpOut := effScalar (fun f a b _ => f.minMax isMax a b) i

/-- A comparison writes 1 or 0 as an integer per half (Table 06.12b). -/
def effCompare (op : CmpOp) (i : Issue) : Option OpOut :=
  effScalar (fun f a b _ => let r := f.compare op a b; (if r.1 then 1 else 0, r.2)) i

/-- CVT (R120, R121) by CK: result bytes and flags; none for a reserved code. -/
def cvtOut (i : Issue) : Option (List Byte × Arith) :=
  let x := i.ops
  let m := i.rnd
  let a8 := i.t.value (slA x) 8
  let a4 := i.t.value (slA x) 4
  let fix := fun (f : FFmt) (a : Nat) =>
    (roundOfCode (slCvtRound x)).map (fun r =>
      let v := floatToFixed f r (slU x) (slN x) a
      (leBytes 4 v.1.toNat, flagIf v.2.1 satConv ||| flagIf v.2.2 fpNv))
  match slCk x with
  | 0 => let r := convert fp64 fp32 m a8; some (leBytes 4 r.1, r.2.arith)
  | 1 => let r := convert fp32 fp64 m a4; some (leBytes 8 r.1, r.2.arith)
  | 2 => let r := fixedToFloat fp64 m (slU x) (i.t.word (slA x)) (slN x); some (leBytes 8 r.1, r.2.arith)
  | 3 => let r := fixedToFloat fp32 m (slU x) (i.t.word (slA x)) (slN x); some (leBytes 4 r.1, r.2.arith)
  | 4 => fix fp64 a8
  | 5 => fix fp32 a4
  | _ => none

def effCvt (i : Issue) : Option OpOut :=
  (cvtOut i).map (fun r => .plain i.t [i.put (slD i.ops) r.1] r.2)

-- the pivot unit (R118, R119) and its guard (R194 to R197)

/-- One pivot operation in the stroke's FORM: `fl` on a float format, `fx` on fixed point. -/
def pivotOut (i : Issue) (fl : FFmt → RoundMode → Nat → Nat → Nat × FpFlags) (fx : RoundMode → Word → Word → Word × Bool) :
    Option (List Byte × Arith) :=
  let x := i.ops
  match slForm x with
  | 0 => let r := fl fp64 i.rnd (i.t.value (slA x) 8) (i.t.value (slB x) 8); some (leBytes 8 r.1, r.2.arith)
  | 1 => let r := fl fp32 i.rnd (i.t.value (slA x) 4) (i.t.value (slB x) 4); some (leBytes 4 r.1, r.2.arith)
  | 2 =>
    (roundOfCode (slPivRound x)).map (fun m =>
      let r := fx m (i.t.word (slA x)) (i.t.word (slB x))
      (leBytes 4 r.1.toNat, flagIf r.2 satWb))
  | _ => none

def effPivot (fl : FFmt → RoundMode → Nat → Nat → Nat × FpFlags) (fx : RoundMode → Word → Word → Word × Bool) (i : Issue) :
    Option OpOut :=
  (pivotOut i fl fx).map (fun r => .plain i.t [i.put (slD i.ops) r.1] r.2)

/-- Fraction bits of a fixed-point source (assumption 7). -/
def Issue.fracA (i : Issue) : Nat := 32 - annM i.ann
def Issue.fracB (i : Issue) : Nat := 32 - annMB i.ann

def effRsqrt (i : Issue) : Option OpOut :=
  effPivot (fun f m a _ => f.rsqrt m a) (fun m a _ => fixRsqrt a i.fracA (slNd i.ops) m) i

def effDiv (i : Issue) : Option OpOut :=
  effPivot (fun f m a b => f.div m a b) (fun m a b => fixDiv a i.fracA b i.fracB (slNd i.ops) m) i

/-- A guarded RECIP (R194, R196): d′ to the source, 1/d′ to the destination, and the guard counts. -/
def guardedRecip (i : Issue) (blockD : Bool) : Option OpOut :=
  let x := i.ops
  let h := i.img.hdr
  let count := fun (g : Bool × Bool × Bool) => PivCounts.count {} g.1 g.2.1 g.2.2
  let float := fun (f : FFmt) (n : Nat) (tau dd : Nat) =>
    let g := f.guard blockD tau dd (i.t.value (slA x) n)
    let r := f.recip i.rnd g.1
    some (⟨i.t, [i.put (slA x) (leBytes n g.1), i.put (slD x) (leBytes n r.1)], r.2.arith, count g.2, 0, none⟩ : OpOut)
  match slForm x with
  | 0 => float fp64 8 h.tau h.deltaD
  | 1 => float fp32 4 (convert fp64 fp32 .rne h.tau).1 (convert fp64 fp32 .rne h.deltaD).1
  | 2 =>
    (roundOfCode (slPivRound x)).map (fun m =>
      let n := i.fracA
      let g := fixGuard blockD (fp64Scaled true n h.tau) (fp64Scaled false n h.deltaD) (i.t.word (slA x)).toInt
      let d := BitVec.ofInt 32 g.1
      let r := fixRecip d n (slNd x) m
      ⟨i.t, [i.put (slA x) (leBytes 4 d.toNat), i.put (slD x) (leBytes 4 r.1.toNat)], flagIf r.2 satWb, count g.2, 0, none⟩)
  | _ => none

def effRecip (i : Issue) : Option OpOut :=
  match guardBlock i.ann with
  | some b => guardedRecip i b
  | none => effPivot (fun f m a _ => f.recip m a) (fun m a _ => fixRecip a i.fracA (slNd i.ops) m) i

-- transfers (R153 to R160, R177, R178)

/-- The tiles of a circuit route in order, as logical tiles. -/
def routeTiles (x : Part) (im : Image) (n : Nat) : List Nat :=
  (im.routes.filter (fun r => r.route == n)).map (fun r => relTile x.pars r.row r.col)

/-- CXFER: one flit to the route's end; the route opens at its first flit and closes after one with LAST. -/
def effCxfer (i : Issue) : Option OpOut :=
  let x := i.ops
  let r := routeTiles i.x i.img (slRoute x)
  (r.getLast?).map (fun dest =>
    let openR := if i.t.routes.contains (slRoute x) then i.t.routes else i.t.routes ++ [slRoute x]
    ⟨{ i.t with routes := if slLast x then openR.filter (fun q => q ≠ slRoute x) else openR },
      [⟨.pad dest, slXdst x, i.t.bytes (slXsrc x) 32⟩], 0, {}, r.length - 1, none⟩)

def effLcopy (i : Issue) : Option OpOut :=
  some (.plain i.t [i.put (slXdst i.ops) (i.t.bytes (slXsrc i.ops) 32)] 0)

/-- DMARD: one beat of a space, read in fcyc issue + d + 4 (R434). -/
def effDmard (i : Issue) : Option OpOut :=
  let x := i.ops
  if 2 ≤ slSpace x then none
  else
    let r : DmaRead := ⟨i.t.cyc + edgeRows i.tile + 4, slSpace x, slMember x, slRoff x, slDmaV x, i.ann, none⟩
    some { OpOut.plain i.t [] 0 with read := some r }

def effDmawr (i : Issue) : Option OpOut :=
  let x := i.ops
  if 2 ≤ slSpace x then none
  else
    let place : WritePlace := if slSpace x = 0 then .image else .inst (slMember x)
    some (.plain i.t [⟨place, slRoff x, i.t.bytes (slDmaV x) 32⟩] 0)

/-- PKT: a packet of 1 to 8 flits, for best-effort commands only (R156, R158); its flits wait at the tile from the next fcyc
(assumption 76). -/
def effPkt (i : Issue) : Option OpOut :=
  let x := i.ops
  match i.key with
  | .entry _ => none
  | .ring _ =>
    some (.plain i.t [⟨.packet i.tile (relTile i.x.pars (slPkRow x) (slPkCol x)), slPkDst x,
      i.t.bytes (slPkSrc x) (32 * slPkFlits x)⟩] 0)

-- the commands

def execMac (t : TileId) (sl : StrokeSlot) (s : State) : Result := .next (runSlot s t.val sl.val 0 0x01 effMac)
def execAccadd (t : TileId) (sl : StrokeSlot) (s : State) : Result := .next (runSlot s t.val sl.val 0 0x02 effAccadd)
def execAccWb (t : TileId) (sl : StrokeSlot) (s : State) : Result := .next (runSlot s t.val sl.val 0 0x03 effAccWb)
def execTmac (t : TileId) (sl : StrokeSlot) (s : State) : Result := .next (runSlot s t.val sl.val 0 0x04 effTmac)
def execTwb (t : TileId) (sl : StrokeSlot) (s : State) : Result := .next (runSlot s t.val sl.val 0 0x05 effTwb)
def execMwadd (t : TileId) (sl : StrokeSlot) (s : State) : Result :=
  .next (runSlot s t.val sl.val 0 0x06 (effMwAddSub false))
def execMwsub (t : TileId) (sl : StrokeSlot) (s : State) : Result :=
  .next (runSlot s t.val sl.val 0 0x07 (effMwAddSub true))
def execMwmul (t : TileId) (sl : StrokeSlot) (s : State) : Result := .next (runSlot s t.val sl.val 0 0x08 effMwmul)
def execMwext (t : TileId) (sl : StrokeSlot) (s : State) : Result := .next (runSlot s t.val sl.val 0 0x09 effMwext)
def execMwnarrow (t : TileId) (sl : StrokeSlot) (s : State) : Result := .next (runSlot s t.val sl.val 0 0x0A effMwnarrow)

def execFadd (t : TileId) (sl : StrokeSlot) (s : State) : Result := .next (runSlot s t.val sl.val 1 0x01 effFadd)
def execFsub (t : TileId) (sl : StrokeSlot) (s : State) : Result := .next (runSlot s t.val sl.val 1 0x02 effFsub)
def execFmul (t : TileId) (sl : StrokeSlot) (s : State) : Result := .next (runSlot s t.val sl.val 1 0x03 effFmul)
def execFma (t : TileId) (sl : StrokeSlot) (s : State) : Result := .next (runSlot s t.val sl.val 1 0x04 effFma)
def execMin (t : TileId) (sl : StrokeSlot) (s : State) : Result := .next (runSlot s t.val sl.val 1 0x05 (effMinMax false))
def execMax (t : TileId) (sl : StrokeSlot) (s : State) : Result := .next (runSlot s t.val sl.val 1 0x06 (effMinMax true))
def execCmpeq (t : TileId) (sl : StrokeSlot) (s : State) : Result := .next (runSlot s t.val sl.val 1 0x07 (effCompare .eq))
def execCmplt (t : TileId) (sl : StrokeSlot) (s : State) : Result := .next (runSlot s t.val sl.val 1 0x08 (effCompare .lt))
def execCmple (t : TileId) (sl : StrokeSlot) (s : State) : Result := .next (runSlot s t.val sl.val 1 0x09 (effCompare .le))
def execCvt (t : TileId) (sl : StrokeSlot) (s : State) : Result := .next (runSlot s t.val sl.val 1 0x0A effCvt)

def execRecip (t : TileId) (sl : StrokeSlot) (s : State) : Result := .next (runSlot s t.val sl.val 2 0x01 effRecip)
def execRsqrt (t : TileId) (sl : StrokeSlot) (s : State) : Result := .next (runSlot s t.val sl.val 2 0x02 effRsqrt)
def execDiv (t : TileId) (sl : StrokeSlot) (s : State) : Result := .next (runSlot s t.val sl.val 2 0x03 effDiv)

def execCxfer (t : TileId) (sl : StrokeSlot) (s : State) : Result := .next (runSlot s t.val sl.val 3 0x01 effCxfer)
def execLcopy (t : TileId) (sl : StrokeSlot) (s : State) : Result := .next (runSlot s t.val sl.val 3 0x02 effLcopy)
def execDmard (t : TileId) (sl : StrokeSlot) (s : State) : Result := .next (runSlot s t.val sl.val 3 0x03 effDmard)
def execDmawr (t : TileId) (sl : StrokeSlot) (s : State) : Result := .next (runSlot s t.val sl.val 3 0x04 effDmawr)
def execPkt (t : TileId) (sl : StrokeSlot) (s : State) : Result := .next (runSlot s t.val sl.val 3 0x05 effPkt)

end Sys2Proof.Machine
end

