-- ==== Sys2Proof/Machine/ImageSched.lean ====
section
/-! DEFINITION. Check 9 of Table 06.6: every stroke, route, segment and family of an image against the rules of chapters 03 to 06
and 16. Each segment (each kernel of a best-effort model) is walked on every tile with its loops and families run out; the timed
operations are then held against ports, latencies, circuits and side ports (assumption 40). -/

namespace Sys2Proof.Machine

-- values of one slot (R176, R177)

/-- Vector units from a byte address, and the last vector a slot reaches in 32-byte units. -/
def vecOk (a n : Nat) : Bool := decide (a / 32 + n ≤ 3072)
def scaOk (a : Nat) : Bool := decide (a / 8 < 12288)

/-- Bytes of a space (R178): the entry table and the staging buffers, or the primary part of one instance. -/
def spaceBytes (im : Image) (space : Nat) : Nat :=
  if space = 0 then
    16 * im.e + (match im.layers with | some l => (l.kernels.map (fun k => k.stageBytes)).foldl max 0 | none => 0)
  else 4 * im.e + 4 * im.w + im.hdr.fFac

def dmaOk (im : Image) (x : Nat) : Bool :=
  decide (slSpace x ≤ 1) && decide (slRoff x < spaceBytes im (slSpace x)) && decide (slMember x < im.batchMax) && vecOk (slDmaV x) 1

/-- Shifts of a slot (R71, R74): judged by check 8 with a certificate (Table 03.8), by check 9 without. -/
def shiftOk (x : Nat) : Bool :=
  match slCls x, slOp x with
  | 0, 1 => inRange (-63) 16 (slShift x)
  | 0, 2 => inRange (-31) 48 (slShift x)
  | 0, 3 => inRange (-48) 79 (slK8 x)
  | 0, 10 => inRange (-48) 79 (slNarK x)
  | _, _ => true

/-- Values of one slot (Tables 06.12a to 06.12c; R113, R127, R128, R141, R157). -/
def slotOk (im : Image) (x : Nat) : Bool :=
  let two := decide (slVa x / 32 % 4 ≠ slVb x / 32 % 4)
  match slCls x, slOp x with
  | 0, 1 => vecOk (slVa x) 1 && vecOk (slVb x) 1 && two
  | 0, 2 => vecOk (slVa x) 1
  | 0, 3 => vecOk (slVa x) 1
  | 0, 4 =>
    (match TFmt.ofCode (slFmtA x), TFmt.ofCode (slFmtB x) with | some a, some b => tensorPairOk a b | _, _ => false)
      && vecOk (slVa x) 1 && vecOk (slVb x) 1 && two
  | 0, 5 => (maskLanes x).all (fun l => vecOk (slVa x + 32 * l) 1)
  | 0, 8 =>
    decide (slMulK x ≤ 2 * 32 * slMw x - 32) && vecOk (slVa x) (slMw x)
      && vecOk (slVb x) (if slB32 x then 1 else slMw x) && two
  | 0, 9 => vecOk (slVa x) (slMw x) && vecOk (slVb x) 1
  | 0, 10 => vecOk (slVa x) 1 && vecOk (slVb x) (slMw x)
  | 0, _ => !(slMwWrap x && slMwSigned x) && vecOk (slVa x) (slMw x) && vecOk (slVb x) (slMw x) && two
  | 1, 10 => scaOk (slD x) && scaOk (slA x)
  | 1, _ => scaOk (slD x) && scaOk (slA x) && scaOk (slB x)
  | 2, n => scaOk (slD x) && scaOk (slA x) && (decide (n ≠ 3) || scaOk (slB x))
  | 3, 1 => vecOk (slXsrc x) 1 && vecOk (slXdst x) 1 && im.routes.any (fun r => r.route == slRoute x)
  | 3, 2 => vecOk (slXsrc x) 1 && vecOk (slXdst x) 1
  | 3, 3 => dmaOk im x
  | 3, 4 => dmaOk im x
  | 3, _ => !im.isLc && vecOk (slPkSrc x) (slPkFlits x) && vecOk (slPkDst x) (slPkFlits x)
      && decide (slPkCol x < im.hdr.gcols ∧ slPkRow x < 8 * im.hdr.ghalves)
  | _, _ => false

/-- Values of a control word (Table 06.13): the F of an accumulator (R69), a family the image has, scalar addresses. -/
def ctrlOk (im : Image) (w : BitVec 128) : Bool :=
  match wCop w with
  | 1 => decide (cAccF w ≤ 79)
  | 4 => im.fams.any (fun f => f.family == cFamily w) && scaOk (cIdx w)
  | 6 => scaOk (cDec w)
  | _ => true

/-- The slots of a PAIR word that hold an operation. -/
def opSlots (w : BitVec 128) : List Nat := (wordSlots w).filter (fun x => decide (slOp x ≠ 0))

/-- One stroke word, whether or not a segment reaches it (check 9: every stroke); the two slots of a pair are of different
classes (R149, R176). -/
def wordOk (im : Image) (w : BitVec 128) : Bool :=
  if wFmt w = 0 then
    (opSlots w).all (fun x => slotOk im x && (im.cert.isSome || shiftOk x))
    && (match opSlots w with | [a, b] => decide (slCls a ≠ slCls b) | _ => true)
  else ctrlOk im w

-- walking a segment

/-- What a walk met: an operation with the F each lane's accumulator may have and the tensor accumulators a lane may hold, a
barrier, an ACCOPEN, a FAMCALL, a read of a control word. -/
inductive WEv where
  | op (x : Nat) (ann : Option AnnRec) (accF : List (List Nat)) (tcs : List Nat)
  | bar
  | opened (mask : Nat)
  | call (family : Nat)
  | look (a : Nat)
deriving DecidableEq, Repr, Inhabited

/-- An event with its fcyc and where it stands: outside every member (call 0), or in a member of the walk's call-th FAMCALL. -/
structure Met where
  cyc : Nat
  call : Nat
  mem : Nat
  ev : WEv
deriving DecidableEq, Repr, Inhabited

/-- A walk. In a member, `fam` holds the fcyc of its first word and its family, and `back` says that it has returned. -/
structure Walk where
  t : Tile
  accF : List (List Nat)
  tcs : List Nat
  evs : List Met
  fam : Option (Nat × FamRec)
  loops0 : Nat
  back : Bool
  call : Nat
  mem : Nat
  calls : Nat
  decider : Bool
  ok : Bool
deriving DecidableEq, Repr, Inhabited

def Walk.met (v : Walk) (e : WEv) : Walk := { v with evs := v.evs ++ [⟨v.t.cyc, v.call, v.mem, e⟩] }

/-- One slot of a PAIR word: its operation issues with what its tile's accumulators may be; a TMAC sets how many tensor
accumulators a lane holds (assumption 72). -/
def Walk.slot (v : Walk) (x : Nat) (ann : Option AnnRec) : Walk :=
  if slOp x = 0 then v
  else
    let u := v.met (.op x ann v.accF v.tcs)
    match slCls x, slOp x, TFmt.ofCode (slFmtA x), TFmt.ofCode (slFmtB x) with
    | 0, 4, some a, some b => { u with tcs := [tensorCount a b] }
    | _, _, _, _ => u

/-- One word other than a FAMCALL. -/
def walkWord (v : Walk) (w : StoredWord) : Walk :=
  let t := v.t
  let past := fun (u : Walk) (n : Nat) => { u with t := t.advance t.pc n }
  if wFmt w.word = 0 then past ((v.slot (wSlot w.word 0) w.ann0).slot (wSlot w.word 1) w.ann1) (wNext w.word + 1)
  else
    match wCop w.word with
    | 0 => past v (cIdle w.word + wNext w.word + 1)
    | 1 => past { v.met (.opened (cAccMask w.word)) with
        accF := v.accF.zipIdx.map (fun e => if (cAccMask w.word).testBit e.2 then [cAccF w.word] else e.1) } (wNext w.word + 1)
    | 2 => past (v.met .bar) (wNext w.word + 1)
    | 3 => { v with
        t := { t with loops := ⟨t.pc + 1, cLoopEnd w.word, cLoopCount w.word - 1⟩ :: t.loops, pc := t.pc + 1,
                      cyc := t.cyc + wNext w.word + 1 }
        ok := v.ok && decide (t.loops.length < 4 ∧ t.pc < cLoopEnd w.word) }
    | 5 =>
      match t.ret, v.fam with
      | some pc, some (c0, f) =>
        { v with t := ({ t with ret := none } : Tile).advance pc (wNext w.word + 1), back := true,
                 ok := v.ok && decide (t.cyc + wNext w.word + 1 - c0 = f.span ∧ t.loops.length = v.loops0) }
      | _, _ => { v with ok := false }
    | 6 =>
      let u := if cDecider w.word then v.met (.look (cDec w.word)) else v
      { u.met .bar with t := { t with ended := true }, decider := cDecider w.word, ok := v.ok && t.ret.isNone }
    | _ => { v with ok := false }

/-- The walk at the first word of member `e` of the family a FAMCALL names. -/
def Walk.enter (v : Walk) (f : FamRec) (e : Nat × Nat) : Walk :=
  { v with t := { v.t with ret := some v.t.pc, pc := e.1, cyc := v.t.cyc + 4 }, evs := [], fam := some (v.t.cyc + 4, f),
           loops0 := v.t.loops.length, back := false, call := v.calls + 1, mem := e.2 }

/-- After a FAMCALL: the members take the same time (R182), so the walk goes on from any of them with what any may have left. -/
def Walk.join (v : Walk) (outs : List Walk) : Walk :=
  match outs with
  | [] => { v with ok := false }
  | o :: _ => { v with
      t := o.t, evs := v.evs ++ outs.flatMap (fun u => u.evs), calls := v.calls + 1
      accF := (upTo 8).map (fun l => (outs.flatMap (fun u => u.accF.getD l [])).eraseDups)
      tcs := (outs.flatMap (fun u => u.tcs)).eraseDups, ok := outs.all (fun u => u.ok && u.back) }

/-- Walk from a segment's first word to its SEGEND, or from a member's to its FAMRET; at a FAMCALL every member is walked. -/
def walk (im : Image) (prog : Tbl StoredWord) : Nat → Walk → Walk
  | 0, v => { v with ok := false }
  | n + 1, v =>
    match tblFind prog v.t.pc with
    | none => { v with ok := false }
    | some w =>
      if wFmt w.word = 1 ∧ wCop w.word = 4 then
        match im.fams.find? (fun f => f.family == cFamily w.word) with
        | some f =>
          if v.fam.isSome then { v with ok := false }
          else
            let u := (v.met (.call f.family)).met (.look (cIdx w.word))
            let j := u.join (f.addrs.zipIdx.map (fun e => walk im prog n (u.enter f e)))
            if j.ok then walk im prog n j else j
        | none => { v with ok := false }
      else
        let u := walkWord v w
        if u.t.ended || u.back || !u.ok then u else walk im prog n u

/-- The words of an image on a relative tile. -/
def progOf (im : Image) (row col : Nat) : Tbl StoredWord :=
  (im.stored.filter (fun b => b.1.row == row && b.1.col == col)).foldl (fun m b =>
    b.2.zipIdx.foldl (fun m e => tblInsert m (b.1.start + e.2) e.1) m) []

/-- A walk before its first word. -/
def Walk.start (entry : Nat) : Walk :=
  { t := { Tile.reset with pc := entry }, accF := List.replicate 8 [0], tcs := [16], evs := [], fam := none, loops0 := 0,
    back := false, call := 0, mem := 0, calls := 0, decider := false, ok := true }

def walkFrom (im : Image) (row col entry span : Nat) : Walk := walk im (progOf im row col) (span + 1) (Walk.start entry)

/-- The relative tiles of an image's shape. -/
def shapeTiles (im : Image) : List (Nat × Nat) :=
  (upTo (8 * im.hdr.ghalves)).flatMap (fun r => (upTo im.hdr.gcols).map (fun c => (r, c)))

/-- What is walked, in order: the segments, or the kernels of a best-effort model: entry, span, whether a decider is required,
and the kind. -/
def walkList (im : Image) : List (Nat × Nat × Bool × Nat) :=
  match im.layers with
  | some l =>
    if im.isLc then im.segs.map (fun g => (g.entry, g.span, true, g.kind))
    else l.kernels.map (fun k => (k.entry, k.span, false, sBody))
  | none => im.segs.map (fun g => (g.entry, g.span, true, g.kind))

/-- The walk of one segment on every relative tile. -/
def segmentWalks (im : Image) (e : Nat × Nat × Bool × Nat) : List ((Nat × Nat) × Walk) :=
  (shapeTiles im).map (fun t => (t, walkFrom im t.1 t.2 e.1 e.2.1))

/-- A family: on every tile that holds a member's first word the member runs to its FAMRET in the family's SPAN, and some tile
holds it (R182). -/
def familyOk (im : Image) (f : FamRec) : Bool :=
  f.addrs.all (fun a =>
    let on := (shapeTiles im).filter (fun t => (tblFind (progOf im t.1 t.2) a).isSome)
    !on.isEmpty && on.all (fun t =>
      let v := Walk.start a
      let u := walk im (progOf im t.1 t.2) (f.span + 1) { v with t := { v.t with ret := some 0 }, fam := some (0, f), call := 1 }
      u.ok && u.back))

-- timed operations and their accesses

/-- An operation with its place and time; `n` tells operations apart. -/
structure TOp where
  n : Nat
  tile : Nat
  call : Nat
  mem : Nat
  cyc : Nat
  due : Nat
  x : Nat
  ann : Option AnnRec
  tcs : List Nat
deriving DecidableEq, Repr, Inhabited

/-- An access to a scratchpad: its operation and where that stands, tile, fcyc, first byte, bytes, and which of a TWB's possible
widths it belongs to. -/
structure Acc where
  n : Nat
  at_ : Nat
  call : Nat
  mem : Nat
  tile : Nat
  cyc : Nat
  a : Nat
  len : Nat
  alt : Nat
deriving DecidableEq, Repr, Inhabited

/-- Two words of a tile can both be met: not in different members of one FAMCALL. -/
def together (tile call mem tile' call' mem' : Nat) : Bool :=
  decide (tile ≠ tile' ∨ call ≠ call' ∨ call = 0 ∨ mem = mem')

/-- Two operations of one run on one tile. -/
def TOp.beside (a b : TOp) : Bool := decide (a.tile = b.tile) && together a.tile a.call a.mem b.tile b.call b.mem

/-- In flight in fcyc `c` (R150). -/
def TOp.inFlight (o : TOp) (c : Nat) : Bool := decide (o.cyc ≤ c ∧ c < o.due)

/-- Hops of a circuit. -/
def hopsOf (im : Image) (x : Nat) : Nat :=
  if slCls x = 3 ∧ slOp x = 1 then (im.routes.filter (fun r => r.route == slRoute x)).length - 1 else 0

/-- Every event of the walks, with its logical tile. -/
def metOn (q : PartParams) (ws : List ((Nat × Nat) × Walk)) : List (Nat × Met) :=
  ws.flatMap (fun e => e.2.evs.map (fun m => (relTile q e.1.1 e.1.2, m)))

def timedOps (im : Image) (ms : List (Nat × Met)) : List TOp :=
  (ms.filterMap (fun e =>
    match e.2.ev with
    | .op x ann _ tcs => some (e.1, e.2, x, ann, tcs)
    | _ => none)).zipIdx.map (fun e =>
      let t := e.1.1
      let m := e.1.2.1
      let x := e.1.2.2.1
      ⟨e.2, t, m.call, m.mem, m.cyc, m.cyc + opLatency x (hopsOf im x) (edgeRows t), x, e.1.2.2.2.1, e.1.2.2.2.2⟩)

/-- An access of an operation. -/
def TOp.acc (o : TOp) (tile cyc a len alt : Nat) : Acc := ⟨o.n, o.cyc, o.call, o.mem, tile, cyc, a, len, alt⟩

/-- What an operation reads of its scratchpad: vector j of a multi-word or PKT source in fcyc issue + j (assumption 74). -/
def TOp.reads (o : TOp) : List Acc :=
  let x := o.x
  let v := fun (a d : Nat) => o.acc o.tile (o.cyc + d) a 32 0
  let w := fun (a : Nat) => o.acc o.tile o.cyc a 8 0
  let mw := fun (a k : Nat) => (upTo k).map (fun j => v (a + 32 * j) j)
  match slCls x, slOp x with
  | 0, 1 => [v (slVa x) 0, v (slVb x) 0]
  | 0, 2 => [v (slVa x) 0]
  | 0, 4 => [v (slVa x) 0, v (slVb x) 0]
  | 0, 6 => mw (slVa x) (slMw x) ++ mw (slVb x) (slMw x)
  | 0, 7 => mw (slVa x) (slMw x) ++ mw (slVb x) (slMw x)
  | 0, 8 => mw (slVa x) (slMw x) ++ mw (slVb x) (if slB32 x then 1 else slMw x)
  | 0, 9 => [v (slVb x) 0]
  | 0, 10 => mw (slVb x) (slMw x)
  | 1, 4 => [w (slA x), w (slB x), w (slD x)]
  | 1, 10 => [w (slA x)]
  | 1, _ => [w (slA x), w (slB x)]
  | 2, 3 => [w (slA x), w (slB x)]
  | 2, _ => [w (slA x)]
  | 3, 1 => [v (slXsrc x) 0]
  | 3, 2 => [v (slXsrc x) 0]
  | 3, 4 => [v (slDmaV x) 0]
  | 3, 5 => mw (slPkSrc x) (slPkFlits x)
  | _, _ => []

/-- The bytes of the selected lanes of a vector, half by half. -/
def laneSpans (x a : Nat) : List (Nat × Nat) :=
  (upTo 2).flatMap (fun h =>
    let lanes := (upTo 4).filter (fun l => (slMask x).testBit (4 * h + l))
    if lanes.isEmpty then []
    else if lanes.length = 4 then [(a + 16 * h, 16)]
    else lanes.map (fun l => (a + 16 * h + 4 * l, 4)))

/-- Bytes a TWB writes for a lane of `tc` accumulators. -/
def twbBytes (x tc : Nat) : Nat := (match TFmt.ofCode (slFmtA x) with | some t => t.bits | none => 8) * tc / 8

/-- Bytes a scalar or pivot operation writes: 8, or 4 for a 32-bit result (Table 06.12b). -/
def scalarBytes (x : Nat) : Nat :=
  if slCls x = 1 then (if slOp x = 10 ∧ slCk x ≠ 1 ∧ slCk x ≠ 2 then 4 else 8) else if slForm x = 0 then 8 else 4

/-- What an operation writes, in the fcyc of its retirement. -/
def TOp.writes (im : Image) (q : PartParams) (o : TOp) : List Acc :=
  let x := o.x
  let put := fun (t a n alt : Nat) => o.acc t o.due a n alt
  let lanes := fun (a : Nat) => (laneSpans x a).map (fun e => put o.tile e.1 e.2 0)
  let mw := (upTo (slMw x)).flatMap (fun j => lanes (slVa x + 32 * j))
  let d := put o.tile (slD x) (scalarBytes x) 0
  match slCls x, slOp x with
  | 0, 3 => lanes (slVa x)
  | 0, 5 => o.tcs.flatMap (fun tc => (maskLanes x).map (fun l => put o.tile (slVa x + 32 * l) (twbBytes x tc) tc))
  | 0, 6 => mw
  | 0, 7 => mw
  | 0, 8 => if slD32 x then lanes (slVa x) else mw
  | 0, 9 => mw
  | 0, 10 => lanes (slVa x)
  | 1, _ => [d]
  | 2, 1 => if (guardBlock o.ann).isSome then [put o.tile (slA x) (scalarBytes x) 0, d] else [d]
  | 2, _ => [d]
  | 3, 1 => ((routeOf q im (slRoute x)).getLast?.map (fun t => put t (slXdst x) 32 0)).toList
  | 3, 2 => [put o.tile (slXdst x) 32 0]
  | 3, 3 => [put o.tile (slDmaV x) 32 0]
  | _, _ => []
where
  routeOf (q : PartParams) (im : Image) (n : Nat) : List Nat :=
    (im.routes.filter (fun r => r.route == n)).map (fun r => relTile q r.row r.col)

/-- The 16-byte words an access touches. -/
def Acc.words (a : Acc) : List Nat := (upTo ((a.a + a.len + 15) / 16 - a.a / 16)).map (fun i => a.a / 16 + i)

/-- Two accesses of one run; one operation's own are two only when of one width. -/
def Acc.beside (a b : Acc) : Bool :=
  decide (a.tile = b.tile) && together a.tile a.call a.mem b.tile b.call b.mem && (decide (a.n ≠ b.n) || decide (a.alt = b.alt))

/-- Two accesses of one bank port in one fcyc (R140, R143): different words of a bank, or two operations on one word. -/
def Acc.clash (a b : Acc) : Bool :=
  decide (a.cyc = b.cyc) && a.beside b
  && a.words.any (fun u => b.words.any (fun v => decide (u % 8 = v % 8) && (decide (u ≠ v) || decide (a.n ≠ b.n))))

/-- No two of a list clash. -/
def noPair {α : Type} (f : α → α → Bool) : List α → Bool
  | [] => true
  | x :: xs => xs.all (fun y => !f x y) && noPair f xs

def Acc.overlap (a b : Acc) : Bool := a.beside b && decide (a.a < b.a + b.len ∧ b.a < a.a + a.len)

/-- Ports (R140 to R143): reads with the read-modify-writes of R142 among themselves, writes among themselves. Results (R152): no
stroke issues on a word that an earlier one still in flight writes, to read it or, still in flight together, to write it. -/
def portsOk (im : Image) (q : PartParams) (ops : List TOp) (looks : List Acc) : Bool :=
  let reads := ops.flatMap TOp.reads ++ looks
  let writes := ops.flatMap (TOp.writes im q)
  let rmw := writes.filter (fun w => decide (w.len < 16))
  noPair Acc.clash (reads ++ rmw) && noPair Acc.clash writes
  && reads.all (fun r => writes.all (fun w =>
      !(decide (w.n ≠ r.n) && r.overlap w && decide (w.at_ ≤ r.at_ ∧ r.at_ < w.cyc))))
  && noPair (fun a b => decide (a.n ≠ b.n) && a.overlap b && decide (a.at_ < b.cyc ∧ b.at_ < a.cyc)) writes

/-- A fixed-point MAC, an ACCADD; a TMAC: what updates an accumulator of a lane. -/
def TOp.macs (o : TOp) : Bool := decide (slCls o.x = 0 ∧ (slOp o.x = 1 ∨ slOp o.x = 2))
def TOp.tmacs (o : TOp) : Bool := decide (slCls o.x = 0 ∧ slOp o.x = 4)

/-- Accumulators (R152): a writeback reads none that a MAC in flight still updates, and an ACCOPEN sets none. -/
def accsOk (ops : List TOp) (ms : List (Nat × Met)) : Bool :=
  ops.all (fun o => ops.all (fun m =>
    let share := m.beside o && decide (m.cyc < o.cyc ∧ o.cyc < m.due) && decide (slMask m.x &&& slMask o.x ≠ 0)
    !(share && ((decide (slCls o.x = 0 ∧ slOp o.x = 3) && m.macs) || (decide (slCls o.x = 0 ∧ slOp o.x = 5) && m.tmacs)))))
  && ms.all (fun e =>
    match e.2.ev with
    | .opened mask => ops.all (fun m =>
        !((m.macs || m.tmacs) && decide (m.tile = e.1) && together m.tile m.call m.mem e.1 e.2.call e.2.mem
          && decide (m.cyc < e.2.cyc ∧ e.2.cyc < m.due) && decide (slMask m.x &&& mask ≠ 0)))
    | _ => true)

/-- Operations in flight beside `o` at its issue: the most over the members the other FAMCALLs may take. -/
def flightAt (ops : List TOp) (o : TOp) : Nat :=
  let near := ops.filter (fun m => m.beside o && m.inFlight o.cyc)
  ((near.map (fun m => m.call)).eraseDups.map (fun k =>
    let mine := near.filter (fun m => m.call == k)
    if k = 0 then mine.length
    else ((mine.map (fun m => m.mem)).eraseDups.map (fun j => (mine.filter (fun m => m.mem == j)).length)).foldl max 0)).sum

/-- At most 16 in flight (R150), and the issue intervals of Table 05.3. -/
def issueOk (ops : List TOp) : Bool :=
  ops.all (fun o =>
    decide (flightAt ops o ≤ 16)
    && ops.all (fun m => !(m.beside o && decide (slCls m.x = slCls o.x ∧ m.cyc < o.cyc ∧ o.cyc < m.cyc + opInterval m.x))))

-- circuits and the sides' ports

/-- The neighbour through a port: 0 north, 1 south, 2 east, 3 west. -/
def neighbour (row col port : Nat) : Option (Nat × Nat) :=
  match port with
  | 0 => if row = 0 then none else some (row - 1, col)
  | 1 => some (row + 1, col)
  | 2 => some (row, col + 1)
  | 3 => if col = 0 then none else some (row, col - 1)
  | _ => none

/-- A route is a chain of links through the image's own tiles (R154): in at the local port, out at the local port. -/
def routeOk (im : Image) (rs : List RouteRec) : Bool :=
  let inside := rs.all (fun r => decide (r.row < 8 * im.hdr.ghalves ∧ r.col < im.hdr.gcols))
  let links := (rs.zip (rs.drop 1)).all (fun e =>
    decide (neighbour e.1.row e.1.col e.1.outPort = some (e.2.row, e.2.col))
    && decide (neighbour e.2.row e.2.col e.2.inPort = some (e.1.row, e.1.col)))
  inside && links && decide (2 ≤ rs.length)
  && (match rs.head?, rs.getLast? with | some a, some b => decide (a.inPort = 4 ∧ b.outPort = 4) | _, _ => false)

/-- Insert a CXFER in the order of issue. -/
def insertOp (o : TOp) : List TOp → List TOp
  | [] => [o]
  | p :: ps => if o.cyc < p.cyc then o :: p :: ps else p :: insertOp o ps

/-- The CXFERs of a route in the order of their issue. -/
def cxfersOf (ops : List TOp) (n : Nat) : List TOp :=
  (ops.filter (fun o => decide (slCls o.x = 3 ∧ slOp o.x = 1 ∧ slRoute o.x = n))).foldr insertOp []

/-- The intervals a route is open in (R177): from the first CXFER that names it while closed, to the flit of one with LAST; `since`
is when it opened, and the last interval has no end when nothing closes it. -/
def openSpans : Option Nat → List TOp → List (Nat × Option Nat)
  | none, [] => []
  | some c, [] => [(c, none)]
  | since, o :: os =>
    let c := since.getD o.cyc
    if slLast o.x then (c, some o.due) :: openSpans none os else openSpans (some c) os

/-- An interval left open in a member ends with the next interval that closes outside every member. -/
def closeBy (base : List (Nat × Option Nat)) (e : Nat × Option Nat) : Nat × Option Nat :=
  match e.2 with
  | some _ => e
  | none => (e.1, (base.find? (fun b => match b.2 with | some d => decide (e.1 < d) | none => true)).bind (fun b => b.2))

/-- The intervals of a route in a segment, `carried` when an earlier segment left it open. The CXFERs of each member are taken by
themselves (assumption 40). -/
def routeSpans (ops : List TOp) (n : Nat) (carried : Bool) : List (Nat × Option Nat) :=
  let cx := cxfersOf ops n
  let base := openSpans (if carried then some 0 else none) (cx.filter (fun o => o.call == 0))
  let inMem := cx.filter (fun o => o.call != 0)
  base ++ ((inMem.map (fun o => (o.call, o.mem))).eraseDups.flatMap (fun k =>
    (openSpans none (inMem.filter (fun o => o.call == k.1 && o.mem == k.2))).map (closeBy base)))

/-- A segment may leave a route open. -/
def leavesOpen (ops : List TOp) (n : Nat) (carried : Bool) : Bool :=
  (routeSpans ops n carried).any (fun e => e.2.isNone)

/-- Whether a segment may follow another at once (Table 08.3); kernels follow in table order. -/
def mayFollow (im : Image) (a b : (Nat × Nat × Bool × Nat) × Nat) : Bool :=
  if im.isModel then decide (b.2 = a.2 + 1)
  else
    let rank := fun (k : Nat) => if k = 1 then 0 else if k = 2 then 1 else if k = 3 then 2 else if k = 7 then 4 else 3
    let x := rank a.1.2.2.2
    let y := rank b.1.2.2.2
    decide (x < y ∨ (x = 3 ∧ y = 3))

/-- The routes each segment may find open, from those its predecessors may leave open, step by step. -/
def carriedRoutes (im : Image) (nums : List Nat) (segs : List (((Nat × Nat × Bool × Nat) × Nat) × List TOp)) : Nat → List (List Nat)
  | 0 => segs.map (fun _ => [])
  | k + 1 =>
    let before := carriedRoutes im nums segs k
    segs.map (fun b => nums.filter (fun n => (segs.zip before).any (fun a =>
      mayFollow im a.1.1 b.1 && leavesOpen a.1.2 n (a.2.contains n))))

/-- Links a DMA beat holds, as (tile, port, fcyc): north–south links toward the edge for a write, from it for a read (R154), and at
the half column's edge tile the Reservoir's port, 5 inward and 6 outward (R159). The beat takes a link in each fcyc: a write from
issue + 4 on, a read up to its arrival (assumption 75). -/
def dmaLinks (o : TOp) : List (Nat × Nat × Nat) :=
  let r := o.tile / 15
  let d := edgeRows o.tile
  let up := decide (r < 8)
  let wr := decide (slOp o.x = 4)
  let tile := fun (k : Nat) => if up then o.tile - 15 * k else o.tile + 15 * k
  if slCls o.x = 3 ∧ (slOp o.x = 3 ∨ slOp o.x = 4) then
    (if wr then (tile d, 6, o.cyc + 4 + d) else (tile d, 5, o.cyc + 19))
      :: (upTo d).map (fun j =>
        if wr then (tile j, (if up then 0 else 1), o.cyc + 4 + j) else (tile (d - j), (if up then 1 else 0), o.cyc + 20 + j))
  else []

/-- Two DMA beats of one run on one link or port. -/
def dmaClash (a b : TOp) : Bool :=
  together a.tile a.call a.mem b.tile b.call b.mem && (dmaLinks a).any (fun l => (dmaLinks b).contains l)

/-- Two intervals of open circuits meet. -/
def spansMeet (a b : Nat × Option Nat) : Bool :=
  (match b.2 with | some d => decide (a.1 < d) | none => true) && (match a.2 with | some d => decide (b.1 < d) | none => true)

/-- Circuits of a segment (R154, R155, R177): a link direction carries one open circuit, DMA beats included, and a CXFER issues at
its route's first tile. -/
def circuitsOk (im : Image) (q : PartParams) (ops : List TOp) (carried : List Nat) : Bool :=
  let nums := (im.routes.map (fun r => r.route)).eraseDups
  let links := fun (n : Nat) => (im.routes.filter (fun r => r.route == n && r.outPort != 4)).map (fun r =>
    (relTile q r.row r.col, r.outPort))
  let spans := fun (n : Nat) => routeSpans ops n (carried.contains n)
  let dma := ops.filter (fun o => decide (slCls o.x = 3 ∧ (slOp o.x = 3 ∨ slOp o.x = 4)))
  nums.all (fun n => decide (n < 64) && routeOk im (im.routes.filter (fun r => r.route == n)))
  && noPair (fun a b => (links a).any (fun l => (links b).contains l) && (spans a).any (fun x => (spans b).any (spansMeet x))) nums
  && noPair dmaClash dma
  && nums.all (fun n => (spans n).all (fun x => dma.all (fun o => (dmaLinks o).all (fun e =>
      !((links n).contains (e.1, e.2.1) && spansMeet x (e.2.2, some (e.2.2 + 1)))))))
  && ops.all (fun o => !(decide (slCls o.x = 3 ∧ slOp o.x = 1))
      || decide ((TOp.writes.routeOf q im (slRoute o.x)).head? = some o.tile))

/-- One side port takes one access in an fcyc (R434): reads among themselves, writes among themselves. -/
def sidesOk (q : PartParams) (ops : List TOp) : Bool :=
  let f := max 1 (ceilDiv q.share sideBytes)
  let key := fun (o : TOp) => (slOp o.x, slRoff o.x / 32 % f, o.cyc + edgeRows o.tile + 4)
  noPair (fun a b => together a.tile a.call a.mem b.tile b.call b.mem && key a == key b)
    (ops.filter (fun o => decide (slCls o.x = 3 ∧ (slOp o.x = 3 ∨ slOp o.x = 4))))

/-- The families a segment calls on a tile, FAMCALL by FAMCALL. -/
def Walk.callsOf (v : Walk) : List Nat := v.evs.filterMap (fun m => match m.ev with | .call f => some f | _ => none)

/-- The update family of an active-set image (R204): the one its UPDATE segment calls. -/
def updateFamily (im : Image) : Option FamRec :=
  (im.seg? sUpdate).bind (fun g =>
    (((segmentWalks im (g.entry, g.span, true, g.kind)).flatMap (fun v => v.2.callsOf)).head?).bind (fun n =>
      im.fams.find? (fun f => f.family == n)))

/-- The FAMCALLs a segment of a kind may hold: an UPDATE segment covers one of the update family on the tiles that run it (Table
07.2, R204); a REFINE segment calls no update family (R214). -/
def callsOk (im : Image) (kind : Nat) (ws : List ((Nat × Nat) × Walk)) : Bool :=
  let calls := ws.map (fun v => v.2.callsOf)
  let upd := (updateFamily im).map (fun f => f.family)
  if kind = sUpdate then
    calls.any (fun c => decide (c ≠ [])) && calls.all (fun (c : List Nat) => decide (c = []) || decide (some c = upd.map (fun f => [f])))
  else if kind = sRefine then calls.all (fun c => c.all (fun (f : Nat) => decide (some f ≠ upd)))
  else true

/-- One segment or kernel, walked on every tile: its end and its decider (R180), barriers (R109), issue, ports, accumulators, circuits
and sides, and its FAMCALLs; a REFINE segment has no guarded pivot (R214). -/
def segmentOk (im : Image) (q : PartParams) (ws : List ((Nat × Nat) × Walk)) (ops : List TOp) (carried : List Nat)
    (e : Nat × Nat × Bool × Nat) : Bool :=
  let ms := metOn q ws
  let looks := (ms.filterMap (fun u => match u.2.ev with
    | .look a => some (u.1, u.2, a)
    | _ => none)).zipIdx.map (fun v =>
      (⟨ops.length + v.2, v.1.2.1.cyc, v.1.2.1.call, v.1.2.1.mem, v.1.1, v.1.2.1.cyc, v.1.2.2, 8, 0⟩ : Acc))
  ws.all (fun v => v.2.ok && v.2.t.ended && decide (v.2.t.cyc + 1 = e.2.1))
  && (let n := (ws.filter (fun v => v.2.decider)).length; if e.2.2.1 then decide (n = 1) else decide (n ≤ 1))
  && ms.all (fun b => decide (b.2.ev ≠ .bar) || ops.all (fun o =>
      !(decide (o.tile = b.1) && together o.tile o.call o.mem b.1 b.2.call b.2.mem && decide (o.cyc < b.2.cyc ∧ b.2.cyc < o.due))))
  && issueOk ops && portsOk im q ops looks && accsOk ops ms && circuitsOk im q ops carried && sidesOk q ops
  && callsOk im e.2.2.2 ws && (decide (e.2.2.2 ≠ sRefine) || ops.all (fun o => (guardBlock o.ann).isNone))

/-- Every segment or kernel of an image. -/
def segmentsOk (im : Image) (q : PartParams) : Bool :=
  let nums := (im.routes.map (fun r => r.route)).eraseDups
  let segs := (walkList im).zipIdx.map (fun e =>
    let ws := segmentWalks im e.1
    (e, ws, timedOps im (metOn q ws)))
  let carried := carriedRoutes im nums (segs.map (fun e => (e.1, e.2.2))) segs.length
  (segs.zip carried).all (fun e => segmentOk im q e.1.2.1 e.1.2.2 e.2 e.1.1.1)

/-- Every annotated slot has its record and no record is left over; PIVOT records only on RECIP (R193). -/
def annsOk (im : Image) : Bool :=
  let slots := im.strokes.flatMap (fun b => b.words.flatMap wordSlots)
  let marked := slots.filter (slotAnnotated im)
  decide (marked.length = im.anns.length)
  && (marked.zip im.anns).all (fun e => decide (e.2.kind ≠ 0x10 ∧ e.2.kind ≠ 0x11) || decide (slCls e.1 = 2 ∧ slOp e.1 = 1))

/-- Kernels: entry and span in their ranges (Table 09.6). -/
def kernelsOk (im : Image) : Bool :=
  match im.layers with
  | some l => l.kernels.all (fun k => decide (1 ≤ k.span ∧ k.span ≤ 262144))
  | none => true

/-- Segments of an image (Tables 06.8, 06.9): at most 16, and the set for the IKIND. -/
def segmentSetOk (im : Image) : Bool :=
  let count := fun k => (im.segs.filter (fun q => q.kind == k)).length
  decide (im.segs.length ≤ 16)
  && (if im.isModel then decide (im.segs.length = 1 ∧ count 8 = 1)
      else decide (count 1 = 1 ∧ count 4 = 1 ∧ count 7 = 1 ∧ count 8 = 0 ∧ count 2 ≤ 1 ∧ count 3 ≤ 1 ∧ count 5 ≤ 1 ∧ count 6 ≤ 1)
        && (match im.cert with
            | some c => decide ((count 5 = 1 ↔ 0 < c.rank1Max) ∧ (count 6 = 1 ↔ 0 < c.refineMax))
            | none => decide (count 5 = 0 ∧ count 6 = 0)))

/-- Families (Table 06.10, R182): numbers unique, every member whole. -/
def familiesOk (im : Image) : Bool := decide ((im.fams.map (fun f => f.family)).Nodup) && im.fams.all (familyOk im)

/-- Check 9 of Table 06.6. -/
def check9 (im : Image) (q : PartParams) : Bool :=
  segmentSetOk im && im.strokes.all (fun b => decide (b.row < 8 * im.hdr.ghalves ∧ b.col < im.hdr.gcols) && b.words.all (wordOk im))
  && familiesOk im && annsOk im && kernelsOk im && segmentsOk im q

end Sys2Proof.Machine
end

