-- ==== Sys2Proof/Machine/ImageCheck.lean ====
section
/-! DEFINITION. Checks 6, 8, 10 and 11 of Table 06.6: limits (chapters 02, 07, 08, 09, 10), the range certificate (Table 03.8),
the composition of the worst-case time (R188), and room (R147, R174, R60, R437). -/

namespace Sys2Proof.Machine

-- FP64 bit patterns

def f64Finite (x : Nat) : Bool := decide (x % 2 ^ 63 < 0x7FF0000000000000)
def f64Pos (x : Nat) : Bool := decide (0 < x ∧ x < 0x7FF0000000000000)
def f64NonNeg (x : Nat) : Bool := decide (x < 0x7FF0000000000000 ∨ x = 2 ^ 63)
/-- A positive pattern between two positive patterns: their order is the numbers'. -/
def f64In (lo hi x : Nat) : Bool := decide (lo ≤ x ∧ x ≤ hi)
/-- The pattern of 2^k. -/
def f64Pow (k : Int) : Nat := (1023 + k).toNat * 2 ^ 52

-- check 6

/-- METHOD is one that PKIND's row of Table 02.1 lists. -/
def methodPairs (h : ImgHeader) : Bool :=
  match h.pkind with
  | 1 => decide (1 ≤ h.method ∧ h.method ≤ 3)
  | 2 => decide (h.method = 1 ∨ h.method = 2)
  | 3 => decide (h.method = 4)
  | 4 => decide (h.method = 4)
  | 5 => decide (h.method = 1 ∨ h.method = 3)
  | _ => false

/-- Table 02.2, R31, and n of at least N·(nx + nu) for a QP kind (R567). -/
def dimsOk (im : Image) : Bool :=
  let d := im.dims
  decide (1 ≤ d.nx ∧ d.nx ≤ 64 ∧ d.nu ≤ 32 ∧ d.ny ≤ 64 ∧ 1 ≤ d.n ∧ d.n ≤ 16384 ∧ d.m ≤ 32768 ∧ 1 ≤ im.e ∧ im.e ≤ 524288)
  && (!im.isQp || decide (1 ≤ d.stages ∧ d.stages ≤ 256 ∧ d.stages * (d.nx + d.nu) ≤ d.n)) && (!im.isEstimator || decide (d.n = d.nx ∧ d.m = 0))

/-- A DEFAULT within LO to HI. -/
def defaultsOk (im : Image) : Bool := im.entries.all (fun e => (boundCheck e e.dflt).isNone)

def pivotAnns (im : Image) (kind : Nat) : List AnnRec := im.anns.filter (fun a => a.kind == kind)

/-- τ_q and δd_q in a pivot source's format (R195). -/
def pivotQ (im : Image) (v : VarRec) : Int × Int :=
  (fp64Scaled true (32 - v.fmtM) im.hdr.tau, fp64Scaled false (32 - v.fmtM) im.hdr.deltaD)

/-- The rows of Table 07.2 at check 6. -/
def pivotLimits (im : Image) (mp : MethodParams) : Bool :=
  let h := im.hdr
  decide (h.tau ≤ h.deltaD) && f64NonNeg mp.sigmaP && f64NonNeg mp.sigmaD
  && (decide (pivotAnns im 0x11 ≠ []) || decide (mp.sigmaD % 2 ^ 63 = 0))
  && ((im.seg? sFactor).isSome || im.entries.all (fun e => !e.factor))
  && (pivotAnns im 0x10 ++ pivotAnns im 0x11).all (fun a =>
      match im.varRec? a.num with
      | some v => let q := pivotQ im v; decide (1 ≤ q.1 ∧ q.1 ≤ q.2 ∧ q.2 ≤ rangeHi false 32)
      | none => true)

/-- METHOD_PARAMS (R215, Table 08.1); ELIGIBLE is the MEMBERS of the update family an image with RANK1_MAX > 0 carries (R204). -/
def paramsOk (im : Image) (mp : MethodParams) : Bool :=
  let m := im.hdr.method
  let only := fun (c : Bool) (ok : Bool) (x : Nat) => if c then ok else decide (x = 0)
  let admm := decide (m = 1)
  let ipm := decide (m = 2)
  let act := decide (m = 3)
  let inf := decide (m = 4)
  decide (mp.method = m)
  && only act (decide (1 ≤ mp.eligible) && (match updateFamily im with | some f => decide (f.members = mp.eligible) | none => true))
    mp.eligible
  && only admm (f64In (f64Pow (-20)) (f64Pow 20) mp.rho) mp.rho
  && only admm (f64In (f64Pow (-30)) (f64Pow 0) mp.admmSigma) mp.admmSigma
  && only admm (f64In (f64Pow 0) 0x3FFCCCCCCCCCCCCD mp.relax) mp.relax
  && only (!inf) (f64Pos mp.epsAbs) mp.epsAbs && only (!inf) (f64Pos mp.epsRel) mp.epsRel
  && only (decide (0 < im.refineMax)) (f64Pos mp.refineTol) mp.refineTol
  && only ipm (f64In 0x3FECCCCCCCCCCCCD 0x3FEFFF2E48E8A71E mp.stepFrac) mp.stepFrac
  && only ipm (f64In 0x3F847AE147AE147B 0x3FE0000000000000 mp.center) mp.center
  && only admm (f64Pos mp.infeasTol || decide (mp.infeasTol = 0)) mp.infeasTol
  && mp.weights.all f64Pos

/-- WORK of Table 10.4. -/
def assayWork (im : Image) (t : Thresholds) : Nat :=
  let d := im.dims
  let n := fun (r : Nat) => (t.pattern.filter (fun q => q.role == r)).length
  if im.isEstimator then
    let hs := t.pattern.filter (fun q => q.role == 9)
    let rows := (hs.map (fun q => q.row)).eraseDups
    2 * d.nx * d.nx + n 7 + n 0xB + (rows.map (fun i => let h := (hs.filter (fun q => q.row == i)).length; h * h + h)).sum + 2 * d.nx
  else
    let p := (t.pattern.filter (fun q => q.role == 0)).map (fun q => if q.row = q.col then 1 else 2)
    2 * n 1 + p.sum + n 2 + 2 * d.n + 2 * d.m

/-- Values of the THRESHOLDS section (R271); a MODEL image has no variables and no W of Table 10.4. -/
def thrOk (im : Image) (t : Thresholds) : Bool :=
  decide (1 ≤ t.sets.length ∧ 1 ≤ t.batchMax ∧ t.batchMax ≤ 64 ∧ 1 ≤ t.pattern.length) && (im.isModel || decide (t.work = assayWork im t))
  && t.sets.all (fun s => f64Pos s.pres && f64Pos s.viol && f64Pos s.dres && f64Pos s.gap)
  && t.pattern.all (fun q =>
      decide ((q.entry = 0xFFFFFF ∨ q.entry < im.e) ∧ (q.role ≠ 2 ∨ q.col < im.e))
      && (if q.role = 0 then decide (q.row ≤ q.col) else true)
      && (im.isModel || !decide (q.role = 0 ∨ q.role = 1 ∨ q.role = 7 ∨ q.role = 9 ∨ q.role = 0xB) || decide (q.col < im.dims.n))
      && (if q.role = 3 ∨ q.role = 4 ∨ q.role = 5 ∨ q.role = 0xA then decide (q.col = 0) else true))

/-- The commit map (R572). -/
def commitOk (im : Image) : Bool :=
  im.commitMap.all (fun r => decide (r.word < im.outputWords) && (match im.targets[r.src]? with | some t => t.valid | none => false))

-- layers (R248, R249)

def dim1 (n : Nat) : Nat := max 1 n

/-- Shape of a layer's source: channels, height, width; the model input takes the layer's own. -/
def layerShapeOk (l : Layers) (r : LayerRec) (src : Nat) : Bool :=
  if src = 255 then decide (r.inFirst + r.cIn * dim1 r.inH * dim1 r.inW ≤ l.inWords)
  else
    match l.layers[src]? with
    | some q => decide (q.outC = r.cIn ∧ dim1 q.outH = dim1 r.inH ∧ dim1 q.outW = dim1 r.inW)
    | none => false

/-- Table 09.3. -/
def layerLimitOk (im : Image) (l : Layers) (r : LayerRec) : Bool :=
  let be := !im.isLc
  let rng := fun (lo hi x : Nat) => decide (lo ≤ x ∧ x ≤ hi)
  let conv := rng 1 512 r.inH && rng 1 512 r.inW && rng 1 1024 r.cIn && rng 1 1024 r.cOut && rng 1 7 r.kh && rng 1 7 r.kw
    && decide (r.kh ≤ r.inH + 2 * r.pad ∧ r.kw ≤ r.inW + 2 * r.pad)
  let own :=
    match r.ltype with
    | 1 => decide (r.inH = 1 ∧ r.inW = 1) && rng 1 4096 r.cIn && rng 1 4096 r.cOut
    | 2 => conv
    | 3 => conv && decide (r.cOut = r.cIn)
    | 4 => rng 1 512 r.inH && rng 1 512 r.inW && rng 2 4 r.kh && rng 2 4 r.kw && decide (r.pad = 0 ∧ r.kh ≤ r.inH ∧ r.kw ≤ r.inW)
    | 5 => rng 1 512 r.inH && rng 1 512 r.inW
    | 6 => layerShapeOk l r r.srcB
    | 7 => be && rng 2 255 r.cIn
    | _ => be && rng 1 64 r.k && (match l.layers[r.srcA]? with | some q => decide (q.ltype = 7 ∧ q.cIn = r.cIn) | none => false)
  own && (decide (r.ltype = 8) || layerShapeOk l r r.srcA)

/-- Tables 09.4 and 09.5: formats, activation and its argument. -/
def layerFmtOk (im : Image) (l : Layers) (last : Bool) (r : LayerRec) : Bool :=
  let w := tfmtOf r.wFmt
  let a := tfmtOf r.aFmt
  let weighted := decide (1 ≤ r.ltype ∧ r.ltype ≤ 3)
  let pair := !weighted || (tensorPairOk w a && decide (w.float?.isSome = a.float?.isSome))
  let fl := a.float?.isSome
  let c := clipArg r.actArg
  let tab := (l.pwl.drop (48 * r.actArg)).take 48
  let fin := fun (x : Word) => decide (fld x 30 23 ≠ 255)
  let arg :=
    match r.act with
    | 2 => decide (1 ≤ r.actArg ∧ r.actArg ≤ 15)
    | 3 => if fl then inRange (-8) 8 c else inRange 0 30 c
    | 4 => decide (r.actArg ≤ 15 ∧ tab.length = 48 ∧ tab.getD 47 1 = 0) && tab.all fin
        && ((tab.take 15).zip ((tab.take 15).drop 1)).all (fun e => decide (cmpVal (fp32.unpack e.1.toNat) (fp32.unpack e.2.toNat) < 0))
    | _ => decide (r.actArg = 0)
  if r.ltype = 7 ∨ r.ltype = 8 then decide (r.act = 0 ∧ r.actArg = 0)
  else
    pair && arg &&
    (if im.isLc then decide (a = .bf16) && (decide (r.oFmt = 6) || (last && decide (r.oFmt = 7)))
     else if fl then decide (4 ≤ r.oFmt ∧ r.oFmt ≤ 6) || (last && decide (r.oFmt = 7))
     else decide (r.oFmt ≤ 3 ∧ r.act ≠ 2 ∧ r.act ≠ 4))

/-- Bytes of a layer's region in the weight block (R247). -/
def layerRegion (r : LayerRec) : Nat × Nat :=
  let t := tfmtOf r.wFmt
  (r.wOff, ceilDiv (r.weightCount * t.bits) 8 + (if r.bias then 4 * r.outC else 0))

def layersOk (im : Image) (l : Layers) : Bool :=
  let n := l.layers.length
  let regs := (l.layers.filter (fun r => decide (1 ≤ r.ltype ∧ r.ltype ≤ 3))).map layerRegion
  decide (l.tangents ≤ 32 ∧ 1 ≤ l.inWords ∧ l.inWords ≤ 786432 ∧ 1 ≤ l.batch ∧ l.weights.length ≤ 201326592)
  && (im.isLc || decide (l.batch ≤ 256))
  && l.layers.zipIdx.all (fun e => layerLimitOk im l e.1 && layerFmtOk im l (decide (e.2 + 1 = n)) e.1)
  && decide ((l.layers.filter (fun r => r.ltype == 8)).length ≤ 1)
  && (decide (l.tangents = 0) || l.layers.all (fun r => r.dual && decide (r.ltype = 1 ∨ r.ltype = 6)))
  && decide (1 ≤ im.outputWords ∧ im.outputWords ≤ 65536)
  && regs.all (fun e => decide (e.1 % 16 = 0 ∧ e.1 + e.2 ≤ l.weights.length))
  && noPair (fun a b => decide (a.1 < b.1 + b.2 ∧ b.1 < a.1 + a.2)) regs
  && l.kernels.all (fun k => decide (k.layer < n ∧ k.stageBytes % 32 = 0))

/-- What a latency-critical model needs (R244): every valid target's slot holds a SOLVE image. -/
def lcModelOk (s : State) (im : Image) (l : Layers) : Bool :=
  l.srcValid && im.thr.isNone && decide (im.hdr.chkEvery = 0)
  && (match im.cert with | some c => decide (c.iterMax = 1 ∧ c.rank1Max = 0 ∧ c.refineMax = 0 ∧ c.carried = false) | none => false)
  && decide (im.targets ≠ []) && l.layers.all (fun r => decide (r.ltype ≠ 7 ∧ r.ltype ≠ 8))
  && im.targets.all (fun t => !t.valid || (match (getSlot s t.part t.slot).img with | some q => !q.isModel | none => false))

/-- The linearisation source (R256). -/
def sourceOk (x : Part) (l : Layers) : Bool :=
  !l.srcValid ||
  match (x.slot l.srcSlot).img with
  | some q =>
    let d := q.dims
    q.isLc && decide (q.hdr.pkind = 1 ∨ q.hdr.pkind = 5) && decide (q.hdr.sig = l.srcSig ∧ d.stages = l.batch ∧ l.inWords = d.nx + d.nu)
      && decide (l.linDef.length = l.batch * l.inWords)
      && l.linDef.zipIdx.all (fun e => match q.varRec? e.2 with
          | some v => inRange v.lo.toInt v.hi.toInt e.1.toInt
          | none => false)
  | none => false

/-- Check 6 of Table 06.6. -/
def check6 (s : State) (p : Nat) (im : Image) : Bool :=
  commitOk im &&
  if im.isModel then
    match im.layers with
    | some l => layersOk im l && (match im.thr with | some t => thrOk im t | none => true) && (!im.isLc || lcModelOk s im l) && sourceOk (getPart s p) l
    | none => false
  else
    methodPairs im.hdr && dimsOk im && defaultsOk im
    && (match im.params with | some mp => pivotLimits im mp && paramsOk im mp | none => false)
    && (match im.thr with | some t => thrOk im t | none => true)

-- check 8: the range certificate (Table 03.8)

/-- Every variable is covered by exactly one record (R571's classes included). -/
def coverOk (im : Image) (c : Cert) : Bool :=
  let w := im.w
  decide (1 ≤ c.varTotal ∧ (c.vars.map (fun v => v.count)).sum = c.varTotal)
  && c.vars.all (fun v => decide (1 ≤ v.count ∧ v.first + v.count ≤ c.varTotal ∧ 1 ≤ v.fmtM ∧ v.fmtM ≤ 32 ∧ v.cls ≠ 3
      ∧ v.lo.toInt ≤ v.hi.toInt))
  && noPair (fun a b => decide (a.first < b.first + b.count ∧ b.first < a.first + a.count)) c.vars
  && (im.isModel || (decide (w ≤ c.varTotal) && c.vars.all (fun v =>
        let k := if im.isEstimator then 1 else 0
        (decide (v.cls = k ↔ v.first < w)) && (decide (w ≤ v.first) || decide (v.first + v.count ≤ w)))))

/-- A variable's record gives n fraction bits of W (R126: the record's format is that of a multi-word variable's top word). -/
def fracIs (im : Image) (v w : Nat) (n : Int) : Bool :=
  match im.varRec? v with | some r => decide (((w : Int) - r.fmtM) = n) | none => false

/-- The destination of an annotated slot whose format does not follow an accumulator (Table 03.8, R126 to R129): every selected
lane's variable has a record in the format the stroke writes. The format of MWEXT's result has more than 32 integer bits, which no
record can name: only the record is asked for (assumption 81). -/
def destOk (im : Image) (x : Nat) (a : AnnRec) : Bool :=
  let wide := 32 * slMw x
  let m := fld a.fmts 5 0
  let lanes := fun (ok : Nat → Bool) => (maskLanes x).all (fun l => ok (a.num + l))
  match slCls x, slOp x with
  | 0, 6 => lanes (fun v => fracIs im v wide ((wide : Int) - m))
  | 0, 7 => lanes (fun v => fracIs im v wide ((wide : Int) - m))
  | 0, 8 =>
    let p : Int := (wide : Int) - m + ((if slB32 x then 32 else wide : Nat) : Int) - fld a.fmts 13 8
    lanes (fun v => fracIs im v (if slD32 x then 32 else wide) (p - slMulK x))
  | 0, 9 => lanes (fun v => (im.varRec? v).isSome)
  | 0, 10 => lanes (fun v => fracIs im v 32 ((wide : Int) - m - slNarK x))
  | 1, 10 => fracIs im a.num 32 (slN x)
  | 2, n =>
    if n = 1 ∧ (guardBlock (some a)).isSome then
      -- R193, R194: d′ in the source's record, 1/d′ in the reciprocal's
      if slForm x = 2 then fracIs im a.num 32 (32 - (m : Int)) && fracIs im (fld a.fmts 31 8) 32 (slNd x)
      else (im.varRec? a.num).isSome && (im.varRec? (fld a.fmts 31 8)).isSome
    else decide (slForm x ≠ 2) || fracIs im a.num 32 (slNd x)
  | _, _ => true

/-- The destination of an ACC_WB a walk met: F − k for every F its lanes may have (R74). -/
def wbOk (im : Image) (e : WEv) : Bool :=
  match e with
  | .op x (some a) accF _ =>
    !decide (slCls x = 0 ∧ slOp x = 3)
      || (maskLanes x).all (fun l => (accF.getD l []).all (fun f => fracIs im (a.num + l) 32 ((f : Int) - slK8 x)))
  | _ => true

/-- An opening F equals its ACC_FRAC, under exactly one record (Table 03.8). -/
def openOk (c : Cert) (w : BitVec 128) : Bool :=
  decide (wFmt w ≠ 1 ∨ wCop w ≠ 1)
  || match c.accs.filter (fun a => a.id == cAccId w) with | [a] => decide (a.frac = cAccF w) | _ => false

/-- The strokes of an image against its certificate (Table 03.8): opening F, shifts, destination formats. -/
def certStrokesOk (im : Image) (c : Cert) : Bool :=
  im.strokes.all (fun b => b.words.all (fun w => openOk c w && (opSlots w).all shiftOk))
  && ((im.strokes.flatMap (fun b => b.words.flatMap wordSlots)).filter (slotAnnotated im) |>.zip im.anns).all (fun e => destOk im e.1 e.2)
  && (walkList im).all (fun e => (segmentWalks im e).all (fun v => v.2.evs.all (fun m => wbOk im m.ev)))

/-- The pivot rows of Table 07.2 at check 8. -/
def pivotCertOk (im : Image) : Bool :=
  (pivotAnns im 0x10 ++ pivotAnns im 0x11).all (fun a =>
    match im.varRec? a.num, im.varRec? (fld a.fmts 31 8) with
    | some v, some r =>
      let q := pivotQ im v
      let inv := ceilDiv (2 ^ (32 - v.fmtM + (32 - r.fmtM))) q.1.toNat
      decide (v.lo.toInt ≤ -q.2 ∧ q.2 ≤ v.hi.toInt ∧ r.lo.toInt ≤ -(inv : Int) ∧ (inv : Int) ≤ r.hi.toInt)
    | _, _ => false)

/-- The certificate's own words: RSV fields and size. -/
def certWordsOk (ws : List Word) (c : Cert) : Bool :=
  decide (ws.length = 16 + 4 * (ws.getD 5 0).toNat + 2 * (ws.getD 6 0).toNat ∧ 1 ≤ c.vars.length ∧ 1 ≤ c.accs.length)
  && zeroBits (ws.getD 0 0) 27 0 && zeroBits (ws.getD 4 0) 31 24 && zeroBits (ws.getD 7 0) 15 12 && zeroBits (ws.getD 7 0) 7 2
  && zeroBits (ws.getD 8 0) 31 1 && zeroWords ((ws.drop 9).take 7)
  && (chunks 4 ((ws.drop 16).take (4 * c.vars.length))).all (fun q => zeroBits (q.getD 1 0) 31 24)
  && (chunks 2 (ws.drop (16 + 4 * c.vars.length))).all (fun q => zeroBits (q.getD 0 0) 24 24 && zeroBits (q.getD 1 0) 31 7)
  && c.accs.all (fun a => decide (a.frac ≤ 79 ∧ a.headroom ≤ 79))

/-- Check 8 of Table 06.6. -/
def check8 (r : RawImage) (im : Image) : Bool :=
  match im.cert with
  | none => true
  | some c =>
    let ws := r.body 0x04
    decide ((Config.sha512 (wordsBytes ws)).toNat = im.hdr.certDigest ∧ c.id = im.hdr.certId ∧ c.arch = 1 ∧ c.sig = im.hdr.sig)
    && certWordsOk ws c && decide (1 ≤ c.iterMax ∧ c.rank1Max ≤ 8 ∧ c.refineMax ≤ 3 ∧ c.carried = im.isEstimator)
    && coverOk im c && certStrokesOk im c && defaultsOk im && (im.isModel || pivotCertOk im)

-- check 10: worst-case time

/-- C of Table 10.4 and the allowance A_NS. -/
def checkAcyc (batchMax work lanes : Nat) : Nat := batchMax * ceilDiv work (4 * lanes) + 207
def allowance (batchMax work lanes : Nat) : Nat := ceilDiv (625 * checkAcyc batchMax work lanes) 1000 + 120

/-- The composition of R188, in ticks. -/
def wcet (im : Image) (fair : Bool) (start it nu nr aNs x l : Nat) : Nat :=
  let z := if start = 2 ∧ 0 < im.span sColdInit then 1 else 0
  let g := if start = 1 ∨ (start = 2 ∧ 0 < im.span sFactor) then 1 else 0
  let nseg := 2 + z + g + it + nu + nr
  let b := if im.isModel then im.span sBody else im.span sIter
  let t0 := 1 + (50 + 6 * im.hdr.qAssumed) + im.span sPrologue + z * im.span sColdInit + g * im.span sFactor + it * b
    + nu * im.span sUpdate + nr * im.span sRefine + 8 * nseg + im.span sEpilogue
  let tfab := if fair ∧ 0 < im.hdr.chkEvery then t0 + (it - 1) / im.hdr.chkEvery * (ceilDiv (28 * aNs) 10 + 6) else t0
  ceilDiv (10 * tfab + 28 * (aNs + 40 + 12 * x + 240 * l)) 70

/-- One row against the composition (R188, R275, R259). -/
def wcetRowOk (im : Image) (q : PartParams) (r : WcetRow) : Bool :=
  let a := match im.isModel, im.thr with
    | false, some t => if q.laneCount = 0 then none else some (allowance t.batchMax t.work q.laneCount)
    | true, _ => some 0
    | _, _ => none
  decide (some r.aNs = a ∧ r.total = wcet im (decide (r.mode = 1)) r.start im.iterMax im.rank1Max im.refineMax r.aNs r.x r.l
    ∧ r.minTicks = wcet im false r.start 1 0 0 r.aNs r.x r.l)

/-- The rows an image carries: six for a QP kind, two WARM rows otherwise; equal for a model. -/
def wcetRowsOk (im : Image) : Bool :=
  let keys := im.wcet.map (fun r => (r.mode, r.start))
  let want := if im.isQp then [(0, 0), (0, 1), (0, 2), (1, 0), (1, 1), (1, 2)] else [(0, 0), (1, 0)]
  decide (keys.length = want.length) && want.all (fun k => keys.contains k)
  && (!im.isModel || im.wcet.all (fun r => im.wcet.all (fun q => decide ({ r with mode := q.mode } = q))))

/-- Check 10 of Table 06.6. -/
def check10 (im : Image) (q : PartParams) : Bool :=
  (!im.isLc && decide (im.wcet = [])) || (wcetRowsOk im && im.wcet.all (wcetRowOk im q))

-- check 11: room

/-- Store entries of an image (Table 06.8). -/
def Image.storeEntries (im : Image) : Nat :=
  1 + im.segs.length + (im.fams.map (fun f => 1 + ceilDiv f.members 8)).sum

/-- Images bound or loading in a partition, with their slots. -/
def Part.images (x : Part) : List (Nat × Image) :=
  x.slots.filterMap (fun e => match e.2.img, e.2.loading with
    | some im, _ => some (e.1, im)
    | none, some (im, _, _) => some (e.1, im)
    | none, none => none)

/-- VALID of a launch entry. -/
def entryOn (s : State) (p j : Nat) : Bool := wbit (regGet s (launchOff p j 6)) 15

/-- Store entries of a partition in use (Table 06.8): the directory, images, valid launch entries and the slot table. -/
def storeUsed (s : State) (p : Nat) : Nat :=
  1 + ((getPart s p).images.map (fun e => e.2.storeEntries)).sum + 2 * ((upTo 64).filter (entryOn s p)).length + (1 + windowCount s p)

/-- Bytes of an image's masters in GDDR6 (R437). -/
def Image.masterBytes (im : Image) : Nat :=
  16 * ((im.strokes.map (fun b => b.words.length)).sum + im.storeEntries + im.e)

/-- Stroke ranges of two images meet on a tile. -/
def strokesMeet (a b : Image) : Bool :=
  a.strokes.any (fun u => b.strokes.any (fun v =>
    decide (u.row = v.row ∧ u.col = v.col ∧ u.start < v.start + v.words.length ∧ v.start < u.start + u.words.length)))

/-- Stroke memory (R147): a latency-critical image clears every bound image, a best-effort one the resident strokes. -/
def strokesFit (x : Part) (im : Image) : Bool :=
  x.images.all (fun e => !((im.isLc || e.2.isLc) && strokesMeet im e.2))

/-- Families of a partition's images (Table 06.8: 4,096 at most). -/
def familiesFit (x : Part) (im : Image) : Bool :=
  decide ((x.images.map (fun e => e.2.fams.length)).sum + im.fams.length ≤ 4096)

/-- Check 11 of Table 06.6; a best-effort SOLVE image needs a lane in the shared pool (R283). -/
def check11 (s : State) (p : Nat) (im : Image) : Bool :=
  let x := getPart s p
  (im.isLc || im.isModel || decide (poolLanes s ≠ [])) && strokesFit x im && familiesFit x im && decide (storeUsed s p + im.storeEntries ≤ x.pars.store)
  && decide (shareUsed x + 16 * im.e ≤ x.pars.share) && fabricFits x (16 * im.e)
  && decide (s.mem.imgUsed + im.masterBytes ≤ fld (regGet s 0x400080) 10 0 * 2 ^ 20)

end Sys2Proof.Machine
end

