-- ==== Sys2Proof/Machine/Seals.lean ====
section
/-! DEFINITION. Seals and the keys Hallmark trusts (R484, R485, Tables 18.1 and 18.2). -/

namespace Sys2Proof.Machine

/-- What a signature is for (Table 18.2). -/
inductive SealUse where
  | firmware
  | configuration
  | image
  | exportKey
  | debugToken
deriving DecidableEq, Repr

/-- Bytes as a number, the first byte most significant. -/
def bigNat (bs : List Byte) : Nat := bs.foldl (fun a b => 256 * a + b.toNat) 0

/-- Owner keys that are fused and not revoked (R486). -/
def ownerDigests (f : Fuses) : List Nat := (f.owners.zipIdx.filter (fun e => !f.revoked.getLsbD e.2)).map (fun e => e.1)

/-- Development keys of the booted slot's configuration (Table 18.2). -/
def devDigests (s : State) : List Nat := (tblGet BootSlot.reset s.flash (if s.rst.bootSlot then 1 else 0)).devs

/-- The owner list of the booted slot's configuration (Table 18.5). -/
def bootOwners (s : State) : List Nat := (tblGet BootSlot.reset s.flash (if s.rst.bootSlot then 1 else 0)).owners

/-- Digests of the keys Table 18.2 trusts for a use in the present lifecycle state. -/
def trustedDigests (s : State) (u : SealUse) : List Nat :=
  let secured := decide (s.fuse.lifecycle = 2)
  let provisioned := decide (s.fuse.lifecycle = 1)
  match u with
  | .firmware => if s.fuse.lifecycle ≤ 3 then [Config.mroot] else []
  | .configuration => if secured then ownerDigests s.fuse else []
  | .image => if secured then ownerDigests s.fuse else if provisioned then devDigests s else []
  | .exportKey => if secured then ownerDigests s.fuse else if provisioned then devDigests s else []
  | .debugToken => if secured then ownerDigests s.fuse else []

/-- A seal of 144 bytes (Table 06.5) over covered bytes, by a key whose digest is one of a list (R484, R485). -/
def sealBy (trusted : List Nat) (covered sealed : List Byte) : Bool :=
  let key := bigNat (sealed.take 8)
  trusted.contains (Config.keyDigest key)
  && Config.ecdsaVerify key (Config.sha512 covered) (bigNat ((sealed.drop 8).take 66)) (bigNat ((sealed.drop 74).take 66))

/-- A seal verifies under R485 for a use in the present state. -/
def sealVerifies (s : State) (u : SealUse) (covered sealed : List Byte) : Bool := sealBy (trustedDigests s u) covered sealed

end Sys2Proof.Machine
end

