-- ==== Sys2Proof/Machine/Images.lean ====
section
/-! DEFINITION. Binding and unbinding (R170 to R173, Table 06.7): the checks of Table 06.6 in order, the load, and the removal of an
image with its instances. -/

namespace Sys2Proof.Machine

/-- Check 3: ARCH, SIGNATURE and IMAGE_DIGEST equal the slot's binding record (Table 21.4). -/
def check3 (s : State) (p k : Nat) (im : Image) : Bool :=
  let o := ducOff p (0x80 * k)
  decide (fld (regGet s o) 31 28 = im.hdr.arch ∧ regGet64 s (o + 8) = im.hdr.sig
    ∧ digestOf ((upTo 16).map (fun j => regGet s (o + 0x40 + 4 * j))) = im.hdr.digest)

/-- Check 4: the SHA-512 of the image without its seal, taken with IMAGE_DIGEST as zeros. -/
def check4 (bs : List Byte) (im : Image) : Bool :=
  let covered := bs.take 128 ++ List.replicate 64 0 ++ (bs.drop 192).take (bs.length - 144 - 192)
  decide ((Config.sha512 covered).toNat = im.hdr.digest)

/-- Check 5: the seal. -/
def check5 (s : State) (bs : List Byte) : Bool :=
  sealVerifies s .image (bs.take (bs.length - 144)) (bs.drop (bs.length - 144))

/-- Check 7: the partition's shape; a latency-critical image needs reserved windows. -/
def check7 (s : State) (p : Nat) (im : Image) : Bool :=
  let q := (getPart s p).pars
  decide (im.hdr.gcols = q.gcols ∧ im.hdr.ghalves = q.ghalves) && (!im.isLc || decide (0 < windowCount s p))

/-- The checks of Table 06.6 in order: the cause of the first that fails, or the image. -/
def bindChecks (s : State) (p k : Nat) (bs : List Byte) : Nat ⊕ Image :=
  let x := getPart s p
  let r := readRaw bs
  let im := readImage r
  if !x.on then .inl 0xD
  else if (x.slot k).img.isSome || (x.slot k).loading.isSome then .inl 0x1
  else if !check2 bs.length r im then .inl 0x2
  else if !check3 s p k im then .inl 0x3
  else if !check4 bs im then .inl 0x4
  else if !check5 s bs then .inl 0x5
  else if !check6 s p im then .inl 0x6
  else if !check7 s p im then .inl 0x7
  else if !check8 r im then .inl 0x8
  else if !check9 im x.pars then .inl 0x9
  else if !check10 im x.pars then .inl 0xA
  else if !check11 s p im then .inl 0xB
  else .inr im

/-- IMAGE_BIND (R170, R172): refused with FAIL_IMAGE and the cause, or loading until BIND_COMPLETE; its masters go to GDDR6
(R437). In Hold no bind proceeds (R339). -/
def execImageBind (c : CtxId) (r : RingId) (s : State) : Result :=
  match headOp s c.val r.val 0x02 with
  | none => .next s
  | some i =>
    let x := getCtx s c.val
    if inHold s then .next s
    else
    match bindChecks s x.part i.slot (memBytes (hostMem s x) i.addr i.bytes) with
    | .inl cause => .next (finishItem s c.val r.val stImage cause)
    | .inr im =>
      let k := getSlot s x.part i.slot
      let s1 := setSlot (beginItem s c.val r.val) x.part i.slot { k with loading := some (im, c.val, r.val) }
      .next { s1 with mem := { s1.mem with imgUsed := s1.mem.imgUsed + im.masterBytes } }

/-- The words of an entry record (Table 06.3): the entry table that SPACE 0 holds (R178). -/
def EntryRec.words (e : EntryRec) : List Word :=
  [put e.obj 24 ||| put e.fmtM 18 ||| put (if e.u then 1 else 0) 17 ||| put (if e.factor then 1 else 0) 16 ||| put e.stage 8,
    e.lo, e.hi, e.dflt]

def tableSpace (im : Image) : Memory := memPutWords [] 0 (im.entries.flatMap EntryRec.words)

/-- A CONFIG record of a slot (Table 19.2): slot, SIGNATURE, IMAGE_DIGEST. -/
def slotConfig (s : State) (p k : Nat) (im : Image) (bound : Bool) : State :=
  bltRecord s kConfig p (lc s) ([BitVec.ofNat 32 (k + if bound then 8 else 0), lo32 im.hdr.sig, hi32 im.hdr.sig]
    ++ digestWords im.hdr.digest)

/-- A parameter in a pivot stroke's operand format, by RNE (R192, R215). -/
def paramIn (x : Nat) (ann : Option AnnRec) (v : Nat) : Nat :=
  match slForm x with
  | 0 => v
  | 1 => (convert fp64 fp32 .rne v).1
  | _ => (floatToFixed fp64 .rne false (32 - annM ann) v).1.toNat

/-- σ_p or σ_d for each guarded RECIP of an image, in the format of the diagonal entry it guards (R192). -/
def Image.boundShifts (im : Image) (q : MethodParams) : List (Bool × Nat) :=
  im.stored.flatMap (fun b => b.2.flatMap (fun w =>
    if wFmt w.word = 0 then
      [(wSlot w.word 0, w.ann0), (wSlot w.word 1, w.ann1)].filterMap (fun e =>
        if slCls e.1 = 2 ∧ slOp e.1 = 1 then
          (guardBlock e.2).map (fun d => (d, paramIn e.1 e.2 (if d then q.sigmaD else q.sigmaP)))
        else none)
    else []))

/-- The converted parameters of an image; where the strokes find them is Ikital's (assumption 80). -/
def Image.boundParams (im : Image) : BoundParams :=
  match im.params with
  | none => ⟨[], []⟩
  | some q => ⟨im.boundShifts q,
      ([q.rho, q.admmSigma, q.relax, q.epsAbs, q.epsRel, q.refineTol, q.stepFrac, q.center, q.infeasTol] ++ q.weights).map (fun v =>
        (v, (convert fp64 fp32 .rne v).1))⟩

/-- BIND_COMPLETE (R171): outside reserved windows the load ends; the entry table, strokes, Store entries and converted parameters are
in place, and the descriptor completes with OK. -/
def execBindComplete (p : PartId) (k : SlotId) (s : State) : Result :=
  let t := getSlot s p.val k.val
  match t.loading with
  | none => .next s
  | some (im, c, r) =>
    if !openTick s p.val (count s p.val) || inHold s then .next s
    else
      let s1 := setSlot s p.val k.val { Slot.reset with img := some im, space := tableSpace im, params := im.boundParams }
      let s2 := if im.isLc then loadStrokes s1 p.val k.val false im.stored else s1
      .next (finishItem (slotConfig s2 p.val k.val im true) c r stOk 0)

/-- A MODEL image bound in the partition takes its items from the slot (R256). -/
def isSource (x : Part) (k : Nat) : Bool :=
  x.images.any (fun e => match e.2.layers with | some l => l.srcValid && decide (l.srcSlot = k) | none => false)

/-- A command of the slot runs: it holds the tiles or has left them without completing. -/
def slotBusy (s : State) (p k : Nat) : Bool :=
  (getPart s p).entries.any (fun e => match e.2.cmd with | some c => decide (c.slot = k ∧ c.st ≠ .done) | none => false)
  || (upTo 512).any (fun r => match getBe s r with
      | some b => decide (b.part = p ∧ b.slot = k ∧ b.cmd.st ≠ .wait ∧ b.cmd.st ≠ .waitRerun)
          || decide ((getPart s p).holder = some (.ring r) ∧ b.slot = k)
      | none => false)

/-- Launch entries whose IMG names a slot. -/
def entriesOfSlot (s : State) (p k : Nat) : List Nat := (upTo 64).filter (fun j => decide (entryImg s p j = k))

/-- Unbind a slot (R173): its strokes, Store entries and entry table are freed, its instances removed, and engines bound to
its launch entries lose their source (R302). -/
def unbindSlot (s : State) (p k : Nat) : State :=
  match (getSlot s p k).img with
  | none => s
  | some im =>
    let s1 := dropStrokes s p (fun w => w.slot == k)
    let x := getPart s1 p
    let s2 := setPart s1 p ((x.setSlot k Slot.reset).dropInsts (fun i => i.slot == k))
    let s3 := (entriesOfSlot s2 p k).foldl (fun t j => noPlanEntry t p j) s2
    slotConfig { s3 with mem := { s3.mem with imgUsed := s3.mem.imgUsed - im.masterBytes } } p k im false

/-- Best-effort commands queued for a slot whose unbind is accepted complete with UNBOUND (Table 06.7). -/
def dropQueued (s : State) (p k : Nat) : State :=
  (upTo 512).foldl (fun t r => match getBe t r with
    | some b =>
      if b.part = p ∧ b.slot = k ∧ (b.cmd.st = .wait ∨ b.cmd.st = .waitRerun) ∧ (getPart t p).holder ≠ some (.ring r) then
        dropBe t r stImage 0xC
      else t
    | none => t) s

/-- IMAGE_UNBIND (Table 06.7): refused while a valid launch entry names the slot or a bound MODEL takes its source from it;
at once when no command of the slot runs, otherwise at its boundary. -/
def execImageUnbind (c : CtxId) (r : RingId) (s : State) : Result :=
  match headOp s c.val r.val 0x03 with
  | none => .next s
  | some i =>
    let p := (getCtx s c.val).part
    let t := getSlot s p i.slot
    if t.img.isNone || t.unbinding.isSome then .next (finishItem s c.val r.val stImage 0xC)
    else if (entriesOfSlot s p i.slot).any (entryOn s p) || isSource (getPart s p) i.slot then
      .next (finishItem s c.val r.val stImage 0x1)
    else if slotBusy s p i.slot then
      let s1 := setSlot (beginItem s c.val r.val) p i.slot { t with unbinding := some (c.val, r.val) }
      .next (dropQueued s1 p i.slot)
    else .next (finishItem (unbindSlot (dropQueued s p i.slot) p i.slot) c.val r.val stOk 0)

/-- UNBIND_AT_BOUNDARY (Table 06.7): once the slot's command has ended the unbind takes effect and completes. -/
def execUnbindAtBoundary (p : PartId) (k : SlotId) (s : State) : Result :=
  match (getSlot s p.val k.val).unbinding with
  | none => .next s
  | some (c, r) =>
    if slotBusy s p.val k.val then .next s
    else .next (finishItem (unbindSlot (dropQueued s p.val k.val) p.val k.val) c r stOk 0)

end Sys2Proof.Machine
end

