-- ==== Sys2Proof/Machine/Errors.lean ====
section
/-! DEFINITION. Uncorrectable and corrected errors (R337, R442 to R444, Table 16.8), and the known-answer tests of tiles and Assay lanes
(R284, R285, R524). -/

namespace Sys2Proof.Machine

/-- The fabric, or Assay, sides a partition owns, ascending. -/
def ownedSides (s : State) (p : Nat) (assay : Bool) : List Nat :=
  (upTo 32).filter (fun n => decide (tblGet none s.mem.sides n = some (p, assay)))

/-- The array code of MEM_CE_SEL for an error's place, and its address in that array: a GDDR6 address counts 64-byte blocks
(R439). -/
def placeOf (s : State) (e : ErrorPlace) (addr : Nat) : Nat × Nat :=
  let side := fun (p : Nat) (assay : Bool) =>
    let l := ownedSides s p assay
    (l.getD (addr / 32 % max 1 l.length) 0, addr)
  let gd := (32 + addr / 30 % 16, addr / 30 / 16 * 2048)
  match e with
  | .scratchpad t | .accumulator t => (48, t.val * 2 ^ 17 + addr % 2 ^ 17)
  | .primary p _ | .entryTable p _ _ | .staging p => side p.val false
  | .assayCopy p _ => side p.val true
  | .workspace _ | .master _ _ | .blotter _ | .saved _ _ => gd
  | .strokes _ _ _ => (49, addr)
  | .store _ _ _ => (50, addr)
  | .mailbox _ => (51, addr)
  | .retained => (52, addr)
  | .ferrule _ => (53, addr)
  | .unowned a => (a.val, addr)

/-- The partition an error is charged to, for the fault record. -/
def placePart (s : State) (e : ErrorPlace) : Nat :=
  match e with
  | .scratchpad t | .accumulator t => (tilePart s t.val).getD 0
  | .primary p _ | .assayCopy p _ | .workspace p | .staging p => p.val
  | .strokes p _ _ | .store p _ _ | .entryTable p _ _ | .master p _ | .saved p _ => p.val
  | _ => 0

/-- The contexts whose command holds a partition's tiles. -/
def holderCtxs (s : State) (p : Nat) : List Nat :=
  match (getPart s p).holder with
  | some (.ring r) => [r / 8]
  | some (.entry j) =>
    match (getRun s p j).cmd with
    | some c => (c.members.filterMap (fun m => ((getPart s p).inst? m.inst).map (fun i => i.ctx))).eraseDups
    | none => []
  | none => []

/-- The context of the best-effort model command whose workspace holds an address, in 64-byte blocks from the start of the workspace
region (R337, R439; assumption 86). -/
def workspaceCtx (s : State) (p addr : Nat) : Option Nat :=
  ((upTo 512).find? (fun r => match getBe s r with
    | some b => decide (b.part = p ∧ b.wsAt ≤ 64 * addr ∧ 64 * addr < b.wsAt + b.ws)
    | none => false)).map (· / 8)

/-- The running command, when its image is in the slot, is killed and re-runs (Table 12.4). -/
def killForReload (s : State) (p k : Nat) : State :=
  match (getPart s p).holder with
  | some key =>
    match getCmd s p key with
    | some c => if c.slot = k then beginKill s p .reload true [] else s
    | none => s
  | none => s

/-- A launch of a slot that is unbound under it ends with FAIL_IMAGE: one group for each member, KILLED with NO_PLAN. -/
def failLaunchesOf (s : State) (p k : Nat) : State :=
  (upTo 64).foldl (fun t j =>
    match (getRun t p j).cmd with
    | some c =>
      if c.slot ≠ k then t
      else
        let t1 := if (getPart t p).holder = some (.entry j) then beginKill t p .reload false [] else dropPostings t p (.entry j)
        let t2 := c.members.foldl (fun u m =>
          match (getPart u p).inst? m.inst with
          | some i => endMember u p c m i.ctx stImage 0xC
          | none => u) t1
        leaveFabric (setRun t2 p j { getRun t2 p j with cmd := none, rels := [], traj := none }) p (.entry j)
    | none => t) s

/-- Best-effort commands of a slot that is unbound under them complete FAIL_IMAGE (Table 12.4). -/
def failRingsOf (s : State) (p k : Nat) : State :=
  (upTo 512).foldl (fun t r => match getBe t r with
    | some b =>
      if b.part = p ∧ b.slot = k then
        let t1 := if (getPart t p).holder = some (.ring r) then beginKill t p .reload false [] else dropPostings t p (.ring r)
        dropBe t1 r stImage 0xC
      else t
    | none => t) s

/-- A slot whose master cannot be read is unbound as by IMAGE_UNBIND, and its items complete FAIL_IMAGE (Table 12.4). -/
def unbindBad (s : State) (p k : Nat) : State :=
  let s1 := failRingsOf (failLaunchesOf s p k) p k
  let s2 := match (getSlot s1 p k).unbinding with
    | some (c, r) => finishItem s1 c r stOk 0
    | none => s1
  unbindSlot s2 p k

/-- Reload a slot's strokes, Store entries or entry table from its masters, or unbind it (Table 16.8). -/
def reloadSlot (s : State) (p k : Nat) (bad : Bool) : State :=
  let s1 := killForReload s p k
  let sig := match (getSlot s p k).img with | some im => im.hdr.sig | none => 0
  let s2 := writeFault s1 { faultOf 0x09 p with sig := sig, place := BitVec.ofNat 32 k }
  if bad || (getSlot s p k).masterBad then unbindBad s2 p k else s2

/-- The outcome of Table 16.8. -/
def chargeError (s : State) (e : ErrorPlace) (addr : Nat) : State :=
  match e with
  | .scratchpad t | .accumulator t =>
    match tilePart s t.val with
    | some p => (holderCtxs s p).foldl (fun u c => teardown u c 2) s
    | none => s
  | .primary p num | .assayCopy p num | .saved p (.state num) =>
    match (getPart s p.val).inst? num.toNat with
    | some i => teardown s i.ctx 2
    | none => s
  | .workspace p => match workspaceCtx s p.val addr with | some c => teardown s c 2 | none => s
  | .strokes p k bad | .store p k bad | .entryTable p k bad | .saved p (.table k bad) =>
    if (getSlot s p.val k.val).img.isSome then reloadSlot s p.val k.val bad else s
  | .master p k =>
    let x := getSlot s p.val k.val
    if x.img.isSome then setSlot s p.val k.val { x with masterBad := true } else s
  | .staging p | .saved p .stage => if (modelHolder s p.val).isSome then beginKill s p.val .staging true [] else s
  | .mailbox c => if (getCtx s c.val).func = 16 then teardown s c.val 1 else s
  | .retained =>
    -- found at Warm recovery: as after a Cold reset (R371)
    if s.rst.phase = .warmRelease ∨ s.ctxs.any (fun e => e.2.recover) then { s with ctxs := [], rings := [], journal := [], waiting := [], be := [] } else s
  | .blotter seq =>
    { s with blt := { s.blt with ring := s.blt.ring.map (fun r => if r.seq = seq then { r with corrupt := true } else r) } }
  | .ferrule k => failCore s k.val
  | .unowned _ => s

/-- UNCORRECTABLE_ERROR (R444, R524): a record in MEM_UE_LOG, which keeps the last 16, and a fault record; the row has failed, and
the tile may have; then the outcome of Table 16.8. -/
def execUncorrectableError (e : ErrorPlace) (addr : Word) (s : State) : Result :=
  let a := placeOf s e addr.toNat
  let log := s.mem.log ++ [⟨a.1, addr, lc s⟩]
  let s1 := { s with mem := { s.mem with log := log.drop (log.length - 16), ueCount := satInc 32 s.mem.ueCount } }
  let s2 := writeFault s1 { faultOf 0x04 (placePart s e) with place := put a.1 24 ||| BitVec.ofNat 32 (addr.toNat % 2 ^ 24) }
  let s3 := markRow s2 a.1 a.2 1 1
  let s4 := match e with
    | .scratchpad t => countTileUe s3 t.val
    | .strokes _ _ _ => countTileUe s3 (addr.toNat / 2 ^ 16 % 240)
    | _ => s3
  .next (chargeError s4 e addr.toNat)

/-- SCRUB (R442 to R444, R524): a corrected word is counted, and its address among those corrected more than once with its second
correction; an address corrected more than ROW_CE times in 24 hours marks its row, and a tile with too many corrections in an hour is marked. -/
def execScrub (array : Fin 55) (addr : Word) (corrected : Bool) (s : State) : Result :=
  if !corrected then .next s
  else
    let k := array.val * 2 ^ 32 + addr.toNat
    let all := tblGet [] s.anl.rowCe k ++ [s.lt]
    let l := within (tblGet [] s.anl.rowCe k) s.lt ticksDay
    let again := decide (all.length = 2)
    let m := s.mem
    let s1 := { s with
      anl := { s.anl with rowCe := tblSet [] s.anl.rowCe k all }
      mem := { m with
        ce := tblSet 0 m.ce array.val (satInc 32 (tblGet 0 m.ce array.val))
        ceMulti := if again then tblSet 0 m.ceMulti array.val (satInc 32 (tblGet 0 m.ceMulti array.val)) else m.ceMulti } }
    let s2 := if fld (regGet s (anlOff 0)) 23 16 < l.length then markRow s1 array.val addr.toNat 1 l.length else s1
    .next (if array.val = 49 then countTileCe s2 (addr.toNat / 2 ^ 16 % 240) else s2)

/-- ASSAY_KAT (R284, R285): run while the lane's partition has no posting; a lane that fails is marked faulty; once every lane has
passed after a clock fault, postings are checked again. -/
def execAssayKat (lane : Fin 16) (pass : Bool) (s : State) : Result :=
  let parts := laneParts s lane.val
  if (upTo 16).any (fun p => parts.getLsbD p && decide ((getPart s p).postings ≠ [])) then .next s
  else if pass then
    let pr := s.assay.proven ||| BitVec.ofNat 16 (2 ^ lane.val)
    .next { s with assay := { s.assay with proven := pr, clockOk := s.assay.clockOk || decide (pr = 0xFFFF) } }
  else
    let part := ((upTo 16).find? (fun p => parts.getLsbD p)).getD 0
    let s1 := { s with assay := { s.assay with faulty := s.assay.faulty ||| BitVec.ofNat 16 (2 ^ lane.val) } }
    let s2 := writeFault s1 { faultOf 0x06 part with place := BitVec.ofNat 32 lane.val }
    .next (markUnit s2 uLane lane.val 4 1 parts)

/-- Fail every posting a partition has, oldest first. -/
def failPostings : Nat → State → Nat → State
  | 0, s, _ => s
  | n + 1, s, p =>
    match (getPart s p).postings with
    | [] => s
    | _ :: _ => failPostings n (partVerdict s p .none) p

/-- Fail every best-effort check in the pool. -/
def failPool (s : State) : State :=
  s.assay.beQueue.foldl (fun t r => match getBe t r with
    | some b => poolVerdict t b.part r b .none
    | none => { t with assay := { t.assay with beQueue := t.assay.beQueue.drop 1 } }) s

/-- ASSAY_CLOCK_FAULT (R285): every verdict not yet accepted fails with ASSAY_FAULT, and postings fail until every lane has passed its
known-answer check. -/
def execAssayClockFault (s : State) : Result :=
  let s1 := writeFault { s with assay := { s.assay with clockOk := false, proven := 0 } } (faultOf 0x06 0)
  .next (failPool ((upTo 16).foldl (fun t p => failPostings (getPart t p).postings.length t p) s1))

/-- TILE_KAT (R524): it runs on a free tile of an enabled partition in an open or returned tick; the second failure in a row marks the
tile. -/
def execTileKat (t : TileId) (pass : Bool) (s : State) : Result :=
  match tilePart s t.val with
  | none => .next s
  | some p =>
    let x := getPart s p
    if x.holder ≠ none ∨ x.kill ≠ none ∨ !freeTick s p ∨ domState s (tileQuad s t.val) ≠ .run then
      .next s
    else
      let k := physTile s t.val
      let n := if pass then 0 else tblGet 0 s.anl.kat k + 1
      let s1 := { s with anl := { s.anl with kat := tblSet 0 s.anl.kat k n } }
      .next (if 2 ≤ n then markTile s1 k 0 n else s1)

end Sys2Proof.Machine
end

