-- ==== Sys2Proof/Machine/Partitions.lean ====
section
/-! DEFINITION. Partitions coming and going (chapter 12): the checks of an enable request, sides and lanes, DISABLE, and the re-shape from
its request to its end. -/

namespace Sys2Proof.Machine

/-- The parameters a partition's registers hold: those in force, or the pending copy (R540). -/
def regParams (s : State) (p : Nat) : PartParams :=
  ⟨regGet s (fabOff p 0), regGet s (fabOff p 4), regGet s (fabOff p 8), regGet s (0x300000 + 4 * p)⟩

-- sides (R432)

/-- Free sides, ascending. -/
def freeSides (t : Tbl (Option (Nat × Bool))) : List Nat := (upTo 32).filter (fun n => (tblGet none t n).isNone)

/-- Give a partition its fabric and Assay sides, when the free ones allow it. -/
def assignSides (t : Tbl (Option (Nat × Bool))) (p share : Nat) : Option (Tbl (Option (Nat × Bool))) :=
  let f := fabricSides share
  let a := ceilDiv f 2
  let fab := (freeSides t).take f
  let banks := fab.map (fun n => n / 2)
  let asy := ((freeSides t).filter (fun n => !banks.contains (n / 2))).take a
  if fab.length = f ∧ asy.length = a then
    some (asy.foldl (fun u n => tblSet none u n (some (p, true))) (fab.foldl (fun u n => tblSet none u n (some (p, false))) t))
  else none

/-- Sides without a partition's own. -/
def dropSides (t : Tbl (Option (Nat × Bool))) (p : Nat) : Tbl (Option (Nat × Bool)) :=
  t.filter (fun e => match e.2 with | some (q, _) => q ≠ p | none => true)

-- lanes (R273)

/-- The lanes other enabled partitions hold. -/
def heldLanes (s : State) (p : Nat) : List Nat :=
  (upTo 16).flatMap (fun q => if q ≠ p ∧ (getPart s q).on = true then groupLanes s q else [])

/-- The lowest aligned group of n lanes that are free and not faulty. -/
def laneBase (s : State) (p n : Nat) : Option Nat :=
  if n = 0 then some 0
  else if n = 1 ∨ n = 2 ∨ n = 4 ∨ n = 8 ∨ n = 16 then
    (upTo 16).find? (fun b => decide (b % n = 0 ∧ b + n ≤ 16)
      && (upTo n).all (fun i => !(heldLanes s p).contains (b + i) && !s.assay.faulty.getLsbD (b + i)))
  else none

/-- Word of ASY_PART_LANES with its BASE. -/
def lanesWord (n base : Nat) : Word := put n 4 ||| BitVec.ofNat 32 base

-- the checks (Table 12.1)

/-- Rows 1 to 3: the rectangle. -/
def geomOk (q : PartParams) : Bool :=
  decide (q.origin ≤ 14 ∧ 1 ≤ q.gcols ∧ q.origin + q.gcols ≤ 15)
    && (decide (q.ghalves = 1) || decide (q.ghalves = 2 ∧ q.half = 0))

/-- Row 4 and R522: no granule of another enabled partition and none that is retired. -/
def granulesOk (s : State) (p : Nat) (q : PartParams) : Bool :=
  q.granules.all (fun g => !s.anl.retired.getLsbD g
    && (upTo 16).all (fun r => decide (r = p) || !(getPart s r).on || !(getPart s r).pars.granules.contains g))

/-- The Store regions of all enabled partitions fit (Table 12.1). -/
def storeOk (s : State) (p : Nat) (q : PartParams) : Bool :=
  decide (64 ≤ q.store ∧ q.store ≤ 32768)
    && decide (q.store + ((upTo 16).map (fun r => if r ≠ p ∧ (getPart s r).on = true then (getPart s r).pars.store else 0)).sum ≤ 32768)

/-- The slot table (Table 12.2). -/
def slotTableOk (s : State) (p : Nat) (q : PartParams) : Bool :=
  let ws := windows s p
  decide (200 ≤ cycleTicks s p) && decide (1 + windowCount s p ≤ q.store)
    && ws.all (fun w => decide (1 ≤ w.length ∧ w.start + w.length ≤ cycleTicks s p))
    && (ws.zip (ws.drop 1)).all (fun e => decide (e.1.start + e.1.length ≤ e.2.start))

/-- No engine in two enabled partitions. -/
def nibMaskOk (s : State) (p : Nat) (q : PartParams) : Bool :=
  (upTo 16).all (fun r => decide (r = p) || !(getPart s r).on
    || (upTo 16).all (fun n => !(q.nibMask.testBit n && (getPart s r).pars.nibMask.testBit n)))

/-- The first failing check of Table 12.1 for a partition with given parameters. -/
def paramCause (s : State) (p : Nat) (q : PartParams) : Option Nat :=
  let cut := fld (regGet s (fabOff p 0x10)) 12 0
  let share := fld q.mem 9 0
  if !geomOk q then some 1
  else if !granulesOk s p q then some 2
  else if share = 0 ∨ 768 < share ∨ (assignSides (dropSides s.mem.sides p) p q.share).isNone then some 3
  else if !storeOk s p q then some 3
  else if cut < 8 ∨ 4096 < cut then some 4
  else if (laneBase s p q.laneCount).isNone || !nibMaskOk s p q then some 5
  else if !slotTableOk s p q || decide (16 < q.agedShare) then some 6
  else none

/-- Every Reservoir bank pair with an owned side is in Run (Table 17.6). -/
def runBanks (s : State) : State :=
  (upTo 32).foldl (fun t n => if (tblGet none t.mem.sides n).isSome then setDom t (68 + n / 4) .run else t) s

/-- A partition takes sides and a lane group for its parameters; it keeps what it had where none is free. -/
def seat (s : State) (p : Nat) (q : PartParams) : State :=
  let base := (laneBase s p q.laneCount).getD (fld (getPart s p).pars.lanes 3 0)
  let sides := (assignSides (dropSides s.mem.sides p) p q.share).getD s.mem.sides
  let s1 := runBanks { s with mem := { s.mem with sides := sides, enabledOnce := true } }
  setPart s1 p { getPart s1 p with pars := { q with lanes := lanesWord q.laneCount base }, pendingPars := false }

/-- A request on FAB_PART_CTL while the partition re-shapes is refused (Table 21.3, cause 12). -/
def ctlBusy (s : State) (p : Nat) : Bool := (getPart s p).reshaping

/-- Tiles at the state their quads wake in: nothing of an earlier owner stays. -/
def freshTiles (s : State) (p : Nat) : State := modTiles s p (fun _ => Tile.reset)

/-- ENABLE (R316, R452, R465): refused before READY, with the reset request held, or by the first failing check of
Table 12.1. The ASN counter starts at 0 (R360). -/
def enablePart (s : State) (p : Nat) : State :=
  let x := getPart s p
  let q := regParams s p
  let err := recordErr s (fabErr p)
  if !isReady s then err 13
  else if s.rst.partHeld.getLsbD p || s.rst.partRst.getLsbD p then err 7
  else if ctlBusy s p then err 12
  else if x.on then s
  else
    match paramCause s p q with
    | some c => err c
    | none =>
      let s1 := regSet (seat s p q) (fabOff p 0x3C) 0
      let s2 := setPart s1 p { getPart s1 p with
        on := true, cycle := 0, agedLeft := 0, agedOver := 0, rrLast := 0, returned := false, holdSkips := 0, msAvail := 0, msUsed := 0 }
      freshTiles s2 p
def execEnable (p : PartId) (s : State) : Result := hostWrite s (enablePart s p.val)

/-- Whether DISABLE is refused (R541). -/
def disableBusy (s : State) (p : Nat) : Bool :=
  (upTo 64).any (fun c => (getCtx s c).on && decide ((getCtx s c).part = p))
    || (upTo 8).any (fun k => (getSlot s p k).img.isSome || (getSlot s p k).loading.isSome)
    || (upTo 64).any (fun j => entryOn s p j)

/-- A partition leaves the fabric: its sides and lanes are free and its tiles are fresh. -/
def unseat (s : State) (p : Nat) : State :=
  let s1 := freshTiles s p
  { setPart s1 p Part.reset with mem := { s1.mem with sides := dropSides s1.mem.sides p } }

/-- DISABLE (R540, R541): a pending copy stays as the partition's parameters, to be judged at the next enable request. -/
def disablePart (s : State) (p : Nat) : State :=
  if ctlBusy s p then recordErr s (fabErr p) 12
  else if !(getPart s p).on then s
  else if disableBusy s p then recordErr s (fabErr p) 8
  else unseat s p
def execDisable (p : PartId) (s : State) : Result := hostWrite s (disablePart s p.val)

-- the re-shape (R334 to R336)

/-- What R334 and R273 refuse, and parameters Table 12.1 or what the partition holds would not fit. -/
def reshapeRefused (s : State) (p : Nat) (q : PartParams) : Bool :=
  let x := getPart s p
  let ims := x.images
  let lcSolve := ims.any (fun e => e.2.isLc && !e.2.isModel)
  let shape := decide (x.pars.gcols ≠ q.gcols ∨ x.pars.ghalves ≠ q.ghalves)
  let qOver := (upTo 64).any (fun j => entryOn s p j
    && (match (getSlot s p (entryImg s p j)).img with | some im => decide (im.hdr.qAssumed < q.liveq) | none => false))
  let sides := decide (fabricSides x.pars.share ≠ fabricSides q.share)
    && ims.any (fun e => !check9 e.2 q)
  (shape && decide (ims ≠ [])) || qOver || sides || (lcSolve && decide (q.laneCount < x.pars.laneCount))
    || decide (q.share < shareUsed x) || decide (q.store < storeUsed s p) || (paramCause s p q).isSome

/-- RESHAPE (R334, R540): the pending parameters wait for the boundary of R335, or the request is refused. -/
def askReshape (s : State) (p : Nat) : State :=
  let x := getPart s p
  if ctlBusy s p then recordErr s (fabErr p) 12
  else if !x.on || reshapeRefused s p (regParams s p) then recordErr s (fabErr p) 10
  else setPart s p { x with reshapeAsked := true }
def execReshape (p : PartId) (s : State) : Result := hostWrite s (askReshape s p.val)

/-- SPARE_MODE of a partition: 0 NEVER, 1 AT_GO, 2 AUTO. -/
def spareMode (s : State) (p : Nat) : Nat := let w := regGet s (anlOff 8); fld w (2 * p + 1) (2 * p)

/-- The strictest mode of a unit's partitions (R525). -/
def unitMode (s : State) (u : FailedUnit) : Nat :=
  (upTo 16).foldl (fun m p => if u.parts.getLsbD p then min m (spareMode s p) else m) 2

/-- Re-shapes started under AUTO in the past hour. -/
def autoCount (s : State) : Nat := (s.anl.reshapes.filter (fun t => decide (s.lt < t + ticksHour))).length

/-- AUTO may start another re-shape (R525). -/
def autoOpen (s : State) : Bool := decide (autoCount s < fld (regGet s (anlOff 0xC)) 7 0)

/-- Whether a pending unit may start a re-shape now (R525). -/
def unitEligible (s : State) (u : FailedUnit) : Bool :=
  needsReshape u && decide (u.parts ≠ 0)
    && (match unitMode s u with
        | 0 => false
        | 1 => s.anl.goAsked
        | _ => s.anl.goAsked || autoOpen s)

/-- Partitions whose request waits. -/
def askedParts (s : State) : BitVec 16 :=
  (upTo 16).foldl (fun (m : BitVec 16) p =>
    if (getPart s p).on && (getPart s p).reshapeAsked then m ||| BitVec.ofNat 16 (2 ^ p) else m) 0

/-- The affected partitions: those asked for and those of every spare pending for a partition already affected (R334, R525). -/
def closeParts (us : List FailedUnit) : Nat → BitVec 16 → BitVec 16
  | 0, m => m
  | n + 1, m => closeParts us n (us.foldl (fun (a : BitVec 16) u => if a &&& u.parts ≠ 0 then a ||| u.parts else a) m)

def affectedParts (s : State) : BitVec 16 :=
  let us := (s.anl.pending.filter needsReshape).map (FailedUnit.now s)
  let m := (us.filter (unitEligible s)).foldl (fun (a : BitVec 16) u => a ||| u.parts) (askedParts s)
  closeParts us 16 m

/-- A latency-critical command that holds off a re-shape (R335 step 1). -/
def lcBusy (s : State) (p : Nat) : Bool :=
  (getPart s p).entries.any (fun e => match e.2.cmd with
    | some c => decide (c.st = .start ∨ c.st = .run ∨ c.st = .finish ∨ c.st = .verify)
    | none => false)

/-- RESHAPE_START (R335): at the first tick with no latency-critical command of an affected partition under way, best-effort commands
are killed, those in VERIFY too, and the partitions re-shape. -/
def execReshapeStart (s : State) : Result :=
  let m := affectedParts s
  let ps := (upTo 16).filter (fun p => m.getLsbD p && (getPart s p).on)
  if !isReady s || inHold s || decide (ps = []) || ps.any (fun p => lcBusy s p || (getPart s p).reshaping) then .next s
  else
    let auto := decide (askedParts s = 0) && !s.anl.goAsked
    let take := fun (u : FailedUnit) => needsReshape u && decide ((u.now s).parts &&& m = (u.now s).parts)
    let a := s.anl
    let s1 := { s with anl := { a with
      pending := a.pending.filter (fun u => !take u), bringing := a.bringing ++ a.pending.filter take, goAsked := false
      reshapes := if auto then within a.reshapes s.lt ticksHour else a.reshapes } }
    .next (ps.foldl (fun t p =>
      let t1 := match (getPart t p).holder with
        | some (.ring _) => beginKill t p .reshape true []
        | _ => t
      let t2 := killChecks t1 p false
      let y := getPart t2 p
      setPart t2 p { y with reshaping := true, applyPars := y.reshapeAsked, reshapeAsked := false }) s1)

/-- Resident strokes reloaded from their masters; a slot whose master is bad is unbound (Table 16.8). -/
def reloadResident (s : State) (p : Nat) : State :=
  (upTo 8).foldl (fun t k =>
    let x := getSlot t p k
    match x.img with
    | some im => if x.masterBad then unbindBad t p k else if im.isLc then loadStrokes t p k false im.stored else t
    | none => t) s

/-- A partition is seated afresh (R335 step 4): with the pending parameters when its re-shape was asked for and nothing of R334 or
Table 12.1 refuses them by then, else with those in force, a pending copy left pending (R540). -/
def reseat (s : State) (p : Nat) : State :=
  let x := getPart s p
  let keep := fun (t : State) =>
    let u := seat t p x.pars
    setPart u p { getPart u p with pendingPars := x.pendingPars }
  if x.applyPars && x.pendingPars then
    if reshapeRefused s p (regParams s p) then keep (recordErr s (fabErr p) 10) else seat s p (regParams s p)
  else keep s

/-- RESHAPE_END (R335): sides and lanes are assigned afresh in ascending partition order, the pending spares are in, and the
resident strokes are reloaded; Hold pauses it (Table 12.6). -/
def execReshapeEnd (s : State) : Result :=
  let ps := (upTo 16).filter (fun p => (getPart s p).reshaping)
  if inHold s || decide (ps = []) || ps.any (fun p => (getPart s p).kill.isSome) then .next s
  else
    let s1 := ps.foldl (fun t p =>
      let t1 := freshTiles t p
      let x := getPart t1 p
      let t2 := { t1 with mem := { t1.mem with sides := dropSides t1.mem.sides p } }
      setPart t2 p { x with pars := { x.pars with lanes := 0 } }) s
    let us := s1.anl.bringing
    let s2 := us.foldl applySpare { s1 with anl := { s1.anl with bringing := [] } }
    let s3 := ps.foldl (fun t p => reseat (setPart t p { getPart t p with pars := (getPart s p).pars }) p) s2
    let s4 := ps.foldl (fun t p => reloadResident (freshTiles t p) p) s3
    .next (ps.foldl (fun t p => setPart t p { getPart t p with reshaping := false, applyPars := false }) s4)

/-- ANL_GO (R525): the re-shapes that wait under AT_GO start. -/
def anlGo (s : State) : State :=
  if s.anl.pending.any (fun u => needsReshape u && decide (unitMode s u ≠ 0)) then { s with anl := { s.anl with goAsked := true } }
  else s
def execAnlGo (s : State) : Result := hostWrite s (anlGo s)

end Sys2Proof.Machine
end

