-- ==== Sys2Proof/Machine/Ports.lean ====
section
/-! DEFINITION. Direct ports and Ethernet ports (chapter 14): frames received, safe frames, and the phases of a field output from
PLL lock to configuration. -/

namespace Sys2Proof.Machine

/-- The number of a port in RST_PORT_REQ (Table 21.11). -/
def Port.num : Port → Nat
  | .quill q => q.val
  | .direct d => 16 + d.val
  | .eth e => 24 + e.val

/-- A port is held in reset: by its own reset, or because the device has not released its ports (R449, Table 17.3). In
BOOT_FAIL every field pad stays in its always-on state (R464). -/
def portInReset (s : State) (n : Nat) : Bool := s.rst.portRst.getLsbD n || !isReady s

def ethOn (s : State) (e : Nat) : Bool := wbit (regGet s (ethOff e 0)) 15

/-- PORT_PLL_LOCK (Table 14.15): a link leaves OFF, and enters TRAIN when it is enabled; a direct port is unconfigured or
configured by its register; an Ethernet port's link follows its configuration. -/
def execPortPllLock (port : Port) (s : State) : Result :=
  if portInReset s (Port.num port) then .next s
  else
    match port with
    | .quill q =>
      let x := getLink s q.val
      if x.st ≠ .off then .next s
      else
        let s1 := setLink s q.val { x with pll := true }
        .next (setLink s1 q.val { getLink s1 q.val with st := restState s1 q.val })
    | .direct d => .next (setDport s d.val { getDport s d.val with pll := true })
    | .eth e => .next (setEth s e.val { getEth s e.val with pll := true, up := ethOn s e.val })

/-- The bits of a word, least significant first. -/
def bitsLsb (n : Nat) (w : Word) : List Bool := (upTo n).map (fun i => w.getLsbD i)

/-- The beats of a frame (R395). -/
def dpBeats (w wb : Nat) : Nat := ceilDiv (48 + w * wb) 14

/-- The CRC of a frame (R394). -/
def dpCrc (header : Word) (words : List Word) (wb : Nat) : BitVec 16 :=
  crc16 (bitsLsb 32 header ++ words.flatMap (bitsLsb wb))

/-- The CRC, RSV bits, STAT and length of an input frame pass (R394). -/
def dpFrameOk (s : State) (d : Nat) (f : PortFrame) : Bool :=
  let w := dpWords s d
  let wb := dpWidth s d
  decide (f.words.length = w) && decide (f.crc = dpCrc f.header f.words wb) && decide (fld f.header 11 0 = 0)
    && !statReserved (fld f.header 15 12) && decide (f.beats = dpBeats w wb)

/-- A direct port is configured as an input. -/
def dpIsIn (s : State) (d : Nat) : Bool :=
  let w := regGet s (dpOff d 0)
  wbit w 31 && !wbit w 30

/-- DP_FRAME_RX (R392 to R394): the frame of an input port is accepted, or discarded and counted. -/
def execDpFrameRx (d : PortId) (f : PortFrame) (s : State) : Result :=
  let i := 16 + d.val
  if !dpIsIn s d.val || portInReset s i || !(getDport s d.val).pll then .next s
  else
    let stat := fld f.header 15 12
    let seq := fld f.header 31 16
    let ws : List Word := f.words.map (fun (w : Word) => w <<< (32 - dpWidth s d.val))
    let note := fun (t : State) (v : Nat) => (frameRecord t i v stat seq (lc t) ws).1
    if !dpFrameOk s d.val f then .next (note (bump s (dpOff d.val 4)) vDiscarded)
    else if stat = 6 then .next (note s vNotValid)
    else if !strmOn s i || strmIsOut s i then .next (note s vDiscarded)
    else
      let chk := wbit (regGet s (dpOff d.val 0)) 29
      .next (acceptFrame s i stat ⟨lc s, if chk then some (BitVec.ofNat 16 seq) else none, 1, ws⟩)

/-- SAFE_FRAME_TIMER (R403): an unconfigured output port with its PLL locked sends a safe frame. -/
def execSafeFrameTimer (d : PortId) (s : State) : Result :=
  let x := getDport s d.val
  let w := tblGet 0 s.fuse.dpSafe d.val
  if s.fuse.dpOutputs.getLsbD d.val && wbit w 31 && decide (fld w 23 16 ≠ 0) && x.pll && !portInReset s (16 + d.val)
      && !wbit (regGet s (dpOff d.val 0)) 31 then
    let n := fld w 12 8 + 1
    let wb := fld w 4 0 + 1
    let word := topBits wb (tblGet 0 s.fuse.dpSafeWord d.val)
    .next (setDport s d.val { x with
      safeSeq := x.safeSeq + 1, lastTx := some ⟨1, x.safeSeq, 6, 0, true, false, List.replicate n word⟩ })
  else .next s

-- Ethernet stream frames (R396, Table 14.12)

/-- TYPE and WORDS of a stream frame's header. -/
def EthFrame.ftype (f : EthFrame) : Nat := fld f.header0 27 24
def EthFrame.nwords (f : EthFrame) : Nat := fld f.header1 15 8

/-- FCS and header pass. -/
def ethHeaderOk (f : EthFrame) : Bool :=
  f.fcsOk && decide (fld f.header0 31 28 = 1) && decide (1 ≤ EthFrame.ftype f ∧ EthFrame.ftype f ≤ 4)
    && !statReserved (fld f.header0 23 20) && decide (fld f.header0 19 16 = 0) && decide (fld f.header1 7 0 = 0)
    && decide (1 ≤ EthFrame.nwords f ∧ EthFrame.nwords f ≤ 64) && decide (f.payload.length = EthFrame.nwords f)
    && (decide (EthFrame.ftype f < 3) || decide (EthFrame.nwords f = 8))

/-- An entry learned for a source MAC on a port. -/
def onMac (s : State) (e : Nat) (mac : BitVec 48) (n : Nat) : Bool :=
  decide ((getPartner s n).st ≠ .free ∧ (getPartner s n).att = .eth e mac)

/-- The partner entry learned for a source MAC on a port: the ACTIVE one where several PIDs came from it (assumption 55). -/
def macEntry (s : State) (e : Nat) (mac : BitVec 48) : Option Nat :=
  ((upTo 256).find? (fun n => onMac s e mac n && decide ((getPartner s n).st = .active))).or ((upTo 256).find? (onMac s e mac))

/-- A frame from a MAC ends the silence of the entries learned for it. -/
def hearMac (s : State) (e : Nat) (mac : BitVec 48) : State :=
  (upTo 256).foldl (fun t n => if onMac t e mac n then setPartner t n { getPartner t n with seen := t.lt } else t) s

/-- The inbound streams bound to a port and tag. -/
def tagStreams (s : State) (e tag : Nat) : List Nat :=
  ((upTo 64).map (fun k => 24 + k)).filter (fun i => strmOn s i && !strmIsOut s i && decide (strmEthPort s i = e ∧ strmTag s i = tag))

/-- The outcome of Table 14.7 on an Ethernet stream: a frame ahead is accepted (R396). -/
def ethSeqLate (x : EthPort) (i : Nat) (seq : BitVec 16) : Bool :=
  match tblGet none x.expect i with
  | some q => decide (q ≠ seq ∧ (q - seq).toNat ≤ 2 ^ 15)
  | none => false

/-- A DATA or BULK frame that matched its stream and partner. -/
def ethTake (s : State) (e i : Nat) (f : EthFrame) : State :=
  let x := getEth s e
  let seq := BitVec.ofNat 16 (fld f.header0 15 0)
  let stat := fld f.header0 23 20
  if ethSeqLate x i seq then (frameRecord s i vLate stat seq.toNat (lc s) f.payload).1
  else
    let s1 := setEth s e { x with expect := tblSet none x.expect i (some (seq + 1)) }
    if EthFrame.ftype f = 2 then
      let (s2, ref) := frameRecord s1 i vAccepted stat seq.toNat (lc s1) f.payload
      streamSet s2 i ref 0 f.payload false
    else if stat = 6 then (frameRecord s1 i vNotValid stat seq.toNat (lc s1) f.payload).1
    else acceptFrame s1 i stat ⟨lc s1, some seq, 1, f.payload⟩

/-- Match a DATA or BULK frame to its stream (R396, R399). -/
def ethMatch (s : State) (e : Nat) (f : EthFrame) : State :=
  match macEntry s e f.src with
  | none => bump s (ethOff e 0x10)
  | some n =>
    let x := getPartner s n
    let is := tagStreams s e (fld f.header1 31 16)
    match is.find? (fun i => pidMatches s i (some x)), is with
    | some i, _ =>
      if x.st = .active then ethTake s e i f
      else bump (frameRecord s i vPidMismatch (fld f.header0 23 20) (fld f.header0 15 0) (lc s) f.payload).1 (fioOff 0x4C)
    | none, i :: _ =>
      bump (frameRecord s i vPidMismatch (fld f.header0 23 20) (fld f.header0 15 0) (lc s) f.payload).1 (fioOff 0x4C)
    | none, [] => bump s (ethOff e 0x10)

/-- ETH_STREAM_RX (R396 to R399). -/
def execEthStreamRx (e : EthId) (f : EthFrame) (s : State) : Result :=
  let x := getEth s e.val
  if !ethOn s e.val || !x.pll || portInReset s (24 + e.val) then .next s
  else
    let s1 := setEth s e.val { x with up := true }
    let s2 := hearMac s1 e.val f.src
    if fld (regGet s (ethOff e.val 0)) 31 16 ≠ f.etype.toNat || !ethHeaderOk f then .next s2
    else if EthFrame.ftype f = 3 then .next (identify s2 (.eth e.val f.src) (identOf f.payload))
    else if EthFrame.ftype f = 4 then .next (attachmentGone s2 (fun a => decide (a = .eth e.val f.src)))
    else .next (ethMatch s2 e.val f)

/-- An Ethernet port's link is down: its streams' sequence starts afresh. -/
def ethDown (s : State) (e : Nat) : State := setEth s e { getEth s e with up := false, slave := false, expect := [] }

end Sys2Proof.Machine
end

