-- ==== Sys2Proof/Machine/Power.lean ====
section
/-! DEFINITION. The Hold state (R339 to R341, R466, R468), power domains (R166, R167, R469 to R471), temperature, throttling and the safe
state (R472 to R476). -/

namespace Sys2Proof.Machine

-- power domains (Table 17.6)

/-- Whether Table 17.6 and R470 let a domain enter a state. -/
def domAllowed (s : State) (d : Nat) (st : PowerState) : Bool :=
  if d < 64 then quadIdle s d && decide (depthOf st ≤ quadFloor s d)
  else if d < 68 then
    (st = .gated || st = .off) && (upTo 4).all (fun i => decide ((getNib s (4 * (d - 64) + i)).st = .config))
  else if d < 76 then st = .off && (upTo 4).all (fun i => (tblGet none s.mem.sides (4 * (d - 68) + i)).isNone)
  else if d < 84 then st = .retain && !gddrNeeded s
  else if d = 84 then st = .gated && (upTo 16).all (fun p => !(getPart s p).on || decide ((getPart s p).pars.laneCount = 0))
  else if d = 85 then st = .off && s.fuse.pcieOff
  else if d < 90 then st = .off && !ethOn s (d - 86)
  else if d < 92 then st = .off && (upTo 8).all (fun i => !qlOn s (8 * (d - 90) + i))
  else false

/-- POWER_DOMAIN_LOWER (R469 to R471): a domain enters a lower state that Table 17.6 lists for it, under its condition. -/
def execPowerDomainLower (d : Fin 96) (st : PowerState) (s : State) : Result :=
  if depthOf (domState s d.val) < depthOf st ∧ domAllowed s d.val st = true then .next (lowerDom s d.val st) else .next s

/-- A quad holds resident strokes of a bound image (R167). -/
def quadResident (s : State) (d : Nat) : Bool :=
  (quadParts s d).any (fun p => (getPart s p).images.any (fun e => e.2.isLc
    && e.2.strokes.any (fun b => (quadTiles s d).contains (relTile (getPart s p).pars b.row b.col))))

/-- POWER_DOMAIN_WAKE (R470): no more than 8 quads leave Off or Retain in a µs; a quad with resident strokes waits for their reload. -/
def execPowerDomainWake (d : Fin 96) (s : State) : Result :=
  let st := domState s d.val
  if st = .run ∨ s.pwr.reloads.contains d.val = true then .next s
  else if 76 ≤ d.val ∧ d.val < 84 then .next ((upTo 8).foldl (fun t i => setDom t (76 + i) .run) s)
  else if d.val < 64 ∧ (st = .off ∨ st = .retain) then
    let fresh := decide (400 ≤ s.lt - s.pwr.wakeTick)
    let n := if fresh then 0 else s.pwr.wakes
    if 8 ≤ n then .next s
    else
      let s1 := { s with pwr := { s.pwr with wakes := n + 1, wakeTick := if fresh then s.lt else s.pwr.wakeTick } }
      if st = .off ∧ quadResident s d.val then .next { s1 with pwr := { s1.pwr with reloads := s1.pwr.reloads ++ [d.val] } }
      else .next (setDom s1 d.val .run)
  else .next (setDom s d.val .run)

/-- STROKE_RELOAD (R167, Table 16.8): the resident strokes of a quad that leaves Off are loaded from their masters, and it is in Run; a
slot whose master is bad is unbound. -/
def execStrokeReload (quad : Fin 64) (s : State) : Result :=
  if !s.pwr.reloads.contains quad.val then .next s
  else
    let s1 := { s with pwr := { s.pwr with reloads := s.pwr.reloads.filter (· ≠ quad.val) } }
    .next ((quadParts s quad.val).foldl reloadResident (setDom s1 quad.val .run))

/-- Lower every idle quad to a state, within its floor. -/
def lowerIdle (s : State) (st : PowerState) : State := (upTo 64).foldl (fun t d => lowerQuad t d st) s

-- Hold

/-- Commands in VERIFY whose check a Hold abandons (R339, Table 10.6): launch entries', and best-effort ones on the pool. -/
def holdChecks (s : State) (p : Nat) : State :=
  let s1 := (upTo 64).foldl (fun t j => match (getRun t p j).cmd with
    | some c => if c.st = .verify then toRerun t p (.entry j) true else t
    | none => t) s
  killChecks s1 p true

/-- HOLD_ENTRY (R339): VDD_K has stayed below its warning level for 200 ns. Every command that runs is killed and re-runs, checks are
abandoned, and the idle quads that no partition needs for its next launch are clock-gated. -/
def execHoldEntry (s : State) : Result :=
  if !(isReady s && s.rst.vddkWarn) || inHold s then .next s
  else
    let s1 := { s with rst := { s.rst with hold := some (lc s) } }
    let s2 := (upTo 16).foldl (fun t p =>
      if !(getPart t p).on then t
      else
        let t1 := holdChecks (beginKill t p .hold true []) p
        setPart t1 p { getPart t1 p with holdSkips := 0 }) s1
    let s3 := gateQuads s2
    .next (if wbit (regGet s3 (bltOff 0x30)) 0 then bltTrigger s3 4 else s3)

/-- A command that waits for its re-run starts again when its partition may run it (R230, R341). -/
def rerunAll (s : State) (p : Nat) : State :=
  (upTo 64).foldl (fun t j =>
    match Fin.ofNat 64 j, Fin.ofNat 16 p with
    | j', p' => match execRerunStart p' j' t with
      | .next u => u
      | _ => t) s

/-- HOLD_EXIT (R340, R341): VDD_K has stayed above its warning level for 50 µs. Each partition's Hold event is raised, and killed
latency-critical commands re-run where R222 passes. -/
def execHoldExit (s : State) : Result :=
  match s.rst.hold with
  | none => .next s
  | some e =>
    if s.rst.vddkWarn then .next s
    else
      let s1 := { s with rst := { s.rst with hold := none } }
      .next ((upTo 16).foldl (fun t p =>
        let x := getPart t p
        if !x.on then t
        else rerunAll (raiseEvent t 0x02 (some p) p (BitVec.ofNat 32 x.holdSkips) (BitVec.ofNat 32 (lc t - e)) 0 (BitVec.ofNat 64 e)) p) s1)

/-- VDDK_WARN_RISE (R466, R468): the warning bit, and before READY a pause of the release from GDDR6 training on. -/
def execVddkWarnRise (s : State) : Result :=
  let pre := decide (s.rst.phase = .coldRelease ∨ s.rst.phase = .warmRelease)
  .next { s with rst := { s.rst with vddkWarn := true, paused := s.rst.paused || pre } }

/-- VDDK_WARN_CLEAR (R340, R468): VDD_K is above its warning level again. -/
def execVddkWarnClear (s : State) : Result := .next { s with rst := { s.rst with vddkWarn := false } }

/-- BOOT_PAUSE_END (R466): 50 µs above the warning level. -/
def execBootPauseEnd (s : State) : Result :=
  if s.rst.vddkWarn then .next s else .next { s with rst := { s.rst with paused := false } }

-- temperature; readings in 0.25 °C (R473)

/-- The highest reading. -/
def tjMax (l : List Int) : Int := l.foldl max (l.headD 0)

/-- TJ_WARN in 0.25 °C; by grade TJ_CRIT, TJ_CRIT − 10 °C and the low end of the operating range (Table 17.7). -/
def tjWarn (s : State) : Int := (fld (regGet s (pwrOff 0x38)) 15 0 : Nat)
def tjCrit (s : State) : Int := if s.fuse.gradeAI then 440 else 400
def tjCool (s : State) : Int := tjCrit s - 40
def tjLow (s : State) : Int := if s.fuse.gradeAI then -80 else 0

/-- A temperature as the 64-bit value of an event, two's complement (Table 20.6). -/
def tjArg (tj : Int) : Nat := (BitVec.ofInt 64 tj).toNat

/-- The throttle level (R475). -/
def throttle (s : State) : Nat := fld (regGet s (pwrOff 0x3C)) 3 0
def setThrottle (s : State) (k : Nat) : State := regSet s (pwrOff 0x3C) (BitVec.ofNat 32 k)

/-- The safe state (R476): throttle level 8, every engine asked into SAFE, idle quads Off, and a HEALTH event. -/
def enterSafe (s : State) (sensor : Nat) (tj : Int) : State :=
  let s1 := setThrottle { s with pwr := { s.pwr with safe := true, coolSince := none } } 8
  healthEvent (lowerIdle (askSafe s1) .off) 0x07 6 sensor 1 (tjArg tj)

/-- The first sensor at the highest reading. -/
def hotSensor (l : List Int) : Nat := l.idxOf (tjMax l)

/-- TJ_SAMPLE (R473 to R476): the 32 readings; below range an event, at TJ_CRIT the safe state; the thermal shutdown source ends
once every sensor is cool. -/
def execTjSample (readings : List Int) (s : State) : Result :=
  if readings.length ≠ 32 then .next s
  else
    let tj := tjMax readings
    let was := tjMax s.pwr.readings
    let low := decide (tj < tjLow s) && (decide (s.pwr.readings = []) || decide (tjLow s ≤ was))
    let cool := if tj ≤ tjCool s then some (s.pwr.coolSince.getD s.lt) else none
    let s1 := { s with pwr := { s.pwr with readings := readings, coolSince := cool } }
    let s2 := if readings.all (fun r => decide (r < tjCool s)) then
        { s1 with rst := { s1.rst with cold := s1.rst.cold &&& 0x37 } }
      else s1
    let s3 := if low then healthEvent s2 0x07 6 (hotSensor readings) 0 (tjArg tj) else s2
    .next (if tjCrit s ≤ tj ∧ s3.pwr.safe = false ∧ isReady s3 = true then enterSafe s3 (hotSensor readings) tj else s3)

/-- The power cap in mW (R472). -/
def capMw (s : State) : Nat := 1000 * fld (regGet s (pwrOff 0x30)) 7 0

/-- THROTTLE_STEP (R472, R475): once in 10 ms the level rises or falls by 1; in the safe state it stays 8. -/
def execThrottleStep (s : State) : Result :=
  let k := throttle s
  let tj := tjMax s.pwr.readings
  if s.pwr.safe then .next s
  else if tjWarn s ≤ tj ∨ capMw s < s.pwr.estimate then .next (setThrottle s (min 8 (k + 1)))
  else if tj < tjWarn s - 12 then .next (setThrottle s (k - 1))
  else .next s

/-- POWER_ESTIMATE (R472): when latency-critical work alone exceeds the cap, a HEALTH event. -/
def execPowerEstimate (mW : Nat) (s : State) : Result :=
  let s1 := { s with pwr := { s.pwr with estimate := mW } }
  let beHolds := (upTo 16).any (fun p => match (getPart s p).holder with | some (.ring _) => true | _ => false)
  if capMw s < mW ∧ (beHolds = false ∨ throttle s = 8) then .next (healthEvent s1 0x08 7 0 mW (capMw s)) else .next s1

/-- PWR_SAFE_CLR (R476): the safe state ends after 100 ms at or below TJ_CRIT − 10 °C; a write made sooner is refused. -/
def safeClear (s : State) : State :=
  match s.pwr.coolSince with
  | some t =>
    if s.pwr.safe = true ∧ t + 40000000 ≤ s.lt then
      let tj := tjMax s.pwr.readings
      healthEvent { s with pwr := { s.pwr with safe := false } } 0x07 6 (hotSensor s.pwr.readings) 2 (tjArg tj)
    else s
  | none => s
def execPwrSafeClr (s : State) : Result := hostWrite s (safeClear s)

end Sys2Proof.Machine
end

