-- ==== Sys2Proof/Machine/Time.lean ====
section
/-! DEFINITION. The time unit (chapter 15): the count, the servo with its tests, steps, the SYNC pins and the events of Table 15.7. -/

namespace Sys2Proof.Machine

def tuSrc (s : State) : Nat := fld (regGet s (tuOff 0x40)) 1 0
def syncP (s : State) : Nat := fld (regGet s (tuOff 0x58)) 20 16

/-- NOM and FADJ of R416, in 2^(−32) ns. -/
def tuNom : Int := 0x280000000
def tuFadj : Int := 1073741

/-- TU_INCR_NOM (R406). -/
def incrNom (s : State) : BitVec 40 := BitVec.ofNat 40 (regGet64 s (tuOff 0)).toNat

def modTu (s : State) (f : TimeUnit → TimeUnit) : State := { s with tu := f s.tu }

/-- A time-unit event (R427): to the contexts, the Blotter and its trigger. -/
def tuEvent (s : State) (code : Nat) (a1 a2 : Word) (a3 : Word64) : State :=
  let a0 := put s.tu.st.code 8 ||| BitVec.ofNat 32 code
  let s1 := raiseEvent s 0x05 none 0 a0 a1 a2 a3
  let t := nsCount s1
  let sl := (eventSlot 0x05 0 a0 a1 a2 a3).take 4 ++ [lo32 t, hi32 t, lo32 a3, hi32 a3]
  let s2 := bltRecord s1 kTime 0 (lc s1) sl
  if wbit (regGet s2 (bltOff 0x30)) (7 + code) then bltTrigger s2 3 else s2

/-- NOM + I, kept within the range of R406. -/
def holdIncr (u : TimeUnit) : BitVec 40 := BitVec.ofInt 40 (tuNom + u.integ)

/-- A change of servo state, with its event STATE; in HOLDOVER and STEP_PENDING the proportional term is dropped (R420). -/
def setServo (s : State) (st : ServoState) (cause : Nat) : State :=
  let u := s.tu
  let incr := match st with
    | .freerun => incrNom s
    | .holdover | .stepPending => holdIncr u
    | _ => u.incr
  let s1 := modTu s (fun v => { v with st := st, cause := if st = .holdover then cause else 0, lockRun := 0, incr := incr })
  if u.st = st ∧ (st ≠ .holdover ∨ u.cause = cause) then s1
  else tuEvent s1 0x01 (BitVec.ofNat 32 u.st.code) (BitVec.ofNat 32 s1.tu.cause) (BitVec.ofInt 64 u.lastE)

/-- Enter HOLDOVER for a cause of R419. -/
def enterHoldover (s : State) (cause : Nat) : State :=
  setServo (modTu s (fun v => { v with recover := 0, refused := 0 })) .holdover cause

/-- Nearest integer to n / 2^k, ties to even (R416). -/
def roundPow (n : Int) (k : Nat) : Int :=
  let q := n / 2 ^ k
  let r := n % 2 ^ k * 2
  if r < 2 ^ k then q else if 2 ^ k < r then q + 1 else if q % 2 = 0 then q else q + 1

/-- Magnitude. -/
def absI (x : Int) : Int := if x < 0 then -x else x

def clampI (x lo hi : Int) : Int := if x < lo then lo else if hi < x then hi else x

/-- pd_mean as UQ24.8. -/
def pdWord (m : Int × Nat) : Int := m.1 / 2 ^ m.2

/-- |pd − pd_mean| > ASYM_NS (R418), exactly. -/
def asymFails (s : State) (m : Int × Nat) (pd : Int) : Bool :=
  decide ((fld (regGet s (tuOff 0x50)) 9 0 : Int) * 256 * 2 ^ m.2 < absI (pd * 2 ^ m.2 - m.1))

/-- pd_mean after a measurement: pd_mean + (pd − pd_mean) · 2^(−PD_FILT), exactly. -/
def pdFilter (s : State) (m : Int × Nat) (pd : Int) : Int × Nat :=
  let f := fld (regGet s (tuOff 0x50)) 19 16
  (m.1 * 2 ^ f + (pd * 2 ^ m.2 - m.1), m.2 + f)

/-- The jump test of R416. -/
def jumpFails (s : State) (e : Int) : Bool :=
  decide ((fld (regGet s (tuOff 0x4C)) 19 0 : Int) * 65536 < absI e)
    || (decide (tuSrc s = 2) && decide (5 * 2 ^ syncP s * 8192 ≤ absI e))

/-- A measurement the jump test refuses: counted, and the JUMP_N-th in a row proposes a step (R416). -/
def refuseJump (s : State) (e : Int) : State :=
  let n := s.tu.refused + 1
  let s1 := modTu s (fun v => { v with refused := n, lastE := e })
  let s2 := tuEvent s1 0x02 (BitVec.ofNat 32 n) 0 (BitVec.ofInt 64 e)
  if n = fld (regGet s2 (tuOff 0x4C)) 31 24 then
    let prop := roundPow (-e) 16
    let id := s2.tu.stepNext
    let s3 := setServo (modTu s2 (fun v => { v with proposal := prop, stepId := id, stepNext := if id = 0xFFFF then 1 else id + 1 }))
      .stepPending 0
    tuEvent (modTu s3 (fun v => { v with refused := n })) 0x03 (BitVec.ofNat 32 id.toNat) 0 (BitVec.ofInt 64 prop)
  else s2

/-- Lock tracking (Table 15.3). -/
def trackLock (s : State) (e : Int) : State :=
  let w := regGet s (tuOff 0x54)
  let inside := decide (absI e ≤ (fld w 9 0 : Int) * 65536)
  let counts := match s.tu.st with
    | .acquire => inside
    | .locked => !inside
    | _ => false
  let n := if counts then s.tu.lockRun + 1 else 0
  if counts && decide (n = fld w 31 24) then setServo s (if s.tu.st = .acquire then .locked else .acquire) 0
  else modTu s (fun v => { v with lockRun := n })

/-- An accepted measurement moves I and INCR (R416). -/
def servoStep (s : State) (e : Int) : State :=
  let s0 := modTu s (fun v => { v with refused := 0, lastE := e })
  let s1 := if s0.tu.st = .stepPending then setServo s0 .acquire 0 else s0
  let kp : Int := (regGet s1 (tuOff 0x44)).toNat
  let ki : Int := (regGet s1 (tuOff 0x48)).toNat
  let i := clampI (s1.tu.integ - roundPow (ki * e) 32) (-tuFadj) tuFadj
  let adj := i - roundPow (kp * e) 32
  let incr := clampI (tuNom + adj) (tuNom - tuFadj) (tuNom + tuFadj)
  let s2 := modTu s1 (fun v => { v with integ := i, incr := BitVec.ofInt 40 incr })
  let s3 := if incr = tuNom + adj then s2 else tuEvent s2 0x06 0 0 (BitVec.ofInt 64 adj)
  trackLock s3 e

/-- The recovery test of an asymmetry holdover (R418). -/
def recoverTest (s : State) (m : Int × Nat) (pd : Int) : State :=
  let n := if asymFails s m pd then 0 else s.tu.recover + 1
  let s1 := modTu s (fun v => { v with recover := n, lastPd := pd })
  if n = fld (regGet s (tuOff 0x50)) 31 24 then setServo s1 .acquire 0 else s1

/-- Procedure measure of R416 after the path-delay part. A HOLDOVER that is not an asymmetry's ends with the first measurement that
passes the jump test (R419). -/
def measureOffset (s : State) (e : Int) : State :=
  if s.tu.st = .holdover then
    if s.tu.refLost then s
    else if jumpFails s e then refuseJump s e
    else setServo (modTu s (fun v => { v with refused := 0, lastE := e })) .acquire 0
  else if s.tu.st = .freerun then s
  else if jumpFails s e then refuseJump s e
  else servoStep s e

/-- Procedure measure of R416 for PTP. -/
def measurePtp (s : State) (port : Nat) (e pd : Int) : State :=
  match s.tu.pdMean with
  | none => measureOffset (modTu s (fun v => { v with pdMean := some (pd, 0), lastPd := pd })) e
  | some m =>
    if s.tu.st = .holdover ∧ s.tu.cause = 1 then recoverTest s m pd
    else if asymFails s m pd then
      let s1 := enterHoldover (modTu s (fun v => { v with lastPd := pd, lastE := e })) 1
      tuEvent s1 0x05 (BitVec.ofNat 32 port) (BitVec.ofInt 32 pd) (BitVec.ofInt 64 (pdWord m % 2 ^ 32))
    else measureOffset (modTu s (fun v => { v with pdMean := some (pdFilter s m pd), lastPd := pd })) e

/-- An Ethernet port that can be a PTP slave: enabled with PTP, its PLL locked, out of reset. -/
def ptpPortOn (s : State) (e : Nat) : Bool :=
  let w := regGet s (ethOff e 0)
  wbit w 15 && wbit w 10 && (getEth s e).pll && !s.rst.portRst.getLsbD (24 + e)

/-- The constant of Table 15.1 for a port's mode, in tenths of a nanosecond. -/
def pinConst (s : State) (e : Nat) (tx : Bool) : Nat :=
  let w := regGet s (ethOff e 0)
  let c : Nat × Nat :=
    if wbit w 14 = false then (80, 112)
    else match fld w 13 12 with
      | 1 => (62, 953)
      | 2 => (70, 1186)
      | _ => (56, 79)
  if tx then c.1 else c.2

/-- The timestamp of a PTP event message (R412), in 2^(−16) / 10 ns: T at the crossing, to 0.15625 ns, moved to the pins. -/
def ptpStamp (s : State) (e : Nat) (tx : Bool) (t : Nat) : Int :=
  let c : Int := (pinConst s e tx : Int) * 65536
  let r : Int := (t / (10240 * 65536) : Nat) * 102400
  if tx then r + c else r - c

/-- Twice the path delay of an exchange, in the unit of `ptpStamp`: the mean path delay, or the link delay (R415, assumption 93). -/
def ptpPath (s : State) (e : Nat) (y : PtpSync) (d : PtpDelay) : Int :=
  if d.peer then ptpStamp s e false d.respRx - ptpStamp s e true d.reqTx - 10 * (d.respTx - d.reqRx)
  else ptpStamp s e false y.rx - ptpStamp s e true d.reqTx + 10 * (d.reqRx - y.tx)

/-- pd of an exchange, in 2^(−8) ns. -/
def ptpPd (s : State) (e : Nat) (y : PtpSync) (d : PtpDelay) : Int := roundQuot .rne (ptpPath s e y d) 5120

/-- e of an exchange, in 2^(−16) ns: T less the master's time, the path delay and the declared asymmetry (R413, R415, assumption 93). -/
def ptpOffset (s : State) (e : Nat) (y : PtpSync) (d : PtpDelay) : Int :=
  let asym := (regGet s (tuOff (0x60 + 4 * e))).toInt
  roundQuot .rne (2 * (ptpStamp s e false y.rx - 10 * y.tx) - ptpPath s e y d - 5120 * asym) 20

/-- PTP_MEASUREMENT (R415 to R417): only a port in the SLAVE state yields one; Ferrule's choice makes the port that slave. An exchange with
a timestamp from before a step is discarded. -/
def execPtpMeasurement (port : EthId) (e : PtpSync) (pd : PtpDelay) (s : State) : Result :=
  if !isReady s || decide (tuSrc s ≠ 1) || !ptpPortOn s port.val || decide (min e.began pd.began < s.tu.stepTick) then .next s
  else
    let s1 := setEth s port.val { getEth s port.val with up := true, slave := true }
    .next (measurePtp (modTu s1 (fun v => { v with port := port.val })) port.val (ptpOffset s port.val e pd) (ptpPd s port.val e pd))

/-- SYNC_IN_EDGE (R414, R423): a rising edge at T_e, in 2^(−16) ns and taken to one eighth of a tick, measures the offset from the nearest
pulse instant, or is ignored. -/
def execSyncInEdge (edge : Int) (narrow : Bool) (s : State) : Result :=
  if tuSrc s ≠ 2 then .next s
  else
    let te := edge / 20480 * 20480
    let per : Int := 2 ^ syncP s * 163840
    let early := match s.tu.lastEdge with | some t => decide (2 * (te - t) < per) | none => false
    let s1 := modTu s (fun v => { v with lastEdge := some te })
    if narrow || early then .next (bump s1 (tuOff 0x94))
    else
      let d := te - (regGet s (tuOff 0x5C)).toInt * 256
      let x := (2 * d + per) / (2 * per)
      .next (measureOffset s1 (d - x * per))

/-- The latest count of SYNC_OUT that T has come to: the greatest multiple of 2^SYNC_P not above LC (R422). -/
def syncCount (s : State) : Nat := lc s / 2 ^ syncP s * 2 ^ syncP s

/-- T came to 2.5 ns × X with its last addition: one increment, or the 25 of an oscillator cycle (R405, R421). -/
def reachedNow (s : State) (x : Nat) : Bool :=
  decide (s.tu.t.toNat < x * 0x280000000 + (if s.tu.refLost then 25 else 1) * s.tu.incr.toNat)

/-- SYNC_OUT_PULSE (R422, R409): T comes to the instant of a multiple of the pulse period above M (Table 15.5). -/
def execSyncOutPulse (s : State) : Result :=
  let w := regGet s (tuOff 0x58)
  if wbit w 31 && reachedNow s (syncCount s) && decide (s.tu.mark < syncCount s) then
    .next (modTu s (fun v => { v with syncOut := true, syncLeft := fld w 7 0 }))
  else .next s

/-- The source of the servo is lost while it tracks (R419). -/
def sourceLost (s : State) : State :=
  if s.tu.st = .acquire ∨ s.tu.st = .locked then enterHoldover s 2 else s

/-- SOURCE_TIMEOUT (R419): no measurement accepted for SRC_TIMEOUT expected intervals. -/
def execSourceTimeout (s : State) : Result := if tuSrc s = 0 then .next s else .next (sourceLost s)

/-- The slave port leaves SLAVE, loses its link or is reset (R419). -/
def slaveLost (s : State) (e : Nat) : State :=
  let x := getEth s e
  if x.slave ∧ tuSrc s = 1 ∧ s.tu.port = e then sourceLost (setEth s e { x with slave := false })
  else setEth s e { x with slave := false }

/-- ETH_LINK_DOWN (R419): an Ethernet port loses its link. -/
def execEthLinkDown (e : EthId) (s : State) : Result :=
  let s1 := slaveLost s e.val
  .next (setEth s1 e.val { getEth s1 e.val with up := false, expect := [] })

/-- GRANDMASTER_CHANGE (R419): pd_mean is cleared and the servo holds over. -/
def execGrandmasterChange (identity : Word64) (s : State) : Result :=
  if tuSrc s ≠ 1 then .next s
  else
    let s1 := modTu s (fun v => { v with pdMean := none })
    let s2 := if s1.tu.st = .stepPending then s1 else enterHoldover s1 2
    .next (tuEvent s2 0x07 1 (BitVec.ofNat 32 s2.tu.port) identity)

/-- Refuse a time-unit write (R538). -/
def tuRefuse (s : State) (cause : Nat) : State := recordErr s (tuOff 0x90) cause

/-- A launch entry is valid. -/
def anyEntryValid (s : State) : Bool :=
  (upTo 16).any (fun p => (upTo 64).any (fun j => wbit (regGet s (launchOff p j 6)) 15))

/-- T in 2^(−32) ns moved by a whole number of nanoseconds is negative. -/
def stepNegative (s : State) (by' : Int) : Bool := decide ((s.tu.t.toNat : Int) + by' * 2 ^ 32 < 0)

/-- TU_STEP_CMD (R417). -/
def stepCmd (s : State) (v : Word) : State :=
  let by' := (regGet64 s (tuOff 0x80)).toInt
  let id := BitVec.ofNat 16 (fld v 15 0)
  let want := if s.tu.st = .stepPending then s.tu.stepId else 0
  let engines := (upTo 16).any (fun n => decide ((getNib s n).st ≠ .config ∧ (getNib s n).st ≠ .armed ∧ (getNib s n).st ≠ .safe))
  if id ≠ want then tuRefuse s 4
  else if wbit v 31 = false ∧ (anyEntryValid s || engines) = true then tuRefuse s 5
  else if stepNegative s by' then tuRefuse s 6
  else modTu s (fun u => { u with accepted := some (by', id) })
def execTuStepCmd (v : Word) (s : State) : Result := hostWrite s (stepCmd s v)

/-- Skip the launches of an entry below a count, each counted (Table 15.5): the entry after it, and how many. -/
def skipUntil : Nat → State → Nat → Nat → Nat → State × Nat
  | 0, s, _, _, _ => (s, 0)
  | n + 1, s, p, j, l =>
    let e := getRun s p j
    if e.on = true ∧ e.next < l ∧ 0 < entryPeriod s p j then
      let r := skipUntil n (skipLaunch s p j 5) p j l
      (r.1, r.2 + 1)
    else (s, 0)

/-- Every launch count a step forward passes over is skipped, but for those of a replay (Table 15.5, R513). -/
def skipPassed (s : State) : State × Nat :=
  (upTo 16).foldl (fun a p =>
    if isReplay a.1 p then a
    else (upTo 64).foldl (fun b j =>
      let r := skipUntil (lc b.1 - (getRun b.1 p j).next) b.1 p j (lc b.1)
      (r.1, b.2 + r.2)) a) (s, 0)

/-- STEP_APPLY (R417, Table 15.5): an accepted step moves T; the servo enters ACQUIRE. -/
def execStepApply (s : State) : Result :=
  match s.tu.accepted with
  | none => .next s
  | some (by', id) =>
    let old := lc s
    let s1 := modTu s (fun u => { u with
      t := BitVec.ofInt 96 ((u.t.toNat : Int) + by' * 2 ^ 32), accepted := none, refused := 0, proposal := 0, stepId := 0
      stepTick := s.lt
      mark := if by' < 0 then max u.mark old else u.mark })
    let r := if 0 < by' then skipPassed s1 else (s1, 0)
    let s2 := if tuSrc r.1 = 0 then r.1 else setServo r.1 .acquire 0
    .next (tuEvent s2 0x04 (BitVec.ofNat 32 id.toNat) (BitVec.ofNat 32 r.2) (BitVec.ofInt 64 by'))

/-- ACCEPT (R418): the new path stands; refused in any other state. -/
def acceptPath (s : State) : State :=
  if s.tu.st = .holdover ∧ s.tu.cause = 1 then
    setServo (modTu s (fun u => { u with pdMean := some (u.lastPd, 0) })) .acquire 0
  else tuRefuse s 7
def execAccept (s : State) : Result := hostWrite s (acceptPath s)

/-- TU_SRC (Table 15.4): SRC takes effect at once; a pending proposal is discarded (Table 15.8). -/
def srcWrite (s : State) (v : Word) : State :=
  let src := fld v 1 0
  if src = 3 then tuRefuse s 1
  else
    let s1 := modTu (regSet s (tuOff 0x40) (BitVec.ofNat 32 src)) (fun u => { u with
      refused := 0, proposal := 0, stepId := 0, lastEdge := none })
    let s2 := if src = 0 then setServo s1 .freerun 0
      else if s1.tu.refLost then enterHoldover s1 4
      else setServo s1 .acquire 0
    tuEvent s2 0x07 (BitVec.ofNat 32 src) (if src = 1 then BitVec.ofNat 32 s2.tu.port else 0xFF) 0
def execTuSrcWrite (v : Word) (s : State) : Result := hostWrite s (srcWrite s v)

/-- T and its local ticks move on by n increments (R405, R421). -/
def advanceTime (s : State) (n : Nat) : State :=
  let u := s.tu
  { s with
    lt := s.lt + n
    tu := { u with
      t := u.t + BitVec.ofNat 96 (n * u.incr.toNat), syncLeft := u.syncLeft - n,
      syncOut := u.syncOut && decide (n < u.syncLeft) } }

end Sys2Proof.Machine
end

