-- ==== Sys2Proof/Machine/Resets.lean ====
section
/-! DEFINITION. Reset sources and what each reach clears (R447 to R456, R467, R477, Table 17.8): the assertion of Cold, Warm, Partition and
Port resets by their sources. -/

namespace Sys2Proof.Machine

/-- Bits of the sources in RST_SRC_STAT (Table 21.11). -/
def bPowerOn : Nat := 0
def bBrownout : Nat := 1
def bResetN : Nat := 2
def bThermal : Nat := 3
def bLifecycle : Nat := 4
def bTamper : Nat := 5
def bWatchdog : Nat := 8
def bSoftware : Nat := 9
def bDebug : Nat := 10
def bClockLoss : Nat := 11

-- what a reach clears

/-- PWR_TJ_CFG of an -AI device after a Cold or Warm reset (Table 21.11). -/
def gradeRegs (f : Fuses) (t : Tbl Word) : Tbl Word := if f.gradeAI then tblSet (regDefault (pwrOff 0x38)) t (pwrOff 0x38) 0x190 else t

/-- Every unit of a Cold reach at its reset value: only what lies outside the device, the fuses, the flash, the pins, the source levels
and the sensors stay (R405, R428, R477). The model's own queue and counter are no part of the device. -/
def coldState (s : State) : State :=
  { State.reset with
    pending := s.pending, freeCtr := s.freeCtr, regs := gradeRegs s.fuse [], host := s.host, fuse := s.fuse, flash := s.flash
    rst := { ResetUnit.reset with
      cold := s.rst.cold, warm := s.rst.warm, vddkWarn := s.rst.vddkWarn, cause := s.rst.cause, good := s.rst.good
      brown := s.rst.brown, latch := s.rst.latch, safeMode := s.rst.safeMode, kickAt := 0, bootSlot := s.rst.bootSlot
      wdogEnd := s.rst.wdogEnd - s.lt, softEnd := s.rst.softEnd - s.lt }
    pwr := { PowerUnit.reset with readings := s.pwr.readings }
    tu := { TimeUnit.reset with refLost := s.tu.refLost } }

/-- Links after a reset of their port: the last SEQ used since the Cold reset is kept (R383). -/
def Link.fresh (x : Link) : Link := { Link.reset with lastUsed := x.lastUsed }

/-- The Blotter at the assertion of a Warm reset (R507): its buffer is lost and counted; an export, an import and a replay are given
up. -/
def bltStop (b : Blotter) : Blotter :=
  { b with
    dropped := b.dropped + b.buf.length
    dropMask := b.buf.foldl (fun (m : Word) r => m ||| put 1 r.kind) b.dropMask
    buf := [], exporting := none, replay := .reset }

/-- What a Warm reset keeps of the sparing and health records (Table 17.9): the sparing record and the last fault record. -/
def keepHealth (a : Health) : Health :=
  { Health.reset with
    skip := a.skip, pending := a.pending ++ a.bringing, retired := a.retired, rowSpares := a.rowSpares, quillSpares := a.quillSpares
    coresActive := a.coresActive, coresFailed := a.coresFailed, last := a.last }

/-- Everything in the Warm reach at its reset value (R448, R477, Table 17.8): the time unit, the retained contexts, rings and journal, the
fuses, the always-on domain and the Blotter's ring stay. -/
def warmState (s : State) : State :=
  { s with
    regs := gradeRegs s.fuse (regsWarm s.regs), latch64 := [], parts := [], tiles := [], be := [], nibs := [], dports := [], eths := [], partners := []
    links := s.links.map (fun e => (e.1, e.2.fresh)), bme := 0, waiting := s.waiting.filter (fun w => w.item.isSome), serveNext := 0
    ctxs := s.ctxs.map (fun e => (e.1, { e.2 with recover := e.2.on }))
    mem := { MemSys.reset with enabledOnce := s.mem.enabledOnce }
    rst := { s.rst with hold := none, partRst := 0, portRst := 0, paused := false }
    pwr := { s.pwr with doms := [], wakes := 0, wakeTick := 0, reloads := [], estimate := 0 }
    hmk := { s.hmk with challenge := none, busy := none, done := false, drbg := .reset, exportDraw := none }
    blt := bltStop s.blt, anl := keepHealth s.anl, assay := { Assay.reset with faulty := s.assay.faulty } }

-- assertion

/-- Assert a Cold source (R448): the whole device is in reset; RST_CAUSE keeps the source that began it. -/
def assertCold (s : State) (bit : Nat) : State :=
  let r := s.rst
  let s1 := { s with rst := { r with
    cold := r.cold ||| BitVec.ofNat 6 (2 ^ bit), cause := if r.phase = .coldReset then r.cause else bit } }
  coldState s1

/-- Assert a Warm source (R448, R453, R456): inside a Cold reset or release it only shows its level, and in BOOT_FAIL nothing but a Cold
reset counts (R464). A servo that follows PTP holds over (R419). -/
def assertWarm (s : State) (bit : Nat) : State :=
  let r := s.rst
  let lvl := { s with rst := { r with warm := r.warm ||| BitVec.ofNat 4 (2 ^ (bit - 8)) } }
  match r.phase with
  | .coldReset | .coldRelease | .bootFail => lvl
  | ph =>
    let s1 := if tuSrc s = 1 ∧ s.tu.st ≠ .stepPending then enterHoldover lvl 3 else lvl
    let s2 := warmState s1
    let fresh := decide (ph = .ready)
    { s2 with rst := { s2.rst with
      phase := .warmReset, cause := if fresh then bit else s2.rst.cause, warmCount := if fresh then s2.rst.warmCount + 1 else s2.rst.warmCount } }

/-- RST_BKP0 (R479): bits [7:0] the cause, [15:8] the count, [63:16] the tick of the last Warm reset. -/
def noteWarm (s : State) : State :=
  let t := lc s
  regSet (regSet s (rstOff 0x100) (BitVec.ofNat 32 (s.rst.cause + 256 * (s.rst.warmCount % 256) + 65536 * (t % 65536))))
    (rstOff 0x104) (BitVec.ofNat 32 (t / 65536))

/-- A Warm source fires. -/
def warmReset (s : State) (bit : Nat) : State :=
  let s1 := assertWarm s bit
  if s1.rst.phase = .warmReset ∧ s.rst.phase = .ready then noteWarm s1 else s1

-- Cold sources

/-- RESET_N_LOW (R450): a low level of 1 µs or more is taken, one below 250 ns is not, one between may be. -/
def execResetNLow (ns : Nat) (s : State) : Result :=
  if 1000 ≤ ns then .next (assertCold s bResetN)
  else if ns < 250 then .next s
  else
    let (b, s1) := drawBit s
    .next (if b then assertCold s1 bResetN else s1)

/-- Numbers of the rails in the order of Table 17.5. -/
def Rail.bit : Rail → Nat
  | .vddK => 0
  | .vddS => 1
  | .vaux => 2
  | .vddio => 3
  | .vddq => 4
  | .vddSd => 5
  | .vddSh => 6

/-- BROWNOUT (R467, Table 17.5): the rail is not good and its source is asserted; VAUX's is the power-on source, and its loss clears the pad
latch (R402). -/
def execBrownout (r : Rail) (s : State) : Result :=
  let b := BitVec.ofNat 7 (2 ^ Rail.bit r)
  let s1 := { s with rst := { s.rst with good := s.rst.good &&& ~~~b } }
  if r = .vaux then .next (assertCold { s1 with rst := { s1.rst with latch := false } } bPowerOn)
  else .next (assertCold { s1 with rst := { s1.rst with brown := s1.rst.brown ||| b } } bBrownout)

/-- VAUX is good (R463): the always-on domain starts, and its first release loads the pad latch (R402). -/
def powerOn (s : State) : State :=
  { s with rst := { s.rst with good := s.rst.good ||| 0x04, cold := s.rst.cold &&& 0x3E, latch := true } }

/-- POWER_ON (R463, Table 17.4 steps 1 to 3). -/
def execPowerOn (s : State) : Result := if s.rst.cold.getLsbD bPowerOn then .next (powerOn s) else .next s

/-- SUPPLY_GOOD (R467): the rail is good; the brown-out source ends with the last rail it stands for. -/
def execSupplyGood (r : Rail) (s : State) : Result :=
  if r = .vaux then .next (powerOn s)
  else
    let b := BitVec.ofNat 7 (2 ^ Rail.bit r)
    let brown := s.rst.brown &&& ~~~b
    .next { s with rst := { s.rst with
      good := s.rst.good ||| b, brown := brown, cold := if brown = 0 then s.rst.cold &&& 0x3D else s.rst.cold } }

/-- TJ_SHUT (R476): a comparator at TJ_SHUT asserts the thermal shutdown source; TJ_SAMPLE ends it. -/
def execTjShut (_sensor : Fin 32) (s : State) : Result := .next (assertCold s bThermal)

/-- Count a tamper detector in its byte of HMK_TAMPER_STAT (R499). -/
def countTamper (s : State) (lo : Nat) : State :=
  let off := hmkOff 0x0C
  let w := regGet s off
  regSet s off ((w &&& ~~~(put 0xFF lo)) ||| put (satInc 8 (fld w (lo + 7) lo)) lo)

/-- In Secured a tamper asserts its Cold source (R499). -/
def tampered (s : State) : State := if s.fuse.lifecycle = 2 then assertCold s bTamper else s

/-- TAMPER (R499): a glitch or an oscillator fault is counted, and in Secured resets the device. -/
def execTamper (k : TamperKind) (s : State) : Result :=
  .next (tampered (countTamper s (match k with | .glitch => 0 | .oscillator => 8)))

-- Warm sources

/-- A pulse of 1 µs in local ticks (R451). -/
def pulseTicks : Nat := 400

/-- The Warm sources asserted now: the pulses until their ends (R448, R451). -/
def warmLevels (s : State) : BitVec 4 :=
  let w := if s.lt < s.rst.wdogEnd then s.rst.warm else s.rst.warm &&& 0xE
  if s.lt < s.rst.softEnd then w else w &&& 0xD

/-- RST_WARM_REQ (R451): 0xA5 fires the software source. -/
def softwareReset (s : State) (v : Word) : State :=
  if fld v 7 0 = 0xA5 then
    let t := warmReset s bSoftware
    { t with rst := { t.rst with softEnd := t.lt + pulseTicks } }
  else s
def execRstWarmReq (v : Word) (s : State) : Result := hostWrite s (softwareReset s v)

/-- RST_WDOG_KICK (R451). -/
def kick (s : State) : State := { s with rst := { s.rst with kickAt := s.lt } }
def execRstWdogKick (s : State) : Result := hostWrite s (kick s)

/-- The core a missed kick is charged to: the lowest active one not yet failed. -/
def kickCore (s : State) : Option Nat :=
  (upTo 4).find? (fun k => s.anl.coresActive.getLsbD k && !s.anl.coresFailed.getLsbD k)

/-- The watchdog counts: from the firmware step of a release on (R451); a release that VDD_K holds up is past that step (R466). -/
def dogRuns (s : State) : Bool := decide (s.rst.phase = .ready ∨ s.rst.phase = .coldRelease ∨ s.rst.phase = .warmRelease)

/-- WATCHDOG_EXPIRE (R451, R524): no kick within TIMEOUT; the core is marked failed and the Warm source fires. -/
def execWatchdogExpire (s : State) : Result :=
  let ms := fld (regGet s (rstOff 0x14)) 9 0
  if dogRuns s && decide (s.rst.kickAt + 400000 * ms ≤ s.lt) then
    let s1 := match kickCore s with
      | some k => failCore s k
      | none => s
    let t := warmReset s1 bWatchdog
    .next { t with rst := { t.rst with wdogEnd := t.lt + pulseTicks } }
  else .next s

/-- The debug port may act (Table 18.6). -/
def debugAllowed (s : State) : Bool :=
  match s.fuse.lifecycle with
  | 0 | 1 | 3 => true
  | 2 => decide (0 < s.hmk.debugOpen)
  | _ => false

/-- DEBUG_RESET (R451, Table 18.6). -/
def execDebugReset (s : State) : Result := if debugAllowed s then .next (warmReset s bDebug) else .next s

/-- PLL_LOCK_LOSS (R447): CLOCK_LOSS, but for the Assay PLL, whose loss is a fault of the Assay clock (R285). -/
def execPllLockLoss (pll : Pll) (s : State) : Result :=
  match pll with
  | .assay => execAssayClockFault s
  | _ => .next (warmReset s bClockLoss)

/-- REFCLK_LOSS (R421, R419, R447): time runs on the oscillator, the servo holds over, and CLOCK_LOSS is asserted. -/
def execRefclkLoss (s : State) : Result :=
  if s.tu.refLost then .next s
  else
    let s1 := modTu s (fun u => { u with refLost := true })
    let s2 := if s1.rst.phase = .coldReset ∨ tuSrc s1 = 0 then s1 else enterHoldover s1 4
    let s3 := if s1.rst.phase = .coldReset then s2 else tuEvent s2 0x08 0 0 0
    .next (warmReset s3 bClockLoss)

/-- REFCLK_RETURN (R447, R419): REFCLK has been present for 100 µs and the PLLs have relocked: CLOCK_LOSS ends, whichever loss asserted it;
the event tells of REFCLK's return. -/
def execRefclkReturn (s : State) : Result :=
  let s1 := modTu s (fun u => { u with refLost := false })
  let s2 := { s1 with rst := { s1.rst with warm := s1.rst.warm &&& 0x7 } }
  .next (if s.tu.refLost = false ∨ s.rst.phase = .coldReset then s2 else tuEvent s2 0x08 1 0 0)

-- Partition and Port resets

/-- The launches of a partition that a reset ends commit nothing (R234, R258). -/
def dropLaunches (s : State) (p : Nat) : State :=
  (getPart s p).entries.foldl (fun t e => match e.2.cmd with
    | some c => if c.st = .done then t else staleOf t p c.slot
    | none => t) s

/-- A partition enters reset (R448, R462): what it runs, holds and queues is gone; its engines are in CONFIG, its rings are silent, and
its registers reset; completions wait for its release (R368). -/
def partReset (s : State) (p : Nat) : State :=
  let x := getPart s p
  let mask := if x.on then x.pars.nibMask else 0
  let out := ((upTo 16).filter (fun n => mask.testBit n)).foldl resetEngine (dropLaunches s p)
  let be := (upTo 512).foldl (fun t r => match getBe t r with
    | some b => if b.part = p then dropRing { t with mem := { t.mem with wsUsed := t.mem.wsUsed - b.ws } } p r else t
    | none => t) out
  let img := ((upTo 8).map (fun k => match (x.slot k).img, (x.slot k).loading with
    | some im, _ => im.masterBytes
    | none, some (im, _, _) => im.masterBytes
    | none, none => 0)).sum
  let s1 := { be with
    assay := { be.assay with beQueue := be.assay.beQueue.filter (fun r => (getBe be r).isSome) }
    mem := { be.mem with imgUsed := be.mem.imgUsed - img, sides := dropSides be.mem.sides p }
    regs := regsPart be.regs mask p
    rst := { be.rst with partRst := be.rst.partRst ||| BitVec.ofNat 16 (2 ^ p) } }
  -- commit sets already handed to other partitions are judged, and report to nobody
  setPart (if x.on then freshTiles s1 p else s1) p Part.reset

/-- RST_PART_REQ (R452): each bit newly set asserts its partition's source. -/
def partReq (s : State) (v : Word) : State :=
  let new := BitVec.ofNat 16 (fld v 15 0)
  let old := s.rst.partHeld
  let s1 := { s with rst := { s.rst with partHeld := new } }
  if isReady s then
    (upTo 16).foldl (fun t p => if new.getLsbD p && !old.getLsbD p then partReset t p else t) s1
  else s1
def execRstPartReq (v : Word) (s : State) : Result := hostWrite s (partReq s v)

/-- A port enters reset (R448, Table 14.15): its link leaves UP, its counters clear. -/
def portReset (s : State) (n : Nat) : State :=
  let s0 := { s with rst := { s.rst with portRst := s.rst.portRst ||| BitVec.ofNat 28 (2 ^ n) } }
  if n < 16 then
    let s1 := leaveLink s0 n .off
    { setLink s1 n (getLink s1 n).fresh with regs := regsPort s1.regs (0x700 + 0) n }
  else if n < 24 then
    { setDport s0 (n - 16) DirectPort.reset with regs := regsPort s0.regs 0x602 (n - 16) }
  else
    let s1 := slaveLost s0 (n - 24)
    { setEth s1 (n - 24) EthPort.reset with regs := regsPort s1.regs 0x800 (n - 24) }

/-- RST_PORT_REQ (R452): each bit newly set asserts its port's source. -/
def portReq (s : State) (v : Word) : State :=
  let new := BitVec.ofNat 28 (fld v 27 0)
  let old := s.rst.portHeld
  let s1 := { s with rst := { s.rst with portHeld := new } }
  if isReady s then
    (upTo 28).foldl (fun t n => if new.getLsbD n && !old.getLsbD n then portReset t n else t) s1
  else s1
def execRstPortReq (v : Word) (s : State) : Result := hostWrite s (portReq s v)

end Sys2Proof.Machine
end

