-- ==== Sys2Proof/Machine/Trng.lean ====
section
/-! DEFINITION. Hallmark's entropy source and its generator (R491, R492): the health tests of SP 800-90B, SHA-512 conditioning, and the
AES-256 CTR_DRBG of SP 800-90A without a derivation function (assumption 94). -/

namespace Sys2Proof.Machine

-- the source

/-- Bits drawn before the generator is seeded: the start-up tests' window (R491). -/
def rawWindow : Nat := 1024

/-- The longest run of equal bits at the start of a list whose bit before was `b`, in a run of `run` so far. -/
def runFrom (b : Bool) (run : Nat) : List Bool → Nat
  | [] => run
  | x :: t => if x = b then max run (runFrom x (run + 1) t) else max run (runFrom x 1 t)

/-- The repetition count test (R491): no run reaches 41 equal bits. -/
def repetitionOk : List Bool → Bool
  | [] => true
  | b :: t => decide (runFrom b 1 t < 41)

/-- The adaptive proportion test over a window (R491): its first bit's value stands in it fewer than 795 times. -/
def proportionOk : List Bool → Bool
  | [] => true
  | b :: t => decide ((b :: t).count b < 795)

/-- The health tests pass over a window of raw bits, in the order of bit numbers. -/
def healthOk (raw : BitVec 1024) : Bool :=
  let bits := (List.range rawWindow).map raw.getLsbD
  repetitionOk bits && proportionOk bits

/-- The seed of a window: the leftmost 384 bits of SHA-512 over its bytes (assumption 94). -/
def seedOf (raw : BitVec 1024) : BitVec 384 := ((Config.sha512 (bigBytes 128 raw.toNat)).extractLsb' 128 384)

/-- The entropy source is failed: the second failure of a Cold epoch is final (R492). -/
def trngFailed (s : State) : Bool := decide (2 ≤ s.hmk.fails)

/-- A failed health test (R492, Table 20.4): it counts, raises its HEALTH event and stops the generator. -/
def noteFailure (s : State) : State :=
  let n := min 2 (s.hmk.fails + 1)
  healthEvent { s with hmk := { s.hmk with fails := n, drbg := Drbg.reset } } 0x09 7 0 n 0

-- the generator

/-- CTR_DRBG_Update (SP 800-90A, 10.2.1.2). -/
def Drbg.update (g : Drbg) (data : BitVec 384) : Drbg :=
  let e := fun (k : Nat) => Config.aes256 g.key (g.v + BitVec.ofNat 128 k)
  let x := (e 1 ++ e 2 ++ e 3) ^^^ data
  { g with key := x.extractLsb' 128 256, v := x.extractLsb' 0 128 }

/-- Seeded from nothing (instantiation), or again (reseeding): no request since. -/
def Drbg.seed (g : Drbg) (raw : BitVec 1024) : Drbg := { g.update (seedOf raw) with on := true, requests := 0 }

/-- One request of 512 bits: four blocks, then an update with no additional input. -/
def Drbg.generate (g : Drbg) : BitVec 512 × Drbg :=
  let e := fun (k : Nat) => Config.aes256 g.key (g.v + BitVec.ofNat 128 k)
  let u := { g with v := g.v + 4 }.update 0
  (e 1 ++ e 2 ++ e 3 ++ e 4, { u with requests := g.requests + 1 })

/-- The generator can serve without a seed: it is instantiated and has served fewer than 2^20 requests since its last (R491). -/
def Drbg.ready (g : Drbg) : Bool := g.on && decide (g.requests < 2 ^ 20)

/-- Draw a window of raw bits and seed the generator with it if it passes the health tests; a window that fails is a failure of the source
(R491, R492). -/
def seedOnce (s : State) : State :=
  let raw := Config.rawBits s.freeCtr
  let s1 := { s with freeCtr := s.freeCtr + 1 }
  if healthOk raw then { s1 with hmk := { s1.hmk with drbg := s1.hmk.drbg.seed raw } } else noteFailure s1

/-- A generator that serves: as it stands, or seeded; the source is restarted once after a failure (R492). -/
def seedDrbg (s : State) : State :=
  if trngFailed s || s.hmk.drbg.ready then s
  else
    let s1 := seedOnce s
    if trngFailed s1 || s1.hmk.drbg.ready then s1 else seedOnce s1

/-- 512 fresh bits, or none while the source is failed (R491, R492). -/
def freshBits (s : State) : Option (BitVec 512) × State :=
  let s1 := seedDrbg s
  if trngFailed s1 then (none, s1)
  else
    let r := s1.hmk.drbg.generate
    (some r.1, { s1 with hmk := { s1.hmk with drbg := r.2 } })

end Sys2Proof.Machine
end

