-- ==== Sys2Proof/Machine/Hallmark.lean ====
section
/-! DEFINITION. Hallmark (chapter 18): attestation, challenges and tokens with their transitions, owner keys, anti-rollback versions and the
recipient of exports. -/

namespace Sys2Proof.Machine

/-- Refuse a Hallmark request (R538, HMK_ERR). -/
def hmkRefuse (s : State) (cause : Nat) : State := recordErr s (hmkOff 0x04) cause

/-- The booted slot. -/
def bootedSlot (s : State) : BootSlot := tblGet BootSlot.reset s.flash (if s.rst.bootSlot then 1 else 0)

/-- Memory an address of a request means: host memory for PCIe, the mailbox for the control port (R493), whose 256 KiB end the bytes that
reach it. -/
def portMem (s : State) (xspi : Bool) : Memory := if xspi then s.mailbox else s.host
def portStore (s : State) (xspi : Bool) (a : Nat) (bs : List Byte) : State :=
  if xspi then { s with mailbox := memPutBytes s.mailbox a (bs.take (0x40000 - a)) } else { s with host := memPutBytes s.host a bs }

/-- Exactly n bytes. -/
def fitBytes (n : Nat) (bs : List Byte) : List Byte := (bs ++ List.replicate n 0).take n

-- attestation (R493, R494)

/-- The images bound, ascending partition and slot. -/
def boundImages (s : State) : List (Nat × Nat × Image) :=
  (upTo 16).flatMap (fun p => (upTo 8).filterMap (fun k => ((getSlot s p k).img).map (fun im => (p, k, im))))

/-- An image record of Table 18.4. -/
def imageRecord (e : Nat × Nat × Image) : List Byte :=
  let h := e.2.2.hdr
  wordsBytes [put e.1 28 ||| put e.2.1 25 ||| put h.cls 24 ||| put h.ikind 20, 0, lo32 h.sig, hi32 h.sig]
    ++ bigBytes 8 h.sealKey ++ bigBytes 64 h.digest

/-- The report of Table 18.4. -/
def report (s : State) (nonce : List Word) : List Byte :=
  let ims := boundImages s
  let n := ims.length
  let b := bootedSlot s
  let uds := s.fuse.uds.getD 0
  let cls := (identityClass s).getD 0
  let pid := (devicePid s).getD 0
  let flag := fun (x : Bool) => if x then 1 else 0
  let pub := fitBytes 136 (Config.deviceIdPub uds cls)
  let aliKey := fitBytes 136 (Config.aliasPub uds cls b.fwDigest b.cfgDigest b.fwSvn b.cfgSvn)
  let body :=
    wordsBytes [put 1 28 ||| put s.fuse.lifecycle 24 ||| put n 16 ||| put (flag (0 < s.hmk.debugOpen)) 1
        ||| BitVec.ofNat 32 (flag s.rst.bootSlot), BitVec.ofNat 32 (756 + 88 * n)]
      ++ wordsBytes (padWords 16 nonce) ++ wordsBytes [lo32 pid, hi32 pid, put b.fwSvn 16 ||| BitVec.ofNat 32 b.cfgSvn, 0]
      ++ bigBytes 64 b.fwDigest ++ bigBytes 64 b.cfgDigest ++ pub ++ aliKey ++ fitBytes 132 (Config.endorse uds cls aliKey)
      ++ wordsBytes [0] ++ ims.flatMap imageRecord
  body ++ fitBytes 132 (Config.signReport (bigNat aliKey) (bigBytes 64 (Config.sha512 body).toNat))

/-- HMK_ATT_CMD (R493): refused without an identity or while another request runs. -/
def attest (s : State) (h : HostPort) : State :=
  if (identityClass s).isNone then hmkRefuse s 3
  else if s.hmk.busy.isSome then hmkRefuse s 2
  else
    let q : AttReq := ⟨decide (h = .xspi), (regGet64 s (hmkOff 0x100)).toNat, (upTo 16).map (fun k => regGet s (hmkOff (0xC0 + 4 * k)))⟩
    { s with hmk := { s.hmk with busy := some q, done := false } }
def execHmkAttCmd (h : HostPort) (s : State) : Result := hostWrite s (attest s h)

/-- ATTESTATION_DONE (R493, R494). -/
def execAttestationDone (s : State) : Result :=
  match s.hmk.busy with
  | none => .next s
  | some q =>
    let s1 := portStore s q.xspi q.addr (report s q.nonce)
    .next { s1 with hmk := { s1.hmk with busy := none, done := true } }

-- challenges and tokens (R497, R498)

/-- HMK_CHAL_READ (R492, R497): each read draws a new challenge, and the previous one lapses. -/
def challenge (s : State) : State :=
  match freshBits s with
  | (some x, t) => { t with hmk := { t.hmk with challenge := some x.toNat } }
  | (none, t) => hmkRefuse t 1
def execHmkChalRead (s : State) : Result := .next (challenge s)

/-- A token of 96 bytes with its seal, as it was read. -/
structure Token where
  body : List Byte
  sealed : List Byte
deriving DecidableEq, Repr, Inhabited

def Token.word (t : Token) (k : Nat) : Word := (bytesWords t.body).getD k 0
def Token.kind (t : Token) : Nat := fld (t.word 0) 27 24
def Token.target (t : Token) : Nat := fld (t.word 0) 23 20

/-- The body names this device and the present challenge, and its reserved fields are 0. In Blank there is no PID to compare. -/
def tokenBody (s : State) (t : Token) : Bool :=
  decide (fld (t.word 0) 31 28 = 1) && decide (fld (t.word 0) 19 0 = 0) && decide (t.word 1 = 0)
    && (upTo 4).all (fun k => decide (t.word (20 + k) = 0))
    && (match devicePid s with | some p => decide (word64 (t.word 2) (t.word 3) = p) | none => true)
    && decide (s.hmk.challenge = some (bigNat ((t.body.drop 16).take 64)))

/-- Who signs a lifecycle transition (Table 18.5); none for a transition the table does not list. -/
def transitionKeys (s : State) (target : Nat) : Option (List Nat) :=
  let from' := s.fuse.lifecycle
  if from' = 0 ∧ target = 1 then some [Config.mroot]
  else if from' = 1 ∧ target = 2 then some ((bootOwners s).take 1)
  else if from' = 2 ∧ (target = 3 ∨ target = 4) then some (ownerDigests s.fuse)
  else if (from' = 0 ∨ from' = 1 ∨ from' = 3) ∧ target = 4 then some [Config.mroot]
  else none

/-- A lifecycle token (R497): the intent fuse is written and the lifecycle Cold source asserted. -/
def lifecycleToken (s : State) (t : Token) : State :=
  if !tokenBody s t then hmkRefuse s 5
  else
    match transitionKeys s t.target with
    | none => hmkRefuse s 6
    | some ks =>
      if sealBy ks t.body t.sealed then assertCold { s with fuse := { s.fuse with intent := some t.target } } bLifecycle
      else hmkRefuse s 5

/-- A rejected debug token is counted; the third of a Cold epoch is a tamper in Secured (R498, R499). -/
def rejectDebug (s : State) : State :=
  let s1 := countTamper (hmkRefuse s 5) 16
  if 3 ≤ fld (regGet s1 (hmkOff 0x0C)) 23 16 then tampered s1 else s1

/-- A debug token (R498): it opens its level until the next Cold reset. -/
def debugToken (s : State) (t : Token) : State :=
  if tokenBody s t && (decide (t.target = 1) || decide (t.target = 2)) && sealVerifies s .debugToken t.body t.sealed then
    { s with hmk := { s.hmk with debugOpen := t.target } }
  else rejectDebug s

/-- HMK_TOKEN_CMD (R497, R498): the token at HMK_TOKEN_ADDR. -/
def submitToken (s : State) (h : HostPort) : State :=
  let m := portMem s (decide (h = .xspi))
  let a := (regGet64 s (hmkOff 0x80)).toNat
  let t : Token := ⟨memBytes m a 96, memBytes m (a + 96) 144⟩
  if t.kind = 1 then lifecycleToken s t
  else if t.kind = 2 then debugToken s t
  else hmkRefuse s 5
def execHmkTokenCmd (h : HostPort) (s : State) : Result := hostWrite s (submitToken s h)

-- owner keys, versions and the recipient

/-- HMK_REVOKE (R486): applied only under KEY 0xC3; the key that signed the booted configuration is not revoked. -/
def revoke (s : State) (v : Word) : State :=
  let k := fld v 1 0
  if fld v 31 24 ≠ 0xC3 then s
  else if (bootedSlot s).sealedBy = k then hmkRefuse s 7
  else { s with fuse := { s.fuse with revoked := s.fuse.revoked ||| BitVec.ofNat 4 (2 ^ k) } }
def execHmkRevoke (v : Word) (s : State) : Result := hostWrite s (revoke s v)

/-- HMK_SVN_CMD (R488): in Secured each fused version is raised to the running slot's. -/
def raiseSvn (s : State) : State :=
  let b := bootedSlot s
  if s.fuse.lifecycle = 2 then
    { s with fuse := { s.fuse with fwSvn := max s.fuse.fwSvn b.fwSvn, cfgSvn := max s.fuse.cfgSvn b.cfgSvn } }
  else s
def execHmkSvnCmd (s : State) : Result := hostWrite s (raiseSvn s)

/-- HMK_EXPORT_LOAD (R495): the 136-byte key record is installed when its seal verifies. -/
def loadRecipient (s : State) : State :=
  let bs := wordsBytes ((upTo 70).map (fun k => regGet s (hmkOff (0x200 + 4 * k))))
  if sealVerifies s .exportKey (bs.take 136) (bs.drop 136) then
    { s with hmk := { s.hmk with recipient := some (bigNat (bs.take 136)) } }
  else s
def execHmkExportLoad (s : State) : Result := hostWrite s (loadRecipient s)

end Sys2Proof.Machine
end

