-- ==== Sys2Proof/Machine/Blotter.lean ====
section
/-! DEFINITION. The Blotter's recording (R501 to R508): arming, snapshots, marks and triggers, and the way of its records into the ring. -/

namespace Sys2Proof.Machine

/-- A write of a Blotter register that is refused in the present state (R551). -/
def bltRefuse (s : State) : State := bump s regErr

/-- SESSION (Table 19.2): PID, FW_DIGEST bytes 0 to 15, the region's size, the Warm cause. -/
def sessionRecord (s : State) (cause : Nat) : State :=
  let (pid, s1) := pidWords s
  bltRecord s1 kSession 0 (lc s1)
    (pid ++ (digestWords (bootedSlot s1).fwDigest).take 4 ++ [BitVec.ofNat 32 (bltRegion s1), BitVec.ofNat 32 cause])

/-- CONFIG of a launch entry, a stream binding and a Nib configuration write: bits [31:30] of word 0 tell them from a slot's. -/
def launchConfig (s : State) (p j : Nat) : State :=
  bltRecord s kConfig p (lc s) ((put 1 30 ||| put j 22) :: (upTo 8).map (fun w => regGet s (launchOff p j w)))
def strmConfig (s : State) (i : Nat) : State :=
  bltRecord s kConfig (strmPart s i) (lc s)
    ((put 2 30 ||| put i 22) :: [0x00, 0x08, 0x0C, 0x10, 0x14].map (fun k => regGet s (strmOff i k)))
def nibConfig (s : State) (n k : Nat) (v : Word) : State :=
  bltRecord s kConfig ((enginePart s n).getD 0) (lc s) [put 3 30 ||| put n 22, BitVec.ofNat 32 k, v]

/-- CONFIG records of every bound image, launch entry and stream binding in the selected scope (R503). -/
def configAll (s : State) : State :=
  let s1 := (boundImages s).foldl (fun t e => slotConfig t e.1 e.2.1 e.2.2 true) s
  let s2 := (upTo 16).foldl (fun t p => (upTo 64).foldl (fun u j => if entryValid u p j then launchConfig u p j else u) t) s1
  (upTo 88).foldl (fun t i => if strmOn t i then strmConfig t i else t) s2

def bltModeOf (n : Nat) : BltMode := if n = 0 then .off else if n = 1 then .wrap else if n = 2 then .fill else .trigger

/-- BLT_MODE_WRITE (R503, Table 19.6): MODE changes only to OFF or from OFF; arming needs a region and no armed replay, empties the ring
and writes SESSION and CONFIG records. -/
def modeWrite (s : State) (v : Word) : State :=
  let m := bltModeOf (fld v 31 30)
  let old := s.blt.mode
  let put' := fun (t : State) => regSet t (bltOff 0x00) (v &&& 0xC3FFFFFF)
  if m = old then put' s
  else if m = .off then { put' s with blt := { s.blt with mode := .off } }
  else if old ≠ .off then bltRefuse s
  else if s.blt.replay.armed then recordErr s (bltOff 0xC8) 1
  else if bltRegion s = 0 then bltRefuse s
  else
    let b := { Blotter.reset with mode := m, replay := s.blt.replay }
    configAll (sessionRecord { put' s with blt := b } 0)
def execBltModeWrite (v : Word) (s : State) : Result := hostWrite s (modeWrite s v)

-- snapshots (Table 19.2, SNAP)

/-- The payload of an instance's SNAP record: four words, then the warm start or carried state, the current factor buffer and the last
committed trajectory, each when there is one (flags in bits [31:29] of word 0). -/
def snapWords (i : Inst) (im : Image) : List Word :=
  let state := if im.isEstimator then i.carried else i.warm.map (fun w => w.words)
  let factor : List Word :=
    if i.factorValid ∧ (im.seg? sFactor).isSome then
      memWords i.space (4 * im.e + 4 * im.w + (if i.bufSwap then im.hdr.fBuf else 0)) (im.hdr.fBuf / 4)
    else []
  let traj : List Word := if im.plans then (i.lastWords.getD []).take im.dims.n else []
  let flag := fun (b : Bool) (k : Nat) => put (if b then 1 else 0) k
  [flag state.isSome 31 ||| flag (decide (factor ≠ [])) 30 ||| flag (decide (traj ≠ [])) 29 ||| put i.slot 16 ||| BitVec.ofNat 32 i.num,
    BitVec.ofNat 32 i.lastL, BitVec.ofNat 32 (i.lastL / 2 ^ 32), BitVec.ofNat 32 i.commits]
    ++ state.getD [] ++ factor ++ traj

/-- SNAP records of a partition's instances. -/
def snapPart (s : State) (p : Nat) : State :=
  (getPart s p).insts.foldl (fun t i =>
    match (getSlot t p i.slot).img with
    | some im => bltRecord t kSnap p (lc t) (snapWords i im)
    | none => t) s

/-- BLT_SNAP (R502): the named partitions. -/
def snapWrite (s : State) (v : Word) : State := (upTo 16).foldl (fun t p => if wbit v p then snapPart t p else t) s
def execBltSnap (v : Word) (s : State) : Result := hostWrite s (snapWrite s v)

/-- SNAP_TIMER: every SNAP_MS, each instance. -/
def execSnapTimer (s : State) : Result := .next ((upTo 16).foldl snapPart s)

-- marks and triggers

/-- BLT_MARK: a MARK record with the tag written. -/
def markWrite (s : State) (tag : Word64) : State := bltRecord s kMark 0 (lc s) [0, lo32 tag, hi32 tag]
def execBltMark (tag : Word64) (s : State) : Result := hostWrite s (markWrite s tag)

/-- BLT_TRIG (R505): a trigger when its cause is enabled. -/
def trigWrite (s : State) : State := if wbit (regGet s (bltOff 0x30)) 2 then bltTrigger s 6 else s
def execBltTrig (s : State) : Result := hostWrite s (trigWrite s)

/-- POST_TRIGGER_END (R503): POST_BYTES after the trigger, recording stops and FROZEN is set. -/
def execPostTriggerEnd (s : State) : Result :=
  let b := s.blt
  if b.mode = .trigger ∧ b.triggered = true ∧ b.postLeft = 0 then .next { s with blt := { b with frozen := true } } else .next s

-- into the ring

/-- The ring without its oldest 64 KiB block. -/
def dropBlock : Nat → List BRec → List BRec
  | _, [] => []
  | n, r :: t => if 65536 ≤ n + r.bytes then t else dropBlock (n + r.bytes) t

/-- The oldest blocks overwritten until the ring fits its region (R503). -/
def trimRing : Nat → Nat → List BRec → List BRec
  | 0, _, l => l
  | k + 1, region, l => if recBytes l ≤ region then l else trimRing k region (dropBlock 0 l)

/-- BLOTTER_DRAIN (R503, R504, R509): the buffered records reach GDDR6, over the oldest blocks in WRAP and TRIGGER; while that would
overwrite a record an export has still to read, they wait. -/
def execBlotterDrain (s : State) : Result :=
  let b := s.blt
  let all := b.ring ++ b.buf
  let kept := trimRing (recBytes all / 65536 + 1) (bltRegion s) all
  let lost := all.take (all.length - kept.length)
  if lost.any (exportHolds b) then .next s else .next { s with blt := { b with ring := kept, buf := [] } }

end Sys2Proof.Machine
end

