-- ==== Sys2Proof/Machine/Boot.lean ====
section
/-! DEFINITION. Releases (R454 to R458, R463 to R466, R483, Tables 17.3 and 17.4): the Cold release with its boot, the Warm release, and
the releases of a partition and of a port. -/

namespace Sys2Proof.Machine

-- the boot flash (R464, R487, R488)

/-- The seal of a slot's configuration is accepted in the present state (R487). -/
def cfgSealOk (f : Fuses) (b : BootSlot) : Bool :=
  match f.lifecycle with
  | 0 | 1 => decide (b.sealedBy = 4 ∨ b.sealedBy = 5)
  | 2 => decide (b.sealedBy < 4) && !f.revoked.getLsbD b.sealedBy
  | 3 => decide (b.sealedBy = 5)
  | _ => false

/-- A slot is valid (R488). -/
def bootSlotOk (f : Fuses) (b : BootSlot) : Bool :=
  b.valid && cfgSealOk f b && decide (f.fwSvn ≤ b.fwSvn ∧ f.cfgSvn ≤ b.cfgSvn)

/-- Slot A, else slot B (R464). -/
def pickSlot (s : State) : Option Bool :=
  if bootSlotOk s.fuse (tblGet BootSlot.reset s.flash 0) then some false
  else if bootSlotOk s.fuse (tblGet BootSlot.reset s.flash 1) then some true
  else none

/-- Enter BOOT_FAIL with a cause (R464). -/
def bootFail (s : State) (cause : Nat) : State := { s with rst := { s.rst with phase := .bootFail, bootCause := cause, paused := false } }

/-- A lifecycle transition whose intent is fused is carried out (R497, Table 18.5): the UDS is made or destroyed, the owner keys
are fused or revoked. The UDS comes from the generator; with the source failed its value is free (assumption 94). -/
def takeIntent (s : State) : State :=
  match s.fuse.intent with
  | none => s
  | some t =>
    let f := { s.fuse with lifecycle := t, intent := none }
    match t with
    | 1 =>
      match freshBits s with
      | (some x, t) => { t with fuse := { f with uds := some x.toNat } }
      | (none, t) => { t with freeCtr := t.freeCtr + 1, fuse := { f with uds := some (Config.rawBits t.freeCtr).toNat } }
    | 2 => { s with fuse := { f with owners := bootOwners s } }
    | 3 => { s with fuse := { f with revoked := 0xF } }
    | 4 => { s with fuse := { f with uds := none } }
    | _ => { s with fuse := f }

/-- The Anneal records of the fuses take effect (R523). -/
def fuseAnneal (s : State) : State :=
  { s with anl := { s.anl with
    skip := s.fuse.skips, rowSpares := s.fuse.rowSpares, quillSpares := s.fuse.quillSpares, coresActive := s.fuse.cores
    coresFailed := s.fuse.coresBad } }

/-- READY: scopes whose request is still held stay in reset (R455, R465). -/
def enterReady (s : State) : State :=
  { s with rst := { s.rst with
    phase := .ready, bootCause := 0, paused := false, partRst := s.rst.partHeld, portRst := s.rst.portHeld } }

/-- The steps of both releases from the boot flash to READY: the slot; then, unless a VDD_K warning holds the release up before its step of
GDDR6 training (R466), training, the wipe and what differs. -/
def bootSteps (s : State) (fault : BootFault) (last : State → State) : State :=
  match pickSlot s with
  | none => bootFail s 1
  | some b =>
    let s1 := { s with rst := { s.rst with bootSlot := b } }
    if s.rst.vddkWarn then { s1 with rst := { s1.rst with paused := true } }
    else
      let s2 := { s1 with rst := { s1.rst with trained := s1.rst.trained || decide (fault ≠ .training) } }
      match fault with
      | .training => bootFail s2 3
      | .wipe => bootFail s2 4
      | _ => enterReady (last { s2 with mailbox := [] })

/-- When the watchdog was last started or kicked: its count starts with the firmware step of a release that begins (R451). -/
def dogStart (s : State) : Nat := if s.rst.phase = .coldReset ∨ s.rst.phase = .warmReset then s.lt else s.rst.kickAt

-- Cold

/-- A Cold release may run: every level source is deasserted, the supplies are good and REFCLK is present (R454, R463). RESET_N's, the
lifecycle's and a tamper's sources end with it. -/
def coldFree (s : State) : Bool :=
  decide (s.rst.cold &&& 0x0B = 0) && decide (s.rst.good = 0x7F) && !s.tu.refLost
    && (decide (s.rst.phase = .coldReset) || (decide (s.rst.phase = .coldRelease) && !s.rst.paused))

/-- COLD_RELEASE (Table 17.4): the PLLs lock, the fuses with a pending transition, the boot flash, training, the wipe, the Anneal map, READY.
A VDD_K warning holds it up (R466); a fault ends in BOOT_FAIL (R464). -/
def execColdRelease (fault : BootFault) (s : State) : Result :=
  if !coldFree s then .next s
  else
    let s1 := takeIntent { s with rst := { s.rst with phase := .coldRelease, cold := 0, warm := 0, kickAt := dogStart s } }
    if fault = .shadow then .next (bootFail s1 2)
    else if s1.fuse.lifecycle = 4 then .next (bootFail s1 5)
    else .next (bootSteps s1 fault fuseAnneal)

-- Warm

/-- A Warm release may run: no Cold source, both pulses ended, and REFCLK with its PLLs (R447, R451, R454). -/
def warmFree (s : State) : Bool :=
  decide (s.rst.cold = 0) && decide (warmLevels s &&& 0xB = 0) && !s.tu.refLost
    && (decide (s.rst.phase = .warmReset) || (decide (s.rst.phase = .warmRelease) && !s.rst.paused))

/-- At READY the Blotter resumes, with a SESSION record (R507). -/
def bltResume (s : State) : State := if bltOn s then sessionRecord s s.rst.cause else s

/-- WARM_RELEASE (Table 17.3): firmware, training, the wipe, every pending spare, READY; recovery of the contexts follows (R369). -/
def execWarmRelease (fault : BootFault) (s : State) : Result :=
  if !warmFree s then .next s
  else
    let s1 := { s with rst := { s.rst with phase := .warmRelease, warm := 0, kickAt := dogStart s } }
    let s2 := bootSteps s1 fault (fun t => bringIn t (fun _ => true))
    if isReady s2 then
      let s3 := if s2.pwr.safe then setThrottle s2 8 else s2
      .next (bltResume s3)
    else .next s2

-- Partition and Port

/-- The completions of a Partition release (R368): FAIL_RESET, cause 1, on every ring of the partition's contexts; contexts that wait
for Warm recovery get theirs there. -/
def failPart (s : State) (p : Nat) : State :=
  (upTo 64).foldl (fun t c =>
    let x := getCtx t c
    if x.on && !x.recover && decide (x.part = p) then (upTo 8).foldl (fun u r => failRing u c r stReset 1 .halted) t else t) s

/-- PARTITION_RELEASE (R458, R368): once the request is clear, the partition is wiped, its completions are written, and it may be enabled
again; a failed wipe is BOOT_FAIL (R483). -/
def execPartitionRelease (p : PartId) (fault : BootFault) (s : State) : Result :=
  let bit := BitVec.ofNat 16 (2 ^ p.val)
  if isReady s && s.rst.partRst.getLsbD p.val && !s.rst.partHeld.getLsbD p.val then
    if fault = .wipe then .next (bootFail s 4)
    else
      let s1 := failPart s p.val
      .next { s1 with rst := { s1.rst with partRst := s1.rst.partRst &&& ~~~bit } }
  else .next s

/-- PORT_RELEASE (R458, R519): once the request is clear, the port is OFF; a link's pending transceiver spare comes in. -/
def execPortRelease (port : Port) (s : State) : Result :=
  let n := Port.num port
  let bit := BitVec.ofNat 28 (2 ^ n)
  if isReady s && s.rst.portRst.getLsbD n && !s.rst.portHeld.getLsbD n then
    let s1 := { s with rst := { s.rst with portRst := s.rst.portRst &&& ~~~bit } }
    .next (if n < 16 then bringIn s1 (fun u => decide (u.kind = uQuill ∧ u.index = n)) else s1)
  else .next s

end Sys2Proof.Machine
end

