-- ==== Sys2Proof/Machine/Export.lean ====
section
/-! DEFINITION. Blotter export and import (R508 to R511) with their encryption (R496), and the failure of the entropy source (R492). -/

namespace Sys2Proof.Machine

/-- A record as bytes (Table 19.1); a corrupt one has its payload zeroed (R508). -/
def BRec.encode (r : BRec) : List Byte :=
  let units := 1 + ceilDiv r.payload.length 4
  let flag := fun (b : Bool) (k : Nat) => put (if b then 1 else 0) k
  let body := padWords (4 * (units - 1)) (if r.corrupt then [] else r.payload)
  wordsBytes ([put r.kind 24 ||| put units 12 ||| flag r.corrupt 11 ||| flag r.cont 10 ||| BitVec.ofNat 32 r.src, r.seq,
    BitVec.ofNat 32 r.tick, BitVec.ofNat 32 (r.tick / 2 ^ 32)] ++ body)

/-- A PAD record of n bytes. -/
def padRec (n : Nat) (seq : Word) (tick : Nat) : BRec := ⟨kPad, 0, seq, tick, false, false, List.replicate ((n - 16) / 4) 0⟩

/-- Fill a chunk up to 65,536 bytes with a PAD record. -/
def padChunk (bs : List Byte) (seq : Word) (tick : Nat) : List Byte :=
  if 65536 ≤ bs.length then bs else bs ++ (padRec (65536 - bs.length) seq tick).encode

/-- Lay whole records into chunks (R510): finished chunks, and the one being filled. -/
def layChunks (rs : List BRec) : List (List Byte) :=
  let step := fun (a : List (List Byte) × List Byte) (r : BRec) =>
    let e := r.encode
    if 65536 < a.2.length + e.length then (a.1 ++ [padChunk a.2 r.seq r.tick], e) else (a.1, a.2 ++ e)
  let a := rs.foldl step ([], [])
  match rs.getLast? with
  | some r => a.1 ++ [padChunk a.2 r.seq r.tick]
  | none => []

/-- The records an export copies: those of the range in the ring, then END with LAST_SEQ. -/
def exportRecs (s : State) (f l : Word) : List BRec :=
  s.blt.ring.filter (fun r => seqIn f l r.seq) ++ [⟨kEnd, 0, l + 1, lc s, false, false, [l]⟩]

/-- The export header (Table 19.4). -/
def exportHeader (s : State) (f l : Word) (salt pub : List Byte) : List Byte :=
  let pid := (devicePid s).getD 0
  wordsBytes [put 1 28, BitVec.ofNat 32 s.hmk.exportNo, lo32 pid, hi32 pid, f, l, 0, 0] ++ fitBytes 32 salt ++ fitBytes 136 pub
    ++ List.replicate 56 0

/-- Write the header and the first chunks of an export into host memory of PF0, and its result (R509, R510); the drawn salt and ephemeral
key are erased (R496). -/
def writeExport (s : State) (f l : Word) (chunks : Nat) (cause : Nat) : State :=
  let k := s.hmk.exportDraw.getD (0, 0)
  let hdr := exportHeader s f l (bigBytes 32 k.1) (Config.exportPub k.2)
  let enc := ((layChunks (exportRecs s f l)).take chunks).zipIdx.map (fun e =>
    fitBytes 65552 (Config.exportChunk (s.hmk.recipient.getD 0) s.hmk.exportNo e.2 hdr e.1))
  let a := (regGet64 s (bltOff 0x88)).toNat
  let host := (enc.zipIdx).foldl (fun m e => memPutBytes m (a + 256 + 65552 * e.2) e.1) (memPutBytes s.host a hdr)
  regSet { s with host := host, blt := { s.blt with exporting := none }, hmk := { s.hmk with exportDraw := none } } (bltOff 0x98)
    (put 1 31 ||| put enc.length 8 ||| BitVec.ofNat 32 cause)

/-- Whole chunks of an export that its buffer holds. -/
def chunksFit (s : State) (f l : Word) : Nat :=
  min (layChunks (exportRecs s f l)).length (((regGet s (bltOff 0x90)).toNat - 256) / 65552)

/-- The salt and the ephemeral key of an export, each from one request of the generator (R496). -/
def drawExport (s : State) : Option (Nat × Nat) × State :=
  match freshBits s with
  | (none, t) => (none, t)
  | (some x, t) =>
    match freshBits t with
    | (none, u) => (none, u)
    | (some y, u) => (some ((x.extractLsb' 256 256).toNat, y.toNat), u)

/-- BLT_EXP_CMD (R509, R551, R492, R495): refused while one runs, for a range that is not in the ring, without entropy or without a
recipient. -/
def startExport (s : State) : State :=
  let f := regGet s (bltOff 0x80)
  let l := regGet s (bltOff 0x84)
  let has := fun (q : Word) => s.blt.ring.any (fun r => decide (r.seq = q))
  if s.blt.exporting.isSome || !has f || !has l || decide (2 ^ 31 ≤ (l - f).toNat) then bltRefuse s
  else if trngFailed s then hmkRefuse s 1
  else if s.hmk.recipient.isNone then hmkRefuse s 4
  else
    match drawExport s with
    | (none, t) => hmkRefuse t 1
    | (some k, t) =>
      regSet { t with
        blt := { t.blt with exporting := some (f, l) }
        hmk := { t.hmk with exportNo := t.hmk.exportNo + 1, exportDraw := some k } } (bltOff 0x98) 0
def execBltExpCmd (s : State) : Result := hostWrite s (startExport s)

/-- EXPORT_DONE (R509, R510). -/
def execExportDone (s : State) : Result :=
  match s.blt.exporting with
  | some (f, l) => .next (writeExport s f l (chunksFit s f l) 0)
  | none => .next s

/-- TRNG_HEALTH_FAIL (R492, Table 18.7): the generator stops, the source is restarted once, and a second failure of the Cold epoch is
final. A running export ends at the last whole chunk, whose number no rule gives. -/
def execTrngHealthFail (s : State) : Result :=
  let s1 := noteFailure s
  match s1.blt.exporting with
  | some (f, l) =>
    let (w, s2) := drawWord s1
    .next (writeExport s2 f l (w.toNat % (chunksFit s2 f l + 1)) 1)
  | none => .next s1

-- import (R511)

/-- The largest SRC of a kind (Table 19.2). -/
def srcMax (kind : Nat) : Nat :=
  if kind = kFrame then 87
  else if kind = kDesc ∨ kind = kCompl then 63
  else if kind = kPartner then 255
  else if kind = kSet ∨ kind = kLaunch ∨ kind = kSkip ∨ kind = kCert ∨ kind = kSnap ∨ kind = kConfig then 15
  else 0

/-- Read records from words (Table 19.1), each after its predecessor in the order of R502 and within the region: the records, or the byte
offset of the first bad one. -/
def readRecs (region : Nat) : Nat → List Word → Nat → List BRec → Nat ⊕ List BRec
  | 0, _, _, acc => .inr acc
  | _, [], _, acc => .inr acc
  | k + 1, w0 :: t, off, acc =>
    let units := fld w0 23 12
    let kind := fld w0 31 24
    let seq := t.getD 0 0
    let after := match acc.getLast? with
      | some r => decide (1 ≤ (seq - r.seq).toNat ∧ (seq - r.seq).toNat < 2 ^ 31)
      | none => true
    if units = 0 ∨ (w0 :: t).length < 4 * units ∨ kind < 1 ∨ 16 < kind ∨ srcMax kind < fld w0 9 0 ∨ after = false
        ∨ region < off + 16 * units then .inl off
    else
      let r : BRec := ⟨kind, fld w0 9 0, seq, (word64 (t.getD 1 0) (t.getD 2 0)).toNat, wbit w0 10, wbit w0 11,
        (t.drop 3).take (4 * (units - 1))⟩
      readRecs region k ((w0 :: t).drop (4 * units)) (off + 16 * units) (acc ++ [r])

/-- BLT_IMP_CMD (R511): plaintext records from host memory become the ring, or the ring is left empty with the offset of the first bad
record. -/
def importRecs (s : State) : State :=
  if s.blt.mode ≠ .off ∨ s.blt.exporting.isSome = true ∨ s.blt.replay.armed = true then bltRefuse s
  else
    let ws := memWords s.host (regGet64 s (bltOff 0xA0)).toNat ((regGet s (bltOff 0xA8)).toNat / 4)
    match readRecs (bltRegion s) (ws.length + 1) ws 0 [] with
    | .inl off =>
      regSet (regSet { s with blt := { s.blt with ring := [], buf := [] } } (bltOff 0xB0) (put 1 30)) (bltOff 0xB4) (BitVec.ofNat 32 off)
    | .inr rs =>
      let next := match rs.getLast? with | some r => r.seq + 1 | none => 0
      regSet (regSet { s with blt := { s.blt with ring := rs, buf := [], next := next } } (bltOff 0xB0) (put 1 31)) (bltOff 0xB4) 0
def execBltImpCmd (s : State) : Result := hostWrite s (importRecs s)

end Sys2Proof.Machine
end

