-- ==== Sys2Proof/Machine/Packets.lean ====
section
/-! DEFINITION. Packet mode (R144, R153, R156, R157): flits move through the routers of a partition, hop by hop, and arrivals
write the scratchpad in free fcyc. -/

namespace Sys2Proof.Machine

def Flit.dest : Flit → Nat
  | .header d _ _ => d
  | .data d _ _ => d

/-- The link a flit for `d` takes from tile `t` (R156): output port, next tile and its input; first east–west along the source row,
then north–south along the destination column. None at the destination. -/
def packetHop (t d : Nat) : Option (Nat × Nat × Nat) :=
  if t % 15 < d % 15 then some (2, t + 1, 3)
  else if d % 15 < t % 15 then some (3, t - 1, 2)
  else if t / 15 < d / 15 then some (1, t + 15, 0)
  else if d / 15 < t / 15 then some (0, t - 15, 1)
  else none

/-- Links the open circuit routes of a tile hold (R154), as (from, to). -/
def circuitLinks (x : Part) (im : Image) (t : Tile) : List (Nat × Nat) :=
  t.routes.flatMap (fun n => let r := routeTiles x im n; r.zip (r.drop 1))

/-- The north–south link a DMA beat in flight on tile `t` holds in fcyc `c` (R154; the fcyc of assumption 75). -/
def beatLink (t : Nat) (f : InFlight) (c : Nat) : List (Nat × Nat) :=
  let d := edgeRows t
  let wr := f.writes.any (fun w => decide (w.place = .image) || (match w.place with | .inst _ => true | _ => false))
  let at_ := fun (j : Nat) => if t / 15 < 8 then t - 15 * j else t + 15 * j
  let j := c + d - f.due
  if f.due ≤ c + d ∧ j < d then
    if wr then [(at_ j, at_ (j + 1))] else if f.read.isSome then [(at_ (d - j), at_ (d - j - 1))] else []
  else []

/-- Every link a circuit holds in the fcyc of the partition's tiles (R157). -/
def heldLinks (s : State) (x : Part) (im : Image) (c : Nat) : List (Nat × Nat) :=
  x.pars.tiles.flatMap (fun t =>
    let u := getTile s t
    circuitLinks x im u ++ u.flight.flatMap (fun f => beatLink t f c))

/-- A flit that moves: from tile and input, to the next tile's input, or to the tile's own local input buffer. -/
structure FlitMove where
  tile : Nat
  input : Nat
  next : Option (Nat × Nat)
  flit : Flit
deriving DecidableEq, Repr

/-- What moves on one link out of a tile: of the inputs whose first flit wants it the lowest (assumption 76), where the next input
has a credit, which is one of its 4 places free, and no circuit holds the link (R156, R157). Output 4 is the tile's own link. -/
def linkMove (s : State) (held : List (Nat × Nat)) (t out : Nat) : Option FlitMove :=
  let u := getTile s t
  let wants := fun (f : Flit) => match packetHop t f.dest with | some h => decide (h.1 = out) | none => decide (out = 4)
  (upTo 5).findSome? (fun i =>
    match tblGet [] u.inputs i with
    | f :: _ =>
      if wants f then
        match packetHop t f.dest with
        | some h =>
          if (tblGet [] (getTile s h.2.1).inputs h.2.2).length < 4 ∧ (t, h.2.1) ∉ held then some ⟨t, i, some h.2, f⟩ else none
        | none => if u.inbox.length < 4 then some ⟨t, i, none, f⟩ else none
      else none
    | [] => none)

/-- A tile's link to its router takes one flit that the tile has to send, where the router's local input has a credit. -/
def inject (s : State) (t : Nat) : Option Flit :=
  let u := getTile s t
  if (tblGet [] u.inputs 4).length < 4 then u.sending.head? else none

/-- Take the first flit of an input. -/
def Tile.takeFlit (t : Tile) (i : Nat) : Tile := { t with inputs := tblSet [] t.inputs i ((tblGet [] t.inputs i).drop 1) }

/-- Put a flit behind the others of an input. -/
def Tile.giveFlit (t : Tile) (i : Nat) (f : Flit) : Tile := { t with inputs := tblSet [] t.inputs i (tblGet [] t.inputs i ++ [f]) }

/-- A data flit that arrives waits in the local input buffer; a header ends its way there (R144). -/
def Tile.arrive (t : Tile) : Flit → Tile
  | .header _ _ _ => t
  | .data d a bs => { t with inbox := t.inbox ++ [.data d a bs] }

def moveFlit (s : State) (m : FlitMove) : State :=
  let s1 := setTile s m.tile ((getTile s m.tile).takeFlit m.input)
  match m.next with
  | some n => setTile s1 n.1 ((getTile s1 n.1).giveFlit n.2 m.flit)
  | none => setTile s1 m.tile ((getTile s1 m.tile).arrive m.flit)

def injectFlit (s : State) (e : Nat × Flit) : State :=
  let u := getTile s e.1
  setTile s e.1 (Tile.giveFlit { u with sending := u.sending.drop 1 } 4 e.2)

/-- One fcyc of a partition's routers (R153): every flit that may move goes one hop, judged on the buffers as the fcyc begins. -/
def stepRouters (s : State) (x : Part) (im : Image) (c : Nat) : State :=
  let held := heldLinks s x im c
  let moves := x.pars.tiles.flatMap (fun t => (upTo 5).filterMap (linkMove s held t))
  let news := x.pars.tiles.filterMap (fun t => (inject s t).map (fun f => (t, f)))
  news.foldl injectFlit (moves.foldl moveFlit s)

/-- Banks of the scratchpad that a write of `n` bytes at `a` touches (R140). -/
def banksOf (a n : Nat) : List Nat := (upTo ((a + n + 15) / 16 - a / 16)).map (fun i => (a / 16 + i) % 8)

/-- A scheduled access is due, by fcyc `c`, to write a bank of tile `t` that the flit needs (R144). -/
def bankBusy (s : State) (x : Part) (t c a n : Nat) : Bool :=
  let touches := fun (b m : Nat) => (banksOf b m).any (fun k => (banksOf a n).contains k)
  x.pars.tiles.any (fun q => (getTile s q).flight.any (fun f => decide (f.due ≤ c)
    && (f.writes.any (fun w => decide (w.place = .pad t) && touches w.addr w.bytes.length)
      || (match f.read with | some r => decide (q = t) && touches r.dest 32 | none => false))))

/-- The first arrival waiting at a tile, if its bank's write port is free in this fcyc. -/
def Tile.writeArrival (u : Tile) (busy : Nat → Nat → Bool) : Tile :=
  match u.inbox with
  | .data _ a bs :: rest => if busy a bs.length then u else { u.store a bs with inbox := rest }
  | .header _ _ _ :: rest => { u with inbox := rest }
  | [] => u

/-- PACKET_BANK_WRITE (R144, R156): in this fcyc of a best-effort command the tile's first waiting arrival writes its bank unless a
scheduled access has the port, and the partition's flits move one hop. -/
def execPacketBankWrite (t : TileId) (s : State) : Result :=
  match tileRun s t.val with
  | some (p, .ring _, _, im) =>
    let x := getPart s p
    let u := getTile s t.val
    .next (stepRouters (setTile s t.val (u.writeArrival (bankBusy s x t.val u.cyc))) x im u.cyc)
  | _ => .next s

end Sys2Proof.Machine
end

