-- ==== Sys2Proof/Machine/Replay.lean ====
section
/-! DEFINITION. Replay (R512 to R517): the checks at arming, the start, the replay count, and the delivery of recorded frames and sets. -/

namespace Sys2Proof.Machine

/-- The replay partitions (BLT_RPL_CFG.PARTS) and STRETCH. -/
def rplParts (s : State) : List Nat := (upTo 16).filter (fun p => wbit (regGet s (bltOff 0xC0)) p)
def rplStretch (s : State) : Nat := fld (regGet s (bltOff 0xC0)) 20 16

/-- The window: the records of the ring from BLT_RPL_FIRST to BLT_RPL_LAST. -/
def rplWindow (s : State) : List BRec :=
  s.blt.ring.filter (fun r => seqIn (regGet s (bltOff 0xE0)) (regGet s (bltOff 0xE4)) r.seq)

/-- The fields of a record the checks read. -/
def BRec.w (r : BRec) (k : Nat) : Word := r.payload.getD k 0
def BRec.source (r : BRec) : Nat := fld (r.w 0) 31 30
def BRec.verdict (r : BRec) : Nat := fld (r.w 0) 31 28

/-- LAUNCH records of the replay partitions; their slot and instance. -/
def rplLaunches (s : State) : List BRec := (rplWindow s).filter (fun r => decide (r.kind = kLaunch) && (rplParts s).contains r.src)
def BRec.lSlot (r : BRec) : Nat := fld (r.w 4) 3 1
def BRec.lInst (r : BRec) : Nat := fld (r.w 5) 31 22

/-- Inbound FRAME records of streams that a replay partition owns. -/
def rplFrames (s : State) : List BRec :=
  (rplWindow s).filter (fun r => decide (r.kind = kFrame ∧ r.verdict ≠ vOutbound) && strmOn s r.src && (rplParts s).contains (strmPart s r.src))

/-- BLT_RPL_ALIAS of a stream: its link, when enabled. -/
def aliasOf (s : State) (i : Nat) : Option Nat :=
  let w := regGet s (bltOff (0x100 + 4 * i))
  if wbit w 4 then some (fld w 3 0) else none

-- Table 19.5, in order

def rplCheck1 (s : State) : Bool :=
  let f := regGet s (bltOff 0xE0)
  let l := regGet s (bltOff 0xE4)
  decide (s.blt.mode = .off) && decide ((l - f).toNat < 2 ^ 31)
    && s.blt.ring.any (fun r => decide (r.seq = f)) && s.blt.ring.any (fun r => decide (r.seq = l))

def rplCheck2 (s : State) : Bool :=
  (rplLaunches s).all (fun r =>
    match (getSlot s r.src r.lSlot).img with
    | none => false
    | some im => ((rplWindow s).filter (fun c => decide (c.kind = kConfig ∧ c.src = r.src ∧ fld (c.w 0) 31 30 = 0 ∧ fld (c.w 0) 3 0 = r.lSlot + 8))).all
        (fun c => decide (word64 (c.w 1) (c.w 2) = im.hdr.sig ∧ (c.payload.drop 3).take 16 = digestWords im.hdr.digest)))

/-- A record gives an instance its start: its SNAP, or its accepted INST_DECL. -/
def startsInst (r : BRec) (p slot inst : Nat) : Bool :=
  (decide (r.kind = kSnap ∧ r.src = p ∧ r.cont = false ∧ fld (r.w 0) 18 16 = slot ∧ fld (r.w 0) 9 0 = inst))
    || (decide (r.kind = kSet ∧ r.src = p ∧ r.source = 0 ∧ fld (r.w 0) 23 16 = 0 ∧ fld (r.w 8) 23 16 = 0x20 ∧ fld (r.w 2) 31 22 = inst
        ∧ fld (r.w 2) 21 19 = slot))

def rplCheck3 (s : State) : Bool :=
  let f := regGet s (bltOff 0xE0)
  (rplLaunches s).all (fun r => (rplWindow s).any (fun c =>
    startsInst c r.src r.lSlot r.lInst && decide ((c.seq - f).toNat < (r.seq - f).toNat)))

/-- Commit sets of the window from producers outside the replay. -/
def rplCommits (s : State) : List BRec :=
  (rplWindow s).filter (fun r => decide (r.kind = kSet ∧ r.source = 2) && (rplParts s).contains r.src
    && !(rplParts s).contains (fld (r.w 3) 31 28))

def rplCheck4 (s : State) : Bool := (rplCommits s).all (fun r => decide (8 + (r.w 6).toNat ≤ r.payload.length))

def rplCheck5 (s : State) : Bool :=
  let is := ((rplFrames s).map (fun r => r.src)).eraseDups
  let qs := is.filterMap (aliasOf s)
  decide (qs.length = is.length) && decide (qs.eraseDups.length = qs.length) && qs.all (fun q => decide (qlRole s q = 3))
    && (rplFrames s).all (fun r => match aliasOf s r.src with
        | some q => decide (fld (r.w 0) 23 16 ≤ 8 * strmFps s q)
        | none => false)

/-- Kinds of records whose loss can touch a replayed source. -/
def sourceKinds : Word := put 1 kFrame ||| put 1 kSet ||| put 1 kLaunch ||| put 1 kCert ||| put 1 kSnap ||| put 1 kConfig

/-- A corrupt record touches a replayed source: a frame of a replayed stream, a record of those kinds of a replay partition, or a span whose
records are unknown (R508, PAD). -/
def corruptTouches (s : State) (r : BRec) : Bool :=
  if r.kind = kFrame then (rplParts s).contains (strmPart s r.src)
  else if r.kind = kPad then true
  else wbit sourceKinds r.kind && (rplParts s).contains r.src

def rplCheck6 (s : State) : Bool :=
  (rplWindow s).all (fun r =>
    !(decide (r.kind = kLoss) && decide (r.w 1 &&& sourceKinds ≠ 0))
    && !(r.corrupt && corruptTouches s r))

def rplCheck7 (s : State) : Bool :=
  decide (1 ≤ rplStretch s ∧ rplStretch s ≤ 16)
    && (rplParts s).all (fun p => (upTo 64).all (fun j => !entryValid s p j || entryFair s p j))

/-- The first failing check of Table 19.5. -/
def rplCause (s : State) : Option Nat :=
  if !rplCheck1 s then some 1
  else if !rplCheck2 s then some 2
  else if !rplCheck3 s then some 3
  else if !rplCheck4 s then some 4
  else if !rplCheck5 s then some 5
  else if !rplCheck6 s then some 6
  else if !rplCheck7 s then some 7
  else none

/-- BLT_RPL_ARM (R512, R551). -/
def armReplay (s : State) : State :=
  if s.blt.replay.armed then bltRefuse s
  else
    match rplCause s with
    | some c => recordErr s (bltOff 0xC8) c
    | none => { s with blt := { s.blt with replay := { Replay.reset with armed := true, window := rplWindow s } } }
def execBltRplArm (s : State) : Result := hostWrite s (armReplay s)

/-- BLT_RPL_ABORT (R551): the replay ends. -/
def abortReplay (s : State) : State := { s with blt := { s.blt with replay := .reset } }
def execBltRplAbort (s : State) : Result := hostWrite s (abortReplay s)

-- the start (R513)

/-- The first launch count of an entry after a count. -/
def nextCount (phase period after : Nat) : Nat :=
  if after < phase then phase else phase + (((after - phase) / max 1 period) + 1) * max 1 period

/-- The CONT records that follow a record, as one payload. -/
def joinCont (l : List BRec) (r : BRec) : List Word :=
  let rest := (l.dropWhile (fun x => decide (x.seq ≠ r.seq))).drop 1
  r.payload ++ (rest.takeWhile (fun x => x.cont && decide (x.kind = r.kind ∧ x.src = r.src))).flatMap (fun x => x.payload)

/-- Restore an instance from its SNAP: the state, the factor buffer and the trajectory it holds (Table 19.2). -/
def restoreSnap (s : State) (p : Nat) (ws : List Word) : State :=
  let w0 := ws.getD 0 0
  match (getPart s p).inst? (fld w0 9 0) with
  | none => s
  | some i =>
    match (getSlot s p i.slot).img with
    | none => s
    | some im =>
      if i.slot ≠ fld w0 18 16 then s
      else
        let l := (word64 (ws.getD 1 0) (ws.getD 2 0)).toNat
        let n0 := if wbit w0 31 then im.w else 0
        let n1 := if wbit w0 30 then im.hdr.fBuf / 4 else 0
        let st := (ws.drop 4).take n0
        let fa := (ws.drop (4 + n0)).take n1
        let tr := (ws.drop (4 + n0 + n1)).take im.dims.n
        let space := memPutWords i.space (4 * im.e + 4 * im.w) fa
        let i1 : Inst := { i with
          lastL := l, commits := (ws.getD 3 0).toNat, bufSwap := false, space := space
          factorValid := wbit w0 30 || (im.seg? sFactor).isNone
          warm := if im.isQp && wbit w0 31 then some ⟨im.hdr.sig, l, st⟩ else i.warm
          carried := if im.isEstimator && wbit w0 31 then some st else i.carried
          xPrev := if im.isEstimator && wbit w0 31 then some ((candidateFp im (st.take im.dims.nx)).map (BitVec.ofNat 64)) else i.xPrev
          lastWords := if wbit w0 29 then some tr else i.lastWords }
        let s1 := putInst s p i1
        if !wbit w0 29 then s1
        else
          (upTo 64).foldl (fun t j =>
            if entryValid t p j && (entryMembers t p j l).any (fun m => m.num == i.num) then
              let e := getRun t p j
              let v : Traj := ⟨tr, l + entryRelease t p j, l, i.num⟩
              putInst (setRun t p j { e with traj := some v }) p { i1 with traj := some v }
            else t) s1

/-- The last SNAP record of each instance before its first replayed launch; the host has declared the instance. -/
def restoreAll (s : State) : State :=
  let w := s.blt.replay.window
  let f := regGet s (bltOff 0xE0)
  let snaps := w.filter (fun r => decide (r.kind = kSnap) && !r.cont && (rplParts s).contains r.src)
  snaps.foldl (fun t r =>
    let first := (rplLaunches s).find? (fun x => decide (x.src = r.src ∧ x.lInst = fld (r.w 0) 9 0))
    let before := match first with | some x => decide ((r.seq - f).toNat < (x.seq - f).toNat) | none => true
    if before then restoreSnap t r.src (joinCont w r) else t) s

/-- The ASN before the first accepted set of a replay partition. -/
def firstAsn (s : State) (p : Nat) : Option Word :=
  (s.blt.replay.window.find? (fun r => decide (r.kind = kSet ∧ r.src = p ∧ r.w 1 ≠ 0))).map (fun r => r.w 1 - 1)

/-- The records a replay delivers: inbound frames, host sets, and commit sets of producers outside it (R514). -/
def deliverable (s : State) (r : BRec) : Bool :=
  (rplFrames s).contains r || (rplCommits s).contains r
    || (decide (r.kind = kSet ∧ r.source = 0) && (rplParts s).contains r.src)

/-- The TICK of the first replayed record. -/
def firstTick (s : State) : Nat :=
  match s.blt.replay.window.find? (fun r => deliverable s r || (decide (r.kind = kLaunch ∨ r.kind = kSnap) && (rplParts s).contains r.src)) with
  | some r => r.tick
  | none => 0

/-- REPLAY_START (R513): LC has reached BLT_RPL_START. -/
def execReplayStart (s : State) : Result :=
  let r := s.blt.replay
  if !(r.armed && !r.started) || decide (lc s < (regGet64 s (bltOff 0xD0)).toNat) then .next s
  else
    let t0 := firstTick s
    let s1 := { s with blt := { s.blt with replay := { r with
      started := true, rlc := t0, sub := 0, todo := r.window.filter (deliverable s) } } }
    let s2 := (rplParts s).foldl (fun t p =>
      let t1 := match firstAsn t p with | some a => regSet t (fabOff p 0x3C) a | none => t
      (upTo 64).foldl (fun u j =>
        let e := getRun u p j
        if e.on then setRun u p j { e with next := nextCount (entryPhase u p j) (entryPeriod u p j) (t0 - 1) } else u) t1) s1
    .next (restoreAll s2)

-- the replay count (R513)

/-- A command that holds its instance back in a replay: in RUN, FINISH or VERIFY (R513). -/
def CmdState.open (x : CmdState) : Bool := decide (x = .run ∨ x = .finish ∨ x = .verify)

/-- A launch of an entry at the next count has every condition it needs: its sets, its own command, its instances' and its quads. -/
def entryReady (s : State) (p j : Nat) : Bool :=
  let e := getRun s p j
  let asn := match recordedLaunch s p j e.next with | some r => r.payload.getD 7 0 | none => 0
  let x := getPart s p
  asnReached s p asn && e.cutDone && e.cmd.isNone && quadsRun s p
    && (entryMembers s p j e.next).all (fun i => x.entries.all (fun f => match f.2.cmd with
        | some c => !(c.st.open && c.members.any (fun m => m.inst == i.num))
        | none => true)
      && s.be.all (fun f => match f.2 with
        | some b => !(b.cmd.st.open && decide (b.part = p ∧ b.model = false ∧ b.inst = i.num))
        | none => true))

/-- RLC may advance to the next count. -/
def rlcFree (s : State) : Bool :=
  let n := s.blt.replay.rlc + 1
  !inHold s && !s.pwr.safe && !s.blt.replay.halted && (rplParts s).all (fun p =>
    !(getPart s p).reshaping
    && (upTo 64).all (fun j => !(getRun s p j).on || decide ((getRun s p j).next ≠ n) || entryReady s p j))

/-- One local tick of a replay: RLC advances by 1 for every STRETCH local ticks, and waits where R513 has it wait. -/
def replayTick (s : State) : State :=
  let r := s.blt.replay
  if !r.started then s
  else
    let n := r.sub + 1
    if n < rplStretch s then { s with blt := { s.blt with replay := { r with sub := n } } }
    else if rlcFree s then { s with blt := { s.blt with replay := { r with sub := 0, rlc := r.rlc + 1 } } }
    else s

-- delivery (R514)

/-- Take a record off the list of those still to be delivered. -/
def dropTodo (s : State) (r : BRec) : State :=
  let q := s.blt.replay
  { s with blt := { s.blt with replay := { q with todo := q.todo.erase r } } }

/-- The recorded ASN of the set a frame formed. -/
def frameAsn (s : State) (r : BRec) : Word :=
  match s.blt.replay.window.find? (fun x => decide (x.kind = kSet ∧ x.source = 1 ∧ x.w 3 = r.seq)) with
  | some x => x.w 1
  | none => 0

/-- A recorded frame: one that was accepted reaches its engines and forms its set; one that was not comes to nothing again. -/
def deliverFrame (s : State) (r : BRec) : State :=
  if r.verdict ≠ vAccepted then s
  else
    let ws := (r.payload.drop 1).take (fld (r.w 0) 23 16)
    let judged := !(decide (16 ≤ r.src ∧ r.src < 24)) || wbit (regGet s (dpOff (r.src - 16) 0)) 29
    let f : NibFrame := ⟨r.tick, if judged then some (BitVec.ofNat 16 (fld (r.w 0) 15 0)) else none,
      if r.src < 16 then BitVec.ofNat 16 (strmFps s r.src) else 1, ws⟩
    streamSet (feedEngines s r.src f true) r.src r.seq (frameAsn s r) ws true

/-- A recorded host set: its object goes to the gate without a descriptor. -/
def deliverHost (s : State) (r : BRec) : State :=
  let n := 8 + (r.w 9).toNat / 4
  let ws := (r.payload.drop 8).take n
  let g : GateItem :=
    { src := .replay r.seq.toNat 0, kind := fld (r.w 8) 23 16, slot := fld (r.w 2) 21 19, bytes := 4 * n, words := ws, recs := [],
      inst := fld (r.w 2) 31 22, tsig := 0, asn := r.w 1, tick := s.lt }
  setPart s r.src { getPart s r.src with gate := (getPart s r.src).gate ++ [g] }

/-- The map records by which a producer's image routed a recorded commit set. -/
def commitRecs (s : State) (r : BRec) : List MapRec :=
  let q := fld (r.w 3) 31 28
  match (getSlot s q (entryImg s q (fld (r.w 3) 27 22))).img with
  | none => []
  | some im =>
    match im.usedTargets.find? (fun e => decide (e.2.part = r.src ∧ e.2.slot = fld (r.w 2) 21 19 ∧ e.2.inst = fld (r.w 2) 31 22)) with
    | some e => im.commitMap.filter (fun m => m.src == e.1)
    | none => []

/-- A recorded commit set: its values go to the gate. -/
def deliverCommit (s : State) (r : BRec) : State :=
  let g : GateItem :=
    { src := .replay r.seq.toNat 2, kind := 0, slot := fld (r.w 2) 21 19, bytes := 0, words := (r.payload.drop 8).take (r.w 6).toNat,
      recs := commitRecs s r, inst := fld (r.w 2) 31 22, tsig := 0, asn := r.w 1, tick := s.lt }
  setPart s r.src { getPart s r.src with gate := (getPart s r.src).gate ++ [g] }

/-- REPLAY_DELIVERY (R514): the first record whose count RLC has reached. -/
def execReplayDelivery (s : State) : Result :=
  let q := s.blt.replay
  if !q.started then .next s
  else
    match q.todo.find? (fun r => decide (r.tick ≤ q.rlc)) with
    | none => .next s
    | some r =>
      let s1 := dropTodo s r
      if r.kind = kFrame then .next (deliverFrame s1 r)
      else if r.source = 0 then .next (deliverHost s1 r)
      else .next (deliverCommit s1 r)

end Sys2Proof.Machine
end

