-- ==== Sys2Proof/Machine/Setup.lean ====
section
/-! DEFINITION. The set-up writes with a behaviour of their own: cutoff ticks and semaphores (R540, R542), counter clears (R539), launch
entries (R185, R543), the slot table (R320, R544), binding records (R170), submission rings (R347 to R349, R546, R547) and contexts
(R346, R548). -/

namespace Sys2Proof.Machine

-- the fabric

/-- FAB_PART_CUTOFF_WRITE (R540): while the partition is enabled a TICKS outside 8 to 4,096 is refused; a lowered one leaves the old
value governing until no queued set is larger than the new capacity. -/
def cutoffWrite (s : State) (p : Nat) (v : Word) : State :=
  let x := getPart s p
  let new := fld v 12 0
  let old := ticksEff s p
  if !x.on then regSet s (fabOff p 0x10) (BitVec.ofNat 32 new)
  else if new < 8 ∨ 4096 < new then recordErr s (fabErr p) 4
  else
    let s1 := regSet s (fabOff p 0x10) (BitVec.ofNat 32 new)
    setPart s1 p { x with oldTicks := if new < old then some old else none }
def execFabPartCutoffWrite (p : PartId) (v : Word) (s : State) : Result := hostWrite s (cutoffWrite s p.val v)

/-- FAB_SEM_WRITE (R542). -/
def semWrite (s : State) (n : Nat) (v : Word) : State := semSet s n (fld v 15 0)
def execFabSemWrite (n : BitVec 8) (v : Word) (s : State) : Result := hostWrite s (semWrite s n.toNat v)

/-- The counters of the instance whose CNT_CLR register lies at an offset (R539, Tables 21.3, 21.5 and 21.8). -/
def clearedBy (off : Nat) : List Nat :=
  if off < 0x10000 ∧ off % 0x1000 = 0x40 then (upTo 7).map (fun k => off - 0x40 + 0x20 + 4 * k)
  else if 0x200000 ≤ off ∧ off < 0x210000 ∧ off % 0x1000 = 0x7C then (upTo 7).map (fun k => off - 0x7C + 0x60 + 4 * k)
  else if 0x500000 ≤ off ∧ off < 0x508000 ∧ off % 0x200 = 0x14C then
    (upTo 3).map (fun k => off - 0x14C + 0x140 + 4 * k) ++ (upTo 9).map (fun r => off - 0x14C + 0x3C + 0x20 * r)
  else []

/-- CNT_CLR (R539): KEY 0xA5 sets every counter of the instance to 0. -/
def clearCounters (s : State) (off : Nat) (v : Word) : State :=
  if fld v 7 0 = 0xA5 then (clearedBy off).foldl (fun t o => regSet t o 0) s else s
def execCntClr (off : BitVec 24) (v : Word) (s : State) : Result := hostWrite s (clearCounters s off.toNat v)

-- launch entries

/-- How many counts stand for one local tick: STRETCH in a replay partition, where counts run slower (R513). -/
def stretchOf (s : State) (p : Nat) : Nat := if replayPart s p then max 1 (rplStretch s) else 1

/-- The bound latency-critical image of an entry (Table 06.15, cause 1). -/
def entryImage (s : State) (p j : Nat) : Option Image :=
  let x := getSlot s p (entryImg s p j)
  match x.img, x.unbinding with
  | some im, none => if im.isLc then some im else none
  | _, _ => none

/-- Check 2 of Table 06.15 with R411. -/
def entryTimesOk (s : State) (p j : Nat) : Bool :=
  let d := entryDeadline s p j
  let k := stretchOf s p
  let r := k * entryRelease s p j
  decide (1 ≤ d ∧ d ≤ r ∧ entryRelease s p j ≤ entryPeriod s p j ∧ 200 ≤ entryPeriod s p j)
    && decide (ceilDiv r 10000 + 2 ≤ r - d)

/-- Check 3: the deadline covers the image's worst case. -/
def entryWorstOk (s : State) (p j : Nat) (im : Image) : Bool :=
  let d := entryDeadline s p j
  if entryFair s p j then im.wcet.all (fun r => !decide (r.mode = 1 ∧ r.start = 0) || decide (r.total ≤ d))
  else im.wcet.all (fun r => !decide (r.mode = 0) || decide (r.minTicks ≤ d))

/-- Check 5 (R319): every launch of a cycle lies inside one window that the entry owns. -/
def entryWindowOk (s : State) (p j : Nat) : Bool :=
  let cyc := cycleTicks s p
  let per := entryPeriod s p j
  let ws := (windows s p).filter (fun w => decide (w.owner = j))
  decide (0 < per ∧ cyc % per = 0 ∧ cycleBase s p ≤ entryPhase s p j)
    && (upTo (cyc / per)).all (fun k =>
      let o := (entryPhase s p j - cycleBase s p + k * per) % max 1 cyc
      ws.any (fun w => decide (w.start ≤ o ∧ entryDeadline s p j ≤ stretchOf s p * (w.start + w.length - o))))

/-- What R257 asks of the entry of a MODEL image: no batch, traps on TF_NV and TF_OF, and no threshold set. -/
def modelEntryOk (s : State) (p j : Nat) : Bool :=
  let traps := tfNv ||| tfOf
  !entryBatch s p j && decide ((entryFpcw s p j).trapMask &&& traps = traps) && decide (entryThr s p j = 0)

/-- Check 6: reserved fields, INSTANCE under BATCH, THR, and what R257 asks. -/
def entryFieldsOk (s : State) (p j : Nat) (im : Image) : Bool :=
  let w := fun (k : Nat) => regGet s (launchOff p j k)
  decide (fld (w 0) 7 0 = 0 ∧ w 4 = 0 ∧ fld (w 5) 30 0 = 0 ∧ wbit (w 6) 14 = false) && (entryFpcw s p j).rsvZero
    && (!entryBatch s p j || decide (entryInst s p j = 0))
    && (match im.thr with | some t => decide (entryThr s p j < t.sets.length) | none => decide (entryThr s p j = 0))
    && (!im.isModel || modelEntryOk s p j)

/-- The first failing check of Table 06.15. -/
def launchCause (s : State) (p j : Nat) : Option Nat :=
  match entryImage s p j with
  | none => some 1
  | some im =>
    if !entryTimesOk s p j then some 2
    else if !entryWorstOk s p j im then some 3
    else if im.hdr.qAssumed < (getPart s p).pars.liveq then some 4
    else if !entryWindowOk s p j then some 5
    else if !entryFieldsOk s p j im then some 6
    else none

/-- The first launch of an entry whose cutoff tick has not been reached (R184); counts below the highest one reached before a step back
have been reached. -/
def firstLaunch (s : State) (p j : Nat) : Nat :=
  let now := if replayPart s p then count s p else max (lc s) s.tu.mark
  nextCount (entryPhase s p j) (entryPeriod s p j) (now + ticksEff s p)

/-- DUC_ERR (Table 21.4). -/
def ducRefuse (s : State) (p cause : Nat) : State := recordErr s (ducOff p 0xC04) cause

/-- A write of word 6 that sets VALID (R185, R543): its other bits apply, then the checks run. -/
def launchEnable (s : State) (p j : Nat) (v : Word) : State :=
  let off := launchOff p j 6
  if entryValid s p j then ducRefuse s p 2
  else
    let s1 := regSet s off (v &&& 0xFFFF7FFF)
    match launchCause s1 p j with
    | some c => launchConfig (recordErr s1 (ducOff p 0xC00) (256 * j + c)) p j
    | none =>
      let s2 := setRun s1 p j { getRun s1 p j with on := true, next := firstLaunch s1 p j, cutDone := false, cutBlocked := false }
      launchConfig (regSet s2 off (v ||| 0x8000)) p j
def execLaunchEntryEnable (p : PartId) (j : EntryId) (v : Word) (s : State) : Result :=
  hostWrite s (launchEnable s p.val j.val v)

/-- A write of word 6 that leaves VALID clear (R543, R302): a launch whose count this tick reaches is withdrawn and counted, and engines
bound to the entry lose their source. A command that started earlier runs on. -/
def launchDisable (s : State) (p j : Nat) (v : Word) : State :=
  let off := launchOff p j 6
  if !entryValid s p j then launchConfig (regSet s off (v &&& 0xFFFF7FFF)) p j
  else
    let e := getRun s p j
    let s1 := match e.cmd with
      | some c => if elapsed s c = 0 then withdrawLaunch s p j c
                  else if e.on && decide (e.next ≤ count s p) then skipLaunch s p j 7 else s
      | none => if e.on && decide (e.next ≤ count s p) then skipLaunch s p j 7 else s
    let s2 := setRun s1 p j { getRun s1 p j with on := false, cutDone := false, cutBlocked := false }
    launchConfig (noPlanEntry (regSet s2 off (v &&& 0xFFFF7FFF)) p j) p j
def execLaunchEntryDisable (p : PartId) (j : EntryId) (v : Word) (s : State) : Result :=
  hostWrite s (launchDisable s p.val j.val v)

/-- A write of one word of a launch entry (R543). -/
def launchWrite (s : State) (p j w : Nat) (v : Word) : State :=
  if w = 6 then (if wbit v 15 then launchEnable s p j v else launchDisable s p j v)
  else if entryValid s p j then ducRefuse s p 2
  else launchConfig (regSet s (launchOff p j w) v) p j

-- the slot table and binding records

/-- When the slot table may be written (R320). -/
def slotTableFree (s : State) (p : Nat) : Bool :=
  let x := getPart s p
  !x.on || x.reshaping || (upTo 64).all (fun j => !entryOn s p j)

/-- A word of a slot-table entry has a nonzero RSV field (Table 12.2). -/
def slotTableRsv (k w : Nat) (v : Word) : Bool :=
  if k = 0 then decide (w = 0 ∧ fld v 23 0 ≠ 0)
  else decide ((w = 0 ∨ w = 1) ∧ v ≠ 0) || decide (w = 2 ∧ fld v 1 0 ≠ 0)

/-- A write of WINDOWS that raises the table's entries beyond STORE_ENTRIES (R544). -/
def slotTableBeyond (s : State) (p k w : Nat) (v : Word) : Bool :=
  let x := getPart s p
  let n := fld v 31 24
  let beyond := if x.on then decide (x.pars.store < storeUsed s p - windowCount s p + n)
    else decide ((regParams s p).store < 1 + n)
  decide (k = 0 ∧ w = 0 ∧ windowCount s p < n) && beyond

/-- SLOT_TABLE_WRITE (R320, R544): refused with cause 9 at any other time, with a reserved bit, or beyond the Store region. -/
def slotTableWrite (s : State) (p k w : Nat) (v : Word) : State :=
  if !slotTableFree s p || slotTableRsv k w v || slotTableBeyond s p k w v then recordErr s (fabErr p) 9
  else regSet s (slotTabOff p k w) v
def execSlotTableWrite (p : PartId) (k : BitVec 8) (w : Fin 4) (v : Word) (s : State) : Result :=
  hostWrite s (slotTableWrite s p.val k.toNat w.val v)

/-- The writable bits of a word of a binding record (Table 21.4). -/
def bindMask (w : Nat) : Word := if w = 0 then 0xF0000000 else if w = 2 ∨ w = 3 ∨ 16 ≤ w then 0xFFFFFFFF else 0

/-- DUC_BIND_WRITE (R170): the expected image of an empty slot; SIGNATURE takes effect with its upper word (R535). -/
def bindWrite (s : State) (p k w : Nat) (v : Word) : State :=
  let off := ducOff p (0x80 * k + 4 * w)
  if (getSlot s p k).img.isSome then ducRefuse s p 1
  else if w = 2 then { s with latch64 := tblSet none s.latch64 off (some v) }
  else if w = 3 then
    let s1 := match tblGet none s.latch64 (off - 4) with | some lo => regSet s (off - 4) lo | none => s
    regSet { s1 with latch64 := tblSet none s1.latch64 (off - 4) none } off v
  else regSet s off (v &&& bindMask w)
def execDucBindWrite (p : PartId) (k : SlotId) (w : Fin 32) (v : Word) (s : State) : Result :=
  hostWrite s (bindWrite s p.val k.val w.val v)

-- rings

/-- The areas an accepted item uses (Table 13.5): its object, image, result or output, and a BE_MODEL's input. -/
def itemAreas (i : Item) : List (Nat × Nat) :=
  let op := i.opcode
  (if (op = 1 ∨ op = 2 ∨ op = 4 ∨ op = 5 ∨ op = 6) ∧ 0 < i.bytes then [(i.addr, i.bytes)] else [])
    ++ (if op = 6 ∧ i.word 14 ≠ 0 then [((word64 (i.word 12) (i.word 13)).toNat, (i.word 14).toNat)] else [])

/-- Bytes of a context's rings and, in the mailbox, of the areas its accepted items use (R347): start and length. -/
def ctxAreas (s : State) (c : Nat) : List (Nat × Nat) :=
  let x := getCtx s c
  if !x.on then []
  else
    (x.cqBase.toNat, 32 * 2 ^ x.cqLog2) :: (upTo 8).flatMap (fun r =>
      let g := getRing s c r
      (if g.st = .enabled ∨ g.st = .draining then [(g.base.toNat, 64 * 2 ^ g.log2)] else [])
        ++ (if x.func = 16 then g.items.flatMap itemAreas else []))

/-- Areas in use in the memory a function's rings lie in. -/
def areasOf (s : State) (func : Nat) : List (Nat × Nat) :=
  (upTo 64).flatMap (fun c => if decide ((getCtx s c).func = 16) == decide (func = 16) then ctxAreas s c else [])

def areasMeet (a b : Nat × Nat) : Bool := decide (a.1 < b.1 + b.2 ∧ b.1 < a.1 + a.2)

/-- A ring's base (R347). -/
def baseOk (func base bytes : Nat) : Bool :=
  if func = 16 then decide (base % 64 = 0 ∧ base + bytes ≤ 262144) else decide (base % 4096 = 0)

/-- Record a refused creation or write in the HQ_RING_STAT at an offset. -/
def statRefuse (s : State) (off cause : Nat) : State :=
  if wbit (regGet s off) 28 then s else regSet s off (put 1 28 ||| put cause 24)
def ringRefuse (s : State) (c r cause : Nat) : State := statRefuse s (ringOff c r 0x10) cause

/-- A ring is created or set up only in these states (R546). -/
def ringFree (g : Ring) : Bool := decide (g.st = .uncreated ∨ g.st = .halted ∨ g.st = .lost)

/-- LIVEQ_MAX in force: writes apply at once while the partition is disabled (R540). -/
def liveqMax (s : State) (p : Nat) : Nat := if (getPart s p).on then (getPart s p).pars.liveq else (regParams s p).liveq

/-- The first failing check of a ring's creation (R317, R347 to R349). -/
def ringCause (s : State) (c r : Nat) (v : Word) : Option Nat :=
  let x := getCtx s c
  let g := getRing s c r
  let k := fld v 28 24
  let base := (regGet64 s (ringOff c r 0)).toNat
  if !x.on || !ringFree g then some 6
  else if k < 4 ∨ 16 < k then some 3
  else if !baseOk x.func base (64 * 2 ^ k) then some 1
  else if (areasOf s x.func).any (areasMeet (base, 64 * 2 ^ k)) then some 2
  else if g.lastGen = some (BitVec.ofNat 8 (fld v 23 16)) then some 4
  else if !wbit v 1 then some 5
  else if liveqMax s x.part ≤ liveQueues s x.part then some 6
  else none

/-- The ring after its creation: sequence 0, version 1 (R347, R348). -/
def ringMake (s : State) (c r : Nat) (v : Word) : State :=
  let gen := BitVec.ofNat 8 (fld v 23 16)
  setRing (regSet s (ringOff c r 8) (v &&& 0x1FFFFFFF)) c r { Ring.reset with
    st := .enabled, base := regGet64 s (ringOff c r 0), log2 := fld v 28 24, gen := gen, lastGen := some gen, version := 1
    headTick := s.lt }

/-- RING_CREATE (R547): a refused write is discarded whole. A LOST ring becomes ENABLED once its function has Bus Master Enable set again
(Table 13.3); until then the write takes no effect. The bit is the host's, and no command sets it: a free value says whether the host
has (assumption 91). -/
def ringCreate (s : State) (c r : Nat) (v : Word) : State :=
  let g := getRing s c r
  match ringCause s c r v with
  | some 5 => setRing (ringRefuse s c r 5) c r { g with version := 0 }
  | some n => ringRefuse s c r n
  | none =>
    let x := getCtx s c
    if g.st ≠ .lost ∨ busOk s x = true then ringMake s c r v
    else
      let (b, s1) := drawBit s
      if b then ringMake { s1 with bme := s1.bme ||| BitVec.ofNat 16 (2 ^ x.func) } c r v else s1
def execRingCreate (c : CtxId) (r : RingId) (v : Word) (s : State) : Result := hostWrite s (ringCreate s c.val r.val v)

/-- RING_DISABLE (R547). -/
def ringDisable (s : State) (c r : Nat) : State :=
  let g := getRing s c r
  if g.st = .enabled then setRing s c r { g with st := .draining } else s
def execRingDisable (c : CtxId) (r : RingId) (s : State) : Result := hostWrite s (ringDisable s c.val r.val)

/-- RING_DRAINED (R347): the last accepted item of a DRAINING ring is complete. -/
def execRingDrained (c : CtxId) (r : RingId) (s : State) : Result :=
  let g := getRing s c.val r.val
  if g.st = .draining ∧ g.items = [] ∧ ringWaits s c.val r.val = false then .next (setRing s c.val r.val { g with st := .uncreated })
  else .next s

/-- A write of a ring's registers (R546, R547): word 0 and 1 BASE, word 2 HQ_RING_CFG. -/
def ringWrite (s : State) (c r w : Nat) (v : Word) (store : State) : State :=
  let g := getRing s c r
  if w = 2 ∧ wbit v 31 = true then ringCreate s c r v
  else if w = 2 ∧ g.st = .enabled then ringDisable s c r
  else if ringFree g then store
  else ringRefuse s c r 6

-- contexts

/-- Refuse a context write (HQ_CTX_ERR). -/
def ctxRefuse (s : State) (c cause : Nat) : State := recordErr s (ctxOff c 0x0C) cause

/-- The doorbell page of a new context (R534): c on PF0, else the lowest free of 16. -/
def freePage (s : State) (c func : Nat) : Option Nat :=
  if func = 0 then some c
  else (upTo 16).find? (fun k => (upTo 64).all (fun d => !((getCtx s d).on && decide ((getCtx s d).func = func ∧ (getCtx s d).page = k))))

/-- The first failing check of the completion block, by its cause in HQ_RING_STAT (R347, R349). -/
def cqCause (s : State) (c func : Nat) : Option Nat :=
  let w := regGet s (ctxOff c 0x28)
  let k := fld w 28 24
  let base := (regGet64 s (ctxOff c 0x20)).toNat
  if k < 6 ∨ 18 < k then some 3
  else if !baseOk func base (32 * 2 ^ k) then some 1
  else if (areasOf s func).any (areasMeet (base, 32 * 2 ^ k)) then some 2
  else if (getCtx s c).cqLastGen = some (BitVec.ofNat 8 (fld w 23 16)) then some 4
  else none

/-- CONTEXT_CREATE (R346, R465, R548): the context and its completion ring. -/
def ctxCreate (s : State) (c : Nat) (v : Word) : State :=
  let x := getCtx s c
  let part := fld v 28 25
  let func := fld v 24 20
  if x.on then ctxRefuse s c 5
  else if !isReady s then ctxRefuse s c 6
  else if !(getPart s part).on then ctxRefuse s c 1
  else
    match (if 16 < func then none else freePage s c func) with
    | none => ctxRefuse s c 2
    | some page =>
      match cqCause s c func with
      | some n => ctxRefuse (statRefuse s (ctxOff c 0x30) n) c 3
      | none =>
        let w := regGet s (ctxOff c 0x28)
        let gen := BitVec.ofNat 8 (fld w 23 16)
        setCtx (regSet s (ctxOff c 0) (v &&& 0x9FF00000)) c { Ctx.reset with
          on := true, func := func, part := part, page := page, cqBase := regGet64 s (ctxOff c 0x20), cqLog2 := fld w 28 24
          cqGen := gen, cqLastGen := some gen }
def execContextCreate (c : CtxId) (v : Word) (s : State) : Result := hostWrite s (ctxCreate s c.val (v ||| 0x80000000))

/-- CONTEXT_DESTROY (R548): once every submission ring is UNCREATED. -/
def ctxDestroy (s : State) (c : Nat) : State :=
  let x := getCtx s c
  if !x.on then s
  else if (upTo 8).any (fun r => (getRing s c r).st ≠ .uncreated) then ctxRefuse s c 4
  else setCtx (regSet s (ctxOff c 0) (regGet s (ctxOff c 0) &&& 0x7FFFFFFF)) c { Ctx.reset with cqLastGen := x.cqLastGen }
def execContextDestroy (c : CtxId) (s : State) : Result := hostWrite s (ctxDestroy s c.val)

end Sys2Proof.Machine
end

