-- ==== Sys2Proof/Machine/RegWrite.lean ====
section
/-! DEFINITION. REGISTER_WRITE (R535 to R538, chapter 21): a write of any set-up register, by block; registers with a behaviour of their own
go to the operation of their rule. -/

namespace Sys2Proof.Machine

/-- Set a register's RW bits, clear its W1C bits that are written 1, leave the rest (R3, R10); a 64-bit value takes effect with its
upper word (R535). -/
def plainWrite (s : State) (off : Nat) (v : Word) : State :=
  match regRow? off with
  | none => s
  | some (r, _) =>
    let rw := BitVec.ofNat 32 r.rw
    let w1c := BitVec.ofNat 32 r.w1c
    let set := fun (t : State) (o : Nat) (x : Word) =>
      let old := regGet t o
      regSet t o (((old &&& ~~~rw) ||| (x &&& rw)) &&& ~~~(x &&& w1c))
    if r.wide = 1 then { s with latch64 := tblSet none s.latch64 off (some v) }
    else if r.wide = 2 then
      let s1 := match tblGet none s.latch64 (off - 4) with | some lo => regSet s (off - 4) lo | none => s
      set { s1 with latch64 := tblSet none s1.latch64 (off - 4) none } off v
    else set s off v

/-- A refused write that is only counted (R549, R551, R535). -/
def regRefuse (s : State) : State := bump s regErr

/-- How many of the lowest n bits are 1. -/
def countBits (n : Nat) (v : Word) : Nat := ((upTo n).filter (fun i => v.getLsbD i)).length

-- FAB, DUC, ASY, MEM

/-- FAB_PART_GEOM, MEM, SCHED and ASY_PART_LANES (R540): at once, or to the pending copy; refused during a re-shape. -/
def paramWrite (s : State) (p off : Nat) (v : Word) : State :=
  let x := getPart s p
  if x.reshaping then recordErr s (fabErr p) 12
  else
    let s1 := plainWrite s off v
    if x.on then setPart s1 p { getPart s1 p with pendingPars := true } else s1

/-- FAB_PART_CTL: one action (Table 21.3, cause 11). -/
def ctlWrite (s : State) (p : Nat) (v : Word) : State :=
  if countBits 3 v = 0 then s
  else if countBits 3 v ≠ 1 then recordErr s (fabErr p) 11
  else if v.getLsbD 0 then enablePart s p
  else if v.getLsbD 1 then disablePart s p
  else askReshape s p

def fabWrite (s : State) (off : Nat) (v : Word) : State :=
  let p := off / 0x1000
  let k := off % 0x1000
  if p < 16 then
    if k = 0 ∨ k = 4 ∨ k = 8 then paramWrite s p off v
    else if k = 0x10 then cutoffWrite s p v
    else if k = 0x14 then ctlWrite s p v
    else if k = 0x40 then clearCounters s off v
    else plainWrite s off v
  else if 0x11000 ≤ off ∧ off < 0x11400 then semWrite s ((off - 0x11000) / 4) v
  else s

def ducWrite (s : State) (off : Nat) (v : Word) : State :=
  let p := (off - 0x100000) % 0x10000 / 0x1000
  let k := off % 0x1000
  if off < 0x110000 then
    if k < 0x400 then bindWrite s p (k / 0x80) (k % 0x80 / 4) v
    else if k < 0xC00 then launchWrite s p ((k - 0x400) / 0x20) (k % 0x20 / 4) v
    else plainWrite s off v
  else if off < 0x120000 then slotTableWrite s p (k / 0x10) (k % 0x10 / 4) v
  else s

/-- MEM_GD_REGION (R440, Table 16.5): before the first enable, each region within its range and all within the usable space. -/
def regionWrite (s : State) (v : Word) : State :=
  let img := fld v 10 0
  let blt := fld v 28 16
  if s.mem.enabledOnce then recordErr s 0x400084 1
  else if img < 64 ∨ 1024 < img ∨ 4096 < blt ∨ 15 * 1024 < 64 + img + blt then recordErr s 0x400084 2
  else plainWrite s 0x400080 v

def asyMemWrite (s : State) (off : Nat) (v : Word) : State :=
  if 0x300000 ≤ off ∧ off < 0x300040 then paramWrite s ((off - 0x300000) / 4) off v
  else if off = 0x400080 then regionWrite s v
  else plainWrite s off v

-- NIB

/-- NIB_ENG_CMD: one request per write (Table 21.15). -/
def nibCmd (s : State) (n : Nat) (v : Word) : State :=
  if countBits 4 v = 0 then s
  else if countBits 4 v ≠ 1 then nibRefuse s n 7
  else if v.getLsbD 0 then armEngine s n
  else if v.getLsbD 1 then rearmEngine s n
  else if v.getLsbD 2 then stopEngine s n
  else askSwap s n

/-- An engine's registers (R545): the configuration is written in CONFIG only. -/
def nibWrite (s : State) (off : Nat) (v : Word) : State :=
  let n := (off - 0x200000) / 0x1000
  let k := off % 0x1000
  let cfg := decide (k ≤ 0x18 ∨ 0x100 ≤ k)
  if 16 ≤ n then s
  else if k = 0x50 then nibCmd s n v
  else if k = 0x7C then clearCounters s off v
  else if k = 0x84 then coefAccess s n (some v)
  else if (regRow? off).isNone then s
  else if cfg ∧ (getNib s n).st ≠ .config then nibRefuse s n 7
  else if cfg ∨ (0x20 ≤ k ∧ k < 0x40) then nibConfig (plainWrite s off v) n k v
  else plainWrite s off v

-- HQ

/-- A context's own registers (R548): CFG, event mask, CQ_RESERVE and the completion block are written while it is not enabled. -/
def ctxWrite (s : State) (c k off : Nat) (v : Word) : State :=
  let on := (getCtx s c).on
  if k = 0 then
    if wbit v 31 then ctxCreate s c v
    else if on then ctxDestroy s c
    else plainWrite s off v
  else if k = 0x14C then clearCounters s off v
  else if on = true ∧ (k = 4 ∨ k = 8 ∨ k = 0x20 ∨ k = 0x24 ∨ k = 0x28) then ctxRefuse s c 5
  else plainWrite s off v

def hqWrite (s : State) (off : Nat) (v : Word) : State :=
  let c := (off - 0x500000) / 0x200
  let k := off % 0x200
  if 64 ≤ c then plainWrite s off v
  else if 0x40 ≤ k ∧ k < 0x140 then
    let r := (k - 0x40) / 0x20
    let w := k % 0x20 / 4
    if w < 3 then ringWrite s c r w v (plainWrite s off v) else plainWrite s off v
  else if (regRow? off).isNone ∧ k ≠ 0x14C then s
  else ctxWrite s c k off v

-- FIO, QL, ETH

/-- Refuse a binding write (FIO_ERR). -/
def fioRefuse (s : State) (cause : Nat) : State := recordErr s (fioOff 0x50) cause

/-- The words of a launch-entry output's layout (R389). -/
def layoutWords (w : Word) : Nat := fld w 17 11 * fld w 10 5

/-- An engine outside CONFIG already drives a stream (R387). -/
def engineDrives (s : State) (i : Nat) : Bool :=
  (upTo 16).any (fun n => decide ((getNib s n).st ≠ .config) && (nibOuts s n).contains i)

/-- Enabling a binding (R549, R387): the layout fits its frames, and the link carries no other latency-critical output. -/
def strmEnable (s : State) (i : Nat) (v : Word) : State :=
  let lay := regGet s (strmOff i 0x14)
  let le := decide (i < 16) && wbit v 30 && wbit lay 31
  if le ∧ 8 * (fld v 11 10 + 1) - 2 < layoutWords lay then fioRefuse s 2
  else if le ∧ engineDrives s i = true then fioRefuse s 3
  else strmConfig (plainWrite s (strmOff i 0) v) i

/-- A stream binding (R549): written while ENABLE is 0; while it is 1 only clearing it is taken. -/
def strmWrite (s : State) (i k off : Nat) (v : Word) : State :=
  if strmOn s i then
    if k = 0 ∧ wbit v 31 = false then strmConfig (regSet s off (regGet s off &&& 0x7FFFFFFF)) i
    else if k = 0x18 then s
    else fioRefuse s 1
  else if k = 0 ∧ wbit v 31 = true then strmEnable s i v
  else if (regRow? off).isNone ∨ k = 0x18 then s
  else strmConfig (plainWrite s off v) i

/-- A port's reset request holds it (R452). -/
def portHeldNow (s : State) (n : Nat) : Bool := s.rst.portHeld.getLsbD n || s.rst.portRst.getLsbD n

/-- FIO_DP_CFG (R392, R452, R549). Its frames count from 0 after each enable, and so do safe frames after each disable (R403). -/
def dpWrite (s : State) (d off : Nat) (v : Word) : State :=
  let x := getDport s d
  if wbit (regGet s off) 31 then
    if wbit v 31 then regRefuse s
    else setDport (regSet s off (regGet s off &&& 0x7FFFFFFF)) d { x with safeSeq := 0 }
  else if wbit v 31 && portHeldNow s (16 + d) then regRefuse s
  else
    let s1 := plainWrite s off v
    if wbit v 31 then setDport s1 d { x with txSeq := 0 } else s1

/-- FIO_PTN_CMD (Table 21.9). -/
def partnerCmd (s : State) (v : Word) : State :=
  let n := fld v 7 0
  if fld v 31 30 = 1 then approve s n else if fld v 31 30 = 2 then reject s n else s

def fioWrite (s : State) (off : Nat) (v : Word) : State :=
  let i := (off - 0x600000) / 0x40
  if i < 88 then strmWrite s i (off % 0x40) off v
  else if 0x602000 ≤ off ∧ off < 0x602200 ∧ off % 0x40 = 0 then dpWrite s ((off - 0x602000) / 0x40) off v
  else if off = 0x603004 then partnerCmd s v
  else plainWrite s off v

/-- A link's state after its configuration changed (Table 14.6): a disabled link is unconfigured, one newly enabled trains. -/
def linkConfigured (s : State) (q : Nat) : State :=
  let x := getLink s q
  let r := restState s q
  match x.st with
  | .off => s
  | .up | .sync | .looped => if r = .train ∧ x.st ≠ .looped then s else leaveLink s q r
  | _ => setLink s q { x with st := r }

/-- QL_CFG (R452, R549, R550). -/
def qlWrite (s : State) (q : Nat) (v : Word) : State :=
  let off := qlOff q 0
  let role := fld v 31 30
  if wbit v 29 && !qlOn s q && portHeldNow s q then regRefuse s
  else if role = 3 then
    if qlRole s q = 3 then plainWrite s off v else enterLoop (plainWrite s off v) q
  else if qlOn s q && decide (role ≠ qlRole s q) then regRefuse s
  else linkConfigured (plainWrite s off v) q

/-- An Ethernet port's registers (R452, R549). -/
def ethWrite (s : State) (off : Nat) (v : Word) : State :=
  let e := (off - 0x800000) / 0x1000
  let k := off % 0x1000
  if 4 ≤ e ∨ (regRow? off).isNone ∨ k = 0x10 then s
  else if ethOn s e then
    if k = 0 ∧ wbit v 15 = false then ethDown (slaveLost (regSet s off (regGet s off &&& 0xFFFF7FFF)) e) e
    else regRefuse s
  else if k = 0 ∧ wbit v 15 = true then
    if portHeldNow s (24 + e) then regRefuse s
    else
      let s1 := plainWrite s off v
      setEth s1 e { getEth s1 e with up := (getEth s1 e).pll }
  else plainWrite s off v

-- TU

/-- The cause a time-unit parameter is refused with (Table 15.4). -/
def tuCause (s : State) (k : Nat) (v : Word) : Option Nat :=
  let old := regGet s (tuOff k)
  let bad := fun (b : Bool) (c : Nat) => if b then some c else none
  match k with
  | 0x44 | 0x48 => bad (decide (0x04000000 < v.toNat)) 2
  | 0x4C => bad (decide (fld v 31 24 = 0 ∨ fld v 19 0 < 100 ∨ 1000000 < fld v 19 0)) 2
  | 0x50 => bad (decide (fld v 31 24 = 0 ∨ 8 < fld v 19 16 ∨ fld v 9 0 = 0 ∨ 1000 < fld v 9 0)) 2
  | 0x54 => bad (decide (fld v 31 24 = 0 ∨ fld v 23 16 < 2 ∨ fld v 9 0 = 0 ∨ 1000 < fld v 9 0)) 2
  | 0x58 =>
    let moved := decide (fld v 20 16 ≠ fld old 20 16 ∨ fld v 7 0 ≠ fld old 7 0)
    bad (decide (fld v 20 16 < 12 ∨ 24 < fld v 20 16 ∨ fld v 7 0 < 4) || (moved && (wbit old 31 || decide (tuSrc s = 2)))) 3
  | 0x5C => bad (decide (v.toInt < -25600000 ∨ 25600000 < v.toInt)) 3
  | _ => none

/-- TU_INCR_NOM's upper word (R406): within 100 ppm; in FREERUN it is INCR at once. -/
def incrWrite (s : State) (v : Word) : State :=
  let lo := (tblGet none s.latch64 (tuOff 0)).getD (regGet s (tuOff 0))
  let x := lo.toNat + 2 ^ 32 * fld v 7 0
  if x < 0x27FEF9DB3 ∨ 0x28010624D < x then tuRefuse { s with latch64 := tblSet none s.latch64 (tuOff 0) none } 2
  else
    let s1 := plainWrite s (tuOff 4) v
    if s1.tu.st = .freerun then modTu s1 (fun u => { u with incr := incrNom s1 }) else s1

def tuWrite (s : State) (off : Nat) (v : Word) : State :=
  let k := off - 0x900000
  if k = 4 then incrWrite s v
  else if k = 0x40 then srcWrite s v
  else if k = 0x88 then stepCmd s v
  else if k = 0x8C then (if v.getLsbD 0 then acceptPath s else s)
  else
    match tuCause s k v with
    | some c => tuRefuse s c
    | none =>
      let s1 := plainWrite s off v
      if k = 0x58 ∧ wbit v 31 = false then modTu s1 (fun u => { u with syncOut := false, syncLeft := 0 }) else s1

-- RST, PWR, FER, HMK, BLT, ANL

def rstPwrWrite (s : State) (off : Nat) (v : Word) : State :=
  if off = rstOff 0x08 then partReq s v
  else if off = rstOff 0x0C then portReq s v
  else if off = rstOff 0x10 then softwareReset s v
  else if off = rstOff 0x18 then (if v.getLsbD 0 then kick s else s)
  else if off = pwrOff 0x40 then (if v.getLsbD 0 then safeClear s else s)
  else plainWrite s off v

def ferHmkWrite (h : HostPort) (s : State) (off : Nat) (v : Word) : State :=
  if off = hmkOff 0x10 then revoke s v
  else if off = hmkOff 0x18 then (if v.getLsbD 0 then raiseSvn s else s)
  else if off = hmkOff 0x88 then (if v.getLsbD 0 then submitToken s h else s)
  else if off = hmkOff 0x108 then (if v.getLsbD 0 then attest s h else s)
  else if off = hmkOff 0x320 then (if v.getLsbD 0 then loadRecipient s else s)
  else plainWrite s off v

/-- ANL_CFG, ANL_LANE and ANL_POLICY within Table 20.3. -/
def anlCause (k : Nat) (v : Word) : Option Nat :=
  if k = 0 ∧ (fld v 15 0 = 0 ∨ fld v 23 16 = 0) then some 2
  else if k = 4 ∧ (fld v 13 0 = 0 ∨ 10000 < fld v 13 0) then some 2
  else if k = 8 ∧ (upTo 16).any (fun p => fld v (2 * p + 1) (2 * p) = 3) = true then some 1
  else none

def anlWrite (s : State) (off : Nat) (v : Word) : State :=
  if off = anlOff 0x10 then (if v.getLsbD 0 then anlGo s else s)
  else
    match anlCause (off - 0xF00000) v with
    | some c => recordErr s (anlOff 0x20) c
    | none => plainWrite s off v

/-- BLT_MARK's upper word: the tag. -/
def markHigh (s : State) (v : Word) : State :=
  let lo := (tblGet none s.latch64 (bltOff 0x20)).getD 0
  markWrite { s with latch64 := tblSet none s.latch64 (bltOff 0x20) none } (word64 lo v)

/-- The Blotter's registers (R551): replay registers while no replay is armed, export and import registers while
no export runs (an import is one write). -/
def bltWriteReg (s : State) (off : Nat) (v : Word) : State :=
  let k := off - 0xE00000
  if k = 0 then modeWrite s v
  else if k = 0x18 then snapWrite s v
  else if k = 0x20 then { s with latch64 := tblSet none s.latch64 off (some v) }
  else if k = 0x24 then markHigh s v
  else if k = 0x28 then (if v.getLsbD 0 then trigWrite s else s)
  else if k = 0x94 then (if v.getLsbD 0 then startExport s else s)
  else if k = 0xAC then (if v.getLsbD 0 then importRecs s else s)
  else if k = 0xC4 then (if v.getLsbD 1 then abortReplay s else if v.getLsbD 0 then armReplay s else s)
  else if ((0x80 ≤ k ∧ k < 0x94) ∨ (0xA0 ≤ k ∧ k < 0xAC)) ∧ s.blt.exporting.isSome = true then regRefuse s
  else if (k = 0xC0 ∨ (0xD0 ≤ k ∧ k < 0xE8) ∨ (0x100 ≤ k ∧ k < 0x260)) ∧ s.blt.replay.armed = true then regRefuse s
  else plainWrite s off v

/-- A write of a set-up register, by block (Table 21.2). -/
def regWrite (h : HostPort) (s : State) (off : Nat) (v : Word) : State :=
  match off / 0x100000 with
  | 0 => fabWrite s off v
  | 1 => ducWrite s off v
  | 2 => nibWrite s off v
  | 3 | 4 => asyMemWrite s off v
  | 5 => hqWrite s off v
  | 6 => fioWrite s off v
  | 7 => if off % 0x100 = 0 ∧ off < 0x701000 then qlWrite s ((off - 0x700000) / 0x100) v else s
  | 8 => ethWrite s off v
  | 9 => tuWrite s off v
  | 10 | 11 => rstPwrWrite s off v
  | 12 | 13 => ferHmkWrite h s off v
  | 14 => bltWriteReg s off v
  | _ => anlWrite s off v

/-- The register offset an address on a port names: BAR0 of 16 MiB, or the control port's window (Table 13.2). -/
def regOffset (h : HostPort) (addr : BitVec 32) : Option Nat :=
  match h with
  | .pcie => if addr.toNat < 0x1000000 then some addr.toNat else none
  | .xspi => if 0x1000000 ≤ addr.toNat ∧ addr.toNat < 0x2000000 then some (addr.toNat - 0x1000000) else none

/-- A write on the control port outside the registers (Table 13.2): to the mailbox, to a doorbell page, or counted. -/
def xspiWrite (s : State) (a bytes : Nat) (v : Word) : State :=
  if a < 0x40000 then { s with mailbox := memPutBytes s.mailbox a ((leBytes (min bytes 4) v.toNat).take (0x40000 - a)) }
  else if a < 0x50000 then doorbell s 16 ((a - 0x40000) / 0x1000) (a % 0x1000) bytes (v.setWidth 64)
  else bump s 0x508004

/-- REGISTER_WRITE (R535 to R538): of a width other than 32 bits or out of line, it writes nothing and is counted. The control port
reaches its mailbox and doorbell pages too (R345). -/
def execRegisterWrite (h : HostPort) (addr : BitVec 32) (bytes : Nat) (v : Word) (s : State) : Result :=
  match regOffset h addr with
  | some off => if bytes ≠ 4 ∨ off % 4 ≠ 0 then hostWrite s (regRefuse s) else hostWrite s (regWrite h s off v)
  | none => match h with
    | .xspi => hostWrite s (xspiWrite s addr.toNat bytes v)
    | .pcie => .next s

end Sys2Proof.Machine
end

