-- ==== Sys2Proof/Machine/Release.lean ====
section
/-! DEFINITION. The release of a trajectory or of a fallback plan at L + RELEASE_TICKS (R231, R232, R389). -/

namespace Sys2Proof.Machine

/-- What is released at a release count: the trajectory its launch committed in time, else the fallback, else NO_PLAN to the
engines bound to the entry. -/
def releaseAt (s : State) (p j : Nat) (im : Image) (r : Release) : State :=
  if im.isModel then s
  else
    match r.traj with
    | some t => presentPlan s p j im t 0 false
    | none =>
      match fallback s p j im r.count with
      | some (t, k) => presentPlan (leOffer s p j 2 (fun q => leWords s q im t.words k r.count)) p j im t k true
      | none => noPlanEntry (leOffer s p j 6 (fun _ => [])) p j

/-- RELEASE (R231): the oldest release count that has come. -/
def execRelease (p : PartId) (j : EntryId) (s : State) : Result :=
  let e := getRun s p.val j.val
  match e.rels with
  | r :: rest =>
    if r.count ≤ count s p.val then
      let s1 := setRun s p.val j.val { e with rels := rest }
      match (getSlot s1 p.val (entryImg s1 p.val j.val)).img with
      | some im => .next (releaseAt s1 p.val j.val im r)
      | none => .next (noPlanEntry s1 p.val j.val)
    else .next s
  | [] => .next s

end Sys2Proof.Machine
end

