-- ==== Sys2Proof/Machine/Tick.lean ====
section
/-! DEFINITION. One tick of the device (R405, R408, R421): time, the slot tables' cycles and budgets, the throttle's accounts and the replay
count. -/

namespace Sys2Proof.Machine

/-- The accounts of R475 in the present millisecond: open and returned ticks, and those in which best-effort work held the tiles. -/
def msAccount (s : State) (p : Nat) : State :=
  let x := getPart s p
  let m := s.lt / 400000
  let y := if x.msTick = m then x else { x with msTick := m, msAvail := 0, msUsed := 0 }
  let held := match x.holder with | some (.ring _) => true | _ => false
  setPart s p { y with msAvail := y.msAvail + (if freeTick s p then 1 else 0), msUsed := y.msUsed + (if held then 1 else 0) }

/-- What a tick does to an enabled partition (R326, R475). -/
def tickPart (s : State) (p : Nat) : State :=
  if (getPart s p).on then msAccount (chargeAged (rollCycle s p) p) p else s

/-- TICK (R405, R408): T gains INCR; with REFCLK lost the oscillator drives it instead (R421), and in Cold reset it stands at 0. -/
def execTick (s : State) : Result :=
  if s.rst.phase = .coldReset ∨ s.tu.refLost = true then .next s
  else .next ((upTo 16).foldl tickPart (replayTick (advanceTime s 1)))

/-- OSCILLATOR_CYCLE (R421): while REFCLK is lost, T gains 25 · INCR. -/
def execOscillatorCycle (s : State) : Result :=
  if s.rst.phase ≠ .coldReset ∧ s.tu.refLost = true then .next (advanceTime s 25) else .next s

end Sys2Proof.Machine
end

