-- ==== Sys2Proof/Machine/Dispatch.lean ====
section
/-! DEFINITION. What each command does: one arm per row of the opcode table, each a direct call of its meaning. -/

namespace Sys2Proof.Machine

/-- The effect of a command on everything but the queue. -/
def exec (i : Instr) (s : State) : Host.Outcome State Fault Refusal :=
  match i with
  -- host interface
  | .doorbellSubmit f page off bytes v => Sys2Proof.Machine.execDoorbellSubmit f page off bytes v s
  | .doorbellCqHead f page bytes v => Sys2Proof.Machine.execDoorbellCqHead f page bytes v s
  | .descriptorFetch c r => Sys2Proof.Machine.execDescriptorFetch c r s
  | .nop c r => Sys2Proof.Machine.execNop c r s
  | .object c r => Sys2Proof.Machine.execObject c r s
  | .imageBind c r => Sys2Proof.Machine.execImageBind c r s
  | .bindComplete p k => Sys2Proof.Machine.execBindComplete p k s
  | .imageUnbind c r => Sys2Proof.Machine.execImageUnbind c r s
  | .unbindAtBoundary p k => Sys2Proof.Machine.execUnbindAtBoundary p k s
  | .resultRead c r => Sys2Proof.Machine.execResultRead c r s
  | .beSolve c r => Sys2Proof.Machine.execBeSolve c r s
  | .beModel c r => Sys2Proof.Machine.execBeModel c r s
  | .pause c r => Sys2Proof.Machine.execPause c r s
  | .resume c r => Sys2Proof.Machine.execResume c r s
  | .hostReadFail c => Sys2Proof.Machine.execHostReadFail c s
  | .journalRelease c => Sys2Proof.Machine.execJournalRelease c s
  | .functionLoss f => Sys2Proof.Machine.execFunctionLoss f s
  | .warmRecovery c => Sys2Proof.Machine.execWarmRecovery c s
  -- the range gate
  | .dataBlock p => Sys2Proof.Machine.execDataBlock p s
  | .updateList p => Sys2Proof.Machine.execUpdateList p s
  | .instDecl p => Sys2Proof.Machine.execInstDecl p s
  | .instRelease p => Sys2Proof.Machine.execInstRelease p s
  | .warmStart p => Sys2Proof.Machine.execWarmStart p s
  | .streamSetVerdict p => Sys2Proof.Machine.execStreamSetVerdict p s
  | .commitSetVerdict p => Sys2Proof.Machine.execCommitSetVerdict p s
  -- launches and solves
  | .cutoff p j => Sys2Proof.Machine.execCutoff p j s
  | .launch p j => Sys2Proof.Machine.execLaunch p j s
  | .segmentBoundary p => Sys2Proof.Machine.execSegmentBoundary p s
  | .assayVerdict p fault => Sys2Proof.Machine.execAssayVerdict p fault s
  | .deadlineTick p j => Sys2Proof.Machine.execDeadlineTick p j s
  | .release p j => Sys2Proof.Machine.execRelease p j s
  -- best-effort work
  | .windowOpen p w => Sys2Proof.Machine.execWindowOpen p w s
  | .killEnd p => Sys2Proof.Machine.execKillEnd p s
  | .rerunStart p j => Sys2Proof.Machine.execRerunStart p j s
  | .beStart p => Sys2Proof.Machine.execBeStart p s
  | .kernelStart p => Sys2Proof.Machine.execKernelStart p s
  | .kernelEnd p => Sys2Proof.Machine.execKernelEnd p s
  | .beCommit p => Sys2Proof.Machine.execBeCommit p s
  | .bulkHandover p => Sys2Proof.Machine.execBulkHandover p s
  -- tile operations
  | .packetBankWrite t => Sys2Proof.Machine.execPacketBankWrite t s
  | .opRetire t k => Sys2Proof.Machine.execOpRetire t k s
  | .strokeNop t sl => Sys2Proof.Machine.execStrokeNop t sl s
  | .mac t sl => Sys2Proof.Machine.execMac t sl s
  | .accadd t sl => Sys2Proof.Machine.execAccadd t sl s
  | .accWb t sl => Sys2Proof.Machine.execAccWb t sl s
  | .tmac t sl => Sys2Proof.Machine.execTmac t sl s
  | .twb t sl => Sys2Proof.Machine.execTwb t sl s
  | .mwadd t sl => Sys2Proof.Machine.execMwadd t sl s
  | .mwsub t sl => Sys2Proof.Machine.execMwsub t sl s
  | .mwmul t sl => Sys2Proof.Machine.execMwmul t sl s
  | .mwext t sl => Sys2Proof.Machine.execMwext t sl s
  | .mwnarrow t sl => Sys2Proof.Machine.execMwnarrow t sl s
  | .fadd t sl => Sys2Proof.Machine.execFadd t sl s
  | .fsub t sl => Sys2Proof.Machine.execFsub t sl s
  | .fmul t sl => Sys2Proof.Machine.execFmul t sl s
  | .fma t sl => Sys2Proof.Machine.execFma t sl s
  | .min t sl => Sys2Proof.Machine.execMin t sl s
  | .max t sl => Sys2Proof.Machine.execMax t sl s
  | .cmpeq t sl => Sys2Proof.Machine.execCmpeq t sl s
  | .cmplt t sl => Sys2Proof.Machine.execCmplt t sl s
  | .cmple t sl => Sys2Proof.Machine.execCmple t sl s
  | .cvt t sl => Sys2Proof.Machine.execCvt t sl s
  | .recip t sl => Sys2Proof.Machine.execRecip t sl s
  | .rsqrt t sl => Sys2Proof.Machine.execRsqrt t sl s
  | .div t sl => Sys2Proof.Machine.execDiv t sl s
  | .cxfer t sl => Sys2Proof.Machine.execCxfer t sl s
  | .lcopy t sl => Sys2Proof.Machine.execLcopy t sl s
  | .dmard t sl => Sys2Proof.Machine.execDmard t sl s
  | .dmawr t sl => Sys2Proof.Machine.execDmawr t sl s
  | .pkt t sl => Sys2Proof.Machine.execPkt t sl s
  | .idle t => Sys2Proof.Machine.execIdle t s
  | .accopen t => Sys2Proof.Machine.execAccopen t s
  | .fpbar t => Sys2Proof.Machine.execFpbar t s
  | .loop t => Sys2Proof.Machine.execLoop t s
  | .famcall t => Sys2Proof.Machine.execFamcall t s
  | .famret t => Sys2Proof.Machine.execFamret t s
  | .segend t => Sys2Proof.Machine.execSegend t s
  -- Hold, re-shape, power, errors
  | .holdEntry => Sys2Proof.Machine.execHoldEntry s
  | .holdExit => Sys2Proof.Machine.execHoldExit s
  | .reshapeStart => Sys2Proof.Machine.execReshapeStart s
  | .reshapeEnd => Sys2Proof.Machine.execReshapeEnd s
  | .powerDomainLower d st => Sys2Proof.Machine.execPowerDomainLower d st s
  | .powerDomainWake d => Sys2Proof.Machine.execPowerDomainWake d s
  | .strokeReload quad => Sys2Proof.Machine.execStrokeReload quad s
  | .uncorrectableError e addr => Sys2Proof.Machine.execUncorrectableError e addr s
  | .scrub array addr corrected => Sys2Proof.Machine.execScrub array addr corrected s
  | .assayKat lane pass => Sys2Proof.Machine.execAssayKat lane pass s
  | .assayClockFault => Sys2Proof.Machine.execAssayClockFault s
  | .tileKat t pass => Sys2Proof.Machine.execTileKat t pass s
  | .tjSample readings => Sys2Proof.Machine.execTjSample readings s
  | .throttleStep => Sys2Proof.Machine.execThrottleStep s
  | .powerEstimate mW => Sys2Proof.Machine.execPowerEstimate mW s
  | .tjShut sensor => Sys2Proof.Machine.execTjShut sensor s
  -- Nib engines
  | .nibSample n => Sys2Proof.Machine.execNibSample n s
  | .freeRunSlot n => Sys2Proof.Machine.execFreeRunSlot n s
  | .arm n => Sys2Proof.Machine.execArm n s
  | .rearm n => Sys2Proof.Machine.execRearm n s
  | .stop n => Sys2Proof.Machine.execStop n s
  | .swap n => Sys2Proof.Machine.execSwap n s
  | .nibCoefDataAccess n write => Sys2Proof.Machine.execNibCoefDataAccess n write s
  -- Quill links
  | .dataHandover q => Sys2Proof.Machine.execDataHandover q s
  | .data q f => Sys2Proof.Machine.execData q f s
  | .bulk q f => Sys2Proof.Machine.execBulk q f s
  | .ident q f => Sys2Proof.Machine.execIdent q f s
  | .leave q f => Sys2Proof.Machine.execLeave q f s
  | .null q f => Sys2Proof.Machine.execNull q f s
  | .linkUp q epoch => Sys2Proof.Machine.execLinkUp q epoch s
  | .linkAck q epoch => Sys2Proof.Machine.execLinkAck q epoch s
  | .nakLc q seq => Sys2Proof.Machine.execNakLc q seq s
  | .nakBe q seq => Sys2Proof.Machine.execNakBe q seq s
  | .credit q lc be => Sys2Proof.Machine.execCredit q lc be s
  | .down q => Sys2Proof.Machine.execDown q s
  | .nakTimeout q cl => Sys2Proof.Machine.execNakTimeout q cl s
  | .replayExpire q cl => Sys2Proof.Machine.execReplayExpire q cl s
  | .linkUpTimer q => Sys2Proof.Machine.execLinkUpTimer q s
  | .creditTimer q => Sys2Proof.Machine.execCreditTimer q s
  | .unconfNullTimer q => Sys2Proof.Machine.execUnconfNullTimer q s
  | .lockAcquired q => Sys2Proof.Machine.execLockAcquired q s
  | .linkErrors q => Sys2Proof.Machine.execLinkErrors q s
  | .portPllLock port => Sys2Proof.Machine.execPortPllLock port s
  | .safeFrameTimer d => Sys2Proof.Machine.execSafeFrameTimer d s
  | .dpFrameRx d f => Sys2Proof.Machine.execDpFrameRx d f s
  | .ethStreamRx e f => Sys2Proof.Machine.execEthStreamRx e f s
  | .partnerSilence n => Sys2Proof.Machine.execPartnerSilence n s
  | .approve n => Sys2Proof.Machine.execApprove n s
  | .reject n => Sys2Proof.Machine.execReject n s
  | .loopRoleWrite q => Sys2Proof.Machine.execLoopRoleWrite q s
  -- the time unit
  | .tick => Sys2Proof.Machine.execTick s
  | .ptpMeasurement port e pd => Sys2Proof.Machine.execPtpMeasurement port e pd s
  | .syncInEdge te narrow => Sys2Proof.Machine.execSyncInEdge te narrow s
  | .syncOutPulse => Sys2Proof.Machine.execSyncOutPulse s
  | .sourceTimeout => Sys2Proof.Machine.execSourceTimeout s
  | .tuStepCmd v => Sys2Proof.Machine.execTuStepCmd v s
  | .stepApply => Sys2Proof.Machine.execStepApply s
  | .accept => Sys2Proof.Machine.execAccept s
  | .tuSrcWrite v => Sys2Proof.Machine.execTuSrcWrite v s
  | .refclkLoss => Sys2Proof.Machine.execRefclkLoss s
  | .refclkReturn => Sys2Proof.Machine.execRefclkReturn s
  -- resets
  | .resetNLow ns => Sys2Proof.Machine.execResetNLow ns s
  | .brownout r => Sys2Proof.Machine.execBrownout r s
  | .powerOn => Sys2Proof.Machine.execPowerOn s
  | .supplyGood r => Sys2Proof.Machine.execSupplyGood r s
  | .vddkWarnRise => Sys2Proof.Machine.execVddkWarnRise s
  | .watchdogExpire => Sys2Proof.Machine.execWatchdogExpire s
  | .rstWdogKick => Sys2Proof.Machine.execRstWdogKick s
  | .rstWarmReq v => Sys2Proof.Machine.execRstWarmReq v s
  | .rstPartReq v => Sys2Proof.Machine.execRstPartReq v s
  | .rstPortReq v => Sys2Proof.Machine.execRstPortReq v s
  | .tamper k => Sys2Proof.Machine.execTamper k s
  | .coldRelease fault => Sys2Proof.Machine.execColdRelease fault s
  | .warmRelease fault => Sys2Proof.Machine.execWarmRelease fault s
  | .partitionRelease p fault => Sys2Proof.Machine.execPartitionRelease p fault s
  | .portRelease port => Sys2Proof.Machine.execPortRelease port s
  | .bootPauseEnd => Sys2Proof.Machine.execBootPauseEnd s
  -- register writes with a behaviour of their own
  | .enable p => Sys2Proof.Machine.execEnable p s
  | .disable p => Sys2Proof.Machine.execDisable p s
  | .reshape p => Sys2Proof.Machine.execReshape p s
  | .fabPartCutoffWrite p v => Sys2Proof.Machine.execFabPartCutoffWrite p v s
  | .fabSemWrite n v => Sys2Proof.Machine.execFabSemWrite n v s
  | .cntClr off v => Sys2Proof.Machine.execCntClr off v s
  | .launchEntryEnable p j v => Sys2Proof.Machine.execLaunchEntryEnable p j v s
  | .launchEntryDisable p j v => Sys2Proof.Machine.execLaunchEntryDisable p j v s
  | .slotTableWrite p k w v => Sys2Proof.Machine.execSlotTableWrite p k w v s
  | .ducBindWrite p k w v => Sys2Proof.Machine.execDucBindWrite p k w v s
  | .ringCreate c r v => Sys2Proof.Machine.execRingCreate c r v s
  | .ringDisable c r => Sys2Proof.Machine.execRingDisable c r s
  | .ringDrained c r => Sys2Proof.Machine.execRingDrained c r s
  | .contextCreate c v => Sys2Proof.Machine.execContextCreate c v s
  | .contextDestroy c => Sys2Proof.Machine.execContextDestroy c s
  | .pwrSafeClr => Sys2Proof.Machine.execPwrSafeClr s
  | .anlGo => Sys2Proof.Machine.execAnlGo s
  | .hmkAttCmd h => Sys2Proof.Machine.execHmkAttCmd h s
  | .hmkChalRead => Sys2Proof.Machine.execHmkChalRead s
  | .hmkTokenCmd h => Sys2Proof.Machine.execHmkTokenCmd h s
  | .hmkRevoke v => Sys2Proof.Machine.execHmkRevoke v s
  | .hmkSvnCmd => Sys2Proof.Machine.execHmkSvnCmd s
  | .hmkExportLoad => Sys2Proof.Machine.execHmkExportLoad s
  | .trngHealthFail => Sys2Proof.Machine.execTrngHealthFail s
  -- the Blotter
  | .bltModeWrite v => Sys2Proof.Machine.execBltModeWrite v s
  | .bltSnap v => Sys2Proof.Machine.execBltSnap v s
  | .snapTimer => Sys2Proof.Machine.execSnapTimer s
  | .bltMark tag => Sys2Proof.Machine.execBltMark tag s
  | .bltTrig => Sys2Proof.Machine.execBltTrig s
  | .postTriggerEnd => Sys2Proof.Machine.execPostTriggerEnd s
  | .blotterDrain => Sys2Proof.Machine.execBlotterDrain s
  | .bltExpCmd => Sys2Proof.Machine.execBltExpCmd s
  | .exportDone => Sys2Proof.Machine.execExportDone s
  | .bltImpCmd => Sys2Proof.Machine.execBltImpCmd s
  | .bltRplArm => Sys2Proof.Machine.execBltRplArm s
  | .bltRplAbort => Sys2Proof.Machine.execBltRplAbort s
  | .replayStart => Sys2Proof.Machine.execReplayStart s
  | .replayDelivery => Sys2Proof.Machine.execReplayDelivery s
  -- register writes and the events of the table's end
  | .registerWrite h addr bytes v => Sys2Proof.Machine.execRegisterWrite h addr bytes v s
  | .vddkWarnClear => Sys2Proof.Machine.execVddkWarnClear s
  | .pllLockLoss pll => Sys2Proof.Machine.execPllLockLoss pll s
  | .debugReset => Sys2Proof.Machine.execDebugReset s
  | .attestationDone => Sys2Proof.Machine.execAttestationDone s
  | .oscillatorCycle => Sys2Proof.Machine.execOscillatorCycle s
  | .ethLinkDown e => Sys2Proof.Machine.execEthLinkDown e s
  | .grandmasterChange identity => Sys2Proof.Machine.execGrandmasterChange identity s

end Sys2Proof.Machine
end

