-- ==== Sys2Proof/Safety.lean ====
section
/-! DEFINITION. What a safe state and a safe step are, in the terms the statements use: the canonical form of the
memories and of the register file, and the fuses, which only ever move forward. -/

namespace Sys2Proof.Machine

/-- The register file in its canonical form: offsets strictly rising, none at its Cold reset value. -/
def regsWf (t : Tbl Word) : Bool := tblSorted t && t.all (fun e => decide (e.2 ≠ regDefault e.1))

/-- Host memory, the mailbox and the register file are in their canonical forms. -/
def State.canon (s : State) : Prop := memWf s.host = true ∧ memWf s.mailbox = true ∧ regsWf s.regs = true

/-- The transitions of Table 18.5: 0 Blank, 1 Provisioned, 2 Secured, 3 Returned, 4 Scrapped. -/
def transitionListed (a b : Nat) : Bool :=
  match a, b with
  | 0, 1 => true
  | 1, 2 => true
  | 2, 3 => true
  | 0, 4 => true
  | 1, 4 => true
  | 2, 4 => true
  | 3, 4 => true
  | _, _ => false

/-- The lifecycle is a state of Table 18.1, and an intent that waits for the next Cold release is a transition of
Table 18.5. -/
def Fuses.legal (f : Fuses) : Prop := f.lifecycle ≤ 4 ∧ ∀ t, f.intent = some t → transitionListed f.lifecycle t = true

/-- Fuses only move forward: the lifecycle, both anti-rollback versions, the revocation bits, the Anneal records. -/
def Fuses.before (f g : Fuses) : Prop :=
  f.lifecycle ≤ g.lifecycle ∧ f.fwSvn ≤ g.fwSvn ∧ f.cfgSvn ≤ g.cfgSvn ∧ f.revoked ||| g.revoked = g.revoked
  ∧ f.annealUsed ≤ g.annealUsed

/-- A safe state. -/
def State.safe (s : State) : Prop := s.canon ∧ s.fuse.legal

/-- The fields of State. -/
inductive Field where
  | pending
  | freeCtr
  | lt
  | regs
  | latch64
  | parts
  | tiles
  | be
  | ctxs
  | rings
  | journal
  | waiting
  | serveNext
  | host
  | mailbox
  | bme
  | nibs
  | links
  | dports
  | eths
  | partners
  | tu
  | mem
  | rst
  | pwr
  | fuse
  | flash
  | hmk
  | blt
  | anl
  | assay
deriving DecidableEq, Repr

/-- Two states agree on a field. -/
def Field.same (f : Field) (s t : State) : Prop :=
  match f with
  | .pending => t.pending = s.pending
  | .freeCtr => t.freeCtr = s.freeCtr
  | .lt => t.lt = s.lt
  | .regs => t.regs = s.regs
  | .latch64 => t.latch64 = s.latch64
  | .parts => t.parts = s.parts
  | .tiles => t.tiles = s.tiles
  | .be => t.be = s.be
  | .ctxs => t.ctxs = s.ctxs
  | .rings => t.rings = s.rings
  | .journal => t.journal = s.journal
  | .waiting => t.waiting = s.waiting
  | .serveNext => t.serveNext = s.serveNext
  | .host => t.host = s.host
  | .mailbox => t.mailbox = s.mailbox
  | .bme => t.bme = s.bme
  | .nibs => t.nibs = s.nibs
  | .links => t.links = s.links
  | .dports => t.dports = s.dports
  | .eths => t.eths = s.eths
  | .partners => t.partners = s.partners
  | .tu => t.tu = s.tu
  | .mem => t.mem = s.mem
  | .rst => t.rst = s.rst
  | .pwr => t.pwr = s.pwr
  | .fuse => t.fuse = s.fuse
  | .flash => t.flash = s.flash
  | .hmk => t.hmk = s.hmk
  | .blt => t.blt = s.blt
  | .anl => t.anl = s.anl
  | .assay => t.assay = s.assay

/-- The parts of the state a command may change: what its rules name, and what those parts record (registers that count, journal,
memories and Blotter for completions, events and records). -/
def reach : Instr → List Field
  | .doorbellSubmit _ _ _ _ _ | .doorbellCqHead _ _ _ _ | .hostReadFail _ =>
    [.regs, .parts, .tiles, .be, .ctxs, .rings, .journal, .waiting, .host, .mailbox, .nibs, .mem, .blt, .anl,
      .assay]
  | .descriptorFetch _ _ => [.regs, .ctxs, .rings, .journal, .waiting, .serveNext, .host, .mailbox, .blt]
  | .nop _ _ | .resultRead _ _ | .resume _ _ => [.regs, .ctxs, .rings, .journal, .waiting, .host, .mailbox, .blt]
  | .object _ _ => [.parts, .rings]
  | .imageBind _ _ => [.regs, .parts, .ctxs, .rings, .journal, .waiting, .host, .mailbox, .mem, .blt]
  | .bindComplete _ _ => [.regs, .parts, .tiles, .ctxs, .rings, .journal, .waiting, .host, .mailbox, .blt]
  | .imageUnbind _ _ | .unbindAtBoundary _ _ =>
    [.regs, .parts, .tiles, .be, .ctxs, .rings, .journal, .waiting, .host, .mailbox, .nibs, .mem, .blt]
  | .beSolve _ _ => [.regs, .be, .ctxs, .rings, .journal, .waiting, .host, .mailbox, .blt]
  | .beModel _ _ => [.regs, .be, .ctxs, .rings, .journal, .waiting, .host, .mailbox, .mem, .blt]
  | .pause _ _ => [.regs, .parts, .tiles, .be, .ctxs, .rings, .journal, .waiting, .host, .mailbox, .blt, .assay]
  | .journalRelease _ => [.regs, .ctxs, .rings, .journal, .waiting, .host, .mailbox]
  | .functionLoss _ =>
    [.regs, .parts, .tiles, .be, .ctxs, .rings, .journal, .waiting, .host, .mailbox, .bme, .nibs, .mem, .blt,
      .anl, .assay]
  | .warmRecovery _ => [.regs, .ctxs, .rings, .journal, .waiting, .host, .mailbox, .bme, .blt]
  | .dataBlock _ | .updateList _ | .instDecl _ | .instRelease _ | .warmStart _ | .streamSetVerdict _ =>
    [.regs, .parts, .ctxs, .rings, .journal, .waiting, .host, .mailbox, .blt]
  | .commitSetVerdict _ => [.regs, .parts, .be, .ctxs, .rings, .journal, .waiting, .host, .mailbox, .mem, .blt]
  | .cutoff _ _ => [.parts]
  | .launch _ _ | .segmentBoundary _ | .rerunStart _ _ | .beStart _ | .kernelEnd _ | .fpbar _ | .famcall _ =>
    [.regs, .parts, .tiles, .be, .ctxs, .rings, .journal, .waiting, .host, .mailbox, .links, .mem, .blt, .anl,
      .assay]
  | .assayVerdict _ _ | .deadlineTick _ _ | .assayClockFault =>
    [.regs, .parts, .be, .ctxs, .rings, .journal, .waiting, .host, .mailbox, .links, .mem, .blt, .anl, .assay]
  | .release _ _ => [.regs, .parts, .ctxs, .rings, .journal, .waiting, .host, .mailbox, .nibs, .links, .blt]
  | .windowOpen _ _ => [.parts, .tiles, .be, .assay]
  | .killEnd _ =>
    [.regs, .parts, .tiles, .be, .ctxs, .rings, .journal, .waiting, .host, .mailbox, .links, .mem, .pwr, .blt,
      .anl, .assay]
  | .kernelStart _ => [.tiles, .be]
  | .beCommit _ | .bulkHandover _ =>
    [.freeCtr, .regs, .parts, .be, .ctxs, .rings, .journal, .waiting, .host, .mailbox, .links, .mem, .blt,
      .assay]
  | .packetBankWrite _ | .strokeNop _ _ | .mac _ _ | .accadd _ _ | .accWb _ _ | .tmac _ _ | .twb _ _ | .mwadd _ _
  | .mwsub _ _ | .mwmul _ _ | .mwext _ _ | .mwnarrow _ _ | .fadd _ _ | .fsub _ _ | .fmul _ _ | .fma _ _ | .min _ _
  | .max _ _ | .cmpeq _ _ | .cmplt _ _ | .cmple _ _ | .cvt _ _ | .recip _ _ | .rsqrt _ _ | .div _ _ | .cxfer _ _
  | .lcopy _ _ | .dmard _ _ | .dmawr _ _ | .pkt _ _ | .idle _ | .accopen _ | .loop _ | .famret _ | .segend _ =>
    [.tiles]
  | .opRetire _ _ => [.parts, .tiles, .be]
  | .holdEntry => [.parts, .tiles, .be, .rst, .pwr, .blt, .assay]
  | .holdExit =>
    [.regs, .parts, .tiles, .be, .ctxs, .rings, .journal, .waiting, .host, .mailbox, .links, .mem, .rst, .blt,
      .anl, .assay]
  | .reshapeStart => [.parts, .tiles, .be, .anl, .assay]
  | .reshapeEnd =>
    [.regs, .parts, .tiles, .be, .ctxs, .rings, .journal, .waiting, .host, .mailbox, .nibs, .mem, .pwr, .fuse,
      .blt, .anl, .assay]
  | .powerDomainLower _ _ => [.tiles, .pwr]
  | .powerDomainWake _ => [.pwr]
  | .strokeReload _ =>
    [.regs, .parts, .tiles, .be, .ctxs, .rings, .journal, .waiting, .host, .mailbox, .nibs, .mem, .pwr, .blt,
      .assay]
  | .uncorrectableError _ _ =>
    [.regs, .parts, .tiles, .be, .ctxs, .rings, .journal, .waiting, .host, .mailbox, .nibs, .mem, .fuse, .blt,
      .anl, .assay]
  | .scrub _ _ _ => [.regs, .ctxs, .rings, .journal, .waiting, .host, .mailbox, .mem, .fuse, .blt, .anl]
  | .assayKat _ _ => [.regs, .ctxs, .rings, .journal, .waiting, .host, .mailbox, .fuse, .blt, .anl, .assay]
  | .tileKat _ _ => [.regs, .ctxs, .rings, .journal, .waiting, .host, .mailbox, .fuse, .blt, .anl]
  | .tjSample _ => [.regs, .tiles, .ctxs, .rings, .journal, .waiting, .host, .mailbox, .nibs, .rst, .pwr, .blt]
  | .throttleStep | .null _ _ | .fabSemWrite _ _ | .cntClr _ _ | .slotTableWrite _ _ _ _ => [.regs]
  | .powerEstimate _ | .pwrSafeClr => [.regs, .ctxs, .rings, .journal, .waiting, .host, .mailbox, .pwr, .blt]
  | .tjShut _ | .brownout _ | .tamper _ =>
    [.lt, .regs, .latch64, .parts, .tiles, .be, .ctxs, .rings, .journal, .waiting, .serveNext, .mailbox, .bme,
      .nibs, .links, .dports, .eths, .partners, .tu, .mem, .rst, .pwr, .hmk, .blt, .anl, .assay]
  | .nibSample _ | .freeRunSlot _ =>
    [.freeCtr, .regs, .ctxs, .rings, .journal, .waiting, .host, .mailbox, .nibs, .links, .dports, .eths, .blt]
  | .arm _ | .rearm _ | .stop _ | .swap _ | .nibCoefDataAccess _ _ =>
    [.regs, .ctxs, .rings, .journal, .waiting, .host, .mailbox, .nibs, .blt]
  | .dataHandover _ | .nakTimeout _ _ => [.freeCtr, .regs, .links, .blt]
  | .data _ _ => [.freeCtr, .regs, .parts, .nibs, .links, .blt]
  | .bulk _ _ => [.freeCtr, .regs, .parts, .links, .blt]
  | .ident _ _ | .leave _ _ | .down _ | .linkErrors _ | .loopRoleWrite _ => [.regs, .links, .partners, .blt]
  | .linkUp _ _ | .linkAck _ _ => [.freeCtr, .links]
  | .nakLc _ _ | .nakBe _ _ => [.regs, .links]
  | .credit _ _ _ | .replayExpire _ _ | .linkUpTimer _ | .creditTimer _ | .unconfNullTimer _ | .lockAcquired _ =>
    [.links]
  | .portPllLock _ => [.links, .dports, .eths]
  | .safeFrameTimer _ => [.dports]
  | .dpFrameRx _ _ => [.freeCtr, .regs, .parts, .nibs, .blt]
  | .ethStreamRx _ _ => [.freeCtr, .regs, .parts, .nibs, .eths, .partners, .blt]
  | .partnerSilence _ | .approve _ | .reject _ => [.regs, .partners, .blt]
  | .tick => [.lt, .parts, .tu, .blt]
  | .ptpMeasurement _ _ _ | .ethLinkDown _ =>
    [.regs, .ctxs, .rings, .journal, .waiting, .host, .mailbox, .eths, .tu, .blt]
  | .syncInEdge _ _ | .sourceTimeout | .accept | .tuSrcWrite _ | .grandmasterChange _ =>
    [.regs, .ctxs, .rings, .journal, .waiting, .host, .mailbox, .tu, .blt]
  | .syncOutPulse => [.tu]
  | .tuStepCmd _ => [.regs, .tu]
  | .stepApply => [.regs, .parts, .ctxs, .rings, .journal, .waiting, .host, .mailbox, .tu, .blt]
  | .refclkLoss | .rstWarmReq _ | .pllLockLoss _ | .debugReset =>
    [.freeCtr, .regs, .latch64, .parts, .tiles, .be, .ctxs, .rings, .journal, .waiting, .serveNext, .host,
      .mailbox, .bme, .nibs, .links, .dports, .eths, .partners, .tu, .mem, .rst, .pwr, .hmk, .blt, .anl, .assay]
  | .refclkReturn => [.regs, .ctxs, .rings, .journal, .waiting, .host, .mailbox, .tu, .rst, .blt]
  | .resetNLow _ =>
    [.freeCtr, .lt, .regs, .latch64, .parts, .tiles, .be, .ctxs, .rings, .journal, .waiting, .serveNext,
      .mailbox, .bme, .nibs, .links, .dports, .eths, .partners, .tu, .mem, .rst, .pwr, .hmk, .blt, .anl, .assay]
  | .powerOn | .supplyGood _ | .vddkWarnRise | .rstWdogKick | .bootPauseEnd | .vddkWarnClear => [.rst]
  | .watchdogExpire =>
    [.freeCtr, .regs, .latch64, .parts, .tiles, .be, .ctxs, .rings, .journal, .waiting, .serveNext, .host,
      .mailbox, .bme, .nibs, .links, .dports, .eths, .partners, .tu, .mem, .rst, .pwr, .fuse, .hmk, .blt, .anl,
      .assay]
  | .rstPartReq _ => [.freeCtr, .regs, .parts, .tiles, .be, .nibs, .links, .dports, .eths, .mem, .rst, .blt, .assay]
  | .rstPortReq _ =>
    [.regs, .ctxs, .rings, .journal, .waiting, .host, .mailbox, .links, .dports, .eths, .partners, .tu, .rst,
      .blt]
  | .coldRelease _ =>
    [.freeCtr, .regs, .ctxs, .rings, .journal, .waiting, .host, .mailbox, .rst, .fuse, .hmk, .blt, .anl]
  | .warmRelease _ => [.freeCtr, .regs, .ctxs, .rings, .journal, .waiting, .host, .mailbox, .rst, .fuse, .blt, .anl]
  | .partitionRelease _ _ => [.regs, .ctxs, .rings, .journal, .waiting, .host, .mailbox, .rst, .blt]
  | .portRelease _ => [.regs, .ctxs, .rings, .journal, .waiting, .host, .mailbox, .rst, .fuse, .blt, .anl]
  | .enable _ => [.regs, .parts, .tiles, .mem, .pwr]
  | .disable _ => [.regs, .parts, .tiles, .mem]
  | .reshape _ | .fabPartCutoffWrite _ _ => [.regs, .parts]
  | .launchEntryEnable _ _ _ | .replayStart => [.regs, .parts, .blt]
  | .launchEntryDisable _ _ _ =>
    [.regs, .parts, .tiles, .ctxs, .rings, .journal, .waiting, .host, .mailbox, .nibs, .blt, .assay]
  | .ducBindWrite _ _ _ _ => [.regs, .latch64]
  | .ringCreate _ _ _ => [.freeCtr, .regs, .rings, .bme]
  | .ringDisable _ _ | .ringDrained _ _ => [.rings]
  | .contextCreate _ _ | .contextDestroy _ => [.regs, .ctxs]
  | .anlGo => [.anl]
  | .hmkAttCmd _ => [.regs, .hmk]
  | .hmkChalRead | .trngHealthFail | .bltExpCmd =>
    [.freeCtr, .regs, .ctxs, .rings, .journal, .waiting, .host, .mailbox, .hmk, .blt]
  | .hmkTokenCmd _ =>
    [.lt, .regs, .latch64, .parts, .tiles, .be, .ctxs, .rings, .journal, .waiting, .serveNext, .mailbox, .bme,
      .nibs, .links, .dports, .eths, .partners, .tu, .mem, .rst, .pwr, .fuse, .hmk, .blt, .anl, .assay]
  | .hmkRevoke _ => [.regs, .fuse]
  | .hmkSvnCmd => [.fuse]
  | .hmkExportLoad => [.hmk]
  | .bltModeWrite _ => [.freeCtr, .regs, .blt]
  | .bltSnap _ | .snapTimer | .bltMark _ | .bltTrig | .postTriggerEnd | .blotterDrain | .bltRplAbort => [.blt]
  | .exportDone => [.regs, .host, .hmk, .blt]
  | .bltImpCmd | .bltRplArm => [.regs, .blt]
  | .replayDelivery => [.parts, .nibs, .blt]
  | .registerWrite _ _ _ _ =>
    [.freeCtr, .lt, .regs, .latch64, .parts, .tiles, .be, .ctxs, .rings, .journal, .waiting, .serveNext, .host,
      .mailbox, .bme, .nibs, .links, .dports, .eths, .partners, .tu, .mem, .rst, .pwr, .fuse, .hmk, .blt, .anl,
      .assay]
  | .attestationDone => [.host, .mailbox, .hmk]
  | .oscillatorCycle => [.lt, .tu]

/-- The commands that are a host's write of a register (R464). -/
def hostWrites : Instr → Bool
  | .arm _ | .rearm _ | .stop _ | .swap _ | .nibCoefDataAccess _ (some _) | .approve _ | .reject _ | .loopRoleWrite _
  | .tuStepCmd _ | .accept | .tuSrcWrite _ | .rstWdogKick | .rstWarmReq _ | .rstPartReq _ | .rstPortReq _ | .enable _
  | .disable _ | .reshape _ | .fabPartCutoffWrite _ _ | .fabSemWrite _ _ | .cntClr _ _ | .launchEntryEnable _ _ _
  | .launchEntryDisable _ _ _ | .slotTableWrite _ _ _ _ | .ducBindWrite _ _ _ _ | .ringCreate _ _ _
  | .ringDisable _ _ | .contextCreate _ _ | .contextDestroy _ | .pwrSafeClr | .anlGo | .hmkAttCmd _ | .hmkTokenCmd _
  | .hmkRevoke _ | .hmkSvnCmd | .hmkExportLoad | .bltModeWrite _ | .bltSnap _ | .bltMark _ | .bltTrig | .bltExpCmd
  | .bltImpCmd | .bltRplArm | .bltRplAbort | .registerWrite _ _ _ _ => true
  | _ => false

end Sys2Proof.Machine
end

