-- ==== Sys2Proof/Certificates/Slice0/Obligations.lean ====
section
/-! DEFINITION. The statements for the provers: each says what a command, or the block as a whole, does by the numbered rules of
the spec. -/

open Sys2Proof Sys2Proof.Machine

-- the block as a whole

/-- A step takes the command at the front of the queue and is exec of it on the state with the rest of the queue. -/
def Obligations.StepRunsTheFrontCommand : Prop :=
  ∀ (c : Instr) (rest : List Instr) (s : State), s.pending = c :: rest → step s = exec c { s with pending := rest }

/-- With nothing queued a step changes nothing; the model's choice (assumption 1). -/
def Obligations.EmptyQueueIdles : Prop := ∀ s : State, s.pending = [] → step s = .next s

/-- The state of Cold reset is safe: its memories are in canonical form and its fuses legal; T is 0, INCR is 2.5 ns, the servo is
FREERUN, every register reads its Cold value and no partition, ring or context is on. -/
def Obligations.ResetStateIsSafe : Prop :=
  State.reset.safe ∧ State.reset.rst.phase = .coldReset ∧ State.reset.tu.t = 0 ∧ State.reset.tu.incr = 0x280000000
  ∧ State.reset.tu.st = .freerun ∧ (∀ off, regGet State.reset off = regDefault off)
  ∧ (∀ p, (getPart State.reset p).on = false) ∧ (∀ c, (getCtx State.reset c).on = false)
  ∧ (∀ c r, (getRing State.reset c r).st = .uncreated)

/-- Every step from a safe state ends in a safe state: host memory, the mailbox and the register file keep their canonical forms, and
a fused intent stays a transition of Table 18.5. -/
def Obligations.StepKeepsSafe : Prop := ∀ s t : State, s.safe → step s = .next t → t.safe

/-- No step of a safe state takes the fuses back: the lifecycle state, both anti-rollback versions and the number of Anneal records
never fall, and a revoked owner key stays revoked. -/
def Obligations.StepMovesFusesForward : Prop := ∀ s t : State, s.safe → step s = .next t → s.fuse.before t.fuse

/-- No command touches the queue of waiting commands. -/
def CommandsLeaveTheQueue : Prop := ∀ (c : Instr) (s t : State), exec c s = .next t → t.pending = s.pending

/-- Every command answers a next state in every state: the block never stops. -/
def EveryCommandAnswers : Prop := ∀ (c : Instr) (s : State), ∃ t, exec c s = .next t

/-- Every command answers a next state, with the queue of waiting commands untouched. -/
def Obligations.CommandsAnswerInOneStep : Prop :=
  CommandsLeaveTheQueue ∧ EveryCommandAnswers

/-- Frame: a command leaves every part of the state outside its reach as it was. So a command whose reach does not hold host memory
or the mailbox leaves every byte of it unchanged, and the fuses change only by the commands that name them. -/
def Obligations.CommandsStayInTheirReach : Prop :=
  ∀ (c : Instr) (s t : State) (f : Field), exec c s = .next t → f ∉ reach c → f.same s t

/-- In BOOT_FAIL no host write of a register has an effect (R464). -/
def BootFailIgnoresHostWrites : Prop :=
  ∀ (c : Instr) (s : State), hostWrites c = true → s.rst.phase = .bootFail → exec c s = .next s

/-- BOOT_FAIL is left only by a Cold reset (R464). -/
def BootFailEndsOnlyByColdReset : Prop :=
  ∀ (c : Instr) (s t : State), s.rst.phase = .bootFail → exec c s = .next t →
    t.rst.phase = .bootFail ∨ t.rst.phase = .coldReset

/-- BOOT_FAIL ignores host writes and is left only by a Cold reset (R464). -/
def Obligations.BootFailHolds : Prop :=
  BootFailIgnoresHostWrites ∧ BootFailEndsOnlyByColdReset

-- the host interface

/-- A tail doorbell of an ENABLED ring whose GEN is the ring's and whose index lies ahead of the tail, by no more than the ring's size
past the commit index, moves the tail and nothing else; one with another GEN, or an index not ahead, changes only HQ_DB_STALE; an
overrun tears the context down (R351). -/
def TailDoorbell : Prop :=
  ∀ (f : FuncId) (page : Fin 64) (r : Fin 8) (v : Word64) (c : Nat) (s : State),
    isReady s = true → pageCtx s f.val page.val = some c → (getRing s c r.val).st = .enabled →
    ((v.toNat / 2 ^ 56 = (getRing s c r.val).gen.toNat → ahead (lo32 v) (getRing s c r.val).tail = true →
        (lo32 v - (getRing s c r.val).cmp).toNat ≤ 2 ^ (getRing s c r.val).log2 →
        exec (.doorbellSubmit f page (8 * r.val) 8 v) s = .next (setRing s c r.val { getRing s c r.val with tail := lo32 v }))
      ∧ (v.toNat / 2 ^ 56 ≠ (getRing s c r.val).gen.toNat ∨ ahead (lo32 v) (getRing s c r.val).tail = false →
        exec (.doorbellSubmit f page (8 * r.val) 8 v) s = .next (bump s (ctxOff c 0x144)))
      ∧ (v.toNat / 2 ^ 56 = (getRing s c r.val).gen.toNat → ahead (lo32 v) (getRing s c r.val).tail = true →
        2 ^ (getRing s c r.val).log2 < (lo32 v - (getRing s c r.val).cmp).toNat →
        exec (.doorbellSubmit f page (8 * r.val) 8 v) s = .next (teardown s c 3)))

/-- A head doorbell with the completion ring's GEN and an index ahead of the consumed head, not past the tail, moves the consumed head
and clears the interrupt condition; any other changes only HQ_DB_STALE, and the context is not torn down (R351). -/
def CompletionHeadDoorbell : Prop :=
  ∀ (f : FuncId) (page : Fin 64) (v : Word64) (c : Nat) (s : State),
    isReady s = true → pageCtx s f.val page.val = some c →
    ((v.toNat / 2 ^ 56 = (getCtx s c).cqGen.toNat → ahead (lo32 v) (getCtx s c).cqHead = true →
        (lo32 v - (getCtx s c).cqHead).toNat ≤ ((getCtx s c).cqTail - (getCtx s c).cqHead).toNat →
        exec (.doorbellCqHead f page 8 v) s = .next (setCtx s c { getCtx s c with cqHead := lo32 v, notify := false }))
      ∧ (v.toNat / 2 ^ 56 ≠ (getCtx s c).cqGen.toNat ∨ ahead (lo32 v) (getCtx s c).cqHead = false
          ∨ ((getCtx s c).cqTail - (getCtx s c).cqHead).toNat < (lo32 v - (getCtx s c).cqHead).toNat →
        exec (.doorbellCqHead f page 8 v) s = .next (bump s (ctxOff c 0x144))))

/-- Both doorbells of a page: the submission tail and the completion head (R351). -/
def Obligations.DoorbellsMoveTheirIndices : Prop :=
  TailDoorbell ∧ CompletionHeadDoorbell

/-- The sixteen words a ring holds at its acceptance index. -/
def nextDescriptor (s : State) (c r : Nat) : List Word :=
  memWords (hostMem s (getCtx s c))
    ((getRing s c r).base.toNat + 64 * ((getRing s c r).acc.toNat % 2 ^ (getRing s c r).log2)) 16

/-- A completion group of n slots of a context enters the journal at once: none waits before it and it finds space (R358). -/
def JournalRoom (s : State) (c n : Nat) : Prop := s.waiting = [] ∧ fitsJournal s c n = true

/-- The ring the round robin of R357 serves next reads 1 to 4 descriptors, and the round robin goes on behind it; another ring's turn
changes nothing. Of one descriptor: if it passes checks 1 to 6 of Table 13.6 it becomes the last item of the ring, ACC_IDX moves past it,
and only the ring, the round robin and the Blotter change (R356); if it fails it has no other effect than the status and cause of the first
failed check, which complete it once it is at the head of its ring: at once where the ring is empty and the journal has room (R355). -/
def Obligations.DescriptorAcceptance : Prop :=
  ∀ (c : CtxId) (r : RingId) (s : State),
    let k := 8 * c.val + r.val
    let g := getRing s c.val r.val
    let ws := nextDescriptor s c.val r.val
    let i : Item := ⟨g.acc, ws, none, false, s.lt⟩
    let u : State := { s with serveNext := (k + 1) % 512 }
    (fetchTurn s ≠ some k → exec (.descriptorFetch c r) s = .next s)
      ∧ (fetchTurn s = some k →
        (∃ t n, exec (.descriptorFetch c r) s = .next t ∧ 1 ≤ n ∧ n ≤ 4 ∧ t.serveNext = (k + 1) % 512
          ∧ (getRing t c.val r.val).acc = g.acc + BitVec.ofNat 32 n ∧ (getRing t c.val r.val).tail = g.tail)
        ∧ (g.tail = g.acc + 1 → (∀ j ∈ g.items, j.early = none) →
          (descChecks (getCtx s c.val) g i = none →
              exec (.descriptorFetch c r) s = .next (bltRecord
                (setRing u c.val r.val { g with
                  acc := g.acc + 1, items := g.items ++ [i], headTick := if g.items = [] then s.lt else g.headTick })
                kDesc c.val (lc s) ws))
          ∧ (∀ st cause, descChecks (getCtx s c.val) g i = some (st, cause) →
            (g.items = [] → JournalRoom s c.val 1 →
              ∃ t, exec (.descriptorFetch c r) s = .next t ∧ (getRing t c.val r.val).acc = g.acc + 1
                ∧ (getRing t c.val r.val).items = [] ∧ (getRing t c.val r.val).cmp = g.cmp + 1
                ∧ regGet t (ringOff c.val r.val 0x1C) = (if st = stStale then regGet (bump s (ringOff c.val r.val 0x1C)) (ringOff c.val r.val 0x1C)
                    else regGet s (ringOff c.val r.val 0x1C)))
            ∧ (g.items ≠ [] →
              ∃ t, exec (.descriptorFetch c r) s = .next t ∧ (getRing t c.val r.val).acc = g.acc + 1
                ∧ (getRing t c.val r.val).items = g.items ++ [{ i with early := some (st, cause) }]
                ∧ (getRing t c.val r.val).cmp = g.cmp))))

/-- An item at the head of a ring that may begin, of an opcode, with no item behind it. -/
def OnlyItem (s : State) (c r op : Nat) (i : Item) : Prop := headOp s c r op = some i ∧ (getRing s c r).items = [i]

/-- A ring after its only item has completed: empty, the commit index one further, nothing else of it changed but the head tick; `paused`
is its pause then. -/
def Completed (s t : State) (c r : Nat) (paused : Bool) : Prop :=
  getRing t c r = { getRing s c r with items := [], cmp := (getRing s c r).cmp + 1, headTick := s.lt, paused := paused }

/-- NOP completes, and while its group finds no room in the journal it waits with the commit index short of it (R358). A PAUSE of a ring
whose head is not running and a RESUME set and clear the named ring's pause and complete; a PAUSE of one whose head is running kills that
command for its re-run and completes when the kill ends (R352, R353). -/
def ControlOpcodesComplete : Prop :=
  ∀ (c : CtxId) (r : RingId) (i : Item) (s : State),
    let p := (getCtx s c.val).part
    (OnlyItem s c.val r.val 0x00 i →
        (JournalRoom s c.val 1 → ∃ t, exec (.nop c r) s = .next t ∧ Completed s t c.val r.val (getRing s c.val r.val).paused
          ∧ ∀ d q, q < 8 → (d, q) ≠ (c.val, r.val) → getRing t d q = getRing s d q)
        ∧ (¬ JournalRoom s c.val 1 → ∃ t w, exec (.nop c r) s = .next t ∧ t.waiting = s.waiting ++ [w] ∧ w.ctx = c.val
          ∧ w.item = some (r.val, (getRing s c.val r.val).gen) ∧ t.journal = s.journal ∧ (getRing t c.val r.val).items = []
          ∧ (getRing t c.val r.val).cmp = (getRing s c.val r.val).cmp))
      ∧ (OnlyItem s c.val r.val 0x07 i → JournalRoom s c.val 1 →
        (getPart s p).holder ≠ some (.ring (8 * c.val + i.slot)) →
        ∃ t, exec (.pause c r) s = .next t
          ∧ Completed s t c.val r.val (if i.slot = r.val then true else (getRing s c.val r.val).paused)
          ∧ (getRing t c.val i.slot).paused = true
          ∧ (i.slot ≠ r.val → (getRing t c.val i.slot).items = (getRing s c.val i.slot).items))
      ∧ (∀ b, OnlyItem s c.val r.val 0x07 i → i.slot ≠ r.val → (getPart s p).holder = some (.ring (8 * c.val + i.slot)) →
        (getPart s p).kill = none → getBe s (8 * c.val + i.slot) = some b →
        ∃ t d, exec (.pause c r) s = .next t ∧ (getRing t c.val i.slot).paused = true
          ∧ (getPart t p).kill = some ⟨.ring (8 * c.val + i.slot), .pause, true, [(c.val, r.val)]⟩
          ∧ (getRing t c.val r.val).items = [{ i with begun := true }]
          ∧ getBe t (8 * c.val + i.slot) = some d ∧ d.cmd.st = .waitRerun)
      ∧ (OnlyItem s c.val r.val 0x08 i → JournalRoom s c.val 1 →
        ∃ t, exec (.resume c r) s = .next t
          ∧ Completed s t c.val r.val (if i.slot = r.val then false else (getRing s c.val r.val).paused)
          ∧ (getRing t c.val i.slot).paused = false
          ∧ (i.slot ≠ r.val → (getRing t c.val i.slot).headTick = (getRing s c.val i.slot).headTick))

/-- An OBJECT at the head of its ring is read and stands at its partition's gate: behind every item that arrived in an earlier tick, with
no item lost or changed; its item has begun and is not yet complete (R44, R352). -/
def ObjectGoesToTheGate : Prop :=
  ∀ (c : CtxId) (r : RingId) (i : Item) (s : State), headOp s c.val r.val 0x01 = some i →
    ∃ t, exec (.object c r) s = .next t
      ∧ (∃ g, (getPart t (getCtx s c.val).part).gate = gateInsert g (getPart s (getCtx s c.val).part).gate ∧ g.tick = s.lt
          ∧ g.src = .host c.val r.val i.seq.toNat ∧ g.words = memWords (hostMem s (getCtx s c.val)) i.addr (i.bytes / 4)
          ∧ g.slot = i.slot)
      ∧ (getRing t c.val r.val).items = { i with begun := true } :: (getRing s c.val r.val).items.drop 1
      ∧ t.host = s.host ∧ t.mailbox = s.mailbox

/-- NOP, PAUSE, RESUME and OBJECT at the head of a ring (R44, R352, R353). -/
def Obligations.HostItemsBeginOrComplete : Prop :=
  ControlOpcodesComplete ∧ ObjectGoesToTheGate

/-- RESULT_READ of an admitted instance of a SOLVE slot: with a commit since admission, its last words and then the eight words of
its certificate are stored at ADDR and the item completes OK, DETAIL the bytes written; with none, nothing is stored and DETAIL is 0
(R354). -/
def Obligations.ResultReadCopiesTheLastCommit : Prop :=
  ∀ (c : CtxId) (r : RingId) (i : Item) (n : Inst) (s : State),
    let x := getCtx s c.val
    headOp s c.val r.val 0x04 = some i → resultReadCheck (getPart s x.part) i = .inr n →
    (∀ ws, n.lastWords = some ws →
        exec (.resultRead c r) s = .next (completeItem (hostStore s x i.addr (ws ++ certSlot n.lastCert)) c.val r.val stOk 0
          (BitVec.ofNat 32 (4 * ws.length + 32)) 0 [] 0))
      ∧ (n.lastWords = none → exec (.resultRead c r) s = .next (completeItem s c.val r.val stOk 0 0 0 [] 0))

/-- The oldest group of a context in the journal leaves it when it is delivered: at once over PCIe, on the control port once the head
doorbell has passed its last slot. Until then the journal keeps it. A group that waited for the space enters, and with it the commit index
passes its item (R358). -/
def Obligations.JournalReleasesDeliveredGroups : Prop :=
  ∀ (c : CtxId) (g : JGroup) (s : State), s.journal.find? (fun h => h.ctx == c.val) = some g →
    let passed := ((getCtx s c.val).cqHead - g.pos).toNat
    let left : State := { s with journal := dropGroup s.journal c.val }
    ((getCtx s c.val).func ≠ 16 ∨ (g.slots.length ≤ passed ∧ passed < 2 ^ 31) →
        (s.waiting = [] → exec (.journalRelease c) s = .next left)
        ∧ (∀ w r, s.waiting = [w] → r < 8 → w.item = some (r, (getRing s w.ctx r).gen) → fitsJournal left w.ctx (1 + w.exts.length) = true →
          ∃ t, exec (.journalRelease c) s = .next t ∧ t.waiting = [] ∧ (getRing t w.ctx r).cmp = (getRing s w.ctx r).cmp + 1))
      ∧ ((getCtx s c.val).func = 16 → passed < g.slots.length → exec (.journalRelease c) s = .next s)

/-- Groups of a ring's items that wait for the journal (R358). -/
def owed (s : State) (c r : Nat) : Nat :=
  (s.waiting.filter (fun w => decide (w.ctx = c ∧ w.item = some (r, (getRing s c r).gen)))).length

/-- A ring whose open items have all been completed in order: those whose groups found room in the journal moved its commit index, the
others wait (R358, R366); its state is HALTED unless it was UNCREATED or LOST. -/
def RingHalted (s t : State) (c r : Nat) : Prop :=
  (getRing t c r).items = []
    ∧ (getRing t c r).cmp + BitVec.ofNat 32 (owed t c r)
        = (getRing s c r).cmp + BitVec.ofNat 32 (owed s c r + (getRing s c r).items.length)
    ∧ (getRing t c r).st = (if (getRing s c r).st = .uncreated ∨ (getRing s c r).st = .lost then (getRing s c r).st else .halted)

/-- A failed host read tears its context down: every submission ring is HALTED unless it was UNCREATED or LOST, each accepted item has
been completed in order, the rings of every other context are as they were, and one fault record is written; with no context there is
nothing to tear down (R337, R338, R367). -/
def HostReadFailTearsTheContextDown : Prop :=
  ∀ (c : CtxId) (s : State),
    ((getCtx s c.val).on = true →
      ∃ t, exec (.hostReadFail c) s = .next t ∧ t.anl.index = s.anl.index + 1
        ∧ (∀ r < 8, RingHalted s t c.val r)
        ∧ (∀ d r, d ≠ c.val → r < 8 → getRing t d r = getRing s d r))
    ∧ ((getCtx s c.val).on = false → exec (.hostReadFail c) s = .next s)

/-- The loss of a PCIe function, or of PF0 and every function with it, clears Bus Master Enable; each context on a lost function is
torn down with no completion: its rings hold no item and are LOST unless UNCREATED, and no group of it is left in the journal, before it or
among the launches still being judged. The rings of every other context keep their items and states (R370; Bus Master Enable is PRESUMED,
assumption 52). -/
def FunctionLossDropsItsContexts : Prop :=
  ∀ (f : Fin 16) (s : State), ∃ t, exec (.functionLoss f) s = .next t
    ∧ (∀ k < 16, t.bme.getLsbD k = (s.bme.getLsbD k && decide (f.val ≠ 0 ∧ k ≠ f.val)))
    ∧ (∀ c < 64, (getCtx s c).on = true → (getCtx s c).func ≠ 16 → (f.val = 0 ∨ (getCtx s c).func = f.val) →
        (∀ r < 8, (getRing t c r).items = [] ∧ (getRing t c r).cmp = (getRing s c r).acc
          ∧ (getRing t c r).st = (if (getRing s c r).st = .uncreated then .uncreated else .lost))
        ∧ (∀ g ∈ t.journal, g.ctx ≠ c) ∧ (∀ w ∈ t.waiting, w.ctx ≠ c)
        ∧ (∀ a ∈ (getPart t (getCtx s c).part).awaits, a.grp.ctx ≠ c))
    ∧ (∀ c < 64, (getCtx s c).on = false ∨ (getCtx s c).func = 16 ∨ (f.val ≠ 0 ∧ (getCtx s c).func ≠ f.val) → ∀ r < 8,
        (getRing t c r).items = (getRing s c r).items ∧ (getRing t c r).st = (getRing s c r).st
        ∧ (s.waiting = [] → getRing t c r = getRing s c r))

/-- The first context that waits after a Warm reset recovers: it waits no more, its function is bus master, and each of its rings that was
not UNCREATED or LOST is HALTED with every open item completed; a later context waits for its turn (R369). -/
def WarmRecoveryHaltsTheRings : Prop :=
  ∀ (c : CtxId) (s : State),
    (isReady s = true → (getCtx s c.val).recover = true → (∀ d < c.val, (getCtx s d).recover = false) →
      ∃ t, exec (.warmRecovery c) s = .next t ∧ (getCtx t c.val).recover = false
        ∧ ((getCtx s c.val).func < 16 → t.bme.getLsbD (getCtx s c.val).func = true)
        ∧ ∀ r < 8, RingHalted s t c.val r)
    ∧ ((∃ d < c.val, (getCtx s d).recover = true) → exec (.warmRecovery c) s = .next s)

/-- The three ways a context loses its work: a failed host read, the loss of its function, and a Warm reset (R338, R367, R369, R370). -/
def Obligations.ContextsAreTornDown : Prop :=
  HostReadFailTearsTheContextDown ∧ FunctionLossDropsItsContexts ∧ WarmRecoveryHaltsTheRings

-- the range gate

/-- A host object at the head of a partition's gate that passes steps 1 to 9 of Table 02.7a against an image. -/
def ObjectInTurn (s : State) (p : Nat) (g : GateItem) (im : Image) : Prop :=
  gateHead s p = some g ∧ (∃ c r q, g.src = .host c r q) ∧ hostSteps (getPart s p) g = .inr im

/-- A set has been queued: it has the next acceptance number and stands at its instance's tail; the object has left the gate and
nothing else of the partition has changed (R45, R360). -/
def Queued (s t : State) (p : Nat) (g : GateItem) (i : Inst) (vals : List (Nat × Word)) (w : Option WarmStart) : Prop :=
  regGet t (fabOff p 0x3C) = nextAsn s p
    ∧ getPart t p = { (getPart s p).putInst { i with queue := i.queue ++ [⟨nextAsn s p, vals, w, count s p⟩] } with
        gate := (getPart s p).gate.erase g }

/-- An accepted data block, update list or warm start is queued whole for its instance (R41, R42, R53, R569). -/
def AcceptedObjectsAreQueued : Prop :=
  ∀ (p : PartId) (g : GateItem) (im : Image) (i : Inst) (vals : List (Nat × Word)) (s : State),
    ObjectInTurn s p.val g im → (getPart s p.val).inst? g.inst = some i →
    ((g.kind ≤ 0x0D ∨ kindDefined g.kind = false) → hostSet s p.val g im = .inr vals →
        ∃ t, exec (.dataBlock p) s = .next t ∧ Queued s t p.val g i vals none)
      ∧ (g.kind = 0x30 → hostSet s p.val g im = .inr vals →
        ∃ t, exec (.updateList p) s = .next t ∧ Queued s t p.val g i vals none)
      ∧ (g.kind = 0x31 → (∀ w ∈ g.payload.drop im.w, w = 0) →
        ∃ t, exec (.warmStart p) s = .next t
          ∧ Queued s t p.val g i [] (some ⟨g.sig, g.arg2.toNat, g.payload.take im.w⟩))

/-- A set from the host that the gate refuses, in its header or for any one of its values, has no effect on the partition but to
leave its gate: no instance changes, no set is queued and no acceptance number is used (R42, R43). -/
def RefusedSetsChangeNothing : Prop :=
  ∀ (p : PartId) (g : GateItem) (c r q : Nat) (e : Refused) (s : State),
    gateHead s p.val = some g → g.src = .host c r q → g.asn = 0 →
    let refused := fun (a : Instr) => ∃ t, exec a s = .next t
      ∧ getPart t p.val = { getPart s p.val with gate := (getPart s p.val).gate.erase g }
      ∧ regGet t (fabOff p.val 0x3C) = regGet s (fabOff p.val 0x3C)
    ((hostSteps (getPart s p.val) g = .inl e ∨ (∃ im, hostSteps (getPart s p.val) g = .inr im ∧ hostSet s p.val g im = .inl e)) →
        ((g.kind ≤ 0x0D ∨ kindDefined g.kind = false) → refused (.dataBlock p)) ∧ (g.kind = 0x30 → refused (.updateList p)))
      ∧ (hostSteps (getPart s p.val) g = .inl e
          ∨ (∃ im, hostSteps (getPart s p.val) g = .inr im ∧ (g.payload.drop im.w).any (fun w => w != 0) = true) →
        g.kind = 0x31 → refused (.warmStart p))

/-- A set of the host is queued whole or changes nothing (R41, R42, R43, R53, R569). -/
def Obligations.HostSetsAreQueuedOrRefused : Prop :=
  AcceptedObjectsAreQueued ∧ RefusedSetsChangeNothing

/-- A host object with a superseded incarnation, else in order to step 7, completes FAIL_ADMIT, cause INCARNATION, and is counted in
the partition's stale-object counter (R62). -/
def Obligations.SupersededIncarnationIsRefused : Prop :=
  ∀ (p : PartId) (g : GateItem) (im : Image) (i : Inst) (c r q : Nat) (s : State),
    gateHead s p.val = some g → g.src = .host c r q → g.asn = 0 → g.kind = 0x30 → fld (g.hw 0) 31 28 = 1 →
    ((getPart s p.val).slot g.slot).img = some im → headerOk g (some im) = true → lengthOk g (some im) = true →
    kindSuits g.kind im = true → g.sig = im.hdr.sig → (getPart s p.val).inst? g.inst = some i → i.released = false →
    i.slot = g.slot → g.incarn ≠ i.incarn →
    exec (.updateList p) s = .next (completeItem (setRecord (bump (popGate s p.val g) (fabOff p.val 0x28)) p.val g stAdmit 2 0 [])
      c r stAdmit 2 0 0 [] 0)

/-- An INST_DECL that passes every rule of R59 adds one instance, with its reservation, the defaults of the entry table in its Assay
copy, an empty queue and no commit (R37, R59, R60). -/
def DeclarationAdmitsAnInstance : Prop :=
  ∀ (p : PartId) (g : GateItem) (im : Image) (c r q : Nat) (s : State),
    ObjectInTurn s p.val g im → g.src = .host c r q → g.kind = 0x20 → admitCause (getPart s p.val) g im = none →
    ∃ t j, exec (.instDecl p) s = .next t ∧ (getPart t p.val).insts = (getPart s p.val).insts ++ [j]
      ∧ j.num = g.inst ∧ j.incarn = g.incarn ∧ j.ctx = c ∧ j.slot = g.slot ∧ j.bytes = im.reservation
      ∧ j.assay = im.entries.map (fun e => e.dflt) ∧ j.queue = [] ∧ j.warm = none ∧ j.commits = 0 ∧ j.released = false
      ∧ tblGet none (getPart t p.val).lastIncarn g.inst = some g.incarn

/-- An accepted INST_RELEASE drops the queued sets; the instance is gone at once when no command runs on it, and else stays, marked
released, until its step ends (R64). -/
def ReleaseFreesAtTheStepBoundary : Prop :=
  ∀ (p : PartId) (g : GateItem) (im : Image) (i : Inst) (s : State),
    ObjectInTurn s p.val g im → g.kind = 0x21 → (getPart s p.val).inst? g.inst = some i →
    ∃ t, exec (.instRelease p) s = .next t
      ∧ (getPart t p.val).inst? g.inst
          = (if instBusy s p.val g.inst then some { i with released := true, queue := [] } else none)

/-- INST_DECL admits an instance and INST_RELEASE frees it (R37, R59, R60, R64). -/
def Obligations.InstancesComeAndGo : Prop :=
  DeclarationAdmitsAnInstance ∧ ReleaseFreesAtTheStepBoundary

/-- A stream frame's set that the gate accepts is queued; one it refuses changes no instance and is counted in the stream's refusal
counter (R43, R375). -/
def StreamSetsAreJudged : Prop :=
  ∀ (p : PartId) (g : GateItem) (num q : Nat) (s : State),
    gateHead s p.val = some g → g.src = .stream num q → num < 88 → g.asn = 0 →
    (∀ vals i, judgeStream s p.val g = .inr vals → (getPart s p.val).inst? g.inst = some i →
        ∃ t, exec (.streamSetVerdict p) s = .next t ∧ Queued s t p.val g i vals none)
      ∧ (∀ e, judgeStream s p.val g = .inl e →
        ∃ t, exec (.streamSetVerdict p) s = .next t
          ∧ getPart t p.val = { getPart s p.val with gate := (getPart s p.val).gate.erase g }
          ∧ regGet t (strmOff num 0x18) = BitVec.ofNat 32 (satInc 32 (regGet s (strmOff num 0x18)).toNat))

/-- A device-commit set that the gate accepts is queued; one it refuses gives its target no value and sets UPSTREAM_REFUSED for the
target's next launch (R43, R92). -/
def CommitSetsAreJudged : Prop :=
  ∀ (p : PartId) (g : GateItem) (k id target j l : Nat) (i : Inst) (s : State),
    gateHead s p.val = some g → g.src = .commit k id target j l → (getPart s p.val).inst? g.inst = some i →
    (∀ vals, judgeCommit s p.val g = .inr vals →
        ∃ t, exec (.commitSetVerdict p) s = .next t
          ∧ (getPart t p.val).inst? g.inst = some { i with queue := i.queue ++ [⟨nextAsn s p.val, vals, none, count s p.val⟩] }
          ∧ (getPart t p.val).gate = (getPart s p.val).gate.erase g)
      ∧ (∀ e, judgeCommit s p.val g = .inl e →
        ∃ t, exec (.commitSetVerdict p) s = .next t
          ∧ (getPart t p.val).inst? g.inst = some (if i.slot = g.slot then { i with upRefused := true } else i)
          ∧ (getPart t p.val).gate = (getPart s p.val).gate.erase g)

/-- The sets that come from streams and from other commits (R43, R92, R375). -/
def Obligations.DeviceSetsAreJudged : Prop :=
  StreamSetsAreJudged ∧ CommitSetsAreJudged

-- launches

/-- At its cutoff, with the device able to launch and no command or check of its instance open, a stand-alone SOLVE entry's instance
takes whole sets from the head of its queue, of those accepted at or before the cutoff tick, up to 64 entries per tick of TICKS; with one
open it takes none, and the launch is blocked; in Hold, the safe state or a re-shape the sets wait (R45, R46, R48). -/
def Obligations.CutoffTakesWholeSets : Prop :=
  ∀ (p : PartId) (j : EntryId) (i : Inst) (im : Image) (s : State),
    let e := getRun s p.val j.val
    let ticks := ticksEff s p.val
    e.on = true → e.cutDone = false → e.next ≤ count s p.val + ticks → isReplay s p.val = false →
    (getSlot s p.val (entryImg s p.val j.val)).img = some im → im.isModel = false →
    entryMembers s p.val j.val (e.next - ticks) = [i] → (getPart s p.val).inst? i.num = some i → i.slot = entryImg s p.val j.val →
    let cut := e.next - ticks
    (instHeld s p.val i.num = false → inHold s = false → s.pwr.safe = false → (getPart s p.val).reshaping = false →
        ∃ t, exec (.cutoff p j) s = .next t ∧ getRun t p.val j.val = { e with cutDone := true, cutBlocked := false, cutTick := cut }
          ∧ (getPart t p.val).inst? i.num = some (i.takeCut im (takeSets (64 * ticks) cut [] i.queue)))
      ∧ (instHeld s p.val i.num = true →
        ∃ t, exec (.cutoff p j) s = .next t ∧ getRun t p.val j.val = { e with cutDone := true, cutBlocked := true, cutTick := cut }
          ∧ (getPart t p.val).inst? i.num = some i)
      ∧ (inHold s = true ∨ s.pwr.safe = true ∨ (getPart s p.val).reshaping = true →
        ∃ t, exec (.cutoff p j) s = .next t ∧ (getRun t p.val j.val).cutDone = true ∧ (getPart t p.val).inst? i.num = some i)

/-- What a launch leaves of its entry: the next count one period on and the cutoff ahead again. -/
def Advanced (s t : State) (p j : Nat) : Prop :=
  (getRun t p j).next = (getRun s p j).next + entryPeriod s p j ∧ (getRun t p j).cutDone = false
    ∧ (getRun t p j).cutBlocked = false

/-- At its launch count a stand-alone SOLVE entry that no reason of Table 19.2 holds back starts: with the tiles free and the start
test passed its command runs PROLOGUE on them from frozen values; with a best-effort command on the tiles that command is killed and
this one stands in START; with the command of another entry on them it waits in START (the model's choice, assumption 83). A launch that a reason holds back is counted in the skipped-launch counter and has no command
(R21, R49, R186, R230). -/
def Obligations.LaunchStartsOrSkips : Prop :=
  ∀ (p : PartId) (j : EntryId) (i : Inst) (im : Image) (s : State),
    let e := getRun s p.val j.val
    e.on = true → e.cutDone = true → e.next ≤ count s p.val → (getSlot s p.val (entryImg s p.val j.val)).img = some im →
    im.isModel = false → entryMembers s p.val j.val e.cutTick = [i] →
    let c := newCmd s p.val j.val im [i] [(startMember im i e.next).1] [] false
    (skipReason s p.val j.val = none → (getPart s p.val).holder = none → startTest im c (startFcyc s p.val c) = true →
        ∃ t d, exec (.launch p j) s = .next t ∧ Advanced s t p.val j.val ∧ (getPart t p.val).holder = some (.entry j.val)
          ∧ (getRun t p.val j.val).cmd = some d ∧ d.st = .run ∧ d.seg = sPrologue ∧ d.launch = e.next ∧ d.members = c.members)
      ∧ (∀ r, skipReason s p.val j.val = none → (getPart s p.val).holder = some (.ring r) → (getPart s p.val).kill = none →
        ∃ t, exec (.launch p j) s = .next t ∧ Advanced s t p.val j.val ∧ (getRun t p.val j.val).cmd = some c
          ∧ (getPart t p.val).kill = some ⟨.ring r, .window, true, []⟩)
      ∧ (∀ q, skipReason s p.val j.val = none → (getPart s p.val).holder = some (.entry q) →
        ∃ t, exec (.launch p j) s = .next t ∧ Advanced s t p.val j.val ∧ (getRun t p.val j.val).cmd = some c
          ∧ (getPart t p.val).holder = some (.entry q) ∧ (getPart t p.val).kill = (getPart s p.val).kill)
      ∧ (∀ r, skipReason s p.val j.val = some r →
        ∃ t, exec (.launch p j) s = .next t ∧ Advanced s t p.val j.val ∧ (getRun t p.val j.val).cmd = e.cmd
          ∧ regGet t (fabOff p.val 0x24) = BitVec.ofNat 32 (satInc 32 (regGet s (fabOff p.val 0x24)).toNat))

/-- In Deadline mode, at L + DEADLINE_TICKS a command that awaits its verdict, or its re-run, ends; before that tick, and in
Fair-copy mode, nothing changes (R229, R341). -/
def DeadlineEndsTheCommand : Prop :=
  ∀ (p : PartId) (j : EntryId) (c : Cmd) (s : State), (getRun s p.val j.val).cmd = some c →
    (c.fair = false → c.deadline ≤ elapsed s c → (c.st = .verify ∨ c.st = .waitRerun) →
        ∃ t, exec (.deadlineTick p j) s = .next t ∧ (getRun t p.val j.val).cmd = none
          ∧ (getRun t p.val j.val).next = (getRun s p.val j.val).next)
      ∧ (c.fair = true ∨ elapsed s c < c.deadline → exec (.deadlineTick p j) s = .next s)

/-- A killed command of a SOLVE image, or one that waits in START, starts with PROLOGUE on the free tiles once its partition may launch,
with the members, the start case and the launch count it had (R230, R239). -/
def RerunKeepsTheFrozenValues : Prop :=
  ∀ (p : PartId) (j : EntryId) (c : Cmd) (im : Image) (s : State),
    (getRun s p.val j.val).cmd = some c → cmdImage s p.val c = some im → im.isModel = false → (c.st = .waitRerun ∨ c.st = .start) →
    (getPart s p.val).holder = none → (getPart s p.val).kill = none → (getPart s p.val).reshaping = false → inHold s = false →
    quadsRun s p.val = true → startTest im { c with st := .start } (startFcyc s p.val { c with st := .start }) = true →
    ∃ t d, exec (.rerunStart p j) s = .next t ∧ (getRun t p.val j.val).cmd = some d ∧ d.st = .run ∧ d.seg = sPrologue
      ∧ d.members = c.members ∧ d.start = c.start ∧ d.launch = c.launch ∧ d.df = c.df
      ∧ (getPart t p.val).holder = some (.entry j.val)

/-- The deadline ends a command that waits; a re-run starts from the values that were frozen (R229, R230, R239, R341). -/
def Obligations.RerunsAndDeadlines : Prop :=
  DeadlineEndsTheCommand ∧ RerunKeepsTheFrozenValues

/-- At the SEGEND of every tile of a SOLVE command that nothing stopped: ITER follows FACTOR, and UPDATE, which counts one rank-1
update; after EPILOGUE the final posting goes to Assay, the tiles are free, the rest of the window it owns is returned and the command waits for
its verdict (R181, R207, R227, R230). -/
def SegmentsFollowInOrder : Prop :=
  ∀ (p : PartId) (j : Nat) (c : Cmd) (im : Image) (s : State),
    (getPart s p.val).holder = some (.entry j) → (getPart s p.val).kill = none → (getRun s p.val j).cmd = some c →
    cmdImage s p.val c = some im → im.isModel = false → tilesEnded s p.val = true → (c.st = .run ∨ c.st = .finish) →
    waitsVerdict s p.val (.entry j) c = false → c.arith &&& breachMask = 0 → trappedTile s p.val = none →
    decisionBad im c.seg (decisionOf s p.val) = false → s.assay.clockOk = true →
    (c.seg = sFactor → ∃ t, exec (.segmentBoundary p) s = .next t
        ∧ (getRun t p.val j).cmd = some { c with seg := sIter, t := c.t + 8 + im.span sIter, st := .run })
      ∧ (c.seg = sUpdate → ∃ t, exec (.segmentBoundary p) s = .next t
        ∧ (getRun t p.val j).cmd = some { c with rank1 := c.rank1 + 1, seg := sIter, t := c.t + 8 + im.span sIter, st := .run })
      ∧ (c.seg = sEpilogue → ∃ t d, exec (.segmentBoundary p) s = .next t ∧ (getRun t p.val j).cmd = some d ∧ d.st = .verify
        ∧ (getPart t p.val).holder = none
        ∧ (getPart t p.val).returned = ((getPart s p.val).returned || ownsWindow s p.val (.entry j))
        ∧ (getPart t p.val).postings = (getPart s p.val).postings.filter (fun q => q.key ≠ .entry j)
            ++ [⟨.entry j, 1, c.iter, iterates s p.val im c⟩])

/-- The verdict on the posting in check: it leaves the queue of postings. On an intermediate posting the command goes on; on the final
posting the gate decides, and the entry has no command (R227, R231, R276). -/
def VerdictEndsTheFinalCheck : Prop :=
  ∀ (p : PartId) (fault : VerdictFault) (j : Nat) (q : Posting) (l : List Posting) (c : Cmd) (im : Image) (s : State),
    (getPart s p.val).postings = q :: l → q.key = .entry j → (getRun s p.val j).cmd = some c → cmdImage s p.val c = some im →
    (q.kind = 0 → ∃ t d, exec (.assayVerdict p fault) s = .next t ∧ (getPart t p.val).postings = l
        ∧ (getRun t p.val j).cmd = some d ∧ d.st = c.st ∧ d.iter = c.iter ∧ d.members.length = c.members.length)
      ∧ (q.kind = 1 → ∃ t, exec (.assayVerdict p fault) s = .next t ∧ (getRun t p.val j).cmd = none
        ∧ (getPart t p.val).postings = l.filter (fun r => r.key ≠ .entry j))

/-- The segments of a SOLVE command and the verdicts on its postings (R181, R207, R227, R230, R231, R276). -/
def Obligations.CommandsRunToTheirVerdict : Prop :=
  SegmentsFollowInOrder ∧ VerdictEndsTheFinalCheck

/-- At a release count that has come the release is done with; the trajectory its launch committed is adopted by every engine bound
to the entry that is not in CONFIG: its tick, and stages 0 and 1. With none committed and no fallback the engines in RUN, COAST and
HOLD hold. Before its count comes nothing changes (R19, R231, R232, R299, R301, R302). -/
def Obligations.ReleaseGivesTheTrajectory : Prop :=
  ∀ (p : PartId) (j : EntryId) (r : Release) (rest : List Release) (im : Image) (s : State),
    (getRun s p.val j.val).rels = r :: rest →
    (getSlot s p.val (entryImg s p.val j.val)).img = some im → im.isModel = false →
    (∀ v, r.traj = some v → r.count ≤ count s p.val → ∃ t, exec (.release p j) s = .next t ∧ (getRun t p.val j.val).rels = rest
        ∧ (getRun t p.val j.val).cmd = (getRun s p.val j.val).cmd
        ∧ ∀ n ∈ boundEngines s p.val j.val, (getNib s n).st ≠ .config → (getNib t n).traj
            = some ⟨count s p.val, entryPeriod s p.val j.val, stageWords im v.words 0,
                stageWords im v.words (min 1 (im.trajStages - 1))⟩)
      ∧ (r.traj = none → r.count ≤ count s p.val → fallback s p.val j.val im r.count = none →
        ∃ t, exec (.release p j) s = .next t ∧ (getRun t p.val j.val).rels = rest
          ∧ ∀ n ∈ boundEngines s p.val j.val, ((getNib s n).st = .run ∨ (getNib s n).st = .coast ∨ (getNib s n).st = .hold) →
            (getNib t n).st = .hold ∧ (getNib t n).planHold = true)
      ∧ (count s p.val < r.count → exec (.release p j) s = .next s)

-- best-effort work

/-- A BE_SOLVE or BE_MODEL that passes the checks of its slot, instance and buffers waits to be chosen, its item begun; a BE_MODEL
reserves its GDDR6 workspace, and one whose workspace is not free completes FAIL_ADMIT, cause WORKSPACE (R242, R260). -/
def BestEffortItemsWaitToBeChosen : Prop :=
  ∀ (c : CtxId) (r : RingId) (i : Item) (im : Image) (s : State),
    let k := 8 * c.val + r.val
    (headOp s c.val r.val 0x05 = some i → beImage s c.val i.slot false = .inr im →
        (∃ n, (getPart s (getCtx s c.val).part).inst? i.beInst = some n ∧ n.released = false ∧ n.slot = i.slot) →
        (∀ q, im.thr = some q → i.thr < q.sets.length) → 4 * im.w ≤ i.bytes →
        ∃ t b, exec (.beSolve c r) s = .next t ∧ getBe t k = some b ∧ b.cmd.st = .wait ∧ b.model = false ∧ b.inst = i.beInst
          ∧ b.slot = i.slot ∧ b.addr = i.addr ∧ (getRing t c.val r.val).items.head? = some { i with begun := true })
      ∧ (∀ l, headOp s c.val r.val 0x06 = some i → beImage s c.val i.slot true = .inr im → im.layers = some l →
        1 ≤ i.nItems → i.nItems ≤ l.batch → 8 * i.nItems ≤ i.bytes → (i.word 14).toNat = modelInputBytes l i.nItems →
        (l.wsBytes ≤ workspaceFree s →
          ∃ t b, exec (.beModel c r) s = .next t ∧ getBe t k = some b ∧ b.cmd.st = .wait ∧ b.model = true ∧ b.items = i.nItems
            ∧ t.mem.wsUsed = s.mem.wsUsed + l.wsBytes)
        ∧ (workspaceFree s < l.wsBytes → exec (.beModel c r) s = .next (finishItem s c.val r.val stAdmit 7)))

/-- With the tiles free in an open or returned tick and nothing holding best-effort work back, the ring that the steps of R325 choose
runs at once: BODY of a model, PROLOGUE of a problem; round-robin goes on behind it (R322, R325). A SOLVE whose instance was released
before its first start completes FAIL_ADMIT instead (the model's choice, assumption 84). -/
def TheChosenRingStarts : Prop :=
  ∀ (p : PartId) (r : Nat) (aged granted : Bool) (b : BeCmd) (im : Image) (s : State),
    let u := rollCycle s p.val
    let x := getPart u p.val
    x.on = true → (openTick u p.val (count u p.val) = true ∨ x.returned = true) → x.holder = none → x.kill = none →
    inHold u = false → x.reshaping = false → u.pwr.safe = false → throttleAllows u x = true → quadsRun u p.val = true →
    chooseBe u p.val = some (r, aged, granted) → getBe u r = some b → b.cmd.fair = true →
    (getSlot u p.val b.slot).img = some im → im.isModel = b.model →
    (instGone u p.val b = false → kernelsDone im b = false →
      ∃ t d, exec (.beStart p) s = .next t ∧ (getPart t p.val).holder = some (.ring r) ∧ (getPart t p.val).rrLast = r + 1
        ∧ getBe t r = some d ∧ d.cmd.st = .run ∧ d.cmd.seg = (if b.model then sBody else sPrologue) ∧ d.aged = aged
        ∧ d.firstStart.isSome = true)
      ∧ (instGone u p.val b = true → exec (.beStart p) s = .next (dropBe u r stAdmit 1))

/-- A best-effort item waits to be chosen, and the chosen one runs (R242, R260, R322, R325). -/
def Obligations.BestEffortWaitsAndStarts : Prop :=
  BestEffortItemsWaitToBeChosen ∧ TheChosenRingStarts

/-- A window that opens with a launch of its owner to come reserves its ticks, and one with none returns them (R321); a best-effort command
that still holds the tiles is killed for its re-run, its tiles issuing nothing (R21, R328). Outside the window nothing changes. -/
def WindowsPreemptBestEffort : Prop :=
  ∀ (p : PartId) (w : Fin 255) (s : State),
    let now := inWindow s p.val (count s p.val) (window s p.val w.val)
    let back := !ownerComes s p.val (window s p.val w.val)
    (now = false → exec (.windowOpen p w) s = .next s)
      ∧ ((getPart s p.val).on = true → w.val < windowCount s p.val → now = true →
        (((∀ r, (getPart s p.val).holder ≠ some (.ring r)) ∨ (getPart s p.val).kill ≠ none) →
          ∃ t, exec (.windowOpen p w) s = .next t ∧ getPart t p.val = { getPart s p.val with returned := back })
        ∧ (∀ r b, (getPart s p.val).holder = some (.ring r) → getBe s r = some b → (getPart s p.val).kill = none →
          ∃ t d, exec (.windowOpen p w) s = .next t ∧ (getPart t p.val).kill = some ⟨.ring r, .window, true, []⟩
            ∧ (getPart t p.val).returned = back ∧ getBe t r = some d ∧ d.cmd.st = .waitRerun
            ∧ ∀ n ∈ (getPart s p.val).pars.tiles, (getTile t n).running = false ∧ (getTile t n).flight = []))

/-- When a kill ends with no launch waiting, every tile of the partition is in the boundary state of Table 05.4 and the tiles are
free; a PAUSE that waited for it completes. A Fair-copy SOLVE launch that waited for the tiles, the lowest entry's, starts on them with
PROLOGUE. With no kill under way nothing changes (R21, R329, R330, R353). -/
def KillEndFreesTheTiles : Prop :=
  ∀ (p : PartId) (s : State),
    (∀ k, (getPart s p.val).kill = some k → (∀ j < 64, ∀ c, (getRun s p.val j).cmd = some c → c.st ≠ .start) →
      ∃ t, exec (.killEnd p) s = .next t ∧ (getPart t p.val).kill = none ∧ (getPart t p.val).holder = none
        ∧ (getPart t p.val).returned = (getPart s p.val).returned
        ∧ (∀ n ∈ (getPart s p.val).pars.tiles, getTile t n = (getTile s n).boundary)
        ∧ (∀ c r i, k.pause = [(c, r)] → (getRing s c r).items = [i] → JournalRoom s c 1 →
            (getRing t c r).items = [] ∧ (getRing t c r).cmp = (getRing s c r).cmp + 1))
      ∧ (∀ k j c im, (getPart s p.val).kill = some k → j < 64 → (getRun s p.val j).cmd = some c → c.st = .start → c.fair = true →
        (∀ q < j, ∀ d, (getRun s p.val q).cmd = some d → d.st ≠ .start) → cmdImage s p.val c = some im → im.isModel = false →
        inHold s = false → (getPart s p.val).reshaping = false →
        ∃ t d, exec (.killEnd p) s = .next t ∧ (getPart t p.val).kill = none ∧ (getPart t p.val).holder = some (.entry j)
          ∧ (getRun t p.val j).cmd = some d ∧ d.st = .run ∧ d.seg = sPrologue ∧ d.members = c.members)
      ∧ ((getPart s p.val).kill = none → exec (.killEnd p) s = .next s)

/-- A window kills the best-effort command on its tiles, and the end of a kill frees them (R21, R328, R329, R353). -/
def Obligations.KillsPreemptBestEffort : Prop :=
  WindowsPreemptBestEffort ∧ KillEndFreesTheTiles

/-- The kernels of a best-effort MODEL run in kernel-table order: with its bytes staged the one at the cursor starts on every tile; its end
moves the cursor on, leaves its layer's output tensor in the workspace (with the layer's last kernel: the model's choice, assumption 85) and
keeps the flags and counters so far for a re-run (R240); and the last one's end, with nothing to stop it, brings the command to the gate and frees the tiles (R261, R262). -/
def Obligations.KernelsRunInOrder : Prop :=
  ∀ (p : PartId) (r : Nat) (b : BeCmd) (im : Image) (l : Layers) (q : KernelRec) (s : State),
    modelHolder s p.val = some (r, b) → (getSlot s p.val b.slot).img = some im → im.layers = some l →
    l.kernels[b.cursor]? = some q →
    (b.staged = false → ∃ t, exec (.kernelStart p) s = .next t
        ∧ getBe t r = some { b with staged := true, stageBytes := q.stageBytes, cmd := { b.cmd with t := b.cmd.t + q.span } }
        ∧ ∀ n ∈ (getPart s p.val).pars.tiles, getTile t n = (getTile s n).startAt b.slot q.entry)
      ∧ (b.staged = true → tilesEnded s p.val = true → im.cert = none → trappedTile s p.val = none →
        b.cursor + 1 < l.kernels.length →
        ∃ t d, exec (.kernelEnd p) s = .next t ∧ getBe t r = some d ∧ d.cursor = b.cursor + 1 ∧ d.staged = false ∧ d.stageBytes = 0
          ∧ d.cmd = b.cmd ∧ d.keptArith = b.cmd.arith ∧ d.keptPiv = b.cmd.piv
          ∧ d.tensors = (if (l.kernels.drop (b.cursor + 1)).any (fun k => k.layer == q.layer) then b.tensors
              else b.tensors ++ [(q.layer, layerTensor (modelCfg im b.cmd.fpcw) l b.cmd.items q.layer)]))
      ∧ (b.staged = true → tilesEnded s p.val = true → im.cert = none → trappedTile s p.val = none →
        b.cursor + 1 = l.kernels.length → b.cmd.fpcw.trapMask = 0 → decisionOf s p.val = 0 →
        ∃ t d, exec (.kernelEnd p) s = .next t ∧ getBe t r = some d ∧ d.cmd.st = .gate ∧ d.cursor = b.cursor + 1
          ∧ (getPart t p.val).holder = none)

/-- The commit of a best-effort SOLVE that passed its check: its words are its instance's last commit, its command is done, and its
semaphores move in the same step; with its wait semaphore at 0 it commits nothing, goes back to wait for a re-run and is counted. A
commit whose frames find no link credit waits in the gate, and hands them over and commits once there is credit; one whose commit sets had
to be accepted first hands them over and completes then (R331, R332, R333). -/
def Obligations.BestEffortCommitMovesSemaphores : Prop :=
  ∀ (p : PartId) (r : Nat) (b : BeCmd) (im : Image) (i : Inst) (s : State),
    let m := b.cmd.members.headD default
    r = 8 * b.ctx + b.ring → (getSlot s p.val b.slot).img = some im → im.usedTargets = [] → b.model = false →
    (beStatus im b.cmd m).1 = stOk → (getPart s p.val).inst? m.inst = some i → i.released = false →
    (gateRing s p.val false = some (r, b) → bulkRoute s p.val b im = none →
        ((∀ n, semWait b.sem = some n → 1 ≤ semGet s n) →
          ∃ t, exec (.beCommit p) s = .next t ∧ getBe t r = none
            ∧ (∃ j, (getPart t p.val).inst? m.inst = some j ∧ j.commits = i.commits + 1
                ∧ j.lastWords = some ((m.final.getD []).take im.w) ∧ j.lastCert = m.cert)
            ∧ (∀ n, semWait b.sem = some n → semSignal b.sem ≠ some n → semGet t n = semGet s n - 1)
            ∧ (∀ n, semSignal b.sem = some n → semWait b.sem ≠ some n → semGet t n = (if 65535 ≤ semGet s n then semGet s n else semGet s n + 1)))
        ∧ (∀ n, semWait b.sem = some n → semGet s n = 0 →
          ∃ t d, exec (.beCommit p) s = .next t ∧ getBe t r = some d ∧ d.cmd.st = .waitRerun
            ∧ (getPart t p.val).inst? m.inst = some i ∧ (∀ k < 256, semGet t k = semGet s k)
            ∧ regGet t (fabOff p.val 0x38) = BitVec.ofNat 32 (satInc 32 (regGet s (fabOff p.val 0x38)).toNat)))
      ∧ (∀ q, gateRing s p.val false = some (r, b) → bulkRoute s p.val b im = some q → bulkReady s q = false →
        ∃ t, exec (.beCommit p) s = .next t ∧ getBe t r = some { b with linkWait := true })
      ∧ (∀ q g, gateRing s p.val true = some (r, b) → b.outLink = some q → b.outGrp = some g →
        (bulkReady s q = true → ∃ t, exec (.bulkHandover p) s = .next t ∧ getBe t r = none)
        ∧ (bulkReady s q = false → exec (.bulkHandover p) s = .next s))
      ∧ (∀ q, gateRing s p.val true = some (r, b) → b.outGrp = none → bulkRoute s p.val b im = some q → semWait b.sem = none →
        (bulkReady s q = true → ∃ t, exec (.bulkHandover p) s = .next t ∧ getBe t r = none)
        ∧ (bulkReady s q = false → exec (.bulkHandover p) s = .next s))

-- the tiles

/-- The exact 80-bit bounds of an accumulator (R72). -/
def accMin : Int := -(2 ^ 79)
def accMax : Int := 2 ^ 79 - 1

/-- One operation of a lane's accumulator: on every selected lane the new value is the nearest 80-bit value to the exact sum of the
old value and that lane's operand; the other lanes keep theirs; SAT_ACC goes with the operation exactly when a selected lane's sum
lies outside the bounds. -/
def Accumulates (s : State) (t : Nat) (i : Issue) (o : Nat → Int) (r : Result) : Prop :=
  ∃ (u : Tile) (f : InFlight), r = .next (setTile s t u) ∧ u.flight = i.t.flight ++ [f]
    ∧ f.due = i.t.cyc + opLatency i.ops 0 (edgeRows t) ∧ f.writes = [] ∧ u.pad = i.t.pad
    ∧ (∀ l < 8, (slMask i.ops).testBit l = false → tblGet 0 u.acc l = tblGet 0 i.t.acc l)
    ∧ (∀ l < 8, (slMask i.ops).testBit l = true →
        let e := (tblGet 0 i.t.acc l).toInt + o l
        (accMin ≤ e → e ≤ accMax → (tblGet 0 u.acc l).toInt = e) ∧ (e < accMin → (tblGet 0 u.acc l).toInt = accMin)
          ∧ (accMax < e → (tblGet 0 u.acc l).toInt = accMax))
    ∧ (f.flags = satAcc ∧ (∃ l < 8, (slMask i.ops).testBit l = true
            ∧ ((tblGet 0 i.t.acc l).toInt + o l < accMin ∨ accMax < (tblGet 0 i.t.acc l).toInt + o l))
        ∨ f.flags = 0 ∧ ∀ l < 8, (slMask i.ops).testBit l = true →
            accMin ≤ (tblGet 0 i.t.acc l).toInt + o l ∧ (tblGet 0 i.t.acc l).toInt + o l ≤ accMax)

/-- MAC adds the exact 64-bit product of its operands, aligned by the stroke's shift; ACCADD its aligned operand. The accumulator adds
with saturation at 80 bits (R69, R70, R72). -/
def Obligations.AccumulatorsSaturate : Prop :=
  ∀ (t : TileId) (sl : StrokeSlot) (i : Issue) (w : BitVec 128) (s : State),
    (issueOf s t.val sl.val 0 0x01 = some (i, w) →
        Accumulates s t.val i (fun l => align ((i.t.word (slVa i.ops + 4 * l)).toInt * (i.t.word (slVb i.ops + 4 * l)).toInt)
          (slShift i.ops)) (exec (.mac t sl) s))
      ∧ (issueOf s t.val sl.val 0 0x02 = some (i, w) →
        Accumulates s t.val i (fun l => align (i.t.word (slVa i.ops + 4 * l)).toInt (slShift i.ops)) (exec (.accadd t sl) s))

/-- The integer a rounding mode of Table 03.2 gives for num / den. -/
def RoundedTo (m : RoundMode) (num : Int) (den : Nat) (q : Int) : Prop :=
  match m with
  | .rne => 2 * (q * den - num).natAbs < den ∨ (2 * (q * den - num).natAbs = den ∧ q % 2 = 0)
  | .rdn => q * den ≤ num ∧ num < (q + 1) * den
  | .rha => 2 * (q * den - num).natAbs < den ∨ (2 * (q * den - num).natAbs = den ∧ num.natAbs < (q * den).natAbs)
  | .rtz => (q * den).natAbs ≤ num.natAbs ∧ num.natAbs < (q * den).natAbs + den ∧ 0 ≤ q * num
  | .rup => (q - 1) * den < num ∧ num ≤ q * den

/-- A writeback divides by 2^k and rounds by the stroke's mode (for k of 0 or less it shifts left exactly); a rounded value in the
range of a 32-bit word is written as it is, any other gives the nearer bound. An ACC_WB writes that word for each selected lane when it
retires, and SAT_WB goes with it exactly when a lane saturated (R74, R75, R76). -/
def Obligations.WritebackRoundsThenSaturates : Prop :=
  (∀ (acc : BitVec 80) (k : Int) (m : RoundMode), ∃ q : Int,
    (0 < k → RoundedTo m acc.toInt (2 ^ k.toNat) q) ∧ (k ≤ 0 → q = acc.toInt * 2 ^ (-k).toNat)
      ∧ (-(2 ^ 31) ≤ q → q ≤ 2 ^ 31 - 1 → (accWriteback acc k m).1.toInt = q ∧ (accWriteback acc k m).2 = false)
      ∧ (q < -(2 ^ 31) → accWriteback acc k m = (0x80000000, true))
      ∧ (2 ^ 31 - 1 < q → accWriteback acc k m = (0x7FFFFFFF, true)))
    ∧ ∀ (t : TileId) (sl : StrokeSlot) (i : Issue) (w : BitVec 128) (m : RoundMode) (s : State),
      issueOf s t.val sl.val 0 0x03 = some (i, w) → roundOfCode (slRoundWb i.ops) = some m →
      ∃ (u : Tile) (f : InFlight), exec (.accWb t sl) s = .next (setTile s t.val u) ∧ u.flight = i.t.flight ++ [f] ∧ u.acc = i.t.acc
        ∧ (∀ l < 8, (slMask i.ops).testBit l = true → ⟨.pad i.tile, slVa i.ops + 4 * l,
            leBytes 4 (accWriteback (tblGet 0 i.t.acc l) (slK8 i.ops) m).1.toNat⟩ ∈ f.writes)
        ∧ (∀ q ∈ f.writes, ∃ l < 8, (slMask i.ops).testBit l = true ∧ q.addr = slVa i.ops + 4 * l)
        ∧ f.flags = flagIf ((upTo 8).any (fun l => (slMask i.ops).testBit l
            && (accWriteback (tblGet 0 i.t.acc l) (slK8 i.ops) m).2)) satWb

/-- The operations of Tables 06.12a to 06.12c: tile, slot, issue class, OP and what each does at its issue. -/
def strokeOf : Instr → Option (TileId × StrokeSlot × Nat × Nat × (Issue → Option OpOut))
  | .mac t sl => some (t, sl, 0, 0x01, effMac)
  | .accadd t sl => some (t, sl, 0, 0x02, effAccadd)
  | .accWb t sl => some (t, sl, 0, 0x03, effAccWb)
  | .tmac t sl => some (t, sl, 0, 0x04, effTmac)
  | .twb t sl => some (t, sl, 0, 0x05, effTwb)
  | .mwadd t sl => some (t, sl, 0, 0x06, effMwAddSub false)
  | .mwsub t sl => some (t, sl, 0, 0x07, effMwAddSub true)
  | .mwmul t sl => some (t, sl, 0, 0x08, effMwmul)
  | .mwext t sl => some (t, sl, 0, 0x09, effMwext)
  | .mwnarrow t sl => some (t, sl, 0, 0x0A, effMwnarrow)
  | .fadd t sl => some (t, sl, 1, 0x01, effFadd)
  | .fsub t sl => some (t, sl, 1, 0x02, effFsub)
  | .fmul t sl => some (t, sl, 1, 0x03, effFmul)
  | .fma t sl => some (t, sl, 1, 0x04, effFma)
  | .min t sl => some (t, sl, 1, 0x05, effMinMax false)
  | .max t sl => some (t, sl, 1, 0x06, effMinMax true)
  | .cmpeq t sl => some (t, sl, 1, 0x07, effCompare .eq)
  | .cmplt t sl => some (t, sl, 1, 0x08, effCompare .lt)
  | .cmple t sl => some (t, sl, 1, 0x09, effCompare .le)
  | .cvt t sl => some (t, sl, 1, 0x0A, effCvt)
  | .recip t sl => some (t, sl, 2, 0x01, effRecip)
  | .rsqrt t sl => some (t, sl, 2, 0x02, effRsqrt)
  | .div t sl => some (t, sl, 2, 0x03, effDiv)
  | .cxfer t sl => some (t, sl, 3, 0x01, effCxfer)
  | .lcopy t sl => some (t, sl, 3, 0x02, effLcopy)
  | .dmard t sl => some (t, sl, 3, 0x03, effDmard)
  | .dmawr t sl => some (t, sl, 3, 0x04, effDmawr)
  | .pkt t sl => some (t, sl, 3, 0x05, effPkt)
  | _ => none

/-- The codes of a stroke's fields all name something: a rounding mode, a tensor format, a conversion, a FORM, a space; its route has
tiles; a packet is a best-effort command's (Tables 06.12a to 06.12c, R120, R156, R178). A bound image's strokes are so (R170). -/
def CodesDefined (c : Instr) (i : Issue) : Prop :=
  match c with
  | .accWb _ _ => (roundOfCode (slRoundWb i.ops)).isSome = true
  | .tmac _ _ => (TFmt.ofCode (slFmtA i.ops)).isSome = true ∧ (TFmt.ofCode (slFmtB i.ops)).isSome = true
  | .twb _ _ => (TFmt.ofCode (slFmtA i.ops)).isSome = true
  | .mwmul _ _ => (roundOfCode (slMulRound i.ops)).isSome = true
  | .mwnarrow _ _ => (roundOfCode (slNarRound i.ops)).isSome = true
  | .cvt _ _ => slCk i.ops ≤ 5 ∧ (4 ≤ slCk i.ops → (roundOfCode (slCvtRound i.ops)).isSome = true)
  | .recip _ _ | .rsqrt _ _ | .div _ _ =>
    slForm i.ops ≤ 2 ∧ (slForm i.ops = 2 → (roundOfCode (slPivRound i.ops)).isSome = true)
  | .cxfer _ _ => routeTiles i.x i.img (slRoute i.ops) ≠ []
  | .dmard _ _ | .dmawr _ _ => slSpace i.ops < 2
  | .pkt _ _ => ∃ r, i.key = .ring r
  | _ => True

/-- A slot of a PAIR word whose tile's turn it is and whose codes are defined issues: its operation's writes, flags and guard counts are in flight on the tile for
the latency of Table 05.3, and its accumulators and circuits take effect at once. The slot's issue is used up; nothing else of the
machine changes, no scratchpad byte among it. With both slots issued the next word follows after NEXT + 1 fcyc. A slot with OP 0
only uses up its issue (R149, R150, R176, R179). -/
def Obligations.StrokesIssueForTheirLatency : Prop :=
  (∀ (c : Instr) (t : TileId) (sl : StrokeSlot) (cls op : Nat) (eff : Issue → Option OpOut) (i : Issue) (w : BitVec 128) (s : State),
    strokeOf c = some (t, sl, cls, op, eff) → issueOf s t.val sl.val cls op = some (i, w) → CodesDefined c i →
    ∃ o u, eff i = some o ∧ exec c s = .next (setTile s t.val u)
      ∧ u.flight = i.t.flight ++ [⟨i.t.cyc + opLatency i.ops o.hops (edgeRows t.val), o.writes, o.flags, o.piv, o.read⟩]
      ∧ u.acc = o.t.acc ∧ u.tacc = o.t.tacc ∧ u.routes = o.t.routes ∧ u.pad = i.t.pad ∧ u.strokes = i.t.strokes
      ∧ ((if sl.val = 0 then i.t.done1 else i.t.done0) = true → u.cyc = i.t.cyc + wNext w + 1 ∧ u.done0 = false ∧ u.done1 = false)
      ∧ ((if sl.val = 0 then i.t.done1 else i.t.done0) = false →
          u.cyc = i.t.cyc ∧ u.pc = i.t.pc ∧ u.done0 = decide (sl.val = 0) ∧ u.done1 = decide (sl.val ≠ 0)))
    ∧ ∀ (t : TileId) (sl : StrokeSlot) (i : Issue) (w : BitVec 128) (s : State), issueOf s t.val sl.val 0 0 = some (i, w) →
      ∃ u, exec (.strokeNop t sl) s = .next (setTile s t.val u) ∧ u.flight = i.t.flight ∧ u.pad = i.t.pad ∧ u.acc = i.t.acc
        ∧ ((if sl.val = 0 then i.t.done1 else i.t.done0) = true → u.cyc = i.t.cyc + wNext w + 1)

/-- An FP64 encoding of a NaN (Table 04.1). -/
def Nan64 (x : Nat) : Prop := x / 2 ^ 52 % 2 ^ 11 = 2047 ∧ x % 2 ^ 52 ≠ 0

/-- FADD, FSUB, FMUL and FMA of FP64 operands with a NaN among them put the first NaN, in the order a, b and for FMA c, in flight to the
destination with its sign and payload kept and its quiet bit 1 (R101). -/
def Obligations.NanOperandsComeThrough : Prop :=
  ∀ (c : Instr) (op : Nat) (t : TileId) (sl : StrokeSlot) (i : Issue) (w : BitVec 128) (s : State),
    (c = .fadd t sl ∧ op = 1 ∨ c = .fsub t sl ∧ op = 2 ∨ c = .fmul t sl ∧ op = 3 ∨ c = .fma t sl ∧ op = 4) →
    issueOf s t.val sl.val 1 op = some (i, w) → slP i.ops = false →
    let a := i.t.value (slA i.ops) 8
    let b := i.t.value (slB i.ops) 8
    let d := i.t.value (slD i.ops) 8
    let lands := fun (x : Nat) => ∃ (u : Tile) (f : InFlight), exec c s = .next (setTile s t.val u) ∧ u.flight = i.t.flight ++ [f]
      ∧ f.writes = [i.put (slD i.ops) (leBytes 8 (x ||| 2 ^ 51))]
    (Nan64 a → lands a) ∧ (¬ Nan64 a → Nan64 b → lands b) ∧ (op = 4 → ¬ Nan64 a → ¬ Nan64 b → Nan64 d → lands d)

/-- An operation in flight with writes to the scratchpad of its own tile retires in its turn: the bytes of its write stand at
their address; it is in flight no more and its flags and pivot counts are its command's. In an fcyc of a best-effort command, the
flit that waits first at a tile is written to its address where no scheduled access is due in its bank; else it waits on and no byte
of the scratchpad changes. Arrivals of the fcyc queue behind. A flit the tile has to send enters its router where that has a place
free (R77, R144, R150, R156). -/
def Obligations.ResultsLandAtRetirement : Prop :=
  ∀ (t : TileId) (s : State),
    (∀ (k : Fin 16) (p : Nat) (key : CmdKey) (c : Cmd) (im : Image) (f : InFlight) (a : Nat) (bs : List Byte),
      tileRun s t.val = some (p, key, c, im) → (getTile s t.val).flight[k.val]? = some f → f.read = none →
      f.writes = [⟨.pad t.val, a, bs⟩] → retireTurn s p f.due = true →
      ∃ v, exec (.opRetire t k) s = .next v ∧ memBytes (getTile v t.val).pad a bs.length = bs
        ∧ (getTile v t.val).flight = (getTile s t.val).flight.eraseIdx k.val
        ∧ (getTile v t.val).trap = (getTile s t.val).trap ||| (f.flags &&& c.fpcw.trapMask)
        ∧ getCmd v p key = some (c.merge t.val f))
    ∧ (∀ (p r d a : Nat) (c : Cmd) (im : Image) (bs : List Byte) (rest : List Flit),
      tileRun s t.val = some (p, .ring r, c, im) → (getTile s t.val).inbox = .data d a bs :: rest →
      ∃ v more, exec (.packetBankWrite t) s = .next v
        ∧ (bankBusy s (getPart s p) t.val (getTile s t.val).cyc a bs.length = false →
          memBytes (getTile v t.val).pad a bs.length = bs ∧ (getTile v t.val).inbox = rest ++ more)
        ∧ (bankBusy s (getPart s p) t.val (getTile s t.val).cyc a bs.length = true →
          (getTile v t.val).pad = (getTile s t.val).pad ∧ (getTile v t.val).inbox = (.data d a bs :: rest) ++ more))
    ∧ (∀ (p r : Nat) (c : Cmd) (im : Image) (f : Flit) (fs : List Flit),
      tileRun s t.val = some (p, .ring r, c, im) → (getPart s p).pars.tiles.Nodup → t.val ∈ (getPart s p).pars.tiles →
      (getTile s t.val).sending = f :: fs → (tblGet [] (getTile s t.val).inputs 4).length < 4 →
      ∃ v q, exec (.packetBankWrite t) s = .next v ∧ (getTile v t.val).sending = fs
        ∧ tblGet [] (getTile v t.val).inputs 4 = q ++ [f])

/-- The control words of Table 06.13 at a tile whose turn it is: IDLE waits COUNT + NEXT + 1 fcyc, and like every word the innermost
loop ends at, it goes on at the loop's first word while a run is left, else past it; ACCOPEN opens the masked
accumulators at 0 with F fraction bits; FPBAR with nothing pending remembers the barrier; LOOP opens a loop of COUNT runs at the next
word; FAMCALL goes to the member its index names, 4 fcyc later, and FAMRET to the word after the call; SEGEND ends the tile's segment, and like FPBAR it waits
for what is in flight (R69, R108, R180, R182). -/
def ControlWordsSequenceTheTile : Prop :=
  ∀ (t : TileId) (p : Nat) (k : CmdKey) (c : Cmd) (im : Image) (w : BitVec 128) (s : State),
    let u := getTile s t.val
    (ctrlOf s t.val 0 = some (p, k, c, im, w) → u.loops = [] →
        exec (.idle t) s = .next (setTile s t.val { u with
          pc := u.pc + 1, cyc := u.cyc + (cIdle w + wNext w + 1), done0 := false, done1 := false }))
      ∧ (∀ f fs, ctrlOf s t.val 0 = some (p, k, c, im, w) → u.loops = f :: fs →
        (f.last ≠ u.pc → exec (.idle t) s = .next (setTile s t.val { u with
          pc := u.pc + 1, cyc := u.cyc + (cIdle w + wNext w + 1), done0 := false, done1 := false }))
        ∧ (f.last = u.pc → 0 < f.left → exec (.idle t) s = .next (setTile s t.val { u with
          pc := f.first, loops := { f with left := f.left - 1 } :: fs, cyc := u.cyc + (cIdle w + wNext w + 1),
          done0 := false, done1 := false }))
        ∧ (f.last = u.pc → f.left = 0 → exec (.idle t) s =
          .next (setTile s t.val (Tile.advance { u with loops := fs } u.pc (cIdle w + wNext w + 1)))))
      ∧ (ctrlOf s t.val 1 = some (p, k, c, im, w) →
        ∃ v, exec (.accopen t) s = .next (setTile s t.val v) ∧ v.pad = u.pad ∧ v.cyc = u.cyc + wNext w + 1
          ∧ ∀ l < 8, tblGet 0 v.acc l = (if (cAccMask w).testBit l then 0 else tblGet 0 u.acc l)
              ∧ tblGet 0 v.accF l = (if (cAccMask w).testBit l then cAccF w else tblGet 0 u.accF l))
      ∧ (ctrlOf s t.val 2 = some (p, k, c, im, w) → u.flight = [] → u.trap = 0 →
        ∃ v, exec (.fpbar t) s = .next (setTile s t.val v) ∧ v.lastBar = u.pc ∧ v.cyc = u.cyc + wNext w + 1 ∧ v.pad = u.pad)
      ∧ (ctrlOf s t.val 2 = some (p, k, c, im, w) → u.flight ≠ [] → exec (.fpbar t) s = .next s)
      ∧ (ctrlOf s t.val 3 = some (p, k, c, im, w) →
        exec (.loop t) s = .next (setTile s t.val { u with
          loops := ⟨u.pc + 1, cLoopEnd w, cLoopCount w - 1⟩ :: u.loops, pc := u.pc + 1, cyc := u.cyc + wNext w + 1 }))
      ∧ (∀ f, ctrlOf s t.val 4 = some (p, k, c, im, w) → im.fams.find? (fun q => q.family == cFamily w) = some f →
        (u.word (cIdx w)).toNat < f.members →
        exec (.famcall t) s = .next (setTile s t.val { u with
          ret := some u.pc, pc := f.addrs.getD (u.word (cIdx w)).toNat 0, cyc := u.cyc + 4 }))
      ∧ (∀ q, ctrlOf s t.val 5 = some (p, k, c, im, w) → u.ret = some q →
        exec (.famret t) s = .next (setTile s t.val (Tile.advance { u with ret := none } q (wNext w + 1)))
        ∧ (u.loops = [] → exec (.famret t) s = .next (setTile s t.val { u with
          ret := none, pc := q + 1, cyc := u.cyc + (wNext w + 1), done0 := false, done1 := false })))
      ∧ (ctrlOf s t.val 6 = some (p, k, c, im, w) → u.flight ≠ [] → exec (.segend t) s = .next s)
      ∧ (ctrlOf s t.val 6 = some (p, k, c, im, w) → u.flight = [] →
        exec (.segend t) s = .next (setTile s t.val { u with
          running := false, ended := true, decision := if cDecider w then some (u.word (cDec w)) else none }))

/-- What ends a chain at a tile: an FPBAR that finds a trap pending, in a command with no range certificate, and a FAMCALL whose index
is MEMBERS or more. The launch entry's command is decided with nothing to commit and the tiles are free; a trap is counted in the
partition, and an index of MEMBERS or more as the range breach it is; either leaves a fault record (R81, R110, R182, R219). -/
def TrapsAndFamilyIndexEndTheChain : Prop :=
  ∀ (t : TileId) (p j : Nat) (c : Cmd) (im : Image) (w : BitVec 128) (s : State),
    let u := getTile s t.val
    (ctrlOf s t.val 2 = some (p, .entry j, c, im, w) → u.flight = [] → u.trap ≠ 0 → im.cert = none →
        ∃ v, exec (.fpbar t) s = .next v ∧ (getRun v p j).cmd = none ∧ (getPart v p).holder = none
          ∧ regGet v (fabOff p 0x30) = BitVec.ofNat 32 (satInc 32 (regGet s (fabOff p 0x30)).toNat)
          ∧ v.anl.index = s.anl.index + 1)
      ∧ (∀ f, ctrlOf s t.val 4 = some (p, .entry j, c, im, w) → im.fams.find? (fun q => q.family == cFamily w) = some f →
        f.members ≤ (u.word (cIdx w)).toNat →
        ∃ v, exec (.famcall t) s = .next v ∧ (getRun v p j).cmd = none ∧ (getPart v p).holder = none
          ∧ regGet v (fabOff p 0x2C) = BitVec.ofNat 32 (satInc 32 (regGet s (fabOff p 0x2C)).toNat)
          ∧ v.anl.index = s.anl.index + 1)

/-- Control words move a tile on, or end its command (R110, R182, R219). -/
def Obligations.ControlWordsRunTheTile : Prop :=
  ControlWordsSequenceTheTile ∧ TrapsAndFamilyIndexEndTheChain

-- images

/-- IMAGE_BIND: an image that passes the checks of Table 06.6 loads into its slot, which shows it only when the load has ended; one
that fails completes FAIL_IMAGE with the cause of the first failed check; in Hold no bind proceeds. BIND_COMPLETE in an open tick
puts the image, its entry table in SPACE 0 and its converted parameters, and completes the descriptor (R170, R171, R172, R192, R339). -/
def BindingLoadsThenBinds : Prop :=
  ∀ (c : CtxId) (r : RingId) (i : Item) (p : PartId) (k : SlotId) (im : Image) (s : State),
    let x := getCtx s c.val
    let bytes := memBytes (hostMem s x) i.addr i.bytes
    (headOp s c.val r.val 0x02 = some i → inHold s = true → exec (.imageBind c r) s = .next s)
      ∧ (headOp s c.val r.val 0x02 = some i → inHold s = false → ∃ t, exec (.imageBind c r) s = .next t
        ∧ match bindChecks s x.part i.slot bytes with
          | .inr m => getSlot t x.part i.slot = { getSlot s x.part i.slot with loading := some (m, c.val, r.val) }
              ∧ t.mem.imgUsed = s.mem.imgUsed + m.masterBytes
          | .inl cause => t = finishItem s c.val r.val stImage cause)
      ∧ (∀ d q it, (getSlot s p.val k.val).loading = some (im, d, q) → openTick s p.val (count s p.val) = true → inHold s = false →
        (getRing s d q).items = [it] →
        ∃ t, exec (.bindComplete p k) s = .next t ∧ (getSlot t p.val k.val).img = some im ∧ (getSlot t p.val k.val).loading = none
          ∧ (getSlot t p.val k.val).space = tableSpace im ∧ (getSlot t p.val k.val).params = im.boundParams ∧ (getRing t d q).items = []
          ∧ (getPart t p.val).insts = (getPart s p.val).insts)

/-- Once a slot is unbound: no image, none of its instances, none of its best-effort commands, its masters freed; with no such command
queued every other instance is as it was. -/
def Unbound (s t : State) (p k : Nat) (im : Image) : Prop :=
  (getSlot t p k).img = none ∧ (∀ i ∈ (getPart t p).insts, i.slot ≠ k)
    ∧ (∀ r < 512, ∀ b, getBe s r = some b → b.part = p → b.slot = k → getBe t r = none)
    ∧ ((∀ r < 512, ∀ b, getBe s r = some b → b.part = p → b.slot ≠ k) →
      (getPart t p).insts = (getPart s p).insts.filter (fun i => i.slot ≠ k))
    ∧ t.mem.imgUsed = s.mem.imgUsed - im.masterBytes

/-- IMAGE_UNBIND of a slot that no valid launch entry names and no bound MODEL takes its source from: with no command of the slot
running it takes effect at once, else it is accepted and takes effect at the boundary once the command has ended (R173, Table 06.7). -/
def UnbindingWaitsForTheBoundary : Prop :=
  ∀ (c : CtxId) (r : RingId) (i : Item) (p : PartId) (k : SlotId) (im : Image) (s : State),
    let q := (getCtx s c.val).part
    (headOp s c.val r.val 0x03 = some i → (getSlot s q i.slot).img = some im → (getSlot s q i.slot).unbinding = none →
        (∀ j < 64, entryImg s q j = i.slot → entryOn s q j = false) → isSource (getPart s q) i.slot = false →
        (slotBusy s q i.slot = false → ∃ t, exec (.imageUnbind c r) s = .next t ∧ Unbound s t q i.slot im)
        ∧ (slotBusy s q i.slot = true → ∃ t, exec (.imageUnbind c r) s = .next t
            ∧ getSlot t q i.slot = { getSlot s q i.slot with unbinding := some (c.val, r.val) }))
      ∧ (∀ d o, (getSlot s p.val k.val).unbinding = some (d, o) → (getSlot s p.val k.val).img = some im →
        (slotBusy s p.val k.val = false → ∃ t, exec (.unbindAtBoundary p k) s = .next t ∧ Unbound s t p.val k.val im)
        ∧ (slotBusy s p.val k.val = true → exec (.unbindAtBoundary p k) s = .next s))

/-- An image loads and is bound; an unbind waits for the boundary (R170, R171, R172, R173). -/
def Obligations.ImagesBindAndUnbind : Prop :=
  BindingLoadsThenBinds ∧ UnbindingWaitsForTheBoundary

-- partitions, power and errors

/-- ENABLE after READY of a partition out of reset runs the checks of Table 12.1: the first that fails is recorded in FAB_PART_ERR and
nothing else changes; with none the partition is on with its registers' parameters, and its tiles are fresh (R316, R465). -/
def Obligations.EnableRunsTheChecks : Prop :=
  ∀ (p : PartId) (s : State), isReady s = true → s.rst.partHeld.getLsbD p.val = false → s.rst.partRst.getLsbD p.val = false →
    (getPart s p.val).reshaping = false → (getPart s p.val).on = false →
    (∀ c, paramCause s p.val (regParams s p.val) = some c → exec (.enable p) s = .next (recordErr s (fabErr p.val) c))
      ∧ (paramCause s p.val (regParams s p.val) = none → ∃ t, exec (.enable p) s = .next t ∧ (getPart t p.val).on = true
        ∧ (getPart t p.val).pars.geom = regGet s (fabOff p.val 0) ∧ (getPart t p.val).pars.mem = regGet s (fabOff p.val 4)
        ∧ (getPart t p.val).pars.sched = regGet s (fabOff p.val 8)
        ∧ (∀ n ∈ (getPart t p.val).pars.tiles, getTile t n = Tile.reset)
        ∧ ∀ q < 16, q ≠ p.val → getPart t q = getPart s q)

/-- DISABLE is refused with cause 8 while any context is bound to the partition, any image is bound, or any launch entry is valid. -/
def Obligations.DisableRefusedWhileInUse : Prop :=
  ∀ (p : PartId) (s : State), s.rst.phase ≠ .bootFail → (getPart s p.val).reshaping = false → (getPart s p.val).on = true →
    ((∃ c < 64, (getCtx s c).on = true ∧ (getCtx s c).part = p.val) ∨ (∃ k < 8, (getSlot s p.val k).img.isSome = true)
      ∨ (∃ j < 64, entryOn s p.val j = true)) →
    exec (.disable p) s = .next (recordErr s (fabErr p.val) 8)

/-- DISABLE of a partition that nothing uses takes it off the fabric: nothing of it is left, its sides are free and every other
partition is as it was. A RESHAPE request is recorded to wait for its boundary, or refused with cause 10; either is refused with cause
12 while the partition re-shapes (R334, R540). -/
def PartitionRequests : Prop :=
  ∀ (p : PartId) (s : State), s.rst.phase ≠ .bootFail → (getPart s p.val).on = true →
    ((getPart s p.val).reshaping = false → disableBusy s p.val = false →
        ∃ t, exec (.disable p) s = .next t ∧ getPart t p.val = Part.reset ∧ t.mem.sides = dropSides s.mem.sides p.val
          ∧ ∀ q, q ≠ p.val → getPart t q = getPart s q)
      ∧ ((getPart s p.val).reshaping = false → reshapeRefused s p.val (regParams s p.val) = false →
        exec (.reshape p) s = .next (setPart s p.val { getPart s p.val with reshapeAsked := true }))
      ∧ ((getPart s p.val).reshaping = false → reshapeRefused s p.val (regParams s p.val) = true →
        exec (.reshape p) s = .next (recordErr s (fabErr p.val) 10))
      ∧ ((getPart s p.val).reshaping = true → exec (.disable p) s = .next (recordErr s (fabErr p.val) 12)
        ∧ exec (.reshape p) s = .next (recordErr s (fabErr p.val) 12))

/-- The parameters after a re-shape: with none asked for or none pending those in force stay; those asked for and pending are in force,
or refused and still pending (R334, R335, R540). -/
def Reseated (s t : State) (p : Nat) : Prop :=
  let x := getPart s p
  let y := getPart t p
  let r := regParams s p
  let keeps := y.pars.geom = x.pars.geom ∧ y.pars.mem = x.pars.mem ∧ y.pars.sched = x.pars.sched ∧ y.pendingPars = x.pendingPars
  (x.applyPars = false ∨ x.pendingPars = false → keeps)
    ∧ (x.applyPars = true → x.pendingPars = true →
      keeps ∨ (y.pendingPars = false ∧ y.pars.geom = r.geom ∧ y.pars.mem = r.mem ∧ y.pars.sched = r.sched))

/-- A re-shape starts in every affected partition at the first tick with no latency-critical command of theirs under way; their
best-effort commands in VERIFY wait for a re-run. It ends in all of them together, seated afresh (R328). ANL_GO lets the re-shapes that wait for it start (R335, R525). -/
def ReshapesRunTogether : Prop :=
  ∀ s : State,
    (isReady s = true → inHold s = false → (∃ p < 16, (affectedParts s).getLsbD p = true ∧ (getPart s p).on = true) →
        (∀ p < 16, (affectedParts s).getLsbD p = true → (getPart s p).on = true →
          lcBusy s p = false ∧ (getPart s p).reshaping = false) →
        ∃ t, exec .reshapeStart s = .next t ∧ ∀ p < 16, (affectedParts s).getLsbD p = true → (getPart s p).on = true →
          (getPart t p).reshaping = true ∧ (getPart t p).reshapeAsked = false
            ∧ (getPart t p).applyPars = (getPart s p).reshapeAsked
            ∧ ∀ r b, getBe t r = some b → b.part = p → b.cmd.st ≠ .verify)
      ∧ (inHold s = false → (∃ p < 16, (getPart s p).reshaping = true) →
        (∀ p < 16, (getPart s p).reshaping = true → (getPart s p).kill = none) →
        ∃ t, exec .reshapeEnd s = .next t ∧ ∀ p < 16, (getPart t p).reshaping = false
          ∧ ((getPart s p).reshaping = true → (getPart t p).applyPars = false ∧ Reseated s t p))
      ∧ (s.rst.phase ≠ .bootFail → (∃ u ∈ s.anl.pending, needsReshape u = true ∧ unitMode s u ≠ 0) →
        ∃ t, exec .anlGo s = .next t ∧ t.anl.goAsked = true ∧ t.anl.pending = s.anl.pending)

/-- DISABLE and RESHAPE requests, and the re-shapes that follow (R334, R335, R525, R540). -/
def Obligations.PartitionsReshape : Prop :=
  PartitionRequests ∧ ReshapesRunTogether

/-- Hold begins once the supply has stayed below its warning level: the command on every partition's tiles is killed to be run again.
It ends once the supply is back (R339, R340). The warning bit is set and cleared with its comparator, and before READY it pauses the
release (R466). -/
def Obligations.HoldKillsForTheRerun : Prop :=
  ∀ s : State,
    (isReady s = true → s.rst.vddkWarn = true → s.rst.hold = none →
        ∃ t, exec .holdEntry s = .next t ∧ t.rst.hold = some (lc s) ∧ (∀ p < 16, ∀ k, (getPart s p).on = true →
          (getPart s p).holder = some k → (getPart s p).kill = none → (getPart t p).kill = some ⟨k, .hold, true, []⟩))
      ∧ (s.rst.hold.isSome = true → s.rst.vddkWarn = false →
        ∃ t, exec .holdExit s = .next t ∧ t.rst = { s.rst with hold := none })
      ∧ (s.rst.vddkWarn = true → exec .holdExit s = .next s)
      ∧ (∃ t, exec .vddkWarnRise s = .next t ∧ t = { s with rst := { s.rst with
          vddkWarn := true, paused := s.rst.paused || decide (s.rst.phase = .coldRelease ∨ s.rst.phase = .warmRelease) } })
      ∧ exec .vddkWarnClear s = .next { s with rst := { s.rst with vddkWarn := false } }
      ∧ (s.rst.vddkWarn = false → exec .bootPauseEnd s = .next { s with rst := { s.rst with paused := false } })

/-- Power domains move as R470 lets them: down only to a deeper state that Table 17.6 allows; up at once, but no more than eight quads
from Off or Retain in a µs, and a quad with resident strokes that was Off is in Run only when they have been reloaded (R167, R469,
R470). -/
def PowerDomainsMove : Prop :=
  ∀ (d : Fin 96) (st : PowerState) (s : State),
    (depthOf (domState s d.val) < depthOf st → domAllowed s d.val st = true →
        ∃ t, exec (.powerDomainLower d st) s = .next t ∧ domState t d.val = st)
      ∧ (domAllowed s d.val st = false ∨ depthOf st ≤ depthOf (domState s d.val) → exec (.powerDomainLower d st) s = .next s)
      ∧ (64 ≤ d.val ∨ domState s d.val = .gated → s.pwr.reloads.contains d.val = false → domState s d.val ≠ .run →
        ∃ t, exec (.powerDomainWake d) s = .next t ∧ domState t d.val = .run)
      ∧ (d.val < 64 → domState s d.val = .off → s.pwr.reloads.contains d.val = false → s.lt - s.pwr.wakeTick < 400 →
        (8 ≤ s.pwr.wakes → exec (.powerDomainWake d) s = .next s)
        ∧ (s.pwr.wakes < 8 → quadResident s d.val = false → ∃ t, exec (.powerDomainWake d) s = .next t
          ∧ domState t d.val = .run ∧ t.pwr.wakes = s.pwr.wakes + 1)
        ∧ (s.pwr.wakes < 8 → quadResident s d.val = true → ∃ t, exec (.powerDomainWake d) s = .next t
          ∧ domState t d.val = .off ∧ d.val ∈ t.pwr.reloads))
      ∧ (∀ q : Fin 64, s.pwr.reloads.contains q.val = true →
        ∃ t, exec (.strokeReload q) s = .next t ∧ domState t q.val = .run ∧ q.val ∉ t.pwr.reloads)

/-- 32 readings are taken whole; at TJ_CRIT of its grade or more, after READY, the device enters its safe state with throttle level 8, and below
that no reading ends or begins it (R473, R476). Once in 10 ms the throttle level rises or falls by one, never past 8 (R475). The safe
state ends by PWR_SAFE_CLR after 100 ms at or below 10 °C under TJ_CRIT, and no sooner (R476). -/
def TemperatureThrottles : Prop :=
  ∀ (l : List Int) (s : State),
    (l.length = 32 → ∃ t, exec (.tjSample l) s = .next t ∧ t.pwr.readings = l
        ∧ (tjCrit s ≤ tjMax l → isReady s = true → s.pwr.safe = false → t.pwr.safe = true ∧ throttle t = 8)
        ∧ (tjMax l < tjCrit s → t.pwr.safe = s.pwr.safe ∧ throttle t = throttle s))
      ∧ (s.pwr.safe = false → tjWarn s ≤ tjMax s.pwr.readings ∨ capMw s < s.pwr.estimate →
        exec .throttleStep s = .next (setThrottle s (min 8 (throttle s + 1))))
      ∧ (s.pwr.safe = false → s.pwr.estimate ≤ capMw s → tjMax s.pwr.readings < tjWarn s - 12 →
        exec .throttleStep s = .next (setThrottle s (throttle s - 1)))
      ∧ (∀ mW, ∃ t, exec (.powerEstimate mW) s = .next t ∧ t.pwr = { s.pwr with estimate := mW })
      ∧ (s.rst.phase ≠ .bootFail → s.pwr.safe = true → ∀ k, s.pwr.coolSince = some k →
        (k + 40000000 ≤ s.lt → ∃ t, exec .pwrSafeClr s = .next t ∧ t.pwr.safe = false)
        ∧ (s.lt < k + 40000000 → exec .pwrSafeClr s = .next s))

/-- Power domains move, and temperature and power throttle the device (R167, R469, R470, R473, R475, R476). -/
def Obligations.PowerAndTemperature : Prop :=
  PowerDomainsMove ∧ TemperatureThrottles

/-- An uncorrectable error is logged with its array, address and tick and counted; one in an instance's memory tears down the
context of that instance, one in the workspace of a best-effort model command its context (which workspace an address lies in is the
model's choice, assumption 86), and one in a master marks its slot so that no reload is taken from it (R337, R444, Table 16.8). A scrub that
corrects counts the word in its array, and its address with its second correction (R442, R444). -/
def ErrorsAreLoggedAndCharged : Prop :=
  ∀ (e : ErrorPlace) (addr : Word) (s : State),
    (∃ t, exec (.uncorrectableError e addr) s = .next t ∧ t.mem.ueCount = satInc 32 s.mem.ueCount
        ∧ t.mem.log.getLast? = some ⟨(placeOf s e addr.toNat).1, addr, lc s⟩
        ∧ (∀ p num i, (e = .primary p num ∨ e = .assayCopy p num ∨ e = .saved p (.state num)) → (getPart s p.val).inst? num.toNat = some i → (getCtx s i.ctx).on = true →
            ∀ r < 8, (getRing t i.ctx r).items = [])
        ∧ (∀ p c, e = .workspace p → workspaceCtx s p.val addr.toNat = some c → (getCtx s c).on = true →
            ∀ r < 8, (getRing t c r).items = [])
        ∧ (∀ p k, e = .master p k → (getSlot s p.val k.val).img.isSome = true → (getSlot t p.val k.val).masterBad = true))
      ∧ ∀ a : Fin 55, (∃ t, exec (.scrub a addr true) s = .next t
          ∧ tblGet 0 t.mem.ce a.val = satInc 32 (tblGet 0 s.mem.ce a.val)
          ∧ tblGet 0 t.mem.ceMulti a.val = (if (tblGet [] s.anl.rowCe (a.val * 2 ^ 32 + addr.toNat)).length = 1
            then satInc 32 (tblGet 0 s.mem.ceMulti a.val) else tblGet 0 s.mem.ceMulti a.val))
        ∧ exec (.scrub a addr false) s = .next s

/-- The known-answer tests: a lane with no posting in its group that passes is proven, and the last to pass after a clock fault lets
checks be trusted again; one that fails is marked faulty. A clock fault leaves no lane proven and no check in the pool. A free tile in
Run counts its failures in a row (R284, R285, R524). -/
def KnownAnswersJudgeTheUnits : Prop :=
  ∀ s : State,
    (∀ lane : Fin 16, (∀ p < 16, (laneParts s lane.val).getLsbD p = true → (getPart s p).postings = []) →
        (∃ t, exec (.assayKat lane true) s = .next t ∧ t.assay.proven = s.assay.proven ||| BitVec.ofNat 16 (2 ^ lane.val)
          ∧ t.assay.clockOk = (s.assay.clockOk || decide (t.assay.proven = 0xFFFF)) ∧ t.assay.faulty = s.assay.faulty)
        ∧ (∃ t, exec (.assayKat lane false) s = .next t
          ∧ t.assay.faulty = s.assay.faulty ||| BitVec.ofNat 16 (2 ^ lane.val)))
      ∧ (∃ t, exec .assayClockFault s = .next t ∧ t.assay.clockOk = false ∧ t.assay.proven = 0 ∧ t.assay.beQueue = [])
      ∧ (∀ (n : TileId) (p : Nat) (pass : Bool), tilePart s n.val = some p → (getPart s p).holder = none →
        (getPart s p).kill = none → (openTick s p (count s p) = true ∨ (getPart s p).returned = true) →
        domState s (tileQuad s n.val) = .run →
        ∃ t, exec (.tileKat n pass) s = .next t
          ∧ tblGet 0 t.anl.kat (physTile s n.val) = if pass then 0 else tblGet 0 s.anl.kat (physTile s n.val) + 1)

/-- Memory errors are logged and charged, and known-answer tests judge lanes and tiles (R284, R285, R337, R442, R444, R524). -/
def Obligations.ErrorsAndKnownAnswers : Prop :=
  ErrorsAreLoggedAndCharged ∧ KnownAnswersJudgeTheUnits

-- the Nib engines

/-- ARM, REARM, STOP and SWAP of an engine: each has its effect in the states Table 11.4 gives it, and is refused elsewhere with the
cause in NIB_ENG_STAT; an engine is armed only with every check of Table 11.1 passed, and a swap is taken only with a valid inactive
bank, while the active one stays in use (R288, R304). What refuses STOP and REARM is the model's reading (assumption 45), and so is a swap
in CONFIG whose S has come, which acts at once (assumption 53). -/
def Obligations.EngineRequests : Prop :=
  ∀ (n : EngineId) (s : State), s.rst.phase ≠ .bootFail →
    let e := getNib s n.val
    (isReady s = true → e.st = .config → armCause s n.val = none →
        ∃ t, exec (.arm n) s = .next t ∧ getNib t n.val = e.arm s.pwr.safe)
      ∧ (∀ c, isReady s = true → e.st = .config → armCause s n.val = some c → exec (.arm n) s = .next (nibRefuse s n.val c))
      ∧ (isReady s = false → exec (.arm n) s = .next (nibRefuse s n.val 8))
      ∧ (e.st = .safe → ∃ t, exec (.rearm n) s = .next t ∧ (getNib t n.val).st = .armed ∧ (getNib t n.val).out = e.out
        ∧ (getNib t n.val).bank = e.bank ∧ (getNib t n.val).traj = e.traj)
      ∧ (e.st ≠ .safe → exec (.rearm n) s = .next (nibRefuse s n.val 7))
      ∧ ((e.st = .run ∨ e.st = .hold ∨ e.st = .coast) →
        exec (.stop n) s = .next (setNib s n.val { e with st := .ramp, stopAsked := true }))
      ∧ (e.st = .ramp → exec (.stop n) s = .next (setNib s n.val { e with stopAsked := true }))
      ∧ ((e.st = .config ∨ e.st = .armed ∨ e.st = .safe) → exec (.stop n) s = .next (nibRefuse s n.val 7))
      ∧ (bankOk s n.val e.idle = true → (e.st ≠ .config ∨ nibCountNow s n.val < (regGet64 s (nibOff n.val 0x48)).toNat) →
        exec (.swap n) s = .next (setNib s n.val { e with swapAt := some (regGet64 s (nibOff n.val 0x48)).toNat }))
      ∧ (bankOk s n.val e.idle = true → e.st = .config → (regGet64 s (nibOff n.val 0x48)).toNat ≤ nibCountNow s n.val →
        exec (.swap n) s = .next (setNib s n.val { e with bank := !e.bank, swapAt := none }))
      ∧ (bankOk s n.val e.idle = false → exec (.swap n) s = .next (nibRefuse s n.val 5))

/-- The oldest trigger frame of a running engine: earlier than the tolerance it is early and starts no sample, at or past the tolerance
it waits for the free-running slot, and between the two it starts a sample whose next trigger is expected SAMPLE_TICKS after its own
capture tick. With no trigger by the end of the tolerance a slot opens at that tick: SAMPLE_MISSED is set, RUN and HOLD drive the words
they drove before with their states unchanged, SAFE the safe codes, and expected ticks go on from the slot. In ARMED the first frame at or after ARM_COUNT starts RUN and an earlier one
changes nothing it drives; a frame in CONFIG starts no sample (R296, R297, R298, Table 11.4). -/
def Obligations.SamplesFollowTheirTriggers : Prop :=
  ∀ (n : EngineId) (x : Nat) (s : State),
    let e := getNib s n.val
    let late := nibLate s n.val
    let runs := (e.st = .run ∨ e.st = .hold ∨ e.st = .coast ∨ e.st = .ramp ∨ e.st = .safe) ∧ e.expected = some x
    let armAt := (regGet64 s (nibOff n.val 0x40)).toNat
    (∀ f rest, runs → e.triggers = f :: rest →
        (f.cap + late < x → exec (.nibSample n) s = .next (nibFlags (setNib s n.val { e with triggers := rest }) n.val [nfEarly]))
        ∧ (x ≤ f.cap + late → x + late ≤ f.cap → exec (.nibSample n) s = .next s)
        ∧ (x ≤ f.cap + late → f.cap < x + late → ∃ t, exec (.nibSample n) s = .next t
          ∧ ((getNib t n.val).st = .config ∨ (getNib t n.val).expected = some (f.cap + nibSample s n.val)
            ∧ (getNib t n.val).triggers = rest)))
      ∧ (∀ f rest, e.st = .config → e.triggers = f :: rest → ∃ t, exec (.nibSample n) s = .next t
          ∧ (getNib t n.val).st = .config ∧ (getNib t n.val).triggers = rest)
      ∧ (∀ f rest, e.st = .armed → e.safeAsked = false → e.triggers = f :: rest → ∃ t, exec (.nibSample n) s = .next t
          ∧ (armAt ≤ f.cap → nibTrjReq s n.val = false → (getNib t n.val).st = .config
            ∨ ((getNib t n.val).st ≠ .armed ∧ (getNib t n.val).expected = some (f.cap + nibSample s n.val)
              ∧ (getNib t n.val).triggers = rest))
          ∧ (f.cap < armAt → (getNib t n.val).st = .armed ∧ (getNib t n.val).out = e.out ∧ (getNib t n.val).triggers = rest))
      ∧ (runs → (∀ f rest, e.triggers = f :: rest → x + late ≤ f.cap) → x + late ≤ nibCountNow s n.val →
        ∃ t, exec (.freeRunSlot n) s = .next t ∧ wbit (regGet t (nibOff n.val 0x54)) nfMissed = true
          ∧ ((getNib t n.val).st = .config ∨ (getNib t n.val).expected = some (x + late + nibSample s n.val))
          ∧ ((getNib t n.val).st = .run ∨ (getNib t n.val).st = .hold →
              (getNib t n.val).out = e.out ∧ (getNib t n.val).xi = e.xi ∧ (getNib t n.val).secs = e.secs)
          ∧ ((getNib t n.val).st = .safe → (getNib t n.val).out = safeCodes s n.val))

/-- Each access of NIB_COEF_DATA advances WORD by one. A write goes to the word it pointed to, in the inactive bank or the preload; one
to the active bank changes no coefficient and is refused with cause 7 (R545). -/
def Obligations.CoefficientWindow : Prop :=
  ∀ (n : EngineId) (v : Word) (s : State), s.rst.phase ≠ .bootFail →
    let a := regGet s (nibOff n.val 0x80)
    let w := fld a 12 0
    (∃ t, exec (.nibCoefDataAccess n none) s = .next t ∧ fld (regGet t (nibOff n.val 0x80)) 12 0 = (w + 1) % 8192
        ∧ fld (regGet t (nibOff n.val 0x80)) 14 13 = fld a 14 13 ∧ getNib t n.val = getNib s n.val)
      ∧ (fld a 14 13 = 0 → w < 4512 → (getNib s n.val).bank = true →
        ∃ t, exec (.nibCoefDataAccess n (some v)) s = .next t ∧ fld (regGet t (nibOff n.val 0x80)) 12 0 = (w + 1) % 8192
          ∧ getNib t n.val = { getNib s n.val with coef0 := tblSet 0 (getNib s n.val).coef0 w v })
      ∧ (fld a 14 13 = 1 → w < 4512 → (getNib s n.val).bank = false →
        ∃ t, exec (.nibCoefDataAccess n (some v)) s = .next t
          ∧ getNib t n.val = { getNib s n.val with coef1 := tblSet 0 (getNib s n.val).coef1 w v })
      ∧ (fld a 14 13 = 2 → w < 160 →
        ∃ t, exec (.nibCoefDataAccess n (some v)) s = .next t
          ∧ getNib t n.val = { getNib s n.val with preload := tblSet 0 (getNib s n.val).preload w v })
      ∧ ((fld a 14 13 = 0 ∧ (getNib s n.val).bank = false ∨ fld a 14 13 = 1 ∧ (getNib s n.val).bank = true) →
        ∃ t, exec (.nibCoefDataAccess n (some v)) s = .next t ∧ getNib t n.val = getNib s n.val
          ∧ wbit (regGet t (nibOff n.val 0x54)) nfCfgErr = true ∧ fld (regGet t (nibOff n.val 0x54)) 27 24 = 7)

-- Quill links

/-- A link after it has left UP: at rest, with no frame to replay, none half received and none to send. -/
def LeftUp (s t : State) (q : Nat) : Prop :=
  let y := getLink t q
  y.st = restState s q ∧ y.lc.replay = [] ∧ y.be.replay = [] ∧ y.frags = [] ∧ y.bulkIn = [] ∧ y.dataOut = [] ∧ y.bulkOut = []

/-- The states of a Quill link (Table 14.6): PLL lock takes it from OFF, lock from TRAIN to SYNC with CR_LC and RX_LC taken and the
controller's new epoch 0x4000 past the last SEQ used; LINK_UP and LINK_ACK take it to UP with both classes at the epoch; DOWN, errors and
ROLE = LOOP take it out of UP (R382, R383, R391, R550). -/
def Obligations.LinkStatesFollowTable14_6 : Prop :=
  ∀ (q : LinkId) (ep : BitVec 16) (s : State),
    let x := getLink s q.val
    let w := regGet s (qlOff q.val 0)
    (x.st = .off → isReady s = true → s.rst.portRst.getLsbD q.val = false →
        ∃ t, exec (.portPllLock (.quill q)) s = .next t ∧ (getLink t q.val).pll = true
          ∧ (getLink t q.val).st = (if qlOn s q.val = true ∧ qlRole s q.val ≠ 0 then .train else .unconf))
      ∧ (x.st = .train → exec (.lockAcquired q) s = .next (setLink s q.val { x with
          st := .sync, conflict := false, crLc := fld w 28 24, rxLc := fld w 23 19,
          epoch := if qlRole s q.val = 1 then x.lastUsed + 0x4000 else x.epoch }))
      ∧ (x.st = .sync → qlRole s q.val = 1 →
        exec (.linkUpTimer q) s = .next (setLink s q.val { x with lastSet := some (.linkUp x.epoch) }))
      ∧ (x.st = .sync → qlRole s q.val = 2 → ∃ t, exec (.linkUp q ep) s = .next t ∧ (getLink t q.val).st = .up
        ∧ (getLink t q.val).epoch = ep ∧ (getLink t q.val).lc = ⟨ep, ep, false, false, [], 0, 0, 0⟩
        ∧ (getLink t q.val).be.rx = ep ∧ (getLink t q.val).lastSet = some (.linkAck ep))
      ∧ (x.st = .sync → qlRole s q.val = 1 →
        (∃ t, exec (.linkAck q x.epoch) s = .next t ∧ (getLink t q.val).st = .up ∧ (getLink t q.val).be.rx = x.epoch
          ∧ (getLink t q.val).lc = ⟨x.epoch, x.epoch, false, false, [], 0, 0, 0⟩)
        ∧ (ep ≠ x.epoch → exec (.linkAck q ep) s = .next s)
        ∧ exec (.linkUp q ep) s = .next (setLink s q.val { x with conflict := true }))
      ∧ (x.st = .up → (∃ t, exec (.down q) s = .next t ∧ LeftUp s t q.val)
        ∧ (∃ t, exec (.linkErrors q) s = .next t ∧ LeftUp s t q.val))
      ∧ (s.rst.phase ≠ .bootFail → ∃ t, exec (.loopRoleWrite q) s = .next t ∧ (getLink t q.val).st = .looped
        ∧ (getLink t q.val).lc.replay = [] ∧ regGet t (qlOff q.val 0) = w ||| 0xC0000000)

/-- The frames of a link in UP (R379, R384, R385, Table 14.7): the commands that bring one, with its class. -/
def frameOf : Instr → Option (LinkId × QuillFrame × FrameClass)
  | .data q f => some (q, f, .lc)
  | .bulk q f => some (q, f, .be)
  | .ident q f => some (q, f, .be)
  | .leave q f => some (q, f, .be)
  | _ => none

/-- A good frame of the expected SEQ is accepted and ends an outstanding NAK; of a SEQ ahead it is not, and the first such sends a NAK
for the one expected; one whose CRC or code is wrong is counted, and only a copy sent again is then taken. The expected SEQ moves for no
other reason. A frame with a reserved STAT or an RSV bit is counted and discarded (R379, R384, R385). -/
def FramesAreTakenInSequence : Prop :=
  ∀ (c : Instr) (q : LinkId) (f : QuillFrame) (k : FrameClass) (s : State), frameOf c = some (q, f, k) → linkHears s q.val = true →
    let x := (getLink s q.val).cls k
    (rxCheck f = .good → f.seq = x.rx → (x.waitRetx = true → f.retx = true) →
        ∃ t, exec c s = .next t ∧ ((getLink t q.val).cls k).rx = x.rx + 1 ∧ ((getLink t q.val).cls k).nak = false
          ∧ ((getLink t q.val).cls k).freed = x.freed + 1)
      ∧ (rxCheck f = .good → x.waitRetx = false → 2 ^ 15 < (x.rx - f.seq).toNat →
        ∃ t, exec c s = .next t ∧ ((getLink t q.val).cls k).rx = x.rx ∧ ((getLink t q.val).cls k).nak = true
          ∧ (x.nak = false → (getLink t q.val).lastSet = some (nakSet k x.rx)))
      ∧ (rxCheck f = .good → x.waitRetx = false → f.seq ≠ x.rx → (x.rx - f.seq).toNat ≤ 2 ^ 15 →
        ∃ t, exec c s = .next t ∧ (getLink t q.val).cls k = x
          ∧ regGet t (qlOff q.val qlLate) = BitVec.ofNat 32 (satInc 32 (regGet s (qlOff q.val qlLate)).toNat))
      ∧ (rxCheck f = .retry →
        ∃ t, exec c s = .next t ∧ ((getLink t q.val).cls k).rx = x.rx ∧ ((getLink t q.val).cls k).nak = true
          ∧ ((getLink t q.val).cls k).waitRetx = true
          ∧ regGet t (qlOff q.val qlCode) = BitVec.ofNat 32 (satInc 32 (regGet s (qlOff q.val qlCode)).toNat))
      ∧ (rxCheck f = .discard → ∃ t, exec c s = .next t ∧ (getLink t q.val).cls k = x)

/-- What accepted frames of the BE class do beside their sequence, and NULL frames: an IDENT gives the partner's buffer, a LEAVE takes
every partner of the link to GONE, a BULK fragment that is not the last is kept; a good NULL changes nothing, and a NULL with a wrong CRC
or code is counted, and marks the link's transceiver failed when it is one error too many for the LANE_ERR of the last 10 s (R378, R379,
R398, R524). -/
def BestEffortFramesAndNull : Prop :=
  ∀ (q : LinkId) (f : QuillFrame) (s : State), linkHears s q.val = true →
    let x := getLink s q.val
    (rxCheck f = .good → f.seq = x.be.rx → x.be.waitRetx = false →
        ((identOf (padWords 8 f.payload)).bad = false → x.bulkOut = [] →
          ∃ t, exec (.ident q f) s = .next t ∧ (getLink t q.val).partnerBuf = (identOf (padWords 8 f.payload)).buf)
        ∧ (∃ t, exec (.leave q f) s = .next t ∧ ∀ n < 256, (getPartner s n).att = .quill q.val →
            (getPartner t n).st ≠ .active ∧ (getPartner t n).st ≠ .joining)
        ∧ (f.last = false → ∃ t, exec (.bulk q f) s = .next t
            ∧ (getLink t q.val).bulkIn = x.bulkIn ++ [padWords 8 f.payload]))
      ∧ (rxCheck f = .good → exec (.null q f) s = .next s)
      ∧ (rxCheck f = .retry → ∃ t, exec (.null q f) s = .next t ∧ t.links = tblSet Link.reset s.links q.val { x with
            errs := within x.errs s.lt 4000000000 }
          ∧ regGet t (qlOff q.val qlCode) = BitVec.ofNat 32 (satInc 32 (regGet s (qlOff q.val qlCode)).toNat)
          ∧ (x.upAt + 4000000000 ≤ s.lt → fld (regGet s (anlOff 4)) 13 0 < 200 * (within x.errs s.lt 4000000000).length →
            unitMarked s uQuill q.val = false → sparesLeft s uQuill q.val = 1 → spareClaims s uQuill q.val = 0 →
            unitMarked t uQuill q.val = true)
          ∧ (s.lt < x.upAt + 4000000000 → t.anl = s.anl))

/-- Frames a link in UP receives: their sequence, and what they bring (R378, R379, R384, R385, R398). -/
def Obligations.QuillFramesAreTaken : Prop :=
  FramesAreTakenInSequence ∧ BestEffortFramesAndNull

/-- What a link in UP sends: a waiting sample leaves whole, taking one SEQ and one credit of its class a frame, or with too few credits
is dropped and its frames counted; a NAK sends the frame it names and those after it again with RETX = 1, or is ignored and counted; the
CREDIT set carries the frames freed, and one received moves the partner's freed count on to it modulo 256; a NAK that is not answered in
time gives its frame up. In UNCONF a NULL frame with STAT NOT_VALID leaves (R385, R386, R387, R390, Table 14.6). -/
def Obligations.LinksSendAndReplay : Prop :=
  ∀ (q : LinkId) (s : State),
    let x := getLink s q.val
    (∀ o rest, x.st = .up → x.dataOut = o :: rest →
        ((sampleFrames o.stat o.words).length ≤ x.credits .lc → ∃ t, exec (.dataHandover q) s = .next t
          ∧ (getLink t q.val).dataOut = rest ∧ (getLink t q.val).lc.sent = x.lc.sent + (sampleFrames o.stat o.words).length
          ∧ (getLink t q.val).lc.tx = x.lc.tx + BitVec.ofNat 16 (sampleFrames o.stat o.words).length)
        ∧ (x.credits .lc < (sampleFrames o.stat o.words).length → exec (.dataHandover q) s = .next
            (regSet (setLink s q.val { x with dataOut := rest }) (qlOff q.val qlNoCred)
              (BitVec.ofNat 32 (satAdd 32 (regGet s (qlOff q.val qlNoCred)).toNat (sampleFrames o.stat o.words).length)))))
      ∧ (∀ (c : Instr) (k : FrameClass) (seq : BitVec 16), (c = .nakLc q seq ∧ k = .lc ∨ c = .nakBe q seq ∧ k = .be) → x.st = .up →
        (∀ i, (x.cls k).replay.findIdx? (fun f => decide (f.seq = seq ∧ f.retx = false)) = some i →
          ∃ t, exec c s = .next t ∧ ((getLink t q.val).cls k).replay
              = (x.cls k).replay.take i ++ ((x.cls k).replay.drop i).map (fun f => { f with retx := true })
            ∧ ((getLink t q.val).cls k).tx = (x.cls k).tx)
        ∧ ((∀ f ∈ (x.cls k).replay, f.seq = seq → f.retx = true) → exec c s = .next (bump s (qlOff q.val qlNakIgn))))
      ∧ (∀ k, x.st = .up → (x.cls k).nak = true → ∃ t, exec (.nakTimeout q k) s = .next t
        ∧ ((getLink t q.val).cls k).rx = (x.cls k).rx + 1 ∧ ((getLink t q.val).cls k).nak = false
        ∧ regGet t (qlOff q.val qlLost) = BitVec.ofNat 32 (satInc 32 (regGet s (qlOff q.val qlLost)).toNat))
      ∧ (∀ k f rest, (x.cls k).replay = f :: rest → ∃ t, exec (.replayExpire q k) s = .next t
        ∧ ((getLink t q.val).cls k).replay = rest)
      ∧ (x.st = .up → exec (.creditTimer q) s = .next (setLink s q.val { x with
          lastSet := some (.credit (x.lc.freed % 256) (x.be.freed % 256)) }))
      ∧ (∀ a b : BitVec 8, x.st = .up → x.bulkOut = [] → ∃ t, exec (.credit q a b) s = .next t
        ∧ (getLink t q.val).lc.partnerFreed % 256 = a.toNat ∧ (getLink t q.val).be.partnerFreed % 256 = b.toNat
        ∧ x.lc.partnerFreed ≤ (getLink t q.val).lc.partnerFreed ∧ x.be.partnerFreed ≤ (getLink t q.val).be.partnerFreed)
      ∧ (x.st = .unconf → ∃ t f, exec (.unconfNullTimer q) s = .next t ∧ (getLink t q.val).lastTx = some f ∧ f.ftype = 0
        ∧ f.stat = 6)

-- direct ports, Ethernet and partners

/-- A frame of a configured input port with its PLL locked: one whose length, CRC, RSV bits or STAT fail is counted; a good one of a
bound inbound stream reaches every engine of an enabled partition outside CONFIG whose trigger it is. An unconfigured output port with its PLL locked sends its
safe frame. PLL lock is noted (R374, R392, R394, R403). -/
def DirectPortFrames : Prop :=
  ∀ (d : PortId) (f : PortFrame) (s : State), isReady s = true → s.rst.portRst.getLsbD (16 + d.val) = false →
    let i := 16 + d.val
    (exec (.portPllLock (.direct d)) s = .next (setDport s d.val { getDport s d.val with pll := true }))
      ∧ (dpIsIn s d.val = true → (getDport s d.val).pll = true → dpFrameOk s d.val f = false →
        ∃ t, exec (.dpFrameRx d f) s = .next t ∧ t.nibs = s.nibs
          ∧ regGet t (dpOff d.val 4) = BitVec.ofNat 32 (satInc 32 (regGet s (dpOff d.val 4)).toNat))
      ∧ (dpIsIn s d.val = true → (getDport s d.val).pll = true → dpFrameOk s d.val f = true → fld f.header 15 12 ≠ 6 →
        strmOn s i = true → strmIsOut s i = false →
        ∃ t g, exec (.dpFrameRx d f) s = .next t ∧ g.cap = lc s ∧ g.words = f.words.map (fun (w : Word) => w <<< (32 - dpWidth s d.val))
          ∧ ∀ n < 16, (enginePart s n).isSome = true → (getNib s n).st ≠ .config → engineReplays s n = false → nibStreams s n = [i] → nibTrig s n = 0 →
            (getNib t n).triggers = (getNib s n).triggers ++ [g])
      ∧ (s.fuse.dpOutputs.getLsbD d.val = true → wbit (tblGet 0 s.fuse.dpSafe d.val) 31 = true →
        fld (tblGet 0 s.fuse.dpSafe d.val) 23 16 ≠ 0 → (getDport s d.val).pll = true → wbit (regGet s (dpOff d.val 0)) 31 = false →
        ∃ t g, exec (.safeFrameTimer d) s = .next t ∧ (getDport t d.val).lastTx = some g ∧ g.stat = 6
          ∧ g.seq = (getDport s d.val).safeSeq ∧ (getDport t d.val).safeSeq = (getDport s d.val).safeSeq + 1
          ∧ g.payload.length = fld (tblGet 0 s.fuse.dpSafe d.val) 12 8 + 1)

/-- A stream frame on an Ethernet port brings its link up and ends its MAC's silence; a good DATA frame of an ACTIVE partner on the stream
its port and tag name, not late, moves that stream's expected SEQ past it. A partner that is silent too long is GONE; APPROVE and REJECT
move one that is JOINING, and each change of state advances FIO_PTN_GEN (R396, R397, R399, Table 14.14). -/
def EthernetFramesAndPartners : Prop :=
  ∀ (e : EthId) (f : EthFrame) (n : PartnerId) (s : State),
    (ethOn s e.val = true → (getEth s e.val).pll = true → isReady s = true → s.rst.portRst.getLsbD (24 + e.val) = false →
        (∃ t, exec (.ethStreamRx e f) s = .next t ∧ (getEth t e.val).up = true)
        ∧ (∀ m i, fld (regGet s (ethOff e.val 0)) 31 16 = f.etype.toNat → ethHeaderOk f = true → EthFrame.ftype f = 1 →
          macEntry s e.val f.src = some m → (getPartner s m).st = .active → tagStreams s e.val (fld f.header1 31 16) = [i] →
          pidMatches s i (some (getPartner s m)) = true →
          ethSeqLate (getEth s e.val) i (BitVec.ofNat 16 (fld f.header0 15 0)) = false →
          ∃ t, exec (.ethStreamRx e f) s = .next t ∧ (getPartner t m).seen = s.lt
            ∧ tblGet none (getEth t e.val).expect i = some (BitVec.ofNat 16 (fld f.header0 15 0) + 1)))
      ∧ (∀ a m, (getPartner s n.val).att = .eth a m → ((getPartner s n.val).st = .joining ∨ (getPartner s n.val).st = .active) →
        (getPartner s n.val).seen + 400000 * fld (regGet s (fioOff 0x30)) 13 0 ≤ s.lt →
        ∃ t, exec (.partnerSilence n) s = .next t ∧ getPartner t n.val = { getPartner s n.val with st := .gone, leave := lc s }
          ∧ regGet t (fioOff 0) = regGet s (fioOff 0) + 1)
      ∧ (s.rst.phase ≠ .bootFail → (getPartner s n.val).st = .joining →
        (∃ t, exec (.approve n) s = .next t ∧ getPartner t n.val = { getPartner s n.val with st := .active }
          ∧ regGet t (fioOff 0) = regGet s (fioOff 0) + 1)
        ∧ (∃ t, exec (.reject n) s = .next t ∧ getPartner t n.val = { getPartner s n.val with st := .gone, leave := lc s }
          ∧ regGet t (fioOff 0) = regGet s (fioOff 0) + 1))

/-- Direct ports, Ethernet ports and the partners on them (R374, R392, R394, R396, R397, R399, R403). -/
def Obligations.OtherPortsAndPartners : Prop :=
  DirectPortFrames ∧ EthernetFramesAndPartners

-- time

/-- A tick adds INCR to T; while REFCLK is lost T moves by 25 · INCR at each oscillator cycle in place of that; in Cold reset it stands.
Neither moves INCR or the servo. SYNC_OUT rises when T has just come to 2.5 ns × X for a multiple X of 2^SYNC_P above M. REFCLK lost, the device runs on the oscillator
and CLOCK_LOSS holds it in Warm reset; its return ends the source (R405, R421, R422, R447). -/
def Obligations.TimeMoves : Prop :=
  ∀ s : State,
    (s.rst.phase ≠ .coldReset → s.tu.refLost = false → ∃ t, exec .tick s = .next t ∧ t.lt = s.lt + 1
        ∧ t.tu.t = s.tu.t + BitVec.ofNat 96 s.tu.incr.toNat ∧ t.tu.incr = s.tu.incr ∧ t.tu.st = s.tu.st ∧ t.tu.integ = s.tu.integ)
      ∧ (s.rst.phase ≠ .coldReset → s.tu.refLost = true → ∃ t, exec .oscillatorCycle s = .next t ∧ t.lt = s.lt + 25
        ∧ t.tu.t = s.tu.t + BitVec.ofNat 96 (25 * s.tu.incr.toNat) ∧ t.tu.incr = s.tu.incr ∧ t.tu.st = s.tu.st ∧ t.parts = s.parts)
      ∧ ((s.rst.phase = .coldReset ∨ s.tu.refLost = true) → exec .tick s = .next s)
      ∧ (let w := regGet s (tuOff 0x58)
        let x := lc s / 2 ^ fld w 20 16 * 2 ^ fld w 20 16
        wbit w 31 = true → s.tu.mark < x → s.tu.t.toNat < x * 0x280000000 + (if s.tu.refLost then 25 else 1) * s.tu.incr.toNat →
          exec .syncOutPulse s = .next { s with tu := { s.tu with syncOut := true, syncLeft := fld w 7 0 } })
      ∧ (s.tu.refLost = false → s.rst.phase = .ready → ∃ t, exec .refclkLoss s = .next t ∧ t.tu.refLost = true
        ∧ t.rst.phase = .warmReset ∧ t.rst.warm.getLsbD 3 = true ∧ t.rst.cause = 11
        ∧ (regGet s (tuOff 0x40) = 0 → t.tu = { s.tu with refLost := true })
        ∧ (fld (regGet s (tuOff 0x40)) 1 0 = 2 → t.tu.st = .holdover ∧ t.tu.cause = 4))
      ∧ (∃ t, exec .refclkReturn s = .next t ∧ t.tu = { s.tu with refLost := false }
        ∧ t.rst = { s.rst with warm := s.rst.warm &&& 0x7 })

/-- The servo states in which a measurement of the source steers the count. -/
def tracking (s : State) : Prop := s.tu.st = .acquire ∨ s.tu.st = .locked ∨ s.tu.st = .stepPending

/-- What the servo of R416 does with an offset `e`: within the jump threshold I and INCR move by the gains, clamped to R406's range; past it
they stay, the refusal is counted, and the JUMP_N-th in a row makes STEP_PENDING with the proposal −e. -/
def servoRule (s t : State) (e : Int) : Prop :=
  (jumpFails s e = false →
      t.tu.integ = clampI (s.tu.integ - roundPow ((regGet s (tuOff 0x48)).toNat * e) 32) (-1073741) 1073741
      ∧ t.tu.incr = BitVec.ofInt 40 (clampI (0x280000000 + t.tu.integ - roundPow ((regGet s (tuOff 0x44)).toNat * e) 32)
          (0x280000000 - 1073741) (0x280000000 + 1073741))
      ∧ t.tu.refused = 0 ∧ t.tu.st ≠ .stepPending)
    ∧ (jumpFails s e = true → t.tu.integ = s.tu.integ ∧ t.tu.refused = s.tu.refused + 1
      ∧ (s.tu.refused + 1 ≠ fld (regGet s (tuOff 0x4C)) 31 24 → t.tu.st = s.tu.st ∧ t.tu.incr = s.tu.incr)
      ∧ (s.tu.refused + 1 = fld (regGet s (tuOff 0x4C)) 31 24 → t.tu.st = .stepPending ∧ t.tu.proposal = roundPow (-e) 16
        ∧ t.tu.stepId = s.tu.stepNext ∧ t.tu.incr = BitVec.ofInt 40 (0x280000000 + s.tu.integ)))

/-- Measurements steer the servo. The offset and the path delay of a PTP exchange are those of its timestamps at the port's pins (R412,
R413, R415; as IEEE 1588 computes them, assumption 93), and an exchange that began before the last step is discarded. The first one
sets pd_mean; a path delay further from pd_mean than ASYM_NS puts the servo in HOLDOVER,
cause ASYM, and its offset is not used; else the offset goes to the servo, as a SYNC_IN edge's does, which is its distance, taken to an
eighth of a tick, from the nearest pulse instant; a narrow or early edge is only counted. T itself never moves (R416, R418, R423). -/
def Obligations.MeasurementsSteer : Prop :=
  ∀ s : State, tracking s →
    (∀ (p : EthId) (y : PtpSync) (d : PtpDelay), min y.began d.began < s.tu.stepTick → exec (.ptpMeasurement p y d) s = .next s)
      ∧ (∀ (p : EthId) (y : PtpSync) (d : PtpDelay), isReady s = true → fld (regGet s (tuOff 0x40)) 1 0 = 1 → ptpPortOn s p.val = true →
        s.tu.stepTick ≤ min y.began d.began →
        let e := ptpOffset s p.val y d
        let pd := ptpPd s p.val y d
        ∃ t, exec (.ptpMeasurement p y d) s = .next t ∧ t.tu.t = s.tu.t
          ∧ (s.tu.pdMean = none → t.tu.pdMean = some (pd, 0) ∧ servoRule s t e)
          ∧ (∀ m, s.tu.pdMean = some m → asymFails s m pd = true →
              t.tu.st = .holdover ∧ t.tu.cause = 1 ∧ t.tu.pdMean = some m ∧ t.tu.integ = s.tu.integ
              ∧ t.tu.incr = BitVec.ofInt 40 (0x280000000 + s.tu.integ))
          ∧ (∀ m, s.tu.pdMean = some m → asymFails s m pd = false → t.tu.pdMean = some (pdFilter s m pd) ∧ servoRule s t e))
      ∧ (∀ (edge : Int) (narrow : Bool), fld (regGet s (tuOff 0x40)) 1 0 = 2 →
        let te := edge / 20480 * 20480
        (narrow = true → exec (.syncInEdge edge narrow) s
            = .next (bump { s with tu := { s.tu with lastEdge := some te } } (tuOff 0x94)))
        ∧ (∀ last, s.tu.lastEdge = some last → 2 * (te - last) < 2 ^ syncP s * 163840 → exec (.syncInEdge edge narrow) s
            = .next (bump { s with tu := { s.tu with lastEdge := some te } } (tuOff 0x94)))
        ∧ (narrow = false → (∀ last, s.tu.lastEdge = some last → 2 ^ syncP s * 163840 ≤ 2 * (te - last)) →
          ∃ t x e, exec (.syncInEdge edge narrow) s = .next t ∧ t.tu.t = s.tu.t ∧ t.tu.lastEdge = some te
            ∧ e = te - (regGet s (tuOff 0x5C)).toInt * 256 - x * (2 ^ syncP s * 163840)
            ∧ 2 * absI e ≤ 2 ^ syncP s * 163840 ∧ servoRule s t e))

/-- Steps and changes of servo state: TU_STEP_CMD is accepted with the ID wanted, or refused with the first of causes 4, 5 and 6; the
accepted step adds its nanoseconds to T, keeps I, and a tracking servo acquires; ACCEPT ends an asymmetry holdover and is refused
elsewhere; SRC takes effect at once; a lost source, a lost slave port's link and a changed grandmaster hold over (R417, R418, R419,
Table 15.4). -/
def Obligations.StepsAndSources : Prop :=
  ∀ s : State, s.rst.phase ≠ .bootFail →
    let src := fld (regGet s (tuOff 0x40)) 1 0
    (∀ v : Word,
        let by' := (regGet64 s (tuOff 0x80)).toInt
        let want := if s.tu.st = .stepPending then s.tu.stepId.toNat else 0
        let busy := anyEntryValid s = true ∨ ∃ n < 16, (getNib s n).st ≠ .config ∧ (getNib s n).st ≠ .armed ∧ (getNib s n).st ≠ .safe
        (fld v 15 0 ≠ want → exec (.tuStepCmd v) s = .next (recordErr s (tuOff 0x90) 4))
        ∧ (fld v 15 0 = want → wbit v 31 = false → busy → exec (.tuStepCmd v) s = .next (recordErr s (tuOff 0x90) 5))
        ∧ (fld v 15 0 = want → (wbit v 31 = true ∨ ¬ busy) → (s.tu.t.toNat : Int) + by' * 2 ^ 32 < 0 →
          exec (.tuStepCmd v) s = .next (recordErr s (tuOff 0x90) 6))
        ∧ (fld v 15 0 = want → (wbit v 31 = true ∨ ¬ busy) → 0 ≤ (s.tu.t.toNat : Int) + by' * 2 ^ 32 →
          exec (.tuStepCmd v) s = .next { s with tu := { s.tu with accepted := some (by', BitVec.ofNat 16 (fld v 15 0)) } }))
      ∧ (∀ by' id, s.tu.accepted = some (by', id) → ∃ t, exec .stepApply s = .next t
        ∧ t.tu.t = BitVec.ofInt 96 ((s.tu.t.toNat : Int) + by' * 2 ^ 32) ∧ t.tu.accepted = none ∧ t.tu.proposal = 0
        ∧ t.tu.integ = s.tu.integ ∧ (src ≠ 0 → t.tu.st = .acquire) ∧ (by' < 0 → lc s ≤ t.tu.mark))
      ∧ (s.tu.st = .holdover → s.tu.cause = 1 → ∃ t, exec .accept s = .next t ∧ t.tu.st = .acquire
        ∧ t.tu.pdMean = some (s.tu.lastPd, 0) ∧ t.tu.t = s.tu.t)
      ∧ (¬ (s.tu.st = .holdover ∧ s.tu.cause = 1) → exec .accept s = .next (recordErr s (tuOff 0x90) 7))
      ∧ (∀ v : Word, (fld v 1 0 = 3 → exec (.tuSrcWrite v) s = .next (recordErr s (tuOff 0x90) 1))
        ∧ (fld v 1 0 ≠ 3 → ∃ t, exec (.tuSrcWrite v) s = .next t ∧ t.tu.proposal = 0 ∧ t.tu.stepId = 0 ∧ t.tu.t = s.tu.t
          ∧ regGet t (tuOff 0x40) = BitVec.ofNat 32 (fld v 1 0)
          ∧ (fld v 1 0 = 0 → t.tu.st = .freerun ∧ t.tu.incr = BitVec.ofNat 40 (regGet64 s (tuOff 0)).toNat)
          ∧ (fld v 1 0 ≠ 0 → s.tu.refLost = false → t.tu.st = .acquire)))
      ∧ (src ≠ 0 → (s.tu.st = .acquire ∨ s.tu.st = .locked) → ∃ t, exec .sourceTimeout s = .next t ∧ t.tu.st = .holdover
        ∧ t.tu.cause = 2 ∧ t.tu.incr = BitVec.ofInt 40 (0x280000000 + s.tu.integ))
      ∧ (∀ e : EthId, ∃ t, exec (.ethLinkDown e) s = .next t ∧ (getEth t e.val).up = false ∧ (getEth t e.val).slave = false
        ∧ (src = 1 → s.tu.port = e.val → (getEth s e.val).slave = true → (s.tu.st = .acquire ∨ s.tu.st = .locked) →
            t.tu.st = .holdover ∧ t.tu.cause = 2))
      ∧ (∀ g : Word64, src = 1 → s.tu.st ≠ .stepPending → ∃ t, exec (.grandmasterChange g) s = .next t ∧ t.tu.pdMean = none
        ∧ t.tu.st = .holdover ∧ t.tu.cause = 2 ∧ t.tu.t = s.tu.t)

-- resets

/-- The device after a Cold source fires: everything inside it as at reset, with TJ_WARN of its grade, the time unit too; the fuses, the flash and what lies outside
stay, and the source is shown. -/
def ColdResetBy (s t : State) (bit : Nat) : Prop :=
  t.rst.phase = .coldReset ∧ t.rst.cold = s.rst.cold ||| BitVec.ofNat 6 (2 ^ bit)
    ∧ t.rst.cause = (if s.rst.phase = .coldReset then s.rst.cause else bit)
    ∧ t.tu = { TimeUnit.reset with refLost := s.tu.refLost } ∧ (∀ off, regGet t off = if s.fuse.gradeAI = true ∧ off = pwrOff 0x38 then 0x190 else regDefault off)
    ∧ t.ctxs = [] ∧ t.rings = [] ∧ t.parts = [] ∧ t.tiles = [] ∧ t.nibs = [] ∧ t.links = [] ∧ t.blt = Blotter.reset
    ∧ t.fuse = s.fuse ∧ t.flash = s.flash ∧ t.host = s.host

/-- The Cold sources: RESET_N low for 1 µs or more, a brown-out, a shutdown temperature, and in Secured a tamper, put the whole device in
Cold reset; below 250 ns RESET_N does nothing; outside Secured a tamper is only counted. VAUX and a supply that comes back end their
sources (R428, R448, R450, R463, R467, R476, R499). -/
def Obligations.ColdSourcesResetEverything : Prop :=
  ∀ s : State,
    (∀ ns : Nat, (1000 ≤ ns → ∃ t, exec (.resetNLow ns) s = .next t ∧ ColdResetBy s t 2)
        ∧ (ns < 250 → exec (.resetNLow ns) s = .next s)
        ∧ (250 ≤ ns → ns < 1000 → ∃ t, exec (.resetNLow ns) s = .next t
          ∧ (ColdResetBy s t 2 ∨ t = { s with freeCtr := s.freeCtr + 1 })))
      ∧ (∀ r : Rail, r ≠ .vaux → ∃ t, exec (.brownout r) s = .next t ∧ ColdResetBy s t 1
        ∧ t.rst.good = s.rst.good &&& ~~~BitVec.ofNat 7 (2 ^ Rail.bit r) ∧ t.rst.brown = s.rst.brown ||| BitVec.ofNat 7 (2 ^ Rail.bit r))
      ∧ (∃ t, exec (.brownout .vaux) s = .next t ∧ ColdResetBy s t 0 ∧ t.rst.latch = false)
      ∧ (∀ k, ∃ t, exec (.tjShut k) s = .next t ∧ ColdResetBy s t 3)
      ∧ (∀ k, (s.fuse.lifecycle = 2 → ∃ t, exec (.tamper k) s = .next t ∧ ColdResetBy s t 5)
        ∧ (s.fuse.lifecycle ≠ 2 → ∃ t, exec (.tamper k) s = .next t ∧ t.rst = s.rst ∧ t.tu = s.tu
          ∧ (k = .glitch → fld (regGet t (hmkOff 0x0C)) 7 0 = satInc 8 (fld (regGet s (hmkOff 0x0C)) 7 0)
            ∧ fld (regGet t (hmkOff 0x0C)) 15 8 = fld (regGet s (hmkOff 0x0C)) 15 8)
          ∧ (k = .oscillator → fld (regGet t (hmkOff 0x0C)) 15 8 = satInc 8 (fld (regGet s (hmkOff 0x0C)) 15 8)
            ∧ fld (regGet t (hmkOff 0x0C)) 7 0 = fld (regGet s (hmkOff 0x0C)) 7 0)))
      ∧ (s.rst.cold.getLsbD 0 = true → exec .powerOn s = .next { s with rst := { s.rst with
        good := s.rst.good ||| 0x04, cold := s.rst.cold &&& 0x3E, latch := true } })
      ∧ (∀ r : Rail, r ≠ .vaux → ∃ t, exec (.supplyGood r) s = .next t ∧ t.rst.good = s.rst.good ||| BitVec.ofNat 7 (2 ^ Rail.bit r)
        ∧ (t.rst.brown = 0 → t.rst.cold.getLsbD 1 = false) ∧ (t.rst.brown ≠ 0 → t.rst.cold = s.rst.cold))

/-- The device after a Warm source fires in READY: the Warm reach is at reset, contexts wait for their recovery; the time unit keeps its
count, a servo that does not follow PTP the whole of its state; fuses, flash and the request bits stay. -/
def WarmResetBy (s t : State) (bit : Nat) : Prop :=
  t.rst.phase = .warmReset ∧ t.rst.cause = bit ∧ t.rst.warm.getLsbD (bit - 8) = true
    ∧ t.parts = [] ∧ t.tiles = [] ∧ t.nibs = [] ∧ t.partners = [] ∧ t.fuse = s.fuse ∧ t.flash = s.flash
    ∧ t.rst.partHeld = s.rst.partHeld ∧ t.rst.portHeld = s.rst.portHeld ∧ (∀ c, (getCtx t c).recover = (getCtx s c).on)
    ∧ t.tu.t = s.tu.t ∧ (fld (regGet s (tuOff 0x40)) 1 0 ≠ 1 → t.tu = s.tu)

/-- A partition as it was, but for the mark UPSTREAM_STALE of its instances (R234). -/
def SameButStale (x y : Part) : Prop :=
  { y with insts := x.insts } = x ∧ y.insts.map (fun i => { i with upStale := false }) = x.insts.map (fun i => { i with upStale := false })

/-- The Warm sources, from READY: the key of RST_WARM_REQ, and no other, a watchdog not kicked within its timeout, both pulses of 1 µs, the debug port where the
lifecycle allows it, and loss of lock of any PLL but the Assay's; a kick is noted. The request registers assert the partitions and ports
whose bits they newly set, and leave the others as they are, but for the targets of what a reset partition was to commit (R234, R428, R447, R448, R451, R452). -/
def Obligations.WarmAndNarrowSources : Prop :=
  ∀ s : State, s.rst.phase = .ready →
    (∀ v : Word, (fld v 7 0 = 0xA5 → ∃ t, exec (.rstWarmReq v) s = .next t ∧ WarmResetBy s t 9 ∧ t.rst.softEnd = s.lt + 400)
        ∧ (fld v 7 0 ≠ 0xA5 → exec (.rstWarmReq v) s = .next s))
      ∧ (s.rst.kickAt + 400000 * fld (regGet s (rstOff 0x14)) 9 0 ≤ s.lt →
        ∃ t, exec .watchdogExpire s = .next t ∧ WarmResetBy s t 8 ∧ t.rst.wdogEnd = s.lt + 400)
      ∧ (s.lt < s.rst.kickAt + 400000 * fld (regGet s (rstOff 0x14)) 9 0 → exec .watchdogExpire s = .next s)
      ∧ exec .rstWdogKick s = .next { s with rst := { s.rst with kickAt := s.lt } }
      ∧ (debugAllowed s = true → ∃ t, exec .debugReset s = .next t ∧ WarmResetBy s t 10)
      ∧ (∀ pll : Pll, pll ≠ .assay → ∃ t, exec (.pllLockLoss pll) s = .next t ∧ WarmResetBy s t 11)
      ∧ (∀ v : Word, ∃ t, exec (.rstPartReq v) s = .next t ∧ t.rst.partHeld = BitVec.ofNat 16 (fld v 15 0) ∧ t.tu = s.tu
        ∧ ∀ p < 16, (wbit v p = true → s.rst.partHeld.getLsbD p = false → t.rst.partRst.getLsbD p = true ∧ getPart t p = Part.reset)
          ∧ ((wbit v p = false ∨ s.rst.partHeld.getLsbD p = true) → t.rst.partRst.getLsbD p = s.rst.partRst.getLsbD p
            ∧ SameButStale (getPart s p) (getPart t p)))
      ∧ (∀ v : Word, ∃ t, exec (.rstPortReq v) s = .next t ∧ t.rst.portHeld = BitVec.ofNat 28 (fld v 27 0)
        ∧ (∀ n < 28, wbit v n = true → s.rst.portHeld.getLsbD n = false → t.rst.portRst.getLsbD n = true)
        ∧ (∀ q < 16, wbit v q = true → s.rst.portHeld.getLsbD q = false → (getLink t q).st = .off
          ∧ (getLink t q).lastUsed = (getLink s q).lastUsed)
        ∧ (∀ d < 8, wbit v (16 + d) = true → s.rst.portHeld.getLsbD (16 + d) = false → getDport t d = DirectPort.reset)
        ∧ (∀ e < 4, wbit v (24 + e) = true → s.rst.portHeld.getLsbD (24 + e) = false → getEth t e = EthPort.reset))

/-- The releases: with every source of its reach ended and no VDD_K warning, a Cold release loads the fuses, picks a valid boot slot and ends
in READY, a Warm release in READY with its contexts still to recover, and scopes whose request is held stay in reset; what fails ends in
BOOT_FAIL with its cause. Under a VDD_K warning either stops paused before GDDR6 training. A Partition or Port release ends the scope's reset once its request is clear; a failed wipe is BOOT_FAIL (R454,
R455, R458, R463, R464, R466, R483). -/
def Obligations.ReleasesEndResets : Prop :=
  ∀ (fault : BootFault) (s : State),
    (coldFree s = true → s.rst.vddkWarn = false →
        let f := (takeIntent s).fuse
        (fault = .shadow → ∃ t, exec (.coldRelease fault) s = .next t ∧ t.rst.phase = .bootFail ∧ t.rst.bootCause = 2)
        ∧ (fault ≠ .shadow → f.lifecycle = 4 → ∃ t, exec (.coldRelease fault) s = .next t ∧ t.rst.phase = .bootFail ∧ t.rst.bootCause = 5)
        ∧ (fault ≠ .shadow → f.lifecycle ≠ 4 → pickSlot (takeIntent s) = none →
          ∃ t, exec (.coldRelease fault) s = .next t ∧ t.rst.phase = .bootFail ∧ t.rst.bootCause = 1)
        ∧ (∀ b, f.lifecycle ≠ 4 → pickSlot (takeIntent s) = some b →
          (fault = .training → ∃ t, exec (.coldRelease fault) s = .next t ∧ t.rst.phase = .bootFail ∧ t.rst.bootCause = 3)
          ∧ (fault = .wipe → ∃ t, exec (.coldRelease fault) s = .next t ∧ t.rst.phase = .bootFail ∧ t.rst.bootCause = 4)
          ∧ (fault = .none → ∃ t, exec (.coldRelease fault) s = .next t ∧ t.rst.phase = .ready ∧ t.rst.cold = 0 ∧ t.rst.bootSlot = b
            ∧ t.rst.partRst = s.rst.partHeld ∧ t.rst.portRst = s.rst.portHeld ∧ t.mailbox = [] ∧ t.fuse = f
            ∧ t.anl.skip = f.skips)))
      ∧ (∀ b, warmFree s = true → s.rst.vddkWarn = false → pickSlot s = some b →
        (fault = .none → ∃ t, exec (.warmRelease fault) s = .next t ∧ t.rst.phase = .ready ∧ t.rst.warm = 0 ∧ t.rst.bootSlot = b
          ∧ t.rst.partRst = s.rst.partHeld ∧ t.rst.portRst = s.rst.portHeld ∧ t.tu = s.tu
          ∧ (∀ c, (getCtx t c).recover = (getCtx s c).recover) ∧ t.anl.pending = [])
        ∧ (fault = .wipe → ∃ t, exec (.warmRelease fault) s = .next t ∧ t.rst.phase = .bootFail ∧ t.rst.bootCause = 4))
      ∧ (∀ b, s.rst.vddkWarn = true →
        (coldFree s = true → fault ≠ .shadow → (takeIntent s).fuse.lifecycle ≠ 4 → pickSlot (takeIntent s) = some b →
          ∃ t, exec (.coldRelease fault) s = .next t ∧ t.rst.phase = .coldRelease ∧ t.rst.paused = true ∧ t.rst.trained = s.rst.trained)
        ∧ (warmFree s = true → pickSlot s = some b →
          ∃ t, exec (.warmRelease fault) s = .next t ∧ t.rst.phase = .warmRelease ∧ t.rst.paused = true ∧ t.rst.trained = s.rst.trained))
      ∧ (∀ p : PartId, isReady s = true → s.rst.partRst.getLsbD p.val = true → s.rst.partHeld.getLsbD p.val = false →
        (fault = .wipe → ∃ t, exec (.partitionRelease p fault) s = .next t ∧ t.rst.phase = .bootFail ∧ t.rst.bootCause = 4)
        ∧ (fault ≠ .wipe → ∃ t, exec (.partitionRelease p fault) s = .next t
          ∧ t.rst = { s.rst with partRst := s.rst.partRst &&& ~~~BitVec.ofNat 16 (2 ^ p.val) } ∧ t.parts = s.parts
          ∧ ∀ c < 64, (getCtx s c).on = true → (getCtx s c).recover = false → (getCtx s c).part = p.val →
              ∀ r < 8, (getRing t c r).items = [] ∧ (getRing t c r).paused = false))
      ∧ (∀ port : Port, isReady s = true → s.rst.portRst.getLsbD (Port.num port) = true → s.rst.portHeld.getLsbD (Port.num port) = false →
        ∃ t, exec (.portRelease port) s = .next t
          ∧ t.rst = { s.rst with portRst := s.rst.portRst &&& ~~~BitVec.ofNat 28 (2 ^ Port.num port) }
          ∧ t.links = s.links ∧ t.dports = s.dports ∧ t.eths = s.eths)

-- the set-up registers

/-- An address names the register at that offset, on the control port from 0x0100_0000 on; below 256 KiB the control port writes the
mailbox, and a write past its doorbell pages and outside its register window is counted in HQ_XSPI_ERR (R345). A register write of a width other than 32 bits or out of line writes nothing and is counted. A 32-bit register of the reset and backup
block without a behaviour of its own takes the bits its table makes writable, loses those it makes W1C and are written 1, and no other
register changes; a write of 0xA5 to a CNT_CLR clears the counters of its instance and nothing else, any other key nothing (R535, R537,
R539). -/
def Obligations.RegisterWrites : Prop :=
  ∀ s : State, s.rst.phase ≠ .bootFail →
    (∀ h a off bytes v, regOffset h a = some off → (bytes ≠ 4 ∨ off % 4 ≠ 0) →
        exec (.registerWrite h a bytes v) s = .next (bump s 0x508008))
      ∧ (∀ h a off v r is, regOffset h a = some off → off / 0x100000 = 10 → off % 4 = 0 → regRow? off = some (r, is) → r.wide = 0 →
        (off ≠ 0xA00008 ∧ off ≠ 0xA0000C ∧ off ≠ 0xA00010 ∧ off ≠ 0xA00018) →
        ∃ t, exec (.registerWrite h a 4 v) s = .next t
          ∧ regGet t off = ((regGet s off &&& ~~~BitVec.ofNat 32 r.rw) ||| (v &&& BitVec.ofNat 32 r.rw))
              &&& ~~~(v &&& BitVec.ofNat 32 r.w1c)
          ∧ (∀ o, o ≠ off → regGet t o = regGet s o) ∧ t.rst = s.rst)
      ∧ (∀ (a : BitVec 32) bytes v, (a.toNat < 0x1000000 → regOffset .pcie a = some a.toNat)
        ∧ (0x1000000 ≤ a.toNat → a.toNat < 0x2000000 → regOffset .xspi a = some (a.toNat - 0x1000000))
        ∧ (0x50000 ≤ a.toNat → (a.toNat < 0x1000000 ∨ 0x2000000 ≤ a.toNat) →
          exec (.registerWrite .xspi a bytes v) s = .next (bump s 0x508004))
        ∧ (a.toNat < 0x40000 → exec (.registerWrite .xspi a bytes v) s
          = .next { s with mailbox := memPutBytes s.mailbox a.toNat ((leBytes (min bytes 4) v.toNat).take (0x40000 - a.toNat)) }))
      ∧ (∀ (off : BitVec 24) (v : Word),
        (fld v 7 0 ≠ 0xA5 → exec (.cntClr off v) s = .next s)
        ∧ (fld v 7 0 = 0xA5 → ∃ t, exec (.cntClr off v) s = .next t
          ∧ ∀ o, regGet t o = if o ∈ clearedBy off.toNat then 0 else regGet s o))

/-- Writes of the fabric's and Ductus's tables: a semaphore count stands as written; TICKS is taken, but out of range on an enabled partition
refused with cause 4; a word of the slot table is taken while no launch entry is valid, with its reserved bits 0 and the Store large enough,
else refused with cause 9; a binding record of an empty slot is taken, of a bound one refused (R540, R542, R544, R170). -/
def Obligations.FabricTables : Prop :=
  ∀ (p : PartId) (v : Word) (s : State), s.rst.phase ≠ .bootFail →
    let x := getPart s p.val
    (∀ n : BitVec 8, ∃ t, exec (.fabSemWrite n v) s = .next t ∧ regGet t (semOff n.toNat) = v &&& 0xFFFF
        ∧ ∀ o, o ≠ semOff n.toNat → regGet t o = regGet s o)
      ∧ ((x.on = false ∨ (8 ≤ fld v 12 0 ∧ fld v 12 0 ≤ 4096)) → ∃ t, exec (.fabPartCutoffWrite p v) s = .next t
        ∧ fld (regGet t (fabOff p.val 0x10)) 12 0 = fld v 12 0
        ∧ (x.on = true → ticksEff s p.val ≤ fld v 12 0 → ticksEff t p.val = fld v 12 0))
      ∧ (x.on = true → (fld v 12 0 < 8 ∨ 4096 < fld v 12 0) →
        exec (.fabPartCutoffWrite p v) s = .next (recordErr s (fabErr p.val) 4))
      ∧ (∀ (k : BitVec 8) (w : Fin 4),
        (slotTableFree s p.val = true → slotTableRsv k.toNat w.val v = false → slotTableBeyond s p.val k.toNat w.val v = false →
          exec (.slotTableWrite p k w v) s = .next (regSet s (slotTabOff p.val k.toNat w.val) v))
        ∧ ((slotTableFree s p.val = false ∨ slotTableRsv k.toNat w.val v = true ∨ slotTableBeyond s p.val k.toNat w.val v = true) →
          exec (.slotTableWrite p k w v) s = .next (recordErr s (fabErr p.val) 9)))
      ∧ (∀ (k : SlotId) (w : Fin 32), ((getSlot s p.val k.val).img.isSome = true →
          exec (.ducBindWrite p k w v) s = .next (recordErr s (ducOff p.val 0xC04) 1))
        ∧ ((getSlot s p.val k.val).img = none → 16 ≤ w.val →
          exec (.ducBindWrite p k w v) s = .next (regSet s (ducOff p.val (0x80 * k.val + 4 * w.val)) v))
        ∧ (∀ lo, (getSlot s p.val k.val).img = none → w.val = 3 → tblGet none s.latch64 (ducOff p.val (0x80 * k.val + 8)) = some lo →
          ∃ t, exec (.ducBindWrite p k w v) s = .next t
            ∧ regGet64 t (ducOff p.val (0x80 * k.val + 8)) = word64 lo v))

/-- Launch entries: a write that sets VALID on an entry that is valid is refused; else its other bits apply, the checks of Table 06.15 run, and
the first that fails is recorded with the entry left off, or the entry becomes valid with its first launch the first whose cutoff has not
passed. A write that leaves VALID clear takes the entry off: a command that started in this tick is withdrawn, one that started before
runs on (R184, R185, R543). -/
def Obligations.LaunchEntriesAreChecked : Prop :=
  ∀ (p : PartId) (j : EntryId) (v : Word) (s : State), s.rst.phase ≠ .bootFail →
    let off := launchOff p.val j.val 6
    let s1 := regSet s off (v &&& 0xFFFF7FFF)
    (entryValid s p.val j.val = true → exec (.launchEntryEnable p j v) s = .next (recordErr s (ducOff p.val 0xC04) 2))
      ∧ (∀ c, entryValid s p.val j.val = false → launchCause s1 p.val j.val = some c →
        ∃ t, exec (.launchEntryEnable p j v) s = .next t ∧ entryValid t p.val j.val = false ∧ getRun t p.val j.val = getRun s p.val j.val
          ∧ (wbit (regGet s (ducOff p.val 0xC00)) 31 = false →
              regGet t (ducOff p.val 0xC00) = put 1 31 ||| BitVec.ofNat 32 (256 * j.val + c)))
      ∧ (entryValid s p.val j.val = false → launchCause s1 p.val j.val = none →
        ∃ t, exec (.launchEntryEnable p j v) s = .next t ∧ regGet t off = v ||| 0x8000 ∧ (getRun t p.val j.val).on = true
          ∧ (getRun t p.val j.val).next = firstLaunch s1 p.val j.val)
      ∧ (∃ t, exec (.launchEntryDisable p j v) s = .next t ∧ regGet t off = v &&& 0xFFFF7FFF
        ∧ (entryValid s p.val j.val = true → (getRun t p.val j.val).on = false)
        ∧ ((getRun s p.val j.val).cmd = none → (getRun t p.val j.val).cmd = none)
        ∧ (∀ c, (getRun s p.val j.val).cmd = some c → elapsed s c ≠ 0 → (getRun t p.val j.val).cmd = some c)
        ∧ (∀ c, entryValid s p.val j.val = true → (getRun s p.val j.val).cmd = some c → elapsed s c = 0 →
          (getRun t p.val j.val).cmd = none ∧ (getPart t p.val).holder ≠ some (.entry j.val)))

/-- Rings: a creation that passes every check makes the ring ENABLED, empty, at sequence 0 with the GEN and size written; one that does not
makes no ring. A LOST ring is made once its function has Bus Master Enable set; whether the host has set it is not said, so it is made or
not (the model's choice, assumption 91). DISABLE drains an ENABLED ring, and a DRAINING ring with nothing left is UNCREATED (R347, R349, R547). -/
def RingsComeAndGo : Prop :=
  ∀ (c : CtxId) (r : RingId) (v : Word) (s : State), s.rst.phase ≠ .bootFail →
    let g := getRing s c.val r.val
    let made : Ring := { Ring.reset with
      st := .enabled, base := regGet64 s (ringOff c.val r.val 0), log2 := fld v 28 24, gen := BitVec.ofNat 8 (fld v 23 16),
      lastGen := some (BitVec.ofNat 8 (fld v 23 16)), version := 1, headTick := s.lt }
    (ringCause s c.val r.val v = none → (g.st ≠ .lost ∨ busOk s (getCtx s c.val) = true) → ∃ t, exec (.ringCreate c r v) s = .next t
        ∧ getRing t c.val r.val = made
        ∧ (∀ d q, q < 8 → (d, q) ≠ (c.val, r.val) → getRing t d q = getRing s d q))
      ∧ (ringCause s c.val r.val v = none → g.st = .lost → busOk s (getCtx s c.val) = false → ∃ t, exec (.ringCreate c r v) s = .next t
        ∧ (getRing t c.val r.val = made ∨ getRing t c.val r.val = g))
      ∧ (∀ n, ringCause s c.val r.val v = some n → ∃ t, exec (.ringCreate c r v) s = .next t
        ∧ (getRing t c.val r.val).st = g.st ∧ (getRing t c.val r.val).items = g.items
        ∧ (wbit (regGet s (ringOff c.val r.val 0x10)) 28 = false →
            regGet t (ringOff c.val r.val 0x10) = put 1 28 ||| put n 24))
      ∧ (g.st = .enabled → exec (.ringDisable c r) s = .next (setRing s c.val r.val { g with st := .draining }))
      ∧ (g.st = .draining → g.items = [] → ringWaits s c.val r.val = false → exec (.ringDrained c r) s = .next (setRing s c.val r.val { g with st := .uncreated }))

/-- Contexts: one that is off, named for an enabled partition, with a free doorbell page and a valid completion block, is enabled on them with an
empty completion ring; each of these that is missing refuses it with its cause, that of the completion block in its HQ_RING_STAT too (R349). A context is destroyed once every submission ring is
UNCREATED, and refused with cause 4 before (R346, R548). -/
def ContextsComeAndGo : Prop :=
  ∀ (c : CtxId) (v : Word) (s : State), s.rst.phase ≠ .bootFail →
    let x := getCtx s c.val
    let part := fld v 28 25
    let func := fld v 24 20
    let w := regGet s (ctxOff c.val 0x28)
    (∀ page, x.on = false → isReady s = true → (getPart s part).on = true → func ≤ 16 → freePage s c.val func = some page →
        cqCause s c.val func = none → ∃ t, exec (.contextCreate c v) s = .next t
          ∧ getCtx t c.val = { Ctx.reset with
              on := true, func := func, part := part, page := page, cqBase := regGet64 s (ctxOff c.val 0x20), cqLog2 := fld w 28 24,
              cqGen := BitVec.ofNat 8 (fld w 23 16), cqLastGen := some (BitVec.ofNat 8 (fld w 23 16)) }
          ∧ t.rings = s.rings ∧ (∀ d, d ≠ c.val → getCtx t d = getCtx s d))
      ∧ (x.on = true → exec (.contextCreate c v) s = .next (recordErr s (ctxOff c.val 0x0C) 5))
      ∧ (x.on = false → isReady s = false → exec (.contextCreate c v) s = .next (recordErr s (ctxOff c.val 0x0C) 6))
      ∧ (x.on = false → isReady s = true → (getPart s part).on = false →
        exec (.contextCreate c v) s = .next (recordErr s (ctxOff c.val 0x0C) 1))
      ∧ (x.on = false → isReady s = true → (getPart s part).on = true → 16 < func →
        exec (.contextCreate c v) s = .next (recordErr s (ctxOff c.val 0x0C) 2))
      ∧ (∀ n, x.on = false → isReady s = true → (getPart s part).on = true → func ≤ 16 → (freePage s c.val func).isSome = true →
        cqCause s c.val func = some n → exec (.contextCreate c v) s
          = .next (recordErr (statRefuse s (ctxOff c.val 0x30) n) (ctxOff c.val 0x0C) 3))
      ∧ (x.on = true → (∀ r < 8, (getRing s c.val r).st = .uncreated) → ∃ t, exec (.contextDestroy c) s = .next t
        ∧ getCtx t c.val = { Ctx.reset with cqLastGen := x.cqLastGen } ∧ wbit (regGet t (ctxOff c.val 0)) 31 = false
        ∧ (∀ d, d ≠ c.val → getCtx t d = getCtx s d))
      ∧ (∀ r < 8, x.on = true → (getRing s c.val r).st ≠ .uncreated →
        exec (.contextDestroy c) s = .next (recordErr s (ctxOff c.val 0x0C) 4))

/-- Submission rings and contexts are made and taken down (R346, R347, R349, R547, R548). -/
def Obligations.RingsAndContextsComeAndGo : Prop :=
  RingsComeAndGo ∧ ContextsComeAndGo

-- Hallmark

/-- The owner keys, the versions and the recipient: HMK_REVOKE under its key revokes the owner key it names, but never the one that signed the
booted configuration; HMK_SVN_CMD in Secured raises the fused versions to the running slot's; HMK_EXPORT_LOAD installs the key record when its
seal verifies. A failed health test of the entropy source is counted and stops the generator, the second is final, and a running export ends (R486, R488, R492,
R495). -/
def KeysVersionsAndEntropy : Prop :=
  ∀ s : State, s.rst.phase ≠ .bootFail →
    let b := bootedSlot s
    (∀ v : Word, (fld v 31 24 ≠ 0xC3 → exec (.hmkRevoke v) s = .next s)
        ∧ (fld v 31 24 = 0xC3 → b.sealedBy = fld v 1 0 → exec (.hmkRevoke v) s = .next (recordErr s (hmkOff 0x04) 7))
        ∧ (fld v 31 24 = 0xC3 → b.sealedBy ≠ fld v 1 0 → ∃ t, exec (.hmkRevoke v) s = .next t
          ∧ t = { s with fuse := { s.fuse with revoked := t.fuse.revoked } }
          ∧ ∀ k < 4, t.fuse.revoked.getLsbD k = (s.fuse.revoked.getLsbD k || decide (k = fld v 1 0))))
      ∧ (s.fuse.lifecycle = 2 → exec .hmkSvnCmd s = .next { s with fuse := { s.fuse with
        fwSvn := max s.fuse.fwSvn b.fwSvn, cfgSvn := max s.fuse.cfgSvn b.cfgSvn } })
      ∧ (s.fuse.lifecycle ≠ 2 → exec .hmkSvnCmd s = .next s)
      ∧ (let bs := wordsBytes ((upTo 70).map (fun k => regGet s (hmkOff (0x200 + 4 * k))))
        exec .hmkExportLoad s = .next
          (if sealVerifies s .exportKey (bs.take 136) (bs.drop 136) then
            { s with hmk := { s.hmk with recipient := some (bigNat (bs.take 136)) } }
           else s))
      ∧ (s.blt.exporting = none → ∃ t, exec .trngHealthFail s = .next t
        ∧ t.hmk = { s.hmk with fails := if s.hmk.fails = 0 then 1 else 2, drbg := Drbg.reset } ∧ t.fuse = s.fuse)
      ∧ (∀ r, s.blt.exporting = some r → ∃ t, exec .trngHealthFail s = .next t
        ∧ t.hmk = { s.hmk with fails := if s.hmk.fails = 0 then 1 else 2, drbg := Drbg.reset, exportDraw := none }
        ∧ t.blt.exporting = none
        ∧ wbit (regGet t (bltOff 0x98)) 31 = true ∧ fld (regGet t (bltOff 0x98)) 3 0 = 1)

/-- Attestation, challenges and tokens: a request with an identity and none running is taken and answered with the report of Table 18.4, written
where it asked; each read of a challenge draws 512 new bits of the generator, seeded first where it must be, while the entropy source
works (the generator's form is the model's choice, assumption 94); a lifecycle token for this device and challenge whose
seal is of the transition's key fuses its intent and resets the device, a debug token opens its level, and what is not so is refused (R492,
R493, R497, R498). -/
def AttestationAndTokens : Prop :=
  ∀ (h : HostPort) (s : State), s.rst.phase ≠ .bootFail →
    let m := if h = .xspi then s.mailbox else s.host
    let a := (regGet64 s (hmkOff 0x80)).toNat
    let k : Token := ⟨memBytes m a 96, memBytes m (a + 96) 144⟩
    let g := s.hmk.drbg
    let raw := Config.rawBits s.freeCtr
    ((identityClass s).isSome = true → s.hmk.busy = none → ∃ t q, exec (.hmkAttCmd h) s = .next t
        ∧ t = { s with hmk := { s.hmk with busy := some q, done := false } } ∧ q.xspi = decide (h = .xspi)
        ∧ q.addr = (regGet64 s (hmkOff 0x100)).toNat ∧ q.nonce = (upTo 16).map (fun i => regGet s (hmkOff (0xC0 + 4 * i))))
      ∧ ((identityClass s).isSome = true → s.hmk.busy ≠ none → exec (.hmkAttCmd h) s = .next (recordErr s (hmkOff 0x04) 2))
      ∧ (identityClass s = none → exec (.hmkAttCmd h) s = .next (recordErr s (hmkOff 0x04) 3))
      ∧ (∀ q, s.hmk.busy = some q → ∃ t, exec .attestationDone s = .next t ∧ t.hmk = { s.hmk with busy := none, done := true }
        ∧ (q.xspi = false → t.host = memPutBytes s.host q.addr (report s q.nonce) ∧ t.mailbox = s.mailbox)
        ∧ (q.xspi = true → t.mailbox = memPutBytes s.mailbox q.addr ((report s q.nonce).take (0x40000 - q.addr)) ∧ t.host = s.host))
      ∧ (s.hmk.fails < 2 → g.ready = true → exec .hmkChalRead s = .next { s with
        hmk := { s.hmk with drbg := g.generate.2, challenge := some g.generate.1.toNat } })
      ∧ (s.hmk.fails < 2 → g.ready = false → if healthOk raw = true then exec .hmkChalRead s = .next { s with
            freeCtr := s.freeCtr + 1
            hmk := { s.hmk with drbg := (g.seed raw).generate.2, challenge := some (g.seed raw).generate.1.toNat } }
          else ∃ t, exec .hmkChalRead s = .next t ∧ s.hmk.fails < t.hmk.fails)
      ∧ (2 ≤ s.hmk.fails → exec .hmkChalRead s = .next (recordErr s (hmkOff 0x04) 1))
      ∧ (k.kind = 1 → tokenBody s k = false → exec (.hmkTokenCmd h) s = .next (recordErr s (hmkOff 0x04) 5))
      ∧ (k.kind = 1 → tokenBody s k = true → transitionKeys s k.target = none →
        exec (.hmkTokenCmd h) s = .next (recordErr s (hmkOff 0x04) 6))
      ∧ (∀ ks, k.kind = 1 → tokenBody s k = true → transitionKeys s k.target = some ks → ∃ t, exec (.hmkTokenCmd h) s = .next t
        ∧ (if sealBy ks k.body k.sealed then t.rst.phase = .coldReset ∧ t.rst.cold.getLsbD 4 = true ∧ t.tu.t = 0
            ∧ t.fuse = { s.fuse with intent := some k.target }
           else t = recordErr s (hmkOff 0x04) 5))
      ∧ (k.kind = 2 → tokenBody s k = true → (k.target = 1 ∨ k.target = 2) → s.fuse.lifecycle ≠ 2 → ∃ t,
        exec (.hmkTokenCmd h) s = .next t
        ∧ (if sealVerifies s .debugToken k.body k.sealed then t = { s with hmk := { s.hmk with debugOpen := k.target } }
           else t.hmk = s.hmk ∧ fld (regGet t (hmkOff 0x0C)) 23 16 = satInc 8 (fld (regGet s (hmkOff 0x0C)) 23 16)))
      ∧ (k.kind ≠ 1 → k.kind ≠ 2 → exec (.hmkTokenCmd h) s = .next (recordErr s (hmkOff 0x04) 5))

/-- Hallmark: keys, versions and entropy; attestation, challenges and tokens (R486, R488, R492, R493, R495, R497, R498). -/
def Obligations.HallmarkServesRequests : Prop :=
  KeysVersionsAndEntropy ∧ AttestationAndTokens

-- the Blotter

/-- A Blotter that has room for a record of a few words: on, with nothing dropped before, no export running and not in FILL, its buffer small. -/
def BltRoom (s : State) : Prop :=
  bltOn s = true ∧ s.blt.dropped = 0 ∧ s.blt.exporting = none ∧ s.blt.mode ≠ .fill ∧ recBytes s.blt.buf + 65536 ≤ bltBuf

/-- One record was written: it stands last in the buffer with its kind, source, tick and payload, and no record before it is lost. -/
def Recorded (s t : State) (kind src : Nat) (payload : List Word) : Prop :=
  ∃ pad r, t.blt.buf = s.blt.buf ++ pad ++ [r] ∧ (∀ x ∈ pad, x.kind = kPad) ∧ t.blt.ring = s.blt.ring
    ∧ r.kind = kind ∧ r.src = src ∧ r.tick = lc s ∧ r.payload = payload ∧ r.seq + 1 = t.blt.next

/-- Arming from OFF empties the ring and takes the mode, to OFF is always taken, another change of mode or a region of 0 bytes is refused. BLT_MARK
and a trigger write a MARK record, BLT_SNAP and the timer a SNAP record of an instance; the first trigger starts the post-trigger count, and
with it run out the ring is FROZEN. The buffer drains into the ring, which never exceeds its region, over the oldest records (R503, R504,
R505, R506). -/
def Obligations.BlotterRecords : Prop :=
  ∀ s : State, s.rst.phase ≠ .bootFail →
    (∀ v : Word, let m := bltModeOf (fld v 31 30)
        (s.blt.mode = .off → m ≠ .off → s.blt.replay.armed = false → bltRegion s ≠ 0 → ∃ t, exec (.bltModeWrite v) s = .next t
          ∧ t.blt.mode = m ∧ t.blt.ring = [] ∧ t.blt.triggered = false ∧ t.blt.frozen = false)
        ∧ (s.blt.mode ≠ .off → m = .off → ∃ t, exec (.bltModeWrite v) s = .next t ∧ t.blt = { s.blt with mode := .off })
        ∧ (s.blt.mode ≠ .off → m ≠ .off → m ≠ s.blt.mode → exec (.bltModeWrite v) s = .next (bump s 0x508008))
        ∧ (s.blt.mode = .off → m ≠ .off → s.blt.replay.armed = false → bltRegion s = 0 →
          exec (.bltModeWrite v) s = .next (bump s 0x508008)))
      ∧ (∀ tag : Word64, BltRoom s → ∃ t, exec (.bltMark tag) s = .next t ∧ Recorded s t 11 0 [0, lo32 tag, hi32 tag] ∧ t.regs = s.regs)
      ∧ (BltRoom s → s.blt.mode = .trigger → wbit (regGet s (bltOff 0x30)) 2 = true →
        (∀ r, s.blt.buf.getLast? = some r → r.kind = 11 → r.tick ≠ lc s) → ∃ t, exec .bltTrig s = .next t
          ∧ Recorded s t 11 0 [64, 0, 0] ∧ t.blt.triggered = true
          ∧ (s.blt.triggered = false → t.blt.postLeft = (regGet s (bltOff 0x40)).toNat * 65536))
      ∧ (∀ (p : PartId) (i : Inst) (im : Image) (c : Instr) (v : Word), (c = .bltSnap v ∧ wbit v p.val = true ∨ c = .snapTimer) →
        BltRoom s → bltSelected s 10 p.val = true → (getPart s p.val).insts = [i] → (getSlot s p.val i.slot).img = some im →
        (snapWords i im).length ≤ 16000 → (∀ q < 16, q ≠ p.val → (getPart s q).insts = []) →
          ∃ t, exec c s = .next t ∧ Recorded s t 10 p.val (snapWords i im) ∧ t.parts = s.parts)
      ∧ (s.blt.mode = .trigger → s.blt.triggered = true → s.blt.postLeft = 0 →
        exec .postTriggerEnd s = .next { s with blt := { s.blt with frozen := true } })
      ∧ (s.blt.exporting = none → ∃ t, exec .blotterDrain s = .next t ∧ t.blt.buf = [] ∧ recBytes t.blt.ring ≤ bltRegion s
        ∧ (∃ old, s.blt.ring ++ s.blt.buf = old ++ t.blt.ring)
        ∧ (recBytes (s.blt.ring ++ s.blt.buf) ≤ bltRegion s → t.blt.ring = s.blt.ring ++ s.blt.buf))

/-- An export starts on a range in the ring with entropy and a recipient, its salt and ephemeral key drawn, and is refused without one of
them; it writes its header and whole chunks
to host memory from BLT_EXP_ADDR, no other byte, and reports their number. An import in OFF makes the records read the ring, or leaves it empty
with the offset of the first bad one. A replay arms when every check of Table 19.5 passes, with the first that fails recorded, starts when LC
reaches BLT_RPL_START, delivers its next record to the engines or the gate, and ends with ABORT (R509, R511, R512, R513, R514, R551). -/
def Obligations.ExportImportReplay : Prop :=
  ∀ s : State, s.rst.phase ≠ .bootFail →
    let f := regGet s (bltOff 0x80)
    let l := regGet s (bltOff 0x84)
    let has := fun (q : Word) => ∃ r ∈ s.blt.ring, r.seq = q
    (s.blt.exporting = none → has f → has l → (l - f).toNat < 2 ^ 31 →
        (s.hmk.fails < 2 → s.hmk.recipient ≠ none → ∃ t, exec .bltExpCmd s = .next t
          ∧ ((t.blt.exporting = some (f, l) ∧ t.hmk.exportDraw.isSome = true ∧ regGet t (bltOff 0x98) = 0) ∨ t.hmk.fails = 2))
        ∧ (s.hmk.fails < 2 → s.hmk.recipient ≠ none → s.hmk.drbg.on = true → s.hmk.drbg.requests + 1 < 2 ^ 20 →
          let x := s.hmk.drbg.generate
          let y := x.2.generate
          ∃ t, exec .bltExpCmd s = .next t ∧ t.blt = { s.blt with exporting := some (f, l) } ∧ regGet t (bltOff 0x98) = 0
            ∧ t.hmk = { s.hmk with
                drbg := y.2, exportNo := s.hmk.exportNo + 1, exportDraw := some ((x.1.extractLsb' 256 256).toNat, y.1.toNat) })
        ∧ (s.hmk.fails < 2 → s.hmk.recipient = none → exec .bltExpCmd s = .next (recordErr s (hmkOff 0x04) 4))
        ∧ (2 ≤ s.hmk.fails → exec .bltExpCmd s = .next (recordErr s (hmkOff 0x04) 1)))
      ∧ (¬ (s.blt.exporting = none ∧ has f ∧ has l ∧ (l - f).toNat < 2 ^ 31) → exec .bltExpCmd s = .next (bump s 0x508008))
      ∧ (∀ a b, s.blt.exporting = some (a, b) → ∃ t, exec .exportDone s = .next t ∧ t.blt = { s.blt with exporting := none }
        ∧ t.hmk = { s.hmk with exportDraw := none }
        ∧ regGet t (bltOff 0x98) = put 1 31 ||| put (chunksFit s a b) 8 ||| 0
        ∧ t.mailbox = s.mailbox
        ∧ ∀ x, (x < (regGet64 s (bltOff 0x88)).toNat ∨ (regGet64 s (bltOff 0x88)).toNat + 256 + 65552 * chunksFit s a b ≤ x) →
            memByte t.host x = memByte s.host x)
      ∧ (s.blt.mode = .off → s.blt.exporting = none → s.blt.replay.armed = false →
        let ws := memWords s.host (regGet64 s (bltOff 0xA0)).toNat ((regGet s (bltOff 0xA8)).toNat / 4)
        ∃ t, exec .bltImpCmd s = .next t ∧ t.blt.buf = []
          ∧ (∀ rs, readRecs (bltRegion s) (ws.length + 1) ws 0 [] = .inr rs → t.blt.ring = rs ∧ regGet t (bltOff 0xB0) = 0x80000000)
          ∧ (∀ off, readRecs (bltRegion s) (ws.length + 1) ws 0 [] = .inl off → t.blt.ring = []
            ∧ regGet t (bltOff 0xB0) = 0x40000000 ∧ regGet t (bltOff 0xB4) = BitVec.ofNat 32 off))
      ∧ ((s.blt.mode ≠ .off ∨ s.blt.exporting ≠ none ∨ s.blt.replay.armed = true) → exec .bltImpCmd s = .next (bump s 0x508008))
      ∧ (s.blt.replay.armed = false → rplCause s = none → ∃ t, exec .bltRplArm s = .next t ∧ t.blt.replay.armed = true
        ∧ t.blt.replay.started = false ∧ t.blt.replay.window = rplWindow s ∧ t.blt.ring = s.blt.ring ∧ t.parts = s.parts)
      ∧ (∀ c, s.blt.replay.armed = false → rplCause s = some c → exec .bltRplArm s = .next (recordErr s (bltOff 0xC8) c))
      ∧ (exec .bltRplAbort s = .next { s with blt := { s.blt with replay := Replay.reset } })
      ∧ (s.blt.replay.armed = true → s.blt.replay.started = false → (regGet64 s (bltOff 0xD0)).toNat ≤ lc s →
        ∃ t, exec .replayStart s = .next t ∧ t.blt.replay.started = true ∧ t.blt.replay.rlc = firstTick s
          ∧ t.blt.replay.todo = s.blt.replay.window.filter (deliverable s))
      ∧ (s.blt.replay.armed = true → s.blt.replay.started = false → lc s < (regGet64 s (bltOff 0xD0)).toNat →
        exec .replayStart s = .next s)
      ∧ (∀ r, s.blt.replay.started = true → s.blt.replay.todo.find? (fun x => decide (x.tick ≤ s.blt.replay.rlc)) = some r →
        ∃ t, exec .replayDelivery s = .next t
          ∧ (r.kind = kFrame → r.verdict ≠ vAccepted → t.blt.replay.todo = s.blt.replay.todo.erase r ∧ t.nibs = s.nibs ∧ t.parts = s.parts)
          ∧ (r.kind ≠ kFrame → t.blt.replay.todo = s.blt.replay.todo.erase r
            ∧ ∃ g, (getPart t r.src).gate = (getPart s r.src).gate ++ [g] ∧ g.asn = r.w 1 ∧ g.inst = fld (r.w 2) 31 22
              ∧ g.src = .replay r.seq.toNat (if r.source = 0 then 0 else 2)))
end

