-- ==== Sys2Proof/Laws/Table.lean ====
section
/-! SUPPORT. Laws of the sparse tables and of byte memory: a read after a write, and every write keeps the canonical
form. -/

namespace Sys2Proof.Machine

section Tables

variable {α : Type}

@[simp] theorem tblFind_nil (k : Nat) : tblFind ([] : Tbl α) k = none := rfl

theorem tblFind_insert (t : Tbl α) (k j : Nat) (v : α) :
    tblFind (tblInsert t k v) j = if k = j then some v else tblFind t j := by
  induction t with
  | nil => simp [tblInsert, tblFind]
  | cons e t ih =>
    obtain ⟨a, x⟩ := e
    by_cases hka : k = a
    · subst hka
      by_cases hkj : k = j <;> simp [tblInsert, tblFind, hkj]
    · by_cases hlt : k < a
      · simp [tblInsert, tblFind, hka, hlt]
      · by_cases haj : a = j
        · subst haj
          simp [tblInsert, tblFind, hka, hlt]
        · simp [tblInsert, tblFind, hka, hlt, haj, ih]

theorem tblFind_erase (t : Tbl α) (k j : Nat) :
    tblFind (tblErase t k) j = if k = j then none else tblFind t j := by
  induction t with
  | nil => simp [tblErase, tblFind]
  | cons e t ih =>
    obtain ⟨a, x⟩ := e
    by_cases hak : a = k
    · subst hak
      by_cases haj : a = j
      · subst haj; simpa [tblErase] using ih
      · simpa [tblErase, tblFind, haj] using ih
    · by_cases haj : a = j
      · subst haj
        simp [tblErase, tblFind, hak, Ne.symm hak]
      · simp [tblErase, tblFind, hak, haj, ih]

@[simp] theorem tblGet_nil (d : α) (k : Nat) : tblGet d [] k = d := rfl

/-- A read after a write: the value written at its index, the old value at every other. -/
theorem tblGet_set [DecidableEq α] (d : α) (t : Tbl α) (k j : Nat) (v : α) :
    tblGet d (tblSet d t k v) j = if k = j then v else tblGet d t j := by
  unfold tblGet tblSet
  split
  · rw [tblFind_erase]; split <;> simp_all
  · rw [tblFind_insert]; split <;> simp_all

@[simp] theorem tblGet_set_same [DecidableEq α] (d : α) (t : Tbl α) (k : Nat) (v : α) : tblGet d (tblSet d t k v) k = v := by
  simp [tblGet_set]

theorem tblGet_set_other [DecidableEq α] (d : α) (t : Tbl α) {k j : Nat} (v : α) (h : k ≠ j) :
    tblGet d (tblSet d t k v) j = tblGet d t j := by
  simp [tblGet_set, h]

/-- Indices rise from at least b. -/
theorem tblSorted_cons (a : Nat) (x : α) (t : Tbl α) :
    tblSorted ((a, x) :: t) = true ↔ (∀ e ∈ t, a < e.1) ∧ tblSorted t = true := by
  induction t generalizing a x with
  | nil => simp [tblSorted]
  | cons e t ih =>
    obtain ⟨b, y⟩ := e
    simp only [tblSorted, Bool.and_eq_true, decide_eq_true_eq]
    constructor
    · rintro ⟨hab, h⟩
      refine ⟨fun e he => ?_, h⟩
      rcases List.mem_cons.1 he with rfl | he
      · exact hab
      · exact Nat.lt_trans hab (((ih b y).1 h).1 e he)
    · rintro ⟨h1, h2⟩
      exact ⟨h1 (b, y) (List.mem_cons_self ..), h2⟩

theorem mem_tblInsert {t : Tbl α} {k : Nat} {v : α} {e : Nat × α} (h : e ∈ tblInsert t k v) :
    e = (k, v) ∨ e ∈ t := by
  induction t with
  | nil => simpa [tblInsert] using h
  | cons c t ih =>
    obtain ⟨a, x⟩ := c
    simp only [tblInsert] at h
    split at h
    · rcases List.mem_cons.1 h with h | h
      · exact .inl h
      · exact .inr (List.mem_cons_of_mem _ h)
    · split at h
      · rcases List.mem_cons.1 h with h | h
        · exact .inl h
        · exact .inr h
      · rcases List.mem_cons.1 h with h | h
        · exact .inr (h ▸ List.mem_cons_self ..)
        · rcases ih h with h | h
          · exact .inl h
          · exact .inr (List.mem_cons_of_mem _ h)

theorem mem_tblErase {t : Tbl α} {k : Nat} {e : Nat × α} (h : e ∈ tblErase t k) : e ∈ t := by
  induction t with
  | nil => simp [tblErase] at h
  | cons c t ih =>
    obtain ⟨a, x⟩ := c
    simp only [tblErase] at h
    split at h
    · exact List.mem_cons_of_mem _ (ih h)
    · rcases List.mem_cons.1 h with h | h
      · exact h ▸ List.mem_cons_self ..
      · exact List.mem_cons_of_mem _ (ih h)

theorem tblSorted_insert {t : Tbl α} (k : Nat) (v : α) (h : tblSorted t = true) : tblSorted (tblInsert t k v) = true := by
  induction t with
  | nil => rfl
  | cons c t ih =>
    obtain ⟨a, x⟩ := c
    have ht := (tblSorted_cons a x t).1 h
    simp only [tblInsert]
    split
    · next hk => subst hk; exact (tblSorted_cons _ v t).2 ht
    · split
      · next hk =>
        refine (tblSorted_cons k v _).2 ⟨fun e he => ?_, h⟩
        rcases List.mem_cons.1 he with rfl | he
        · exact hk
        · exact Nat.lt_trans hk (ht.1 e he)
      · next h1 h2 =>
        refine (tblSorted_cons a x _).2 ⟨fun e he => ?_, ih ht.2⟩
        rcases mem_tblInsert he with rfl | he
        · show a < k
          omega
        · exact ht.1 e he

theorem tblSorted_erase {t : Tbl α} (k : Nat) (h : tblSorted t = true) : tblSorted (tblErase t k) = true := by
  induction t with
  | nil => rfl
  | cons c t ih =>
    obtain ⟨a, x⟩ := c
    have ht := (tblSorted_cons a x t).1 h
    simp only [tblErase]
    split
    · exact ih ht.2
    · exact (tblSorted_cons a x _).2 ⟨fun e he => ht.1 e (mem_tblErase he), ih ht.2⟩

theorem tblSorted_filter {t : Tbl α} (f : Nat × α → Bool) (h : tblSorted t = true) : tblSorted (t.filter f) = true := by
  induction t with
  | nil => rfl
  | cons c t ih =>
    obtain ⟨a, x⟩ := c
    have ht := (tblSorted_cons a x t).1 h
    simp only [List.filter]
    split
    · exact (tblSorted_cons a x _).2 ⟨fun e he => ht.1 e ((List.mem_filter.1 he).1), ih ht.2⟩
    · exact ih ht.2

theorem tblWf_iff [DecidableEq α] (d : α) (t : Tbl α) : tblWf d t = true ↔ tblSorted t = true ∧ ∀ e ∈ t, e.2 ≠ d := by
  simp [tblWf, List.all_eq_true]

/-- A write keeps the canonical form. -/
theorem tblWf_set [DecidableEq α] (d : α) {t : Tbl α} (k : Nat) (v : α) (h : tblWf d t = true) : tblWf d (tblSet d t k v) = true := by
  rw [tblWf_iff] at h ⊢
  unfold tblSet
  split
  · exact ⟨tblSorted_erase k h.1, fun e he => h.2 e (mem_tblErase he)⟩
  · next hv =>
    refine ⟨tblSorted_insert k v h.1, fun e he => ?_⟩
    rcases mem_tblInsert he with rfl | he
    · exact hv
    · exact h.2 e he

theorem tblWf_filter [DecidableEq α] (d : α) {t : Tbl α} (f : Nat × α → Bool) (h : tblWf d t = true) : tblWf d (t.filter f) = true := by
  rw [tblWf_iff] at h ⊢
  exact ⟨tblSorted_filter f h.1, fun e he => h.2 e ((List.mem_filter.1 he).1)⟩

end Tables

-- byte memory

/-- A read after a write of one byte. -/
theorem memByte_put (m : Memory) (a b : Nat) (v : Byte) : memByte (memPut m a v) b = if a = b then v else memByte m b :=
  tblGet_set 0 m a b v

/-- A store of bytes reaches only its own addresses. -/
theorem memByte_putBytes_outside (bs : List Byte) (m : Memory) (a b : Nat) (h : b < a ∨ a + bs.length ≤ b) :
    memByte (memPutBytes m a bs) b = memByte m b := by
  induction bs generalizing m a with
  | nil => rfl
  | cons v bs ih =>
    simp only [List.length_cons] at h
    rw [memPutBytes, ih _ _ (by omega), memByte_put]
    exact if_neg (by omega)

/-- A store of bytes puts each byte at its own address. -/
theorem memByte_putBytes_inside (bs : List Byte) (m : Memory) (a i : Nat) (h : i < bs.length) :
    memByte (memPutBytes m a bs) (a + i) = bs.getD i 0 := by
  induction bs generalizing m a i with
  | nil => simp at h
  | cons v bs ih =>
    rw [memPutBytes]
    cases i with
    | zero =>
      rw [memByte_putBytes_outside _ _ _ _ (by omega), memByte_put]
      simp
    | succ i =>
      have := ih (memPut m a v) (a + 1) i (by simpa using h)
      rw [show a + (i + 1) = a + 1 + i by omega, this]
      simp

theorem memBytes_length (m : Memory) (a n : Nat) : (memBytes m a n).length = n := by
  induction n generalizing a with
  | zero => rfl
  | succ n ih => simp [memBytes, ih]

/-- The bytes stored are the bytes read back. -/
theorem memBytes_putBytes (bs : List Byte) (m : Memory) (a : Nat) : memBytes (memPutBytes m a bs) a bs.length = bs := by
  induction bs generalizing m a with
  | nil => rfl
  | cons v bs ih =>
    simp only [List.length_cons, memBytes, memPutBytes, ih]
    rw [memByte_putBytes_outside _ _ _ _ (by omega), memByte_put]
    simp

theorem memWf_put {m : Memory} (a : Nat) (v : Byte) (h : memWf m = true) : memWf (memPut m a v) = true :=
  tblWf_set 0 a v h

theorem memWf_putBytes (bs : List Byte) {m : Memory} (a : Nat) (h : memWf m = true) : memWf (memPutBytes m a bs) = true := by
  induction bs generalizing m a with
  | nil => exact h
  | cons v bs ih => exact ih _ (memWf_put a v h)

theorem memWf_putWord {m : Memory} (a : Nat) (w : Word) (h : memWf m = true) : memWf (memPutWord m a w) = true :=
  memWf_putBytes _ a h

theorem memWf_putWords (ws : List Word) {m : Memory} (a : Nat) (h : memWf m = true) :
    memWf (memPutWords m a ws) = true := by
  induction ws generalizing m a with
  | nil => exact h
  | cons w ws ih => exact ih _ (memWf_putWord a w h)

theorem memWf_clear {m : Memory} (a n : Nat) (h : memWf m = true) : memWf (memClear m a n) = true :=
  tblWf_filter 0 _ h

/-- A cleared range reads 0 and every other byte is as it was. -/
theorem memByte_clear (m : Memory) (a n b : Nat) :
    memByte (memClear m a n) b = if a ≤ b ∧ b < a + n then 0 else memByte m b := by
  induction m with
  | nil => simp [memClear, memByte, tblGet]
  | cons e m ih =>
    obtain ⟨c, v⟩ := e
    unfold memByte tblGet memClear at ih ⊢
    simp only [List.filter]
    split
    · next hc =>
      simp only [Bool.or_eq_true, decide_eq_true_eq] at hc
      simp only [tblFind]
      by_cases hcb : c = b
      · subst hcb
        rw [if_pos rfl, if_pos rfl, if_neg (by omega)]
      · rw [if_neg hcb, if_neg hcb]; exact ih
    · next hc =>
      simp only [Bool.or_eq_false_iff, decide_eq_false_iff_not] at hc
      rw [ih]
      simp only [tblFind]
      by_cases hcb : c = b
      · subst hcb
        rw [if_pos (by omega), if_pos (by omega)]
      · rw [if_neg hcb]

end Sys2Proof.Machine
end

