-- ==== Sys2Proof/Laws/Frame.lean ====
section
/-! SUPPORT. What a function of the model may touch, said once for each: `Touch L s t` says that t differs from s at most
in the fields of L, and that the safe state and the forward motion of the fuses are kept. A function's law takes any list
that holds its own fields, so that laws compose without unfolding. -/

namespace Sys2Proof.Machine

/-- The safe state is kept, and the fuses move forward. -/
def Keeps (s t : State) : Prop :=
  (memWf s.host = true → memWf t.host = true) ∧ (memWf s.mailbox = true → memWf t.mailbox = true)
  ∧ (regsWf s.regs = true → regsWf t.regs = true) ∧ (s.fuse.legal → t.fuse.legal ∧ s.fuse.before t.fuse)

/-- t differs from s at most in the fields of L, and keeps what `Keeps` says. -/
def Touch (L : List Field) (s t : State) : Prop := (∀ f, f ∉ L → f.same s t) ∧ Keeps s t

/-- One list of fields lies in another. -/
def Field.sub (K L : List Field) : Bool := K.all (fun f => L.contains f)

theorem Field.sub_trans {K L M : List Field} (h : Field.sub K L = true) (g : Field.sub L M = true) :
    Field.sub K M = true := by
  simp only [Field.sub, List.all_eq_true, List.contains_iff_mem] at *
  exact fun f hf => g f (h f hf)

theorem Field.sub_mem {K L : List Field} (h : Field.sub K L = true) {f : Field} (hf : f ∈ K) : f ∈ L := by
  simp only [Field.sub, List.all_eq_true, List.contains_iff_mem] at h
  exact h f hf

theorem Field.same_refl (f : Field) (s : State) : f.same s s := by cases f <;> rfl

theorem Field.same_trans {f : Field} {s t u : State} (h : f.same s t) (g : f.same t u) : f.same s u := by
  cases f <;> exact Eq.trans g h

theorem Fuses.before_refl (f : Fuses) : f.before f := ⟨Nat.le_refl _, Nat.le_refl _, Nat.le_refl _, by simp, Nat.le_refl _⟩

theorem Fuses.before_trans {f g h : Fuses} (a : f.before g) (b : g.before h) : f.before h := by
  obtain ⟨a1, a2, a3, a4, a5⟩ := a
  obtain ⟨b1, b2, b3, b4, b5⟩ := b
  refine ⟨Nat.le_trans a1 b1, Nat.le_trans a2 b2, Nat.le_trans a3 b3, ?_, Nat.le_trans a5 b5⟩
  rw [← b4, ← BitVec.or_assoc, a4]

theorem Keeps.refl (s : State) : Keeps s s := ⟨id, id, id, fun h => ⟨h, Fuses.before_refl _⟩⟩

theorem Keeps.trans {s t u : State} (h : Keeps s t) (g : Keeps t u) : Keeps s u :=
  ⟨fun x => g.1 (h.1 x), fun x => g.2.1 (h.2.1 x), fun x => g.2.2.1 (h.2.2.1 x), fun x =>
    ⟨(g.2.2.2 (h.2.2.2 x).1).1, Fuses.before_trans (h.2.2.2 x).2 (g.2.2.2 (h.2.2.2 x).1).2⟩⟩

theorem Touch.refl (L : List Field) (s : State) : Touch L s s := ⟨fun f _ => f.same_refl s, Keeps.refl s⟩

theorem Touch.trans {L : List Field} {s t u : State} (h : Touch L s t) (g : Touch L t u) : Touch L s u :=
  ⟨fun f hf => Field.same_trans (h.1 f hf) (g.1 f hf), h.2.trans g.2⟩

theorem Touch.mono {K L : List Field} {s t : State} (hs : Field.sub K L = true) (h : Touch K s t) : Touch L s t :=
  ⟨fun f hf => h.1 f (fun hk => hf (Field.sub_mem hs hk)), h.2⟩

/-- A field outside L reads the same. -/
theorem Touch.same {L : List Field} {s t : State} (h : Touch L s t) (f : Field) (hf : f ∉ L) : f.same s t := h.1 f hf

/-- A fold of steps that each touch only L. -/
theorem Touch.fold {α : Type} {L : List Field} {r : State} {F : State → α → State} (l : List α) {s : State} (h : Touch L r s)
    (hf : ∀ t a, Touch L r t → Touch L r (F t a)) : Touch L r (l.foldl F s) := by
  induction l generalizing s with
  | nil => exact h
  | cons a l ih => exact ih (hf s a h)

/-- The same for a fold that carries another value beside the state. -/
theorem Touch.fold_fst {α β : Type} {L : List Field} {r : State} {F : State × β → α → State × β} (l : List α)
    {s : State × β} (h : Touch L r s.1) (hf : ∀ t a, Touch L r t.1 → Touch L r (F t a).1) :
    Touch L r (l.foldl F s).1 := by
  induction l generalizing s with
  | nil => exact h
  | cons a l ih => exact ih (hf s a h)

theorem Touch.fold_snd {α β : Type} {L : List Field} {r : State} {F : β × State → α → β × State} (l : List α)
    {s : β × State} (h : Touch L r s.2) (hf : ∀ t a, Touch L r t.2 → Touch L r (F t a).2) :
    Touch L r (l.foldl F s).2 := by
  induction l generalizing s with
  | nil => exact h
  | cons a l ih => exact ih (hf s a h)

/-- The same for a fold whose value holds the state in any place. -/
theorem Touch.fold_by {α β : Type} {L : List Field} {r : State} {F : β → α → β} (g : β → State) (l : List α) {s : β}
    (h : Touch L r (g s)) (hf : ∀ t a, Touch L r (g t) → Touch L r (g (F t a))) : Touch L r (g (l.foldl F s)) := by
  induction l generalizing s with
  | nil => exact h
  | cons a l ih => exact ih (hf s a h)

-- parts of a pair that a match has named

theorem Touch.of_fst {β : Type} {L : List Field} {r t : State} {x : State × β} {b : β} (e : x = (t, b)) (h : Touch L r x.1) :
    Touch L r t := by rw [e] at h; exact h

theorem Touch.of_snd {β : Type} {L : List Field} {r t : State} {x : β × State} {b : β} (e : x = (b, t)) (h : Touch L r x.2) :
    Touch L r t := by rw [e] at h; exact h

theorem Touch.ite {L : List Field} {r s t : State} {c : Prop} [Decidable c] (h : Touch L r s) (g : Touch L r t) :
    Touch L r (if c then s else t) := by split <;> assumption

/-- What the outcome of a command touches. -/
structure TouchR (L : List Field) (s : State) (o : Result) : Prop where
  out : ∀ t, o = .next t → Touch L s t

theorem TouchR.next {L : List Field} {s t : State} (h : Touch L s t) : TouchR L s (.next t) := by
  constructor; intro u hu; cases hu; exact h

theorem TouchR.mono {K L : List Field} {s : State} {o : Result} (hs : Field.sub K L = true) (h : TouchR K s o) : TouchR L s o :=
  ⟨fun t e => (h.out t e).mono hs⟩

/-- The next state of a command used inside another function. -/
theorem TouchR.of_eq {K L : List Field} {r t u : State} {o : Result} (e : o = .next u) (h : TouchR K t o)
    (hs : Field.sub K L = true) (ht : Touch L r t) : Touch L r u := ht.trans ((h.out u e).mono hs)

-- an update of one field

theorem Touch.updPending {L : List Field} {r u : State} {x : List Instr} (hL : Field.sub [.pending] L = true) (h : Touch L r u) :
    Touch L r { u with pending := x } :=
  h.trans ⟨fun f hf => by cases f <;> first | rfl | exact absurd (Field.sub_mem hL (by decide)) hf,
    id, id, id, fun h => ⟨h, Fuses.before_refl _⟩⟩

theorem Touch.updFreeCtr {L : List Field} {r u : State} {x : Nat} (hL : Field.sub [.freeCtr] L = true) (h : Touch L r u) :
    Touch L r { u with freeCtr := x } :=
  h.trans ⟨fun f hf => by cases f <;> first | rfl | exact absurd (Field.sub_mem hL (by decide)) hf,
    id, id, id, fun h => ⟨h, Fuses.before_refl _⟩⟩

theorem Touch.updLt {L : List Field} {r u : State} {x : Nat} (hL : Field.sub [.lt] L = true) (h : Touch L r u) :
    Touch L r { u with lt := x } :=
  h.trans ⟨fun f hf => by cases f <;> first | rfl | exact absurd (Field.sub_mem hL (by decide)) hf,
    id, id, id, fun h => ⟨h, Fuses.before_refl _⟩⟩

theorem Touch.updLatch64 {L : List Field} {r u : State} {x : Tbl (Option Word)} (hL : Field.sub [.latch64] L = true) (h : Touch L r u) :
    Touch L r { u with latch64 := x } :=
  h.trans ⟨fun f hf => by cases f <;> first | rfl | exact absurd (Field.sub_mem hL (by decide)) hf,
    id, id, id, fun h => ⟨h, Fuses.before_refl _⟩⟩

theorem Touch.updParts {L : List Field} {r u : State} {x : Tbl Part} (hL : Field.sub [.parts] L = true) (h : Touch L r u) :
    Touch L r { u with parts := x } :=
  h.trans ⟨fun f hf => by cases f <;> first | rfl | exact absurd (Field.sub_mem hL (by decide)) hf,
    id, id, id, fun h => ⟨h, Fuses.before_refl _⟩⟩

theorem Touch.updTiles {L : List Field} {r u : State} {x : Tbl Tile} (hL : Field.sub [.tiles] L = true) (h : Touch L r u) :
    Touch L r { u with tiles := x } :=
  h.trans ⟨fun f hf => by cases f <;> first | rfl | exact absurd (Field.sub_mem hL (by decide)) hf,
    id, id, id, fun h => ⟨h, Fuses.before_refl _⟩⟩

theorem Touch.updBe {L : List Field} {r u : State} {x : Tbl (Option BeCmd)} (hL : Field.sub [.be] L = true) (h : Touch L r u) :
    Touch L r { u with be := x } :=
  h.trans ⟨fun f hf => by cases f <;> first | rfl | exact absurd (Field.sub_mem hL (by decide)) hf,
    id, id, id, fun h => ⟨h, Fuses.before_refl _⟩⟩

theorem Touch.updCtxs {L : List Field} {r u : State} {x : Tbl Ctx} (hL : Field.sub [.ctxs] L = true) (h : Touch L r u) :
    Touch L r { u with ctxs := x } :=
  h.trans ⟨fun f hf => by cases f <;> first | rfl | exact absurd (Field.sub_mem hL (by decide)) hf,
    id, id, id, fun h => ⟨h, Fuses.before_refl _⟩⟩

theorem Touch.updRings {L : List Field} {r u : State} {x : Tbl Ring} (hL : Field.sub [.rings] L = true) (h : Touch L r u) :
    Touch L r { u with rings := x } :=
  h.trans ⟨fun f hf => by cases f <;> first | rfl | exact absurd (Field.sub_mem hL (by decide)) hf,
    id, id, id, fun h => ⟨h, Fuses.before_refl _⟩⟩

theorem Touch.updJournal {L : List Field} {r u : State} {x : List JGroup} (hL : Field.sub [.journal] L = true) (h : Touch L r u) :
    Touch L r { u with journal := x } :=
  h.trans ⟨fun f hf => by cases f <;> first | rfl | exact absurd (Field.sub_mem hL (by decide)) hf,
    id, id, id, fun h => ⟨h, Fuses.before_refl _⟩⟩

theorem Touch.updWaiting {L : List Field} {r u : State} {x : List WaitGroup} (hL : Field.sub [.waiting] L = true) (h : Touch L r u) :
    Touch L r { u with waiting := x } :=
  h.trans ⟨fun f hf => by cases f <;> first | rfl | exact absurd (Field.sub_mem hL (by decide)) hf,
    id, id, id, fun h => ⟨h, Fuses.before_refl _⟩⟩

theorem Touch.updServeNext {L : List Field} {r u : State} {x : Nat} (hL : Field.sub [.serveNext] L = true) (h : Touch L r u) :
    Touch L r { u with serveNext := x } :=
  h.trans ⟨fun f hf => by cases f <;> first | rfl | exact absurd (Field.sub_mem hL (by decide)) hf,
    id, id, id, fun h => ⟨h, Fuses.before_refl _⟩⟩

theorem Touch.updBme {L : List Field} {r u : State} {x : BitVec 16} (hL : Field.sub [.bme] L = true) (h : Touch L r u) :
    Touch L r { u with bme := x } :=
  h.trans ⟨fun f hf => by cases f <;> first | rfl | exact absurd (Field.sub_mem hL (by decide)) hf,
    id, id, id, fun h => ⟨h, Fuses.before_refl _⟩⟩

theorem Touch.updNibs {L : List Field} {r u : State} {x : Tbl Nib} (hL : Field.sub [.nibs] L = true) (h : Touch L r u) :
    Touch L r { u with nibs := x } :=
  h.trans ⟨fun f hf => by cases f <;> first | rfl | exact absurd (Field.sub_mem hL (by decide)) hf,
    id, id, id, fun h => ⟨h, Fuses.before_refl _⟩⟩

theorem Touch.updLinks {L : List Field} {r u : State} {x : Tbl Link} (hL : Field.sub [.links] L = true) (h : Touch L r u) :
    Touch L r { u with links := x } :=
  h.trans ⟨fun f hf => by cases f <;> first | rfl | exact absurd (Field.sub_mem hL (by decide)) hf,
    id, id, id, fun h => ⟨h, Fuses.before_refl _⟩⟩

theorem Touch.updDports {L : List Field} {r u : State} {x : Tbl DirectPort} (hL : Field.sub [.dports] L = true) (h : Touch L r u) :
    Touch L r { u with dports := x } :=
  h.trans ⟨fun f hf => by cases f <;> first | rfl | exact absurd (Field.sub_mem hL (by decide)) hf,
    id, id, id, fun h => ⟨h, Fuses.before_refl _⟩⟩

theorem Touch.updEths {L : List Field} {r u : State} {x : Tbl EthPort} (hL : Field.sub [.eths] L = true) (h : Touch L r u) :
    Touch L r { u with eths := x } :=
  h.trans ⟨fun f hf => by cases f <;> first | rfl | exact absurd (Field.sub_mem hL (by decide)) hf,
    id, id, id, fun h => ⟨h, Fuses.before_refl _⟩⟩

theorem Touch.updPartners {L : List Field} {r u : State} {x : Tbl Partner} (hL : Field.sub [.partners] L = true) (h : Touch L r u) :
    Touch L r { u with partners := x } :=
  h.trans ⟨fun f hf => by cases f <;> first | rfl | exact absurd (Field.sub_mem hL (by decide)) hf,
    id, id, id, fun h => ⟨h, Fuses.before_refl _⟩⟩

theorem Touch.updTu {L : List Field} {r u : State} {x : TimeUnit} (hL : Field.sub [.tu] L = true) (h : Touch L r u) :
    Touch L r { u with tu := x } :=
  h.trans ⟨fun f hf => by cases f <;> first | rfl | exact absurd (Field.sub_mem hL (by decide)) hf,
    id, id, id, fun h => ⟨h, Fuses.before_refl _⟩⟩

theorem Touch.updMem {L : List Field} {r u : State} {x : MemSys} (hL : Field.sub [.mem] L = true) (h : Touch L r u) :
    Touch L r { u with mem := x } :=
  h.trans ⟨fun f hf => by cases f <;> first | rfl | exact absurd (Field.sub_mem hL (by decide)) hf,
    id, id, id, fun h => ⟨h, Fuses.before_refl _⟩⟩

theorem Touch.updRst {L : List Field} {r u : State} {x : ResetUnit} (hL : Field.sub [.rst] L = true) (h : Touch L r u) :
    Touch L r { u with rst := x } :=
  h.trans ⟨fun f hf => by cases f <;> first | rfl | exact absurd (Field.sub_mem hL (by decide)) hf,
    id, id, id, fun h => ⟨h, Fuses.before_refl _⟩⟩

theorem Touch.updPwr {L : List Field} {r u : State} {x : PowerUnit} (hL : Field.sub [.pwr] L = true) (h : Touch L r u) :
    Touch L r { u with pwr := x } :=
  h.trans ⟨fun f hf => by cases f <;> first | rfl | exact absurd (Field.sub_mem hL (by decide)) hf,
    id, id, id, fun h => ⟨h, Fuses.before_refl _⟩⟩

theorem Touch.updFlash {L : List Field} {r u : State} {x : Tbl BootSlot} (hL : Field.sub [.flash] L = true) (h : Touch L r u) :
    Touch L r { u with flash := x } :=
  h.trans ⟨fun f hf => by cases f <;> first | rfl | exact absurd (Field.sub_mem hL (by decide)) hf,
    id, id, id, fun h => ⟨h, Fuses.before_refl _⟩⟩

theorem Touch.updHmk {L : List Field} {r u : State} {x : Hallmark} (hL : Field.sub [.hmk] L = true) (h : Touch L r u) :
    Touch L r { u with hmk := x } :=
  h.trans ⟨fun f hf => by cases f <;> first | rfl | exact absurd (Field.sub_mem hL (by decide)) hf,
    id, id, id, fun h => ⟨h, Fuses.before_refl _⟩⟩

theorem Touch.updBlt {L : List Field} {r u : State} {x : Blotter} (hL : Field.sub [.blt] L = true) (h : Touch L r u) :
    Touch L r { u with blt := x } :=
  h.trans ⟨fun f hf => by cases f <;> first | rfl | exact absurd (Field.sub_mem hL (by decide)) hf,
    id, id, id, fun h => ⟨h, Fuses.before_refl _⟩⟩

theorem Touch.updAnl {L : List Field} {r u : State} {x : Health} (hL : Field.sub [.anl] L = true) (h : Touch L r u) :
    Touch L r { u with anl := x } :=
  h.trans ⟨fun f hf => by cases f <;> first | rfl | exact absurd (Field.sub_mem hL (by decide)) hf,
    id, id, id, fun h => ⟨h, Fuses.before_refl _⟩⟩

theorem Touch.updAssay {L : List Field} {r u : State} {x : Assay} (hL : Field.sub [.assay] L = true) (h : Touch L r u) :
    Touch L r { u with assay := x } :=
  h.trans ⟨fun f hf => by cases f <;> first | rfl | exact absurd (Field.sub_mem hL (by decide)) hf,
    id, id, id, fun h => ⟨h, Fuses.before_refl _⟩⟩

-- the fields that Keeps looks at

theorem Touch.updHost {L : List Field} {r u : State} {x : Memory} (hL : Field.sub [.host] L = true) (h : Touch L r u)
    (hx : memWf u.host = true → memWf x = true) : Touch L r { u with host := x } :=
  h.trans ⟨fun f hf => by cases f <;> first | rfl | exact absurd (Field.sub_mem hL (by decide)) hf,
    hx, id, id, fun h => ⟨h, Fuses.before_refl _⟩⟩

theorem Touch.updMailbox {L : List Field} {r u : State} {x : Memory} (hL : Field.sub [.mailbox] L = true) (h : Touch L r u)
    (hx : memWf u.mailbox = true → memWf x = true) : Touch L r { u with mailbox := x } :=
  h.trans ⟨fun f hf => by cases f <;> first | rfl | exact absurd (Field.sub_mem hL (by decide)) hf,
    id, hx, id, fun h => ⟨h, Fuses.before_refl _⟩⟩

theorem Touch.updRegs {L : List Field} {r u : State} {x : Tbl Word} (hL : Field.sub [.regs] L = true) (h : Touch L r u)
    (hx : regsWf u.regs = true → regsWf x = true) : Touch L r { u with regs := x } :=
  h.trans ⟨fun f hf => by cases f <;> first | rfl | exact absurd (Field.sub_mem hL (by decide)) hf,
    id, id, hx, fun h => ⟨h, Fuses.before_refl _⟩⟩

theorem Touch.updFuse {L : List Field} {r u : State} {x : Fuses} (hL : Field.sub [.fuse] L = true) (h : Touch L r u)
    (hx : u.fuse.legal → x.legal ∧ u.fuse.before x) : Touch L r { u with fuse := x } :=
  h.trans ⟨fun f hf => by cases f <;> first | rfl | exact absurd (Field.sub_mem hL (by decide)) hf, id, id, id, hx⟩

/-- An update of several fields that Keeps does not look at. -/
theorem Touch.upd {L : List Field} {r u t : State} (h : Touch L r u) (hs : ∀ f, f ∉ L → f.same u t) (hh : t.host = u.host)
    (hm : t.mailbox = u.mailbox) (hr : t.regs = u.regs) (hf : t.fuse = u.fuse) : Touch L r t :=
  h.trans ⟨hs, by rw [hh]; exact id, by rw [hm]; exact id, by rw [hr]; exact id, by
    rw [hf]; exact fun h => ⟨h, Fuses.before_refl _⟩⟩

/-- The same for a state written out. -/
theorem Touch.mk {L : List Field} {r u : State}
    {v0 : List Instr} {v1 : Nat} {v2 : Nat} {v3 : Tbl Word} {v4 : Tbl (Option Word)} {v5 : Tbl Part}
    {v6 : Tbl Tile} {v7 : Tbl (Option BeCmd)} {v8 : Tbl Ctx} {v9 : Tbl Ring} {v10 : List JGroup}
    {v11 : List WaitGroup} {v12 : Nat} {v13 : Memory}
    {v14 : Memory} {v15 : BitVec 16} {v16 : Tbl Nib} {v17 : Tbl Link} {v18 : Tbl DirectPort} {v19 : Tbl EthPort}
    {v20 : Tbl Partner} {v21 : TimeUnit} {v22 : MemSys} {v23 : ResetUnit} {v24 : PowerUnit} {v25 : Fuses}
    {v26 : Tbl BootSlot} {v27 : Hallmark} {v28 : Blotter} {v29 : Health} {v30 : Assay}
    (h : Touch L r u)
    (hs : ∀ f, f ∉ L → f.same u (State.mk v0 v1 v2 v3 v4 v5 v6 v7 v8 v9 v10 v11 v12 v13 v14 v15 v16 v17 v18 v19 v20 v21 v22 v23 v24 v25 v26 v27 v28 v29 v30))
    (hh : v13 = u.host) (hm : v14 = u.mailbox) (hr : v3 = u.regs) (hf : v25 = u.fuse) :
    Touch L r (State.mk v0 v1 v2 v3 v4 v5 v6 v7 v8 v9 v10 v11 v12 v13 v14 v15 v16 v17 v18 v19 v20 v21 v22 v23 v24 v25 v26 v27 v28 v29 v30) :=
  Touch.upd h hs hh hm hr hf

/-- An update of any fields, with what `Keeps` asks said for each part. -/
theorem Touch.full {L : List Field} {r u t : State} (h : Touch L r u) (hs : ∀ f, f ∉ L → f.same u t)
    (hh : memWf u.host = true → memWf t.host = true) (hm : memWf u.mailbox = true → memWf t.mailbox = true)
    (hr : regsWf u.regs = true → regsWf t.regs = true) (hf : u.fuse.legal → t.fuse.legal ∧ u.fuse.before t.fuse) : Touch L r t :=
  h.trans ⟨hs, hh, hm, hr, hf⟩

theorem Touch.ite_fst {β : Type} {L : List Field} {r : State} {c : Prop} [Decidable c] {a b : State × β} (h : Touch L r a.1)
    (g : Touch L r b.1) : Touch L r (if c then a else b).1 := by split <;> assumption

theorem Touch.ite_snd {β : Type} {L : List Field} {r : State} {c : Prop} [Decidable c] {a b : β × State} (h : Touch L r a.2)
    (g : Touch L r b.2) : Touch L r (if c then a else b).2 := by split <;> assumption

theorem Fuses.keep {f g : Fuses} (hl : g.lifecycle = f.lifecycle) (hi : g.intent = f.intent) (h1 : f.fwSvn ≤ g.fwSvn)
    (h2 : f.cfgSvn ≤ g.cfgSvn) (h3 : f.revoked ||| g.revoked = g.revoked) (h4 : f.annealUsed ≤ g.annealUsed)
    (h : f.legal) : g.legal ∧ f.before g :=
  ⟨⟨by rw [hl]; exact h.1, by rw [hi, hl]; exact h.2⟩, Nat.le_of_eq hl.symm, h1, h2, h3, h4⟩

theorem TouchR.ite {L : List Field} {s : State} {o q : Result} {c : Prop} [Decidable c] (h : TouchR L s o) (g : TouchR L s q) :
    TouchR L s (if c then o else q) := by split <;> assumption

theorem regsWf_iff (t : Tbl Word) : regsWf t = true ↔ tblSorted t = true ∧ ∀ e ∈ t, e.2 ≠ regDefault e.1 := by
  simp [regsWf, List.all_eq_true]

/-- A register write keeps the canonical form. -/
theorem regsWf_set {t : Tbl Word} (off : Nat) (v : Word) (h : regsWf t = true) :
    regsWf (tblSet (regDefault off) t off v) = true := by
  rw [regsWf_iff] at h ⊢
  unfold tblSet
  split
  · exact ⟨tblSorted_erase off h.1, fun e he => h.2 e (mem_tblErase he)⟩
  · next hv =>
    refine ⟨tblSorted_insert off v h.1, fun e he => ?_⟩
    rcases mem_tblInsert he with rfl | he
    · exact hv
    · exact h.2 e he

theorem regsWf_filter {t : Tbl Word} (f : Nat × Word → Bool) (h : regsWf t = true) : regsWf (t.filter f) = true := by
  rw [regsWf_iff] at h ⊢
  exact ⟨tblSorted_filter f h.1, fun e he => h.2 e (List.mem_filter.1 he).1⟩

end Sys2Proof.Machine
end

