-- ==== Sys2Proof/Laws/TouchRegisters.lean ====
section
/-! SUPPORT. What each function of Machine/Registers.lean may touch: its law in the sense of Laws/Frame.lean. -/

namespace Sys2Proof.Machine

theorem regSet_touch {L : List Field} {r s : State} (off : Nat) (v : Word) (hL : Field.sub [.regs] L = true) (h : Touch L r s) :
    Touch L r (regSet s off v) := Touch.updRegs hL h (regsWf_set off v)

theorem bump_touch {L₀ : List Field} {s₀ s : State} (off : Nat) (hL₀ : Field.sub [.regs] L₀ = true)
  (h₀ : Touch L₀ s₀ s) : Touch L₀ s₀ (bump s off) := by
  unfold bump
  try dsimp only
  repeat' first
    | with_reducible assumption
    | (with_reducible refine Field.sub_trans ?_ hL₀; decide)
    | with_reducible apply regSet_touch
    | with_reducible apply Touch.ite

theorem recordErr_touch {L₀ : List Field} {s₀ s : State} (off : Nat) (cause : Nat) (hL₀ : Field.sub [.regs] L₀ = true)
  (h₀ : Touch L₀ s₀ s) : Touch L₀ s₀ (recordErr s off cause) := by
  unfold recordErr
  try dsimp only
  repeat' first
    | with_reducible assumption
    | (with_reducible refine Field.sub_trans ?_ hL₀; decide)
    | with_reducible apply regSet_touch
    | with_reducible apply Touch.ite

end Sys2Proof.Machine
end

