-- ==== Sys2Proof/Laws/TouchOps.lean ====
section
/-! SUPPORT. What each function of Machine/Ops.lean may touch: its law in the sense of Laws/Frame.lean. -/

namespace Sys2Proof.Machine

theorem hostWrite_touch {L : List Field} {s t : State} (h : Touch L s t) : TouchR L s (hostWrite s t) := by
  unfold hostWrite
  apply TouchR.next
  split
  · exact Touch.refl L s
  · exact h

theorem whenDo_touch {L : List Field} {r s t : State} (c : Bool) (h : Touch L r s) (g : Touch L r t) : Touch L r (whenDo c s t) := by
  unfold whenDo; exact Touch.ite g h

theorem setPart_touch {L₀ : List Field} {s₀ s : State} (p : Nat) (x : Part) (hL₀ : Field.sub [.parts] L₀ = true)
  (h₀ : Touch L₀ s₀ s) : Touch L₀ s₀ (setPart s p x) := by
  unfold setPart
  try dsimp only
  repeat' first
    | with_reducible assumption
    | (with_reducible refine Field.sub_trans ?_ hL₀; decide)
    | fail_if_no_progress (with_reducible refine Touch.updParts (Field.sub_trans (by decide) hL₀) ?_)
    | with_reducible apply Touch.ite

theorem setTile_touch {L₀ : List Field} {s₀ s : State} (t : Nat) (x : Tile) (hL₀ : Field.sub [.tiles] L₀ = true)
  (h₀ : Touch L₀ s₀ s) : Touch L₀ s₀ (setTile s t x) := by
  unfold setTile
  try dsimp only
  repeat' first
    | with_reducible assumption
    | (with_reducible refine Field.sub_trans ?_ hL₀; decide)
    | fail_if_no_progress (with_reducible refine Touch.updTiles (Field.sub_trans (by decide) hL₀) ?_)
    | with_reducible apply Touch.ite

theorem setCtx_touch {L₀ : List Field} {s₀ s : State} (c : Nat) (x : Ctx) (hL₀ : Field.sub [.ctxs] L₀ = true)
  (h₀ : Touch L₀ s₀ s) : Touch L₀ s₀ (setCtx s c x) := by
  unfold setCtx
  try dsimp only
  repeat' first
    | with_reducible assumption
    | (with_reducible refine Field.sub_trans ?_ hL₀; decide)
    | fail_if_no_progress (with_reducible refine Touch.updCtxs (Field.sub_trans (by decide) hL₀) ?_)
    | with_reducible apply Touch.ite

theorem setRing_touch {L₀ : List Field} {s₀ s : State} (c : Nat) (r : Nat) (x : Ring) (hL₀ : Field.sub [.rings] L₀ = true)
  (h₀ : Touch L₀ s₀ s) : Touch L₀ s₀ (setRing s c r x) := by
  unfold setRing
  try dsimp only
  repeat' first
    | with_reducible assumption
    | (with_reducible refine Field.sub_trans ?_ hL₀; decide)
    | fail_if_no_progress (with_reducible refine Touch.updRings (Field.sub_trans (by decide) hL₀) ?_)
    | with_reducible apply Touch.ite

theorem setBe_touch {L₀ : List Field} {s₀ s : State} (k : Nat) (x : Option BeCmd) (hL₀ : Field.sub [.be] L₀ = true)
  (h₀ : Touch L₀ s₀ s) : Touch L₀ s₀ (setBe s k x) := by
  unfold setBe
  try dsimp only
  repeat' first
    | with_reducible assumption
    | (with_reducible refine Field.sub_trans ?_ hL₀; decide)
    | fail_if_no_progress (with_reducible refine Touch.updBe (Field.sub_trans (by decide) hL₀) ?_)
    | with_reducible apply Touch.ite

theorem setNib_touch {L₀ : List Field} {s₀ s : State} (n : Nat) (x : Nib) (hL₀ : Field.sub [.nibs] L₀ = true)
  (h₀ : Touch L₀ s₀ s) : Touch L₀ s₀ (setNib s n x) := by
  unfold setNib
  try dsimp only
  repeat' first
    | with_reducible assumption
    | (with_reducible refine Field.sub_trans ?_ hL₀; decide)
    | fail_if_no_progress (with_reducible refine Touch.updNibs (Field.sub_trans (by decide) hL₀) ?_)
    | with_reducible apply Touch.ite

theorem setLink_touch {L₀ : List Field} {s₀ s : State} (q : Nat) (x : Link) (hL₀ : Field.sub [.links] L₀ = true)
  (h₀ : Touch L₀ s₀ s) : Touch L₀ s₀ (setLink s q x) := by
  unfold setLink
  try dsimp only
  repeat' first
    | with_reducible assumption
    | (with_reducible refine Field.sub_trans ?_ hL₀; decide)
    | fail_if_no_progress (with_reducible refine Touch.updLinks (Field.sub_trans (by decide) hL₀) ?_)
    | with_reducible apply Touch.ite

theorem setDport_touch {L₀ : List Field} {s₀ s : State} (d : Nat) (x : DirectPort) (hL₀ : Field.sub [.dports] L₀ = true)
  (h₀ : Touch L₀ s₀ s) : Touch L₀ s₀ (setDport s d x) := by
  unfold setDport
  try dsimp only
  repeat' first
    | with_reducible assumption
    | (with_reducible refine Field.sub_trans ?_ hL₀; decide)
    | fail_if_no_progress (with_reducible refine Touch.updDports (Field.sub_trans (by decide) hL₀) ?_)
    | with_reducible apply Touch.ite

theorem setEth_touch {L₀ : List Field} {s₀ s : State} (e : Nat) (x : EthPort) (hL₀ : Field.sub [.eths] L₀ = true)
  (h₀ : Touch L₀ s₀ s) : Touch L₀ s₀ (setEth s e x) := by
  unfold setEth
  try dsimp only
  repeat' first
    | with_reducible assumption
    | (with_reducible refine Field.sub_trans ?_ hL₀; decide)
    | fail_if_no_progress (with_reducible refine Touch.updEths (Field.sub_trans (by decide) hL₀) ?_)
    | with_reducible apply Touch.ite

theorem setPartner_touch {L₀ : List Field} {s₀ s : State} (n : Nat) (x : Partner) (hL₀ : Field.sub [.partners] L₀ = true)
  (h₀ : Touch L₀ s₀ s) : Touch L₀ s₀ (setPartner s n x) := by
  unfold setPartner
  try dsimp only
  repeat' first
    | with_reducible assumption
    | (with_reducible refine Field.sub_trans ?_ hL₀; decide)
    | fail_if_no_progress (with_reducible refine Touch.updPartners (Field.sub_trans (by decide) hL₀) ?_)
    | with_reducible apply Touch.ite

theorem setSlot_touch {L₀ : List Field} {s₀ s : State} (p : Nat) (k : Nat) (v : Slot) (hL₀ : Field.sub [.parts] L₀ = true)
  (h₀ : Touch L₀ s₀ s) : Touch L₀ s₀ (setSlot s p k v) := by
  unfold setSlot
  try dsimp only
  repeat' first
    | with_reducible assumption
    | (with_reducible refine Field.sub_trans ?_ hL₀; decide)
    | with_reducible apply setPart_touch
    | with_reducible apply Touch.ite

theorem setRun_touch {L₀ : List Field} {s₀ s : State} (p : Nat) (j : Nat) (v : EntryRun) (hL₀ : Field.sub [.parts] L₀ = true)
  (h₀ : Touch L₀ s₀ s) : Touch L₀ s₀ (setRun s p j v) := by
  unfold setRun
  try dsimp only
  repeat' first
    | with_reducible assumption
    | (with_reducible refine Field.sub_trans ?_ hL₀; decide)
    | with_reducible apply setPart_touch
    | with_reducible apply Touch.ite

theorem putInst_touch {L₀ : List Field} {s₀ s : State} (p : Nat) (i : Inst) (hL₀ : Field.sub [.parts] L₀ = true)
  (h₀ : Touch L₀ s₀ s) : Touch L₀ s₀ (putInst s p i) := by
  unfold putInst
  try dsimp only
  repeat' first
    | with_reducible assumption
    | (with_reducible refine Field.sub_trans ?_ hL₀; decide)
    | with_reducible apply setPart_touch
    | with_reducible apply Touch.ite

theorem drawWord_touch {L : List Field} {r s : State} (hL : Field.sub [.freeCtr] L = true) (h : Touch L r s) :
    Touch L r (drawWord s).2 := Touch.updFreeCtr hL h

theorem drawBit_touch {L : List Field} {r s : State} (hL : Field.sub [.freeCtr] L = true) (h : Touch L r s) :
    Touch L r (drawBit s).2 := Touch.updFreeCtr hL h

theorem drawWords_touch {L : List Field} {r s : State} (n : Nat) (hL : Field.sub [.freeCtr] L = true) (h : Touch L r s) :
    Touch L r (drawWords s n).2 := Touch.updFreeCtr hL h

theorem pidWords_touch {L : List Field} {r s : State} (hL : Field.sub [.freeCtr] L = true) (h : Touch L r s) :
    Touch L r (pidWords s).2 := by
  unfold pidWords
  split
  · exact h
  · exact drawWords_touch 2 hL h

theorem bltWrite_touch {L₀ : List Field} {s₀ s : State} (kind : Nat) (src : Nat) (tick : Nat) (payload : List Word) (hL₀ : Field.sub [.blt] L₀ = true)
  (h₀ : Touch L₀ s₀ s) : Touch L₀ s₀ (bltWrite s kind src tick payload) := by
  unfold bltWrite
  try dsimp only
  repeat' first
    | with_reducible assumption
    | (with_reducible refine Field.sub_trans ?_ hL₀; decide)
    | intro _
    | fail_if_no_progress (with_reducible refine Touch.updBlt (Field.sub_trans (by decide) hL₀) ?_)
    | with_reducible apply Touch.ite
    | with_reducible apply Touch.fold

theorem bltRecord_touch {L₀ : List Field} {s₀ s : State} (kind : Nat) (src : Nat) (tick : Nat) (payload : List Word) (hL₀ : Field.sub [.blt] L₀ = true)
  (h₀ : Touch L₀ s₀ s) : Touch L₀ s₀ (bltRecord s kind src tick payload) := by
  unfold bltRecord
  try dsimp only
  repeat' first
    | with_reducible assumption
    | (with_reducible refine Field.sub_trans ?_ hL₀; decide)
    | with_reducible apply bltWrite_touch
    | with_reducible apply Touch.ite

theorem bltTrigger_touch {L₀ : List Field} {s₀ s : State} (cause : Nat) (hL₀ : Field.sub [.blt] L₀ = true)
  (h₀ : Touch L₀ s₀ s) : Touch L₀ s₀ (bltTrigger s cause) := by
  unfold bltTrigger
  try dsimp only
  repeat' first
    | with_reducible assumption
    | (with_reducible refine Field.sub_trans ?_ hL₀; decide)
    | intro _
    | with_reducible apply bltRecord_touch
    | fail_if_no_progress (with_reducible refine Touch.updBlt (Field.sub_trans (by decide) hL₀) ?_)
    | with_reducible apply Touch.ite
    | split
    | (with_reducible apply Touch.of_fst; with_reducible assumption)
    | (with_reducible apply Touch.of_snd; with_reducible assumption)

theorem bltTriggerCompletion_touch {L₀ : List Field} {s₀ s : State} (status : Nat) (flags : CFlags) (hL₀ : Field.sub [.blt] L₀ = true)
  (h₀ : Touch L₀ s₀ s) : Touch L₀ s₀ (bltTriggerCompletion s status flags) := by
  unfold bltTriggerCompletion
  try dsimp only
  repeat' first
    | with_reducible assumption
    | (with_reducible refine Field.sub_trans ?_ hL₀; decide)
    | with_reducible apply bltTrigger_touch
    | with_reducible apply Touch.ite

theorem hostStore_touch {L : List Field} {r s : State} (x : Ctx) (a : Nat) (ws : List Word)
    (hL : Field.sub [.host, .mailbox] L = true) (h : Touch L r s) : Touch L r (hostStore s x a ws) := by
  unfold hostStore
  apply Touch.ite
  · exact Touch.updMailbox (Field.sub_trans (by decide) hL) h (memWf_putWords ws a)
  · exact Touch.updHost (Field.sub_trans (by decide) hL) h (memWf_putWords ws a)

theorem writeSlots_touch {L₀ : List Field} {s₀ s : State} (g : JGroup) (hL₀ : Field.sub [.host, .mailbox] L₀ = true)
  (h₀ : Touch L₀ s₀ s) : Touch L₀ s₀ (writeSlots s g) := by
  unfold writeSlots
  try dsimp only
  repeat' first
    | with_reducible assumption
    | (with_reducible refine Field.sub_trans ?_ hL₀; decide)
    | intro _
    | with_reducible apply hostStore_touch
    | with_reducible apply Touch.ite
    | with_reducible apply Touch.fold
    | split
    | (with_reducible apply Touch.of_fst; with_reducible assumption)
    | (with_reducible apply Touch.of_snd; with_reducible assumption)

theorem journalAdd_touch {L₀ : List Field} {s₀ s : State} (g : JGroup) (hL₀ : Field.sub [.journal, .host, .mailbox] L₀ = true)
  (h₀ : Touch L₀ s₀ s) : Touch L₀ s₀ (journalAdd s g) := by
  unfold journalAdd
  try dsimp only
  repeat' first
    | with_reducible assumption
    | (with_reducible refine Field.sub_trans ?_ hL₀; decide)
    | intro _
    | with_reducible apply writeSlots_touch
    | fail_if_no_progress (with_reducible refine Touch.updJournal (Field.sub_trans (by decide) hL₀) ?_)
    | with_reducible apply Touch.ite
    | split
    | (with_reducible apply Touch.of_fst; with_reducible assumption)
    | (with_reducible apply Touch.of_snd; with_reducible assumption)

theorem writePads_touch {L : List Field} {r s : State} (n c : Nat) (hL : Field.sub [.ctxs, .journal, .host, .mailbox] L = true)
    (h : Touch L r s) : Touch L r (writePads n s c) := by
  induction n generalizing s with
  | zero => exact h
  | succ n ih =>
    unfold writePads
    apply ih
    apply setCtx_touch _ _ (Field.sub_trans (by decide) hL)
    exact journalAdd_touch _ (Field.sub_trans (by decide) hL) h

theorem writeGroup_touch {L₀ : List Field} {s₀ s : State} (c : Nat) (head : CSlot) (exts : List CSlot) (hL₀ : Field.sub [.ctxs, .journal, .host, .mailbox] L₀ = true)
  (h₀ : Touch L₀ s₀ s) : Touch L₀ s₀ (writeGroup s c head exts) := by
  unfold writeGroup
  try dsimp only
  repeat' first
    | with_reducible assumption
    | (with_reducible refine Field.sub_trans ?_ hL₀; decide)
    | with_reducible apply writePads_touch
    | with_reducible apply journalAdd_touch
    | with_reducible apply setCtx_touch
    | with_reducible apply Touch.ite

theorem enterGroup_touch {L₀ : List Field} {s₀ s : State} (w : WaitGroup) (hL₀ : Field.sub [.regs, .ctxs, .rings, .journal, .host, .mailbox] L₀ = true)
  (h₀ : Touch L₀ s₀ s) : Touch L₀ s₀ (enterGroup s w) := by
  unfold enterGroup
  try dsimp only
  repeat' first
    | with_reducible assumption
    | (with_reducible refine Field.sub_trans ?_ hL₀; decide)
    | intro _
    | with_reducible apply writeGroup_touch
    | with_reducible apply setCtx_touch
    | with_reducible apply setRing_touch
    | with_reducible apply bump_touch
    | with_reducible apply Touch.ite
    | split
    | (with_reducible apply Touch.of_fst; with_reducible assumption)
    | (with_reducible apply Touch.of_snd; with_reducible assumption)

theorem postGroup_touch {L₀ : List Field} {s₀ s : State} (w : WaitGroup) (hL₀ : Field.sub [.regs, .ctxs, .rings, .journal, .waiting, .host, .mailbox] L₀ = true)
  (h₀ : Touch L₀ s₀ s) : Touch L₀ s₀ (postGroup s w) := by
  unfold postGroup
  try dsimp only
  repeat' first
    | with_reducible assumption
    | (with_reducible refine Field.sub_trans ?_ hL₀; decide)
    | with_reducible apply enterGroup_touch
    | fail_if_no_progress (with_reducible refine Touch.updWaiting (Field.sub_trans (by decide) hL₀) ?_)
    | with_reducible apply Touch.ite

theorem flushJournal_touch {L : List Field} {r s : State} (n : Nat) (hL : Field.sub [.regs, .ctxs, .rings, .journal, .waiting, .host, .mailbox] L = true) (h : Touch L r s) :
    Touch L r (flushJournal n s) := by
  induction n generalizing s with
  | zero => exact h
  | succ n ih =>
    unfold flushJournal
    split
    · exact h
    · exact Touch.ite (ih (enterGroup_touch _ (Field.sub_trans (by decide) hL) (Touch.updWaiting (Field.sub_trans (by decide) hL) h))) h

theorem writeOrDrop_touch {L₀ : List Field} {s₀ s : State} (c : Nat) (head : CSlot) (exts : List CSlot) (hL₀ : Field.sub [.regs, .ctxs, .rings, .journal, .waiting, .host, .mailbox] L₀ = true)
  (h₀ : Touch L₀ s₀ s) : Touch L₀ s₀ (writeOrDrop s c head exts) := by
  unfold writeOrDrop
  try dsimp only
  repeat' first
    | with_reducible assumption
    | (with_reducible refine Field.sub_trans ?_ hL₀; decide)
    | with_reducible apply postGroup_touch
    | with_reducible apply Touch.ite

theorem raiseEvent_touch {L₀ : List Field} {s₀ s : State} (ev : Nat) (p : Option Nat) (sub : Nat) (a0 : Word) (a1 : Word) (a2 : Word) (a3 : Word64) (hL₀ : Field.sub [.regs, .ctxs, .rings, .journal, .waiting, .host, .mailbox, .blt] L₀ = true)
  (h₀ : Touch L₀ s₀ s) : Touch L₀ s₀ (raiseEvent s ev p sub a0 a1 a2 a3) := by
  unfold raiseEvent
  try dsimp only
  repeat' first
    | with_reducible assumption
    | (with_reducible refine Field.sub_trans ?_ hL₀; decide)
    | intro _
    | with_reducible apply writeOrDrop_touch
    | with_reducible apply bltRecord_touch
    | with_reducible apply Touch.ite
    | with_reducible apply Touch.fold
    | split
    | (with_reducible apply Touch.of_fst; with_reducible assumption)
    | (with_reducible apply Touch.of_snd; with_reducible assumption)

theorem healthEvent_touch {L₀ : List Field} {s₀ s : State} (code : Nat) (kind : Nat) (index : Nat) (a2 : Nat) (a3 : Nat) (hL₀ : Field.sub [.regs, .ctxs, .rings, .journal, .waiting, .host, .mailbox, .blt] L₀ = true)
  (h₀ : Touch L₀ s₀ s) : Touch L₀ s₀ (healthEvent s code kind index a2 a3) := by
  unfold healthEvent
  try dsimp only
  repeat' first
    | with_reducible assumption
    | (with_reducible refine Field.sub_trans ?_ hL₀; decide)
    | with_reducible apply raiseEvent_touch
    | with_reducible apply Touch.ite

theorem writeFault_touch {L₀ : List Field} {s₀ s : State} (f : FaultRec) (hL₀ : Field.sub [.regs, .ctxs, .rings, .journal, .waiting, .host, .mailbox, .blt, .anl] L₀ = true)
  (h₀ : Touch L₀ s₀ s) : Touch L₀ s₀ (writeFault s f) := by
  unfold writeFault
  try dsimp only
  repeat' first
    | with_reducible assumption
    | (with_reducible refine Field.sub_trans ?_ hL₀; decide)
    | with_reducible apply raiseEvent_touch
    | with_reducible apply bltTrigger_touch
    | fail_if_no_progress (with_reducible refine Touch.updAnl (Field.sub_trans (by decide) hL₀) ?_)
    | with_reducible apply Touch.ite

theorem popItem_touch {L₀ : List Field} {s₀ s : State} (c : Nat) (r : Nat) (hL₀ : Field.sub [.rings] L₀ = true)
  (h₀ : Touch L₀ s₀ s) : Touch L₀ s₀ (popItem s c r) := by
  unfold popItem
  try dsimp only
  repeat' first
    | with_reducible assumption
    | (with_reducible refine Field.sub_trans ?_ hL₀; decide)
    | with_reducible apply setRing_touch
    | with_reducible apply Touch.ite

theorem completeOne_touch {L₀ : List Field} {s₀ s : State} (c : Nat) (r : Nat) (status : Nat) (cause : Nat) (detail : Word) (asn : Word) (exts : List CSlot) (flags : CFlags) (hL₀ : Field.sub [.regs, .ctxs, .rings, .journal, .waiting, .host, .mailbox, .blt] L₀ = true)
  (h₀ : Touch L₀ s₀ s) : Touch L₀ s₀ (completeOne s c r status cause detail asn exts flags) := by
  unfold completeOne
  try dsimp only
  repeat' first
    | with_reducible assumption
    | (with_reducible refine Field.sub_trans ?_ hL₀; decide)
    | intro _
    | with_reducible apply postGroup_touch
    | with_reducible apply popItem_touch
    | with_reducible apply bltTriggerCompletion_touch
    | with_reducible apply bltRecord_touch
    | with_reducible apply Touch.ite
    | split
    | (with_reducible apply Touch.of_fst; with_reducible assumption)
    | (with_reducible apply Touch.of_snd; with_reducible assumption)

theorem settle_touch {L : List Field} {r s : State} (n c q : Nat) (hL : Field.sub [.regs, .ctxs, .rings, .journal, .waiting, .host, .mailbox, .blt] L = true)
    (h : Touch L r s) : Touch L r (settle n s c q) := by
  induction n generalizing s with
  | zero => exact h
  | succ n ih =>
    unfold settle
    split
    · split
      · apply ih
        exact completeOne_touch _ _ _ _ _ _ _ _ hL h
      · exact h
    · exact h

theorem completeItem_touch {L₀ : List Field} {s₀ s : State} (c : Nat) (r : Nat) (status : Nat) (cause : Nat) (detail : Word) (asn : Word) (exts : List CSlot) (flags : CFlags) (hL₀ : Field.sub [.regs, .ctxs, .rings, .journal, .waiting, .host, .mailbox, .blt] L₀ = true)
  (h₀ : Touch L₀ s₀ s) : Touch L₀ s₀ (completeItem s c r status cause detail asn exts flags) := by
  unfold completeItem
  try dsimp only
  repeat' first
    | with_reducible assumption
    | (with_reducible refine Field.sub_trans ?_ hL₀; decide)
    | with_reducible apply settle_touch
    | with_reducible apply completeOne_touch
    | with_reducible apply Touch.ite

theorem finishItem_touch {L₀ : List Field} {s₀ s : State} (c : Nat) (r : Nat) (status : Nat) (cause : Nat) (hL₀ : Field.sub [.regs, .ctxs, .rings, .journal, .waiting, .host, .mailbox, .blt] L₀ = true)
  (h₀ : Touch L₀ s₀ s) : Touch L₀ s₀ (finishItem s c r status cause) := by
  unfold finishItem
  try dsimp only
  repeat' first
    | with_reducible assumption
    | (with_reducible refine Field.sub_trans ?_ hL₀; decide)
    | with_reducible apply completeItem_touch
    | with_reducible apply Touch.ite

theorem semSet_touch {L₀ : List Field} {s₀ s : State} (n : Nat) (v : Nat) (hL₀ : Field.sub [.regs] L₀ = true)
  (h₀ : Touch L₀ s₀ s) : Touch L₀ s₀ (semSet s n v) := by
  unfold semSet
  try dsimp only
  repeat' first
    | with_reducible assumption
    | (with_reducible refine Field.sub_trans ?_ hL₀; decide)
    | with_reducible apply regSet_touch
    | with_reducible apply Touch.ite

theorem setDom_touch {L₀ : List Field} {s₀ s : State} (d : Nat) (x : PowerState) (hL₀ : Field.sub [.pwr] L₀ = true)
  (h₀ : Touch L₀ s₀ s) : Touch L₀ s₀ (setDom s d x) := by
  unfold setDom
  try dsimp only
  repeat' first
    | with_reducible assumption
    | (with_reducible refine Field.sub_trans ?_ hL₀; decide)
    | fail_if_no_progress (with_reducible refine Touch.updPwr (Field.sub_trans (by decide) hL₀) ?_)
    | with_reducible apply Touch.ite

end Sys2Proof.Machine
end

