-- ==== Sys2Proof/Laws/TouchNibOps.lean ====
section
/-! SUPPORT. What each function of Machine/NibOps.lean may touch: its law in the sense of Laws/Frame.lean. -/

namespace Sys2Proof.Machine

theorem nibCount_touch {L₀ : List Field} {s₀ s : State} (n : Nat) (f : Nat) (hL₀ : Field.sub [.regs] L₀ = true)
  (h₀ : Touch L₀ s₀ s) : Touch L₀ s₀ (nibCount s n f) := by
  unfold nibCount
  try dsimp only
  repeat' first
    | with_reducible assumption
    | (with_reducible refine Field.sub_trans ?_ hL₀; decide)
    | with_reducible apply regSet_touch
    | with_reducible apply Touch.ite

theorem nibFlags_touch {L₀ : List Field} {s₀ s : State} (n : Nat) (fs : List Nat) (hL₀ : Field.sub [.regs, .ctxs, .rings, .journal, .waiting, .host, .mailbox, .blt] L₀ = true)
  (h₀ : Touch L₀ s₀ s) : Touch L₀ s₀ (nibFlags s n fs) := by
  unfold nibFlags
  try dsimp only
  repeat' first
    | with_reducible assumption
    | (with_reducible refine Field.sub_trans ?_ hL₀; decide)
    | intro _
    | with_reducible apply nibCount_touch
    | with_reducible apply regSet_touch
    | with_reducible apply raiseEvent_touch
    | with_reducible apply bltTrigger_touch
    | with_reducible apply Touch.ite
    | with_reducible apply Touch.fold
    | split
    | (with_reducible apply Touch.of_fst; with_reducible assumption)
    | (with_reducible apply Touch.of_snd; with_reducible assumption)

theorem nibRefuse_touch {L₀ : List Field} {s₀ s : State} (n : Nat) (cause : Nat) (hL₀ : Field.sub [.regs, .ctxs, .rings, .journal, .waiting, .host, .mailbox, .blt] L₀ = true)
  (h₀ : Touch L₀ s₀ s) : Touch L₀ s₀ (nibRefuse s n cause) := by
  unfold nibRefuse
  try dsimp only
  repeat' first
    | with_reducible assumption
    | (with_reducible refine Field.sub_trans ?_ hL₀; decide)
    | with_reducible apply nibFlags_touch
    | with_reducible apply regSet_touch
    | with_reducible apply Touch.ite

theorem noPlan_touch {L₀ : List Field} {s₀ s : State} (n : Nat) (hL₀ : Field.sub [.regs, .ctxs, .rings, .journal, .waiting, .host, .mailbox, .nibs, .blt] L₀ = true)
  (h₀ : Touch L₀ s₀ s) : Touch L₀ s₀ (noPlan s n) := by
  unfold noPlan
  try dsimp only
  repeat' first
    | with_reducible assumption
    | (with_reducible refine Field.sub_trans ?_ hL₀; decide)
    | intro _
    | with_reducible apply nibFlags_touch
    | with_reducible apply setNib_touch
    | with_reducible apply Touch.ite
    | split
    | (with_reducible apply Touch.of_fst; with_reducible assumption)
    | (with_reducible apply Touch.of_snd; with_reducible assumption)

theorem noPlanEntry_touch {L₀ : List Field} {s₀ s : State} (p : Nat) (j : Nat) (hL₀ : Field.sub [.regs, .ctxs, .rings, .journal, .waiting, .host, .mailbox, .nibs, .blt] L₀ = true)
  (h₀ : Touch L₀ s₀ s) : Touch L₀ s₀ (noPlanEntry s p j) := by
  unfold noPlanEntry
  try dsimp only
  repeat' first
    | with_reducible assumption
    | (with_reducible refine Field.sub_trans ?_ hL₀; decide)
    | intro _
    | with_reducible apply noPlan_touch
    | with_reducible apply Touch.ite
    | with_reducible apply Touch.fold

theorem adopt_touch {L₀ : List Field} {s₀ s : State} (n : Nat) (t : NibTraj) (shifted : Bool) (hL₀ : Field.sub [.regs, .ctxs, .rings, .journal, .waiting, .host, .mailbox, .nibs, .blt] L₀ = true)
  (h₀ : Touch L₀ s₀ s) : Touch L₀ s₀ (adopt s n t shifted) := by
  unfold adopt
  try dsimp only
  repeat' first
    | with_reducible assumption
    | (with_reducible refine Field.sub_trans ?_ hL₀; decide)
    | with_reducible apply setNib_touch
    | with_reducible apply nibFlags_touch
    | with_reducible apply Touch.ite

end Sys2Proof.Machine
end

