-- ==== Sys2Proof/Laws/TouchWindows.lean ====
section
/-! SUPPORT. What each function of Machine/Windows.lean may touch: its law in the sense of Laws/Frame.lean. -/

namespace Sys2Proof.Machine

theorem leaveFabric_touch {L₀ : List Field} {s₀ s : State} (p : Nat) (k : CmdKey) (hL₀ : Field.sub [.parts] L₀ = true)
  (h₀ : Touch L₀ s₀ s) : Touch L₀ s₀ (leaveFabric s p k) := by
  unfold leaveFabric
  try dsimp only
  repeat' first
    | with_reducible assumption
    | (with_reducible refine Field.sub_trans ?_ hL₀; decide)
    | with_reducible apply setPart_touch
    | with_reducible apply Touch.ite

end Sys2Proof.Machine
end

