-- ==== Sys2Proof/Laws/TouchCommand.lean ====
section
/-! SUPPORT. What each function of Machine/Command.lean may touch: its law in the sense of Laws/Frame.lean. -/

namespace Sys2Proof.Machine

theorem writeLaunch_touch {L₀ : List Field} {s₀ s : State} (r : LaunchRec) (hL₀ : Field.sub [.regs, .ctxs, .rings, .journal, .waiting, .host, .mailbox, .blt] L₀ = true)
  (h₀ : Touch L₀ s₀ s) : Touch L₀ s₀ (writeLaunch s r) := by
  unfold writeLaunch
  try dsimp only
  repeat' first
    | with_reducible assumption
    | (with_reducible refine Field.sub_trans ?_ hL₀; decide)
    | with_reducible apply writeOrDrop_touch
    | with_reducible apply bltRecord_touch
    | with_reducible apply bltTriggerCompletion_touch
    | with_reducible apply Touch.ite

theorem modTiles_touch {L₀ : List Field} {s₀ s : State} (p : Nat) (f : Tile → Tile) (hL₀ : Field.sub [.tiles] L₀ = true)
  (h₀ : Touch L₀ s₀ s) : Touch L₀ s₀ (modTiles s p f) := by
  unfold modTiles
  try dsimp only
  repeat' first
    | with_reducible assumption
    | (with_reducible refine Field.sub_trans ?_ hL₀; decide)
    | intro _
    | with_reducible apply setTile_touch
    | with_reducible apply Touch.ite
    | with_reducible apply Touch.fold
    | split

theorem boundaryTiles_touch {L₀ : List Field} {s₀ s : State} (p : Nat) (hL₀ : Field.sub [.tiles] L₀ = true)
  (h₀ : Touch L₀ s₀ s) : Touch L₀ s₀ (boundaryTiles s p) := by
  unfold boundaryTiles
  try dsimp only
  repeat' first
    | with_reducible assumption
    | (with_reducible refine Field.sub_trans ?_ hL₀; decide)
    | with_reducible apply modTiles_touch
    | with_reducible apply Touch.ite

theorem putCmd_touch {L₀ : List Field} {s₀ s : State} (p : Nat) (k : CmdKey) (c : Cmd) (hL₀ : Field.sub [.parts, .be] L₀ = true)
  (h₀ : Touch L₀ s₀ s) : Touch L₀ s₀ (putCmd s p k c) := by
  unfold putCmd
  try dsimp only
  repeat' first
    | with_reducible assumption
    | (with_reducible refine Field.sub_trans ?_ hL₀; decide)
    | intro _
    | with_reducible apply setRun_touch
    | with_reducible apply setBe_touch
    | with_reducible apply Touch.ite
    | split
    | (with_reducible apply Touch.of_fst; with_reducible assumption)
    | (with_reducible apply Touch.of_snd; with_reducible assumption)

theorem freeTiles_touch {L₀ : List Field} {s₀ s : State} (p : Nat) (hL₀ : Field.sub [.parts, .tiles] L₀ = true)
  (h₀ : Touch L₀ s₀ s) : Touch L₀ s₀ (freeTiles s p) := by
  unfold freeTiles
  try dsimp only
  repeat' first
    | with_reducible assumption
    | (with_reducible refine Field.sub_trans ?_ hL₀; decide)
    | with_reducible apply boundaryTiles_touch
    | with_reducible apply setPart_touch
    | with_reducible apply Touch.ite

theorem dropPostings_touch {L₀ : List Field} {s₀ s : State} (p : Nat) (k : CmdKey) (hL₀ : Field.sub [.parts, .assay] L₀ = true)
  (h₀ : Touch L₀ s₀ s) : Touch L₀ s₀ (dropPostings s p k) := by
  unfold dropPostings
  try dsimp only
  repeat' first
    | with_reducible assumption
    | (with_reducible refine Field.sub_trans ?_ hL₀; decide)
    | intro _
    | with_reducible apply setPart_touch
    | fail_if_no_progress (with_reducible refine Touch.updAssay (Field.sub_trans (by decide) hL₀) ?_)
    | with_reducible apply Touch.ite
    | split
    | (with_reducible apply Touch.of_fst; with_reducible assumption)
    | (with_reducible apply Touch.of_snd; with_reducible assumption)

theorem toRerun_touch {L₀ : List Field} {s₀ s : State} (p : Nat) (k : CmdKey) (hold : Bool) (hL₀ : Field.sub [.parts, .be, .assay] L₀ = true)
  (h₀ : Touch L₀ s₀ s) : Touch L₀ s₀ (toRerun s p k hold) := by
  unfold toRerun
  try dsimp only
  repeat' first
    | with_reducible assumption
    | (with_reducible refine Field.sub_trans ?_ hL₀; decide)
    | intro _
    | with_reducible apply dropPostings_touch
    | with_reducible apply putCmd_touch
    | with_reducible apply setBe_touch
    | with_reducible apply Touch.ite
    | split
    | (with_reducible apply Touch.of_fst; with_reducible assumption)
    | (with_reducible apply Touch.of_snd; with_reducible assumption)

theorem killChecks_touch {L₀ : List Field} {s₀ s : State} (p : Nat) (hold : Bool) (hL₀ : Field.sub [.parts, .be, .assay] L₀ = true)
  (h₀ : Touch L₀ s₀ s) : Touch L₀ s₀ (killChecks s p hold) := by
  unfold killChecks
  try dsimp only
  repeat' first
    | with_reducible assumption
    | (with_reducible refine Field.sub_trans ?_ hL₀; decide)
    | intro _
    | with_reducible apply toRerun_touch
    | with_reducible apply Touch.ite
    | with_reducible apply Touch.fold
    | split
    | (with_reducible apply Touch.of_fst; with_reducible assumption)
    | (with_reducible apply Touch.of_snd; with_reducible assumption)

theorem beginKill_touch {L₀ : List Field} {s₀ s : State} (p : Nat) (cause : KillCause) (rerun : Bool) (pause : List (Nat × Nat)) (hL₀ : Field.sub [.parts, .tiles, .be, .assay] L₀ = true)
  (h₀ : Touch L₀ s₀ s) : Touch L₀ s₀ (beginKill s p cause rerun pause) := by
  unfold beginKill
  try dsimp only
  repeat' first
    | with_reducible assumption
    | (with_reducible refine Field.sub_trans ?_ hL₀; decide)
    | intro _
    | with_reducible apply modTiles_touch
    | with_reducible apply setPart_touch
    | with_reducible apply toRerun_touch
    | with_reducible apply dropPostings_touch
    | with_reducible apply Touch.ite
    | split
    | (with_reducible apply Touch.of_fst; with_reducible assumption)
    | (with_reducible apply Touch.of_snd; with_reducible assumption)

theorem dropInsts_touch {L₀ : List Field} {s₀ s : State} (p : Nat) (gone : Inst → Bool) (hL₀ : Field.sub [.parts] L₀ = true)
  (h₀ : Touch L₀ s₀ s) : Touch L₀ s₀ (dropInsts s p gone) := by
  unfold dropInsts
  try dsimp only
  repeat' first
    | with_reducible assumption
    | (with_reducible refine Field.sub_trans ?_ hL₀; decide)
    | with_reducible apply setPart_touch
    | with_reducible apply Touch.ite

theorem removeInst_touch {L₀ : List Field} {s₀ s : State} (p : Nat) (num : Nat) (hL₀ : Field.sub [.parts] L₀ = true)
  (h₀ : Touch L₀ s₀ s) : Touch L₀ s₀ (removeInst s p num) := by
  unfold removeInst
  try dsimp only
  repeat' first
    | with_reducible assumption
    | (with_reducible refine Field.sub_trans ?_ hL₀; decide)
    | intro _
    | with_reducible apply dropInsts_touch
    | with_reducible apply Touch.ite
    | split

theorem freeReleased_touch {L₀ : List Field} {s₀ s : State} (p : Nat) (hL₀ : Field.sub [.parts] L₀ = true)
  (h₀ : Touch L₀ s₀ s) : Touch L₀ s₀ (freeReleased s p) := by
  unfold freeReleased
  try dsimp only
  repeat' first
    | with_reducible assumption
    | (with_reducible refine Field.sub_trans ?_ hL₀; decide)
    | intro _
    | with_reducible apply dropInsts_touch
    | with_reducible apply Touch.ite
    | split

theorem staleTargets_touch {L₀ : List Field} {s₀ s : State} (im : Image) (hL₀ : Field.sub [.parts] L₀ = true)
  (h₀ : Touch L₀ s₀ s) : Touch L₀ s₀ (staleTargets s im) := by
  unfold staleTargets
  try dsimp only
  repeat' first
    | with_reducible assumption
    | (with_reducible refine Field.sub_trans ?_ hL₀; decide)
    | intro _
    | with_reducible apply putInst_touch
    | with_reducible apply Touch.ite
    | with_reducible apply Touch.fold
    | split
    | (with_reducible apply Touch.of_fst; with_reducible assumption)
    | (with_reducible apply Touch.of_snd; with_reducible assumption)

theorem staleOf_touch {L₀ : List Field} {s₀ s : State} (p : Nat) (k : Nat) (hL₀ : Field.sub [.parts] L₀ = true)
  (h₀ : Touch L₀ s₀ s) : Touch L₀ s₀ (staleOf s p k) := by
  unfold staleOf
  try dsimp only
  repeat' first
    | with_reducible assumption
    | (with_reducible refine Field.sub_trans ?_ hL₀; decide)
    | intro _
    | with_reducible apply staleTargets_touch
    | with_reducible apply Touch.ite
    | split
    | (with_reducible apply Touch.of_fst; with_reducible assumption)
    | (with_reducible apply Touch.of_snd; with_reducible assumption)

theorem endMember_touch {L₀ : List Field} {s₀ s : State} (p : Nat) (cmd : Cmd) (m : Member) (ctx : Nat) (status : Nat) (cause : Nat) (hL₀ : Field.sub [.regs, .parts, .ctxs, .rings, .journal, .waiting, .host, .mailbox, .blt] L₀ = true)
  (h₀ : Touch L₀ s₀ s) : Touch L₀ s₀ (endMember s p cmd m ctx status cause) := by
  unfold endMember
  try dsimp only
  repeat' first
    | with_reducible assumption
    | (with_reducible refine Field.sub_trans ?_ hL₀; decide)
    | intro _
    | with_reducible apply staleOf_touch
    | with_reducible apply writeLaunch_touch
    | with_reducible apply Touch.ite
    | split
    | (with_reducible apply Touch.of_fst; with_reducible assumption)
    | (with_reducible apply Touch.of_snd; with_reducible assumption)

theorem teardownLaunch_touch {L₀ : List Field} {s₀ s : State} (p : Nat) (j : Nat) (c : Nat) (cause : Nat) (hL₀ : Field.sub [.regs, .parts, .tiles, .be, .ctxs, .rings, .journal, .waiting, .host, .mailbox, .blt, .assay] L₀ = true)
  (h₀ : Touch L₀ s₀ s) : Touch L₀ s₀ (teardownLaunch s p j c cause) := by
  unfold teardownLaunch
  try dsimp only
  repeat' first
    | with_reducible assumption
    | (with_reducible refine Field.sub_trans ?_ hL₀; decide)
    | intro _
    | with_reducible apply beginKill_touch
    | with_reducible apply dropPostings_touch
    | with_reducible apply endMember_touch
    | with_reducible apply leaveFabric_touch
    | with_reducible apply setRun_touch
    | with_reducible apply Touch.ite
    | with_reducible apply Touch.fold
    | split
    | (with_reducible apply Touch.of_fst; with_reducible assumption)
    | (with_reducible apply Touch.of_snd; with_reducible assumption)

theorem failRing_touch {L₀ : List Field} {s₀ s : State} (c : Nat) (r : Nat) (status : Nat) (cause : Nat) (st : RingState) (hL₀ : Field.sub [.regs, .ctxs, .rings, .journal, .waiting, .host, .mailbox, .blt] L₀ = true)
  (h₀ : Touch L₀ s₀ s) : Touch L₀ s₀ (failRing s c r status cause st) := by
  unfold failRing
  try dsimp only
  repeat' first
    | with_reducible assumption
    | (with_reducible refine Field.sub_trans ?_ hL₀; decide)
    | intro _
    | with_reducible apply completeOne_touch
    | with_reducible apply setRing_touch
    | fail_if_no_progress (with_reducible refine Touch.updWaiting (Field.sub_trans (by decide) hL₀) ?_)
    | with_reducible apply Touch.ite
    | with_reducible apply Touch.fold
    | split

theorem dropRing_touch {L₀ : List Field} {s₀ s : State} (p : Nat) (k : Nat) (hL₀ : Field.sub [.parts, .be, .assay] L₀ = true)
  (h₀ : Touch L₀ s₀ s) : Touch L₀ s₀ (dropRing s p k) := by
  unfold dropRing
  try dsimp only
  repeat' first
    | with_reducible assumption
    | (with_reducible refine Field.sub_trans ?_ hL₀; decide)
    | intro _
    | with_reducible apply staleOf_touch
    | with_reducible apply setBe_touch
    | with_reducible apply dropPostings_touch
    | with_reducible apply Touch.ite
    | split
    | (with_reducible apply Touch.of_fst; with_reducible assumption)
    | (with_reducible apply Touch.of_snd; with_reducible assumption)

theorem dropContextWork_touch {L₀ : List Field} {s₀ s : State} (c : Nat) (hL₀ : Field.sub [.parts, .be, .assay] L₀ = true)
  (h₀ : Touch L₀ s₀ s) : Touch L₀ s₀ (dropContextWork s c) := by
  unfold dropContextWork
  try dsimp only
  repeat' first
    | with_reducible assumption
    | (with_reducible refine Field.sub_trans ?_ hL₀; decide)
    | intro _
    | with_reducible apply dropRing_touch
    | with_reducible apply setPart_touch
    | with_reducible apply Touch.ite
    | with_reducible apply Touch.fold
    | split
    | (with_reducible apply Touch.of_fst; with_reducible assumption)
    | (with_reducible apply Touch.of_snd; with_reducible assumption)

theorem freeWorkspaces_touch {L₀ : List Field} {s₀ s : State} (c : Nat) (hL₀ : Field.sub [.mem] L₀ = true)
  (h₀ : Touch L₀ s₀ s) : Touch L₀ s₀ (freeWorkspaces s c) := by
  unfold freeWorkspaces
  try dsimp only
  repeat' first
    | with_reducible assumption
    | (with_reducible refine Field.sub_trans ?_ hL₀; decide)
    | intro _
    | fail_if_no_progress (with_reducible refine Touch.updMem (Field.sub_trans (by decide) hL₀) ?_)
    | with_reducible apply Touch.ite
    | split
    | (with_reducible apply Touch.of_fst; with_reducible assumption)
    | (with_reducible apply Touch.of_snd; with_reducible assumption)

theorem releaseInstances_touch {L₀ : List Field} {s₀ s : State} (c : Nat) (hL₀ : Field.sub [.regs, .parts, .ctxs, .rings, .journal, .waiting, .host, .mailbox, .nibs, .blt] L₀ = true)
  (h₀ : Touch L₀ s₀ s) : Touch L₀ s₀ (releaseInstances s c) := by
  unfold releaseInstances
  try dsimp only
  repeat' first
    | with_reducible assumption
    | (with_reducible refine Field.sub_trans ?_ hL₀; decide)
    | intro _
    | with_reducible apply setRun_touch
    | with_reducible apply noPlanEntry_touch
    | with_reducible apply removeInst_touch
    | with_reducible apply Touch.ite
    | with_reducible apply Touch.fold
    | split
    | (with_reducible apply Touch.of_fst; with_reducible assumption)
    | (with_reducible apply Touch.of_snd; with_reducible assumption)

theorem teardownStart_touch {L₀ : List Field} {s₀ s : State} (c : Nat) (cause : KillCause) (hL₀ : Field.sub [.parts, .tiles, .be, .mem, .assay] L₀ = true)
  (h₀ : Touch L₀ s₀ s) : Touch L₀ s₀ (teardownStart s c cause) := by
  unfold teardownStart
  try dsimp only
  repeat' first
    | with_reducible assumption
    | (with_reducible refine Field.sub_trans ?_ hL₀; decide)
    | intro _
    | with_reducible apply beginKill_touch
    | with_reducible apply dropContextWork_touch
    | with_reducible apply freeWorkspaces_touch
    | with_reducible apply Touch.ite
    | split
    | (with_reducible apply Touch.of_fst; with_reducible assumption)
    | (with_reducible apply Touch.of_snd; with_reducible assumption)

theorem teardown_touch {L₀ : List Field} {s₀ s : State} (c : Nat) (cause : Nat) (hL₀ : Field.sub [.regs, .parts, .tiles, .be, .ctxs, .rings, .journal, .waiting, .host, .mailbox, .nibs, .mem, .blt, .anl, .assay] L₀ = true)
  (h₀ : Touch L₀ s₀ s) : Touch L₀ s₀ (teardown s c cause) := by
  unfold teardown
  try dsimp only
  repeat' first
    | with_reducible assumption
    | (with_reducible refine Field.sub_trans ?_ hL₀; decide)
    | intro _
    | with_reducible apply teardownStart_touch
    | with_reducible apply failRing_touch
    | with_reducible apply teardownLaunch_touch
    | with_reducible apply releaseInstances_touch
    | with_reducible apply writeFault_touch
    | with_reducible apply Touch.ite
    | with_reducible apply Touch.fold
    | split

end Sys2Proof.Machine
end

