-- ==== Sys2Proof/Laws/TouchHostIface.lean ====
section
/-! SUPPORT. What each function of Machine/HostIface.lean may touch: its law in the sense of Laws/Frame.lean. -/

namespace Sys2Proof.Machine

theorem tailDoorbell_touch {L₀ : List Field} {s₀ s : State} (c : Nat) (r : Nat) (v : Word64) (hL₀ : Field.sub [.regs, .parts, .tiles, .be, .ctxs, .rings, .journal, .waiting, .host, .mailbox, .nibs, .mem, .blt, .anl, .assay] L₀ = true)
  (h₀ : Touch L₀ s₀ s) : Touch L₀ s₀ (tailDoorbell s c r v) := by
  unfold tailDoorbell
  try dsimp only
  repeat' first
    | with_reducible assumption
    | (with_reducible refine Field.sub_trans ?_ hL₀; decide)
    | with_reducible apply bump_touch
    | with_reducible apply teardown_touch
    | with_reducible apply setRing_touch
    | with_reducible apply Touch.ite

theorem headDoorbell_touch {L₀ : List Field} {s₀ s : State} (c : Nat) (v : Word64) (hL₀ : Field.sub [.regs, .ctxs] L₀ = true)
  (h₀ : Touch L₀ s₀ s) : Touch L₀ s₀ (headDoorbell s c v) := by
  unfold headDoorbell
  try dsimp only
  repeat' first
    | with_reducible assumption
    | (with_reducible refine Field.sub_trans ?_ hL₀; decide)
    | with_reducible apply bump_touch
    | with_reducible apply setCtx_touch
    | with_reducible apply Touch.ite

theorem doorbell_touch {L₀ : List Field} {s₀ s : State} (f : Nat) (page : Nat) (off : Nat) (bytes : Nat) (v : Word64) (hL₀ : Field.sub [.regs, .parts, .tiles, .be, .ctxs, .rings, .journal, .waiting, .host, .mailbox, .nibs, .mem, .blt, .anl, .assay] L₀ = true)
  (h₀ : Touch L₀ s₀ s) : Touch L₀ s₀ (doorbell s f page off bytes v) := by
  unfold doorbell
  try dsimp only
  repeat' first
    | with_reducible assumption
    | (with_reducible refine Field.sub_trans ?_ hL₀; decide)
    | intro _
    | with_reducible apply bump_touch
    | with_reducible apply headDoorbell_touch
    | with_reducible apply tailDoorbell_touch
    | with_reducible apply Touch.ite
    | split
    | (with_reducible apply Touch.of_fst; with_reducible assumption)
    | (with_reducible apply Touch.of_snd; with_reducible assumption)

theorem execDoorbellSubmit_touch (f : FuncId) (page : Fin 64) (off : Nat) (bytes : Nat) (v : Word64) (s : State) : TouchR [.regs, .parts, .tiles, .be, .ctxs, .rings, .journal, .waiting, .host, .mailbox, .nibs, .mem, .blt, .anl, .assay] s (execDoorbellSubmit f page off bytes v s) := by
  have hL₀ : Field.sub [.regs, .parts, .tiles, .be, .ctxs, .rings, .journal, .waiting, .host, .mailbox, .nibs, .mem, .blt, .anl, .assay] [.regs, .parts, .tiles, .be, .ctxs, .rings, .journal, .waiting, .host, .mailbox, .nibs, .mem, .blt, .anl, .assay] = true := by decide
  have h₀ := Touch.refl [.regs, .parts, .tiles, .be, .ctxs, .rings, .journal, .waiting, .host, .mailbox, .nibs, .mem, .blt, .anl, .assay] s
  unfold execDoorbellSubmit
  try dsimp only
  repeat' first
    | with_reducible apply TouchR.next
    | with_reducible assumption
    | (with_reducible refine Field.sub_trans ?_ hL₀; decide)
    | with_reducible apply doorbell_touch
    | with_reducible apply Touch.ite

theorem execDoorbellCqHead_touch (f : FuncId) (page : Fin 64) (bytes : Nat) (v : Word64) (s : State) : TouchR [.regs, .parts, .tiles, .be, .ctxs, .rings, .journal, .waiting, .host, .mailbox, .nibs, .mem, .blt, .anl, .assay] s (execDoorbellCqHead f page bytes v s) := by
  have hL₀ : Field.sub [.regs, .parts, .tiles, .be, .ctxs, .rings, .journal, .waiting, .host, .mailbox, .nibs, .mem, .blt, .anl, .assay] [.regs, .parts, .tiles, .be, .ctxs, .rings, .journal, .waiting, .host, .mailbox, .nibs, .mem, .blt, .anl, .assay] = true := by decide
  have h₀ := Touch.refl [.regs, .parts, .tiles, .be, .ctxs, .rings, .journal, .waiting, .host, .mailbox, .nibs, .mem, .blt, .anl, .assay] s
  unfold execDoorbellCqHead
  try dsimp only
  repeat' first
    | with_reducible apply TouchR.next
    | with_reducible assumption
    | (with_reducible refine Field.sub_trans ?_ hL₀; decide)
    | with_reducible apply doorbell_touch
    | with_reducible apply Touch.ite

theorem fetchOne_touch {L₀ : List Field} {s₀ s : State} (c : Nat) (r : Nat) (hL₀ : Field.sub [.regs, .ctxs, .rings, .journal, .waiting, .host, .mailbox, .blt] L₀ = true)
  (h₀ : Touch L₀ s₀ s) : Touch L₀ s₀ (fetchOne s c r) := by
  unfold fetchOne
  try dsimp only
  repeat' first
    | with_reducible assumption
    | (with_reducible refine Field.sub_trans ?_ hL₀; decide)
    | intro _
    | with_reducible apply bump_touch
    | with_reducible apply setRing_touch
    | with_reducible apply settle_touch
    | with_reducible apply bltRecord_touch
    | with_reducible apply Touch.ite
    | split
    | (with_reducible apply Touch.of_fst; with_reducible assumption)
    | (with_reducible apply Touch.of_snd; with_reducible assumption)

theorem fetchUpTo_touch {L : List Field} {s₀ s : State} (n c r : Nat) (hL : Field.sub [.regs, .ctxs, .rings, .journal, .waiting, .host, .mailbox, .blt] L = true) (h : Touch L s₀ s) :
    Touch L s₀ (fetchUpTo n s c r) := by
  induction n generalizing s with
  | zero => exact h
  | succ n ih =>
    unfold fetchUpTo
    exact Touch.ite (ih (fetchOne_touch _ _ (Field.sub_trans (by decide) hL) h)) h

theorem execDescriptorFetch_touch (c : CtxId) (r : RingId) (s : State) : TouchR [.regs, .ctxs, .rings, .journal, .waiting, .serveNext, .host, .mailbox, .blt] s (execDescriptorFetch c r s) := by
  have hL₀ : Field.sub [.regs, .ctxs, .rings, .journal, .waiting, .serveNext, .host, .mailbox, .blt] [.regs, .ctxs, .rings, .journal, .waiting, .serveNext, .host, .mailbox, .blt] = true := by decide
  have h₀ := Touch.refl [.regs, .ctxs, .rings, .journal, .waiting, .serveNext, .host, .mailbox, .blt] s
  unfold execDescriptorFetch
  try dsimp only
  repeat' first
    | with_reducible apply TouchR.next
    | with_reducible apply TouchR.ite
    | with_reducible assumption
    | (with_reducible refine Field.sub_trans ?_ hL₀; decide)
    | with_reducible apply fetchUpTo_touch
    | fail_if_no_progress (with_reducible refine Touch.updServeNext (Field.sub_trans (by decide) hL₀) ?_)
    | with_reducible apply Touch.ite

theorem beginItem_touch {L₀ : List Field} {s₀ s : State} (c : Nat) (r : Nat) (hL₀ : Field.sub [.rings] L₀ = true)
  (h₀ : Touch L₀ s₀ s) : Touch L₀ s₀ (beginItem s c r) := by
  unfold beginItem
  try dsimp only
  repeat' first
    | with_reducible assumption
    | (with_reducible refine Field.sub_trans ?_ hL₀; decide)
    | intro _
    | with_reducible apply setRing_touch
    | with_reducible apply Touch.ite
    | split
    | (with_reducible apply Touch.of_fst; with_reducible assumption)
    | (with_reducible apply Touch.of_snd; with_reducible assumption)

theorem execNop_touch (c : CtxId) (r : RingId) (s : State) : TouchR [.regs, .ctxs, .rings, .journal, .waiting, .host, .mailbox, .blt] s (execNop c r s) := by
  have hL₀ : Field.sub [.regs, .ctxs, .rings, .journal, .waiting, .host, .mailbox, .blt] [.regs, .ctxs, .rings, .journal, .waiting, .host, .mailbox, .blt] = true := by decide
  have h₀ := Touch.refl [.regs, .ctxs, .rings, .journal, .waiting, .host, .mailbox, .blt] s
  unfold execNop
  try dsimp only
  repeat' first
    | with_reducible apply TouchR.next
    | with_reducible assumption
    | (with_reducible refine Field.sub_trans ?_ hL₀; decide)
    | intro _
    | with_reducible apply finishItem_touch
    | with_reducible apply Touch.ite
    | split
    | (with_reducible apply Touch.of_fst; with_reducible assumption)
    | (with_reducible apply Touch.of_snd; with_reducible assumption)

theorem execObject_touch (c : CtxId) (r : RingId) (s : State) : TouchR [.parts, .rings] s (execObject c r s) := by
  have hL₀ : Field.sub [.parts, .rings] [.parts, .rings] = true := by decide
  have h₀ := Touch.refl [.parts, .rings] s
  unfold execObject
  try dsimp only
  repeat' first
    | with_reducible apply TouchR.next
    | with_reducible assumption
    | (with_reducible refine Field.sub_trans ?_ hL₀; decide)
    | intro _
    | with_reducible apply beginItem_touch
    | with_reducible apply setPart_touch
    | with_reducible apply Touch.ite
    | split
    | (with_reducible apply Touch.of_fst; with_reducible assumption)
    | (with_reducible apply Touch.of_snd; with_reducible assumption)

theorem execResultRead_touch (c : CtxId) (r : RingId) (s : State) : TouchR [.regs, .ctxs, .rings, .journal, .waiting, .host, .mailbox, .blt] s (execResultRead c r s) := by
  have hL₀ : Field.sub [.regs, .ctxs, .rings, .journal, .waiting, .host, .mailbox, .blt] [.regs, .ctxs, .rings, .journal, .waiting, .host, .mailbox, .blt] = true := by decide
  have h₀ := Touch.refl [.regs, .ctxs, .rings, .journal, .waiting, .host, .mailbox, .blt] s
  unfold execResultRead
  try dsimp only
  repeat' first
    | with_reducible apply TouchR.next
    | with_reducible assumption
    | (with_reducible refine Field.sub_trans ?_ hL₀; decide)
    | intro _
    | with_reducible apply finishItem_touch
    | with_reducible apply completeItem_touch
    | with_reducible apply hostStore_touch
    | with_reducible apply Touch.ite
    | split
    | (with_reducible apply Touch.of_fst; with_reducible assumption)
    | (with_reducible apply Touch.of_snd; with_reducible assumption)

theorem execPause_touch (c : CtxId) (r : RingId) (s : State) : TouchR [.regs, .parts, .tiles, .be, .ctxs, .rings, .journal, .waiting, .host, .mailbox, .blt, .assay] s (execPause c r s) := by
  have hL₀ : Field.sub [.regs, .parts, .tiles, .be, .ctxs, .rings, .journal, .waiting, .host, .mailbox, .blt, .assay] [.regs, .parts, .tiles, .be, .ctxs, .rings, .journal, .waiting, .host, .mailbox, .blt, .assay] = true := by decide
  have h₀ := Touch.refl [.regs, .parts, .tiles, .be, .ctxs, .rings, .journal, .waiting, .host, .mailbox, .blt, .assay] s
  unfold execPause
  try dsimp only
  repeat' first
    | with_reducible apply TouchR.next
    | with_reducible apply TouchR.ite
    | with_reducible assumption
    | (with_reducible refine Field.sub_trans ?_ hL₀; decide)
    | intro _
    | with_reducible apply setRing_touch
    | with_reducible apply beginKill_touch
    | with_reducible apply beginItem_touch
    | with_reducible apply finishItem_touch
    | with_reducible apply Touch.ite
    | split
    | (with_reducible apply Touch.of_fst; with_reducible assumption)
    | (with_reducible apply Touch.of_snd; with_reducible assumption)

theorem execResume_touch (c : CtxId) (r : RingId) (s : State) : TouchR [.regs, .ctxs, .rings, .journal, .waiting, .host, .mailbox, .blt] s (execResume c r s) := by
  have hL₀ : Field.sub [.regs, .ctxs, .rings, .journal, .waiting, .host, .mailbox, .blt] [.regs, .ctxs, .rings, .journal, .waiting, .host, .mailbox, .blt] = true := by decide
  have h₀ := Touch.refl [.regs, .ctxs, .rings, .journal, .waiting, .host, .mailbox, .blt] s
  unfold execResume
  try dsimp only
  repeat' first
    | with_reducible apply TouchR.next
    | with_reducible assumption
    | (with_reducible refine Field.sub_trans ?_ hL₀; decide)
    | intro _
    | with_reducible apply finishItem_touch
    | with_reducible apply setRing_touch
    | with_reducible apply Touch.ite
    | split
    | (with_reducible apply Touch.of_fst; with_reducible assumption)
    | (with_reducible apply Touch.of_snd; with_reducible assumption)

theorem execHostReadFail_touch (c : CtxId) (s : State) : TouchR [.regs, .parts, .tiles, .be, .ctxs, .rings, .journal, .waiting, .host, .mailbox, .nibs, .mem, .blt, .anl, .assay] s (execHostReadFail c s) := by
  have hL₀ : Field.sub [.regs, .parts, .tiles, .be, .ctxs, .rings, .journal, .waiting, .host, .mailbox, .nibs, .mem, .blt, .anl, .assay] [.regs, .parts, .tiles, .be, .ctxs, .rings, .journal, .waiting, .host, .mailbox, .nibs, .mem, .blt, .anl, .assay] = true := by decide
  have h₀ := Touch.refl [.regs, .parts, .tiles, .be, .ctxs, .rings, .journal, .waiting, .host, .mailbox, .nibs, .mem, .blt, .anl, .assay] s
  unfold execHostReadFail
  try dsimp only
  repeat' first
    | with_reducible apply TouchR.next
    | with_reducible assumption
    | (with_reducible refine Field.sub_trans ?_ hL₀; decide)
    | with_reducible apply teardown_touch
    | with_reducible apply Touch.ite

theorem execJournalRelease_touch (c : CtxId) (s : State) : TouchR [.regs, .ctxs, .rings, .journal, .waiting, .host, .mailbox] s (execJournalRelease c s) := by
  have hL₀ : Field.sub [.regs, .ctxs, .rings, .journal, .waiting, .host, .mailbox] [.regs, .ctxs, .rings, .journal, .waiting, .host, .mailbox] = true := by decide
  have h₀ := Touch.refl [.regs, .ctxs, .rings, .journal, .waiting, .host, .mailbox] s
  unfold execJournalRelease
  try dsimp only
  repeat' first
    | with_reducible apply TouchR.next
    | with_reducible apply TouchR.ite
    | with_reducible assumption
    | (with_reducible refine Field.sub_trans ?_ hL₀; decide)
    | intro _
    | with_reducible apply flushJournal_touch
    | fail_if_no_progress (with_reducible refine Touch.updJournal (Field.sub_trans (by decide) hL₀) ?_)
    | with_reducible apply Touch.ite
    | split
    | (with_reducible apply Touch.of_fst; with_reducible assumption)
    | (with_reducible apply Touch.of_snd; with_reducible assumption)

theorem dropGroups_touch {L₀ : List Field} {s₀ s : State} (c : Nat) (p : Nat) (hL₀ : Field.sub [.regs, .parts, .ctxs, .rings, .journal, .waiting, .host, .mailbox] L₀ = true)
  (h₀ : Touch L₀ s₀ s) : Touch L₀ s₀ (dropGroups s c p) := by
  unfold dropGroups
  try dsimp only
  repeat' first
    | (show ∀ f : Field, _; intro f hf; cases f <;> first | exact absurd (Field.sub_mem hL₀ (by decide)) hf | rfl)
    | with_reducible assumption
    | intro _
    | (with_reducible refine Field.sub_trans ?_ hL₀; decide)
    | with_reducible apply freeReleased_touch
    | with_reducible apply setPart_touch
    | with_reducible apply flushJournal_touch
    | fail_if_no_progress (with_reducible refine Touch.updJournal (Field.sub_trans (by decide) hL₀) ?_)
    | fail_if_no_progress (with_reducible refine Touch.updWaiting (Field.sub_trans (by decide) hL₀) ?_)
    | with_reducible apply Touch.ite
    | split
    | (with_reducible refine Touch.mk ?_ ?_ rfl rfl rfl rfl)

theorem loseContext_touch {L₀ : List Field} {s₀ s : State} (c : Nat) (hL₀ : Field.sub [.regs, .parts, .tiles, .be, .ctxs, .rings, .journal, .waiting, .host, .mailbox, .nibs, .mem, .blt, .anl, .assay] L₀ = true)
  (h₀ : Touch L₀ s₀ s) : Touch L₀ s₀ (loseContext s c) := by
  unfold loseContext
  try dsimp only
  repeat' first
    | with_reducible assumption
    | (with_reducible refine Field.sub_trans ?_ hL₀; decide)
    | intro _
    | with_reducible apply teardownStart_touch
    | with_reducible apply setRing_touch
    | with_reducible apply beginKill_touch
    | with_reducible apply dropPostings_touch
    | with_reducible apply setRun_touch
    | with_reducible apply releaseInstances_touch
    | with_reducible apply writeFault_touch
    | with_reducible apply dropGroups_touch
    | with_reducible apply Touch.ite
    | with_reducible apply Touch.fold
    | split
    | (with_reducible apply Touch.of_fst; with_reducible assumption)
    | (with_reducible apply Touch.of_snd; with_reducible assumption)

theorem execFunctionLoss_touch (f : Fin 16) (s : State) : TouchR [.regs, .parts, .tiles, .be, .ctxs, .rings, .journal, .waiting, .host, .mailbox, .bme, .nibs, .mem, .blt, .anl, .assay] s (execFunctionLoss f s) := by
  have hL₀ : Field.sub [.regs, .parts, .tiles, .be, .ctxs, .rings, .journal, .waiting, .host, .mailbox, .bme, .nibs, .mem, .blt, .anl, .assay] [.regs, .parts, .tiles, .be, .ctxs, .rings, .journal, .waiting, .host, .mailbox, .bme, .nibs, .mem, .blt, .anl, .assay] = true := by decide
  have h₀ := Touch.refl [.regs, .parts, .tiles, .be, .ctxs, .rings, .journal, .waiting, .host, .mailbox, .bme, .nibs, .mem, .blt, .anl, .assay] s
  unfold execFunctionLoss
  try dsimp only
  repeat' first
    | with_reducible apply TouchR.next
    | with_reducible apply TouchR.ite
    | with_reducible assumption
    | (with_reducible refine Field.sub_trans ?_ hL₀; decide)
    | intro _
    | with_reducible apply loseContext_touch
    | fail_if_no_progress (with_reducible refine Touch.updBme (Field.sub_trans (by decide) hL₀) ?_)
    | with_reducible apply Touch.ite
    | with_reducible apply Touch.fold
    | split

theorem execWarmRecovery_touch (c : CtxId) (s : State) : TouchR [.regs, .ctxs, .rings, .journal, .waiting, .host, .mailbox, .bme, .blt] s (execWarmRecovery c s) := by
  have hL₀ : Field.sub [.regs, .ctxs, .rings, .journal, .waiting, .host, .mailbox, .bme, .blt] [.regs, .ctxs, .rings, .journal, .waiting, .host, .mailbox, .bme, .blt] = true := by decide
  have h₀ := Touch.refl [.regs, .ctxs, .rings, .journal, .waiting, .host, .mailbox, .bme, .blt] s
  unfold execWarmRecovery
  try dsimp only
  repeat' first
    | with_reducible apply TouchR.next
    | with_reducible apply TouchR.ite
    | with_reducible assumption
    | (with_reducible refine Field.sub_trans ?_ hL₀; decide)
    | intro _
    | with_reducible apply setCtx_touch
    | with_reducible apply writeSlots_touch
    | with_reducible apply failRing_touch
    | fail_if_no_progress (with_reducible refine Touch.updBme (Field.sub_trans (by decide) hL₀) ?_)
    | with_reducible apply Touch.ite
    | with_reducible apply Touch.fold
    | split

end Sys2Proof.Machine
end

