-- ==== Sys2Proof/Laws/TouchGate.lean ====
section
/-! SUPPORT. What each function of Machine/Gate.lean may touch: its law in the sense of Laws/Frame.lean. -/

namespace Sys2Proof.Machine

theorem takeAsn_touch {L₀ : List Field} {s₀ s : State} (p : Nat) (hL₀ : Field.sub [.regs] L₀ = true)
  (h₀ : Touch L₀ s₀ s) : Touch L₀ s₀ (takeAsn s p) := by
  unfold takeAsn
  try dsimp only
  repeat' first
    | with_reducible assumption
    | (with_reducible refine Field.sub_trans ?_ hL₀; decide)
    | with_reducible apply regSet_touch
    | with_reducible apply Touch.ite

theorem queueSet_touch {L₀ : List Field} {s₀ s : State} (p : Nat) (num : Nat) (q : QSet) (hL₀ : Field.sub [.parts] L₀ = true)
  (h₀ : Touch L₀ s₀ s) : Touch L₀ s₀ (queueSet s p num q) := by
  unfold queueSet
  try dsimp only
  repeat' first
    | with_reducible assumption
    | (with_reducible refine Field.sub_trans ?_ hL₀; decide)
    | intro _
    | with_reducible apply putInst_touch
    | with_reducible apply Touch.ite
    | split
    | (with_reducible apply Touch.of_fst; with_reducible assumption)
    | (with_reducible apply Touch.of_snd; with_reducible assumption)

theorem setRecord_touch {L₀ : List Field} {s₀ s : State} (p : Nat) (g : GateItem) (st : Nat) (cause : Nat) (asn : Word) (vals : List (Nat × Word)) (hL₀ : Field.sub [.blt] L₀ = true)
  (h₀ : Touch L₀ s₀ s) : Touch L₀ s₀ (setRecord s p g st cause asn vals) := by
  unfold setRecord
  try dsimp only
  repeat' first
    | with_reducible assumption
    | (with_reducible refine Field.sub_trans ?_ hL₀; decide)
    | intro _
    | with_reducible apply bltRecord_touch
    | with_reducible apply Touch.ite
    | split
    | (with_reducible apply Touch.of_fst; with_reducible assumption)
    | (with_reducible apply Touch.of_snd; with_reducible assumption)

theorem reportHost_touch {L₀ : List Field} {s₀ s : State} (g : GateItem) (st : Nat) (cause : Nat) (entry : Nat) (asn : Word) (hL₀ : Field.sub [.regs, .ctxs, .rings, .journal, .waiting, .host, .mailbox, .blt] L₀ = true)
  (h₀ : Touch L₀ s₀ s) : Touch L₀ s₀ (reportHost s g st cause entry asn) := by
  unfold reportHost
  try dsimp only
  repeat' first
    | with_reducible assumption
    | (with_reducible refine Field.sub_trans ?_ hL₀; decide)
    | intro _
    | with_reducible apply completeItem_touch
    | with_reducible apply Touch.ite
    | split
    | (with_reducible apply Touch.of_fst; with_reducible assumption)
    | (with_reducible apply Touch.of_snd; with_reducible assumption)

theorem popGate_touch {L₀ : List Field} {s₀ s : State} (p : Nat) (g : GateItem) (hL₀ : Field.sub [.parts] L₀ = true)
  (h₀ : Touch L₀ s₀ s) : Touch L₀ s₀ (popGate s p g) := by
  unfold popGate
  try dsimp only
  repeat' first
    | with_reducible assumption
    | (with_reducible refine Field.sub_trans ?_ hL₀; decide)
    | with_reducible apply setPart_touch
    | with_reducible apply Touch.ite

theorem diverge_touch {L₀ : List Field} {s₀ s : State} (seq : Word) (hL₀ : Field.sub [.blt] L₀ = true)
  (h₀ : Touch L₀ s₀ s) : Touch L₀ s₀ (diverge s seq) := by
  unfold diverge
  try dsimp only
  repeat' first
    | with_reducible assumption
    | (with_reducible refine Field.sub_trans ?_ hL₀; decide)
    | fail_if_no_progress (with_reducible refine Touch.updBlt (Field.sub_trans (by decide) hL₀) ?_)
    | with_reducible apply Touch.ite

theorem replayAccepted_touch {L₀ : List Field} {s₀ s : State} (p : Nat) (g : GateItem) (vals : List (Nat × Word)) (hL₀ : Field.sub [.blt] L₀ = true)
  (h₀ : Touch L₀ s₀ s) : Touch L₀ s₀ (replayAccepted s p g vals) := by
  unfold replayAccepted
  try dsimp only
  repeat' first
    | with_reducible assumption
    | (with_reducible refine Field.sub_trans ?_ hL₀; decide)
    | intro _
    | with_reducible apply diverge_touch
    | with_reducible apply Touch.ite
    | split
    | (with_reducible apply Touch.of_fst; with_reducible assumption)
    | (with_reducible apply Touch.of_snd; with_reducible assumption)

theorem replayRefused_touch {L₀ : List Field} {s₀ s : State} (p : Nat) (g : GateItem) (hL₀ : Field.sub [.regs, .blt] L₀ = true)
  (h₀ : Touch L₀ s₀ s) : Touch L₀ s₀ (replayRefused s p g) := by
  unfold replayRefused
  try dsimp only
  repeat' first
    | with_reducible assumption
    | (with_reducible refine Field.sub_trans ?_ hL₀; decide)
    | intro _
    | with_reducible apply takeAsn_touch
    | with_reducible apply diverge_touch
    | with_reducible apply Touch.ite
    | split
    | (with_reducible apply Touch.of_fst; with_reducible assumption)
    | (with_reducible apply Touch.of_snd; with_reducible assumption)

theorem judgeObject_touch {L₀ : List Field} {s₀ s : State} (p : Nat) (kinds : Nat → Bool) (judge : GateItem → Image → Judged) (accept : State → GateItem → Image → List (Nat × Word) → State × Word) (hL₀ : Field.sub [.regs, .parts, .ctxs, .rings, .journal, .waiting, .host, .mailbox, .blt] L₀ = true)
  (h₀ : Touch L₀ s₀ s) (hyp : ∀ t g im vs, Touch L₀ s₀ t → Touch L₀ s₀ (accept t g im vs).1) : Touch L₀ s₀ (judgeObject s p kinds judge accept) := by
  unfold judgeObject
  try dsimp only
  repeat' first
    | with_reducible assumption
    | (with_reducible refine Field.sub_trans ?_ hL₀; decide)
    | with_reducible apply hyp
    | intro _
    | with_reducible apply popGate_touch
    | with_reducible apply bump_touch
    | with_reducible apply reportHost_touch
    | with_reducible apply replayRefused_touch
    | with_reducible apply setRecord_touch
    | with_reducible apply takeAsn_touch
    | with_reducible apply replayAccepted_touch
    | with_reducible apply completeItem_touch
    | with_reducible apply Touch.ite
    | split
    | (with_reducible apply Touch.of_fst; with_reducible assumption)
    | (with_reducible apply Touch.of_snd; with_reducible assumption)

theorem acceptSet_touch {L₀ : List Field} {s₀ s : State} (p : Nat) (g : GateItem) (_im : Image) (vals : List (Nat × Word)) (hL₀ : Field.sub [.parts] L₀ = true)
  (h₀ : Touch L₀ s₀ s) : Touch L₀ s₀ (acceptSet p s g _im vals).1 := by
  unfold acceptSet
  try dsimp only
  repeat' first
    | with_reducible assumption
    | (with_reducible refine Field.sub_trans ?_ hL₀; decide)
    | with_reducible apply queueSet_touch
    | with_reducible apply Touch.ite_fst
    | with_reducible apply Touch.ite

theorem execDataBlock_touch (p : PartId) (s : State) : TouchR [.regs, .parts, .ctxs, .rings, .journal, .waiting, .host, .mailbox, .blt] s (execDataBlock p s) := by
  have hL₀ : Field.sub [.regs, .parts, .ctxs, .rings, .journal, .waiting, .host, .mailbox, .blt] [.regs, .parts, .ctxs, .rings, .journal, .waiting, .host, .mailbox, .blt] = true := by decide
  have h₀ := Touch.refl [.regs, .parts, .ctxs, .rings, .journal, .waiting, .host, .mailbox, .blt] s
  unfold execDataBlock
  try dsimp only
  repeat' first
    | with_reducible apply TouchR.next
    | with_reducible assumption
    | (with_reducible refine Field.sub_trans ?_ hL₀; decide)
    | intro _
    | with_reducible apply judgeObject_touch
    | with_reducible apply acceptSet_touch
    | with_reducible apply Touch.ite
    | split

theorem execUpdateList_touch (p : PartId) (s : State) : TouchR [.regs, .parts, .ctxs, .rings, .journal, .waiting, .host, .mailbox, .blt] s (execUpdateList p s) := by
  have hL₀ : Field.sub [.regs, .parts, .ctxs, .rings, .journal, .waiting, .host, .mailbox, .blt] [.regs, .parts, .ctxs, .rings, .journal, .waiting, .host, .mailbox, .blt] = true := by decide
  have h₀ := Touch.refl [.regs, .parts, .ctxs, .rings, .journal, .waiting, .host, .mailbox, .blt] s
  unfold execUpdateList
  try dsimp only
  repeat' first
    | with_reducible apply TouchR.next
    | with_reducible assumption
    | (with_reducible refine Field.sub_trans ?_ hL₀; decide)
    | intro _
    | with_reducible apply judgeObject_touch
    | with_reducible apply acceptSet_touch
    | with_reducible apply Touch.ite
    | split

theorem execWarmStart_touch (p : PartId) (s : State) : TouchR [.regs, .parts, .ctxs, .rings, .journal, .waiting, .host, .mailbox, .blt] s (execWarmStart p s) := by
  have hL₀ : Field.sub [.regs, .parts, .ctxs, .rings, .journal, .waiting, .host, .mailbox, .blt] [.regs, .parts, .ctxs, .rings, .journal, .waiting, .host, .mailbox, .blt] = true := by decide
  have h₀ := Touch.refl [.regs, .parts, .ctxs, .rings, .journal, .waiting, .host, .mailbox, .blt] s
  unfold execWarmStart
  try dsimp only
  repeat' first
    | with_reducible apply TouchR.next
    | with_reducible apply TouchR.ite
    | with_reducible assumption
    | (with_reducible refine Field.sub_trans ?_ hL₀; decide)
    | intro _
    | with_reducible apply judgeObject_touch
    | with_reducible apply queueSet_touch
    | with_reducible apply Touch.ite
    | split

theorem execInstDecl_touch (p : PartId) (s : State) : TouchR [.regs, .parts, .ctxs, .rings, .journal, .waiting, .host, .mailbox, .blt] s (execInstDecl p s) := by
  have hL₀ : Field.sub [.regs, .parts, .ctxs, .rings, .journal, .waiting, .host, .mailbox, .blt] [.regs, .parts, .ctxs, .rings, .journal, .waiting, .host, .mailbox, .blt] = true := by decide
  have h₀ := Touch.refl [.regs, .parts, .ctxs, .rings, .journal, .waiting, .host, .mailbox, .blt] s
  unfold execInstDecl
  try dsimp only
  repeat' first
    | with_reducible apply TouchR.next
    | with_reducible assumption
    | (with_reducible refine Field.sub_trans ?_ hL₀; decide)
    | intro _
    | with_reducible apply judgeObject_touch
    | with_reducible apply setPart_touch
    | with_reducible apply Touch.ite
    | split
    | (with_reducible apply Touch.of_fst; with_reducible assumption)
    | (with_reducible apply Touch.of_snd; with_reducible assumption)

theorem execInstRelease_touch (p : PartId) (s : State) : TouchR [.regs, .parts, .ctxs, .rings, .journal, .waiting, .host, .mailbox, .blt] s (execInstRelease p s) := by
  have hL₀ : Field.sub [.regs, .parts, .ctxs, .rings, .journal, .waiting, .host, .mailbox, .blt] [.regs, .parts, .ctxs, .rings, .journal, .waiting, .host, .mailbox, .blt] = true := by decide
  have h₀ := Touch.refl [.regs, .parts, .ctxs, .rings, .journal, .waiting, .host, .mailbox, .blt] s
  unfold execInstRelease
  try dsimp only
  repeat' first
    | with_reducible apply TouchR.next
    | with_reducible assumption
    | (with_reducible refine Field.sub_trans ?_ hL₀; decide)
    | intro _
    | with_reducible apply judgeObject_touch
    | with_reducible apply freeReleased_touch
    | with_reducible apply putInst_touch
    | with_reducible apply Touch.ite
    | split
    | (with_reducible apply Touch.of_fst; with_reducible assumption)
    | (with_reducible apply Touch.of_snd; with_reducible assumption)

theorem execStreamSetVerdict_touch (p : PartId) (s : State) : TouchR [.regs, .parts, .ctxs, .rings, .journal, .waiting, .host, .mailbox, .blt] s (execStreamSetVerdict p s) := by
  have hL₀ : Field.sub [.regs, .parts, .ctxs, .rings, .journal, .waiting, .host, .mailbox, .blt] [.regs, .parts, .ctxs, .rings, .journal, .waiting, .host, .mailbox, .blt] = true := by decide
  have h₀ := Touch.refl [.regs, .parts, .ctxs, .rings, .journal, .waiting, .host, .mailbox, .blt] s
  unfold execStreamSetVerdict
  try dsimp only
  repeat' first
    | with_reducible apply TouchR.next
    | with_reducible assumption
    | (with_reducible refine Field.sub_trans ?_ hL₀; decide)
    | intro _
    | with_reducible apply popGate_touch
    | with_reducible apply takeAsn_touch
    | with_reducible apply replayAccepted_touch
    | with_reducible apply setRecord_touch
    | with_reducible apply queueSet_touch
    | with_reducible apply bump_touch
    | with_reducible apply raiseEvent_touch
    | with_reducible apply replayRefused_touch
    | with_reducible apply Touch.ite
    | split
    | (with_reducible apply Touch.of_fst; with_reducible assumption)
    | (with_reducible apply Touch.of_snd; with_reducible assumption)

theorem completeBe_touch {L₀ : List Field} {s₀ s : State} (c : Nat) (ring : Nat) (r : LaunchRec) (hL₀ : Field.sub [.regs, .parts, .be, .ctxs, .rings, .journal, .waiting, .host, .mailbox, .mem, .blt] L₀ = true)
  (h₀ : Touch L₀ s₀ s) : Touch L₀ s₀ (completeBe s c ring r) := by
  unfold completeBe
  try dsimp only
  repeat' first
    | with_reducible assumption
    | (with_reducible refine Field.sub_trans ?_ hL₀; decide)
    | intro _
    | with_reducible apply setBe_touch
    | with_reducible apply freeReleased_touch
    | with_reducible apply completeItem_touch
    | fail_if_no_progress (with_reducible refine Touch.updMem (Field.sub_trans (by decide) hL₀) ?_)
    | with_reducible apply Touch.ite
    | split
    | (with_reducible apply Touch.of_fst; with_reducible assumption)
    | (with_reducible apply Touch.of_snd; with_reducible assumption)

theorem finishAwait_touch {L₀ : List Field} {s₀ s : State} (p : Nat) (a : Await) (hL₀ : Field.sub [.regs, .parts, .be, .ctxs, .rings, .journal, .waiting, .host, .mailbox, .mem, .blt] L₀ = true)
  (h₀ : Touch L₀ s₀ s) : Touch L₀ s₀ (finishAwait s p a) := by
  unfold finishAwait
  try dsimp only
  repeat' first
    | with_reducible assumption
    | (with_reducible refine Field.sub_trans ?_ hL₀; decide)
    | intro _
    | with_reducible apply setPart_touch
    | with_reducible apply setBe_touch
    | with_reducible apply completeBe_touch
    | with_reducible apply freeReleased_touch
    | with_reducible apply writeLaunch_touch
    | with_reducible apply Touch.ite
    | split
    | (with_reducible apply Touch.of_fst; with_reducible assumption)
    | (with_reducible apply Touch.of_snd; with_reducible assumption)

theorem judgedCommit_touch {L₀ : List Field} {s₀ s : State} (p : Nat) (id : Nat) (target : Nat) (v : Option Refused) (hL₀ : Field.sub [.regs, .parts, .be, .ctxs, .rings, .journal, .waiting, .host, .mailbox, .mem, .blt] L₀ = true)
  (h₀ : Touch L₀ s₀ s) : Touch L₀ s₀ (judgedCommit s p id target v) := by
  unfold judgedCommit
  try dsimp only
  repeat' first
    | with_reducible assumption
    | (with_reducible refine Field.sub_trans ?_ hL₀; decide)
    | intro _
    | with_reducible apply setPart_touch
    | with_reducible apply finishAwait_touch
    | with_reducible apply Touch.ite
    | split
    | (with_reducible apply Touch.of_fst; with_reducible assumption)
    | (with_reducible apply Touch.of_snd; with_reducible assumption)

theorem execCommitSetVerdict_touch (p : PartId) (s : State) : TouchR [.regs, .parts, .be, .ctxs, .rings, .journal, .waiting, .host, .mailbox, .mem, .blt] s (execCommitSetVerdict p s) := by
  have hL₀ : Field.sub [.regs, .parts, .be, .ctxs, .rings, .journal, .waiting, .host, .mailbox, .mem, .blt] [.regs, .parts, .be, .ctxs, .rings, .journal, .waiting, .host, .mailbox, .mem, .blt] = true := by decide
  have h₀ := Touch.refl [.regs, .parts, .be, .ctxs, .rings, .journal, .waiting, .host, .mailbox, .mem, .blt] s
  unfold execCommitSetVerdict
  try dsimp only
  repeat' first
    | with_reducible apply TouchR.next
    | with_reducible apply TouchR.ite
    | with_reducible assumption
    | (with_reducible refine Field.sub_trans ?_ hL₀; decide)
    | intro _
    | with_reducible apply popGate_touch
    | with_reducible apply takeAsn_touch
    | with_reducible apply setRecord_touch
    | with_reducible apply queueSet_touch
    | with_reducible apply putInst_touch
    | with_reducible apply judgedCommit_touch
    | with_reducible apply replayAccepted_touch
    | with_reducible apply replayRefused_touch
    | with_reducible apply Touch.ite
    | split
    | (with_reducible apply Touch.of_fst; with_reducible assumption)
    | (with_reducible apply Touch.of_snd; with_reducible assumption)

end Sys2Proof.Machine
end

