-- ==== Sys2Proof/Laws/TouchStreams.lean ====
section
/-! SUPPORT. What each function of Machine/Streams.lean may touch: its law in the sense of Laws/Frame.lean. -/

namespace Sys2Proof.Machine

theorem frameRecord_touch {L₀ : List Field} {s₀ s : State} (i : Nat) (verdict : Nat) (stat : Nat) (fseq : Nat) (tick : Nat) (ws : List Word) (hL₀ : Field.sub [.freeCtr, .blt] L₀ = true)
  (h₀ : Touch L₀ s₀ s) : Touch L₀ s₀ (frameRecord s i verdict stat fseq tick ws).1 := by
  unfold frameRecord
  try dsimp only
  repeat' first
    | with_reducible assumption
    | (with_reducible refine Field.sub_trans ?_ hL₀; decide)
    | with_reducible apply bltWrite_touch
    | with_reducible apply drawWord_touch
    | with_reducible apply Touch.ite_fst
    | with_reducible apply Touch.ite

theorem feedStream_touch {L₀ : List Field} {s₀ s : State} (n : Nat) (k : Nat) (f : NibFrame) (hL₀ : Field.sub [.nibs] L₀ = true)
  (h₀ : Touch L₀ s₀ s) : Touch L₀ s₀ (feedStream s n k f) := by
  unfold feedStream
  try dsimp only
  repeat' first
    | with_reducible assumption
    | (with_reducible refine Field.sub_trans ?_ hL₀; decide)
    | with_reducible apply setNib_touch
    | with_reducible apply Touch.ite

theorem noteFrame_touch {L₀ : List Field} {s₀ s : State} (n : Nat) (i : Nat) (f : NibFrame) (hL₀ : Field.sub [.nibs] L₀ = true)
  (h₀ : Touch L₀ s₀ s) : Touch L₀ s₀ (noteFrame s n i f) := by
  unfold noteFrame
  try dsimp only
  repeat' first
    | with_reducible assumption
    | (with_reducible refine Field.sub_trans ?_ hL₀; decide)
    | with_reducible apply setNib_touch
    | with_reducible apply Touch.ite

theorem feedEngines_touch {L₀ : List Field} {s₀ s : State} (i : Nat) (f : NibFrame) (replay : Bool) (hL₀ : Field.sub [.nibs] L₀ = true)
  (h₀ : Touch L₀ s₀ s) : Touch L₀ s₀ (feedEngines s i f replay) := by
  unfold feedEngines
  try dsimp only
  repeat' first
    | with_reducible assumption
    | (with_reducible refine Field.sub_trans ?_ hL₀; decide)
    | intro _
    | with_reducible apply feedStream_touch
    | with_reducible apply noteFrame_touch
    | with_reducible apply Touch.ite
    | with_reducible apply Touch.fold
    | split

theorem streamSet_touch {L₀ : List Field} {s₀ s : State} (i : Nat) (ref : Word) (asn : Word) (ws : List Word) (replay : Bool) (hL₀ : Field.sub [.parts] L₀ = true)
  (h₀ : Touch L₀ s₀ s) : Touch L₀ s₀ (streamSet s i ref asn ws replay) := by
  unfold streamSet
  try dsimp only
  repeat' first
    | with_reducible assumption
    | (with_reducible refine Field.sub_trans ?_ hL₀; decide)
    | intro _
    | with_reducible apply setPart_touch
    | with_reducible apply Touch.ite
    | split
    | (with_reducible apply Touch.of_fst; with_reducible assumption)
    | (with_reducible apply Touch.of_snd; with_reducible assumption)

theorem acceptFrame_touch {L₀ : List Field} {s₀ s : State} (i : Nat) (stat : Nat) (f : NibFrame) (hL₀ : Field.sub [.freeCtr, .parts, .nibs, .blt] L₀ = true)
  (h₀ : Touch L₀ s₀ s) : Touch L₀ s₀ (acceptFrame s i stat f) := by
  unfold acceptFrame
  try dsimp only
  repeat' first
    | with_reducible assumption
    | (with_reducible refine Field.sub_trans ?_ hL₀; decide)
    | intro _
    | with_reducible apply frameRecord_touch
    | with_reducible apply streamSet_touch
    | with_reducible apply feedEngines_touch
    | with_reducible apply Touch.ite
    | split
    | (with_reducible apply Touch.of_fst; with_reducible assumption)
    | (with_reducible apply Touch.of_snd; with_reducible assumption)

theorem dpSend_touch {L₀ : List Field} {s₀ s : State} (d : Nat) (stat : Nat) (ws : List Word) (hL₀ : Field.sub [.freeCtr, .dports, .blt] L₀ = true)
  (h₀ : Touch L₀ s₀ s) : Touch L₀ s₀ (dpSend s d stat ws) := by
  unfold dpSend
  try dsimp only
  repeat' first
    | with_reducible assumption
    | (with_reducible refine Field.sub_trans ?_ hL₀; decide)
    | with_reducible apply frameRecord_touch
    | with_reducible apply setDport_touch
    | with_reducible apply Touch.ite

theorem linkOffer_touch {L₀ : List Field} {s₀ s : State} (q : Nat) (stat : Nat) (ws : List Word) (hL₀ : Field.sub [.links] L₀ = true)
  (h₀ : Touch L₀ s₀ s) : Touch L₀ s₀ (linkOffer s q stat ws) := by
  unfold linkOffer
  try dsimp only
  repeat' first
    | with_reducible assumption
    | (with_reducible refine Field.sub_trans ?_ hL₀; decide)
    | with_reducible apply setLink_touch
    | with_reducible apply Touch.ite

theorem ethSend_touch {L₀ : List Field} {s₀ s : State} (i : Nat) (stat : Nat) (ws : List Word) (hL₀ : Field.sub [.freeCtr, .eths, .blt] L₀ = true)
  (h₀ : Touch L₀ s₀ s) : Touch L₀ s₀ (ethSend s i stat ws) := by
  unfold ethSend
  try dsimp only
  repeat' first
    | with_reducible assumption
    | (with_reducible refine Field.sub_trans ?_ hL₀; decide)
    | with_reducible apply frameRecord_touch
    | with_reducible apply setEth_touch
    | with_reducible apply Touch.ite

theorem compareOut_touch {L₀ : List Field} {s₀ s : State} (i : Nat) (stat : Nat) (ws : List Word) (hL₀ : Field.sub [.blt] L₀ = true)
  (h₀ : Touch L₀ s₀ s) : Touch L₀ s₀ (compareOut s i stat ws) := by
  unfold compareOut
  try dsimp only
  repeat' first
    | with_reducible assumption
    | (with_reducible refine Field.sub_trans ?_ hL₀; decide)
    | intro _
    | with_reducible apply diverge_touch
    | fail_if_no_progress (with_reducible refine Touch.updBlt (Field.sub_trans (by decide) hL₀) ?_)
    | with_reducible apply Touch.ite
    | split
    | (with_reducible apply Touch.of_fst; with_reducible assumption)
    | (with_reducible apply Touch.of_snd; with_reducible assumption)

theorem driveStream_touch {L₀ : List Field} {s₀ s : State} (n : Nat) (i : Nat) (stat : Nat) (ws : List Word) (hL₀ : Field.sub [.freeCtr, .links, .dports, .eths, .blt] L₀ = true)
  (h₀ : Touch L₀ s₀ s) : Touch L₀ s₀ (driveStream s n i stat ws) := by
  unfold driveStream
  try dsimp only
  repeat' first
    | with_reducible assumption
    | (with_reducible refine Field.sub_trans ?_ hL₀; decide)
    | with_reducible apply compareOut_touch
    | with_reducible apply linkOffer_touch
    | with_reducible apply dpSend_touch
    | with_reducible apply ethSend_touch
    | with_reducible apply Touch.ite

end Sys2Proof.Machine
end

