-- ==== Sys2Proof/Laws/TouchPartners.lean ====
section
/-! SUPPORT. What each function of Machine/Partners.lean may touch: its law in the sense of Laws/Frame.lean. -/

namespace Sys2Proof.Machine

theorem putPartner_touch {L₀ : List Field} {s₀ s : State} (n : Nat) (x : Partner) (hL₀ : Field.sub [.regs, .partners, .blt] L₀ = true)
  (h₀ : Touch L₀ s₀ s) : Touch L₀ s₀ (putPartner s n x) := by
  unfold putPartner
  try dsimp only
  repeat' first
    | with_reducible assumption
    | (with_reducible refine Field.sub_trans ?_ hL₀; decide)
    | with_reducible apply setPartner_touch
    | with_reducible apply regSet_touch
    | with_reducible apply bltRecord_touch
    | with_reducible apply Touch.ite

theorem partnerGone_touch {L₀ : List Field} {s₀ s : State} (n : Nat) (hL₀ : Field.sub [.regs, .partners, .blt] L₀ = true)
  (h₀ : Touch L₀ s₀ s) : Touch L₀ s₀ (partnerGone s n) := by
  unfold partnerGone
  try dsimp only
  repeat' first
    | with_reducible assumption
    | (with_reducible refine Field.sub_trans ?_ hL₀; decide)
    | with_reducible apply putPartner_touch
    | with_reducible apply Touch.ite

theorem attachmentGone_touch {L₀ : List Field} {s₀ s : State} (att : Attach → Bool) (hL₀ : Field.sub [.regs, .partners, .blt] L₀ = true)
  (h₀ : Touch L₀ s₀ s) : Touch L₀ s₀ (attachmentGone s att) := by
  unfold attachmentGone
  try dsimp only
  repeat' first
    | with_reducible assumption
    | (with_reducible refine Field.sub_trans ?_ hL₀; decide)
    | intro _
    | with_reducible apply partnerGone_touch
    | with_reducible apply Touch.ite
    | with_reducible apply Touch.fold
    | split

theorem joinEntry_touch {L₀ : List Field} {s₀ s : State} (n : Nat) (x : Partner) (hL₀ : Field.sub [.regs, .partners, .blt] L₀ = true)
  (h₀ : Touch L₀ s₀ s) : Touch L₀ s₀ (joinEntry s n x) := by
  unfold joinEntry
  try dsimp only
  repeat' first
    | with_reducible assumption
    | (with_reducible refine Field.sub_trans ?_ hL₀; decide)
    | with_reducible apply putPartner_touch
    | with_reducible apply Touch.ite

theorem identify_touch {L₀ : List Field} {s₀ s : State} (att : Attach) (i : Ident) (hL₀ : Field.sub [.regs, .partners, .blt] L₀ = true)
  (h₀ : Touch L₀ s₀ s) : Touch L₀ s₀ (identify s att i) := by
  unfold identify
  try dsimp only
  repeat' first
    | with_reducible assumption
    | (with_reducible refine Field.sub_trans ?_ hL₀; decide)
    | intro _
    | with_reducible apply bump_touch
    | with_reducible apply joinEntry_touch
    | with_reducible apply partnerGone_touch
    | with_reducible apply Touch.ite
    | split
    | (with_reducible apply Touch.of_fst; with_reducible assumption)
    | (with_reducible apply Touch.of_snd; with_reducible assumption)

theorem execPartnerSilence_touch (n : PartnerId) (s : State) : TouchR [.regs, .partners, .blt] s (execPartnerSilence n s) := by
  have hL₀ : Field.sub [.regs, .partners, .blt] [.regs, .partners, .blt] = true := by decide
  have h₀ := Touch.refl [.regs, .partners, .blt] s
  unfold execPartnerSilence
  try dsimp only
  repeat' first
    | with_reducible apply TouchR.next
    | with_reducible apply TouchR.ite
    | with_reducible assumption
    | (with_reducible refine Field.sub_trans ?_ hL₀; decide)
    | intro _
    | with_reducible apply partnerGone_touch
    | with_reducible apply Touch.ite
    | split
    | (with_reducible apply Touch.of_fst; with_reducible assumption)
    | (with_reducible apply Touch.of_snd; with_reducible assumption)

theorem approve_touch {L₀ : List Field} {s₀ s : State} (n : Nat) (hL₀ : Field.sub [.regs, .partners, .blt] L₀ = true)
  (h₀ : Touch L₀ s₀ s) : Touch L₀ s₀ (approve s n) := by
  unfold approve
  try dsimp only
  repeat' first
    | with_reducible assumption
    | (with_reducible refine Field.sub_trans ?_ hL₀; decide)
    | with_reducible apply putPartner_touch
    | with_reducible apply Touch.ite

theorem execApprove_touch (n : PartnerId) (s : State) : TouchR [.regs, .partners, .blt] s (execApprove n s) := by
  have hL₀ : Field.sub [.regs, .partners, .blt] [.regs, .partners, .blt] = true := by decide
  have h₀ := Touch.refl [.regs, .partners, .blt] s
  unfold execApprove
  try dsimp only
  repeat' first
    | with_reducible apply TouchR.next
    | with_reducible assumption
    | (with_reducible refine Field.sub_trans ?_ hL₀; decide)
    | with_reducible apply hostWrite_touch
    | with_reducible apply approve_touch
    | with_reducible apply Touch.ite
    | with_reducible refine TouchR.mono (by decide) (hostWrite_touch _ _)

theorem reject_touch {L₀ : List Field} {s₀ s : State} (n : Nat) (hL₀ : Field.sub [.regs, .partners, .blt] L₀ = true)
  (h₀ : Touch L₀ s₀ s) : Touch L₀ s₀ (reject s n) := by
  unfold reject
  try dsimp only
  repeat' first
    | with_reducible assumption
    | (with_reducible refine Field.sub_trans ?_ hL₀; decide)
    | with_reducible apply putPartner_touch
    | with_reducible apply Touch.ite

theorem execReject_touch (n : PartnerId) (s : State) : TouchR [.regs, .partners, .blt] s (execReject n s) := by
  have hL₀ : Field.sub [.regs, .partners, .blt] [.regs, .partners, .blt] = true := by decide
  have h₀ := Touch.refl [.regs, .partners, .blt] s
  unfold execReject
  try dsimp only
  repeat' first
    | with_reducible apply TouchR.next
    | with_reducible assumption
    | (with_reducible refine Field.sub_trans ?_ hL₀; decide)
    | with_reducible apply hostWrite_touch
    | with_reducible apply reject_touch
    | with_reducible apply Touch.ite
    | with_reducible refine TouchR.mono (by decide) (hostWrite_touch _ _)

end Sys2Proof.Machine
end

