-- ==== Sys2Proof/Laws/TouchSparing.lean ====
section
/-! SUPPORT. What each function of Machine/Sparing.lean may touch: its law in the sense of Laws/Frame.lean. -/

namespace Sys2Proof.Machine

theorem applySpare_touch {L : List Field} {r s : State} (u : FailedUnit) (hL : Field.sub [.regs, .ctxs, .rings, .journal, .waiting, .host, .mailbox, .fuse, .blt, .anl] L = true)
    (h : Touch L r s) : Touch L r (applySpare s u) := by
  unfold applySpare
  extract_lets a st a1 s1 burn rec' fz s2 s3
  have h1 : Touch L r s1 := Touch.updAnl (Field.sub_trans (by decide) hL) h
  have h2 : Touch L r s2 := by
    unfold s2
    apply Touch.ite
    · exact Touch.updFuse (Field.sub_trans (by decide) hL) h1
        (Fuses.keep rfl rfl (Nat.le_refl _) (Nat.le_refl _) (BitVec.or_self ..) (Nat.le_succ _))
    · exact h1
  have h3 : Touch L r s3 := healthEvent_touch _ _ _ _ _ (Field.sub_trans (by decide) hL) h2
  exact Touch.ite (healthEvent_touch _ _ _ _ _ (Field.sub_trans (by decide) hL) h3) h3

theorem markUnit_touch {L₀ : List Field} {s₀ s : State} (kind : Nat) (index : Nat) (crit : Nat) (n : Nat) (parts : BitVec 16) (hL₀ : Field.sub [.regs, .ctxs, .rings, .journal, .waiting, .host, .mailbox, .fuse, .blt, .anl] L₀ = true)
  (h₀ : Touch L₀ s₀ s) : Touch L₀ s₀ (markUnit s kind index crit n parts) := by
  unfold markUnit
  try dsimp only
  repeat' first
    | with_reducible assumption
    | (with_reducible refine Field.sub_trans ?_ hL₀; decide)
    | intro _
    | with_reducible apply writeFault_touch
    | with_reducible apply healthEvent_touch
    | with_reducible apply applySpare_touch
    | fail_if_no_progress (with_reducible refine Touch.updAnl (Field.sub_trans (by decide) hL₀) ?_)
    | with_reducible apply Touch.ite
    | split
    | (with_reducible apply Touch.of_fst; with_reducible assumption)
    | (with_reducible apply Touch.of_snd; with_reducible assumption)

theorem markTile_touch {L₀ : List Field} {s₀ s : State} (phys : Nat) (crit : Nat) (n : Nat) (hL₀ : Field.sub [.regs, .ctxs, .rings, .journal, .waiting, .host, .mailbox, .fuse, .blt, .anl] L₀ = true)
  (h₀ : Touch L₀ s₀ s) : Touch L₀ s₀ (markTile s phys crit n) := by
  unfold markTile
  try dsimp only
  repeat' first
    | with_reducible assumption
    | (with_reducible refine Field.sub_trans ?_ hL₀; decide)
    | intro _
    | with_reducible apply markUnit_touch
    | with_reducible apply Touch.ite
    | split
    | (with_reducible apply Touch.of_fst; with_reducible assumption)
    | (with_reducible apply Touch.of_snd; with_reducible assumption)

theorem markRow_touch {L₀ : List Field} {s₀ s : State} (array : Nat) (addr : Nat) (crit : Nat) (n : Nat) (hL₀ : Field.sub [.regs, .ctxs, .rings, .journal, .waiting, .host, .mailbox, .fuse, .blt, .anl] L₀ = true)
  (h₀ : Touch L₀ s₀ s) : Touch L₀ s₀ (markRow s array addr crit n) := by
  unfold markRow
  try dsimp only
  repeat' first
    | with_reducible assumption
    | (with_reducible refine Field.sub_trans ?_ hL₀; decide)
    | with_reducible apply markUnit_touch
    | with_reducible apply Touch.ite

theorem failCore_touch {L₀ : List Field} {s₀ s : State} (k : Nat) (hL₀ : Field.sub [.regs, .ctxs, .rings, .journal, .waiting, .host, .mailbox, .fuse, .blt, .anl] L₀ = true)
  (h₀ : Touch L₀ s₀ s) : Touch L₀ s₀ (failCore s k) := by
  unfold failCore
  try dsimp only
  repeat' first
    | with_reducible assumption
    | (with_reducible refine Field.sub_trans ?_ hL₀; decide)
    | with_reducible apply markUnit_touch
    | fail_if_no_progress (with_reducible refine Touch.updAnl (Field.sub_trans (by decide) hL₀) ?_)
    | with_reducible apply Touch.ite

theorem countTileUe_touch {L₀ : List Field} {s₀ s : State} (t : Nat) (hL₀ : Field.sub [.regs, .ctxs, .rings, .journal, .waiting, .host, .mailbox, .fuse, .blt, .anl] L₀ = true)
  (h₀ : Touch L₀ s₀ s) : Touch L₀ s₀ (countTileUe s t) := by
  unfold countTileUe
  try dsimp only
  repeat' first
    | with_reducible assumption
    | (with_reducible refine Field.sub_trans ?_ hL₀; decide)
    | with_reducible apply markTile_touch
    | fail_if_no_progress (with_reducible refine Touch.updAnl (Field.sub_trans (by decide) hL₀) ?_)
    | with_reducible apply Touch.ite

theorem countTileCe_touch {L₀ : List Field} {s₀ s : State} (t : Nat) (hL₀ : Field.sub [.regs, .ctxs, .rings, .journal, .waiting, .host, .mailbox, .fuse, .blt, .anl] L₀ = true)
  (h₀ : Touch L₀ s₀ s) : Touch L₀ s₀ (countTileCe s t) := by
  unfold countTileCe
  try dsimp only
  repeat' first
    | with_reducible assumption
    | (with_reducible refine Field.sub_trans ?_ hL₀; decide)
    | with_reducible apply markTile_touch
    | fail_if_no_progress (with_reducible refine Touch.updAnl (Field.sub_trans (by decide) hL₀) ?_)
    | with_reducible apply Touch.ite

theorem bringIn_touch {L₀ : List Field} {s₀ s : State} (pick : FailedUnit → Bool) (hL₀ : Field.sub [.regs, .ctxs, .rings, .journal, .waiting, .host, .mailbox, .fuse, .blt, .anl] L₀ = true)
  (h₀ : Touch L₀ s₀ s) : Touch L₀ s₀ (bringIn s pick) := by
  unfold bringIn
  try dsimp only
  repeat' first
    | with_reducible assumption
    | (with_reducible refine Field.sub_trans ?_ hL₀; decide)
    | intro _
    | with_reducible apply applySpare_touch
    | fail_if_no_progress (with_reducible refine Touch.updAnl (Field.sub_trans (by decide) hL₀) ?_)
    | with_reducible apply Touch.ite
    | with_reducible apply Touch.fold
    | split

end Sys2Proof.Machine
end

