-- ==== Sys2Proof/Laws/TouchLinks.lean ====
section
/-! SUPPORT. What each function of Machine/Links.lean may touch: its law in the sense of Laws/Frame.lean. -/

namespace Sys2Proof.Machine

theorem leaveLink_touch {L₀ : List Field} {s₀ s : State} (q : Nat) (st : LinkState) (hL₀ : Field.sub [.regs, .links, .partners, .blt] L₀ = true)
  (h₀ : Touch L₀ s₀ s) : Touch L₀ s₀ (leaveLink s q st) := by
  unfold leaveLink
  try dsimp only
  repeat' first
    | with_reducible assumption
    | (with_reducible refine Field.sub_trans ?_ hL₀; decide)
    | with_reducible apply setLink_touch
    | with_reducible apply attachmentGone_touch
    | with_reducible apply Touch.ite

theorem ownIdent_touch {L₀ : List Field} {s₀ s : State}(hL₀ : Field.sub [.freeCtr] L₀ = true)
  (h₀ : Touch L₀ s₀ s) : Touch L₀ s₀ (ownIdent s).1 := by
  unfold ownIdent
  try dsimp only
  repeat' first
    | with_reducible assumption
    | (with_reducible refine Field.sub_trans ?_ hL₀; decide)
    | intro _
    | with_reducible apply pidWords_touch
    | with_reducible apply drawWord_touch
    | with_reducible apply Touch.ite_fst
    | with_reducible apply Touch.ite
    | split
    | (with_reducible apply Touch.of_fst; with_reducible assumption)
    | (with_reducible apply Touch.of_snd; with_reducible assumption)

theorem enterUp_touch {L₀ : List Field} {s₀ s : State} (q : Nat) (hL₀ : Field.sub [.freeCtr, .links] L₀ = true)
  (h₀ : Touch L₀ s₀ s) : Touch L₀ s₀ (enterUp s q) := by
  unfold enterUp
  try dsimp only
  repeat' first
    | with_reducible assumption
    | (with_reducible refine Field.sub_trans ?_ hL₀; decide)
    | intro _
    | with_reducible apply ownIdent_touch
    | with_reducible apply setLink_touch
    | with_reducible apply Touch.ite
    | split
    | (with_reducible apply Touch.of_fst; with_reducible assumption)
    | (with_reducible apply Touch.of_snd; with_reducible assumption)

theorem execDataHandover_touch (q : LinkId) (s : State) : TouchR [.freeCtr, .regs, .links, .blt] s (execDataHandover q s) := by
  have hL₀ : Field.sub [.freeCtr, .regs, .links, .blt] [.freeCtr, .regs, .links, .blt] = true := by decide
  have h₀ := Touch.refl [.freeCtr, .regs, .links, .blt] s
  unfold execDataHandover
  try dsimp only
  repeat' first
    | with_reducible apply TouchR.next
    | with_reducible apply TouchR.ite
    | with_reducible assumption
    | (with_reducible refine Field.sub_trans ?_ hL₀; decide)
    | intro _
    | with_reducible apply frameRecord_touch
    | with_reducible apply setLink_touch
    | with_reducible apply regSet_touch
    | with_reducible apply Touch.ite
    | with_reducible apply Touch.fold
    | split
    | (with_reducible apply Touch.of_fst; with_reducible assumption)
    | (with_reducible apply Touch.of_snd; with_reducible assumption)

theorem bulkHand_touch {L₀ : List Field} {s₀ s : State} (q : Nat) (ws : List Word) (hL₀ : Field.sub [.regs, .links] L₀ = true)
  (h₀ : Touch L₀ s₀ s) : Touch L₀ s₀ (bulkHand s q ws) := by
  unfold bulkHand
  try dsimp only
  repeat' first
    | with_reducible assumption
    | (with_reducible refine Field.sub_trans ?_ hL₀; decide)
    | with_reducible apply regSet_touch
    | with_reducible apply setLink_touch
    | with_reducible apply Touch.ite

theorem sendNak_touch {L₀ : List Field} {s₀ s : State} (q : Nat) (k : FrameClass) (hL₀ : Field.sub [.links] L₀ = true)
  (h₀ : Touch L₀ s₀ s) : Touch L₀ s₀ (sendNak s q k) := by
  unfold sendNak
  try dsimp only
  repeat' first
    | with_reducible assumption
    | (with_reducible refine Field.sub_trans ?_ hL₀; decide)
    | with_reducible apply setLink_touch
    | with_reducible apply Touch.ite

theorem laneError_touch {L₀ : List Field} {s₀ s : State} (q : Nat) (hL₀ : Field.sub [.regs, .ctxs, .rings, .journal, .waiting, .host, .mailbox, .links, .fuse, .blt, .anl] L₀ = true)
  (h₀ : Touch L₀ s₀ s) : Touch L₀ s₀ (laneError s q) := by
  unfold laneError
  try dsimp only
  repeat' first
    | with_reducible assumption
    | (with_reducible refine Field.sub_trans ?_ hL₀; decide)
    | with_reducible apply setLink_touch
    | with_reducible apply bump_touch
    | with_reducible apply markUnit_touch
    | with_reducible apply Touch.ite

theorem receive_touch {L₀ : List Field} {s₀ s : State} (q : Nat) (k : FrameClass) (f : QuillFrame) (hL₀ : Field.sub [.regs, .ctxs, .rings, .journal, .waiting, .host, .mailbox, .links, .fuse, .blt, .anl] L₀ = true)
  (h₀ : Touch L₀ s₀ s) : Touch L₀ s₀ (receive s q k f).1 := by
  unfold receive
  try dsimp only
  repeat' first
    | with_reducible assumption
    | (with_reducible refine Field.sub_trans ?_ hL₀; decide)
    | intro _
    | with_reducible apply bump_touch
    | with_reducible apply laneError_touch
    | with_reducible apply setLink_touch
    | with_reducible apply sendNak_touch
    | with_reducible apply Touch.ite_fst
    | with_reducible apply Touch.ite
    | split
    | (with_reducible apply Touch.of_fst; with_reducible assumption)
    | (with_reducible apply Touch.of_snd; with_reducible assumption)

theorem takeSample_touch {L₀ : List Field} {s₀ s : State} (q : Nat) (stat : Nat) (seq : BitVec 16) (ws : List Word) (hL₀ : Field.sub [.freeCtr, .regs, .parts, .nibs, .blt] L₀ = true)
  (h₀ : Touch L₀ s₀ s) : Touch L₀ s₀ (takeSample s q stat seq ws) := by
  unfold takeSample
  try dsimp only
  repeat' first
    | with_reducible assumption
    | (with_reducible refine Field.sub_trans ?_ hL₀; decide)
    | intro _
    | with_reducible apply frameRecord_touch
    | with_reducible apply bump_touch
    | with_reducible apply acceptFrame_touch
    | with_reducible apply Touch.ite
    | split
    | (with_reducible apply Touch.of_fst; with_reducible assumption)
    | (with_reducible apply Touch.of_snd; with_reducible assumption)

theorem dropFrags_touch {L₀ : List Field} {s₀ s : State} (q : Nat) (hL₀ : Field.sub [.freeCtr, .links, .blt] L₀ = true)
  (h₀ : Touch L₀ s₀ s) : Touch L₀ s₀ (dropFrags s q) := by
  unfold dropFrags
  try dsimp only
  repeat' first
    | with_reducible assumption
    | (with_reducible refine Field.sub_trans ?_ hL₀; decide)
    | intro _
    | with_reducible apply setLink_touch
    | with_reducible apply frameRecord_touch
    | with_reducible apply Touch.ite
    | split
    | (with_reducible apply Touch.of_fst; with_reducible assumption)
    | (with_reducible apply Touch.of_snd; with_reducible assumption)

theorem takeFragment_touch {L₀ : List Field} {s₀ s : State} (q : Nat) (f : QuillFrame) (hL₀ : Field.sub [.freeCtr, .regs, .parts, .nibs, .links, .blt] L₀ = true)
  (h₀ : Touch L₀ s₀ s) : Touch L₀ s₀ (takeFragment s q f) := by
  unfold takeFragment
  try dsimp only
  repeat' first
    | with_reducible assumption
    | (with_reducible refine Field.sub_trans ?_ hL₀; decide)
    | with_reducible apply dropFrags_touch
    | with_reducible apply setLink_touch
    | with_reducible apply takeSample_touch
    | with_reducible apply Touch.ite

theorem execData_touch (q : LinkId) (f : QuillFrame) (s : State) : TouchR [.freeCtr, .regs, .parts, .ctxs, .rings, .journal, .waiting, .host, .mailbox, .nibs, .links, .fuse, .blt, .anl] s (execData q f s) := by
  have hL₀ : Field.sub [.freeCtr, .regs, .parts, .ctxs, .rings, .journal, .waiting, .host, .mailbox, .nibs, .links, .fuse, .blt, .anl] [.freeCtr, .regs, .parts, .ctxs, .rings, .journal, .waiting, .host, .mailbox, .nibs, .links, .fuse, .blt, .anl] = true := by decide
  have h₀ := Touch.refl [.freeCtr, .regs, .parts, .ctxs, .rings, .journal, .waiting, .host, .mailbox, .nibs, .links, .fuse, .blt, .anl] s
  unfold execData
  try dsimp only
  repeat' first
    | with_reducible apply TouchR.next
    | with_reducible apply TouchR.ite
    | with_reducible assumption
    | (with_reducible refine Field.sub_trans ?_ hL₀; decide)
    | intro _
    | with_reducible apply receive_touch
    | with_reducible apply takeFragment_touch
    | with_reducible apply frameRecord_touch
    | with_reducible apply Touch.ite
    | split
    | (with_reducible apply Touch.of_fst; with_reducible assumption)
    | (with_reducible apply Touch.of_snd; with_reducible assumption)

theorem takeBulk_touch {L₀ : List Field} {s₀ s : State} (q : Nat) (stat : Nat) (seq : BitVec 16) (ws : List Word) (hL₀ : Field.sub [.freeCtr, .regs, .parts, .blt] L₀ = true)
  (h₀ : Touch L₀ s₀ s) : Touch L₀ s₀ (takeBulk s q stat seq ws) := by
  unfold takeBulk
  try dsimp only
  repeat' first
    | with_reducible assumption
    | (with_reducible refine Field.sub_trans ?_ hL₀; decide)
    | intro _
    | with_reducible apply bump_touch
    | with_reducible apply frameRecord_touch
    | with_reducible apply streamSet_touch
    | with_reducible apply Touch.ite
    | split
    | (with_reducible apply Touch.of_fst; with_reducible assumption)
    | (with_reducible apply Touch.of_snd; with_reducible assumption)

theorem execBulk_touch (q : LinkId) (f : QuillFrame) (s : State) : TouchR [.freeCtr, .regs, .parts, .ctxs, .rings, .journal, .waiting, .host, .mailbox, .links, .fuse, .blt, .anl] s (execBulk q f s) := by
  have hL₀ : Field.sub [.freeCtr, .regs, .parts, .ctxs, .rings, .journal, .waiting, .host, .mailbox, .links, .fuse, .blt, .anl] [.freeCtr, .regs, .parts, .ctxs, .rings, .journal, .waiting, .host, .mailbox, .links, .fuse, .blt, .anl] = true := by decide
  have h₀ := Touch.refl [.freeCtr, .regs, .parts, .ctxs, .rings, .journal, .waiting, .host, .mailbox, .links, .fuse, .blt, .anl] s
  unfold execBulk
  try dsimp only
  repeat' first
    | with_reducible apply TouchR.next
    | with_reducible apply TouchR.ite
    | with_reducible assumption
    | (with_reducible refine Field.sub_trans ?_ hL₀; decide)
    | intro _
    | with_reducible apply receive_touch
    | with_reducible apply takeBulk_touch
    | with_reducible apply setLink_touch
    | with_reducible apply Touch.ite
    | split
    | (with_reducible apply Touch.of_fst; with_reducible assumption)
    | (with_reducible apply Touch.of_snd; with_reducible assumption)

theorem execIdent_touch (q : LinkId) (f : QuillFrame) (s : State) : TouchR [.regs, .ctxs, .rings, .journal, .waiting, .host, .mailbox, .links, .partners, .fuse, .blt, .anl] s (execIdent q f s) := by
  have hL₀ : Field.sub [.regs, .ctxs, .rings, .journal, .waiting, .host, .mailbox, .links, .partners, .fuse, .blt, .anl] [.regs, .ctxs, .rings, .journal, .waiting, .host, .mailbox, .links, .partners, .fuse, .blt, .anl] = true := by decide
  have h₀ := Touch.refl [.regs, .ctxs, .rings, .journal, .waiting, .host, .mailbox, .links, .partners, .fuse, .blt, .anl] s
  unfold execIdent
  try dsimp only
  repeat' first
    | with_reducible apply TouchR.next
    | with_reducible apply TouchR.ite
    | with_reducible assumption
    | (with_reducible refine Field.sub_trans ?_ hL₀; decide)
    | intro _
    | with_reducible apply receive_touch
    | with_reducible apply identify_touch
    | with_reducible apply setLink_touch
    | with_reducible apply Touch.ite
    | split
    | (with_reducible apply Touch.of_fst; with_reducible assumption)
    | (with_reducible apply Touch.of_snd; with_reducible assumption)

theorem execLeave_touch (q : LinkId) (f : QuillFrame) (s : State) : TouchR [.regs, .ctxs, .rings, .journal, .waiting, .host, .mailbox, .links, .partners, .fuse, .blt, .anl] s (execLeave q f s) := by
  have hL₀ : Field.sub [.regs, .ctxs, .rings, .journal, .waiting, .host, .mailbox, .links, .partners, .fuse, .blt, .anl] [.regs, .ctxs, .rings, .journal, .waiting, .host, .mailbox, .links, .partners, .fuse, .blt, .anl] = true := by decide
  have h₀ := Touch.refl [.regs, .ctxs, .rings, .journal, .waiting, .host, .mailbox, .links, .partners, .fuse, .blt, .anl] s
  unfold execLeave
  try dsimp only
  repeat' first
    | with_reducible apply TouchR.next
    | with_reducible apply TouchR.ite
    | with_reducible assumption
    | (with_reducible refine Field.sub_trans ?_ hL₀; decide)
    | intro _
    | with_reducible apply receive_touch
    | with_reducible apply attachmentGone_touch
    | with_reducible apply Touch.ite
    | split
    | (with_reducible apply Touch.of_fst; with_reducible assumption)
    | (with_reducible apply Touch.of_snd; with_reducible assumption)

theorem execNull_touch (q : LinkId) (f : QuillFrame) (s : State) : TouchR [.regs, .ctxs, .rings, .journal, .waiting, .host, .mailbox, .links, .fuse, .blt, .anl] s (execNull q f s) := by
  have hL₀ : Field.sub [.regs, .ctxs, .rings, .journal, .waiting, .host, .mailbox, .links, .fuse, .blt, .anl] [.regs, .ctxs, .rings, .journal, .waiting, .host, .mailbox, .links, .fuse, .blt, .anl] = true := by decide
  have h₀ := Touch.refl [.regs, .ctxs, .rings, .journal, .waiting, .host, .mailbox, .links, .fuse, .blt, .anl] s
  unfold execNull
  try dsimp only
  repeat' first
    | with_reducible apply TouchR.next
    | with_reducible apply TouchR.ite
    | with_reducible assumption
    | (with_reducible refine Field.sub_trans ?_ hL₀; decide)
    | intro _
    | with_reducible apply laneError_touch
    | with_reducible apply bump_touch
    | with_reducible apply Touch.ite
    | split
    | (with_reducible apply Touch.of_fst; with_reducible assumption)
    | (with_reducible apply Touch.of_snd; with_reducible assumption)

theorem execLinkUp_touch (q : LinkId) (epoch : BitVec 16) (s : State) : TouchR [.freeCtr, .links] s (execLinkUp q epoch s) := by
  have hL₀ : Field.sub [.freeCtr, .links] [.freeCtr, .links] = true := by decide
  have h₀ := Touch.refl [.freeCtr, .links] s
  unfold execLinkUp
  try dsimp only
  repeat' first
    | with_reducible apply TouchR.next
    | with_reducible apply TouchR.ite
    | with_reducible assumption
    | (with_reducible refine Field.sub_trans ?_ hL₀; decide)
    | with_reducible apply enterUp_touch
    | with_reducible apply setLink_touch
    | with_reducible apply Touch.ite

theorem execLinkAck_touch (q : LinkId) (epoch : BitVec 16) (s : State) : TouchR [.freeCtr, .links] s (execLinkAck q epoch s) := by
  have hL₀ : Field.sub [.freeCtr, .links] [.freeCtr, .links] = true := by decide
  have h₀ := Touch.refl [.freeCtr, .links] s
  unfold execLinkAck
  try dsimp only
  repeat' first
    | with_reducible apply TouchR.next
    | with_reducible apply TouchR.ite
    | with_reducible assumption
    | (with_reducible refine Field.sub_trans ?_ hL₀; decide)
    | with_reducible apply enterUp_touch
    | with_reducible apply Touch.ite

theorem takeNak_touch {L₀ : List Field} {s₀ s : State} (q : Nat) (k : FrameClass) (seq : BitVec 16) (hL₀ : Field.sub [.regs, .links] L₀ = true)
  (h₀ : Touch L₀ s₀ s) : Touch L₀ s₀ (takeNak s q k seq) := by
  unfold takeNak
  try dsimp only
  repeat' first
    | with_reducible assumption
    | (with_reducible refine Field.sub_trans ?_ hL₀; decide)
    | intro _
    | with_reducible apply bump_touch
    | with_reducible apply setLink_touch
    | with_reducible apply Touch.ite
    | split
    | (with_reducible apply Touch.of_fst; with_reducible assumption)
    | (with_reducible apply Touch.of_snd; with_reducible assumption)

theorem execNakLc_touch (q : LinkId) (seq : BitVec 16) (s : State) : TouchR [.regs, .links] s (execNakLc q seq s) := by
  have hL₀ : Field.sub [.regs, .links] [.regs, .links] = true := by decide
  have h₀ := Touch.refl [.regs, .links] s
  unfold execNakLc
  try dsimp only
  repeat' first
    | with_reducible apply TouchR.next
    | with_reducible assumption
    | (with_reducible refine Field.sub_trans ?_ hL₀; decide)
    | with_reducible apply takeNak_touch
    | with_reducible apply Touch.ite

theorem execNakBe_touch (q : LinkId) (seq : BitVec 16) (s : State) : TouchR [.regs, .links] s (execNakBe q seq s) := by
  have hL₀ : Field.sub [.regs, .links] [.regs, .links] = true := by decide
  have h₀ := Touch.refl [.regs, .links] s
  unfold execNakBe
  try dsimp only
  repeat' first
    | with_reducible apply TouchR.next
    | with_reducible assumption
    | (with_reducible refine Field.sub_trans ?_ hL₀; decide)
    | with_reducible apply takeNak_touch
    | with_reducible apply Touch.ite

theorem execCredit_touch (q : LinkId) (lc : BitVec 8) (be : BitVec 8) (s : State) : TouchR [.links] s (execCredit q lc be s) := by
  have hL₀ : Field.sub [.links] [.links] = true := by decide
  have h₀ := Touch.refl [.links] s
  unfold execCredit
  try dsimp only
  repeat' first
    | with_reducible apply TouchR.next
    | with_reducible apply TouchR.ite
    | with_reducible assumption
    | (with_reducible refine Field.sub_trans ?_ hL₀; decide)
    | with_reducible apply setLink_touch
    | with_reducible apply Touch.ite

theorem execDown_touch (q : LinkId) (s : State) : TouchR [.regs, .links, .partners, .blt] s (execDown q s) := by
  have hL₀ : Field.sub [.regs, .links, .partners, .blt] [.regs, .links, .partners, .blt] = true := by decide
  have h₀ := Touch.refl [.regs, .links, .partners, .blt] s
  unfold execDown
  try dsimp only
  repeat' first
    | with_reducible apply TouchR.next
    | with_reducible apply TouchR.ite
    | with_reducible assumption
    | (with_reducible refine Field.sub_trans ?_ hL₀; decide)
    | with_reducible apply leaveLink_touch
    | with_reducible apply Touch.ite

theorem execNakTimeout_touch (q : LinkId) (cl : FrameClass) (s : State) : TouchR [.freeCtr, .regs, .links, .blt] s (execNakTimeout q cl s) := by
  have hL₀ : Field.sub [.freeCtr, .regs, .links, .blt] [.freeCtr, .regs, .links, .blt] = true := by decide
  have h₀ := Touch.refl [.freeCtr, .regs, .links, .blt] s
  unfold execNakTimeout
  try dsimp only
  repeat' first
    | with_reducible apply TouchR.next
    | with_reducible apply TouchR.ite
    | with_reducible assumption
    | (with_reducible refine Field.sub_trans ?_ hL₀; decide)
    | intro _
    | with_reducible apply setLink_touch
    | with_reducible apply bump_touch
    | with_reducible apply dropFrags_touch
    | with_reducible apply Touch.ite
    | split
    | (with_reducible apply Touch.of_fst; with_reducible assumption)
    | (with_reducible apply Touch.of_snd; with_reducible assumption)

theorem execReplayExpire_touch (q : LinkId) (cl : FrameClass) (s : State) : TouchR [.links] s (execReplayExpire q cl s) := by
  have hL₀ : Field.sub [.links] [.links] = true := by decide
  have h₀ := Touch.refl [.links] s
  unfold execReplayExpire
  try dsimp only
  repeat' first
    | with_reducible apply TouchR.next
    | with_reducible apply TouchR.ite
    | with_reducible assumption
    | (with_reducible refine Field.sub_trans ?_ hL₀; decide)
    | intro _
    | with_reducible apply setLink_touch
    | with_reducible apply Touch.ite
    | split
    | (with_reducible apply Touch.of_fst; with_reducible assumption)
    | (with_reducible apply Touch.of_snd; with_reducible assumption)

theorem execLinkUpTimer_touch (q : LinkId) (s : State) : TouchR [.links] s (execLinkUpTimer q s) := by
  have hL₀ : Field.sub [.links] [.links] = true := by decide
  have h₀ := Touch.refl [.links] s
  unfold execLinkUpTimer
  try dsimp only
  repeat' first
    | with_reducible apply TouchR.next
    | with_reducible apply TouchR.ite
    | with_reducible assumption
    | (with_reducible refine Field.sub_trans ?_ hL₀; decide)
    | with_reducible apply setLink_touch
    | with_reducible apply Touch.ite

theorem execCreditTimer_touch (q : LinkId) (s : State) : TouchR [.links] s (execCreditTimer q s) := by
  have hL₀ : Field.sub [.links] [.links] = true := by decide
  have h₀ := Touch.refl [.links] s
  unfold execCreditTimer
  try dsimp only
  repeat' first
    | with_reducible apply TouchR.next
    | with_reducible apply TouchR.ite
    | with_reducible assumption
    | (with_reducible refine Field.sub_trans ?_ hL₀; decide)
    | with_reducible apply setLink_touch
    | with_reducible apply Touch.ite

theorem execUnconfNullTimer_touch (q : LinkId) (s : State) : TouchR [.links] s (execUnconfNullTimer q s) := by
  have hL₀ : Field.sub [.links] [.links] = true := by decide
  have h₀ := Touch.refl [.links] s
  unfold execUnconfNullTimer
  try dsimp only
  repeat' first
    | with_reducible apply TouchR.next
    | with_reducible apply TouchR.ite
    | with_reducible assumption
    | (with_reducible refine Field.sub_trans ?_ hL₀; decide)
    | with_reducible apply setLink_touch
    | with_reducible apply Touch.ite

theorem execLockAcquired_touch (q : LinkId) (s : State) : TouchR [.links] s (execLockAcquired q s) := by
  have hL₀ : Field.sub [.links] [.links] = true := by decide
  have h₀ := Touch.refl [.links] s
  unfold execLockAcquired
  try dsimp only
  repeat' first
    | with_reducible apply TouchR.next
    | with_reducible apply TouchR.ite
    | with_reducible assumption
    | (with_reducible refine Field.sub_trans ?_ hL₀; decide)
    | with_reducible apply setLink_touch
    | with_reducible apply Touch.ite

theorem execLinkErrors_touch (q : LinkId) (s : State) : TouchR [.regs, .links, .partners, .blt] s (execLinkErrors q s) := by
  have hL₀ : Field.sub [.regs, .links, .partners, .blt] [.regs, .links, .partners, .blt] = true := by decide
  have h₀ := Touch.refl [.regs, .links, .partners, .blt] s
  unfold execLinkErrors
  try dsimp only
  repeat' first
    | with_reducible apply TouchR.next
    | with_reducible apply TouchR.ite
    | with_reducible assumption
    | (with_reducible refine Field.sub_trans ?_ hL₀; decide)
    | with_reducible apply leaveLink_touch
    | with_reducible apply Touch.ite

theorem enterLoop_touch {L₀ : List Field} {s₀ s : State} (q : Nat) (hL₀ : Field.sub [.regs, .links, .partners, .blt] L₀ = true)
  (h₀ : Touch L₀ s₀ s) : Touch L₀ s₀ (enterLoop s q) := by
  unfold enterLoop
  try dsimp only
  repeat' first
    | with_reducible assumption
    | (with_reducible refine Field.sub_trans ?_ hL₀; decide)
    | with_reducible apply setLink_touch
    | with_reducible apply leaveLink_touch
    | with_reducible apply Touch.ite

theorem loopRole_touch {L₀ : List Field} {s₀ s : State} (q : Nat) (hL₀ : Field.sub [.regs, .links, .partners, .blt] L₀ = true)
  (h₀ : Touch L₀ s₀ s) : Touch L₀ s₀ (loopRole s q) := by
  unfold loopRole
  try dsimp only
  repeat' first
    | with_reducible assumption
    | (with_reducible refine Field.sub_trans ?_ hL₀; decide)
    | with_reducible apply enterLoop_touch
    | with_reducible apply regSet_touch
    | with_reducible apply Touch.ite

theorem execLoopRoleWrite_touch (q : LinkId) (s : State) : TouchR [.regs, .links, .partners, .blt] s (execLoopRoleWrite q s) := by
  have hL₀ : Field.sub [.regs, .links, .partners, .blt] [.regs, .links, .partners, .blt] = true := by decide
  have h₀ := Touch.refl [.regs, .links, .partners, .blt] s
  unfold execLoopRoleWrite
  try dsimp only
  repeat' first
    | with_reducible apply TouchR.next
    | with_reducible assumption
    | (with_reducible refine Field.sub_trans ?_ hL₀; decide)
    | with_reducible apply hostWrite_touch
    | with_reducible apply loopRole_touch
    | with_reducible apply Touch.ite
    | with_reducible refine TouchR.mono (by decide) (hostWrite_touch _ _)

end Sys2Proof.Machine
end

