-- ==== Sys2Proof/Laws/TouchCommitGate.lean ====
section
/-! SUPPORT. What each function of Machine/CommitGate.lean may touch: its law in the sense of Laws/Frame.lean. -/

namespace Sys2Proof.Machine

theorem presentPlan_touch {L₀ : List Field} {s₀ s : State} (p : Nat) (j : Nat) (im : Image) (t : Traj) (k : Nat) (shifted : Bool) (hL₀ : Field.sub [.regs, .ctxs, .rings, .journal, .waiting, .host, .mailbox, .nibs, .blt] L₀ = true)
  (h₀ : Touch L₀ s₀ s) : Touch L₀ s₀ (presentPlan s p j im t k shifted) := by
  unfold presentPlan
  try dsimp only
  repeat' first
    | with_reducible assumption
    | (with_reducible refine Field.sub_trans ?_ hL₀; decide)
    | intro _
    | with_reducible apply adopt_touch
    | with_reducible apply Touch.ite
    | with_reducible apply Touch.fold
    | split

theorem leOffer_touch {L₀ : List Field} {s₀ s : State} (p : Nat) (j : Nat) (stat : Nat) (words : Nat → List Word) (hL₀ : Field.sub [.links, .blt] L₀ = true)
  (h₀ : Touch L₀ s₀ s) : Touch L₀ s₀ (leOffer s p j stat words) := by
  unfold leOffer
  try dsimp only
  repeat' first
    | with_reducible assumption
    | (with_reducible refine Field.sub_trans ?_ hL₀; decide)
    | intro _
    | with_reducible apply compareOut_touch
    | with_reducible apply linkOffer_touch
    | with_reducible apply Touch.ite
    | with_reducible apply Touch.fold
    | split

theorem pushCommits_touch {L₀ : List Field} {s₀ s : State} (p : Nat) (im : Image) (c : Cmd) (words : List Word) (grp : LaunchRec) (be : Option (Nat × Nat)) (hL₀ : Field.sub [.regs, .parts, .be, .ctxs, .rings, .journal, .waiting, .host, .mailbox, .mem, .blt] L₀ = true)
  (h₀ : Touch L₀ s₀ s) : Touch L₀ s₀ (pushCommits s p im c words grp be) := by
  unfold pushCommits
  try dsimp only
  repeat' first
    | with_reducible assumption
    | (with_reducible refine Field.sub_trans ?_ hL₀; decide)
    | intro _
    | with_reducible apply completeBe_touch
    | with_reducible apply writeLaunch_touch
    | with_reducible apply setPart_touch
    | with_reducible apply Touch.ite
    | with_reducible apply Touch.fold
    | split
    | (with_reducible apply Touch.of_fst; with_reducible assumption)
    | (with_reducible apply Touch.of_snd; with_reducible assumption)

theorem slackOf_touch {L₀ : List Field} {s₀ s : State} (p : Nat) (j : Nat) (c : Cmd) (hL₀ : Field.sub [.regs, .ctxs, .rings, .journal, .waiting, .host, .mailbox, .blt, .anl] L₀ = true)
  (h₀ : Touch L₀ s₀ s) : Touch L₀ s₀ (slackOf s p j c) := by
  unfold slackOf
  try dsimp only
  repeat' first
    | with_reducible assumption
    | (with_reducible refine Field.sub_trans ?_ hL₀; decide)
    | intro _
    | with_reducible apply regSet_touch
    | with_reducible apply healthEvent_touch
    | fail_if_no_progress (with_reducible refine Touch.updAnl (Field.sub_trans (by decide) hL₀) ?_)
    | with_reducible apply Touch.ite
    | split
    | (with_reducible apply Touch.of_fst; with_reducible assumption)
    | (with_reducible apply Touch.of_snd; with_reducible assumption)

theorem replayResult_touch {L : List Field} {r s : State} (q : LaunchRec) (hL : Field.sub [.host, .blt] L = true)
    (h : Touch L r s) : Touch L r (replayResult s q) := by
  unfold replayResult
  split
  · exact h
  · extract_lets g mask div n rec8 halt
    clear_value rec8 n mask div halt
    generalize (regGet64 s (bltOff 0xD8)).toNat + 32 * n = a
    refine Touch.full h ?_ (memWf_putWords rec8 a) id id (fun g => ⟨g, Fuses.before_refl _⟩)
    (exact fun f hf => by cases f <;> first | exact absurd (Field.sub_mem hL (by decide)) hf | rfl)

theorem gateMember_touch {L₀ : List Field} {s₀ s : State} (p : Nat) (j : Nat) (im : Image) (c : Cmd) (m : Member) (hL₀ : Field.sub [.regs, .parts, .be, .ctxs, .rings, .journal, .waiting, .host, .mailbox, .mem, .blt, .anl] L₀ = true)
  (h₀ : Touch L₀ s₀ s) : Touch L₀ s₀ (gateMember s p j im c m) := by
  unfold gateMember
  try dsimp only
  repeat' first
    | with_reducible assumption
    | (with_reducible refine Field.sub_trans ?_ hL₀; decide)
    | intro _
    | with_reducible apply replayResult_touch
    | with_reducible apply putInst_touch
    | with_reducible apply pushCommits_touch
    | with_reducible apply slackOf_touch
    | with_reducible apply writeLaunch_touch
    | with_reducible apply staleTargets_touch
    | with_reducible apply Touch.ite
    | split
    | (with_reducible apply Touch.of_fst; with_reducible assumption)
    | (with_reducible apply Touch.of_snd; with_reducible assumption)

theorem keepTraj_touch {L₀ : List Field} {s₀ s : State} (p : Nat) (j : Nat) (im : Image) (c : Cmd) (hL₀ : Field.sub [.parts, .links, .blt] L₀ = true)
  (h₀ : Touch L₀ s₀ s) : Touch L₀ s₀ (keepTraj s p j im c) := by
  unfold keepTraj
  try dsimp only
  repeat' first
    | with_reducible assumption
    | (with_reducible refine Field.sub_trans ?_ hL₀; decide)
    | intro _
    | with_reducible apply setRun_touch
    | with_reducible apply leOffer_touch
    | with_reducible apply Touch.ite
    | split
    | (with_reducible apply Touch.of_fst; with_reducible assumption)
    | (with_reducible apply Touch.of_snd; with_reducible assumption)

theorem endRun_touch {L₀ : List Field} {s₀ s : State} (p : Nat) (j : Nat) (hL₀ : Field.sub [.parts] L₀ = true)
  (h₀ : Touch L₀ s₀ s) : Touch L₀ s₀ (endRun s p j) := by
  unfold endRun
  try dsimp only
  repeat' first
    | with_reducible assumption
    | (with_reducible refine Field.sub_trans ?_ hL₀; decide)
    | with_reducible apply leaveFabric_touch
    | with_reducible apply setRun_touch
    | with_reducible apply Touch.ite

theorem gateDecide_touch {L₀ : List Field} {s₀ s : State} (p : Nat) (j : Nat) (hL₀ : Field.sub [.regs, .parts, .be, .ctxs, .rings, .journal, .waiting, .host, .mailbox, .links, .mem, .blt, .anl, .assay] L₀ = true)
  (h₀ : Touch L₀ s₀ s) : Touch L₀ s₀ (gateDecide s p j) := by
  unfold gateDecide
  try dsimp only
  repeat' first
    | with_reducible assumption
    | (with_reducible refine Field.sub_trans ?_ hL₀; decide)
    | intro _
    | with_reducible apply dropPostings_touch
    | with_reducible apply regSet_touch
    | with_reducible apply endRun_touch
    | with_reducible apply gateMember_touch
    | with_reducible apply keepTraj_touch
    | with_reducible apply freeReleased_touch
    | with_reducible apply Touch.ite
    | with_reducible apply Touch.fold
    | split
    | (with_reducible apply Touch.of_fst; with_reducible assumption)
    | (with_reducible apply Touch.of_snd; with_reducible assumption)

theorem gateModel_touch {L₀ : List Field} {s₀ s : State} (p : Nat) (j : Nat) (im : Image) (c0 : Cmd) (words : List Word) (hL₀ : Field.sub [.regs, .parts, .be, .ctxs, .rings, .journal, .waiting, .host, .mailbox, .mem, .blt, .anl] L₀ = true)
  (h₀ : Touch L₀ s₀ s) : Touch L₀ s₀ (gateModel s p j im c0 words) := by
  unfold gateModel
  try dsimp only
  repeat' first
    | with_reducible assumption
    | (with_reducible refine Field.sub_trans ?_ hL₀; decide)
    | intro _
    | with_reducible apply pushCommits_touch
    | with_reducible apply slackOf_touch
    | with_reducible apply replayResult_touch
    | with_reducible apply freeReleased_touch
    | with_reducible apply endRun_touch
    | with_reducible apply Touch.ite
    | split
    | (with_reducible apply Touch.of_fst; with_reducible assumption)
    | (with_reducible apply Touch.of_snd; with_reducible assumption)

theorem stopFault_touch {L₀ : List Field} {s₀ s : State} (p : Nat) (k : CmdKey) (c : Cmd) (kind : Nat) (flag : Nat) (tile : Nat) (stroke : Nat) (prev : Nat) (hL₀ : Field.sub [.regs, .ctxs, .rings, .journal, .waiting, .host, .mailbox, .blt, .anl] L₀ = true)
  (h₀ : Touch L₀ s₀ s) : Touch L₀ s₀ (stopFault s p k c kind flag tile stroke prev) := by
  unfold stopFault
  try dsimp only
  repeat' first
    | with_reducible assumption
    | (with_reducible refine Field.sub_trans ?_ hL₀; decide)
    | intro _
    | with_reducible apply writeFault_touch
    | with_reducible apply Touch.ite
    | split
    | (with_reducible apply Touch.of_fst; with_reducible assumption)
    | (with_reducible apply Touch.of_snd; with_reducible assumption)

theorem breakChain_touch {L₀ : List Field} {s₀ s : State} (p : Nat) (k : CmdKey) (c : Cmd) (hL₀ : Field.sub [.regs, .parts, .tiles, .be, .ctxs, .rings, .journal, .waiting, .host, .mailbox, .links, .mem, .blt, .anl, .assay] L₀ = true)
  (h₀ : Touch L₀ s₀ s) : Touch L₀ s₀ (breakChain s p k c) := by
  unfold breakChain
  try dsimp only
  repeat' first
    | with_reducible assumption
    | (with_reducible refine Field.sub_trans ?_ hL₀; decide)
    | intro _
    | with_reducible apply putCmd_touch
    | with_reducible apply freeTiles_touch
    | with_reducible apply gateDecide_touch
    | with_reducible apply Touch.ite
    | split
    | (with_reducible apply Touch.of_fst; with_reducible assumption)
    | (with_reducible apply Touch.of_snd; with_reducible assumption)

theorem breakBreach_touch {L₀ : List Field} {s₀ s : State} (p : Nat) (k : CmdKey) (c : Cmd) (hL₀ : Field.sub [.regs, .parts, .tiles, .be, .ctxs, .rings, .journal, .waiting, .host, .mailbox, .links, .mem, .blt, .anl, .assay] L₀ = true)
  (h₀ : Touch L₀ s₀ s) : Touch L₀ s₀ (breakBreach s p k c) := by
  unfold breakBreach
  try dsimp only
  repeat' first
    | with_reducible assumption
    | (with_reducible refine Field.sub_trans ?_ hL₀; decide)
    | intro _
    | with_reducible apply breakChain_touch
    | with_reducible apply stopFault_touch
    | with_reducible apply bump_touch
    | with_reducible apply Touch.ite
    | split
    | (with_reducible apply Touch.of_fst; with_reducible assumption)
    | (with_reducible apply Touch.of_snd; with_reducible assumption)

theorem breakTrap_touch {L₀ : List Field} {s₀ s : State} (p : Nat) (k : CmdKey) (c : Cmd) (tile : Nat) (a : Arith) (bar : Nat) (prev : Nat) (hL₀ : Field.sub [.regs, .parts, .tiles, .be, .ctxs, .rings, .journal, .waiting, .host, .mailbox, .links, .mem, .blt, .anl, .assay] L₀ = true)
  (h₀ : Touch L₀ s₀ s) : Touch L₀ s₀ (breakTrap s p k c tile a bar prev) := by
  unfold breakTrap
  try dsimp only
  repeat' first
    | with_reducible assumption
    | (with_reducible refine Field.sub_trans ?_ hL₀; decide)
    | with_reducible apply breakChain_touch
    | with_reducible apply stopFault_touch
    | with_reducible apply bump_touch
    | with_reducible apply Touch.ite

theorem breakFault_touch {L₀ : List Field} {s₀ s : State} (p : Nat) (k : CmdKey) (c : Cmd) (flag : CFlags) (tile : Nat) (hL₀ : Field.sub [.regs, .parts, .tiles, .be, .ctxs, .rings, .journal, .waiting, .host, .mailbox, .links, .mem, .blt, .anl, .assay] L₀ = true)
  (h₀ : Touch L₀ s₀ s) : Touch L₀ s₀ (breakFault s p k c flag tile) := by
  unfold breakFault
  try dsimp only
  repeat' first
    | with_reducible assumption
    | (with_reducible refine Field.sub_trans ?_ hL₀; decide)
    | intro _
    | with_reducible apply breakChain_touch
    | with_reducible apply stopFault_touch
    | with_reducible apply bump_touch
    | with_reducible apply Touch.ite
    | split
    | (with_reducible apply Touch.of_fst; with_reducible assumption)
    | (with_reducible apply Touch.of_snd; with_reducible assumption)

end Sys2Proof.Machine
end

