-- ==== Sys2Proof/Laws/TouchSegment.lean ====
section
/-! SUPPORT. What each function of Machine/Segment.lean may touch: its law in the sense of Laws/Frame.lean. -/

namespace Sys2Proof.Machine

theorem startSegment_touch {L₀ : List Field} {s₀ s : State} (p : Nat) (k : CmdKey) (c : Cmd) (im : Image) (kind : Nat) (hL₀ : Field.sub [.parts, .tiles, .be] L₀ = true)
  (h₀ : Touch L₀ s₀ s) : Touch L₀ s₀ (startSegment s p k c im kind) := by
  unfold startSegment
  try dsimp only
  repeat' first
    | with_reducible assumption
    | (with_reducible refine Field.sub_trans ?_ hL₀; decide)
    | intro _
    | with_reducible apply putCmd_touch
    | with_reducible apply modTiles_touch
    | with_reducible apply Touch.ite
    | split
    | (with_reducible apply Touch.of_fst; with_reducible assumption)
    | (with_reducible apply Touch.of_snd; with_reducible assumption)

theorem startCommand_touch {L₀ : List Field} {s₀ s : State} (p : Nat) (k : CmdKey) (c : Cmd) (im : Image) (t0 : Nat) (hL₀ : Field.sub [.regs, .parts, .tiles, .be, .ctxs, .rings, .journal, .waiting, .host, .mailbox, .links, .mem, .blt, .anl, .assay] L₀ = true)
  (h₀ : Touch L₀ s₀ s) : Touch L₀ s₀ (startCommand s p k c im t0) := by
  unfold startCommand
  try dsimp only
  repeat' first
    | with_reducible assumption
    | (with_reducible refine Field.sub_trans ?_ hL₀; decide)
    | intro _
    | with_reducible apply boundaryTiles_touch
    | with_reducible apply setPart_touch
    | with_reducible apply startSegment_touch
    | with_reducible apply gateDecide_touch
    | with_reducible apply putCmd_touch
    | with_reducible apply Touch.ite
    | split
    | (with_reducible apply Touch.of_fst; with_reducible assumption)
    | (with_reducible apply Touch.of_snd; with_reducible assumption)

theorem postIntermediate_touch {L₀ : List Field} {s₀ s : State} (p : Nat) (k : CmdKey) (c : Cmd) (im : Image) (hL₀ : Field.sub [.parts] L₀ = true)
  (h₀ : Touch L₀ s₀ s) : Touch L₀ s₀ (postIntermediate s p k c im).1 := by
  unfold postIntermediate
  try dsimp only
  repeat' first
    | with_reducible assumption
    | (with_reducible refine Field.sub_trans ?_ hL₀; decide)
    | intro _
    | with_reducible apply setPart_touch
    | with_reducible apply Touch.ite_fst
    | with_reducible apply Touch.ite
    | split
    | (with_reducible apply Touch.of_fst; with_reducible assumption)
    | (with_reducible apply Touch.of_snd; with_reducible assumption)

theorem postFinal_touch {L₀ : List Field} {s₀ s : State} (p : Nat) (k : CmdKey) (c : Cmd) (im : Image) (hL₀ : Field.sub [.parts, .be, .assay] L₀ = true)
  (h₀ : Touch L₀ s₀ s) : Touch L₀ s₀ (postFinal s p k c im) := by
  unfold postFinal
  try dsimp only
  repeat' first
    | with_reducible assumption
    | (with_reducible refine Field.sub_trans ?_ hL₀; decide)
    | intro _
    | with_reducible apply setPart_touch
    | with_reducible apply putCmd_touch
    | with_reducible apply setBe_touch
    | fail_if_no_progress (with_reducible refine Touch.updAssay (Field.sub_trans (by decide) hL₀) ?_)
    | with_reducible apply Touch.ite
    | split
    | (with_reducible apply Touch.of_fst; with_reducible assumption)
    | (with_reducible apply Touch.of_snd; with_reducible assumption)

theorem failFinal_touch {L₀ : List Field} {s₀ s : State} (p : Nat) (k : CmdKey) (hL₀ : Field.sub [.regs, .parts, .be, .ctxs, .rings, .journal, .waiting, .host, .mailbox, .links, .mem, .blt, .anl, .assay] L₀ = true)
  (h₀ : Touch L₀ s₀ s) : Touch L₀ s₀ (failFinal s p k) := by
  unfold failFinal
  try dsimp only
  repeat' first
    | with_reducible assumption
    | (with_reducible refine Field.sub_trans ?_ hL₀; decide)
    | intro _
    | with_reducible apply gateDecide_touch
    | with_reducible apply putCmd_touch
    | with_reducible apply setBe_touch
    | with_reducible apply dropPostings_touch
    | with_reducible apply Touch.ite
    | split
    | (with_reducible apply Touch.of_fst; with_reducible assumption)
    | (with_reducible apply Touch.of_snd; with_reducible assumption)

theorem chooseNext_touch {L₀ : List Field} {s₀ s : State} (p : Nat) (k : CmdKey) (im : Image) (c : Cmd) (d : Word) (hL₀ : Field.sub [.regs, .parts, .tiles, .be, .ctxs, .rings, .journal, .waiting, .host, .mailbox, .links, .mem, .blt, .anl, .assay] L₀ = true)
  (h₀ : Touch L₀ s₀ s) : Touch L₀ s₀ (chooseNext s p k im c d) := by
  unfold chooseNext
  try dsimp only
  repeat' first
    | with_reducible assumption
    | (with_reducible refine Field.sub_trans ?_ hL₀; decide)
    | intro _
    | with_reducible apply startSegment_touch
    | with_reducible apply postIntermediate_touch
    | with_reducible apply postFinal_touch
    | with_reducible apply leaveFabric_touch
    | with_reducible apply freeTiles_touch
    | with_reducible apply failFinal_touch
    | with_reducible apply Touch.ite
    | split
    | (with_reducible apply Touch.of_fst; with_reducible assumption)
    | (with_reducible apply Touch.of_snd; with_reducible assumption)

theorem endBody_touch {L₀ : List Field} {s₀ s : State} (p : Nat) (k : CmdKey) (im : Image) (c : Cmd) (words : List Word) (hL₀ : Field.sub [.regs, .parts, .tiles, .be, .ctxs, .rings, .journal, .waiting, .host, .mailbox, .mem, .blt, .anl] L₀ = true)
  (h₀ : Touch L₀ s₀ s) : Touch L₀ s₀ (endBody s p k im c words) := by
  unfold endBody
  try dsimp only
  repeat' first
    | with_reducible assumption
    | (with_reducible refine Field.sub_trans ?_ hL₀; decide)
    | intro _
    | with_reducible apply freeTiles_touch
    | with_reducible apply putCmd_touch
    | with_reducible apply gateModel_touch
    | with_reducible apply Touch.ite
    | split
    | (with_reducible apply Touch.of_fst; with_reducible assumption)
    | (with_reducible apply Touch.of_snd; with_reducible assumption)

theorem segmentEnd_touch {L₀ : List Field} {s₀ s : State} (p : Nat) (k : CmdKey) (im : Image) (c0 : Cmd) (hL₀ : Field.sub [.regs, .parts, .tiles, .be, .ctxs, .rings, .journal, .waiting, .host, .mailbox, .links, .mem, .blt, .anl, .assay] L₀ = true)
  (h₀ : Touch L₀ s₀ s) : Touch L₀ s₀ (segmentEnd s p k im c0) := by
  unfold segmentEnd
  try dsimp only
  repeat' first
    | with_reducible assumption
    | (with_reducible refine Field.sub_trans ?_ hL₀; decide)
    | intro _
    | with_reducible apply breakBreach_touch
    | with_reducible apply breakTrap_touch
    | with_reducible apply breakFault_touch
    | with_reducible apply endBody_touch
    | with_reducible apply chooseNext_touch
    | with_reducible apply Touch.ite
    | split
    | (with_reducible apply Touch.of_fst; with_reducible assumption)
    | (with_reducible apply Touch.of_snd; with_reducible assumption)

theorem execSegmentBoundary_touch (p : PartId) (s : State) : TouchR [.regs, .parts, .tiles, .be, .ctxs, .rings, .journal, .waiting, .host, .mailbox, .links, .mem, .blt, .anl, .assay] s (execSegmentBoundary p s) := by
  have hL₀ : Field.sub [.regs, .parts, .tiles, .be, .ctxs, .rings, .journal, .waiting, .host, .mailbox, .links, .mem, .blt, .anl, .assay] [.regs, .parts, .tiles, .be, .ctxs, .rings, .journal, .waiting, .host, .mailbox, .links, .mem, .blt, .anl, .assay] = true := by decide
  have h₀ := Touch.refl [.regs, .parts, .tiles, .be, .ctxs, .rings, .journal, .waiting, .host, .mailbox, .links, .mem, .blt, .anl, .assay] s
  unfold execSegmentBoundary
  try dsimp only
  repeat' first
    | with_reducible apply TouchR.next
    | with_reducible apply TouchR.ite
    | with_reducible assumption
    | (with_reducible refine Field.sub_trans ?_ hL₀; decide)
    | intro _
    | with_reducible apply segmentEnd_touch
    | with_reducible apply Touch.ite
    | split
    | (with_reducible apply Touch.of_fst; with_reducible assumption)
    | (with_reducible apply Touch.of_snd; with_reducible assumption)

end Sys2Proof.Machine
end

