-- ==== Sys2Proof/Laws/TouchLaunch.lean ====
section
/-! SUPPORT. What each function of Machine/Launch.lean may touch: its law in the sense of Laws/Frame.lean. -/

namespace Sys2Proof.Machine

theorem cutMember_touch {L₀ : List Field} {s₀ s : State} (p : Nat) (j : Nat) (cap : Nat) (cut : Nat) (num : Nat) (hL₀ : Field.sub [.parts] L₀ = true)
  (h₀ : Touch L₀ s₀ s) : Touch L₀ s₀ (cutMember s p j cap cut num) := by
  unfold cutMember
  try dsimp only
  repeat' first
    | with_reducible assumption
    | (with_reducible refine Field.sub_trans ?_ hL₀; decide)
    | intro _
    | with_reducible apply putInst_touch
    | with_reducible apply Touch.ite
    | split
    | (with_reducible apply Touch.of_fst; with_reducible assumption)
    | (with_reducible apply Touch.of_snd; with_reducible assumption)

theorem execCutoff_touch (p : PartId) (j : EntryId) (s : State) : TouchR [.parts] s (execCutoff p j s) := by
  have hL₀ : Field.sub [.parts] [.parts] = true := by decide
  have h₀ := Touch.refl [.parts] s
  unfold execCutoff
  try dsimp only
  repeat' first
    | with_reducible apply TouchR.next
    | with_reducible apply TouchR.ite
    | with_reducible assumption
    | (with_reducible refine Field.sub_trans ?_ hL₀; decide)
    | intro _
    | with_reducible apply setPart_touch
    | with_reducible apply setRun_touch
    | with_reducible apply cutMember_touch
    | with_reducible apply Touch.ite
    | with_reducible apply Touch.fold
    | split
    | (with_reducible apply Touch.of_fst; with_reducible assumption)
    | (with_reducible apply Touch.of_snd; with_reducible assumption)

theorem skipLaunch_touch {L₀ : List Field} {s₀ s : State} (p : Nat) (j : Nat) (reason : Nat) (hL₀ : Field.sub [.regs, .parts, .blt] L₀ = true)
  (h₀ : Touch L₀ s₀ s) : Touch L₀ s₀ (skipLaunch s p j reason) := by
  unfold skipLaunch
  try dsimp only
  repeat' first
    | with_reducible assumption
    | (with_reducible refine Field.sub_trans ?_ hL₀; decide)
    | intro _
    | with_reducible apply bltRecord_touch
    | with_reducible apply bump_touch
    | with_reducible apply leaveFabric_touch
    | with_reducible apply setPart_touch
    | with_reducible apply staleTargets_touch
    | with_reducible apply setRun_touch
    | with_reducible apply Touch.ite
    | split
    | (with_reducible apply Touch.of_fst; with_reducible assumption)
    | (with_reducible apply Touch.of_snd; with_reducible assumption)

theorem withdrawLaunch_touch {L₀ : List Field} {s₀ s : State} (p : Nat) (j : Nat) (c : Cmd) (hL₀ : Field.sub [.regs, .parts, .tiles, .blt, .assay] L₀ = true)
  (h₀ : Touch L₀ s₀ s) : Touch L₀ s₀ (withdrawLaunch s p j c) := by
  unfold withdrawLaunch
  try dsimp only
  repeat' first
    | with_reducible assumption
    | (with_reducible refine Field.sub_trans ?_ hL₀; decide)
    | intro _
    | with_reducible apply freeTiles_touch
    | with_reducible apply putInst_touch
    | with_reducible apply dropPostings_touch
    | with_reducible apply skipLaunch_touch
    | with_reducible apply setRun_touch
    | with_reducible apply Touch.ite
    | with_reducible apply Touch.fold
    | split
    | (with_reducible apply Touch.of_fst; with_reducible assumption)
    | (with_reducible apply Touch.of_snd; with_reducible assumption)

theorem markLaunched_touch {L₀ : List Field} {s₀ s : State} (p : Nat) (c : Cmd) (hL₀ : Field.sub [.parts] L₀ = true)
  (h₀ : Touch L₀ s₀ s) : Touch L₀ s₀ (markLaunched s p c) := by
  unfold markLaunched
  try dsimp only
  repeat' first
    | with_reducible assumption
    | (with_reducible refine Field.sub_trans ?_ hL₀; decide)
    | intro _
    | with_reducible apply putInst_touch
    | with_reducible apply Touch.ite
    | with_reducible apply Touch.fold
    | split
    | (with_reducible apply Touch.of_fst; with_reducible assumption)
    | (with_reducible apply Touch.of_snd; with_reducible assumption)

theorem startEntry_touch {L₀ : List Field} {s₀ s : State} (p : Nat) (j : Nat) (c : Cmd) (im : Image) (hL₀ : Field.sub [.regs, .parts, .tiles, .be, .ctxs, .rings, .journal, .waiting, .host, .mailbox, .links, .mem, .blt, .anl, .assay] L₀ = true)
  (h₀ : Touch L₀ s₀ s) : Touch L₀ s₀ (startEntry s p j c im) := by
  unfold startEntry
  try dsimp only
  repeat' first
    | with_reducible assumption
    | (with_reducible refine Field.sub_trans ?_ hL₀; decide)
    | with_reducible apply markLaunched_touch
    | with_reducible apply startCommand_touch
    | with_reducible apply Touch.ite

theorem execLaunch_touch (p : PartId) (j : EntryId) (s : State) : TouchR [.regs, .parts, .tiles, .be, .ctxs, .rings, .journal, .waiting, .host, .mailbox, .links, .mem, .blt, .anl, .assay] s (execLaunch p j s) := by
  have hL₀ : Field.sub [.regs, .parts, .tiles, .be, .ctxs, .rings, .journal, .waiting, .host, .mailbox, .links, .mem, .blt, .anl, .assay] [.regs, .parts, .tiles, .be, .ctxs, .rings, .journal, .waiting, .host, .mailbox, .links, .mem, .blt, .anl, .assay] = true := by decide
  have h₀ := Touch.refl [.regs, .parts, .tiles, .be, .ctxs, .rings, .journal, .waiting, .host, .mailbox, .links, .mem, .blt, .anl, .assay] s
  unfold execLaunch
  try dsimp only
  repeat' first
    | with_reducible apply TouchR.next
    | with_reducible apply TouchR.ite
    | with_reducible assumption
    | (with_reducible refine Field.sub_trans ?_ hL₀; decide)
    | intro _
    | with_reducible apply skipLaunch_touch
    | with_reducible apply putInst_touch
    | with_reducible apply setRun_touch
    | with_reducible apply startEntry_touch
    | with_reducible apply beginKill_touch
    | with_reducible apply Touch.ite
    | with_reducible apply Touch.fold
    | split
    | (with_reducible apply Touch.of_fst; with_reducible assumption)
    | (with_reducible apply Touch.of_snd; with_reducible assumption)

theorem execDeadlineTick_touch (p : PartId) (j : EntryId) (s : State) : TouchR [.regs, .parts, .be, .ctxs, .rings, .journal, .waiting, .host, .mailbox, .links, .mem, .blt, .anl, .assay] s (execDeadlineTick p j s) := by
  have hL₀ : Field.sub [.regs, .parts, .be, .ctxs, .rings, .journal, .waiting, .host, .mailbox, .links, .mem, .blt, .anl, .assay] [.regs, .parts, .be, .ctxs, .rings, .journal, .waiting, .host, .mailbox, .links, .mem, .blt, .anl, .assay] = true := by decide
  have h₀ := Touch.refl [.regs, .parts, .be, .ctxs, .rings, .journal, .waiting, .host, .mailbox, .links, .mem, .blt, .anl, .assay] s
  unfold execDeadlineTick
  try dsimp only
  repeat' first
    | with_reducible apply TouchR.next
    | with_reducible apply TouchR.ite
    | with_reducible assumption
    | (with_reducible refine Field.sub_trans ?_ hL₀; decide)
    | intro _
    | with_reducible apply gateDecide_touch
    | with_reducible apply putCmd_touch
    | with_reducible apply Touch.ite
    | split
    | (with_reducible apply Touch.of_fst; with_reducible assumption)
    | (with_reducible apply Touch.of_snd; with_reducible assumption)

theorem rerunSpace_touch {L₀ : List Field} {s₀ s : State} (p : Nat) (im : Image) (c : Cmd) (hL₀ : Field.sub [.parts] L₀ = true)
  (h₀ : Touch L₀ s₀ s) : Touch L₀ s₀ (rerunSpace s p im c) := by
  unfold rerunSpace
  try dsimp only
  repeat' first
    | with_reducible assumption
    | (with_reducible refine Field.sub_trans ?_ hL₀; decide)
    | intro _
    | with_reducible apply putInst_touch
    | with_reducible apply Touch.ite
    | with_reducible apply Touch.fold
    | split
    | (with_reducible apply Touch.of_fst; with_reducible assumption)
    | (with_reducible apply Touch.of_snd; with_reducible assumption)

theorem execRerunStart_touch (p : PartId) (j : EntryId) (s : State) : TouchR [.regs, .parts, .tiles, .be, .ctxs, .rings, .journal, .waiting, .host, .mailbox, .links, .mem, .blt, .anl, .assay] s (execRerunStart p j s) := by
  have hL₀ : Field.sub [.regs, .parts, .tiles, .be, .ctxs, .rings, .journal, .waiting, .host, .mailbox, .links, .mem, .blt, .anl, .assay] [.regs, .parts, .tiles, .be, .ctxs, .rings, .journal, .waiting, .host, .mailbox, .links, .mem, .blt, .anl, .assay] = true := by decide
  have h₀ := Touch.refl [.regs, .parts, .tiles, .be, .ctxs, .rings, .journal, .waiting, .host, .mailbox, .links, .mem, .blt, .anl, .assay] s
  unfold execRerunStart
  try dsimp only
  repeat' first
    | with_reducible apply TouchR.next
    | with_reducible apply TouchR.ite
    | with_reducible assumption
    | (with_reducible refine Field.sub_trans ?_ hL₀; decide)
    | intro _
    | with_reducible apply startEntry_touch
    | with_reducible apply rerunSpace_touch
    | with_reducible apply Touch.ite
    | split
    | (with_reducible apply Touch.of_fst; with_reducible assumption)
    | (with_reducible apply Touch.of_snd; with_reducible assumption)

theorem certRecord_touch {L₀ : List Field} {s₀ s : State} (p : Nat) (entry : Nat) (c : AssayCert) (hL₀ : Field.sub [.blt] L₀ = true)
  (h₀ : Touch L₀ s₀ s) : Touch L₀ s₀ (certRecord s p entry c) := by
  unfold certRecord
  try dsimp only
  repeat' first
    | with_reducible assumption
    | (with_reducible refine Field.sub_trans ?_ hL₀; decide)
    | with_reducible apply bltRecord_touch
    | with_reducible apply Touch.ite

theorem entryVerdict_touch {L₀ : List Field} {s₀ s : State} (p : Nat) (j : Nat) (q : Posting) (fault : VerdictFault) (hL₀ : Field.sub [.regs, .parts, .be, .ctxs, .rings, .journal, .waiting, .host, .mailbox, .links, .mem, .blt, .anl, .assay] L₀ = true)
  (h₀ : Touch L₀ s₀ s) : Touch L₀ s₀ (entryVerdict s p j q fault) := by
  unfold entryVerdict
  try dsimp only
  repeat' first
    | with_reducible assumption
    | (with_reducible refine Field.sub_trans ?_ hL₀; decide)
    | intro _
    | with_reducible apply setPart_touch
    | with_reducible apply certRecord_touch
    | with_reducible apply writeFault_touch
    | with_reducible apply putCmd_touch
    | with_reducible apply gateDecide_touch
    | with_reducible apply Touch.ite
    | with_reducible apply Touch.fold
    | split
    | (with_reducible apply Touch.of_fst; with_reducible assumption)
    | (with_reducible apply Touch.of_snd; with_reducible assumption)

theorem poolVerdict_touch {L₀ : List Field} {s₀ s : State} (p : Nat) (r : Nat) (b : BeCmd) (fault : VerdictFault) (hL₀ : Field.sub [.regs, .be, .ctxs, .rings, .journal, .waiting, .host, .mailbox, .blt, .anl, .assay] L₀ = true)
  (h₀ : Touch L₀ s₀ s) : Touch L₀ s₀ (poolVerdict s p r b fault) := by
  unfold poolVerdict
  try dsimp only
  repeat' first
    | with_reducible assumption
    | (with_reducible refine Field.sub_trans ?_ hL₀; decide)
    | intro _
    | with_reducible apply certRecord_touch
    | with_reducible apply writeFault_touch
    | with_reducible apply setBe_touch
    | fail_if_no_progress (with_reducible refine Touch.updAssay (Field.sub_trans (by decide) hL₀) ?_)
    | with_reducible apply Touch.ite
    | split
    | (with_reducible apply Touch.of_fst; with_reducible assumption)
    | (with_reducible apply Touch.of_snd; with_reducible assumption)

theorem partVerdict_touch {L₀ : List Field} {s₀ s : State} (p : Nat) (fault : VerdictFault) (hL₀ : Field.sub [.regs, .parts, .be, .ctxs, .rings, .journal, .waiting, .host, .mailbox, .links, .mem, .blt, .anl, .assay] L₀ = true)
  (h₀ : Touch L₀ s₀ s) : Touch L₀ s₀ (partVerdict s p fault) := by
  unfold partVerdict
  try dsimp only
  repeat' first
    | with_reducible assumption
    | (with_reducible refine Field.sub_trans ?_ hL₀; decide)
    | intro _
    | with_reducible apply entryVerdict_touch
    | with_reducible apply Touch.ite
    | split
    | (with_reducible apply Touch.of_fst; with_reducible assumption)
    | (with_reducible apply Touch.of_snd; with_reducible assumption)

theorem execAssayVerdict_touch (p : PartId) (fault : VerdictFault) (s : State) : TouchR [.regs, .parts, .be, .ctxs, .rings, .journal, .waiting, .host, .mailbox, .links, .mem, .blt, .anl, .assay] s (execAssayVerdict p fault s) := by
  have hL₀ : Field.sub [.regs, .parts, .be, .ctxs, .rings, .journal, .waiting, .host, .mailbox, .links, .mem, .blt, .anl, .assay] [.regs, .parts, .be, .ctxs, .rings, .journal, .waiting, .host, .mailbox, .links, .mem, .blt, .anl, .assay] = true := by decide
  have h₀ := Touch.refl [.regs, .parts, .be, .ctxs, .rings, .journal, .waiting, .host, .mailbox, .links, .mem, .blt, .anl, .assay] s
  unfold execAssayVerdict
  try dsimp only
  repeat' first
    | with_reducible apply TouchR.next
    | with_reducible apply TouchR.ite
    | with_reducible assumption
    | (with_reducible refine Field.sub_trans ?_ hL₀; decide)
    | intro _
    | with_reducible apply partVerdict_touch
    | with_reducible apply poolVerdict_touch
    | with_reducible apply Touch.ite
    | split
    | (with_reducible apply Touch.of_fst; with_reducible assumption)
    | (with_reducible apply Touch.of_snd; with_reducible assumption)

end Sys2Proof.Machine
end

