-- ==== Sys2Proof/Laws/TouchQuads.lean ====
section
/-! SUPPORT. What each function of Machine/Quads.lean may touch: its law in the sense of Laws/Frame.lean. -/

namespace Sys2Proof.Machine

theorem lowerTiles_touch {L₀ : List Field} {s₀ s : State} (d : Nat) (st : PowerState) (hL₀ : Field.sub [.tiles] L₀ = true)
  (h₀ : Touch L₀ s₀ s) : Touch L₀ s₀ (lowerTiles s d st) := by
  unfold lowerTiles
  try dsimp only
  repeat' first
    | with_reducible assumption
    | (with_reducible refine Field.sub_trans ?_ hL₀; decide)
    | intro _
    | with_reducible apply setTile_touch
    | with_reducible apply Touch.ite
    | with_reducible apply Touch.fold
    | split
    | (with_reducible apply Touch.of_fst; with_reducible assumption)
    | (with_reducible apply Touch.of_snd; with_reducible assumption)

theorem lowerDom_touch {L₀ : List Field} {s₀ s : State} (d : Nat) (st : PowerState) (hL₀ : Field.sub [.tiles, .pwr] L₀ = true)
  (h₀ : Touch L₀ s₀ s) : Touch L₀ s₀ (lowerDom s d st) := by
  unfold lowerDom
  try dsimp only
  repeat' first
    | with_reducible assumption
    | (with_reducible refine Field.sub_trans ?_ hL₀; decide)
    | intro _
    | with_reducible apply setDom_touch
    | with_reducible apply lowerTiles_touch
    | with_reducible apply Touch.ite
    | with_reducible apply Touch.fold
    | split

theorem lowerQuad_touch {L₀ : List Field} {s₀ s : State} (d : Nat) (st : PowerState) (hL₀ : Field.sub [.tiles, .pwr] L₀ = true)
  (h₀ : Touch L₀ s₀ s) : Touch L₀ s₀ (lowerQuad s d st) := by
  unfold lowerQuad
  try dsimp only
  repeat' first
    | with_reducible assumption
    | (with_reducible refine Field.sub_trans ?_ hL₀; decide)
    | with_reducible apply lowerDom_touch
    | with_reducible apply Touch.ite

theorem gateQuads_touch {L₀ : List Field} {s₀ s : State}(hL₀ : Field.sub [.tiles, .pwr] L₀ = true)
  (h₀ : Touch L₀ s₀ s) : Touch L₀ s₀ (gateQuads s) := by
  unfold gateQuads
  try dsimp only
  repeat' first
    | with_reducible assumption
    | (with_reducible refine Field.sub_trans ?_ hL₀; decide)
    | intro _
    | with_reducible apply lowerQuad_touch
    | with_reducible apply Touch.ite
    | with_reducible apply Touch.fold
    | split

end Sys2Proof.Machine
end

