-- ==== Sys2Proof/Laws/TouchBestEffort.lean ====
section
/-! SUPPORT. What each function of Machine/BestEffort.lean may touch: its law in the sense of Laws/Frame.lean. -/

namespace Sys2Proof.Machine

theorem rollCycle_touch {L₀ : List Field} {s₀ s : State} (p : Nat) (hL₀ : Field.sub [.parts] L₀ = true)
  (h₀ : Touch L₀ s₀ s) : Touch L₀ s₀ (rollCycle s p) := by
  unfold rollCycle
  try dsimp only
  repeat' first
    | with_reducible assumption
    | (with_reducible refine Field.sub_trans ?_ hL₀; decide)
    | with_reducible apply setPart_touch
    | with_reducible apply Touch.ite

theorem chargeAged_touch {L₀ : List Field} {s₀ s : State} (p : Nat) (hL₀ : Field.sub [.parts] L₀ = true)
  (h₀ : Touch L₀ s₀ s) : Touch L₀ s₀ (chargeAged s p) := by
  unfold chargeAged
  try dsimp only
  repeat' first
    | with_reducible assumption
    | (with_reducible refine Field.sub_trans ?_ hL₀; decide)
    | intro _
    | with_reducible apply setPart_touch
    | with_reducible apply Touch.ite
    | split
    | (with_reducible apply Touch.of_fst; with_reducible assumption)
    | (with_reducible apply Touch.of_snd; with_reducible assumption)

theorem execBeSolve_touch (c : CtxId) (r : RingId) (s : State) : TouchR [.regs, .be, .ctxs, .rings, .journal, .waiting, .host, .mailbox, .blt] s (execBeSolve c r s) := by
  have hL₀ : Field.sub [.regs, .be, .ctxs, .rings, .journal, .waiting, .host, .mailbox, .blt] [.regs, .be, .ctxs, .rings, .journal, .waiting, .host, .mailbox, .blt] = true := by decide
  have h₀ := Touch.refl [.regs, .be, .ctxs, .rings, .journal, .waiting, .host, .mailbox, .blt] s
  unfold execBeSolve
  try dsimp only
  repeat' first
    | with_reducible apply TouchR.next
    | with_reducible apply TouchR.ite
    | with_reducible assumption
    | (with_reducible refine Field.sub_trans ?_ hL₀; decide)
    | intro _
    | with_reducible apply finishItem_touch
    | with_reducible apply setBe_touch
    | with_reducible apply beginItem_touch
    | with_reducible apply Touch.ite
    | split
    | (with_reducible apply Touch.of_fst; with_reducible assumption)
    | (with_reducible apply Touch.of_snd; with_reducible assumption)

theorem execBeModel_touch (c : CtxId) (r : RingId) (s : State) : TouchR [.regs, .be, .ctxs, .rings, .journal, .waiting, .host, .mailbox, .mem, .blt] s (execBeModel c r s) := by
  have hL₀ : Field.sub [.regs, .be, .ctxs, .rings, .journal, .waiting, .host, .mailbox, .mem, .blt] [.regs, .be, .ctxs, .rings, .journal, .waiting, .host, .mailbox, .mem, .blt] = true := by decide
  have h₀ := Touch.refl [.regs, .be, .ctxs, .rings, .journal, .waiting, .host, .mailbox, .mem, .blt] s
  unfold execBeModel
  try dsimp only
  repeat' first
    | with_reducible apply TouchR.next
    | with_reducible apply TouchR.ite
    | with_reducible assumption
    | (with_reducible refine Field.sub_trans ?_ hL₀; decide)
    | intro _
    | with_reducible apply finishItem_touch
    | with_reducible apply setBe_touch
    | with_reducible apply beginItem_touch
    | fail_if_no_progress (with_reducible refine Touch.updMem (Field.sub_trans (by decide) hL₀) ?_)
    | with_reducible apply Touch.ite
    | split
    | (with_reducible apply Touch.of_fst; with_reducible assumption)
    | (with_reducible apply Touch.of_snd; with_reducible assumption)

theorem loadStrokes_touch {L₀ : List Field} {s₀ s : State} (p : Nat) (k : Nat) (ovl : Bool) (blocks : List (TileBlock × List StoredWord)) (hL₀ : Field.sub [.tiles] L₀ = true)
  (h₀ : Touch L₀ s₀ s) : Touch L₀ s₀ (loadStrokes s p k ovl blocks) := by
  unfold loadStrokes
  try dsimp only
  repeat' first
    | with_reducible assumption
    | (with_reducible refine Field.sub_trans ?_ hL₀; decide)
    | intro _
    | with_reducible apply setTile_touch
    | with_reducible apply Touch.ite
    | with_reducible apply Touch.fold
    | split

theorem dropStrokes_touch {L₀ : List Field} {s₀ s : State} (p : Nat) (f : StoredWord → Bool) (hL₀ : Field.sub [.tiles] L₀ = true)
  (h₀ : Touch L₀ s₀ s) : Touch L₀ s₀ (dropStrokes s p f) := by
  unfold dropStrokes
  try dsimp only
  repeat' first
    | with_reducible assumption
    | (with_reducible refine Field.sub_trans ?_ hL₀; decide)
    | intro _
    | with_reducible apply modTiles_touch
    | with_reducible apply Touch.ite
    | split

theorem beMember_touch {L : List Field} {r s t : State} {m : Member} (p num : Nat) (im : Image) (l : Nat) 
    (e : beMember s p num im l = some (m, t)) (hL : Field.sub [.parts] L = true) (h : Touch L r s) : Touch L r t := by
  unfold beMember at e
  split at e
  · exact absurd e (by simp)
  · simp only [Option.some.injEq, Prod.mk.injEq] at e
    rw [← e.2]
    exact putInst_touch _ _ hL h

theorem firstStart_touch {L₀ : List Field} {s₀ s : State} (p : Nat) (b : BeCmd) (im : Image) (hL₀ : Field.sub [.parts] L₀ = true)
  (h₀ : Touch L₀ s₀ s) : Touch L₀ s₀ (firstStart s p b im).1 := by
  unfold firstStart
  try dsimp only
  repeat' first
    | with_reducible assumption
    | (with_reducible refine Field.sub_trans ?_ hL₀; decide)
    | intro _
    | with_reducible refine beMember_touch _ _ _ _ (by with_reducible assumption) ?_ ?_
    | with_reducible apply Touch.ite_fst
    | with_reducible apply Touch.ite
    | split
    | (with_reducible apply Touch.of_fst; with_reducible assumption)
    | (with_reducible apply Touch.of_snd; with_reducible assumption)

theorem dropBe_touch {L₀ : List Field} {s₀ s : State} (r : Nat) (status : Nat) (cause : Nat) (hL₀ : Field.sub [.regs, .parts, .be, .ctxs, .rings, .journal, .waiting, .host, .mailbox, .mem, .blt] L₀ = true)
  (h₀ : Touch L₀ s₀ s) : Touch L₀ s₀ (dropBe s r status cause) := by
  unfold dropBe
  try dsimp only
  repeat' first
    | with_reducible assumption
    | (with_reducible refine Field.sub_trans ?_ hL₀; decide)
    | intro _
    | with_reducible apply staleOf_touch
    | with_reducible apply freeReleased_touch
    | with_reducible apply finishItem_touch
    | with_reducible apply setBe_touch
    | fail_if_no_progress (with_reducible refine Touch.updMem (Field.sub_trans (by decide) hL₀) ?_)
    | with_reducible apply Touch.ite
    | split
    | (with_reducible apply Touch.of_fst; with_reducible assumption)
    | (with_reducible apply Touch.of_snd; with_reducible assumption)

theorem execBeStart_touch (p : PartId) (s0 : State) : TouchR [.regs, .parts, .tiles, .be, .ctxs, .rings, .journal, .waiting, .host, .mailbox, .links, .mem, .blt, .anl, .assay] s0 (execBeStart p s0) := by
  have hL₀ : Field.sub [.regs, .parts, .tiles, .be, .ctxs, .rings, .journal, .waiting, .host, .mailbox, .links, .mem, .blt, .anl, .assay] [.regs, .parts, .tiles, .be, .ctxs, .rings, .journal, .waiting, .host, .mailbox, .links, .mem, .blt, .anl, .assay] = true := by decide
  have h₀ := Touch.refl [.regs, .parts, .tiles, .be, .ctxs, .rings, .journal, .waiting, .host, .mailbox, .links, .mem, .blt, .anl, .assay] s0
  unfold execBeStart
  try dsimp only
  repeat' first
    | with_reducible apply TouchR.next
    | with_reducible apply TouchR.ite
    | with_reducible assumption
    | (with_reducible refine Field.sub_trans ?_ hL₀; decide)
    | intro _
    | with_reducible apply rollCycle_touch
    | with_reducible apply dropBe_touch
    | with_reducible apply setBe_touch
    | with_reducible apply firstStart_touch
    | with_reducible apply rerunSpace_touch
    | with_reducible apply regSet_touch
    | with_reducible apply setPart_touch
    | with_reducible apply loadStrokes_touch
    | with_reducible apply dropStrokes_touch
    | with_reducible apply boundaryTiles_touch
    | with_reducible apply putCmd_touch
    | with_reducible apply startCommand_touch
    | with_reducible apply Touch.ite
    | split
    | (with_reducible apply Touch.of_fst; with_reducible assumption)
    | (with_reducible apply Touch.of_snd; with_reducible assumption)

theorem execWindowOpen_touch (p : PartId) (w : Fin 255) (s : State) : TouchR [.parts, .tiles, .be, .assay] s (execWindowOpen p w s) := by
  have hL₀ : Field.sub [.parts, .tiles, .be, .assay] [.parts, .tiles, .be, .assay] = true := by decide
  have h₀ := Touch.refl [.parts, .tiles, .be, .assay] s
  unfold execWindowOpen
  try dsimp only
  repeat' first
    | with_reducible apply TouchR.next
    | with_reducible apply TouchR.ite
    | with_reducible assumption
    | (with_reducible refine Field.sub_trans ?_ hL₀; decide)
    | intro _
    | with_reducible apply beginKill_touch
    | with_reducible apply setPart_touch
    | with_reducible apply Touch.ite
    | split
    | (with_reducible apply Touch.of_fst; with_reducible assumption)
    | (with_reducible apply Touch.of_snd; with_reducible assumption)

theorem execKillEnd_touch (p : PartId) (s : State) : TouchR [.regs, .parts, .tiles, .be, .ctxs, .rings, .journal, .waiting, .host, .mailbox, .links, .mem, .pwr, .blt, .anl, .assay] s (execKillEnd p s) := by
  have hL₀ : Field.sub [.regs, .parts, .tiles, .be, .ctxs, .rings, .journal, .waiting, .host, .mailbox, .links, .mem, .pwr, .blt, .anl, .assay] [.regs, .parts, .tiles, .be, .ctxs, .rings, .journal, .waiting, .host, .mailbox, .links, .mem, .pwr, .blt, .anl, .assay] = true := by decide
  have h₀ := Touch.refl [.regs, .parts, .tiles, .be, .ctxs, .rings, .journal, .waiting, .host, .mailbox, .links, .mem, .pwr, .blt, .anl, .assay] s
  unfold execKillEnd
  try dsimp only
  repeat' first
    | with_reducible apply TouchR.next
    | with_reducible apply TouchR.ite
    | with_reducible assumption
    | (with_reducible refine Field.sub_trans ?_ hL₀; decide)
    | intro _
    | with_reducible apply freeTiles_touch
    | with_reducible apply setPart_touch
    | with_reducible apply finishItem_touch
    | with_reducible apply freeReleased_touch
    | with_reducible apply gateQuads_touch
    | with_reducible apply startEntry_touch
    | fail_if_no_progress (with_reducible refine Touch.updWaiting (Field.sub_trans (by decide) hL₀) ?_)
    | with_reducible apply Touch.ite
    | with_reducible apply Touch.fold
    | split
    | (with_reducible apply Touch.of_fst; with_reducible assumption)
    | (with_reducible apply Touch.of_snd; with_reducible assumption)

theorem execKernelStart_touch (p : PartId) (s : State) : TouchR [.tiles, .be] s (execKernelStart p s) := by
  have hL₀ : Field.sub [.tiles, .be] [.tiles, .be] = true := by decide
  have h₀ := Touch.refl [.tiles, .be] s
  unfold execKernelStart
  try dsimp only
  repeat' first
    | with_reducible apply TouchR.next
    | with_reducible apply TouchR.ite
    | with_reducible assumption
    | (with_reducible refine Field.sub_trans ?_ hL₀; decide)
    | intro _
    | with_reducible apply modTiles_touch
    | with_reducible apply setBe_touch
    | with_reducible apply Touch.ite
    | split
    | (with_reducible apply Touch.of_fst; with_reducible assumption)
    | (with_reducible apply Touch.of_snd; with_reducible assumption)

theorem endModel_touch {L₀ : List Field} {s₀ s : State} (p : Nat) (r : Nat) (b : BeCmd) (im : Image) (l : Layers) (hL₀ : Field.sub [.regs, .parts, .tiles, .be, .ctxs, .rings, .journal, .waiting, .host, .mailbox, .links, .mem, .blt, .anl, .assay] L₀ = true)
  (h₀ : Touch L₀ s₀ s) : Touch L₀ s₀ (endModel s p r b im l) := by
  unfold endModel
  try dsimp only
  repeat' first
    | with_reducible assumption
    | (with_reducible refine Field.sub_trans ?_ hL₀; decide)
    | intro _
    | with_reducible apply breakBreach_touch
    | with_reducible apply breakTrap_touch
    | with_reducible apply breakFault_touch
    | with_reducible apply freeTiles_touch
    | with_reducible apply setBe_touch
    | with_reducible apply Touch.ite
    | split
    | (with_reducible apply Touch.of_fst; with_reducible assumption)
    | (with_reducible apply Touch.of_snd; with_reducible assumption)

theorem execKernelEnd_touch (p : PartId) (s : State) : TouchR [.regs, .parts, .tiles, .be, .ctxs, .rings, .journal, .waiting, .host, .mailbox, .links, .mem, .blt, .anl, .assay] s (execKernelEnd p s) := by
  have hL₀ : Field.sub [.regs, .parts, .tiles, .be, .ctxs, .rings, .journal, .waiting, .host, .mailbox, .links, .mem, .blt, .anl, .assay] [.regs, .parts, .tiles, .be, .ctxs, .rings, .journal, .waiting, .host, .mailbox, .links, .mem, .blt, .anl, .assay] = true := by decide
  have h₀ := Touch.refl [.regs, .parts, .tiles, .be, .ctxs, .rings, .journal, .waiting, .host, .mailbox, .links, .mem, .blt, .anl, .assay] s
  unfold execKernelEnd
  try dsimp only
  repeat' first
    | with_reducible apply TouchR.next
    | with_reducible apply TouchR.ite
    | with_reducible assumption
    | (with_reducible refine Field.sub_trans ?_ hL₀; decide)
    | intro _
    | with_reducible apply breakBreach_touch
    | with_reducible apply breakTrap_touch
    | with_reducible apply endModel_touch
    | with_reducible apply setBe_touch
    | with_reducible apply Touch.ite
    | split
    | (with_reducible apply Touch.of_fst; with_reducible assumption)
    | (with_reducible apply Touch.of_snd; with_reducible assumption)

theorem semStep_touch {L : List Field} {r s t : State} {b : Bool} (w : Word) (e : semStep s w = some (t, b))
    (hL : Field.sub [.regs] L = true) (h : Touch L r s) : Touch L r t := by
  unfold semStep at e
  dsimp only at e
  split at e
  · exact absurd e (by simp)
  · next s1 e1 =>
    have h1 : Touch L r s1 := by
      split at e1
      · split at e1
        · exact absurd e1 (by simp)
        · cases e1; exact semSet_touch _ _ hL h
      · cases e1; exact h
    split at e
    · split at e
      · cases e; exact h1
      · cases e; exact semSet_touch _ _ hL h1
    · cases e; exact h1

theorem commitSolve_touch {L₀ : List Field} {s₀ s : State} (p : Nat) (b : BeCmd) (im : Image) (ovf : Bool) (hL₀ : Field.sub [.regs, .parts, .be, .ctxs, .rings, .journal, .waiting, .host, .mailbox, .mem, .blt] L₀ = true)
  (h₀ : Touch L₀ s₀ s) : Touch L₀ s₀ (commitSolve s p b im ovf) := by
  unfold commitSolve
  try dsimp only
  repeat' first
    | with_reducible assumption
    | (with_reducible refine Field.sub_trans ?_ hL₀; decide)
    | intro _
    | with_reducible apply hostStore_touch
    | with_reducible apply putInst_touch
    | with_reducible apply pushCommits_touch
    | with_reducible apply completeBe_touch
    | with_reducible apply staleTargets_touch
    | with_reducible apply Touch.ite
    | split
    | (with_reducible apply Touch.of_fst; with_reducible assumption)
    | (with_reducible apply Touch.of_snd; with_reducible assumption)

theorem resultWords_touch {L : List Field} {r s : State} (c : ModelCfg) (l : Layers) (items : List (List Nat))
    (hL : Field.sub [.freeCtr] L = true) (h : Touch L r s) : Touch L r (resultWords s c l items).2.2 := by
  unfold resultWords
  dsimp only
  refine Touch.fold_by (fun x : List Word × List ClassRes × State => x.2.2) items h (fun t a ht => ?_)
  split
  · split
    · exact drawWord_touch hL (drawWord_touch hL ht)
    · exact ht
  · exact drawWord_touch hL (drawWord_touch hL ht)

theorem commitModel_touch {L₀ : List Field} {s₀ s : State} (p : Nat) (b : BeCmd) (im : Image) (ovf : Bool) (hL₀ : Field.sub [.freeCtr, .regs, .parts, .be, .ctxs, .rings, .journal, .waiting, .host, .mailbox, .mem, .blt] L₀ = true)
  (h₀ : Touch L₀ s₀ s) : Touch L₀ s₀ (commitModel s p b im ovf) := by
  unfold commitModel
  try dsimp only
  repeat' first
    | with_reducible assumption
    | (with_reducible refine Field.sub_trans ?_ hL₀; decide)
    | intro _
    | with_reducible apply completeBe_touch
    | with_reducible apply staleTargets_touch
    | with_reducible apply resultWords_touch
    | with_reducible apply hostStore_touch
    | with_reducible apply pushCommits_touch
    | with_reducible apply Touch.ite
    | split
    | (with_reducible apply Touch.of_fst; with_reducible assumption)
    | (with_reducible apply Touch.of_snd; with_reducible assumption)

theorem sendBulk_touch {L₀ : List Field} {s₀ s : State} (p : Nat) (r : Nat) (b : BeCmd) (im : Image) (hL₀ : Field.sub [.regs, .be, .links] L₀ = true)
  (h₀ : Touch L₀ s₀ s) : Touch L₀ s₀ (sendBulk s p r b im) := by
  unfold sendBulk
  try dsimp only
  repeat' first
    | with_reducible assumption
    | (with_reducible refine Field.sub_trans ?_ hL₀; decide)
    | intro _
    | with_reducible apply bulkHand_touch
    | with_reducible apply setBe_touch
    | with_reducible apply Touch.ite
    | split
    | (with_reducible apply Touch.of_fst; with_reducible assumption)
    | (with_reducible apply Touch.of_snd; with_reducible assumption)

theorem commitRing_touch {L₀ : List Field} {s₀ s : State} (p : Nat) (r : Nat) (b : BeCmd) (im : Image) (hL₀ : Field.sub [.freeCtr, .regs, .parts, .be, .ctxs, .rings, .journal, .waiting, .host, .mailbox, .links, .mem, .blt, .assay] L₀ = true)
  (h₀ : Touch L₀ s₀ s) : Touch L₀ s₀ (commitRing s p r b im) := by
  unfold commitRing
  try dsimp only
  repeat' first
    | with_reducible assumption
    | (with_reducible refine Field.sub_trans ?_ hL₀; decide)
    | intro _
    | with_reducible apply regSet_touch
    | with_reducible apply toRerun_touch
    | with_reducible apply bump_touch
    | with_reducible apply commitModel_touch
    | with_reducible apply commitSolve_touch
    | with_reducible apply sendBulk_touch
    | with_reducible refine semStep_touch _ (by with_reducible assumption) ?_ ?_
    | with_reducible apply Touch.ite
    | split
    | (with_reducible apply Touch.of_fst; with_reducible assumption)
    | (with_reducible apply Touch.of_snd; with_reducible assumption)

theorem execBeCommit_touch (p : PartId) (s : State) : TouchR [.freeCtr, .regs, .parts, .be, .ctxs, .rings, .journal, .waiting, .host, .mailbox, .links, .mem, .blt, .assay] s (execBeCommit p s) := by
  have hL₀ : Field.sub [.freeCtr, .regs, .parts, .be, .ctxs, .rings, .journal, .waiting, .host, .mailbox, .links, .mem, .blt, .assay] [.freeCtr, .regs, .parts, .be, .ctxs, .rings, .journal, .waiting, .host, .mailbox, .links, .mem, .blt, .assay] = true := by decide
  have h₀ := Touch.refl [.freeCtr, .regs, .parts, .be, .ctxs, .rings, .journal, .waiting, .host, .mailbox, .links, .mem, .blt, .assay] s
  unfold execBeCommit
  try dsimp only
  repeat' first
    | with_reducible apply TouchR.next
    | with_reducible apply TouchR.ite
    | with_reducible assumption
    | (with_reducible refine Field.sub_trans ?_ hL₀; decide)
    | intro _
    | with_reducible apply dropBe_touch
    | with_reducible apply commitRing_touch
    | with_reducible apply setBe_touch
    | with_reducible apply Touch.ite
    | split
    | (with_reducible apply Touch.of_fst; with_reducible assumption)
    | (with_reducible apply Touch.of_snd; with_reducible assumption)

theorem execBulkHandover_touch (p : PartId) (s : State) : TouchR [.freeCtr, .regs, .parts, .be, .ctxs, .rings, .journal, .waiting, .host, .mailbox, .links, .mem, .blt, .assay] s (execBulkHandover p s) := by
  have hL₀ : Field.sub [.freeCtr, .regs, .parts, .be, .ctxs, .rings, .journal, .waiting, .host, .mailbox, .links, .mem, .blt, .assay] [.freeCtr, .regs, .parts, .be, .ctxs, .rings, .journal, .waiting, .host, .mailbox, .links, .mem, .blt, .assay] = true := by decide
  have h₀ := Touch.refl [.freeCtr, .regs, .parts, .be, .ctxs, .rings, .journal, .waiting, .host, .mailbox, .links, .mem, .blt, .assay] s
  unfold execBulkHandover
  try dsimp only
  repeat' first
    | with_reducible apply TouchR.next
    | with_reducible apply TouchR.ite
    | with_reducible assumption
    | (with_reducible refine Field.sub_trans ?_ hL₀; decide)
    | intro _
    | with_reducible apply dropBe_touch
    | with_reducible apply completeBe_touch
    | with_reducible apply bulkHand_touch
    | with_reducible apply commitRing_touch
    | with_reducible apply Touch.ite
    | split
    | (with_reducible apply Touch.of_fst; with_reducible assumption)
    | (with_reducible apply Touch.of_snd; with_reducible assumption)

end Sys2Proof.Machine
end

