-- ==== Sys2Proof/Laws/TouchStrokes.lean ====
section
/-! SUPPORT. What each function of Machine/Strokes.lean may touch: its law in the sense of Laws/Frame.lean. -/

namespace Sys2Proof.Machine

theorem runSlot_touch {L₀ : List Field} {s₀ s : State} (t : Nat) (sl : Nat) (cls : Nat) (op : Nat) (eff : Issue → Option OpOut) (hL₀ : Field.sub [.tiles] L₀ = true)
  (h₀ : Touch L₀ s₀ s) : Touch L₀ s₀ (runSlot s t sl cls op eff) := by
  unfold runSlot
  try dsimp only
  repeat' first
    | with_reducible assumption
    | (with_reducible refine Field.sub_trans ?_ hL₀; decide)
    | intro _
    | with_reducible apply setTile_touch
    | with_reducible apply Touch.ite
    | split
    | (with_reducible apply Touch.of_fst; with_reducible assumption)
    | (with_reducible apply Touch.of_snd; with_reducible assumption)

theorem execStrokeNop_touch (t : TileId) (sl : StrokeSlot) (s : State) : TouchR [.tiles] s (execStrokeNop t sl s) := by
  have hL₀ : Field.sub [.tiles] [.tiles] = true := by decide
  have h₀ := Touch.refl [.tiles] s
  unfold execStrokeNop
  try dsimp only
  repeat' first
    | with_reducible apply TouchR.next
    | with_reducible assumption
    | (with_reducible refine Field.sub_trans ?_ hL₀; decide)
    | intro _
    | with_reducible apply setTile_touch
    | with_reducible apply Touch.ite
    | split
    | (with_reducible apply Touch.of_fst; with_reducible assumption)
    | (with_reducible apply Touch.of_snd; with_reducible assumption)

theorem captureReads_touch {L₀ : List Field} {s₀ s : State} (p : Nat) (im : Image) (c : Cmd) (w : Nat) (hL₀ : Field.sub [.tiles] L₀ = true)
  (h₀ : Touch L₀ s₀ s) : Touch L₀ s₀ (captureReads s p im c w) := by
  unfold captureReads
  try dsimp only
  repeat' first
    | with_reducible assumption
    | (with_reducible refine Field.sub_trans ?_ hL₀; decide)
    | intro _
    | with_reducible apply modTiles_touch
    | with_reducible apply Touch.ite
    | split
    | (with_reducible apply Touch.of_fst; with_reducible assumption)
    | (with_reducible apply Touch.of_snd; with_reducible assumption)

theorem applyWrite_touch {L₀ : List Field} {s₀ s : State} (p : Nat) (im : Image) (c : Cmd) (due : Nat) (w : WriteReq) (hL₀ : Field.sub [.parts, .tiles] L₀ = true)
  (h₀ : Touch L₀ s₀ s) : Touch L₀ s₀ (applyWrite p im c due s w) := by
  unfold applyWrite
  try dsimp only
  repeat' first
    | with_reducible assumption
    | (with_reducible refine Field.sub_trans ?_ hL₀; decide)
    | intro _
    | with_reducible apply setTile_touch
    | with_reducible apply captureReads_touch
    | with_reducible apply setSlot_touch
    | with_reducible apply putInst_touch
    | with_reducible apply Touch.ite
    | split
    | (with_reducible apply Touch.of_fst; with_reducible assumption)
    | (with_reducible apply Touch.of_snd; with_reducible assumption)

theorem execOpRetire_touch (t : TileId) (k : Fin 16) (s : State) : TouchR [.parts, .tiles, .be] s (execOpRetire t k s) := by
  have hL₀ : Field.sub [.parts, .tiles, .be] [.parts, .tiles, .be] = true := by decide
  have h₀ := Touch.refl [.parts, .tiles, .be] s
  unfold execOpRetire
  try dsimp only
  repeat' first
    | with_reducible apply TouchR.next
    | with_reducible apply TouchR.ite
    | with_reducible assumption
    | (with_reducible refine Field.sub_trans ?_ hL₀; decide)
    | intro _
    | intro _
    | with_reducible apply setTile_touch
    | with_reducible apply applyWrite_touch
    | with_reducible apply putCmd_touch
    | with_reducible apply Touch.ite
    | with_reducible apply Touch.fold
    | split
    | (with_reducible apply Touch.of_fst; with_reducible assumption)
    | (with_reducible apply Touch.of_snd; with_reducible assumption)

theorem execIdle_touch (t : TileId) (s : State) : TouchR [.tiles] s (execIdle t s) := by
  have hL₀ : Field.sub [.tiles] [.tiles] = true := by decide
  have h₀ := Touch.refl [.tiles] s
  unfold execIdle
  try dsimp only
  repeat' first
    | with_reducible apply TouchR.next
    | with_reducible assumption
    | (with_reducible refine Field.sub_trans ?_ hL₀; decide)
    | intro _
    | with_reducible apply setTile_touch
    | with_reducible apply Touch.ite
    | split
    | (with_reducible apply Touch.of_fst; with_reducible assumption)
    | (with_reducible apply Touch.of_snd; with_reducible assumption)

theorem execAccopen_touch (t : TileId) (s : State) : TouchR [.tiles] s (execAccopen t s) := by
  have hL₀ : Field.sub [.tiles] [.tiles] = true := by decide
  have h₀ := Touch.refl [.tiles] s
  unfold execAccopen
  try dsimp only
  repeat' first
    | with_reducible apply TouchR.next
    | with_reducible assumption
    | (with_reducible refine Field.sub_trans ?_ hL₀; decide)
    | intro _
    | with_reducible apply setTile_touch
    | with_reducible apply Touch.ite
    | split
    | (with_reducible apply Touch.of_fst; with_reducible assumption)
    | (with_reducible apply Touch.of_snd; with_reducible assumption)

theorem execFpbar_touch (t : TileId) (s : State) : TouchR [.regs, .parts, .tiles, .be, .ctxs, .rings, .journal, .waiting, .host, .mailbox, .links, .mem, .blt, .anl, .assay] s (execFpbar t s) := by
  have hL₀ : Field.sub [.regs, .parts, .tiles, .be, .ctxs, .rings, .journal, .waiting, .host, .mailbox, .links, .mem, .blt, .anl, .assay] [.regs, .parts, .tiles, .be, .ctxs, .rings, .journal, .waiting, .host, .mailbox, .links, .mem, .blt, .anl, .assay] = true := by decide
  have h₀ := Touch.refl [.regs, .parts, .tiles, .be, .ctxs, .rings, .journal, .waiting, .host, .mailbox, .links, .mem, .blt, .anl, .assay] s
  unfold execFpbar
  try dsimp only
  repeat' first
    | with_reducible apply TouchR.next
    | with_reducible apply TouchR.ite
    | with_reducible assumption
    | (with_reducible refine Field.sub_trans ?_ hL₀; decide)
    | intro _
    | with_reducible apply setTile_touch
    | with_reducible apply breakBreach_touch
    | with_reducible apply breakTrap_touch
    | with_reducible apply Touch.ite
    | split
    | (with_reducible apply Touch.of_fst; with_reducible assumption)
    | (with_reducible apply Touch.of_snd; with_reducible assumption)

theorem execLoop_touch (t : TileId) (s : State) : TouchR [.tiles] s (execLoop t s) := by
  have hL₀ : Field.sub [.tiles] [.tiles] = true := by decide
  have h₀ := Touch.refl [.tiles] s
  unfold execLoop
  try dsimp only
  repeat' first
    | with_reducible apply TouchR.next
    | with_reducible assumption
    | (with_reducible refine Field.sub_trans ?_ hL₀; decide)
    | intro _
    | with_reducible apply setTile_touch
    | with_reducible apply Touch.ite
    | split
    | (with_reducible apply Touch.of_fst; with_reducible assumption)
    | (with_reducible apply Touch.of_snd; with_reducible assumption)

theorem execFamcall_touch (t : TileId) (s : State) : TouchR [.regs, .parts, .tiles, .be, .ctxs, .rings, .journal, .waiting, .host, .mailbox, .links, .mem, .blt, .anl, .assay] s (execFamcall t s) := by
  have hL₀ : Field.sub [.regs, .parts, .tiles, .be, .ctxs, .rings, .journal, .waiting, .host, .mailbox, .links, .mem, .blt, .anl, .assay] [.regs, .parts, .tiles, .be, .ctxs, .rings, .journal, .waiting, .host, .mailbox, .links, .mem, .blt, .anl, .assay] = true := by decide
  have h₀ := Touch.refl [.regs, .parts, .tiles, .be, .ctxs, .rings, .journal, .waiting, .host, .mailbox, .links, .mem, .blt, .anl, .assay] s
  unfold execFamcall
  try dsimp only
  repeat' first
    | with_reducible apply TouchR.next
    | with_reducible apply TouchR.ite
    | with_reducible assumption
    | (with_reducible refine Field.sub_trans ?_ hL₀; decide)
    | intro _
    | with_reducible apply breakFault_touch
    | with_reducible apply setTile_touch
    | with_reducible apply Touch.ite
    | split
    | (with_reducible apply Touch.of_fst; with_reducible assumption)
    | (with_reducible apply Touch.of_snd; with_reducible assumption)

theorem execFamret_touch (t : TileId) (s : State) : TouchR [.tiles] s (execFamret t s) := by
  have hL₀ : Field.sub [.tiles] [.tiles] = true := by decide
  have h₀ := Touch.refl [.tiles] s
  unfold execFamret
  try dsimp only
  repeat' first
    | with_reducible apply TouchR.next
    | with_reducible assumption
    | (with_reducible refine Field.sub_trans ?_ hL₀; decide)
    | intro _
    | with_reducible apply setTile_touch
    | with_reducible apply Touch.ite
    | split
    | (with_reducible apply Touch.of_fst; with_reducible assumption)
    | (with_reducible apply Touch.of_snd; with_reducible assumption)

theorem execSegend_touch (t : TileId) (s : State) : TouchR [.tiles] s (execSegend t s) := by
  have hL₀ : Field.sub [.tiles] [.tiles] = true := by decide
  have h₀ := Touch.refl [.tiles] s
  unfold execSegend
  try dsimp only
  repeat' first
    | with_reducible apply TouchR.next
    | with_reducible apply TouchR.ite
    | with_reducible assumption
    | (with_reducible refine Field.sub_trans ?_ hL₀; decide)
    | intro _
    | with_reducible apply setTile_touch
    | with_reducible apply Touch.ite
    | split
    | (with_reducible apply Touch.of_fst; with_reducible assumption)
    | (with_reducible apply Touch.of_snd; with_reducible assumption)

end Sys2Proof.Machine
end

