-- ==== Sys2Proof/Laws/TouchTileOps.lean ====
section
/-! SUPPORT. What each function of Machine/TileOps.lean may touch: its law in the sense of Laws/Frame.lean. -/

namespace Sys2Proof.Machine

theorem execMac_touch (t : TileId) (sl : StrokeSlot) (s : State) : TouchR [.tiles] s (execMac t sl s) := by
  have hL₀ : Field.sub [.tiles] [.tiles] = true := by decide
  have h₀ := Touch.refl [.tiles] s
  unfold execMac
  try dsimp only
  repeat' first
    | with_reducible apply TouchR.next
    | with_reducible assumption
    | (with_reducible refine Field.sub_trans ?_ hL₀; decide)
    | with_reducible apply runSlot_touch
    | with_reducible apply Touch.ite

theorem execAccadd_touch (t : TileId) (sl : StrokeSlot) (s : State) : TouchR [.tiles] s (execAccadd t sl s) := by
  have hL₀ : Field.sub [.tiles] [.tiles] = true := by decide
  have h₀ := Touch.refl [.tiles] s
  unfold execAccadd
  try dsimp only
  repeat' first
    | with_reducible apply TouchR.next
    | with_reducible assumption
    | (with_reducible refine Field.sub_trans ?_ hL₀; decide)
    | with_reducible apply runSlot_touch
    | with_reducible apply Touch.ite

theorem execAccWb_touch (t : TileId) (sl : StrokeSlot) (s : State) : TouchR [.tiles] s (execAccWb t sl s) := by
  have hL₀ : Field.sub [.tiles] [.tiles] = true := by decide
  have h₀ := Touch.refl [.tiles] s
  unfold execAccWb
  try dsimp only
  repeat' first
    | with_reducible apply TouchR.next
    | with_reducible assumption
    | (with_reducible refine Field.sub_trans ?_ hL₀; decide)
    | with_reducible apply runSlot_touch
    | with_reducible apply Touch.ite

theorem execTmac_touch (t : TileId) (sl : StrokeSlot) (s : State) : TouchR [.tiles] s (execTmac t sl s) := by
  have hL₀ : Field.sub [.tiles] [.tiles] = true := by decide
  have h₀ := Touch.refl [.tiles] s
  unfold execTmac
  try dsimp only
  repeat' first
    | with_reducible apply TouchR.next
    | with_reducible assumption
    | (with_reducible refine Field.sub_trans ?_ hL₀; decide)
    | with_reducible apply runSlot_touch
    | with_reducible apply Touch.ite

theorem execTwb_touch (t : TileId) (sl : StrokeSlot) (s : State) : TouchR [.tiles] s (execTwb t sl s) := by
  have hL₀ : Field.sub [.tiles] [.tiles] = true := by decide
  have h₀ := Touch.refl [.tiles] s
  unfold execTwb
  try dsimp only
  repeat' first
    | with_reducible apply TouchR.next
    | with_reducible assumption
    | (with_reducible refine Field.sub_trans ?_ hL₀; decide)
    | with_reducible apply runSlot_touch
    | with_reducible apply Touch.ite

theorem execMwadd_touch (t : TileId) (sl : StrokeSlot) (s : State) : TouchR [.tiles] s (execMwadd t sl s) := by
  have hL₀ : Field.sub [.tiles] [.tiles] = true := by decide
  have h₀ := Touch.refl [.tiles] s
  unfold execMwadd
  try dsimp only
  repeat' first
    | with_reducible apply TouchR.next
    | with_reducible assumption
    | (with_reducible refine Field.sub_trans ?_ hL₀; decide)
    | with_reducible apply runSlot_touch
    | with_reducible apply Touch.ite

theorem execMwsub_touch (t : TileId) (sl : StrokeSlot) (s : State) : TouchR [.tiles] s (execMwsub t sl s) := by
  have hL₀ : Field.sub [.tiles] [.tiles] = true := by decide
  have h₀ := Touch.refl [.tiles] s
  unfold execMwsub
  try dsimp only
  repeat' first
    | with_reducible apply TouchR.next
    | with_reducible assumption
    | (with_reducible refine Field.sub_trans ?_ hL₀; decide)
    | with_reducible apply runSlot_touch
    | with_reducible apply Touch.ite

theorem execMwmul_touch (t : TileId) (sl : StrokeSlot) (s : State) : TouchR [.tiles] s (execMwmul t sl s) := by
  have hL₀ : Field.sub [.tiles] [.tiles] = true := by decide
  have h₀ := Touch.refl [.tiles] s
  unfold execMwmul
  try dsimp only
  repeat' first
    | with_reducible apply TouchR.next
    | with_reducible assumption
    | (with_reducible refine Field.sub_trans ?_ hL₀; decide)
    | with_reducible apply runSlot_touch
    | with_reducible apply Touch.ite

theorem execMwext_touch (t : TileId) (sl : StrokeSlot) (s : State) : TouchR [.tiles] s (execMwext t sl s) := by
  have hL₀ : Field.sub [.tiles] [.tiles] = true := by decide
  have h₀ := Touch.refl [.tiles] s
  unfold execMwext
  try dsimp only
  repeat' first
    | with_reducible apply TouchR.next
    | with_reducible assumption
    | (with_reducible refine Field.sub_trans ?_ hL₀; decide)
    | with_reducible apply runSlot_touch
    | with_reducible apply Touch.ite

theorem execMwnarrow_touch (t : TileId) (sl : StrokeSlot) (s : State) : TouchR [.tiles] s (execMwnarrow t sl s) := by
  have hL₀ : Field.sub [.tiles] [.tiles] = true := by decide
  have h₀ := Touch.refl [.tiles] s
  unfold execMwnarrow
  try dsimp only
  repeat' first
    | with_reducible apply TouchR.next
    | with_reducible assumption
    | (with_reducible refine Field.sub_trans ?_ hL₀; decide)
    | with_reducible apply runSlot_touch
    | with_reducible apply Touch.ite

theorem execFadd_touch (t : TileId) (sl : StrokeSlot) (s : State) : TouchR [.tiles] s (execFadd t sl s) := by
  have hL₀ : Field.sub [.tiles] [.tiles] = true := by decide
  have h₀ := Touch.refl [.tiles] s
  unfold execFadd
  try dsimp only
  repeat' first
    | with_reducible apply TouchR.next
    | with_reducible assumption
    | (with_reducible refine Field.sub_trans ?_ hL₀; decide)
    | with_reducible apply runSlot_touch
    | with_reducible apply Touch.ite

theorem execFsub_touch (t : TileId) (sl : StrokeSlot) (s : State) : TouchR [.tiles] s (execFsub t sl s) := by
  have hL₀ : Field.sub [.tiles] [.tiles] = true := by decide
  have h₀ := Touch.refl [.tiles] s
  unfold execFsub
  try dsimp only
  repeat' first
    | with_reducible apply TouchR.next
    | with_reducible assumption
    | (with_reducible refine Field.sub_trans ?_ hL₀; decide)
    | with_reducible apply runSlot_touch
    | with_reducible apply Touch.ite

theorem execFmul_touch (t : TileId) (sl : StrokeSlot) (s : State) : TouchR [.tiles] s (execFmul t sl s) := by
  have hL₀ : Field.sub [.tiles] [.tiles] = true := by decide
  have h₀ := Touch.refl [.tiles] s
  unfold execFmul
  try dsimp only
  repeat' first
    | with_reducible apply TouchR.next
    | with_reducible assumption
    | (with_reducible refine Field.sub_trans ?_ hL₀; decide)
    | with_reducible apply runSlot_touch
    | with_reducible apply Touch.ite

theorem execFma_touch (t : TileId) (sl : StrokeSlot) (s : State) : TouchR [.tiles] s (execFma t sl s) := by
  have hL₀ : Field.sub [.tiles] [.tiles] = true := by decide
  have h₀ := Touch.refl [.tiles] s
  unfold execFma
  try dsimp only
  repeat' first
    | with_reducible apply TouchR.next
    | with_reducible assumption
    | (with_reducible refine Field.sub_trans ?_ hL₀; decide)
    | with_reducible apply runSlot_touch
    | with_reducible apply Touch.ite

theorem execMin_touch (t : TileId) (sl : StrokeSlot) (s : State) : TouchR [.tiles] s (execMin t sl s) := by
  have hL₀ : Field.sub [.tiles] [.tiles] = true := by decide
  have h₀ := Touch.refl [.tiles] s
  unfold execMin
  try dsimp only
  repeat' first
    | with_reducible apply TouchR.next
    | with_reducible assumption
    | (with_reducible refine Field.sub_trans ?_ hL₀; decide)
    | with_reducible apply runSlot_touch
    | with_reducible apply Touch.ite

theorem execMax_touch (t : TileId) (sl : StrokeSlot) (s : State) : TouchR [.tiles] s (execMax t sl s) := by
  have hL₀ : Field.sub [.tiles] [.tiles] = true := by decide
  have h₀ := Touch.refl [.tiles] s
  unfold execMax
  try dsimp only
  repeat' first
    | with_reducible apply TouchR.next
    | with_reducible assumption
    | (with_reducible refine Field.sub_trans ?_ hL₀; decide)
    | with_reducible apply runSlot_touch
    | with_reducible apply Touch.ite

theorem execCmpeq_touch (t : TileId) (sl : StrokeSlot) (s : State) : TouchR [.tiles] s (execCmpeq t sl s) := by
  have hL₀ : Field.sub [.tiles] [.tiles] = true := by decide
  have h₀ := Touch.refl [.tiles] s
  unfold execCmpeq
  try dsimp only
  repeat' first
    | with_reducible apply TouchR.next
    | with_reducible assumption
    | (with_reducible refine Field.sub_trans ?_ hL₀; decide)
    | with_reducible apply runSlot_touch
    | with_reducible apply Touch.ite

theorem execCmplt_touch (t : TileId) (sl : StrokeSlot) (s : State) : TouchR [.tiles] s (execCmplt t sl s) := by
  have hL₀ : Field.sub [.tiles] [.tiles] = true := by decide
  have h₀ := Touch.refl [.tiles] s
  unfold execCmplt
  try dsimp only
  repeat' first
    | with_reducible apply TouchR.next
    | with_reducible assumption
    | (with_reducible refine Field.sub_trans ?_ hL₀; decide)
    | with_reducible apply runSlot_touch
    | with_reducible apply Touch.ite

theorem execCmple_touch (t : TileId) (sl : StrokeSlot) (s : State) : TouchR [.tiles] s (execCmple t sl s) := by
  have hL₀ : Field.sub [.tiles] [.tiles] = true := by decide
  have h₀ := Touch.refl [.tiles] s
  unfold execCmple
  try dsimp only
  repeat' first
    | with_reducible apply TouchR.next
    | with_reducible assumption
    | (with_reducible refine Field.sub_trans ?_ hL₀; decide)
    | with_reducible apply runSlot_touch
    | with_reducible apply Touch.ite

theorem execCvt_touch (t : TileId) (sl : StrokeSlot) (s : State) : TouchR [.tiles] s (execCvt t sl s) := by
  have hL₀ : Field.sub [.tiles] [.tiles] = true := by decide
  have h₀ := Touch.refl [.tiles] s
  unfold execCvt
  try dsimp only
  repeat' first
    | with_reducible apply TouchR.next
    | with_reducible assumption
    | (with_reducible refine Field.sub_trans ?_ hL₀; decide)
    | with_reducible apply runSlot_touch
    | with_reducible apply Touch.ite

theorem execRecip_touch (t : TileId) (sl : StrokeSlot) (s : State) : TouchR [.tiles] s (execRecip t sl s) := by
  have hL₀ : Field.sub [.tiles] [.tiles] = true := by decide
  have h₀ := Touch.refl [.tiles] s
  unfold execRecip
  try dsimp only
  repeat' first
    | with_reducible apply TouchR.next
    | with_reducible assumption
    | (with_reducible refine Field.sub_trans ?_ hL₀; decide)
    | with_reducible apply runSlot_touch
    | with_reducible apply Touch.ite

theorem execRsqrt_touch (t : TileId) (sl : StrokeSlot) (s : State) : TouchR [.tiles] s (execRsqrt t sl s) := by
  have hL₀ : Field.sub [.tiles] [.tiles] = true := by decide
  have h₀ := Touch.refl [.tiles] s
  unfold execRsqrt
  try dsimp only
  repeat' first
    | with_reducible apply TouchR.next
    | with_reducible assumption
    | (with_reducible refine Field.sub_trans ?_ hL₀; decide)
    | with_reducible apply runSlot_touch
    | with_reducible apply Touch.ite

theorem execDiv_touch (t : TileId) (sl : StrokeSlot) (s : State) : TouchR [.tiles] s (execDiv t sl s) := by
  have hL₀ : Field.sub [.tiles] [.tiles] = true := by decide
  have h₀ := Touch.refl [.tiles] s
  unfold execDiv
  try dsimp only
  repeat' first
    | with_reducible apply TouchR.next
    | with_reducible assumption
    | (with_reducible refine Field.sub_trans ?_ hL₀; decide)
    | with_reducible apply runSlot_touch
    | with_reducible apply Touch.ite

theorem execCxfer_touch (t : TileId) (sl : StrokeSlot) (s : State) : TouchR [.tiles] s (execCxfer t sl s) := by
  have hL₀ : Field.sub [.tiles] [.tiles] = true := by decide
  have h₀ := Touch.refl [.tiles] s
  unfold execCxfer
  try dsimp only
  repeat' first
    | with_reducible apply TouchR.next
    | with_reducible assumption
    | (with_reducible refine Field.sub_trans ?_ hL₀; decide)
    | with_reducible apply runSlot_touch
    | with_reducible apply Touch.ite

theorem execLcopy_touch (t : TileId) (sl : StrokeSlot) (s : State) : TouchR [.tiles] s (execLcopy t sl s) := by
  have hL₀ : Field.sub [.tiles] [.tiles] = true := by decide
  have h₀ := Touch.refl [.tiles] s
  unfold execLcopy
  try dsimp only
  repeat' first
    | with_reducible apply TouchR.next
    | with_reducible assumption
    | (with_reducible refine Field.sub_trans ?_ hL₀; decide)
    | with_reducible apply runSlot_touch
    | with_reducible apply Touch.ite

theorem execDmard_touch (t : TileId) (sl : StrokeSlot) (s : State) : TouchR [.tiles] s (execDmard t sl s) := by
  have hL₀ : Field.sub [.tiles] [.tiles] = true := by decide
  have h₀ := Touch.refl [.tiles] s
  unfold execDmard
  try dsimp only
  repeat' first
    | with_reducible apply TouchR.next
    | with_reducible assumption
    | (with_reducible refine Field.sub_trans ?_ hL₀; decide)
    | with_reducible apply runSlot_touch
    | with_reducible apply Touch.ite

theorem execDmawr_touch (t : TileId) (sl : StrokeSlot) (s : State) : TouchR [.tiles] s (execDmawr t sl s) := by
  have hL₀ : Field.sub [.tiles] [.tiles] = true := by decide
  have h₀ := Touch.refl [.tiles] s
  unfold execDmawr
  try dsimp only
  repeat' first
    | with_reducible apply TouchR.next
    | with_reducible assumption
    | (with_reducible refine Field.sub_trans ?_ hL₀; decide)
    | with_reducible apply runSlot_touch
    | with_reducible apply Touch.ite

theorem execPkt_touch (t : TileId) (sl : StrokeSlot) (s : State) : TouchR [.tiles] s (execPkt t sl s) := by
  have hL₀ : Field.sub [.tiles] [.tiles] = true := by decide
  have h₀ := Touch.refl [.tiles] s
  unfold execPkt
  try dsimp only
  repeat' first
    | with_reducible apply TouchR.next
    | with_reducible assumption
    | (with_reducible refine Field.sub_trans ?_ hL₀; decide)
    | with_reducible apply runSlot_touch
    | with_reducible apply Touch.ite

end Sys2Proof.Machine
end

