-- ==== Sys2Proof/Laws/TouchPackets.lean ====
section
/-! SUPPORT. What each function of Machine/Packets.lean may touch: its law in the sense of Laws/Frame.lean. -/

namespace Sys2Proof.Machine

theorem moveFlit_touch {L₀ : List Field} {s₀ s : State} (m : FlitMove) (hL₀ : Field.sub [.tiles] L₀ = true)
  (h₀ : Touch L₀ s₀ s) : Touch L₀ s₀ (moveFlit s m) := by
  unfold moveFlit
  try dsimp only
  repeat' first
    | with_reducible assumption
    | (with_reducible refine Field.sub_trans ?_ hL₀; decide)
    | intro _
    | with_reducible apply setTile_touch
    | with_reducible apply Touch.ite
    | split
    | (with_reducible apply Touch.of_fst; with_reducible assumption)
    | (with_reducible apply Touch.of_snd; with_reducible assumption)

theorem injectFlit_touch {L₀ : List Field} {s₀ s : State} (e : Nat × Flit) (hL₀ : Field.sub [.tiles] L₀ = true)
  (h₀ : Touch L₀ s₀ s) : Touch L₀ s₀ (injectFlit s e) := by
  unfold injectFlit
  try dsimp only
  repeat' first
    | with_reducible assumption
    | (with_reducible refine Field.sub_trans ?_ hL₀; decide)
    | with_reducible apply setTile_touch
    | with_reducible apply Touch.ite

theorem stepRouters_touch {L₀ : List Field} {s₀ s : State} (x : Part) (im : Image) (c : Nat) (hL₀ : Field.sub [.tiles] L₀ = true)
  (h₀ : Touch L₀ s₀ s) : Touch L₀ s₀ (stepRouters s x im c) := by
  unfold stepRouters
  try dsimp only
  repeat' first
    | with_reducible assumption
    | (with_reducible refine Field.sub_trans ?_ hL₀; decide)
    | intro _
    | with_reducible apply injectFlit_touch
    | with_reducible apply moveFlit_touch
    | with_reducible apply Touch.ite
    | with_reducible apply Touch.fold
    | split

theorem execPacketBankWrite_touch (t : TileId) (s : State) : TouchR [.tiles] s (execPacketBankWrite t s) := by
  have hL₀ : Field.sub [.tiles] [.tiles] = true := by decide
  have h₀ := Touch.refl [.tiles] s
  unfold execPacketBankWrite
  try dsimp only
  repeat' first
    | with_reducible apply TouchR.next
    | with_reducible assumption
    | (with_reducible refine Field.sub_trans ?_ hL₀; decide)
    | intro _
    | with_reducible apply stepRouters_touch
    | with_reducible apply setTile_touch
    | with_reducible apply Touch.ite
    | split
    | (with_reducible apply Touch.of_fst; with_reducible assumption)
    | (with_reducible apply Touch.of_snd; with_reducible assumption)

end Sys2Proof.Machine
end

