-- ==== Sys2Proof/Laws/Packets.lean ====
section
/-! SUPPORT. What an arrival at a tile, and a hop of a flit, do (R144, R156). -/

namespace Sys2Proof.Machine

/-- Where the first arrival waits for its bank nothing of the tile changes. -/
theorem writeArrival_busy (u : Tile) (busy : Nat → Nat → Bool) (d a : Nat) (bs : List Byte) (rest : List Flit)
    (h : u.inbox = .data d a bs :: rest) (hb : busy a bs.length = true) : u.writeArrival busy = u := by
  simp [Tile.writeArrival, h, hb]

/-- Where its bank is free it is written, and leaves the local input buffer. -/
theorem writeArrival_free (u : Tile) (busy : Nat → Nat → Bool) (d a : Nat) (bs : List Byte) (rest : List Flit)
    (h : u.inbox = .data d a bs :: rest) (hb : busy a bs.length = false) :
    u.writeArrival busy = { u.store a bs with inbox := rest } := by
  simp [Tile.writeArrival, h, hb]

/-- A flit has no hop left exactly at its destination, for tiles of the fabric's 15 columns. -/
theorem packetHop_none (t d : Nat) : packetHop t d = none ↔ t = d := by
  unfold packetHop
  constructor
  · intro h
    split at h; · cases h
    split at h; · cases h
    split at h; · cases h
    split at h; · cases h
    omega
  · rintro rfl; simp

/-- Every hop brings the flit nearer: one column along its row, then one row along its destination's column. -/
theorem packetHop_nearer (t d port n inp : Nat) (h : packetHop t d = some (port, n, inp)) :
    (n / 15 = t / 15 ∧ (if t % 15 < d % 15 then n % 15 = t % 15 + 1 else n % 15 + 1 = t % 15))
      ∨ (t % 15 = d % 15 ∧ n % 15 = d % 15 ∧ (if t / 15 < d / 15 then n / 15 = t / 15 + 1 else n / 15 + 1 = t / 15)) := by
  unfold packetHop at h
  split at h
  · simp at h; left; split <;> omega
  split at h
  · simp at h; left; split <;> omega
  split at h
  · simp at h; right; refine ⟨by omega, ?_, ?_⟩ <;> [skip; split] <;> omega
  split at h
  · simp at h; right; refine ⟨by omega, ?_, ?_⟩ <;> [skip; split] <;> omega
  · cases h

end Sys2Proof.Machine
end

