-- ==== Sys2Proof/Laws/State.lean ====
section
/-! SUPPORT. Reading a field after one of the model's updates: one lemma per field and update, true by rfl, and the read after a
write of each table. -/

namespace Sys2Proof.Machine

-- setPart

@[simp] theorem setPart_pending (s : State) (p : Nat) (x : Part) : (setPart s p x).pending = s.pending := rfl
@[simp] theorem setPart_freeCtr (s : State) (p : Nat) (x : Part) : (setPart s p x).freeCtr = s.freeCtr := rfl
@[simp] theorem setPart_lt (s : State) (p : Nat) (x : Part) : (setPart s p x).lt = s.lt := rfl
@[simp] theorem setPart_regs (s : State) (p : Nat) (x : Part) : (setPart s p x).regs = s.regs := rfl
@[simp] theorem setPart_latch64 (s : State) (p : Nat) (x : Part) : (setPart s p x).latch64 = s.latch64 := rfl
@[simp] theorem setPart_tiles (s : State) (p : Nat) (x : Part) : (setPart s p x).tiles = s.tiles := rfl
@[simp] theorem setPart_be (s : State) (p : Nat) (x : Part) : (setPart s p x).be = s.be := rfl
@[simp] theorem setPart_ctxs (s : State) (p : Nat) (x : Part) : (setPart s p x).ctxs = s.ctxs := rfl
@[simp] theorem setPart_rings (s : State) (p : Nat) (x : Part) : (setPart s p x).rings = s.rings := rfl
@[simp] theorem setPart_journal (s : State) (p : Nat) (x : Part) : (setPart s p x).journal = s.journal := rfl
@[simp] theorem setPart_waiting (s : State) (p : Nat) (x : Part) : (setPart s p x).waiting = s.waiting := rfl
@[simp] theorem setPart_serveNext (s : State) (p : Nat) (x : Part) : (setPart s p x).serveNext = s.serveNext := rfl
@[simp] theorem setPart_host (s : State) (p : Nat) (x : Part) : (setPart s p x).host = s.host := rfl
@[simp] theorem setPart_mailbox (s : State) (p : Nat) (x : Part) : (setPart s p x).mailbox = s.mailbox := rfl
@[simp] theorem setPart_bme (s : State) (p : Nat) (x : Part) : (setPart s p x).bme = s.bme := rfl
@[simp] theorem setPart_nibs (s : State) (p : Nat) (x : Part) : (setPart s p x).nibs = s.nibs := rfl
@[simp] theorem setPart_links (s : State) (p : Nat) (x : Part) : (setPart s p x).links = s.links := rfl
@[simp] theorem setPart_dports (s : State) (p : Nat) (x : Part) : (setPart s p x).dports = s.dports := rfl
@[simp] theorem setPart_eths (s : State) (p : Nat) (x : Part) : (setPart s p x).eths = s.eths := rfl
@[simp] theorem setPart_partners (s : State) (p : Nat) (x : Part) : (setPart s p x).partners = s.partners := rfl
@[simp] theorem setPart_tu (s : State) (p : Nat) (x : Part) : (setPart s p x).tu = s.tu := rfl
@[simp] theorem setPart_mem (s : State) (p : Nat) (x : Part) : (setPart s p x).mem = s.mem := rfl
@[simp] theorem setPart_rst (s : State) (p : Nat) (x : Part) : (setPart s p x).rst = s.rst := rfl
@[simp] theorem setPart_pwr (s : State) (p : Nat) (x : Part) : (setPart s p x).pwr = s.pwr := rfl
@[simp] theorem setPart_fuse (s : State) (p : Nat) (x : Part) : (setPart s p x).fuse = s.fuse := rfl
@[simp] theorem setPart_flash (s : State) (p : Nat) (x : Part) : (setPart s p x).flash = s.flash := rfl
@[simp] theorem setPart_hmk (s : State) (p : Nat) (x : Part) : (setPart s p x).hmk = s.hmk := rfl
@[simp] theorem setPart_blt (s : State) (p : Nat) (x : Part) : (setPart s p x).blt = s.blt := rfl
@[simp] theorem setPart_anl (s : State) (p : Nat) (x : Part) : (setPart s p x).anl = s.anl := rfl
@[simp] theorem setPart_assay (s : State) (p : Nat) (x : Part) : (setPart s p x).assay = s.assay := rfl

-- setTile

@[simp] theorem setTile_pending (s : State) (t : Nat) (x : Tile) : (setTile s t x).pending = s.pending := rfl
@[simp] theorem setTile_freeCtr (s : State) (t : Nat) (x : Tile) : (setTile s t x).freeCtr = s.freeCtr := rfl
@[simp] theorem setTile_lt (s : State) (t : Nat) (x : Tile) : (setTile s t x).lt = s.lt := rfl
@[simp] theorem setTile_regs (s : State) (t : Nat) (x : Tile) : (setTile s t x).regs = s.regs := rfl
@[simp] theorem setTile_latch64 (s : State) (t : Nat) (x : Tile) : (setTile s t x).latch64 = s.latch64 := rfl
@[simp] theorem setTile_parts (s : State) (t : Nat) (x : Tile) : (setTile s t x).parts = s.parts := rfl
@[simp] theorem setTile_be (s : State) (t : Nat) (x : Tile) : (setTile s t x).be = s.be := rfl
@[simp] theorem setTile_ctxs (s : State) (t : Nat) (x : Tile) : (setTile s t x).ctxs = s.ctxs := rfl
@[simp] theorem setTile_rings (s : State) (t : Nat) (x : Tile) : (setTile s t x).rings = s.rings := rfl
@[simp] theorem setTile_journal (s : State) (t : Nat) (x : Tile) : (setTile s t x).journal = s.journal := rfl
@[simp] theorem setTile_waiting (s : State) (t : Nat) (x : Tile) : (setTile s t x).waiting = s.waiting := rfl
@[simp] theorem setTile_serveNext (s : State) (t : Nat) (x : Tile) : (setTile s t x).serveNext = s.serveNext := rfl
@[simp] theorem setTile_host (s : State) (t : Nat) (x : Tile) : (setTile s t x).host = s.host := rfl
@[simp] theorem setTile_mailbox (s : State) (t : Nat) (x : Tile) : (setTile s t x).mailbox = s.mailbox := rfl
@[simp] theorem setTile_bme (s : State) (t : Nat) (x : Tile) : (setTile s t x).bme = s.bme := rfl
@[simp] theorem setTile_nibs (s : State) (t : Nat) (x : Tile) : (setTile s t x).nibs = s.nibs := rfl
@[simp] theorem setTile_links (s : State) (t : Nat) (x : Tile) : (setTile s t x).links = s.links := rfl
@[simp] theorem setTile_dports (s : State) (t : Nat) (x : Tile) : (setTile s t x).dports = s.dports := rfl
@[simp] theorem setTile_eths (s : State) (t : Nat) (x : Tile) : (setTile s t x).eths = s.eths := rfl
@[simp] theorem setTile_partners (s : State) (t : Nat) (x : Tile) : (setTile s t x).partners = s.partners := rfl
@[simp] theorem setTile_tu (s : State) (t : Nat) (x : Tile) : (setTile s t x).tu = s.tu := rfl
@[simp] theorem setTile_mem (s : State) (t : Nat) (x : Tile) : (setTile s t x).mem = s.mem := rfl
@[simp] theorem setTile_rst (s : State) (t : Nat) (x : Tile) : (setTile s t x).rst = s.rst := rfl
@[simp] theorem setTile_pwr (s : State) (t : Nat) (x : Tile) : (setTile s t x).pwr = s.pwr := rfl
@[simp] theorem setTile_fuse (s : State) (t : Nat) (x : Tile) : (setTile s t x).fuse = s.fuse := rfl
@[simp] theorem setTile_flash (s : State) (t : Nat) (x : Tile) : (setTile s t x).flash = s.flash := rfl
@[simp] theorem setTile_hmk (s : State) (t : Nat) (x : Tile) : (setTile s t x).hmk = s.hmk := rfl
@[simp] theorem setTile_blt (s : State) (t : Nat) (x : Tile) : (setTile s t x).blt = s.blt := rfl
@[simp] theorem setTile_anl (s : State) (t : Nat) (x : Tile) : (setTile s t x).anl = s.anl := rfl
@[simp] theorem setTile_assay (s : State) (t : Nat) (x : Tile) : (setTile s t x).assay = s.assay := rfl

-- setCtx

@[simp] theorem setCtx_pending (s : State) (c : Nat) (x : Ctx) : (setCtx s c x).pending = s.pending := rfl
@[simp] theorem setCtx_freeCtr (s : State) (c : Nat) (x : Ctx) : (setCtx s c x).freeCtr = s.freeCtr := rfl
@[simp] theorem setCtx_lt (s : State) (c : Nat) (x : Ctx) : (setCtx s c x).lt = s.lt := rfl
@[simp] theorem setCtx_regs (s : State) (c : Nat) (x : Ctx) : (setCtx s c x).regs = s.regs := rfl
@[simp] theorem setCtx_latch64 (s : State) (c : Nat) (x : Ctx) : (setCtx s c x).latch64 = s.latch64 := rfl
@[simp] theorem setCtx_parts (s : State) (c : Nat) (x : Ctx) : (setCtx s c x).parts = s.parts := rfl
@[simp] theorem setCtx_tiles (s : State) (c : Nat) (x : Ctx) : (setCtx s c x).tiles = s.tiles := rfl
@[simp] theorem setCtx_be (s : State) (c : Nat) (x : Ctx) : (setCtx s c x).be = s.be := rfl
@[simp] theorem setCtx_rings (s : State) (c : Nat) (x : Ctx) : (setCtx s c x).rings = s.rings := rfl
@[simp] theorem setCtx_journal (s : State) (c : Nat) (x : Ctx) : (setCtx s c x).journal = s.journal := rfl
@[simp] theorem setCtx_waiting (s : State) (c : Nat) (x : Ctx) : (setCtx s c x).waiting = s.waiting := rfl
@[simp] theorem setCtx_serveNext (s : State) (c : Nat) (x : Ctx) : (setCtx s c x).serveNext = s.serveNext := rfl
@[simp] theorem setCtx_host (s : State) (c : Nat) (x : Ctx) : (setCtx s c x).host = s.host := rfl
@[simp] theorem setCtx_mailbox (s : State) (c : Nat) (x : Ctx) : (setCtx s c x).mailbox = s.mailbox := rfl
@[simp] theorem setCtx_bme (s : State) (c : Nat) (x : Ctx) : (setCtx s c x).bme = s.bme := rfl
@[simp] theorem setCtx_nibs (s : State) (c : Nat) (x : Ctx) : (setCtx s c x).nibs = s.nibs := rfl
@[simp] theorem setCtx_links (s : State) (c : Nat) (x : Ctx) : (setCtx s c x).links = s.links := rfl
@[simp] theorem setCtx_dports (s : State) (c : Nat) (x : Ctx) : (setCtx s c x).dports = s.dports := rfl
@[simp] theorem setCtx_eths (s : State) (c : Nat) (x : Ctx) : (setCtx s c x).eths = s.eths := rfl
@[simp] theorem setCtx_partners (s : State) (c : Nat) (x : Ctx) : (setCtx s c x).partners = s.partners := rfl
@[simp] theorem setCtx_tu (s : State) (c : Nat) (x : Ctx) : (setCtx s c x).tu = s.tu := rfl
@[simp] theorem setCtx_mem (s : State) (c : Nat) (x : Ctx) : (setCtx s c x).mem = s.mem := rfl
@[simp] theorem setCtx_rst (s : State) (c : Nat) (x : Ctx) : (setCtx s c x).rst = s.rst := rfl
@[simp] theorem setCtx_pwr (s : State) (c : Nat) (x : Ctx) : (setCtx s c x).pwr = s.pwr := rfl
@[simp] theorem setCtx_fuse (s : State) (c : Nat) (x : Ctx) : (setCtx s c x).fuse = s.fuse := rfl
@[simp] theorem setCtx_flash (s : State) (c : Nat) (x : Ctx) : (setCtx s c x).flash = s.flash := rfl
@[simp] theorem setCtx_hmk (s : State) (c : Nat) (x : Ctx) : (setCtx s c x).hmk = s.hmk := rfl
@[simp] theorem setCtx_blt (s : State) (c : Nat) (x : Ctx) : (setCtx s c x).blt = s.blt := rfl
@[simp] theorem setCtx_anl (s : State) (c : Nat) (x : Ctx) : (setCtx s c x).anl = s.anl := rfl
@[simp] theorem setCtx_assay (s : State) (c : Nat) (x : Ctx) : (setCtx s c x).assay = s.assay := rfl

-- setRing

@[simp] theorem setRing_pending (s : State) (c r : Nat) (x : Ring) : (setRing s c r x).pending = s.pending := rfl
@[simp] theorem setRing_freeCtr (s : State) (c r : Nat) (x : Ring) : (setRing s c r x).freeCtr = s.freeCtr := rfl
@[simp] theorem setRing_lt (s : State) (c r : Nat) (x : Ring) : (setRing s c r x).lt = s.lt := rfl
@[simp] theorem setRing_regs (s : State) (c r : Nat) (x : Ring) : (setRing s c r x).regs = s.regs := rfl
@[simp] theorem setRing_latch64 (s : State) (c r : Nat) (x : Ring) : (setRing s c r x).latch64 = s.latch64 := rfl
@[simp] theorem setRing_parts (s : State) (c r : Nat) (x : Ring) : (setRing s c r x).parts = s.parts := rfl
@[simp] theorem setRing_tiles (s : State) (c r : Nat) (x : Ring) : (setRing s c r x).tiles = s.tiles := rfl
@[simp] theorem setRing_be (s : State) (c r : Nat) (x : Ring) : (setRing s c r x).be = s.be := rfl
@[simp] theorem setRing_ctxs (s : State) (c r : Nat) (x : Ring) : (setRing s c r x).ctxs = s.ctxs := rfl
@[simp] theorem setRing_journal (s : State) (c r : Nat) (x : Ring) : (setRing s c r x).journal = s.journal := rfl
@[simp] theorem setRing_waiting (s : State) (c r : Nat) (x : Ring) : (setRing s c r x).waiting = s.waiting := rfl
@[simp] theorem setRing_serveNext (s : State) (c r : Nat) (x : Ring) : (setRing s c r x).serveNext = s.serveNext := rfl
@[simp] theorem setRing_host (s : State) (c r : Nat) (x : Ring) : (setRing s c r x).host = s.host := rfl
@[simp] theorem setRing_mailbox (s : State) (c r : Nat) (x : Ring) : (setRing s c r x).mailbox = s.mailbox := rfl
@[simp] theorem setRing_bme (s : State) (c r : Nat) (x : Ring) : (setRing s c r x).bme = s.bme := rfl
@[simp] theorem setRing_nibs (s : State) (c r : Nat) (x : Ring) : (setRing s c r x).nibs = s.nibs := rfl
@[simp] theorem setRing_links (s : State) (c r : Nat) (x : Ring) : (setRing s c r x).links = s.links := rfl
@[simp] theorem setRing_dports (s : State) (c r : Nat) (x : Ring) : (setRing s c r x).dports = s.dports := rfl
@[simp] theorem setRing_eths (s : State) (c r : Nat) (x : Ring) : (setRing s c r x).eths = s.eths := rfl
@[simp] theorem setRing_partners (s : State) (c r : Nat) (x : Ring) : (setRing s c r x).partners = s.partners := rfl
@[simp] theorem setRing_tu (s : State) (c r : Nat) (x : Ring) : (setRing s c r x).tu = s.tu := rfl
@[simp] theorem setRing_mem (s : State) (c r : Nat) (x : Ring) : (setRing s c r x).mem = s.mem := rfl
@[simp] theorem setRing_rst (s : State) (c r : Nat) (x : Ring) : (setRing s c r x).rst = s.rst := rfl
@[simp] theorem setRing_pwr (s : State) (c r : Nat) (x : Ring) : (setRing s c r x).pwr = s.pwr := rfl
@[simp] theorem setRing_fuse (s : State) (c r : Nat) (x : Ring) : (setRing s c r x).fuse = s.fuse := rfl
@[simp] theorem setRing_flash (s : State) (c r : Nat) (x : Ring) : (setRing s c r x).flash = s.flash := rfl
@[simp] theorem setRing_hmk (s : State) (c r : Nat) (x : Ring) : (setRing s c r x).hmk = s.hmk := rfl
@[simp] theorem setRing_blt (s : State) (c r : Nat) (x : Ring) : (setRing s c r x).blt = s.blt := rfl
@[simp] theorem setRing_anl (s : State) (c r : Nat) (x : Ring) : (setRing s c r x).anl = s.anl := rfl
@[simp] theorem setRing_assay (s : State) (c r : Nat) (x : Ring) : (setRing s c r x).assay = s.assay := rfl

-- setBe

@[simp] theorem setBe_pending (s : State) (k : Nat) (x : Option BeCmd) : (setBe s k x).pending = s.pending := rfl
@[simp] theorem setBe_freeCtr (s : State) (k : Nat) (x : Option BeCmd) : (setBe s k x).freeCtr = s.freeCtr := rfl
@[simp] theorem setBe_lt (s : State) (k : Nat) (x : Option BeCmd) : (setBe s k x).lt = s.lt := rfl
@[simp] theorem setBe_regs (s : State) (k : Nat) (x : Option BeCmd) : (setBe s k x).regs = s.regs := rfl
@[simp] theorem setBe_latch64 (s : State) (k : Nat) (x : Option BeCmd) : (setBe s k x).latch64 = s.latch64 := rfl
@[simp] theorem setBe_parts (s : State) (k : Nat) (x : Option BeCmd) : (setBe s k x).parts = s.parts := rfl
@[simp] theorem setBe_tiles (s : State) (k : Nat) (x : Option BeCmd) : (setBe s k x).tiles = s.tiles := rfl
@[simp] theorem setBe_ctxs (s : State) (k : Nat) (x : Option BeCmd) : (setBe s k x).ctxs = s.ctxs := rfl
@[simp] theorem setBe_rings (s : State) (k : Nat) (x : Option BeCmd) : (setBe s k x).rings = s.rings := rfl
@[simp] theorem setBe_journal (s : State) (k : Nat) (x : Option BeCmd) : (setBe s k x).journal = s.journal := rfl
@[simp] theorem setBe_waiting (s : State) (k : Nat) (x : Option BeCmd) : (setBe s k x).waiting = s.waiting := rfl
@[simp] theorem setBe_serveNext (s : State) (k : Nat) (x : Option BeCmd) : (setBe s k x).serveNext = s.serveNext := rfl
@[simp] theorem setBe_host (s : State) (k : Nat) (x : Option BeCmd) : (setBe s k x).host = s.host := rfl
@[simp] theorem setBe_mailbox (s : State) (k : Nat) (x : Option BeCmd) : (setBe s k x).mailbox = s.mailbox := rfl
@[simp] theorem setBe_bme (s : State) (k : Nat) (x : Option BeCmd) : (setBe s k x).bme = s.bme := rfl
@[simp] theorem setBe_nibs (s : State) (k : Nat) (x : Option BeCmd) : (setBe s k x).nibs = s.nibs := rfl
@[simp] theorem setBe_links (s : State) (k : Nat) (x : Option BeCmd) : (setBe s k x).links = s.links := rfl
@[simp] theorem setBe_dports (s : State) (k : Nat) (x : Option BeCmd) : (setBe s k x).dports = s.dports := rfl
@[simp] theorem setBe_eths (s : State) (k : Nat) (x : Option BeCmd) : (setBe s k x).eths = s.eths := rfl
@[simp] theorem setBe_partners (s : State) (k : Nat) (x : Option BeCmd) : (setBe s k x).partners = s.partners := rfl
@[simp] theorem setBe_tu (s : State) (k : Nat) (x : Option BeCmd) : (setBe s k x).tu = s.tu := rfl
@[simp] theorem setBe_mem (s : State) (k : Nat) (x : Option BeCmd) : (setBe s k x).mem = s.mem := rfl
@[simp] theorem setBe_rst (s : State) (k : Nat) (x : Option BeCmd) : (setBe s k x).rst = s.rst := rfl
@[simp] theorem setBe_pwr (s : State) (k : Nat) (x : Option BeCmd) : (setBe s k x).pwr = s.pwr := rfl
@[simp] theorem setBe_fuse (s : State) (k : Nat) (x : Option BeCmd) : (setBe s k x).fuse = s.fuse := rfl
@[simp] theorem setBe_flash (s : State) (k : Nat) (x : Option BeCmd) : (setBe s k x).flash = s.flash := rfl
@[simp] theorem setBe_hmk (s : State) (k : Nat) (x : Option BeCmd) : (setBe s k x).hmk = s.hmk := rfl
@[simp] theorem setBe_blt (s : State) (k : Nat) (x : Option BeCmd) : (setBe s k x).blt = s.blt := rfl
@[simp] theorem setBe_anl (s : State) (k : Nat) (x : Option BeCmd) : (setBe s k x).anl = s.anl := rfl
@[simp] theorem setBe_assay (s : State) (k : Nat) (x : Option BeCmd) : (setBe s k x).assay = s.assay := rfl

-- setNib

@[simp] theorem setNib_pending (s : State) (n : Nat) (x : Nib) : (setNib s n x).pending = s.pending := rfl
@[simp] theorem setNib_freeCtr (s : State) (n : Nat) (x : Nib) : (setNib s n x).freeCtr = s.freeCtr := rfl
@[simp] theorem setNib_lt (s : State) (n : Nat) (x : Nib) : (setNib s n x).lt = s.lt := rfl
@[simp] theorem setNib_regs (s : State) (n : Nat) (x : Nib) : (setNib s n x).regs = s.regs := rfl
@[simp] theorem setNib_latch64 (s : State) (n : Nat) (x : Nib) : (setNib s n x).latch64 = s.latch64 := rfl
@[simp] theorem setNib_parts (s : State) (n : Nat) (x : Nib) : (setNib s n x).parts = s.parts := rfl
@[simp] theorem setNib_tiles (s : State) (n : Nat) (x : Nib) : (setNib s n x).tiles = s.tiles := rfl
@[simp] theorem setNib_be (s : State) (n : Nat) (x : Nib) : (setNib s n x).be = s.be := rfl
@[simp] theorem setNib_ctxs (s : State) (n : Nat) (x : Nib) : (setNib s n x).ctxs = s.ctxs := rfl
@[simp] theorem setNib_rings (s : State) (n : Nat) (x : Nib) : (setNib s n x).rings = s.rings := rfl
@[simp] theorem setNib_journal (s : State) (n : Nat) (x : Nib) : (setNib s n x).journal = s.journal := rfl
@[simp] theorem setNib_waiting (s : State) (n : Nat) (x : Nib) : (setNib s n x).waiting = s.waiting := rfl
@[simp] theorem setNib_serveNext (s : State) (n : Nat) (x : Nib) : (setNib s n x).serveNext = s.serveNext := rfl
@[simp] theorem setNib_host (s : State) (n : Nat) (x : Nib) : (setNib s n x).host = s.host := rfl
@[simp] theorem setNib_mailbox (s : State) (n : Nat) (x : Nib) : (setNib s n x).mailbox = s.mailbox := rfl
@[simp] theorem setNib_bme (s : State) (n : Nat) (x : Nib) : (setNib s n x).bme = s.bme := rfl
@[simp] theorem setNib_links (s : State) (n : Nat) (x : Nib) : (setNib s n x).links = s.links := rfl
@[simp] theorem setNib_dports (s : State) (n : Nat) (x : Nib) : (setNib s n x).dports = s.dports := rfl
@[simp] theorem setNib_eths (s : State) (n : Nat) (x : Nib) : (setNib s n x).eths = s.eths := rfl
@[simp] theorem setNib_partners (s : State) (n : Nat) (x : Nib) : (setNib s n x).partners = s.partners := rfl
@[simp] theorem setNib_tu (s : State) (n : Nat) (x : Nib) : (setNib s n x).tu = s.tu := rfl
@[simp] theorem setNib_mem (s : State) (n : Nat) (x : Nib) : (setNib s n x).mem = s.mem := rfl
@[simp] theorem setNib_rst (s : State) (n : Nat) (x : Nib) : (setNib s n x).rst = s.rst := rfl
@[simp] theorem setNib_pwr (s : State) (n : Nat) (x : Nib) : (setNib s n x).pwr = s.pwr := rfl
@[simp] theorem setNib_fuse (s : State) (n : Nat) (x : Nib) : (setNib s n x).fuse = s.fuse := rfl
@[simp] theorem setNib_flash (s : State) (n : Nat) (x : Nib) : (setNib s n x).flash = s.flash := rfl
@[simp] theorem setNib_hmk (s : State) (n : Nat) (x : Nib) : (setNib s n x).hmk = s.hmk := rfl
@[simp] theorem setNib_blt (s : State) (n : Nat) (x : Nib) : (setNib s n x).blt = s.blt := rfl
@[simp] theorem setNib_anl (s : State) (n : Nat) (x : Nib) : (setNib s n x).anl = s.anl := rfl
@[simp] theorem setNib_assay (s : State) (n : Nat) (x : Nib) : (setNib s n x).assay = s.assay := rfl

-- setLink

@[simp] theorem setLink_pending (s : State) (q : Nat) (x : Link) : (setLink s q x).pending = s.pending := rfl
@[simp] theorem setLink_freeCtr (s : State) (q : Nat) (x : Link) : (setLink s q x).freeCtr = s.freeCtr := rfl
@[simp] theorem setLink_lt (s : State) (q : Nat) (x : Link) : (setLink s q x).lt = s.lt := rfl
@[simp] theorem setLink_regs (s : State) (q : Nat) (x : Link) : (setLink s q x).regs = s.regs := rfl
@[simp] theorem setLink_latch64 (s : State) (q : Nat) (x : Link) : (setLink s q x).latch64 = s.latch64 := rfl
@[simp] theorem setLink_parts (s : State) (q : Nat) (x : Link) : (setLink s q x).parts = s.parts := rfl
@[simp] theorem setLink_tiles (s : State) (q : Nat) (x : Link) : (setLink s q x).tiles = s.tiles := rfl
@[simp] theorem setLink_be (s : State) (q : Nat) (x : Link) : (setLink s q x).be = s.be := rfl
@[simp] theorem setLink_ctxs (s : State) (q : Nat) (x : Link) : (setLink s q x).ctxs = s.ctxs := rfl
@[simp] theorem setLink_rings (s : State) (q : Nat) (x : Link) : (setLink s q x).rings = s.rings := rfl
@[simp] theorem setLink_journal (s : State) (q : Nat) (x : Link) : (setLink s q x).journal = s.journal := rfl
@[simp] theorem setLink_waiting (s : State) (q : Nat) (x : Link) : (setLink s q x).waiting = s.waiting := rfl
@[simp] theorem setLink_serveNext (s : State) (q : Nat) (x : Link) : (setLink s q x).serveNext = s.serveNext := rfl
@[simp] theorem setLink_host (s : State) (q : Nat) (x : Link) : (setLink s q x).host = s.host := rfl
@[simp] theorem setLink_mailbox (s : State) (q : Nat) (x : Link) : (setLink s q x).mailbox = s.mailbox := rfl
@[simp] theorem setLink_bme (s : State) (q : Nat) (x : Link) : (setLink s q x).bme = s.bme := rfl
@[simp] theorem setLink_nibs (s : State) (q : Nat) (x : Link) : (setLink s q x).nibs = s.nibs := rfl
@[simp] theorem setLink_dports (s : State) (q : Nat) (x : Link) : (setLink s q x).dports = s.dports := rfl
@[simp] theorem setLink_eths (s : State) (q : Nat) (x : Link) : (setLink s q x).eths = s.eths := rfl
@[simp] theorem setLink_partners (s : State) (q : Nat) (x : Link) : (setLink s q x).partners = s.partners := rfl
@[simp] theorem setLink_tu (s : State) (q : Nat) (x : Link) : (setLink s q x).tu = s.tu := rfl
@[simp] theorem setLink_mem (s : State) (q : Nat) (x : Link) : (setLink s q x).mem = s.mem := rfl
@[simp] theorem setLink_rst (s : State) (q : Nat) (x : Link) : (setLink s q x).rst = s.rst := rfl
@[simp] theorem setLink_pwr (s : State) (q : Nat) (x : Link) : (setLink s q x).pwr = s.pwr := rfl
@[simp] theorem setLink_fuse (s : State) (q : Nat) (x : Link) : (setLink s q x).fuse = s.fuse := rfl
@[simp] theorem setLink_flash (s : State) (q : Nat) (x : Link) : (setLink s q x).flash = s.flash := rfl
@[simp] theorem setLink_hmk (s : State) (q : Nat) (x : Link) : (setLink s q x).hmk = s.hmk := rfl
@[simp] theorem setLink_blt (s : State) (q : Nat) (x : Link) : (setLink s q x).blt = s.blt := rfl
@[simp] theorem setLink_anl (s : State) (q : Nat) (x : Link) : (setLink s q x).anl = s.anl := rfl
@[simp] theorem setLink_assay (s : State) (q : Nat) (x : Link) : (setLink s q x).assay = s.assay := rfl

-- setDport

@[simp] theorem setDport_pending (s : State) (d : Nat) (x : DirectPort) : (setDport s d x).pending = s.pending := rfl
@[simp] theorem setDport_freeCtr (s : State) (d : Nat) (x : DirectPort) : (setDport s d x).freeCtr = s.freeCtr := rfl
@[simp] theorem setDport_lt (s : State) (d : Nat) (x : DirectPort) : (setDport s d x).lt = s.lt := rfl
@[simp] theorem setDport_regs (s : State) (d : Nat) (x : DirectPort) : (setDport s d x).regs = s.regs := rfl
@[simp] theorem setDport_latch64 (s : State) (d : Nat) (x : DirectPort) : (setDport s d x).latch64 = s.latch64 := rfl
@[simp] theorem setDport_parts (s : State) (d : Nat) (x : DirectPort) : (setDport s d x).parts = s.parts := rfl
@[simp] theorem setDport_tiles (s : State) (d : Nat) (x : DirectPort) : (setDport s d x).tiles = s.tiles := rfl
@[simp] theorem setDport_be (s : State) (d : Nat) (x : DirectPort) : (setDport s d x).be = s.be := rfl
@[simp] theorem setDport_ctxs (s : State) (d : Nat) (x : DirectPort) : (setDport s d x).ctxs = s.ctxs := rfl
@[simp] theorem setDport_rings (s : State) (d : Nat) (x : DirectPort) : (setDport s d x).rings = s.rings := rfl
@[simp] theorem setDport_journal (s : State) (d : Nat) (x : DirectPort) : (setDport s d x).journal = s.journal := rfl
@[simp] theorem setDport_waiting (s : State) (d : Nat) (x : DirectPort) : (setDport s d x).waiting = s.waiting := rfl
@[simp] theorem setDport_serveNext (s : State) (d : Nat) (x : DirectPort) : (setDport s d x).serveNext = s.serveNext := rfl
@[simp] theorem setDport_host (s : State) (d : Nat) (x : DirectPort) : (setDport s d x).host = s.host := rfl
@[simp] theorem setDport_mailbox (s : State) (d : Nat) (x : DirectPort) : (setDport s d x).mailbox = s.mailbox := rfl
@[simp] theorem setDport_bme (s : State) (d : Nat) (x : DirectPort) : (setDport s d x).bme = s.bme := rfl
@[simp] theorem setDport_nibs (s : State) (d : Nat) (x : DirectPort) : (setDport s d x).nibs = s.nibs := rfl
@[simp] theorem setDport_links (s : State) (d : Nat) (x : DirectPort) : (setDport s d x).links = s.links := rfl
@[simp] theorem setDport_eths (s : State) (d : Nat) (x : DirectPort) : (setDport s d x).eths = s.eths := rfl
@[simp] theorem setDport_partners (s : State) (d : Nat) (x : DirectPort) : (setDport s d x).partners = s.partners := rfl
@[simp] theorem setDport_tu (s : State) (d : Nat) (x : DirectPort) : (setDport s d x).tu = s.tu := rfl
@[simp] theorem setDport_mem (s : State) (d : Nat) (x : DirectPort) : (setDport s d x).mem = s.mem := rfl
@[simp] theorem setDport_rst (s : State) (d : Nat) (x : DirectPort) : (setDport s d x).rst = s.rst := rfl
@[simp] theorem setDport_pwr (s : State) (d : Nat) (x : DirectPort) : (setDport s d x).pwr = s.pwr := rfl
@[simp] theorem setDport_fuse (s : State) (d : Nat) (x : DirectPort) : (setDport s d x).fuse = s.fuse := rfl
@[simp] theorem setDport_flash (s : State) (d : Nat) (x : DirectPort) : (setDport s d x).flash = s.flash := rfl
@[simp] theorem setDport_hmk (s : State) (d : Nat) (x : DirectPort) : (setDport s d x).hmk = s.hmk := rfl
@[simp] theorem setDport_blt (s : State) (d : Nat) (x : DirectPort) : (setDport s d x).blt = s.blt := rfl
@[simp] theorem setDport_anl (s : State) (d : Nat) (x : DirectPort) : (setDport s d x).anl = s.anl := rfl
@[simp] theorem setDport_assay (s : State) (d : Nat) (x : DirectPort) : (setDport s d x).assay = s.assay := rfl

-- setEth

@[simp] theorem setEth_pending (s : State) (e : Nat) (x : EthPort) : (setEth s e x).pending = s.pending := rfl
@[simp] theorem setEth_freeCtr (s : State) (e : Nat) (x : EthPort) : (setEth s e x).freeCtr = s.freeCtr := rfl
@[simp] theorem setEth_lt (s : State) (e : Nat) (x : EthPort) : (setEth s e x).lt = s.lt := rfl
@[simp] theorem setEth_regs (s : State) (e : Nat) (x : EthPort) : (setEth s e x).regs = s.regs := rfl
@[simp] theorem setEth_latch64 (s : State) (e : Nat) (x : EthPort) : (setEth s e x).latch64 = s.latch64 := rfl
@[simp] theorem setEth_parts (s : State) (e : Nat) (x : EthPort) : (setEth s e x).parts = s.parts := rfl
@[simp] theorem setEth_tiles (s : State) (e : Nat) (x : EthPort) : (setEth s e x).tiles = s.tiles := rfl
@[simp] theorem setEth_be (s : State) (e : Nat) (x : EthPort) : (setEth s e x).be = s.be := rfl
@[simp] theorem setEth_ctxs (s : State) (e : Nat) (x : EthPort) : (setEth s e x).ctxs = s.ctxs := rfl
@[simp] theorem setEth_rings (s : State) (e : Nat) (x : EthPort) : (setEth s e x).rings = s.rings := rfl
@[simp] theorem setEth_journal (s : State) (e : Nat) (x : EthPort) : (setEth s e x).journal = s.journal := rfl
@[simp] theorem setEth_waiting (s : State) (e : Nat) (x : EthPort) : (setEth s e x).waiting = s.waiting := rfl
@[simp] theorem setEth_serveNext (s : State) (e : Nat) (x : EthPort) : (setEth s e x).serveNext = s.serveNext := rfl
@[simp] theorem setEth_host (s : State) (e : Nat) (x : EthPort) : (setEth s e x).host = s.host := rfl
@[simp] theorem setEth_mailbox (s : State) (e : Nat) (x : EthPort) : (setEth s e x).mailbox = s.mailbox := rfl
@[simp] theorem setEth_bme (s : State) (e : Nat) (x : EthPort) : (setEth s e x).bme = s.bme := rfl
@[simp] theorem setEth_nibs (s : State) (e : Nat) (x : EthPort) : (setEth s e x).nibs = s.nibs := rfl
@[simp] theorem setEth_links (s : State) (e : Nat) (x : EthPort) : (setEth s e x).links = s.links := rfl
@[simp] theorem setEth_dports (s : State) (e : Nat) (x : EthPort) : (setEth s e x).dports = s.dports := rfl
@[simp] theorem setEth_partners (s : State) (e : Nat) (x : EthPort) : (setEth s e x).partners = s.partners := rfl
@[simp] theorem setEth_tu (s : State) (e : Nat) (x : EthPort) : (setEth s e x).tu = s.tu := rfl
@[simp] theorem setEth_mem (s : State) (e : Nat) (x : EthPort) : (setEth s e x).mem = s.mem := rfl
@[simp] theorem setEth_rst (s : State) (e : Nat) (x : EthPort) : (setEth s e x).rst = s.rst := rfl
@[simp] theorem setEth_pwr (s : State) (e : Nat) (x : EthPort) : (setEth s e x).pwr = s.pwr := rfl
@[simp] theorem setEth_fuse (s : State) (e : Nat) (x : EthPort) : (setEth s e x).fuse = s.fuse := rfl
@[simp] theorem setEth_flash (s : State) (e : Nat) (x : EthPort) : (setEth s e x).flash = s.flash := rfl
@[simp] theorem setEth_hmk (s : State) (e : Nat) (x : EthPort) : (setEth s e x).hmk = s.hmk := rfl
@[simp] theorem setEth_blt (s : State) (e : Nat) (x : EthPort) : (setEth s e x).blt = s.blt := rfl
@[simp] theorem setEth_anl (s : State) (e : Nat) (x : EthPort) : (setEth s e x).anl = s.anl := rfl
@[simp] theorem setEth_assay (s : State) (e : Nat) (x : EthPort) : (setEth s e x).assay = s.assay := rfl

-- setPartner

@[simp] theorem setPartner_pending (s : State) (n : Nat) (x : Partner) : (setPartner s n x).pending = s.pending := rfl
@[simp] theorem setPartner_freeCtr (s : State) (n : Nat) (x : Partner) : (setPartner s n x).freeCtr = s.freeCtr := rfl
@[simp] theorem setPartner_lt (s : State) (n : Nat) (x : Partner) : (setPartner s n x).lt = s.lt := rfl
@[simp] theorem setPartner_regs (s : State) (n : Nat) (x : Partner) : (setPartner s n x).regs = s.regs := rfl
@[simp] theorem setPartner_latch64 (s : State) (n : Nat) (x : Partner) : (setPartner s n x).latch64 = s.latch64 := rfl
@[simp] theorem setPartner_parts (s : State) (n : Nat) (x : Partner) : (setPartner s n x).parts = s.parts := rfl
@[simp] theorem setPartner_tiles (s : State) (n : Nat) (x : Partner) : (setPartner s n x).tiles = s.tiles := rfl
@[simp] theorem setPartner_be (s : State) (n : Nat) (x : Partner) : (setPartner s n x).be = s.be := rfl
@[simp] theorem setPartner_ctxs (s : State) (n : Nat) (x : Partner) : (setPartner s n x).ctxs = s.ctxs := rfl
@[simp] theorem setPartner_rings (s : State) (n : Nat) (x : Partner) : (setPartner s n x).rings = s.rings := rfl
@[simp] theorem setPartner_journal (s : State) (n : Nat) (x : Partner) : (setPartner s n x).journal = s.journal := rfl
@[simp] theorem setPartner_waiting (s : State) (n : Nat) (x : Partner) : (setPartner s n x).waiting = s.waiting := rfl
@[simp] theorem setPartner_serveNext (s : State) (n : Nat) (x : Partner) : (setPartner s n x).serveNext = s.serveNext := rfl
@[simp] theorem setPartner_host (s : State) (n : Nat) (x : Partner) : (setPartner s n x).host = s.host := rfl
@[simp] theorem setPartner_mailbox (s : State) (n : Nat) (x : Partner) : (setPartner s n x).mailbox = s.mailbox := rfl
@[simp] theorem setPartner_bme (s : State) (n : Nat) (x : Partner) : (setPartner s n x).bme = s.bme := rfl
@[simp] theorem setPartner_nibs (s : State) (n : Nat) (x : Partner) : (setPartner s n x).nibs = s.nibs := rfl
@[simp] theorem setPartner_links (s : State) (n : Nat) (x : Partner) : (setPartner s n x).links = s.links := rfl
@[simp] theorem setPartner_dports (s : State) (n : Nat) (x : Partner) : (setPartner s n x).dports = s.dports := rfl
@[simp] theorem setPartner_eths (s : State) (n : Nat) (x : Partner) : (setPartner s n x).eths = s.eths := rfl
@[simp] theorem setPartner_tu (s : State) (n : Nat) (x : Partner) : (setPartner s n x).tu = s.tu := rfl
@[simp] theorem setPartner_mem (s : State) (n : Nat) (x : Partner) : (setPartner s n x).mem = s.mem := rfl
@[simp] theorem setPartner_rst (s : State) (n : Nat) (x : Partner) : (setPartner s n x).rst = s.rst := rfl
@[simp] theorem setPartner_pwr (s : State) (n : Nat) (x : Partner) : (setPartner s n x).pwr = s.pwr := rfl
@[simp] theorem setPartner_fuse (s : State) (n : Nat) (x : Partner) : (setPartner s n x).fuse = s.fuse := rfl
@[simp] theorem setPartner_flash (s : State) (n : Nat) (x : Partner) : (setPartner s n x).flash = s.flash := rfl
@[simp] theorem setPartner_hmk (s : State) (n : Nat) (x : Partner) : (setPartner s n x).hmk = s.hmk := rfl
@[simp] theorem setPartner_blt (s : State) (n : Nat) (x : Partner) : (setPartner s n x).blt = s.blt := rfl
@[simp] theorem setPartner_anl (s : State) (n : Nat) (x : Partner) : (setPartner s n x).anl = s.anl := rfl
@[simp] theorem setPartner_assay (s : State) (n : Nat) (x : Partner) : (setPartner s n x).assay = s.assay := rfl

-- regSet

@[simp] theorem regSet_pending (s : State) (o : Nat) (v : Word) : (regSet s o v).pending = s.pending := rfl
@[simp] theorem regSet_freeCtr (s : State) (o : Nat) (v : Word) : (regSet s o v).freeCtr = s.freeCtr := rfl
@[simp] theorem regSet_lt (s : State) (o : Nat) (v : Word) : (regSet s o v).lt = s.lt := rfl
@[simp] theorem regSet_latch64 (s : State) (o : Nat) (v : Word) : (regSet s o v).latch64 = s.latch64 := rfl
@[simp] theorem regSet_parts (s : State) (o : Nat) (v : Word) : (regSet s o v).parts = s.parts := rfl
@[simp] theorem regSet_tiles (s : State) (o : Nat) (v : Word) : (regSet s o v).tiles = s.tiles := rfl
@[simp] theorem regSet_be (s : State) (o : Nat) (v : Word) : (regSet s o v).be = s.be := rfl
@[simp] theorem regSet_ctxs (s : State) (o : Nat) (v : Word) : (regSet s o v).ctxs = s.ctxs := rfl
@[simp] theorem regSet_rings (s : State) (o : Nat) (v : Word) : (regSet s o v).rings = s.rings := rfl
@[simp] theorem regSet_journal (s : State) (o : Nat) (v : Word) : (regSet s o v).journal = s.journal := rfl
@[simp] theorem regSet_waiting (s : State) (o : Nat) (v : Word) : (regSet s o v).waiting = s.waiting := rfl
@[simp] theorem regSet_serveNext (s : State) (o : Nat) (v : Word) : (regSet s o v).serveNext = s.serveNext := rfl
@[simp] theorem regSet_host (s : State) (o : Nat) (v : Word) : (regSet s o v).host = s.host := rfl
@[simp] theorem regSet_mailbox (s : State) (o : Nat) (v : Word) : (regSet s o v).mailbox = s.mailbox := rfl
@[simp] theorem regSet_bme (s : State) (o : Nat) (v : Word) : (regSet s o v).bme = s.bme := rfl
@[simp] theorem regSet_nibs (s : State) (o : Nat) (v : Word) : (regSet s o v).nibs = s.nibs := rfl
@[simp] theorem regSet_links (s : State) (o : Nat) (v : Word) : (regSet s o v).links = s.links := rfl
@[simp] theorem regSet_dports (s : State) (o : Nat) (v : Word) : (regSet s o v).dports = s.dports := rfl
@[simp] theorem regSet_eths (s : State) (o : Nat) (v : Word) : (regSet s o v).eths = s.eths := rfl
@[simp] theorem regSet_partners (s : State) (o : Nat) (v : Word) : (regSet s o v).partners = s.partners := rfl
@[simp] theorem regSet_tu (s : State) (o : Nat) (v : Word) : (regSet s o v).tu = s.tu := rfl
@[simp] theorem regSet_mem (s : State) (o : Nat) (v : Word) : (regSet s o v).mem = s.mem := rfl
@[simp] theorem regSet_rst (s : State) (o : Nat) (v : Word) : (regSet s o v).rst = s.rst := rfl
@[simp] theorem regSet_pwr (s : State) (o : Nat) (v : Word) : (regSet s o v).pwr = s.pwr := rfl
@[simp] theorem regSet_fuse (s : State) (o : Nat) (v : Word) : (regSet s o v).fuse = s.fuse := rfl
@[simp] theorem regSet_flash (s : State) (o : Nat) (v : Word) : (regSet s o v).flash = s.flash := rfl
@[simp] theorem regSet_hmk (s : State) (o : Nat) (v : Word) : (regSet s o v).hmk = s.hmk := rfl
@[simp] theorem regSet_blt (s : State) (o : Nat) (v : Word) : (regSet s o v).blt = s.blt := rfl
@[simp] theorem regSet_anl (s : State) (o : Nat) (v : Word) : (regSet s o v).anl = s.anl := rfl
@[simp] theorem regSet_assay (s : State) (o : Nat) (v : Word) : (regSet s o v).assay = s.assay := rfl

-- modTu

@[simp] theorem modTu_pending (s : State) (f : TimeUnit → TimeUnit) : (modTu s f).pending = s.pending := rfl
@[simp] theorem modTu_freeCtr (s : State) (f : TimeUnit → TimeUnit) : (modTu s f).freeCtr = s.freeCtr := rfl
@[simp] theorem modTu_lt (s : State) (f : TimeUnit → TimeUnit) : (modTu s f).lt = s.lt := rfl
@[simp] theorem modTu_regs (s : State) (f : TimeUnit → TimeUnit) : (modTu s f).regs = s.regs := rfl
@[simp] theorem modTu_latch64 (s : State) (f : TimeUnit → TimeUnit) : (modTu s f).latch64 = s.latch64 := rfl
@[simp] theorem modTu_parts (s : State) (f : TimeUnit → TimeUnit) : (modTu s f).parts = s.parts := rfl
@[simp] theorem modTu_tiles (s : State) (f : TimeUnit → TimeUnit) : (modTu s f).tiles = s.tiles := rfl
@[simp] theorem modTu_be (s : State) (f : TimeUnit → TimeUnit) : (modTu s f).be = s.be := rfl
@[simp] theorem modTu_ctxs (s : State) (f : TimeUnit → TimeUnit) : (modTu s f).ctxs = s.ctxs := rfl
@[simp] theorem modTu_rings (s : State) (f : TimeUnit → TimeUnit) : (modTu s f).rings = s.rings := rfl
@[simp] theorem modTu_journal (s : State) (f : TimeUnit → TimeUnit) : (modTu s f).journal = s.journal := rfl
@[simp] theorem modTu_waiting (s : State) (f : TimeUnit → TimeUnit) : (modTu s f).waiting = s.waiting := rfl
@[simp] theorem modTu_serveNext (s : State) (f : TimeUnit → TimeUnit) : (modTu s f).serveNext = s.serveNext := rfl
@[simp] theorem modTu_host (s : State) (f : TimeUnit → TimeUnit) : (modTu s f).host = s.host := rfl
@[simp] theorem modTu_mailbox (s : State) (f : TimeUnit → TimeUnit) : (modTu s f).mailbox = s.mailbox := rfl
@[simp] theorem modTu_bme (s : State) (f : TimeUnit → TimeUnit) : (modTu s f).bme = s.bme := rfl
@[simp] theorem modTu_nibs (s : State) (f : TimeUnit → TimeUnit) : (modTu s f).nibs = s.nibs := rfl
@[simp] theorem modTu_links (s : State) (f : TimeUnit → TimeUnit) : (modTu s f).links = s.links := rfl
@[simp] theorem modTu_dports (s : State) (f : TimeUnit → TimeUnit) : (modTu s f).dports = s.dports := rfl
@[simp] theorem modTu_eths (s : State) (f : TimeUnit → TimeUnit) : (modTu s f).eths = s.eths := rfl
@[simp] theorem modTu_partners (s : State) (f : TimeUnit → TimeUnit) : (modTu s f).partners = s.partners := rfl
@[simp] theorem modTu_mem (s : State) (f : TimeUnit → TimeUnit) : (modTu s f).mem = s.mem := rfl
@[simp] theorem modTu_rst (s : State) (f : TimeUnit → TimeUnit) : (modTu s f).rst = s.rst := rfl
@[simp] theorem modTu_pwr (s : State) (f : TimeUnit → TimeUnit) : (modTu s f).pwr = s.pwr := rfl
@[simp] theorem modTu_fuse (s : State) (f : TimeUnit → TimeUnit) : (modTu s f).fuse = s.fuse := rfl
@[simp] theorem modTu_flash (s : State) (f : TimeUnit → TimeUnit) : (modTu s f).flash = s.flash := rfl
@[simp] theorem modTu_hmk (s : State) (f : TimeUnit → TimeUnit) : (modTu s f).hmk = s.hmk := rfl
@[simp] theorem modTu_blt (s : State) (f : TimeUnit → TimeUnit) : (modTu s f).blt = s.blt := rfl
@[simp] theorem modTu_anl (s : State) (f : TimeUnit → TimeUnit) : (modTu s f).anl = s.anl := rfl
@[simp] theorem modTu_assay (s : State) (f : TimeUnit → TimeUnit) : (modTu s f).assay = s.assay := rfl

@[simp] theorem modTu_tu (s : State) (f : TimeUnit → TimeUnit) : (modTu s f).tu = f s.tu := rfl

-- Part.setSlot

@[simp] theorem Part.setSlot_on (x : Part) (k : Nat) (v : Slot) : (x.setSlot k v).on = x.on := rfl
@[simp] theorem Part.setSlot_reshaping (x : Part) (k : Nat) (v : Slot) : (x.setSlot k v).reshaping = x.reshaping := rfl
@[simp] theorem Part.setSlot_reshapeAsked (x : Part) (k : Nat) (v : Slot) : (x.setSlot k v).reshapeAsked = x.reshapeAsked := rfl
@[simp] theorem Part.setSlot_applyPars (x : Part) (k : Nat) (v : Slot) : (x.setSlot k v).applyPars = x.applyPars := rfl
@[simp] theorem Part.setSlot_pars (x : Part) (k : Nat) (v : Slot) : (x.setSlot k v).pars = x.pars := rfl
@[simp] theorem Part.setSlot_pendingPars (x : Part) (k : Nat) (v : Slot) : (x.setSlot k v).pendingPars = x.pendingPars := rfl
@[simp] theorem Part.setSlot_insts (x : Part) (k : Nat) (v : Slot) : (x.setSlot k v).insts = x.insts := rfl
@[simp] theorem Part.setSlot_lastIncarn (x : Part) (k : Nat) (v : Slot) : (x.setSlot k v).lastIncarn = x.lastIncarn := rfl
@[simp] theorem Part.setSlot_gate (x : Part) (k : Nat) (v : Slot) : (x.setSlot k v).gate = x.gate := rfl
@[simp] theorem Part.setSlot_entries (x : Part) (k : Nat) (v : Slot) : (x.setSlot k v).entries = x.entries := rfl
@[simp] theorem Part.setSlot_holder (x : Part) (k : Nat) (v : Slot) : (x.setSlot k v).holder = x.holder := rfl
@[simp] theorem Part.setSlot_kill (x : Part) (k : Nat) (v : Slot) : (x.setSlot k v).kill = x.kill := rfl
@[simp] theorem Part.setSlot_postings (x : Part) (k : Nat) (v : Slot) : (x.setSlot k v).postings = x.postings := rfl
@[simp] theorem Part.setSlot_awaits (x : Part) (k : Nat) (v : Slot) : (x.setSlot k v).awaits = x.awaits := rfl
@[simp] theorem Part.setSlot_nextAwait (x : Part) (k : Nat) (v : Slot) : (x.setSlot k v).nextAwait = x.nextAwait := rfl
@[simp] theorem Part.setSlot_rrLast (x : Part) (k : Nat) (v : Slot) : (x.setSlot k v).rrLast = x.rrLast := rfl
@[simp] theorem Part.setSlot_cycle (x : Part) (k : Nat) (v : Slot) : (x.setSlot k v).cycle = x.cycle := rfl
@[simp] theorem Part.setSlot_agedLeft (x : Part) (k : Nat) (v : Slot) : (x.setSlot k v).agedLeft = x.agedLeft := rfl
@[simp] theorem Part.setSlot_agedOver (x : Part) (k : Nat) (v : Slot) : (x.setSlot k v).agedOver = x.agedOver := rfl
@[simp] theorem Part.setSlot_oldTicks (x : Part) (k : Nat) (v : Slot) : (x.setSlot k v).oldTicks = x.oldTicks := rfl
@[simp] theorem Part.setSlot_returned (x : Part) (k : Nat) (v : Slot) : (x.setSlot k v).returned = x.returned := rfl
@[simp] theorem Part.setSlot_tilesFree (x : Part) (k : Nat) (v : Slot) : (x.setSlot k v).tilesFree = x.tilesFree := rfl
@[simp] theorem Part.setSlot_holdSkips (x : Part) (k : Nat) (v : Slot) : (x.setSlot k v).holdSkips = x.holdSkips := rfl
@[simp] theorem Part.setSlot_msTick (x : Part) (k : Nat) (v : Slot) : (x.setSlot k v).msTick = x.msTick := rfl
@[simp] theorem Part.setSlot_msAvail (x : Part) (k : Nat) (v : Slot) : (x.setSlot k v).msAvail = x.msAvail := rfl
@[simp] theorem Part.setSlot_msUsed (x : Part) (k : Nat) (v : Slot) : (x.setSlot k v).msUsed = x.msUsed := rfl

-- Part.setRun

@[simp] theorem Part.setRun_on (x : Part) (k : Nat) (v : EntryRun) : (x.setRun k v).on = x.on := rfl
@[simp] theorem Part.setRun_reshaping (x : Part) (k : Nat) (v : EntryRun) : (x.setRun k v).reshaping = x.reshaping := rfl
@[simp] theorem Part.setRun_reshapeAsked (x : Part) (k : Nat) (v : EntryRun) : (x.setRun k v).reshapeAsked = x.reshapeAsked := rfl
@[simp] theorem Part.setRun_applyPars (x : Part) (k : Nat) (v : EntryRun) : (x.setRun k v).applyPars = x.applyPars := rfl
@[simp] theorem Part.setRun_pars (x : Part) (k : Nat) (v : EntryRun) : (x.setRun k v).pars = x.pars := rfl
@[simp] theorem Part.setRun_pendingPars (x : Part) (k : Nat) (v : EntryRun) : (x.setRun k v).pendingPars = x.pendingPars := rfl
@[simp] theorem Part.setRun_slots (x : Part) (k : Nat) (v : EntryRun) : (x.setRun k v).slots = x.slots := rfl
@[simp] theorem Part.setRun_insts (x : Part) (k : Nat) (v : EntryRun) : (x.setRun k v).insts = x.insts := rfl
@[simp] theorem Part.setRun_lastIncarn (x : Part) (k : Nat) (v : EntryRun) : (x.setRun k v).lastIncarn = x.lastIncarn := rfl
@[simp] theorem Part.setRun_gate (x : Part) (k : Nat) (v : EntryRun) : (x.setRun k v).gate = x.gate := rfl
@[simp] theorem Part.setRun_holder (x : Part) (k : Nat) (v : EntryRun) : (x.setRun k v).holder = x.holder := rfl
@[simp] theorem Part.setRun_kill (x : Part) (k : Nat) (v : EntryRun) : (x.setRun k v).kill = x.kill := rfl
@[simp] theorem Part.setRun_postings (x : Part) (k : Nat) (v : EntryRun) : (x.setRun k v).postings = x.postings := rfl
@[simp] theorem Part.setRun_awaits (x : Part) (k : Nat) (v : EntryRun) : (x.setRun k v).awaits = x.awaits := rfl
@[simp] theorem Part.setRun_nextAwait (x : Part) (k : Nat) (v : EntryRun) : (x.setRun k v).nextAwait = x.nextAwait := rfl
@[simp] theorem Part.setRun_rrLast (x : Part) (k : Nat) (v : EntryRun) : (x.setRun k v).rrLast = x.rrLast := rfl
@[simp] theorem Part.setRun_cycle (x : Part) (k : Nat) (v : EntryRun) : (x.setRun k v).cycle = x.cycle := rfl
@[simp] theorem Part.setRun_agedLeft (x : Part) (k : Nat) (v : EntryRun) : (x.setRun k v).agedLeft = x.agedLeft := rfl
@[simp] theorem Part.setRun_agedOver (x : Part) (k : Nat) (v : EntryRun) : (x.setRun k v).agedOver = x.agedOver := rfl
@[simp] theorem Part.setRun_oldTicks (x : Part) (k : Nat) (v : EntryRun) : (x.setRun k v).oldTicks = x.oldTicks := rfl
@[simp] theorem Part.setRun_returned (x : Part) (k : Nat) (v : EntryRun) : (x.setRun k v).returned = x.returned := rfl
@[simp] theorem Part.setRun_tilesFree (x : Part) (k : Nat) (v : EntryRun) : (x.setRun k v).tilesFree = x.tilesFree := rfl
@[simp] theorem Part.setRun_holdSkips (x : Part) (k : Nat) (v : EntryRun) : (x.setRun k v).holdSkips = x.holdSkips := rfl
@[simp] theorem Part.setRun_msTick (x : Part) (k : Nat) (v : EntryRun) : (x.setRun k v).msTick = x.msTick := rfl
@[simp] theorem Part.setRun_msAvail (x : Part) (k : Nat) (v : EntryRun) : (x.setRun k v).msAvail = x.msAvail := rfl
@[simp] theorem Part.setRun_msUsed (x : Part) (k : Nat) (v : EntryRun) : (x.setRun k v).msUsed = x.msUsed := rfl

-- reads after writes

theorem getPart_setPart (s : State) (k j : Nat) (x : Part) : getPart (setPart s k x) j = if k = j then x else getPart s j :=
  tblGet_set _ _ k j x

@[simp] theorem getPart_setPart_same (s : State) (k : Nat) (x : Part) : getPart (setPart s k x) k = x := by simp [getPart_setPart]

theorem getTile_setTile (s : State) (k j : Nat) (x : Tile) : getTile (setTile s k x) j = if k = j then x else getTile s j :=
  tblGet_set _ _ k j x

@[simp] theorem getTile_setTile_same (s : State) (k : Nat) (x : Tile) : getTile (setTile s k x) k = x := by simp [getTile_setTile]

theorem getCtx_setCtx (s : State) (k j : Nat) (x : Ctx) : getCtx (setCtx s k x) j = if k = j then x else getCtx s j :=
  tblGet_set _ _ k j x

@[simp] theorem getCtx_setCtx_same (s : State) (k : Nat) (x : Ctx) : getCtx (setCtx s k x) k = x := by simp [getCtx_setCtx]

theorem getNib_setNib (s : State) (k j : Nat) (x : Nib) : getNib (setNib s k x) j = if k = j then x else getNib s j :=
  tblGet_set _ _ k j x

@[simp] theorem getNib_setNib_same (s : State) (k : Nat) (x : Nib) : getNib (setNib s k x) k = x := by simp [getNib_setNib]

theorem getLink_setLink (s : State) (k j : Nat) (x : Link) : getLink (setLink s k x) j = if k = j then x else getLink s j :=
  tblGet_set _ _ k j x

@[simp] theorem getLink_setLink_same (s : State) (k : Nat) (x : Link) : getLink (setLink s k x) k = x := by simp [getLink_setLink]

theorem getDport_setDport (s : State) (k j : Nat) (x : DirectPort) : getDport (setDport s k x) j = if k = j then x else getDport s j :=
  tblGet_set _ _ k j x

@[simp] theorem getDport_setDport_same (s : State) (k : Nat) (x : DirectPort) : getDport (setDport s k x) k = x := by simp [getDport_setDport]

theorem getEth_setEth (s : State) (k j : Nat) (x : EthPort) : getEth (setEth s k x) j = if k = j then x else getEth s j :=
  tblGet_set _ _ k j x

@[simp] theorem getEth_setEth_same (s : State) (k : Nat) (x : EthPort) : getEth (setEth s k x) k = x := by simp [getEth_setEth]

theorem getPartner_setPartner (s : State) (k j : Nat) (x : Partner) : getPartner (setPartner s k x) j = if k = j then x else getPartner s j :=
  tblGet_set _ _ k j x

@[simp] theorem getPartner_setPartner_same (s : State) (k : Nat) (x : Partner) : getPartner (setPartner s k x) k = x := by simp [getPartner_setPartner]

theorem getBe_setBe (s : State) (k j : Nat) (x : Option BeCmd) : getBe (setBe s k x) j = if k = j then x else getBe s j :=
  tblGet_set _ _ k j x

@[simp] theorem getBe_setBe_same (s : State) (k : Nat) (x : Option BeCmd) : getBe (setBe s k x) k = x := by simp [getBe_setBe]

theorem getRing_setRing (s : State) (c r d q : Nat) (x : Ring) (hr : r < 8) (hq : q < 8) :
    getRing (setRing s c r x) d q = if c = d ∧ r = q then x else getRing s d q := by
  refine (tblGet_set _ _ (8 * c + r) (8 * d + q) x).trans ?_
  by_cases h : c = d ∧ r = q
  · rw [if_pos h, if_pos (by omega)]
  · rw [if_neg h, if_neg (by omega)]; rfl

@[simp] theorem getRing_setRing_same (s : State) (c r : Nat) (x : Ring) : getRing (setRing s c r x) c r = x :=
  tblGet_set_same _ _ _ x

theorem regGet_regSet (s : State) (o p : Nat) (v : Word) : regGet (regSet s o v) p = if o = p then v else regGet s p := by
  by_cases h : o = p
  · subst h; rw [if_pos rfl]; exact tblGet_set_same _ _ _ v
  · rw [if_neg h]
    unfold regGet regSet tblGet tblSet
    split
    · rw [tblFind_erase, if_neg h]
    · rw [tblFind_insert, if_neg h]

@[simp] theorem regGet_regSet_same (s : State) (o : Nat) (v : Word) : regGet (regSet s o v) o = v := by
  rw [regGet_regSet, if_pos rfl]

theorem Part.slot_setSlot (x : Part) (k j : Nat) (v : Slot) : (x.setSlot k v).slot j = if k = j then v else x.slot j :=
  tblGet_set _ _ k j v

theorem Part.run_setRun (x : Part) (k j : Nat) (v : EntryRun) : (x.setRun k v).run j = if k = j then v else x.run j :=
  tblGet_set _ _ k j v

theorem getRun_setRun (s : State) (p j i : Nat) (v : EntryRun) :
    getRun (setRun s p j v) p i = if j = i then v else getRun s p i := by
  unfold getRun setRun
  rw [getPart_setPart_same, Part.run_setRun]

theorem getSlot_setSlot (s : State) (p k i : Nat) (v : Slot) :
    getSlot (setSlot s p k v) p i = if k = i then v else getSlot s p i := by
  unfold getSlot setSlot
  rw [getPart_setPart_same, Part.slot_setSlot]

/-- A register reads the same while the register file is the same. -/
theorem regGet_congr {s t : State} (h : t.regs = s.regs) (o : Nat) : regGet t o = regGet s o := by
  unfold regGet; rw [h]

end Sys2Proof.Machine
end

