-- ==== Sys2Proof/Machine/Store.lean ====
section
/-! DEFINITION. The Ductus Store (R174): what each partition's region holds, read from the images, launch entries and slot table
that its entries keep. -/

namespace Sys2Proof.Machine

/-- An entry of 128 bits; the place of an image entry's fields is not given, so they stand by name (assumption 87). -/
inductive StoreEntry where
  | bits (b : BitVec 128)
  | image (slot ikind cls : Nat) (sig : BitVec 64) (certId : Word) (qAssumed chkEvery firstSeg firstFam : Nat)
deriving DecidableEq, Repr

/-- Four register words as an entry, word 0 lowest. -/
def entryBits (ws : List Word) : StoreEntry := .bits (BitVec.ofNat 128 (ws.foldr (fun w n => w.toNat + 2 ^ 32 * n) 0))

/-- A segment entry (Table 06.9). -/
def SegRec.store (g : SegRec) : StoreEntry := .bits (BitVec.ofNat 128 (g.entry * 2 ^ 117 + g.kind * 2 ^ 113 + g.span * 2 ^ 89))

/-- A family's header and member entries (Table 06.10). -/
def FamRec.store (f : FamRec) : List StoreEntry :=
  .bits (BitVec.ofNat 128 (f.family * 2 ^ 116 + f.members * 2 ^ 104 + f.span * 2 ^ 80))
    :: (upTo (ceilDiv f.members 8)).map (fun j =>
      .bits (BitVec.ofNat 128 (((f.addrs.drop (8 * j)).take 8).foldr (fun a n => a + 2 ^ 16 * n) 0)))

/-- Entries of one kind from each image of a partition. -/
def imageEntries (x : Part) (f : Image → List StoreEntry) : List StoreEntry := x.images.flatMap (fun e => f e.2)

/-- The launch entries: two of the Store's entries for each valid one (Table 06.14). -/
def launchEntries (s : State) (p : Nat) : List StoreEntry :=
  ((upTo 64).filter (entryOn s p)).flatMap (fun j =>
    (upTo 2).map (fun h => entryBits ((upTo 4).map (fun w => regGet s (launchOff p j (4 * h + w))))))

/-- The slot table's header and windows (Table 12.2). -/
def slotTableEntries (s : State) (p : Nat) : List StoreEntry :=
  (upTo (1 + windowCount s p)).map (fun k => entryBits ((upTo 4).map (fun w => regGet s (slotTabOff p k w))))

def segEntries (x : Part) : List StoreEntry := imageEntries x (fun im => im.segs.map SegRec.store)
def famEntries (x : Part) : List StoreEntry := imageEntries x (fun im => im.fams.flatMap FamRec.store)

/-- Where each kind begins in the region: the kinds lie in the order of Table 06.8 (assumption 87). -/
def storeStarts (s : State) (p : Nat) : List Nat :=
  let x := getPart s p
  let launch := 1 + x.images.length
  let table := launch + (launchEntries s p).length
  let segs := table + (slotTableEntries s p).length
  [0, 1, launch, table, segs, segs + (segEntries x).length]

/-- The directory entry: eight 15-bit offsets, the last two unused (Table 06.8). -/
def directoryEntry (s : State) (p : Nat) : StoreEntry :=
  .bits (BitVec.ofNat 128 ((storeStarts s p).foldr (fun a n => a + 2 ^ 15 * n) 0))

/-- The image entries; the first segment and family entry count from the region's start. -/
def imageHeads (s : State) (p : Nat) : List StoreEntry :=
  let x := getPart s p
  let starts := storeStarts s p
  x.images.zipIdx.map (fun e =>
    let before := x.images.take e.2
    let h := e.1.2.hdr
    .image e.1.1 h.ikind h.cls h.sig h.certId h.qAssumed h.chkEvery
      (starts.getD 4 0 + (before.map (fun b => b.2.segs.length)).sum)
      (starts.getD 5 0 + (before.map (fun b => (b.2.fams.flatMap FamRec.store).length)).sum))

/-- What a partition's region of the Store holds (Table 06.8). -/
def storeRegion (s : State) (p : Nat) : List StoreEntry :=
  let x := getPart s p
  directoryEntry s p :: imageHeads s p ++ launchEntries s p ++ slotTableEntries s p ++ segEntries x ++ famEntries x

/-- Where a partition's region begins: the regions of the enabled partitions lie one behind another (assumption 87). -/
def storeBase (s : State) (p : Nat) : Nat :=
  ((upTo p).map (fun r => if (getPart s r).on then (getPart s r).pars.store else 0)).sum

/-- The Store's 32,768 entries by address: what an enabled partition's region holds there. -/
def storeAt (s : State) (a : Nat) : Option StoreEntry :=
  (upTo 16).findSome? (fun p =>
    if (getPart s p).on && decide (storeBase s p ≤ a) then (storeRegion s p)[a - storeBase s p]? else none)

end Sys2Proof.Machine
end

