-- ==== Sys2Proof/Laws/Store.lean ====
section
/-! SUPPORT. The region of the Ductus Store as laid out holds as many entries as the checks of binding count (R174, Table 06.8). -/

namespace Sys2Proof.Machine

@[simp] theorem upTo_length (n : Nat) : (upTo n).length = n := by simp [upTo]

theorem imageEntries_length (x : Part) (f : Image → List StoreEntry) :
    (imageEntries x f).length = (x.images.map (fun e => (f e.2).length)).sum := by
  simp [imageEntries, List.length_flatMap]

@[simp] theorem FamRec.store_length (f : FamRec) : f.store.length = 1 + ceilDiv f.members 8 := by
  simp [FamRec.store]; omega

@[simp] theorem imageHeads_length (s : State) (p : Nat) : (imageHeads s p).length = (getPart s p).images.length := by
  simp [imageHeads]

@[simp] theorem slotTableEntries_length (s : State) (p : Nat) : (slotTableEntries s p).length = 1 + windowCount s p := by
  simp [slotTableEntries]

@[simp] theorem launchEntries_length (s : State) (p : Nat) :
    (launchEntries s p).length = 2 * ((upTo 64).filter (entryOn s p)).length := by
  simp [launchEntries, List.length_flatMap, Nat.mul_comm]

/-- A partition's region holds exactly the entries that check 11 counts as used. -/
theorem storeRegion_length (s : State) (p : Nat) : (storeRegion s p).length = storeUsed s p := by
  have h : ((getPart s p).images.map (fun e => e.2.storeEntries)).sum
      = (getPart s p).images.length + (segEntries (getPart s p)).length + (famEntries (getPart s p)).length := by
    simp only [Image.storeEntries, segEntries, famEntries, imageEntries_length, List.length_map, List.length_flatMap, FamRec.store_length]
    generalize (getPart s p).images = l
    induction l with
    | nil => rfl
    | cons e t ih => simp only [List.map_cons, List.sum_cons, List.length_cons, ih]; omega
  simp only [storeRegion, storeUsed, h, List.length_cons, List.length_append, imageHeads_length, launchEntries_length,
    slotTableEntries_length]
  omega

end Sys2Proof.Machine
end

