-- ==== Sys2Proof/Laws/TouchNib.lean ====
section
/-! SUPPORT. What each function of Machine/Nib.lean may touch: its law in the sense of Laws/Frame.lean. -/

namespace Sys2Proof.Machine

theorem bankFlag_touch {L₀ : List Field} {s₀ s : State} (n : Nat) (hL₀ : Field.sub [.regs, .ctxs, .rings, .journal, .waiting, .host, .mailbox, .blt] L₀ = true)
  (h₀ : Touch L₀ s₀ s) : Touch L₀ s₀ (bankFlag s n) := by
  unfold bankFlag
  try dsimp only
  repeat' first
    | with_reducible assumption
    | (with_reducible refine Field.sub_trans ?_ hL₀; decide)
    | with_reducible apply nibFlags_touch
    | with_reducible apply Touch.ite

theorem armEngine_touch {L₀ : List Field} {s₀ s : State} (n : Nat) (hL₀ : Field.sub [.regs, .ctxs, .rings, .journal, .waiting, .host, .mailbox, .nibs, .blt] L₀ = true)
  (h₀ : Touch L₀ s₀ s) : Touch L₀ s₀ (armEngine s n) := by
  unfold armEngine
  try dsimp only
  repeat' first
    | with_reducible assumption
    | (with_reducible refine Field.sub_trans ?_ hL₀; decide)
    | intro _
    | with_reducible apply nibRefuse_touch
    | with_reducible apply bankFlag_touch
    | with_reducible apply setNib_touch
    | with_reducible apply Touch.ite
    | split
    | (with_reducible apply Touch.of_fst; with_reducible assumption)
    | (with_reducible apply Touch.of_snd; with_reducible assumption)

theorem execArm_touch (n : EngineId) (s : State) : TouchR [.regs, .ctxs, .rings, .journal, .waiting, .host, .mailbox, .nibs, .blt] s (execArm n s) := by
  have hL₀ : Field.sub [.regs, .ctxs, .rings, .journal, .waiting, .host, .mailbox, .nibs, .blt] [.regs, .ctxs, .rings, .journal, .waiting, .host, .mailbox, .nibs, .blt] = true := by decide
  have h₀ := Touch.refl [.regs, .ctxs, .rings, .journal, .waiting, .host, .mailbox, .nibs, .blt] s
  unfold execArm
  try dsimp only
  repeat' first
    | with_reducible apply TouchR.next
    | with_reducible assumption
    | (with_reducible refine Field.sub_trans ?_ hL₀; decide)
    | with_reducible apply hostWrite_touch
    | with_reducible apply armEngine_touch
    | with_reducible apply Touch.ite
    | with_reducible refine TouchR.mono (by decide) (hostWrite_touch _ _)

theorem rearmEngine_touch {L₀ : List Field} {s₀ s : State} (n : Nat) (hL₀ : Field.sub [.regs, .ctxs, .rings, .journal, .waiting, .host, .mailbox, .nibs, .blt] L₀ = true)
  (h₀ : Touch L₀ s₀ s) : Touch L₀ s₀ (rearmEngine s n) := by
  unfold rearmEngine
  try dsimp only
  repeat' first
    | with_reducible assumption
    | (with_reducible refine Field.sub_trans ?_ hL₀; decide)
    | with_reducible apply setNib_touch
    | with_reducible apply nibRefuse_touch
    | with_reducible apply Touch.ite

theorem execRearm_touch (n : EngineId) (s : State) : TouchR [.regs, .ctxs, .rings, .journal, .waiting, .host, .mailbox, .nibs, .blt] s (execRearm n s) := by
  have hL₀ : Field.sub [.regs, .ctxs, .rings, .journal, .waiting, .host, .mailbox, .nibs, .blt] [.regs, .ctxs, .rings, .journal, .waiting, .host, .mailbox, .nibs, .blt] = true := by decide
  have h₀ := Touch.refl [.regs, .ctxs, .rings, .journal, .waiting, .host, .mailbox, .nibs, .blt] s
  unfold execRearm
  try dsimp only
  repeat' first
    | with_reducible apply TouchR.next
    | with_reducible assumption
    | (with_reducible refine Field.sub_trans ?_ hL₀; decide)
    | with_reducible apply hostWrite_touch
    | with_reducible apply rearmEngine_touch
    | with_reducible apply Touch.ite
    | with_reducible refine TouchR.mono (by decide) (hostWrite_touch _ _)

theorem stopEngine_touch {L₀ : List Field} {s₀ s : State} (n : Nat) (hL₀ : Field.sub [.regs, .ctxs, .rings, .journal, .waiting, .host, .mailbox, .nibs, .blt] L₀ = true)
  (h₀ : Touch L₀ s₀ s) : Touch L₀ s₀ (stopEngine s n) := by
  unfold stopEngine
  try dsimp only
  repeat' first
    | with_reducible assumption
    | (with_reducible refine Field.sub_trans ?_ hL₀; decide)
    | intro _
    | with_reducible apply setNib_touch
    | with_reducible apply nibRefuse_touch
    | with_reducible apply Touch.ite
    | split
    | (with_reducible apply Touch.of_fst; with_reducible assumption)
    | (with_reducible apply Touch.of_snd; with_reducible assumption)

theorem execStop_touch (n : EngineId) (s : State) : TouchR [.regs, .ctxs, .rings, .journal, .waiting, .host, .mailbox, .nibs, .blt] s (execStop n s) := by
  have hL₀ : Field.sub [.regs, .ctxs, .rings, .journal, .waiting, .host, .mailbox, .nibs, .blt] [.regs, .ctxs, .rings, .journal, .waiting, .host, .mailbox, .nibs, .blt] = true := by decide
  have h₀ := Touch.refl [.regs, .ctxs, .rings, .journal, .waiting, .host, .mailbox, .nibs, .blt] s
  unfold execStop
  try dsimp only
  repeat' first
    | with_reducible apply TouchR.next
    | with_reducible assumption
    | (with_reducible refine Field.sub_trans ?_ hL₀; decide)
    | with_reducible apply hostWrite_touch
    | with_reducible apply stopEngine_touch
    | with_reducible apply Touch.ite
    | with_reducible refine TouchR.mono (by decide) (hostWrite_touch _ _)

theorem askSwap_touch {L₀ : List Field} {s₀ s : State} (n : Nat) (hL₀ : Field.sub [.regs, .ctxs, .rings, .journal, .waiting, .host, .mailbox, .nibs, .blt] L₀ = true)
  (h₀ : Touch L₀ s₀ s) : Touch L₀ s₀ (askSwap s n) := by
  unfold askSwap
  try dsimp only
  repeat' first
    | with_reducible assumption
    | (with_reducible refine Field.sub_trans ?_ hL₀; decide)
    | with_reducible apply setNib_touch
    | with_reducible apply nibRefuse_touch
    | with_reducible apply Touch.ite

theorem execSwap_touch (n : EngineId) (s : State) : TouchR [.regs, .ctxs, .rings, .journal, .waiting, .host, .mailbox, .nibs, .blt] s (execSwap n s) := by
  have hL₀ : Field.sub [.regs, .ctxs, .rings, .journal, .waiting, .host, .mailbox, .nibs, .blt] [.regs, .ctxs, .rings, .journal, .waiting, .host, .mailbox, .nibs, .blt] = true := by decide
  have h₀ := Touch.refl [.regs, .ctxs, .rings, .journal, .waiting, .host, .mailbox, .nibs, .blt] s
  unfold execSwap
  try dsimp only
  repeat' first
    | with_reducible apply TouchR.next
    | with_reducible assumption
    | (with_reducible refine Field.sub_trans ?_ hL₀; decide)
    | with_reducible apply hostWrite_touch
    | with_reducible apply askSwap_touch
    | with_reducible apply Touch.ite
    | with_reducible refine TouchR.mono (by decide) (hostWrite_touch _ _)

theorem driveOutputs_touch {L₀ : List Field} {s₀ s : State} (n : Nat) (stat : Nat) (ws : List Word) (hL₀ : Field.sub [.freeCtr, .links, .dports, .eths, .blt] L₀ = true)
  (h₀ : Touch L₀ s₀ s) : Touch L₀ s₀ (driveOutputs s n stat ws) := by
  unfold driveOutputs
  try dsimp only
  repeat' first
    | with_reducible assumption
    | (with_reducible refine Field.sub_trans ?_ hL₀; decide)
    | intro _
    | with_reducible apply driveStream_touch
    | with_reducible apply Touch.ite
    | with_reducible apply Touch.fold
    | split

theorem runSample_touch {L₀ : List Field} {s₀ s : State} (n : Nat) (e0 : Nib) (slot : Bool) (c : Nat) (hL₀ : Field.sub [.freeCtr, .regs, .ctxs, .rings, .journal, .waiting, .host, .mailbox, .nibs, .links, .dports, .eths, .blt] L₀ = true)
  (h₀ : Touch L₀ s₀ s) : Touch L₀ s₀ (runSample s n e0 slot c) := by
  unfold runSample
  try dsimp only
  repeat' first
    | with_reducible assumption
    | (with_reducible refine Field.sub_trans ?_ hL₀; decide)
    | intro _
    | with_reducible apply setNib_touch
    | with_reducible apply driveOutputs_touch
    | with_reducible apply nibFlags_touch
    | fail_if_no_progress (with_reducible refine Touch.updFreeCtr (Field.sub_trans (by decide) hL₀) ?_)
    | with_reducible apply Touch.ite
    | split
    | (with_reducible apply Touch.of_fst; with_reducible assumption)
    | (with_reducible apply Touch.of_snd; with_reducible assumption)

theorem enterRun_touch {L₀ : List Field} {s₀ s : State} (n : Nat) (e : Nib) (hL₀ : Field.sub [.freeCtr, .regs, .ctxs, .rings, .journal, .waiting, .host, .mailbox, .nibs, .blt] L₀ = true)
  (h₀ : Touch L₀ s₀ s) : Touch L₀ s₀ (enterRun s n e).1 := by
  unfold enterRun
  try dsimp only
  repeat' first
    | with_reducible assumption
    | (with_reducible refine Field.sub_trans ?_ hL₀; decide)
    | with_reducible apply nibFlags_touch
    | with_reducible apply setNib_touch
    | fail_if_no_progress (with_reducible refine Touch.updFreeCtr (Field.sub_trans (by decide) hL₀) ?_)
    | with_reducible apply Touch.ite_fst
    | with_reducible apply Touch.ite

theorem armedSample_touch {L₀ : List Field} {s₀ s : State} (n : Nat) (e : Nib) (f : NibFrame) (hL₀ : Field.sub [.freeCtr, .regs, .ctxs, .rings, .journal, .waiting, .host, .mailbox, .nibs, .links, .dports, .eths, .blt] L₀ = true)
  (h₀ : Touch L₀ s₀ s) : Touch L₀ s₀ (armedSample s n e f) := by
  unfold armedSample
  try dsimp only
  repeat' first
    | with_reducible assumption
    | (with_reducible refine Field.sub_trans ?_ hL₀; decide)
    | intro _
    | with_reducible apply runSample_touch
    | with_reducible apply enterRun_touch
    | with_reducible apply nibFlags_touch
    | with_reducible apply driveOutputs_touch
    | with_reducible apply setNib_touch
    | with_reducible apply Touch.ite
    | split
    | (with_reducible apply Touch.of_fst; with_reducible assumption)
    | (with_reducible apply Touch.of_snd; with_reducible assumption)

theorem configSample_touch {L₀ : List Field} {s₀ s : State} (n : Nat) (e : Nib) (hL₀ : Field.sub [.freeCtr, .nibs, .links, .dports, .eths, .blt] L₀ = true)
  (h₀ : Touch L₀ s₀ s) : Touch L₀ s₀ (configSample s n e) := by
  unfold configSample
  try dsimp only
  repeat' first
    | with_reducible assumption
    | (with_reducible refine Field.sub_trans ?_ hL₀; decide)
    | with_reducible apply setNib_touch
    | with_reducible apply driveOutputs_touch
    | with_reducible apply Touch.ite

theorem execNibSample_touch (n : EngineId) (s : State) : TouchR [.freeCtr, .regs, .ctxs, .rings, .journal, .waiting, .host, .mailbox, .nibs, .links, .dports, .eths, .blt] s (execNibSample n s) := by
  have hL₀ : Field.sub [.freeCtr, .regs, .ctxs, .rings, .journal, .waiting, .host, .mailbox, .nibs, .links, .dports, .eths, .blt] [.freeCtr, .regs, .ctxs, .rings, .journal, .waiting, .host, .mailbox, .nibs, .links, .dports, .eths, .blt] = true := by decide
  have h₀ := Touch.refl [.freeCtr, .regs, .ctxs, .rings, .journal, .waiting, .host, .mailbox, .nibs, .links, .dports, .eths, .blt] s
  unfold execNibSample
  try dsimp only
  repeat' first
    | with_reducible apply TouchR.next
    | with_reducible apply TouchR.ite
    | with_reducible assumption
    | (with_reducible refine Field.sub_trans ?_ hL₀; decide)
    | intro _
    | with_reducible apply configSample_touch
    | with_reducible apply armedSample_touch
    | with_reducible apply nibFlags_touch
    | with_reducible apply setNib_touch
    | with_reducible apply runSample_touch
    | with_reducible apply Touch.ite
    | split
    | (with_reducible apply Touch.of_fst; with_reducible assumption)
    | (with_reducible apply Touch.of_snd; with_reducible assumption)

theorem execFreeRunSlot_touch (n : EngineId) (s : State) : TouchR [.freeCtr, .regs, .ctxs, .rings, .journal, .waiting, .host, .mailbox, .nibs, .links, .dports, .eths, .blt] s (execFreeRunSlot n s) := by
  have hL₀ : Field.sub [.freeCtr, .regs, .ctxs, .rings, .journal, .waiting, .host, .mailbox, .nibs, .links, .dports, .eths, .blt] [.freeCtr, .regs, .ctxs, .rings, .journal, .waiting, .host, .mailbox, .nibs, .links, .dports, .eths, .blt] = true := by decide
  have h₀ := Touch.refl [.freeCtr, .regs, .ctxs, .rings, .journal, .waiting, .host, .mailbox, .nibs, .links, .dports, .eths, .blt] s
  unfold execFreeRunSlot
  try dsimp only
  repeat' first
    | with_reducible apply TouchR.next
    | with_reducible apply TouchR.ite
    | with_reducible assumption
    | (with_reducible refine Field.sub_trans ?_ hL₀; decide)
    | intro _
    | with_reducible apply runSample_touch
    | with_reducible apply Touch.ite
    | split
    | (with_reducible apply Touch.of_fst; with_reducible assumption)
    | (with_reducible apply Touch.of_snd; with_reducible assumption)

theorem askSafe_touch {L₀ : List Field} {s₀ s : State}(hL₀ : Field.sub [.nibs] L₀ = true)
  (h₀ : Touch L₀ s₀ s) : Touch L₀ s₀ (askSafe s) := by
  unfold askSafe
  try dsimp only
  repeat' first
    | with_reducible assumption
    | (with_reducible refine Field.sub_trans ?_ hL₀; decide)
    | intro _
    | with_reducible apply setNib_touch
    | with_reducible apply Touch.ite
    | with_reducible apply Touch.fold
    | split

theorem resetEngine_touch {L₀ : List Field} {s₀ s : State} (n : Nat) (hL₀ : Field.sub [.freeCtr, .nibs, .links, .dports, .eths, .blt] L₀ = true)
  (h₀ : Touch L₀ s₀ s) : Touch L₀ s₀ (resetEngine s n) := by
  unfold resetEngine
  try dsimp only
  repeat' first
    | with_reducible assumption
    | (with_reducible refine Field.sub_trans ?_ hL₀; decide)
    | with_reducible apply setNib_touch
    | with_reducible apply configSample_touch
    | with_reducible apply Touch.ite

theorem coefAccess_touch {L₀ : List Field} {s₀ s : State} (n : Nat) (write : Option Word) (hL₀ : Field.sub [.regs, .ctxs, .rings, .journal, .waiting, .host, .mailbox, .nibs, .blt] L₀ = true)
  (h₀ : Touch L₀ s₀ s) : Touch L₀ s₀ (coefAccess s n write) := by
  unfold coefAccess
  try dsimp only
  repeat' first
    | with_reducible assumption
    | (with_reducible refine Field.sub_trans ?_ hL₀; decide)
    | intro _
    | with_reducible apply regSet_touch
    | with_reducible apply nibRefuse_touch
    | with_reducible apply setNib_touch
    | with_reducible apply Touch.ite
    | split
    | (with_reducible apply Touch.of_fst; with_reducible assumption)
    | (with_reducible apply Touch.of_snd; with_reducible assumption)

theorem execNibCoefDataAccess_touch (n : EngineId) (write : Option Word) (s : State) : TouchR [.regs, .ctxs, .rings, .journal, .waiting, .host, .mailbox, .nibs, .blt] s (execNibCoefDataAccess n write s) := by
  have hL₀ : Field.sub [.regs, .ctxs, .rings, .journal, .waiting, .host, .mailbox, .nibs, .blt] [.regs, .ctxs, .rings, .journal, .waiting, .host, .mailbox, .nibs, .blt] = true := by decide
  have h₀ := Touch.refl [.regs, .ctxs, .rings, .journal, .waiting, .host, .mailbox, .nibs, .blt] s
  unfold execNibCoefDataAccess
  try dsimp only
  repeat' first
    | with_reducible apply TouchR.next
    | with_reducible assumption
    | (with_reducible refine Field.sub_trans ?_ hL₀; decide)
    | with_reducible apply hostWrite_touch
    | intro _
    | with_reducible apply coefAccess_touch
    | with_reducible apply Touch.ite
    | split
    | (with_reducible apply Touch.of_fst; with_reducible assumption)
    | (with_reducible apply Touch.of_snd; with_reducible assumption)
    | with_reducible refine TouchR.mono (by decide) (hostWrite_touch _ _)

end Sys2Proof.Machine
end

