-- ==== Sys2Proof/Laws/TouchImages.lean ====
section
/-! SUPPORT. What each function of Machine/Images.lean may touch: its law in the sense of Laws/Frame.lean. -/

namespace Sys2Proof.Machine

theorem execImageBind_touch (c : CtxId) (r : RingId) (s : State) : TouchR [.regs, .parts, .ctxs, .rings, .journal, .waiting, .host, .mailbox, .mem, .blt] s (execImageBind c r s) := by
  have hL₀ : Field.sub [.regs, .parts, .ctxs, .rings, .journal, .waiting, .host, .mailbox, .mem, .blt] [.regs, .parts, .ctxs, .rings, .journal, .waiting, .host, .mailbox, .mem, .blt] = true := by decide
  have h₀ := Touch.refl [.regs, .parts, .ctxs, .rings, .journal, .waiting, .host, .mailbox, .mem, .blt] s
  unfold execImageBind
  try dsimp only
  repeat' first
    | with_reducible apply TouchR.next
    | with_reducible apply TouchR.ite
    | with_reducible assumption
    | (with_reducible refine Field.sub_trans ?_ hL₀; decide)
    | intro _
    | with_reducible apply finishItem_touch
    | with_reducible apply setSlot_touch
    | with_reducible apply beginItem_touch
    | fail_if_no_progress (with_reducible refine Touch.updMem (Field.sub_trans (by decide) hL₀) ?_)
    | with_reducible apply Touch.ite
    | split
    | (with_reducible apply Touch.of_fst; with_reducible assumption)
    | (with_reducible apply Touch.of_snd; with_reducible assumption)

theorem slotConfig_touch {L₀ : List Field} {s₀ s : State} (p : Nat) (k : Nat) (im : Image) (bound : Bool) (hL₀ : Field.sub [.blt] L₀ = true)
  (h₀ : Touch L₀ s₀ s) : Touch L₀ s₀ (slotConfig s p k im bound) := by
  unfold slotConfig
  try dsimp only
  repeat' first
    | with_reducible assumption
    | (with_reducible refine Field.sub_trans ?_ hL₀; decide)
    | with_reducible apply bltRecord_touch
    | with_reducible apply Touch.ite

theorem execBindComplete_touch (p : PartId) (k : SlotId) (s : State) : TouchR [.regs, .parts, .tiles, .ctxs, .rings, .journal, .waiting, .host, .mailbox, .blt] s (execBindComplete p k s) := by
  have hL₀ : Field.sub [.regs, .parts, .tiles, .ctxs, .rings, .journal, .waiting, .host, .mailbox, .blt] [.regs, .parts, .tiles, .ctxs, .rings, .journal, .waiting, .host, .mailbox, .blt] = true := by decide
  have h₀ := Touch.refl [.regs, .parts, .tiles, .ctxs, .rings, .journal, .waiting, .host, .mailbox, .blt] s
  unfold execBindComplete
  try dsimp only
  repeat' first
    | with_reducible apply TouchR.next
    | with_reducible apply TouchR.ite
    | with_reducible assumption
    | (with_reducible refine Field.sub_trans ?_ hL₀; decide)
    | intro _
    | with_reducible apply setSlot_touch
    | with_reducible apply loadStrokes_touch
    | with_reducible apply finishItem_touch
    | with_reducible apply slotConfig_touch
    | with_reducible apply Touch.ite
    | split
    | (with_reducible apply Touch.of_fst; with_reducible assumption)
    | (with_reducible apply Touch.of_snd; with_reducible assumption)

theorem unbindSlot_touch {L₀ : List Field} {s₀ s : State} (p : Nat) (k : Nat) (hL₀ : Field.sub [.regs, .parts, .tiles, .ctxs, .rings, .journal, .waiting, .host, .mailbox, .nibs, .mem, .blt] L₀ = true)
  (h₀ : Touch L₀ s₀ s) : Touch L₀ s₀ (unbindSlot s p k) := by
  unfold unbindSlot
  try dsimp only
  repeat' first
    | with_reducible assumption
    | (with_reducible refine Field.sub_trans ?_ hL₀; decide)
    | intro _
    | with_reducible apply dropStrokes_touch
    | with_reducible apply setPart_touch
    | with_reducible apply noPlanEntry_touch
    | with_reducible apply slotConfig_touch
    | fail_if_no_progress (with_reducible refine Touch.updMem (Field.sub_trans (by decide) hL₀) ?_)
    | with_reducible apply Touch.ite
    | with_reducible apply Touch.fold
    | split
    | (with_reducible apply Touch.of_fst; with_reducible assumption)
    | (with_reducible apply Touch.of_snd; with_reducible assumption)

theorem dropQueued_touch {L₀ : List Field} {s₀ s : State} (p : Nat) (k : Nat) (hL₀ : Field.sub [.regs, .parts, .be, .ctxs, .rings, .journal, .waiting, .host, .mailbox, .mem, .blt] L₀ = true)
  (h₀ : Touch L₀ s₀ s) : Touch L₀ s₀ (dropQueued s p k) := by
  unfold dropQueued
  try dsimp only
  repeat' first
    | with_reducible assumption
    | (with_reducible refine Field.sub_trans ?_ hL₀; decide)
    | intro _
    | with_reducible apply dropBe_touch
    | with_reducible apply Touch.ite
    | with_reducible apply Touch.fold
    | split
    | (with_reducible apply Touch.of_fst; with_reducible assumption)
    | (with_reducible apply Touch.of_snd; with_reducible assumption)

theorem execImageUnbind_touch (c : CtxId) (r : RingId) (s : State) : TouchR [.regs, .parts, .tiles, .be, .ctxs, .rings, .journal, .waiting, .host, .mailbox, .nibs, .mem, .blt] s (execImageUnbind c r s) := by
  have hL₀ : Field.sub [.regs, .parts, .tiles, .be, .ctxs, .rings, .journal, .waiting, .host, .mailbox, .nibs, .mem, .blt] [.regs, .parts, .tiles, .be, .ctxs, .rings, .journal, .waiting, .host, .mailbox, .nibs, .mem, .blt] = true := by decide
  have h₀ := Touch.refl [.regs, .parts, .tiles, .be, .ctxs, .rings, .journal, .waiting, .host, .mailbox, .nibs, .mem, .blt] s
  unfold execImageUnbind
  try dsimp only
  repeat' first
    | with_reducible apply TouchR.next
    | with_reducible apply TouchR.ite
    | with_reducible assumption
    | (with_reducible refine Field.sub_trans ?_ hL₀; decide)
    | intro _
    | with_reducible apply finishItem_touch
    | with_reducible apply setSlot_touch
    | with_reducible apply beginItem_touch
    | with_reducible apply dropQueued_touch
    | with_reducible apply unbindSlot_touch
    | with_reducible apply Touch.ite
    | split
    | (with_reducible apply Touch.of_fst; with_reducible assumption)
    | (with_reducible apply Touch.of_snd; with_reducible assumption)

theorem execUnbindAtBoundary_touch (p : PartId) (k : SlotId) (s : State) : TouchR [.regs, .parts, .tiles, .be, .ctxs, .rings, .journal, .waiting, .host, .mailbox, .nibs, .mem, .blt] s (execUnbindAtBoundary p k s) := by
  have hL₀ : Field.sub [.regs, .parts, .tiles, .be, .ctxs, .rings, .journal, .waiting, .host, .mailbox, .nibs, .mem, .blt] [.regs, .parts, .tiles, .be, .ctxs, .rings, .journal, .waiting, .host, .mailbox, .nibs, .mem, .blt] = true := by decide
  have h₀ := Touch.refl [.regs, .parts, .tiles, .be, .ctxs, .rings, .journal, .waiting, .host, .mailbox, .nibs, .mem, .blt] s
  unfold execUnbindAtBoundary
  try dsimp only
  repeat' first
    | with_reducible apply TouchR.next
    | with_reducible apply TouchR.ite
    | with_reducible assumption
    | (with_reducible refine Field.sub_trans ?_ hL₀; decide)
    | intro _
    | with_reducible apply finishItem_touch
    | with_reducible apply unbindSlot_touch
    | with_reducible apply dropQueued_touch
    | with_reducible apply Touch.ite
    | split
    | (with_reducible apply Touch.of_fst; with_reducible assumption)
    | (with_reducible apply Touch.of_snd; with_reducible assumption)

end Sys2Proof.Machine
end

