-- ==== Sys2Proof/Laws/TouchErrors.lean ====
section
/-! SUPPORT. What each function of Machine/Errors.lean may touch: its law in the sense of Laws/Frame.lean. -/

namespace Sys2Proof.Machine

theorem killForReload_touch {L₀ : List Field} {s₀ s : State} (p : Nat) (k : Nat) (hL₀ : Field.sub [.parts, .tiles, .be, .assay] L₀ = true)
  (h₀ : Touch L₀ s₀ s) : Touch L₀ s₀ (killForReload s p k) := by
  unfold killForReload
  try dsimp only
  repeat' first
    | with_reducible assumption
    | (with_reducible refine Field.sub_trans ?_ hL₀; decide)
    | intro _
    | with_reducible apply beginKill_touch
    | with_reducible apply Touch.ite
    | split
    | (with_reducible apply Touch.of_fst; with_reducible assumption)
    | (with_reducible apply Touch.of_snd; with_reducible assumption)

theorem failLaunchesOf_touch {L₀ : List Field} {s₀ s : State} (p : Nat) (k : Nat) (hL₀ : Field.sub [.regs, .parts, .tiles, .be, .ctxs, .rings, .journal, .waiting, .host, .mailbox, .blt, .assay] L₀ = true)
  (h₀ : Touch L₀ s₀ s) : Touch L₀ s₀ (failLaunchesOf s p k) := by
  unfold failLaunchesOf
  try dsimp only
  repeat' first
    | with_reducible assumption
    | (with_reducible refine Field.sub_trans ?_ hL₀; decide)
    | intro _
    | with_reducible apply beginKill_touch
    | with_reducible apply dropPostings_touch
    | with_reducible apply endMember_touch
    | with_reducible apply leaveFabric_touch
    | with_reducible apply setRun_touch
    | with_reducible apply Touch.ite
    | with_reducible apply Touch.fold
    | split
    | (with_reducible apply Touch.of_fst; with_reducible assumption)
    | (with_reducible apply Touch.of_snd; with_reducible assumption)

theorem failRingsOf_touch {L₀ : List Field} {s₀ s : State} (p : Nat) (k : Nat) (hL₀ : Field.sub [.regs, .parts, .tiles, .be, .ctxs, .rings, .journal, .waiting, .host, .mailbox, .mem, .blt, .assay] L₀ = true)
  (h₀ : Touch L₀ s₀ s) : Touch L₀ s₀ (failRingsOf s p k) := by
  unfold failRingsOf
  try dsimp only
  repeat' first
    | with_reducible assumption
    | (with_reducible refine Field.sub_trans ?_ hL₀; decide)
    | intro _
    | with_reducible apply beginKill_touch
    | with_reducible apply dropPostings_touch
    | with_reducible apply dropBe_touch
    | with_reducible apply Touch.ite
    | with_reducible apply Touch.fold
    | split
    | (with_reducible apply Touch.of_fst; with_reducible assumption)
    | (with_reducible apply Touch.of_snd; with_reducible assumption)

theorem unbindBad_touch {L₀ : List Field} {s₀ s : State} (p : Nat) (k : Nat) (hL₀ : Field.sub [.regs, .parts, .tiles, .be, .ctxs, .rings, .journal, .waiting, .host, .mailbox, .nibs, .mem, .blt, .assay] L₀ = true)
  (h₀ : Touch L₀ s₀ s) : Touch L₀ s₀ (unbindBad s p k) := by
  unfold unbindBad
  try dsimp only
  repeat' first
    | with_reducible assumption
    | (with_reducible refine Field.sub_trans ?_ hL₀; decide)
    | intro _
    | with_reducible apply failRingsOf_touch
    | with_reducible apply failLaunchesOf_touch
    | with_reducible apply finishItem_touch
    | with_reducible apply unbindSlot_touch
    | with_reducible apply Touch.ite
    | split
    | (with_reducible apply Touch.of_fst; with_reducible assumption)
    | (with_reducible apply Touch.of_snd; with_reducible assumption)

theorem reloadSlot_touch {L₀ : List Field} {s₀ s : State} (p : Nat) (k : Nat) (bad : Bool) (hL₀ : Field.sub [.regs, .parts, .tiles, .be, .ctxs, .rings, .journal, .waiting, .host, .mailbox, .nibs, .mem, .blt, .anl, .assay] L₀ = true)
  (h₀ : Touch L₀ s₀ s) : Touch L₀ s₀ (reloadSlot s p k bad) := by
  unfold reloadSlot
  try dsimp only
  repeat' first
    | with_reducible assumption
    | (with_reducible refine Field.sub_trans ?_ hL₀; decide)
    | intro _
    | with_reducible apply killForReload_touch
    | with_reducible apply writeFault_touch
    | with_reducible apply unbindBad_touch
    | with_reducible apply Touch.ite
    | split
    | (with_reducible apply Touch.of_fst; with_reducible assumption)
    | (with_reducible apply Touch.of_snd; with_reducible assumption)

theorem chargeError_touch {L₀ : List Field} {s₀ s : State} (e : ErrorPlace) (addr : Nat) (hL₀ : Field.sub [.regs, .parts, .tiles, .be, .ctxs, .rings, .journal, .waiting, .host, .mailbox, .nibs, .mem, .fuse, .blt, .anl, .assay] L₀ = true)
  (h₀ : Touch L₀ s₀ s) : Touch L₀ s₀ (chargeError s e addr) := by
  unfold chargeError
  try dsimp only
  repeat' first
    | (show ∀ f : Field, _; intro f hf; cases f <;> first | exact absurd (Field.sub_mem hL₀ (by decide)) hf | rfl)
    | with_reducible assumption
    | intro _
    | (with_reducible refine Field.sub_trans ?_ hL₀; decide)
    | with_reducible apply teardown_touch
    | with_reducible apply reloadSlot_touch
    | with_reducible apply setSlot_touch
    | with_reducible apply beginKill_touch
    | with_reducible apply failCore_touch
    | fail_if_no_progress (with_reducible refine Touch.updBe (Field.sub_trans (by decide) hL₀) ?_)
    | fail_if_no_progress (with_reducible refine Touch.updCtxs (Field.sub_trans (by decide) hL₀) ?_)
    | fail_if_no_progress (with_reducible refine Touch.updRings (Field.sub_trans (by decide) hL₀) ?_)
    | fail_if_no_progress (with_reducible refine Touch.updJournal (Field.sub_trans (by decide) hL₀) ?_)
    | fail_if_no_progress (with_reducible refine Touch.updWaiting (Field.sub_trans (by decide) hL₀) ?_)
    | fail_if_no_progress (with_reducible refine Touch.updBlt (Field.sub_trans (by decide) hL₀) ?_)
    | with_reducible apply Touch.ite
    | with_reducible apply Touch.fold
    | split
    | (with_reducible apply Touch.of_fst; with_reducible assumption)
    | (with_reducible apply Touch.of_snd; with_reducible assumption)
    | (with_reducible refine Touch.mk ?_ ?_ rfl rfl rfl rfl)

theorem execUncorrectableError_touch (e : ErrorPlace) (addr : Word) (s : State) : TouchR [.regs, .parts, .tiles, .be, .ctxs, .rings, .journal, .waiting, .host, .mailbox, .nibs, .mem, .fuse, .blt, .anl, .assay] s (execUncorrectableError e addr s) := by
  have hL₀ : Field.sub [.regs, .parts, .tiles, .be, .ctxs, .rings, .journal, .waiting, .host, .mailbox, .nibs, .mem, .fuse, .blt, .anl, .assay] [.regs, .parts, .tiles, .be, .ctxs, .rings, .journal, .waiting, .host, .mailbox, .nibs, .mem, .fuse, .blt, .anl, .assay] = true := by decide
  have h₀ := Touch.refl [.regs, .parts, .tiles, .be, .ctxs, .rings, .journal, .waiting, .host, .mailbox, .nibs, .mem, .fuse, .blt, .anl, .assay] s
  unfold execUncorrectableError
  try dsimp only
  repeat' first
    | with_reducible apply TouchR.next
    | with_reducible assumption
    | (with_reducible refine Field.sub_trans ?_ hL₀; decide)
    | intro _
    | with_reducible apply writeFault_touch
    | with_reducible apply markRow_touch
    | with_reducible apply countTileUe_touch
    | with_reducible apply chargeError_touch
    | fail_if_no_progress (with_reducible refine Touch.updMem (Field.sub_trans (by decide) hL₀) ?_)
    | with_reducible apply Touch.ite
    | split
    | (with_reducible apply Touch.of_fst; with_reducible assumption)
    | (with_reducible apply Touch.of_snd; with_reducible assumption)

theorem execScrub_touch (array : Fin 55) (addr : Word) (corrected : Bool) (s : State) : TouchR [.regs, .ctxs, .rings, .journal, .waiting, .host, .mailbox, .mem, .fuse, .blt, .anl] s (execScrub array addr corrected s) := by
  have hL₀ : Field.sub [.regs, .ctxs, .rings, .journal, .waiting, .host, .mailbox, .mem, .fuse, .blt, .anl] [.regs, .ctxs, .rings, .journal, .waiting, .host, .mailbox, .mem, .fuse, .blt, .anl] = true := by decide
  have h₀ := Touch.refl [.regs, .ctxs, .rings, .journal, .waiting, .host, .mailbox, .mem, .fuse, .blt, .anl] s
  unfold execScrub
  try dsimp only
  repeat' first
    | with_reducible apply TouchR.next
    | with_reducible apply TouchR.ite
    | (show ∀ f : Field, _; intro f hf; cases f <;> first | exact absurd (Field.sub_mem hL₀ (by decide)) hf | rfl)
    | with_reducible assumption
    | (with_reducible refine Field.sub_trans ?_ hL₀; decide)
    | with_reducible apply markRow_touch
    | with_reducible apply countTileCe_touch
    | fail_if_no_progress (with_reducible refine Touch.updMem (Field.sub_trans (by decide) hL₀) ?_)
    | fail_if_no_progress (with_reducible refine Touch.updAnl (Field.sub_trans (by decide) hL₀) ?_)
    | with_reducible apply Touch.ite
    | (with_reducible refine Touch.mk ?_ ?_ rfl rfl rfl rfl)

theorem execAssayKat_touch (lane : Fin 16) (pass : Bool) (s : State) : TouchR [.regs, .ctxs, .rings, .journal, .waiting, .host, .mailbox, .fuse, .blt, .anl, .assay] s (execAssayKat lane pass s) := by
  have hL₀ : Field.sub [.regs, .ctxs, .rings, .journal, .waiting, .host, .mailbox, .fuse, .blt, .anl, .assay] [.regs, .ctxs, .rings, .journal, .waiting, .host, .mailbox, .fuse, .blt, .anl, .assay] = true := by decide
  have h₀ := Touch.refl [.regs, .ctxs, .rings, .journal, .waiting, .host, .mailbox, .fuse, .blt, .anl, .assay] s
  unfold execAssayKat
  try dsimp only
  repeat' first
    | with_reducible apply TouchR.next
    | with_reducible apply TouchR.ite
    | with_reducible assumption
    | (with_reducible refine Field.sub_trans ?_ hL₀; decide)
    | intro _
    | with_reducible apply writeFault_touch
    | with_reducible apply markUnit_touch
    | fail_if_no_progress (with_reducible refine Touch.updAssay (Field.sub_trans (by decide) hL₀) ?_)
    | with_reducible apply Touch.ite
    | split

theorem failPostings_touch {L : List Field} {r s : State} (n p : Nat) (hL : Field.sub [.regs, .parts, .be, .ctxs, .rings, .journal, .waiting, .host, .mailbox, .links, .mem, .blt, .anl, .assay] L = true)
    (h : Touch L r s) : Touch L r (failPostings n s p) := by
  induction n generalizing s with
  | zero => exact h
  | succ n ih =>
    unfold failPostings
    split
    · exact h
    · exact ih (partVerdict_touch _ _ hL h)

theorem failPool_touch {L₀ : List Field} {s₀ s : State}(hL₀ : Field.sub [.regs, .be, .ctxs, .rings, .journal, .waiting, .host, .mailbox, .blt, .anl, .assay] L₀ = true)
  (h₀ : Touch L₀ s₀ s) : Touch L₀ s₀ (failPool s) := by
  unfold failPool
  try dsimp only
  repeat' first
    | with_reducible assumption
    | (with_reducible refine Field.sub_trans ?_ hL₀; decide)
    | intro _
    | with_reducible apply poolVerdict_touch
    | fail_if_no_progress (with_reducible refine Touch.updAssay (Field.sub_trans (by decide) hL₀) ?_)
    | with_reducible apply Touch.ite
    | with_reducible apply Touch.fold
    | split
    | (with_reducible apply Touch.of_fst; with_reducible assumption)
    | (with_reducible apply Touch.of_snd; with_reducible assumption)

theorem execAssayClockFault_touch(s : State) : TouchR [.regs, .parts, .be, .ctxs, .rings, .journal, .waiting, .host, .mailbox, .links, .mem, .blt, .anl, .assay] s (execAssayClockFault s) := by
  have hL₀ : Field.sub [.regs, .parts, .be, .ctxs, .rings, .journal, .waiting, .host, .mailbox, .links, .mem, .blt, .anl, .assay] [.regs, .parts, .be, .ctxs, .rings, .journal, .waiting, .host, .mailbox, .links, .mem, .blt, .anl, .assay] = true := by decide
  have h₀ := Touch.refl [.regs, .parts, .be, .ctxs, .rings, .journal, .waiting, .host, .mailbox, .links, .mem, .blt, .anl, .assay] s
  unfold execAssayClockFault
  try dsimp only
  repeat' first
    | with_reducible apply TouchR.next
    | with_reducible assumption
    | (with_reducible refine Field.sub_trans ?_ hL₀; decide)
    | intro _
    | with_reducible apply writeFault_touch
    | with_reducible apply failPool_touch
    | with_reducible apply failPostings_touch
    | fail_if_no_progress (with_reducible refine Touch.updAssay (Field.sub_trans (by decide) hL₀) ?_)
    | with_reducible apply Touch.ite
    | with_reducible apply Touch.fold
    | split

theorem execTileKat_touch (t : TileId) (pass : Bool) (s : State) : TouchR [.regs, .ctxs, .rings, .journal, .waiting, .host, .mailbox, .fuse, .blt, .anl] s (execTileKat t pass s) := by
  have hL₀ : Field.sub [.regs, .ctxs, .rings, .journal, .waiting, .host, .mailbox, .fuse, .blt, .anl] [.regs, .ctxs, .rings, .journal, .waiting, .host, .mailbox, .fuse, .blt, .anl] = true := by decide
  have h₀ := Touch.refl [.regs, .ctxs, .rings, .journal, .waiting, .host, .mailbox, .fuse, .blt, .anl] s
  unfold execTileKat
  try dsimp only
  repeat' first
    | with_reducible apply TouchR.next
    | with_reducible apply TouchR.ite
    | with_reducible assumption
    | (with_reducible refine Field.sub_trans ?_ hL₀; decide)
    | intro _
    | with_reducible apply markTile_touch
    | fail_if_no_progress (with_reducible refine Touch.updAnl (Field.sub_trans (by decide) hL₀) ?_)
    | with_reducible apply Touch.ite
    | split
    | (with_reducible apply Touch.of_fst; with_reducible assumption)
    | (with_reducible apply Touch.of_snd; with_reducible assumption)

end Sys2Proof.Machine
end

