-- ==== Sys2Proof/Laws/TouchPartitions.lean ====
section
/-! SUPPORT. What each function of Machine/Partitions.lean may touch: its law in the sense of Laws/Frame.lean. -/

namespace Sys2Proof.Machine

theorem runBanks_touch {L₀ : List Field} {s₀ s : State}(hL₀ : Field.sub [.pwr] L₀ = true)
  (h₀ : Touch L₀ s₀ s) : Touch L₀ s₀ (runBanks s) := by
  unfold runBanks
  try dsimp only
  repeat' first
    | with_reducible assumption
    | (with_reducible refine Field.sub_trans ?_ hL₀; decide)
    | intro _
    | with_reducible apply setDom_touch
    | with_reducible apply Touch.ite
    | with_reducible apply Touch.fold
    | split

theorem seat_touch {L₀ : List Field} {s₀ s : State} (p : Nat) (q : PartParams) (hL₀ : Field.sub [.parts, .mem, .pwr] L₀ = true)
  (h₀ : Touch L₀ s₀ s) : Touch L₀ s₀ (seat s p q) := by
  unfold seat
  try dsimp only
  repeat' first
    | with_reducible assumption
    | (with_reducible refine Field.sub_trans ?_ hL₀; decide)
    | with_reducible apply runBanks_touch
    | with_reducible apply setPart_touch
    | fail_if_no_progress (with_reducible refine Touch.updMem (Field.sub_trans (by decide) hL₀) ?_)
    | with_reducible apply Touch.ite

theorem freshTiles_touch {L₀ : List Field} {s₀ s : State} (p : Nat) (hL₀ : Field.sub [.tiles] L₀ = true)
  (h₀ : Touch L₀ s₀ s) : Touch L₀ s₀ (freshTiles s p) := by
  unfold freshTiles
  try dsimp only
  repeat' first
    | with_reducible assumption
    | (with_reducible refine Field.sub_trans ?_ hL₀; decide)
    | intro _
    | with_reducible apply modTiles_touch
    | with_reducible apply Touch.ite
    | split

theorem enablePart_touch {L₀ : List Field} {s₀ s : State} (p : Nat) (hL₀ : Field.sub [.regs, .parts, .tiles, .mem, .pwr] L₀ = true)
  (h₀ : Touch L₀ s₀ s) : Touch L₀ s₀ (enablePart s p) := by
  unfold enablePart
  try dsimp only
  repeat' first
    | with_reducible assumption
    | (with_reducible refine Field.sub_trans ?_ hL₀; decide)
    | intro _
    | with_reducible apply recordErr_touch
    | with_reducible apply regSet_touch
    | with_reducible apply seat_touch
    | with_reducible apply setPart_touch
    | with_reducible apply freshTiles_touch
    | with_reducible apply Touch.ite
    | split
    | (with_reducible apply Touch.of_fst; with_reducible assumption)
    | (with_reducible apply Touch.of_snd; with_reducible assumption)

theorem execEnable_touch (p : PartId) (s : State) : TouchR [.regs, .parts, .tiles, .mem, .pwr] s (execEnable p s) := by
  have hL₀ : Field.sub [.regs, .parts, .tiles, .mem, .pwr] [.regs, .parts, .tiles, .mem, .pwr] = true := by decide
  have h₀ := Touch.refl [.regs, .parts, .tiles, .mem, .pwr] s
  unfold execEnable
  try dsimp only
  repeat' first
    | with_reducible apply TouchR.next
    | with_reducible assumption
    | (with_reducible refine Field.sub_trans ?_ hL₀; decide)
    | with_reducible apply hostWrite_touch
    | with_reducible apply enablePart_touch
    | with_reducible apply Touch.ite
    | with_reducible refine TouchR.mono (by decide) (hostWrite_touch _ _)

theorem unseat_touch {L₀ : List Field} {s₀ s : State} (p : Nat) (hL₀ : Field.sub [.parts, .tiles, .mem] L₀ = true)
  (h₀ : Touch L₀ s₀ s) : Touch L₀ s₀ (unseat s p) := by
  unfold unseat
  try dsimp only
  repeat' first
    | with_reducible assumption
    | (with_reducible refine Field.sub_trans ?_ hL₀; decide)
    | with_reducible apply freshTiles_touch
    | with_reducible apply setPart_touch
    | fail_if_no_progress (with_reducible refine Touch.updMem (Field.sub_trans (by decide) hL₀) ?_)
    | with_reducible apply Touch.ite

theorem disablePart_touch {L₀ : List Field} {s₀ s : State} (p : Nat) (hL₀ : Field.sub [.regs, .parts, .tiles, .mem] L₀ = true)
  (h₀ : Touch L₀ s₀ s) : Touch L₀ s₀ (disablePart s p) := by
  unfold disablePart
  try dsimp only
  repeat' first
    | with_reducible assumption
    | (with_reducible refine Field.sub_trans ?_ hL₀; decide)
    | with_reducible apply recordErr_touch
    | with_reducible apply unseat_touch
    | with_reducible apply Touch.ite

theorem execDisable_touch (p : PartId) (s : State) : TouchR [.regs, .parts, .tiles, .mem] s (execDisable p s) := by
  have hL₀ : Field.sub [.regs, .parts, .tiles, .mem] [.regs, .parts, .tiles, .mem] = true := by decide
  have h₀ := Touch.refl [.regs, .parts, .tiles, .mem] s
  unfold execDisable
  try dsimp only
  repeat' first
    | with_reducible apply TouchR.next
    | with_reducible assumption
    | (with_reducible refine Field.sub_trans ?_ hL₀; decide)
    | with_reducible apply hostWrite_touch
    | with_reducible apply disablePart_touch
    | with_reducible apply Touch.ite
    | with_reducible refine TouchR.mono (by decide) (hostWrite_touch _ _)

theorem askReshape_touch {L₀ : List Field} {s₀ s : State} (p : Nat) (hL₀ : Field.sub [.regs, .parts] L₀ = true)
  (h₀ : Touch L₀ s₀ s) : Touch L₀ s₀ (askReshape s p) := by
  unfold askReshape
  try dsimp only
  repeat' first
    | with_reducible assumption
    | (with_reducible refine Field.sub_trans ?_ hL₀; decide)
    | with_reducible apply recordErr_touch
    | with_reducible apply setPart_touch
    | with_reducible apply Touch.ite

theorem execReshape_touch (p : PartId) (s : State) : TouchR [.regs, .parts] s (execReshape p s) := by
  have hL₀ : Field.sub [.regs, .parts] [.regs, .parts] = true := by decide
  have h₀ := Touch.refl [.regs, .parts] s
  unfold execReshape
  try dsimp only
  repeat' first
    | with_reducible apply TouchR.next
    | with_reducible assumption
    | (with_reducible refine Field.sub_trans ?_ hL₀; decide)
    | with_reducible apply hostWrite_touch
    | with_reducible apply askReshape_touch
    | with_reducible apply Touch.ite
    | with_reducible refine TouchR.mono (by decide) (hostWrite_touch _ _)

theorem execReshapeStart_touch(s : State) : TouchR [.parts, .tiles, .be, .anl, .assay] s (execReshapeStart s) := by
  have hL₀ : Field.sub [.parts, .tiles, .be, .anl, .assay] [.parts, .tiles, .be, .anl, .assay] = true := by decide
  have h₀ := Touch.refl [.parts, .tiles, .be, .anl, .assay] s
  unfold execReshapeStart
  try dsimp only
  repeat' first
    | with_reducible apply TouchR.next
    | with_reducible apply TouchR.ite
    | with_reducible assumption
    | (with_reducible refine Field.sub_trans ?_ hL₀; decide)
    | intro _
    | with_reducible apply beginKill_touch
    | with_reducible apply killChecks_touch
    | with_reducible apply setPart_touch
    | fail_if_no_progress (with_reducible refine Touch.updAnl (Field.sub_trans (by decide) hL₀) ?_)
    | with_reducible apply Touch.ite
    | with_reducible apply Touch.fold
    | split
    | (with_reducible apply Touch.of_fst; with_reducible assumption)
    | (with_reducible apply Touch.of_snd; with_reducible assumption)

theorem reloadResident_touch {L₀ : List Field} {s₀ s : State} (p : Nat) (hL₀ : Field.sub [.regs, .parts, .tiles, .be, .ctxs, .rings, .journal, .waiting, .host, .mailbox, .nibs, .mem, .blt, .assay] L₀ = true)
  (h₀ : Touch L₀ s₀ s) : Touch L₀ s₀ (reloadResident s p) := by
  unfold reloadResident
  try dsimp only
  repeat' first
    | with_reducible assumption
    | (with_reducible refine Field.sub_trans ?_ hL₀; decide)
    | intro _
    | with_reducible apply unbindBad_touch
    | with_reducible apply loadStrokes_touch
    | with_reducible apply Touch.ite
    | with_reducible apply Touch.fold
    | split
    | (with_reducible apply Touch.of_fst; with_reducible assumption)
    | (with_reducible apply Touch.of_snd; with_reducible assumption)

theorem reseat_touch {L₀ : List Field} {s₀ s : State} (p : Nat) (hL₀ : Field.sub [.regs, .parts, .mem, .pwr] L₀ = true)
  (h₀ : Touch L₀ s₀ s) : Touch L₀ s₀ (reseat s p) := by
  unfold reseat
  try dsimp only
  repeat' first
    | with_reducible assumption
    | (with_reducible refine Field.sub_trans ?_ hL₀; decide)
    | intro _
    | with_reducible apply seat_touch
    | with_reducible apply setPart_touch
    | with_reducible apply recordErr_touch
    | with_reducible apply Touch.ite
    | split

theorem execReshapeEnd_touch(s : State) : TouchR [.regs, .parts, .tiles, .be, .ctxs, .rings, .journal, .waiting, .host, .mailbox, .nibs, .mem, .pwr, .fuse, .blt, .anl, .assay] s (execReshapeEnd s) := by
  have hL₀ : Field.sub [.regs, .parts, .tiles, .be, .ctxs, .rings, .journal, .waiting, .host, .mailbox, .nibs, .mem, .pwr, .fuse, .blt, .anl, .assay] [.regs, .parts, .tiles, .be, .ctxs, .rings, .journal, .waiting, .host, .mailbox, .nibs, .mem, .pwr, .fuse, .blt, .anl, .assay] = true := by decide
  have h₀ := Touch.refl [.regs, .parts, .tiles, .be, .ctxs, .rings, .journal, .waiting, .host, .mailbox, .nibs, .mem, .pwr, .fuse, .blt, .anl, .assay] s
  unfold execReshapeEnd
  try dsimp only
  repeat' first
    | with_reducible apply TouchR.next
    | with_reducible apply TouchR.ite
    | (show ∀ f : Field, _; intro f hf; cases f <;> first | exact absurd (Field.sub_mem hL₀ (by decide)) hf | rfl)
    | with_reducible assumption
    | intro _
    | (with_reducible refine Field.sub_trans ?_ hL₀; decide)
    | with_reducible apply freshTiles_touch
    | with_reducible apply setPart_touch
    | with_reducible apply applySpare_touch
    | with_reducible apply reseat_touch
    | with_reducible apply reloadResident_touch
    | fail_if_no_progress (with_reducible refine Touch.updMem (Field.sub_trans (by decide) hL₀) ?_)
    | fail_if_no_progress (with_reducible refine Touch.updAnl (Field.sub_trans (by decide) hL₀) ?_)
    | with_reducible apply Touch.ite
    | with_reducible apply Touch.fold
    | split
    | (with_reducible refine Touch.mk ?_ ?_ rfl rfl rfl rfl)

theorem anlGo_touch {L₀ : List Field} {s₀ s : State}(hL₀ : Field.sub [.anl] L₀ = true)
  (h₀ : Touch L₀ s₀ s) : Touch L₀ s₀ (anlGo s) := by
  unfold anlGo
  try dsimp only
  repeat' first
    | with_reducible assumption
    | (with_reducible refine Field.sub_trans ?_ hL₀; decide)
    | intro _
    | fail_if_no_progress (with_reducible refine Touch.updAnl (Field.sub_trans (by decide) hL₀) ?_)
    | with_reducible apply Touch.ite
    | split

theorem execAnlGo_touch(s : State) : TouchR [.anl] s (execAnlGo s) := by
  have hL₀ : Field.sub [.anl] [.anl] = true := by decide
  have h₀ := Touch.refl [.anl] s
  unfold execAnlGo
  try dsimp only
  repeat' first
    | with_reducible apply TouchR.next
    | with_reducible assumption
    | (with_reducible refine Field.sub_trans ?_ hL₀; decide)
    | with_reducible apply hostWrite_touch
    | with_reducible apply anlGo_touch
    | with_reducible apply Touch.ite
    | with_reducible refine TouchR.mono (by decide) (hostWrite_touch _ _)

end Sys2Proof.Machine
end

