-- ==== Sys2Proof/Laws/TouchPorts.lean ====
section
/-! SUPPORT. What each function of Machine/Ports.lean may touch: its law in the sense of Laws/Frame.lean. -/

namespace Sys2Proof.Machine

theorem execPortPllLock_touch (port : Port) (s : State) : TouchR [.links, .dports, .eths] s (execPortPllLock port s) := by
  have hL₀ : Field.sub [.links, .dports, .eths] [.links, .dports, .eths] = true := by decide
  have h₀ := Touch.refl [.links, .dports, .eths] s
  unfold execPortPllLock
  try dsimp only
  repeat' first
    | with_reducible apply TouchR.next
    | with_reducible apply TouchR.ite
    | with_reducible assumption
    | (with_reducible refine Field.sub_trans ?_ hL₀; decide)
    | intro _
    | with_reducible apply setLink_touch
    | with_reducible apply setDport_touch
    | with_reducible apply setEth_touch
    | with_reducible apply Touch.ite
    | split
    | (with_reducible apply Touch.of_fst; with_reducible assumption)
    | (with_reducible apply Touch.of_snd; with_reducible assumption)

theorem execDpFrameRx_touch (d : PortId) (f : PortFrame) (s : State) : TouchR [.freeCtr, .regs, .parts, .nibs, .blt] s (execDpFrameRx d f s) := by
  have hL₀ : Field.sub [.freeCtr, .regs, .parts, .nibs, .blt] [.freeCtr, .regs, .parts, .nibs, .blt] = true := by decide
  have h₀ := Touch.refl [.freeCtr, .regs, .parts, .nibs, .blt] s
  unfold execDpFrameRx
  try dsimp only
  repeat' first
    | with_reducible apply TouchR.next
    | with_reducible apply TouchR.ite
    | with_reducible assumption
    | (with_reducible refine Field.sub_trans ?_ hL₀; decide)
    | intro _
    | with_reducible apply frameRecord_touch
    | with_reducible apply bump_touch
    | with_reducible apply acceptFrame_touch
    | with_reducible apply Touch.ite
    | split

theorem execSafeFrameTimer_touch (d : PortId) (s : State) : TouchR [.dports] s (execSafeFrameTimer d s) := by
  have hL₀ : Field.sub [.dports] [.dports] = true := by decide
  have h₀ := Touch.refl [.dports] s
  unfold execSafeFrameTimer
  try dsimp only
  repeat' first
    | with_reducible apply TouchR.next
    | with_reducible apply TouchR.ite
    | with_reducible assumption
    | (with_reducible refine Field.sub_trans ?_ hL₀; decide)
    | with_reducible apply setDport_touch
    | with_reducible apply Touch.ite

theorem hearMac_touch {L₀ : List Field} {s₀ s : State} (e : Nat) (mac : BitVec 48) (hL₀ : Field.sub [.partners] L₀ = true)
  (h₀ : Touch L₀ s₀ s) : Touch L₀ s₀ (hearMac s e mac) := by
  unfold hearMac
  try dsimp only
  repeat' first
    | with_reducible assumption
    | (with_reducible refine Field.sub_trans ?_ hL₀; decide)
    | intro _
    | with_reducible apply setPartner_touch
    | with_reducible apply Touch.ite
    | with_reducible apply Touch.fold
    | split

theorem ethTake_touch {L₀ : List Field} {s₀ s : State} (e : Nat) (i : Nat) (f : EthFrame) (hL₀ : Field.sub [.freeCtr, .parts, .nibs, .eths, .blt] L₀ = true)
  (h₀ : Touch L₀ s₀ s) : Touch L₀ s₀ (ethTake s e i f) := by
  unfold ethTake
  try dsimp only
  repeat' first
    | with_reducible assumption
    | (with_reducible refine Field.sub_trans ?_ hL₀; decide)
    | intro _
    | with_reducible apply frameRecord_touch
    | with_reducible apply setEth_touch
    | with_reducible apply streamSet_touch
    | with_reducible apply acceptFrame_touch
    | with_reducible apply Touch.ite
    | split
    | (with_reducible apply Touch.of_fst; with_reducible assumption)
    | (with_reducible apply Touch.of_snd; with_reducible assumption)

theorem ethMatch_touch {L₀ : List Field} {s₀ s : State} (e : Nat) (f : EthFrame) (hL₀ : Field.sub [.freeCtr, .regs, .parts, .nibs, .eths, .blt] L₀ = true)
  (h₀ : Touch L₀ s₀ s) : Touch L₀ s₀ (ethMatch s e f) := by
  unfold ethMatch
  try dsimp only
  repeat' first
    | with_reducible assumption
    | (with_reducible refine Field.sub_trans ?_ hL₀; decide)
    | intro _
    | with_reducible apply bump_touch
    | with_reducible apply ethTake_touch
    | with_reducible apply frameRecord_touch
    | with_reducible apply Touch.ite
    | split
    | (with_reducible apply Touch.of_fst; with_reducible assumption)
    | (with_reducible apply Touch.of_snd; with_reducible assumption)

theorem execEthStreamRx_touch (e : EthId) (f : EthFrame) (s : State) : TouchR [.freeCtr, .regs, .parts, .nibs, .eths, .partners, .blt] s (execEthStreamRx e f s) := by
  have hL₀ : Field.sub [.freeCtr, .regs, .parts, .nibs, .eths, .partners, .blt] [.freeCtr, .regs, .parts, .nibs, .eths, .partners, .blt] = true := by decide
  have h₀ := Touch.refl [.freeCtr, .regs, .parts, .nibs, .eths, .partners, .blt] s
  unfold execEthStreamRx
  try dsimp only
  repeat' first
    | with_reducible apply TouchR.next
    | with_reducible apply TouchR.ite
    | with_reducible assumption
    | (with_reducible refine Field.sub_trans ?_ hL₀; decide)
    | intro _
    | with_reducible apply setEth_touch
    | with_reducible apply hearMac_touch
    | with_reducible apply identify_touch
    | with_reducible apply attachmentGone_touch
    | with_reducible apply ethMatch_touch
    | with_reducible apply Touch.ite
    | split

theorem ethDown_touch {L₀ : List Field} {s₀ s : State} (e : Nat) (hL₀ : Field.sub [.eths] L₀ = true)
  (h₀ : Touch L₀ s₀ s) : Touch L₀ s₀ (ethDown s e) := by
  unfold ethDown
  try dsimp only
  repeat' first
    | with_reducible assumption
    | (with_reducible refine Field.sub_trans ?_ hL₀; decide)
    | with_reducible apply setEth_touch
    | with_reducible apply Touch.ite

end Sys2Proof.Machine
end

