-- ==== Sys2Proof/Laws/TouchPower.lean ====
section
/-! SUPPORT. What each function of Machine/Power.lean may touch: its law in the sense of Laws/Frame.lean. -/

namespace Sys2Proof.Machine

theorem execPowerDomainLower_touch (d : Fin 96) (st : PowerState) (s : State) : TouchR [.tiles, .pwr] s (execPowerDomainLower d st s) := by
  have hL₀ : Field.sub [.tiles, .pwr] [.tiles, .pwr] = true := by decide
  have h₀ := Touch.refl [.tiles, .pwr] s
  unfold execPowerDomainLower
  try dsimp only
  repeat' first
    | with_reducible apply TouchR.next
    | with_reducible apply TouchR.ite
    | with_reducible assumption
    | (with_reducible refine Field.sub_trans ?_ hL₀; decide)
    | with_reducible apply lowerDom_touch
    | with_reducible apply Touch.ite

theorem execPowerDomainWake_touch (d : Fin 96) (s : State) : TouchR [.pwr] s (execPowerDomainWake d s) := by
  have hL₀ : Field.sub [.pwr] [.pwr] = true := by decide
  have h₀ := Touch.refl [.pwr] s
  unfold execPowerDomainWake
  try dsimp only
  repeat' first
    | with_reducible apply TouchR.next
    | with_reducible apply TouchR.ite
    | with_reducible assumption
    | (with_reducible refine Field.sub_trans ?_ hL₀; decide)
    | intro _
    | with_reducible apply setDom_touch
    | fail_if_no_progress (with_reducible refine Touch.updPwr (Field.sub_trans (by decide) hL₀) ?_)
    | with_reducible apply Touch.ite
    | with_reducible apply Touch.fold
    | split

theorem execStrokeReload_touch (quad : Fin 64) (s : State) : TouchR [.regs, .parts, .tiles, .be, .ctxs, .rings, .journal, .waiting, .host, .mailbox, .nibs, .mem, .pwr, .blt, .assay] s (execStrokeReload quad s) := by
  have hL₀ : Field.sub [.regs, .parts, .tiles, .be, .ctxs, .rings, .journal, .waiting, .host, .mailbox, .nibs, .mem, .pwr, .blt, .assay] [.regs, .parts, .tiles, .be, .ctxs, .rings, .journal, .waiting, .host, .mailbox, .nibs, .mem, .pwr, .blt, .assay] = true := by decide
  have h₀ := Touch.refl [.regs, .parts, .tiles, .be, .ctxs, .rings, .journal, .waiting, .host, .mailbox, .nibs, .mem, .pwr, .blt, .assay] s
  unfold execStrokeReload
  try dsimp only
  repeat' first
    | with_reducible apply TouchR.next
    | with_reducible apply TouchR.ite
    | with_reducible assumption
    | (with_reducible refine Field.sub_trans ?_ hL₀; decide)
    | intro _
    | with_reducible apply reloadResident_touch
    | with_reducible apply setDom_touch
    | fail_if_no_progress (with_reducible refine Touch.updPwr (Field.sub_trans (by decide) hL₀) ?_)
    | with_reducible apply Touch.ite
    | with_reducible apply Touch.fold

theorem lowerIdle_touch {L₀ : List Field} {s₀ s : State} (st : PowerState) (hL₀ : Field.sub [.tiles, .pwr] L₀ = true)
  (h₀ : Touch L₀ s₀ s) : Touch L₀ s₀ (lowerIdle s st) := by
  unfold lowerIdle
  try dsimp only
  repeat' first
    | with_reducible assumption
    | (with_reducible refine Field.sub_trans ?_ hL₀; decide)
    | intro _
    | with_reducible apply lowerQuad_touch
    | with_reducible apply Touch.ite
    | with_reducible apply Touch.fold
    | split

theorem holdChecks_touch {L₀ : List Field} {s₀ s : State} (p : Nat) (hL₀ : Field.sub [.parts, .be, .assay] L₀ = true)
  (h₀ : Touch L₀ s₀ s) : Touch L₀ s₀ (holdChecks s p) := by
  unfold holdChecks
  try dsimp only
  repeat' first
    | with_reducible assumption
    | (with_reducible refine Field.sub_trans ?_ hL₀; decide)
    | intro _
    | with_reducible apply toRerun_touch
    | with_reducible apply killChecks_touch
    | with_reducible apply Touch.ite
    | with_reducible apply Touch.fold
    | split
    | (with_reducible apply Touch.of_fst; with_reducible assumption)
    | (with_reducible apply Touch.of_snd; with_reducible assumption)

theorem execHoldEntry_touch(s : State) : TouchR [.parts, .tiles, .be, .rst, .pwr, .blt, .assay] s (execHoldEntry s) := by
  have hL₀ : Field.sub [.parts, .tiles, .be, .rst, .pwr, .blt, .assay] [.parts, .tiles, .be, .rst, .pwr, .blt, .assay] = true := by decide
  have h₀ := Touch.refl [.parts, .tiles, .be, .rst, .pwr, .blt, .assay] s
  unfold execHoldEntry
  try dsimp only
  repeat' first
    | with_reducible apply TouchR.next
    | with_reducible apply TouchR.ite
    | with_reducible assumption
    | (with_reducible refine Field.sub_trans ?_ hL₀; decide)
    | intro _
    | with_reducible apply holdChecks_touch
    | with_reducible apply beginKill_touch
    | with_reducible apply setPart_touch
    | with_reducible apply gateQuads_touch
    | with_reducible apply bltTrigger_touch
    | fail_if_no_progress (with_reducible refine Touch.updRst (Field.sub_trans (by decide) hL₀) ?_)
    | with_reducible apply Touch.ite
    | with_reducible apply Touch.fold
    | split

theorem rerunAll_touch {L₀ : List Field} {s₀ s : State} (p : Nat) (hL₀ : Field.sub [.regs, .parts, .tiles, .be, .ctxs, .rings, .journal, .waiting, .host, .mailbox, .links, .mem, .blt, .anl, .assay] L₀ = true)
  (h₀ : Touch L₀ s₀ s) : Touch L₀ s₀ (rerunAll s p) := by
  unfold rerunAll
  try dsimp only
  repeat' first
    | with_reducible assumption
    | (with_reducible refine Field.sub_trans ?_ hL₀; decide)
    | intro _
    | with_reducible refine TouchR.of_eq (by with_reducible assumption) (execRerunStart_touch _ _ _) ?_ ?_
    | with_reducible apply Touch.ite
    | with_reducible apply Touch.fold
    | split
    | (with_reducible apply Touch.of_fst; with_reducible assumption)
    | (with_reducible apply Touch.of_snd; with_reducible assumption)

theorem execHoldExit_touch(s : State) : TouchR [.regs, .parts, .tiles, .be, .ctxs, .rings, .journal, .waiting, .host, .mailbox, .links, .mem, .rst, .blt, .anl, .assay] s (execHoldExit s) := by
  have hL₀ : Field.sub [.regs, .parts, .tiles, .be, .ctxs, .rings, .journal, .waiting, .host, .mailbox, .links, .mem, .rst, .blt, .anl, .assay] [.regs, .parts, .tiles, .be, .ctxs, .rings, .journal, .waiting, .host, .mailbox, .links, .mem, .rst, .blt, .anl, .assay] = true := by decide
  have h₀ := Touch.refl [.regs, .parts, .tiles, .be, .ctxs, .rings, .journal, .waiting, .host, .mailbox, .links, .mem, .rst, .blt, .anl, .assay] s
  unfold execHoldExit
  try dsimp only
  repeat' first
    | with_reducible apply TouchR.next
    | with_reducible apply TouchR.ite
    | with_reducible assumption
    | (with_reducible refine Field.sub_trans ?_ hL₀; decide)
    | intro _
    | with_reducible apply rerunAll_touch
    | with_reducible apply raiseEvent_touch
    | fail_if_no_progress (with_reducible refine Touch.updRst (Field.sub_trans (by decide) hL₀) ?_)
    | with_reducible apply Touch.ite
    | with_reducible apply Touch.fold
    | split
    | (with_reducible apply Touch.of_fst; with_reducible assumption)
    | (with_reducible apply Touch.of_snd; with_reducible assumption)

theorem execVddkWarnRise_touch(s : State) : TouchR [.rst] s (execVddkWarnRise s) := by
  have hL₀ : Field.sub [.rst] [.rst] = true := by decide
  have h₀ := Touch.refl [.rst] s
  unfold execVddkWarnRise
  try dsimp only
  repeat' first
    | with_reducible apply TouchR.next
    | with_reducible assumption
    | (with_reducible refine Field.sub_trans ?_ hL₀; decide)
    | fail_if_no_progress (with_reducible refine Touch.updRst (Field.sub_trans (by decide) hL₀) ?_)
    | with_reducible apply Touch.ite

theorem execVddkWarnClear_touch(s : State) : TouchR [.rst] s (execVddkWarnClear s) := by
  have hL₀ : Field.sub [.rst] [.rst] = true := by decide
  have h₀ := Touch.refl [.rst] s
  unfold execVddkWarnClear
  try dsimp only
  repeat' first
    | with_reducible apply TouchR.next
    | with_reducible assumption
    | (with_reducible refine Field.sub_trans ?_ hL₀; decide)
    | fail_if_no_progress (with_reducible refine Touch.updRst (Field.sub_trans (by decide) hL₀) ?_)
    | with_reducible apply Touch.ite

theorem execBootPauseEnd_touch(s : State) : TouchR [.rst] s (execBootPauseEnd s) := by
  have hL₀ : Field.sub [.rst] [.rst] = true := by decide
  have h₀ := Touch.refl [.rst] s
  unfold execBootPauseEnd
  try dsimp only
  repeat' first
    | with_reducible apply TouchR.next
    | with_reducible apply TouchR.ite
    | with_reducible assumption
    | (with_reducible refine Field.sub_trans ?_ hL₀; decide)
    | fail_if_no_progress (with_reducible refine Touch.updRst (Field.sub_trans (by decide) hL₀) ?_)
    | with_reducible apply Touch.ite

theorem setThrottle_touch {L₀ : List Field} {s₀ s : State} (k : Nat) (hL₀ : Field.sub [.regs] L₀ = true)
  (h₀ : Touch L₀ s₀ s) : Touch L₀ s₀ (setThrottle s k) := by
  unfold setThrottle
  try dsimp only
  repeat' first
    | with_reducible assumption
    | (with_reducible refine Field.sub_trans ?_ hL₀; decide)
    | with_reducible apply regSet_touch
    | with_reducible apply Touch.ite

theorem enterSafe_touch {L₀ : List Field} {s₀ s : State} (sensor : Nat) (tj : Int) (hL₀ : Field.sub [.regs, .tiles, .ctxs, .rings, .journal, .waiting, .host, .mailbox, .nibs, .pwr, .blt] L₀ = true)
  (h₀ : Touch L₀ s₀ s) : Touch L₀ s₀ (enterSafe s sensor tj) := by
  unfold enterSafe
  try dsimp only
  repeat' first
    | with_reducible assumption
    | (with_reducible refine Field.sub_trans ?_ hL₀; decide)
    | with_reducible apply setThrottle_touch
    | with_reducible apply healthEvent_touch
    | with_reducible apply lowerIdle_touch
    | with_reducible apply askSafe_touch
    | fail_if_no_progress (with_reducible refine Touch.updPwr (Field.sub_trans (by decide) hL₀) ?_)
    | with_reducible apply Touch.ite

theorem execTjSample_touch (readings : List Int) (s : State) : TouchR [.regs, .tiles, .ctxs, .rings, .journal, .waiting, .host, .mailbox, .nibs, .rst, .pwr, .blt] s (execTjSample readings s) := by
  have hL₀ : Field.sub [.regs, .tiles, .ctxs, .rings, .journal, .waiting, .host, .mailbox, .nibs, .rst, .pwr, .blt] [.regs, .tiles, .ctxs, .rings, .journal, .waiting, .host, .mailbox, .nibs, .rst, .pwr, .blt] = true := by decide
  have h₀ := Touch.refl [.regs, .tiles, .ctxs, .rings, .journal, .waiting, .host, .mailbox, .nibs, .rst, .pwr, .blt] s
  unfold execTjSample
  try dsimp only
  repeat' first
    | with_reducible apply TouchR.next
    | with_reducible apply TouchR.ite
    | (show ∀ f : Field, _; intro f hf; cases f <;> first | exact absurd (Field.sub_mem hL₀ (by decide)) hf | rfl)
    | with_reducible assumption
    | intro _
    | (with_reducible refine Field.sub_trans ?_ hL₀; decide)
    | with_reducible apply healthEvent_touch
    | with_reducible apply enterSafe_touch
    | fail_if_no_progress (with_reducible refine Touch.updRst (Field.sub_trans (by decide) hL₀) ?_)
    | fail_if_no_progress (with_reducible refine Touch.updPwr (Field.sub_trans (by decide) hL₀) ?_)
    | with_reducible apply Touch.ite
    | split
    | (with_reducible refine Touch.mk ?_ ?_ rfl rfl rfl rfl)

theorem execThrottleStep_touch(s : State) : TouchR [.regs] s (execThrottleStep s) := by
  have hL₀ : Field.sub [.regs] [.regs] = true := by decide
  have h₀ := Touch.refl [.regs] s
  unfold execThrottleStep
  try dsimp only
  repeat' first
    | with_reducible apply TouchR.next
    | with_reducible apply TouchR.ite
    | with_reducible assumption
    | (with_reducible refine Field.sub_trans ?_ hL₀; decide)
    | with_reducible apply setThrottle_touch
    | with_reducible apply Touch.ite

theorem execPowerEstimate_touch (mW : Nat) (s : State) : TouchR [.regs, .ctxs, .rings, .journal, .waiting, .host, .mailbox, .pwr, .blt] s (execPowerEstimate mW s) := by
  have hL₀ : Field.sub [.regs, .ctxs, .rings, .journal, .waiting, .host, .mailbox, .pwr, .blt] [.regs, .ctxs, .rings, .journal, .waiting, .host, .mailbox, .pwr, .blt] = true := by decide
  have h₀ := Touch.refl [.regs, .ctxs, .rings, .journal, .waiting, .host, .mailbox, .pwr, .blt] s
  unfold execPowerEstimate
  try dsimp only
  repeat' first
    | with_reducible apply TouchR.next
    | with_reducible apply TouchR.ite
    | with_reducible assumption
    | (with_reducible refine Field.sub_trans ?_ hL₀; decide)
    | intro _
    | with_reducible apply healthEvent_touch
    | fail_if_no_progress (with_reducible refine Touch.updPwr (Field.sub_trans (by decide) hL₀) ?_)
    | with_reducible apply Touch.ite
    | split
    | (with_reducible apply Touch.of_fst; with_reducible assumption)
    | (with_reducible apply Touch.of_snd; with_reducible assumption)

theorem safeClear_touch {L₀ : List Field} {s₀ s : State}(hL₀ : Field.sub [.regs, .ctxs, .rings, .journal, .waiting, .host, .mailbox, .pwr, .blt] L₀ = true)
  (h₀ : Touch L₀ s₀ s) : Touch L₀ s₀ (safeClear s) := by
  unfold safeClear
  try dsimp only
  repeat' first
    | with_reducible assumption
    | (with_reducible refine Field.sub_trans ?_ hL₀; decide)
    | intro _
    | with_reducible apply healthEvent_touch
    | fail_if_no_progress (with_reducible refine Touch.updPwr (Field.sub_trans (by decide) hL₀) ?_)
    | with_reducible apply Touch.ite
    | split
    | (with_reducible apply Touch.of_fst; with_reducible assumption)
    | (with_reducible apply Touch.of_snd; with_reducible assumption)

theorem execPwrSafeClr_touch(s : State) : TouchR [.regs, .ctxs, .rings, .journal, .waiting, .host, .mailbox, .pwr, .blt] s (execPwrSafeClr s) := by
  have hL₀ : Field.sub [.regs, .ctxs, .rings, .journal, .waiting, .host, .mailbox, .pwr, .blt] [.regs, .ctxs, .rings, .journal, .waiting, .host, .mailbox, .pwr, .blt] = true := by decide
  have h₀ := Touch.refl [.regs, .ctxs, .rings, .journal, .waiting, .host, .mailbox, .pwr, .blt] s
  unfold execPwrSafeClr
  try dsimp only
  repeat' first
    | with_reducible apply TouchR.next
    | with_reducible assumption
    | (with_reducible refine Field.sub_trans ?_ hL₀; decide)
    | with_reducible apply hostWrite_touch
    | with_reducible apply safeClear_touch
    | with_reducible apply Touch.ite
    | with_reducible refine TouchR.mono (by decide) (hostWrite_touch _ _)

end Sys2Proof.Machine
end

