-- ==== Sys2Proof/Laws/TouchTime.lean ====
section
/-! SUPPORT. What each function of Machine/Time.lean may touch: its law in the sense of Laws/Frame.lean. -/

namespace Sys2Proof.Machine

theorem modTu_touch {L₀ : List Field} {s₀ s : State} (f : TimeUnit → TimeUnit) (hL₀ : Field.sub [.tu] L₀ = true)
  (h₀ : Touch L₀ s₀ s) : Touch L₀ s₀ (modTu s f) := by
  unfold modTu
  try dsimp only
  repeat' first
    | with_reducible assumption
    | (with_reducible refine Field.sub_trans ?_ hL₀; decide)
    | fail_if_no_progress (with_reducible refine Touch.updTu (Field.sub_trans (by decide) hL₀) ?_)
    | with_reducible apply Touch.ite

theorem tuEvent_touch {L₀ : List Field} {s₀ s : State} (code : Nat) (a1 : Word) (a2 : Word) (a3 : Word64) (hL₀ : Field.sub [.regs, .ctxs, .rings, .journal, .waiting, .host, .mailbox, .blt] L₀ = true)
  (h₀ : Touch L₀ s₀ s) : Touch L₀ s₀ (tuEvent s code a1 a2 a3) := by
  unfold tuEvent
  try dsimp only
  repeat' first
    | with_reducible assumption
    | (with_reducible refine Field.sub_trans ?_ hL₀; decide)
    | with_reducible apply raiseEvent_touch
    | with_reducible apply bltRecord_touch
    | with_reducible apply bltTrigger_touch
    | with_reducible apply Touch.ite

theorem setServo_touch {L₀ : List Field} {s₀ s : State} (st : ServoState) (cause : Nat) (hL₀ : Field.sub [.regs, .ctxs, .rings, .journal, .waiting, .host, .mailbox, .tu, .blt] L₀ = true)
  (h₀ : Touch L₀ s₀ s) : Touch L₀ s₀ (setServo s st cause) := by
  unfold setServo
  try dsimp only
  repeat' first
    | with_reducible assumption
    | (with_reducible refine Field.sub_trans ?_ hL₀; decide)
    | intro _
    | with_reducible apply modTu_touch
    | with_reducible apply tuEvent_touch
    | with_reducible apply Touch.ite
    | split
    | (with_reducible apply Touch.of_fst; with_reducible assumption)
    | (with_reducible apply Touch.of_snd; with_reducible assumption)

theorem enterHoldover_touch {L₀ : List Field} {s₀ s : State} (cause : Nat) (hL₀ : Field.sub [.regs, .ctxs, .rings, .journal, .waiting, .host, .mailbox, .tu, .blt] L₀ = true)
  (h₀ : Touch L₀ s₀ s) : Touch L₀ s₀ (enterHoldover s cause) := by
  unfold enterHoldover
  try dsimp only
  repeat' first
    | with_reducible assumption
    | (with_reducible refine Field.sub_trans ?_ hL₀; decide)
    | intro _
    | with_reducible apply setServo_touch
    | with_reducible apply modTu_touch
    | with_reducible apply Touch.ite
    | split

theorem refuseJump_touch {L₀ : List Field} {s₀ s : State} (e : Int) (hL₀ : Field.sub [.regs, .ctxs, .rings, .journal, .waiting, .host, .mailbox, .tu, .blt] L₀ = true)
  (h₀ : Touch L₀ s₀ s) : Touch L₀ s₀ (refuseJump s e) := by
  unfold refuseJump
  try dsimp only
  repeat' first
    | with_reducible assumption
    | (with_reducible refine Field.sub_trans ?_ hL₀; decide)
    | intro _
    | with_reducible apply modTu_touch
    | with_reducible apply tuEvent_touch
    | with_reducible apply setServo_touch
    | with_reducible apply Touch.ite
    | split

theorem trackLock_touch {L₀ : List Field} {s₀ s : State} (e : Int) (hL₀ : Field.sub [.regs, .ctxs, .rings, .journal, .waiting, .host, .mailbox, .tu, .blt] L₀ = true)
  (h₀ : Touch L₀ s₀ s) : Touch L₀ s₀ (trackLock s e) := by
  unfold trackLock
  try dsimp only
  repeat' first
    | with_reducible assumption
    | (with_reducible refine Field.sub_trans ?_ hL₀; decide)
    | intro _
    | with_reducible apply setServo_touch
    | with_reducible apply modTu_touch
    | with_reducible apply Touch.ite
    | split
    | (with_reducible apply Touch.of_fst; with_reducible assumption)
    | (with_reducible apply Touch.of_snd; with_reducible assumption)

theorem servoStep_touch {L₀ : List Field} {s₀ s : State} (e : Int) (hL₀ : Field.sub [.regs, .ctxs, .rings, .journal, .waiting, .host, .mailbox, .tu, .blt] L₀ = true)
  (h₀ : Touch L₀ s₀ s) : Touch L₀ s₀ (servoStep s e) := by
  unfold servoStep
  try dsimp only
  repeat' first
    | with_reducible assumption
    | (with_reducible refine Field.sub_trans ?_ hL₀; decide)
    | intro _
    | with_reducible apply modTu_touch
    | with_reducible apply setServo_touch
    | with_reducible apply tuEvent_touch
    | with_reducible apply trackLock_touch
    | with_reducible apply Touch.ite
    | split

theorem recoverTest_touch {L₀ : List Field} {s₀ s : State} (m : Int × Nat) (pd : Int) (hL₀ : Field.sub [.regs, .ctxs, .rings, .journal, .waiting, .host, .mailbox, .tu, .blt] L₀ = true)
  (h₀ : Touch L₀ s₀ s) : Touch L₀ s₀ (recoverTest s m pd) := by
  unfold recoverTest
  try dsimp only
  repeat' first
    | with_reducible assumption
    | (with_reducible refine Field.sub_trans ?_ hL₀; decide)
    | intro _
    | with_reducible apply modTu_touch
    | with_reducible apply setServo_touch
    | with_reducible apply Touch.ite
    | split

theorem measureOffset_touch {L₀ : List Field} {s₀ s : State} (e : Int) (hL₀ : Field.sub [.regs, .ctxs, .rings, .journal, .waiting, .host, .mailbox, .tu, .blt] L₀ = true)
  (h₀ : Touch L₀ s₀ s) : Touch L₀ s₀ (measureOffset s e) := by
  unfold measureOffset
  try dsimp only
  repeat' first
    | with_reducible assumption
    | (with_reducible refine Field.sub_trans ?_ hL₀; decide)
    | intro _
    | with_reducible apply refuseJump_touch
    | with_reducible apply setServo_touch
    | with_reducible apply modTu_touch
    | with_reducible apply servoStep_touch
    | with_reducible apply Touch.ite
    | split

theorem measurePtp_touch {L₀ : List Field} {s₀ s : State} (port : Nat) (e : Int) (pd : Int) (hL₀ : Field.sub [.regs, .ctxs, .rings, .journal, .waiting, .host, .mailbox, .tu, .blt] L₀ = true)
  (h₀ : Touch L₀ s₀ s) : Touch L₀ s₀ (measurePtp s port e pd) := by
  unfold measurePtp
  try dsimp only
  repeat' first
    | with_reducible assumption
    | (with_reducible refine Field.sub_trans ?_ hL₀; decide)
    | intro _
    | with_reducible apply measureOffset_touch
    | with_reducible apply modTu_touch
    | with_reducible apply recoverTest_touch
    | with_reducible apply enterHoldover_touch
    | with_reducible apply tuEvent_touch
    | with_reducible apply Touch.ite
    | split
    | (with_reducible apply Touch.of_fst; with_reducible assumption)
    | (with_reducible apply Touch.of_snd; with_reducible assumption)

theorem execPtpMeasurement_touch (port : EthId) (e : PtpSync) (pd : PtpDelay) (s : State) : TouchR [.regs, .ctxs, .rings, .journal, .waiting, .host, .mailbox, .eths, .tu, .blt] s (execPtpMeasurement port e pd s) := by
  have hL₀ : Field.sub [.regs, .ctxs, .rings, .journal, .waiting, .host, .mailbox, .eths, .tu, .blt] [.regs, .ctxs, .rings, .journal, .waiting, .host, .mailbox, .eths, .tu, .blt] = true := by decide
  have h₀ := Touch.refl [.regs, .ctxs, .rings, .journal, .waiting, .host, .mailbox, .eths, .tu, .blt] s
  unfold execPtpMeasurement
  try dsimp only
  repeat' first
    | with_reducible apply TouchR.next
    | with_reducible apply TouchR.ite
    | with_reducible assumption
    | (with_reducible refine Field.sub_trans ?_ hL₀; decide)
    | intro _
    | with_reducible apply setEth_touch
    | with_reducible apply measurePtp_touch
    | with_reducible apply modTu_touch
    | with_reducible apply Touch.ite
    | split

theorem execSyncInEdge_touch (edge : Int) (narrow : Bool) (s : State) : TouchR [.regs, .ctxs, .rings, .journal, .waiting, .host, .mailbox, .tu, .blt] s (execSyncInEdge edge narrow s) := by
  have hL₀ : Field.sub [.regs, .ctxs, .rings, .journal, .waiting, .host, .mailbox, .tu, .blt] [.regs, .ctxs, .rings, .journal, .waiting, .host, .mailbox, .tu, .blt] = true := by decide
  have h₀ := Touch.refl [.regs, .ctxs, .rings, .journal, .waiting, .host, .mailbox, .tu, .blt] s
  unfold execSyncInEdge
  try dsimp only
  repeat' first
    | with_reducible apply TouchR.next
    | with_reducible apply TouchR.ite
    | with_reducible assumption
    | (with_reducible refine Field.sub_trans ?_ hL₀; decide)
    | intro _
    | with_reducible apply modTu_touch
    | with_reducible apply bump_touch
    | with_reducible apply measureOffset_touch
    | with_reducible apply Touch.ite
    | split
    | (with_reducible apply Touch.of_fst; with_reducible assumption)
    | (with_reducible apply Touch.of_snd; with_reducible assumption)

theorem execSyncOutPulse_touch(s : State) : TouchR [.tu] s (execSyncOutPulse s) := by
  have hL₀ : Field.sub [.tu] [.tu] = true := by decide
  have h₀ := Touch.refl [.tu] s
  unfold execSyncOutPulse
  try dsimp only
  repeat' first
    | with_reducible apply TouchR.next
    | with_reducible apply TouchR.ite
    | with_reducible assumption
    | (with_reducible refine Field.sub_trans ?_ hL₀; decide)
    | intro _
    | with_reducible apply modTu_touch
    | with_reducible apply Touch.ite
    | split

theorem sourceLost_touch {L₀ : List Field} {s₀ s : State}(hL₀ : Field.sub [.regs, .ctxs, .rings, .journal, .waiting, .host, .mailbox, .tu, .blt] L₀ = true)
  (h₀ : Touch L₀ s₀ s) : Touch L₀ s₀ (sourceLost s) := by
  unfold sourceLost
  try dsimp only
  repeat' first
    | with_reducible assumption
    | (with_reducible refine Field.sub_trans ?_ hL₀; decide)
    | with_reducible apply enterHoldover_touch
    | with_reducible apply Touch.ite

theorem execSourceTimeout_touch(s : State) : TouchR [.regs, .ctxs, .rings, .journal, .waiting, .host, .mailbox, .tu, .blt] s (execSourceTimeout s) := by
  have hL₀ : Field.sub [.regs, .ctxs, .rings, .journal, .waiting, .host, .mailbox, .tu, .blt] [.regs, .ctxs, .rings, .journal, .waiting, .host, .mailbox, .tu, .blt] = true := by decide
  have h₀ := Touch.refl [.regs, .ctxs, .rings, .journal, .waiting, .host, .mailbox, .tu, .blt] s
  unfold execSourceTimeout
  try dsimp only
  repeat' first
    | with_reducible apply TouchR.next
    | with_reducible apply TouchR.ite
    | with_reducible assumption
    | (with_reducible refine Field.sub_trans ?_ hL₀; decide)
    | with_reducible apply sourceLost_touch
    | with_reducible apply Touch.ite

theorem slaveLost_touch {L₀ : List Field} {s₀ s : State} (e : Nat) (hL₀ : Field.sub [.regs, .ctxs, .rings, .journal, .waiting, .host, .mailbox, .eths, .tu, .blt] L₀ = true)
  (h₀ : Touch L₀ s₀ s) : Touch L₀ s₀ (slaveLost s e) := by
  unfold slaveLost
  try dsimp only
  repeat' first
    | with_reducible assumption
    | (with_reducible refine Field.sub_trans ?_ hL₀; decide)
    | with_reducible apply sourceLost_touch
    | with_reducible apply setEth_touch
    | with_reducible apply Touch.ite

theorem execEthLinkDown_touch (e : EthId) (s : State) : TouchR [.regs, .ctxs, .rings, .journal, .waiting, .host, .mailbox, .eths, .tu, .blt] s (execEthLinkDown e s) := by
  have hL₀ : Field.sub [.regs, .ctxs, .rings, .journal, .waiting, .host, .mailbox, .eths, .tu, .blt] [.regs, .ctxs, .rings, .journal, .waiting, .host, .mailbox, .eths, .tu, .blt] = true := by decide
  have h₀ := Touch.refl [.regs, .ctxs, .rings, .journal, .waiting, .host, .mailbox, .eths, .tu, .blt] s
  unfold execEthLinkDown
  try dsimp only
  repeat' first
    | with_reducible apply TouchR.next
    | with_reducible assumption
    | (with_reducible refine Field.sub_trans ?_ hL₀; decide)
    | with_reducible apply slaveLost_touch
    | with_reducible apply setEth_touch
    | with_reducible apply Touch.ite

theorem execGrandmasterChange_touch (identity : Word64) (s : State) : TouchR [.regs, .ctxs, .rings, .journal, .waiting, .host, .mailbox, .tu, .blt] s (execGrandmasterChange identity s) := by
  have hL₀ : Field.sub [.regs, .ctxs, .rings, .journal, .waiting, .host, .mailbox, .tu, .blt] [.regs, .ctxs, .rings, .journal, .waiting, .host, .mailbox, .tu, .blt] = true := by decide
  have h₀ := Touch.refl [.regs, .ctxs, .rings, .journal, .waiting, .host, .mailbox, .tu, .blt] s
  unfold execGrandmasterChange
  try dsimp only
  repeat' first
    | with_reducible apply TouchR.next
    | with_reducible apply TouchR.ite
    | with_reducible assumption
    | (with_reducible refine Field.sub_trans ?_ hL₀; decide)
    | intro _
    | with_reducible apply modTu_touch
    | with_reducible apply enterHoldover_touch
    | with_reducible apply tuEvent_touch
    | with_reducible apply Touch.ite
    | split

theorem tuRefuse_touch {L₀ : List Field} {s₀ s : State} (cause : Nat) (hL₀ : Field.sub [.regs] L₀ = true)
  (h₀ : Touch L₀ s₀ s) : Touch L₀ s₀ (tuRefuse s cause) := by
  unfold tuRefuse
  try dsimp only
  repeat' first
    | with_reducible assumption
    | (with_reducible refine Field.sub_trans ?_ hL₀; decide)
    | with_reducible apply recordErr_touch
    | with_reducible apply Touch.ite

theorem stepCmd_touch {L₀ : List Field} {s₀ s : State} (v : Word) (hL₀ : Field.sub [.regs, .tu] L₀ = true)
  (h₀ : Touch L₀ s₀ s) : Touch L₀ s₀ (stepCmd s v) := by
  unfold stepCmd
  try dsimp only
  repeat' first
    | with_reducible assumption
    | (with_reducible refine Field.sub_trans ?_ hL₀; decide)
    | intro _
    | with_reducible apply tuRefuse_touch
    | with_reducible apply modTu_touch
    | with_reducible apply Touch.ite
    | split

theorem execTuStepCmd_touch (v : Word) (s : State) : TouchR [.regs, .tu] s (execTuStepCmd v s) := by
  have hL₀ : Field.sub [.regs, .tu] [.regs, .tu] = true := by decide
  have h₀ := Touch.refl [.regs, .tu] s
  unfold execTuStepCmd
  try dsimp only
  repeat' first
    | with_reducible apply TouchR.next
    | with_reducible assumption
    | (with_reducible refine Field.sub_trans ?_ hL₀; decide)
    | with_reducible apply hostWrite_touch
    | with_reducible apply stepCmd_touch
    | with_reducible apply Touch.ite
    | with_reducible refine TouchR.mono (by decide) (hostWrite_touch _ _)

theorem skipUntil_touch {L : List Field} {r s : State} (n p j l : Nat) (hL : Field.sub [.regs, .parts, .blt] L = true)
    (h : Touch L r s) : Touch L r (skipUntil n s p j l).1 := by
  induction n generalizing s with
  | zero => exact h
  | succ n ih =>
    unfold skipUntil
    dsimp only
    apply Touch.ite_fst
    · exact ih (skipLaunch_touch _ _ _ hL h)
    · exact h

theorem skipPassed_touch {L : List Field} {r s : State} (hL : Field.sub [.regs, .parts, .blt] L = true) (h : Touch L r s) :
    Touch L r (skipPassed s).1 := by
  unfold skipPassed
  apply Touch.fold_fst
  · exact h
  · intro t p ht
    apply Touch.ite_fst
    · exact ht
    · exact Touch.fold_fst _ ht (fun u j hu => skipUntil_touch _ _ _ _ hL hu)

theorem execStepApply_touch(s : State) : TouchR [.regs, .parts, .ctxs, .rings, .journal, .waiting, .host, .mailbox, .tu, .blt] s (execStepApply s) := by
  have hL₀ : Field.sub [.regs, .parts, .ctxs, .rings, .journal, .waiting, .host, .mailbox, .tu, .blt] [.regs, .parts, .ctxs, .rings, .journal, .waiting, .host, .mailbox, .tu, .blt] = true := by decide
  have h₀ := Touch.refl [.regs, .parts, .ctxs, .rings, .journal, .waiting, .host, .mailbox, .tu, .blt] s
  unfold execStepApply
  try dsimp only
  repeat' first
    | with_reducible apply TouchR.next
    | with_reducible apply TouchR.ite
    | with_reducible assumption
    | (with_reducible refine Field.sub_trans ?_ hL₀; decide)
    | intro _
    | with_reducible apply modTu_touch
    | with_reducible apply skipPassed_touch
    | with_reducible apply setServo_touch
    | with_reducible apply tuEvent_touch
    | with_reducible apply Touch.ite
    | split
    | (with_reducible apply Touch.of_fst; with_reducible assumption)
    | (with_reducible apply Touch.of_snd; with_reducible assumption)

theorem acceptPath_touch {L₀ : List Field} {s₀ s : State}(hL₀ : Field.sub [.regs, .ctxs, .rings, .journal, .waiting, .host, .mailbox, .tu, .blt] L₀ = true)
  (h₀ : Touch L₀ s₀ s) : Touch L₀ s₀ (acceptPath s) := by
  unfold acceptPath
  try dsimp only
  repeat' first
    | with_reducible assumption
    | (with_reducible refine Field.sub_trans ?_ hL₀; decide)
    | intro _
    | with_reducible apply setServo_touch
    | with_reducible apply modTu_touch
    | with_reducible apply tuRefuse_touch
    | with_reducible apply Touch.ite
    | split

theorem execAccept_touch(s : State) : TouchR [.regs, .ctxs, .rings, .journal, .waiting, .host, .mailbox, .tu, .blt] s (execAccept s) := by
  have hL₀ : Field.sub [.regs, .ctxs, .rings, .journal, .waiting, .host, .mailbox, .tu, .blt] [.regs, .ctxs, .rings, .journal, .waiting, .host, .mailbox, .tu, .blt] = true := by decide
  have h₀ := Touch.refl [.regs, .ctxs, .rings, .journal, .waiting, .host, .mailbox, .tu, .blt] s
  unfold execAccept
  try dsimp only
  repeat' first
    | with_reducible apply TouchR.next
    | with_reducible assumption
    | (with_reducible refine Field.sub_trans ?_ hL₀; decide)
    | with_reducible apply hostWrite_touch
    | with_reducible apply acceptPath_touch
    | with_reducible apply Touch.ite
    | with_reducible refine TouchR.mono (by decide) (hostWrite_touch _ _)

theorem srcWrite_touch {L₀ : List Field} {s₀ s : State} (v : Word) (hL₀ : Field.sub [.regs, .ctxs, .rings, .journal, .waiting, .host, .mailbox, .tu, .blt] L₀ = true)
  (h₀ : Touch L₀ s₀ s) : Touch L₀ s₀ (srcWrite s v) := by
  unfold srcWrite
  try dsimp only
  repeat' first
    | with_reducible assumption
    | (with_reducible refine Field.sub_trans ?_ hL₀; decide)
    | intro _
    | with_reducible apply tuRefuse_touch
    | with_reducible apply modTu_touch
    | with_reducible apply regSet_touch
    | with_reducible apply setServo_touch
    | with_reducible apply enterHoldover_touch
    | with_reducible apply tuEvent_touch
    | with_reducible apply Touch.ite
    | split

theorem execTuSrcWrite_touch (v : Word) (s : State) : TouchR [.regs, .ctxs, .rings, .journal, .waiting, .host, .mailbox, .tu, .blt] s (execTuSrcWrite v s) := by
  have hL₀ : Field.sub [.regs, .ctxs, .rings, .journal, .waiting, .host, .mailbox, .tu, .blt] [.regs, .ctxs, .rings, .journal, .waiting, .host, .mailbox, .tu, .blt] = true := by decide
  have h₀ := Touch.refl [.regs, .ctxs, .rings, .journal, .waiting, .host, .mailbox, .tu, .blt] s
  unfold execTuSrcWrite
  try dsimp only
  repeat' first
    | with_reducible apply TouchR.next
    | with_reducible assumption
    | (with_reducible refine Field.sub_trans ?_ hL₀; decide)
    | with_reducible apply hostWrite_touch
    | with_reducible apply srcWrite_touch
    | with_reducible apply Touch.ite
    | with_reducible refine TouchR.mono (by decide) (hostWrite_touch _ _)

theorem advanceTime_touch {L₀ : List Field} {s₀ s : State} (n : Nat) (hL₀ : Field.sub [.lt, .tu] L₀ = true)
  (h₀ : Touch L₀ s₀ s) : Touch L₀ s₀ (advanceTime s n) := by
  unfold advanceTime
  try dsimp only
  repeat' first
    | (show ∀ f : Field, _; intro f hf; cases f <;> first | exact absurd (Field.sub_mem hL₀ (by decide)) hf | rfl)
    | with_reducible assumption
    | (with_reducible refine Field.sub_trans ?_ hL₀; decide)
    | fail_if_no_progress (with_reducible refine Touch.updLt (Field.sub_trans (by decide) hL₀) ?_)
    | fail_if_no_progress (with_reducible refine Touch.updTu (Field.sub_trans (by decide) hL₀) ?_)
    | with_reducible apply Touch.ite
    | (with_reducible refine Touch.mk ?_ ?_ rfl rfl rfl rfl)

end Sys2Proof.Machine
end

