-- ==== Sys2Proof/Laws/TouchResets.lean ====
section
/-! SUPPORT. What each function of Machine/Resets.lean may touch: its law in the sense of Laws/Frame.lean. -/

namespace Sys2Proof.Machine

theorem regsWf_grade {t : Tbl Word} (f : Fuses) (h : regsWf t = true) : regsWf (gradeRegs f t) = true := by
  unfold gradeRegs
  split
  · exact regsWf_set _ _ h
  · exact h

theorem coldState_touch {L : List Field} {r s : State} (hL : Field.sub [.lt, .regs, .latch64, .parts, .tiles, .be, .ctxs, .rings, .journal, .waiting, .serveNext, .mailbox, .bme, .nibs, .links, .dports, .eths, .partners, .tu, .mem, .rst, .pwr, .hmk, .blt, .anl, .assay] L = true)
    (h : Touch L r s) : Touch L r (coldState s) := by
  refine Touch.full h ?_ id (fun _ => rfl) (fun _ => regsWf_grade _ rfl) (fun g => ⟨g, Fuses.before_refl _⟩)
  (exact fun f hf => by cases f <;> first | exact absurd (Field.sub_mem hL (by decide)) hf | rfl)

theorem warmState_touch {L : List Field} {r s : State} (hL : Field.sub [.freeCtr, .regs, .latch64, .parts, .tiles, .be, .ctxs, .rings, .journal, .waiting, .serveNext, .host, .mailbox, .bme, .nibs, .links, .dports, .eths, .partners, .mem, .rst, .pwr, .hmk, .blt, .anl, .assay] L = true)
    (h : Touch L r s) : Touch L r (warmState s) := by
  refine Touch.full h ?_ id id (fun g => regsWf_grade _ (regsWf_filter _ g)) (fun g => ⟨g, Fuses.before_refl _⟩)
  (exact fun f hf => by cases f <;> first | exact absurd (Field.sub_mem hL (by decide)) hf | rfl)

theorem assertCold_touch {L₀ : List Field} {s₀ s : State} (bit : Nat) (hL₀ : Field.sub [.lt, .regs, .latch64, .parts, .tiles, .be, .ctxs, .rings, .journal, .waiting, .serveNext, .mailbox, .bme, .nibs, .links, .dports, .eths, .partners, .tu, .mem, .rst, .pwr, .hmk, .blt, .anl, .assay] L₀ = true)
  (h₀ : Touch L₀ s₀ s) : Touch L₀ s₀ (assertCold s bit) := by
  unfold assertCold
  try dsimp only
  repeat' first
    | with_reducible assumption
    | (with_reducible refine Field.sub_trans ?_ hL₀; decide)
    | with_reducible apply coldState_touch
    | fail_if_no_progress (with_reducible refine Touch.updRst (Field.sub_trans (by decide) hL₀) ?_)
    | with_reducible apply Touch.ite

theorem assertWarm_touch {L₀ : List Field} {s₀ s : State} (bit : Nat) (hL₀ : Field.sub [.freeCtr, .regs, .latch64, .parts, .tiles, .be, .ctxs, .rings, .journal, .waiting, .serveNext, .host, .mailbox, .bme, .nibs, .links, .dports, .eths, .partners, .tu, .mem, .rst, .pwr, .hmk, .blt, .anl, .assay] L₀ = true)
  (h₀ : Touch L₀ s₀ s) : Touch L₀ s₀ (assertWarm s bit) := by
  unfold assertWarm
  try dsimp only
  repeat' first
    | with_reducible assumption
    | (with_reducible refine Field.sub_trans ?_ hL₀; decide)
    | intro _
    | with_reducible apply enterHoldover_touch
    | with_reducible apply warmState_touch
    | fail_if_no_progress (with_reducible refine Touch.updRst (Field.sub_trans (by decide) hL₀) ?_)
    | with_reducible apply Touch.ite
    | split
    | (with_reducible apply Touch.of_fst; with_reducible assumption)
    | (with_reducible apply Touch.of_snd; with_reducible assumption)

theorem noteWarm_touch {L₀ : List Field} {s₀ s : State}(hL₀ : Field.sub [.regs] L₀ = true)
  (h₀ : Touch L₀ s₀ s) : Touch L₀ s₀ (noteWarm s) := by
  unfold noteWarm
  try dsimp only
  repeat' first
    | with_reducible assumption
    | (with_reducible refine Field.sub_trans ?_ hL₀; decide)
    | with_reducible apply regSet_touch
    | with_reducible apply Touch.ite

theorem warmReset_touch {L₀ : List Field} {s₀ s : State} (bit : Nat) (hL₀ : Field.sub [.freeCtr, .regs, .latch64, .parts, .tiles, .be, .ctxs, .rings, .journal, .waiting, .serveNext, .host, .mailbox, .bme, .nibs, .links, .dports, .eths, .partners, .tu, .mem, .rst, .pwr, .hmk, .blt, .anl, .assay] L₀ = true)
  (h₀ : Touch L₀ s₀ s) : Touch L₀ s₀ (warmReset s bit) := by
  unfold warmReset
  try dsimp only
  repeat' first
    | with_reducible assumption
    | (with_reducible refine Field.sub_trans ?_ hL₀; decide)
    | with_reducible apply assertWarm_touch
    | with_reducible apply noteWarm_touch
    | with_reducible apply Touch.ite

theorem execResetNLow_touch (ns : Nat) (s : State) : TouchR [.freeCtr, .lt, .regs, .latch64, .parts, .tiles, .be, .ctxs, .rings, .journal, .waiting, .serveNext, .mailbox, .bme, .nibs, .links, .dports, .eths, .partners, .tu, .mem, .rst, .pwr, .hmk, .blt, .anl, .assay] s (execResetNLow ns s) := by
  have hL₀ : Field.sub [.freeCtr, .lt, .regs, .latch64, .parts, .tiles, .be, .ctxs, .rings, .journal, .waiting, .serveNext, .mailbox, .bme, .nibs, .links, .dports, .eths, .partners, .tu, .mem, .rst, .pwr, .hmk, .blt, .anl, .assay] [.freeCtr, .lt, .regs, .latch64, .parts, .tiles, .be, .ctxs, .rings, .journal, .waiting, .serveNext, .mailbox, .bme, .nibs, .links, .dports, .eths, .partners, .tu, .mem, .rst, .pwr, .hmk, .blt, .anl, .assay] = true := by decide
  have h₀ := Touch.refl [.freeCtr, .lt, .regs, .latch64, .parts, .tiles, .be, .ctxs, .rings, .journal, .waiting, .serveNext, .mailbox, .bme, .nibs, .links, .dports, .eths, .partners, .tu, .mem, .rst, .pwr, .hmk, .blt, .anl, .assay] s
  unfold execResetNLow
  try dsimp only
  repeat' first
    | with_reducible apply TouchR.next
    | with_reducible apply TouchR.ite
    | with_reducible assumption
    | (with_reducible refine Field.sub_trans ?_ hL₀; decide)
    | intro _
    | with_reducible apply assertCold_touch
    | with_reducible apply drawBit_touch
    | with_reducible apply Touch.ite
    | split
    | (with_reducible apply Touch.of_fst; with_reducible assumption)
    | (with_reducible apply Touch.of_snd; with_reducible assumption)

theorem execBrownout_touch (r : Rail) (s : State) : TouchR [.lt, .regs, .latch64, .parts, .tiles, .be, .ctxs, .rings, .journal, .waiting, .serveNext, .mailbox, .bme, .nibs, .links, .dports, .eths, .partners, .tu, .mem, .rst, .pwr, .hmk, .blt, .anl, .assay] s (execBrownout r s) := by
  have hL₀ : Field.sub [.lt, .regs, .latch64, .parts, .tiles, .be, .ctxs, .rings, .journal, .waiting, .serveNext, .mailbox, .bme, .nibs, .links, .dports, .eths, .partners, .tu, .mem, .rst, .pwr, .hmk, .blt, .anl, .assay] [.lt, .regs, .latch64, .parts, .tiles, .be, .ctxs, .rings, .journal, .waiting, .serveNext, .mailbox, .bme, .nibs, .links, .dports, .eths, .partners, .tu, .mem, .rst, .pwr, .hmk, .blt, .anl, .assay] = true := by decide
  have h₀ := Touch.refl [.lt, .regs, .latch64, .parts, .tiles, .be, .ctxs, .rings, .journal, .waiting, .serveNext, .mailbox, .bme, .nibs, .links, .dports, .eths, .partners, .tu, .mem, .rst, .pwr, .hmk, .blt, .anl, .assay] s
  unfold execBrownout
  try dsimp only
  repeat' first
    | with_reducible apply TouchR.next
    | with_reducible apply TouchR.ite
    | with_reducible assumption
    | (with_reducible refine Field.sub_trans ?_ hL₀; decide)
    | with_reducible apply assertCold_touch
    | fail_if_no_progress (with_reducible refine Touch.updRst (Field.sub_trans (by decide) hL₀) ?_)
    | with_reducible apply Touch.ite

theorem powerOn_touch {L₀ : List Field} {s₀ s : State}(hL₀ : Field.sub [.rst] L₀ = true)
  (h₀ : Touch L₀ s₀ s) : Touch L₀ s₀ (powerOn s) := by
  unfold powerOn
  try dsimp only
  repeat' first
    | with_reducible assumption
    | (with_reducible refine Field.sub_trans ?_ hL₀; decide)
    | fail_if_no_progress (with_reducible refine Touch.updRst (Field.sub_trans (by decide) hL₀) ?_)
    | with_reducible apply Touch.ite

theorem execPowerOn_touch(s : State) : TouchR [.rst] s (execPowerOn s) := by
  have hL₀ : Field.sub [.rst] [.rst] = true := by decide
  have h₀ := Touch.refl [.rst] s
  unfold execPowerOn
  try dsimp only
  repeat' first
    | with_reducible apply TouchR.next
    | with_reducible apply TouchR.ite
    | with_reducible assumption
    | (with_reducible refine Field.sub_trans ?_ hL₀; decide)
    | with_reducible apply powerOn_touch
    | with_reducible apply Touch.ite

theorem execSupplyGood_touch (r : Rail) (s : State) : TouchR [.rst] s (execSupplyGood r s) := by
  have hL₀ : Field.sub [.rst] [.rst] = true := by decide
  have h₀ := Touch.refl [.rst] s
  unfold execSupplyGood
  try dsimp only
  repeat' first
    | with_reducible apply TouchR.next
    | with_reducible apply TouchR.ite
    | with_reducible assumption
    | (with_reducible refine Field.sub_trans ?_ hL₀; decide)
    | with_reducible apply powerOn_touch
    | fail_if_no_progress (with_reducible refine Touch.updRst (Field.sub_trans (by decide) hL₀) ?_)
    | with_reducible apply Touch.ite

theorem execTjShut_touch (_sensor : Fin 32) (s : State) : TouchR [.lt, .regs, .latch64, .parts, .tiles, .be, .ctxs, .rings, .journal, .waiting, .serveNext, .mailbox, .bme, .nibs, .links, .dports, .eths, .partners, .tu, .mem, .rst, .pwr, .hmk, .blt, .anl, .assay] s (execTjShut _sensor s) := by
  have hL₀ : Field.sub [.lt, .regs, .latch64, .parts, .tiles, .be, .ctxs, .rings, .journal, .waiting, .serveNext, .mailbox, .bme, .nibs, .links, .dports, .eths, .partners, .tu, .mem, .rst, .pwr, .hmk, .blt, .anl, .assay] [.lt, .regs, .latch64, .parts, .tiles, .be, .ctxs, .rings, .journal, .waiting, .serveNext, .mailbox, .bme, .nibs, .links, .dports, .eths, .partners, .tu, .mem, .rst, .pwr, .hmk, .blt, .anl, .assay] = true := by decide
  have h₀ := Touch.refl [.lt, .regs, .latch64, .parts, .tiles, .be, .ctxs, .rings, .journal, .waiting, .serveNext, .mailbox, .bme, .nibs, .links, .dports, .eths, .partners, .tu, .mem, .rst, .pwr, .hmk, .blt, .anl, .assay] s
  unfold execTjShut
  try dsimp only
  repeat' first
    | with_reducible apply TouchR.next
    | with_reducible assumption
    | (with_reducible refine Field.sub_trans ?_ hL₀; decide)
    | with_reducible apply assertCold_touch
    | with_reducible apply Touch.ite

theorem countTamper_touch {L₀ : List Field} {s₀ s : State} (lo : Nat) (hL₀ : Field.sub [.regs] L₀ = true)
  (h₀ : Touch L₀ s₀ s) : Touch L₀ s₀ (countTamper s lo) := by
  unfold countTamper
  try dsimp only
  repeat' first
    | with_reducible assumption
    | (with_reducible refine Field.sub_trans ?_ hL₀; decide)
    | with_reducible apply regSet_touch
    | with_reducible apply Touch.ite

theorem tampered_touch {L₀ : List Field} {s₀ s : State}(hL₀ : Field.sub [.lt, .regs, .latch64, .parts, .tiles, .be, .ctxs, .rings, .journal, .waiting, .serveNext, .mailbox, .bme, .nibs, .links, .dports, .eths, .partners, .tu, .mem, .rst, .pwr, .hmk, .blt, .anl, .assay] L₀ = true)
  (h₀ : Touch L₀ s₀ s) : Touch L₀ s₀ (tampered s) := by
  unfold tampered
  try dsimp only
  repeat' first
    | with_reducible assumption
    | (with_reducible refine Field.sub_trans ?_ hL₀; decide)
    | with_reducible apply assertCold_touch
    | with_reducible apply Touch.ite

theorem execTamper_touch (k : TamperKind) (s : State) : TouchR [.lt, .regs, .latch64, .parts, .tiles, .be, .ctxs, .rings, .journal, .waiting, .serveNext, .mailbox, .bme, .nibs, .links, .dports, .eths, .partners, .tu, .mem, .rst, .pwr, .hmk, .blt, .anl, .assay] s (execTamper k s) := by
  have hL₀ : Field.sub [.lt, .regs, .latch64, .parts, .tiles, .be, .ctxs, .rings, .journal, .waiting, .serveNext, .mailbox, .bme, .nibs, .links, .dports, .eths, .partners, .tu, .mem, .rst, .pwr, .hmk, .blt, .anl, .assay] [.lt, .regs, .latch64, .parts, .tiles, .be, .ctxs, .rings, .journal, .waiting, .serveNext, .mailbox, .bme, .nibs, .links, .dports, .eths, .partners, .tu, .mem, .rst, .pwr, .hmk, .blt, .anl, .assay] = true := by decide
  have h₀ := Touch.refl [.lt, .regs, .latch64, .parts, .tiles, .be, .ctxs, .rings, .journal, .waiting, .serveNext, .mailbox, .bme, .nibs, .links, .dports, .eths, .partners, .tu, .mem, .rst, .pwr, .hmk, .blt, .anl, .assay] s
  unfold execTamper
  try dsimp only
  repeat' first
    | with_reducible apply TouchR.next
    | with_reducible assumption
    | (with_reducible refine Field.sub_trans ?_ hL₀; decide)
    | intro _
    | with_reducible apply tampered_touch
    | with_reducible apply countTamper_touch
    | with_reducible apply Touch.ite
    | split
    | (with_reducible apply Touch.of_fst; with_reducible assumption)
    | (with_reducible apply Touch.of_snd; with_reducible assumption)

theorem softwareReset_touch {L₀ : List Field} {s₀ s : State} (v : Word) (hL₀ : Field.sub [.freeCtr, .regs, .latch64, .parts, .tiles, .be, .ctxs, .rings, .journal, .waiting, .serveNext, .host, .mailbox, .bme, .nibs, .links, .dports, .eths, .partners, .tu, .mem, .rst, .pwr, .hmk, .blt, .anl, .assay] L₀ = true)
  (h₀ : Touch L₀ s₀ s) : Touch L₀ s₀ (softwareReset s v) := by
  unfold softwareReset
  try dsimp only
  repeat' first
    | with_reducible assumption
    | (with_reducible refine Field.sub_trans ?_ hL₀; decide)
    | with_reducible apply warmReset_touch
    | fail_if_no_progress (with_reducible refine Touch.updRst (Field.sub_trans (by decide) hL₀) ?_)
    | with_reducible apply Touch.ite

theorem execRstWarmReq_touch (v : Word) (s : State) : TouchR [.freeCtr, .regs, .latch64, .parts, .tiles, .be, .ctxs, .rings, .journal, .waiting, .serveNext, .host, .mailbox, .bme, .nibs, .links, .dports, .eths, .partners, .tu, .mem, .rst, .pwr, .hmk, .blt, .anl, .assay] s (execRstWarmReq v s) := by
  have hL₀ : Field.sub [.freeCtr, .regs, .latch64, .parts, .tiles, .be, .ctxs, .rings, .journal, .waiting, .serveNext, .host, .mailbox, .bme, .nibs, .links, .dports, .eths, .partners, .tu, .mem, .rst, .pwr, .hmk, .blt, .anl, .assay] [.freeCtr, .regs, .latch64, .parts, .tiles, .be, .ctxs, .rings, .journal, .waiting, .serveNext, .host, .mailbox, .bme, .nibs, .links, .dports, .eths, .partners, .tu, .mem, .rst, .pwr, .hmk, .blt, .anl, .assay] = true := by decide
  have h₀ := Touch.refl [.freeCtr, .regs, .latch64, .parts, .tiles, .be, .ctxs, .rings, .journal, .waiting, .serveNext, .host, .mailbox, .bme, .nibs, .links, .dports, .eths, .partners, .tu, .mem, .rst, .pwr, .hmk, .blt, .anl, .assay] s
  unfold execRstWarmReq
  try dsimp only
  repeat' first
    | with_reducible apply TouchR.next
    | with_reducible assumption
    | (with_reducible refine Field.sub_trans ?_ hL₀; decide)
    | with_reducible apply hostWrite_touch
    | with_reducible apply softwareReset_touch
    | with_reducible apply Touch.ite
    | with_reducible refine TouchR.mono (by decide) (hostWrite_touch _ _)

theorem kick_touch {L₀ : List Field} {s₀ s : State}(hL₀ : Field.sub [.rst] L₀ = true)
  (h₀ : Touch L₀ s₀ s) : Touch L₀ s₀ (kick s) := by
  unfold kick
  try dsimp only
  repeat' first
    | with_reducible assumption
    | (with_reducible refine Field.sub_trans ?_ hL₀; decide)
    | fail_if_no_progress (with_reducible refine Touch.updRst (Field.sub_trans (by decide) hL₀) ?_)
    | with_reducible apply Touch.ite

theorem execRstWdogKick_touch(s : State) : TouchR [.rst] s (execRstWdogKick s) := by
  have hL₀ : Field.sub [.rst] [.rst] = true := by decide
  have h₀ := Touch.refl [.rst] s
  unfold execRstWdogKick
  try dsimp only
  repeat' first
    | with_reducible apply TouchR.next
    | with_reducible assumption
    | (with_reducible refine Field.sub_trans ?_ hL₀; decide)
    | with_reducible apply hostWrite_touch
    | with_reducible apply kick_touch
    | with_reducible apply Touch.ite
    | with_reducible refine TouchR.mono (by decide) (hostWrite_touch _ _)

theorem execWatchdogExpire_touch(s : State) : TouchR [.freeCtr, .regs, .latch64, .parts, .tiles, .be, .ctxs, .rings, .journal, .waiting, .serveNext, .host, .mailbox, .bme, .nibs, .links, .dports, .eths, .partners, .tu, .mem, .rst, .pwr, .fuse, .hmk, .blt, .anl, .assay] s (execWatchdogExpire s) := by
  have hL₀ : Field.sub [.freeCtr, .regs, .latch64, .parts, .tiles, .be, .ctxs, .rings, .journal, .waiting, .serveNext, .host, .mailbox, .bme, .nibs, .links, .dports, .eths, .partners, .tu, .mem, .rst, .pwr, .fuse, .hmk, .blt, .anl, .assay] [.freeCtr, .regs, .latch64, .parts, .tiles, .be, .ctxs, .rings, .journal, .waiting, .serveNext, .host, .mailbox, .bme, .nibs, .links, .dports, .eths, .partners, .tu, .mem, .rst, .pwr, .fuse, .hmk, .blt, .anl, .assay] = true := by decide
  have h₀ := Touch.refl [.freeCtr, .regs, .latch64, .parts, .tiles, .be, .ctxs, .rings, .journal, .waiting, .serveNext, .host, .mailbox, .bme, .nibs, .links, .dports, .eths, .partners, .tu, .mem, .rst, .pwr, .fuse, .hmk, .blt, .anl, .assay] s
  unfold execWatchdogExpire
  try dsimp only
  repeat' first
    | with_reducible apply TouchR.next
    | with_reducible apply TouchR.ite
    | with_reducible assumption
    | (with_reducible refine Field.sub_trans ?_ hL₀; decide)
    | intro _
    | with_reducible apply failCore_touch
    | with_reducible apply warmReset_touch
    | fail_if_no_progress (with_reducible refine Touch.updRst (Field.sub_trans (by decide) hL₀) ?_)
    | with_reducible apply Touch.ite
    | split
    | (with_reducible apply Touch.of_fst; with_reducible assumption)
    | (with_reducible apply Touch.of_snd; with_reducible assumption)

theorem execDebugReset_touch(s : State) : TouchR [.freeCtr, .regs, .latch64, .parts, .tiles, .be, .ctxs, .rings, .journal, .waiting, .serveNext, .host, .mailbox, .bme, .nibs, .links, .dports, .eths, .partners, .tu, .mem, .rst, .pwr, .hmk, .blt, .anl, .assay] s (execDebugReset s) := by
  have hL₀ : Field.sub [.freeCtr, .regs, .latch64, .parts, .tiles, .be, .ctxs, .rings, .journal, .waiting, .serveNext, .host, .mailbox, .bme, .nibs, .links, .dports, .eths, .partners, .tu, .mem, .rst, .pwr, .hmk, .blt, .anl, .assay] [.freeCtr, .regs, .latch64, .parts, .tiles, .be, .ctxs, .rings, .journal, .waiting, .serveNext, .host, .mailbox, .bme, .nibs, .links, .dports, .eths, .partners, .tu, .mem, .rst, .pwr, .hmk, .blt, .anl, .assay] = true := by decide
  have h₀ := Touch.refl [.freeCtr, .regs, .latch64, .parts, .tiles, .be, .ctxs, .rings, .journal, .waiting, .serveNext, .host, .mailbox, .bme, .nibs, .links, .dports, .eths, .partners, .tu, .mem, .rst, .pwr, .hmk, .blt, .anl, .assay] s
  unfold execDebugReset
  try dsimp only
  repeat' first
    | with_reducible apply TouchR.next
    | with_reducible apply TouchR.ite
    | with_reducible assumption
    | (with_reducible refine Field.sub_trans ?_ hL₀; decide)
    | with_reducible apply warmReset_touch
    | with_reducible apply Touch.ite

theorem execPllLockLoss_touch (pll : Pll) (s : State) : TouchR [.freeCtr, .regs, .latch64, .parts, .tiles, .be, .ctxs, .rings, .journal, .waiting, .serveNext, .host, .mailbox, .bme, .nibs, .links, .dports, .eths, .partners, .tu, .mem, .rst, .pwr, .hmk, .blt, .anl, .assay] s (execPllLockLoss pll s) := by
  have hL₀ : Field.sub [.freeCtr, .regs, .latch64, .parts, .tiles, .be, .ctxs, .rings, .journal, .waiting, .serveNext, .host, .mailbox, .bme, .nibs, .links, .dports, .eths, .partners, .tu, .mem, .rst, .pwr, .hmk, .blt, .anl, .assay] [.freeCtr, .regs, .latch64, .parts, .tiles, .be, .ctxs, .rings, .journal, .waiting, .serveNext, .host, .mailbox, .bme, .nibs, .links, .dports, .eths, .partners, .tu, .mem, .rst, .pwr, .hmk, .blt, .anl, .assay] = true := by decide
  have h₀ := Touch.refl [.freeCtr, .regs, .latch64, .parts, .tiles, .be, .ctxs, .rings, .journal, .waiting, .serveNext, .host, .mailbox, .bme, .nibs, .links, .dports, .eths, .partners, .tu, .mem, .rst, .pwr, .hmk, .blt, .anl, .assay] s
  unfold execPllLockLoss
  try dsimp only
  repeat' first
    | with_reducible apply TouchR.next
    | with_reducible assumption
    | (with_reducible refine Field.sub_trans ?_ hL₀; decide)
    | intro _
    | with_reducible refine TouchR.of_eq (by with_reducible assumption) (execAssayClockFault_touch _) ?_ ?_
    | with_reducible apply warmReset_touch
    | with_reducible apply Touch.ite
    | split
    | (with_reducible apply Touch.of_fst; with_reducible assumption)
    | (with_reducible apply Touch.of_snd; with_reducible assumption)
    | with_reducible refine TouchR.mono (by decide) (execAssayClockFault_touch _)

theorem execRefclkLoss_touch(s : State) : TouchR [.freeCtr, .regs, .latch64, .parts, .tiles, .be, .ctxs, .rings, .journal, .waiting, .serveNext, .host, .mailbox, .bme, .nibs, .links, .dports, .eths, .partners, .tu, .mem, .rst, .pwr, .hmk, .blt, .anl, .assay] s (execRefclkLoss s) := by
  have hL₀ : Field.sub [.freeCtr, .regs, .latch64, .parts, .tiles, .be, .ctxs, .rings, .journal, .waiting, .serveNext, .host, .mailbox, .bme, .nibs, .links, .dports, .eths, .partners, .tu, .mem, .rst, .pwr, .hmk, .blt, .anl, .assay] [.freeCtr, .regs, .latch64, .parts, .tiles, .be, .ctxs, .rings, .journal, .waiting, .serveNext, .host, .mailbox, .bme, .nibs, .links, .dports, .eths, .partners, .tu, .mem, .rst, .pwr, .hmk, .blt, .anl, .assay] = true := by decide
  have h₀ := Touch.refl [.freeCtr, .regs, .latch64, .parts, .tiles, .be, .ctxs, .rings, .journal, .waiting, .serveNext, .host, .mailbox, .bme, .nibs, .links, .dports, .eths, .partners, .tu, .mem, .rst, .pwr, .hmk, .blt, .anl, .assay] s
  unfold execRefclkLoss
  try dsimp only
  repeat' first
    | with_reducible apply TouchR.next
    | with_reducible apply TouchR.ite
    | with_reducible assumption
    | (with_reducible refine Field.sub_trans ?_ hL₀; decide)
    | intro _
    | with_reducible apply modTu_touch
    | with_reducible apply enterHoldover_touch
    | with_reducible apply tuEvent_touch
    | with_reducible apply warmReset_touch
    | with_reducible apply Touch.ite
    | split

theorem execRefclkReturn_touch(s : State) : TouchR [.regs, .ctxs, .rings, .journal, .waiting, .host, .mailbox, .tu, .rst, .blt] s (execRefclkReturn s) := by
  have hL₀ : Field.sub [.regs, .ctxs, .rings, .journal, .waiting, .host, .mailbox, .tu, .rst, .blt] [.regs, .ctxs, .rings, .journal, .waiting, .host, .mailbox, .tu, .rst, .blt] = true := by decide
  have h₀ := Touch.refl [.regs, .ctxs, .rings, .journal, .waiting, .host, .mailbox, .tu, .rst, .blt] s
  unfold execRefclkReturn
  try dsimp only
  repeat' first
    | with_reducible apply TouchR.next
    | with_reducible apply TouchR.ite
    | with_reducible assumption
    | (with_reducible refine Field.sub_trans ?_ hL₀; decide)
    | intro _
    | with_reducible apply modTu_touch
    | with_reducible apply tuEvent_touch
    | fail_if_no_progress (with_reducible refine Touch.updRst (Field.sub_trans (by decide) hL₀) ?_)
    | with_reducible apply Touch.ite
    | split

theorem dropLaunches_touch {L₀ : List Field} {s₀ s : State} (p : Nat) (hL₀ : Field.sub [.parts] L₀ = true)
  (h₀ : Touch L₀ s₀ s) : Touch L₀ s₀ (dropLaunches s p) := by
  unfold dropLaunches
  try dsimp only
  repeat' first
    | with_reducible assumption
    | (with_reducible refine Field.sub_trans ?_ hL₀; decide)
    | intro _
    | with_reducible apply staleOf_touch
    | with_reducible apply Touch.ite
    | with_reducible apply Touch.fold
    | split
    | (with_reducible apply Touch.of_fst; with_reducible assumption)
    | (with_reducible apply Touch.of_snd; with_reducible assumption)

theorem partReset_touch {L : List Field} {r s : State} (p : Nat) (hL : Field.sub [.freeCtr, .regs, .parts, .tiles, .be, .nibs, .links, .dports, .eths, .mem, .rst, .blt, .assay] L = true)
    (h : Touch L r s) : Touch L r (partReset s p) := by
  unfold partReset
  extract_lets x mask out be img a1 a2 a3 s1
  have ho : Touch L r out :=
    Touch.fold _ (dropLaunches_touch _ (Field.sub_trans (by decide) hL) h) (fun t k ht => resetEngine_touch _ (Field.sub_trans (by decide) hL) ht)
  clear_value out
  have hb : Touch L r be := by
    unfold be
    refine Touch.fold _ ho (fun t k ht => ?_)
    split
    · refine Touch.ite ?_ ht
      exact dropRing_touch _ _ (Field.sub_trans (by decide) hL) (Touch.updMem (Field.sub_trans (by decide) hL) ht)
    · exact ht
  clear_value be
  have h1 : Touch L r s1 := by
    refine Touch.full hb ?_ id id (regsWf_filter _) (fun g => ⟨g, Fuses.before_refl _⟩)
    (exact fun f hf => by cases f <;> first | exact absurd (Field.sub_mem hL (by decide)) hf | rfl)
  apply setPart_touch _ _ (Field.sub_trans (by decide) hL)
  exact Touch.ite (freshTiles_touch _ (Field.sub_trans (by decide) hL) h1) h1

theorem partReq_touch {L₀ : List Field} {s₀ s : State} (v : Word) (hL₀ : Field.sub [.freeCtr, .regs, .parts, .tiles, .be, .nibs, .links, .dports, .eths, .mem, .rst, .blt, .assay] L₀ = true)
  (h₀ : Touch L₀ s₀ s) : Touch L₀ s₀ (partReq s v) := by
  unfold partReq
  try dsimp only
  repeat' first
    | with_reducible assumption
    | (with_reducible refine Field.sub_trans ?_ hL₀; decide)
    | intro _
    | with_reducible apply partReset_touch
    | fail_if_no_progress (with_reducible refine Touch.updRst (Field.sub_trans (by decide) hL₀) ?_)
    | with_reducible apply Touch.ite
    | with_reducible apply Touch.fold
    | split

theorem execRstPartReq_touch (v : Word) (s : State) : TouchR [.freeCtr, .regs, .parts, .tiles, .be, .nibs, .links, .dports, .eths, .mem, .rst, .blt, .assay] s (execRstPartReq v s) := by
  have hL₀ : Field.sub [.freeCtr, .regs, .parts, .tiles, .be, .nibs, .links, .dports, .eths, .mem, .rst, .blt, .assay] [.freeCtr, .regs, .parts, .tiles, .be, .nibs, .links, .dports, .eths, .mem, .rst, .blt, .assay] = true := by decide
  have h₀ := Touch.refl [.freeCtr, .regs, .parts, .tiles, .be, .nibs, .links, .dports, .eths, .mem, .rst, .blt, .assay] s
  unfold execRstPartReq
  try dsimp only
  repeat' first
    | with_reducible apply TouchR.next
    | with_reducible assumption
    | (with_reducible refine Field.sub_trans ?_ hL₀; decide)
    | with_reducible apply hostWrite_touch
    | with_reducible apply partReq_touch
    | with_reducible apply Touch.ite
    | with_reducible refine TouchR.mono (by decide) (hostWrite_touch _ _)

theorem portReset_touch {L : List Field} {r s : State} (n : Nat) (hL : Field.sub [.regs, .ctxs, .rings, .journal, .waiting, .host, .mailbox, .links, .dports, .eths, .partners, .tu, .rst, .blt] L = true)
    (h : Touch L r s) : Touch L r (portReset s n) := by
  unfold portReset
  dsimp only
  have h0 : Touch L r { s with rst := { s.rst with portRst := s.rst.portRst ||| BitVec.ofNat 28 (2 ^ n) } } :=
    Touch.updRst (Field.sub_trans (by decide) hL) h
  refine Touch.ite ?_ (Touch.ite ?_ ?_)
  · exact Touch.updRegs (Field.sub_trans (by decide) hL) (setLink_touch _ _ (Field.sub_trans (by decide) hL)
      (leaveLink_touch _ _ (Field.sub_trans (by decide) hL) h0)) (regsWf_filter _)
  · exact Touch.updRegs (Field.sub_trans (by decide) hL) (setDport_touch _ _ (Field.sub_trans (by decide) hL) h0)
      (regsWf_filter _)
  · exact Touch.updRegs (Field.sub_trans (by decide) hL) (setEth_touch _ _ (Field.sub_trans (by decide) hL)
      (slaveLost_touch _ (Field.sub_trans (by decide) hL) h0)) (regsWf_filter _)

theorem portReq_touch {L₀ : List Field} {s₀ s : State} (v : Word) (hL₀ : Field.sub [.regs, .ctxs, .rings, .journal, .waiting, .host, .mailbox, .links, .dports, .eths, .partners, .tu, .rst, .blt] L₀ = true)
  (h₀ : Touch L₀ s₀ s) : Touch L₀ s₀ (portReq s v) := by
  unfold portReq
  try dsimp only
  repeat' first
    | with_reducible assumption
    | (with_reducible refine Field.sub_trans ?_ hL₀; decide)
    | intro _
    | with_reducible apply portReset_touch
    | fail_if_no_progress (with_reducible refine Touch.updRst (Field.sub_trans (by decide) hL₀) ?_)
    | with_reducible apply Touch.ite
    | with_reducible apply Touch.fold
    | split

theorem execRstPortReq_touch (v : Word) (s : State) : TouchR [.regs, .ctxs, .rings, .journal, .waiting, .host, .mailbox, .links, .dports, .eths, .partners, .tu, .rst, .blt] s (execRstPortReq v s) := by
  have hL₀ : Field.sub [.regs, .ctxs, .rings, .journal, .waiting, .host, .mailbox, .links, .dports, .eths, .partners, .tu, .rst, .blt] [.regs, .ctxs, .rings, .journal, .waiting, .host, .mailbox, .links, .dports, .eths, .partners, .tu, .rst, .blt] = true := by decide
  have h₀ := Touch.refl [.regs, .ctxs, .rings, .journal, .waiting, .host, .mailbox, .links, .dports, .eths, .partners, .tu, .rst, .blt] s
  unfold execRstPortReq
  try dsimp only
  repeat' first
    | with_reducible apply TouchR.next
    | with_reducible assumption
    | (with_reducible refine Field.sub_trans ?_ hL₀; decide)
    | with_reducible apply hostWrite_touch
    | with_reducible apply portReq_touch
    | with_reducible apply Touch.ite
    | with_reducible refine TouchR.mono (by decide) (hostWrite_touch _ _)

end Sys2Proof.Machine
end

