-- ==== Sys2Proof/Laws/TouchTrng.lean ====
section
/-! SUPPORT. What each function of Machine/Trng.lean may touch: its law in the sense of Laws/Frame.lean. -/

namespace Sys2Proof.Machine

theorem noteFailure_touch {L₀ : List Field} {s₀ s : State}(hL₀ : Field.sub [.regs, .ctxs, .rings, .journal, .waiting, .host, .mailbox, .hmk, .blt] L₀ = true)
  (h₀ : Touch L₀ s₀ s) : Touch L₀ s₀ (noteFailure s) := by
  unfold noteFailure
  try dsimp only
  repeat' first
    | with_reducible assumption
    | (with_reducible refine Field.sub_trans ?_ hL₀; decide)
    | with_reducible apply healthEvent_touch
    | fail_if_no_progress (with_reducible refine Touch.updHmk (Field.sub_trans (by decide) hL₀) ?_)
    | with_reducible apply Touch.ite

theorem seedOnce_touch {L₀ : List Field} {s₀ s : State}(hL₀ : Field.sub [.freeCtr, .regs, .ctxs, .rings, .journal, .waiting, .host, .mailbox, .hmk, .blt] L₀ = true)
  (h₀ : Touch L₀ s₀ s) : Touch L₀ s₀ (seedOnce s) := by
  unfold seedOnce
  try dsimp only
  repeat' first
    | (show ∀ f : Field, _; intro f hf; cases f <;> first | exact absurd (Field.sub_mem hL₀ (by decide)) hf | rfl)
    | with_reducible assumption
    | (with_reducible refine Field.sub_trans ?_ hL₀; decide)
    | with_reducible apply noteFailure_touch
    | fail_if_no_progress (with_reducible refine Touch.updFreeCtr (Field.sub_trans (by decide) hL₀) ?_)
    | fail_if_no_progress (with_reducible refine Touch.updHmk (Field.sub_trans (by decide) hL₀) ?_)
    | with_reducible apply Touch.ite
    | (with_reducible refine Touch.mk ?_ ?_ rfl rfl rfl rfl)

theorem seedDrbg_touch {L₀ : List Field} {s₀ s : State}(hL₀ : Field.sub [.freeCtr, .regs, .ctxs, .rings, .journal, .waiting, .host, .mailbox, .hmk, .blt] L₀ = true)
  (h₀ : Touch L₀ s₀ s) : Touch L₀ s₀ (seedDrbg s) := by
  unfold seedDrbg
  try dsimp only
  repeat' first
    | with_reducible assumption
    | (with_reducible refine Field.sub_trans ?_ hL₀; decide)
    | with_reducible apply seedOnce_touch
    | with_reducible apply Touch.ite

theorem freshBits_touch {L₀ : List Field} {s₀ s : State}(hL₀ : Field.sub [.freeCtr, .regs, .ctxs, .rings, .journal, .waiting, .host, .mailbox, .hmk, .blt] L₀ = true)
  (h₀ : Touch L₀ s₀ s) : Touch L₀ s₀ (freshBits s).2 := by
  unfold freshBits
  try dsimp only
  repeat' first
    | with_reducible assumption
    | (with_reducible refine Field.sub_trans ?_ hL₀; decide)
    | with_reducible apply seedDrbg_touch
    | fail_if_no_progress (with_reducible refine Touch.updHmk (Field.sub_trans (by decide) hL₀) ?_)
    | with_reducible apply Touch.ite_snd
    | with_reducible apply Touch.ite

end Sys2Proof.Machine
end

