-- ==== Sys2Proof/Laws/TouchHallmark.lean ====
section
/-! SUPPORT. What each function of Machine/Hallmark.lean may touch: its law in the sense of Laws/Frame.lean. -/

namespace Sys2Proof.Machine

theorem hmkRefuse_touch {L₀ : List Field} {s₀ s : State} (cause : Nat) (hL₀ : Field.sub [.regs] L₀ = true)
  (h₀ : Touch L₀ s₀ s) : Touch L₀ s₀ (hmkRefuse s cause) := by
  unfold hmkRefuse
  try dsimp only
  repeat' first
    | with_reducible assumption
    | (with_reducible refine Field.sub_trans ?_ hL₀; decide)
    | with_reducible apply recordErr_touch
    | with_reducible apply Touch.ite

theorem portStore_touch {L : List Field} {r s : State} (xspi : Bool) (a : Nat) (bs : List Byte) (hL : Field.sub [.host, .mailbox] L = true)
    (h : Touch L r s) : Touch L r (portStore s xspi a bs) := by
  unfold portStore
  apply Touch.ite
  · exact Touch.updMailbox (Field.sub_trans (by decide) hL) h (memWf_putBytes _ a)
  · exact Touch.updHost (Field.sub_trans (by decide) hL) h (memWf_putBytes bs a)

theorem attest_touch {L₀ : List Field} {s₀ s : State} (h : HostPort) (hL₀ : Field.sub [.regs, .hmk] L₀ = true)
  (h₀ : Touch L₀ s₀ s) : Touch L₀ s₀ (attest s h) := by
  unfold attest
  try dsimp only
  repeat' first
    | with_reducible assumption
    | (with_reducible refine Field.sub_trans ?_ hL₀; decide)
    | intro _
    | with_reducible apply hmkRefuse_touch
    | fail_if_no_progress (with_reducible refine Touch.updHmk (Field.sub_trans (by decide) hL₀) ?_)
    | with_reducible apply Touch.ite
    | split

theorem execHmkAttCmd_touch (h : HostPort) (s : State) : TouchR [.regs, .hmk] s (execHmkAttCmd h s) := by
  have hL₀ : Field.sub [.regs, .hmk] [.regs, .hmk] = true := by decide
  have h₀ := Touch.refl [.regs, .hmk] s
  unfold execHmkAttCmd
  try dsimp only
  repeat' first
    | with_reducible apply TouchR.next
    | with_reducible assumption
    | (with_reducible refine Field.sub_trans ?_ hL₀; decide)
    | with_reducible apply hostWrite_touch
    | with_reducible apply attest_touch
    | with_reducible apply Touch.ite
    | with_reducible refine TouchR.mono (by decide) (hostWrite_touch _ _)

theorem execAttestationDone_touch(s : State) : TouchR [.host, .mailbox, .hmk] s (execAttestationDone s) := by
  have hL₀ : Field.sub [.host, .mailbox, .hmk] [.host, .mailbox, .hmk] = true := by decide
  have h₀ := Touch.refl [.host, .mailbox, .hmk] s
  unfold execAttestationDone
  try dsimp only
  repeat' first
    | with_reducible apply TouchR.next
    | with_reducible assumption
    | (with_reducible refine Field.sub_trans ?_ hL₀; decide)
    | intro _
    | with_reducible apply portStore_touch
    | fail_if_no_progress (with_reducible refine Touch.updHmk (Field.sub_trans (by decide) hL₀) ?_)
    | with_reducible apply Touch.ite
    | split
    | (with_reducible apply Touch.of_fst; with_reducible assumption)
    | (with_reducible apply Touch.of_snd; with_reducible assumption)

theorem challenge_touch {L₀ : List Field} {s₀ s : State}(hL₀ : Field.sub [.freeCtr, .regs, .ctxs, .rings, .journal, .waiting, .host, .mailbox, .hmk, .blt] L₀ = true)
  (h₀ : Touch L₀ s₀ s) : Touch L₀ s₀ (challenge s) := by
  unfold challenge
  try dsimp only
  repeat' first
    | with_reducible assumption
    | (with_reducible refine Field.sub_trans ?_ hL₀; decide)
    | intro _
    | with_reducible apply freshBits_touch
    | with_reducible apply hmkRefuse_touch
    | fail_if_no_progress (with_reducible refine Touch.updHmk (Field.sub_trans (by decide) hL₀) ?_)
    | with_reducible apply Touch.ite
    | split
    | (with_reducible apply Touch.of_fst; with_reducible assumption)
    | (with_reducible apply Touch.of_snd; with_reducible assumption)

theorem execHmkChalRead_touch(s : State) : TouchR [.freeCtr, .regs, .ctxs, .rings, .journal, .waiting, .host, .mailbox, .hmk, .blt] s (execHmkChalRead s) := by
  have hL₀ : Field.sub [.freeCtr, .regs, .ctxs, .rings, .journal, .waiting, .host, .mailbox, .hmk, .blt] [.freeCtr, .regs, .ctxs, .rings, .journal, .waiting, .host, .mailbox, .hmk, .blt] = true := by decide
  have h₀ := Touch.refl [.freeCtr, .regs, .ctxs, .rings, .journal, .waiting, .host, .mailbox, .hmk, .blt] s
  unfold execHmkChalRead
  try dsimp only
  repeat' first
    | with_reducible apply TouchR.next
    | with_reducible assumption
    | (with_reducible refine Field.sub_trans ?_ hL₀; decide)
    | with_reducible apply challenge_touch
    | with_reducible apply Touch.ite

theorem transitionKeys_listed {s : State} {t : Nat} {ks : List Nat} (h : transitionKeys s t = some ks) :
    transitionListed s.fuse.lifecycle t = true := by
  unfold transitionKeys at h
  dsimp only at h
  split at h
  · next c => rw [c.1, c.2]; rfl
  · split at h
    · next c => rw [c.1, c.2]; rfl
    · split at h
      · next c => rcases c with ⟨a, b | b⟩ <;> rw [a, b] <;> rfl
      · split at h
        · next c => rcases c with ⟨a | a | a, b⟩ <;> rw [a, b] <;> rfl
        · exact absurd h (by simp)

theorem lifecycleToken_touch {L : List Field} {r s : State} (t : Token) (hL : Field.sub [.lt, .regs, .latch64, .parts, .tiles, .be, .ctxs, .rings, .journal, .waiting, .serveNext, .mailbox, .bme, .nibs, .links, .dports, .eths, .partners, .tu, .mem, .rst, .pwr, .fuse, .hmk, .blt, .anl, .assay] L = true) (h : Touch L r s) :
    Touch L r (lifecycleToken s t) := by
  unfold lifecycleToken
  refine Touch.ite (hmkRefuse_touch _ (Field.sub_trans (by decide) hL) h) ?_
  split
  · exact hmkRefuse_touch _ (Field.sub_trans (by decide) hL) h
  · next ks e =>
    refine Touch.ite ?_ (hmkRefuse_touch _ (Field.sub_trans (by decide) hL) h)
    apply assertCold_touch _ (Field.sub_trans (by decide) hL)
    refine Touch.updFuse (Field.sub_trans (by decide) hL) h (fun g => ⟨⟨g.1, ?_⟩, Fuses.before_refl _⟩)
    intro u hu
    cases hu
    exact transitionKeys_listed e

theorem rejectDebug_touch {L₀ : List Field} {s₀ s : State}(hL₀ : Field.sub [.lt, .regs, .latch64, .parts, .tiles, .be, .ctxs, .rings, .journal, .waiting, .serveNext, .mailbox, .bme, .nibs, .links, .dports, .eths, .partners, .tu, .mem, .rst, .pwr, .hmk, .blt, .anl, .assay] L₀ = true)
  (h₀ : Touch L₀ s₀ s) : Touch L₀ s₀ (rejectDebug s) := by
  unfold rejectDebug
  try dsimp only
  repeat' first
    | with_reducible assumption
    | (with_reducible refine Field.sub_trans ?_ hL₀; decide)
    | with_reducible apply countTamper_touch
    | with_reducible apply hmkRefuse_touch
    | with_reducible apply tampered_touch
    | with_reducible apply Touch.ite

theorem debugToken_touch {L₀ : List Field} {s₀ s : State} (t : Token) (hL₀ : Field.sub [.lt, .regs, .latch64, .parts, .tiles, .be, .ctxs, .rings, .journal, .waiting, .serveNext, .mailbox, .bme, .nibs, .links, .dports, .eths, .partners, .tu, .mem, .rst, .pwr, .hmk, .blt, .anl, .assay] L₀ = true)
  (h₀ : Touch L₀ s₀ s) : Touch L₀ s₀ (debugToken s t) := by
  unfold debugToken
  try dsimp only
  repeat' first
    | with_reducible assumption
    | (with_reducible refine Field.sub_trans ?_ hL₀; decide)
    | with_reducible apply rejectDebug_touch
    | fail_if_no_progress (with_reducible refine Touch.updHmk (Field.sub_trans (by decide) hL₀) ?_)
    | with_reducible apply Touch.ite

theorem submitToken_touch {L₀ : List Field} {s₀ s : State} (h : HostPort) (hL₀ : Field.sub [.lt, .regs, .latch64, .parts, .tiles, .be, .ctxs, .rings, .journal, .waiting, .serveNext, .mailbox, .bme, .nibs, .links, .dports, .eths, .partners, .tu, .mem, .rst, .pwr, .fuse, .hmk, .blt, .anl, .assay] L₀ = true)
  (h₀ : Touch L₀ s₀ s) : Touch L₀ s₀ (submitToken s h) := by
  unfold submitToken
  try dsimp only
  repeat' first
    | with_reducible assumption
    | (with_reducible refine Field.sub_trans ?_ hL₀; decide)
    | with_reducible apply lifecycleToken_touch
    | with_reducible apply debugToken_touch
    | with_reducible apply hmkRefuse_touch
    | with_reducible apply Touch.ite

theorem execHmkTokenCmd_touch (h : HostPort) (s : State) : TouchR [.lt, .regs, .latch64, .parts, .tiles, .be, .ctxs, .rings, .journal, .waiting, .serveNext, .mailbox, .bme, .nibs, .links, .dports, .eths, .partners, .tu, .mem, .rst, .pwr, .fuse, .hmk, .blt, .anl, .assay] s (execHmkTokenCmd h s) := by
  have hL₀ : Field.sub [.lt, .regs, .latch64, .parts, .tiles, .be, .ctxs, .rings, .journal, .waiting, .serveNext, .mailbox, .bme, .nibs, .links, .dports, .eths, .partners, .tu, .mem, .rst, .pwr, .fuse, .hmk, .blt, .anl, .assay] [.lt, .regs, .latch64, .parts, .tiles, .be, .ctxs, .rings, .journal, .waiting, .serveNext, .mailbox, .bme, .nibs, .links, .dports, .eths, .partners, .tu, .mem, .rst, .pwr, .fuse, .hmk, .blt, .anl, .assay] = true := by decide
  have h₀ := Touch.refl [.lt, .regs, .latch64, .parts, .tiles, .be, .ctxs, .rings, .journal, .waiting, .serveNext, .mailbox, .bme, .nibs, .links, .dports, .eths, .partners, .tu, .mem, .rst, .pwr, .fuse, .hmk, .blt, .anl, .assay] s
  unfold execHmkTokenCmd
  try dsimp only
  repeat' first
    | with_reducible apply TouchR.next
    | with_reducible assumption
    | (with_reducible refine Field.sub_trans ?_ hL₀; decide)
    | with_reducible apply hostWrite_touch
    | with_reducible apply submitToken_touch
    | with_reducible apply Touch.ite
    | with_reducible refine TouchR.mono (by decide) (hostWrite_touch _ _)

theorem revoke_touch {L : List Field} {r s : State} (v : Word) (hL : Field.sub [.regs, .fuse] L = true) (h : Touch L r s) :
    Touch L r (revoke s v) := by
  unfold revoke
  dsimp only
  refine Touch.ite h (Touch.ite (hmkRefuse_touch _ (Field.sub_trans (by decide) hL) h) ?_)
  exact Touch.updFuse (Field.sub_trans (by decide) hL) h
    (Fuses.keep rfl rfl (Nat.le_refl _) (Nat.le_refl _) (by rw [← BitVec.or_assoc, BitVec.or_self]) (Nat.le_refl _))

theorem execHmkRevoke_touch (v : Word) (s : State) : TouchR [.regs, .fuse] s (execHmkRevoke v s) := by
  have hL₀ : Field.sub [.regs, .fuse] [.regs, .fuse] = true := by decide
  have h₀ := Touch.refl [.regs, .fuse] s
  unfold execHmkRevoke
  try dsimp only
  repeat' first
    | with_reducible apply TouchR.next
    | with_reducible assumption
    | (with_reducible refine Field.sub_trans ?_ hL₀; decide)
    | with_reducible apply hostWrite_touch
    | with_reducible apply revoke_touch
    | with_reducible apply Touch.ite
    | with_reducible refine TouchR.mono (by decide) (hostWrite_touch _ _)

theorem raiseSvn_touch {L : List Field} {r s : State} (hL : Field.sub [.fuse] L = true) (h : Touch L r s) : Touch L r (raiseSvn s) := by
  unfold raiseSvn
  dsimp only
  refine Touch.ite ?_ h
  exact Touch.updFuse hL h (Fuses.keep rfl rfl (Nat.le_max_left ..) (Nat.le_max_left ..) (BitVec.or_self ..) (Nat.le_refl _))

theorem execHmkSvnCmd_touch(s : State) : TouchR [.fuse] s (execHmkSvnCmd s) := by
  have hL₀ : Field.sub [.fuse] [.fuse] = true := by decide
  have h₀ := Touch.refl [.fuse] s
  unfold execHmkSvnCmd
  try dsimp only
  repeat' first
    | with_reducible apply TouchR.next
    | with_reducible assumption
    | (with_reducible refine Field.sub_trans ?_ hL₀; decide)
    | with_reducible apply hostWrite_touch
    | with_reducible apply raiseSvn_touch
    | with_reducible apply Touch.ite
    | with_reducible refine TouchR.mono (by decide) (hostWrite_touch _ _)

theorem loadRecipient_touch {L₀ : List Field} {s₀ s : State}(hL₀ : Field.sub [.hmk] L₀ = true)
  (h₀ : Touch L₀ s₀ s) : Touch L₀ s₀ (loadRecipient s) := by
  unfold loadRecipient
  try dsimp only
  repeat' first
    | with_reducible assumption
    | (with_reducible refine Field.sub_trans ?_ hL₀; decide)
    | intro _
    | fail_if_no_progress (with_reducible refine Touch.updHmk (Field.sub_trans (by decide) hL₀) ?_)
    | with_reducible apply Touch.ite
    | split

theorem execHmkExportLoad_touch(s : State) : TouchR [.hmk] s (execHmkExportLoad s) := by
  have hL₀ : Field.sub [.hmk] [.hmk] = true := by decide
  have h₀ := Touch.refl [.hmk] s
  unfold execHmkExportLoad
  try dsimp only
  repeat' first
    | with_reducible apply TouchR.next
    | with_reducible assumption
    | (with_reducible refine Field.sub_trans ?_ hL₀; decide)
    | with_reducible apply hostWrite_touch
    | with_reducible apply loadRecipient_touch
    | with_reducible apply Touch.ite
    | with_reducible refine TouchR.mono (by decide) (hostWrite_touch _ _)

end Sys2Proof.Machine
end

