-- ==== Sys2Proof/Laws/TouchBlotter.lean ====
section
/-! SUPPORT. What each function of Machine/Blotter.lean may touch: its law in the sense of Laws/Frame.lean. -/

namespace Sys2Proof.Machine

theorem bltRefuse_touch {L₀ : List Field} {s₀ s : State}(hL₀ : Field.sub [.regs] L₀ = true)
  (h₀ : Touch L₀ s₀ s) : Touch L₀ s₀ (bltRefuse s) := by
  unfold bltRefuse
  try dsimp only
  repeat' first
    | with_reducible assumption
    | (with_reducible refine Field.sub_trans ?_ hL₀; decide)
    | with_reducible apply bump_touch
    | with_reducible apply Touch.ite

theorem sessionRecord_touch {L₀ : List Field} {s₀ s : State} (cause : Nat) (hL₀ : Field.sub [.freeCtr, .blt] L₀ = true)
  (h₀ : Touch L₀ s₀ s) : Touch L₀ s₀ (sessionRecord s cause) := by
  unfold sessionRecord
  try dsimp only
  repeat' first
    | with_reducible assumption
    | (with_reducible refine Field.sub_trans ?_ hL₀; decide)
    | intro _
    | with_reducible apply pidWords_touch
    | with_reducible apply bltRecord_touch
    | with_reducible apply Touch.ite
    | split
    | (with_reducible apply Touch.of_fst; with_reducible assumption)
    | (with_reducible apply Touch.of_snd; with_reducible assumption)

theorem launchConfig_touch {L₀ : List Field} {s₀ s : State} (p : Nat) (j : Nat) (hL₀ : Field.sub [.blt] L₀ = true)
  (h₀ : Touch L₀ s₀ s) : Touch L₀ s₀ (launchConfig s p j) := by
  unfold launchConfig
  try dsimp only
  repeat' first
    | with_reducible assumption
    | (with_reducible refine Field.sub_trans ?_ hL₀; decide)
    | intro _
    | with_reducible apply bltRecord_touch
    | with_reducible apply Touch.ite
    | split

theorem strmConfig_touch {L₀ : List Field} {s₀ s : State} (i : Nat) (hL₀ : Field.sub [.blt] L₀ = true)
  (h₀ : Touch L₀ s₀ s) : Touch L₀ s₀ (strmConfig s i) := by
  unfold strmConfig
  try dsimp only
  repeat' first
    | with_reducible assumption
    | (with_reducible refine Field.sub_trans ?_ hL₀; decide)
    | intro _
    | with_reducible apply bltRecord_touch
    | with_reducible apply Touch.ite
    | split

theorem nibConfig_touch {L₀ : List Field} {s₀ s : State} (n : Nat) (k : Nat) (v : Word) (hL₀ : Field.sub [.blt] L₀ = true)
  (h₀ : Touch L₀ s₀ s) : Touch L₀ s₀ (nibConfig s n k v) := by
  unfold nibConfig
  try dsimp only
  repeat' first
    | with_reducible assumption
    | (with_reducible refine Field.sub_trans ?_ hL₀; decide)
    | with_reducible apply bltRecord_touch
    | with_reducible apply Touch.ite

theorem configAll_touch {L₀ : List Field} {s₀ s : State}(hL₀ : Field.sub [.blt] L₀ = true)
  (h₀ : Touch L₀ s₀ s) : Touch L₀ s₀ (configAll s) := by
  unfold configAll
  try dsimp only
  repeat' first
    | with_reducible assumption
    | (with_reducible refine Field.sub_trans ?_ hL₀; decide)
    | intro _
    | with_reducible apply slotConfig_touch
    | with_reducible apply launchConfig_touch
    | with_reducible apply strmConfig_touch
    | with_reducible apply Touch.ite
    | with_reducible apply Touch.fold
    | split

theorem modeWrite_touch {L₀ : List Field} {s₀ s : State} (v : Word) (hL₀ : Field.sub [.freeCtr, .regs, .blt] L₀ = true)
  (h₀ : Touch L₀ s₀ s) : Touch L₀ s₀ (modeWrite s v) := by
  unfold modeWrite
  try dsimp only
  repeat' first
    | with_reducible assumption
    | (with_reducible refine Field.sub_trans ?_ hL₀; decide)
    | intro _
    | with_reducible apply regSet_touch
    | with_reducible apply bltRefuse_touch
    | with_reducible apply recordErr_touch
    | with_reducible apply configAll_touch
    | with_reducible apply sessionRecord_touch
    | fail_if_no_progress (with_reducible refine Touch.updBlt (Field.sub_trans (by decide) hL₀) ?_)
    | with_reducible apply Touch.ite
    | split

theorem execBltModeWrite_touch (v : Word) (s : State) : TouchR [.freeCtr, .regs, .blt] s (execBltModeWrite v s) := by
  have hL₀ : Field.sub [.freeCtr, .regs, .blt] [.freeCtr, .regs, .blt] = true := by decide
  have h₀ := Touch.refl [.freeCtr, .regs, .blt] s
  unfold execBltModeWrite
  try dsimp only
  repeat' first
    | with_reducible apply TouchR.next
    | with_reducible assumption
    | (with_reducible refine Field.sub_trans ?_ hL₀; decide)
    | with_reducible apply hostWrite_touch
    | with_reducible apply modeWrite_touch
    | with_reducible apply Touch.ite
    | with_reducible refine TouchR.mono (by decide) (hostWrite_touch _ _)

theorem snapPart_touch {L₀ : List Field} {s₀ s : State} (p : Nat) (hL₀ : Field.sub [.blt] L₀ = true)
  (h₀ : Touch L₀ s₀ s) : Touch L₀ s₀ (snapPart s p) := by
  unfold snapPart
  try dsimp only
  repeat' first
    | with_reducible assumption
    | (with_reducible refine Field.sub_trans ?_ hL₀; decide)
    | intro _
    | with_reducible apply bltRecord_touch
    | with_reducible apply Touch.ite
    | with_reducible apply Touch.fold
    | split
    | (with_reducible apply Touch.of_fst; with_reducible assumption)
    | (with_reducible apply Touch.of_snd; with_reducible assumption)

theorem snapWrite_touch {L₀ : List Field} {s₀ s : State} (v : Word) (hL₀ : Field.sub [.blt] L₀ = true)
  (h₀ : Touch L₀ s₀ s) : Touch L₀ s₀ (snapWrite s v) := by
  unfold snapWrite
  try dsimp only
  repeat' first
    | with_reducible assumption
    | (with_reducible refine Field.sub_trans ?_ hL₀; decide)
    | intro _
    | with_reducible apply snapPart_touch
    | with_reducible apply Touch.ite
    | with_reducible apply Touch.fold
    | split

theorem execBltSnap_touch (v : Word) (s : State) : TouchR [.blt] s (execBltSnap v s) := by
  have hL₀ : Field.sub [.blt] [.blt] = true := by decide
  have h₀ := Touch.refl [.blt] s
  unfold execBltSnap
  try dsimp only
  repeat' first
    | with_reducible apply TouchR.next
    | with_reducible assumption
    | (with_reducible refine Field.sub_trans ?_ hL₀; decide)
    | with_reducible apply hostWrite_touch
    | with_reducible apply snapWrite_touch
    | with_reducible apply Touch.ite
    | with_reducible refine TouchR.mono (by decide) (hostWrite_touch _ _)

theorem execSnapTimer_touch(s : State) : TouchR [.blt] s (execSnapTimer s) := by
  have hL₀ : Field.sub [.blt] [.blt] = true := by decide
  have h₀ := Touch.refl [.blt] s
  unfold execSnapTimer
  try dsimp only
  repeat' first
    | with_reducible apply TouchR.next
    | with_reducible assumption
    | (with_reducible refine Field.sub_trans ?_ hL₀; decide)
    | intro _
    | with_reducible apply snapPart_touch
    | with_reducible apply Touch.ite
    | with_reducible apply Touch.fold

theorem markWrite_touch {L₀ : List Field} {s₀ s : State} (tag : Word64) (hL₀ : Field.sub [.blt] L₀ = true)
  (h₀ : Touch L₀ s₀ s) : Touch L₀ s₀ (markWrite s tag) := by
  unfold markWrite
  try dsimp only
  repeat' first
    | with_reducible assumption
    | (with_reducible refine Field.sub_trans ?_ hL₀; decide)
    | with_reducible apply bltRecord_touch
    | with_reducible apply Touch.ite

theorem execBltMark_touch (tag : Word64) (s : State) : TouchR [.blt] s (execBltMark tag s) := by
  have hL₀ : Field.sub [.blt] [.blt] = true := by decide
  have h₀ := Touch.refl [.blt] s
  unfold execBltMark
  try dsimp only
  repeat' first
    | with_reducible apply TouchR.next
    | with_reducible assumption
    | (with_reducible refine Field.sub_trans ?_ hL₀; decide)
    | with_reducible apply hostWrite_touch
    | with_reducible apply markWrite_touch
    | with_reducible apply Touch.ite
    | with_reducible refine TouchR.mono (by decide) (hostWrite_touch _ _)

theorem trigWrite_touch {L₀ : List Field} {s₀ s : State}(hL₀ : Field.sub [.blt] L₀ = true)
  (h₀ : Touch L₀ s₀ s) : Touch L₀ s₀ (trigWrite s) := by
  unfold trigWrite
  try dsimp only
  repeat' first
    | with_reducible assumption
    | (with_reducible refine Field.sub_trans ?_ hL₀; decide)
    | with_reducible apply bltTrigger_touch
    | with_reducible apply Touch.ite

theorem execBltTrig_touch(s : State) : TouchR [.blt] s (execBltTrig s) := by
  have hL₀ : Field.sub [.blt] [.blt] = true := by decide
  have h₀ := Touch.refl [.blt] s
  unfold execBltTrig
  try dsimp only
  repeat' first
    | with_reducible apply TouchR.next
    | with_reducible assumption
    | (with_reducible refine Field.sub_trans ?_ hL₀; decide)
    | with_reducible apply hostWrite_touch
    | with_reducible apply trigWrite_touch
    | with_reducible apply Touch.ite
    | with_reducible refine TouchR.mono (by decide) (hostWrite_touch _ _)

theorem execPostTriggerEnd_touch(s : State) : TouchR [.blt] s (execPostTriggerEnd s) := by
  have hL₀ : Field.sub [.blt] [.blt] = true := by decide
  have h₀ := Touch.refl [.blt] s
  unfold execPostTriggerEnd
  try dsimp only
  repeat' first
    | with_reducible apply TouchR.next
    | with_reducible apply TouchR.ite
    | with_reducible assumption
    | (with_reducible refine Field.sub_trans ?_ hL₀; decide)
    | fail_if_no_progress (with_reducible refine Touch.updBlt (Field.sub_trans (by decide) hL₀) ?_)
    | with_reducible apply Touch.ite

theorem execBlotterDrain_touch(s : State) : TouchR [.blt] s (execBlotterDrain s) := by
  have hL₀ : Field.sub [.blt] [.blt] = true := by decide
  have h₀ := Touch.refl [.blt] s
  unfold execBlotterDrain
  try dsimp only
  repeat' first
    | with_reducible apply TouchR.next
    | with_reducible apply TouchR.ite
    | with_reducible assumption
    | (with_reducible refine Field.sub_trans ?_ hL₀; decide)
    | fail_if_no_progress (with_reducible refine Touch.updBlt (Field.sub_trans (by decide) hL₀) ?_)
    | with_reducible apply Touch.ite

end Sys2Proof.Machine
end

