-- ==== Sys2Proof/Laws/TouchBoot.lean ====
section
/-! SUPPORT. What each function of Machine/Boot.lean may touch: its law in the sense of Laws/Frame.lean. -/

namespace Sys2Proof.Machine

theorem transitionListed_le {a b : Nat} (h : transitionListed a b = true) : a ≤ b ∧ b ≤ 4 := by
  unfold transitionListed at h
  split at h <;> first | omega | exact absurd h (by decide)

theorem bootFail_touch {L₀ : List Field} {s₀ s : State} (cause : Nat) (hL₀ : Field.sub [.rst] L₀ = true)
  (h₀ : Touch L₀ s₀ s) : Touch L₀ s₀ (bootFail s cause) := by
  unfold bootFail
  try dsimp only
  repeat' first
    | with_reducible assumption
    | (with_reducible refine Field.sub_trans ?_ hL₀; decide)
    | fail_if_no_progress (with_reducible refine Touch.updRst (Field.sub_trans (by decide) hL₀) ?_)
    | with_reducible apply Touch.ite

theorem takeIntent_touch {L : List Field} {r s : State} (hL : Field.sub [.freeCtr, .regs, .ctxs, .rings, .journal, .waiting, .host, .mailbox, .fuse, .hmk, .blt] L = true) (h : Touch L r s) :
    Touch L r (takeIntent s) := by
  unfold takeIntent
  split
  · exact h
  · next t e =>
    have key : ∀ g : Fuses, g.lifecycle = t → g.intent = none → g.fwSvn = s.fuse.fwSvn → g.cfgSvn = s.fuse.cfgSvn →
        s.fuse.revoked ||| g.revoked = g.revoked → g.annealUsed = s.fuse.annealUsed →
        s.fuse.legal → g.legal ∧ s.fuse.before g := by
      intro g h1 h2 h3 h4 h5 h6 hl
      obtain ⟨_, b⟩ := transitionListed_le (hl.2 t e)
      refine ⟨⟨by omega, by simp [h2]⟩, ?_, by omega, by omega, h5, by omega⟩
      obtain ⟨a, _⟩ := transitionListed_le (hl.2 t e)
      omega
    have keyU : ∀ v : Fuses, v = s.fuse → ∀ g : Fuses, g.lifecycle = t → g.intent = none → g.fwSvn = s.fuse.fwSvn →
        g.cfgSvn = s.fuse.cfgSvn → s.fuse.revoked ||| g.revoked = g.revoked → g.annealUsed = s.fuse.annealUsed →
        v.legal → g.legal ∧ v.before g := by
      rintro _ rfl; exact key
    dsimp only
    split
    · have h1 := freshBits_touch (Field.sub_trans (by decide) hL) h
      have hf : (freshBits s).2.fuse = s.fuse := (freshBits_touch (L₀ := [.freeCtr, .regs, .ctxs, .rings, .journal, .waiting, .host, .mailbox, .hmk, .blt]) (by decide) (Touch.refl _ s)).same .fuse (by decide)
      split
      · next x u e =>
        rw [e] at h1 hf
        exact Touch.updFuse (Field.sub_trans (by decide) hL) h1 (keyU _ hf _ rfl rfl rfl rfl (BitVec.or_self ..) rfl)
      · next u e =>
        rw [e] at h1 hf
        exact Touch.updFuse (u := { u with freeCtr := u.freeCtr + 1 }) (Field.sub_trans (by decide) hL)
          (Touch.updFreeCtr (Field.sub_trans (by decide) hL) h1)
          (keyU u.fuse hf _ rfl rfl rfl rfl (BitVec.or_self ..) rfl)
    · exact Touch.updFuse (Field.sub_trans (by decide) hL) h (key _ rfl rfl rfl rfl (BitVec.or_self ..) rfl)
    · refine Touch.updFuse (Field.sub_trans (by decide) hL) h (key _ rfl rfl rfl rfl ?_ rfl)
      show s.fuse.revoked ||| 0xF = 0xF
      generalize s.fuse.revoked = w
      revert w; decide
    · exact Touch.updFuse (Field.sub_trans (by decide) hL) h (key _ rfl rfl rfl rfl (BitVec.or_self ..) rfl)
    · exact Touch.updFuse (Field.sub_trans (by decide) hL) h (key _ rfl rfl rfl rfl (BitVec.or_self ..) rfl)

theorem fuseAnneal_touch {L₀ : List Field} {s₀ s : State}(hL₀ : Field.sub [.anl] L₀ = true)
  (h₀ : Touch L₀ s₀ s) : Touch L₀ s₀ (fuseAnneal s) := by
  unfold fuseAnneal
  try dsimp only
  repeat' first
    | with_reducible assumption
    | (with_reducible refine Field.sub_trans ?_ hL₀; decide)
    | fail_if_no_progress (with_reducible refine Touch.updAnl (Field.sub_trans (by decide) hL₀) ?_)
    | with_reducible apply Touch.ite

theorem enterReady_touch {L₀ : List Field} {s₀ s : State}(hL₀ : Field.sub [.rst] L₀ = true)
  (h₀ : Touch L₀ s₀ s) : Touch L₀ s₀ (enterReady s) := by
  unfold enterReady
  try dsimp only
  repeat' first
    | with_reducible assumption
    | (with_reducible refine Field.sub_trans ?_ hL₀; decide)
    | fail_if_no_progress (with_reducible refine Touch.updRst (Field.sub_trans (by decide) hL₀) ?_)
    | with_reducible apply Touch.ite

theorem bootSteps_touch {L : List Field} {r s : State} (fault : BootFault) (last : State → State) (hL : Field.sub [.mailbox, .rst] L = true)
    (h : Touch L r s) (hyp : ∀ t, Touch L r t → Touch L r (last t)) : Touch L r (bootSteps s fault last) := by
  unfold bootSteps
  split
  · exact bootFail_touch _ (Field.sub_trans (by decide) hL) h
  · next b e =>
    extract_lets br s1 br2 s2
    have h1 : Touch L r s1 := Touch.updRst (Field.sub_trans (by decide) hL) h
    have h2 : Touch L r s2 := Touch.updRst (Field.sub_trans (by decide) hL) h1
    split
    · exact Touch.updRst (Field.sub_trans (by decide) hL) h1
    · split
      · exact bootFail_touch _ (Field.sub_trans (by decide) hL) h2
      · exact bootFail_touch _ (Field.sub_trans (by decide) hL) h2
      · exact enterReady_touch (Field.sub_trans (by decide) hL)
          (hyp _ (Touch.updMailbox (Field.sub_trans (by decide) hL) h2 (fun _ => rfl)))

theorem execColdRelease_touch (fault : BootFault) (s : State) : TouchR [.freeCtr, .regs, .ctxs, .rings, .journal, .waiting, .host, .mailbox, .rst, .fuse, .hmk, .blt, .anl] s (execColdRelease fault s) := by
  have hL₀ : Field.sub [.freeCtr, .regs, .ctxs, .rings, .journal, .waiting, .host, .mailbox, .rst, .fuse, .hmk, .blt, .anl] [.freeCtr, .regs, .ctxs, .rings, .journal, .waiting, .host, .mailbox, .rst, .fuse, .hmk, .blt, .anl] = true := by decide
  have h₀ := Touch.refl [.freeCtr, .regs, .ctxs, .rings, .journal, .waiting, .host, .mailbox, .rst, .fuse, .hmk, .blt, .anl] s
  unfold execColdRelease
  try dsimp only
  repeat' first
    | with_reducible apply TouchR.next
    | with_reducible apply TouchR.ite
    | with_reducible assumption
    | (with_reducible refine Field.sub_trans ?_ hL₀; decide)
    | intro _
    | with_reducible apply takeIntent_touch
    | with_reducible apply bootFail_touch
    | with_reducible apply bootSteps_touch
    | with_reducible apply fuseAnneal_touch
    | fail_if_no_progress (with_reducible refine Touch.updRst (Field.sub_trans (by decide) hL₀) ?_)
    | with_reducible apply Touch.ite

theorem bltResume_touch {L₀ : List Field} {s₀ s : State}(hL₀ : Field.sub [.freeCtr, .blt] L₀ = true)
  (h₀ : Touch L₀ s₀ s) : Touch L₀ s₀ (bltResume s) := by
  unfold bltResume
  try dsimp only
  repeat' first
    | with_reducible assumption
    | (with_reducible refine Field.sub_trans ?_ hL₀; decide)
    | with_reducible apply sessionRecord_touch
    | with_reducible apply Touch.ite

theorem execWarmRelease_touch (fault : BootFault) (s : State) : TouchR [.freeCtr, .regs, .ctxs, .rings, .journal, .waiting, .host, .mailbox, .rst, .fuse, .blt, .anl] s (execWarmRelease fault s) := by
  have hL₀ : Field.sub [.freeCtr, .regs, .ctxs, .rings, .journal, .waiting, .host, .mailbox, .rst, .fuse, .blt, .anl] [.freeCtr, .regs, .ctxs, .rings, .journal, .waiting, .host, .mailbox, .rst, .fuse, .blt, .anl] = true := by decide
  have h₀ := Touch.refl [.freeCtr, .regs, .ctxs, .rings, .journal, .waiting, .host, .mailbox, .rst, .fuse, .blt, .anl] s
  unfold execWarmRelease
  try dsimp only
  repeat' first
    | with_reducible apply TouchR.next
    | with_reducible apply TouchR.ite
    | with_reducible assumption
    | (with_reducible refine Field.sub_trans ?_ hL₀; decide)
    | intro _
    | with_reducible apply bootSteps_touch
    | with_reducible apply bringIn_touch
    | with_reducible apply setThrottle_touch
    | with_reducible apply bltResume_touch
    | fail_if_no_progress (with_reducible refine Touch.updRst (Field.sub_trans (by decide) hL₀) ?_)
    | with_reducible apply Touch.ite
    | split

theorem failPart_touch {L₀ : List Field} {s₀ s : State} (p : Nat) (hL₀ : Field.sub [.regs, .ctxs, .rings, .journal, .waiting, .host, .mailbox, .blt] L₀ = true)
  (h₀ : Touch L₀ s₀ s) : Touch L₀ s₀ (failPart s p) := by
  unfold failPart
  try dsimp only
  repeat' first
    | with_reducible assumption
    | (with_reducible refine Field.sub_trans ?_ hL₀; decide)
    | intro _
    | with_reducible apply failRing_touch
    | with_reducible apply Touch.ite
    | with_reducible apply Touch.fold
    | split

theorem execPartitionRelease_touch (p : PartId) (fault : BootFault) (s : State) : TouchR [.regs, .ctxs, .rings, .journal, .waiting, .host, .mailbox, .rst, .blt] s (execPartitionRelease p fault s) := by
  have hL₀ : Field.sub [.regs, .ctxs, .rings, .journal, .waiting, .host, .mailbox, .rst, .blt] [.regs, .ctxs, .rings, .journal, .waiting, .host, .mailbox, .rst, .blt] = true := by decide
  have h₀ := Touch.refl [.regs, .ctxs, .rings, .journal, .waiting, .host, .mailbox, .rst, .blt] s
  unfold execPartitionRelease
  try dsimp only
  repeat' first
    | with_reducible apply TouchR.next
    | with_reducible apply TouchR.ite
    | with_reducible assumption
    | (with_reducible refine Field.sub_trans ?_ hL₀; decide)
    | with_reducible apply bootFail_touch
    | with_reducible apply failPart_touch
    | fail_if_no_progress (with_reducible refine Touch.updRst (Field.sub_trans (by decide) hL₀) ?_)
    | with_reducible apply Touch.ite

theorem execPortRelease_touch (port : Port) (s : State) : TouchR [.regs, .ctxs, .rings, .journal, .waiting, .host, .mailbox, .rst, .fuse, .blt, .anl] s (execPortRelease port s) := by
  have hL₀ : Field.sub [.regs, .ctxs, .rings, .journal, .waiting, .host, .mailbox, .rst, .fuse, .blt, .anl] [.regs, .ctxs, .rings, .journal, .waiting, .host, .mailbox, .rst, .fuse, .blt, .anl] = true := by decide
  have h₀ := Touch.refl [.regs, .ctxs, .rings, .journal, .waiting, .host, .mailbox, .rst, .fuse, .blt, .anl] s
  unfold execPortRelease
  try dsimp only
  repeat' first
    | with_reducible apply TouchR.next
    | with_reducible apply TouchR.ite
    | with_reducible assumption
    | (with_reducible refine Field.sub_trans ?_ hL₀; decide)
    | intro _
    | with_reducible apply bringIn_touch
    | fail_if_no_progress (with_reducible refine Touch.updRst (Field.sub_trans (by decide) hL₀) ?_)
    | with_reducible apply Touch.ite
    | split

end Sys2Proof.Machine
end

