-- ==== Sys2Proof/Laws/TouchExport.lean ====
section
/-! SUPPORT. What each function of Machine/Export.lean may touch: its law in the sense of Laws/Frame.lean. -/

namespace Sys2Proof.Machine

theorem memWf_chunks (l : List (List Byte × Nat)) (a : Nat) {m : Memory} (h : memWf m = true) :
    memWf (l.foldl (fun m e => memPutBytes m (a + 256 + 65552 * e.2) e.1) m) = true := by
  induction l generalizing m with
  | nil => exact h
  | cons e l ih => exact ih (memWf_putBytes _ _ h)

theorem writeExport_touch {L : List Field} {r s : State} (f l : Word) (chunks cause : Nat) (hL : Field.sub [.regs, .host, .hmk, .blt] L = true)
    (h : Touch L r s) : Touch L r (writeExport s f l chunks cause) := by
  unfold writeExport
  extract_lets k hdr enc a host
  apply regSet_touch _ _ (Field.sub_trans (by decide) hL)
  have hh : memWf s.host = true → memWf host = true := fun g => memWf_chunks _ _ (memWf_putBytes _ _ g)
  clear_value host
  refine Touch.full h ?_ hh id id (fun g => ⟨g, Fuses.before_refl _⟩)
  (exact fun f hf => by cases f <;> first | exact absurd (Field.sub_mem hL (by decide)) hf | rfl)

theorem drawExport_touch {L : List Field} {r s : State} (hL : Field.sub [.freeCtr, .regs, .ctxs, .rings, .journal, .waiting, .host, .mailbox, .hmk, .blt] L = true) (h : Touch L r s) :
    Touch L r (drawExport s).2 := by
  unfold drawExport
  have h1 := freshBits_touch hL h
  split
  · next t e => rw [e] at h1; exact h1
  · next x t e =>
    rw [e] at h1
    have h2 := freshBits_touch hL h1
    split
    · next u e2 => rw [e2] at h2; exact h2
    · next y u e2 => rw [e2] at h2; exact h2

theorem startExport_touch {L : List Field} {r s : State} (hL : Field.sub [.freeCtr, .regs, .ctxs, .rings, .journal, .waiting, .host, .mailbox, .hmk, .blt] L = true) (h : Touch L r s) :
    Touch L r (startExport s) := by
  unfold startExport
  dsimp only
  refine Touch.ite (bltRefuse_touch (Field.sub_trans (by decide) hL) h) (Touch.ite (hmkRefuse_touch _ (Field.sub_trans (by decide) hL) h)
    (Touch.ite (hmkRefuse_touch _ (Field.sub_trans (by decide) hL) h) ?_))
  have h1 := drawExport_touch (Field.sub_trans (by decide) hL) h
  split
  · next t e => rw [e] at h1; exact hmkRefuse_touch _ (Field.sub_trans (by decide) hL) h1
  · next k t e =>
    rw [e] at h1
    refine regSet_touch _ _ (Field.sub_trans (by decide) hL) (Touch.upd h1 ?_ rfl rfl rfl rfl)
    exact fun f hf => by cases f <;> first | exact absurd (Field.sub_mem hL (by decide)) hf | rfl

theorem execBltExpCmd_touch(s : State) : TouchR [.freeCtr, .regs, .ctxs, .rings, .journal, .waiting, .host, .mailbox, .hmk, .blt] s (execBltExpCmd s) := by
  have hL₀ : Field.sub [.freeCtr, .regs, .ctxs, .rings, .journal, .waiting, .host, .mailbox, .hmk, .blt] [.freeCtr, .regs, .ctxs, .rings, .journal, .waiting, .host, .mailbox, .hmk, .blt] = true := by decide
  have h₀ := Touch.refl [.freeCtr, .regs, .ctxs, .rings, .journal, .waiting, .host, .mailbox, .hmk, .blt] s
  unfold execBltExpCmd
  try dsimp only
  repeat' first
    | with_reducible apply TouchR.next
    | with_reducible assumption
    | (with_reducible refine Field.sub_trans ?_ hL₀; decide)
    | with_reducible apply hostWrite_touch
    | with_reducible apply startExport_touch
    | with_reducible apply Touch.ite
    | with_reducible refine TouchR.mono (by decide) (hostWrite_touch _ _)

theorem execExportDone_touch(s : State) : TouchR [.regs, .host, .hmk, .blt] s (execExportDone s) := by
  have hL₀ : Field.sub [.regs, .host, .hmk, .blt] [.regs, .host, .hmk, .blt] = true := by decide
  have h₀ := Touch.refl [.regs, .host, .hmk, .blt] s
  unfold execExportDone
  try dsimp only
  repeat' first
    | with_reducible apply TouchR.next
    | with_reducible assumption
    | (with_reducible refine Field.sub_trans ?_ hL₀; decide)
    | intro _
    | with_reducible apply writeExport_touch
    | with_reducible apply Touch.ite
    | split
    | (with_reducible apply Touch.of_fst; with_reducible assumption)
    | (with_reducible apply Touch.of_snd; with_reducible assumption)

theorem execTrngHealthFail_touch(s : State) : TouchR [.freeCtr, .regs, .ctxs, .rings, .journal, .waiting, .host, .mailbox, .hmk, .blt] s (execTrngHealthFail s) := by
  have hL₀ : Field.sub [.freeCtr, .regs, .ctxs, .rings, .journal, .waiting, .host, .mailbox, .hmk, .blt] [.freeCtr, .regs, .ctxs, .rings, .journal, .waiting, .host, .mailbox, .hmk, .blt] = true := by decide
  have h₀ := Touch.refl [.freeCtr, .regs, .ctxs, .rings, .journal, .waiting, .host, .mailbox, .hmk, .blt] s
  unfold execTrngHealthFail
  try dsimp only
  repeat' first
    | with_reducible apply TouchR.next
    | with_reducible assumption
    | (with_reducible refine Field.sub_trans ?_ hL₀; decide)
    | intro _
    | with_reducible apply noteFailure_touch
    | with_reducible apply drawWord_touch
    | with_reducible apply writeExport_touch
    | with_reducible apply Touch.ite
    | split
    | (with_reducible apply Touch.of_fst; with_reducible assumption)
    | (with_reducible apply Touch.of_snd; with_reducible assumption)

theorem importRecs_touch {L₀ : List Field} {s₀ s : State}(hL₀ : Field.sub [.regs, .blt] L₀ = true)
  (h₀ : Touch L₀ s₀ s) : Touch L₀ s₀ (importRecs s) := by
  unfold importRecs
  try dsimp only
  repeat' first
    | with_reducible assumption
    | (with_reducible refine Field.sub_trans ?_ hL₀; decide)
    | intro _
    | with_reducible apply bltRefuse_touch
    | with_reducible apply regSet_touch
    | fail_if_no_progress (with_reducible refine Touch.updBlt (Field.sub_trans (by decide) hL₀) ?_)
    | with_reducible apply Touch.ite
    | split
    | (with_reducible apply Touch.of_fst; with_reducible assumption)
    | (with_reducible apply Touch.of_snd; with_reducible assumption)

theorem execBltImpCmd_touch(s : State) : TouchR [.regs, .blt] s (execBltImpCmd s) := by
  have hL₀ : Field.sub [.regs, .blt] [.regs, .blt] = true := by decide
  have h₀ := Touch.refl [.regs, .blt] s
  unfold execBltImpCmd
  try dsimp only
  repeat' first
    | with_reducible apply TouchR.next
    | with_reducible assumption
    | (with_reducible refine Field.sub_trans ?_ hL₀; decide)
    | with_reducible apply hostWrite_touch
    | with_reducible apply importRecs_touch
    | with_reducible apply Touch.ite
    | with_reducible refine TouchR.mono (by decide) (hostWrite_touch _ _)

end Sys2Proof.Machine
end

