-- ==== Sys2Proof/Laws/TouchReplay.lean ====
section
/-! SUPPORT. What each function of Machine/Replay.lean may touch: its law in the sense of Laws/Frame.lean. -/

namespace Sys2Proof.Machine

theorem armReplay_touch {L₀ : List Field} {s₀ s : State}(hL₀ : Field.sub [.regs, .blt] L₀ = true)
  (h₀ : Touch L₀ s₀ s) : Touch L₀ s₀ (armReplay s) := by
  unfold armReplay
  try dsimp only
  repeat' first
    | with_reducible assumption
    | (with_reducible refine Field.sub_trans ?_ hL₀; decide)
    | intro _
    | with_reducible apply bltRefuse_touch
    | with_reducible apply recordErr_touch
    | fail_if_no_progress (with_reducible refine Touch.updBlt (Field.sub_trans (by decide) hL₀) ?_)
    | with_reducible apply Touch.ite
    | split
    | (with_reducible apply Touch.of_fst; with_reducible assumption)
    | (with_reducible apply Touch.of_snd; with_reducible assumption)

theorem execBltRplArm_touch(s : State) : TouchR [.regs, .blt] s (execBltRplArm s) := by
  have hL₀ : Field.sub [.regs, .blt] [.regs, .blt] = true := by decide
  have h₀ := Touch.refl [.regs, .blt] s
  unfold execBltRplArm
  try dsimp only
  repeat' first
    | with_reducible apply TouchR.next
    | with_reducible assumption
    | (with_reducible refine Field.sub_trans ?_ hL₀; decide)
    | with_reducible apply hostWrite_touch
    | with_reducible apply armReplay_touch
    | with_reducible apply Touch.ite
    | with_reducible refine TouchR.mono (by decide) (hostWrite_touch _ _)

theorem abortReplay_touch {L₀ : List Field} {s₀ s : State}(hL₀ : Field.sub [.blt] L₀ = true)
  (h₀ : Touch L₀ s₀ s) : Touch L₀ s₀ (abortReplay s) := by
  unfold abortReplay
  try dsimp only
  repeat' first
    | with_reducible assumption
    | (with_reducible refine Field.sub_trans ?_ hL₀; decide)
    | fail_if_no_progress (with_reducible refine Touch.updBlt (Field.sub_trans (by decide) hL₀) ?_)
    | with_reducible apply Touch.ite

theorem execBltRplAbort_touch(s : State) : TouchR [.blt] s (execBltRplAbort s) := by
  have hL₀ : Field.sub [.blt] [.blt] = true := by decide
  have h₀ := Touch.refl [.blt] s
  unfold execBltRplAbort
  try dsimp only
  repeat' first
    | with_reducible apply TouchR.next
    | with_reducible assumption
    | (with_reducible refine Field.sub_trans ?_ hL₀; decide)
    | with_reducible apply hostWrite_touch
    | with_reducible apply abortReplay_touch
    | with_reducible apply Touch.ite
    | with_reducible refine TouchR.mono (by decide) (hostWrite_touch _ _)

theorem restoreSnap_touch {L₀ : List Field} {s₀ s : State} (p : Nat) (ws : List Word) (hL₀ : Field.sub [.parts] L₀ = true)
  (h₀ : Touch L₀ s₀ s) : Touch L₀ s₀ (restoreSnap s p ws) := by
  unfold restoreSnap
  try dsimp only
  repeat' first
    | with_reducible assumption
    | (with_reducible refine Field.sub_trans ?_ hL₀; decide)
    | intro _
    | with_reducible apply putInst_touch
    | with_reducible apply setRun_touch
    | with_reducible apply Touch.ite
    | with_reducible apply Touch.fold
    | split
    | (with_reducible apply Touch.of_fst; with_reducible assumption)
    | (with_reducible apply Touch.of_snd; with_reducible assumption)

theorem restoreAll_touch {L₀ : List Field} {s₀ s : State}(hL₀ : Field.sub [.parts] L₀ = true)
  (h₀ : Touch L₀ s₀ s) : Touch L₀ s₀ (restoreAll s) := by
  unfold restoreAll
  try dsimp only
  repeat' first
    | with_reducible assumption
    | (with_reducible refine Field.sub_trans ?_ hL₀; decide)
    | intro _
    | with_reducible apply restoreSnap_touch
    | with_reducible apply Touch.ite
    | with_reducible apply Touch.fold
    | split
    | (with_reducible apply Touch.of_fst; with_reducible assumption)
    | (with_reducible apply Touch.of_snd; with_reducible assumption)

theorem execReplayStart_touch(s : State) : TouchR [.regs, .parts, .blt] s (execReplayStart s) := by
  have hL₀ : Field.sub [.regs, .parts, .blt] [.regs, .parts, .blt] = true := by decide
  have h₀ := Touch.refl [.regs, .parts, .blt] s
  unfold execReplayStart
  try dsimp only
  repeat' first
    | with_reducible apply TouchR.next
    | with_reducible apply TouchR.ite
    | with_reducible assumption
    | (with_reducible refine Field.sub_trans ?_ hL₀; decide)
    | intro _
    | with_reducible apply regSet_touch
    | with_reducible apply setRun_touch
    | with_reducible apply restoreAll_touch
    | fail_if_no_progress (with_reducible refine Touch.updBlt (Field.sub_trans (by decide) hL₀) ?_)
    | with_reducible apply Touch.ite
    | with_reducible apply Touch.fold
    | split
    | (with_reducible apply Touch.of_fst; with_reducible assumption)
    | (with_reducible apply Touch.of_snd; with_reducible assumption)

theorem replayTick_touch {L₀ : List Field} {s₀ s : State}(hL₀ : Field.sub [.blt] L₀ = true)
  (h₀ : Touch L₀ s₀ s) : Touch L₀ s₀ (replayTick s) := by
  unfold replayTick
  try dsimp only
  repeat' first
    | with_reducible assumption
    | (with_reducible refine Field.sub_trans ?_ hL₀; decide)
    | fail_if_no_progress (with_reducible refine Touch.updBlt (Field.sub_trans (by decide) hL₀) ?_)
    | with_reducible apply Touch.ite

theorem dropTodo_touch {L₀ : List Field} {s₀ s : State} (r : BRec) (hL₀ : Field.sub [.blt] L₀ = true)
  (h₀ : Touch L₀ s₀ s) : Touch L₀ s₀ (dropTodo s r) := by
  unfold dropTodo
  try dsimp only
  repeat' first
    | with_reducible assumption
    | (with_reducible refine Field.sub_trans ?_ hL₀; decide)
    | fail_if_no_progress (with_reducible refine Touch.updBlt (Field.sub_trans (by decide) hL₀) ?_)
    | with_reducible apply Touch.ite

theorem deliverFrame_touch {L₀ : List Field} {s₀ s : State} (r : BRec) (hL₀ : Field.sub [.parts, .nibs] L₀ = true)
  (h₀ : Touch L₀ s₀ s) : Touch L₀ s₀ (deliverFrame s r) := by
  unfold deliverFrame
  try dsimp only
  repeat' first
    | with_reducible assumption
    | (with_reducible refine Field.sub_trans ?_ hL₀; decide)
    | with_reducible apply streamSet_touch
    | with_reducible apply feedEngines_touch
    | with_reducible apply Touch.ite

theorem deliverHost_touch {L₀ : List Field} {s₀ s : State} (r : BRec) (hL₀ : Field.sub [.parts] L₀ = true)
  (h₀ : Touch L₀ s₀ s) : Touch L₀ s₀ (deliverHost s r) := by
  unfold deliverHost
  try dsimp only
  repeat' first
    | with_reducible assumption
    | (with_reducible refine Field.sub_trans ?_ hL₀; decide)
    | with_reducible apply setPart_touch
    | with_reducible apply Touch.ite

theorem deliverCommit_touch {L₀ : List Field} {s₀ s : State} (r : BRec) (hL₀ : Field.sub [.parts] L₀ = true)
  (h₀ : Touch L₀ s₀ s) : Touch L₀ s₀ (deliverCommit s r) := by
  unfold deliverCommit
  try dsimp only
  repeat' first
    | with_reducible assumption
    | (with_reducible refine Field.sub_trans ?_ hL₀; decide)
    | with_reducible apply setPart_touch
    | with_reducible apply Touch.ite

theorem execReplayDelivery_touch(s : State) : TouchR [.parts, .nibs, .blt] s (execReplayDelivery s) := by
  have hL₀ : Field.sub [.parts, .nibs, .blt] [.parts, .nibs, .blt] = true := by decide
  have h₀ := Touch.refl [.parts, .nibs, .blt] s
  unfold execReplayDelivery
  try dsimp only
  repeat' first
    | with_reducible apply TouchR.next
    | with_reducible apply TouchR.ite
    | with_reducible assumption
    | (with_reducible refine Field.sub_trans ?_ hL₀; decide)
    | intro _
    | with_reducible apply dropTodo_touch
    | with_reducible apply deliverFrame_touch
    | with_reducible apply deliverHost_touch
    | with_reducible apply deliverCommit_touch
    | with_reducible apply Touch.ite
    | split
    | (with_reducible apply Touch.of_fst; with_reducible assumption)
    | (with_reducible apply Touch.of_snd; with_reducible assumption)

end Sys2Proof.Machine
end

