-- ==== Sys2Proof/Laws/TouchSetup.lean ====
section
/-! SUPPORT. What each function of Machine/Setup.lean may touch: its law in the sense of Laws/Frame.lean. -/

namespace Sys2Proof.Machine

theorem cutoffWrite_touch {L₀ : List Field} {s₀ s : State} (p : Nat) (v : Word) (hL₀ : Field.sub [.regs, .parts] L₀ = true)
  (h₀ : Touch L₀ s₀ s) : Touch L₀ s₀ (cutoffWrite s p v) := by
  unfold cutoffWrite
  try dsimp only
  repeat' first
    | with_reducible assumption
    | (with_reducible refine Field.sub_trans ?_ hL₀; decide)
    | with_reducible apply regSet_touch
    | with_reducible apply recordErr_touch
    | with_reducible apply setPart_touch
    | with_reducible apply Touch.ite

theorem execFabPartCutoffWrite_touch (p : PartId) (v : Word) (s : State) : TouchR [.regs, .parts] s (execFabPartCutoffWrite p v s) := by
  have hL₀ : Field.sub [.regs, .parts] [.regs, .parts] = true := by decide
  have h₀ := Touch.refl [.regs, .parts] s
  unfold execFabPartCutoffWrite
  try dsimp only
  repeat' first
    | with_reducible apply TouchR.next
    | with_reducible assumption
    | (with_reducible refine Field.sub_trans ?_ hL₀; decide)
    | with_reducible apply hostWrite_touch
    | with_reducible apply cutoffWrite_touch
    | with_reducible apply Touch.ite
    | with_reducible refine TouchR.mono (by decide) (hostWrite_touch _ _)

theorem semWrite_touch {L₀ : List Field} {s₀ s : State} (n : Nat) (v : Word) (hL₀ : Field.sub [.regs] L₀ = true)
  (h₀ : Touch L₀ s₀ s) : Touch L₀ s₀ (semWrite s n v) := by
  unfold semWrite
  try dsimp only
  repeat' first
    | with_reducible assumption
    | (with_reducible refine Field.sub_trans ?_ hL₀; decide)
    | with_reducible apply semSet_touch
    | with_reducible apply Touch.ite

theorem execFabSemWrite_touch (n : BitVec 8) (v : Word) (s : State) : TouchR [.regs] s (execFabSemWrite n v s) := by
  have hL₀ : Field.sub [.regs] [.regs] = true := by decide
  have h₀ := Touch.refl [.regs] s
  unfold execFabSemWrite
  try dsimp only
  repeat' first
    | with_reducible apply TouchR.next
    | with_reducible assumption
    | (with_reducible refine Field.sub_trans ?_ hL₀; decide)
    | with_reducible apply hostWrite_touch
    | with_reducible apply semWrite_touch
    | with_reducible apply Touch.ite
    | with_reducible refine TouchR.mono (by decide) (hostWrite_touch _ _)

theorem clearCounters_touch {L₀ : List Field} {s₀ s : State} (off : Nat) (v : Word) (hL₀ : Field.sub [.regs] L₀ = true)
  (h₀ : Touch L₀ s₀ s) : Touch L₀ s₀ (clearCounters s off v) := by
  unfold clearCounters
  try dsimp only
  repeat' first
    | with_reducible assumption
    | (with_reducible refine Field.sub_trans ?_ hL₀; decide)
    | intro _
    | with_reducible apply regSet_touch
    | with_reducible apply Touch.ite
    | with_reducible apply Touch.fold
    | split

theorem execCntClr_touch (off : BitVec 24) (v : Word) (s : State) : TouchR [.regs] s (execCntClr off v s) := by
  have hL₀ : Field.sub [.regs] [.regs] = true := by decide
  have h₀ := Touch.refl [.regs] s
  unfold execCntClr
  try dsimp only
  repeat' first
    | with_reducible apply TouchR.next
    | with_reducible assumption
    | (with_reducible refine Field.sub_trans ?_ hL₀; decide)
    | with_reducible apply hostWrite_touch
    | with_reducible apply clearCounters_touch
    | with_reducible apply Touch.ite
    | with_reducible refine TouchR.mono (by decide) (hostWrite_touch _ _)

theorem ducRefuse_touch {L₀ : List Field} {s₀ s : State} (p : Nat) (cause : Nat) (hL₀ : Field.sub [.regs] L₀ = true)
  (h₀ : Touch L₀ s₀ s) : Touch L₀ s₀ (ducRefuse s p cause) := by
  unfold ducRefuse
  try dsimp only
  repeat' first
    | with_reducible assumption
    | (with_reducible refine Field.sub_trans ?_ hL₀; decide)
    | with_reducible apply recordErr_touch
    | with_reducible apply Touch.ite

theorem launchEnable_touch {L₀ : List Field} {s₀ s : State} (p : Nat) (j : Nat) (v : Word) (hL₀ : Field.sub [.regs, .parts, .blt] L₀ = true)
  (h₀ : Touch L₀ s₀ s) : Touch L₀ s₀ (launchEnable s p j v) := by
  unfold launchEnable
  try dsimp only
  repeat' first
    | with_reducible assumption
    | (with_reducible refine Field.sub_trans ?_ hL₀; decide)
    | intro _
    | with_reducible apply ducRefuse_touch
    | with_reducible apply regSet_touch
    | with_reducible apply launchConfig_touch
    | with_reducible apply recordErr_touch
    | with_reducible apply setRun_touch
    | with_reducible apply Touch.ite
    | split
    | (with_reducible apply Touch.of_fst; with_reducible assumption)
    | (with_reducible apply Touch.of_snd; with_reducible assumption)

theorem execLaunchEntryEnable_touch (p : PartId) (j : EntryId) (v : Word) (s : State) : TouchR [.regs, .parts, .blt] s (execLaunchEntryEnable p j v s) := by
  have hL₀ : Field.sub [.regs, .parts, .blt] [.regs, .parts, .blt] = true := by decide
  have h₀ := Touch.refl [.regs, .parts, .blt] s
  unfold execLaunchEntryEnable
  try dsimp only
  repeat' first
    | with_reducible apply TouchR.next
    | with_reducible assumption
    | (with_reducible refine Field.sub_trans ?_ hL₀; decide)
    | with_reducible apply hostWrite_touch
    | with_reducible apply launchEnable_touch
    | with_reducible apply Touch.ite
    | with_reducible refine TouchR.mono (by decide) (hostWrite_touch _ _)

theorem launchDisable_touch {L₀ : List Field} {s₀ s : State} (p : Nat) (j : Nat) (v : Word) (hL₀ : Field.sub [.regs, .parts, .tiles, .ctxs, .rings, .journal, .waiting, .host, .mailbox, .nibs, .blt, .assay] L₀ = true)
  (h₀ : Touch L₀ s₀ s) : Touch L₀ s₀ (launchDisable s p j v) := by
  unfold launchDisable
  try dsimp only
  repeat' first
    | with_reducible assumption
    | (with_reducible refine Field.sub_trans ?_ hL₀; decide)
    | intro _
    | with_reducible apply launchConfig_touch
    | with_reducible apply regSet_touch
    | with_reducible apply withdrawLaunch_touch
    | with_reducible apply skipLaunch_touch
    | with_reducible apply setRun_touch
    | with_reducible apply noPlanEntry_touch
    | with_reducible apply Touch.ite
    | split
    | (with_reducible apply Touch.of_fst; with_reducible assumption)
    | (with_reducible apply Touch.of_snd; with_reducible assumption)

theorem execLaunchEntryDisable_touch (p : PartId) (j : EntryId) (v : Word) (s : State) : TouchR [.regs, .parts, .tiles, .ctxs, .rings, .journal, .waiting, .host, .mailbox, .nibs, .blt, .assay] s (execLaunchEntryDisable p j v s) := by
  have hL₀ : Field.sub [.regs, .parts, .tiles, .ctxs, .rings, .journal, .waiting, .host, .mailbox, .nibs, .blt, .assay] [.regs, .parts, .tiles, .ctxs, .rings, .journal, .waiting, .host, .mailbox, .nibs, .blt, .assay] = true := by decide
  have h₀ := Touch.refl [.regs, .parts, .tiles, .ctxs, .rings, .journal, .waiting, .host, .mailbox, .nibs, .blt, .assay] s
  unfold execLaunchEntryDisable
  try dsimp only
  repeat' first
    | with_reducible apply TouchR.next
    | with_reducible assumption
    | (with_reducible refine Field.sub_trans ?_ hL₀; decide)
    | with_reducible apply hostWrite_touch
    | with_reducible apply launchDisable_touch
    | with_reducible apply Touch.ite
    | with_reducible refine TouchR.mono (by decide) (hostWrite_touch _ _)

theorem launchWrite_touch {L₀ : List Field} {s₀ s : State} (p : Nat) (j : Nat) (w : Nat) (v : Word) (hL₀ : Field.sub [.regs, .parts, .tiles, .ctxs, .rings, .journal, .waiting, .host, .mailbox, .nibs, .blt, .assay] L₀ = true)
  (h₀ : Touch L₀ s₀ s) : Touch L₀ s₀ (launchWrite s p j w v) := by
  unfold launchWrite
  try dsimp only
  repeat' first
    | with_reducible assumption
    | (with_reducible refine Field.sub_trans ?_ hL₀; decide)
    | with_reducible apply launchEnable_touch
    | with_reducible apply launchDisable_touch
    | with_reducible apply ducRefuse_touch
    | with_reducible apply launchConfig_touch
    | with_reducible apply regSet_touch
    | with_reducible apply Touch.ite

theorem slotTableWrite_touch {L₀ : List Field} {s₀ s : State} (p : Nat) (k : Nat) (w : Nat) (v : Word) (hL₀ : Field.sub [.regs] L₀ = true)
  (h₀ : Touch L₀ s₀ s) : Touch L₀ s₀ (slotTableWrite s p k w v) := by
  unfold slotTableWrite
  try dsimp only
  repeat' first
    | with_reducible assumption
    | (with_reducible refine Field.sub_trans ?_ hL₀; decide)
    | with_reducible apply recordErr_touch
    | with_reducible apply regSet_touch
    | with_reducible apply Touch.ite

theorem execSlotTableWrite_touch (p : PartId) (k : BitVec 8) (w : Fin 4) (v : Word) (s : State) : TouchR [.regs] s (execSlotTableWrite p k w v s) := by
  have hL₀ : Field.sub [.regs] [.regs] = true := by decide
  have h₀ := Touch.refl [.regs] s
  unfold execSlotTableWrite
  try dsimp only
  repeat' first
    | with_reducible apply TouchR.next
    | with_reducible assumption
    | (with_reducible refine Field.sub_trans ?_ hL₀; decide)
    | with_reducible apply hostWrite_touch
    | with_reducible apply slotTableWrite_touch
    | with_reducible apply Touch.ite
    | with_reducible refine TouchR.mono (by decide) (hostWrite_touch _ _)

theorem bindWrite_touch {L₀ : List Field} {s₀ s : State} (p : Nat) (k : Nat) (w : Nat) (v : Word) (hL₀ : Field.sub [.regs, .latch64] L₀ = true)
  (h₀ : Touch L₀ s₀ s) : Touch L₀ s₀ (bindWrite s p k w v) := by
  unfold bindWrite
  try dsimp only
  repeat' first
    | with_reducible assumption
    | (with_reducible refine Field.sub_trans ?_ hL₀; decide)
    | intro _
    | with_reducible apply ducRefuse_touch
    | with_reducible apply regSet_touch
    | fail_if_no_progress (with_reducible refine Touch.updLatch64 (Field.sub_trans (by decide) hL₀) ?_)
    | with_reducible apply Touch.ite
    | split
    | (with_reducible apply Touch.of_fst; with_reducible assumption)
    | (with_reducible apply Touch.of_snd; with_reducible assumption)

theorem execDucBindWrite_touch (p : PartId) (k : SlotId) (w : Fin 32) (v : Word) (s : State) : TouchR [.regs, .latch64] s (execDucBindWrite p k w v s) := by
  have hL₀ : Field.sub [.regs, .latch64] [.regs, .latch64] = true := by decide
  have h₀ := Touch.refl [.regs, .latch64] s
  unfold execDucBindWrite
  try dsimp only
  repeat' first
    | with_reducible apply TouchR.next
    | with_reducible assumption
    | (with_reducible refine Field.sub_trans ?_ hL₀; decide)
    | with_reducible apply hostWrite_touch
    | with_reducible apply bindWrite_touch
    | with_reducible apply Touch.ite
    | with_reducible refine TouchR.mono (by decide) (hostWrite_touch _ _)

theorem statRefuse_touch {L₀ : List Field} {s₀ s : State} (off : Nat) (cause : Nat) (hL₀ : Field.sub [.regs] L₀ = true)
  (h₀ : Touch L₀ s₀ s) : Touch L₀ s₀ (statRefuse s off cause) := by
  unfold statRefuse
  try dsimp only
  repeat' first
    | with_reducible assumption
    | (with_reducible refine Field.sub_trans ?_ hL₀; decide)
    | with_reducible apply regSet_touch
    | with_reducible apply Touch.ite

theorem ringRefuse_touch {L₀ : List Field} {s₀ s : State} (c : Nat) (r : Nat) (cause : Nat) (hL₀ : Field.sub [.regs] L₀ = true)
  (h₀ : Touch L₀ s₀ s) : Touch L₀ s₀ (ringRefuse s c r cause) := by
  unfold ringRefuse
  try dsimp only
  repeat' first
    | with_reducible assumption
    | (with_reducible refine Field.sub_trans ?_ hL₀; decide)
    | with_reducible apply statRefuse_touch
    | with_reducible apply Touch.ite

theorem ringMake_touch {L₀ : List Field} {s₀ s : State} (c : Nat) (r : Nat) (v : Word) (hL₀ : Field.sub [.regs, .rings] L₀ = true)
  (h₀ : Touch L₀ s₀ s) : Touch L₀ s₀ (ringMake s c r v) := by
  unfold ringMake
  try dsimp only
  repeat' first
    | with_reducible assumption
    | (with_reducible refine Field.sub_trans ?_ hL₀; decide)
    | with_reducible apply setRing_touch
    | with_reducible apply regSet_touch
    | with_reducible apply Touch.ite

theorem ringCreate_touch {L₀ : List Field} {s₀ s : State} (c : Nat) (r : Nat) (v : Word) (hL₀ : Field.sub [.freeCtr, .regs, .rings, .bme] L₀ = true)
  (h₀ : Touch L₀ s₀ s) : Touch L₀ s₀ (ringCreate s c r v) := by
  unfold ringCreate
  try dsimp only
  repeat' first
    | with_reducible assumption
    | (with_reducible refine Field.sub_trans ?_ hL₀; decide)
    | intro _
    | with_reducible apply setRing_touch
    | with_reducible apply ringRefuse_touch
    | with_reducible apply ringMake_touch
    | with_reducible apply drawBit_touch
    | fail_if_no_progress (with_reducible refine Touch.updBme (Field.sub_trans (by decide) hL₀) ?_)
    | with_reducible apply Touch.ite
    | split
    | (with_reducible apply Touch.of_fst; with_reducible assumption)
    | (with_reducible apply Touch.of_snd; with_reducible assumption)

theorem execRingCreate_touch (c : CtxId) (r : RingId) (v : Word) (s : State) : TouchR [.freeCtr, .regs, .rings, .bme] s (execRingCreate c r v s) := by
  have hL₀ : Field.sub [.freeCtr, .regs, .rings, .bme] [.freeCtr, .regs, .rings, .bme] = true := by decide
  have h₀ := Touch.refl [.freeCtr, .regs, .rings, .bme] s
  unfold execRingCreate
  try dsimp only
  repeat' first
    | with_reducible apply TouchR.next
    | with_reducible assumption
    | (with_reducible refine Field.sub_trans ?_ hL₀; decide)
    | with_reducible apply hostWrite_touch
    | with_reducible apply ringCreate_touch
    | with_reducible apply Touch.ite
    | with_reducible refine TouchR.mono (by decide) (hostWrite_touch _ _)

theorem ringDisable_touch {L₀ : List Field} {s₀ s : State} (c : Nat) (r : Nat) (hL₀ : Field.sub [.rings] L₀ = true)
  (h₀ : Touch L₀ s₀ s) : Touch L₀ s₀ (ringDisable s c r) := by
  unfold ringDisable
  try dsimp only
  repeat' first
    | with_reducible assumption
    | (with_reducible refine Field.sub_trans ?_ hL₀; decide)
    | with_reducible apply setRing_touch
    | with_reducible apply Touch.ite

theorem execRingDisable_touch (c : CtxId) (r : RingId) (s : State) : TouchR [.rings] s (execRingDisable c r s) := by
  have hL₀ : Field.sub [.rings] [.rings] = true := by decide
  have h₀ := Touch.refl [.rings] s
  unfold execRingDisable
  try dsimp only
  repeat' first
    | with_reducible apply TouchR.next
    | with_reducible assumption
    | (with_reducible refine Field.sub_trans ?_ hL₀; decide)
    | with_reducible apply hostWrite_touch
    | with_reducible apply ringDisable_touch
    | with_reducible apply Touch.ite
    | with_reducible refine TouchR.mono (by decide) (hostWrite_touch _ _)

theorem execRingDrained_touch (c : CtxId) (r : RingId) (s : State) : TouchR [.rings] s (execRingDrained c r s) := by
  have hL₀ : Field.sub [.rings] [.rings] = true := by decide
  have h₀ := Touch.refl [.rings] s
  unfold execRingDrained
  try dsimp only
  repeat' first
    | with_reducible apply TouchR.next
    | with_reducible apply TouchR.ite
    | with_reducible assumption
    | (with_reducible refine Field.sub_trans ?_ hL₀; decide)
    | with_reducible apply setRing_touch
    | with_reducible apply Touch.ite

theorem ringWrite_touch {L : List Field} {r s t : State} (c q w : Nat) (v : Word) (hL : Field.sub [.freeCtr, .regs, .rings, .bme] L = true)
    (h : Touch L r s) (g : Touch L r t) : Touch L r (ringWrite s c q w v t) := by
  unfold ringWrite
  dsimp only
  refine Touch.ite ?_ (Touch.ite ?_ (Touch.ite g ?_))
  · exact ringCreate_touch _ _ _ (Field.sub_trans (by decide) hL) h
  · exact ringDisable_touch _ _ (Field.sub_trans (by decide) hL) h
  · exact ringRefuse_touch _ _ _ (Field.sub_trans (by decide) hL) h

theorem ctxRefuse_touch {L₀ : List Field} {s₀ s : State} (c : Nat) (cause : Nat) (hL₀ : Field.sub [.regs] L₀ = true)
  (h₀ : Touch L₀ s₀ s) : Touch L₀ s₀ (ctxRefuse s c cause) := by
  unfold ctxRefuse
  try dsimp only
  repeat' first
    | with_reducible assumption
    | (with_reducible refine Field.sub_trans ?_ hL₀; decide)
    | with_reducible apply recordErr_touch
    | with_reducible apply Touch.ite

theorem ctxCreate_touch {L₀ : List Field} {s₀ s : State} (c : Nat) (v : Word) (hL₀ : Field.sub [.regs, .ctxs] L₀ = true)
  (h₀ : Touch L₀ s₀ s) : Touch L₀ s₀ (ctxCreate s c v) := by
  unfold ctxCreate
  try dsimp only
  repeat' first
    | with_reducible assumption
    | (with_reducible refine Field.sub_trans ?_ hL₀; decide)
    | intro _
    | with_reducible apply ctxRefuse_touch
    | with_reducible apply statRefuse_touch
    | with_reducible apply setCtx_touch
    | with_reducible apply regSet_touch
    | with_reducible apply Touch.ite
    | split
    | (with_reducible apply Touch.of_fst; with_reducible assumption)
    | (with_reducible apply Touch.of_snd; with_reducible assumption)

theorem execContextCreate_touch (c : CtxId) (v : Word) (s : State) : TouchR [.regs, .ctxs] s (execContextCreate c v s) := by
  have hL₀ : Field.sub [.regs, .ctxs] [.regs, .ctxs] = true := by decide
  have h₀ := Touch.refl [.regs, .ctxs] s
  unfold execContextCreate
  try dsimp only
  repeat' first
    | with_reducible apply TouchR.next
    | with_reducible assumption
    | (with_reducible refine Field.sub_trans ?_ hL₀; decide)
    | with_reducible apply hostWrite_touch
    | with_reducible apply ctxCreate_touch
    | with_reducible apply Touch.ite
    | with_reducible refine TouchR.mono (by decide) (hostWrite_touch _ _)

theorem ctxDestroy_touch {L₀ : List Field} {s₀ s : State} (c : Nat) (hL₀ : Field.sub [.regs, .ctxs] L₀ = true)
  (h₀ : Touch L₀ s₀ s) : Touch L₀ s₀ (ctxDestroy s c) := by
  unfold ctxDestroy
  try dsimp only
  repeat' first
    | with_reducible assumption
    | (with_reducible refine Field.sub_trans ?_ hL₀; decide)
    | intro _
    | with_reducible apply ctxRefuse_touch
    | with_reducible apply setCtx_touch
    | with_reducible apply regSet_touch
    | with_reducible apply Touch.ite
    | split

theorem execContextDestroy_touch (c : CtxId) (s : State) : TouchR [.regs, .ctxs] s (execContextDestroy c s) := by
  have hL₀ : Field.sub [.regs, .ctxs] [.regs, .ctxs] = true := by decide
  have h₀ := Touch.refl [.regs, .ctxs] s
  unfold execContextDestroy
  try dsimp only
  repeat' first
    | with_reducible apply TouchR.next
    | with_reducible assumption
    | (with_reducible refine Field.sub_trans ?_ hL₀; decide)
    | with_reducible apply hostWrite_touch
    | with_reducible apply ctxDestroy_touch
    | with_reducible apply Touch.ite
    | with_reducible refine TouchR.mono (by decide) (hostWrite_touch _ _)

end Sys2Proof.Machine
end

