-- ==== Sys2Proof/Laws/TouchRegWrite.lean ====
section
/-! SUPPORT. What each function of Machine/RegWrite.lean may touch: its law in the sense of Laws/Frame.lean. -/

namespace Sys2Proof.Machine

theorem plainWrite_touch {L₀ : List Field} {s₀ s : State} (off : Nat) (v : Word) (hL₀ : Field.sub [.regs, .latch64] L₀ = true)
  (h₀ : Touch L₀ s₀ s) : Touch L₀ s₀ (plainWrite s off v) := by
  unfold plainWrite
  try dsimp only
  repeat' first
    | with_reducible assumption
    | (with_reducible refine Field.sub_trans ?_ hL₀; decide)
    | intro _
    | with_reducible apply regSet_touch
    | fail_if_no_progress (with_reducible refine Touch.updLatch64 (Field.sub_trans (by decide) hL₀) ?_)
    | with_reducible apply Touch.ite
    | split
    | (with_reducible apply Touch.of_fst; with_reducible assumption)
    | (with_reducible apply Touch.of_snd; with_reducible assumption)

theorem regRefuse_touch {L₀ : List Field} {s₀ s : State}(hL₀ : Field.sub [.regs] L₀ = true)
  (h₀ : Touch L₀ s₀ s) : Touch L₀ s₀ (regRefuse s) := by
  unfold regRefuse
  try dsimp only
  repeat' first
    | with_reducible assumption
    | (with_reducible refine Field.sub_trans ?_ hL₀; decide)
    | with_reducible apply bump_touch
    | with_reducible apply Touch.ite

theorem paramWrite_touch {L₀ : List Field} {s₀ s : State} (p : Nat) (off : Nat) (v : Word) (hL₀ : Field.sub [.regs, .latch64, .parts] L₀ = true)
  (h₀ : Touch L₀ s₀ s) : Touch L₀ s₀ (paramWrite s p off v) := by
  unfold paramWrite
  try dsimp only
  repeat' first
    | with_reducible assumption
    | (with_reducible refine Field.sub_trans ?_ hL₀; decide)
    | with_reducible apply recordErr_touch
    | with_reducible apply plainWrite_touch
    | with_reducible apply setPart_touch
    | with_reducible apply Touch.ite

theorem ctlWrite_touch {L₀ : List Field} {s₀ s : State} (p : Nat) (v : Word) (hL₀ : Field.sub [.regs, .parts, .tiles, .mem, .pwr] L₀ = true)
  (h₀ : Touch L₀ s₀ s) : Touch L₀ s₀ (ctlWrite s p v) := by
  unfold ctlWrite
  try dsimp only
  repeat' first
    | with_reducible assumption
    | (with_reducible refine Field.sub_trans ?_ hL₀; decide)
    | with_reducible apply recordErr_touch
    | with_reducible apply enablePart_touch
    | with_reducible apply disablePart_touch
    | with_reducible apply askReshape_touch
    | with_reducible apply Touch.ite

theorem fabWrite_touch {L₀ : List Field} {s₀ s : State} (off : Nat) (v : Word) (hL₀ : Field.sub [.regs, .latch64, .parts, .tiles, .mem, .pwr] L₀ = true)
  (h₀ : Touch L₀ s₀ s) : Touch L₀ s₀ (fabWrite s off v) := by
  unfold fabWrite
  try dsimp only
  repeat' first
    | with_reducible assumption
    | (with_reducible refine Field.sub_trans ?_ hL₀; decide)
    | with_reducible apply paramWrite_touch
    | with_reducible apply cutoffWrite_touch
    | with_reducible apply ctlWrite_touch
    | with_reducible apply clearCounters_touch
    | with_reducible apply plainWrite_touch
    | with_reducible apply semWrite_touch
    | with_reducible apply Touch.ite

theorem ducWrite_touch {L₀ : List Field} {s₀ s : State} (off : Nat) (v : Word) (hL₀ : Field.sub [.regs, .latch64, .parts, .tiles, .ctxs, .rings, .journal, .waiting, .host, .mailbox, .nibs, .blt, .assay] L₀ = true)
  (h₀ : Touch L₀ s₀ s) : Touch L₀ s₀ (ducWrite s off v) := by
  unfold ducWrite
  try dsimp only
  repeat' first
    | with_reducible assumption
    | (with_reducible refine Field.sub_trans ?_ hL₀; decide)
    | with_reducible apply bindWrite_touch
    | with_reducible apply launchWrite_touch
    | with_reducible apply plainWrite_touch
    | with_reducible apply slotTableWrite_touch
    | with_reducible apply Touch.ite

theorem regionWrite_touch {L₀ : List Field} {s₀ s : State} (v : Word) (hL₀ : Field.sub [.regs, .latch64] L₀ = true)
  (h₀ : Touch L₀ s₀ s) : Touch L₀ s₀ (regionWrite s v) := by
  unfold regionWrite
  try dsimp only
  repeat' first
    | with_reducible assumption
    | (with_reducible refine Field.sub_trans ?_ hL₀; decide)
    | with_reducible apply recordErr_touch
    | with_reducible apply plainWrite_touch
    | with_reducible apply Touch.ite

theorem asyMemWrite_touch {L₀ : List Field} {s₀ s : State} (off : Nat) (v : Word) (hL₀ : Field.sub [.regs, .latch64, .parts] L₀ = true)
  (h₀ : Touch L₀ s₀ s) : Touch L₀ s₀ (asyMemWrite s off v) := by
  unfold asyMemWrite
  try dsimp only
  repeat' first
    | with_reducible assumption
    | (with_reducible refine Field.sub_trans ?_ hL₀; decide)
    | with_reducible apply paramWrite_touch
    | with_reducible apply regionWrite_touch
    | with_reducible apply plainWrite_touch
    | with_reducible apply Touch.ite

theorem nibCmd_touch {L₀ : List Field} {s₀ s : State} (n : Nat) (v : Word) (hL₀ : Field.sub [.regs, .ctxs, .rings, .journal, .waiting, .host, .mailbox, .nibs, .blt] L₀ = true)
  (h₀ : Touch L₀ s₀ s) : Touch L₀ s₀ (nibCmd s n v) := by
  unfold nibCmd
  try dsimp only
  repeat' first
    | with_reducible assumption
    | (with_reducible refine Field.sub_trans ?_ hL₀; decide)
    | with_reducible apply nibRefuse_touch
    | with_reducible apply armEngine_touch
    | with_reducible apply rearmEngine_touch
    | with_reducible apply stopEngine_touch
    | with_reducible apply askSwap_touch
    | with_reducible apply Touch.ite

theorem nibWrite_touch {L₀ : List Field} {s₀ s : State} (off : Nat) (v : Word) (hL₀ : Field.sub [.regs, .latch64, .ctxs, .rings, .journal, .waiting, .host, .mailbox, .nibs, .blt] L₀ = true)
  (h₀ : Touch L₀ s₀ s) : Touch L₀ s₀ (nibWrite s off v) := by
  unfold nibWrite
  try dsimp only
  repeat' first
    | with_reducible assumption
    | (with_reducible refine Field.sub_trans ?_ hL₀; decide)
    | with_reducible apply nibCmd_touch
    | with_reducible apply clearCounters_touch
    | with_reducible apply coefAccess_touch
    | with_reducible apply nibRefuse_touch
    | with_reducible apply nibConfig_touch
    | with_reducible apply plainWrite_touch
    | with_reducible apply Touch.ite

theorem ctxWrite_touch {L₀ : List Field} {s₀ s : State} (c : Nat) (k : Nat) (off : Nat) (v : Word) (hL₀ : Field.sub [.regs, .latch64, .ctxs] L₀ = true)
  (h₀ : Touch L₀ s₀ s) : Touch L₀ s₀ (ctxWrite s c k off v) := by
  unfold ctxWrite
  try dsimp only
  repeat' first
    | with_reducible assumption
    | (with_reducible refine Field.sub_trans ?_ hL₀; decide)
    | with_reducible apply ctxCreate_touch
    | with_reducible apply ctxDestroy_touch
    | with_reducible apply plainWrite_touch
    | with_reducible apply clearCounters_touch
    | with_reducible apply ctxRefuse_touch
    | with_reducible apply Touch.ite

theorem hqWrite_touch {L₀ : List Field} {s₀ s : State} (off : Nat) (v : Word) (hL₀ : Field.sub [.freeCtr, .regs, .latch64, .ctxs, .rings, .bme] L₀ = true)
  (h₀ : Touch L₀ s₀ s) : Touch L₀ s₀ (hqWrite s off v) := by
  unfold hqWrite
  try dsimp only
  repeat' first
    | with_reducible assumption
    | (with_reducible refine Field.sub_trans ?_ hL₀; decide)
    | with_reducible apply plainWrite_touch
    | with_reducible apply ctxWrite_touch
    | with_reducible apply ringWrite_touch
    | with_reducible apply Touch.ite

theorem fioRefuse_touch {L₀ : List Field} {s₀ s : State} (cause : Nat) (hL₀ : Field.sub [.regs] L₀ = true)
  (h₀ : Touch L₀ s₀ s) : Touch L₀ s₀ (fioRefuse s cause) := by
  unfold fioRefuse
  try dsimp only
  repeat' first
    | with_reducible assumption
    | (with_reducible refine Field.sub_trans ?_ hL₀; decide)
    | with_reducible apply recordErr_touch
    | with_reducible apply Touch.ite

theorem strmEnable_touch {L₀ : List Field} {s₀ s : State} (i : Nat) (v : Word) (hL₀ : Field.sub [.regs, .latch64, .blt] L₀ = true)
  (h₀ : Touch L₀ s₀ s) : Touch L₀ s₀ (strmEnable s i v) := by
  unfold strmEnable
  try dsimp only
  repeat' first
    | with_reducible assumption
    | (with_reducible refine Field.sub_trans ?_ hL₀; decide)
    | with_reducible apply fioRefuse_touch
    | with_reducible apply strmConfig_touch
    | with_reducible apply plainWrite_touch
    | with_reducible apply Touch.ite

theorem strmWrite_touch {L₀ : List Field} {s₀ s : State} (i : Nat) (k : Nat) (off : Nat) (v : Word) (hL₀ : Field.sub [.regs, .latch64, .blt] L₀ = true)
  (h₀ : Touch L₀ s₀ s) : Touch L₀ s₀ (strmWrite s i k off v) := by
  unfold strmWrite
  try dsimp only
  repeat' first
    | with_reducible assumption
    | (with_reducible refine Field.sub_trans ?_ hL₀; decide)
    | with_reducible apply strmConfig_touch
    | with_reducible apply regSet_touch
    | with_reducible apply fioRefuse_touch
    | with_reducible apply strmEnable_touch
    | with_reducible apply plainWrite_touch
    | with_reducible apply Touch.ite

theorem dpWrite_touch {L₀ : List Field} {s₀ s : State} (d : Nat) (off : Nat) (v : Word) (hL₀ : Field.sub [.regs, .latch64, .dports] L₀ = true)
  (h₀ : Touch L₀ s₀ s) : Touch L₀ s₀ (dpWrite s d off v) := by
  unfold dpWrite
  try dsimp only
  repeat' first
    | with_reducible assumption
    | (with_reducible refine Field.sub_trans ?_ hL₀; decide)
    | with_reducible apply regRefuse_touch
    | with_reducible apply setDport_touch
    | with_reducible apply regSet_touch
    | with_reducible apply plainWrite_touch
    | with_reducible apply Touch.ite

theorem partnerCmd_touch {L₀ : List Field} {s₀ s : State} (v : Word) (hL₀ : Field.sub [.regs, .partners, .blt] L₀ = true)
  (h₀ : Touch L₀ s₀ s) : Touch L₀ s₀ (partnerCmd s v) := by
  unfold partnerCmd
  try dsimp only
  repeat' first
    | with_reducible assumption
    | (with_reducible refine Field.sub_trans ?_ hL₀; decide)
    | with_reducible apply approve_touch
    | with_reducible apply reject_touch
    | with_reducible apply Touch.ite

theorem fioWrite_touch {L₀ : List Field} {s₀ s : State} (off : Nat) (v : Word) (hL₀ : Field.sub [.regs, .latch64, .dports, .partners, .blt] L₀ = true)
  (h₀ : Touch L₀ s₀ s) : Touch L₀ s₀ (fioWrite s off v) := by
  unfold fioWrite
  try dsimp only
  repeat' first
    | with_reducible assumption
    | (with_reducible refine Field.sub_trans ?_ hL₀; decide)
    | with_reducible apply strmWrite_touch
    | with_reducible apply dpWrite_touch
    | with_reducible apply partnerCmd_touch
    | with_reducible apply plainWrite_touch
    | with_reducible apply Touch.ite

theorem linkConfigured_touch {L₀ : List Field} {s₀ s : State} (q : Nat) (hL₀ : Field.sub [.regs, .links, .partners, .blt] L₀ = true)
  (h₀ : Touch L₀ s₀ s) : Touch L₀ s₀ (linkConfigured s q) := by
  unfold linkConfigured
  try dsimp only
  repeat' first
    | with_reducible assumption
    | (with_reducible refine Field.sub_trans ?_ hL₀; decide)
    | intro _
    | with_reducible apply leaveLink_touch
    | with_reducible apply setLink_touch
    | with_reducible apply Touch.ite
    | split
    | (with_reducible apply Touch.of_fst; with_reducible assumption)
    | (with_reducible apply Touch.of_snd; with_reducible assumption)

theorem qlWrite_touch {L₀ : List Field} {s₀ s : State} (q : Nat) (v : Word) (hL₀ : Field.sub [.regs, .latch64, .links, .partners, .blt] L₀ = true)
  (h₀ : Touch L₀ s₀ s) : Touch L₀ s₀ (qlWrite s q v) := by
  unfold qlWrite
  try dsimp only
  repeat' first
    | with_reducible assumption
    | (with_reducible refine Field.sub_trans ?_ hL₀; decide)
    | with_reducible apply regRefuse_touch
    | with_reducible apply plainWrite_touch
    | with_reducible apply enterLoop_touch
    | with_reducible apply linkConfigured_touch
    | with_reducible apply Touch.ite

theorem ethWrite_touch {L₀ : List Field} {s₀ s : State} (off : Nat) (v : Word) (hL₀ : Field.sub [.regs, .latch64, .ctxs, .rings, .journal, .waiting, .host, .mailbox, .eths, .tu, .blt] L₀ = true)
  (h₀ : Touch L₀ s₀ s) : Touch L₀ s₀ (ethWrite s off v) := by
  unfold ethWrite
  try dsimp only
  repeat' first
    | with_reducible assumption
    | (with_reducible refine Field.sub_trans ?_ hL₀; decide)
    | with_reducible apply ethDown_touch
    | with_reducible apply slaveLost_touch
    | with_reducible apply regSet_touch
    | with_reducible apply regRefuse_touch
    | with_reducible apply plainWrite_touch
    | with_reducible apply setEth_touch
    | with_reducible apply Touch.ite

theorem incrWrite_touch {L₀ : List Field} {s₀ s : State} (v : Word) (hL₀ : Field.sub [.regs, .latch64, .tu] L₀ = true)
  (h₀ : Touch L₀ s₀ s) : Touch L₀ s₀ (incrWrite s v) := by
  unfold incrWrite
  try dsimp only
  repeat' first
    | with_reducible assumption
    | (with_reducible refine Field.sub_trans ?_ hL₀; decide)
    | intro _
    | with_reducible apply tuRefuse_touch
    | with_reducible apply plainWrite_touch
    | with_reducible apply modTu_touch
    | fail_if_no_progress (with_reducible refine Touch.updLatch64 (Field.sub_trans (by decide) hL₀) ?_)
    | with_reducible apply Touch.ite
    | split

theorem tuWrite_touch {L : List Field} {r s : State} (off : Nat) (v : Word) (hL : Field.sub [.regs, .latch64, .ctxs, .rings, .journal, .waiting, .host, .mailbox, .tu, .blt] L = true)
    (h : Touch L r s) : Touch L r (tuWrite s off v) := by
  unfold tuWrite
  generalize off - 0x900000 = k
  refine Touch.ite ?_ (Touch.ite ?_ (Touch.ite ?_ (Touch.ite (Touch.ite ?_ h) ?_)))
  · exact incrWrite_touch _ (Field.sub_trans (by decide) hL) h
  · exact srcWrite_touch _ (Field.sub_trans (by decide) hL) h
  · exact stepCmd_touch _ (Field.sub_trans (by decide) hL) h
  · exact acceptPath_touch (Field.sub_trans (by decide) hL) h
  · split
    · exact tuRefuse_touch _ (Field.sub_trans (by decide) hL) h
    · have h1 := plainWrite_touch off v (Field.sub_trans (by decide) hL) h
      exact Touch.ite (modTu_touch _ (Field.sub_trans (by decide) hL) h1) h1

theorem rstPwrWrite_touch {L₀ : List Field} {s₀ s : State} (off : Nat) (v : Word) (hL₀ : Field.sub [.freeCtr, .regs, .latch64, .parts, .tiles, .be, .ctxs, .rings, .journal, .waiting, .serveNext, .host, .mailbox, .bme, .nibs, .links, .dports, .eths, .partners, .tu, .mem, .rst, .pwr, .hmk, .blt, .anl, .assay] L₀ = true)
  (h₀ : Touch L₀ s₀ s) : Touch L₀ s₀ (rstPwrWrite s off v) := by
  unfold rstPwrWrite
  try dsimp only
  repeat' first
    | with_reducible assumption
    | (with_reducible refine Field.sub_trans ?_ hL₀; decide)
    | with_reducible apply partReq_touch
    | with_reducible apply portReq_touch
    | with_reducible apply softwareReset_touch
    | with_reducible apply kick_touch
    | with_reducible apply safeClear_touch
    | with_reducible apply plainWrite_touch
    | with_reducible apply Touch.ite

theorem ferHmkWrite_touch {L₀ : List Field} {s₀ s : State} (h : HostPort) (off : Nat) (v : Word) (hL₀ : Field.sub [.lt, .regs, .latch64, .parts, .tiles, .be, .ctxs, .rings, .journal, .waiting, .serveNext, .mailbox, .bme, .nibs, .links, .dports, .eths, .partners, .tu, .mem, .rst, .pwr, .fuse, .hmk, .blt, .anl, .assay] L₀ = true)
  (h₀ : Touch L₀ s₀ s) : Touch L₀ s₀ (ferHmkWrite h s off v) := by
  unfold ferHmkWrite
  try dsimp only
  repeat' first
    | with_reducible assumption
    | (with_reducible refine Field.sub_trans ?_ hL₀; decide)
    | with_reducible apply revoke_touch
    | with_reducible apply raiseSvn_touch
    | with_reducible apply submitToken_touch
    | with_reducible apply attest_touch
    | with_reducible apply loadRecipient_touch
    | with_reducible apply plainWrite_touch
    | with_reducible apply Touch.ite

theorem anlWrite_touch {L₀ : List Field} {s₀ s : State} (off : Nat) (v : Word) (hL₀ : Field.sub [.regs, .latch64, .anl] L₀ = true)
  (h₀ : Touch L₀ s₀ s) : Touch L₀ s₀ (anlWrite s off v) := by
  unfold anlWrite
  try dsimp only
  repeat' first
    | with_reducible assumption
    | (with_reducible refine Field.sub_trans ?_ hL₀; decide)
    | intro _
    | with_reducible apply anlGo_touch
    | with_reducible apply recordErr_touch
    | with_reducible apply plainWrite_touch
    | with_reducible apply Touch.ite
    | split
    | (with_reducible apply Touch.of_fst; with_reducible assumption)
    | (with_reducible apply Touch.of_snd; with_reducible assumption)

theorem markHigh_touch {L₀ : List Field} {s₀ s : State} (v : Word) (hL₀ : Field.sub [.latch64, .blt] L₀ = true)
  (h₀ : Touch L₀ s₀ s) : Touch L₀ s₀ (markHigh s v) := by
  unfold markHigh
  try dsimp only
  repeat' first
    | with_reducible assumption
    | (with_reducible refine Field.sub_trans ?_ hL₀; decide)
    | with_reducible apply markWrite_touch
    | fail_if_no_progress (with_reducible refine Touch.updLatch64 (Field.sub_trans (by decide) hL₀) ?_)
    | with_reducible apply Touch.ite

theorem bltWriteReg_touch {L₀ : List Field} {s₀ s : State} (off : Nat) (v : Word) (hL₀ : Field.sub [.freeCtr, .regs, .latch64, .ctxs, .rings, .journal, .waiting, .host, .mailbox, .hmk, .blt] L₀ = true)
  (h₀ : Touch L₀ s₀ s) : Touch L₀ s₀ (bltWriteReg s off v) := by
  unfold bltWriteReg
  try dsimp only
  repeat' first
    | with_reducible assumption
    | (with_reducible refine Field.sub_trans ?_ hL₀; decide)
    | with_reducible apply modeWrite_touch
    | with_reducible apply snapWrite_touch
    | with_reducible apply markHigh_touch
    | with_reducible apply trigWrite_touch
    | with_reducible apply startExport_touch
    | with_reducible apply importRecs_touch
    | with_reducible apply abortReplay_touch
    | with_reducible apply armReplay_touch
    | with_reducible apply regRefuse_touch
    | with_reducible apply plainWrite_touch
    | fail_if_no_progress (with_reducible refine Touch.updLatch64 (Field.sub_trans (by decide) hL₀) ?_)
    | with_reducible apply Touch.ite

theorem regWrite_touch {L₀ : List Field} {s₀ s : State} (h : HostPort) (off : Nat) (v : Word) (hL₀ : Field.sub [.freeCtr, .lt, .regs, .latch64, .parts, .tiles, .be, .ctxs, .rings, .journal, .waiting, .serveNext, .host, .mailbox, .bme, .nibs, .links, .dports, .eths, .partners, .tu, .mem, .rst, .pwr, .fuse, .hmk, .blt, .anl, .assay] L₀ = true)
  (h₀ : Touch L₀ s₀ s) : Touch L₀ s₀ (regWrite h s off v) := by
  unfold regWrite
  try dsimp only
  repeat' first
    | with_reducible assumption
    | (with_reducible refine Field.sub_trans ?_ hL₀; decide)
    | intro _
    | with_reducible apply fabWrite_touch
    | with_reducible apply ducWrite_touch
    | with_reducible apply nibWrite_touch
    | with_reducible apply asyMemWrite_touch
    | with_reducible apply hqWrite_touch
    | with_reducible apply fioWrite_touch
    | with_reducible apply qlWrite_touch
    | with_reducible apply ethWrite_touch
    | with_reducible apply tuWrite_touch
    | with_reducible apply rstPwrWrite_touch
    | with_reducible apply ferHmkWrite_touch
    | with_reducible apply bltWriteReg_touch
    | with_reducible apply anlWrite_touch
    | with_reducible apply Touch.ite
    | split
    | (with_reducible apply Touch.of_fst; with_reducible assumption)
    | (with_reducible apply Touch.of_snd; with_reducible assumption)

theorem xspiWrite_touch {L₀ : List Field} {s₀ s : State} (a : Nat) (bytes : Nat) (v : Word) (hL₀ : Field.sub [.regs, .parts, .tiles, .be, .ctxs, .rings, .journal, .waiting, .host, .mailbox, .nibs, .mem, .blt, .anl, .assay] L₀ = true)
  (h₀ : Touch L₀ s₀ s) : Touch L₀ s₀ (xspiWrite s a bytes v) := by
  unfold xspiWrite
  try dsimp only
  repeat' first
    | with_reducible assumption
    | (with_reducible refine Field.sub_trans ?_ hL₀; decide)
    | with_reducible apply doorbell_touch
    | with_reducible apply bump_touch
    | exact Touch.updMailbox (Field.sub_trans (by decide) hL₀) h₀ (memWf_putBytes _ _)
    | with_reducible apply Touch.ite

theorem execRegisterWrite_touch (h : HostPort) (addr : BitVec 32) (bytes : Nat) (v : Word) (s : State) : TouchR [.freeCtr, .lt, .regs, .latch64, .parts, .tiles, .be, .ctxs, .rings, .journal, .waiting, .serveNext, .host, .mailbox, .bme, .nibs, .links, .dports, .eths, .partners, .tu, .mem, .rst, .pwr, .fuse, .hmk, .blt, .anl, .assay] s (execRegisterWrite h addr bytes v s) := by
  have hL₀ : Field.sub [.freeCtr, .lt, .regs, .latch64, .parts, .tiles, .be, .ctxs, .rings, .journal, .waiting, .serveNext, .host, .mailbox, .bme, .nibs, .links, .dports, .eths, .partners, .tu, .mem, .rst, .pwr, .fuse, .hmk, .blt, .anl, .assay] [.freeCtr, .lt, .regs, .latch64, .parts, .tiles, .be, .ctxs, .rings, .journal, .waiting, .serveNext, .host, .mailbox, .bme, .nibs, .links, .dports, .eths, .partners, .tu, .mem, .rst, .pwr, .fuse, .hmk, .blt, .anl, .assay] = true := by decide
  have h₀ := Touch.refl [.freeCtr, .lt, .regs, .latch64, .parts, .tiles, .be, .ctxs, .rings, .journal, .waiting, .serveNext, .host, .mailbox, .bme, .nibs, .links, .dports, .eths, .partners, .tu, .mem, .rst, .pwr, .fuse, .hmk, .blt, .anl, .assay] s
  unfold execRegisterWrite
  try dsimp only
  repeat' first
    | with_reducible apply TouchR.next
    | with_reducible apply TouchR.ite
    | with_reducible assumption
    | (with_reducible refine Field.sub_trans ?_ hL₀; decide)
    | with_reducible apply hostWrite_touch
    | intro _
    | with_reducible apply regRefuse_touch
    | with_reducible apply regWrite_touch
    | with_reducible apply xspiWrite_touch
    | with_reducible apply Touch.ite
    | split
    | (with_reducible apply Touch.of_fst; with_reducible assumption)
    | (with_reducible apply Touch.of_snd; with_reducible assumption)
    | with_reducible refine TouchR.mono (by decide) (hostWrite_touch _ _)

end Sys2Proof.Machine
end

