-- ==== Sys2Proof/Laws/TouchRelease.lean ====
section
/-! SUPPORT. What each function of Machine/Release.lean may touch: its law in the sense of Laws/Frame.lean. -/

namespace Sys2Proof.Machine

theorem releaseAt_touch {L₀ : List Field} {s₀ s : State} (p : Nat) (j : Nat) (im : Image) (r : Release) (hL₀ : Field.sub [.regs, .ctxs, .rings, .journal, .waiting, .host, .mailbox, .nibs, .links, .blt] L₀ = true)
  (h₀ : Touch L₀ s₀ s) : Touch L₀ s₀ (releaseAt s p j im r) := by
  unfold releaseAt
  try dsimp only
  repeat' first
    | with_reducible assumption
    | (with_reducible refine Field.sub_trans ?_ hL₀; decide)
    | intro _
    | with_reducible apply presentPlan_touch
    | with_reducible apply leOffer_touch
    | with_reducible apply noPlanEntry_touch
    | with_reducible apply Touch.ite
    | split
    | (with_reducible apply Touch.of_fst; with_reducible assumption)
    | (with_reducible apply Touch.of_snd; with_reducible assumption)

theorem execRelease_touch (p : PartId) (j : EntryId) (s : State) : TouchR [.regs, .parts, .ctxs, .rings, .journal, .waiting, .host, .mailbox, .nibs, .links, .blt] s (execRelease p j s) := by
  have hL₀ : Field.sub [.regs, .parts, .ctxs, .rings, .journal, .waiting, .host, .mailbox, .nibs, .links, .blt] [.regs, .parts, .ctxs, .rings, .journal, .waiting, .host, .mailbox, .nibs, .links, .blt] = true := by decide
  have h₀ := Touch.refl [.regs, .parts, .ctxs, .rings, .journal, .waiting, .host, .mailbox, .nibs, .links, .blt] s
  unfold execRelease
  try dsimp only
  repeat' first
    | with_reducible apply TouchR.next
    | with_reducible apply TouchR.ite
    | with_reducible assumption
    | (with_reducible refine Field.sub_trans ?_ hL₀; decide)
    | intro _
    | with_reducible apply setRun_touch
    | with_reducible apply releaseAt_touch
    | with_reducible apply noPlanEntry_touch
    | with_reducible apply Touch.ite
    | split
    | (with_reducible apply Touch.of_fst; with_reducible assumption)
    | (with_reducible apply Touch.of_snd; with_reducible assumption)

end Sys2Proof.Machine
end

