-- ==== Sys2Proof/Laws/TouchTick.lean ====
section
/-! SUPPORT. What each function of Machine/Tick.lean may touch: its law in the sense of Laws/Frame.lean. -/

namespace Sys2Proof.Machine

theorem msAccount_touch {L₀ : List Field} {s₀ s : State} (p : Nat) (hL₀ : Field.sub [.parts] L₀ = true)
  (h₀ : Touch L₀ s₀ s) : Touch L₀ s₀ (msAccount s p) := by
  unfold msAccount
  try dsimp only
  repeat' first
    | with_reducible assumption
    | (with_reducible refine Field.sub_trans ?_ hL₀; decide)
    | intro _
    | with_reducible apply setPart_touch
    | with_reducible apply Touch.ite
    | split
    | (with_reducible apply Touch.of_fst; with_reducible assumption)
    | (with_reducible apply Touch.of_snd; with_reducible assumption)

theorem tickPart_touch {L₀ : List Field} {s₀ s : State} (p : Nat) (hL₀ : Field.sub [.parts] L₀ = true)
  (h₀ : Touch L₀ s₀ s) : Touch L₀ s₀ (tickPart s p) := by
  unfold tickPart
  try dsimp only
  repeat' first
    | with_reducible assumption
    | (with_reducible refine Field.sub_trans ?_ hL₀; decide)
    | with_reducible apply msAccount_touch
    | with_reducible apply chargeAged_touch
    | with_reducible apply rollCycle_touch
    | with_reducible apply Touch.ite

theorem execTick_touch(s : State) : TouchR [.lt, .parts, .tu, .blt] s (execTick s) := by
  have hL₀ : Field.sub [.lt, .parts, .tu, .blt] [.lt, .parts, .tu, .blt] = true := by decide
  have h₀ := Touch.refl [.lt, .parts, .tu, .blt] s
  unfold execTick
  try dsimp only
  repeat' first
    | with_reducible apply TouchR.next
    | with_reducible apply TouchR.ite
    | with_reducible assumption
    | (with_reducible refine Field.sub_trans ?_ hL₀; decide)
    | intro _
    | with_reducible apply tickPart_touch
    | with_reducible apply replayTick_touch
    | with_reducible apply advanceTime_touch
    | with_reducible apply Touch.ite
    | with_reducible apply Touch.fold

theorem execOscillatorCycle_touch(s : State) : TouchR [.lt, .tu] s (execOscillatorCycle s) := by
  have hL₀ : Field.sub [.lt, .tu] [.lt, .tu] = true := by decide
  have h₀ := Touch.refl [.lt, .tu] s
  unfold execOscillatorCycle
  try dsimp only
  repeat' first
    | with_reducible apply TouchR.next
    | with_reducible apply TouchR.ite
    | with_reducible assumption
    | (with_reducible refine Field.sub_trans ?_ hL₀; decide)
    | with_reducible apply advanceTime_touch
    | with_reducible apply Touch.ite

end Sys2Proof.Machine
end

