-- ==== Sys2Proof/Laws/Trng.lean ====
section
/-! SUPPORT. What the entropy source and its generator do when they are asked for bits (R491, R492). -/

namespace Sys2Proof.Machine

@[simp] theorem Drbg.seed_ready (g : Drbg) (raw : BitVec 1024) : (g.seed raw).ready = true := by simp [Drbg.seed, Drbg.ready]

@[simp] theorem Drbg.generate_requests (g : Drbg) : g.generate.2.requests = g.requests + 1 := rfl

@[simp] theorem healthEvent_hmk (s : State) (code kind index a2 a3 : Nat) : (healthEvent s code kind index a2 a3).hmk = s.hmk :=
  (healthEvent_touch (L₀ := [.regs, .ctxs, .rings, .journal, .waiting, .host, .mailbox, .blt]) code kind index a2 a3 (by decide)
    (Touch.refl _ s)).same .hmk (by decide)

/-- A failed health test counts, up to the second, and stops the generator. -/
@[simp] theorem noteFailure_hmk (s : State) :
    (noteFailure s).hmk = { s.hmk with fails := min 2 (s.hmk.fails + 1), drbg := Drbg.reset } := by simp [noteFailure]

/-- One window of raw bits seeds the generator, or counts a failure. -/
theorem seedOnce_cases (s : State) :
    ((seedOnce s).hmk.fails = s.hmk.fails ∧ (seedOnce s).hmk.drbg.ready = true)
      ∨ (seedOnce s).hmk.fails = min 2 (s.hmk.fails + 1) := by
  unfold seedOnce
  dsimp only
  split
  · exact .inl ⟨rfl, Drbg.seed_ready _ _⟩
  · exact .inr (by simp)

/-- After at most two windows the generator serves, or the source has failed for good. -/
theorem seedDrbg_serves (s : State) : trngFailed (seedDrbg s) = true ∨ (seedDrbg s).hmk.drbg.ready = true := by
  unfold seedDrbg
  dsimp only
  split
  · simp_all
  · split
    · simp_all
    · obtain ⟨_, h⟩ | h := seedOnce_cases (seedOnce s)
      · exact .inr h
      · obtain ⟨_, g⟩ | g := seedOnce_cases s
        · simp_all
        · left; simp [trngFailed, h, g]

/-- Bits are handed out exactly while the source has not failed. -/
theorem freshBits_isSome (s : State) : (freshBits s).1.isSome = !trngFailed (seedDrbg s) := by
  unfold freshBits
  dsimp only
  split <;> simp_all

end Sys2Proof.Machine
end

