-- ==== Sys2Proof/Machine/RegView.lean ====
section
/-! DEFINITION. What a read of a set-up register returns (chapter 21): registers that hold a value of their own return it; the others are
computed here from the state they show. No command of the table is a plain register read: `readReg` is the host's view of a state. -/

namespace Sys2Proof.Machine

def bit (b : Bool) (k : Nat) : Word := if b then put 1 k else 0
def wordOf (n : Nat) : Word := BitVec.ofNat 32 n
/-- Word k of a number. -/
def wordAt (n k : Nat) : Word := wordOf (n / 2 ^ (32 * k))

/-- FAB_SKIP_MAP as one number (R130). -/
def skipMap (s : State) : Nat := ((upTo 16).map (fun r => skipOf s r % 16 * 2 ^ (4 * r))).sum

def fabView (s : State) (off : Nat) : Option Word :=
  let p := off / 0x1000
  let k := off % 0x1000
  if off = 0x10000 ∨ off = 0x10004 then some (wordAt (skipMap s) ((off - 0x10000) / 4))
  else if p < 16 ∧ k = 0x18 then some (bit (getPart s p).reshaping 1 ||| bit (getPart s p).on 0)
  else if p < 16 ∧ k = 0x10 then some (regGet s off ||| bit (getPart s p).oldTicks.isSome 31)
  else none

def ducView (s : State) (off : Nat) : Option Word :=
  let p := (off - 0x100000) / 0x1000
  let k := off % 0x1000
  if off < 0x110000 ∧ k < 0x400 ∧ k % 0x80 = 0 then some (regGet s off ||| bit (getSlot s p (k / 0x80)).img.isSome 0) else none

def nibView (s : State) (off : Nat) : Option Word :=
  let n := (off - 0x200000) / 0x1000
  let k := off % 0x1000
  if k = 0x54 then some (regGet s off ||| put (getNib s n).st.code 29 ||| bit (getNib s n).bank 28)
  else if k = 0x84 then some (let a := regGet s (nibOff n 0x80); coefWord (getNib s n) (fld a 14 13) (fld a 12 0))
  else none

/-- Masks of the sides a partition owns (R432). -/
def sideMask (s : State) (p : Nat) (assay : Bool) : Nat := ((ownedSides s p assay).map (fun n => 2 ^ n)).sum

/-- Word k of the entry of MEM_UE_LOG that MEM_UE_SEL names. -/
def ueWord (s : State) (k : Nat) : Word :=
  match s.mem.log.reverse[fld (regGet s 0x4000A0) 3 0]? with
  | some e => if k = 0 then put e.array 24 else if k = 1 then e.addr else wordAt e.tick (k - 2)
  | none => 0

def asyMemView (s : State) (off : Nat) : Option Word :=
  let sel := fld (regGet s 0x400090) 7 0
  if 0x300000 ≤ off ∧ off < 0x300040 then
    some (regGet s off ||| wordOf (fld (getPart s ((off - 0x300000) / 4)).pars.lanes 3 0))
  else if off = 0x300040 then some (put s.assay.faulty.toNat 16 ||| wordOf ((poolLanes s).map (fun l => 2 ^ l)).sum)
  else if 0x400000 ≤ off ∧ off < 0x400080 then some (wordOf (sideMask s ((off - 0x400000) / 8) (decide (off % 8 = 4))))
  else if off = 0x400094 then some (wordOf (tblGet 0 s.mem.ce sel))
  else if off = 0x400098 then some (wordOf (tblGet 0 s.mem.ceMulti sel))
  else if 0x4000A4 ≤ off ∧ off < 0x4000B4 then some (ueWord s ((off - 0x4000A4) / 4))
  else if off = 0x4000B4 then some (wordOf s.mem.ueCount)
  else none

def hqView (s : State) (off : Nat) : Option Word :=
  let c := (off - 0x500000) / 0x200
  let k := off % 0x200
  let x := getCtx s c
  if off = 0x508000 then some (put s.rst.cause 24 ||| bit (isReady s) 0)
  else if 64 ≤ c then none
  else if k = 0x10 then some (wordOf x.page)
  else if k = 0x30 then some (regGet s off ||| put (if x.on then RingState.enabled.code else 0) 29)
  else if k = 0x34 then some x.cqTail
  else if k = 0x38 then some x.cqHead
  else if 0x40 ≤ k ∧ k < 0x140 then
    let g := getRing s c ((k - 0x40) / 0x20)
    match k % 0x20 with
    | 0x08 => some ((regGet s off &&& 0x7FFFFFFF) ||| bit (g.st = .enabled) 31)
    | 0x0C => some (wordOf g.version)
    | 0x10 => some (regGet s off ||| put g.st.code 29)
    | 0x14 => some g.acc
    | 0x18 => some g.cmp
    | _ => none
  else none

/-- The eight words of FIO_PTN_ENTRY. -/
def partnerWord (s : State) (k : Nat) : Word :=
  let x := getPartner s (fld (regGet s (fioOff 0x08)) 7 0)
  let (kind, ix, mac) := match x.att with
    | .quill q => (0, q, 0)
    | .eth e m => (1, e, m.toNat)
  ([put x.st.code 30 ||| put x.kind 24 ||| put kind 22 ||| put ix 16, lo32 x.pid, hi32 x.pid, x.model, wordOf mac, wordAt mac 1,
    wordOf x.join, wordOf x.leave] : List Word).getD k 0

def fioView (s : State) (off : Nat) : Option Word :=
  if 0x602000 ≤ off ∧ off < 0x602200 ∧ off % 0x40 = 8 then some (tblGet 0 s.fuse.dpSafe ((off - 0x602000) / 0x40))
  else if 0x603010 ≤ off ∧ off < 0x603030 then some (partnerWord s ((off - 0x603010) / 4))
  else none

def qlView (s : State) (off : Nat) : Option Word :=
  let x := getLink s ((off - 0x700000) / 0x100)
  if off % 0x100 = 4 ∧ off < 0x701000 then some (put x.st.code 29 ||| bit x.conflict 28 ||| wordOf x.epoch.toNat) else none

def ethView (s : State) (off : Nat) : Option Word :=
  let k := off % 0x1000
  if k = 8 ∨ k = 12 then some (wordAt (tblGet 0 s.fuse.macs ((off - 0x800000) / 0x1000)).toNat ((k - 8) / 4)) else none

def tuView (s : State) (off : Nat) : Option Word :=
  let u := s.tu
  match off - 0x900000 with
  | 0x08 => some (wordOf u.incr.toNat)
  | 0x0C => some (wordAt u.incr.toNat 1)
  | 0x10 => some (wordOf u.t.toNat)
  | 0x14 => some (wordAt u.t.toNat 1)
  | 0x18 => some (wordAt u.t.toNat 2)
  | 0x20 => some (wordOf (lc s))
  | 0x24 => some (wordAt (lc s) 1)
  | 0x28 => some (put u.st.code 28 ||| put u.cause 24 ||| wordOf u.stepId.toNat)
  | 0x30 => some (lo32 (BitVec.ofInt 64 u.proposal))
  | 0x34 => some (hi32 (BitVec.ofInt 64 u.proposal))
  | _ => none

def rstPwrView (s : State) (off : Nat) : Option Word :=
  let r := s.rst
  if off = 0xA00000 then some (bit r.vddkWarn 16 ||| put (warmLevels s).toNat 8 ||| wordOf r.cold.toNat)
  else if off = 0xA00004 then some (wordOf r.cause)
  else if off = 0xA00008 then some (wordOf r.partHeld.toNat)
  else if off = 0xA0000C then some (wordOf r.portHeld.toNat)
  else if off = 0xA00020 then
    some (bit (isReady s) 31 ||| bit (r.phase = .bootFail) 30 ||| bit r.paused 29 ||| bit r.bootSlot 28 ||| wordOf r.bootCause)
  else if 0xB00010 ≤ off ∧ off < 0xB00028 then
    some (wordOf ((upTo 16).map (fun m => depthOf (domState s ((off - 0xB00010) / 4 * 16 + m)) * 4 ^ m)).sum)
  else if off = 0xB00034 then
    some (put (hotSensor s.pwr.readings) 16 ||| wordOf (BitVec.ofInt 16 (tjMax s.pwr.readings)).toNat)
  else if off = 0xB00040 then some (bit s.pwr.safe 1)
  else none

/-- Words of a fault record (Table 20.5). -/
def FaultRec.words (f : FaultRec) : List Word :=
  [put f.kind 24 ||| put f.part 20 ||| put f.ctx 10 ||| wordOf f.inst, f.index, wordOf f.tick, wordAt f.tick 1, lo32 f.sig, hi32 f.sig,
    put f.flag 24 ||| put f.row 20 ||| put f.col 16, f.place, f.stroke, f.prev, f.detail]

/-- The selected fault record, all zero when it is lost (R530). -/
def faultWord (s : State) (k : Nat) : Word :=
  match s.anl.log.find? (fun f => f.index == regGet s (ferOff 0x10)) with
  | some f => f.words.getD k 0
  | none => 0

def ferHmkView (s : State) (off : Nat) : Option Word :=
  if off = 0xC00004 then some (put s.anl.coresFailed.toNat 4 ||| wordOf s.anl.coresActive.toNat)
  else if 0xC00100 ≤ off ∧ off < 0xC00200 then some (faultWord s ((off - 0xC00100) / 4))
  else if off = 0xD00000 then some (wordOf s.fuse.lifecycle)
  else if off = 0xD00008 then some (bit (decide (2 ≤ s.hmk.fails)) 1 ||| bit (decide (1 ≤ s.hmk.fails)) 0)
  else if off = 0xD00014 then some (wordOf s.fuse.revoked.toNat)
  else if 0xD00040 ≤ off ∧ off < 0xD00080 then some ((digestWords (s.hmk.challenge.getD 0)).getD ((off - 0xD00040) / 4) 0)
  else if off = 0xD0010C then some (bit s.hmk.done 0)
  else none

/-- Partitions with spares pending. -/
def pendingParts (s : State) : BitVec 16 := s.anl.pending.foldl (fun (m : BitVec 16) u => m ||| (u.now s).parts) 0

def bltAnlView (s : State) (off : Nat) : Option Word :=
  let b := s.blt
  if off = 0xE00014 then some (put b.ignored 16 ||| bit (b.mode ≠ .off) 2 ||| bit b.frozen 1 ||| bit b.full 0)
  else if off = 0xF00014 then some (wordOf s.anl.retired.toNat)
  else if off = 0xF00018 then some (wordOf (pendingParts s).toNat)
  else if off = 0xF0001C then some (wordOf s.fuse.annealUsed)
  else none

/-- Registers that are views of other state. -/
def viewReg (s : State) (off : Nat) : Option Word :=
  match off / 0x100000 with
  | 0 => fabView s off
  | 1 => ducView s off
  | 2 => nibView s off
  | 3 | 4 => asyMemView s off
  | 5 => hqView s off
  | 6 => fioView s off
  | 7 => qlView s off
  | 8 => ethView s off
  | 9 => tuView s off
  | 10 | 11 => rstPwrView s off
  | 12 | 13 => ferHmkView s off
  | _ => bltAnlView s off

/-- A read of a set-up register (R535): 0 where no table assigns the offset. -/
def readReg (s : State) (off : Nat) : Word :=
  if off % 4 ≠ 0 then 0
  else
    match viewReg s off with
    | some w => w
    | none =>
      match regRow? off with
      | some _ => regGet s off
      | none => 0

/-- XSPI_INT_N is low: an enabled context of the control port has an unacknowledged notification (Table 13.2). -/
def xspiIntLow (s : State) : Bool := (upTo 64).any (fun c => let x := getCtx s c; x.on && decide (x.func = 16) && x.notify)

/-- The MSI-X vectors of a function whose contexts have an unacknowledged notification (Table 13.1): a context's vector is its doorbell
page (assumption 92). -/
def msixVectors (s : State) (func : Nat) : List Nat :=
  (upTo 64).filterMap (fun c => let x := getCtx s c; if x.on && decide (x.func = func) && x.notify then some x.page else none)

/-- Phases of a direct port's output pads (Table 14.15). -/
def padPhase (s : State) (d : Nat) : PadPhase :=
  if !s.rst.good.getLsbD 2 then .rising
  else if !isReady s then .inReset
  else if s.rst.portRst.getLsbD (16 + d) then .inReset
  else if !(getDport s d).pll then .alwaysOn
  else if wbit (regGet s (dpOff d 0)) 31 then .configured
  else .locked

/-- What a pad in reset or not yet configured drives (R401, R402): none while it is an input, with the pull of SAFE_MODE beside it; else
the fuse-defined static levels of the data lanes. -/
def padLevels (s : State) (d : Nat) : Option Word :=
  if s.rst.latch && s.fuse.dpOutputs.getLsbD d then some (tblGet 0 s.fuse.dpLevels d) else none

/-- The pull of an undriven pair (R401): none, or the logic level. -/
def padPull (s : State) : Option Bool :=
  if !s.rst.good.getLsbD 2 && !s.rst.latch && s.rst.cold.getLsbD 0 then none
  else match s.rst.safeMode.toNat with
    | 1 => some true
    | 2 => none
    | _ => some false

end Sys2Proof.Machine
end

