-- ==== Sys2Proof/WellFormed.lean ====
section
/-! DEFINITION. Which commands are well formed: the bounds of their operands that the index types do not carry. A
command's effect is total; an ill-formed one is one no interface of the device can produce. -/

namespace Sys2Proof

/-- A Quill frame carries eight payload words (Table 14.4). -/
def QuillFrame.wf (f : QuillFrame) : Bool := decide (f.payload.length = 8)

/-- A doorbell write has the size of a PCIe or control-port write of a page (R350, R534). -/
def doorbellWf (off bytes : Nat) : Bool := decide (off < 4096) && decide (1 ≤ bytes) && decide (bytes ≤ 8)

/-- Well-formed commands. -/
def Instr.wf : Instr → Bool
  | .doorbellSubmit _ _ off bytes _ => doorbellWf off bytes
  | .doorbellCqHead _ _ bytes _ => doorbellWf 0x40 bytes
  | .data _ f | .bulk _ f | .ident _ f | .leave _ f | .null _ f => f.wf
  | .dpFrameRx _ f => decide (f.words.length ≤ 32)
  | .ethStreamRx _ f => decide (f.payload.length ≤ 64)
  | .tjSample r => decide (r.length = 32)
  | .registerWrite _ _ bytes _ => decide (1 ≤ bytes) && decide (bytes ≤ 8)
  | .rstPartReq v => decide (v.toNat < 2 ^ 16)
  | .rstPortReq v => decide (v.toNat < 2 ^ 28)
  | .bltSnap v => decide (v.toNat < 2 ^ 16)
  | .tuSrcWrite v => decide (v.toNat < 4)
  | _ => true

end Sys2Proof
end

