-- ==== Sys2Proof/Tests/Slice0.lean ====
section
/-! SUPPORT. The model's own tests: an ill-formed command for every check of well-formedness, and for every statement with hypotheses
concrete states and operands that meet them, clause by clause, mostly with what the command then does. -/

namespace Sys2Proof.Tests
set_option Elab.async false
open Sys2Proof Sys2Proof.Machine

/-- The state a command answers. -/
def after (c : Instr) (s : State) : State := match exec c s with | .next t => t | _ => { s with pending := [.tick] }

-- well-formedness

def frm (seq : BitVec 16) : QuillFrame := ⟨seq, 0, true, 0, false, 0, List.replicate 8 0, .none⟩

theorem test_wf_operands : Instr.wf (.doorbellSubmit 0 0 4096 8 0) = false ∧ Instr.wf (.doorbellSubmit 0 0 0 0 0) = false
    ∧ Instr.wf (.doorbellSubmit 0 0 0 9 0) = false ∧ Instr.wf (.doorbellCqHead 0 0 9 0) = false
    ∧ Instr.wf (.doorbellSubmit 0 0 4088 8 0) = true ∧ Instr.wf (.doorbellCqHead 0 0 8 0) = true
    ∧ Instr.wf (.tjSample []) = false ∧ Instr.wf (.tjSample (List.replicate 32 0)) = true
    ∧ Instr.wf (.registerWrite .pcie 0 0 0) = false ∧ Instr.wf (.registerWrite .pcie 0 9 0) = false
    ∧ Instr.wf (.registerWrite .pcie 0 4 0) = true ∧ Instr.wf (.rstPartReq 0x10000) = false ∧ Instr.wf (.rstPortReq 0x10000000) = false
    ∧ Instr.wf (.bltSnap 0x10000) = false ∧ Instr.wf (.tuSrcWrite 4) = false ∧ Instr.wf (.tuSrcWrite 3) = true := by decide

theorem test_wf_frames : Instr.wf (.data 0 { frm 0 with payload := [] }) = false ∧ Instr.wf (.bulk 0 { frm 0 with payload := [] }) = false
    ∧ Instr.wf (.ident 0 { frm 0 with payload := [] }) = false ∧ Instr.wf (.leave 0 { frm 0 with payload := [] }) = false
    ∧ Instr.wf (.null 0 { frm 0 with payload := [] }) = false ∧ Instr.wf (.data 0 (frm 0)) = true
    ∧ Instr.wf (.dpFrameRx 0 ⟨0, List.replicate 33 0, 0, 0⟩) = false ∧ Instr.wf (.dpFrameRx 0 ⟨0, List.replicate 32 0, 0, 0⟩) = true
    ∧ Instr.wf (.ethStreamRx 0 ⟨0, 0, 0, 0, List.replicate 65 0, true⟩) = false
    ∧ Instr.wf (.ethStreamRx 0 ⟨0, 0, 0, 0, List.replicate 64 0, true⟩) = true := by decide

-- the block as a whole

/-- A READY device. -/
def rdy : State := { State.reset with rst := { ResetUnit.reset with phase := .ready } }

theorem test_step_takes_the_front : step { rdy with pending := [.tick, .accept] } = exec .tick { rdy with pending := [.accept] }
    ∧ step { rdy with pending := [] } = .next rdy := ⟨rfl, rfl⟩

theorem test_reset_is_safe : State.reset.safe := ⟨by unfold State.canon; decide +kernel, by decide, fun t h => by cases h⟩

theorem test_frame_has_cases : Field.host ∉ reach .tick ∧ Field.mailbox ∉ reach .tick ∧ Field.fuse ∉ reach (.mac 0 0) := by decide +kernel

/-- A device that did not boot. -/
def failed : State := { State.reset with rst := { ResetUnit.reset with phase := .bootFail, bootCause := 1 } }

theorem witness_boot_fail : hostWrites (.enable 0) = true ∧ failed.rst.phase = .bootFail ∧ after (.enable 0) failed = failed
    ∧ (after (.resetNLow 1000) failed).rst.phase = .coldReset ∧ (after .tick failed).rst.phase = .bootFail := by decide +kernel

-- the host interface

def cx : Ctx := { Ctx.reset with on := true, cqBase := 0x10000, cqLog2 := 6, cqGen := 1 }
def rg : Ring := { Ring.reset with st := .enabled, base := 0x1000, log2 := 4, gen := 1, version := 1 }

/-- Context 0 of partition 0 with submission ring 0. -/
def host0 : State := setRing (setCtx (setPart rdy 0 { Part.reset with on := true }) 0 cx) 0 0 rg

/-- A ring one item of which is not accepted yet, at its last index, and one with the ring full but for one. -/
def host1 : State := setRing host0 0 0 { rg with tail := 1 }
def host2 : State := setRing host0 0 0 { rg with tail := 15 }

/-- A doorbell value. -/
def db (gen idx : Nat) : Word64 := BitVec.ofNat 64 (gen * 2 ^ 56 + idx)

theorem witness_tail_doorbell : isReady host0 = true ∧ pageCtx host0 0 0 = some 0 ∧ (getRing host0 0 0).st = .enabled
    -- the ring's whole size ahead is taken; one past it is an overrun; another GEN and an index that is not ahead are stale
    ∧ after (.doorbellSubmit 0 0 0 8 (db 1 16)) host0 = setRing host0 0 0 { rg with tail := 16 }
    ∧ (getRing (after (.doorbellSubmit 0 0 0 8 (db 1 17)) host0) 0 0).st = .halted
    ∧ after (.doorbellSubmit 0 0 0 8 (db 2 1)) host0 = bump host0 (ctxOff 0 0x144)
    ∧ after (.doorbellSubmit 0 0 0 8 (db 1 0)) host0 = bump host0 (ctxOff 0 0x144) := by decide +kernel

def host3 : State := setCtx host0 0 { cx with cqTail := 4, notify := true }

theorem witness_head_doorbell : isReady host3 = true ∧ pageCtx host3 0 0 = some 0
    ∧ after (.doorbellCqHead 0 0 8 (db 1 4)) host3 = setCtx host3 0 { cx with cqTail := 4, cqHead := 4 }
    ∧ after (.doorbellCqHead 0 0 8 (db 1 5)) host3 = bump host3 (ctxOff 0 0x144)
    ∧ after (.doorbellCqHead 0 0 8 (db 2 4)) host3 = bump host3 (ctxOff 0 0x144)
    ∧ after (.doorbellCqHead 0 0 8 (db 1 0)) host3 = bump host3 (ctxOff 0 0x144) := by decide +kernel

/-- A descriptor's words: opcode with its class, sequence number, address, bytes, slot word and the words after it. -/
def dsc (cls op seq addr bytes slot : Nat) (more : List Word) : List Word :=
  [put 1 28 ||| put cls 26 ||| put 1 16 ||| put op 8, BitVec.ofNat 32 seq, 0, 0, BitVec.ofNat 32 addr, 0, BitVec.ofNat 32 bytes,
    BitVec.ofNat 32 slot] ++ more ++ List.replicate (8 - more.length) 0

def withWords (s : State) (a : Nat) (ws : List Word) : State := { s with host := memPutBytes s.host a (ws.flatMap (fun w => leBytes 4 w.toNat)) }

def fetchGood : State := withWords host1 0x1000 (dsc 0 0 0 0 0 0 [])
def fetchBad : State := withWords host1 0x1000 (dsc 0 0 7 0 0 0 [])

/-- A bad descriptor behind an open item. -/
def fetchBehind : State :=
  withWords (setRing host0 0 0 { rg with tail := 2, acc := 1, items := [⟨0, dsc 0 0 0 0 0 0 [], none, false, 0⟩] }) 0x1040 (dsc 0 0 7 0 0 0 [])

theorem witness_descriptor_acceptance : fetchTurn fetchGood = some 0 ∧ (getRing fetchGood 0 0).tail = (getRing fetchGood 0 0).acc + 1
    ∧ fetchTurn fetchBad = some 0 ∧ fitsJournal fetchBad 0 1 = true ∧ fetchBad.waiting = [] ∧ fetchTurn fetchBehind = some 0
    ∧ after (.descriptorFetch 0 1) fetchGood = fetchGood ∧ (after (.descriptorFetch 0 0) fetchGood).serveNext = 1
    ∧ regGet (after (.descriptorFetch 0 0) fetchBad) (ringOff 0 0 0x1C) = 1
    ∧ descChecks cx (getRing fetchBehind 0 0) ⟨1, dsc 0 0 7 0 0 0 [], none, false, 0⟩ = some (stStale, 2)
    ∧ (getRing (after (.descriptorFetch 0 0) fetchBehind) 0 0).items.map (fun i => i.early) = [none, some (stStale, 2)]
    ∧ (getRing (after (.descriptorFetch 0 0) fetchBehind) 0 0).cmp = 0
    ∧ memWords (hostMem fetchGood cx) 0x1000 16 = dsc 0 0 0 0 0 0 []
    ∧ descChecks cx (getRing fetchGood 0 0) ⟨0, dsc 0 0 0 0 0 0 [], none, false, 0⟩ = none
    ∧ (getRing (after (.descriptorFetch 0 0) fetchGood) 0 0).items = [⟨0, dsc 0 0 0 0 0 0 [], none, false, 0⟩]
    ∧ descChecks cx (getRing fetchBad 0 0) ⟨0, dsc 0 0 7 0 0 0 [], none, false, 0⟩ = some (stStale, 2)
    ∧ (getRing (after (.descriptorFetch 0 0) fetchBad) 0 0).cmp = 1
    ∧ (getRing (after (.descriptorFetch 0 0) fetchBad) 0 0).items = [] := by decide +kernel

/-- A ring whose only item, at its head, is a descriptor. -/
def holding (s : State) (ws : List Word) : State := setRing s 0 0 { rg with tail := 1, acc := 1, items := [⟨0, ws, none, false, 0⟩] }

def pauseOf1 : State := setRing (holding host0 (dsc 0 7 0 0 0 1 [])) 0 1 rg
def resumeOf1 : State := setRing (holding host0 (dsc 0 8 0 0 0 1 [])) 0 1 { rg with paused := true }

theorem witness_control_opcodes : headOp (holding host0 (dsc 0 0 0 0 0 0 [])) 0 0 0 = some ⟨0, dsc 0 0 0 0 0 0 [], none, false, 0⟩
    ∧ (getRing (after (.nop 0 0) (holding host0 (dsc 0 0 0 0 0 0 []))) 0 0) = { rg with tail := 1, acc := 1, cmp := 1 }
    ∧ headOp pauseOf1 0 0 7 = some ⟨0, dsc 0 7 0 0 0 1 [], none, false, 0⟩ ∧ (getRing (after (.pause 0 0) pauseOf1) 0 1).paused = true
    ∧ (getRing (after (.pause 0 0) pauseOf1) 0 0).cmp = 1
    ∧ headOp resumeOf1 0 0 8 = some ⟨0, dsc 0 8 0 0 0 1 [], none, false, 0⟩ ∧ (getRing (after (.resume 0 0) resumeOf1) 0 1).paused = false
    ∧ (getRing (after (.resume 0 0) resumeOf1) 0 0).cmp = 1 := by decide +kernel

/-- A full journal; a ring whose head, a best-effort command of ring 1, is on the tiles of partition 0. -/
def fullJournal : State := { holding host0 (dsc 0 0 0 0 0 0 []) with journal := [⟨1, 0, List.replicate journalSlots []⟩] }
def pauseSelf : State := holding host0 (dsc 0 7 0 0 0 0 [])
def resumeSelf : State := setRing host0 0 0 { rg with tail := 1, acc := 1, paused := true, items := [⟨0, dsc 0 8 0 0 0 0 [], none, false, 0⟩] }
def pauseRunning : State :=
  setBe (setPart pauseOf1 0 { Part.reset with on := true, holder := some (.ring 1) }) 1 (some { (default : BeCmd) with cmd := { (default : Cmd) with st := .run } })

theorem witness_control_waits : headOp fullJournal 0 0 0 = some ⟨0, dsc 0 0 0 0 0 0 [], none, false, 0⟩ ∧ fitsJournal fullJournal 0 1 = false
    ∧ (after (.nop 0 0) fullJournal).waiting.map (fun w => (w.ctx, w.item)) = [(0, some (0, 1))]
    ∧ (getRing (after (.nop 0 0) fullJournal) 0 0).cmp = 0 ∧ (getRing (after (.nop 0 0) fullJournal) 0 0).items = []
    ∧ headOp pauseSelf 0 0 7 = some ⟨0, dsc 0 7 0 0 0 0 [], none, false, 0⟩ ∧ (getPart pauseSelf 0).holder = none
    ∧ fitsJournal pauseSelf 0 1 = true ∧ pauseSelf.waiting = []
    ∧ getRing (after (.pause 0 0) pauseSelf) 0 0 = { rg with tail := 1, acc := 1, cmp := 1, paused := true }
    ∧ headOp resumeSelf 0 0 8 = some ⟨0, dsc 0 8 0 0 0 0 [], none, false, 0⟩
    ∧ getRing (after (.resume 0 0) resumeSelf) 0 0 = { rg with tail := 1, acc := 1, cmp := 1 }
    ∧ headOp pauseRunning 0 0 7 = some ⟨0, dsc 0 7 0 0 0 1 [], none, false, 0⟩ ∧ (getPart pauseRunning 0).kill = none
    ∧ (getPart (after (.pause 0 0) pauseRunning) 0).kill = some ⟨.ring 1, .pause, true, [(0, 0)]⟩
    ∧ (getRing (after (.pause 0 0) pauseRunning) 0 0).items = [⟨0, dsc 0 7 0 0 0 1 [], none, true, 0⟩]
    ∧ (getBe (after (.pause 0 0) pauseRunning) 1).map (fun b => b.cmd.st) = some .waitRerun := by decide +kernel

def objectItem : State := withWords (holding host0 (dsc 1 1 0 0x2000 32 0 [])) 0x2000 [put 1 28]

theorem witness_object : headOp objectItem 0 0 1 = some ⟨0, dsc 1 1 0 0x2000 32 0 [], none, false, 0⟩
    ∧ (getPart (after (.object 0 0) objectItem) 0).gate.length = 1
    ∧ ((getRing (after (.object 0 0) objectItem) 0 0).items.head?.map (fun i => i.begun)) = some true := by decide +kernel


/-- A small problem image: two entries of kind 1, two output words, latency-critical, with a range certificate. -/
def ent : EntryRec := { (default : EntryRec) with obj := 1, lo := 0x80000000, hi := 0x7FFFFFFF, dflt := 9 }
def img : Image := { (default : Image) with
  hdr := { (default : ImgHeader) with ikind := 1, pkind := 1, method := 1, sig := 5, gcols := 1, ghalves := 2 }
  dims := { (default : Dims) with n := 2 }, entries := [ent, ent], cert := some { (default : Cert) with iterMax := 10, sig := 5 } }

/-- Instance 3 of it. -/
def ins : Inst := { (default : Inst) with num := 3, incarn := 2, period := 4000, bytes := 4096 }

def prt : Part := { Part.reset with on := true, slots := [(0, { Slot.reset with img := some img })], insts := [ins] }

/-- The same host with the partition holding the image and its instance. -/
def host4 : State := setPart host0 0 prt

def readWords : List Word := dsc 1 4 0 0x4000 64 0 [3]
def readNone : State := holding host4 readWords
def readSome : State := setPart readNone 0 { prt with insts := [{ ins with lastWords := some [11, 12] }] }

theorem witness_result_read : headOp readNone 0 0 4 = some ⟨0, readWords, none, false, 0⟩
    ∧ resultReadCheck (getPart readNone 0) ⟨0, readWords, none, false, 0⟩ = .inr ins
    ∧ resultReadCheck (getPart readSome 0) ⟨0, readWords, none, false, 0⟩ = .inr { ins with lastWords := some [11, 12] }
    ∧ memWords (after (.resultRead 0 0) readSome).host 0x4000 2 = [11, 12] ∧ (getRing (after (.resultRead 0 0) readSome) 0 0).cmp = 1
    ∧ memWords (after (.resultRead 0 0) readNone).host 0x4000 2 = [0, 0] ∧ (getRing (after (.resultRead 0 0) readNone) 0 0).cmp = 1 := by
  decide +kernel

def grp : JGroup := ⟨0, 0, [List.replicate 8 0]⟩
def journalPcie : State := { host0 with journal := [grp] }
def journalXspi (head : Word) : State := setCtx journalPcie 0 { cx with func := 16, cqTail := 1, cqHead := head }
/-- A group of ring 1 waits for the space. -/
def journalWaits : State := { setRing journalPcie 0 1 rg with waiting := [⟨0, some (1, 1), false, List.replicate 8 0, []⟩] }

theorem witness_journal : journalPcie.journal.find? (fun h => h.ctx == 0) = some grp
    ∧ (getCtx journalPcie 0).func ≠ 16 ∧ (after (.journalRelease 0) journalPcie).journal = []
    ∧ (journalXspi 1).journal.find? (fun h => h.ctx == 0) = some grp
    -- the head doorbell on the last slot, and one short of it
    ∧ (after (.journalRelease 0) (journalXspi 1)).journal = [] ∧ after (.journalRelease 0) (journalXspi 0) = journalXspi 0
    ∧ fitsJournal { journalWaits with journal := [] } 0 1 = true ∧ (after (.journalRelease 0) journalWaits).waiting = []
    ∧ (getRing (after (.journalRelease 0) journalWaits) 0 1).cmp = 1 := by decide +kernel

/-- An open item in a ring, one in a ring of another context. -/
def busy : State := setRing (setCtx (holding host4 (dsc 0 0 0 0 0 0 [])) 1 { cx with page := 1 }) 1 2 { rg with acc := 1, tail := 1, items := [default] }

theorem witness_contexts_torn_down : (getCtx busy 0).on = true
    ∧ (after (.hostReadFail 0) busy).anl.index = 1 ∧ (getRing (after (.hostReadFail 0) busy) 0 0).items = []
    ∧ (getRing (after (.hostReadFail 0) busy) 0 0).cmp = 1 ∧ (getRing (after (.hostReadFail 0) busy) 0 0).st = .halted
    ∧ (getRing (after (.hostReadFail 0) busy) 0 1).st = .uncreated ∧ getRing (after (.hostReadFail 0) busy) 1 2 = getRing busy 1 2
    ∧ (getCtx busy 0).func = 0 ∧ (after (.functionLoss 0) busy).bme = 0 ∧ (getRing (after (.functionLoss 0) busy) 0 0).st = .lost
    ∧ (getRing (after (.functionLoss 0) busy) 0 0).cmp = 1 ∧ (after (.functionLoss 1) busy).bme = 0xFFFD
    ∧ (getRing (after (.functionLoss 1) busy) 0 0).st = .enabled
    -- a context that is off
    ∧ (getCtx busy 2).on = false ∧ after (.hostReadFail 2) busy = busy := by decide +kernel

def recovering : State := setCtx busy 0 { cx with recover := true }
def recoversLater : State := setCtx recovering 1 { cx with page := 1, recover := true }

theorem witness_warm_recovery : isReady recovering = true ∧ (getCtx recovering 0).recover = true
    ∧ (getCtx (after (.warmRecovery 0) recovering) 0).recover = false ∧ (getRing (after (.warmRecovery 0) recovering) 0 0).st = .halted
    ∧ (getRing (after (.warmRecovery 0) recovering) 0 0).cmp = 1 ∧ (after (.warmRecovery 0) recovering).bme.getLsbD 0 = true
    ∧ (getCtx recoversLater 0).recover = true ∧ after (.warmRecovery 1) recoversLater = recoversLater := by decide +kernel

-- the range gate

/-- A host object at the gate: kind, words of the header behind the first, payload. -/
def obj (kind bytes : Nat) (incarn : Nat) (ws : List Word) : GateItem :=
  { src := .host 0 0 0, kind := kind, slot := 0, bytes := bytes, recs := [], inst := 3, tsig := 0, asn := 0, tick := 0,
    words := (put 1 28 ||| put kind 16 ||| put incarn 10 ||| 3) :: ws }

def objectWait : List Word := dsc 1 1 0 0x2000 48 0 []
def atGate (g : GateItem) (x : Part) : State :=
  setRing (setPart host4 0 { x with gate := [g] }) 0 0 { rg with tail := 1, acc := 1, items := [⟨0, objectWait, none, true, 0⟩] }

def block : GateItem := obj 1 40 2 [8, 5, 0, 0, 2, 0, 0, 7, 8]
def list1 : GateItem := obj 0x30 40 2 [8, 5, 0, 1, 0, 0, 0, 1, 0xFFFFFFFF]
def warm : GateItem := obj 0x31 40 2 [8, 5, 0, 0, 0, 9, 0, 21, 22]

theorem witness_block_is_queued : gateHead (atGate block prt) 0 = some block ∧ hostSteps prt block = .inr img
    ∧ hostSet (atGate block prt) 0 block img = .inr [(0, 7), (1, 8)]
    ∧ ((getPart (after (.dataBlock 0) (atGate block prt)) 0).inst? 3).map (fun i => i.queue) = some [⟨1, [(0, 7), (1, 8)], none, 0⟩] := by
  decide +kernel

theorem witness_list_is_queued : gateHead (atGate list1 prt) 0 = some list1 ∧ hostSteps prt list1 = .inr img
    ∧ hostSet (atGate list1 prt) 0 list1 img = .inr [(1, 0xFFFFFFFF)]
    ∧ ((getPart (after (.updateList 0) (atGate list1 prt)) 0).inst? 3).map (fun i => i.queue) = some [⟨1, [(1, 0xFFFFFFFF)], none, 0⟩] := by
  decide +kernel

theorem witness_warm_is_queued : gateHead (atGate warm prt) 0 = some warm ∧ hostSteps prt warm = .inr img
    ∧ (warm.payload.drop img.w).all (fun w => w == 0) = true
    ∧ ((getPart (after (.warmStart 0) (atGate warm prt)) 0).inst? 3).map (fun i => i.queue) = some [⟨1, [], some ⟨5, 9, [21, 22]⟩, 0⟩] := by
  decide +kernel

/-- A data block of the wrong version, and one with an entry the image has not. -/
def badHead : GateItem := { block with words := 0 :: block.words.drop 1 }
def badValue : GateItem := obj 1 40 2 [8, 5, 0, 1, 2, 0, 0, 7, 8]
def badList : GateItem := obj 0x30 40 2 [8, 5, 0, 1, 0, 0, 0, 2, 0]
/-- One of a superseded incarnation. -/
def stale : GateItem := obj 0x30 40 1 [8, 5, 0, 1, 0, 0, 0, 1, 0]

theorem witness_sets_are_refused : gateHead (atGate badHead prt) 0 = some badHead ∧ hostSteps prt badHead = .inl ⟨stStructure, 1, 0⟩
    ∧ (getPart (after (.dataBlock 0) (atGate badHead prt)) 0) = { prt with gate := [] }
    ∧ hostSteps prt badValue = .inr img ∧ hostSet (atGate badValue prt) 0 badValue img = .inl ⟨stStructure, 5, 0⟩
    ∧ (getPart (after (.dataBlock 0) (atGate badValue prt)) 0) = { prt with gate := [] }
    ∧ hostSteps prt badList = .inr img ∧ hostSet (atGate badList prt) 0 badList img = .inl ⟨stStructure, 5, 0⟩
    ∧ (getPart (after (.updateList 0) (atGate badList prt)) 0) = { prt with gate := [] } := by decide +kernel

theorem witness_superseded : gateHead (atGate stale prt) 0 = some stale ∧ headerOk stale (some img) = true ∧ lengthOk stale (some img) = true
    ∧ kindSuits 0x30 img = true ∧ stale.sig = img.hdr.sig ∧ prt.inst? 3 = some ins ∧ stale.incarn ≠ ins.incarn ∧ fld (stale.hw 0) 31 28 = 1
    ∧ regGet (after (.updateList 0) (atGate stale prt)) (fabOff 0 0x28) = 1 := by decide +kernel

def declare : GateItem := obj 0x20 32 3 [0, 5, 0, 0x100, 0, 4000, 0]
def undeclared : Part := { prt with insts := [], pars := { PartParams.reset with mem := 0x00010001 } }
def leaveGate : GateItem := obj 0x21 32 2 [0, 5, 0, 0, 0, 0, 0]

theorem witness_instances : gateHead (atGate declare undeclared) 0 = some declare ∧ hostSteps undeclared declare = .inr img
    ∧ admitCause undeclared declare img = none
    ∧ ((getPart (after (.instDecl 0) (atGate declare undeclared)) 0).inst? 3).map (fun i => (i.incarn, i.assay, i.bytes)) = some (3, [9, 9], 4096)
    ∧ hostSteps prt leaveGate = .inr img ∧ instBusy (atGate leaveGate prt) 0 3 = false
    ∧ (getPart (after (.instRelease 0) (atGate leaveGate prt)) 0).insts = [] := by decide +kernel

/-- A launch entry's command on instance 3 is under way. -/
def cmd0 : Cmd := { (default : Cmd) with st := .run, launch := 4000, members := [{ (default : Member) with inst := 3 }], deadline := 700 }
def running : Part := { prt with entries := [(2, { EntryRun.reset with on := true, next := 8000, cmd := some cmd0 })] }

theorem witness_release_waits : hostSteps running leaveGate = .inr img ∧ instBusy (atGate leaveGate running) 0 3 = true
    ∧ ((getPart (after (.instRelease 0) (atGate leaveGate running)) 0).inst? 3).map (fun i => i.released) = some true := by decide +kernel

def mrec : MapRec := { (default : MapRec) with entry := 1 }
def streamItem (g : List MapRec) : GateItem := { block with src := .stream 4 9, words := [77], recs := g }
def commitItem (g : List MapRec) : GateItem := { streamItem g with src := .commit 0 1 2 3 4, tsig := 5 }

theorem witness_device_sets : judgeStream (atGate (streamItem [mrec]) prt) 0 (streamItem [mrec]) = .inr [(1, 77)]
    ∧ ((getPart (after (.streamSetVerdict 0) (atGate (streamItem [mrec]) prt)) 0).inst? 3).map (fun i => i.queue) = some [⟨1, [(1, 77)], none, 0⟩]
    -- a record past the image's last entry
    ∧ judgeStream (atGate (streamItem [{ mrec with entry := 2 }]) prt) 0 (streamItem [{ mrec with entry := 2 }]) = .inl ⟨stStructure, 5, 0⟩
    ∧ regGet (after (.streamSetVerdict 0) (atGate (streamItem [{ mrec with entry := 2 }]) prt)) (strmOff 4 0x18) = 1
    ∧ judgeCommit (atGate (commitItem [mrec]) prt) 0 (commitItem [mrec]) = .inr [(1, 77)]
    ∧ ((getPart (after (.commitSetVerdict 0) (atGate (commitItem [mrec]) prt)) 0).inst? 3).map (fun i => i.queue) = some [⟨1, [(1, 77)], none, 0⟩]
    ∧ judgeCommit (atGate (commitItem [{ mrec with entry := 2 }]) prt) 0 (commitItem [{ mrec with entry := 2 }]) = .inl ⟨stStructure, 5, 0⟩
    ∧ ((getPart (after (.commitSetVerdict 0) (atGate (commitItem [{ mrec with entry := 2 }]) prt)) 0).inst? 3).map (fun i => i.upRefused)
        = some true := by decide +kernel

-- launches

/-- The same image with its segments, a Deadline-mode row and eight tiles' partition. -/
def sg (k : Nat) : SegRec := { (default : SegRec) with kind := k, span := 10, entry := 16 * k }
def img2 : Image := { img with segs := [sg 1, sg 3, sg 4, sg 5, sg 7], wcet := [default] }
def par0 : PartParams := { PartParams.reset with geom := put 1 16 ||| put 1 12 }
def prt2 : Part := { prt with pars := par0, slots := [(0, { Slot.reset with img := some img2 })] }

/-- Launch entry 2: instance 3, period 4000, deadline 700, release 900, TICKS 10. -/
def entryRegs (s : State) : State :=
  regSet (regSet (regSet (regSet (regSet (regSet s (launchOff 0 2 6) (put 1 15 ||| 1)) (launchOff 0 2 5) 0x80000000)
    (launchOff 0 2 1) 4000) (launchOff 0 2 0) (put 700 8)) (launchOff 0 2 7) (put 900 8)) (fabOff 0 0x10) 10

def ent2 : EntryRun := { EntryRun.reset with on := true, next := 8000 }
def insQ : Inst := { ins with queue := [⟨7, [(0, 5)], none, 0⟩, ⟨8, [(1, 6)], none, 7990⟩] }

/-- A partition with entry 2 at tick `t` of the local count. -/
def sched (t : Nat) (x : Part) (e : EntryRun) : State :=
  let s := entryRegs (setPart host0 0 { x with entries := [(2, e)] })
  { s with lt := t, tu := { s.tu with t := BitVec.ofNat 96 ((5 * 2 ^ 32 * t + 1) / 2) } }

def cut1 : State := sched 7990 { prt2 with insts := [insQ] } ent2
def cut3 : State := sched 7990 { prt2 with insts := [insQ], reshaping := true } ent2
def cut2 : State := sched 7990 { prt2 with insts := [insQ], postings := [⟨.entry 1, 0, 0, [(3, [])]⟩] } ent2

theorem witness_cutoff : lc cut1 = 7990 ∧ ticksEff cut1 0 = 10 ∧ isReplay cut1 0 = false ∧ entryImg cut1 0 2 = 0
    ∧ entryMembers cut1 0 2 7990 = [insQ] ∧ instHeld cut1 0 3 = false ∧ inHold cut1 = false
    ∧ getRun (after (.cutoff 0 2) cut1) 0 2 = { ent2 with cutDone := true, cutTick := 7990 }
    ∧ (getPart (after (.cutoff 0 2) cut1) 0).inst? 3 = some (insQ.takeCut img2 (takeSets 640 7990 [] insQ.queue))
    ∧ memWords (insQ.takeCut img2 (takeSets 640 7990 [] insQ.queue)).space 0 2 = [5, 6] ∧ (insQ.takeCut img2 (takeSets 640 7990 [] insQ.queue)).takenAsn = 8
    -- a posting of the instance still open
    ∧ entryMembers cut2 0 2 7990 = [insQ] ∧ instHeld cut2 0 3 = true
    ∧ getRun (after (.cutoff 0 2) cut2) 0 2 = { ent2 with cutDone := true, cutBlocked := true, cutTick := 7990 }
    ∧ (getPart (after (.cutoff 0 2) cut2) 0).inst? 3 = some insQ
    -- a re-shape under way
    ∧ (getPart cut3 0).reshaping = true ∧ (getRun (after (.cutoff 0 2) cut3) 0 2).cutDone = true ∧ (getPart (after (.cutoff 0 2) cut3) 0).inst? 3 = some insQ
    -- one tick earlier the cutoff has not come
    ∧ after (.cutoff 0 2) (sched 7989 prt2 ent2) = sched 7989 prt2 ent2 := by decide +kernel

def due : EntryRun := { ent2 with cutDone := true, cutTick := 7990 }
def lau1 : State := sched 8000 prt2 due
def lau2 : State := setBe (sched 8000 { prt2 with holder := some (.ring 3) } due) 3 (some default)
def lau3 : State := sched 8000 { prt2 with insts := [] } due
/-- The command of entry 5 still holds the tiles. -/
def lau4 : State := sched 8000 { prt2 with holder := some (.entry 5) } due
def cmd1 : Cmd := newCmd lau1 0 2 img2 [ins] [(startMember img2 ins 8000).1] [] false

theorem witness_launch_starts : skipReason lau1 0 2 = none ∧ (getPart lau1 0).holder = none
    ∧ entryMembers lau1 0 2 7990 = [ins] ∧ startTest img2 cmd1 (startFcyc lau1 0 cmd1) = true
    ∧ (getPart (after (.launch 0 2) lau1) 0).holder = some (.entry 2) ∧ (getRun (after (.launch 0 2) lau1) 0 2).next = 12000
    ∧ (getRun (after (.launch 0 2) lau1) 0 2).cmd.map (fun c => (c.st, c.seg, c.launch, c.members)) = some (.run, 1, 8000, cmd1.members) := by
  decide +kernel

theorem witness_launch_preempts : skipReason lau2 0 2 = none ∧ (getPart lau2 0).kill = none
    ∧ (getPart (after (.launch 0 2) lau2) 0).kill = some ⟨.ring 3, .window, true, []⟩
    ∧ (getRun (after (.launch 0 2) lau2) 0 2).cmd = some (newCmd lau2 0 2 img2 [ins] [(startMember img2 ins 8000).1] [] false)
    ∧ skipReason lau4 0 2 = none ∧ (getPart (after (.launch 0 2) lau4) 0).holder = some (.entry 5) ∧ (getPart (after (.launch 0 2) lau4) 0).kill = none
    ∧ (getRun (after (.launch 0 2) lau4) 0 2).cmd = some (newCmd lau4 0 2 img2 [ins] [(startMember img2 ins 8000).1] [] false) := by decide +kernel

theorem witness_launch_skips : skipReason lau3 0 2 = some 0 ∧ (getRun (after (.launch 0 2) lau3) 0 2).next = 12000
    ∧ (getRun (after (.launch 0 2) lau3) 0 2).cmd = none ∧ regGet (after (.launch 0 2) lau3) (fabOff 0 0x24) = 1
    ∧ skipReason { lau1 with rst := { lau1.rst with hold := some 1 } } 0 2 = some 2 := by decide +kernel

def verifying : EntryRun := { ent2 with cmd := some { cmd1 with st := .verify } }
def waiting : EntryRun := { ent2 with cmd := some { cmd1 with st := .waitRerun } }
def startsLate : EntryRun := { ent2 with cmd := some { cmd1 with st := .start } }

theorem witness_deadline : elapsed (sched 8700 prt2 verifying) cmd1 = 700 ∧ cmd1.fair = false ∧ cmd1.deadline = 700
    ∧ (getRun (after (.deadlineTick 0 2) (sched 8700 prt2 verifying)) 0 2).cmd = none
    ∧ (getRun (after (.deadlineTick 0 2) (sched 8700 prt2 waiting)) 0 2).cmd = none
    ∧ after (.deadlineTick 0 2) (sched 8699 prt2 verifying) = sched 8699 prt2 verifying
    ∧ after (.deadlineTick 0 2) (sched 8700 prt2 { ent2 with cmd := some { cmd1 with st := .verify, fair := true } })
        = sched 8700 prt2 { ent2 with cmd := some { cmd1 with st := .verify, fair := true } } := by decide +kernel

theorem witness_rerun : cmdImage (sched 8100 prt2 waiting) 0 { cmd1 with st := .waitRerun } = some img2
    ∧ startTest img2 { cmd1 with st := .start } (startFcyc (sched 8100 prt2 waiting) 0 { cmd1 with st := .start }) = true
    ∧ quadsRun (sched 8100 prt2 waiting) 0 = true
    ∧ (getRun (after (.rerunStart 0 2) (sched 8100 prt2 startsLate)) 0 2).cmd.map (fun c => (c.st, c.seg, c.members)) = some (.run, 1, cmd1.members)
    ∧ (getRun (after (.rerunStart 0 2) (sched 8100 prt2 waiting)) 0 2).cmd.map (fun c => (c.st, c.seg, c.members, c.launch))
        = some (.run, 1, cmd1.members, 8000)
    ∧ (getPart (after (.rerunStart 0 2) (sched 8100 prt2 waiting)) 0).holder = some (.entry 2) := by decide +kernel

/-- Every tile of the partition has ended its segment. -/
def endTiles (s : State) : State := modTiles s 0 (fun t => { t with ended := true })
def segState (seg : Nat) : State :=
  endTiles (sched 8100 { prt2 with holder := some (.entry 2) } { ent2 with cmd := some { cmd1 with st := .run, seg := seg, t := 100 } })

/-- A window of entry 2 over the whole cycle. -/
def ownWindow (s : State) : State :=
  regSet (regSet (regSet s (slotTabOff 0 0 0) (put 1 24)) (slotTabOff 0 0 3) 10000) (slotTabOff 0 1 2) (put 10000 8 ||| put 2 2)

theorem witness_segments : tilesEnded (segState 3) 0 = true ∧ cmd1.arith &&& breachMask = 0 ∧ trappedTile (segState 3) 0 = none
    ∧ decisionBad img2 3 (decisionOf (segState 3) 0) = false
    ∧ waitsVerdict (segState 3) 0 (.entry 2) { cmd1 with st := .run, seg := 3, t := 100 } = false
    ∧ (getRun (after (.segmentBoundary 0) (segState 3)) 0 2).cmd = some { cmd1 with st := .run, seg := 4, t := 118 }
    ∧ decisionBad img2 5 (decisionOf (segState 5) 0) = false
    ∧ (getRun (after (.segmentBoundary 0) (segState 5)) 0 2).cmd = some { cmd1 with st := .run, seg := 4, t := 118, rank1 := 1 }
    ∧ decisionBad img2 7 (decisionOf (segState 7) 0) = false
    ∧ (getRun (after (.segmentBoundary 0) (segState 7)) 0 2).cmd.map (fun c => c.st) = some .verify
    ∧ (getPart (after (.segmentBoundary 0) (segState 7)) 0).holder = none
    ∧ ownsWindow (segState 7) 0 (.entry 2) = false ∧ (getPart (after (.segmentBoundary 0) (segState 7)) 0).returned = false
    ∧ ownsWindow (ownWindow (segState 7)) 0 (.entry 2) = true
    ∧ (getPart (after (.segmentBoundary 0) (ownWindow (segState 7))) 0).returned = true
    ∧ (getPart (after (.segmentBoundary 0) (segState 7)) 0).postings = [⟨.entry 2, 1, 0, [(3, [0, 0])]⟩] := by decide +kernel

def posted (kind : Nat) : State := sched 8200 { prt2 with postings := [⟨.entry 2, kind, 0, [(3, [0, 0])]⟩] } verifying

theorem witness_verdicts : (getPart (posted 0) 0).postings.head?.map (fun q => q.kind) = some 0
    ∧ cmdImage (posted 0) 0 { cmd1 with st := .verify } = some img2
    ∧ (getPart (after (.assayVerdict 0 .none) (posted 0)) 0).postings = []
    ∧ (getRun (after (.assayVerdict 0 .none) (posted 0)) 0 2).cmd.map (fun c => (c.st, c.members.length)) = some (.verify, 1)
    ∧ (getRun (after (.assayVerdict 0 .none) (posted 1)) 0 2).cmd = none := by decide +kernel

def tr : Traj := ⟨[1, 2], 8900, 8600, 3⟩
def relState (t : Nat) : State :=
  regSet (setNib (sched t { prt2 with pars := { par0 with sched := 2 } } { ent2 with rels := [⟨8900, some tr⟩] }) 1
    { Nib.reset with st := .run }) (nibOff 1 0x14) (put 1 31 ||| 2)

def noTraj : State := setPart (relState 8900) 0 { getPart (relState 8900) 0 with entries := [(2, { ent2 with rels := [⟨8900, none⟩] })] }

theorem witness_release : boundEngines (relState 8900) 0 2 = [1] ∧ (getNib (relState 8900) 1).st ≠ .config
    ∧ (getRun (after (.release 0 2) (relState 8900)) 0 2).rels = []
    ∧ (getNib (after (.release 0 2) (relState 8900)) 1).traj
        = some ⟨8900, 4000, stageWords img2 [1, 2] 0, stageWords img2 [1, 2] (min 1 (img2.trajStages - 1))⟩
    ∧ after (.release 0 2) (relState 8899) = relState 8899
    -- nothing committed, and no earlier plan
    ∧ (getRun noTraj 0 2).rels = [⟨8900, none⟩] ∧ fallback noTraj 0 2 img2 8900 = none ∧ boundEngines noTraj 0 2 = [1]
    ∧ (getRun (after (.release 0 2) noTraj) 0 2).rels = []
    ∧ ((getNib (after (.release 0 2) noTraj) 1).st, (getNib (after (.release 0 2) noTraj) 1).planHold) = (.hold, true) := by decide +kernel

-- best-effort work

def beImg : Image := { img2 with hdr := { img2.hdr with cls := 1 } }
def krn (e : Nat) : KernelRec := { (default : KernelRec) with entry := e, span := 20 }
def lay : Layers := { (default : Layers) with batch := 1, kernels := [krn 0, krn 9], kernelCount := 2, wsBytes := 4096 }
def mdlImg : Image := { (default : Image) with hdr := { (default : ImgHeader) with ikind := 2, cls := 1 }, layers := some lay }

/-- A partition with a best-effort problem in slot 0 and a best-effort model in slot 1. -/
def prt3 : Part := { prt2 with slots := [(0, { Slot.reset with img := some beImg }), (1, { Slot.reset with img := some mdlImg })] }
def host5 : State := regSet (setPart host0 0 prt3) (fabOff 0 0x10) 10

def solveWords : List Word := dsc 2 5 0 0x4000 64 0 [put 3 22]
def modelWords1 : List Word := dsc 2 6 0 0x4000 8 1 [1]
def solveAsk : State := holding host5 solveWords
def modelAsk : State := holding host5 modelWords1
/-- The device's GDDR6 all but full: the Blotter's region takes what the masters leave. -/
def modelFull : State := { modelAsk with mem := { modelAsk.mem with wsUsed := workspaceFree modelAsk - 4095 } }

theorem witness_best_effort_items : headOp solveAsk 0 0 5 = some ⟨0, solveWords, none, false, 0⟩ ∧ beImage solveAsk 0 0 false = .inr beImg
    ∧ (getBe (after (.beSolve 0 0) solveAsk) 0).map (fun b => (b.cmd.st, b.inst, b.model)) = some (.wait, 3, false)
    ∧ headOp modelAsk 0 0 6 = some ⟨0, modelWords1, none, false, 0⟩ ∧ beImage modelAsk 0 1 true = .inr mdlImg
    ∧ (word64 0 0).toNat = modelInputBytes lay 1 ∧ lay.wsBytes ≤ workspaceFree modelAsk
    ∧ (getBe (after (.beModel 0 0) modelAsk) 0).map (fun b => (b.cmd.st, b.items, b.model)) = some (.wait, 1, true)
    ∧ (after (.beModel 0 0) modelAsk).mem.wsUsed = 4096
    -- one byte short
    ∧ workspaceFree modelFull = 4095 ∧ (getRing (after (.beModel 0 0) modelFull) 0 0).cmp = 1
    ∧ getBe (after (.beModel 0 0) modelFull) 0 = none := by decide +kernel

/-- What a descriptor made of a ring: its command waits. -/
def beCmd (model : Bool) : BeCmd :=
  { (default : BeCmd) with model := model, slot := if model then 1 else 0, inst := 3, items := 1, addr := 0x4000, bytes := 64,
                           cmd := ringCmd (if model then 1 else 0) 0 0 }
def chosen (model : Bool) : State := setBe (holding host5 solveWords) 0 (some (beCmd model))

/-- Its instance is gone. -/
def goneS : State := setPart (chosen false) 0 { prt3 with insts := [] }

theorem witness_chosen_ring_starts : chooseBe (rollCycle (chosen false) 0) 0 = some (0, false, false)
    ∧ openTick (rollCycle (chosen false) 0) 0 0 = true ∧ throttleAllows (chosen false) (getPart (chosen false) 0) = true
    ∧ (getPart (after (.beStart 0) (chosen false)) 0).holder = some (.ring 0)
    ∧ (getBe (after (.beStart 0) (chosen false)) 0).map (fun b => (b.cmd.st, b.cmd.seg, b.firstStart.isSome)) = some (.run, 1, true)
    ∧ instGone (rollCycle (chosen false) 0) 0 (beCmd false) = false ∧ kernelsDone beImg (beCmd false) = false ∧ quadsRun (chosen false) 0 = true
    ∧ chooseBe (rollCycle goneS 0) 0 = some (0, false, false) ∧ instGone (rollCycle goneS 0) 0 (beCmd false) = true
    ∧ after (.beStart 0) goneS = dropBe (rollCycle goneS 0) 0 stAdmit 1 ∧ getBe (after (.beStart 0) goneS) 0 = none
    ∧ (getRing (after (.beStart 0) goneS) 0 0).cmp = 1
    ∧ chooseBe (rollCycle (chosen true) 0) 0 = some (0, false, false)
    ∧ (getBe (after (.beStart 0) (chosen true)) 0).map (fun b => (b.cmd.st, b.cmd.seg, b.firstStart.isSome)) = some (.run, 8, true) := by
  decide +kernel

/-- One window of 100 ticks at tick 0 of a cycle of 1000. -/
def windowed (x : Part) : State :=
  regSet (regSet (regSet (setPart host5 0 x) (slotTabOff 0 0 0) (put 1 24)) (slotTabOff 0 0 3) 1000) (slotTabOff 0 1 2) (put 100 8)
def onTiles : State := setTile (setBe (windowed { prt3 with holder := some (.ring 0) }) 0 (some (beCmd false))) 0
  { Tile.reset with running := true, flight := [⟨9, [], 0, {}, none⟩] }

/-- Entry 0, the window's owner, launches at its tick 50. -/
def ownerDue : Part := { prt3 with entries := [(0, { EntryRun.reset with on := true, next := 50 })] }

theorem witness_window_opens : inWindow (windowed prt3) 0 0 (window (windowed prt3) 0 0) = true ∧ windowCount (windowed prt3) 0 = 1
    -- with no launch of its owner in it, and with one
    ∧ ownerComes (windowed prt3) 0 (window (windowed prt3) 0 0) = false ∧ getPart (after (.windowOpen 0 0) (windowed prt3)) 0 = { prt3 with returned := true }
    ∧ ownerComes (windowed ownerDue) 0 (window (windowed ownerDue) 0 0) = true
    ∧ getPart (after (.windowOpen 0 0) (windowed { ownerDue with returned := true })) 0 = ownerDue
    ∧ (getPart (after (.windowOpen 0 0) onTiles) 0).kill = some ⟨.ring 0, .window, true, []⟩
    ∧ (getBe (after (.windowOpen 0 0) onTiles) 0).map (fun b => b.cmd.st) = some .waitRerun
    ∧ (getTile (after (.windowOpen 0 0) onTiles) 0).flight = [] := by decide +kernel

def killing : State := setRing (setTile (setPart host5 0 { prt3 with holder := some (.ring 0), kill := some ⟨.ring 0, .pause, true, [(0, 1)]⟩ }) 15
  { Tile.reset with pc := 7 }) 0 1 { rg with items := [⟨0, dsc 0 7 0 0 0 0 [], none, true, 0⟩] }

def killThenStart : State :=
  sched 8100 { prt2 with holder := some (.ring 3), kill := some ⟨.ring 3, .window, true, []⟩ }
    { ent2 with cmd := some { cmd1 with st := .start, fair := true } }

theorem witness_kill_ends : (getPart killing 0).kill = some ⟨.ring 0, .pause, true, [(0, 1)]⟩
    ∧ (getPart (after (.killEnd 0) killing) 0).holder = none ∧ (getPart (after (.killEnd 0) killing) 0).returned = false
    ∧ getTile (after (.killEnd 0) killing) 15 = Tile.reset ∧ (getRing (after (.killEnd 0) killing) 0 1).items = []
    ∧ (getRing (after (.killEnd 0) killing) 0 1).cmp = 1
    -- a Fair-copy launch waited for the tiles; and no kill is under way
    ∧ (getPart killThenStart 0).kill = some ⟨.ring 3, .window, true, []⟩ ∧ cmdImage killThenStart 0 { cmd1 with st := .start, fair := true } = some img2
    ∧ (getPart (after (.killEnd 0) killThenStart) 0).holder = some (.entry 2)
    ∧ (getRun (after (.killEnd 0) killThenStart) 0 2).cmd.map (fun c => (c.st, c.seg, c.members)) = some (.run, 1, cmd1.members)
    ∧ (getPart lau1 0).kill = none ∧ after (.killEnd 0) lau1 = lau1 := by decide +kernel

def kernelState (staged : Bool) (cursor : Nat) : State :=
  endTiles (setBe (setPart host5 0 { prt3 with holder := some (.ring 0) }) 0 (some { beCmd true with staged := staged, cursor := cursor }))

/-- The second kernel names another layer. -/
def twoLayers : State :=
  let s := setPart (kernelState true 0) 0 { getPart (kernelState true 0) 0 with
    slots := [(1, { Slot.reset with img := some { mdlImg with layers := some { lay with kernels := [krn 0, { krn 9 with layer := 1 }] } } })] }
  setBe s 0 (some { beCmd true with staged := true, cmd := { (beCmd true).cmd with arith := fpNx } })

theorem witness_kernels : modelHolder (kernelState false 0) 0 = some (0, { beCmd true with staged := false, cursor := 0 })
    ∧ lay.kernels[1]? = some (krn 9) ∧ tilesEnded (kernelState true 1) 0 = true ∧ decisionOf (kernelState true 1) 0 = 0
    ∧ (getBe (after (.kernelStart 0) (kernelState false 1)) 0).map (fun b => (b.staged, b.cmd.t)) = some (true, 20)
    ∧ (getTile (after (.kernelStart 0) (kernelState false 1)) 15).pc = 9
    ∧ (getBe (after (.kernelEnd 0) (kernelState true 0)) 0).map (fun b => (b.staged, b.cursor)) = some (false, 1)
    ∧ (getBe (after (.kernelEnd 0) (kernelState true 0)) 0).map (fun b => b.tensors) = some []
    ∧ mdlImg.cert = none ∧ trappedTile (kernelState true 0) 0 = none ∧ trappedTile (kernelState true 1) 0 = none ∧ (beCmd true).cmd.fpcw.trapMask = 0
    ∧ tilesEnded twoLayers 0 = true
    ∧ (getBe (after (.kernelEnd 0) twoLayers) 0).map (fun b => (b.tensors.map (fun e => e.1), b.keptArith, b.stageBytes)) = some ([0], fpNx, 0)
    ∧ (getBe (after (.kernelEnd 0) (kernelState true 1)) 0).map (fun b => b.cmd.st) = some .gate
    ∧ (getPart (after (.kernelEnd 0) (kernelState true 1)) 0).holder = none := by decide +kernel

/-- A best-effort solve in the gate with words 21 and 22, that waits on semaphore 5 and signals semaphore 6. -/
def passed : Member := { (default : Member) with inst := 3, final := some [21, 22], cert := some { (default : AssayCert) with pass := true } }
def gateCmd (sem : Word) (link : Bool) : BeCmd :=
  { beCmd false with sem := sem, judged := true, linkWait := link, cmd := { ringCmd 0 0 0 with st := .gate, members := [passed] } }
def gateState (n : Nat) (b : BeCmd) : State := semSet (setBe (holding host5 solveWords) 0 (some b)) 5 n
def sem56 : Word := put 1 31 ||| put 5 23 ||| put 1 22 ||| put 6 14

theorem witness_commit : gateRing (gateState 1 (gateCmd sem56 false)) 0 false = some (0, gateCmd sem56 false)
    ∧ bulkRoute (gateState 1 (gateCmd sem56 false)) 0 (gateCmd sem56 false) beImg = none
    ∧ (beStatus beImg (gateCmd sem56 false).cmd passed).1 = stOk ∧ semWait sem56 = some 5 ∧ semSignal sem56 = some 6
    ∧ getBe (after (.beCommit 0) (gateState 1 (gateCmd sem56 false))) 0 = none
    ∧ ((getPart (after (.beCommit 0) (gateState 1 (gateCmd sem56 false))) 0).inst? 3).map (fun i => (i.commits, i.lastWords))
        = some (1, some [21, 22])
    ∧ semGet (after (.beCommit 0) (gateState 1 (gateCmd sem56 false))) 5 = 0
    ∧ semGet (after (.beCommit 0) (gateState 1 (gateCmd sem56 false))) 6 = 1 := by decide +kernel

theorem witness_commit_waits : gateRing (gateState 0 (gateCmd sem56 false)) 0 false = some (0, gateCmd sem56 false)
    ∧ (getBe (after (.beCommit 0) (gateState 0 (gateCmd sem56 false))) 0).map (fun b => b.cmd.st) = some .waitRerun
    ∧ regGet (after (.beCommit 0) (gateState 0 (gateCmd sem56 false))) (fabOff 0 0x38) = 1 := by decide +kernel

/-- The same with thresholds, its outbound stream on link 2 with an active peer there. -/
def thrImg : Image := { beImg with thr := some { (default : Thresholds) with sets := [default] } }
def linkState (b : BeCmd) (freed : Nat) : State :=
  let s := setPart (setBe (holding host5 solveWords) 0 (some b)) 0 { prt3 with slots := [(0, { Slot.reset with img := some thrImg })] }
  let s1 := regSet s (strmOff 2 0) (put 1 31 ||| put 1 30 ||| put 1 25 ||| put 3 12)
  let s2 := setPartner s1 0 { Partner.reset with st := .active, kind := 3, att := .quill 2 }
  setLink s2 2 { Link.reset with st := .up, be := { LinkClass.reset with sent := 16, partnerFreed := freed } }

def afterSets : BeCmd := { gateCmd 0 true with outLink := some 2, outGrp := some default }

theorem witness_commit_over_a_link : gateRing (linkState (gateCmd 0 false) 0) 0 false = some (0, gateCmd 0 false)
    ∧ bulkRoute (linkState (gateCmd 0 false) 0) 0 (gateCmd 0 false) thrImg = some 2 ∧ bulkReady (linkState (gateCmd 0 false) 0) 2 = false
    ∧ (getBe (after (.beCommit 0) (linkState (gateCmd 0 false) 0)) 0).map (fun b => b.linkWait) = some true
    ∧ gateRing (linkState (gateCmd 0 true) 1) 0 true = some (0, gateCmd 0 true) ∧ bulkReady (linkState (gateCmd 0 true) 1) 2 = true
    ∧ getBe (after (.bulkHandover 0) (linkState (gateCmd 0 true) 1)) 0 = none
    ∧ after (.bulkHandover 0) (linkState (gateCmd 0 true) 0) = linkState (gateCmd 0 true) 0
    -- frames that waited for the commit sets
    ∧ gateRing (linkState afterSets 1) 0 true = some (0, afterSets) ∧ getBe (after (.bulkHandover 0) (linkState afterSets 1)) 0 = none
    ∧ after (.bulkHandover 0) (linkState afterSets 0) = linkState afterSets 0 := by decide +kernel

-- the tiles

/-- A PAIR word of two slots with NEXT = 0, and a control word. -/
def pairW (a b : Nat) : BitVec 128 := BitVec.ofNat 128 (a + b * 2 ^ 60)
def ctrlW (cop rest : Nat) : BitVec 128 := BitVec.ofNat 128 (2 ^ 125 + cop * 2 ^ 115 + rest)

/-- Slots of Tables 06.12a to 06.12d: lane, scalar, pivot. -/
def lane (op mask va vb rest : Nat) : Nat := op * 2 ^ 53 + mask * 2 ^ 45 + va / 32 * 2 ^ 33 + vb / 32 * 2 ^ 21 + rest
def fpSlot (cls op d a b rest : Nat) : Nat := cls * 2 ^ 58 + op * 2 ^ 53 + d / 8 * 2 ^ 39 + a / 8 * 2 ^ 25 + b / 8 * 2 ^ 11 + rest

/-- A tile with words 3, 7, 0xFFFFFFFF at 0, 0xFFFFFFFE, 5 at 32, FP64 1.5, 2.0, a signalling NaN at 64, 72, 80, and FP32 2.0 at 88. -/
def loaded : Tile :=
  ((((Tile.reset.store 0 (wordsBytes [3, 7, 0xFFFFFFFF])).store 32 (wordsBytes [0xFFFFFFFE, 5])).store 64
    (leBytes 8 0x3FF8000000000000 ++ leBytes 8 0x4000000000000000)).store 80 (leBytes 8 0x7FF0000000000001)).store 88 (leBytes 4 0x40000000)

def runCmd : Cmd := { cmd1 with st := .run, seg := 1 }

/-- Tile 0 of the partition at a word, the partition's other tiles ended. -/
def onWord (x : Part) (u : Tile) (w : BitVec 128) : State :=
  setTile (endTiles (sched 8100 { x with holder := some (.entry 2) } { ent2 with cmd := some runCmd })) 0
    { u with running := true, strokes := [(0, { (default : StoredWord) with word := w })] }
def at0 (sl : Nat) : State := onWord prt2 loaded (pairW sl 0)
def issued (s : State) (sl cls op : Nat) : Option (Part × Nat) := (issueOf s 0 sl cls op).map (fun e => (e.1.x, e.1.ops))

/-- What is in flight on tile 0 after a command: writes and flags. -/
def fly (s : State) : List (List WriteReq × Arith) := (getTile s 0).flight.map (fun f => (f.writes, f.flags))
def wr (a n v : Nat) : WriteReq := ⟨.pad 0, a, leBytes n v⟩

def macS : State := at0 (lane 1 3 0 32 0)
def accS : State := at0 (lane 2 1 0 0 (1 * 2 ^ 14))
def wbS (m : Nat) : State := onWord prt2 { loaded with acc := [(0, 11), (1, 2 ^ 79 - 1)] } (pairW (lane 3 3 96 0 (2 * 2 ^ 13 + m * 2 ^ 11)) 0)
def macFull : State := onWord prt2 { loaded with acc := [(0, 2 ^ 79 - 1)] } (pairW (lane 1 3 0 0 0) 0)

theorem witness_accumulate : (issued macS 0 0 1).isSome = true ∧ tblGet 0 (getTile (after (.mac 0 0) macS) 0).acc 0 = BitVec.ofInt 80 (-6)
    ∧ tblGet 0 (getTile (after (.mac 0 0) macS) 0).acc 1 = 35 ∧ tblGet 0 (getTile (after (.mac 0 0) macS) 0).acc 2 = 0
    ∧ fly (after (.mac 0 0) macS) = [([], 0)]
    -- at the upper bound
    ∧ (issued macFull 0 0 1).isSome = true ∧ tblGet 0 (getTile (after (.mac 0 0) macFull) 0).acc 0 = BitVec.ofInt 80 (2 ^ 79 - 1)
    ∧ fly (after (.mac 0 0) macFull) = [([], satAcc)]
    ∧ (issued accS 0 0 2).isSome = true ∧ (tblGet 0 (getTile (after (.accadd 0 0) accS) 0).acc 0).toInt = align 3 1 := by decide +kernel

theorem witness_writeback : (issued (wbS 0) 0 0 3).isSome = true ∧ roundOfCode 0 = some .rne
    ∧ fly (after (.accWb 0 0) (wbS 0)) = [([wr 96 4 3, wr 100 4 0x7FFFFFFF], satWb)]
    -- the rounding of a tie and the bounds of the range
    ∧ accWriteback 10 2 .rne = (2, false) ∧ accWriteback 14 2 .rne = (4, false) ∧ accWriteback 10 2 .rha = (3, false)
    ∧ accWriteback (BitVec.ofInt 80 (-10)) 2 .rdn = (0xFFFFFFFD, false) ∧ accWriteback (BitVec.ofInt 80 (-10)) 2 .rtz = (0xFFFFFFFE, false)
    ∧ accWriteback (2 ^ 31 - 1) 0 .rne = (0x7FFFFFFF, false) ∧ accWriteback (2 ^ 31) 0 .rne = (0x7FFFFFFF, true)
    ∧ accWriteback (BitVec.ofInt 80 (-2 ^ 31)) 0 .rne = (0x80000000, false)
    ∧ accWriteback (BitVec.ofInt 80 (-2 ^ 31 - 1)) 0 .rne = (0x80000000, true) ∧ accWriteback 1 (-4) .rne = (16, false) := by decide +kernel

def mwSlot (op rest : Nat) : Nat := lane op 1 0 32 rest

theorem witness_lane_strokes : (issued (at0 (lane 4 1 0 32 0)) 0 0 4).isSome = true
    ∧ ((issueOf (at0 (lane 4 1 0 32 0)) 0 0 0 4).bind (fun e => effTmac e.1)).isSome = true
    ∧ (issued (at0 (lane 5 1 96 0 0)) 0 0 5).isSome = true ∧ fly (after (.twb 0 0) (at0 (lane 5 1 96 0 0))) = [([⟨.pad 0, 96, List.replicate 16 0⟩], 0)]
    -- three-word sum, difference and product of (3, 0xFFFFFFFE, 0x3FF80000...) are computed word by word
    ∧ fly (after (.mwadd 0 0) (at0 (mwSlot 6 0))) = [([wr 0 4 1, wr 32 4 0xFFFFFFFF, wr 64 4 0], 0)]
    ∧ fly (after (.mwsub 0 0) (at0 (mwSlot 7 0))) = [([wr 0 4 5, wr 32 4 0xFFFFFFFD, wr 64 4 0], 0)]
    ∧ (fly (after (.mwmul 0 0) (at0 (mwSlot 8 0)))).length = 1
    ∧ fly (after (.mwext 0 0) (at0 (mwSlot 9 (2 ^ 19)))) = [([wr 0 4 0xFFFFFFFE, wr 32 4 0xFFFFFFFF, wr 64 4 0xFFFFFFFF], 0)]
    ∧ (fly (after (.mwnarrow 0 0) (at0 (mwSlot 10 0)))).length = 1 := by decide +kernel

theorem witness_scalar_strokes : fly (after (.fadd 0 0) (at0 (fpSlot 1 1 96 64 72 0))) = [([wr 96 8 0x400C000000000000], 0)]
    ∧ fly (after (.fsub 0 0) (at0 (fpSlot 1 2 96 64 72 0))) = [([wr 96 8 0xBFE0000000000000], 0)]
    ∧ fly (after (.fmul 0 0) (at0 (fpSlot 1 3 96 64 72 0))) = [([wr 96 8 0x4008000000000000], 0)]
    ∧ fly (after (.fma 0 0) (at0 (fpSlot 1 4 72 64 72 0))) = [([wr 72 8 0x4014000000000000], 0)]
    ∧ fly (after (.min 0 0) (at0 (fpSlot 1 5 96 64 72 0))) = [([wr 96 8 0x3FF8000000000000], 0)]
    ∧ fly (after (.max 0 0) (at0 (fpSlot 1 6 96 64 72 0))) = [([wr 96 8 0x4000000000000000], 0)]
    ∧ fly (after (.cmpeq 0 0) (at0 (fpSlot 1 7 96 64 72 0))) = [([wr 96 8 0], 0)]
    ∧ fly (after (.cmplt 0 0) (at0 (fpSlot 1 8 96 64 72 0))) = [([wr 96 8 1], 0)]
    ∧ fly (after (.cmple 0 0) (at0 (fpSlot 1 9 96 72 72 0))) = [([wr 96 8 1], 0)]
    ∧ fly (after (.cvt 0 0) (at0 (fpSlot 1 10 96 64 0 0))) = [([wr 96 4 0x3FC00000], 0)] := by decide +kernel

theorem witness_pivot_and_transfer : fly (after (.recip 0 0) (at0 (fpSlot 2 1 96 72 0 0))) = [([wr 96 8 0x3FE0000000000000], 0)]
    ∧ fly (after (.rsqrt 0 0) (at0 (fpSlot 2 2 96 88 0 (1 * 2 ^ 9)))) = [([wr 96 4 0x3F3504F3], fpNx)]
    ∧ fly (after (.div 0 0) (at0 (fpSlot 2 3 96 64 72 0))) = [([wr 96 8 0x3FE8000000000000], 0)]
    ∧ fly (after (.lcopy 0 0) (at0 (3 * 2 ^ 58 + 2 * 2 ^ 53 + 1 * 2 ^ 35 + 3 * 2 ^ 23)))
        = [([⟨.pad 0, 96, wordsBytes [0xFFFFFFFE, 5, 0, 0, 0, 0, 0, 0]⟩], 0)]
    ∧ ((getTile (after (.dmard 0 0) (at0 (3 * 2 ^ 58 + 3 * 2 ^ 53 + 2 ^ 20 * 3))) 0).flight.map (fun f => f.read.isSome)) = [true]
    ∧ (fly (after (.dmawr 0 0) (at0 (3 * 2 ^ 58 + 4 * 2 ^ 53 + 2 * 2 ^ 32 + 2 ^ 20)))).map (fun e => e.1.map (fun w => (w.place, w.addr)))
        = [[(.image, 64)]] := by decide +kernel

/-- A route from tile 0 to tile 15, and a best-effort command whose packet goes there. -/
def rtImg : Image := { img2 with routes := [{ (default : RouteRec) with route := 1 }, { (default : RouteRec) with route := 1, row := 1 }] }
def routed : State := onWord { prt2 with slots := [(0, { Slot.reset with img := some rtImg })] } loaded
  (pairW (3 * 2 ^ 58 + 1 * 2 ^ 53 + 1 * 2 ^ 47 + 3 * 2 ^ 23) 0)
def packets : State :=
  setBe (setPart (onWord prt2 loaded (pairW (3 * 2 ^ 58 + 5 * 2 ^ 53 + 1 * 2 ^ 49) 0)) 0
    { prt3 with holder := some (.ring 0), slots := [(0, { Slot.reset with img := some beImg })] }) 0
    (some { beCmd false with cmd := { ringCmd 0 0 0 with st := .run } })

theorem witness_circuit_and_packet : (issued routed 0 3 1).isSome = true ∧ (getTile (after (.cxfer 0 0) routed) 0).routes = [1]
    ∧ (fly (after (.cxfer 0 0) routed)).map (fun e => e.1.map (fun w => (w.place, w.addr))) = [[(.pad 15, 96)]]
    ∧ (issued packets 0 3 5).isSome = true
    ∧ (fly (after (.pkt 0 0) packets)).map (fun e => e.1.map (fun w => (w.place, w.bytes.length))) = [[(WritePlace.packet 0 15, 32)]] := by decide +kernel

/-- With the other slot issued before, the next word follows; with it still to issue, the word stays. -/
def halfDone : State := onWord prt2 { loaded with done1 := true } (pairW (lane 1 1 0 32 0) 0)

theorem witness_issue_in_pairs : (getTile (after (.mac 0 0) halfDone) 0).pc = 1 ∧ (getTile (after (.mac 0 0) halfDone) 0).cyc = 1
    ∧ (getTile (after (.mac 0 0) macS) 0).pc = 0 ∧ (getTile (after (.mac 0 0) macS) 0).done0 = true
    ∧ (issued (onWord prt2 { loaded with done0 := true } (pairW 0 0)) 1 0 0).isSome = true
    ∧ (getTile (after (.strokeNop 0 1) (onWord prt2 { loaded with done0 := true } (pairW 0 0))) 0).pc = 1 := by decide +kernel

theorem witness_nan : (issueOf (at0 (fpSlot 1 1 96 80 72 0)) 0 0 1 1).map (fun e => (slP e.1.ops, e.1.t.value (slA e.1.ops) 8))
      = some (false, 0x7FF0000000000001)
    ∧ fly (after (.fadd 0 0) (at0 (fpSlot 1 1 96 80 72 0))) = [([wr 96 8 0x7FF8000000000001], fpNv)]
    ∧ fly (after (.fsub 0 0) (at0 (fpSlot 1 2 96 72 80 0))) = [([wr 96 8 0x7FF8000000000001], fpNv)]
    ∧ fly (after (.fma 0 0) (at0 (fpSlot 1 4 80 64 72 0))) = [([wr 80 8 0x7FF8000000000001], fpNv)] := by decide +kernel

def retiring : State := onWord prt2 { loaded with cyc := 9, flight := [⟨5, [wr 96 4 77], satWb, {}, none⟩] } (pairW 0 0)
/-- A best-effort command's tile with arrivals waiting, operations in flight and flits to send. -/
def boxed (fl : List InFlight) (more : List Flit) : State :=
  setTile packets 0 { getTile packets 0 with inbox := .data 0 64 [1, 2] :: more, flight := fl, sending := [.header 15 96 1, .data 15 96 [9]] }
/-- A scheduled write of bank 4, due now. -/
def due64 : InFlight := ⟨0, [wr 64 4 7], 0, {}, none⟩

theorem witness_retire : (tileRun retiring 0).isSome = true ∧ retireTurn retiring 0 5 = true
    ∧ memBytes (getTile (after (.opRetire 0 0) retiring) 0).pad 96 4 = leBytes 4 77 ∧ (getTile (after (.opRetire 0 0) retiring) 0).flight = []
    ∧ (getCmd (after (.opRetire 0 0) retiring) 0 (.entry 2)).map (fun c => c.arith) = some satWb
    ∧ (tileRun (boxed [] []) 0).map (fun e => (e.1, e.2.1)) = some (0, .ring 0) ∧ bankBusy (boxed [] []) (getPart packets 0) 0 0 64 2 = false
    ∧ memBytes (getTile (after (.packetBankWrite 0) (boxed [] [.data 0 96 [3]])) 0).pad 64 2 = [1, 2]
    ∧ (getTile (after (.packetBankWrite 0) (boxed [] [.data 0 96 [3]])) 0).inbox = [.data 0 96 [3]]
    ∧ bankBusy (boxed [due64] []) (getPart packets 0) 0 0 64 2 = true ∧ (getTile (boxed [due64] []) 0).cyc = 0
    ∧ (getTile (after (.packetBankWrite 0) (boxed [due64] [])) 0).pad = (getTile (boxed [due64] []) 0).pad
    ∧ (getTile (after (.packetBankWrite 0) (boxed [due64] [])) 0).inbox = [.data 0 64 [1, 2]]
    ∧ (getPart packets 0).pars.tiles.Nodup ∧ 0 ∈ (getPart packets 0).pars.tiles
    ∧ (getTile (after (.packetBankWrite 0) (boxed [] [])) 0).sending = [.data 15 96 [9]]
    ∧ tblGet [] (getTile (after (.packetBankWrite 0) (boxed [] [])) 0).inputs 4 = [.header 15 96 1] := by decide +kernel

def onCtrl (u : Tile) (cop rest : Nat) : State := onWord prt2 u (ctrlW cop rest)
def fimg : Image := { img2 with fams := [⟨4, 3, 10, [40, 50, 60]⟩] }
def famAt (idx : Word) : State :=
  onWord { prt2 with slots := [(0, { Slot.reset with img := some fimg })] } (Tile.reset.store 16 (wordsBytes [idx])) (ctrlW 4 (4 * 2 ^ 103 + 2 * 2 ^ 89))

theorem witness_control_words : (ctrlOf (onCtrl loaded 0 (5 * 2 ^ 99)) 0 0).isSome = true
    ∧ (getTile (after (.idle 0) (onCtrl loaded 0 (5 * 2 ^ 99))) 0).cyc = 6
    ∧ tblGet 0 (getTile (after (.accopen 0) (onCtrl { loaded with acc := [(0, 9), (1, 9)] } 1 (1 * 2 ^ 107 + 8 * 2 ^ 100))) 0).acc 0 = 0
    ∧ tblGet 0 (getTile (after (.accopen 0) (onCtrl { loaded with acc := [(0, 9), (1, 9)] } 1 (1 * 2 ^ 107 + 8 * 2 ^ 100))) 0).acc 1 = 9
    ∧ tblGet 0 (getTile (after (.accopen 0) (onCtrl loaded 1 (1 * 2 ^ 107 + 8 * 2 ^ 100))) 0).accF 0 = 8
    ∧ (getTile (after (.fpbar 0) (onCtrl { loaded with lastBar := 9 } 2 0)) 0).lastBar = 0
    ∧ (getTile (after (.loop 0) (onCtrl loaded 3 (3 * 2 ^ 99 + 7 * 2 ^ 88))) 0).loops = [⟨1, 7, 2⟩]
    -- within a loop, at its last word with a run left, and with none
    ∧ (let u := getTile (after (.idle 0) (onCtrl { loaded with loops := [⟨9, 1, 2⟩] } 0 0)) 0; (u.pc, u.cyc, u.loops) = (1, 1, [⟨9, 1, 2⟩]))
    ∧ (let u := getTile (after (.idle 0) (onCtrl { loaded with loops := [⟨9, 0, 2⟩] } 0 0)) 0; (u.pc, u.cyc, u.loops) = (9, 1, [⟨9, 0, 1⟩]))
    ∧ (let u := getTile (after (.idle 0) (onCtrl { loaded with loops := [⟨9, 0, 0⟩] } 0 0)) 0; (u.pc, u.cyc, u.loops) = (1, 1, []))
    ∧ after (.fpbar 0) (onCtrl { loaded with flight := [due64] } 2 0) = onCtrl { loaded with flight := [due64] } 2 0
    ∧ after (.segend 0) (onCtrl { loaded with flight := [due64] } 6 0) = onCtrl { loaded with flight := [due64] } 6 0
    ∧ (let u := getTile (after (.famret 0) (onCtrl { loaded with ret := some 8, loops := [⟨3, 8, 1⟩] } 5 0)) 0; (u.pc, u.loops) = (3, [⟨3, 8, 0⟩]))
    -- the last member of the family, and the return behind the call
    ∧ (getTile (after (.famcall 0) (famAt 2)) 0).pc = 60 ∧ (getTile (after (.famcall 0) (famAt 2)) 0).ret = some 0
    ∧ (getTile (after (.famret 0) (onCtrl { loaded with ret := some 8 } 5 0)) 0).pc = 9
    ∧ (getTile (after (.segend 0) (onCtrl loaded 6 (1 * 2 ^ 114))) 0).decision = some 3
    ∧ (getTile (after (.segend 0) (onCtrl loaded 6 (1 * 2 ^ 114))) 0).ended = true := by decide +kernel

def trapped : State :=
  onWord { prt2 with slots := [(0, { Slot.reset with img := some { img2 with cert := none } })] } { loaded with trap := fpNv } (ctrlW 2 0)

theorem witness_chain_ends : (ctrlOf trapped 0 2).map (fun e => (e.1, e.2.1)) = some (0, .entry 2)
    ∧ (getRun (after (.fpbar 0) trapped) 0 2).cmd = none ∧ (getPart (after (.fpbar 0) trapped) 0).holder = none
    ∧ regGet (after (.fpbar 0) trapped) (fabOff 0 0x30) = 1 ∧ (after (.fpbar 0) trapped).anl.index = 1
    -- one past the last member
    ∧ (ctrlOf (famAt 3) 0 4).isSome = true ∧ (getRun (after (.famcall 0) (famAt 3)) 0 2).cmd = none
    ∧ (getPart (after (.famcall 0) (famAt 3)) 0).holder = none ∧ regGet (after (.famcall 0) (famAt 3)) (fabOff 0 0x2C) = 1
    ∧ (after (.famcall 0) (famAt 3)).anl.index = 1 := by decide +kernel

-- images

def bindAsk : State := holding host4 (dsc 0 2 0 0x4000 1024 1 [])
def loadingS : State := setSlot (holding host4 (dsc 0 2 0 0x4000 1024 1 [])) 0 1 { Slot.reset with loading := some (img, 0, 0) }

def inHoldS (s : State) : State := { s with rst := { s.rst with hold := some 1 } }

theorem witness_bind : headOp bindAsk 0 0 2 = some ⟨0, dsc 0 2 0 0x4000 1024 1 [], none, false, 0⟩
    -- a page of zeros is no image
    ∧ bindChecks bindAsk 0 1 (memBytes [] 0x4000 1024) = .inl 2 ∧ (getRing (after (.imageBind 0 0) bindAsk) 0 0).cmp = 1
    ∧ inHold bindAsk = false ∧ inHold (inHoldS bindAsk) = true ∧ headOp (inHoldS bindAsk) 0 0 2 = some ⟨0, dsc 0 2 0 0x4000 1024 1 [], none, false, 0⟩
    ∧ after (.imageBind 0 0) (inHoldS bindAsk) = inHoldS bindAsk
    ∧ (getSlot loadingS 0 1).loading = some (img, 0, 0) ∧ openTick loadingS 0 0 = true
    ∧ (getSlot (after (.bindComplete 0 1) loadingS) 0 1).img = some img ∧ (getSlot (after (.bindComplete 0 1) loadingS) 0 1).loading = none
    ∧ (getRing (after (.bindComplete 0 1) loadingS) 0 0).items = [] := by decide +kernel

def unbindWords : List Word := dsc 0 3 0 0 0 0 []
def unbindAsk (x : Part) : State := setPart (holding host4 unbindWords) 0 x
def unbindWait (x : Part) : State := setSlot (setPart (holding host4 unbindWords) 0 x) 0 0 { Slot.reset with img := some img, unbinding := some (0, 0) }
/-- A command of the slot runs for an entry that was since taken off. -/
def busyPart : Part := { prt with entries := [(2, { EntryRun.reset with cmd := some cmd0 })] }

def queuedUnbind : State := setBe (unbindAsk prt) 8 (some { beCmd false with part := 0, slot := 0, ctx := 1 })

theorem witness_unbind : headOp (unbindAsk prt) 0 0 3 = some ⟨0, unbindWords, none, false, 0⟩ ∧ (upTo 64).any (entryOn (unbindAsk prt) 0) = false
    ∧ isSource prt 0 = false ∧ slotBusy (unbindAsk prt) 0 0 = false ∧ (getSlot (after (.imageUnbind 0 0) (unbindAsk prt)) 0 0).img = none
    ∧ (getPart (after (.imageUnbind 0 0) (unbindAsk prt)) 0).insts = []
    ∧ (upTo 64).any (entryOn (unbindAsk busyPart) 0) = false ∧ slotBusy (unbindAsk busyPart) 0 0 = true
    ∧ getSlot (after (.imageUnbind 0 0) (unbindAsk busyPart)) 0 0 = { Slot.reset with img := some img, unbinding := some (0, 0) }
    -- a best-effort command of the slot that was not running is dropped with it
    ∧ getBe queuedUnbind 8 = some { beCmd false with part := 0, slot := 0, ctx := 1 } ∧ slotBusy queuedUnbind 0 0 = false
    ∧ getBe (after (.imageUnbind 0 0) queuedUnbind) 8 = none ∧ (getSlot (after (.imageUnbind 0 0) queuedUnbind) 0 0).img = none
    ∧ slotBusy (unbindWait prt) 0 0 = false ∧ (getSlot (after (.unbindAtBoundary 0 0) (unbindWait prt)) 0 0).img = none
    ∧ slotBusy (unbindWait busyPart) 0 0 = true ∧ after (.unbindAtBoundary 0 0) (unbindWait busyPart) = unbindWait busyPart := by decide +kernel

-- partitions, power and errors

/-- A partition's registers: one column's upper half, one share unit, Store 64, TICKS 10, one lane, a cycle of 1000. -/
def partRegs (s : State) : State :=
  regSet (regSet (regSet (regSet (regSet s (fabOff 0 0) (put 1 16 ||| put 1 12)) (fabOff 0 4) (put 64 16 ||| 1)) (fabOff 0 0x10) 10) 0x300000
    (put 1 4)) (slotTabOff 0 0 3) 1000

theorem witness_enable : isReady (partRegs rdy) = true ∧ paramCause (partRegs rdy) 0 (regParams (partRegs rdy) 0) = none
    ∧ (getPart (after (.enable 0) (partRegs rdy)) 0).on = true ∧ (getPart (after (.enable 0) (partRegs rdy)) 0).pars.tiles.length = 8
    ∧ paramCause rdy 0 (regParams rdy 0) = some 1 ∧ after (.enable 0) rdy = recordErr rdy (fabErr 0) 1 := by decide +kernel

def onPart : State := setPart (partRegs rdy) 0 { Part.reset with on := true, pars := regParams (partRegs rdy) 0 }
def usedBy1 : State := setCtx onPart 63 { cx with part := 0 }
def usedBy2 : State := setSlot onPart 0 7 { Slot.reset with img := some img }
def usedBy3 : State := regSet onPart (launchOff 0 63 6) (put 1 15)

theorem witness_disable_refused : onPart.rst.phase ≠ .bootFail ∧ (getPart onPart 0).on = true ∧ (getPart onPart 0).reshaping = false
    ∧ after (.disable 0) usedBy1 = recordErr usedBy1 (fabErr 0) 8 ∧ after (.disable 0) usedBy2 = recordErr usedBy2 (fabErr 0) 8
    ∧ entryOn usedBy3 0 63 = true ∧ after (.disable 0) usedBy3 = recordErr usedBy3 (fabErr 0) 8 := by decide +kernel

def wider : State := regSet usedBy2 (fabOff 0 0) (put 2 16 ||| put 1 12)
def shaping : State := setPart onPart 0 { getPart onPart 0 with reshaping := true, pendingPars := true }

theorem witness_partition_requests : disableBusy onPart 0 = false ∧ getPart (after (.disable 0) onPart) 0 = Part.reset
    ∧ reshapeRefused onPart 0 (regParams onPart 0) = false ∧ (getPart (after (.reshape 0) onPart) 0).reshapeAsked = true
    -- a bound image and another shape
    ∧ reshapeRefused wider 0 (regParams wider 0) = true ∧ after (.reshape 0) wider = recordErr wider (fabErr 0) 10
    ∧ after (.disable 0) shaping = recordErr shaping (fabErr 0) 12 ∧ after (.reshape 0) shaping = recordErr shaping (fabErr 0) 12 := by
  decide +kernel

/-- A request and a best-effort command in VERIFY. -/
def askedS : State :=
  setBe (setPart onPart 0 { getPart onPart 0 with reshapeAsked := true }) 8
    (some { (default : BeCmd) with ctx := 1, cmd := { (default : Cmd) with st := .verify } })
/-- Re-shapes that bring in the registers' parameters: the same, and ones that no partition can have. -/
def seating : State := setPart onPart 0 { getPart onPart 0 with reshaping := true, pendingPars := true, applyPars := true }
def seatingBad : State := regSet seating (fabOff 0 0) 0
/-- A tile's spare waits for the host's word. -/
def pendS : State :=
  regSet { onPart with anl := { onPart.anl with pending := [⟨0, 0, 1⟩] } } (anlOff 8) 1

theorem witness_reshapes : (affectedParts askedS).getLsbD 0 = true ∧ lcBusy askedS 0 = false
    ∧ (getPart (after .reshapeStart askedS) 0).reshaping = true ∧ (getPart (after .reshapeStart askedS) 0).reshapeAsked = false
    ∧ (getPart (after .reshapeStart askedS) 0).applyPars = true
    ∧ (getBe askedS 8).map (fun b => (b.part, b.cmd.st)) = some (0, .verify) ∧ (getBe (after .reshapeStart askedS) 8).map (fun b => b.cmd.st) = some .waitRerun
    ∧ (getPart (after .reshapeEnd shaping) 0).reshaping = false ∧ (getPart (after .reshapeEnd shaping) 0).pendingPars = true
    ∧ (getPart seating 0).kill = none ∧ (getPart (after .reshapeEnd seating) 0).reshaping = false
    ∧ (getPart (after .reshapeEnd seating) 0).pendingPars = false ∧ (getPart (after .reshapeEnd seating) 0).applyPars = false
    ∧ (getPart (after .reshapeEnd seating) 0).pars.geom = regGet seating (fabOff 0 0)
    ∧ (getPart (after .reshapeEnd seatingBad) 0).pendingPars = true ∧ (getPart (after .reshapeEnd seatingBad) 0).pars.geom = (getPart seatingBad 0).pars.geom
    ∧ needsReshape ⟨0, 0, 1⟩ = true ∧ unitMode pendS ⟨0, 0, 1⟩ = 1 ∧ (after .anlGo pendS).anl.goAsked = true := by decide +kernel

def warned (b : Bool) (h : Option Nat) (ph : Phase) : State := { lau2 with rst := { lau2.rst with vddkWarn := b, hold := h, phase := ph } }

theorem witness_hold : isReady (warned true none .ready) = true ∧ (warned true none .ready).rst.hold = none
    ∧ (getPart lau2 0).holder = some (.ring 3) ∧ (getPart lau2 0).kill = none
    ∧ (beginKill lau2 0 .hold true []).parts.map (fun e => e.2.kill) = [some ⟨.ring 3, .hold, true, []⟩]
    ∧ (after .holdExit (warned false (some 9) .ready)).rst.hold = none
    ∧ after .holdExit (warned true (some 9) .ready) = warned true (some 9) .ready
    ∧ (after .vddkWarnRise (warned false none .coldRelease)).rst.paused = true
    ∧ (after .vddkWarnClear (warned true none .ready)).rst.vddkWarn = false ∧ (after .bootPauseEnd (warned false none .coldRelease)).rst.paused = false := by
  decide +kernel

def quadOff (resident : Bool) (wakes : Nat) : State :=
  let blk : TileBlock := { (default : TileBlock) with words := [0] }
  let s := setPart rdy 0 (if resident then { prt2 with slots := [(0, { Slot.reset with img := some { img2 with strokes := [blk] } })] } else prt2)
  { s with pwr := { s.pwr with doms := [(0, .off)], wakes := wakes } }
def reloading : State := { rdy with pwr := { rdy.pwr with doms := [(0, .off)], reloads := [0] } }

theorem witness_power_domains : domAllowed rdy 5 .off = true ∧ depthOf (domState rdy 5) < depthOf .off
    ∧ domState (after (.powerDomainLower 5 .off) rdy) 5 = .off ∧ domAllowed rdy 95 .off = false
    ∧ after (.powerDomainLower 95 .off) rdy = rdy ∧ after (.powerDomainLower 5 .run) rdy = rdy
    ∧ domState (after (.powerDomainWake 64) { rdy with pwr := { rdy.pwr with doms := [(64, .gated)] } }) 64 = .run
    ∧ (quadOff false 7).lt - (quadOff false 7).pwr.wakeTick < 400 ∧ after (.powerDomainWake 0) (quadOff false 8) = quadOff false 8
    ∧ quadResident (quadOff false 7) 0 = false ∧ domState (after (.powerDomainWake 0) (quadOff false 7)) 0 = .run
    ∧ quadResident (quadOff true 7) 0 = true ∧ domState (after (.powerDomainWake 0) (quadOff true 7)) 0 = .off
    ∧ (after (.powerDomainWake 0) (quadOff true 7)).pwr.reloads = [0]
    ∧ domState (after (.strokeReload 0) reloading) 0 = .run ∧ (after (.strokeReload 0) reloading).pwr.reloads = [] := by decide +kernel

def temps (n : Int) : List Int := n :: List.replicate 31 0
def hot (k : Nat) (n : Int) : State := setThrottle { rdy with pwr := { rdy.pwr with readings := temps n } } k
def cooled (now : Nat) : State := { rdy with lt := now, pwr := { rdy.pwr with safe := true, coolSince := some 5 } }

theorem witness_temperature : (temps 400).length = 32 ∧ tjCrit rdy ≤ tjMax (temps 400) ∧ tjMax (temps 399) < tjCrit rdy
    ∧ (after (.tjSample (temps 399)) rdy).pwr.safe = false ∧ (after (.tjSample (temps 399)) rdy).pwr.readings = temps 399
    ∧ tjWarn rdy = 360 ∧ throttle (after .throttleStep (hot 8 360)) = 8 ∧ throttle (after .throttleStep (hot 3 360)) = 4
    ∧ throttle (after .throttleStep (hot 3 347)) = 2 ∧ throttle (after .throttleStep (hot 0 347)) = 0
    ∧ (hot 3 347).pwr.estimate ≤ capMw (hot 3 347) ∧ (after (.powerEstimate 9) rdy).pwr.estimate = 9
    ∧ (after .pwrSafeClr (cooled 40000005)).pwr.safe = false ∧ after .pwrSafeClr (cooled 40000004) = cooled 40000004 := by decide +kernel

def held : State := setCtx host4 0 cx

def inWorkspace : State := setBe modelAsk 0 (some { beCmd true with ws := 4096, wsAt := 0 })

theorem witness_errors : (after (.uncorrectableError (.scratchpad 0) 64) rdy).mem.ueCount = 1
    ∧ (after (.uncorrectableError (.scratchpad 0) 64) rdy).mem.log.map (fun e => e.addr) = [64]
    ∧ (getPart busy 0).inst? 3 = some ins ∧ (getCtx busy ins.ctx).on = true
    ∧ (getRing (after (.uncorrectableError (.primary 0 3) 8) busy) 0 0).items = []
    ∧ (getSlot host4 0 0).img.isSome = true ∧ (getSlot (after (.uncorrectableError (.master 0 0) 8) host4) 0 0).masterBad = true
    -- the last and the first address of a workspace of 4,096 bytes
    ∧ workspaceCtx inWorkspace 0 63 = some 0 ∧ workspaceCtx inWorkspace 0 64 = none ∧ (getRing inWorkspace 0 0).items ≠ []
    ∧ (getRing (after (.uncorrectableError (.workspace 0) 63) inWorkspace) 0 0).items = []
    ∧ (getRing (after (.uncorrectableError (.workspace 0) 64) inWorkspace) 0 0).items ≠ []
    ∧ tblGet 0 (after (.scrub 54 8 true) rdy).mem.ce 54 = 1 ∧ after (.scrub 54 8 false) rdy = rdy := by decide +kernel

def unproven : State := { rdy with assay := { rdy.assay with proven := 0xFFFE, clockOk := false } }

theorem witness_known_answers : (upTo 16).all (fun p => (getPart unproven p).postings == []) = true
    ∧ (after (.assayKat 0 true) unproven).assay.proven = 0xFFFF ∧ (after (.assayKat 0 true) unproven).assay.clockOk = true
    ∧ (after (.assayKat 0 false) rdy).assay.faulty = 1 ∧ (after .assayClockFault rdy).assay.proven = 0
    ∧ tilePart host5 0 = some 0 ∧ domState host5 (tileQuad host5 0) = .run ∧ openTick host5 0 0 = true
    ∧ tblGet 0 (after (.tileKat 0 false) host5).anl.kat (physTile host5 0) = 1
    ∧ tblGet 0 (after (.tileKat 0 true) (after (.tileKat 0 false) host5)).anl.kat (physTile host5 0) = 0 := by decide +kernel

-- the Nib engines

/-- Engine 2: one measurement of stream 0, one output on stream 1, a sample of 400 ticks with a tolerance of 10. -/
def nibRegs (s : State) : State :=
  regSet (regSet (regSet (regSet (regSet s (nibOff 2 0x00) (put 1 26 ||| put 1 21)) (nibOff 2 0x04) 400) (nibOff 2 0x08) 10)
    (nibOff 2 0x10) 1) (nibOff 2 0x100) (put 1 15)
def eng (st : NibState) : Nib := { Nib.reset with st := st, coef0 := [(4496, 1)], coef1 := [(4496, 1)], out := [5] }
def nibS (st : NibState) : State := setNib (regSet (nibRegs rdy) (nibOff 2 0x180) (put 1 15)) 2 (eng st)

def notReady : State := { nibS .config with rst := { (nibS .config).rst with phase := .warmRelease } }
/-- A swap at count 5. -/
def laterSwap : State := regSet (nibS .config) (nibOff 2 0x48) 5

theorem witness_engine_requests : armCause (nibS .config) 2 = none ∧ (getNib (after (.arm 2) (nibS .config)) 2).st = .armed
    ∧ armCause rdy 2 = some 1 ∧ after (.arm 2) rdy = nibRefuse rdy 2 1
    ∧ isReady (nibS .config) = true ∧ isReady notReady = false ∧ after (.arm 2) notReady = nibRefuse notReady 2 8
    ∧ (after (.stop 2) (nibS .ramp)) = setNib (nibS .ramp) 2 { eng .ramp with stopAsked := true }
    ∧ after (.stop 2) (nibS .config) = nibRefuse (nibS .config) 2 7 ∧ nibCountNow (nibS .config) 2 = 0
    ∧ bankOk laterSwap 2 (eng .config).idle = true ∧ (getNib (after (.swap 2) laterSwap) 2).swapAt = some 5
    ∧ (getNib (after (.rearm 2) (nibS .safe)) 2).st = .armed ∧ after (.rearm 2) (nibS .run) = nibRefuse (nibS .run) 2 7
    ∧ (getNib (after (.stop 2) (nibS .coast)) 2).st = .ramp ∧ after (.stop 2) (nibS .safe) = nibRefuse (nibS .safe) 2 7
    ∧ bankOk (nibS .run) 2 (eng .run).idle = true ∧ (getNib (after (.swap 2) (nibS .run)) 2).swapAt = some 0
    ∧ bankOk (nibS .config) 2 (eng .config).idle = true ∧ (getNib (after (.swap 2) (nibS .config)) 2).bank = true
    ∧ bankOk (nibS .run) 2 [] = false
    ∧ after (.swap 2) (setNib (nibS .run) 2 { eng .run with coef1 := [] }) = nibRefuse (setNib (nibS .run) 2 { eng .run with coef1 := [] }) 2 5 := by
  decide +kernel

/-- A running engine that expects its trigger at 1000, with a frame captured at `c`, at tick `now`. -/
def frameAt (c : Nat) : NibFrame := ⟨c, none, 1, [0]⟩
def sampling (fs : List NibFrame) (now : Nat) : State :=
  let s := setNib (nibS .run) 2 { eng .run with expected := some 1000, triggers := fs, xi := ⟨-128, []⟩ }
  { s with tu := { s.tu with t := BitVec.ofNat 96 ((5 * 2 ^ 32 * now + 1) / 2) } }

/-- The engine in CONFIG and in ARMED with ARM_COUNT 500, a frame of tick `c` waiting. -/
def beforeRun (st : NibState) (c : Nat) : State := setNib (regSet (nibS st) (nibOff 2 0x40) 500) 2 { eng st with triggers := [frameAt c] }

theorem witness_samples : nibLate (sampling [] 0) 2 = 10 ∧ nibSample (sampling [] 0) 2 = 400
    ∧ (getNib (after (.nibSample 2) (sampling [frameAt 989] 989)) 2).triggers = []
    ∧ wbit (regGet (after (.nibSample 2) (sampling [frameAt 989] 989)) (nibOff 2 0x54)) nfEarly = true
    ∧ after (.nibSample 2) (sampling [frameAt 1010] 1010) = sampling [frameAt 1010] 1010
    ∧ (getNib (after (.nibSample 2) (sampling [frameAt 990] 990)) 2).expected = some 1390
    ∧ (getNib (after (.nibSample 2) (sampling [frameAt 1009] 1009)) 2).expected = some 1409
    ∧ nibCountNow (sampling [] 1010) 2 = 1010 ∧ (getNib (after (.freeRunSlot 2) (sampling [] 1010)) 2).expected = some 1410
    ∧ wbit (regGet (after (.freeRunSlot 2) (sampling [frameAt 1010] 1010)) (nibOff 2 0x54)) nfMissed = true
    ∧ ((getNib (after (.nibSample 2) (beforeRun .config 499)) 2).st, (getNib (after (.nibSample 2) (beforeRun .config 499)) 2).triggers) = (.config, [])
    ∧ nibTrjReq (beforeRun .armed 500) 2 = false
    ∧ ((getNib (after (.nibSample 2) (beforeRun .armed 500)) 2).st, (getNib (after (.nibSample 2) (beforeRun .armed 500)) 2).expected) = (.run, some 900)
    ∧ ((getNib (after (.nibSample 2) (beforeRun .armed 499)) 2).st, (getNib (after (.nibSample 2) (beforeRun .armed 499)) 2).out) = (.armed, [5])
    ∧ (getNib (after (.nibSample 2) (beforeRun .armed 499)) 2).triggers = []
    ∧ (getNib (after (.freeRunSlot 2) (sampling [] 1010)) 2).out = [5] ∧ after (.freeRunSlot 2) (sampling [] 1009) = sampling [] 1009 := by
  decide +kernel

def winS (region w : Nat) (bank : Bool) : State :=
  setNib (regSet rdy (nibOff 2 0x80) (put region 13 ||| BitVec.ofNat 32 w)) 2 { Nib.reset with bank := bank }

theorem witness_coefficient_window : fld (regGet (after (.nibCoefDataAccess 2 none) (winS 3 8191 false)) (nibOff 2 0x80)) 14 0 = 3 * 8192
    ∧ (getNib (after (.nibCoefDataAccess 2 (some 9)) (winS 0 4511 true)) 2).coef0 = [(4511, 9)]
    ∧ (getNib (after (.nibCoefDataAccess 2 (some 9)) (winS 1 4511 false)) 2).coef1 = [(4511, 9)]
    ∧ (getNib (after (.nibCoefDataAccess 2 (some 9)) (winS 2 159 false)) 2).preload = [(159, 9)]
    ∧ getNib (after (.nibCoefDataAccess 2 (some 9)) (winS 0 0 false)) 2 = Nib.reset
    ∧ fld (regGet (after (.nibCoefDataAccess 2 (some 9)) (winS 0 0 false)) (nibOff 2 0x54)) 27 24 = 7
    ∧ (getNib (after (.nibCoefDataAccess 2 (some 9)) (winS 1 0 true)) 2).coef1 = [] := by decide +kernel

-- Quill links

/-- Link 3 in a state, with its role: 1 controller, 2 node. -/
def lnk (st : LinkState) : Link := { Link.reset with st := st, pll := true, epoch := 7, lc := { LinkClass.reset with rx := 10 }, be := { LinkClass.reset with rx := 10 } }
def linkS (role : Nat) (x : Link) : State := setLink (regSet rdy (qlOff 3 0) (put role 30 ||| put 1 29 ||| put 5 24 ||| put 6 19)) 3 x

theorem witness_link_states : (getLink (after (.portPllLock (.quill 3)) (linkS 1 Link.reset)) 3).st = .train
    ∧ (getLink (after (.portPllLock (.quill 3)) rdy) 3).st = .unconf
    ∧ getLink (after (.lockAcquired 3) (linkS 1 { lnk .train with lastUsed := 9 })) 3
        = { lnk .sync with lastUsed := 9, crLc := 5, rxLc := 6, epoch := 0x4009 }
    ∧ (getLink (after (.lockAcquired 3) (linkS 2 (lnk .train))) 3).epoch = 7
    ∧ (getLink (after (.linkUpTimer 3) (linkS 1 (lnk .sync))) 3).lastSet = some (.linkUp 7)
    ∧ (getLink (after (.linkUp 3 0x55) (linkS 2 (lnk .sync))) 3).st = .up ∧ (getLink (after (.linkUp 3 0x55) (linkS 2 (lnk .sync))) 3).be.rx = 0x55
    ∧ (getLink (after (.linkUp 3 0x55) (linkS 1 (lnk .sync))) 3).conflict = true
    ∧ (getLink (after (.linkAck 3 7) (linkS 1 (lnk .sync))) 3).st = .up ∧ after (.linkAck 3 8) (linkS 1 (lnk .sync)) = linkS 1 (lnk .sync)
    ∧ (getLink (after (.down 3) (linkS 1 (lnk .up))) 3).st = .train ∧ (getLink (after (.linkErrors 3) (linkS 1 (lnk .up))) 3).st = .train
    ∧ (getLink (after (.loopRoleWrite 3) (linkS 1 (lnk .up))) 3).st = .looped
    ∧ regGet (after (.loopRoleWrite 3) (linkS 1 (lnk .up))) (qlOff 3 0) = regGet (linkS 1 (lnk .up)) (qlOff 3 0) ||| 0xC0000000 := by
  decide +kernel

def upS : State := linkS 1 (lnk .up)
def waitS : State := linkS 1 { lnk .up with be := { LinkClass.reset with rx := 10, nak := true, waitRetx := true } }
def broken (f : QuillFrame) : QuillFrame := { f with wire := .crc }

theorem witness_frames : linkHears upS 3 = true ∧ rxCheck (frm 10) = .good
    ∧ (getLink (after (.data 3 (frm 10)) upS) 3).lc.rx = 11 ∧ (getLink (after (.data 3 (frm 10)) upS) 3).lc.freed = 1
    ∧ (getLink (after (.bulk 3 { frm 10 with retx := true }) waitS) 3).be.rx = 11
    -- 2^15 behind is late, one more is ahead
    ∧ ((10 : BitVec 16) - 0x800A).toNat = 2 ^ 15 ∧ regGet (after (.data 3 (frm 0x800A)) upS) (qlOff 3 qlLate) = 1
    ∧ ((10 : BitVec 16) - 0x8009).toNat = 2 ^ 15 + 1 ∧ (getLink (after (.data 3 (frm 0x8009)) upS) 3).lastSet = some (.nakLc 10)
    ∧ rxCheck (broken (frm 10)) = .retry ∧ (getLink (after (.ident 3 (broken (frm 10))) upS) 3).be.waitRetx = true
    ∧ regGet (after (.ident 3 (broken (frm 10))) upS) (qlOff 3 qlCode) = 1
    ∧ rxCheck { frm 10 with stat := 7 } = .discard ∧ rxCheck { frm 10 with stat := 6 } = .good
    ∧ (getLink (after (.leave 3 { frm 10 with stat := 7 }) upS) 3).be = (lnk .up).be := by decide +kernel

def identFrame : QuillFrame := { frm 10 with payload := [1, 0, put 1 28 ||| put 3 24 ||| put 9 16, 0, 0, 0, 0, 0] }

theorem witness_best_effort_frames : (identOf (padWords 8 identFrame.payload)).bad = false
    ∧ (getLink (after (.ident 3 identFrame) upS) 3).partnerBuf = 9
    ∧ (getPartner (after (.leave 3 (frm 10)) (setPartner upS 0 { Partner.reset with st := .active, att := .quill 3 })) 0).st = .gone
    ∧ (getLink (after (.bulk 3 { frm 10 with last := false }) upS) 3).bulkIn = [List.replicate 8 0]
    ∧ after (.null 3 (frm 10)) upS = upS ∧ regGet (after (.null 3 (broken (frm 10))) upS) (qlOff 3 qlCode) = 1
    ∧ (getLink (after (.null 3 (broken (frm 10))) upS) 3).errs = [upS.lt] := by decide +kernel

/-- UP for 10 s: at LANE_ERR 100 one error in 5 · 10^9 code groups is too many, at 10,000 it is not. -/
def worn (laneErr : Word) : State := { regSet upS (anlOff 4) laneErr with lt := 4000000000 }

theorem witness_lane_error : sparesLeft (worn 100) uQuill 3 = 1 ∧ spareClaims (worn 100) uQuill 3 = 0 ∧ unitMarked (worn 100) uQuill 3 = false
    ∧ unitMarked (after (.null 3 (broken (frm 10))) (worn 100)) uQuill 3 = true
    ∧ unitMarked (after (.null 3 (broken (frm 10))) (worn 10000)) uQuill 3 = false := by decide +kernel

def smp : OutSample := ⟨0, List.replicate 9 1⟩
def sendS (crLc : Nat) : State := linkS 1 { lnk .up with crLc := crLc, dataOut := [smp] }
def txf (seq : BitVec 16) : TxFrame := ⟨1, seq, 0, 0, true, false, List.replicate 8 0⟩
def replayS : State := linkS 1 { lnk .up with lc := { LinkClass.reset with rx := 10, nak := true, replay := [txf 4, txf 5, txf 6] } }

theorem witness_sends : (sampleFrames smp.stat smp.words).length = 2 ∧ (getLink (sendS 2) 3).credits .lc = 2
    ∧ (getLink (after (.dataHandover 3) (sendS 2)) 3).lc.sent = 2 ∧ (getLink (after (.dataHandover 3) (sendS 2)) 3).dataOut = []
    ∧ (getLink (sendS 1) 3).credits .lc = 1 ∧ regGet (after (.dataHandover 3) (sendS 1)) (qlOff 3 qlNoCred) = 2
    ∧ (getLink (after (.nakLc 3 5) replayS) 3).lc.replay.map (fun f => f.retx) = [false, true, true]
    ∧ after (.nakLc 3 9) replayS = bump replayS (qlOff 3 qlNakIgn) ∧ after (.nakBe 3 5) replayS = bump replayS (qlOff 3 qlNakIgn)
    ∧ (getLink (after (.nakTimeout 3 .lc) replayS) 3).lc.rx = 11 ∧ (getLink (after (.replayExpire 3 .lc) replayS) 3).lc.replay = [txf 5, txf 6]
    ∧ (getLink (after (.creditTimer 3) upS) 3).lastSet = some (.credit 0 0)
    ∧ (getLink (after (.credit 3 255 1) upS) 3).lc.partnerFreed = 255
    ∧ ((getLink (after (.unconfNullTimer 3) (linkS 0 (lnk .unconf))) 3).lastTx.map (fun f => (f.ftype, f.stat))) = some (0, 6) := by
  decide +kernel

-- direct ports, Ethernet and partners

/-- Direct port 2 as an input of two 16-bit words, bound to stream 18; engine 5 of partition 1 has its trigger there. -/
def inPort : State :=
  let s := regSet (regSet rdy (dpOff 2 0) (put 1 31 ||| put 15 0 ||| put 1 8)) (strmOff 18 0) (put 1 31)
  let s := setPart s 1 { Part.reset with on := true, pars := { PartParams.reset with sched := put 1 5 } }
  setNib (regSet (setDport s 2 { DirectPort.reset with pll := true }) (nibOff 5 0x0C) 18) 5 { Nib.reset with st := .armed }
def pfr : PortFrame :=
  ⟨0, List.replicate (dpWords inPort 2) 3, dpCrc 0 (List.replicate (dpWords inPort 2) 3) (dpWidth inPort 2), dpBeats (dpWords inPort 2) (dpWidth inPort 2)⟩

theorem witness_direct_port : dpIsIn inPort 2 = true ∧ dpFrameOk inPort 2 pfr = true ∧ strmOn inPort 18 = true ∧ strmIsOut inPort 18 = false
    ∧ nibStreams inPort 5 = [18] ∧ nibTrig inPort 5 = 0 ∧ enginePart inPort 5 = some 1 ∧ engineReplays inPort 5 = false
    ∧ (getNib (after (.dpFrameRx 2 pfr) inPort) 5).triggers.length = 1
    ∧ dpFrameOk inPort 2 { pfr with crc := pfr.crc + 1 } = false
    ∧ regGet (after (.dpFrameRx 2 { pfr with crc := pfr.crc + 1 }) inPort) (dpOff 2 4) = 1
    ∧ (getDport (after (.portPllLock (.direct 2)) rdy) 2).pll = true := by decide +kernel

def outPort : State :=
  setDport { rdy with fuse := { rdy.fuse with dpOutputs := 1, dpSafe := [(0, put 1 31 ||| put 1 16 ||| put 1 8 ||| 15)] } } 0
    { DirectPort.reset with pll := true, safeSeq := 9 }

theorem witness_safe_frame : wbit (tblGet 0 outPort.fuse.dpSafe 0) 31 = true ∧ fld (tblGet 0 outPort.fuse.dpSafe 0) 23 16 = 1
    ∧ wbit (regGet outPort (dpOff 0 0)) 31 = false
    ∧ ((getDport (after (.safeFrameTimer 0) outPort) 0).lastTx.map (fun f => (f.stat, f.seq, f.payload.length))) = some (6, 9, 2)
    ∧ (getDport (after (.safeFrameTimer 0) outPort) 0).safeSeq = 10 := by decide +kernel

/-- Ethernet port 1 on, with partner 4 behind a MAC address and stream 24 on tag 7. -/
def ethS : State :=
  let s := regSet (setEth rdy 1 { EthPort.reset with pll := true }) (ethOff 1 0) (put 0x88B5 16 ||| put 1 15)
  setPartner (regSet s (strmOff 24 0) (put 1 31)) 4 { Partner.reset with st := .active, att := .eth 1 77 }
def efr : EthFrame := ⟨77, 0x88B5, put 1 28 ||| put 1 24 ||| 5, put 7 16 ||| put 1 8, [9], true⟩


def ethT : State := regSet ethS (strmOff 24 0x10) (put 1 16 ||| 7)
def joining : State := setPartner ethT 4 { Partner.reset with st := .joining, att := .eth 1 77 }
/-- Partner 4 was last heard at tick 0; FIO_PTN_SILENCE is 2 ms. -/
def silent (now : Nat) : State := { regSet ethT (fioOff 0x30) 2 with lt := now }

theorem witness_ethernet : ethOn ethT 1 = true ∧ (getEth ethT 1).pll = true ∧ isReady ethT = true ∧ ethHeaderOk efr = true
    ∧ macEntry ethT 1 77 = some 4 ∧ tagStreams ethT 1 7 = [24] ∧ pidMatches ethT 24 (some (getPartner ethT 4)) = true
    ∧ ethSeqLate (getEth ethT 1) 24 5 = false ∧ tblGet none (getEth (after (.ethStreamRx 1 efr) ethT) 1).expect 24 = some 6
    ∧ (getPartner (after (.partnerSilence 4) (silent 800000)) 4).st = .gone ∧ after (.partnerSilence 4) (silent 799999) = silent 799999
    ∧ (getPartner (after (.approve 4) joining) 4).st = .active ∧ (getPartner (after (.reject 4) joining) 4).st = .gone
    ∧ regGet (after (.reject 4) joining) (fioOff 0) = 1 := by decide +kernel

-- time

def lost : State := { rdy with tu := { rdy.tu with refLost := true } }
def srcS (k : Nat) (st : ServoState) : State :=
  let s := regSet rdy (tuOff 0x40) (BitVec.ofNat 32 k)
  { s with tu := { s.tu with st := st } }
def pulse (n : Nat) : State :=
  let s := regSet rdy (tuOff 0x58) (put 1 31 ||| put 4 16 ||| 9)
  { s with tu := { s.tu with t := BitVec.ofNat 96 (n * 0x280000000) } }

theorem witness_time : (after .tick rdy).tu.t = 0x280000000 ∧ after .tick lost = lost ∧ (after .oscillatorCycle lost).tu.t = 25 * 0x280000000
    ∧ wbit (regGet (pulse 32) (tuOff 0x58)) 31 = true ∧ syncCount (pulse 32) = 32 ∧ reachedNow (pulse 32) 32 = true ∧ (pulse 32).tu.mark < 32
    ∧ (after .syncOutPulse (pulse 32)).tu.syncLeft = 9 ∧ after .syncOutPulse (pulse 33) = pulse 33
    ∧ regGet rdy (tuOff 0x40) = 0 ∧ (after .refclkLoss rdy).tu = { rdy.tu with refLost := true }
    ∧ (after .refclkLoss (srcS 2 .locked)).tu.st = .holdover ∧ (after .refclkLoss (srcS 2 .locked)).rst.warm = 8
    ∧ (after .refclkReturn lost).tu.refLost = false := by decide +kernel

/-- A slave port with the servo on PTP: jump threshold 100 ns, asymmetry threshold 10 ns. -/
def ptpS (st : ServoState) (m : Option (Int × Nat)) : State :=
  let s := regSet (regSet (regSet ethS (ethOff 1 0) (put 1 15 ||| put 1 10)) (tuOff 0x40) 1) (tuOff 0x4C) (put 2 24 ||| 100)
  let s := regSet s (tuOff 0x50) (put 3 24 ||| put 1 16 ||| 10)
  { s with tu := { s.tu with st := st, pdMean := m } }

/-- An exchange at pins with Table 15.1's 8.0 and 11.2 ns that measures an offset and a path delay; it began at tick 100. -/
def sync (e pd : Int) : PtpSync :=
  let d := (5120 * pd + 12582912) / 10
  ⟨-((14680064 + (10 * d - 12582912) + 20 * e + 10) / 20), 0, 101⟩

def delay (e pd : Int) : PtpDelay := ⟨false, 0, (sync e pd).tx + (5120 * pd + 12582912) / 10, 0, 0, 100⟩

theorem witness_ptp : (ptpS .acquire none).tu.st = .acquire ∧ ptpPortOn (ptpS .acquire none) 1 = true ∧ (ptpS .acquire none).tu.pdMean = none
    ∧ (ptpOffset (ptpS .acquire none) 1 (sync 5 256) (delay 5 256), ptpPd (ptpS .acquire none) 1 (sync 5 256) (delay 5 256)) = (5, 256)
    ∧ (after (.ptpMeasurement 1 (sync 5 256) (delay 5 256)) (ptpS .acquire none)).tu.pdMean = some (256, 0)
    -- an exchange that began before the last step
    ∧ (let s : State := { ptpS .acquire none with tu := { (ptpS .acquire none).tu with stepTick := 101 } }; after (.ptpMeasurement 1 (sync 5 256) (delay 5 256)) s = s)
    ∧ ptpPd (ptpS .acquire none) 1 (sync 5 256) { delay 5 256 with peer := true, reqRx := 1389363 } = 256
    -- exactly the asymmetry threshold away, and one step past it
    ∧ asymFails (ptpS .locked (some (256, 0))) (256, 0) (256 + 2560) = false ∧ asymFails (ptpS .locked (some (256, 0))) (256, 0) (256 + 2561) = true
    ∧ (after (.ptpMeasurement 1 (sync 5 2817) (delay 5 2817)) (ptpS .locked (some (256, 0)))).tu.cause = 1
    ∧ (after (.ptpMeasurement 1 (sync 5 2816) (delay 5 2816)) (ptpS .locked (some (256, 0)))).tu.pdMean = some (256 * 2 + 2560, 1)
    -- exactly the jump threshold, past it, and past it for the second time in a row
    ∧ jumpFails (ptpS .locked none) 6553600 = false ∧ jumpFails (ptpS .locked none) 6553601 = true
    ∧ ptpOffset (ptpS .locked none) 1 (sync 6553601 0) (delay 6553601 0) = 6553601 ∧ (after (.ptpMeasurement 1 (sync 6553601 0) (delay 6553601 0)) (ptpS .locked none)).tu.refused = 1
    ∧ (after (.ptpMeasurement 1 (sync 6553601 0) (delay 6553601 0)) (after (.ptpMeasurement 1 (sync 6553601 0) (delay 6553601 0)) (ptpS .locked none))).tu.st = .stepPending := by
  decide +kernel

def edgeS (last : Option Int) : State :=
  let s := srcS 2 .locked
  { s with tu := { s.tu with lastEdge := last } }

/-- Half a pulse period. -/
def farEdge : Int := 2 ^ syncP (edgeS none) * 81920

theorem witness_sync_in : (edgeS none).tu.st = .locked ∧ syncP (edgeS none) = fld (regGet (edgeS none) (tuOff 0x58)) 20 16
    ∧ regGet (after (.syncInEdge 7 true) (edgeS none)) (tuOff 0x94) = 1
    ∧ regGet (after (.syncInEdge 7 false) (edgeS (some 6))) (tuOff 0x94) = 1
    ∧ regGet (after (.syncInEdge 7 false) (edgeS none)) (tuOff 0x94) = 0
    ∧ (after (.syncInEdge 7 false) (edgeS none)).tu.lastEdge = some 0 ∧ (after (.syncInEdge 20480 false) (edgeS none)).tu.lastEdge = some 20480
    ∧ (edgeS (some 0)).tu.lastEdge = some 0 ∧ 2 ^ syncP (edgeS (some 0)) * 163840 = 2 * farEdge
    ∧ regGet (after (.syncInEdge farEdge false) (edgeS (some 0))) (tuOff 0x94) = 0
    ∧ regGet (after (.syncInEdge (farEdge - 20480) false) (edgeS (some 0))) (tuOff 0x94) = 1 := by decide +kernel

/-- The step written to TU_STEP; a launch entry valid. -/
def stepS (lo hi : Word) : State := regSet (regSet rdy (tuOff 0x80) lo) (tuOff 0x84) hi
def stepBusy : State := regSet rdy (launchOff 3 9 6) (put 1 15)
def proposed : State := { stepS 5 0 with tu := { TimeUnit.reset with st := .stepPending, stepId := 6 } }
def acceptedS (by' : Int) : State := { srcS 1 .locked with tu := { TimeUnit.reset with st := .locked, t := BitVec.ofNat 96 (2 ^ 40), accepted := some (by', 1) } }

theorem witness_steps : after (.tuStepCmd 1) rdy = recordErr rdy (tuOff 0x90) 4 ∧ after (.tuStepCmd 0) stepBusy = recordErr stepBusy (tuOff 0x90) 5
    ∧ after (.tuStepCmd 0) (stepS 0xFFFFFFFF 0xFFFFFFFF) = recordErr (stepS 0xFFFFFFFF 0xFFFFFFFF) (tuOff 0x90) 6
    ∧ (after (.tuStepCmd 0) (stepS 5 0)).tu.accepted = some (5, 0) ∧ (after (.tuStepCmd 6) proposed).tu.accepted = some (5, 6)
    ∧ (after (.tuStepCmd 0x80000000) stepBusy).tu.accepted = some (0, 0)
    ∧ (after .stepApply (acceptedS (-3))).tu.t = 2 ^ 40 - 3 * 2 ^ 32 ∧ (after .stepApply (acceptedS 3)).tu.t = 2 ^ 40 + 3 * 2 ^ 32
    ∧ (after .stepApply (acceptedS 3)).tu.st = .acquire := by decide +kernel

def heldOver : State := { srcS 1 .holdover with tu := { TimeUnit.reset with st := .holdover, cause := 1, lastPd := 44 } }
def slaveS : State := setEth { srcS 1 .locked with tu := { TimeUnit.reset with st := .locked, port := 2 } } 2 { EthPort.reset with slave := true, up := true }

theorem witness_sources : heldOver.tu.st = .holdover ∧ (after .accept heldOver).tu.pdMean = some (44, 0)
    ∧ after .accept rdy = recordErr rdy (tuOff 0x90) 7 ∧ after (.tuSrcWrite 3) rdy = recordErr rdy (tuOff 0x90) 1
    ∧ (after (.tuSrcWrite 0) slaveS).tu.st = .freerun ∧ (after (.tuSrcWrite 2) slaveS).tu.st = .acquire
    ∧ (after .sourceTimeout slaveS).tu.cause = 2 ∧ (after (.ethLinkDown 2) slaveS).tu.st = .holdover
    ∧ (after (.ethLinkDown 1) slaveS).tu.st = .locked ∧ (after (.grandmasterChange 9) slaveS).tu.st = .holdover := by decide +kernel

-- resets

/-- A device in a state of its lifecycle. -/
def life (k : Nat) : State := { rdy with fuse := { rdy.fuse with lifecycle := k } }
def coldS (r : ResetUnit) : State := { rdy with rst := r }
def noPower : State := coldS { rdy.rst with phase := .coldReset, cold := 1, good := 0x7B }
def browned (b : BitVec 7) : State := coldS { rdy.rst with phase := .coldReset, cold := 2, brown := b, good := 0x7F &&& ~~~b }

theorem witness_cold_sources : (after (.resetNLow 1000) rdy).rst.phase = .coldReset ∧ (after (.resetNLow 1000) rdy).rst.cold = 4
    ∧ after (.resetNLow 249) rdy = rdy ∧ (after (.brownout .vddq) rdy).rst.brown = 16 ∧ (after (.brownout .vaux) rdy).rst.latch = false
    ∧ (after (.tjShut 31) rdy).rst.cold = 8 ∧ (after (.tamper .glitch) (life 2)).rst.cold = 32
    ∧ (after (.tamper .glitch) (life 1)).rst.cold = 0 ∧ regGet (after (.tamper .oscillator) (life 1)) (hmkOff 0x0C) = 256
    ∧ noPower.rst.cold.getLsbD 0 = true ∧ (after .powerOn noPower).rst.good = 0x7F ∧ (after .powerOn noPower).rst.cold = 0
    ∧ (after (.supplyGood .vddK) (browned 1)).rst.cold = 0 ∧ (after (.supplyGood .vddK) (browned 3)).rst.cold = 2 := by decide +kernel

/-- A watchdog of 2 ms last kicked at tick 5. -/
def dog (now : Nat) : State := { regSet rdy (rstOff 0x14) 2 with lt := now, rst := { rdy.rst with kickAt := 5 } }

theorem witness_warm_sources : rdy.rst.phase = .ready ∧ (after (.rstWarmReq 0xA5) rdy).rst.warm = 2 ∧ after (.rstWarmReq 0xA4) rdy = rdy
    ∧ (after .watchdogExpire (dog 800005)).rst.warm = 1 ∧ after .watchdogExpire (dog 800004) = dog 800004
    ∧ (after .rstWdogKick (dog 9)).rst.kickAt = 9 ∧ debugAllowed (life 1) = true ∧ (after .debugReset (life 1)).rst.warm = 4
    ∧ debugAllowed (life 2) = false ∧ after .debugReset (life 2) = life 2 ∧ (after (.pllLockLoss .fabric) rdy).rst.warm = 8 := by decide +kernel

def heldScopes : State := { setLink (setPart rdy 15 prt) 3 (lnk .up) with rst := { rdy.rst with partHeld := 1, portHeld := 1, partRst := 1 } }

theorem witness_scope_requests : (after (.rstPartReq 0x8001) heldScopes).rst.partRst = 0x8001 ∧ getPart (after (.rstPartReq 0x8001) heldScopes) 15 = Part.reset
    ∧ getPart (after (.rstPartReq 1) heldScopes) 15 = prt ∧ (after (.rstPartReq 0) heldScopes).rst.partRst = 1
    ∧ (getLink (after (.rstPortReq 0x0101_0008) heldScopes) 3).st = .off
    ∧ (after (.rstPortReq 0x0101_0008) heldScopes).rst.portRst = 0x1010008 := by decide +kernel

/-- A boot flash whose slot A is bad and slot B good, the supplies good and nothing asserted. -/
def noSlot : BootSlot := { BootSlot.reset with valid := false }
def cold0 : State := { rdy with flash := [(0, noSlot)], rst := { rdy.rst with phase := .coldReset, good := 0x7F, cold := 4, partHeld := 2 } }
def warm0 : State := { cold0 with rst := { cold0.rst with phase := .warmReset, cold := 0, warm := 2 } }

theorem witness_cold_release : coldFree cold0 = true ∧ cold0.rst.vddkWarn = false ∧ pickSlot (takeIntent cold0) = some true
    ∧ (after (.coldRelease .none) cold0).rst.phase = .ready ∧ (after (.coldRelease .none) cold0).rst.partRst = 2
    ∧ (after (.coldRelease .training) cold0).rst.bootCause = 3 ∧ (after (.coldRelease .wipe) cold0).rst.bootCause = 4
    ∧ (after (.coldRelease .shadow) cold0).rst.bootCause = 2
    ∧ pickSlot (takeIntent { cold0 with flash := [(0, noSlot), (1, noSlot)] }) = none ∧ (after (.coldRelease .none) { cold0 with flash := [(0, noSlot), (1, noSlot)] }).rst.bootCause = 1
    ∧ (after (.coldRelease .none) { cold0 with fuse := { cold0.fuse with lifecycle := 4 } }).rst.bootCause = 5 := by decide +kernel

theorem witness_warm_release : warmFree warm0 = true ∧ warm0.rst.vddkWarn = false ∧ pickSlot warm0 = some true
    ∧ (after (.warmRelease .none) warm0).rst.phase = .ready ∧ (after (.warmRelease .none) warm0).rst.warm = 0
    ∧ (after (.warmRelease .wipe) warm0).rst.bootCause = 4 := by decide +kernel

theorem witness_release_paused : coldFree (warned true none .coldReset) = true ∧ warmFree (warned true none .warmReset) = true
    ∧ pickSlot (takeIntent (warned true none .coldReset)) = some false ∧ pickSlot (warned true none .warmReset) = some false
    ∧ (after (.coldRelease .none) (warned true none .coldReset)).rst.paused = true
    ∧ (after (.warmRelease .none) (warned true none .warmReset)).rst.phase = .warmRelease := by decide +kernel

def heldOut : State :=
  let s := holding host4 (dsc 0 0 0 0 0 0 [])
  { s with rst := { s.rst with partRst := 1, portRst := 0x9000000 } }

theorem witness_scope_releases : isReady heldOut = true ∧ heldOut.rst.partRst.getLsbD 0 = true ∧ heldOut.rst.partHeld.getLsbD 0 = false
    ∧ (after (.partitionRelease 0 .none) heldOut).rst.partRst = 0 ∧ (getCtx heldOut 0).part = 0
    ∧ (getRing (after (.partitionRelease 0 .none) heldOut) 0 0).items = [] ∧ (after (.partitionRelease 0 .wipe) heldOut).rst.bootCause = 4
    ∧ heldOut.rst.portRst.getLsbD (Port.num (.eth 3)) = true ∧ (after (.portRelease (.eth 3)) heldOut).rst.portRst = 0x1000000 := by decide +kernel

-- the set-up registers

theorem witness_register_writes : after (.registerWrite .pcie 0xA00014 8 5) rdy = bump rdy 0x508008 ∧ after (.registerWrite .xspi 0x1A00016 4 5) rdy = bump rdy 0x508008
    ∧ regRow? 0xA00014 = some (row 0xA00014 [] 0x3FF (cold := 0x64), []) ∧ regOffset .xspi 0x1A00014 = some 0xA00014
    ∧ regOffset .pcie 0xA00014 = some 0xA00014 ∧ after (.registerWrite .xspi 0x50000 4 5) rdy = bump rdy 0x508004
    ∧ after (.registerWrite .xspi 0x3FFFE 4 0x04030201) rdy = { rdy with mailbox := [(0x3FFFE, 1), (0x3FFFF, 2)] }
    ∧ regGet (after (.registerWrite .pcie 0xA00014 4 0xFFFFFFFF) rdy) 0xA00014 = 0x3FF
    ∧ regGet (after (.registerWrite .pcie 0xA0001C 4 1) (regSet rdy 0xA0001C 1)) 0xA0001C = 0
    ∧ after (.cntClr 0x40 0xA4) rdy = rdy ∧ regGet (after (.cntClr 0x40 0xA5) (bump rdy 0x20)) 0x20 = 0
    ∧ regGet (after (.cntClr 0x40 0xA5) (bump rdy 0x1020)) 0x1020 = 1 := by decide +kernel

theorem witness_fabric_tables : rdy.rst.phase ≠ .bootFail ∧ regGet (after (.fabSemWrite 200 0x12345) rdy) (semOff 200) = 0x2345
    ∧ fld (regGet (after (.fabPartCutoffWrite 0 9000) rdy) (fabOff 0 0x10)) 12 0 = 808
    ∧ (getPart onPart 0).on = true ∧ ticksEff (after (.fabPartCutoffWrite 0 4096) onPart) 0 = 4096
    ∧ after (.fabPartCutoffWrite 0 4097) onPart = recordErr onPart (fabErr 0) 4 ∧ after (.fabPartCutoffWrite 0 7) onPart = recordErr onPart (fabErr 0) 4
    ∧ after (.slotTableWrite 0 0 0 0x3F000000) (regSet rdy (fabOff 0 4) 0x400000)
      = regSet (regSet rdy (fabOff 0 4) 0x400000) (slotTabOff 0 0 0) 0x3F000000
    ∧ after (.slotTableWrite 0 0 0 0x40000000) (regSet rdy (fabOff 0 4) 0x400000) = recordErr (regSet rdy (fabOff 0 4) 0x400000) (fabErr 0) 9
    ∧ after (.slotTableWrite 0 0 0 1) rdy = recordErr rdy (fabErr 0) 9 ∧ slotTableFree (sched 0 prt2 ent2) 0 = false
    ∧ after (.slotTableWrite 0 0 0 0) (sched 0 prt2 ent2) = recordErr (sched 0 prt2 ent2) (fabErr 0) 9
    ∧ after (.ducBindWrite 0 0 16 7) host4 = recordErr host4 (ducOff 0 0xC04) 1
    ∧ after (.ducBindWrite 0 1 16 7) host4 = regSet host4 (ducOff 0 0xC0) 7
    ∧ tblGet none (after (.ducBindWrite 0 1 2 5) host4).latch64 (ducOff 0 0x88) = some 5
    ∧ regGet64 (after (.ducBindWrite 0 1 3 9) (after (.ducBindWrite 0 1 2 5) host4)) (ducOff 0 0x88) = word64 5 9 := by decide +kernel

/-- Launch entry 2 set up and off, with a window of 1,000 ticks in a cycle of 4,000 for it. -/
def entryOff (owner : Nat) : State :=
  let s := regSet (regSet (sched 7990 prt2 EntryRun.reset) (launchOff 0 2 6) 1) (slotTabOff 0 0 0) (put 1 24)
  regSet (regSet s (slotTabOff 0 0 3) 4000) (slotTabOff 0 1 2) (put 1000 8 ||| put owner 2)

def justStarted (t : Nat) : State := sched t { prt2 with holder := some (.entry 2) } { ent2 with cmd := some { cmd1 with st := .run } }

theorem witness_launch_entry : entryValid (entryOff 2) 0 2 = false ∧ launchCause (regSet (entryOff 2) (launchOff 0 2 6) 1) 0 2 = none
    -- the cutoff of count 8,000 is at 7,990, which this tick has reached
    ∧ (getRun (after (.launchEntryEnable 0 2 1) (entryOff 2)) 0 2).next = 12000
    ∧ entryValid (after (.launchEntryEnable 0 2 1) (entryOff 2)) 0 2 = true
    ∧ launchCause (regSet (entryOff 3) (launchOff 0 2 6) 1) 0 2 = some 5 ∧ entryValid (after (.launchEntryEnable 0 2 1) (entryOff 3)) 0 2 = false
    ∧ entryValid (sched 7990 prt2 ent2) 0 2 = true
    ∧ after (.launchEntryEnable 0 2 1) (sched 7990 prt2 ent2) = recordErr (sched 7990 prt2 ent2) (ducOff 0 0xC04) 2
    ∧ (getRun (after (.launchEntryDisable 0 2 1) (sched 7990 prt2 ent2)) 0 2).on = false
    -- a command that started in this tick, and one tick before
    ∧ elapsed (justStarted 8000) cmd1 = 0 ∧ (getRun (after (.launchEntryDisable 0 2 1) (justStarted 8000)) 0 2).cmd = none
    ∧ (getPart (after (.launchEntryDisable 0 2 1) (justStarted 8000)) 0).holder = none
    ∧ elapsed (justStarted 8001) cmd1 = 1 ∧ (getRun (after (.launchEntryDisable 0 2 1) (justStarted 8001)) 0 2).cmd = some { cmd1 with st := .run } := by
  decide +kernel

/-- A ring's registers written, in a partition of two live queues. -/
def ringAsk : State := regSet (setPart host0 0 { Part.reset with on := true, pars := { PartParams.reset with sched := put 2 24 } }) (ringOff 0 1 0) 0x2000
def ringV : Word := put 1 31 ||| put 4 24 ||| put 9 16 ||| 2

/-- The ring LOST, with Bus Master Enable as given. -/
def lostRing (bme : BitVec 16) : State := { setRing ringAsk 0 1 { Ring.reset with st := .lost } with bme := bme }

theorem witness_rings : ringCause ringAsk 0 1 ringV = none ∧ (getRing (after (.ringCreate 0 1 ringV) ringAsk) 0 1).st = .enabled
    ∧ ringCause ringAsk 0 1 (ringV &&& 0xFFFFFFFD) = some 5 ∧ (getRing (after (.ringCreate 0 1 (ringV &&& 0xFFFFFFFD)) ringAsk) 0 1).st = .uncreated
    ∧ ringCause (lostRing 0xFFFF) 0 1 ringV = none ∧ busOk (lostRing 0xFFFF) (getCtx (lostRing 0xFFFF) 0) = true
    ∧ (getRing (after (.ringCreate 0 1 ringV) (lostRing 0xFFFF)) 0 1).st = .enabled
    ∧ ringCause (lostRing 0) 0 1 ringV = none ∧ busOk (lostRing 0) (getCtx (lostRing 0) 0) = false
    ∧ after (.ringDisable 0 0) ringAsk = setRing ringAsk 0 0 { rg with st := .draining }
    ∧ after (.ringDrained 0 0) (setRing host0 0 0 { rg with st := .draining }) = setRing host0 0 0 { rg with st := .uncreated } := by decide +kernel

/-- The completion block of context 5. -/
def ctxAsk (log2 : Nat) : State := regSet (regSet host0 (ctxOff 5 0x20) 0x8000) (ctxOff 5 0x28) (put log2 24 ||| put 3 16)
/-- Sixteen contexts on function 2. -/
def pagesFull : State := (upTo 16).foldl (fun s k => setCtx s (40 + k) { cx with func := 2, page := k }) (ctxAsk 6)

def resetting : State := { ctxAsk 6 with rst := { (ctxAsk 6).rst with phase := .warmRelease } }

theorem witness_contexts : freePage (ctxAsk 6) 5 0 = some 5 ∧ cqCause (ctxAsk 6) 5 0 = none ∧ (getCtx (after (.contextCreate 5 0) (ctxAsk 6)) 5).on = true
    ∧ after (.contextCreate 0 0) host0 = recordErr host0 (ctxOff 0 0x0C) 5
    ∧ after (.contextCreate 5 (put 1 25)) (ctxAsk 6) = recordErr (ctxAsk 6) (ctxOff 5 0x0C) 1
    ∧ after (.contextCreate 5 (put 17 20)) (ctxAsk 6) = recordErr (ctxAsk 6) (ctxOff 5 0x0C) 2
    ∧ freePage pagesFull 5 2 = none ∧ cqCause (ctxAsk 5) 5 0 = some 3
    ∧ after (.contextCreate 5 0) (ctxAsk 5) = recordErr (statRefuse (ctxAsk 5) (ctxOff 5 0x30) 3) (ctxOff 5 0x0C) 3
    ∧ isReady resetting = false ∧ (getPart resetting 0).on = true ∧ after (.contextCreate 5 0) resetting = recordErr resetting (ctxOff 5 0x0C) 6
    ∧ after (.contextDestroy 0) host0 = recordErr host0 (ctxOff 0 0x0C) 4
    ∧ (getCtx (after (.contextDestroy 0) (setRing host0 0 0 Ring.reset)) 0).on = false := by decide +kernel

-- Hallmark

/-- A device whose booted configuration owner key 1 signed, with newer versions in its slot. -/
def keyed (k : Nat) : State := { life k with flash := [(0, { BootSlot.reset with sealedBy := 1, fwSvn := 4, cfgSvn := 3 })] }
def exporting1 : State := { rdy with blt := { Blotter.reset with exporting := some (0, 0) } }

theorem witness_keys : after (.hmkRevoke 0xC2000000) (keyed 2) = keyed 2 ∧ fld (0xC3000001 : Word) 31 24 = 0xC3
    ∧ after (.hmkRevoke 0xC3000001) (keyed 2) = recordErr (keyed 2) (hmkOff 0x04) 7
    ∧ (after (.hmkRevoke 0xC3000003) (keyed 2)).fuse.revoked = 8
    ∧ (after .hmkSvnCmd (keyed 2)).fuse.fwSvn = 4 ∧ (after .hmkSvnCmd (keyed 2)).fuse.cfgSvn = 3 ∧ after .hmkSvnCmd (keyed 1) = keyed 1
    ∧ (after .trngHealthFail rdy).hmk.fails = 1 ∧ (after .trngHealthFail { rdy with hmk := { rdy.hmk with fails := 2 } }).hmk.fails = 2
    ∧ exporting1.blt.exporting = some (0, 0) ∧ (after .trngHealthFail exporting1).blt.exporting = none
    ∧ (after .trngHealthFail exporting1).hmk.exportDraw = none := by decide +kernel

def askedS2 (x : Bool) : State := { rdy with hmk := { rdy.hmk with busy := some ⟨x, 0x1000, []⟩ } }

def drbgOn : State := { rdy with hmk := { rdy.hmk with drbg := { Drbg.reset with on := true, requests := 7 } } }

theorem witness_attestation : (identityClass rdy).isSome = true ∧ rdy.hmk.busy = none
    ∧ (after (.hmkAttCmd .xspi) rdy).hmk.busy = some ⟨true, 0, List.replicate 16 0⟩
    ∧ after (.hmkAttCmd .pcie) (askedS2 true) = recordErr (askedS2 true) (hmkOff 0x04) 2
    ∧ identityClass (life 0) = none ∧ after (.hmkAttCmd .pcie) (life 0) = recordErr (life 0) (hmkOff 0x04) 3
    ∧ (askedS2 false).hmk.busy = some ⟨false, 0x1000, []⟩
    -- no generator yet, and one that serves
    ∧ rdy.hmk.drbg.ready = false ∧ rdy.hmk.fails = 0 ∧ drbgOn.hmk.drbg.ready = true ∧ (after .hmkChalRead drbgOn).hmk.drbg.requests = 8
    ∧ after .hmkChalRead { rdy with hmk := { rdy.hmk with fails := 2 } }
        = recordErr { rdy with hmk := { rdy.hmk with fails := 2 } } (hmkOff 0x04) 1 := by decide +kernel

/-- A token at 0x2000 of host memory of a device in Blank, whose challenge is 0: kind, target and second word. -/
def token (kind target w1 : Nat) : State :=
  let s := regSet (life 0) (hmkOff 0x80) 0x2000
  { withWords s 0x2000 [put 1 28 ||| put kind 24 ||| put target 20, BitVec.ofNat 32 w1] with hmk := { s.hmk with challenge := some 0 } }
def tokenOf (s : State) : Token := ⟨memBytes s.host 0x2000 96, memBytes s.host (0x2000 + 96) 144⟩

theorem witness_tokens : (regGet64 (token 1 1 0) (hmkOff 0x80)).toNat = 0x2000
    ∧ (tokenOf (token 1 1 7)).kind = 1 ∧ tokenBody (token 1 1 7) (tokenOf (token 1 1 7)) = false
    ∧ after (.hmkTokenCmd .pcie) (token 1 1 7) = recordErr (token 1 1 7) (hmkOff 0x04) 5
    ∧ tokenBody (token 1 2 0) (tokenOf (token 1 2 0)) = true ∧ transitionKeys (token 1 2 0) 2 = none
    ∧ after (.hmkTokenCmd .pcie) (token 1 2 0) = recordErr (token 1 2 0) (hmkOff 0x04) 6
    ∧ tokenBody (token 1 1 0) (tokenOf (token 1 1 0)) = true ∧ (transitionKeys (token 1 1 0) 1).isSome = true
    ∧ (tokenOf (token 2 2 0)).kind = 2 ∧ (tokenOf (token 2 2 0)).target = 2 ∧ tokenBody (token 2 2 0) (tokenOf (token 2 2 0)) = true
    ∧ (token 2 2 0).fuse.lifecycle ≠ 2
    ∧ (tokenOf (token 3 2 0)).kind = 3 ∧ after (.hmkTokenCmd .pcie) (token 3 2 0) = recordErr (token 3 2 0) (hmkOff 0x04) 5 := by decide +kernel

-- the Blotter

/-- A Blotter in a mode with a region of 1 MiB, every kind and source selected, every trigger on. -/
def bltS (m : BltMode) : State :=
  let s := regSet (regSet (regSet (regSet host4 0x400080 (put 1 16 ||| 64)) (bltOff 0x00) 0x01FFFFFE) (bltOff 0x04) 0xFFFF) (bltOff 0x30) 0xFFFF
  { regSet s (bltOff 0x40) 2 with blt := { Blotter.reset with mode := m } }
def noRegion : State := regSet rdy 0x400080 64
def ended : State := { bltS .trigger with blt := { (bltS .trigger).blt with triggered := true } }
def brec (q : Word) : BRec := ⟨11, 0, q, 5, false, false, [0, 1, 2]⟩
def buffered : State := { bltS .wrap with blt := { (bltS .wrap).blt with ring := [brec 0], buf := [brec 1] } }

theorem witness_blotter : (bltS .off).blt.mode = .off ∧ bltModeOf (fld (0x40000000 : Word) 31 30) = .wrap ∧ bltRegion (bltS .off) = 1048576
    ∧ (after (.bltModeWrite 0) buffered).blt = { buffered.blt with mode := .off }
    ∧ after (.bltModeWrite 0x80000000) buffered = bump buffered 0x508008
    ∧ bltRegion noRegion = 0 ∧ after (.bltModeWrite 0x40000000) noRegion = bump noRegion 0x508008
    ∧ bltOn (bltS .wrap) = true ∧ ((after (.bltMark 0x500000009) (bltS .wrap)).blt.buf.map (fun r => (r.kind, r.payload))) = [(11, [0, 9, 5])]
    ∧ wbit (regGet (bltS .trigger) (bltOff 0x30)) 2 = true ∧ (after .bltTrig (bltS .trigger)).blt.postLeft = 131072
    ∧ bltSelected (bltS .wrap) 10 0 = true ∧ (snapWords ins img).length ≤ 16000
    ∧ ((after (.bltSnap 1) (bltS .wrap)).blt.buf.map (fun r => r.kind)) = [10] ∧ ((after .snapTimer (bltS .wrap)).blt.buf.map (fun r => r.kind)) = [10]
    ∧ (after .postTriggerEnd ended).blt.frozen = true
    ∧ (after .blotterDrain buffered).blt.ring = [brec 0, brec 1] ∧ (after .blotterDrain buffered).blt.buf = [] := by decide +kernel

/-- Records 4 and 5 in the ring, an export range from the first to a last, entropy failures and a recipient. -/
def expS (last : Word) (fails : Nat) (rcp : Option Nat) : State :=
  let s := regSet (regSet (bltS .off) (bltOff 0x80) 4) (bltOff 0x84) last
  { s with blt := { s.blt with ring := [brec 4, brec 5] }, hmk := { s.hmk with fails := fails, recipient := rcp } }

def drawing : State := { expS 5 0 (some 1) with hmk := { (expS 5 0 (some 1)).hmk with drbg := { Drbg.reset with on := true, requests := 7 } } }

theorem witness_export : (after .bltExpCmd drawing).blt.exporting = some (4, 5) ∧ regGet (after .bltExpCmd drawing) (bltOff 0x98) = 0
    ∧ drawing.hmk.drbg.requests + 1 < 2 ^ 20 ∧ (after .bltExpCmd drawing).hmk.drbg.requests = 9
    ∧ after .bltExpCmd (expS 5 1 none) = recordErr (expS 5 1 none) (hmkOff 0x04) 4
    ∧ after .bltExpCmd (expS 5 2 (some 1)) = recordErr (expS 5 2 (some 1)) (hmkOff 0x04) 1
    ∧ after .bltExpCmd (expS 6 0 (some 1)) = bump (expS 6 0 (some 1)) 0x508008
    ∧ (after .bltExpCmd drawing).hmk.exportNo = 1 := by decide +kernel

/-- A plain record at 0x3000 of host memory, of a number of units. -/
def impS (units : Nat) (m : BltMode) : State :=
  let s := regSet (regSet (bltS m) (bltOff 0xA0) 0x3000) (bltOff 0xA8) 32
  withWords s 0x3000 [put 11 24 ||| put units 12, 7, 0, 0, 0, 1, 2, 3]

theorem witness_import : (after .bltImpCmd (impS 2 .off)).blt.ring = [⟨11, 0, 7, 0, false, false, [0, 1, 2, 3]⟩]
    ∧ regGet (after .bltImpCmd (impS 2 .off)) (bltOff 0xB0) = 0x80000000
    ∧ (after .bltImpCmd (impS 3 .off)).blt.ring = [] ∧ regGet (after .bltImpCmd (impS 3 .off)) (bltOff 0xB0) = 0x40000000
    ∧ after .bltImpCmd (impS 2 .wrap) = bump (impS 2 .wrap) 0x508008 := by decide +kernel

/-- A window of records 4 and 5, STRETCH 1; partition 0 replayed. -/
def rplS (parts : Nat) : State :=
  regSet (regSet (regSet (expS 5 0 none) (bltOff 0xE0) 4) (bltOff 0xE4) 5) (bltOff 0xC0) (put 1 16 ||| BitVec.ofNat 32 parts)
def armed (start : Word) : State :=
  let s := regSet (rplS 0) (bltOff 0xD0) start
  { s with blt := { s.blt with replay := { Replay.reset with armed := true, window := [brec 4, brec 5] } } }
def frameR (verdict : Nat) : BRec := ⟨kFrame, 3, 4, 9, false, false, [put verdict 28 ||| put 1 16, 5]⟩
def setR : BRec := ⟨kSet, 0, 4, 9, false, false, [0, 8, put 3 22, 0, 0, 0, 0, 0, put 1 28 ||| put 1 16 ||| 3, 0, 0]⟩
def delivering (r : BRec) : State := { rplS 1 with blt := { (rplS 1).blt with replay := { Replay.reset with armed := true, started := true, rlc := 9, todo := [r] } } }

theorem witness_replay : rplCause (rplS 1) = none ∧ (after .bltRplArm (rplS 1)).blt.replay.window = [brec 4, brec 5]
    ∧ rplCause (regSet (rplS 1) (bltOff 0xE0) 3) = some 1
    ∧ after .bltRplArm (regSet (rplS 1) (bltOff 0xE0) 3) = recordErr (regSet (rplS 1) (bltOff 0xE0) 3) (bltOff 0xC8) 1
    ∧ (after .bltRplAbort (armed 0)).blt.replay = Replay.reset ∧ (after .replayStart (armed 0)).blt.replay.started = true
    ∧ after .replayStart (armed 1) = armed 1
    ∧ (delivering setR).blt.replay.todo.find? (fun x => decide (x.tick ≤ (delivering setR).blt.replay.rlc)) = some setR
    ∧ ((getPart (after .replayDelivery (delivering setR)) 0).gate.map (fun g => (g.asn, g.inst, g.words.length))) = [(8, 3, 3)]
    ∧ (after .replayDelivery (delivering (frameR vLate))).blt.replay.todo = [] := by decide +kernel

end Sys2Proof.Tests
end

section
/-! SUPPORT. Fixed-point arithmetic (R72, R74 to R76): what each rounding mode makes of a floor and a remainder, and what a
saturating narrowing to a signed word gives. -/

namespace Sys2Proof.Machine

-- the five rounding modes on a floor `q` and a remainder `r` of the divisor `d`

theorem roundFloor_rne {r d : Nat} (q : Int) (h : r < d) :
    roundFloor .rne q (remOf r d) = if 2 * r < d ∨ 2 * r = d ∧ q % 2 = 0 then q else q + 1 := by
  unfold remOf roundFloor
  grind

theorem roundFloor_rdn (q : Int) (rem : Rem) : roundFloor .rdn q rem = q := by
  cases rem <;> rfl

theorem roundFloor_rha {r d : Nat} (q : Int) (h : r < d) :
    roundFloor .rha q (remOf r d) = if 2 * r < d ∨ 2 * r = d ∧ q < 0 then q else q + 1 := by
  unfold remOf roundFloor
  grind

theorem roundFloor_rtz (q : Int) (r d : Nat) :
    roundFloor .rtz q (remOf r d) = if r = 0 ∨ 0 ≤ q then q else q + 1 := by
  unfold remOf roundFloor
  grind

theorem roundFloor_rup (q : Int) (r d : Nat) :
    roundFloor .rup q (remOf r d) = if r = 0 then q else q + 1 := by
  unfold remOf roundFloor
  grind

/-- Rounding a value given by its floor and remainder is what Table 03.2 says of the value. The products with the divisor are
linear in `q * d`, whose sign is that of `q`. -/
theorem roundedTo_roundFloor (m : RoundMode) (q : Int) {r d : Nat} (h : r < d) :
    RoundedTo m (q * d + r) d (roundFloor m q (remOf r d)) := by
  have hneg : q < 0 → q * d ≤ -d := fun hq => by nlinarith
  have hpos : 0 ≤ q → 0 ≤ q * (d : Int) := fun hq => by positivity
  have hup : (q + 1) * (d : Int) = q * d + d := by ring
  have hdn : (q - 1) * (d : Int) = q * d - d := by ring
  unfold RoundedTo
  cases m with
  | rne =>
    dsimp only
    rw [roundFloor_rne q h]
    split
    · omega
    · rw [hup]; omega
  | rdn =>
    rw [roundFloor_rdn]
    omega
  | rha =>
    dsimp only
    rw [roundFloor_rha q h]
    split
    · omega
    · rw [hup]; omega
  | rtz =>
    dsimp only
    rw [roundFloor_rtz]
    split
    · refine ⟨by omega, by omega, ?_⟩
      obtain hq | hq := lt_or_ge q 0
      · exact mul_nonneg_of_nonpos_of_nonpos hq.le (by omega)
      · exact mul_nonneg hq (by omega)
    · rw [hup]
      exact ⟨by omega, by omega, mul_nonneg_of_nonpos_of_nonpos (by omega) (by omega)⟩
  | rup =>
    dsimp only
    rw [roundFloor_rup]
    split
    · rw [hdn]; omega
    · rw [add_sub_cancel_right, hup]; omega

/-- A quotient is rounded as Table 03.2 says (R76). -/
theorem roundedTo_roundQuot (m : RoundMode) (num : Int) {d : Nat} (h : 0 < d) : RoundedTo m num d (roundQuot m num d) := by
  have hmod := Int.emod_lt_of_pos num (Int.natCast_pos.2 h)
  have hlt : (num % (d : Int)).toNat < d := by omega
  have hnum : num / (d : Int) * d + ((num % (d : Int)).toNat : Int) = num := by
    rw [Int.toNat_of_nonneg (Int.emod_nonneg num (by omega)), Int.ediv_mul_add_emod]
  have hr := roundedTo_roundFloor m (num / (d : Int)) hlt
  rwa [hnum] at hr

-- saturation

theorem le_clamp {lo hi : Int} (h : lo ≤ hi) (x : Int) : lo ≤ clamp lo hi x := by unfold clamp; split_ifs <;> omega

theorem clamp_le {lo hi : Int} (h : lo ≤ hi) (x : Int) : clamp lo hi x ≤ hi := by unfold clamp; split_ifs <;> omega

theorem clamp_of_lt {lo hi x : Int} (h : x < lo) : clamp lo hi x = lo := if_pos h

theorem clamp_of_gt {lo hi x : Int} (hl : lo ≤ hi) (h : hi < x) : clamp lo hi x = hi := by
  rw [clamp, if_neg (by omega), if_pos h]

theorem clamp_of_inside {lo hi x : Int} (hl : lo ≤ x) (hh : x ≤ hi) : clamp lo hi x = x := by
  rw [clamp, if_neg (by omega), if_neg (by omega)]

/-- A signed word of a saturated integer stands for that integer (R7). -/
theorem toInt_ofInt_clamp {w : Nat} (hw : 0 < w) (x : Int) :
    (BitVec.ofInt w (clamp (rangeLo false w) (rangeHi false w) x)).toInt = clamp (rangeLo false w) (rangeHi false w) x := by
  have hpow : (0 : Int) < 2 ^ (w - 1) := by positivity
  have hle : rangeLo false w ≤ rangeHi false w := show -(2 ^ (w - 1) : Int) ≤ 2 ^ (w - 1) - 1 by omega
  exact BitVec.toInt_ofInt_eq_self hw (le_clamp hle x) (Int.lt_of_le_sub_one (clamp_le hle x))

theorem inRange_iff {lo hi x : Int} : inRange lo hi x = true ↔ lo ≤ x ∧ x ≤ hi := by simp [inRange]

theorem inRange_eq_false_iff {lo hi x : Int} : inRange lo hi x = false ↔ x < lo ∨ hi < x := by
  rw [Bool.eq_false_iff, Ne, inRange_iff]
  omega

theorem accAdd_toInt (acc : BitVec 80) (x : Int) : (accAdd acc x).1.toInt = clamp accMin accMax (acc.toInt + x) :=
  toInt_ofInt_clamp (by decide) _

/-- The addition reports saturation exactly when the exact sum lies outside the bounds (R72). -/
theorem accAdd_saturates_iff (acc : BitVec 80) (x : Int) :
    (accAdd acc x).2 = true ↔ acc.toInt + x < accMin ∨ accMax < acc.toInt + x := by
  have hflag : (accAdd acc x).2 = !inRange accMin accMax (acc.toInt + x) := rfl
  rw [hflag, Bool.not_eq_true', inRange_eq_false_iff]

theorem sat32_eq (x : Int) :
    sat32 x = (BitVec.ofInt 32 (clamp (-(2 ^ 31)) (2 ^ 31 - 1) x), !inRange (-(2 ^ 31)) (2 ^ 31 - 1) x) := rfl

/-- Saturation to a 32-bit word keeps a value in its range and gives the nearer bound of any other (R75). -/
theorem sat32_of_inside {x : Int} (hl : -(2 ^ 31) ≤ x) (hh : x ≤ 2 ^ 31 - 1) : (sat32 x).1.toInt = x ∧ (sat32 x).2 = false :=
  ⟨(toInt_ofInt_clamp (by decide) x).trans (clamp_of_inside hl hh), congrArg Bool.not (inRange_iff.2 ⟨hl, hh⟩)⟩

theorem sat32_of_lt {x : Int} (h : x < -(2 ^ 31)) : sat32 x = (0x80000000, true) := by
  rw [sat32_eq, clamp_of_lt h, inRange_eq_false_iff.2 (.inl h)]
  decide

theorem sat32_of_gt {x : Int} (h : 2 ^ 31 - 1 < x) : sat32 x = (0x7FFFFFFF, true) := by
  rw [sat32_eq, clamp_of_gt (by decide) h, inRange_eq_false_iff.2 (.inr h)]
  decide

/-- A shift by k divides by 2^k and rounds (R74). -/
theorem shiftRound_of_pos (m : RoundMode) (x : Int) {k : Int} (h : 0 < k) : RoundedTo m x (2 ^ k.toNat) (shiftRound m x k) := by
  rw [shiftRound, if_pos h]
  exact roundedTo_roundQuot m x (by positivity)

theorem shiftRound_of_nonpos (m : RoundMode) (x : Int) {k : Int} (h : k ≤ 0) : shiftRound m x k = x * 2 ^ (-k).toNat :=
  if_neg (by omega)

/-- A writeback saturates the rounded quotient of the accumulator, in every mode and for every shift (R74, R75). -/
theorem accWriteback_saturates_rounded (acc : BitVec 80) (k : Int) (m : RoundMode) :
    ∃ q : Int, (0 < k → RoundedTo m acc.toInt (2 ^ k.toNat) q) ∧ (k ≤ 0 → q = acc.toInt * 2 ^ (-k).toNat)
      ∧ (-(2 ^ 31) ≤ q → q ≤ 2 ^ 31 - 1 → (accWriteback acc k m).1.toInt = q ∧ (accWriteback acc k m).2 = false)
      ∧ (q < -(2 ^ 31) → accWriteback acc k m = (0x80000000, true))
      ∧ (2 ^ 31 - 1 < q → accWriteback acc k m = (0x7FFFFFFF, true)) :=
  ⟨shiftRound m acc.toInt k, shiftRound_of_pos m _, shiftRound_of_nonpos m _, sat32_of_inside, sat32_of_lt, sat32_of_gt⟩

end Sys2Proof.Machine
end

section
/-! SUPPORT. The lane operations of a stroke word (R69 to R75): what the issue of a slot makes of its operation's outcome, what a
fold over the selected lanes leaves in the accumulators, and which words a lane result writes. -/

namespace Sys2Proof.Machine

-- the issue of a slot

/-- Moving past a word touches only the sequencer (Table 06.13). -/
theorem Tile.after_eq (t : Tile) (pc : Nat) (fs : List LoopFrame) : ∃ q ls, t.after pc fs = { t with pc := q, loops := ls } := by
  induction fs with
  | nil => exact ⟨_, _, rfl⟩
  | cons f fs ih =>
    unfold Tile.after
    split_ifs
    · exact ⟨_, _, rfl⟩
    · exact ih
    · exact ⟨_, _, rfl⟩

/-- Using up a slot's issue touches only the sequencer (R179). -/
theorem Tile.slotDone_eq (t : Tile) (w : BitVec 128) (sl : Nat) :
    ∃ q c ls d0 d1, t.slotDone w sl = { t with pc := q, cyc := c, loops := ls, done0 := d0, done1 := d1 } := by
  unfold Tile.slotDone Tile.advance
  dsimp only
  generalize hu : (if sl = 0 then { t with done0 := true } else { t with done1 := true } : Tile) = u
  obtain ⟨d0, d1, rfl⟩ : ∃ d0 d1, u = { t with done0 := d0, done1 := d1 } := by
    subst hu
    split_ifs
    · exact ⟨_, _, rfl⟩
    · exact ⟨_, _, rfl⟩
  split_ifs
  · obtain ⟨q, ls, h⟩ := Tile.after_eq { t with done0 := d0, done1 := d1 } t.pc t.loops
    exact ⟨_, _, _, _, _, by rw [h]⟩
  · exact ⟨_, _, _, _, _, rfl⟩

/-- A slot that issues with an outcome puts it in flight for its latency, its accumulators take effect at once, and the scratchpad
is the outcome's (R149, R150). -/
theorem runSlot_of_issue {s : State} {t sl cls op : Nat} {eff : Issue → Option OpOut} {i : Issue} {w : BitVec 128} {o : OpOut}
    (hi : issueOf s t sl cls op = some (i, w)) (ho : eff i = some o) :
    ∃ u, runSlot s t sl cls op eff = setTile s t u
      ∧ u.flight = o.t.flight ++ [⟨i.t.cyc + opLatency i.ops o.hops (edgeRows t), o.writes, o.flags, o.piv, o.read⟩]
      ∧ u.acc = o.t.acc ∧ u.pad = o.t.pad := by
  simp only [runSlot, hi, ho]
  obtain ⟨_, _, _, _, _, hu⟩ := Tile.slotDone_eq { o.t with
    flight := o.t.flight ++ [⟨i.t.cyc + opLatency i.ops o.hops (edgeRows t), o.writes, o.flags, o.piv, o.read⟩] } w sl
  exact ⟨_, rfl, by rw [hu], by rw [hu], by rw [hu]⟩

-- the selected lanes

theorem mem_maskLanes {x l : Nat} : l ∈ maskLanes x ↔ l < 8 ∧ (slMask x).testBit l = true := by
  simp [maskLanes, upTo]

theorem maskLanes_nodup (x : Nat) : (maskLanes x).Nodup := List.nodup_range.filter _

theorem getD_vector (t : Tile) (a : Nat) {l : Nat} (h : l < 8) : (t.vector a).getD l 0 = t.word (a + 4 * l) := by
  simp [Tile.vector, upTo, h]

/-- One lane's turn in a fold over the lanes: its accumulator after f, and the flag of the lanes so far or its own. -/
def laneTurn (f : Nat → BitVec 80 → BitVec 80 × Bool) (r : Tbl (BitVec 80) × Bool) (l : Nat) : Tbl (BitVec 80) × Bool :=
  let v := f l (tblGet 0 r.1 l)
  (tblSet 0 r.1 l v.1, r.2 || v.2)

theorem foldLanes_eq (i : Issue) (f : Nat → BitVec 80 → BitVec 80 × Bool) :
    foldLanes i f = (maskLanes i.ops).foldl (laneTurn f) (i.t.acc, false) := rfl

/-- A fold over distinct lanes gives each of them f of its old accumulator and leaves the others. -/
theorem tblGet_foldl_laneTurn (f : Nat → BitVec 80 → BitVec 80 × Bool) {ls : List Nat} (h : ls.Nodup)
    (r : Tbl (BitVec 80) × Bool) (l : Nat) :
    tblGet 0 (ls.foldl (laneTurn f) r).1 l = if l ∈ ls then (f l (tblGet 0 r.1 l)).1 else tblGet 0 r.1 l := by
  induction ls generalizing r with
  | nil => rfl
  | cons a ls ih =>
    obtain ⟨ha, hls⟩ := List.nodup_cons.1 h
    rw [List.foldl_cons, ih hls]
    by_cases hal : a = l
    · subst hal
      simp [laneTurn, ha]
    · simp [laneTurn, tblGet_set_other _ _ _ hal, Ne.symm hal]

/-- Such a fold raises the flag when any of its lanes does, each on its old accumulator. -/
theorem foldl_laneTurn_flag_iff (f : Nat → BitVec 80 → BitVec 80 × Bool) {ls : List Nat} (h : ls.Nodup)
    (r : Tbl (BitVec 80) × Bool) :
    (ls.foldl (laneTurn f) r).2 = true ↔ r.2 = true ∨ ∃ l ∈ ls, (f l (tblGet 0 r.1 l)).2 = true := by
  induction ls generalizing r with
  | nil => simp
  | cons a ls ih =>
    obtain ⟨ha, hls⟩ := List.nodup_cons.1 h
    have hrest : (∃ l ∈ ls, (f l (tblGet 0 (laneTurn f r a).1 l)).2 = true) ↔ ∃ l ∈ ls, (f l (tblGet 0 r.1 l)).2 = true :=
      exists_congr fun l => and_congr_right fun hl => by
        rw [laneTurn, tblGet_set_other _ _ _ (ne_of_mem_of_not_mem hl ha).symm]
    rw [List.foldl_cons, ih hls, hrest]
    simp only [laneTurn, Bool.or_eq_true, List.mem_cons, exists_eq_or_imp, or_assoc]

theorem tblGet_foldLanes (i : Issue) (f : Nat → BitVec 80 → BitVec 80 × Bool) {l : Nat} (h : l < 8) :
    tblGet 0 (foldLanes i f).1 l =
      if (slMask i.ops).testBit l = true then (f l (tblGet 0 i.t.acc l)).1 else tblGet 0 i.t.acc l := by
  rw [foldLanes_eq, tblGet_foldl_laneTurn f (maskLanes_nodup _)]
  simp only [mem_maskLanes, h, true_and]

theorem foldLanes_flag_iff (i : Issue) (f : Nat → BitVec 80 → BitVec 80 × Bool) :
    (foldLanes i f).2 = true ↔ ∃ l < 8, (slMask i.ops).testBit l = true ∧ (f l (tblGet 0 i.t.acc l)).2 = true := by
  rw [foldLanes_eq, foldl_laneTurn_flag_iff f (maskLanes_nodup _)]
  simp only [Bool.false_eq_true, false_or, mem_maskLanes, and_assoc]

theorem foldLanes_congr (i : Issue) {f g : Nat → BitVec 80 → BitVec 80 × Bool} (h : ∀ l < 8, f l = g l) :
    foldLanes i f = foldLanes i g :=
  List.foldl_ext _ _ _ fun _ _ hl => by rw [h _ (mem_maskLanes.1 hl).1]

-- accumulation

/-- The accumulators after adding o of each selected lane, and whether one saturated (R72). -/
def addLanes (i : Issue) (o : Nat → Int) : Tbl (BitVec 80) × Bool := foldLanes i fun l acc => accAdd acc (o l)

theorem tblGet_addLanes_other (i : Issue) (o : Nat → Int) {l : Nat} (h : l < 8) (hm : (slMask i.ops).testBit l = false) :
    tblGet 0 (addLanes i o).1 l = tblGet 0 i.t.acc l := by
  rw [addLanes, tblGet_foldLanes i _ h, hm, if_neg Bool.false_ne_true]

theorem tblGet_addLanes_selected (i : Issue) (o : Nat → Int) {l : Nat} (h : l < 8) (hm : (slMask i.ops).testBit l = true) :
    (tblGet 0 (addLanes i o).1 l).toInt = clamp accMin accMax ((tblGet 0 i.t.acc l).toInt + o l) := by
  rw [addLanes, tblGet_foldLanes i _ h, if_pos hm, accAdd_toInt]

theorem addLanes_flag_iff (i : Issue) (o : Nat → Int) :
    (addLanes i o).2 = true ↔ ∃ l < 8, (slMask i.ops).testBit l = true
      ∧ ((tblGet 0 i.t.acc l).toInt + o l < accMin ∨ accMax < (tblGet 0 i.t.acc l).toInt + o l) := by
  simp only [addLanes, foldLanes_flag_iff, accAdd_saturates_iff]

/-- What an accumulating operation does: new accumulators at once, no write, SAT_ACC with a saturated lane. -/
def accumulated (i : Issue) (r : Tbl (BitVec 80) × Bool) : OpOut := .plain { i.t with acc := r.1 } [] (flagIf r.2 satAcc)

/-- MAC adds the aligned product of each lane's words (R69, R70). -/
theorem effMac_eq (i : Issue) :
    effMac i = some (accumulated i (addLanes i fun l =>
      align ((i.t.word (slVa i.ops + 4 * l)).toInt * (i.t.word (slVb i.ops + 4 * l)).toInt) (slShift i.ops))) :=
  congrArg (fun r => some (accumulated i r)) (foldLanes_congr i fun l hl => by
    simp only [macLane, getD_vector i.t _ hl])

/-- ACCADD adds the aligned word of each lane (R70). -/
theorem effAccadd_eq (i : Issue) :
    effAccadd i = some (accumulated i (addLanes i fun l => align (i.t.word (slVa i.ops + 4 * l)).toInt (slShift i.ops))) :=
  congrArg (fun r => some (accumulated i r)) (foldLanes_congr i fun l hl => by
    simp only [getD_vector i.t _ hl])

/-- A slot whose operation adds o of each selected lane accumulates as R72 has it. -/
theorem accumulates_of_addLanes {s : State} {t sl op : Nat} {eff : Issue → Option OpOut} {i : Issue} {w : BitVec 128} {o : Nat → Int}
    (hi : issueOf s t sl 0 op = some (i, w)) (he : eff i = some (accumulated i (addLanes i o))) :
    Accumulates s t i o (.next (runSlot s t sl 0 op eff)) := by
  obtain ⟨u, hrun, hflight, hacc, hpad⟩ := runSlot_of_issue hi he
  refine ⟨u, _, congrArg _ hrun, hflight, rfl, rfl, hpad, ?other, ?selected, ?flag⟩
  case other =>
    intro l hl hm
    rw [hacc]
    exact tblGet_addLanes_other i o hl hm
  case selected =>
    intro l hl hm
    have hsum := tblGet_addLanes_selected i o hl hm
    rw [hacc]
    exact ⟨fun hlo hhi => hsum.trans (clamp_of_inside hlo hhi), fun hlo => hsum.trans (clamp_of_lt hlo),
      fun hhi => hsum.trans (clamp_of_gt (by decide) hhi)⟩
  case flag =>
    have hsat := addLanes_flag_iff i o
    cases hr : (addLanes i o).2 with
    | true => exact .inl ⟨congrArg (flagIf · satAcc) hr, hsat.1 hr⟩
    | false =>
      refine .inr ⟨congrArg (flagIf · satAcc) hr, fun l hl hm => ?_⟩
      by_contra hout
      exact absurd (hsat.2 ⟨l, hl, hm, by omega⟩) (by simp [hr])

/-- Settles O28: MAC and ACCADD fold the saturating addition over distinct lanes, so each lane adds to its old accumulator. -/
theorem accumulatorsSaturate : Obligations.AccumulatorsSaturate := by
  unfold Obligations.AccumulatorsSaturate
  intro t sl i w s
  exact ⟨fun hi => accumulates_of_addLanes hi (effMac_eq i), fun hi => accumulates_of_addLanes hi (effAccadd_eq i)⟩

-- writeback

theorem mem_laneWords {i : Issue} {f : Nat → Word × Bool} {dest : Nat} {q : WriteReq} :
    q ∈ (laneWords i f dest).1
      ↔ ∃ l, (l < 8 ∧ (slMask i.ops).testBit l = true) ∧ i.put (dest + 4 * l) (leBytes 4 (f l).1.toNat) = q := by
  simp only [laneWords, List.mem_map, mem_maskLanes]

theorem laneWords_flag (i : Issue) (f : Nat → Word × Bool) (dest : Nat) :
    (laneWords i f dest).2 = (upTo 8).any fun l => (slMask i.ops).testBit l && (f l).2 := by
  simp only [laneWords, maskLanes, List.any_filter]

theorem effAccWb_eq {i : Issue} {m : RoundMode} (h : roundOfCode (slRoundWb i.ops) = some m) :
    let r := laneWords i (fun l => accWriteback (tblGet 0 i.t.acc l) (slK8 i.ops) m) (slVa i.ops)
    effAccWb i = some (.plain i.t r.1 (flagIf r.2 satWb)) := by
  rw [effAccWb, h]
  rfl

/-- Settles O29: a writeback is the rounding of Table 03.2 followed by a saturation that alone sets the flag, lane by lane. -/
theorem writebackRoundsThenSaturates : Obligations.WritebackRoundsThenSaturates := by
  unfold Obligations.WritebackRoundsThenSaturates
  refine ⟨accWriteback_saturates_rounded, fun t sl i w m s hi hm => ?_⟩
  obtain ⟨u, hrun, hflight, hacc, -⟩ := runSlot_of_issue hi (effAccWb_eq hm)
  refine ⟨u, _, congrArg _ hrun, hflight, hacc, fun l hl hsel => ?_, fun q hq => ?_, ?_⟩
  · exact mem_laneWords.2 ⟨l, ⟨hl, hsel⟩, rfl⟩
  · obtain ⟨l, ⟨hl, hsel⟩, rfl⟩ := mem_laneWords.1 hq
    exact ⟨l, hl, hsel, rfl⟩
  · exact congrArg (flagIf · satWb) (laneWords_flag ..)

end Sys2Proof.Machine
end

section
/-! SUPPORT. DISABLE of an enabled partition (R541): when it counts as in use, and what the request does then. -/

namespace Sys2Proof.Machine

/-- Until BOOT_FAIL a host's register write has its effect. -/
theorem hostWrite_of_phase_ne_bootFail {s : State} (t : State) (h : s.rst.phase ≠ .bootFail) : hostWrite s t = .next t :=
  congrArg _ (if_neg h)

theorem any_upTo_iff {n : Nat} {f : Nat → Bool} : (upTo n).any f = true ↔ ∃ i < n, f i = true := by
  simp only [upTo, List.any_eq_true, List.mem_range]

/-- Beside the three uses R541 names, the model counts an image that is still loading. -/
theorem disableBusy_iff {s : State} {p : Nat} :
    disableBusy s p = true ↔
      (∃ c < 64, (getCtx s c).on = true ∧ (getCtx s c).part = p)
        ∨ (∃ k < 8, (getSlot s p k).img.isSome = true ∨ (getSlot s p k).loading.isSome = true)
        ∨ ∃ j < 64, entryOn s p j = true := by
  simp only [disableBusy, Bool.or_eq_true, any_upTo_iff, Bool.and_eq_true, decide_eq_true_eq, or_assoc]

theorem disablePart_of_busy {s : State} {p : Nat} (hshape : (getPart s p).reshaping = false) (hon : (getPart s p).on = true)
    (hbusy : disableBusy s p = true) : disablePart s p = recordErr s (fabErr p) 8 := by
  simp [disablePart, ctlBusy, hshape, hon, hbusy]

/-- Settles O36: each of the three uses makes the partition busy, and a busy partition's DISABLE only records cause 8. -/
theorem disableRefusedWhileInUse : Obligations.DisableRefusedWhileInUse := by
  unfold Obligations.DisableRefusedWhileInUse
  intro p s hphase hshape hon huse
  have hbusy : disableBusy s p.val = true := disableBusy_iff.2 <| by
    obtain hctx | ⟨k, hk, himg⟩ | hentry := huse
    · exact .inl hctx
    · exact .inr (.inl ⟨k, hk, .inl himg⟩)
    · exact .inr (.inr hentry)
  calc exec (.disable p) s
      = hostWrite s (disablePart s p.val) := rfl
    _ = .next (disablePart s p.val) := hostWrite_of_phase_ne_bootFail _ hphase
    _ = .next (recordErr s (fabErr p.val) 8) := congrArg _ (disablePart_of_busy hshape hon hbusy)

end Sys2Proof.Machine
end

section
/-! SUPPORT. The block as a whole: what any command may touch, from the laws of the 200 commands. Safety, the motion of the fuses
and what a command leaves unchanged follow from it. -/

namespace Sys2Proof.Machine

/-- The fields a command may touch: its reach, but for a frame a Quill link receives. One whose CRC or code is wrong may be one error too
many for the link's transceiver, which is then marked failed with its fault record, its events and its spare (R524). -/
def touches : Instr → List Field
  | .data _ _ | .bulk _ _ | .ident _ _ | .leave _ _ | .null _ _ =>
    [.freeCtr, .regs, .parts, .ctxs, .rings, .journal, .waiting, .host, .mailbox, .nibs, .links, .partners, .fuse, .blt, .anl]
  | c => reach c

/-- Every command differs from the state before at most in the fields it touches, and keeps the state safe. -/
theorem exec_touch (c : Instr) (s : State) : TouchR (touches c) s (exec c s) := by
  cases c with
  | doorbellSubmit f page off bytes v => exact execDoorbellSubmit_touch f page off bytes v s
  | doorbellCqHead f page bytes v => exact execDoorbellCqHead_touch f page bytes v s
  | descriptorFetch c r => exact execDescriptorFetch_touch c r s
  | nop c r => exact execNop_touch c r s
  | object c r => exact execObject_touch c r s
  | imageBind c r => exact execImageBind_touch c r s
  | bindComplete p k => exact execBindComplete_touch p k s
  | imageUnbind c r => exact execImageUnbind_touch c r s
  | unbindAtBoundary p k => exact execUnbindAtBoundary_touch p k s
  | resultRead c r => exact execResultRead_touch c r s
  | beSolve c r => exact execBeSolve_touch c r s
  | beModel c r => exact execBeModel_touch c r s
  | pause c r => exact execPause_touch c r s
  | resume c r => exact execResume_touch c r s
  | hostReadFail c => exact execHostReadFail_touch c s
  | journalRelease c => exact execJournalRelease_touch c s
  | functionLoss f => exact execFunctionLoss_touch f s
  | warmRecovery c => exact execWarmRecovery_touch c s
  | dataBlock p => exact execDataBlock_touch p s
  | updateList p => exact execUpdateList_touch p s
  | instDecl p => exact execInstDecl_touch p s
  | instRelease p => exact execInstRelease_touch p s
  | warmStart p => exact execWarmStart_touch p s
  | streamSetVerdict p => exact execStreamSetVerdict_touch p s
  | commitSetVerdict p => exact execCommitSetVerdict_touch p s
  | cutoff p j => exact execCutoff_touch p j s
  | launch p j => exact execLaunch_touch p j s
  | segmentBoundary p => exact execSegmentBoundary_touch p s
  | assayVerdict p fault => exact execAssayVerdict_touch p fault s
  | deadlineTick p j => exact execDeadlineTick_touch p j s
  | release p j => exact execRelease_touch p j s
  | windowOpen p w => exact execWindowOpen_touch p w s
  | killEnd p => exact execKillEnd_touch p s
  | rerunStart p j => exact execRerunStart_touch p j s
  | beStart p => exact execBeStart_touch p s
  | kernelStart p => exact execKernelStart_touch p s
  | kernelEnd p => exact execKernelEnd_touch p s
  | beCommit p => exact execBeCommit_touch p s
  | bulkHandover p => exact execBulkHandover_touch p s
  | packetBankWrite t => exact execPacketBankWrite_touch t s
  | opRetire t k => exact execOpRetire_touch t k s
  | strokeNop t sl => exact execStrokeNop_touch t sl s
  | mac t sl => exact execMac_touch t sl s
  | accadd t sl => exact execAccadd_touch t sl s
  | accWb t sl => exact execAccWb_touch t sl s
  | tmac t sl => exact execTmac_touch t sl s
  | twb t sl => exact execTwb_touch t sl s
  | mwadd t sl => exact execMwadd_touch t sl s
  | mwsub t sl => exact execMwsub_touch t sl s
  | mwmul t sl => exact execMwmul_touch t sl s
  | mwext t sl => exact execMwext_touch t sl s
  | mwnarrow t sl => exact execMwnarrow_touch t sl s
  | fadd t sl => exact execFadd_touch t sl s
  | fsub t sl => exact execFsub_touch t sl s
  | fmul t sl => exact execFmul_touch t sl s
  | fma t sl => exact execFma_touch t sl s
  | min t sl => exact execMin_touch t sl s
  | max t sl => exact execMax_touch t sl s
  | cmpeq t sl => exact execCmpeq_touch t sl s
  | cmplt t sl => exact execCmplt_touch t sl s
  | cmple t sl => exact execCmple_touch t sl s
  | cvt t sl => exact execCvt_touch t sl s
  | recip t sl => exact execRecip_touch t sl s
  | rsqrt t sl => exact execRsqrt_touch t sl s
  | div t sl => exact execDiv_touch t sl s
  | cxfer t sl => exact execCxfer_touch t sl s
  | lcopy t sl => exact execLcopy_touch t sl s
  | dmard t sl => exact execDmard_touch t sl s
  | dmawr t sl => exact execDmawr_touch t sl s
  | pkt t sl => exact execPkt_touch t sl s
  | idle t => exact execIdle_touch t s
  | accopen t => exact execAccopen_touch t s
  | fpbar t => exact execFpbar_touch t s
  | loop t => exact execLoop_touch t s
  | famcall t => exact execFamcall_touch t s
  | famret t => exact execFamret_touch t s
  | segend t => exact execSegend_touch t s
  | holdEntry => exact execHoldEntry_touch s
  | holdExit => exact execHoldExit_touch s
  | reshapeStart => exact execReshapeStart_touch s
  | reshapeEnd => exact execReshapeEnd_touch s
  | powerDomainLower d st => exact execPowerDomainLower_touch d st s
  | powerDomainWake d => exact execPowerDomainWake_touch d s
  | strokeReload quad => exact execStrokeReload_touch quad s
  | uncorrectableError e addr => exact execUncorrectableError_touch e addr s
  | scrub array addr corrected => exact execScrub_touch array addr corrected s
  | assayKat lane pass => exact execAssayKat_touch lane pass s
  | assayClockFault => exact execAssayClockFault_touch s
  | tileKat t pass => exact execTileKat_touch t pass s
  | tjSample readings => exact execTjSample_touch readings s
  | throttleStep => exact execThrottleStep_touch s
  | powerEstimate mW => exact execPowerEstimate_touch mW s
  | tjShut sensor => exact execTjShut_touch sensor s
  | nibSample n => exact execNibSample_touch n s
  | freeRunSlot n => exact execFreeRunSlot_touch n s
  | arm n => exact execArm_touch n s
  | rearm n => exact execRearm_touch n s
  | stop n => exact execStop_touch n s
  | swap n => exact execSwap_touch n s
  | nibCoefDataAccess n write => exact execNibCoefDataAccess_touch n write s
  | dataHandover q => exact execDataHandover_touch q s
  | data q f => exact (execData_touch q f s).mono rfl
  | bulk q f => exact (execBulk_touch q f s).mono rfl
  | ident q f => exact (execIdent_touch q f s).mono rfl
  | leave q f => exact (execLeave_touch q f s).mono rfl
  | null q f => exact (execNull_touch q f s).mono rfl
  | linkUp q epoch => exact execLinkUp_touch q epoch s
  | linkAck q epoch => exact execLinkAck_touch q epoch s
  | nakLc q seq => exact execNakLc_touch q seq s
  | nakBe q seq => exact execNakBe_touch q seq s
  | credit q lc be => exact execCredit_touch q lc be s
  | down q => exact execDown_touch q s
  | nakTimeout q cl => exact execNakTimeout_touch q cl s
  | replayExpire q cl => exact execReplayExpire_touch q cl s
  | linkUpTimer q => exact execLinkUpTimer_touch q s
  | creditTimer q => exact execCreditTimer_touch q s
  | unconfNullTimer q => exact execUnconfNullTimer_touch q s
  | lockAcquired q => exact execLockAcquired_touch q s
  | linkErrors q => exact execLinkErrors_touch q s
  | portPllLock port => exact execPortPllLock_touch port s
  | safeFrameTimer d => exact execSafeFrameTimer_touch d s
  | dpFrameRx d f => exact execDpFrameRx_touch d f s
  | ethStreamRx e f => exact execEthStreamRx_touch e f s
  | partnerSilence n => exact execPartnerSilence_touch n s
  | approve n => exact execApprove_touch n s
  | reject n => exact execReject_touch n s
  | loopRoleWrite q => exact execLoopRoleWrite_touch q s
  | tick => exact execTick_touch s
  | ptpMeasurement port e pd => exact execPtpMeasurement_touch port e pd s
  | syncInEdge te narrow => exact execSyncInEdge_touch te narrow s
  | syncOutPulse => exact execSyncOutPulse_touch s
  | sourceTimeout => exact execSourceTimeout_touch s
  | tuStepCmd v => exact execTuStepCmd_touch v s
  | stepApply => exact execStepApply_touch s
  | accept => exact execAccept_touch s
  | tuSrcWrite v => exact execTuSrcWrite_touch v s
  | refclkLoss => exact execRefclkLoss_touch s
  | refclkReturn => exact execRefclkReturn_touch s
  | resetNLow ns => exact execResetNLow_touch ns s
  | brownout r => exact execBrownout_touch r s
  | powerOn => exact execPowerOn_touch s
  | supplyGood r => exact execSupplyGood_touch r s
  | vddkWarnRise => exact execVddkWarnRise_touch s
  | watchdogExpire => exact execWatchdogExpire_touch s
  | rstWdogKick => exact execRstWdogKick_touch s
  | rstWarmReq v => exact execRstWarmReq_touch v s
  | rstPartReq v => exact execRstPartReq_touch v s
  | rstPortReq v => exact execRstPortReq_touch v s
  | tamper k => exact execTamper_touch k s
  | coldRelease fault => exact execColdRelease_touch fault s
  | warmRelease fault => exact execWarmRelease_touch fault s
  | partitionRelease p fault => exact execPartitionRelease_touch p fault s
  | portRelease port => exact execPortRelease_touch port s
  | bootPauseEnd => exact execBootPauseEnd_touch s
  | enable p => exact execEnable_touch p s
  | disable p => exact execDisable_touch p s
  | reshape p => exact execReshape_touch p s
  | fabPartCutoffWrite p v => exact execFabPartCutoffWrite_touch p v s
  | fabSemWrite n v => exact execFabSemWrite_touch n v s
  | cntClr off v => exact execCntClr_touch off v s
  | launchEntryEnable p j v => exact execLaunchEntryEnable_touch p j v s
  | launchEntryDisable p j v => exact execLaunchEntryDisable_touch p j v s
  | slotTableWrite p k w v => exact execSlotTableWrite_touch p k w v s
  | ducBindWrite p k w v => exact execDucBindWrite_touch p k w v s
  | ringCreate c r v => exact execRingCreate_touch c r v s
  | ringDisable c r => exact execRingDisable_touch c r s
  | ringDrained c r => exact execRingDrained_touch c r s
  | contextCreate c v => exact execContextCreate_touch c v s
  | contextDestroy c => exact execContextDestroy_touch c s
  | pwrSafeClr => exact execPwrSafeClr_touch s
  | anlGo => exact execAnlGo_touch s
  | hmkAttCmd h => exact execHmkAttCmd_touch h s
  | hmkChalRead => exact execHmkChalRead_touch s
  | hmkTokenCmd h => exact execHmkTokenCmd_touch h s
  | hmkRevoke v => exact execHmkRevoke_touch v s
  | hmkSvnCmd => exact execHmkSvnCmd_touch s
  | hmkExportLoad => exact execHmkExportLoad_touch s
  | trngHealthFail => exact execTrngHealthFail_touch s
  | bltModeWrite v => exact execBltModeWrite_touch v s
  | bltSnap v => exact execBltSnap_touch v s
  | snapTimer => exact execSnapTimer_touch s
  | bltMark tag => exact execBltMark_touch tag s
  | bltTrig => exact execBltTrig_touch s
  | postTriggerEnd => exact execPostTriggerEnd_touch s
  | blotterDrain => exact execBlotterDrain_touch s
  | bltExpCmd => exact execBltExpCmd_touch s
  | exportDone => exact execExportDone_touch s
  | bltImpCmd => exact execBltImpCmd_touch s
  | bltRplArm => exact execBltRplArm_touch s
  | bltRplAbort => exact execBltRplAbort_touch s
  | replayStart => exact execReplayStart_touch s
  | replayDelivery => exact execReplayDelivery_touch s
  | registerWrite h addr bytes v => exact execRegisterWrite_touch h addr bytes v s
  | vddkWarnClear => exact execVddkWarnClear_touch s
  | pllLockLoss pll => exact execPllLockLoss_touch pll s
  | debugReset => exact execDebugReset_touch s
  | attestationDone => exact execAttestationDone_touch s
  | oscillatorCycle => exact execOscillatorCycle_touch s
  | ethLinkDown e => exact execEthLinkDown_touch e s
  | grandmasterChange identity => exact execGrandmasterChange_touch identity s

theorem touch_of_exec {c : Instr} {s t : State} (h : exec c s = .next t) : Touch (touches c) s t := (exec_touch c s).out t h

theorem pending_not_mem_touches (c : Instr) : Field.pending ∉ touches c := by
  cases c <;> simp [touches, reach]

/-- No command touches the queue of waiting commands. -/
theorem commandsLeaveTheQueue : CommandsLeaveTheQueue := fun c _ _ h => (touch_of_exec h).same .pending (pending_not_mem_touches c)

theorem keeps_of_exec {c : Instr} {s t : State} (h : exec c s = .next t) : Keeps s t := (touch_of_exec h).2

/-- A step is idle or a command on the state with the rest of the queue, which differs only in the queue. -/
theorem keeps_of_step {s t : State} (h : step s = .next t) : Keeps s t := by
  unfold step at h
  split at h
  case h_1 =>
    cases h
    exact Keeps.refl s
  case h_2 => exact (Touch.updPending (by decide) (Touch.refl [.pending] s)).2.trans (keeps_of_exec h)

theorem Keeps.safe {s t : State} (h : Keeps s t) (hs : s.safe) : t.safe := by
  obtain ⟨hhost, hmail, hregs, hfuse⟩ := h
  obtain ⟨⟨hh, hm, hr⟩, hf⟩ := hs
  exact ⟨⟨hhost hh, hmail hm, hregs hr⟩, (hfuse hf).1⟩

theorem Keeps.fuse_before {s t : State} (h : Keeps s t) (hs : s.safe) : s.fuse.before t.fuse := by
  obtain ⟨-, -, -, hfuse⟩ := h
  exact (hfuse hs.2).2

/-- Settles O4: each command's law keeps the canonical forms and the legality of the fuses. -/
theorem stepKeepsSafe : Obligations.StepKeepsSafe := fun _ _ hs h => (keeps_of_step h).safe hs

/-- Settles O5: each command's law moves the fuses forward from a legal state. -/
theorem stepMovesFusesForward : Obligations.StepMovesFusesForward := fun _ _ hs h => (keeps_of_step h).fuse_before hs

/-- Every command answers a next state: where a command looks at the state, each of its branches does. -/
theorem everyCommandAnswers : EveryCommandAnswers := by
  intro c s
  cases c with
  | doorbellSubmit | doorbellCqHead | hostReadFail | functionLoss | dataBlock | updateList | instDecl | instRelease
   | warmStart | mac | accadd | accWb | tmac | twb | mwadd | mwsub | mwmul | mwext | mwnarrow | fadd | fsub | fmul | fma
   | min | max | cmpeq | cmplt | cmple | cvt | recip | rsqrt | div | cxfer | lcopy | dmard | dmawr | pkt
   | uncorrectableError | assayClockFault | tjShut | arm | rearm | stop | swap | nakLc | nakBe | approve | reject
   | loopRoleWrite | tuStepCmd | accept | tuSrcWrite | refclkReturn | vddkWarnRise | rstWdogKick | rstWarmReq | rstPartReq
   | rstPortReq | tamper | enable | disable | reshape | fabPartCutoffWrite | fabSemWrite | cntClr | launchEntryEnable
   | launchEntryDisable | slotTableWrite | ducBindWrite | ringCreate | ringDisable | contextCreate | contextDestroy
   | pwrSafeClr | anlGo | hmkAttCmd | hmkChalRead | hmkTokenCmd | hmkRevoke | hmkSvnCmd | hmkExportLoad | bltModeWrite
   | bltSnap | snapTimer | bltMark | bltTrig | bltExpCmd | bltImpCmd | bltRplArm | bltRplAbort
   | vddkWarnClear | ethLinkDown => exact ⟨_, rfl⟩
  | descriptorFetch | nop | object | imageBind | bindComplete | imageUnbind | unbindAtBoundary | resultRead | beSolve
   | beModel | pause | resume | journalRelease | warmRecovery | streamSetVerdict | commitSetVerdict | cutoff | launch
   | segmentBoundary | assayVerdict | deadlineTick | release | windowOpen | killEnd | rerunStart | beStart | kernelStart
   | kernelEnd | packetBankWrite | opRetire | strokeNop | idle | accopen | fpbar | loop | famcall
   | famret | segend | holdEntry | holdExit | reshapeStart | reshapeEnd | powerDomainLower | powerDomainWake | strokeReload
   | scrub | assayKat | tileKat | tjSample | throttleStep | powerEstimate | nibSample | freeRunSlot | nibCoefDataAccess
   | dataHandover | data | bulk | ident | leave | null | linkUp | linkAck | credit | down | nakTimeout | replayExpire
   | linkUpTimer | creditTimer | unconfNullTimer | lockAcquired | linkErrors | portPllLock | safeFrameTimer | dpFrameRx
   | ethStreamRx | partnerSilence | tick | ptpMeasurement | syncInEdge | syncOutPulse | sourceTimeout | stepApply
   | refclkLoss | resetNLow | brownout | powerOn | supplyGood | watchdogExpire | coldRelease | warmRelease
   | partitionRelease | portRelease | bootPauseEnd | ringDrained | postTriggerEnd | blotterDrain
   | exportDone | replayStart | pllLockLoss
   | replayDelivery | registerWrite | debugReset | attestationDone | oscillatorCycle | grandmasterChange =>
    unfold exec
    simp only [execDescriptorFetch, execNop, execObject, execImageBind, execBindComplete, execImageUnbind, execUnbindAtBoundary,
      execResultRead, execBeSolve, execBeModel, execPause, execResume, execJournalRelease, execWarmRecovery,
      execStreamSetVerdict, execCommitSetVerdict, execCutoff, execLaunch, execSegmentBoundary, execAssayVerdict,
      execDeadlineTick, execRelease, execWindowOpen, execKillEnd, execRerunStart, execBeStart, execKernelStart,
      execKernelEnd, execPacketBankWrite, execOpRetire, execStrokeNop, execIdle, execAccopen, execFpbar, execLoop,
      execFamcall, execFamret, execSegend, execHoldEntry, execHoldExit, execReshapeStart, execReshapeEnd,
      execPowerDomainLower, execPowerDomainWake, execStrokeReload, execScrub, execAssayKat, execTileKat, execTjSample,
      execThrottleStep, execPowerEstimate, execNibSample, execFreeRunSlot, execNibCoefDataAccess, execDataHandover,
      execData, execBulk, execIdent, execLeave, execNull, execLinkUp, execLinkAck, execCredit, execDown, execNakTimeout,
      execReplayExpire, execLinkUpTimer, execCreditTimer, execUnconfNullTimer, execLockAcquired, execLinkErrors,
      execPortPllLock, execSafeFrameTimer, execDpFrameRx, execEthStreamRx, execPartnerSilence, execTick,
      execPtpMeasurement, execSyncInEdge, execSyncOutPulse, execSourceTimeout, execStepApply, execRefclkLoss,
      execResetNLow, execBrownout, execPowerOn, execSupplyGood, execWatchdogExpire, execColdRelease, execWarmRelease,
      execPartitionRelease, execPortRelease, execBootPauseEnd, execRingDrained, execPostTriggerEnd, execBlotterDrain,
      execExportDone, execReplayStart, execAssayClockFault, execPllLockLoss, execReplayDelivery, execRegisterWrite,
      execDebugReset, execAttestationDone, execOscillatorCycle, execGrandmasterChange]
    repeat' split
    all_goals exact ⟨_, rfl⟩
  | beCommit =>
    unfold exec execBeCommit
    dsimp only
    repeat' split
    all_goals exact ⟨_, rfl⟩
  | bulkHandover =>
    unfold exec execBulkHandover
    dsimp only
    repeat' split
    all_goals exact ⟨_, rfl⟩
  | trngHealthFail =>
    unfold exec execTrngHealthFail
    dsimp only
    repeat' split
    all_goals exact ⟨_, rfl⟩

/-- Settles O6: the laws of the commands leave the queue out, and every branch of a command answers. -/
theorem commandsAnswerInOneStep : Obligations.CommandsAnswerInOneStep := ⟨commandsLeaveTheQueue, everyCommandAnswers⟩

/-- Settles O1: a step takes the front command by definition. -/
theorem stepRunsTheFrontCommand : Obligations.StepRunsTheFrontCommand := by
  intro c rest s h
  simp only [step, h]

/-- Settles O2: with nothing queued a step idles by definition. -/
theorem emptyQueueIdles : Obligations.EmptyQueueIdles := by
  intro s h
  simp only [step, h]

/-- Settles O3: the empty tables of the reset state are canonical and read as the resets of their kinds. -/
theorem resetStateIsSafe : Obligations.ResetStateIsSafe := by
  have hcanon : State.reset.canon := ⟨by decide, by decide, by decide⟩
  have hlegal : State.reset.fuse.legal := ⟨by decide, fun t ht => by cases ht⟩
  exact ⟨⟨hcanon, hlegal⟩, rfl, rfl, rfl, rfl, fun _ => rfl, fun _ => rfl, fun _ => rfl, fun _ _ => rfl⟩

/-- Link 0 is UP, and nothing else differs from the reset state. -/
def linkUpState : State := setLink State.reset 0 { Link.reset with st := .up }

/-- A frame whose CRC is wrong. -/
def crcFrame : QuillFrame := ⟨0, 0, true, 0, false, 0, [], .crc⟩

/-- Refutes O7: the reach of a NULL frame is the registers alone, but one with a wrong CRC is also noted in its link, whose transceiver
fails with one error too many (R524). The frame of a link that has just come UP shows it. -/
theorem not_commandsStayInTheirReach : ¬ Obligations.CommandsStayInTheirReach := by
  unfold Obligations.CommandsStayInTheirReach
  intro h
  have hexec : exec (.null 0 crcFrame) linkUpState = .next (laneError linkUpState 0) := rfl
  have hlinks : Field.same .links linkUpState (laneError linkUpState 0) := h _ _ _ .links hexec (by decide)
  have herrs : ((laneError linkUpState 0).links.map fun e => e.2.errs) = linkUpState.links.map fun e => e.2.errs :=
    congrArg (List.map fun e => e.2.errs) hlinks
  exact absurd herrs (by decide)

end Sys2Proof.Machine
end

section
/-! SUPPORT. BOOT_FAIL (R464): host writes do nothing in it, and only a Cold reset ends it. -/

namespace Sys2Proof.Machine

theorem hostWrite_of_bootFail {s : State} (t : State) (h : s.rst.phase = .bootFail) : hostWrite s t = .next s :=
  congrArg _ (if_pos h)

theorem isReady_of_bootFail {s : State} (h : s.rst.phase = .bootFail) : isReady s = false := by
  simp [isReady, h]

theorem execRegisterWrite_of_bootFail (p : HostPort) (a : BitVec 32) (n : Nat) (v : Word) {s : State} (h : s.rst.phase = .bootFail) :
    execRegisterWrite p a n v s = .next s := by
  simp only [execRegisterWrite, hostWrite_of_bootFail _ h]
  repeat' split
  all_goals rfl

/-- In BOOT_FAIL no host write of a register has an effect. -/
theorem bootFailIgnoresHostWrites : BootFailIgnoresHostWrites := by
  intro c s hc h
  cases c with
  | registerWrite p a n v => exact execRegisterWrite_of_bootFail p a n v h
  | nibCoefDataAccess n w =>
    cases w with
    | none => exact (Bool.false_ne_true hc).elim
    | some v => exact hostWrite_of_bootFail _ h
  | arm n => exact hostWrite_of_bootFail (armEngine s n.val) h
  | rearm n => exact hostWrite_of_bootFail (rearmEngine s n.val) h
  | stop n => exact hostWrite_of_bootFail (stopEngine s n.val) h
  | swap n => exact hostWrite_of_bootFail (askSwap s n.val) h
  | approve n => exact hostWrite_of_bootFail (approve s n.val) h
  | reject n => exact hostWrite_of_bootFail (reject s n.val) h
  | loopRoleWrite q => exact hostWrite_of_bootFail (loopRole s q.val) h
  | tuStepCmd v => exact hostWrite_of_bootFail (stepCmd s v) h
  | accept => exact hostWrite_of_bootFail (acceptPath s) h
  | tuSrcWrite v => exact hostWrite_of_bootFail (srcWrite s v) h
  | rstWdogKick => exact hostWrite_of_bootFail (kick s) h
  | rstWarmReq v => exact hostWrite_of_bootFail (softwareReset s v) h
  | rstPartReq v => exact hostWrite_of_bootFail (partReq s v) h
  | rstPortReq v => exact hostWrite_of_bootFail (portReq s v) h
  | enable p => exact hostWrite_of_bootFail (enablePart s p.val) h
  | disable p => exact hostWrite_of_bootFail (disablePart s p.val) h
  | reshape p => exact hostWrite_of_bootFail (askReshape s p.val) h
  | fabPartCutoffWrite p v => exact hostWrite_of_bootFail (cutoffWrite s p.val v) h
  | fabSemWrite n v => exact hostWrite_of_bootFail (semWrite s n.toNat v) h
  | cntClr off v => exact hostWrite_of_bootFail (clearCounters s off.toNat v) h
  | launchEntryEnable p j v => exact hostWrite_of_bootFail (launchEnable s p.val j.val v) h
  | launchEntryDisable p j v => exact hostWrite_of_bootFail (launchDisable s p.val j.val v) h
  | slotTableWrite p k w v => exact hostWrite_of_bootFail (slotTableWrite s p.val k.toNat w.val v) h
  | ducBindWrite p k w v => exact hostWrite_of_bootFail (bindWrite s p.val k.val w.val v) h
  | ringCreate c r v => exact hostWrite_of_bootFail (ringCreate s c.val r.val v) h
  | ringDisable c r => exact hostWrite_of_bootFail (ringDisable s c.val r.val) h
  | contextCreate c v => exact hostWrite_of_bootFail (ctxCreate s c.val (v ||| 0x80000000)) h
  | contextDestroy c => exact hostWrite_of_bootFail (ctxDestroy s c.val) h
  | pwrSafeClr => exact hostWrite_of_bootFail (safeClear s) h
  | anlGo => exact hostWrite_of_bootFail (anlGo s) h
  | hmkAttCmd p => exact hostWrite_of_bootFail (attest s p) h
  | hmkTokenCmd p => exact hostWrite_of_bootFail (submitToken s p) h
  | hmkRevoke v => exact hostWrite_of_bootFail (revoke s v) h
  | hmkSvnCmd => exact hostWrite_of_bootFail (raiseSvn s) h
  | hmkExportLoad => exact hostWrite_of_bootFail (loadRecipient s) h
  | bltModeWrite v => exact hostWrite_of_bootFail (modeWrite s v) h
  | bltSnap v => exact hostWrite_of_bootFail (snapWrite s v) h
  | bltMark tag => exact hostWrite_of_bootFail (markWrite s tag) h
  | bltTrig => exact hostWrite_of_bootFail (trigWrite s) h
  | bltExpCmd => exact hostWrite_of_bootFail (startExport s) h
  | bltImpCmd => exact hostWrite_of_bootFail (importRecs s) h
  | bltRplArm => exact hostWrite_of_bootFail (armReplay s) h
  | bltRplAbort => exact hostWrite_of_bootFail (abortReplay s) h
  | _ => exact (Bool.false_ne_true hc).elim

/-- BOOT_FAIL, or the Cold reset that ends it. -/
def InBootFail (s : State) : Prop := s.rst.phase = .bootFail ∨ s.rst.phase = .coldReset

theorem rst_of_touch {L : List Field} {s t : State} (h : Touch L s t) (hL : Field.rst ∉ L) : t.rst = s.rst := h.same .rst hL

/-- A field outside the list of a function's law reads the same after it. -/
theorem same_of_law {L : List Field} {s t : State} (f : Field) (law : Field.sub L L = true → Touch L s s → Touch L s t)
    (hf : L.contains f = false) : f.same s t :=
  (law (by simp [Field.sub]) (Touch.refl L s)).same f fun hm => by simp [hm] at hf

theorem not_mem_of_contains {L : List Field} {f : Field} (h : ¬ L.contains f = true) : f ∉ L := fun hm => h (List.contains_iff_mem.2 hm)

theorem assertCold_phase (s : State) (b : Nat) : (assertCold s b).rst.phase = .coldReset := rfl

/-- In BOOT_FAIL a Warm source only shows its level. -/
theorem warmReset_phase_of_bootFail {s : State} (b : Nat) (h : s.rst.phase = .bootFail) : (warmReset s b).rst.phase = .bootFail := by
  simp [warmReset, assertWarm, h]

theorem tampered_inBootFail {s : State} (h : s.rst.phase = .bootFail) : InBootFail (tampered s) := by
  unfold tampered
  split
  · exact .inr (assertCold_phase ..)
  · exact .inl h

@[simp] theorem tuEvent_rst (s : State) (code : Nat) (a b : Word) (d : Word64) : (tuEvent s code a b d).rst = s.rst :=
  same_of_law .rst (tuEvent_touch code a b d) rfl

@[simp] theorem healthEvent_rst (s : State) (code kind index a b : Nat) : (healthEvent s code kind index a b).rst = s.rst :=
  same_of_law .rst (healthEvent_touch code kind index a b) rfl

@[simp] theorem enterHoldover_rst (s : State) (cause : Nat) : (enterHoldover s cause).rst = s.rst :=
  same_of_law .rst (enterHoldover_touch cause) rfl

@[simp] theorem enterSafe_rst (s : State) (sensor : Nat) (tj : Int) : (enterSafe s sensor tj).rst = s.rst :=
  same_of_law .rst (enterSafe_touch sensor tj) rfl

@[simp] theorem raiseEvent_rst (s : State) (ev : Nat) (p : Option Nat) (sub : Nat) (a b d : Word) (e : Word64) :
    (raiseEvent s ev p sub a b d e).rst = s.rst :=
  same_of_law .rst (raiseEvent_touch ev p sub a b d e) rfl

@[simp] theorem rerunAll_rst (s : State) (p : Nat) : (rerunAll s p).rst = s.rst :=
  same_of_law .rst (rerunAll_touch p) rfl

/-- A temperature sample ends at most the thermal source (R476). -/
theorem execTjSample_phase (l : List Int) {s t : State} (h : execTjSample l s = .next t) : t.rst.phase = s.rst.phase := by
  unfold execTjSample at h
  dsimp only at h
  split at h
  · cases h
    rfl
  · cases h
    repeat' split
    all_goals simp

/-- The end of Hold clears Hold and no more of the reset unit (R340). -/
theorem execHoldExit_phase {s t : State} (h : execHoldExit s = .next t) : t.rst.phase = s.rst.phase := by
  unfold execHoldExit at h
  split at h
  · cases h
    rfl
  · split at h
    · cases h
      rfl
    · rw [← Host.Outcome.next.inj h]
      refine List.foldlRecOn _ _ (motive := fun u : State => u.rst.phase = s.rst.phase) rfl fun u hu p _ => ?_
      dsimp only
      split <;> simp [hu]

/-- BOOT_FAIL is left only by a Cold reset. -/
theorem bootFailEndsOnlyByColdReset : BootFailEndsOnlyByColdReset := by
  intro c s t hp h
  by_cases hw : hostWrites c = true
  case pos =>
    cases (bootFailIgnoresHostWrites c s hw hp).symm.trans h
    exact .inl hp
  by_cases hr : (touches c).contains .rst = true
  case neg => exact .inl (by rw [rst_of_touch (touch_of_exec h) (not_mem_of_contains hr), hp])
  have hready := isReady_of_bootFail hp
  cases c with
  | holdEntry =>
    have hidle : execHoldEntry s = .next s := by simp [execHoldEntry, hready]
    cases hidle.symm.trans h
    exact .inl hp
  | holdExit => exact .inl ((execHoldExit_phase h).trans hp)
  | tjSample l => exact .inl ((execTjSample_phase l h).trans hp)
  | tjShut k =>
    cases h
    exact .inr (assertCold_phase ..)
  | refclkLoss =>
    change execRefclkLoss s = .next t at h
    unfold execRefclkLoss at h
    split at h
    · cases h
      exact .inl hp
    · rw [← Host.Outcome.next.inj h]
      refine .inl (warmReset_phase_of_bootFail _ ?_)
      repeat' split
      all_goals simpa using hp
  | refclkReturn =>
    rw [← Host.Outcome.next.inj h]
    left
    split
    · exact hp
    · rw [tuEvent_rst]
      exact hp
  | resetNLow ns =>
    change execResetNLow ns s = .next t at h
    unfold execResetNLow at h
    split at h
    · cases h
      exact .inr (assertCold_phase ..)
    · split at h
      · cases h
        exact .inl hp
      · rw [← Host.Outcome.next.inj h]
        split
        · exact .inr (assertCold_phase ..)
        · exact .inl hp
  | brownout r =>
    change execBrownout r s = .next t at h
    unfold execBrownout at h
    dsimp only at h
    split at h
    all_goals
      cases h
      exact .inr (assertCold_phase ..)
  | powerOn =>
    change execPowerOn s = .next t at h
    unfold execPowerOn at h
    split at h
    all_goals
      cases h
      exact .inl hp
  | supplyGood r =>
    change execSupplyGood r s = .next t at h
    unfold execSupplyGood at h
    split at h
    all_goals
      cases h
      exact .inl hp
  | vddkWarnRise =>
    cases h
    exact .inl hp
  | watchdogExpire =>
    have hidle : execWatchdogExpire s = .next s := by simp [execWatchdogExpire, dogRuns, hp]
    cases hidle.symm.trans h
    exact .inl hp
  | tamper k =>
    cases h
    exact tampered_inBootFail hp
  | coldRelease f =>
    have hidle : execColdRelease f s = .next s := by simp [execColdRelease, coldFree, hp]
    cases hidle.symm.trans h
    exact .inl hp
  | warmRelease f =>
    have hidle : execWarmRelease f s = .next s := by simp [execWarmRelease, warmFree, hp]
    cases hidle.symm.trans h
    exact .inl hp
  | partitionRelease p f =>
    have hidle : execPartitionRelease p f s = .next s := by simp [execPartitionRelease, hready]
    cases hidle.symm.trans h
    exact .inl hp
  | portRelease p =>
    have hidle : execPortRelease p s = .next s := by simp [execPortRelease, hready]
    cases hidle.symm.trans h
    exact .inl hp
  | bootPauseEnd =>
    change execBootPauseEnd s = .next t at h
    unfold execBootPauseEnd at h
    split at h
    all_goals
      cases h
      exact .inl hp
  | vddkWarnClear =>
    cases h
    exact .inl hp
  | pllLockLoss l =>
    cases l with
    | assay => exact .inl (by rw [rst_of_touch ((execAssayClockFault_touch s).out t h) (by decide), hp])
    | _ =>
      rw [← Host.Outcome.next.inj h]
      exact .inl (warmReset_phase_of_bootFail _ hp)
  | debugReset =>
    change execDebugReset s = .next t at h
    unfold execDebugReset at h
    split at h
    · rw [← Host.Outcome.next.inj h]
      exact .inl (warmReset_phase_of_bootFail _ hp)
    · cases h
      exact .inl hp
  | nibCoefDataAccess n w =>
    cases w with
    | none => exact (Bool.false_ne_true hr).elim
    | some v => exact (hw rfl).elim
  | _ => first | exact (Bool.false_ne_true hr).elim | exact (hw rfl).elim

/-- Settles O8: the host's writes are guarded by the phase, and of the commands that touch the reset unit none but a Cold source
changes BOOT_FAIL. -/
theorem bootFailHolds : Obligations.BootFailHolds := ⟨bootFailIgnoresHostWrites, bootFailEndsOnlyByColdReset⟩

end Sys2Proof.Machine
end

section
/-! SUPPORT. What completions, events and records do to the host interface (R356 to R364): a completion moves the head item of its
ring and no other ring; an event moves none, and adds to those that wait only groups without an item. -/

namespace Sys2Proof.Machine

/-- A field outside the list of what may change reads the same. -/
theorem Touch.keeps {L : List Field} {s t : State} (h : Touch L s t) (f : Field) (hf : L.contains f = false) : f.same s t :=
  h.same f fun hm => by simp [hm] at hf

-- reads while a table is the same

theorem getRing_congr {s t : State} (h : t.rings = s.rings) (c r : Nat) : getRing t c r = getRing s c r := by
  unfold getRing; rw [h]

theorem getCtx_congr {s t : State} (h : t.ctxs = s.ctxs) (c : Nat) : getCtx t c = getCtx s c := by
  unfold getCtx; rw [h]

theorem getPart_congr {s t : State} (h : t.parts = s.parts) (p : Nat) : getPart t p = getPart s p := by
  unfold getPart; rw [h]

-- writing a group

@[simp] theorem writeGroup_rings (s : State) (c : Nat) (h : CSlot) (l : List CSlot) : (writeGroup s c h l).rings = s.rings :=
  same_of_law .rings (writeGroup_touch c h l) rfl

@[simp] theorem writeGroup_waiting (s : State) (c : Nat) (h : CSlot) (l : List CSlot) : (writeGroup s c h l).waiting = s.waiting :=
  same_of_law .waiting (writeGroup_touch c h l) rfl

@[simp] theorem writeGroup_regs (s : State) (c : Nat) (h : CSlot) (l : List CSlot) : (writeGroup s c h l).regs = s.regs :=
  same_of_law .regs (writeGroup_touch c h l) rfl

/-- A context after groups were written to its completion ring: only the tail, DROP and the interrupt condition have moved. -/
def Ctx.sameBut (x y : Ctx) : Prop := y = { x with cqTail := y.cqTail, drop := y.drop, notify := y.notify }

theorem Ctx.sameBut_refl (x : Ctx) : x.sameBut x := rfl

theorem Ctx.sameBut_trans {x y z : Ctx} (h : x.sameBut y) (g : y.sameBut z) : x.sameBut z := by
  unfold Ctx.sameBut at *
  rw [g, h]

/-- Every context is the same but for what groups move. -/
def SameCtxs (s t : State) : Prop := ∀ d, (getCtx s d).sameBut (getCtx t d)

theorem SameCtxs.refl (s : State) : SameCtxs s s := fun d => (getCtx s d).sameBut_refl

theorem SameCtxs.trans {s t u : State} (h : SameCtxs s t) (g : SameCtxs t u) : SameCtxs s u := fun d => Ctx.sameBut_trans (h d) (g d)

theorem SameCtxs.of_eq {s t : State} (h : t.ctxs = s.ctxs) : SameCtxs s t := fun d => by
  rw [getCtx_congr h]
  exact (getCtx s d).sameBut_refl

theorem SameCtxs.setCtx {s : State} {c : Nat} {x : Ctx} (h : (getCtx s c).sameBut x) : SameCtxs s (setCtx s c x) := fun d => by
  rw [getCtx_setCtx]
  split
  next hcd => exact hcd ▸ h
  next => exact (getCtx s d).sameBut_refl

@[simp] theorem journalAdd_ctxs (s : State) (g : JGroup) : (journalAdd s g).ctxs = s.ctxs :=
  same_of_law .ctxs (journalAdd_touch g) rfl

theorem writePads_sameCtxs (n c : Nat) (s : State) : SameCtxs s (writePads n s c) := by
  induction n generalizing s with
  | zero => exact SameCtxs.refl s
  | succ n ih =>
    refine SameCtxs.trans ?_ (ih _)
    refine (SameCtxs.of_eq (journalAdd_ctxs s _)).trans (SameCtxs.setCtx ?_)
    rw [getCtx_congr (journalAdd_ctxs s _)]
    rfl

theorem writeGroup_sameCtxs (s : State) (c : Nat) (h : CSlot) (l : List CSlot) : SameCtxs s (writeGroup s c h l) :=
  (writePads_sameCtxs _ c s).trans ((SameCtxs.of_eq (journalAdd_ctxs _ _)).trans (SameCtxs.setCtx rfl))

-- a group enters the journal or waits for it

theorem enterGroup_sameCtxs (s : State) (w : WaitGroup) : SameCtxs s (enterGroup s w) := by
  unfold enterGroup
  split
  case h_1 r gen _ =>
    have hgroup := (writeGroup_sameCtxs s w.ctx w.head w.exts).trans (SameCtxs.setCtx
      (x := { getCtx (writeGroup s w.ctx w.head w.exts) w.ctx with
        notify := (getCtx (writeGroup s w.ctx w.head w.exts) w.ctx).notify || w.notify }) rfl)
    dsimp only
    split
    · exact hgroup.trans (SameCtxs.of_eq rfl)
    · exact hgroup
  case h_2 =>
    dsimp only
    split
    · exact SameCtxs.refl s
    · split
      · exact writeGroup_sameCtxs s w.ctx w.head w.exts
      · exact (SameCtxs.of_eq (t := bump s (ctxOff w.ctx 0x148)) rfl).trans (SameCtxs.setCtx rfl)

@[simp] theorem enterGroup_waiting (s : State) (w : WaitGroup) : (enterGroup s w).waiting = s.waiting :=
  same_of_law .waiting (enterGroup_touch w) rfl

/-- A LAUNCH or EVENT group moves no ring. -/
theorem enterGroup_rings_of_none {s : State} {w : WaitGroup} (h : w.item = none) : (enterGroup s w).rings = s.rings := by
  unfold enterGroup
  simp only [h]
  repeat' split
  all_goals simp [bump]

/-- The group of an item is written whatever room its ring has: nothing is counted. -/
theorem enterGroup_regs_of_some {s : State} {w : WaitGroup} {i : Nat × BitVec 8} (h : w.item = some i) : (enterGroup s w).regs = s.regs := by
  unfold enterGroup
  simp only [h]
  split
  · simp
  · simp

/-- The group of an item moves the commit index of its ring, while that has the item's GEN, and no other ring. -/
theorem getRing_enterGroup {s : State} {w : WaitGroup} {r : Nat} {gen : BitVec 8} (h : w.item = some (r, gen)) (hr : r < 8)
    (d : Nat) {q : Nat} (hq : q < 8) : getRing (enterGroup s w) d q =
      if (w.ctx = d ∧ r = q) ∧ (getRing s w.ctx r).gen = gen then { getRing s w.ctx r with cmp := (getRing s w.ctx r).cmp + 1 }
      else getRing s d q := by
  have hsame : ∀ (x : Ctx) d q, getRing (setCtx (writeGroup s w.ctx w.head w.exts) w.ctx x) d q = getRing s d q := fun x d q =>
    getRing_congr (by simp) d q
  unfold enterGroup
  simp only [h, hsame]
  by_cases hg : (getRing s w.ctx r).gen = gen
  · simp only [hg, if_true, and_true, getRing_setRing _ _ _ _ _ _ hr hq, hsame]
  · simp only [hg, if_false, and_false, hsame]

/-- The groups that wait, and after them groups that complete no item. -/
def AddsEvents (s t : State) : Prop := ∃ l, t.waiting = s.waiting ++ l ∧ ∀ w ∈ l, w.item = none

theorem AddsEvents.of_eq {s t : State} (h : t.waiting = s.waiting) : AddsEvents s t := ⟨[], by simp [h], by simp⟩

theorem AddsEvents.trans {s t u : State} (h : AddsEvents s t) (g : AddsEvents t u) : AddsEvents s u := by
  obtain ⟨l, hl, hnone⟩ := h
  obtain ⟨m, hm, hnone'⟩ := g
  refine ⟨l ++ m, by rw [hm, hl, List.append_assoc], fun w hw => ?_⟩
  obtain hw | hw := List.mem_append.1 hw
  · exact hnone w hw
  · exact hnone' w hw

/-- What an event or a record leaves of the host interface: the rings, the contexts but for their completion rings' tails, and the groups
that wait, with more events behind them. -/
structure Quiet (s t : State) : Prop where
  rings : t.rings = s.rings
  adds : AddsEvents s t
  ctxs : SameCtxs s t

theorem Quiet.refl (s : State) : Quiet s s := ⟨rfl, .of_eq rfl, .refl s⟩

theorem Quiet.trans {s t u : State} (h : Quiet s t) (g : Quiet t u) : Quiet s u :=
  ⟨g.rings.trans h.rings, h.adds.trans g.adds, h.ctxs.trans g.ctxs⟩

theorem Quiet.of_eq {s t : State} (hr : t.rings = s.rings) (hw : t.waiting = s.waiting) (hc : t.ctxs = s.ctxs) : Quiet s t :=
  ⟨hr, .of_eq hw, .of_eq hc⟩

/-- A function whose law leaves out the host interface is quiet. -/
theorem Quiet.of_law {L : List Field} {s t : State} (law : Field.sub L L = true → Touch L s s → Touch L s t)
    (hr : L.contains .rings = false) (hw : L.contains .waiting = false) (hc : L.contains .ctxs = false) : Quiet s t :=
  .of_eq (same_of_law .rings law hr) (same_of_law .waiting law hw) (same_of_law .ctxs law hc)

theorem Quiet.getRing {s t : State} (h : Quiet s t) (c r : Nat) : getRing t c r = Machine.getRing s c r := getRing_congr h.rings c r

/-- A fold of quiet steps. -/
theorem Quiet.fold {α : Type} {F : State → α → State} (l : List α) (s : State) (hF : ∀ t a, Quiet t (F t a)) :
    Quiet s (l.foldl F s) :=
  List.foldlRecOn l F (motive := Quiet s) (Quiet.refl s) fun _ h a _ => h.trans (hF _ a)

theorem postGroup_quiet {s : State} {w : WaitGroup} (h : w.item = none) : Quiet s (postGroup s w) := by
  unfold postGroup
  split
  · exact ⟨enterGroup_rings_of_none h, .of_eq (enterGroup_waiting s w), enterGroup_sameCtxs s w⟩
  · exact ⟨rfl, ⟨[w], rfl, by simpa using h⟩, .of_eq rfl⟩

theorem writeOrDrop_quiet (s : State) (c : Nat) (h : CSlot) (l : List CSlot) : Quiet s (writeOrDrop s c h l) := by
  unfold writeOrDrop
  split
  · exact postGroup_quiet rfl
  · exact .refl s

theorem bltRecord_quiet (s : State) (k src tick : Nat) (ws : List Word) : Quiet s (bltRecord s k src tick ws) :=
  .of_law (bltRecord_touch k src tick ws) rfl rfl rfl

theorem bltTrigger_quiet (s : State) (cause : Nat) : Quiet s (bltTrigger s cause) := .of_law (bltTrigger_touch cause) rfl rfl rfl

theorem bltTriggerCompletion_quiet (s : State) (st : Nat) (f : CFlags) : Quiet s (bltTriggerCompletion s st f) :=
  .of_law (bltTriggerCompletion_touch st f) rfl rfl rfl

theorem raiseEvent_quiet (s : State) (ev : Nat) (p : Option Nat) (sub : Nat) (a b d : Word) (e : Word64) :
    Quiet s (raiseEvent s ev p sub a b d e) := by
  refine Quiet.fold _ s fun t c => ?_
  have hwrite := writeOrDrop_quiet t c (eventSlot ev sub a b d e) []
  refine iteInduction (fun _ => ?_) (fun _ => .refl t)
  exact iteInduction (fun _ => hwrite) (fun _ => hwrite.trans (bltRecord_quiet ..))

theorem writeFault_quiet (s : State) (f : FaultRec) : Quiet s (writeFault s f) := by
  unfold writeFault
  have hevent := (Quiet.of_eq (s := s) (t := { s with anl := { s.anl with
      index := s.anl.index + 1, last := some { f with index := s.anl.index + 1, tick := lc s }
      log := (s.anl.log ++ [{ f with index := s.anl.index + 1, tick := lc s }]).drop
        ((s.anl.log ++ [{ f with index := s.anl.index + 1, tick := lc s }]).length - 4096) } }) rfl rfl rfl).trans
    (raiseEvent_quiet _ 0x04 (some f.part) f.part (s.anl.index + 1) 0 0 0)
  dsimp only
  split
  · exact hevent.trans (bltTrigger_quiet ..)
  · exact hevent

-- the completion of one item

/-- A completion group enters the journal at once (R358). -/
def entersAtOnce (s : State) (c n : Nat) : Bool := decide (s.waiting = []) && fitsJournal s c n

theorem entersAtOnce_iff {s : State} {c n : Nat} : entersAtOnce s c n = true ↔ JournalRoom s c n := by
  simp [entersAtOnce, JournalRoom]

/-- The ring after its head item has completed: the commit index passes the item when its group enters the journal. -/
def Ring.completed (g : Ring) (lt : Nat) (entered : Bool) : Ring :=
  { g with items := g.items.drop 1, headTick := lt, cmp := if entered then g.cmp + 1 else g.cmp }

theorem getRing_popItem (s : State) (c : Nat) {r : Nat} (hr : r < 8) (d : Nat) {q : Nat} (hq : q < 8) :
    getRing (popItem s c r) d q =
      if c = d ∧ r = q then { getRing s c r with items := (getRing s c r).items.drop 1, headTick := s.lt } else getRing s d q :=
  getRing_setRing s c r d q _ hr hq

theorem getRing_postGroup_popItem {s : State} {w : WaitGroup} {r : Nat} (hr : r < 8) (h : w.item = some (r, (getRing s w.ctx r).gen))
    (d : Nat) {q : Nat} (hq : q < 8) : getRing (postGroup (popItem s w.ctx r) w) d q =
      if w.ctx = d ∧ r = q then (getRing s w.ctx r).completed s.lt (entersAtOnce s w.ctx (1 + w.exts.length)) else getRing s d q := by
  have hroom : (popItem s w.ctx r).waiting = [] ∧ fitsJournal (popItem s w.ctx r) w.ctx (1 + w.exts.length) = true ↔
      entersAtOnce s w.ctx (1 + w.exts.length) = true := entersAtOnce_iff.symm
  unfold postGroup
  by_cases hin : entersAtOnce s w.ctx (1 + w.exts.length) = true
  · rw [if_pos (hroom.2 hin), getRing_enterGroup h hr d hq,
      getRing_popItem s w.ctx hr w.ctx hr, if_pos (And.intro rfl rfl), hin]
    by_cases hdq : w.ctx = d ∧ r = q
    · simp [hdq, Ring.completed]
    · simp only [hdq, false_and, if_false, getRing_popItem s w.ctx hr d hq]
  · rw [if_neg (mt hroom.1 hin), Bool.eq_false_iff.2 hin]
    exact (getRing_congr rfl d q).trans (getRing_popItem s w.ctx hr d hq)

/-- The group of a completed item. -/
def descGroup (s : State) (c r : Nat) (it : Item) (status cause : Nat) (detail asn : Word) (exts : List CSlot) : WaitGroup :=
  ⟨c, some (r, (getRing s c r).gen), it.notify, descSlot exts.length status cause r it.seq detail asn it.user, exts⟩

/-- A completion is its group handed to the journal, with the Blotter's record of it. -/
theorem completeOne_touch_post {s : State} {c r : Nat} {it : Item} {l : List Item} (hi : (getRing s c r).items = it :: l)
    (status cause : Nat) (detail asn : Word) (exts : List CSlot) (flags : CFlags) :
    Touch [.blt] (postGroup (popItem s c r) (descGroup s c r it status cause detail asn exts))
      (completeOne s c r status cause detail asn exts flags) := by
  unfold completeOne
  rw [hi]
  exact bltTriggerCompletion_touch _ _ rfl (bltRecord_touch _ _ _ _ rfl (Touch.refl _ _))

section
variable {s : State} {c r : Nat} (hi : (getRing s c r).items ≠ []) (status cause : Nat) (detail asn : Word) (exts : List CSlot)
  (flags : CFlags)
include hi

theorem getRing_completeOne (hr : r < 8) (d : Nat) {q : Nat} (hq : q < 8) :
    getRing (completeOne s c r status cause detail asn exts flags) d q =
      if c = d ∧ r = q then (getRing s c r).completed s.lt (entersAtOnce s c (1 + exts.length)) else getRing s d q := by
  obtain ⟨it, l, hi⟩ := List.exists_cons_of_ne_nil hi
  have hpost := completeOne_touch_post hi status cause detail asn exts flags
  rw [getRing_congr (hpost.keeps .rings rfl)]
  exact getRing_postGroup_popItem (w := descGroup s c r it status cause detail asn exts) hr rfl d hq

theorem completeOne_waiting : ∃ it, (getRing s c r).items.head? = some it ∧
    (completeOne s c r status cause detail asn exts flags).waiting =
      if entersAtOnce s c (1 + exts.length) then s.waiting else s.waiting ++ [descGroup s c r it status cause detail asn exts] := by
  obtain ⟨it, l, hi⟩ := List.exists_cons_of_ne_nil hi
  refine ⟨it, by simp [hi], ?_⟩
  rw [(completeOne_touch_post hi status cause detail asn exts flags).keeps .waiting rfl]
  unfold postGroup entersAtOnce
  simp only [Bool.and_eq_true, decide_eq_true_eq]
  split
  next h => exact (enterGroup_waiting _ _).trans (if_pos h).symm
  next h => exact (if_neg h).symm

theorem completeOne_sameCtxs : SameCtxs s (completeOne s c r status cause detail asn exts flags) := by
  obtain ⟨it, l, hi⟩ := List.exists_cons_of_ne_nil hi
  refine SameCtxs.trans (t := postGroup (popItem s c r) (descGroup s c r it status cause detail asn exts)) ?_
    (.of_eq ((completeOne_touch_post hi status cause detail asn exts flags).keeps .ctxs rfl))
  unfold postGroup
  split
  · exact (SameCtxs.of_eq (t := popItem s c r) rfl).trans (enterGroup_sameCtxs _ _)
  · exact .of_eq rfl

theorem completeOne_journal_of_waits (h : entersAtOnce s c (1 + exts.length) = false) :
    (completeOne s c r status cause detail asn exts flags).journal = s.journal := by
  obtain ⟨it, l, hi⟩ := List.exists_cons_of_ne_nil hi
  rw [(completeOne_touch_post hi status cause detail asn exts flags).keeps .journal rfl]
  unfold postGroup
  rw [if_neg]
  · rfl
  · exact fun hin => Bool.false_ne_true (h.symm.trans (entersAtOnce_iff.2 hin))

theorem completeOne_regs : (completeOne s c r status cause detail asn exts flags).regs = s.regs := by
  obtain ⟨it, l, hi⟩ := List.exists_cons_of_ne_nil hi
  rw [(completeOne_touch_post hi status cause detail asn exts flags).keeps .regs rfl]
  unfold postGroup
  split
  · exact enterGroup_regs_of_some rfl
  · rfl

end

-- the completion of an item that stands alone

/-- A ring without an item has nothing to complete. -/
theorem settle_of_empty {s : State} {c r : Nat} (h : (getRing s c r).items = []) (n : Nat) : settle n s c r = s := by
  cases n with
  | zero => rfl
  | succ n => simp [settle, h]

/-- An item that passed its descriptor checks waits for its opcode. -/
theorem settle_of_passed {s : State} {c r : Nat} {i : Item} {l : List Item} (h : (getRing s c r).items = i :: l) (he : i.early = none)
    (n : Nat) : settle n s c r = s := by
  cases n with
  | zero => rfl
  | succ n => simp [settle, h, he]

theorem completeItem_of_only {s : State} {c r : Nat} {i : Item} (h : (getRing s c r).items = [i]) (hr : r < 8) (status cause : Nat)
    (detail asn : Word) (exts : List CSlot) (flags : CFlags) :
    completeItem s c r status cause detail asn exts flags = completeOne s c r status cause detail asn exts flags :=
  settle_of_empty (by
    rw [getRing_completeOne (by simp [h]) _ _ _ _ _ _ hr c hr, if_pos ⟨rfl, rfl⟩]
    simp [Ring.completed, h]) _

end Sys2Proof.Machine
end

section
/-! SUPPORT. The host interface's obligations (R337 to R370): doorbells, descriptor acceptance, the opcodes that act at once, the
journal. -/

namespace Sys2Proof.Machine

-- doorbells (R351)

theorem doorbell_of_page {s : State} {f page c : Nat} (hready : isReady s = true) (hpage : pageCtx s f page = some c) {r : Nat}
    (hr : r ≤ 8) (v : Word64) :
    doorbell s f page (8 * r) 8 v = if r = 8 then headDoorbell s c v else tailDoorbell s c r v := by
  have h1 : ¬ 0x40 < 8 * r := by omega
  have h2 : (8 * r) % 8 = 0 := by omega
  have h3 : 8 * r = 0x40 ↔ r = 8 := by omega
  have h4 : 8 * r / 8 = r := by omega
  simp [doorbell, hpage, hready, h1, h3, h4]

theorem tailDoorbell_of_stale {s : State} {c r : Nat} {v : Word64}
    (h : v.toNat / 2 ^ 56 ≠ (getRing s c r).gen.toNat ∨ ahead (lo32 v) (getRing s c r).tail = false) :
    tailDoorbell s c r v = bump s (ctxOff c 0x144) := if_pos (Or.inr h)

theorem tailDoorbell_of_ahead {s : State} {c r : Nat} {v : Word64} (hst : (getRing s c r).st = .enabled)
    (hgen : v.toNat / 2 ^ 56 = (getRing s c r).gen.toNat) (hahead : ahead (lo32 v) (getRing s c r).tail = true) :
    tailDoorbell s c r v = if 2 ^ (getRing s c r).log2 < (lo32 v - (getRing s c r).cmp).toNat then teardown s c 3
      else setRing s c r { getRing s c r with tail := lo32 v } := by
  have : ¬ ((getRing s c r).st ≠ .enabled ∨ v.toNat / 2 ^ 56 ≠ (getRing s c r).gen.toNat
      ∨ ahead (lo32 v) (getRing s c r).tail = false) := by
    rintro (h | h | h)
    · exact h hst
    · exact h hgen
    · simp [hahead] at h
  exact if_neg this

theorem headDoorbell_of_stale {s : State} {c : Nat} {v : Word64}
    (h : v.toNat / 2 ^ 56 ≠ (getCtx s c).cqGen.toNat ∨ ahead (lo32 v) (getCtx s c).cqHead = false
      ∨ ((getCtx s c).cqTail - (getCtx s c).cqHead).toNat < (lo32 v - (getCtx s c).cqHead).toNat) :
    headDoorbell s c v = bump s (ctxOff c 0x144) := if_pos h

theorem headDoorbell_of_ahead {s : State} {c : Nat} {v : Word64} (hgen : v.toNat / 2 ^ 56 = (getCtx s c).cqGen.toNat)
    (hahead : ahead (lo32 v) (getCtx s c).cqHead = true)
    (hin : (lo32 v - (getCtx s c).cqHead).toNat ≤ ((getCtx s c).cqTail - (getCtx s c).cqHead).toNat) :
    headDoorbell s c v = setCtx s c { getCtx s c with cqHead := lo32 v, notify := false } := by
  have : ¬ (v.toNat / 2 ^ 56 ≠ (getCtx s c).cqGen.toNat ∨ ahead (lo32 v) (getCtx s c).cqHead = false
      ∨ ((getCtx s c).cqTail - (getCtx s c).cqHead).toNat < (lo32 v - (getCtx s c).cqHead).toNat) := by
    rintro (h | h | h)
    · exact h hgen
    · simp [hahead] at h
    · omega
  exact if_neg this

theorem doorbellSubmit_of_page {s : State} {f : FuncId} {page : Fin 64} {c : Nat} (hready : isReady s = true)
    (hpage : pageCtx s f.val page.val = some c) (r : Fin 8) (v : Word64) :
    execDoorbellSubmit f page (8 * r.val) 8 v s = .next (tailDoorbell s c r.val v) :=
  congrArg Host.Outcome.next ((doorbell_of_page hready hpage r.isLt.le v).trans (if_neg r.isLt.ne))

theorem doorbellCqHead_of_page {s : State} {f : FuncId} {page : Fin 64} {c : Nat} (hready : isReady s = true)
    (hpage : pageCtx s f.val page.val = some c) (v : Word64) :
    execDoorbellCqHead f page 8 v s = .next (headDoorbell s c v) :=
  congrArg Host.Outcome.next (doorbell_of_page (r := 8) hready hpage le_rfl v)

theorem tailDoorbellMovesTheTail : TailDoorbell := by
  intro f page r v c s hready hpage hst
  have hrun := doorbellSubmit_of_page hready hpage r v
  refine ⟨fun hgen hahead hfits => hrun.trans ?_, fun hstale => hrun.trans ?_, fun hgen hahead hover => hrun.trans ?_⟩
  · rw [tailDoorbell_of_ahead hst hgen hahead, if_neg (Nat.not_lt.2 hfits)]
  · rw [tailDoorbell_of_stale hstale]
  · rw [tailDoorbell_of_ahead hst hgen hahead, if_pos hover]

theorem headDoorbellMovesTheHead : CompletionHeadDoorbell := by
  intro f page v c s hready hpage
  have hrun := doorbellCqHead_of_page hready hpage v
  refine ⟨fun hgen hahead hin => hrun.trans ?_, fun hstale => hrun.trans ?_⟩
  · rw [headDoorbell_of_ahead hgen hahead hin]
  · rw [headDoorbell_of_stale hstale]

/-- Settles O9, by the branches of each doorbell. -/
theorem doorbellsMoveTheirIndices : Obligations.DoorbellsMoveTheirIndices :=
  ⟨tailDoorbellMovesTheTail, headDoorbellMovesTheHead⟩

-- descriptor acceptance (R355 to R357)

/-- A completion moves neither the acceptance index nor the tail of its ring. -/
theorem getRing_settle_indices (n : Nat) (s : State) (c : Nat) {r : Nat} (hr : r < 8) :
    (getRing (settle n s c r) c r).acc = (getRing s c r).acc ∧ (getRing (settle n s c r) c r).tail = (getRing s c r).tail := by
  induction n generalizing s with
  | zero => exact ⟨rfl, rfl⟩
  | succ n ih =>
    unfold settle
    split
    next it l hi =>
      split
      next st cause _ =>
        have hone := getRing_completeOne (s := s) (c := c) (by simp [hi]) st cause 0 0 [] 0 hr c hr
        rw [(ih _).1, (ih _).2, hone, if_pos ⟨rfl, rfl⟩]
        exact ⟨rfl, rfl⟩
      next => exact ⟨rfl, rfl⟩
    next => exact ⟨rfl, rfl⟩

/-- The item that acceptance puts at the end of the ring, with what its checks say. -/
def nextItem (s : State) (c r : Nat) : Item :=
  let it : Item := ⟨(getRing s c r).acc, nextDescriptor s c r, none, false, s.lt⟩
  { it with early := descChecks (getCtx s c) (getRing s c r) it }

/-- The ring with its next item accepted. -/
def Ring.accepted (g : Ring) (it : Item) (lt : Nat) : Ring :=
  { g with acc := g.acc + 1, items := g.items ++ [it], headTick := if g.items = [] then lt else g.headTick }

/-- A descriptor with another GEN or SEQ is counted (R355). -/
def countStale (s : State) (c r : Nat) : State :=
  if (nextItem s c r).early.any (fun e => decide (e.1 = stStale)) then bump s (ringOff c r 0x1C) else s

/-- The state with the next descriptor accepted, before a failed one completes. -/
def acceptNext (s : State) (c r : Nat) : State :=
  bltRecord (setRing (countStale s c r) c r ((getRing s c r).accepted (nextItem s c r) s.lt)) kDesc c (lc s) (nextDescriptor s c r)

theorem fetchOne_eq (s : State) (c r : Nat) : fetchOne s c r = settle 1 (acceptNext s c r) c r := by
  have hstale : ∀ e : Option (Nat × Nat),
      (if (match e with | some (st, _) => decide (st = stStale) | none => false) then bump s (ringOff c r 0x1C) else s)
        = if e.any (fun e => decide (e.1 = stStale)) then bump s (ringOff c r 0x1C) else s
    | none => rfl
    | some _ => rfl
  exact congrArg (fun t => settle 1 (bltRecord (setRing t c r ((getRing s c r).accepted (nextItem s c r) s.lt)) kDesc c (lc s)
    (nextDescriptor s c r)) c r) (hstale (nextItem s c r).early)

theorem countStale_touch (s : State) (c r : Nat) : Touch [.regs] s (countStale s c r) := by
  unfold countStale
  split
  · exact bump_touch _ rfl (Touch.refl _ _)
  · exact Touch.refl _ _

theorem getRing_acceptNext (s : State) (c r : Nat) :
    getRing (acceptNext s c r) c r = (getRing s c r).accepted (nextItem s c r) s.lt := by
  unfold acceptNext
  rw [(bltRecord_quiet _ _ _ _ _).getRing, getRing_setRing_same]

theorem getRing_fetchOne_indices (s : State) (c : Nat) {r : Nat} (hr : r < 8) :
    (getRing (fetchOne s c r) c r).acc = (getRing s c r).acc + 1 ∧ (getRing (fetchOne s c r) c r).tail = (getRing s c r).tail := by
  rw [fetchOne_eq, (getRing_settle_indices _ _ _ hr).1, (getRing_settle_indices _ _ _ hr).2, getRing_acceptNext]
  exact ⟨rfl, rfl⟩

theorem fetchOne_serveNext (s : State) (c r : Nat) : (fetchOne s c r).serveNext = s.serveNext :=
  same_of_law .serveNext (fetchOne_touch c r) rfl

/-- Up to n descriptors: at least one where the ring is ready. -/
theorem fetchUpTo_indices (n : Nat) (s : State) (c : Nat) {r : Nat} (hr : r < 8) :
    ∃ k ≤ n, (0 < n → fetchReady s c r = true → 1 ≤ k) ∧ (fetchUpTo n s c r).serveNext = s.serveNext
      ∧ (getRing (fetchUpTo n s c r) c r).acc = (getRing s c r).acc + BitVec.ofNat 32 k
      ∧ (getRing (fetchUpTo n s c r) c r).tail = (getRing s c r).tail := by
  induction n generalizing s with
  | zero => exact ⟨0, le_rfl, by simp, rfl, by simp [fetchUpTo], rfl⟩
  | succ n ih =>
    unfold fetchUpTo
    split
    · obtain ⟨k, hk, -, hserve, hacc, htail⟩ := ih (fetchOne s c r)
      obtain ⟨hacc1, htail1⟩ := getRing_fetchOne_indices s c hr
      refine ⟨k + 1, by omega, by omega, by rw [hserve, fetchOne_serveNext], ?_, by rw [htail, htail1]⟩
      rw [hacc, hacc1, BitVec.add_assoc, Nat.add_comm k, BitVec.ofNat_add]
      rfl
    next h => exact ⟨0, by omega, fun _ hready => absurd hready h, rfl, by simp, rfl⟩

/-- The one descriptor of a ring whose tail is next. -/
theorem fetchUpTo_of_one {s : State} {c r : Nat} (hr : r < 8) (n : Nat) (hready : fetchReady s c r = true)
    (htail : (getRing s c r).tail = (getRing s c r).acc + 1) : fetchUpTo (n + 1) s c r = fetchOne s c r := by
  have hdone : fetchReady (fetchOne s c r) c r = false := by
    obtain ⟨hacc1, htail1⟩ := getRing_fetchOne_indices s c hr
    simp [fetchReady, hacc1, htail1, htail]
  rw [fetchUpTo, if_pos hready]
  cases n with
  | zero => rfl
  | succ n => rw [fetchUpTo, hdone]; rfl

/-- The ring whose turn it is has a descriptor to read. -/
theorem fetchReady_of_turn {s : State} {c r : Nat} (hr : r < 8) (h : fetchTurn s = some (8 * c + r)) : fetchReady s c r = true := by
  have hfound := List.find?_some h
  simpa [show (8 * c + r) / 8 = c by omega, show (8 * c + r) % 8 = r by omega] using hfound

/-- A ring whose items all passed their checks has none to complete. -/
theorem settle_of_all_passed {s : State} {c r : Nat} (h : ∀ j ∈ (getRing s c r).items, j.early = none) (n : Nat) :
    settle n s c r = s := by
  cases hi : (getRing s c r).items with
  | nil => exact settle_of_empty hi n
  | cons j l => exact settle_of_passed hi (h j (by simp [hi])) n

/-- A ring whose head passed its checks has none to complete. -/
theorem settle_of_head_passed {s : State} {c r : Nat} {l m : List Item} (h : (getRing s c r).items = l ++ m) (hl : l ≠ [])
    (hp : ∀ j ∈ l, j.early = none) (n : Nat) : settle n s c r = s := by
  obtain ⟨j, l, rfl⟩ := List.exists_cons_of_ne_nil hl
  exact settle_of_passed h (hp j (by simp)) n

/-- A descriptor that passes its checks is the ring's last item. -/
theorem fetchOne_of_passed {s : State} {c r : Nat} (hitems : ∀ j ∈ (getRing s c r).items, j.early = none)
    (h : (nextItem s c r).early = none) : fetchOne s c r = bltRecord
      (setRing s c r ((getRing s c r).accepted (nextItem s c r) s.lt)) kDesc c (lc s) (nextDescriptor s c r) := by
  rw [fetchOne_eq, settle_of_all_passed]
  · simp [acceptNext, countStale, h]
  · rw [getRing_acceptNext]
    intro j hj
    obtain hj | hj := List.mem_append.1 hj
    · exact hitems j hj
    · rw [List.mem_singleton.1 hj, h]

/-- One that fails behind others waits with its status. -/
theorem fetchOne_of_failed_behind {s : State} {c r : Nat} (hitems : ∀ j ∈ (getRing s c r).items, j.early = none)
    (hne : (getRing s c r).items ≠ []) : fetchOne s c r = acceptNext s c r := by
  rw [fetchOne_eq]
  refine settle_of_head_passed (l := (getRing s c r).items) (m := [nextItem s c r]) ?_ hne hitems 1
  rw [getRing_acceptNext]
  rfl

/-- One that fails at the head completes at once with its status. -/
theorem fetchOne_of_failed_alone {s : State} {c r st cause : Nat} (hitems : (getRing s c r).items = [])
    (h : (nextItem s c r).early = some (st, cause)) :
    (getRing (acceptNext s c r) c r).items = [nextItem s c r]
      ∧ fetchOne s c r = completeOne (acceptNext s c r) c r st cause 0 0 [] 0 := by
  have hone : (getRing (acceptNext s c r) c r).items = [nextItem s c r] := by
    rw [getRing_acceptNext]
    simp [Ring.accepted, hitems]
  refine ⟨hone, ?_⟩
  rw [fetchOne_eq, settle, hone]
  simp only [h]
  rfl

theorem acceptNext_touch (s : State) (c r : Nat) : Touch [.regs, .rings, .blt] s (acceptNext s c r) := by
  unfold acceptNext
  exact bltRecord_touch _ _ _ _ rfl (setRing_touch _ _ _ rfl ((countStale_touch s c r).mono rfl))

theorem entersAtOnce_congr {s t : State} (hw : t.waiting = s.waiting) (hj : t.journal = s.journal) (hc : t.ctxs = s.ctxs) (c n : Nat) :
    entersAtOnce t c n = entersAtOnce s c n := by
  unfold entersAtOnce fitsJournal journalUsed
  rw [hw, hj, getCtx_congr hc]

theorem acceptNext_entersAtOnce (s : State) (c r n : Nat) : entersAtOnce (acceptNext s c r) c n = entersAtOnce s c n := by
  have h := acceptNext_touch s c r
  exact entersAtOnce_congr (h.keeps .waiting rfl) (h.keeps .journal rfl) (h.keeps .ctxs rfl) c n

theorem acceptNext_regs (s : State) (c r : Nat) : (acceptNext s c r).regs = (countStale s c r).regs := by
  unfold acceptNext
  rw [same_of_law .regs (bltRecord_touch kDesc c _ _) rfl]
  rfl

theorem descriptorFetch_of_other_turn {c : CtxId} {r : RingId} {s : State} (h : fetchTurn s ≠ some (8 * c.val + r.val)) :
    execDescriptorFetch c r s = .next s := by
  unfold execDescriptorFetch
  rw [if_neg h]

theorem descriptorFetch_of_turn {c : CtxId} {r : RingId} {s : State} (h : fetchTurn s = some (8 * c.val + r.val)) :
    execDescriptorFetch c r s = .next (fetchUpTo 4 { s with serveNext := (8 * c.val + r.val + 1) % 512 } c.val r.val) := by
  unfold execDescriptorFetch
  rw [if_pos h]

/-- Settles O10: a turn accepts what fetchUpTo reads, and of one descriptor the checks decide. -/
theorem descriptorAcceptance : Obligations.DescriptorAcceptance := by
  intro c r s k g ws i u
  have hr : r.val < 8 := r.isLt
  refine ⟨fun hturn => descriptorFetch_of_other_turn (c := c) (r := r) (s := s) hturn, fun hturn => ?_⟩
  have hrun : execDescriptorFetch c r s = .next (fetchUpTo 4 u c.val r.val) := descriptorFetch_of_turn hturn
  have hready : fetchReady u c.val r.val = true := fetchReady_of_turn (s := s) hr hturn
  have hsame : getRing u c.val r.val = g := rfl
  refine ⟨?_, fun htail hitems => ?_⟩
  · obtain ⟨n, hn, hone, hserve, hacc, htail⟩ := fetchUpTo_indices 4 u c.val hr
    exact ⟨fetchUpTo 4 u c.val r.val, n, hrun, hone (by omega) hready, hn, hserve, hacc, htail⟩
  have hone : execDescriptorFetch c r s = .next (fetchOne u c.val r.val) := by
    rw [hrun, fetchUpTo_of_one hr 3 hready htail]
  have hacc := (getRing_fetchOne_indices u c.val hr).1
  refine ⟨fun hpass => ?_, fun st cause hfail => ⟨fun hempty hroom => ?_, fun hne => ?_⟩⟩
  · have hnext : nextItem u c.val r.val = i := congrArg (fun e => { i with early := e }) hpass
    refine hone.trans ?_
    rw [fetchOne_of_passed (s := u) hitems (congrArg Item.early hnext), hnext]
    rfl
  · obtain ⟨halone, heq⟩ := fetchOne_of_failed_alone (s := u) hempty hfail
    have hne : (getRing (acceptNext u c.val r.val) c.val r.val).items ≠ [] := by simp [halone]
    have hring := getRing_completeOne (s := acceptNext u c.val r.val) hne st cause 0 0 [] 0 hr c.val hr
    have henters : entersAtOnce (acceptNext u c.val r.val) c.val 1 = true :=
      (acceptNext_entersAtOnce u c.val r.val 1).trans (entersAtOnce_iff.2 hroom)
    rw [if_pos ⟨rfl, rfl⟩, List.length_nil, henters] at hring
    refine ⟨fetchOne u c.val r.val, hone, hacc, ?_, ?_, ?_⟩
    · rw [heq, hring]
      simp [Ring.completed, halone]
    · rw [heq, hring, getRing_acceptNext]
      rfl
    · rw [heq, regGet_congr ((completeOne_regs hne _ _ _ _ _ _).trans (acceptNext_regs u c.val r.val)), countStale,
        show (nextItem u c.val r.val).early = some (st, cause) from hfail]
      by_cases hstale : st = stStale
      · simp only [hstale, Option.any_some, decide_true, if_true]
        rfl
      · simp only [hstale, Option.any_some, decide_false, Bool.false_eq_true, if_false]
        rfl
  · have hnext : nextItem u c.val r.val = { i with early := some (st, cause) } := congrArg (fun e => { i with early := e }) hfail
    have hring := getRing_acceptNext u c.val r.val
    refine ⟨fetchOne u c.val r.val, hone, hacc, ?_, ?_⟩
    · rw [fetchOne_of_failed_behind (s := u) hitems hne, hring, hnext]
      rfl
    · rw [fetchOne_of_failed_behind (s := u) hitems hne, hring]
      rfl

-- kills (R328 to R330)

/-- A partition's tiles stop for a kill of the command that holds them. -/
def killing (s : State) (p : Nat) (k : CmdKey) (cause : KillCause) (rerun : Bool) (pause : List (Nat × Nat)) : State :=
  let s1 := modTiles s p Tile.halt
  setPart s1 p { getPart s1 p with
    kill := some ⟨k, cause, rerun, pause⟩, tilesFree := 7 * s.lt + 50 + 6 * liveQueues s p }

theorem beginKill_of_free {s : State} {p : Nat} {k : CmdKey} (hkill : (getPart s p).kill = none)
    (hholder : (getPart s p).holder = some k) (cause : KillCause) (rerun : Bool) (pause : List (Nat × Nat)) :
    beginKill s p cause rerun pause = if rerun then toRerun (killing s p k cause rerun pause) p k (decide (cause = .hold))
      else dropPostings (killing s p k cause rerun pause) p k := by
  unfold beginKill
  dsimp only
  rw [hkill, hholder]
  rfl

@[simp] theorem killing_be (s : State) (p : Nat) (k : CmdKey) (cause : KillCause) (rerun : Bool) (pause : List (Nat × Nat)) :
    (killing s p k cause rerun pause).be = s.be :=
  show (modTiles s p Tile.halt).be = s.be from same_of_law .be (modTiles_touch p Tile.halt) rfl

theorem getPart_killing (s : State) (p : Nat) (k : CmdKey) (cause : KillCause) (rerun : Bool) (pause : List (Nat × Nat)) :
    getPart (killing s p k cause rerun pause) p = { getPart s p with
      kill := some ⟨k, cause, rerun, pause⟩, tilesFree := 7 * s.lt + 50 + 6 * liveQueues s p } := by
  unfold killing
  rw [getPart_setPart_same, getPart_congr (same_of_law .parts (modTiles_touch p Tile.halt) rfl)]

theorem getPart_dropPostings (s : State) (p : Nat) (k : CmdKey) :
    getPart (dropPostings s p k) p = { getPart s p with postings := (getPart s p).postings.filter (fun q => q.key ≠ k) } := by
  unfold dropPostings
  cases k with
  | entry j => exact getPart_setPart_same _ _ _
  | ring r => exact getPart_setPart_same _ _ _

theorem getBe_congr {s t : State} (h : t.be = s.be) (k : Nat) : getBe t k = getBe s k := by
  unfold getBe; rw [h]

@[simp] theorem dropPostings_be (s : State) (p : Nat) (k : CmdKey) : (dropPostings s p k).be = s.be :=
  same_of_law .be (dropPostings_touch p k) rfl

/-- A best-effort command put back to wait. -/
def BeCmd.rerun (b : BeCmd) (hold : Bool) : BeCmd := BeCmd.killed { b with cmd := b.cmd.killed hold }

theorem toRerun_ring {s : State} {p r : Nat} {b : BeCmd} (h : getBe s r = some b) (hold : Bool) :
    toRerun s p (.ring r) hold =
      setBe (setBe (dropPostings s p (.ring r)) r (some { b with cmd := b.cmd.killed hold })) r (some (b.rerun hold)) := by
  have hb : getBe (dropPostings s p (.ring r)) r = some b := (getBe_congr (dropPostings_be s p _) r).trans h
  unfold toRerun getCmd putCmd
  simp only [hb, Option.map_some, getBe_setBe_same]
  rfl

theorem getBe_toRerun {s : State} {p r : Nat} {b : BeCmd} (h : getBe s r = some b) (hold : Bool) :
    getBe (toRerun s p (.ring r) hold) r = some (b.rerun hold) := by
  rw [toRerun_ring h, getBe_setBe_same]

theorem getPart_toRerun_ring {s : State} {p r : Nat} {b : BeCmd} (h : getBe s r = some b) (hold : Bool) :
    getPart (toRerun s p (.ring r) hold) p =
      { getPart s p with postings := (getPart s p).postings.filter (fun q => q.key ≠ .ring r) } := by
  rw [toRerun_ring h, getPart_congr (setBe_parts _ _ _), getPart_congr (setBe_parts _ _ _), getPart_dropPostings]

@[simp] theorem beginKill_rings (s : State) (p : Nat) (cause : KillCause) (rerun : Bool) (pause : List (Nat × Nat)) :
    (beginKill s p cause rerun pause).rings = s.rings :=
  same_of_law .rings (beginKill_touch p cause rerun pause) rfl

-- the opcodes that act at once (R44, R352, R353)

section
variable {s : State} {c r : Nat} {i : Item} (hi : (getRing s c r).items = [i]) (hr : r < 8)
include hi hr

theorem finishItem_of_only (status cause : Nat) :
    finishItem s c r status cause = completeOne s c r status cause 0 0 [] 0 :=
  completeItem_of_only hi hr status cause 0 0 [] 0

theorem getRing_finishItem_of_only (status cause d : Nat) {q : Nat} (hq : q < 8) :
    getRing (finishItem s c r status cause) d q =
      if c = d ∧ r = q then (getRing s c r).completed s.lt (entersAtOnce s c 1) else getRing s d q := by
  rw [finishItem_of_only hi hr]
  exact getRing_completeOne (by simp [hi]) _ _ _ _ _ _ hr d hq

/-- With room in the journal the ring is empty and its commit index past the item. -/
theorem finishItem_ring_of_room (hroom : JournalRoom s c 1) (status cause : Nat) :
    getRing (finishItem s c r status cause) c r =
      { getRing s c r with items := [], cmp := (getRing s c r).cmp + 1, headTick := s.lt } := by
  rw [getRing_finishItem_of_only hi hr status cause c hr, if_pos ⟨rfl, rfl⟩, entersAtOnce_iff.2 hroom]
  simp [Ring.completed, hi]

end

theorem nop_of_head {c : CtxId} {r : RingId} {i : Item} {s : State} (h : headOp s c.val r.val 0x00 = some i) :
    execNop c r s = .next (finishItem s c.val r.val stOk 0) := by
  unfold execNop
  rw [h]

/-- The pause of a ring set. -/
def pauseRing (s : State) (c r : Nat) (b : Bool) : State := setRing s c r { getRing s c r with paused := b }

theorem getRing_pauseRing (s : State) (c r : Nat) (b : Bool) (hr : r < 8) (d : Nat) {q : Nat} (hq : q < 8) :
    getRing (pauseRing s c r b) d q = if c = d ∧ r = q then { getRing s c r with paused := b } else getRing s d q :=
  getRing_setRing s c r d q _ hr hq

theorem pause_of_head {c : CtxId} {r : RingId} {i : Item} {s : State} (h : headOp s c.val r.val 0x07 = some i) :
    execPause c r s = .next (if (getPart s (getCtx s c.val).part).holder = some (.ring (8 * c.val + i.slot)) then
      beginKill (beginItem (pauseRing s c.val i.slot true) c.val r.val) (getCtx s c.val).part .pause true [(c.val, r.val)]
      else finishItem (pauseRing s c.val i.slot true) c.val r.val stOk 0) := by
  unfold execPause
  rw [h]
  exact (apply_ite Host.Outcome.next _ _ _).symm

theorem resume_of_head {c : CtxId} {r : RingId} {i : Item} {s : State} (h : headOp s c.val r.val 0x08 = some i) :
    execResume c r s = .next (finishItem (pauseRing s c.val i.slot false) c.val r.val stOk 0) := by
  unfold execResume
  rw [h]
  rfl

theorem Item.slot_lt (i : Item) : i.slot < 8 := Nat.mod_lt _ (by decide)

/-- A PAUSE or a RESUME whose item stands alone completes on the ring as the pause left it. -/
theorem completed_of_pauseRing {s : State} {c r q : Nat} {i : Item} (hi : (getRing s c r).items = [i]) (hr : r < 8) (hq : q < 8)
    (hroom : JournalRoom s c 1) (b : Bool) :
    Completed s (finishItem (pauseRing s c q b) c r stOk 0) c r (if q = r then b else (getRing s c r).paused)
      ∧ (getRing (finishItem (pauseRing s c q b) c r stOk 0) c q).paused = b
      ∧ (q ≠ r → getRing (finishItem (pauseRing s c q b) c r stOk 0) c q = { getRing s c q with paused := b }) := by
  have hring : getRing (pauseRing s c q b) c r = { getRing s c r with paused := if q = r then b else (getRing s c r).paused } := by
    rw [getRing_pauseRing s c q b hq c hr]
    by_cases h : q = r
    · simp [h]
    · simp [h]
  have hi1 : (getRing (pauseRing s c q b) c r).items = [i] := by rw [hring]; exact hi
  have hroom1 : JournalRoom (pauseRing s c q b) c 1 := hroom
  have hdone := finishItem_ring_of_room hi1 hr hroom1 stOk 0
  have hother : q ≠ r → getRing (finishItem (pauseRing s c q b) c r stOk 0) c q = { getRing s c q with paused := b } := fun hne => by
    rw [getRing_finishItem_of_only hi1 hr _ _ c hq, if_neg (by simp [Ne.symm hne]), getRing_pauseRing s c q b hq c hq, if_pos ⟨rfl, rfl⟩]
  refine ⟨?_, ?_, hother⟩
  · rw [Completed, hdone, hring]
    rfl
  · by_cases hqr : q = r
    · subst hqr
      rw [hdone, hring]
      simp
    · rw [hother hqr]

theorem getRing_beginItem {s : State} {c r : Nat} {i : Item} {l : List Item} (hi : (getRing s c r).items = i :: l) (hr : r < 8) (d : Nat) {q : Nat}
    (hq : q < 8) : getRing (beginItem s c r) d q =
      if c = d ∧ r = q then { getRing s c r with items := { i with begun := true } :: l } else getRing s d q := by
  unfold beginItem
  dsimp only
  rw [hi]
  exact getRing_setRing s c r d q _ hr hq

/-- A PAUSE of a ring whose head holds the tiles kills that command and waits for the kill's end. -/
theorem pause_of_running {s : State} {c r q p : Nat} {i : Item} {b : BeCmd} (hi : (getRing s c r).items = [i]) (hr : r < 8) (hq : q < 8)
    (hne : q ≠ r) (hholder : (getPart s p).holder = some (.ring (8 * c + q))) (hkill : (getPart s p).kill = none)
    (hb : getBe s (8 * c + q) = some b) :
    let t := beginKill (beginItem (pauseRing s c q true) c r) p .pause true [(c, r)]
    (getRing t c q).paused = true ∧ (getPart t p).kill = some ⟨.ring (8 * c + q), .pause, true, [(c, r)]⟩
      ∧ (getRing t c r).items = [{ i with begun := true }] ∧ getBe t (8 * c + q) = some (b.rerun false) := by
  intro t
  let u := beginItem (pauseRing s c q true) c r
  have hi1 : (getRing (pauseRing s c q true) c r).items = [i] := by
    rw [getRing_pauseRing s c q true hq c hr, if_neg (by simp [hne])]
    exact hi
  have hrun : t = toRerun (killing u p (.ring (8 * c + q)) .pause true [(c, r)]) p (.ring (8 * c + q)) false :=
    (beginKill_of_free (s := u) hkill hholder _ _ _).trans rfl
  have hbe : getBe (killing u p (.ring (8 * c + q)) .pause true [(c, r)]) (8 * c + q) = some b :=
    (getBe_congr (killing_be ..) _).trans hb
  have hrings := fun n => getRing_congr (beginKill_rings u p .pause true [(c, r)]) c n
  refine ⟨?_, ?_, ?_, ?_⟩
  · rw [hrings, getRing_beginItem hi1 hr c hq, if_neg (by simp [hne.symm]), getRing_pauseRing s c q true hq c hq, if_pos ⟨rfl, rfl⟩]
  · rw [hrun, getPart_toRerun_ring hbe, getPart_killing]
  · rw [hrings, getRing_beginItem hi1 hr c hr, if_pos ⟨rfl, rfl⟩]
  · rw [hrun, getBe_toRerun hbe]

theorem controlOpcodesComplete : ControlOpcodesComplete := by
  intro c r i s p
  have hr : r.val < 8 := r.isLt
  refine ⟨fun ⟨hop, hi⟩ => ⟨fun hroom => ?_, fun hroom => ?_⟩, fun ⟨hop, hi⟩ hroom hholder => ?_,
    fun b ⟨hop, hi⟩ hne hholder hkill hb => ?_, fun ⟨hop, hi⟩ hroom => ?_⟩
  · refine ⟨finishItem s c.val r.val stOk 0, nop_of_head hop, finishItem_ring_of_room hi hr hroom stOk 0, fun d q hq hne => ?_⟩
    rw [getRing_finishItem_of_only hi hr _ _ d hq, if_neg fun h => hne (by rw [h.1, h.2])]
  · have hwaits : entersAtOnce s c.val 1 = false := Bool.eq_false_iff.2 (mt entersAtOnce_iff.1 hroom)
    obtain ⟨it, -, hw⟩ := completeOne_waiting (s := s) (c := c.val) (r := r.val) (by simp [hi]) stOk 0 0 0 [] 0
    have hring := getRing_finishItem_of_only hi hr stOk 0 c.val hr
    rw [if_pos ⟨rfl, rfl⟩, hwaits] at hring
    refine ⟨finishItem s c.val r.val stOk 0, descGroup s c.val r.val it stOk 0 0 0 [], nop_of_head hop, ?_, rfl, rfl, ?_, ?_, ?_⟩
    · rw [finishItem_of_only hi hr, hw]
      exact if_neg (by simp [hwaits])
    · rw [finishItem_of_only hi hr]
      exact completeOne_journal_of_waits (by simp [hi]) _ _ _ _ _ _ hwaits
    · rw [hring]
      simp [Ring.completed, hi]
    · rw [hring]
      rfl
  · obtain ⟨hdone, hpaused, hother⟩ := completed_of_pauseRing hi hr i.slot_lt hroom true
    refine ⟨finishItem (pauseRing s c.val i.slot true) c.val r.val stOk 0, (pause_of_head hop).trans (by rw [if_neg hholder]), hdone, hpaused,
      fun hne => by rw [hother hne]⟩
  · obtain ⟨hpaused, hkilled, hitems, hbe⟩ := pause_of_running hi hr i.slot_lt hne hholder hkill hb
    exact ⟨_, _, (pause_of_head hop).trans (by rw [if_pos hholder]), hpaused, hkilled, hitems, hbe, rfl⟩
  · obtain ⟨hdone, hpaused, hother⟩ := completed_of_pauseRing hi hr i.slot_lt hroom false
    exact ⟨finishItem (pauseRing s c.val i.slot false) c.val r.val stOk 0, resume_of_head hop, hdone, hpaused,
      fun hne => by rw [hother hne]⟩

/-- What the head of a ring that may begin says of the ring: its item has not begun and has the opcode. -/
theorem items_of_headOp {s : State} {c r op : Nat} {i : Item} (h : headOp s c r op = some i) :
    ∃ l, (getRing s c r).items = i :: l := by
  unfold headOp at h
  split at h
  next j hj =>
    split at h
    · obtain rfl := Option.some.inj h
      unfold headItem at hj
      split at hj
      · simp at hj
      · split at hj
        · simp at hj
        · exact ⟨_, List.eq_cons_of_mem_head? hj⟩
    · simp at h
  · simp at h

/-- The item that an OBJECT puts at its partition's gate. -/
def objectAtGate (s : State) (c r : Nat) (i : Item) : GateItem :=
  let ws := memWords (hostMem s (getCtx s c)) i.addr (i.bytes / 4)
  { src := .host c r i.seq.toNat, kind := fld (ws.getD 0 0) 23 16, slot := i.slot, bytes := i.bytes, words := ws,
    recs := [], inst := fld (ws.getD 0 0) 9 0, tsig := 0, asn := 0, tick := s.lt }

theorem object_of_head {c : CtxId} {r : RingId} {i : Item} {s : State} (h : headOp s c.val r.val 0x01 = some i) :
    execObject c r s = .next (setPart (beginItem s c.val r.val) (getCtx s c.val).part { getPart s (getCtx s c.val).part with
      gate := gateInsert (objectAtGate s c.val r.val i) (getPart s (getCtx s c.val).part).gate }) := by
  unfold execObject
  rw [h]
  rfl

theorem objectGoesToTheGate : ObjectGoesToTheGate := by
  intro c r i s hop
  obtain ⟨l, hi⟩ := items_of_headOp hop
  refine ⟨_, object_of_head hop, ⟨objectAtGate s c.val r.val i, ?_, rfl, rfl, rfl, rfl⟩, ?_, rfl, rfl⟩
  · rw [getPart_setPart_same]
  · rw [getRing_congr (setPart_rings _ _ _), getRing_beginItem hi r.isLt c.val r.isLt, if_pos ⟨rfl, rfl⟩, hi]
    rfl

/-- Settles O11, by the completion of an item that stands alone; a kill leaves the rings to its end. -/
theorem hostItemsBeginOrComplete : Obligations.HostItemsBeginOrComplete :=
  ⟨controlOpcodesComplete, objectGoesToTheGate⟩

-- RESULT_READ and the journal (R354, R358)

@[simp] theorem certSlot_length (c : Option AssayCert) : (certSlot c).length = 8 := by cases c <;> rfl

section
variable {c : CtxId} {r : RingId} {i : Item} {n : Inst} {s : State} (h : headOp s c.val r.val 0x04 = some i)
  (hcheck : resultReadCheck (getPart s (getCtx s c.val).part) i = .inr n)
include h hcheck

theorem resultRead_of_commit {ws : List Word} (hws : n.lastWords = some ws) :
    execResultRead c r s = .next (completeItem (hostStore s (getCtx s c.val) i.addr (ws ++ certSlot n.lastCert)) c.val r.val stOk 0
      (BitVec.ofNat 32 (4 * ws.length + 32)) 0 [] 0) := by
  have hlength : 4 * (ws ++ certSlot n.lastCert).length = 4 * ws.length + 32 := by simp; omega
  unfold execResultRead
  simp only [h, hcheck, hws, hlength]

theorem resultRead_of_no_commit (hnone : n.lastWords = none) :
    execResultRead c r s = .next (completeItem s c.val r.val stOk 0 0 0 [] 0) := by
  unfold execResultRead
  simp only [h, hcheck, hnone]

end

/-- Settles O12: the checked `Inst`'s last words and its certificate's eight are what is stored. -/
theorem resultReadCopiesTheLastCommit : Obligations.ResultReadCopiesTheLastCommit :=
  fun _ _ _ _ _ hop hcheck => ⟨fun _ hws => resultRead_of_commit hop hcheck hws, fun hnone => resultRead_of_no_commit hop hcheck hnone⟩

theorem journalRelease_of_delivered {c : CtxId} {g : JGroup} {s : State} (hg : s.journal.find? (fun h => h.ctx == c.val) = some g)
    (h : (getCtx s c.val).func ≠ 16 ∨ (g.slots.length ≤ ((getCtx s c.val).cqHead - g.pos).toNat
      ∧ ((getCtx s c.val).cqHead - g.pos).toNat < 2 ^ 31)) :
    execJournalRelease c s = .next (flushJournal journalSlots { s with journal := dropGroup s.journal c.val }) := by
  unfold execJournalRelease
  simp only [hg]
  exact if_pos (by simpa using h)

theorem journalRelease_of_not_passed {c : CtxId} {g : JGroup} {s : State} (hg : s.journal.find? (fun h => h.ctx == c.val) = some g)
    (hfunc : (getCtx s c.val).func = 16) (h : ((getCtx s c.val).cqHead - g.pos).toNat < g.slots.length) :
    execJournalRelease c s = .next s := by
  unfold execJournalRelease
  simp only [hg]
  exact if_neg (by simp only [hfunc, Bool.or_eq_true, decide_eq_true_eq]; omega)

theorem flushJournal_of_none {s : State} (h : s.waiting = []) (n : Nat) : flushJournal n s = s := by
  cases n with
  | zero => rfl
  | succ n => simp [flushJournal, h]

theorem flushJournal_of_one {s : State} {w : WaitGroup} (h : s.waiting = [w])
    (hfits : fitsJournal s w.ctx (1 + w.exts.length) = true) {n : Nat} (hn : 0 < n) :
    flushJournal n s = enterGroup { s with waiting := [] } w := by
  obtain ⟨n, rfl⟩ := Nat.exists_eq_succ_of_ne_zero hn.ne'
  simp only [flushJournal, h, hfits, if_true]
  exact flushJournal_of_none (enterGroup_waiting _ _) n

/-- Settles O13: with its oldest group gone, the group that waits enters and moves its commit index. -/
theorem journalReleasesDeliveredGroups : Obligations.JournalReleasesDeliveredGroups := by
  intro c g s hg passed left
  refine ⟨fun hdone => ?_, fun hfunc h => journalRelease_of_not_passed hg hfunc h⟩
  have hrun := journalRelease_of_delivered hg hdone
  refine ⟨fun hw => hrun.trans (congrArg _ (flushJournal_of_none (s := left) hw _)), fun w r hw hr hitem hfits => ?_⟩
  have hflush : flushJournal journalSlots left = enterGroup { left with waiting := [] } w :=
    flushJournal_of_one (s := left) hw hfits (by decide : 0 < journalSlots)
  have hring := getRing_enterGroup (s := { left with waiting := [] }) hitem hr w.ctx hr
  rw [if_pos ⟨⟨rfl, rfl⟩, rfl⟩] at hring
  refine ⟨_, hrun.trans (congrArg _ hflush), enterGroup_waiting _ _, ?_⟩
  rw [hring]
  rfl

end Sys2Proof.Machine
end

section
/-! SUPPORT. The three ways a context loses its work (R338, R367, R369, R370): its rings' items are completed, or dropped with its
function, and nothing of another context's rings changes. -/

namespace Sys2Proof.Machine

-- one turn of a fold over an index

/-- A fold over the first n numbers runs its step at r once: K is kept up to it and from it on. -/
theorem foldl_upTo_at {F : State → Nat → State} {K : State → State → Prop} (hrefl : ∀ t, K t t)
    (htrans : ∀ {t u v}, K t u → K u v → K t v) {n r : Nat} (hr : r < n) (hkeep : ∀ t q, q < n → q ≠ r → K t (F t q)) (s : State) :
    ∃ t, K s t ∧ K (F t r) ((upTo n).foldl F s) := by
  have hfold : ∀ l : List Nat, (∀ q ∈ l, q < n ∧ q ≠ r) → ∀ t, K t (l.foldl F t) := fun l hl t =>
    List.foldlRecOn l F (motive := K t) (hrefl t) fun _ h q hq => htrans h (hkeep _ q (hl q hq).1 (hl q hq).2)
  obtain ⟨l, m, hlm⟩ := List.append_of_mem (List.mem_range.2 hr)
  have hnodup : (l ++ r :: m).Nodup := hlm ▸ List.nodup_range
  have hlt : ∀ q ∈ l ++ r :: m, q < n := fun q hq => List.mem_range.1 (hlm ▸ hq)
  rw [List.nodup_append, List.nodup_cons] at hnodup
  obtain ⟨-, ⟨hm, -⟩, hl⟩ := hnodup
  refine ⟨l.foldl F s, hfold l (fun q hq => ⟨hlt q (by simp [hq]), hl q hq r (by simp)⟩) s, ?_⟩
  have hrun : (upTo n).foldl F s = m.foldl F (F (l.foldl F s) r) := by
    unfold upTo
    rw [hlm, List.foldl_append, List.foldl_cons]
  rw [hrun]
  exact hfold m (fun q hq => ⟨hlt q (by simp [hq]), fun h => hm (h ▸ hq)⟩) _

/-- A fold keeps what each of its steps keeps. -/
theorem foldl_keeps {α : Type} {F : State → α → State} {K : State → State → Prop} (hrefl : ∀ t, K t t)
    (htrans : ∀ {t u v}, K t u → K u v → K t v) (l : List α) (hkeep : ∀ t, ∀ a ∈ l, K t (F t a)) (s : State) : K s (l.foldl F s) :=
  List.foldlRecOn l F (motive := K s) (hrefl s) fun _ h a ha => htrans h (hkeep _ a ha)

-- a ring whose items are completed (R366)

/-- Groups of a ring's items, of its GEN, among those that wait. -/
def owedIn (l : List WaitGroup) (c r : Nat) (gen : BitVec 8) : Nat :=
  (l.filter (fun w => decide (w.ctx = c ∧ w.item = some (r, gen)))).length

theorem owed_eq (s : State) (c r : Nat) : owed s c r = owedIn s.waiting c r (getRing s c r).gen := rfl

theorem owedIn_append (l m : List WaitGroup) (c r : Nat) (gen : BitVec 8) :
    owedIn (l ++ m) c r gen = owedIn l c r gen + owedIn m c r gen := by
  simp [owedIn]

theorem owedIn_of_events {l : List WaitGroup} (h : ∀ w ∈ l, w.item = none) (c r : Nat) (gen : BitVec 8) : owedIn l c r gen = 0 := by
  simp only [owedIn, List.length_eq_zero_iff, List.filter_eq_nil_iff]
  intro w hw
  simp [h w hw]

/-- A ring and what waits of it are the same. -/
def KeepsRing (c r : Nat) (s t : State) : Prop := getRing t c r = getRing s c r ∧ owed t c r = owed s c r

theorem KeepsRing.refl (c r : Nat) (s : State) : KeepsRing c r s s := ⟨rfl, rfl⟩

theorem KeepsRing.trans {c r : Nat} {s t u : State} (h : KeepsRing c r s t) (g : KeepsRing c r t u) : KeepsRing c r s u :=
  ⟨g.1.trans h.1, g.2.trans h.2⟩

theorem KeepsRing.of_eq {s t : State} (hr : t.rings = s.rings) (hw : t.waiting = s.waiting) (c r : Nat) : KeepsRing c r s t :=
  ⟨getRing_congr hr c r, by rw [owed_eq, owed_eq, hw, getRing_congr hr]⟩

theorem Quiet.keepsRing {s t : State} (h : Quiet s t) (c r : Nat) : KeepsRing c r s t := by
  obtain ⟨l, hl, hnone⟩ := h.adds
  refine ⟨h.getRing c r, ?_⟩
  rw [owed_eq, owed_eq, hl, owedIn_append, owedIn_of_events hnone, h.getRing]
  rfl

theorem RingHalted.of_keeps {s t u : State} {c r : Nat} (h : KeepsRing c r s t) (g : RingHalted t u c r) : RingHalted s u c r := by
  obtain ⟨hring, howed⟩ := h
  unfold RingHalted at g ⊢
  rwa [hring, howed] at g

theorem RingHalted.keeps {s t u : State} {c r : Nat} (h : RingHalted s t c r) (g : KeepsRing c r t u) : RingHalted s u c r := by
  obtain ⟨hring, howed⟩ := g
  unfold RingHalted at h ⊢
  rwa [hring, howed]

/-- Each completion moves the commit index or leaves one more group waiting. -/
theorem completeOne_indices {s : State} {c r : Nat} (hi : (getRing s c r).items ≠ []) (hr : r < 8) (status cause : Nat) :
    let t := completeOne s c r status cause 0 0 [] 0
    (getRing t c r).items = (getRing s c r).items.drop 1 ∧ (getRing t c r).st = (getRing s c r).st
      ∧ (getRing t c r).cmp + BitVec.ofNat 32 (owed t c r) = (getRing s c r).cmp + BitVec.ofNat 32 (owed s c r + 1) := by
  intro t
  have hring := getRing_completeOne hi status cause 0 0 [] 0 hr c hr
  rw [if_pos ⟨rfl, rfl⟩] at hring
  obtain ⟨it, -, hw⟩ := completeOne_waiting hi status cause 0 0 [] 0
  refine ⟨by rw [hring]; rfl, by rw [hring]; rfl, ?_⟩
  have howed : owed t c r = owedIn t.waiting c r (getRing s c r).gen := by
    rw [owed_eq, hring]
    rfl
  rw [howed, hring, hw, owed_eq]
  cases hin : entersAtOnce s c (1 + ([] : List CSlot).length) with
  | true =>
    have hnone : s.waiting = [] := (entersAtOnce_iff.1 hin).1
    simp [Ring.completed, hnone, owedIn]
  | false =>
    simp [Ring.completed, owedIn, descGroup]

/-- A completion leaves every other ring and what waits of it. -/
theorem completeOne_keepsRing {s : State} {c r : Nat} (hr : r < 8) (status cause : Nat) {d q : Nat} (hq : q < 8)
    (hne : (c, r) ≠ (d, q)) : KeepsRing d q s (completeOne s c r status cause 0 0 [] 0) := by
  by_cases hi : (getRing s c r).items = []
  · rw [show completeOne s c r status cause 0 0 [] 0 = s by simp [completeOne, hi]]
    exact KeepsRing.refl d q s
  have hring := getRing_completeOne hi status cause 0 0 [] 0 hr d hq
  rw [if_neg fun h => hne (by rw [h.1, h.2])] at hring
  obtain ⟨it, -, hw⟩ := completeOne_waiting hi status cause 0 0 [] 0
  refine ⟨hring, ?_⟩
  rw [owed_eq, owed_eq, hring, hw]
  split
  · rfl
  · rw [owedIn_append, Nat.add_eq_left, owedIn, List.length_eq_zero_iff, List.filter_eq_nil_iff]
    intro w hmem
    obtain rfl := List.mem_singleton.1 hmem
    have : ¬ (c = d ∧ r = q) := fun h => hne (by rw [h.1, h.2])
    simp only [descGroup, decide_eq_true_eq, Option.some.injEq, Prod.mk.injEq]
    tauto

theorem completeAll_indices {c r : Nat} (hr : r < 8) (status cause : Nat) (l : List Item) (s : State)
    (hl : (getRing s c r).items.length = l.length) :
    let t := l.foldl (fun t _ => completeOne t c r status cause 0 0 [] 0) s
    (getRing t c r).items = [] ∧ (getRing t c r).st = (getRing s c r).st
      ∧ (getRing t c r).cmp + BitVec.ofNat 32 (owed t c r) = (getRing s c r).cmp + BitVec.ofNat 32 (owed s c r + l.length) := by
  induction l generalizing s with
  | nil => exact ⟨List.length_eq_zero_iff.1 hl, rfl, rfl⟩
  | cons a l ih =>
    have hi : (getRing s c r).items ≠ [] := by
      rintro h
      simp [h] at hl
    obtain ⟨hitems, hst, hcmp⟩ := completeOne_indices hi hr status cause
    obtain ⟨hempty, hst', hcmp'⟩ := ih (completeOne s c r status cause 0 0 [] 0) (by rw [hitems]; simp [hl])
    refine ⟨hempty, hst'.trans hst, hcmp'.trans ?_⟩
    rw [BitVec.ofNat_add, ← BitVec.add_assoc, hcmp, BitVec.add_assoc, ← BitVec.ofNat_add]
    congr 2
    simp only [List.length_cons]
    omega

@[simp] theorem WaitGroup.fail_ctx (w : WaitGroup) (c r status cause : Nat) : (w.fail c r status cause).ctx = w.ctx := by
  unfold WaitGroup.fail
  repeat' split
  all_goals rfl

@[simp] theorem WaitGroup.fail_item (w : WaitGroup) (c r status cause : Nat) : (w.fail c r status cause).item = w.item := by
  unfold WaitGroup.fail
  repeat' split
  all_goals simp_all

/-- The groups that wait report another status; no ring moves. -/
theorem failWaiting_keepsRing (s : State) (c r status cause d q : Nat) :
    KeepsRing d q s { s with waiting := s.waiting.map (fun w => w.fail c r status cause) } := by
  refine ⟨rfl, ?_⟩
  show owedIn (s.waiting.map (fun w => w.fail c r status cause)) d q (getRing s d q).gen = owedIn s.waiting d q (getRing s d q).gen
  simp [owedIn, List.filter_map, Function.comp_def]

/-- The items of a ring completed, before its state is set. -/
def failItems (s : State) (c r status cause : Nat) : State :=
  (getRing s c r).items.foldl (fun t _ => completeOne t c r status cause 0 0 [] 0)
    { s with waiting := s.waiting.map (fun w => w.fail c r status cause) }

theorem failRing_eq (s : State) (c r status cause : Nat) (st : RingState) :
    failRing s c r status cause st = setRing (failItems s c r status cause) c r { getRing (failItems s c r status cause) c r with
      st := if (getRing (failItems s c r status cause) c r).st = .uncreated ∨ (getRing (failItems s c r status cause) c r).st = .lost
        then (getRing (failItems s c r status cause) c r).st else st
      items := [], paused := false } := rfl

theorem failRing_keepsRing {s : State} {c r : Nat} (hr : r < 8) (status cause : Nat) (st : RingState) {d q : Nat} (hq : q < 8)
    (hne : (c, r) ≠ (d, q)) : KeepsRing d q s (failRing s c r status cause st) := by
  have hitems : KeepsRing d q s (failItems s c r status cause) := (failWaiting_keepsRing s c r status cause d q).trans
    (foldl_keeps (KeepsRing.refl d q) KeepsRing.trans _ (fun t _ _ => completeOne_keepsRing hr status cause hq hne) _)
  refine hitems.trans ?_
  have hring : getRing (failRing s c r status cause st) d q = getRing (failItems s c r status cause) d q := by
    rw [failRing_eq, getRing_setRing _ _ _ _ _ _ hr hq, if_neg fun h => hne (by rw [h.1, h.2])]
  exact ⟨hring, by rw [owed_eq, owed_eq, hring]; rfl⟩

theorem failRing_halted {s : State} {c r : Nat} (hr : r < 8) (status cause : Nat) :
    RingHalted s (failRing s c r status cause .halted) c r := by
  have hkeep := failWaiting_keepsRing s c r status cause c r
  obtain ⟨hempty, hst, hcmp⟩ := completeAll_indices hr status cause (getRing s c r).items
    { s with waiting := s.waiting.map (fun w => w.fail c r status cause) } (by rw [hkeep.1])
  rw [hkeep.1, hkeep.2] at hcmp
  rw [hkeep.1] at hst
  refine ⟨by rw [failRing_eq, getRing_setRing_same], ?_, ?_⟩
  · rw [← hcmp, owed_eq, owed_eq, failRing_eq, getRing_setRing_same]
    rfl
  · rw [failRing_eq, getRing_setRing_same]
    show (if (getRing (failItems s c r status cause) c r).st = .uncreated ∨ (getRing (failItems s c r status cause) c r).st = .lost
        then (getRing (failItems s c r status cause) c r).st else RingState.halted) = _
    rw [show (getRing (failItems s c r status cause) c r).st = (getRing s c r).st from hst]

/-- Every ring of a context fails: each is halted, and no ring of another context changes. -/
theorem failRings_halted (s : State) (c status cause : Nat) {r : Nat} (hr : r < 8) :
    RingHalted s ((upTo 8).foldl (fun t r => failRing t c r status cause .halted) s) c r := by
  obtain ⟨t, hbefore, hafter⟩ := foldl_upTo_at (F := fun t r => failRing t c r status cause .halted) (KeepsRing.refl c r) KeepsRing.trans
    hr (fun t q hq hne => failRing_keepsRing hq status cause .halted hr (by simp [hne])) s
  exact RingHalted.keeps (RingHalted.of_keeps hbefore (failRing_halted hr status cause)) hafter

theorem failRings_keepsRing (s : State) {c d : Nat} (hne : c ≠ d) (status cause : Nat) {q : Nat} (hq : q < 8) :
    KeepsRing d q s ((upTo 8).foldl (fun t r => failRing t c r status cause .halted) s) :=
  foldl_keeps (KeepsRing.refl d q) KeepsRing.trans _
    (fun _ _ hr => failRing_keepsRing (List.mem_range.1 hr) status cause .halted hq (by simp [hne])) s

-- what a teardown does beside its rings (R338)

theorem writeLaunch_quiet (s : State) (r : LaunchRec) : Quiet s (writeLaunch s r) :=
  ((writeOrDrop_quiet _ _ _ _).trans (bltRecord_quiet _ _ _ _ _)).trans (bltTriggerCompletion_quiet _ _ _)

theorem staleOf_quiet (s : State) (p k : Nat) : Quiet s (staleOf s p k) := .of_law (staleOf_touch p k) rfl rfl rfl

theorem endMember_quiet (s : State) (p : Nat) (cmd : Cmd) (m : Member) (ctx status cause : Nat) :
    Quiet s (endMember s p cmd m ctx status cause) := (writeLaunch_quiet _ _).trans (staleOf_quiet _ _ _)

theorem beginKill_quiet (s : State) (p : Nat) (cause : KillCause) (rerun : Bool) (pause : List (Nat × Nat)) :
    Quiet s (beginKill s p cause rerun pause) := .of_law (beginKill_touch p cause rerun pause) rfl rfl rfl

theorem dropPostings_quiet (s : State) (p : Nat) (k : CmdKey) : Quiet s (dropPostings s p k) :=
  .of_law (dropPostings_touch p k) rfl rfl rfl

theorem setRun_quiet (s : State) (p j : Nat) (e : EntryRun) : Quiet s (setRun s p j e) := .of_eq rfl rfl rfl

theorem leaveFabric_quiet (s : State) (p : Nat) (k : CmdKey) : Quiet s (leaveFabric s p k) := .of_law (leaveFabric_touch p k) rfl rfl rfl

theorem teardownLaunch_quiet (s : State) (p j c cause : Nat) : Quiet s (teardownLaunch s p j c cause) := by
  unfold teardownLaunch
  split
  · exact .refl s
  dsimp only
  split
  · exact .refl s
  have hend := fun (t : State) (cmd : Cmd) (l : List Member) =>
    Quiet.fold (F := fun t m => endMember t p cmd m c stContext cause) l t (fun t m => endMember_quiet t p cmd m c stContext cause)
  have hstop : ∀ b, Quiet s (if (getPart s p).holder = some (.entry j) then beginKill s p .teardown b [] else dropPostings s p (.entry j)) :=
    fun b => iteInduction (fun _ => beginKill_quiet _ _ _ _ _) (fun _ => dropPostings_quiet _ _ _)
  exact iteInduction (fun _ => (((hstop _).trans (hend _ _ _)).trans (setRun_quiet _ _ _ _)).trans (leaveFabric_quiet _ _ _))
    (fun _ => ((hstop _).trans (hend _ _ _)).trans (setRun_quiet _ _ _ _))

theorem nibCount_quiet (s : State) (n f : Nat) : Quiet s (nibCount s n f) := .of_law (nibCount_touch n f) rfl rfl rfl

theorem nibFlags_quiet (s : State) (n : Nat) (fs : List Nat) : Quiet s (nibFlags s n fs) := by
  have hcount : ∀ w, Quiet s (fs.foldl (fun t f => nibCount t n f) (regSet s (nibOff n 0x54) w)) := fun w =>
    Quiet.trans (t := regSet s (nibOff n 0x54) w) (.of_eq rfl rfl rfl) (Quiet.fold fs _ fun t f => nibCount_quiet t n f)
  unfold nibFlags
  dsimp only
  split
  · exact hcount _
  · split
    · split
      · exact ((hcount _).trans (raiseEvent_quiet _ _ _ _ _ _ _ _)).trans (bltTrigger_quiet _ _)
      · exact (hcount _).trans (raiseEvent_quiet _ _ _ _ _ _ _ _)
    · split
      · exact (hcount _).trans (bltTrigger_quiet _ _)
      · exact hcount _

theorem noPlan_quiet (s : State) (n : Nat) : Quiet s (noPlan s n) := by
  unfold noPlan
  dsimp only
  split
  · exact .refl s
  · refine Quiet.trans ?_ (nibFlags_quiet _ _ _)
    exact .of_eq rfl rfl rfl

theorem noPlanEntry_quiet (s : State) (p j : Nat) : Quiet s (noPlanEntry s p j) := Quiet.fold _ s noPlan_quiet

theorem removeInst_quiet (s : State) (p n : Nat) : Quiet s (removeInst s p n) := .of_law (removeInst_touch p n) rfl rfl rfl

theorem releaseInstances_quiet (s : State) (c : Nat) : Quiet s (releaseInstances s c) :=
  (Quiet.fold _ s fun t j => (noPlanEntry_quiet t _ j).trans (setRun_quiet _ _ _ _)).trans
    (Quiet.fold _ _ fun t n => removeInst_quiet t _ n)

theorem teardownStart_quiet (s : State) (c : Nat) (cause : KillCause) : Quiet s (teardownStart s c cause) :=
  .of_law (teardownStart_touch c cause) rfl rfl rfl

/-- One fault record is one step of the log's INDEX. -/
theorem writeFault_index (s : State) (f : FaultRec) : (writeFault s f).anl.index = s.anl.index + 1 := by
  have hevent := same_of_law .anl (raiseEvent_touch (s := { s with anl := { s.anl with
      index := s.anl.index + 1, last := some { f with index := s.anl.index + 1, tick := lc s }
      log := (s.anl.log ++ [{ f with index := s.anl.index + 1, tick := lc s }]).drop
        ((s.anl.log ++ [{ f with index := s.anl.index + 1, tick := lc s }]).length - 4096) } }) 0x04 (some f.part) f.part
      (s.anl.index + 1) 0 0 0) rfl
  unfold writeFault
  dsimp only
  split
  · rw [same_of_law .anl (bltTrigger_touch 5) rfl, hevent]
  · rw [hevent]

/-- The teardown of a context that is on. -/
theorem teardown_of_on {s : State} {c : Nat} (hon : (getCtx s c).on = true) (cause : Nat) :
    ∃ t u f, teardown s c cause = writeFault u f ∧ Quiet s t ∧ u.anl = s.anl
      ∧ Quiet ((upTo 8).foldl (fun t r => failRing t c r stContext cause .halted) t) u := by
  let p := (getCtx s c).part
  let s2 := teardownStart s c .teardown
  let s3 := (upTo 8).foldl (fun t r => failRing t c r stContext cause .halted) s2
  let s4 := (upTo 64).foldl (fun t j => teardownLaunch t p j c cause) s3
  have hanl : (releaseInstances s4 c).anl = s.anl := by
    rw [same_of_law .anl (releaseInstances_touch c) rfl]
    have h4 : Touch [.regs, .parts, .tiles, .be, .ctxs, .rings, .journal, .waiting, .host, .mailbox, .blt, .assay] s3 s4 :=
      Touch.fold _ (Touch.refl _ _) fun t j ht => teardownLaunch_touch p j c cause rfl ht
    have h3 : Touch [.regs, .ctxs, .rings, .journal, .waiting, .host, .mailbox, .blt] s2 s3 :=
      Touch.fold _ (Touch.refl _ _) fun t r ht => failRing_touch c r stContext cause .halted rfl ht
    exact (h4.keeps .anl rfl).trans ((h3.keeps .anl rfl).trans (same_of_law .anl (teardownStart_touch c .teardown) rfl))
  refine ⟨s2, releaseInstances s4 c, { faultOf 0x03 p with ctx := c, detail := BitVec.ofNat 32 cause }, ?_, teardownStart_quiet s c _, hanl,
    (Quiet.fold _ s3 fun t j => teardownLaunch_quiet t p j c cause).trans (releaseInstances_quiet s4 c)⟩
  unfold teardown
  dsimp only
  rw [if_neg (by simp [hon])]

theorem hostReadFailTearsTheContextDown : HostReadFailTearsTheContextDown := by
  refine fun c s => ⟨fun hon => ?_, fun hoff => ?_⟩
  · obtain ⟨t, u, f, hrun, hstart, hanl, hrest⟩ := teardown_of_on hon 1
    have hexec : execHostReadFail c s = .next (writeFault u f) := congrArg Host.Outcome.next hrun
    refine ⟨writeFault u f, hexec, by rw [writeFault_index, hanl], fun r hr => ?_, fun d r hne hr => ?_⟩
    · exact RingHalted.of_keeps (hstart.keepsRing c.val r) (RingHalted.keeps (failRings_halted t c.val stContext 1 hr)
        ((hrest.trans (writeFault_quiet u f)).keepsRing c.val r))
    · have hother := failRings_keepsRing t (Ne.symm hne) stContext 1 hr
      exact (((hstart.keepsRing d r).trans hother).trans ((hrest.trans (writeFault_quiet u f)).keepsRing d r)).1
  · show execHostReadFail c s = .next s
    unfold execHostReadFail teardown
    dsimp only
    rw [hoff]
    rfl

-- Warm recovery (R369)

theorem completeOne_sameCtxs_or_none (s : State) (c r status cause : Nat) : SameCtxs s (completeOne s c r status cause 0 0 [] 0) := by
  by_cases hi : (getRing s c r).items = []
  · rw [show completeOne s c r status cause 0 0 [] 0 = s by simp [completeOne, hi]]
    exact SameCtxs.refl s
  · exact completeOne_sameCtxs hi status cause 0 0 [] 0

theorem failRing_sameCtxs (s : State) (c r status cause : Nat) (st : RingState) : SameCtxs s (failRing s c r status cause st) := by
  have hfold : SameCtxs { s with waiting := s.waiting.map (fun w => w.fail c r status cause) } (failItems s c r status cause) :=
    foldl_keeps SameCtxs.refl SameCtxs.trans _ (fun t _ _ => completeOne_sameCtxs_or_none t c r status cause) _
  exact (SameCtxs.of_eq (t := { s with waiting := s.waiting.map (fun w => w.fail c r status cause) }) rfl).trans
    (hfold.trans (SameCtxs.of_eq rfl))

/-- The state a Warm recovery starts the completions from. -/
def warmRewritten (s : State) (c : Nat) : State :=
  let x := getCtx s c
  let s0 := setCtx s c { x with recover := false }
  let s1 := (s0.journal.filter (fun g => g.ctx == c)).foldl writeSlots s0
  { s1 with bme := if x.func = 16 then s1.bme else s1.bme ||| BitVec.ofNat 16 (2 ^ x.func) }

theorem warmRecovery_eq {c : CtxId} {s : State} (hready : isReady s = true) (hrec : (getCtx s c.val).recover = true)
    (hfirst : ∀ d < c.val, (getCtx s d).recover = false) :
    execWarmRecovery c s = .next ((upTo 8).foldl (fun t r => failRing t c.val r stReset 2 .halted) (warmRewritten s c.val)) := by
  have hall : (upTo c.val).all (fun d => !(getCtx s d).recover) = true := by
    simpa [upTo] using hfirst
  unfold execWarmRecovery
  simp only [hready, hrec, hall, Bool.and_self, if_true]
  rfl

theorem warmRewritten_touch (s : State) (c : Nat) : Touch [.ctxs, .host, .mailbox, .bme] s (warmRewritten s c) :=
  Touch.updBme rfl (Touch.fold _ (setCtx_touch _ _ rfl (Touch.refl _ _)) fun _ g ht => writeSlots_touch g rfl ht)

theorem warmRewritten_ctx (s : State) (c : Nat) : getCtx (warmRewritten s c) c = { getCtx s c with recover := false } := by
  have hfold : Touch [.host, .mailbox] (setCtx s c { getCtx s c with recover := false })
      (((setCtx s c { getCtx s c with recover := false }).journal.filter (fun g => g.ctx == c)).foldl writeSlots
        (setCtx s c { getCtx s c with recover := false })) :=
    Touch.fold _ (Touch.refl _ _) fun t g ht => writeSlots_touch g rfl ht
  exact (getCtx_congr (hfold.keeps .ctxs rfl) c).trans (getCtx_setCtx_same _ _ _)

theorem warmRewritten_bme {s : State} {c : Nat} (h : (getCtx s c).func < 16) :
    (warmRewritten s c).bme.getLsbD (getCtx s c).func = true := by
  unfold warmRewritten
  dsimp only
  rw [if_neg (by omega), BitVec.getLsbD_or, BitVec.getLsbD_ofNat, Nat.testBit_two_pow_self]
  simp [h]

theorem warmRecoveryHaltsTheRings : WarmRecoveryHaltsTheRings := by
  refine fun c s => ⟨fun hready hrec hfirst => ?_, fun ⟨d, hd, hrec⟩ => ?_⟩
  · have hsame : SameCtxs (warmRewritten s c.val)
        ((upTo 8).foldl (fun t r => failRing t c.val r stReset 2 .halted) (warmRewritten s c.val)) :=
      foldl_keeps SameCtxs.refl SameCtxs.trans _ (fun t r _ => failRing_sameCtxs t c.val r stReset 2 .halted) _
    have hfold : Touch [.regs, .ctxs, .rings, .journal, .waiting, .host, .mailbox, .blt] (warmRewritten s c.val)
        ((upTo 8).foldl (fun t r => failRing t c.val r stReset 2 .halted) (warmRewritten s c.val)) :=
      Touch.fold _ (Touch.refl _ _) fun t r ht => failRing_touch c.val r stReset 2 .halted rfl ht
    have hkeep := KeepsRing.of_eq ((warmRewritten_touch s c.val).keeps .rings rfl) ((warmRewritten_touch s c.val).keeps .waiting rfl)
    refine ⟨_, warmRecovery_eq hready hrec hfirst, ?_, fun hfunc => ?_, fun r hr => ?_⟩
    · rw [hsame c.val, warmRewritten_ctx]
    · rw [hfold.keeps .bme rfl, warmRewritten_bme hfunc]
    · exact RingHalted.of_keeps (hkeep c.val r) (failRings_halted _ c.val stReset 2 hr)
  · have hnot : (upTo c.val).all (fun d => !(getCtx s d).recover) = false := by
      simp only [List.all_eq_false, upTo, List.mem_range]
      exact ⟨d, hd, by simp [hrec]⟩
    show execWarmRecovery c s = .next s
    unfold execWarmRecovery
    simp [hnot]

end Sys2Proof.Machine
end

section
/-! SUPPORT. Why the loss of a function is not proved as stated (R370): a group that waits may name a ring number past its context's
eight, and no statement of the model excludes it. -/

namespace Sys2Proof.Machine

/-- Context 1 on function 1, and a group of context 0 that waits for the journal and names ring 8 of it, which is ring 0 of context 1. -/
def strayGroup : State :=
  { State.reset with
    ctxs := tblSet Ctx.reset State.reset.ctxs 1 { Ctx.reset with on := true, func := 1 }
    waiting := [⟨0, some (8, 0), false, [], []⟩] }

/-- The state a command answers. -/
def answered (s : State) (o : Result) : State := match o with | .next t => t | _ => s

/-- The lost context's ring at its acceptance index, and then one further: the group that waited has entered the journal. -/
theorem strayGroup_moves_lost_ring :
    (getRing (answered strayGroup (execFunctionLoss 1 strayGroup)) 1 0).cmp = 1 ∧ (getRing strayGroup 1 0).acc = 0 := by decide +kernel

/-- Refutes O14: in `strayGroup` the loss of function 1 leaves ring 0 of context 1 with its commit index past its acceptance index, as
the stray group's entry moves it. Its other two parts hold (`hostReadFailTearsTheContextDown`, `warmRecoveryHaltsTheRings`). -/
theorem not_contextsAreTornDown : ¬ Obligations.ContextsAreTornDown := by
  rintro ⟨-, hloss, -⟩
  obtain ⟨t, hrun, -, hlost, -⟩ := hloss 1 strayGroup
  obtain ⟨hmoved, hacc⟩ := strayGroup_moves_lost_ring
  have hexec : execFunctionLoss 1 strayGroup = .next t := hrun
  rw [hexec] at hmoved
  obtain ⟨-, hcmp, -⟩ := (hlost 1 (by decide) rfl (by decide) (Or.inr rfl)).1 0 (by decide)
  rw [show (getRing t 1 0).cmp = 1 from hmoved, hacc] at hcmp
  exact absurd hcmp (by decide)

end Sys2Proof.Machine
end

section
/-! SUPPORT. The range gate (R41 to R64): what the verdict on a host object changes, of its partition and of the ASN. -/

namespace Sys2Proof.Machine

-- completions leave the registers and the partitions

theorem settle_regs (n : Nat) (s : State) (c r : Nat) : (settle n s c r).regs = s.regs := by
  induction n generalizing s with
  | zero => rfl
  | succ n ih =>
    unfold settle
    split
    next it l hi =>
      split
      · rw [ih, completeOne_regs (by simp [hi])]
      · rfl
    next => rfl

@[simp] theorem completeItem_regs (s : State) (c r status cause : Nat) (detail asn : Word) (exts : List CSlot) (flags : CFlags) :
    (completeItem s c r status cause detail asn exts flags).regs = s.regs := by
  unfold completeItem
  rw [settle_regs]
  by_cases hi : (getRing s c r).items = []
  · simp [completeOne, hi]
  · rw [completeOne_regs hi]

@[simp] theorem completeItem_parts (s : State) (c r status cause : Nat) (detail asn : Word) (exts : List CSlot) (flags : CFlags) :
    (completeItem s c r status cause detail asn exts flags).parts = s.parts :=
  same_of_law .parts (completeItem_touch c r status cause detail asn exts flags) rfl

-- the Blotter's part of a verdict

@[simp] theorem setRecord_parts (s : State) (p : Nat) (g : GateItem) (st cause : Nat) (asn : Word) (vals : List (Nat × Word)) :
    (setRecord s p g st cause asn vals).parts = s.parts := same_of_law .parts (setRecord_touch p g st cause asn vals) rfl

@[simp] theorem setRecord_regs (s : State) (p : Nat) (g : GateItem) (st cause : Nat) (asn : Word) (vals : List (Nat × Word)) :
    (setRecord s p g st cause asn vals).regs = s.regs := same_of_law .regs (setRecord_touch p g st cause asn vals) rfl

@[simp] theorem replayAccepted_parts (s : State) (p : Nat) (g : GateItem) (vals : List (Nat × Word)) :
    (replayAccepted s p g vals).parts = s.parts := same_of_law .parts (replayAccepted_touch p g vals) rfl

@[simp] theorem replayAccepted_regs (s : State) (p : Nat) (g : GateItem) (vals : List (Nat × Word)) :
    (replayAccepted s p g vals).regs = s.regs := same_of_law .regs (replayAccepted_touch p g vals) rfl

/-- A live set, which carries no recorded ASN, is no divergence of a replay. -/
theorem replayRefused_of_live {g : GateItem} (h : g.asn = 0) (s : State) (p : Nat) : replayRefused s p g = s := if_pos h

-- the gate and the ASN

@[simp] theorem getPart_popGate (s : State) (p : Nat) (g : GateItem) :
    getPart (popGate s p g) p = { getPart s p with gate := (getPart s p).gate.erase g } := getPart_setPart_same _ _ _

@[simp] theorem popGate_regs (s : State) (p : Nat) (g : GateItem) : (popGate s p g).regs = s.regs := rfl

@[simp] theorem takeAsn_parts (s : State) (p : Nat) : (takeAsn s p).parts = s.parts := rfl

theorem nextAsn_popGate (s : State) (p : Nat) (g : GateItem) : nextAsn (popGate s p g) p = nextAsn s p := rfl

theorem regGet_takeAsn_same (s : State) (p : Nat) : regGet (takeAsn s p) (fabOff p 0x3C) = nextAsn s p := regGet_regSet_same _ _ _

/-- The count a launch is on reads the replay, the partition's parameters and the clock. -/
theorem count_congr {s t : State} {p : Nat} (hblt : t.blt = s.blt) (hpars : (getPart t p).pars = (getPart s p).pars)
    (hreg : regGet t (bltOff 0xC0) = regGet s (bltOff 0xC0)) (htu : t.tu = s.tu) : count t p = count s p := by
  unfold count isReplay replayPart lc
  rw [hblt, hpars, hreg, htu]

theorem count_takeAsn_popGate (s : State) (p : PartId) (g : GateItem) : count (takeAsn (popGate s p.val g) p.val) p.val = count s p.val := by
  refine count_congr rfl ?_ ?_ rfl
  · rw [getPart_congr (takeAsn_parts _ _), getPart_popGate]
  · unfold takeAsn
    rw [regGet_regSet, if_neg (by simp only [fabOff, bltOff]; omega)]
    rfl

-- the verdict on a host object (R43)

/-- The state of a partition whose gate has refused a set: the set is gone. -/
def refusedObject (s : State) (p : Nat) (g : GateItem) (e : Refused) : State :=
  let s0 := popGate s p g
  let s1 := if e.status = stAdmit ∧ e.cause = 2 ∧ g.kind ≠ 0x20 then bump s0 (fabOff p 0x28) else s0
  reportHost (replayRefused (setRecord s1 p g e.status e.cause 0 []) p g) g e.status e.cause e.entry 0

section
variable {s : State} {p : Nat} {g : GateItem} {c r q : Nat} {kinds : Nat → Bool} {judge : GateItem → Image → Judged}
  {accept : State → GateItem → Image → List (Nat × Word) → State × Word}
  (hhead : gateHead s p = some g) (hsrc : g.src = .host c r q) (hkind : kinds g.kind = true)
include hhead hsrc hkind

theorem judgeObject_of_accepted {im : Image} {vals : List (Nat × Word)} (hsteps : hostSteps (getPart s p) g = .inr im)
    (hjudge : judge g im = .inr vals) : judgeObject s p kinds judge accept =
      completeItem (replayAccepted (setRecord (accept (takeAsn (popGate s p g) p) g im vals).1 p g 0 0 (nextAsn s p) vals) p g vals) c r
        stOk 0 (accept (takeAsn (popGate s p g) p) g im vals).2 (nextAsn s p) [] 0 := by
  unfold judgeObject
  simp only [hhead, hkind, hsteps, hjudge, GateItem.isObject, hsrc, Bool.and_self, Bool.not_true, Bool.false_eq_true, if_false]
  rfl

theorem judgeObject_of_refused {e : Refused} (h : hostSteps (getPart s p) g = .inl e
    ∨ ∃ im, hostSteps (getPart s p) g = .inr im ∧ judge g im = .inl e) :
    judgeObject s p kinds judge accept = refusedObject s p g e := by
  unfold judgeObject refusedObject
  obtain hsteps | ⟨im, hsteps, hjudge⟩ := h
  · simp only [hhead, hkind, hsteps, GateItem.isObject, hsrc, Bool.and_self, Bool.not_true, Bool.false_eq_true, if_false]
  · simp only [hhead, hkind, hsteps, hjudge, GateItem.isObject, hsrc, Bool.and_self, Bool.not_true, Bool.false_eq_true, if_false]

end

-- an accepted set is queued (R45, R360)

/-- What acceptance queues for one `Inst`, with the next ASN and the partition's count. -/
def acceptedSet (s : State) (p : Nat) (vals : List (Nat × Word)) (w : Option WarmStart) : QSet := ⟨nextAsn s p, vals, w, count s p⟩

/-- The state with a set queued, before the Blotter and the completion. -/
def queued (s : State) (p : Nat) (g : GateItem) (vals : List (Nat × Word)) (w : Option WarmStart) : State :=
  let t := takeAsn (popGate s p g) p
  queueSet t p g.inst ⟨regGet t (fabOff p 0x3C), vals, w, count t p⟩

theorem getPart_queued {s : State} {p : PartId} {g : GateItem} {i : Inst} (hi : (getPart s p.val).inst? g.inst = some i)
    (vals : List (Nat × Word)) (w : Option WarmStart) : getPart (queued s p.val g vals w) p.val =
      { (getPart s p.val).putInst { i with queue := i.queue ++ [acceptedSet s p.val vals w] } with
        gate := (getPart s p.val).gate.erase g } := by
  have hpart : getPart (takeAsn (popGate s p.val g) p.val) p.val = { getPart s p.val with gate := (getPart s p.val).gate.erase g } := by
    rw [getPart_congr (takeAsn_parts _ _), getPart_popGate]
  have hinst : (getPart (takeAsn (popGate s p.val g) p.val) p.val).inst? g.inst = some i := by
    rw [hpart]
    exact hi
  unfold queued queueSet
  simp only [hinst, putInst, getPart_setPart_same]
  rw [hpart, regGet_takeAsn_same, nextAsn_popGate, count_takeAsn_popGate]
  rfl

theorem queued_regs (s : State) (p : Nat) (g : GateItem) (vals : List (Nat × Word)) (w : Option WarmStart) :
    (queued s p g vals w).regs = (takeAsn (popGate s p g) p).regs := same_of_law .regs (queueSet_touch p g.inst _) rfl

theorem regGet_queued_asn (s : State) (p : Nat) (g : GateItem) (vals : List (Nat × Word)) (w : Option WarmStart) :
    regGet (queued s p g vals w) (fabOff p 0x3C) = nextAsn s p := by
  rw [regGet_congr (queued_regs s p g vals w), regGet_takeAsn_same, nextAsn_popGate]

/-- Any state with the registers and partitions of the queued one has the set queued. -/
theorem queued_of_eq {s t : State} {p : PartId} {g : GateItem} {i : Inst} (hi : (getPart s p.val).inst? g.inst = some i)
    {vals : List (Nat × Word)} {w : Option WarmStart} (hparts : t.parts = (queued s p.val g vals w).parts)
    (hregs : t.regs = (queued s p.val g vals w).regs) : Queued s t p.val g i vals w := by
  refine ⟨?_, ?_⟩
  · rw [regGet_congr hregs, regGet_queued_asn]
  · rw [getPart_congr hparts, getPart_queued hi]
    rfl

/-- Step 10 for a WARM_START (R53): its padding word. -/
def warmValues (g : GateItem) (im : Image) : Judged :=
  if (g.payload.drop im.w).any (fun w => w != 0) then refuse stStructure 2 else .inr []

/-- An accepted WARM_START is queued as a set with its words. -/
def acceptWarm (p : Nat) (t : State) (g : GateItem) (im : Image) (_vals : List (Nat × Word)) : State × Word :=
  (queueSet t p g.inst ⟨regGet t (fabOff p 0x3C), [], some ⟨g.sig, g.arg2.toNat, g.payload.take im.w⟩, count t p⟩, 0)

theorem warmStart_eq (p : PartId) (s : State) :
    execWarmStart p s = .next (judgeObject s p.val (fun k => decide (k = 0x31)) warmValues (acceptWarm p.val)) := rfl

theorem acceptedObjectsAreQueued : AcceptedObjectsAreQueued := by
  intro p g im i vals s ⟨hhead, ⟨c, r, q, hsrc⟩, hsteps⟩ hi
  refine ⟨fun hkind hset => ?_, fun hkind hset => ?_, fun hkind hpad => ?_⟩
  · have hrun := judgeObject_of_accepted (kinds := fun k => decide (k ≤ 0x0D) || !kindDefined k)
      (judge := fun g im => hostSet s p.val g im) (accept := acceptSet p.val) hhead hsrc (by simpa using hkind) hsteps hset
    exact ⟨_, congrArg Host.Outcome.next hrun, queued_of_eq hi (by simp [acceptSet, queued]) (by simp [acceptSet, queued])⟩
  · have hrun := judgeObject_of_accepted (kinds := fun k => decide (k = 0x30))
      (judge := fun g im => hostSet s p.val g im) (accept := acceptSet p.val) hhead hsrc (by simpa using hkind) hsteps hset
    exact ⟨_, congrArg Host.Outcome.next hrun, queued_of_eq hi (by simp [acceptSet, queued]) (by simp [acceptSet, queued])⟩
  · have hany : (g.payload.drop im.w).any (fun w => w != 0) = false := by simpa using hpad
    have hrun := judgeObject_of_accepted (kinds := fun k => decide (k = 0x31)) (judge := warmValues) (accept := acceptWarm p.val)
      hhead hsrc (by simpa using hkind) hsteps (show warmValues g im = .inr [] by rw [warmValues, hany]; rfl)
    exact ⟨_, (warmStart_eq p s).trans (congrArg Host.Outcome.next hrun), queued_of_eq hi (by simp [acceptWarm, queued])
      (by simp [acceptWarm, queued])⟩

/-- A refusal takes the set from the gate and leaves the rest of the partition and the ASN. -/
theorem refusedObject_changes {g : GateItem} (hlive : g.asn = 0) (s : State) (p : Nat) (e : Refused) :
    getPart (refusedObject s p g e) p = { getPart s p with gate := (getPart s p).gate.erase g }
      ∧ regGet (refusedObject s p g e) (fabOff p 0x3C) = regGet s (fabOff p 0x3C) := by
  have hreport : ∀ t st cause entry asn, (reportHost t g st cause entry asn).parts = t.parts
      ∧ (reportHost t g st cause entry asn).regs = t.regs := fun t st cause entry asn => by
    unfold reportHost
    split
    · exact ⟨completeItem_parts .., completeItem_regs ..⟩
    · exact ⟨rfl, rfl⟩
  unfold refusedObject
  dsimp only
  rw [replayRefused_of_live hlive, getPart_congr ((hreport _ _ _ _ _).1.trans (setRecord_parts ..)),
    regGet_congr ((hreport _ _ _ _ _).2.trans (setRecord_regs ..))]
  split
  · refine ⟨getPart_popGate s p g, ?_⟩
    rw [bump, regGet_regSet, if_neg (by simp only [fabOff]; omega)]
    rfl
  · exact ⟨getPart_popGate s p g, rfl⟩

theorem refusedSetsChangeNothing : RefusedSetsChangeNothing := by
  intro p g c r q e s hhead hsrc hlive refused
  obtain ⟨hpart, hasn⟩ := refusedObject_changes hlive s p.val e
  refine ⟨fun h => ⟨fun hkind => ?_, fun hkind => ?_⟩, fun h hkind => ?_⟩
  · have hrun := judgeObject_of_refused (kinds := fun k => decide (k ≤ 0x0D) || !kindDefined k)
      (judge := fun g im => hostSet s p.val g im) (accept := acceptSet p.val) hhead hsrc (by simpa using hkind) h
    exact ⟨_, congrArg Host.Outcome.next hrun, hpart, hasn⟩
  · have hrun := judgeObject_of_refused (kinds := fun k => decide (k = 0x30))
      (judge := fun g im => hostSet s p.val g im) (accept := acceptSet p.val) hhead hsrc (by simpa using hkind) h
    exact ⟨_, congrArg Host.Outcome.next hrun, hpart, hasn⟩
  · have hrefused : ∃ e, hostSteps (getPart s p.val) g = .inl e
        ∨ ∃ im, hostSteps (getPart s p.val) g = .inr im ∧ warmValues g im = .inl e := by
      obtain h | ⟨im, hsteps, hpad⟩ := h
      · exact ⟨e, .inl h⟩
      · exact ⟨⟨stStructure, 2, 0⟩, .inr ⟨im, hsteps, if_pos hpad⟩⟩
    obtain ⟨e', h⟩ := hrefused
    obtain ⟨hpart, hasn⟩ := refusedObject_changes hlive s p.val e'
    have hrun := judgeObject_of_refused (kinds := fun k => decide (k = 0x31)) (accept := acceptWarm p.val) hhead hsrc
      (by simpa using hkind) h
    exact ⟨_, (warmStart_eq p s).trans (congrArg Host.Outcome.next hrun), hpart, hasn⟩

/-- Settles O15: an accepted object's state is `queued`, a refused one's `refusedObject`. -/
theorem hostSetsAreQueuedOrRefused : Obligations.HostSetsAreQueuedOrRefused := ⟨acceptedObjectsAreQueued, refusedSetsChangeNothing⟩

-- a superseded incarnation (R62)

/-- Settles O16: the object passes the steps before step 8 and fails it. -/
theorem supersededIncarnationIsRefused : Obligations.SupersededIncarnationIsRefused := by
  intro p g im i c r q s hhead hsrc hlive hkind hversion himg hheader hlength hsuits hsig hi hrel hslot hincarn
  have hsteps : hostSteps (getPart s p.val) g = .inl ⟨stAdmit, 2, 0⟩ := by
    rw [hkind] at hsuits
    unfold hostSteps
    simp [hversion, himg, hheader, hlength, hsuits, hsig, hi, hrel, hslot, hincarn, hkind]
  have hrun := judgeObject_of_refused (kinds := fun k => decide (k = 0x30)) (judge := fun g im => hostSet s p.val g im)
    (accept := acceptSet p.val) hhead hsrc (by simpa using hkind) (.inl hsteps)
  refine (congrArg Host.Outcome.next hrun).trans ?_
  unfold refusedObject reportHost
  simp [replayRefused_of_live hlive, hkind, hsrc, stAdmit, stRange]

-- admission and release (R37, R59, R60, R64)

/-- The `Inst` a declaration admits. -/
def declared (s : State) (p : Nat) (g : GateItem) (im : Image) (c : Nat) : Inst := newInst (takeAsn (popGate s p g) p) p g im c

/-- The state with the new `Inst` added, before the Blotter and the completion. -/
def admitted (s : State) (p : Nat) (g : GateItem) (im : Image) (c : Nat) : State :=
  let t := takeAsn (popGate s p g) p
  setPart t p { getPart t p with
    insts := (getPart t p).insts ++ [declared s p g im c], lastIncarn := tblSet none (getPart t p).lastIncarn g.inst (some g.incarn) }

theorem instDecl_of_admitted {s : State} {p : PartId} {g : GateItem} {im : Image} {c r q : Nat} (hhead : gateHead s p.val = some g)
    (hsrc : g.src = .host c r q) (hkind : g.kind = 0x20) (hsteps : hostSteps (getPart s p.val) g = .inr im)
    (hcause : admitCause (getPart s p.val) g im = none) :
    ∃ t, execInstDecl p s = .next t ∧ t.parts = (admitted s p.val g im c).parts := by
  unfold execInstDecl
  rw [judgeObject_of_accepted (im := im) (vals := []) hhead hsrc (by simpa using hkind) hsteps (by simp [hcause])]
  refine ⟨_, rfl, ?_⟩
  simp only [completeItem_parts, replayAccepted_parts, setRecord_parts, hsrc]
  rfl

theorem declarationAdmitsAnInstance : DeclarationAdmitsAnInstance := by
  rintro p g im c r q s ⟨hhead, -, hsteps⟩ hsrc hkind hcause
  obtain ⟨t, hrun, hparts⟩ := instDecl_of_admitted hhead hsrc hkind hsteps hcause
  have hpart : getPart t p.val = getPart (admitted s p.val g im c) p.val := getPart_congr hparts _
  have hbefore : getPart (takeAsn (popGate s p.val g) p.val) p.val = { getPart s p.val with gate := (getPart s p.val).gate.erase g } := by
    rw [getPart_congr (takeAsn_parts _ _), getPart_popGate]
  refine ⟨t, declared s p.val g im c, hrun, ?_, rfl, rfl, rfl, rfl, rfl, rfl, rfl, rfl, rfl, rfl, ?_⟩
  · rw [hpart, admitted, getPart_setPart_same, hbefore]
  · rw [hpart, admitted, getPart_setPart_same, tblGet_set_same]

/-- Whether a command runs on an `Inst` reads the partition's entries and awaits, and the best-effort commands. -/
theorem instBusy_congr {s t : State} {p : Nat} (hentries : (getPart t p).entries = (getPart s p).entries)
    (hawaits : (getPart t p).awaits = (getPart s p).awaits) (hbe : t.be = s.be) (n : Nat) : instBusy t p n = instBusy s p n := by
  unfold instBusy
  simp only [hentries, hawaits, hbe]

theorem num_of_inst? {x : Part} {n : Nat} {i : Inst} (h : x.inst? n = some i) : i.num = n := by
  simpa using List.find?_some h

/-- The lookup of an `Inst` after it was replaced. -/
theorem inst?_putInst {x : Part} {n : Nat} {i : Inst} (h : x.inst? n = some i) {j : Inst} (hj : j.num = n) :
    (x.putInst j).inst? n = some j := by
  have hsame : (fun k : Inst => k.num == n) ∘ (fun k => if k.num = j.num then j else k) = fun k => k.num == n := by
    funext k
    by_cases hk : k.num = n <;> simp [hj, hk]
  unfold Part.inst? Part.putInst at *
  rw [List.find?_map, hsame, h, Option.map_some, if_pos ((num_of_inst? h).trans hj.symm)]

/-- After it was replaced every `Inst` of its number is the new one. -/
theorem eq_of_mem_putInst {x : Part} {j k : Inst} (h : k ∈ (x.putInst j).insts) (hk : k.num = j.num) : k = j := by
  obtain ⟨i, -, rfl⟩ := List.mem_map.1 h
  by_cases hi : i.num = j.num
  · rw [if_pos hi]
  · rw [if_neg hi] at hk
    exact absurd hk hi

/-- A released `Inst` stays while a command runs on it and is else gone. -/
theorem inst?_freeReleased {s : State} {p : Nat} {j : Inst} (hrel : j.released = true)
    (hj : (getPart s p).inst? j.num = some j) (honly : ∀ k ∈ (getPart s p).insts, k.num = j.num → k = j) :
    (getPart (freeReleased s p) p).inst? j.num = if instBusy s p j.num then some j else none := by
  unfold freeReleased dropInsts
  rw [getPart_setPart_same]
  unfold Part.dropInsts Part.inst?
  rw [List.find?_filter]
  by_cases hbusy : instBusy s p j.num = true
  · rw [if_pos hbusy, ← hj]
    refine List.find?_congr fun k hk => ?_
    by_cases hnum : k.num = j.num
    · simp [hnum, hbusy]
    · simp [hnum]
  · rw [if_neg hbusy, List.find?_eq_none]
    intro k hk
    by_cases hnum : k.num = j.num
    · obtain rfl := honly k hk hnum
      simp [hrel, hbusy]
    · simp [hnum]

/-- The state with an `Inst` marked released, before it is freed. -/
def releasing (s : State) (p : Nat) (g : GateItem) (i : Inst) : State :=
  putInst (takeAsn (popGate s p g) p) p { i with released := true, queue := [] }

theorem getPart_releasing (s : State) (p : Nat) (g : GateItem) (i : Inst) : getPart (releasing s p g i) p =
    { (getPart s p).putInst { i with released := true, queue := [] } with gate := (getPart s p).gate.erase g } := by
  have hbefore : getPart (takeAsn (popGate s p g) p) p = { getPart s p with gate := (getPart s p).gate.erase g } := by
    rw [getPart_congr (takeAsn_parts _ _), getPart_popGate]
  unfold releasing putInst
  rw [getPart_setPart_same, hbefore]
  rfl

theorem instRelease_of_accepted {s : State} {p : PartId} {g : GateItem} {im : Image} {i : Inst} {c r q : Nat}
    (hhead : gateHead s p.val = some g) (hsrc : g.src = .host c r q) (hkind : g.kind = 0x21)
    (hsteps : hostSteps (getPart s p.val) g = .inr im) (hi : (getPart s p.val).inst? g.inst = some i) :
    ∃ t, execInstRelease p s = .next t ∧ t.parts = (freeReleased (releasing s p.val g i) p.val).parts := by
  have hinst : (getPart (takeAsn (popGate s p.val g) p.val) p.val).inst? g.inst = some i := by
    rw [getPart_congr (takeAsn_parts _ _), getPart_popGate]
    exact hi
  unfold execInstRelease
  rw [judgeObject_of_accepted (im := im) (vals := []) hhead hsrc (by simpa using hkind) hsteps rfl]
  refine ⟨_, rfl, ?_⟩
  simp only [completeItem_parts, replayAccepted_parts, setRecord_parts, hinst]
  rfl

theorem releaseFreesAtTheStepBoundary : ReleaseFreesAtTheStepBoundary := by
  rintro p g im i s ⟨hhead, ⟨c, r, q, hsrc⟩, hsteps⟩ hkind hi
  obtain ⟨t, hrun, hparts⟩ := instRelease_of_accepted hhead hsrc hkind hsteps hi
  have hnum : i.num = g.inst := num_of_inst? hi
  let j : Inst := { i with released := true, queue := [] }
  have hpart := getPart_releasing s p.val g i
  have hj : (getPart (releasing s p.val g i) p.val).inst? j.num = some j := by
    rw [hpart]
    exact (congrArg ((getPart s p.val).putInst j).inst? hnum).trans (inst?_putInst hi hnum)
  have honly : ∀ k ∈ (getPart (releasing s p.val g i) p.val).insts, k.num = j.num → k = j := by
    rw [hpart]
    exact fun k hk => eq_of_mem_putInst hk
  have hbusy : instBusy (releasing s p.val g i) p.val g.inst = instBusy s p.val g.inst :=
    instBusy_congr (s := s) (t := releasing s p.val g i) (by rw [hpart]; rfl) (by rw [hpart]; rfl) rfl _
  refine ⟨t, hrun, ?_⟩
  have hfree := inst?_freeReleased rfl hj honly
  rw [show j.num = g.inst from hnum, hbusy] at hfree
  rw [getPart_congr hparts, hfree]

/-- Settles O17: the gate's accept functions add the declared `Inst`, and free a released one when nothing runs on it. -/
theorem instancesComeAndGo : Obligations.InstancesComeAndGo := ⟨declarationAdmitsAnInstance, releaseFreesAtTheStepBoundary⟩

-- a refused commit set of a released target (R43, R64, R92)

/-- An `Inst` whose release waits for the step that has just committed to it. -/
def releasedTarget : Inst :=
  { (default : Inst) with num := 5, released := true }

/-- The commit set of a launch to that `Inst`, at the gate. -/
def lastCommitSet : GateItem := ⟨.commit 0 7 0 0 0, 0, 0, 0, [], [], 5, 0, 0, 0⟩

/-- The set is the last one its launch awaits the verdict of, and the launch holds the `Inst`'s release back. -/
def releaseAwaitsVerdict : State :=
  setPart State.reset 0 { Part.reset with
    insts := [releasedTarget], gate := [lastCommitSet], awaits := [⟨7, default, none, 1, none, [5]⟩] }

theorem releaseAwaitsVerdict_frees :
    (getPart (answered releaseAwaitsVerdict (execCommitSetVerdict 0 releaseAwaitsVerdict)) 0).inst? 5 = none
      ∧ instBusy releaseAwaitsVerdict 0 5 = true := by decide +kernel

/-- Refutes O18: the gate refuses the commit set of a released `Inst`; with the last verdict of the launch the release takes effect
(R64), and the `Inst` the statement keeps is gone. -/
theorem not_deviceSetsAreJudged : ¬ Obligations.DeviceSetsAreJudged := by
  rintro ⟨-, hcommit⟩
  obtain ⟨-, hrefused⟩ := hcommit 0 lastCommitSet 0 7 0 0 0 releasedTarget releaseAwaitsVerdict (by decide +kernel) rfl (by decide +kernel)
  obtain ⟨t, hrun, hinst, -⟩ := hrefused ⟨stStructure, 9, 0⟩ (by decide +kernel)
  have hexec : execCommitSetVerdict 0 releaseAwaitsVerdict = .next t := hrun
  have hfree := releaseAwaitsVerdict_frees.1
  rw [hexec] at hfree
  exact absurd (hfree.symm.trans hinst) (by simp)

end Sys2Proof.Machine
end

section
/-! SUPPORT. Launches (R45 to R50, R186, R230): the cutoff, the launch count and what they leave of their entry. -/

namespace Sys2Proof.Machine

-- reads of a partition

theorem getPart_setRun (s : State) (p j : Nat) (e : EntryRun) : getPart (setRun s p j e) p = (getPart s p).setRun j e :=
  getPart_setPart_same _ _ _

@[simp] theorem getRun_setRun_same (s : State) (p j : Nat) (e : EntryRun) : getRun (setRun s p j e) p j = e := by
  rw [getRun_setRun, if_pos rfl]

theorem getRun_congr {s t : State} {p : Nat} (h : (getPart t p).entries = (getPart s p).entries) (j : Nat) :
    getRun t p j = getRun s p j := by
  unfold getRun Part.run
  rw [h]

theorem getPart_putInst (s : State) (p : Nat) (i : Inst) : getPart (putInst s p i) p = (getPart s p).putInst i :=
  getPart_setPart_same _ _ _

@[simp] theorem getRun_putInst (s : State) (p : Nat) (i : Inst) (j : Nat) : getRun (putInst s p i) p j = getRun s p j :=
  getRun_congr (by rw [getPart_putInst]; rfl) j

theorem isReplay_congr {s t : State} {p : Nat} (hblt : t.blt = s.blt) (hregs : t.regs = s.regs)
    (hpars : (getPart t p).pars = (getPart s p).pars) : isReplay t p = isReplay s p := by
  unfold isReplay replayPart
  rw [hblt, hpars, regGet_congr hregs]

/-- Outside a replay no launch is recorded. -/
theorem recordedLaunch_of_live {s : State} {p : Nat} (h : isReplay s p = false) (j l : Nat) : recordedLaunch s p j l = none := by
  simp [recordedLaunch, h]

-- the sets of a cutoff (R45 to R47)

@[simp] theorem Inst.apply_num (im : Image) (i : Inst) (q : QSet) : (Inst.apply im i q).num = i.num := rfl

@[simp] theorem Inst.takeCut_num (im : Image) (i : Inst) (tk : List QSet × List QSet) : (i.takeCut im tk).num = i.num := by
  show (tk.1.foldl (fun a q => Inst.apply im a q) { i with factorTaken := false }).num = i.num
  exact List.foldlRecOn tk.1 _ (motive := fun a : Inst => a.num = i.num) rfl fun a h q _ => (Inst.apply_num im a q).trans h

theorem cutMember_of_live {s : State} {p : Nat} {i : Inst} {im : Image} (hlive : isReplay s p = false)
    (hi : (getPart s p).inst? i.num = some i) (himg : (getSlot s p i.slot).img = some im) (j cap cut : Nat) :
    cutMember s p j cap cut i.num = putInst s p (i.takeCut im (takeSets cap cut [] i.queue)) := by
  unfold cutMember
  simp only [hi, himg, recordedLaunch_of_live hlive]

/-- The partition with the old TICKS let go once the new governs (R540). -/
def cutTicks (s : State) (p : Nat) : State :=
  if ticksEff s p = fld (regGet s (fabOff p 0x10)) 12 0 then setPart s p { getPart s p with oldTicks := none } else s

/-- The state with the cutoff of an entry done, before any set is taken. -/
def cutMarked (s : State) (p j : Nat) (blocked : Bool) : State :=
  setRun (cutTicks s p) p j { getRun s p j with
    cutDone := true, cutBlocked := blocked, cutTick := (getRun s p j).next - ticksEff s p }

theorem cutTicks_keeps (s : State) (p : Nat) : (getPart (cutTicks s p) p).insts = (getPart s p).insts
    ∧ (getPart (cutTicks s p) p).pars = (getPart s p).pars ∧ (getPart (cutTicks s p) p).slots = (getPart s p).slots := by
  unfold cutTicks
  split
  · rw [getPart_setPart_same]
    exact ⟨rfl, rfl, rfl⟩
  · exact ⟨rfl, rfl, rfl⟩

theorem cutMarked_touch (s : State) (p j : Nat) (blocked : Bool) : Touch [.parts] s (cutMarked s p j blocked) := by
  unfold cutMarked cutTicks
  split
  · exact setRun_touch _ _ _ rfl (setPart_touch _ _ rfl (Touch.refl _ _))
  · exact setRun_touch _ _ _ rfl (Touch.refl _ _)

theorem cutMarked_keeps (s : State) (p j : Nat) (blocked : Bool) : (getPart (cutMarked s p j blocked) p).insts = (getPart s p).insts
    ∧ (getPart (cutMarked s p j blocked) p).pars = (getPart s p).pars ∧ (getPart (cutMarked s p j blocked) p).slots = (getPart s p).slots := by
  unfold cutMarked
  rw [getPart_setRun]
  exact cutTicks_keeps s p

theorem inst?_congr {x y : Part} (h : y.insts = x.insts) (n : Nat) : y.inst? n = x.inst? n := by
  unfold Part.inst?
  rw [h]

theorem getSlot_congr {s t : State} {p : Nat} (h : (getPart t p).slots = (getPart s p).slots) (k : Nat) :
    getSlot t p k = getSlot s p k := by
  unfold getSlot Part.slot
  rw [h]

/-- The members of a stand-alone SOLVE entry at its cutoff: one `Inst`. -/
structure CutoffOf (s : State) (p : PartId) (j : EntryId) (i : Inst) (im : Image) : Prop where
  on : (getRun s p.val j.val).on = true
  ahead : (getRun s p.val j.val).cutDone = false
  due : (getRun s p.val j.val).next ≤ count s p.val + ticksEff s p.val
  live : isReplay s p.val = false
  img : (getSlot s p.val (entryImg s p.val j.val)).img = some im
  solve : im.isModel = false
  member : entryMembers s p.val j.val ((getRun s p.val j.val).next - ticksEff s p.val) = [i]
  inst : (getPart s p.val).inst? i.num = some i
  slot : i.slot = entryImg s p.val j.val

section
variable {s : State} {p : PartId} {j : EntryId} {i : Inst} {im : Image} (h : CutoffOf s p j i im)
include h

theorem cutoff_of_member : execCutoff p j s = .next (
    if instHeld s p.val i.num || inHold s || s.pwr.safe || (getPart s p.val).reshaping then cutMarked s p.val j.val (instHeld s p.val i.num)
    else cutMember (cutMarked s p.val j.val (instHeld s p.val i.num)) p.val j.val (64 * ticksEff s p.val)
      ((getRun s p.val j.val).next - ticksEff s p.val) i.num) := by
  have himg : ((getPart s p.val).slot (entryImg s p.val j.val)).img = some im := h.img
  have hgate : ((getRun s p.val j.val).on && !(getRun s p.val j.val).cutDone
      && decide ((getRun s p.val j.val).next ≤ count s p.val + ticksEff s p.val)) = true := by simp [h.on, h.ahead, h.due]
  have hwaits : cutWaits s p.val j.val (instHeld s p.val i.num) = false := by simp [cutWaits, h.live]
  unfold execCutoff
  simp only [hgate, if_true, himg, h.solve, Bool.false_eq_true, if_false, h.member, List.any_cons, List.any_nil, Bool.or_false,
    hwaits, List.foldl_cons, List.foldl_nil]
  exact (apply_ite Host.Outcome.next _ _ _).symm

theorem inst_cutMarked (blocked : Bool) : (getPart (cutMarked s p.val j.val blocked) p.val).inst? i.num = some i :=
  (inst?_congr (cutMarked_keeps s p.val j.val blocked).1 _).trans h.inst

theorem cutMember_cutMarked : cutMember (cutMarked s p.val j.val false) p.val j.val (64 * ticksEff s p.val)
      ((getRun s p.val j.val).next - ticksEff s p.val) i.num = putInst (cutMarked s p.val j.val false) p.val
        (i.takeCut im (takeSets (64 * ticksEff s p.val) ((getRun s p.val j.val).next - ticksEff s p.val) [] i.queue)) := by
  obtain ⟨-, hpars, hslots⟩ := cutMarked_keeps s p.val j.val false
  have htouch := cutMarked_touch s p.val j.val false
  refine cutMember_of_live ?_ (inst_cutMarked h false) ?_ _ _ _
  · rw [isReplay_congr (htouch.keeps .blt rfl) (htouch.keeps .regs rfl) hpars]
    exact h.live
  · rw [getSlot_congr hslots, h.slot]
    exact h.img

end

/-- Settles O19: the cutoff marks its entry, and takes the sets where nothing holds the launch back. -/
theorem cutoffTakesWholeSets : Obligations.CutoffTakesWholeSets := by
  intro p j i im s e ticks hon hahead hdue hlive himg hsolve hmember hinst hslot cut
  have h : CutoffOf s p j i im := ⟨hon, hahead, hdue, hlive, himg, hsolve, hmember, hinst, hslot⟩
  have hrun := cutoff_of_member h
  refine ⟨fun hfree hhold hsafe hshape => ?_, fun hheld => ?_, fun hwait => ?_⟩
  · simp only [hfree, hhold, hsafe, hshape, Bool.or_self, Bool.false_eq_true, if_false, cutMember_cutMarked h] at hrun
    refine ⟨_, hrun, ?_, ?_⟩
    · rw [getRun_putInst, cutMarked, getRun_setRun_same]
    · rw [getPart_putInst]
      exact inst?_putInst (inst_cutMarked h false) (Inst.takeCut_num im i _)
  · simp only [hheld, Bool.true_or, if_true] at hrun
    exact ⟨_, hrun, getRun_setRun_same _ _ _ _, inst_cutMarked h true⟩
  · have hwait' : (instHeld s p.val i.num || inHold s || s.pwr.safe || (getPart s p.val).reshaping) = true := by
      obtain h | h | h := hwait <;> simp [h]
    rw [if_pos hwait'] at hrun
    refine ⟨_, hrun, ?_, inst_cutMarked h _⟩
    rw [cutMarked, getRun_setRun_same]

-- what changes only instances

/-- Of a partition only the instances have changed. -/
def OnlyInsts (p : Nat) (s t : State) : Prop := getPart t p = { getPart s p with insts := (getPart t p).insts }

theorem OnlyInsts.refl (p : Nat) (s : State) : OnlyInsts p s s := rfl

theorem OnlyInsts.trans {p : Nat} {s t u : State} (h : OnlyInsts p s t) (g : OnlyInsts p t u) : OnlyInsts p s u := by
  unfold OnlyInsts at *
  rw [g, h]

theorem OnlyInsts.of_eq {p : Nat} {s t : State} (h : t.parts = s.parts) : OnlyInsts p s t := by
  unfold OnlyInsts
  rw [getPart_congr h]

theorem putInst_onlyInsts (s : State) (p q : Nat) (i : Inst) : OnlyInsts p s (putInst s q i) := by
  unfold OnlyInsts putInst
  rw [getPart_setPart]
  split
  next h => rw [h]; rfl
  next => rfl

theorem OnlyInsts.getRun {p : Nat} {s t : State} (h : OnlyInsts p s t) (j : Nat) : getRun t p j = Machine.getRun s p j :=
  getRun_congr (by rw [h]) j

theorem OnlyInsts.holder {p : Nat} {s t : State} (h : OnlyInsts p s t) : (getPart t p).holder = (getPart s p).holder := by rw [h]

theorem OnlyInsts.kill {p : Nat} {s t : State} (h : OnlyInsts p s t) : (getPart t p).kill = (getPart s p).kill := by rw [h]

theorem markLaunched_onlyInsts (s : State) (p : Nat) (c : Cmd) : OnlyInsts p s (markLaunched s p c) := by
  refine foldl_keeps (OnlyInsts.refl p) OnlyInsts.trans _ (fun t m _ => ?_) s
  split
  · exact putInst_onlyInsts _ _ _ _
  · exact .refl p t

theorem staleTargets_onlyInsts (s : State) (p : Nat) (im : Image) : OnlyInsts p s (staleTargets s im) := by
  refine foldl_keeps (OnlyInsts.refl p) OnlyInsts.trans _ (fun t e _ => ?_) s
  split
  · split
    · exact putInst_onlyInsts _ _ _ _
    · exact .refl p t
  · exact .refl p t

-- a command takes the tiles (R222, Table 08.7)

/-- A command at the start of its first segment. -/
def Cmd.begun (c : Cmd) (im : Image) (t0 : Nat) : Cmd :=
  { c with t := t0 + 8 + im.span (if im.isModel then sBody else sPrologue), seg := if im.isModel then sBody else sPrologue, st := .run }

theorem startTest_at (im : Image) (c : Cmd) (t0 t : Nat) : startTest im { c with t := t0 } t = startTest im c t := rfl

theorem modTiles_parts (s : State) (p : Nat) (f : Tile → Tile) : (modTiles s p f).parts = s.parts :=
  same_of_law .parts (modTiles_touch p f) rfl

theorem getRun_of_parts {s t : State} (h : t.parts = s.parts) (p j : Nat) : getRun t p j = getRun s p j :=
  getRun_congr (by rw [getPart_congr h]) j

theorem startSegment_entry (s : State) (p j : Nat) (c : Cmd) (im : Image) {kind : Nat} (hkind : ¬ (kind = sRefine ∨ kind = sEpilogue)) :
    getPart (startSegment s p (.entry j) c im kind) p =
      (getPart s p).setRun j { getRun s p j with cmd := some { c with seg := kind, t := c.t + 8 + im.span kind, st := .run } } := by
  unfold startSegment putCmd
  simp only [if_neg hkind]
  rw [getPart_setRun, getPart_congr (modTiles_parts _ _ _), getRun_of_parts (modTiles_parts _ _ _)]

theorem startCommand_entry {s : State} {p j : Nat} {c : Cmd} {im : Image} {t0 : Nat} (h : startTest im c t0 = true) :
    (getPart (startCommand s p (.entry j) c im t0) p).holder = some (.entry j)
      ∧ getRun (startCommand s p (.entry j) c im t0) p j = { getRun s p j with cmd := some (c.begun im t0) }
      ∧ (getPart (startCommand s p (.entry j) c im t0) p).kill = (getPart s p).kill := by
  have hkind : ¬ ((if im.isModel then sBody else sPrologue) = sRefine ∨ (if im.isModel then sBody else sPrologue) = sEpilogue) := by
    cases im.isModel <;> decide
  unfold startCommand
  dsimp only
  rw [startTest_at, if_pos h]
  unfold getRun
  rw [startSegment_entry _ _ _ _ _ hkind, getPart_setPart_same]
  refine ⟨rfl, ?_, ?_⟩
  · rw [Part.run_setRun, if_pos rfl]
    unfold getRun
    rw [getPart_setPart_same]
    unfold boundaryTiles
    rw [getPart_congr (modTiles_parts _ _ _)]
    rfl
  · unfold boundaryTiles
    rw [getPart_congr (modTiles_parts _ _ _)]
    rfl

theorem startEntry_of_test {s : State} {p j : Nat} {c : Cmd} {im : Image} (h : startTest im c (startFcyc s p c) = true) :
    (getPart (startEntry s p j c im) p).holder = some (.entry j)
      ∧ getRun (startEntry s p j c im) p j = { getRun s p j with cmd := some (c.begun im (startFcyc s p c)) }
      ∧ (getPart (startEntry s p j c im) p).kill = (getPart s p).kill := by
  unfold startEntry
  have honly : OnlyInsts p s (if (startTest im c (startFcyc s p c) && !im.isModel) = true then markLaunched s p c else s) := by
    split
    · exact markLaunched_onlyInsts s p c
    · exact .refl p s
  obtain ⟨hholder, hrun, hkill⟩ := startCommand_entry
    (s := if (startTest im c (startFcyc s p c) && !im.isModel) = true then markLaunched s p c else s)
    (p := p) (j := j) h
  exact ⟨hholder, hrun.trans (by rw [honly.getRun]), hkill.trans honly.kill⟩

-- the launch count (R230)

/-- The entry and the command of a stand-alone SOLVE launch that is due. -/
structure LaunchOf (s : State) (p : PartId) (j : EntryId) (i : Inst) (im : Image) : Prop where
  on : (getRun s p.val j.val).on = true
  cut : (getRun s p.val j.val).cutDone = true
  due : (getRun s p.val j.val).next ≤ count s p.val
  img : (getSlot s p.val (entryImg s p.val j.val)).img = some im
  solve : im.isModel = false
  member : entryMembers s p.val j.val (getRun s p.val j.val).cutTick = [i]

/-- The command of the launch, with its values frozen. -/
def launchCmd (s : State) (p j : Nat) (i : Inst) (im : Image) : Cmd :=
  newCmd s p j im [i] [(startMember im i (getRun s p j).next).1] [] false

/-- The state with the launch's values frozen and its entry advanced, before the tiles are asked for. -/
def frozen (s : State) (p j : Nat) (i : Inst) (im : Image) : State :=
  let e := getRun s p j
  setRun (putInst s p (startMember im i e.next).2) p j { e with
    next := e.next + entryPeriod s p j, cutDone := false, cutBlocked := false, cmd := some (launchCmd s p j i im)
    rels := e.rels ++ [⟨e.next + entryRelease s p j, none⟩] }

theorem getRun_frozen (s : State) (p j : Nat) (i : Inst) (im : Image) : getRun (frozen s p j i im) p j =
    { getRun s p j with
      next := (getRun s p j).next + entryPeriod s p j, cutDone := false, cutBlocked := false, cmd := some (launchCmd s p j i im)
      rels := (getRun s p j).rels ++ [⟨(getRun s p j).next + entryRelease s p j, none⟩] } := getRun_setRun_same _ _ _ _

theorem getPart_frozen_keeps (s : State) (p j : Nat) (i : Inst) (im : Image) :
    (getPart (frozen s p j i im) p).holder = (getPart s p).holder ∧ (getPart (frozen s p j i im) p).kill = (getPart s p).kill
      ∧ (getPart (frozen s p j i im) p).tilesFree = (getPart s p).tilesFree := by
  unfold frozen
  dsimp only
  rw [getPart_setRun, getPart_putInst]
  exact ⟨rfl, rfl, rfl⟩

section
variable {s : State} {p : PartId} {j : EntryId} {i : Inst} {im : Image} (h : LaunchOf s p j i im)
include h

theorem LaunchOf.gate : ((getRun s p.val j.val).on && (getRun s p.val j.val).cutDone
    && decide ((getRun s p.val j.val).next ≤ count s p.val)) = true := by simp [h.on, h.cut, h.due]

/-- A launch that nothing holds back freezes its values; then the holder of the tiles decides. -/
theorem launch_of_member (hskip : skipReason s p.val j.val = none) :
    ((getPart s p.val).holder = none →
        execLaunch p j s = .next (startEntry (frozen s p.val j.val i im) p.val j.val (launchCmd s p.val j.val i im) im))
      ∧ (∀ r, (getPart s p.val).holder = some (.ring r) →
        execLaunch p j s = .next (beginKill (frozen s p.val j.val i im) p.val .window true []))
      ∧ (∀ q, (getPart s p.val).holder = some (.entry q) → execLaunch p j s = .next (frozen s p.val j.val i im)) := by
  have hholder := (getPart_frozen_keeps s p.val j.val i im).1
  have hrun : execLaunch p j s = (fun u : State => match (getPart u p.val).holder with
      | none => .next (startEntry u p.val j.val (launchCmd s p.val j.val i im) im)
      | some (.ring _) => .next (beginKill u p.val .window true [])
      | some (.entry _) => .next u) (frozen s p.val j.val i im) := by
    unfold execLaunch
    simp only [h.gate, hskip, h.img, h.member, h.solve, Bool.not_true, Bool.false_eq_true, if_false, List.map_cons, List.map_nil,
      List.foldl_cons, List.foldl_nil]
    rfl
  refine ⟨fun hh => ?_, fun r hh => ?_, fun q hh => ?_⟩
  · simp only [hrun, hholder, hh]
  · simp only [hrun, hholder, hh]
  · simp only [hrun, hholder, hh]

theorem skip_of_reason {r : Nat} (hskip : skipReason s p.val j.val = some r) :
    execLaunch p j s = .next (skipLaunch s p.val j.val r) := by
  unfold execLaunch
  simp only [h.gate, hskip, Bool.not_true, Bool.false_eq_true, if_false]

end

theorem frozen_advanced (s : State) (p j : Nat) (i : Inst) (im : Image) : Advanced s (frozen s p j i im) p j := by
  unfold Advanced
  rw [getRun_frozen]
  exact ⟨rfl, rfl, rfl⟩

/-- Entry runs that agree but for the command agree on what a launch leaves. -/
theorem Advanced.of_cmd {s t u : State} {p j : Nat} (h : Advanced s t p j) {c : Option Cmd}
    (hu : getRun u p j = { getRun t p j with cmd := c }) : Advanced s u p j := by
  unfold Advanced at *
  rw [hu]
  exact h

theorem toRerun_ring_none {s : State} {p r : Nat} (h : getBe s r = none) (hold : Bool) :
    toRerun s p (.ring r) hold = dropPostings s p (.ring r) := by
  have hb : getBe (dropPostings s p (.ring r)) r = none := (getBe_congr (dropPostings_be s p _) r).trans h
  unfold toRerun getCmd
  simp only [hb, Option.map_none]

/-- A best-effort command put back to wait leaves its partition but for its postings. -/
theorem getPart_toRerun (s : State) (p r : Nat) (hold : Bool) : getPart (toRerun s p (.ring r) hold) p =
    { getPart s p with postings := (getPart s p).postings.filter (fun q => q.key ≠ .ring r) } := by
  cases hb : getBe s r with
  | none => rw [toRerun_ring_none hb, getPart_dropPostings]
  | some b => exact getPart_toRerun_ring hb hold

theorem beginKill_ring {s : State} {p r : Nat} (hkill : (getPart s p).kill = none) (hholder : (getPart s p).holder = some (.ring r))
    (cause : KillCause) (pause : List (Nat × Nat)) :
    (getPart (beginKill s p cause true pause) p).kill = some ⟨.ring r, cause, true, pause⟩
      ∧ ∀ j, getRun (beginKill s p cause true pause) p j = getRun s p j := by
  rw [beginKill_of_free hkill hholder, if_pos rfl]
  refine ⟨?_, fun j => getRun_congr ?_ j⟩
  · rw [getPart_toRerun, getPart_killing]
  · rw [getPart_toRerun, getPart_killing]

-- a skipped launch (R186)

/-- The state of a skipped launch before its entry is advanced. -/
def skipping (s : State) (p j reason : Nat) : State :=
  let s1 := bltRecord (bump s (fabOff p 0x24)) kSkip p (getRun s p j).next [put j 26 ||| put reason 23, 0, 0, 0]
  let x := getPart s1 p
  leaveFabric (setPart s1 p { x with holdSkips := if reason = 2 then x.holdSkips + 1 else x.holdSkips }) p (.entry j)

theorem leaveFabric_entries (s : State) (p : Nat) (k : CmdKey) : (getPart (leaveFabric s p k) p).entries = (getPart s p).entries := by
  unfold leaveFabric
  split
  · rw [getPart_setPart_same]
  · rfl

theorem getRun_skipping (s : State) (p j reason : Nat) : getRun (skipping s p j reason) p j = getRun s p j := by
  refine getRun_congr ?_ j
  unfold skipping
  dsimp only
  rw [leaveFabric_entries, getPart_setPart_same, getPart_congr (same_of_law .parts (bltRecord_touch _ _ _ _) rfl)]
  rfl

theorem skipping_regs (s : State) (p j reason : Nat) : (skipping s p j reason).regs = (bump s (fabOff p 0x24)).regs := by
  unfold skipping
  dsimp only
  have hfabric : ∀ t : State, (leaveFabric t p (.entry j)).regs = t.regs := fun t => same_of_law .regs (leaveFabric_touch p _) rfl
  have hrecord : ∀ (t : State) (n : Nat) (ws : List Word), (bltRecord t kSkip p n ws).regs = t.regs := fun t n ws =>
    same_of_law .regs (bltRecord_touch kSkip p n ws) rfl
  rw [hfabric]
  exact hrecord _ _ _

/-- Of a skipped launch the targets of its commit set may be told; then its entry is advanced. -/
theorem skipLaunch_eq (s : State) (p j reason : Nat) : ∃ u rels,
    (u = skipping s p j reason ∨ ∃ im, u = staleTargets (skipping s p j reason) im)
      ∧ skipLaunch s p j reason = setRun u p j { getRun u p j with
        next := (getRun s p j).next + entryPeriod s p j, cutDone := false, cutBlocked := false, rels := rels } := by
  unfold skipLaunch
  cases himg : (getSlot s p (entryImg s p j)).img with
  | none => exact ⟨skipping s p j reason, _, .inl rfl, rfl⟩
  | some im =>
    by_cases hstale : (im.isModel || (decide (reason = 3) && im.isEstimator)) = true
    · refine ⟨staleTargets (skipping s p j reason) im, ?_⟩
      simp only [hstale, if_true]
      exact ⟨_, .inr ⟨im, rfl⟩, rfl⟩
    · refine ⟨skipping s p j reason, ?_⟩
      simp only [hstale, Bool.false_eq_true, if_false]
      exact ⟨_, .inl trivial, rfl⟩

/-- A skipped launch is counted and leaves its entry without a new command. -/
theorem skipLaunch_entry (s : State) (p j reason : Nat) : Advanced s (skipLaunch s p j reason) p j
    ∧ (getRun (skipLaunch s p j reason) p j).cmd = (getRun s p j).cmd
    ∧ (skipLaunch s p j reason).regs = (bump s (fabOff p 0x24)).regs := by
  obtain ⟨u, rels, hu, hskip⟩ := skipLaunch_eq s p j reason
  have hkeeps : getRun u p j = getRun s p j ∧ u.regs = (bump s (fabOff p 0x24)).regs := by
    obtain rfl | ⟨im, rfl⟩ := hu
    · exact ⟨getRun_skipping s p j reason, skipping_regs s p j reason⟩
    · exact ⟨((staleTargets_onlyInsts _ p im).getRun j).trans (getRun_skipping s p j reason),
        (same_of_law .regs (staleTargets_touch im) rfl).trans (skipping_regs s p j reason)⟩
  obtain ⟨hrun, hregs⟩ := hkeeps
  unfold Advanced
  rw [hskip, getRun_setRun_same, hrun]
  exact ⟨⟨rfl, rfl, rfl⟩, rfl, hregs⟩

/-- Settles O20: with its values frozen the launch starts, kills or waits by the holder of the tiles; a reason of Table 19.2 skips it. -/
theorem launchStartsOrSkips : Obligations.LaunchStartsOrSkips := by
  intro p j i im s e hon hcut hdue himg hsolve hmember c
  have h : LaunchOf s p j i im := ⟨hon, hcut, hdue, himg, hsolve, hmember⟩
  obtain ⟨hh, hk, htiles⟩ := getPart_frozen_keeps s p.val j.val i im
  have hadvanced := frozen_advanced s p.val j.val i im
  have hcmd : (getRun (frozen s p.val j.val i im) p.val j.val).cmd = some c := by rw [getRun_frozen]; rfl
  refine ⟨fun hskip hfree htest => ?_, fun r hskip hring hkill => ?_, fun q hskip hentry => ?_, fun r hskip => ?_⟩
  · have hstart : startFcyc (frozen s p.val j.val i im) p.val c = startFcyc s p.val c := by
      unfold startFcyc
      rw [htiles]
      rfl
    obtain ⟨hholder, hrun, -⟩ := startEntry_of_test (s := frozen s p.val j.val i im) (p := p.val) (j := j.val) (c := c) (im := im)
      (by rw [hstart]; exact htest)
    refine ⟨startEntry (frozen s p.val j.val i im) p.val j.val c im, c.begun im (startFcyc (frozen s p.val j.val i im) p.val c),
      (launch_of_member h hskip).1 hfree, Advanced.of_cmd hadvanced hrun, hholder, by rw [hrun], rfl, ?_, rfl, rfl⟩
    simp [Cmd.begun, hsolve]
  · obtain ⟨hkilled, hruns⟩ := beginKill_ring (s := frozen s p.val j.val i im) (hk.trans hkill) (hh.trans hring) .window []
    refine ⟨_, (launch_of_member h hskip).2.1 r hring, ?_, (congrArg EntryRun.cmd (hruns j.val)).trans hcmd, hkilled⟩
    unfold Advanced at hadvanced ⊢
    rwa [hruns]
  · exact ⟨_, (launch_of_member h hskip).2.2 q hentry, hadvanced, hcmd, hh.trans hentry, hk⟩
  · obtain ⟨hadv, hsame, hregs⟩ := skipLaunch_entry s p.val j.val r
    refine ⟨_, skip_of_reason h hskip, hadv, hsame, ?_⟩
    rw [regGet_congr hregs, bump, regGet_regSet_same]

end Sys2Proof.Machine
end

section
/-! SUPPORT. Why the end of a command is not proved as stated (R229, R231): a table of entries may list an entry twice, and no
statement of the model excludes it. -/

namespace Sys2Proof.Machine

/-- A command that waits for its re-run at its deadline. -/
def lateCmd : Cmd := { (default : Cmd) with st := .waitRerun, fair := false, deadline := 0 }

/-- A partition whose entry 0 is listed twice, with that command both times, and once with the trajectory of one of the instances that are gone. -/
def listedTwice : Part :=
  { Part.reset with
    slots := [(0, { Slot.reset with img := some default })]
    entries := [(0, { EntryRun.reset with cmd := some lateCmd, traj := some ⟨[], 0, 0, 9⟩ }), (0, { EntryRun.reset with cmd := some lateCmd })] }

def listedTwiceState : State := setPart State.reset 0 listedTwice

/-- The end of the command frees the entry's first place, and its second shows. -/
theorem deadline_of_listedTwice :
    (getRun (answered listedTwiceState (execDeadlineTick 0 0 listedTwiceState)) 0 0).cmd ≠ none
      ∧ (getRun listedTwiceState 0 0).cmd = some lateCmd := by decide +kernel

/-- Refutes O21: in `listedTwiceState` the command of entry 0 ends at its deadline, and the entry still shows one. -/
theorem not_rerunsAndDeadlines : ¬ Obligations.RerunsAndDeadlines := by
  rintro ⟨hdeadline, -⟩
  obtain ⟨hshows, hcmd⟩ := deadline_of_listedTwice
  obtain ⟨t, hrun, hnone, -⟩ := (hdeadline 0 0 lateCmd listedTwiceState hcmd).1 rfl (Nat.zero_le _) (Or.inr rfl)
  have hexec : execDeadlineTick 0 0 listedTwiceState = .next t := hrun
  rw [hexec] at hshows
  exact hshows hnone

/-- The same partition with the command's final posting in check. -/
def checkedTwiceState : State := setPart State.reset 0 { listedTwice with postings := [⟨.entry 0, 1, 0, []⟩] }

theorem verdict_of_checkedTwice :
    (getRun (answered checkedTwiceState (execAssayVerdict 0 .none checkedTwiceState)) 0 0).cmd ≠ none
      ∧ (getRun checkedTwiceState 0 0).cmd = some lateCmd := by decide +kernel

/-- Refutes O22: in `checkedTwiceState` the verdict on the final posting ends the command of entry 0, and the entry still shows one. -/
theorem not_commandsRunToTheirVerdict : ¬ Obligations.CommandsRunToTheirVerdict := by
  rintro ⟨-, hverdict⟩
  obtain ⟨hshows, hcmd⟩ := verdict_of_checkedTwice
  obtain ⟨t, hrun, hnone, -⟩ := (hverdict 0 .none 0 ⟨.entry 0, 1, 0, []⟩ [] lateCmd default checkedTwiceState rfl rfl hcmd
    (by decide +kernel)).2 rfl
  have hexec : execAssayVerdict 0 .none checkedTwiceState = .next t := hrun
  rw [hexec] at hshows
  exact hshows hnone

end Sys2Proof.Machine
end

section
/-! SUPPORT. The release of a trajectory to the engines bound to an entry (R19, R231, R299, R301, R302). -/

namespace Sys2Proof.Machine

-- adoption and NO_PLAN at one engine

theorem getNib_adopt (s : State) (n : Nat) (v : NibTraj) (m : Nat) : getNib (adopt s n v false) m =
    if n = m ∧ (getNib s n).st ≠ .config then { getNib s n with traj := some v, oldTraj := (getNib s n).traj, planHold := false }
    else getNib s m := by
  unfold adopt
  by_cases hcfg : (getNib s n).st = .config
  · simp [hcfg]
  · simp only [hcfg, if_false, Bool.false_eq_true, getNib_setNib]
    by_cases hnm : n = m
    · simp [hnm, hnm ▸ hcfg]
    · simp [hnm]

theorem adopt_st (s : State) (n : Nat) (v : NibTraj) (m : Nat) : (getNib (adopt s n v false) m).st = (getNib s m).st := by
  rw [getNib_adopt]
  split
  next h => rw [h.1]
  next => rfl

/-- Every engine of a list that is out of CONFIG adopts. -/
theorem adoptAll_traj {v : NibTraj} {n : Nat} (l : List Nat) (s : State) (hst : (getNib s n).st ≠ .config)
    (h : n ∈ l ∨ (getNib s n).traj = some v) : (getNib (l.foldl (fun u m => adopt u m v false) s) n).traj = some v := by
  induction l generalizing s with
  | nil => simpa using h
  | cons m l ih =>
    refine ih (adopt s m v false) (by rwa [adopt_st]) ?_
    by_cases hmn : m = n
    · refine .inr ?_
      rw [getNib_adopt, if_pos ⟨hmn, hmn ▸ hst⟩]
    · obtain h | h := h
      · exact .inl ((List.mem_cons.1 h).resolve_left (Ne.symm hmn))
      · exact .inr (by rw [getNib_adopt, if_neg (by simp [hmn])]; exact h)

/-- States that a hold on NO_PLAN replaces (R302). -/
def Nib.followsPlan (e : Nib) : Prop := e.st = .run ∨ e.st = .coast ∨ e.st = .hold

theorem nibFlags_nibs (s : State) (n : Nat) (fs : List Nat) : (nibFlags s n fs).nibs = s.nibs :=
  same_of_law .nibs (nibFlags_touch n fs) rfl

theorem getNib_congr {s t : State} (h : t.nibs = s.nibs) (n : Nat) : getNib t n = getNib s n := by
  unfold getNib
  rw [h]

theorem getNib_noPlan_other {s : State} {n m : Nat} (h : n ≠ m) : getNib (noPlan s n) m = getNib s m := by
  unfold noPlan
  dsimp only
  split
  · rfl
  · rw [getNib_congr (nibFlags_nibs _ _ _), getNib_setNib, if_neg h]

theorem getNib_noPlan_same {s : State} {n : Nat} (h : (getNib s n).followsPlan) :
    (getNib (noPlan s n) n).st = .hold ∧ (getNib (noPlan s n) n).planHold = true := by
  unfold noPlan
  obtain h | h | h := h <;>
    simp only [h, reduceCtorEq, if_false, getNib_congr (nibFlags_nibs _ _ _), getNib_setNib_same, and_self]

/-- Every engine of a list that follows its plan holds. -/
theorem noPlanAll_holds {n : Nat} (l : List Nat) (s : State) (hst : (getNib s n).followsPlan)
    (h : n ∈ l ∨ ((getNib s n).st = .hold ∧ (getNib s n).planHold = true)) :
    (getNib (l.foldl noPlan s) n).st = .hold ∧ (getNib (l.foldl noPlan s) n).planHold = true := by
  induction l generalizing s with
  | nil => simpa using h
  | cons m l ih =>
    by_cases hmn : m = n
    · subst hmn
      obtain ⟨hhold, hplan⟩ := getNib_noPlan_same hst
      exact ih (noPlan s m) (.inr (.inr hhold)) (.inr ⟨hhold, hplan⟩)
    · have hsame := getNib_noPlan_other (s := s) hmn
      refine ih (noPlan s m) (by rwa [hsame]) ?_
      rw [hsame]
      exact h.imp_left fun h => (List.mem_cons.1 h).resolve_left (Ne.symm hmn)

theorem boundEngines_congr {s t : State} {p : Nat} (hregs : t.regs = s.regs) (hpars : (getPart t p).pars = (getPart s p).pars) (j : Nat) :
    boundEngines t p j = boundEngines s p j := by
  unfold boundEngines
  simp only [regGet_congr hregs, hpars]

-- the release (R231)

section
variable {s : State} {p : PartId} {j : EntryId} {r : Release} {rest : List Release} {im : Image}

/-- The state with the release done with, before what it gives. -/
def released (s : State) (p j : Nat) (rest : List Release) : State := setRun s p j { getRun s p j with rels := rest }

theorem released_pars (s : State) (p j : Nat) (rest : List Release) : (getPart (released s p j rest) p).pars = (getPart s p).pars := by
  unfold released
  rw [getPart_setRun]
  rfl

theorem release_of_due (hrels : (getRun s p.val j.val).rels = r :: rest)
    (himg : (getSlot s p.val (entryImg s p.val j.val)).img = some im) (hdue : r.count ≤ count s p.val) :
    execRelease p j s = .next (releaseAt (released s p.val j.val rest) p.val j.val im r) := by
  have himg' : (getSlot (released s p.val j.val rest) p.val (entryImg (released s p.val j.val rest) p.val j.val)).img = some im := by
    have hslots : (getPart (released s p.val j.val rest) p.val).slots = (getPart s p.val).slots := by
      unfold released
      rw [getPart_setRun]
      rfl
    rw [getSlot_congr hslots]
    exact himg
  unfold released at himg' ⊢
  unfold execRelease
  simp only [hrels, hdue, if_true, himg']

theorem release_of_early (hrels : (getRun s p.val j.val).rels = r :: rest) (hearly : count s p.val < r.count) :
    execRelease p j s = .next s := by
  unfold execRelease
  simp only [hrels, Nat.not_le.2 hearly, if_false]

end

theorem count_released (s : State) (p j : Nat) (rest : List Release) : count (released s p j rest) p = count s p :=
  count_congr (s := s) (t := released s p j rest) rfl (released_pars s p j rest) rfl rfl

/-- Settles O23: the fold over the bound engines adopts the trajectory, or reports NO_PLAN, at each of them. -/
theorem releaseGivesTheTrajectory : Obligations.ReleaseGivesTheTrajectory := by
  intro p j r rest im s hrels himg hsolve
  have hbound : boundEngines (released s p.val j.val rest) p.val j.val = boundEngines s p.val j.val :=
    boundEngines_congr (s := s) (t := released s p.val j.val rest) rfl (released_pars s p.val j.val rest) j.val
  have hreleased : getRun (released s p.val j.val rest) p.val j.val = { getRun s p.val j.val with rels := rest } := getRun_setRun_same _ _ _ _
  refine ⟨fun v hv hdue => ?_, fun hnone hdue hfall => ?_, release_of_early hrels⟩
  · have hat : releaseAt (released s p.val j.val rest) p.val j.val im r =
        presentPlan (released s p.val j.val rest) p.val j.val im v 0 false := by
      simp [releaseAt, hsolve, hv]
    have hparts := same_of_law .parts (presentPlan_touch (s := released s p.val j.val rest) p.val j.val im v 0 false) rfl
    refine ⟨_, (release_of_due hrels himg hdue).trans (congrArg _ hat), ?_, ?_, fun n hn hst => ?_⟩
    · rw [getRun_of_parts hparts, hreleased]
    · rw [getRun_of_parts hparts, hreleased]
    · unfold presentPlan
      dsimp only
      rw [hbound, count_released, Nat.zero_min, Nat.zero_add]
      exact adoptAll_traj _ _ hst (.inl hn)
  · have hfall' : fallback (released s p.val j.val rest) p.val j.val im r.count = none := by
      have htraj : entryTraj (released s p.val j.val rest) p.val j.val = entryTraj s p.val j.val := by
        unfold entryTraj
        rw [hreleased]
        rfl
      unfold fallback at hfall ⊢
      rw [htraj]
      exact hfall
    let u := leOffer (released s p.val j.val rest) p.val j.val 6 (fun _ => [])
    have hu : Touch [.links, .blt] (released s p.val j.val rest) u := leOffer_touch _ _ _ _ rfl (Touch.refl _ _)
    have hat : releaseAt (released s p.val j.val rest) p.val j.val im r = noPlanEntry u p.val j.val := by
      simp only [releaseAt, hsolve, hnone, hfall', Bool.false_eq_true, if_false]
      rfl
    have hparts : (noPlanEntry u p.val j.val).parts = (released s p.val j.val rest).parts :=
      (same_of_law .parts (noPlanEntry_touch p.val j.val) rfl).trans (hu.keeps .parts rfl)
    refine ⟨_, (release_of_due hrels himg hdue).trans (congrArg _ hat), ?_, fun n hn hst => ?_⟩
    · rw [getRun_of_parts hparts, hreleased]
    · have hboundU : boundEngines u p.val j.val = boundEngines s p.val j.val :=
        (boundEngines_congr (hu.keeps .regs rfl) (congrArg Part.pars (getPart_congr (hu.keeps .parts rfl) _)) _).trans hbound
      have hnib : getNib u n = getNib s n := getNib_congr (hu.keeps .nibs rfl) n
      unfold noPlanEntry
      rw [hboundU]
      exact noPlanAll_holds _ _ (by rw [hnib]; exact hst) (.inl hn)

end Sys2Proof.Machine
end

section
/-! SUPPORT. Best-effort work (R240 to R262, R322 to R325): an item waits to be chosen, the chosen ring runs, and the kernels of a model
follow their table. -/

namespace Sys2Proof.Machine

-- descriptors (R242, R260)

theorem beSolve_of_passed {c : CtxId} {r : RingId} {i : Item} {im : Image} {n : Inst} {s : State}
    (hop : headOp s c.val r.val 0x05 = some i) (himg : beImage s c.val i.slot false = .inr im)
    (hn : (getPart s (getCtx s c.val).part).inst? i.beInst = some n) (hrel : n.released = false) (hslot : n.slot = i.slot)
    (hthr : ∀ q, im.thr = some q → i.thr < q.sets.length) (hbytes : 4 * im.w ≤ i.bytes) :
    execBeSolve c r s = .next (setBe (beginItem s c.val r.val) (8 * c.val + r.val) (some (beOf s c.val r.val i false 0 0))) := by
  unfold execBeSolve
  cases ht : im.thr with
  | none => simp [hop, himg, hn, hrel, hslot, ht, Nat.not_lt.2 hbytes]
  | some q => simp [hop, himg, hn, hrel, hslot, ht, hthr q ht, Nat.not_lt.2 hbytes]

section
variable {c : CtxId} {r : RingId} {i : Item} {im : Image} {l : Layers} {s : State}
  (hop : headOp s c.val r.val 0x06 = some i) (himg : beImage s c.val i.slot true = .inr im) (hl : im.layers = some l)
  (hone : 1 ≤ i.nItems) (hbatch : i.nItems ≤ l.batch) (hbytes : 8 * i.nItems ≤ i.bytes)
  (hin : (i.word 14).toNat = modelInputBytes l i.nItems)
include hop himg hl hone hbatch hbytes hin

theorem beModel_of_passed (hfree : l.wsBytes ≤ workspaceFree s) :
    execBeModel c r s = .next (setBe (beginItem { s with mem := { s.mem with wsUsed := s.mem.wsUsed + l.wsBytes } } c.val r.val)
      (8 * c.val + r.val) (some (beOf s c.val r.val i true l.wsBytes (placeWs s l.wsBytes)))) := by
  have h1 : ¬ (i.nItems = 0 ∨ l.batch < i.nItems) := by omega
  have h2 : ¬ (i.bytes < 8 * i.nItems ∨ (i.word 14).toNat ≠ modelInputBytes l i.nItems) := by omega
  unfold execBeModel
  simp only [hop, himg, hl, h1, h2, Nat.not_lt.2 hfree, if_false]

theorem beModel_of_no_workspace (hfull : workspaceFree s < l.wsBytes) :
    execBeModel c r s = .next (finishItem s c.val r.val stAdmit 7) := by
  have h1 : ¬ (i.nItems = 0 ∨ l.batch < i.nItems) := by omega
  have h2 : ¬ (i.bytes < 8 * i.nItems ∨ (i.word 14).toNat ≠ modelInputBytes l i.nItems) := by omega
  unfold execBeModel
  simp only [hop, himg, hl, h1, h2, hfull, if_false, if_true]

end

theorem bestEffortItemsWaitToBeChosen : BestEffortItemsWaitToBeChosen := by
  intro c r i im s k
  refine ⟨fun hop himg ⟨n, hn, hrel, hslot⟩ hthr hbytes => ?_, fun l hop himg hl hone hbatch hbytes hin =>
    ⟨fun hfree => ?_, fun hfull => ?_⟩⟩
  · obtain ⟨m, hi⟩ := items_of_headOp hop
    refine ⟨_, beOf s c.val r.val i false 0 0, beSolve_of_passed hop himg hn hrel hslot hthr hbytes, getBe_setBe_same _ _ _,
      rfl, rfl, rfl, rfl, rfl, ?_⟩
    rw [getRing_congr (setBe_rings _ _ _), getRing_beginItem hi r.isLt c.val r.isLt, if_pos ⟨rfl, rfl⟩]
    rfl
  · exact ⟨_, beOf s c.val r.val i true l.wsBytes (placeWs s l.wsBytes), beModel_of_passed hop himg hl hone hbatch hbytes hin hfree,
      getBe_setBe_same _ _ _, rfl, rfl, rfl, rfl⟩
  · exact beModel_of_no_workspace hop himg hl hone hbatch hbytes hin hfull

-- the choice and the start (R322, R325)

/-- What holds best-effort work back in a tick that is open or returned (R322, R475): nothing. -/
structure MayStart (u : State) (p : Nat) : Prop where
  on : (getPart u p).on = true
  tick : openTick u p (count u p) = true ∨ (getPart u p).returned = true
  free : (getPart u p).holder = none
  calm : (getPart u p).kill = none
  noHold : inHold u = false
  shaped : (getPart u p).reshaping = false
  warm : u.pwr.safe = false
  throttle : throttleAllows u (getPart u p) = true
  quads : quadsRun u p = true

/-- The first start freezes the command's values; a later one writes them again (R239). -/
def startValues (u : State) (p : Nat) (b : BeCmd) (im : Image) : State × BeCmd :=
  if b.firstStart.isNone then firstStart u p b im else (rerunSpace u p im b.cmd, b)

/-- The longest wait of a best-effort command is kept in a register. -/
def noteWait (t : State) (p wait : Nat) : State :=
  if (regGet t (fabOff p 0x20)).toNat < wait then regSet t (fabOff p 0x20) (BitVec.ofNat 32 (min wait (2 ^ 32 - 1))) else t

/-- The command of the chosen ring as it starts. -/
def startingCmd (u : State) (p : Nat) (b : BeCmd) (im : Image) (aged granted : Bool) : BeCmd :=
  { (startValues u p b im).2 with aged := aged, free := granted, posted := false, judged := false, staged := false }

/-- The state with the chosen ring's values and strokes in place, before its first segment. -/
def starting (u : State) (p r : Nat) (b : BeCmd) (im : Image) (aged granted : Bool) : State :=
  let s2 := noteWait (startValues u p b im).1 p (u.lt - b.headTick)
  let s4 := setBe (setPart s2 p { getPart s2 p with rrLast := r + 1 }) r (some (startingCmd u p b im aged granted))
  loadStrokes (dropStrokes s4 p (fun w => w.overlay)) p b.slot true im.stored

theorem beStart_gate {u : State} {p : Nat} (h : MayStart u p) :
    (!((getPart u p).on && freeTick u p) || decide ((getPart u p).holder ≠ none ∨ (getPart u p).kill ≠ none) || inHold u
      || (getPart u p).reshaping || u.pwr.safe || !throttleAllows u (getPart u p) || !quadsRun u p) = false := by
  have htick : freeTick u p = true := by
    obtain h | h := h.tick <;> simp [freeTick, h]
  simp [h.on, htick, h.free, h.calm, h.noHold, h.shaped, h.warm, h.throttle, h.quads]

section
variable {s : State} {p : PartId} {r : Nat} {aged granted : Bool} {b : BeCmd} {im : Image}
  (h : MayStart (rollCycle s p.val) p.val) (hchoose : chooseBe (rollCycle s p.val) p.val = some (r, aged, granted))
  (hb : getBe (rollCycle s p.val) r = some b) (himg : (getSlot (rollCycle s p.val) p.val b.slot).img = some im)
include h hchoose hb himg

theorem beStart_of_gone (hgone : instGone (rollCycle s p.val) p.val b = true) :
    execBeStart p s = .next (dropBe (rollCycle s p.val) r stAdmit 1) := by
  unfold execBeStart
  simp only [beStart_gate h, hchoose, hb, himg, hgone, Bool.false_eq_true, if_false, if_true]

theorem beStart_of_chosen (hgone : instGone (rollCycle s p.val) p.val b = false) (hdone : kernelsDone im b = false) :
    execBeStart p s = .next (
      let t := starting (rollCycle s p.val) p.val r b im aged granted
      let c := (startValues (rollCycle s p.val) p.val b im).2.cmd
      if b.model then
        let u := boundaryTiles t p.val
        putCmd (setPart u p.val { getPart u p.val with holder := some (.ring r) }) p.val (.ring r) { c with st := .run, seg := sBody }
      else startCommand t p.val (.ring r) c im 0) := by
  unfold execBeStart
  simp only [beStart_gate h, hchoose, hb, himg, hgone, hdone, Bool.false_eq_true, if_false]
  exact (apply_ite Host.Outcome.next _ _ _).symm

end

/-- The first start of a command is noted whatever values it freezes, and its mode stays. -/
theorem startValues_cmd (u : State) (p : Nat) (b : BeCmd) (im : Image) :
    (startValues u p b im).2.firstStart.isSome = true ∧ (startValues u p b im).2.cmd.fair = b.cmd.fair := by
  unfold startValues
  split
  · unfold firstStart
    dsimp only
    split
    · exact ⟨rfl, rfl⟩
    · split
      · exact ⟨rfl, rfl⟩
      · exact ⟨rfl, rfl⟩
  next h => exact ⟨by simpa [Option.isSome_iff_ne_none] using h, rfl⟩

theorem starting_strokes_touch (t : State) (p k : Nat) (im : Image) :
    Touch [.tiles] t (loadStrokes (dropStrokes t p (fun w => w.overlay)) p k true im.stored) :=
  loadStrokes_touch _ _ _ _ rfl (dropStrokes_touch _ _ rfl (Touch.refl _ _))

theorem getBe_starting (u : State) (p r : Nat) (b : BeCmd) (im : Image) (aged granted : Bool) :
    getBe (starting u p r b im aged granted) r = some (startingCmd u p b im aged granted) := by
  unfold starting
  dsimp only
  rw [getBe_congr ((starting_strokes_touch _ _ _ _).keeps .be rfl), getBe_setBe_same]

theorem starting_rrLast (u : State) (p r : Nat) (b : BeCmd) (im : Image) (aged granted : Bool) :
    (getPart (starting u p r b im aged granted) p).rrLast = r + 1 := by
  unfold starting
  dsimp only
  rw [getPart_congr ((starting_strokes_touch _ _ _ _).keeps .parts rfl), getPart_congr (setBe_parts _ _ _), getPart_setPart_same]

theorem putCmd_ring {s : State} {r : Nat} {d : BeCmd} (h : getBe s r = some d) (p : Nat) (c : Cmd) :
    putCmd s p (.ring r) c = setBe s r (some { d with cmd := c }) := by
  unfold putCmd
  simp only [h]

theorem modTiles_be (s : State) (p : Nat) (f : Tile → Tile) : (modTiles s p f).be = s.be :=
  same_of_law .be (modTiles_touch p f) rfl

theorem boundaryTiles_be (s : State) (p : Nat) : (boundaryTiles s p).be = s.be := modTiles_be s p _

theorem boundaryTiles_parts (s : State) (p : Nat) : (boundaryTiles s p).parts = s.parts := modTiles_parts s p _

/-- A command of a ring starts on the free tiles. -/
theorem startCommand_ring {s : State} {p r : Nat} {c : Cmd} {d : BeCmd} {im : Image} {t0 : Nat} (h : startTest im c t0 = true)
    (hd : getBe s r = some d) :
    (getPart (startCommand s p (.ring r) c im t0) p).holder = some (.ring r)
      ∧ (getPart (startCommand s p (.ring r) c im t0) p).rrLast = (getPart s p).rrLast
      ∧ getBe (startCommand s p (.ring r) c im t0) r = some { d with cmd := c.begun im t0 } := by
  have hkind : ¬ ((if im.isModel then sBody else sPrologue) = sRefine ∨ (if im.isModel then sBody else sPrologue) = sEpilogue) := by
    cases im.isModel <;> decide
  unfold startCommand
  dsimp only
  rw [startTest_at, if_pos h]
  unfold startSegment
  simp only [if_neg hkind]
  rw [putCmd_ring (d := d) ?_]
  · rw [getPart_congr (setBe_parts _ _ _), getPart_congr (modTiles_parts _ _ _), getPart_setPart_same, getBe_setBe_same]
    refine ⟨rfl, ?_, rfl⟩
    rw [getPart_congr (boundaryTiles_parts _ _)]
  · rw [getBe_congr (modTiles_be _ _ _), getBe_congr (setPart_be _ _ _), getBe_congr (boundaryTiles_be _ _)]
    exact hd

theorem theChosenRingStarts : TheChosenRingStarts := by
  intro p r aged granted b im s u x hon htick hfree hcalm hnohold hshaped hwarm hthrottle hquads hchoose hb hfair himg hmodel
  have h : MayStart u p.val := ⟨hon, htick, hfree, hcalm, hnohold, hshaped, hwarm, hthrottle, hquads⟩
  refine ⟨fun hgone hdone => ?_, fun hgone => beStart_of_gone h hchoose hb himg hgone⟩
  have hrun := beStart_of_chosen h hchoose hb himg hgone hdone
  obtain ⟨hfirst, hfair'⟩ := startValues_cmd u p.val b im
  have hbe := getBe_starting u p.val r b im aged granted
  have hrr := starting_rrLast u p.val r b im aged granted
  cases hkind : b.model with
  | true =>
    let t := boundaryTiles (starting u p.val r b im aged granted) p.val
    have ht : getBe (setPart t p.val { getPart t p.val with holder := some (.ring r) }) r = some (startingCmd u p.val b im aged granted) := by
      rw [getBe_congr (setPart_be _ _ _), getBe_congr (boundaryTiles_be _ _), hbe]
    dsimp only at hrun
    rw [if_pos hkind, putCmd_ring ht] at hrun
    refine ⟨_, _, hrun, ?_, ?_, getBe_setBe_same _ _ _, rfl, rfl, rfl, hfirst⟩
    · rw [getPart_congr (setBe_parts _ _ _), getPart_setPart_same]
    · rw [getPart_congr (setBe_parts _ _ _), getPart_setPart_same]
      show (getPart t p.val).rrLast = r + 1
      rw [getPart_congr (boundaryTiles_parts _ _), hrr]
  | false =>
    have hnot : ¬ b.model = true := by simp [hkind]
    have hsolve : im.isModel = false := hmodel.trans hkind
    dsimp only at hrun
    rw [if_neg hnot] at hrun
    obtain ⟨hholder, hlast, hcmd⟩ := startCommand_ring (p := p.val) (c := (startValues u p.val b im).2.cmd) (im := im) (t0 := 0)
      (by simp [startTest, hfair', hfair]) hbe
    refine ⟨_, _, hrun, hholder, hlast.trans hrr, hcmd, rfl, ?_, rfl, hfirst⟩
    simp [Cmd.begun, hsolve]

/-- Settles O24, by the checks of each descriptor and the start of the chosen ring's command. -/
theorem bestEffortWaitsAndStarts : Obligations.BestEffortWaitsAndStarts := ⟨bestEffortItemsWaitToBeChosen, theChosenRingStarts⟩

-- the kernels of a model (R261, R262)

theorem PartParams.gcols_le (q : PartParams) : q.gcols ≤ 15 := Nat.le_of_lt_succ (Nat.mod_lt _ (by decide))

theorem PartParams.rows_nodup (q : PartParams) : q.rows.Nodup := by
  unfold PartParams.rows upTo
  split
  · exact List.nodup_range
  · exact List.nodup_range.map fun a b h => by simpa using h

/-- The tiles of a partition are numbered apart: a row has no more than 15. -/
theorem PartParams.tiles_nodup (q : PartParams) : q.tiles.Nodup := by
  have hcols := q.gcols_le
  unfold PartParams.tiles
  rw [List.nodup_flatMap]
  refine ⟨fun r _ => ?_, q.rows_nodup.pairwise_of_forall_ne fun r _ t _ hne => ?_⟩
  · exact List.nodup_range.map fun a b h => by simpa using h
  · simp only [Function.onFun, List.disjoint_left, upTo, List.mem_map, List.mem_range]
    rintro n ⟨a, ha, rfl⟩ ⟨b, hb, h⟩
    omega

/-- A fold over numbered tiles changes each of them once. -/
theorem getTile_foldl_setTile (f : Tile → Tile) (l : List Nat) (hl : l.Nodup) (s : State) (n : Nat) :
    getTile (l.foldl (fun t i => setTile t i (f (getTile t i))) s) n = if n ∈ l then f (getTile s n) else getTile s n := by
  induction l generalizing s with
  | nil => simp
  | cons i l ih =>
    obtain ⟨hi, hl⟩ := List.nodup_cons.1 hl
    rw [List.foldl_cons, ih hl, getTile_setTile]
    by_cases hin : i = n
    · subst hin
      simp [hi]
    · simp [hin, Ne.symm hin]

theorem getTile_modTiles (s : State) (p : Nat) (f : Tile → Tile) (n : Nat) :
    getTile (modTiles s p f) n = if n ∈ (getPart s p).pars.tiles then f (getTile s n) else getTile s n :=
  getTile_foldl_setTile f _ (PartParams.tiles_nodup _) s n

section
variable {p : PartId} {r : Nat} {b : BeCmd} {im : Image} {l : Layers} {q : KernelRec} {s : State}
  (hholder : modelHolder s p.val = some (r, b)) (himg : (getSlot s p.val b.slot).img = some im) (hl : im.layers = some l)
  (hq : l.kernels[b.cursor]? = some q)
include hholder himg hl

theorem kernelStart_of_cursor (hq : l.kernels[b.cursor]? = some q) (hstaged : b.staged = false) :
    execKernelStart p s = .next (setBe (modTiles s p.val (fun t => t.startAt b.slot q.entry)) r
      (some { b with staged := true, stageBytes := q.stageBytes, cmd := { b.cmd with t := b.cmd.t + q.span } })) := by
  unfold execKernelStart
  simp only [hholder, himg, hl, hq, hstaged, Bool.false_eq_true, if_false]

/-- The end of a kernel of an image with no certificate, with no trap pending. -/
theorem kernelEnd_of_ended (hstaged : b.staged = true) (hended : tilesEnded s p.val = true) (hcert : im.cert = none)
    (htrap : trappedTile s p.val = none) : execKernelEnd p s = .next (
      if decide (l.kernels.length ≤ b.cursor + 1) then endModel s p.val r b im l else setBe s r (some ((b.endKernel im l).keep b.cmd))) := by
  unfold execKernelEnd
  simp only [hholder, himg, hl, hstaged, hended, hcert, htrap, Bool.and_self, Bool.not_true, Bool.false_eq_true, if_false,
    Option.isSome_none, Bool.false_and]
  exact (apply_ite Host.Outcome.next _ _ _).symm

end

/-- The end of BODY with nothing to stop it: the command is at the gate. -/
theorem endModel_of_clean {s : State} {p r : Nat} {b : BeCmd} {im : Image} {l : Layers} (hcert : im.cert = none)
    (hmask : b.cmd.fpcw.trapMask = 0) (hdecision : decisionOf s p = 0) :
    ∃ d, endModel s p r b im l = freeTiles (setBe s r (some d)) p ∧ d.cmd.st = .gate ∧ d.cursor = b.cursor + 1 := by
  have hbad : decisionBad im sBody 0 = false := by
    unfold decisionBad
    simp [sBody, sIter]
  have hand : ∀ a : Arith, a &&& (0 : Arith) = 0 := fun a => BitVec.and_zero
  have hbit : wbit 0 0 = false := rfl
  unfold endModel
  simp only [hcert, hmask, hdecision, hbad, hand, hbit, Option.isSome_none, Bool.false_and, Bool.false_eq_true, if_false, ne_eq,
    not_true_eq_false]
  exact ⟨_, rfl, rfl, rfl⟩

/-- Settles O26, by the kernel at the cursor: its start on every tile, its end, and the end of the last. -/
theorem kernelsRunInOrder : Obligations.KernelsRunInOrder := by
  intro p r b im l q s hholder himg hl hq
  refine ⟨fun hstaged => ?_, fun hstaged hended hcert htrap hmore => ?_, fun hstaged hended hcert htrap hlast hmask hdecision => ?_⟩
  · refine ⟨_, kernelStart_of_cursor hholder himg hl hq hstaged, getBe_setBe_same _ _ _, fun n hn => ?_⟩
    exact (getTile_modTiles s p.val (fun t => t.startAt b.slot q.entry) n).trans (if_pos hn)
  · have hrun := kernelEnd_of_ended hholder himg hl hstaged hended hcert htrap
    rw [if_neg (by simpa using hmore)] at hrun
    refine ⟨_, _, hrun, getBe_setBe_same _ _ _, rfl, rfl, rfl, rfl, rfl, rfl, ?_⟩
    simp only [BeCmd.keep, BeCmd.endKernel, hq]
    cases (l.kernels.drop (b.cursor + 1)).any (fun k => k.layer == q.layer) <;> rfl
  · obtain ⟨d, hend, hgate, hcursor⟩ := endModel_of_clean (s := s) (p := p.val) (r := r) (l := l) hcert hmask hdecision
    have hrun := kernelEnd_of_ended hholder himg hl hstaged hended hcert htrap
    rw [if_pos (by simp [hlast]), hend] at hrun
    refine ⟨_, d, hrun, ?_, hgate, hcursor, ?_⟩
    · unfold freeTiles
      dsimp only
      rw [getBe_congr (setPart_be _ _ _), getBe_congr (boundaryTiles_be _ _), getBe_setBe_same]
    · unfold freeTiles
      dsimp only
      rw [getPart_setPart_same]

end Sys2Proof.Machine
end

section
/-! SUPPORT. Why the end of a kill is not proved as stated (R329, R330): like the end of a command, it frees instances, and a table of
entries that lists one twice then shows its second place. -/

namespace Sys2Proof.Machine

/-- A kill under way on a partition whose entry 0 is listed twice: with the trajectory of one of the instances that are gone, and behind it with a
command in START. -/
def killedTwiceState : State :=
  setPart State.reset 0 { Part.reset with
    kill := some ⟨.entry 1, .window, false, []⟩
    slots := [(0, { Slot.reset with img := some default })]
    entries := [(0, { EntryRun.reset with traj := some ⟨[], 0, 0, 9⟩ }),
      (0, { EntryRun.reset with cmd := some { (default : Cmd) with st := .start, fair := true } })] }

/-- No entry shows a command before the kill's end, and after it the tiles are held. -/
theorem killEnd_of_killedTwice :
    (getPart (answered killedTwiceState (execKillEnd 0 killedTwiceState)) 0).holder = some (.entry 0)
      ∧ (upTo 64).all (fun j => (getRun killedTwiceState 0 j).cmd.isNone) = true := by decide +kernel

/-- Refutes O25: in `killedTwiceState` no launch waits, and the end of the kill starts the command of entry 0's second place. -/
theorem not_killsPreemptBestEffort : ¬ Obligations.KillsPreemptBestEffort := by
  rintro ⟨-, hend⟩
  obtain ⟨hheld, hnone⟩ := killEnd_of_killedTwice
  obtain ⟨t, hrun, -, hfree, -⟩ := (hend 0 killedTwiceState).1 ⟨.entry 1, .window, false, []⟩ rfl fun j hj c hc => by
    have hj := List.all_eq_true.1 hnone j (List.mem_range.2 hj)
    simp [show (getRun killedTwiceState 0 j).cmd = some c from hc] at hj
  have hexec : execKillEnd 0 killedTwiceState = .next t := hrun
  rw [hexec] at hheld
  exact absurd (hheld.symm.trans hfree) (by simp)

end Sys2Proof.Machine
end

section
/-! SUPPORT. The issue of every stroke operation (R149, R150, R179): what an operation may touch on its tile when it issues, and where
the sequencer stands after it. -/

namespace Sys2Proof.Machine

/-- At issue an operation touches only the tile's accumulators and circuits. -/
def TouchesCircuitsOnly (i : Issue) (o : OpOut) : Prop :=
  ∃ a b n r, o.t = { i.t with acc := a, tacc := b, tcount := n, routes := r }

/-- An operation has an outcome, of that kind. -/
def HasOutcome (i : Issue) (eff : Issue → Option OpOut) : Prop := ∃ o, eff i = some o ∧ TouchesCircuitsOnly i o

theorem touchesCircuitsOnly_of_same {i : Issue} {o : OpOut} (h : o.t = i.t) : TouchesCircuitsOnly i o := ⟨_, _, _, _, h⟩

theorem hasOutcome_of_same {i : Issue} {eff : Issue → Option OpOut} {o : OpOut} (h : eff i = some o) (ht : o.t = i.t) :
    HasOutcome i eff := ⟨o, h, touchesCircuitsOnly_of_same ht⟩

/-- An operation that only needs its code to be defined has an outcome when it is. -/
theorem hasOutcome_of_map {α : Type} {i : Issue} {eff : Issue → Option OpOut} {x : Option α} {f : α → OpOut}
    (h : eff i = x.map f) (hx : x.isSome = true) (hf : ∀ a, (f a).t = i.t) : HasOutcome i eff := by
  obtain ⟨a, rfl⟩ := Option.isSome_iff_exists.1 hx
  exact hasOutcome_of_same h (hf a)

theorem hasOutcome_of_scalar {i : Issue} {eff : Issue → Option OpOut} {f : FFmt → Nat → Nat → Nat → Nat × FpFlags}
    (h : eff i = effScalar f i) : HasOutcome i eff :=
  hasOutcome_of_same h rfl

theorem hasOutcome_tmac {i : Issue} (ha : (TFmt.ofCode (slFmtA i.ops)).isSome = true)
    (hb : (TFmt.ofCode (slFmtB i.ops)).isSome = true) : HasOutcome i effTmac := by
  obtain ⟨a, ha⟩ := Option.isSome_iff_exists.1 ha
  obtain ⟨b, hb⟩ := Option.isSome_iff_exists.1 hb
  unfold HasOutcome effTmac
  simp only [ha, hb]
  exact ⟨_, rfl, _, _, _, _, rfl⟩

/-- Every conversion of Table 06.12b has a result when its rounding mode does. -/
theorem cvtOut_isSome {i : Issue} (hck : slCk i.ops ≤ 5)
    (hm : 4 ≤ slCk i.ops → (roundOfCode (slCvtRound i.ops)).isSome = true) : (cvtOut i).isSome = true := by
  unfold cvtOut
  dsimp only
  generalize slCk i.ops = ck at hck hm ⊢
  match ck, hck, hm with
  | 0, _, _ => rfl
  | 1, _, _ => rfl
  | 2, _, _ => rfl
  | 3, _, _ => rfl
  | 4, _, hm => simpa using hm (by omega)
  | 5, _, hm => simpa using hm (by omega)

theorem pivotOut_isSome {i : Issue} (fl : FFmt → RoundMode → Nat → Nat → Nat × FpFlags)
    (fx : RoundMode → Word → Word → Word × Bool) (hform : slForm i.ops ≤ 2)
    (hm : slForm i.ops = 2 → (roundOfCode (slPivRound i.ops)).isSome = true) : (pivotOut i fl fx).isSome = true := by
  unfold pivotOut
  dsimp only
  generalize slForm i.ops = form at hform hm ⊢
  match form, hform, hm with
  | 0, _, _ => rfl
  | 1, _, _ => rfl
  | 2, _, hm => simpa using hm rfl

theorem hasOutcome_pivot {i : Issue} (fl : FFmt → RoundMode → Nat → Nat → Nat × FpFlags)
    (fx : RoundMode → Word → Word → Word × Bool) (hform : slForm i.ops ≤ 2)
    (hm : slForm i.ops = 2 → (roundOfCode (slPivRound i.ops)).isSome = true) : HasOutcome i (effPivot fl fx) :=
  hasOutcome_of_map rfl (pivotOut_isSome fl fx hform hm) fun _ => rfl

theorem hasOutcome_guardedRecip {i : Issue} (blockD : Bool) (hform : slForm i.ops ≤ 2)
    (hm : slForm i.ops = 2 → (roundOfCode (slPivRound i.ops)).isSome = true) :
    HasOutcome i (fun i => guardedRecip i blockD) := by
  unfold HasOutcome guardedRecip
  dsimp only
  generalize slForm i.ops = form at hform hm ⊢
  match form, hform, hm with
  | 0, _, _ => exact ⟨_, rfl, touchesCircuitsOnly_of_same rfl⟩
  | 1, _, _ => exact ⟨_, rfl, touchesCircuitsOnly_of_same rfl⟩
  | 2, _, hm =>
    obtain ⟨m, hm⟩ := Option.isSome_iff_exists.1 (hm rfl)
    simp only [hm]
    exact ⟨_, rfl, touchesCircuitsOnly_of_same rfl⟩

theorem effRecip_of_guard {i : Issue} {b : Bool} (h : guardBlock i.ann = some b) : effRecip i = guardedRecip i b := by
  rw [effRecip, h]

theorem effRecip_of_no_guard {i : Issue} (h : guardBlock i.ann = none) :
    effRecip i = effPivot (fun f m a _ => f.recip m a) (fun m a _ => fixRecip a i.fracA (slNd i.ops) m) i := by
  rw [effRecip, h]

theorem hasOutcome_recip {i : Issue} (hform : slForm i.ops ≤ 2)
    (hm : slForm i.ops = 2 → (roundOfCode (slPivRound i.ops)).isSome = true) : HasOutcome i effRecip := by
  unfold HasOutcome
  cases hg : guardBlock i.ann with
  | none => rw [effRecip_of_no_guard hg]; exact hasOutcome_pivot _ _ hform hm
  | some b => rw [effRecip_of_guard hg]; exact hasOutcome_guardedRecip b hform hm

theorem hasOutcome_rsqrt {i : Issue} (hform : slForm i.ops ≤ 2)
    (hm : slForm i.ops = 2 → (roundOfCode (slPivRound i.ops)).isSome = true) : HasOutcome i effRsqrt := by
  unfold HasOutcome effRsqrt
  exact hasOutcome_pivot _ _ hform hm

theorem hasOutcome_div {i : Issue} (hform : slForm i.ops ≤ 2)
    (hm : slForm i.ops = 2 → (roundOfCode (slPivRound i.ops)).isSome = true) : HasOutcome i effDiv := by
  unfold HasOutcome effDiv
  exact hasOutcome_pivot _ _ hform hm

theorem hasOutcome_cxfer {i : Issue} (h : routeTiles i.x i.img (slRoute i.ops) ≠ []) : HasOutcome i effCxfer := by
  unfold HasOutcome effCxfer
  simp only [List.getLast?_eq_getLast_of_ne_nil h]
  exact ⟨_, rfl, _, _, _, _, rfl⟩

theorem hasOutcome_dmard {i : Issue} (h : slSpace i.ops < 2) : HasOutcome i effDmard :=
  hasOutcome_of_same (if_neg (by omega)) rfl

theorem hasOutcome_dmawr {i : Issue} (h : slSpace i.ops < 2) : HasOutcome i effDmawr :=
  hasOutcome_of_same (if_neg (by omega)) rfl

theorem hasOutcome_pkt {i : Issue} {r : Nat} (h : i.key = .ring r) : HasOutcome i effPkt := by
  unfold HasOutcome effPkt
  simp only [h]
  exact ⟨_, rfl, touchesCircuitsOnly_of_same rfl⟩

/-- A stroke's command runs its slot with its operation. -/
theorem exec_of_strokeOf {c : Instr} {t : TileId} {sl : StrokeSlot} {cls op : Nat} {eff : Issue → Option OpOut}
    (h : strokeOf c = some (t, sl, cls, op, eff)) (s : State) : exec c s = .next (runSlot s t.val sl.val cls op eff) := by
  unfold strokeOf at h
  split at h <;> cases h <;> rfl

/-- With its codes defined, every stroke's operation has an outcome. -/
theorem hasOutcome_of_strokeOf {c : Instr} {t : TileId} {sl : StrokeSlot} {cls op : Nat} {eff : Issue → Option OpOut}
    {i : Issue} (h : strokeOf c = some (t, sl, cls, op, eff)) (hcodes : CodesDefined c i) : HasOutcome i eff := by
  unfold strokeOf at h
  split at h <;> cases h
  case h_1 => exact ⟨_, rfl, _, _, _, _, rfl⟩
  case h_2 => exact ⟨_, rfl, _, _, _, _, rfl⟩
  case h_3 => exact hasOutcome_of_map rfl hcodes fun _ => rfl
  case h_4 => exact hasOutcome_tmac hcodes.1 hcodes.2
  case h_5 => exact hasOutcome_of_map rfl hcodes fun _ => rfl
  case h_6 => exact hasOutcome_of_same rfl rfl
  case h_7 => exact hasOutcome_of_same rfl rfl
  case h_8 => exact hasOutcome_of_map rfl hcodes fun _ => rfl
  case h_9 => exact hasOutcome_of_same rfl rfl
  case h_10 => exact hasOutcome_of_map rfl hcodes fun _ => rfl
  case h_20 => exact hasOutcome_of_map rfl (cvtOut_isSome hcodes.1 hcodes.2) fun _ => rfl
  case h_21 => exact hasOutcome_recip hcodes.1 hcodes.2
  case h_22 => exact hasOutcome_rsqrt hcodes.1 hcodes.2
  case h_23 => exact hasOutcome_div hcodes.1 hcodes.2
  case h_24 => exact hasOutcome_cxfer hcodes
  case h_25 => exact hasOutcome_of_same rfl rfl
  case h_26 => exact hasOutcome_dmard hcodes
  case h_27 => exact hasOutcome_dmawr hcodes
  case h_28 => exact hcodes.elim fun _ hr => hasOutcome_pkt hr
  all_goals exact hasOutcome_of_scalar rfl

-- the sequencer

theorem Tile.advance_fields (t : Tile) (pc n : Nat) :
    (t.advance pc n).cyc = t.cyc + n ∧ (t.advance pc n).done0 = false ∧ (t.advance pc n).done1 = false := ⟨rfl, rfl, rfl⟩

/-- With the other slot issued before, the next word follows after NEXT + 1 fcyc (R179). -/
theorem Tile.slotDone_of_last {t : Tile} {sl : Nat} (w : BitVec 128) (h : (if sl = 0 then t.done1 else t.done0) = true) :
    (t.slotDone w sl).cyc = t.cyc + wNext w + 1 ∧ (t.slotDone w sl).done0 = false ∧ (t.slotDone w sl).done1 = false := by
  unfold Tile.slotDone
  by_cases hsl : sl = 0
  · rw [if_pos hsl] at h
    simp only [hsl, if_true, h, Bool.and_self]
    exact Tile.advance_fields _ _ _
  · rw [if_neg hsl] at h
    simp only [hsl, if_false, h, Bool.and_self, if_true]
    exact Tile.advance_fields _ _ _

/-- With the other slot still to issue, the tile stays at its word. -/
theorem Tile.slotDone_of_first {t : Tile} {sl : Nat} (w : BitVec 128) (h : (if sl = 0 then t.done1 else t.done0) = false) :
    (t.slotDone w sl).cyc = t.cyc ∧ (t.slotDone w sl).pc = t.pc ∧ (t.slotDone w sl).done0 = decide (sl = 0)
      ∧ (t.slotDone w sl).done1 = decide (sl ≠ 0) := by
  unfold Tile.slotDone
  by_cases hsl : sl = 0
  · rw [if_pos hsl] at h
    simp [hsl, h]
  · rw [if_neg hsl] at h
    simp [hsl, h]

/-- Settles O30: each operation with defined codes has an outcome that touches only accumulators and circuits, and the slot's issue
touches only the sequencer beside it. -/
theorem strokesIssueForTheirLatency : Obligations.StrokesIssueForTheirLatency := by
  unfold Obligations.StrokesIssueForTheirLatency
  refine ⟨fun c t sl cls op eff i w s hc hi hcodes => ?stroke, fun t sl i w s hi => ?nop⟩
  case stroke =>
    obtain ⟨o, ho, a, b, n, r, hot⟩ := hasOutcome_of_strokeOf hc hcodes
    let v : Tile := { o.t with
      flight := o.t.flight ++ [⟨i.t.cyc + opLatency i.ops o.hops (edgeRows t.val), o.writes, o.flags, o.piv, o.read⟩] }
    have hrun : runSlot s t.val sl.val cls op eff = setTile s t.val (v.slotDone w sl.val) := by
      simp only [runSlot, hi, ho, v]
    obtain ⟨_, _, _, _, _, hu⟩ := Tile.slotDone_eq v w sl.val
    have hkeep : v.done0 = i.t.done0 ∧ v.done1 = i.t.done1 ∧ v.cyc = i.t.cyc ∧ v.pc = i.t.pc := by simp [v, hot]
    obtain ⟨hd0, hd1, hcyc, hpc⟩ := hkeep
    refine ⟨o, v.slotDone w sl.val, ho, (exec_of_strokeOf hc s).trans (congrArg _ hrun), ?_, ?_, ?_, ?_, ?_, ?_,
      fun hlast => ?_, fun hfirst => ?_⟩
    · rw [hu, show v.flight = o.t.flight ++ _ from rfl, show o.t.flight = i.t.flight by rw [hot]]
    · rw [hu]
    · rw [hu]
    · rw [hu]
    · rw [hu, show v.pad = o.t.pad from rfl, hot]
    · rw [hu, show v.strokes = o.t.strokes from rfl, hot]
    · rw [← hcyc]
      exact Tile.slotDone_of_last w (by rw [hd0, hd1]; exact hlast)
    · rw [← hcyc, ← hpc]
      exact Tile.slotDone_of_first w (by rw [hd0, hd1]; exact hfirst)
  case nop =>
    have hrun : execStrokeNop t sl s = .next (setTile s t.val (i.t.slotDone w sl.val)) := by simp only [execStrokeNop, hi]
    obtain ⟨_, _, _, _, _, hu⟩ := Tile.slotDone_eq i.t w sl.val
    exact ⟨_, hrun, by rw [hu], by rw [hu], by rw [hu], fun hlast => (Tile.slotDone_of_last w hlast).1⟩

-- NaN operands (R101)

theorem leNat_lt (bs : List Byte) : leNat bs < 256 ^ bs.length := by
  induction bs with
  | nil => simp [leNat]
  | cons b bs ih =>
    have hb := b.isLt
    rw [leNat, List.length_cons, Nat.pow_succ]
    omega

theorem Tile.value_lt (t : Tile) (a : Nat) : t.value a 8 < 2 ^ 64 := by
  have hlt := leNat_lt (t.bytes a 8)
  rwa [show (t.bytes a 8).length = 8 by simp [Tile.bytes, upTo], show (256 : Nat) ^ 8 = 2 ^ 64 by norm_num] at hlt

theorem FFmt.unpack_of_nan {f : FFmt} {x : Nat} (he : f.e4m3 = false) (hexp : x / 2 ^ f.mb % 2 ^ f.eb = 2 ^ f.eb - 1)
    (hfrac : x % 2 ^ f.mb ≠ 0) :
    f.unpack x = .nan (x.testBit f.signAt) ((x % 2 ^ f.mb).testBit (f.mb - 1)) (x % 2 ^ f.mb) := by
  simp [FFmt.unpack, he, hexp, hfrac]

theorem FFmt.unpack_of_number {f : FFmt} {x : Nat} (he : f.e4m3 = false)
    (h : x / 2 ^ f.mb % 2 ^ f.eb = 2 ^ f.eb - 1 → x % 2 ^ f.mb = 0) (n q : Bool) (fr : Nat) : f.unpack x ≠ .nan n q fr := by
  simp only [FFmt.unpack, he, Bool.false_and, Bool.false_eq_true, if_false, Bool.not_false, Bool.true_and, decide_eq_true_eq]
  split_ifs with hexp hfrac
  · exact FVal.noConfusion
  · exact absurd (h hexp) hfrac
  · exact FVal.noConfusion
  · exact FVal.noConfusion

theorem unpack_of_nan64 {x : Nat} (h : Nan64 x) :
    fp64.unpack x = .nan (x.testBit 63) ((x % 2 ^ 52).testBit 51) (x % 2 ^ 52) :=
  FFmt.unpack_of_nan (f := fp64) rfl h.1 h.2

theorem unpack_of_not_nan64 {x : Nat} (h : ¬ Nan64 x) : ∀ n q f, fp64.unpack x ≠ .nan n q f :=
  FFmt.unpack_of_number (f := fp64) rfl fun hexp => by_contra fun hne => h ⟨hexp, hne⟩

/-- The first NaN of a list of operands whose head is none is that of the rest. -/
theorem firstNan_cons_of_number {f : FFmt} {v : FVal} (h : ∀ n q fr, v ≠ .nan n q fr) (vs : List FVal) :
    firstNan f (v :: vs) = firstNan f vs := by
  cases v with
  | nan n q fr => exact absurd rfl (h n q fr)
  | inf n => rfl
  | fin n m e => rfl

/-- A NaN keeps its sign and payload and gets the quiet bit. -/
theorem quietNan_of_nan64 {x : Nat} (hlt : x < 2 ^ 64) (h : Nan64 x) :
    fp64.quietNan (x.testBit 63) (x % 2 ^ 52) = x ||| 2 ^ 51 := by
  obtain ⟨hexp, -⟩ := h
  have hdiv : (x ||| 2 ^ 51) / 2 ^ 52 = x / 2 ^ 52 := by
    rw [Nat.or_div_two_pow, show 2 ^ 51 / 2 ^ 52 = 0 by norm_num, Nat.or_zero]
  have hmod : (x ||| 2 ^ 51) % 2 ^ 52 = x % 2 ^ 52 ||| 2 ^ 51 := by
    rw [Nat.or_mod_two_pow, show 2 ^ 51 % 2 ^ 52 = 2 ^ 51 by norm_num]
  have hsplit := Nat.div_add_mod (x ||| 2 ^ 51) (2 ^ 52)
  have hsign : fp64.sgn (x.testBit 63) = x / 2 ^ 63 % 2 * 2 ^ 63 := by
    rw [FFmt.sgn, Nat.testBit_eq_decide_div_mod_eq]
    by_cases hbit : x / 2 ^ 63 % 2 = 1
    · rw [if_pos (decide_eq_true hbit), hbit]; rfl
    · rw [if_neg (by simpa using hbit)]; omega
  rw [hdiv, hmod] at hsplit
  rw [← hsplit, FFmt.quietNan, if_neg (by decide), hsign]
  show x / 2 ^ 63 % 2 * 2 ^ 63 + 2047 * 2 ^ 52 + (x % 2 ^ 52 ||| 2 ^ 51) = _
  omega

theorem firstNan_head {x : Nat} (hlt : x < 2 ^ 64) (h : Nan64 x) (vs : List FVal) :
    firstNan fp64 (fp64.unpack x :: vs) = some (x ||| 2 ^ 51) := by
  rw [unpack_of_nan64 h, firstNan, quietNan_of_nan64 hlt h]

/-- The first NaN of two operands, as R101 orders them. -/
theorem firstNan_tail {x y : Nat} (hx : ¬ Nan64 x) (hlt : y < 2 ^ 64) (hy : Nan64 y) (vs : List FVal) :
    firstNan fp64 (fp64.unpack x :: fp64.unpack y :: vs) = some (y ||| 2 ^ 51) :=
  (firstNan_cons_of_number (unpack_of_not_nan64 hx) _).trans (firstNan_head hlt hy vs)

/-- Negation keeps what is and what is not a NaN. -/
theorem firstNan_negate (f : FFmt) (v w : FVal) : firstNan f [v, w.negate] = firstNan f [v, w] := by
  cases v <;> cases w <;> rfl

theorem addV_of_nan {f : FFmt} {m : RoundMode} {a b : FVal} {r : Nat} (h : firstNan f [a, b] = some r) :
    (f.addV m a b).1 = r := by
  unfold FFmt.addV
  simp only [h]

theorem add_of_nan {f : FFmt} {m : RoundMode} {a b r : Nat} (h : firstNan f [f.unpack a, f.unpack b] = some r) :
    (f.add m a b).1 = r := addV_of_nan h

theorem sub_of_nan {f : FFmt} {m : RoundMode} {a b r : Nat} (h : firstNan f [f.unpack a, f.unpack b] = some r) :
    (f.sub m a b).1 = r := addV_of_nan ((firstNan_negate f _ _).trans h)

theorem mul_of_nan {f : FFmt} {m : RoundMode} {a b r : Nat} (h : firstNan f [f.unpack a, f.unpack b] = some r) :
    (f.mul m a b).1 = r := by
  unfold FFmt.mul
  simp only [h]

theorem fma_of_nan {f : FFmt} {m : RoundMode} {a b c r : Nat} (h : firstNan f [f.unpack a, f.unpack b, f.unpack c] = some r) :
    (f.fma m a b c).1 = r := by
  unfold FFmt.fma
  simp only [h]

/-- A scalar FP64 operation puts its result's bytes in flight to the destination. -/
theorem scalar_in_flight {c : Instr} {s : State} {t sl op : Nat} {eff : Issue → Option OpOut} {i : Issue} {w : BitVec 128}
    {f : FFmt → Nat → Nat → Nat → Nat × FpFlags} {r : Nat} (hc : exec c s = .next (runSlot s t sl 1 op eff))
    (hi : issueOf s t sl 1 op = some (i, w)) (he : eff i = effScalar f i) (hp : slP i.ops = false)
    (hr : (f fp64 (i.t.value (slA i.ops) 8) (i.t.value (slB i.ops) 8) (i.t.value (slD i.ops) 8)).1 = r) :
    ∃ (u : Tile) (g : InFlight), exec c s = .next (setTile s t u)
      ∧ u.flight = i.t.flight ++ [g] ∧ g.writes = [i.put (slD i.ops) (leBytes 8 r)] := by
  obtain ⟨u, hrun, hflight, -, -⟩ := runSlot_of_issue hi he
  exact ⟨u, _, hc.trans (congrArg _ hrun), hflight, by simp [OpOut.plain, scalar, hp, hr]⟩

/-- What R101 asks of an operation of a and b alone. -/
theorem nan_of_two_in_flight {c : Instr} {s : State} {t sl op : Nat} {eff : Issue → Option OpOut} {i : Issue} {w : BitVec 128}
    {f : FFmt → Nat → Nat → Nat → Nat × FpFlags} (hc : exec c s = .next (runSlot s t sl 1 op eff))
    (hi : issueOf s t sl 1 op = some (i, w)) (he : eff i = effScalar f i) (hp : slP i.ops = false)
    (hf : ∀ a b d r, firstNan fp64 [fp64.unpack a, fp64.unpack b] = some r → (f fp64 a b d).1 = r) :
    (Nan64 (i.t.value (slA i.ops) 8) → ∃ (u : Tile) (g : InFlight),
        exec c s = .next (setTile s t u) ∧ u.flight = i.t.flight ++ [g]
          ∧ g.writes = [i.put (slD i.ops) (leBytes 8 (i.t.value (slA i.ops) 8 ||| 2 ^ 51))])
      ∧ (¬ Nan64 (i.t.value (slA i.ops) 8) → Nan64 (i.t.value (slB i.ops) 8) → ∃ (u : Tile) (g : InFlight),
        exec c s = .next (setTile s t u) ∧ u.flight = i.t.flight ++ [g]
          ∧ g.writes = [i.put (slD i.ops) (leBytes 8 (i.t.value (slB i.ops) 8 ||| 2 ^ 51))]) :=
  ⟨fun ha => scalar_in_flight hc hi he hp (hf _ _ _ _ (firstNan_head (Tile.value_lt _ _) ha _)),
    fun ha hb => scalar_in_flight hc hi he hp (hf _ _ _ _ (firstNan_tail ha (Tile.value_lt _ _) hb _))⟩

/-- Settles O31: each operation answers its first NaN operand, whose sign and payload the quieting keeps. -/
theorem nanOperandsComeThrough : Obligations.NanOperandsComeThrough := by
  unfold Obligations.NanOperandsComeThrough
  intro c op t sl i w s hc hi hp
  dsimp only
  obtain ⟨rfl, rfl⟩ | ⟨rfl, rfl⟩ | ⟨rfl, rfl⟩ | ⟨rfl, rfl⟩ := hc
  · obtain ⟨ha, hb⟩ := nan_of_two_in_flight (c := .fadd t sl) (f := fun f a b _ => f.add i.rnd a b) rfl hi rfl hp fun _ _ _ _ => add_of_nan
    exact ⟨ha, hb, fun h => absurd h (by decide)⟩
  · obtain ⟨ha, hb⟩ := nan_of_two_in_flight (c := .fsub t sl) (f := fun f a b _ => f.sub i.rnd a b) rfl hi rfl hp fun _ _ _ _ => sub_of_nan
    exact ⟨ha, hb, fun h => absurd h (by decide)⟩
  · obtain ⟨ha, hb⟩ := nan_of_two_in_flight (c := .fmul t sl) (f := fun f a b _ => f.mul i.rnd a b) rfl hi rfl hp fun _ _ _ _ => mul_of_nan
    exact ⟨ha, hb, fun h => absurd h (by decide)⟩
  · exact ⟨fun ha => scalar_in_flight rfl hi rfl hp (fma_of_nan (firstNan_head (Tile.value_lt _ _) ha _)),
      fun ha hb => scalar_in_flight rfl hi rfl hp (fma_of_nan (firstNan_tail ha (Tile.value_lt _ _) hb _)),
      fun _ ha hb hd => scalar_in_flight rfl hi rfl hp (fma_of_nan
        ((firstNan_cons_of_number (unpack_of_not_nan64 ha) _).trans (firstNan_tail hb (Tile.value_lt _ _) hd _)))⟩

end Sys2Proof.Machine
end

section
/-! SUPPORT. Why the end of a chain is not proved as stated (R110, R219): like every end of a command, it frees instances, and a table
of entries that lists one twice then shows its second place. -/

namespace Sys2Proof.Machine

/-- The FPBAR word of Table 06.13. -/
def barrierWord : BitVec 128 := BitVec.ofNat 128 (2 ^ 125 + 2 * 2 ^ 115)

/-- A command on its partition's tiles. -/
def runningCmd : Cmd := { (default : Cmd) with st := .run }

/-- A partition on one half column whose entry 0 is listed twice, with the running command both times, and once with the trajectory of
one of the instances that are gone; its tile 0 stands at a barrier with a trap pending. -/
def trappedTwiceState : State :=
  setTile (setPart State.reset 0 { Part.reset with
    on := true
    pars := { PartParams.reset with geom := 0x11000 }
    holder := some (.entry 0)
    slots := [(0, { Slot.reset with img := some default })]
    entries := [(0, { EntryRun.reset with cmd := some runningCmd, traj := some ⟨[], 0, 0, 9⟩ }),
      (0, { EntryRun.reset with cmd := some runningCmd })] }) 0
    { Tile.reset with running := true, trap := 1, strokes := [(0, { (default : StoredWord) with word := barrierWord })] }

/-- The barrier takes the trap and ends the command in the entry's first place; its second shows. -/
theorem trap_of_trappedTwice :
    ctrlOf trappedTwiceState 0 2 = some (0, .entry 0, runningCmd, default, barrierWord)
      ∧ (getRun (answered trappedTwiceState (execFpbar 0 trappedTwiceState)) 0 0).cmd ≠ none := by decide +kernel

/-- Refutes O33: in `trappedTwiceState` the trap ends the command of entry 0, and the entry still shows one. -/
theorem not_controlWordsRunTheTile : ¬ Obligations.ControlWordsRunTheTile := by
  rintro ⟨-, hends⟩
  obtain ⟨hctrl, hshows⟩ := trap_of_trappedTwice
  obtain ⟨v, hrun, hnone, -⟩ := (hends 0 0 0 runningCmd default barrierWord trappedTwiceState).1 hctrl rfl (by decide +kernel) rfl
  have hexec : execFpbar 0 trappedTwiceState = .next v := hrun
  rw [hexec] at hshows
  exact hshows hnone

end Sys2Proof.Machine
end

section
/-! SUPPORT. What lands on a tile (R144, R150, R156): a retiring operation's write, and a flit of packet mode, while the flits of its
partition move one hop. -/

namespace Sys2Proof.Machine

-- retirement

/-- Bytes stored in the scratchpad stand at their address (R162). -/
theorem memBytes_store (t : Tile) (a : Nat) (bs : List Byte) : memBytes (t.store a bs).pad a bs.length = bs :=
  memBytes_putBytes bs _ a

theorem getTile_putCmd (s : State) (p : Nat) (k : CmdKey) (c : Cmd) (n : Nat) : getTile (putCmd s p k c) n = getTile s n := by
  unfold putCmd
  cases k with
  | entry j => rfl
  | ring r =>
    dsimp only
    split
    · rfl
    · rfl

/-- A key that has a command has the one put in its place. -/
theorem getCmd_putCmd {s : State} {p : Nat} {k : CmdKey} {c₀ : Cmd} (h : getCmd s p k = some c₀) (c : Cmd) :
    getCmd (putCmd s p k c) p k = some c := by
  cases k with
  | entry j => simp [getCmd, putCmd]
  | ring r =>
    obtain ⟨b, hb, -⟩ := Option.map_eq_some_iff.1 (show (getBe s r).map (fun b => b.cmd) = some c₀ from h)
    simp [getCmd, putCmd, hb]

theorem getCmd_setTile (s : State) (n : Nat) (t : Tile) (p : Nat) (k : CmdKey) : getCmd (setTile s n t) p k = getCmd s p k := by
  cases k <;> rfl

theorem getCmd_of_tileRun {s : State} {t p : Nat} {k : CmdKey} {c : Cmd} {im : Image} (h : tileRun s t = some (p, k, c, im)) :
    getCmd s p k = some c := by
  unfold tileRun at h
  split at h
  · cases h
  next q _ =>
    split at h
    next key hkey _ =>
      split at h
      next c' hc =>
        split at h
        · obtain ⟨im', -, he⟩ := Option.map_eq_some_iff.1 h
          obtain ⟨rfl, rfl, rfl, rfl⟩ : q = p ∧ key = k ∧ c' = c ∧ im' = im := by simpa using he
          exact hc
        · cases h
      · cases h
    · cases h

theorem InFlight.land_of_no_read {f : InFlight} (h : f.read = none) (x : Part) (im : Image) (c : Cmd) (t : Nat) :
    f.land x im c t = f := by
  unfold InFlight.land
  rw [h]

/-- OP_RETIRE of an operation whose turn it is, with one write to its own tile's scratchpad. -/
theorem opRetire_of_turn {t : TileId} {k : Fin 16} {s : State} {p : Nat} {key : CmdKey} {c : Cmd} {im : Image} {f : InFlight}
    {a : Nat} {bs : List Byte} (hrun : tileRun s t.val = some (p, key, c, im)) (hf : (getTile s t.val).flight[k.val]? = some f)
    (hread : f.read = none) (hwrites : f.writes = [⟨.pad t.val, a, bs⟩]) (hturn : retireTurn s p f.due = true) :
    let u : Tile := { getTile s t.val with
      flight := (getTile s t.val).flight.eraseIdx k.val, trap := (getTile s t.val).trap ||| (f.flags &&& c.fpcw.trapMask) }
    execOpRetire t k s = .next (putCmd (setTile (setTile s t.val u) t.val (u.store a bs)) p key (c.merge t.val f)) := by
  unfold execOpRetire
  simp only [hrun, hf, InFlight.land_of_no_read hread, hturn, hwrites, if_true, List.foldl_cons, List.foldl_nil, applyWrite,
    getTile_setTile_same]

theorem Tile.validate_eq (t : Tile) (w : Nat) : ∃ m v, t.validate w = { t with pad := m, valid := v } := by
  unfold Tile.validate
  split_ifs
  · exact ⟨_, _, rfl⟩
  · exact ⟨_, _, rfl⟩

/-- A store touches only the scratchpad and its valid bits (R162). -/
theorem Tile.store_eq (t : Tile) (a : Nat) (bs : List Byte) : ∃ m v, t.store a bs = { t with pad := m, valid := v } := by
  have hvalidate : ∀ (ws : List Nat) (u : Tile), ∃ m v, ws.foldl Tile.validate u = { u with pad := m, valid := v } := by
    intro ws
    induction ws with
    | nil => exact fun u => ⟨_, _, rfl⟩
    | cons w ws ih =>
      intro u
      obtain ⟨m, v, hw⟩ := Tile.validate_eq u w
      obtain ⟨m', v', hws⟩ := ih (u.validate w)
      exact ⟨m', v', by rw [List.foldl_cons, hws, hw]⟩
  unfold Tile.store
  dsimp only
  split_ifs
  · exact ⟨_, _, rfl⟩
  · obtain ⟨m, v, h⟩ := hvalidate ((upTo ((a + bs.length + 15) / 16 - a / 16)).map (fun i => a / 16 + i)) t
    exact ⟨_, _, by rw [h]⟩

-- the routers of a partition

/-- What one hop leaves on a tile: its scratchpad and the flits it has to send; arrivals only queue behind. -/
def Carries (u v : Tile) : Prop := v.pad = u.pad ∧ v.sending = u.sending ∧ ∃ more, v.inbox = u.inbox ++ more

theorem Carries.refl (u : Tile) : Carries u u := ⟨rfl, rfl, [], (List.append_nil _).symm⟩

theorem Carries.trans {u v w : Tile} (h : Carries u v) (h' : Carries v w) : Carries u w := by
  obtain ⟨hpad, hsend, more, hbox⟩ := h
  obtain ⟨hpad', hsend', more', hbox'⟩ := h'
  exact ⟨hpad'.trans hpad, hsend'.trans hsend, more ++ more', by rw [hbox', hbox, List.append_assoc]⟩

theorem carries_giveFlit (u : Tile) (i : Nat) (f : Flit) : Carries u (u.giveFlit i f) := ⟨rfl, rfl, [], (List.append_nil _).symm⟩

theorem carries_takeFlit (u : Tile) (i : Nat) : Carries u (u.takeFlit i) := ⟨rfl, rfl, [], (List.append_nil _).symm⟩

theorem carries_arrive (u : Tile) (f : Flit) : Carries u (u.arrive f) := by
  cases f with
  | header d a n => exact Carries.refl u
  | data d a bs => exact ⟨rfl, rfl, _, rfl⟩

theorem carries_setTile {s : State} {n : Nat} {v : Tile} (h : Carries (getTile s n) v) (t : Nat) :
    Carries (getTile s t) (getTile (setTile s n v) t) := by
  rw [getTile_setTile]
  split_ifs with hn
  · exact hn ▸ h
  · exact Carries.refl _

theorem carries_moveFlit (s : State) (m : FlitMove) (t : Nat) : Carries (getTile s t) (getTile (moveFlit s m) t) := by
  have htake := carries_setTile (carries_takeFlit (getTile s m.tile) m.input) t
  unfold moveFlit
  dsimp only
  split
  · exact htake.trans (carries_setTile (carries_giveFlit _ _ _) t)
  · exact htake.trans (carries_setTile (carries_arrive _ _) t)

theorem carries_moveFlits (ms : List FlitMove) (s : State) (t : Nat) :
    Carries (getTile s t) (getTile (ms.foldl moveFlit s) t) := by
  induction ms generalizing s with
  | nil => exact Carries.refl _
  | cons m ms ih => exact (carries_moveFlit s m t).trans (ih _)

/-- A flit that enters a router touches only the buffers of its own tile. -/
theorem getTile_injectFlit_other {e : Nat × Flit} {t : Nat} (h : e.1 ≠ t) (s : State) : getTile (injectFlit s e) t = getTile s t := by
  unfold injectFlit
  dsimp only
  rw [getTile_setTile, if_neg h]

theorem injectFlit_keeps (s : State) (e : Nat × Flit) (t : Nat) :
    (getTile (injectFlit s e) t).pad = (getTile s t).pad ∧ (getTile (injectFlit s e) t).inbox = (getTile s t).inbox := by
  by_cases h : e.1 = t
  · subst h
    simp [injectFlit, Tile.giveFlit]
  · rw [getTile_injectFlit_other h]
    exact ⟨rfl, rfl⟩

theorem injectFlits_keep (es : List (Nat × Flit)) (s : State) (t : Nat) :
    (getTile (es.foldl injectFlit s) t).pad = (getTile s t).pad ∧ (getTile (es.foldl injectFlit s) t).inbox = (getTile s t).inbox := by
  induction es generalizing s with
  | nil => exact ⟨rfl, rfl⟩
  | cons e es ih =>
    obtain ⟨hpad, hbox⟩ := injectFlit_keeps s e t
    obtain ⟨hpads, hboxes⟩ := ih (injectFlit s e)
    exact ⟨hpads.trans hpad, hboxes.trans hbox⟩

theorem getTile_injectFlits_other {es : List (Nat × Flit)} {t : Nat} (h : ∀ e ∈ es, e.1 ≠ t) (s : State) :
    getTile (es.foldl injectFlit s) t = getTile s t := by
  induction es generalizing s with
  | nil => rfl
  | cons e es ih =>
    rw [List.foldl_cons, ih fun e' he => h e' (List.mem_cons_of_mem _ he), getTile_injectFlit_other (h e List.mem_cons_self)]

/-- The flits that enter the routers of `ts` in one fcyc. -/
def entering (s : State) (ts : List Nat) : List (Nat × Flit) := ts.filterMap (fun t => (inject s t).map (fun f => (t, f)))

theorem mem_entering {s : State} {ts : List Nat} {e : Nat × Flit} (h : e ∈ entering s ts) : e.1 ∈ ts := by
  obtain ⟨n, hn, he⟩ := List.mem_filterMap.1 h
  obtain ⟨f, -, rfl⟩ := Option.map_eq_some_iff.1 he
  exact hn

/-- Of distinct tiles, one with a flit to enter its router gives it and only it. -/
theorem getTile_entering {s₀ : State} {ts : List Nat} {t : Nat} {f : Flit} (hnodup : ts.Nodup) (ht : t ∈ ts)
    (hf : inject s₀ t = some f) (s : State) :
    getTile ((entering s₀ ts).foldl injectFlit s) t
      = Tile.giveFlit { getTile s t with sending := (getTile s t).sending.drop 1 } 4 f := by
  induction ts generalizing s with
  | nil => simp at ht
  | cons a ts ih =>
    obtain ⟨ha, hts⟩ := List.nodup_cons.1 hnodup
    by_cases hat : a = t
    · subst hat
      have hrest : ∀ e ∈ entering s₀ ts, e.1 ≠ a := fun e he hea => ha (hea ▸ mem_entering he)
      have hcons : entering s₀ (a :: ts) = (a, f) :: entering s₀ ts := by simp [entering, hf]
      rw [hcons, List.foldl_cons, getTile_injectFlits_other hrest]
      simp [injectFlit]
    · have ht : t ∈ ts := (List.mem_cons.1 ht).resolve_left (Ne.symm hat)
      cases hi : inject s₀ a with
      | none =>
        have hcons : entering s₀ (a :: ts) = entering s₀ ts := by simp [entering, hi]
        rw [hcons, ih hts ht]
      | some g =>
        have hcons : entering s₀ (a :: ts) = (a, g) :: entering s₀ ts := by simp [entering, hi]
        rw [hcons, List.foldl_cons, ih hts ht, getTile_injectFlit_other hat]

/-- One fcyc of the routers moves flits between buffers, and then the tiles' own flits enter. -/
theorem stepRouters_eq (s : State) (x : Part) (im : Image) (c : Nat) :
    ∃ ms : List FlitMove, stepRouters s x im c = (entering s x.pars.tiles).foldl injectFlit (ms.foldl moveFlit s) := ⟨_, rfl⟩

theorem stepRouters_pad_inbox (s : State) (x : Part) (im : Image) (c t : Nat) :
    (getTile (stepRouters s x im c) t).pad = (getTile s t).pad
      ∧ ∃ more, (getTile (stepRouters s x im c) t).inbox = (getTile s t).inbox ++ more := by
  obtain ⟨ms, h⟩ := stepRouters_eq s x im c
  obtain ⟨hpad, hbox⟩ := injectFlits_keep (entering s x.pars.tiles) (ms.foldl moveFlit s) t
  obtain ⟨hpad', -, more, hbox'⟩ := carries_moveFlits ms s t
  rw [h]
  exact ⟨hpad.trans hpad', more, hbox.trans hbox'⟩

theorem stepRouters_enters {s : State} {x : Part} (im : Image) (c : Nat) {t : Nat} {f : Flit} {fs : List Flit}
    (hnodup : x.pars.tiles.Nodup) (ht : t ∈ x.pars.tiles) (hsend : (getTile s t).sending = f :: fs)
    (hroom : (tblGet [] (getTile s t).inputs 4).length < 4) :
    (getTile (stepRouters s x im c) t).sending = fs
      ∧ ∃ q, tblGet [] (getTile (stepRouters s x im c) t).inputs 4 = q ++ [f] := by
  obtain ⟨ms, h⟩ := stepRouters_eq s x im c
  have hinject : inject s t = some f := by simp [inject, hroom, hsend]
  obtain ⟨-, hsend', -⟩ := carries_moveFlits ms s t
  rw [h, getTile_entering hnodup ht hinject]
  exact ⟨by simp [Tile.giveFlit, hsend', hsend], _, by simp [Tile.giveFlit]; rfl⟩

-- arrivals

theorem writeArrival_of_free {u : Tile} {d a : Nat} {bs : List Byte} {rest : List Flit} {busy : Nat → Nat → Bool}
    (h : u.inbox = .data d a bs :: rest) (hfree : busy a bs.length = false) :
    u.writeArrival busy = { u.store a bs with inbox := rest } := by
  simp [Tile.writeArrival, h, hfree]

theorem writeArrival_of_busy {u : Tile} {d a : Nat} {bs : List Byte} {rest : List Flit} {busy : Nat → Nat → Bool}
    (h : u.inbox = .data d a bs :: rest) (hbusy : busy a bs.length = true) : u.writeArrival busy = u := by
  simp [Tile.writeArrival, h, hbusy]

/-- An arrival's write touches the scratchpad and the buffer it waited in. -/
theorem writeArrival_eq (u : Tile) (busy : Nat → Nat → Bool) :
    (u.writeArrival busy).sending = u.sending ∧ (u.writeArrival busy).inputs = u.inputs := by
  unfold Tile.writeArrival
  split
  · next a bs rest _ =>
    split_ifs
    · exact ⟨rfl, rfl⟩
    · obtain ⟨m, v, h⟩ := Tile.store_eq u a bs
      rw [h]
      exact ⟨rfl, rfl⟩
  · exact ⟨rfl, rfl⟩
  · exact ⟨rfl, rfl⟩

/-- The tile's state as the routers move, in a PACKET_BANK_WRITE. -/
def arrived (s : State) (p t : Nat) : State :=
  setTile s t ((getTile s t).writeArrival (bankBusy s (getPart s p) t (getTile s t).cyc))

theorem packetBankWrite_of_ring {t : TileId} {s : State} {p r : Nat} {c : Cmd} {im : Image}
    (h : tileRun s t.val = some (p, .ring r, c, im)) :
    execPacketBankWrite t s = .next (stepRouters (arrived s p t.val) (getPart s p) im (getTile s t.val).cyc) := by
  unfold execPacketBankWrite
  simp only [h]
  rfl

/-- Settles O32: a retiring write and a free arrival are stores to the tile's scratchpad, and the routers only pass flits between
buffers. -/
theorem resultsLandAtRetirement : Obligations.ResultsLandAtRetirement := by
  unfold Obligations.ResultsLandAtRetirement
  intro t s
  refine ⟨?retire, ?arrival, ?enters⟩
  case retire =>
    intro k p key c im f a bs hrun hf hread hwrites hturn
    obtain ⟨m, v, hstore⟩ := Tile.store_eq { getTile s t.val with
      flight := (getTile s t.val).flight.eraseIdx k.val
      trap := (getTile s t.val).trap ||| (f.flags &&& c.fpcw.trapMask) } a bs
    refine ⟨_, opRetire_of_turn hrun hf hread hwrites hturn, ?_, ?_, ?_, ?_⟩
    · rw [getTile_putCmd, getTile_setTile_same]
      exact memBytes_store _ a bs
    · rw [getTile_putCmd, getTile_setTile_same, hstore]
    · rw [getTile_putCmd, getTile_setTile_same, hstore]
    · exact getCmd_putCmd ((getCmd_setTile _ _ _ _ _).trans ((getCmd_setTile _ _ _ _ _).trans (getCmd_of_tileRun hrun))) _
  case arrival =>
    intro p r d a c im bs rest hrun hbox
    obtain ⟨hpad, more, hmore⟩ := stepRouters_pad_inbox (arrived s p t.val) (getPart s p) im (getTile s t.val).cyc t.val
    refine ⟨_, more, packetBankWrite_of_ring hrun, fun hfree => ?_, fun hbusy => ?_⟩
    · rw [hpad, hmore, arrived, getTile_setTile_same, writeArrival_of_free hbox hfree]
      exact ⟨memBytes_store _ a bs, rfl⟩
    · rw [hpad, hmore, arrived, getTile_setTile_same, writeArrival_of_busy hbox hbusy, hbox]
      exact ⟨rfl, rfl⟩
  case enters =>
    intro p r c im f fs hrun hnodup ht hsend hroom
    obtain ⟨hsame, hinputs⟩ := writeArrival_eq (getTile s t.val) (bankBusy s (getPart s p) t.val (getTile s t.val).cyc)
    obtain ⟨hrest, q, hq⟩ := stepRouters_enters (s := arrived s p t.val) im (getTile s t.val).cyc hnodup ht
      (by rw [arrived, getTile_setTile_same, hsame, hsend]) (by rw [arrived, getTile_setTile_same, hinputs]; exact hroom)
    exact ⟨_, q, packetBankWrite_of_ring hrun, hrest, hq⟩

end Sys2Proof.Machine
end

section
/-! SUPPORT. What events leave of the registers: beside the dropped-event counters of the contexts, nothing (R362, R364); and fields of
register words put together from parts (R535). -/

namespace Sys2Proof.Machine

/-- Every register outside the contexts' block holds what it held. -/
def SameRegs (s t : State) : Prop := ∀ o, o < 0x500000 ∨ 0x508000 ≤ o → regGet t o = regGet s o

theorem SameRegs.of_eq {s t : State} (h : t.regs = s.regs) : SameRegs s t := fun o _ => regGet_congr h o

theorem SameRegs.refl (s : State) : SameRegs s s := .of_eq rfl

theorem SameRegs.trans {s t u : State} (h : SameRegs s t) (g : SameRegs t u) : SameRegs s u :=
  fun o ho => (g o ho).trans (h o ho)

theorem SameRegs.fold {α : Type} {F : State → α → State} (l : List α) (s : State) (hF : ∀ t, ∀ a ∈ l, SameRegs t (F t a)) :
    SameRegs s (l.foldl F s) :=
  List.foldlRecOn l F (motive := SameRegs s) (SameRegs.refl s) fun _ h a ha => h.trans (hF _ a ha)

theorem sameRegs_bump_ctx (s : State) {c : Nat} (hc : c < 64) {k : Nat} (hk : k < 0x200) : SameRegs s (bump s (ctxOff c k)) := by
  intro o ho
  rw [bump, regGet_regSet, if_neg (by unfold ctxOff; omega)]

theorem sameRegs_writeOrDrop (s : State) {c : Nat} (hc : c < 64) (h : CSlot) (l : List CSlot) : SameRegs s (writeOrDrop s c h l) := by
  refine iteInduction (motive := SameRegs s) (fun _ => ?_) (fun _ => .refl s)
  refine iteInduction (motive := SameRegs s) (fun _ => ?_) (fun _ => .of_eq rfl)
  refine iteInduction (motive := SameRegs s) (fun _ => .refl s) (fun _ => ?_)
  exact iteInduction (motive := SameRegs s) (fun _ => .of_eq (same_of_law .regs (writeGroup_touch c h l) rfl))
    (fun _ => sameRegs_bump_ctx s hc (by decide))

theorem sameRegs_raiseEvent (s : State) (ev : Nat) (p : Option Nat) (sub : Nat) (a b d : Word) (e : Word64) :
    SameRegs s (raiseEvent s ev p sub a b d e) := by
  refine SameRegs.fold _ s fun t c hc => ?_
  have hwrite := sameRegs_writeOrDrop t (List.mem_range.1 hc) (eventSlot ev sub a b d e) []
  refine iteInduction (fun _ => ?_) (fun _ => .refl t)
  exact iteInduction (fun _ => hwrite)
    (fun _ => hwrite.trans (.of_eq (same_of_law .regs (bltRecord_touch _ _ _ _) rfl)))

theorem sameRegs_healthEvent (s : State) (code kind index a2 a3 : Nat) : SameRegs s (healthEvent s code kind index a2 a3) :=
  sameRegs_raiseEvent _ _ _ _ _ _ _ _

theorem sameRegs_bltTrigger (s : State) (cause : Nat) : SameRegs s (bltTrigger s cause) :=
  .of_eq (same_of_law .regs (bltTrigger_touch cause) rfl)

theorem sameRegs_writeFault (s : State) (f : FaultRec) : SameRegs s (writeFault s f) := by
  unfold writeFault
  have hevent := (SameRegs.of_eq (s := s) (t := { s with anl := { s.anl with
      index := s.anl.index + 1, last := some { f with index := s.anl.index + 1, tick := lc s }
      log := (s.anl.log ++ [{ f with index := s.anl.index + 1, tick := lc s }]).drop
        ((s.anl.log ++ [{ f with index := s.anl.index + 1, tick := lc s }]).length - 4096) } }) rfl).trans
    (sameRegs_raiseEvent _ 0x04 (some f.part) f.part (s.anl.index + 1) 0 0 0)
  exact iteInduction (fun _ => hevent.trans (sameRegs_bltTrigger _ 5)) (fun _ => hevent)

-- an engine's flags

/-- What follows the setting of an engine's flags moves no register outside the contexts'. -/
theorem nibFlags_regs (s : State) (n : Nat) (fs : List Nat) :
    SameRegs (fs.foldl (fun t f => nibCount t n f) (regSet s (nibOff n 0x54)
      (regGet s (nibOff n 0x54) ||| fs.foldl (fun w f => w ||| put 1 f) (0 : Word)))) (nibFlags s n fs) := by
  unfold nibFlags
  refine iteInduction (fun _ => .refl _) (fun _ => ?_)
  have hevent : ∀ t : State, SameRegs t
      (if wbit (regGet t (bltOff 0x30)) (16 + n) then bltTrigger t 2 else t) := fun t =>
    iteInduction (fun _ => sameRegs_bltTrigger t 2) (fun _ => .refl t)
  dsimp only
  split
  · exact (sameRegs_raiseEvent _ _ _ _ _ _ _ _).trans (hevent _)
  · exact hevent _

theorem regGet_nibCount_other {s : State} {n f o : Nat} (h : o ≠ nibOff n (0x60 + 4 * (f / 2))) :
    regGet (nibCount s n f) o = regGet s o := by
  unfold nibCount
  rw [regGet_regSet, if_neg (Ne.symm h)]

/-- A flag that is set joins the engine's sticky flags (R312). -/
theorem regGet_nibFlags_one {s : State} {n : Nat} (hn : n < 16) (f : Nat) :
    regGet (nibFlags s n [f]) (nibOff n 0x54) = regGet s (nibOff n 0x54) ||| put 1 f := by
  rw [nibFlags_regs s n [f] _ (by unfold nibOff; omega), List.foldl_cons, List.foldl_nil, regGet_nibCount_other (by unfold nibOff; omega),
    regGet_regSet_same]
  simp

/-- The refusal of an arm, a swap or a register write: CFG_ERR with its cause (R288, R304, R545). -/
theorem regGet_nibRefuse {s : State} {n : Nat} (hn : n < 16) (cause : Nat) :
    regGet (nibRefuse s n cause) (nibOff n 0x54) = (regGet s (nibOff n 0x54) &&& 0xF0FFFFFF) ||| put cause 24 ||| put 1 nfCfgErr := by
  unfold nibRefuse
  dsimp only
  rw [regGet_nibFlags_one hn, regGet_regSet_same]

theorem nibRefuse_nibs (s : State) (n cause : Nat) : (nibRefuse s n cause).nibs = s.nibs := nibFlags_nibs _ n _

-- fields

/-- A word put together from a high part and what lies below it. -/
theorem toNat_put_or {a b lo : Nat} (hb : b < 2 ^ lo) (h : a * 2 ^ lo + b < 2 ^ 32) :
    (put a lo ||| BitVec.ofNat 32 b).toNat = a * 2 ^ lo + b := by
  rw [put, BitVec.toNat_or, BitVec.toNat_ofNat, BitVec.toNat_ofNat, Nat.mod_eq_of_lt (by omega), Nat.mod_eq_of_lt (by omega),
    Nat.mul_comm, ← Nat.two_pow_add_eq_or_of_lt hb]

theorem fld_lt (w : Word) (hi lo : Nat) : fld w hi lo < 2 ^ (hi + 1 - lo) := Nat.mod_lt _ (by positivity)

end Sys2Proof.Machine
end

section
/-! SUPPORT. A Nib engine's requests and its coefficient window (R288, R304, R545). -/

namespace Sys2Proof.Machine

theorem hostWrite_of_ready {s : State} (t : State) (h : isReady s = true) : hostWrite s t = .next t :=
  hostWrite_of_phase_ne_bootFail t (by
    have hready : s.rst.phase = .ready := by simpa [isReady] using h
    simp [hready])

theorem armEngine_of_checked {s : State} {n : Nat} (hready : isReady s = true) (hst : (getNib s n).st = .config)
    (hcause : armCause s n = none) : armEngine s n = bankFlag (setNib s n ((getNib s n).arm s.pwr.safe)) n := by
  simp [armEngine, hready, hst, hcause]

theorem armEngine_of_cause {s : State} {n c : Nat} (hready : isReady s = true) (hst : (getNib s n).st = .config)
    (hcause : armCause s n = some c) : armEngine s n = nibRefuse s n c := by
  simp [armEngine, hready, hst, hcause]

theorem armEngine_before_ready {s : State} {n : Nat} (hready : isReady s = false) : armEngine s n = nibRefuse s n 8 := by
  simp [armEngine, hready]

theorem bankFlag_nibs (s : State) (n : Nat) : (bankFlag s n).nibs = s.nibs :=
  iteInduction (motive := fun t : State => t.nibs = s.nibs) (fun _ => nibFlags_nibs s n _) (fun _ => rfl)

theorem rearmEngine_of_safe {s : State} {n : Nat} (h : (getNib s n).st = .safe) :
    ∃ e, rearmEngine s n = setNib s n e ∧ e.st = .armed ∧ e.out = (getNib s n).out ∧ e.bank = (getNib s n).bank
      ∧ e.traj = (getNib s n).traj := by
  refine ⟨_, if_pos h, rfl, rfl, rfl, rfl⟩

theorem stopEngine_of_moving {s : State} {n : Nat}
    (h : (getNib s n).st = .run ∨ (getNib s n).st = .hold ∨ (getNib s n).st = .coast) :
    stopEngine s n = setNib s n { getNib s n with st := .ramp, stopAsked := true } := by
  obtain h | h | h := h <;> simp [stopEngine, h]

theorem stopEngine_of_ramp {s : State} {n : Nat} (h : (getNib s n).st = .ramp) :
    stopEngine s n = setNib s n { getNib s n with stopAsked := true } := by
  simp [stopEngine, h]

theorem stopEngine_of_rest {s : State} {n : Nat}
    (h : (getNib s n).st = .config ∨ (getNib s n).st = .armed ∨ (getNib s n).st = .safe) : stopEngine s n = nibRefuse s n 7 := by
  obtain h | h | h := h <;> simp [stopEngine, h]

theorem askSwap_of_bad {s : State} {n : Nat} (h : bankOk s n (getNib s n).idle = false) : askSwap s n = nibRefuse s n 5 := by
  simp [askSwap, h]

theorem askSwap_later {s : State} {n : Nat} (h : bankOk s n (getNib s n).idle = true)
    (hlater : (getNib s n).st ≠ .config ∨ nibCountNow s n < (regGet64 s (nibOff n 0x48)).toNat) :
    askSwap s n = setNib s n { getNib s n with swapAt := some (regGet64 s (nibOff n 0x48)).toNat } := by
  have hwait : ¬ ((getNib s n).st = .config ∧ (regGet64 s (nibOff n 0x48)).toNat ≤ nibCountNow s n) := by
    rintro ⟨hst, hcome⟩
    obtain hne | hlt := hlater
    · exact hne hst
    · omega
  simp only [askSwap, h, if_true, if_neg hwait]

theorem askSwap_at_once {s : State} {n : Nat} (h : bankOk s n (getNib s n).idle = true) (hst : (getNib s n).st = .config)
    (hcome : (regGet64 s (nibOff n 0x48)).toNat ≤ nibCountNow s n) :
    askSwap s n = setNib s n { getNib s n with bank := !(getNib s n).bank, swapAt := none } := by
  simp only [askSwap, h, if_true, if_pos (And.intro hst hcome)]

/-- Settles O41: each request of an engine has its effect in the states Table 11.4 gives it, and is refused with its cause elsewhere. -/
theorem engineRequests : Obligations.EngineRequests := by
  unfold Obligations.EngineRequests
  intro n s hphase
  have hwrite := fun (t u : State) (h : t = u) => (hostWrite_of_phase_ne_bootFail t hphase).trans (congrArg Host.Outcome.next h)
  refine ⟨fun hready hst hcause => ?arm, fun c hready hst hcause => hwrite _ _ (armEngine_of_cause hready hst hcause),
    fun hready => hwrite _ _ (armEngine_before_ready hready), fun hst => ?rearm, fun hst => hwrite _ _ (if_neg hst),
    fun hst => hwrite _ _ (stopEngine_of_moving hst), fun hst => hwrite _ _ (stopEngine_of_ramp hst),
    fun hst => hwrite _ _ (stopEngine_of_rest hst), fun hok hlater => hwrite _ _ (askSwap_later hok hlater),
    fun hok hst hcome => hwrite _ _ (askSwap_at_once hok hst hcome), fun hbad => hwrite _ _ (askSwap_of_bad hbad)⟩
  case arm =>
    refine ⟨_, hwrite _ _ (armEngine_of_checked hready hst hcause), ?_⟩
    rw [getNib_congr (bankFlag_nibs _ _), getNib_setNib_same]
  case rearm =>
    obtain ⟨e, hrearm, harmed, hout, hbank, htraj⟩ := rearmEngine_of_safe hst
    refine ⟨_, hwrite _ _ hrearm, ?_⟩
    rw [getNib_setNib_same]
    exact ⟨harmed, hout, hbank, htraj⟩

-- the coefficient window

/-- NIB_COEF_ADDR behind one access: WORD one further, REGION as it was (R545). -/
def nextCoefAddr (a : Word) : Word := put (fld a 14 13) 13 ||| BitVec.ofNat 32 ((fld a 12 0 + 1) % 8192)

theorem nextCoefAddr_fields (a : Word) :
    fld (nextCoefAddr a) 12 0 = (fld a 12 0 + 1) % 8192 ∧ fld (nextCoefAddr a) 14 13 = fld a 14 13 := by
  have hregion : fld a 14 13 < 4 := fld_lt a 14 13
  have hw : (fld a 12 0 + 1) % 8192 < 2 ^ 13 := Nat.mod_lt _ (by decide)
  have hword := toNat_put_or hw (by omega : fld a 14 13 * 2 ^ 13 + (fld a 12 0 + 1) % 8192 < 2 ^ 32)
  generalize hx : (fld a 12 0 + 1) % 8192 = x at *
  generalize hr : fld a 14 13 = r at *
  have hnext : (nextCoefAddr a).toNat = r * 2 ^ 13 + x := by rw [nextCoefAddr, hx, hr, hword]
  unfold fld
  rw [hnext]
  omega

/-- The state with NIB_COEF_ADDR moved past the access. -/
def coefNext (s : State) (n : Nat) : State := regSet s (nibOff n 0x80) (nextCoefAddr (regGet s (nibOff n 0x80)))

theorem regGet_coefNext (s : State) (n : Nat) : regGet (coefNext s n) (nibOff n 0x80) = nextCoefAddr (regGet s (nibOff n 0x80)) :=
  regGet_regSet_same ..

/-- A write past the region, or to the active bank, is refused (R304, R545). -/
def coefRefuses (s : State) (n : Nat) : Bool :=
  let a := regGet s (nibOff n 0x80)
  decide (coefRegion (fld a 14 13) ≤ fld a 12 0) || (decide (fld a 14 13 < 2) && (decide (fld a 14 13 = 1) == (getNib s n).bank))

/-- The engine with the word that NIB_COEF_ADDR points to written. -/
def coefWritten (s : State) (n : Nat) (v : Word) : Nib :=
  let e := getNib s n
  let a := regGet s (nibOff n 0x80)
  if fld a 14 13 = 0 then { e with coef0 := tblSet 0 e.coef0 (fld a 12 0) v }
  else if fld a 14 13 = 1 then { e with coef1 := tblSet 0 e.coef1 (fld a 12 0) v }
  else { e with preload := tblSet 0 e.preload (fld a 12 0) v }

theorem coefAccess_taken {s : State} {n : Nat} (v : Word) (h : coefRefuses s n = false) :
    coefAccess s n (some v) = setNib (coefNext s n) n (coefWritten s n v) := by
  have hfree : ¬ coefRefuses s n = true := by simp [h]
  refine (if_neg hfree).trans ?_
  unfold coefWritten
  dsimp only
  split_ifs
  · rfl
  · rfl
  · rfl

theorem coefAccess_refused {s : State} {n : Nat} (v : Word) (h : coefRefuses s n = true) :
    coefAccess s n (some v) = nibRefuse (coefNext s n) n 7 := if_pos h

/-- The status word of an engine behind a refusal with cause 7. -/
theorem cfgErr_of_refused (w : Word) :
    wbit ((w &&& 0xF0FFFFFF) ||| put 7 24 ||| put 1 nfCfgErr) nfCfgErr = true
      ∧ fld ((w &&& 0xF0FFFFFF) ||| put 7 24 ||| put 1 nfCfgErr) 27 24 = 7 := by
  have hput : put 1 nfCfgErr = 0x2000 := rfl
  have hcause : put 7 24 = 0x07000000 := rfl
  rw [hput, hcause]
  refine ⟨by simp [wbit, nfCfgErr], ?_⟩
  have hbits : ((w &&& 0xF0FFFFFF) ||| 0x07000000 ||| 0x2000).extractLsb' 24 4 = 7 := by
    ext i hi
    have : i = 0 ∨ i = 1 ∨ i = 2 ∨ i = 3 := by omega
    rcases this with rfl | rfl | rfl | rfl <;> simp [BitVec.getElem_extractLsb']
  have hnat := congrArg BitVec.toNat hbits
  rw [BitVec.extractLsb'_toNat, Nat.shiftRight_eq_div_pow] at hnat
  exact hnat

/-- Settles O43: an access moves NIB_COEF_ADDR on, and a write then reaches the word it pointed to or is refused. -/
theorem coefficientWindow : Obligations.CoefficientWindow := by
  unfold Obligations.CoefficientWindow
  intro n v s hphase
  dsimp only
  obtain ⟨hword, hregion⟩ := nextCoefAddr_fields (regGet s (nibOff n.val 0x80))
  have hwrite : ∀ t, coefAccess s n.val (some v) = t → execNibCoefDataAccess n (some v) s = .next t := fun t ht =>
    (hostWrite_of_phase_ne_bootFail _ hphase).trans (congrArg Host.Outcome.next ht)
  refine ⟨⟨coefNext s n.val, rfl, ?_, ?_, rfl⟩, fun hr hw hb => ?bank0, fun hr hw hb => ?bank1, fun hr hw => ?preload,
    fun hactive => ?active⟩
  · rw [regGet_coefNext, hword]
  · rw [regGet_coefNext, hregion]
  case bank0 =>
    refine ⟨_, hwrite _ (coefAccess_taken v (by simp [coefRefuses, hr, coefRegion, hw, hb])), ?_, ?_⟩
    · rw [regGet_congr (setNib_regs _ _ _), regGet_coefNext, hword]
    · rw [getNib_setNib_same, coefWritten, if_pos hr]
  case bank1 =>
    refine ⟨_, hwrite _ (coefAccess_taken v (by simp [coefRefuses, hr, coefRegion, hw, hb])), ?_⟩
    rw [getNib_setNib_same, coefWritten, if_neg (by simp [hr]), if_pos hr]
  case preload =>
    refine ⟨_, hwrite _ (coefAccess_taken v (by simp [coefRefuses, hr, coefRegion, hw])), ?_⟩
    rw [getNib_setNib_same, coefWritten, if_neg (by simp [hr]), if_neg (by simp [hr])]
  case active =>
    have hrefuse : coefRefuses s n.val = true := by
      obtain ⟨hr, hb⟩ | ⟨hr, hb⟩ := hactive <;> simp [coefRefuses, hr, hb]
    refine ⟨_, hwrite _ (coefAccess_refused v hrefuse), ?_, ?_⟩
    · rw [getNib_congr (nibRefuse_nibs _ _ _)]; rfl
    · rw [regGet_nibRefuse n.isLt]
      exact cfgErr_of_refused _

end Sys2Proof.Machine
end

section
/-! SUPPORT. What an operation leaves of the partitions: every partition but its own, and of its own what its work does not concern
(R316, R328, R329). -/

namespace Sys2Proof.Machine

/-- Every partition's `f` is the same. -/
def KeepsPartBy {α : Type} (f : Part → α) (s t : State) : Prop := ∀ q, f (getPart t q) = f (getPart s q)

/-- Every other partition is the same. -/
def OnlyPart (p : Nat) (s t : State) : Prop := ∀ q, q ≠ p → getPart t q = getPart s q

section
variable {α : Type} {f : Part → α}

theorem KeepsPartBy.refl (s : State) : KeepsPartBy f s s := fun _ => rfl

theorem KeepsPartBy.trans {s t u : State} (h : KeepsPartBy f s t) (g : KeepsPartBy f t u) : KeepsPartBy f s u :=
  fun q => (g q).trans (h q)

theorem KeepsPartBy.of_eq {s t : State} (h : t.parts = s.parts) : KeepsPartBy f s t := fun q => congrArg f (getPart_congr h q)

theorem KeepsPartBy.setPart {s : State} {p : Nat} {x : Part} (h : f x = f (getPart s p)) : KeepsPartBy f s (setPart s p x) := by
  intro q
  rw [getPart_setPart]
  split_ifs with hq
  · rw [h, hq]
  · rfl

theorem KeepsPartBy.fold {β : Type} {F : State → β → State} (l : List β) (s : State) (hF : ∀ t b, KeepsPartBy f t (F t b)) :
    KeepsPartBy f s (l.foldl F s) :=
  foldl_keeps KeepsPartBy.refl KeepsPartBy.trans l (fun t b _ => hF t b) s

end

theorem OnlyPart.refl (p : Nat) (s : State) : OnlyPart p s s := fun _ _ => rfl

theorem OnlyPart.trans {p : Nat} {s t u : State} (h : OnlyPart p s t) (g : OnlyPart p t u) : OnlyPart p s u :=
  fun q hq => (g q hq).trans (h q hq)

theorem OnlyPart.of_eq {s t : State} {p : Nat} (h : t.parts = s.parts) : OnlyPart p s t := fun q _ => getPart_congr h q

theorem OnlyPart.setPart (s : State) (p : Nat) (x : Part) : OnlyPart p s (setPart s p x) := fun q hq => by
  rw [getPart_setPart, if_neg (Ne.symm hq)]

/-- A fold over distinct numbers runs its step at one of them once: K is kept up to it and from it on. -/
theorem foldl_nodup_at {F : State → Nat → State} {K : State → State → Prop} (hrefl : ∀ t, K t t)
    (htrans : ∀ {t u v}, K t u → K u v → K t v) {l : List Nat} (hl : l.Nodup) {r : Nat} (hr : r ∈ l)
    (hkeep : ∀ t q, q ≠ r → K t (F t q)) (s : State) : ∃ t, K s t ∧ K (F t r) (l.foldl F s) := by
  obtain ⟨a, b, rfl⟩ := List.append_of_mem hr
  obtain ⟨-, hrb, hdis⟩ := List.nodup_append.1 hl
  obtain ⟨hb, -⟩ := List.nodup_cons.1 hrb
  have hfold : ∀ m : List Nat, (∀ q ∈ m, q ≠ r) → ∀ t, K t (m.foldl F t) := fun m hm =>
    foldl_keeps hrefl htrans m fun t q hq => hkeep t q (hm q hq)
  refine ⟨a.foldl F s, hfold a (fun q hq => hdis q hq r (by simp)) s, ?_⟩
  rw [List.foldl_append, List.foldl_cons]
  exact hfold b (fun q hq h => hb (h ▸ hq)) _

-- commands put back to wait

/-- A partition but for its commands and their postings. -/
def Part.sameButWork (x y : Part) : Prop := { y with entries := x.entries, postings := x.postings } = x

theorem Part.sameButWork_trans {x y z : Part} (h : x.sameButWork y) (g : y.sameButWork z) : x.sameButWork z := by
  unfold Part.sameButWork at *
  rw [← h, ← g]

/-- Only one partition changes, and of it only its commands and their postings. -/
structure OnlyWork (p : Nat) (s t : State) : Prop where
  other : OnlyPart p s t
  own : (getPart s p).sameButWork (getPart t p)

theorem OnlyWork.refl (p : Nat) (s : State) : OnlyWork p s s := ⟨.refl p s, rfl⟩

theorem OnlyWork.trans {p : Nat} {s t u : State} (h : OnlyWork p s t) (g : OnlyWork p t u) : OnlyWork p s u :=
  ⟨h.other.trans g.other, Part.sameButWork_trans h.own g.own⟩

theorem OnlyWork.of_eq {s t : State} {p : Nat} (h : t.parts = s.parts) : OnlyWork p s t :=
  ⟨.of_eq h, by rw [getPart_congr h]; rfl⟩

theorem OnlyWork.setPart {s : State} {p : Nat} {x : Part} (h : (getPart s p).sameButWork x) : OnlyWork p s (setPart s p x) :=
  ⟨.setPart s p x, by rwa [getPart_setPart_same]⟩

/-- What ignores commands and postings is kept. -/
theorem OnlyWork.keeps {α : Type} {f : Part → α} (hf : ∀ x es qs, f { x with entries := es, postings := qs } = f x) {p : Nat}
    {s t : State} (h : OnlyWork p s t) : KeepsPartBy f s t := by
  intro q
  by_cases hq : q = p
  · rw [hq, ← hf (getPart t p) (getPart s p).entries (getPart s p).postings, h.own]
  · rw [h.other q hq]

theorem dropPostings_onlyWork (s : State) (p : Nat) (k : CmdKey) : OnlyWork p s (dropPostings s p k) := by
  have hset : OnlyWork p s
      (setPart s p { getPart s p with postings := (getPart s p).postings.filter (fun q => q.key ≠ k) }) := .setPart rfl
  unfold dropPostings
  cases k with
  | entry j => exact hset
  | ring r => exact hset.trans (.of_eq rfl)

theorem setRun_onlyWork (s : State) (p j : Nat) (e : EntryRun) : OnlyWork p s (setRun s p j e) := .setPart rfl

theorem putCmd_onlyWork (s : State) (p : Nat) (k : CmdKey) (c : Cmd) : OnlyWork p s (putCmd s p k c) := by
  cases k with
  | entry j => exact setRun_onlyWork s p j _
  | ring r =>
    cases hb : getBe s r with
    | none => rw [show putCmd s p (.ring r) c = s by simp [putCmd, hb]]; exact .refl p s
    | some b => rw [show putCmd s p (.ring r) c = setBe s r (some { b with cmd := c }) by simp [putCmd, hb]]; exact .of_eq rfl

theorem toRerun_onlyWork (s : State) (p : Nat) (k : CmdKey) (hold : Bool) : OnlyWork p s (toRerun s p k hold) := by
  have hdrop := dropPostings_onlyWork s p k
  unfold toRerun
  dsimp only
  split
  next c _ =>
    have hput := hdrop.trans (putCmd_onlyWork _ p k (c.killed hold))
    split
    · split
      · exact hput.trans (.of_eq rfl)
      · exact hput
    · exact hput
  next => exact hdrop

theorem killChecks_onlyWork (s : State) (p : Nat) (hold : Bool) : OnlyWork p s (killChecks s p hold) := by
  refine foldl_keeps (OnlyWork.refl p) OnlyWork.trans _ (fun t e _ => ?_) s
  split
  · exact iteInduction (fun _ => toRerun_onlyWork t p _ hold) (fun _ => .refl p t)
  · exact .refl p t

theorem holdChecks_onlyWork (s : State) (p : Nat) : OnlyWork p s (holdChecks s p) := by
  refine OnlyWork.trans (foldl_keeps (OnlyWork.refl p) OnlyWork.trans _ (fun t j _ => ?_) s) (killChecks_onlyWork _ p true)
  split
  · exact iteInduction (fun _ => toRerun_onlyWork t p _ true) (fun _ => .refl p t)
  · exact .refl p t

/-- A kill changes one partition. -/
theorem beginKill_onlyPart (s : State) (p : Nat) (cause : KillCause) (rerun : Bool) (pause : List (Nat × Nat)) :
    OnlyPart p s (beginKill s p cause rerun pause) := by
  unfold beginKill
  dsimp only
  split
  next k _ _ =>
    have hkilling : OnlyPart p s (killing s p k cause rerun pause) :=
      (OnlyPart.of_eq (modTiles_parts s p Tile.halt)).trans (.setPart _ p _)
    exact iteInduction (motive := OnlyPart p s) (fun _ => hkilling.trans (toRerun_onlyWork _ p k _).other)
      (fun _ => hkilling.trans (dropPostings_onlyWork _ p k).other)
  · exact .setPart s p _
  · exact .refl p s

/-- A kill of what holds the tiles is under way. -/
theorem kill_beginKill_of_free {s : State} {p : Nat} {k : CmdKey} (hkill : (getPart s p).kill = none)
    (hholder : (getPart s p).holder = some k) (cause : KillCause) (pause : List (Nat × Nat)) :
    (getPart (beginKill s p cause true pause) p).kill = some ⟨k, cause, true, pause⟩ := by
  rw [beginKill_of_free hkill hholder, if_pos rfl,
    (toRerun_onlyWork (killing s p k cause true pause) p k (decide (cause = .hold))).keeps (f := Part.kill) (fun _ _ _ => rfl) p,
    getPart_killing]

/-- What a kill does not concern is kept. -/
theorem beginKill_keeps {α : Type} {f : Part → α}
    (hf : ∀ x es qs k n, f { x with entries := es, postings := qs, kill := k, tilesFree := n } = f x) (s : State) (p : Nat)
    (cause : KillCause) (rerun : Bool) (pause : List (Nat × Nat)) : KeepsPartBy f s (beginKill s p cause rerun pause) := by
  have hwork : ∀ x es qs, f { x with entries := es, postings := qs } = f x := fun x es qs => hf x es qs x.kill x.tilesFree
  unfold beginKill
  dsimp only
  split
  next k _ _ =>
    have hkilling : KeepsPartBy f s (killing s p k cause rerun pause) :=
      (KeepsPartBy.of_eq (modTiles_parts s p Tile.halt)).trans (.setPart (hf _ _ _ _ _))
    exact iteInduction (motive := KeepsPartBy f s) (fun _ => hkilling.trans ((toRerun_onlyWork _ p k _).keeps hwork))
      (fun _ => hkilling.trans ((dropPostings_onlyWork _ p k).keeps hwork))
  · exact .setPart (hf _ _ _ _ _)
  · exact .refl s

end Sys2Proof.Machine
end

section
/-! SUPPORT. Hold (R339, R340, R466) and the enable request (R316, R465). -/

namespace Sys2Proof.Machine

/-- One partition's turn in HOLD_ENTRY. -/
def holdPart (s : State) (p : Nat) : State :=
  if !(getPart s p).on then s
  else
    let t := holdChecks (beginKill s p .hold true []) p
    setPart t p { getPart t p with holdSkips := 0 }

theorem holdPart_onlyPart (s : State) (p : Nat) : OnlyPart p s (holdPart s p) :=
  iteInduction (fun _ => .refl p s) (fun _ =>
    ((beginKill_onlyPart s p .hold true []).trans (holdChecks_onlyWork _ p).other).trans (.setPart _ p _))

theorem kill_clearSkips (t : State) (p : Nat) :
    (getPart (setPart t p { getPart t p with holdSkips := 0 }) p).kill = (getPart t p).kill := by
  rw [getPart_setPart_same]

theorem kill_holdPart {s : State} {p : Nat} {k : CmdKey} (hon : (getPart s p).on = true) (hholder : (getPart s p).holder = some k)
    (hkill : (getPart s p).kill = none) : (getPart (holdPart s p) p).kill = some ⟨k, .hold, true, []⟩ := by
  have hturn : ¬ (!(getPart s p).on) = true := by simp [hon]
  unfold holdPart
  rw [if_neg hturn]
  refine (kill_clearSkips _ p).trans ?_
  exact ((holdChecks_onlyWork _ p).keeps (f := Part.kill) (fun _ _ _ => rfl) p).trans (kill_beginKill_of_free hkill hholder .hold [])

/-- The state in which the partitions enter Hold. -/
def holding (s : State) : State := { s with rst := { s.rst with hold := some (lc s) } }

theorem holdEntry_of_warning {s : State} (hready : isReady s = true) (hwarn : s.rst.vddkWarn = true) (hhold : s.rst.hold = none) :
    ∃ t, execHoldEntry s = .next t ∧ Touch [.tiles, .pwr, .blt] ((upTo 16).foldl holdPart (holding s)) t := by
  have hfree : ¬ (!(isReady s && s.rst.vddkWarn) || inHold s) = true := by simp [hready, hwarn, inHold, hhold]
  have hrun : execHoldEntry s = .next
      (if wbit (regGet (gateQuads ((upTo 16).foldl holdPart (holding s))) (bltOff 0x30)) 0 then
        bltTrigger (gateQuads ((upTo 16).foldl holdPart (holding s))) 4
      else gateQuads ((upTo 16).foldl holdPart (holding s))) := if_neg hfree
  refine ⟨_, hrun, ?_⟩
  have hgate : Touch [.tiles, .pwr, .blt] ((upTo 16).foldl holdPart (holding s)) (gateQuads ((upTo 16).foldl holdPart (holding s))) :=
    gateQuads_touch rfl (Touch.refl _ _)
  exact iteInduction (motive := Touch [.tiles, .pwr, .blt] ((upTo 16).foldl holdPart (holding s)))
    (fun _ => bltTrigger_touch 4 rfl hgate) (fun _ => hgate)

theorem holdParts_rst (s : State) : ((upTo 16).foldl holdPart s).rst = s.rst :=
  have h : Touch [.parts, .tiles, .be, .assay] s ((upTo 16).foldl holdPart s) :=
    Touch.fold _ (Touch.refl _ _) fun t p ht => by
      refine Touch.ite ht (Touch.updParts rfl ?_)
      exact holdChecks_touch p rfl (beginKill_touch p .hold true [] rfl ht)
  h.keeps .rst rfl

theorem holdExit_of_supply {s : State} (hhold : s.rst.hold.isSome = true) (hwarn : s.rst.vddkWarn = false) :
    ∃ t, execHoldExit s = .next t ∧ t.rst = { s.rst with hold := none } := by
  obtain ⟨e, he⟩ := Option.isSome_iff_exists.1 hhold
  unfold execHoldExit
  simp only [he, hwarn, Bool.false_eq_true, if_false]
  refine ⟨_, rfl, ?_⟩
  refine (foldl_keeps (K := fun t u : State => u.rst = t.rst) (fun _ => rfl) (fun h g => g.trans h) _ (fun t p _ => ?_) _)
  refine iteInduction (motive := fun u : State => u.rst = t.rst) (fun _ => rfl) (fun _ => ?_)
  exact (same_of_law .rst (rerunAll_touch p) rfl).trans (same_of_law .rst (raiseEvent_touch _ _ _ _ _ _ _) rfl)

/-- Settles O38: each partition enters Hold in its own turn, which no other's touches. -/
theorem holdKillsForTheRerun : Obligations.HoldKillsForTheRerun := by
  unfold Obligations.HoldKillsForTheRerun
  intro s
  refine ⟨fun hready hwarn hhold => ?entry, holdExit_of_supply, fun hwarn => ?stays, ⟨_, rfl, rfl⟩, rfl, fun hwarn => ?pause⟩
  case entry =>
    obtain ⟨t, hrun, htouch⟩ := holdEntry_of_warning hready hwarn hhold
    refine ⟨t, hrun, by rw [htouch.keeps .rst rfl, holdParts_rst]; rfl, fun p hp k hon hholder hkill => ?_⟩
    obtain ⟨u, hbefore, hafter⟩ := foldl_upTo_at (F := holdPart) (K := fun t u => getPart u p = getPart t p) (fun _ => rfl)
      (fun h g => g.trans h) hp (fun t q _ hq => holdPart_onlyPart t q p (Ne.symm hq)) (holding s)
    have hsame : getPart u p = getPart s p := hbefore
    rw [getPart_congr (htouch.keeps .parts rfl), hafter]
    exact kill_holdPart (by rw [hsame]; exact hon) (by rw [hsame]; exact hholder) (by rw [hsame]; exact hkill)
  case stays =>
    show execHoldExit s = .next s
    unfold execHoldExit
    simp only [hwarn, if_true]
    split <;> rfl
  case pause =>
    show execBootPauseEnd s = _
    exact if_neg (by simp [hwarn])

-- the enable request

/-- The sides a partition takes, and the Reservoir banks in Run for them. -/
def seating (s : State) (p : Nat) (q : PartParams) : State :=
  runBanks { s with mem := { s.mem with
    sides := (assignSides (dropSides s.mem.sides p) p q.share).getD s.mem.sides, enabledOnce := true } }

theorem seating_parts (s : State) (p : Nat) (q : PartParams) : (seating s p q).parts = s.parts := by
  unfold seating
  rw [same_of_law .parts runBanks_touch rfl]

/-- The base of the lane group a partition takes. -/
def seatBase (s : State) (p : Nat) (q : PartParams) : Nat := (laneBase s p q.laneCount).getD (fld (getPart s p).pars.lanes 3 0)

theorem seat_eq (s : State) (p : Nat) (q : PartParams) : seat s p q = setPart (seating s p q) p { getPart (seating s p q) p with
    pars := { q with lanes := lanesWord q.laneCount (seatBase s p q) }, pendingPars := false } := rfl

/-- The parameters a seat gives a partition: those asked for with its lane group's base. -/
theorem getPart_seat (s : State) (p : Nat) (q : PartParams) :
    ∃ base, getPart (seat s p q) p =
      { getPart s p with pars := { q with lanes := lanesWord q.laneCount base }, pendingPars := false } :=
  ⟨seatBase s p q, by rw [seat_eq, getPart_setPart_same, getPart_congr (seating_parts s p q)]⟩

theorem seat_onlyPart (s : State) (p : Nat) (q : PartParams) : OnlyPart p s (seat s p q) :=
  seat_eq s p q ▸ (OnlyPart.of_eq (seating_parts s p q)).trans (.setPart _ p _)

@[simp] theorem freshTiles_parts (s : State) (p : Nat) : (freshTiles s p).parts = s.parts := modTiles_parts s p _

theorem getTile_freshTiles {s : State} {p n : Nat} (h : n ∈ (getPart s p).pars.tiles) : getTile (freshTiles s p) n = Tile.reset := by
  unfold freshTiles
  rw [getTile_modTiles, if_pos h]

/-- The partition as ENABLE turns it on. -/
def enabled (x : Part) (base : Nat) (q : PartParams) : Part :=
  { x with
    pars := { q with lanes := lanesWord q.laneCount base }, pendingPars := false
    on := true, cycle := 0, agedLeft := 0, agedOver := 0, rrLast := 0, returned := false, holdSkips := 0, msAvail := 0, msUsed := 0 }

section
variable {p : PartId} {s : State} (hready : isReady s = true) (hheld : s.rst.partHeld.getLsbD p.val = false)
  (hrst : s.rst.partRst.getLsbD p.val = false) (hshape : (getPart s p.val).reshaping = false) (hoff : (getPart s p.val).on = false)
include hready hheld hrst hshape hoff

theorem enablePart_of_cause {c : Nat} (h : paramCause s p.val (regParams s p.val) = some c) :
    enablePart s p.val = recordErr s (fabErr p.val) c := by
  simp only [enablePart, hready, hheld, hrst, ctlBusy, hshape, hoff, h, Bool.not_true, Bool.or_self, Bool.false_eq_true, if_false]

theorem enablePart_of_checked (h : paramCause s p.val (regParams s p.val) = none) :
    ∃ u base, enablePart s p.val = freshTiles u p.val ∧ getPart u p.val = enabled (getPart s p.val) base (regParams s p.val)
      ∧ OnlyPart p.val s u := by
  obtain ⟨base, hseat⟩ := getPart_seat s p.val (regParams s p.val)
  refine ⟨_, base, by simp only [enablePart, hready, hheld, hrst, ctlBusy, hshape, hoff, h, Bool.not_true, Bool.or_self,
    Bool.false_eq_true, if_false]; rfl, ?_, ?_⟩
  · rw [getPart_setPart_same, getPart_congr (regSet_parts _ _ _), hseat]
    rfl
  · exact ((seat_onlyPart s p.val _).trans (OnlyPart.of_eq (regSet_parts _ _ _))).trans (.setPart _ _ _)

end

/-- Settles O35: the request is refused with the first failing check, or seats the partition with its registers' parameters. -/
theorem enableRunsTheChecks : Obligations.EnableRunsTheChecks := by
  unfold Obligations.EnableRunsTheChecks
  intro p s hready hheld hrst hshape hoff
  refine ⟨fun c hcause => ?refused, fun hcause => ?on⟩
  case refused =>
    exact (hostWrite_of_ready _ hready).trans (congrArg _ (enablePart_of_cause hready hheld hrst hshape hoff hcause))
  case on =>
    obtain ⟨u, base, hrun, hpart, honly⟩ := enablePart_of_checked hready hheld hrst hshape hoff hcause
    have hsame : ∀ q, getPart (freshTiles u p.val) q = getPart u q := getPart_congr (freshTiles_parts u p.val)
    refine ⟨_, (hostWrite_of_ready _ hready).trans (congrArg _ hrun), ?_, ?_, ?_, ?_, fun n hn => ?_, fun q _ hq => ?_⟩
    · rw [hsame, hpart]; rfl
    · rw [hsame, hpart]; rfl
    · rw [hsame, hpart]; rfl
    · rw [hsame, hpart]; rfl
    · rw [hsame] at hn
      exact getTile_freshTiles hn
    · rw [hsame, honly q hq]

end Sys2Proof.Machine
end

section
/-! SUPPORT. Re-shapes (R328, R334, R335, R525, R540): the requests, the start in every affected partition, and the end in which each is
seated in its own turn. -/

namespace Sys2Proof.Machine

-- the requests

/-- A request on FAB_PART_CTL: before BOOT_FAIL it has its effect. -/
theorem disablePart_of_free {s : State} {p : Nat} (hon : (getPart s p).on = true) (hshape : (getPart s p).reshaping = false)
    (hfree : disableBusy s p = false) : disablePart s p = unseat s p := by
  simp only [disablePart, ctlBusy, hshape, hon, hfree, Bool.not_true, Bool.false_eq_true, if_false]

theorem disablePart_of_reshaping {s : State} {p : Nat} (h : (getPart s p).reshaping = true) :
    disablePart s p = recordErr s (fabErr p) 12 := if_pos h

theorem askReshape_of_reshaping {s : State} {p : Nat} (h : (getPart s p).reshaping = true) :
    askReshape s p = recordErr s (fabErr p) 12 := if_pos h

theorem askReshape_of_fits {s : State} {p : Nat} (hon : (getPart s p).on = true) (hshape : (getPart s p).reshaping = false)
    (hfits : reshapeRefused s p (regParams s p) = false) :
    askReshape s p = setPart s p { getPart s p with reshapeAsked := true } := by
  simp only [askReshape, ctlBusy, hshape, hon, hfits, Bool.not_true, Bool.or_self, Bool.false_eq_true, if_false]

theorem askReshape_of_refused {s : State} {p : Nat} (hshape : (getPart s p).reshaping = false)
    (h : reshapeRefused s p (regParams s p) = true) : askReshape s p = recordErr s (fabErr p) 10 := by
  simp only [askReshape, ctlBusy, hshape, h, Bool.or_true, Bool.false_eq_true, if_false, if_true]

theorem unseat_parts (s : State) (p : Nat) :
    getPart (unseat s p) p = Part.reset ∧ (unseat s p).mem.sides = dropSides s.mem.sides p ∧ OnlyPart p s (unseat s p) := by
  have hset : (unseat s p).parts = (setPart (freshTiles s p) p Part.reset).parts := rfl
  refine ⟨by rw [getPart_congr hset, getPart_setPart_same], ?_, fun q hq => ?_⟩
  · exact congrArg (fun m => dropSides m.sides p) (same_of_law .mem (freshTiles_touch p) rfl : (freshTiles s p).mem = s.mem)
  · rw [getPart_congr hset, getPart_setPart, if_neg (Ne.symm hq), getPart_congr (freshTiles_parts s p)]

theorem partitionRequests : PartitionRequests := by
  intro p s hphase hon
  have hwrite := fun (t u : State) (h : t = u) => (hostWrite_of_phase_ne_bootFail t hphase).trans (congrArg Host.Outcome.next h)
  refine ⟨fun hshape hfree => ?_, fun hshape hfits => hwrite _ _ (askReshape_of_fits hon hshape hfits),
    fun hshape hrefused => hwrite _ _ (askReshape_of_refused hshape hrefused),
    fun hshape => ⟨hwrite _ _ (disablePart_of_reshaping hshape), hwrite _ _ (askReshape_of_reshaping hshape)⟩⟩
  obtain ⟨hpart, hsides, hothers⟩ := unseat_parts s p.val
  exact ⟨_, hwrite _ _ (disablePart_of_free hon hshape hfree), hpart, hsides, hothers⟩

-- checks that a re-shape abandons (R328)

/-- Every best-effort command in VERIFY was in VERIFY before, unchanged. -/
def NoNewChecks (s t : State) : Prop := ∀ r b, getBe t r = some b → b.cmd.st = .verify → getBe s r = some b

theorem NoNewChecks.refl (s : State) : NoNewChecks s s := fun _ _ h _ => h

theorem NoNewChecks.trans {s t u : State} (h : NoNewChecks s t) (g : NoNewChecks t u) : NoNewChecks s u :=
  fun r b hb hst => h r b (g r b hb hst) hst

theorem NoNewChecks.of_eq {s t : State} (h : t.be = s.be) : NoNewChecks s t := fun r _ hb _ => (getBe_congr h r).symm.trans hb

theorem noNewChecks_toRerun (s : State) (p : Nat) (k : CmdKey) (hold : Bool) : NoNewChecks s (toRerun s p k hold) := by
  cases k with
  | entry j =>
    refine .of_eq ?_
    unfold toRerun
    dsimp only
    split
    · exact dropPostings_be s p _
    · exact dropPostings_be s p _
  | ring r =>
    cases hr : getBe s r with
    | none =>
      rw [toRerun_ring_none hr]
      exact .of_eq (dropPostings_be s p _)
    | some d =>
      intro q b hb hst
      rw [toRerun_ring hr, getBe_setBe] at hb
      split_ifs at hb with hq
      · obtain rfl : d.rerun hold = b := by simpa using hb
        simp [BeCmd.rerun, BeCmd.killed, Cmd.killed] at hst
      · rwa [getBe_setBe, if_neg hq, getBe_congr (dropPostings_be s p _)] at hb

/-- One command's turn as a partition's checks are abandoned. -/
def killCheck (p : Nat) (hold : Bool) (t : State) (r : Nat) : State :=
  match getBe t r with
  | some b => if b.part = p ∧ b.cmd.st = .verify then toRerun t p (.ring r) hold else t
  | none => t

theorem killChecks_eq (s : State) (p : Nat) (hold : Bool) :
    killChecks s p hold = s.be.foldl (fun t e => killCheck p hold t e.1) s := rfl

theorem noNewChecks_killCheck (p : Nat) (hold : Bool) (t : State) (r : Nat) : NoNewChecks t (killCheck p hold t r) := by
  unfold killCheck
  split
  · exact iteInduction (fun _ => noNewChecks_toRerun t p _ hold) (fun _ => .refl t)
  · exact .refl t

/-- After its turn a command of the partition is in no check. -/
theorem killCheck_clears (p : Nat) (hold : Bool) (t : State) (r : Nat) {b : BeCmd} (hb : getBe (killCheck p hold t r) r = some b)
    (hp : b.part = p) : b.cmd.st ≠ .verify := by
  intro hst
  have hbefore := noNewChecks_killCheck p hold t r r b hb hst
  unfold killCheck at hb
  rw [hbefore] at hb
  dsimp only at hb
  rw [if_pos ⟨hp, hst⟩, getBe_toRerun hbefore] at hb
  have hrerun : (b.rerun hold).cmd.st = .verify := (congrArg (fun d => d.cmd.st) (Option.some.inj hb)).trans hst
  simp [BeCmd.rerun, BeCmd.killed, Cmd.killed] at hrerun

theorem noNewChecks_killChecks (s : State) (p : Nat) (hold : Bool) : NoNewChecks s (killChecks s p hold) :=
  foldl_keeps NoNewChecks.refl NoNewChecks.trans _ (fun t e _ => noNewChecks_killCheck p hold t e.1) s

theorem mem_of_tblFind {α : Type} {t : Tbl α} {k : Nat} {v : α} (h : tblFind t k = some v) : (k, v) ∈ t := by
  induction t with
  | nil => simp [tblFind] at h
  | cons e t ih =>
    obtain ⟨a, x⟩ := e
    rw [tblFind] at h
    split_ifs at h with hak
    · simp [hak, Option.some.inj h]
    · exact List.mem_cons_of_mem _ (ih h)

/-- A best-effort command stands in the table. -/
theorem mem_be_of_getBe {s : State} {r : Nat} {b : BeCmd} (h : getBe s r = some b) : ∃ e ∈ s.be, e.1 = r := by
  unfold getBe tblGet at h
  cases hf : tblFind s.be r with
  | none => rw [hf] at h; cases h
  | some v => exact ⟨(r, v), mem_of_tblFind hf, rfl⟩

/-- No command of the partition stays in a check. -/
theorem killChecks_clears (s : State) (p : Nat) (hold : Bool) {r : Nat} {b : BeCmd} (hb : getBe (killChecks s p hold) r = some b)
    (hp : b.part = p) : b.cmd.st ≠ .verify := by
  intro hst
  obtain ⟨e, he, rfl⟩ := mem_be_of_getBe (noNewChecks_killChecks s p hold r b hb hst)
  obtain ⟨l, m, hlm⟩ := List.append_of_mem he
  rw [killChecks_eq, hlm, List.foldl_append, List.foldl_cons] at hb
  have hturn := foldl_keeps NoNewChecks.refl NoNewChecks.trans m (fun t e _ => noNewChecks_killCheck p hold t e.1) _ e.1 b hb hst
  exact killCheck_clears p hold _ e.1 hturn hp hst

theorem noNewChecks_beginKill (s : State) (p : Nat) (cause : KillCause) (rerun : Bool) (pause : List (Nat × Nat)) :
    NoNewChecks s (beginKill s p cause rerun pause) := by
  unfold beginKill
  dsimp only
  split
  next k _ _ =>
    have hkilling : NoNewChecks s (killing s p k cause rerun pause) := .of_eq (killing_be s p k cause rerun pause)
    exact iteInduction (motive := NoNewChecks s) (fun _ => hkilling.trans (noNewChecks_toRerun _ p k _))
      (fun _ => hkilling.trans (.of_eq (dropPostings_be _ p k)))
  · exact .of_eq rfl
  · exact .refl s

-- the start

/-- One affected partition's turn in RESHAPE_START. -/
def startReshape (s : State) (p : Nat) : State :=
  let t := killChecks (match (getPart s p).holder with
    | some (.ring _) => beginKill s p .reshape true []
    | _ => s) p false
  setPart t p { getPart t p with reshaping := true, applyPars := (getPart t p).reshapeAsked, reshapeAsked := false }

/-- The turn's kills: of the best-effort command on the tiles, and of the checks. -/
theorem startReshape_eq (s : State) (p : Nat) : ∃ t, startReshape s p =
      setPart t p { getPart t p with reshaping := true, applyPars := (getPart t p).reshapeAsked, reshapeAsked := false }
    ∧ OnlyPart p s t ∧ (getPart t p).reshapeAsked = (getPart s p).reshapeAsked ∧ NoNewChecks s t
    ∧ ∀ r b, getBe t r = some b → b.part = p → b.cmd.st ≠ .verify := by
  unfold startReshape
  dsimp only
  generalize hu : (match (getPart s p).holder with
    | some (.ring _) => beginKill s p .reshape true []
    | _ => s) = u
  have hkill : OnlyPart p s u ∧ (getPart u p).reshapeAsked = (getPart s p).reshapeAsked ∧ NoNewChecks s u := by
    subst hu
    split
    · exact ⟨beginKill_onlyPart s p _ _ _, beginKill_keeps (f := Part.reshapeAsked) (fun _ _ _ _ _ => rfl) s p _ _ _ p,
        noNewChecks_beginKill s p _ _ _⟩
    · exact ⟨.refl p s, rfl, .refl s⟩
  obtain ⟨honly, hasked, hchecks⟩ := hkill
  have hwork := killChecks_onlyWork u p false
  refine ⟨_, rfl, honly.trans hwork.other, ?_, hchecks.trans (noNewChecks_killChecks u p false),
    fun r b hb hp => killChecks_clears u p false hb hp⟩
  exact (hwork.keeps (f := Part.reshapeAsked) (fun _ _ _ => rfl) p).trans hasked

/-- What another partition's turn leaves of a partition. -/
def KeepsShape (p : Nat) (s t : State) : Prop := getPart t p = getPart s p ∧ NoNewChecks s t

theorem startReshape_other {p q : Nat} (h : q ≠ p) (s : State) : KeepsShape p s (startReshape s q) := by
  obtain ⟨t, hrun, honly, -, hchecks, -⟩ := startReshape_eq s q
  rw [hrun]
  exact ⟨(OnlyPart.setPart t q _ p (Ne.symm h)).trans (honly p (Ne.symm h)), hchecks.trans (.of_eq rfl)⟩

/-- The partitions a re-shape starts in. -/
def reshapeParts (s : State) : List Nat := (upTo 16).filter (fun p => (affectedParts s).getLsbD p && (getPart s p).on)

theorem mem_reshapeParts {s : State} {p : Nat} :
    p ∈ reshapeParts s ↔ p < 16 ∧ (affectedParts s).getLsbD p = true ∧ (getPart s p).on = true := by
  simp [reshapeParts, upTo]

/-- The state in which the turns start: the spares that come in are taken, the requests of AUTO counted (R525). -/
def reshapeTaken (s : State) : State :=
  let m := affectedParts s
  let take := fun (u : FailedUnit) => needsReshape u && decide ((u.now s).parts &&& m = (u.now s).parts)
  { s with anl := { s.anl with
    pending := s.anl.pending.filter (fun u => !take u), bringing := s.anl.bringing ++ s.anl.pending.filter take, goAsked := false
    reshapes := if decide (askedParts s = 0) && !s.anl.goAsked then within s.anl.reshapes s.lt ticksHour else s.anl.reshapes } }

theorem execReshapeStart_eq (s : State) : execReshapeStart s =
    if !isReady s || inHold s || decide (reshapeParts s = [])
      || (reshapeParts s).any fun p => lcBusy s p || (getPart s p).reshaping then .next s
    else .next ((reshapeParts s).foldl startReshape (reshapeTaken s)) := rfl

theorem reshapeStart_of_idle {s : State} (hready : isReady s = true) (hhold : inHold s = false) (hsome : reshapeParts s ≠ [])
    (hidle : ∀ p ∈ reshapeParts s, lcBusy s p = false ∧ (getPart s p).reshaping = false) :
    execReshapeStart s = .next ((reshapeParts s).foldl startReshape (reshapeTaken s)) := by
  have hnone : ((reshapeParts s).any fun p => lcBusy s p || (getPart s p).reshaping) = false := by
    simp only [List.any_eq_false, Bool.or_eq_true, not_or, Bool.not_eq_true]
    exact hidle
  rw [execReshapeStart_eq, if_neg]
  simp [hready, hhold, hsome, hnone]

/-- Each affected partition's turn comes once. -/
theorem reshapeStart_part {s : State} {p : Nat} (hp : p ∈ reshapeParts s) :
    let t := (reshapeParts s).foldl startReshape (reshapeTaken s)
    (getPart t p).reshaping = true ∧ (getPart t p).reshapeAsked = false ∧ (getPart t p).applyPars = (getPart s p).reshapeAsked
      ∧ ∀ r b, getBe t r = some b → b.part = p → b.cmd.st ≠ .verify := by
  obtain ⟨u, ⟨hbefore, -⟩, hafter, hchecks⟩ := foldl_nodup_at (F := startReshape) (K := KeepsShape p) (fun t => ⟨rfl, .refl t⟩)
    (fun h g => ⟨g.1.trans h.1, h.2.trans g.2⟩) (List.nodup_range.filter _) hp (fun t q hq => startReshape_other hq t) (reshapeTaken s)
  obtain ⟨v, hrun, -, hasked, -, hclear⟩ := startReshape_eq u p
  rw [hrun, getPart_setPart_same] at hafter
  have hasked : (getPart v p).reshapeAsked = (getPart s p).reshapeAsked := hasked.trans (congrArg Part.reshapeAsked hbefore)
  refine ⟨?_, ?_, ?_, fun r b hb hpart hst => ?_⟩
  · exact congrArg Part.reshaping hafter
  · exact congrArg Part.reshapeAsked hafter
  · exact (congrArg Part.applyPars hafter).trans hasked
  · have hturn := hchecks r b hb hst
    rw [hrun] at hturn
    exact hclear r b hturn hpart hst

-- the end

/-- What the end of a re-shape decides of a partition. -/
def Part.seating (x : Part) : Bool × Bool × Bool × Bool × Bool × PartParams :=
  (x.on, x.reshaping, x.reshapeAsked, x.applyPars, x.pendingPars, x.pars)

theorem staleTargets_seating (s : State) (im : Image) : KeepsPartBy Part.seating s (staleTargets s im) := by
  refine KeepsPartBy.fold _ s fun t e => ?_
  split
  · exact iteInduction (fun _ => .setPart rfl) (fun _ => .refl t)
  · exact .refl t

theorem staleOf_seating (s : State) (p k : Nat) : KeepsPartBy Part.seating s (staleOf s p k) := by
  unfold staleOf
  split
  · exact staleTargets_seating s _
  · exact .refl s

theorem endMember_seating (s : State) (p : Nat) (c : Cmd) (m : Member) (ctx status cause : Nat) :
    KeepsPartBy Part.seating s (endMember s p c m ctx status cause) :=
  (KeepsPartBy.of_eq (same_of_law .parts (writeLaunch_touch _) rfl)).trans (staleOf_seating _ p _)

theorem leaveFabric_seating (s : State) (p : Nat) (k : CmdKey) : KeepsPartBy Part.seating s (leaveFabric s p k) :=
  iteInduction (fun _ => .setPart rfl) (fun _ => .refl s)

/-- A command on the tiles is stopped, or its postings are dropped. -/
theorem stopCommand_seating (s : State) (p : Nat) (k : CmdKey) (cause : KillCause) (rerun : Bool) :
    KeepsPartBy Part.seating s
      (if (getPart s p).holder = some k then beginKill s p cause rerun [] else dropPostings s p k) :=
  iteInduction (fun _ => beginKill_keeps (fun _ _ _ _ _ => rfl) s p cause rerun [])
    (fun _ => (dropPostings_onlyWork s p k).keeps fun _ _ _ => rfl)

theorem failLaunchesOf_seating (s : State) (p k : Nat) : KeepsPartBy Part.seating s (failLaunchesOf s p k) := by
  refine KeepsPartBy.fold _ s fun t j => ?_
  split
  next c _ =>
    refine iteInduction (fun _ => .refl t) (fun _ => ?_)
    have hmembers := fun u : State => KeepsPartBy.fold (f := Part.seating) (F := fun u m => match (getPart u p).inst? m.inst with
        | some i => endMember u p c m i.ctx stImage 0xC
        | none => u) c.members u fun u m => by
      split
      · exact endMember_seating u p c m _ _ _
      · exact .refl u
    have hset := fun u : State => (setRun_onlyWork u p j { getRun u p j with cmd := none, rels := [], traj := none }).keeps
      (f := Part.seating) fun _ _ _ => rfl
    exact (((stopCommand_seating t p (.entry j) .reload false).trans (hmembers _)).trans (hset _)).trans (leaveFabric_seating _ p _)
  next => exact .refl t

theorem freeReleased_seating (s : State) (p : Nat) : KeepsPartBy Part.seating s (freeReleased s p) := .setPart rfl

theorem finishItem_seating (s : State) (c r status cause : Nat) : KeepsPartBy Part.seating s (finishItem s c r status cause) :=
  .of_eq (completeItem_parts s c r status cause 0 0 [] 0)

theorem dropBe_seating (s : State) (r status cause : Nat) : KeepsPartBy Part.seating s (dropBe s r status cause) := by
  unfold dropBe
  split
  · exact .refl s
  next b _ =>
    have hgone := fun (t : State) (m : MemSys) => KeepsPartBy.of_eq (f := Part.seating) (s := t)
      (t := setBe { t with mem := m } r none) rfl
    exact (((staleOf_seating s b.part b.slot).trans (hgone _ _)).trans (finishItem_seating _ _ _ _ _)).trans
      (freeReleased_seating _ b.part)

theorem failRingsOf_seating (s : State) (p k : Nat) : KeepsPartBy Part.seating s (failRingsOf s p k) := by
  refine KeepsPartBy.fold _ s fun t r => ?_
  split
  · exact iteInduction (fun _ => (stopCommand_seating t p (.ring r) .reload false).trans (dropBe_seating _ r _ _)) (fun _ => .refl t)
  · exact .refl t

theorem unbindSlot_seating (s : State) (p k : Nat) : KeepsPartBy Part.seating s (unbindSlot s p k) := by
  unfold unbindSlot
  split
  · exact .refl s
  next im _ =>
    have hdrop : KeepsPartBy Part.seating s (dropStrokes s p (fun w => w.slot == k)) := .of_eq (same_of_law .parts (dropStrokes_touch p _) rfl)
    have hset := fun u : State => KeepsPartBy.setPart (f := Part.seating) (s := u) (p := p)
      (x := ((getPart u p).setSlot k Slot.reset).dropInsts (fun i => i.slot == k)) rfl
    have hplans := fun u : State => KeepsPartBy.fold (f := Part.seating) (F := fun t j => noPlanEntry t p j)
      (entriesOfSlot u p k) u fun t j => .of_eq (same_of_law .parts (noPlanEntry_touch p j) rfl)
    have hconfig := fun u : State => KeepsPartBy.of_eq (f := Part.seating) (same_of_law .parts (slotConfig_touch (s := u) p k im false) rfl)
    have hmem := fun (t : State) (m : MemSys) => KeepsPartBy.of_eq (f := Part.seating) (s := t) (t := { t with mem := m }) rfl
    exact (((hdrop.trans (hset _)).trans (hplans _)).trans (hmem _ _)).trans (hconfig _)

theorem unbindBad_seating (s : State) (p k : Nat) : KeepsPartBy Part.seating s (unbindBad s p k) := by
  have hfail := (failLaunchesOf_seating s p k).trans (failRingsOf_seating _ p k)
  unfold unbindBad
  dsimp only
  split
  · exact (hfail.trans (finishItem_seating _ _ _ _ _)).trans (unbindSlot_seating _ p k)
  · exact hfail.trans (unbindSlot_seating _ p k)

theorem reloadResident_seating (s : State) (p : Nat) : KeepsPartBy Part.seating s (reloadResident s p) := by
  refine KeepsPartBy.fold _ s fun t k => ?_
  dsimp only
  split
  · refine iteInduction (fun _ => unbindBad_seating t p k) (fun _ => ?_)
    exact iteInduction (fun _ => .of_eq (same_of_law .parts (loadStrokes_touch p k false _) rfl)) (fun _ => .refl t)
  · exact .refl t

-- the four passes of RESHAPE_END

/-- A partition's sides and lanes are free, and its tiles fresh. -/
def clearSeat (s : State) (p : Nat) : State :=
  let t := freshTiles s p
  setPart { t with mem := { t.mem with sides := dropSides t.mem.sides p } } p
    { getPart t p with pars := { (getPart t p).pars with lanes := 0 } }

/-- A partition is seated with the parameters it had. -/
def takeSeat (s₀ s : State) (p : Nat) : State := reseat (setPart s p { getPart s p with pars := (getPart s₀ p).pars }) p

/-- A partition's tiles are fresh and its resident strokes reloaded. -/
def reloadSeat (s : State) (p : Nat) : State := reloadResident (freshTiles s p) p

/-- A partition's re-shape is over. -/
def endSeat (s : State) (p : Nat) : State := setPart s p { getPart s p with reshaping := false, applyPars := false }

/-- The spares that come in. -/
def takeSpares (s : State) : State := s.anl.bringing.foldl applySpare { s with anl := { s.anl with bringing := [] } }

/-- The partitions that re-shape. -/
def reshapers (s : State) : List Nat := (upTo 16).filter (fun p => (getPart s p).reshaping)

theorem execReshapeEnd_eq (s : State) : execReshapeEnd s =
    if inHold s || decide (reshapers s = []) || (reshapers s).any (fun p => (getPart s p).kill.isSome) then .next s
    else .next ((reshapers s).foldl endSeat ((reshapers s).foldl reloadSeat
      ((reshapers s).foldl (takeSeat s) (takeSpares ((reshapers s).foldl clearSeat s))))) := rfl

theorem mem_reshapers {s : State} {p : Nat} : p ∈ reshapers s ↔ p < 16 ∧ (getPart s p).reshaping = true := by
  simp [reshapers, upTo]

theorem reshapers_nodup (s : State) : (reshapers s).Nodup := List.nodup_range.filter _

theorem clearSeat_eq (s : State) (p : Nat) :
    getPart (clearSeat s p) p = { getPart s p with pars := { (getPart s p).pars with lanes := 0 } }
      ∧ OnlyPart p s (clearSeat s p) := by
  have hfresh := freshTiles_parts s p
  refine ⟨?_, fun q hq => ?_⟩
  · unfold clearSeat
    rw [getPart_setPart_same, getPart_congr hfresh]
  · unfold clearSeat
    rw [getPart_setPart, if_neg (Ne.symm hq)]
    exact getPart_congr hfresh q

theorem clearSeat_regs (s : State) (p : Nat) : (clearSeat s p).regs = s.regs :=
  (same_of_law .regs (freshTiles_touch p) rfl : (freshTiles s p).regs = s.regs)

theorem getPart_takeSpares (s : State) (p : Nat) : getPart (takeSpares s) p = getPart s p := by
  refine getPart_congr ?_ p
  exact foldl_keeps (K := fun t u : State => u.parts = t.parts) (fun _ => rfl) (fun h g => g.trans h) _
    (fun t u _ => same_of_law .parts (applySpare_touch u) rfl) { s with anl := { s.anl with bringing := [] } }

theorem sameRegs_applySpare (s : State) (u : FailedUnit) : SameRegs s (applySpare s u) := by
  unfold applySpare
  dsimp only
  refine iteInduction (motive := SameRegs s) (fun _ => ?_) (fun _ => ?_)
  · refine SameRegs.trans (SameRegs.trans ?_ (sameRegs_healthEvent _ _ _ _ _ _)) (sameRegs_healthEvent _ _ _ _ _ _)
    exact iteInduction (motive := SameRegs s) (fun _ => .of_eq rfl) (fun _ => .of_eq rfl)
  · refine SameRegs.trans ?_ (sameRegs_healthEvent _ _ _ _ _ _)
    exact iteInduction (motive := SameRegs s) (fun _ => .of_eq rfl) (fun _ => .of_eq rfl)

theorem sameRegs_takeSpares (s : State) : SameRegs s (takeSpares s) :=
  SameRegs.trans (t := { s with anl := { s.anl with bringing := [] } }) (.of_eq rfl)
    (SameRegs.fold _ _ fun t u _ => sameRegs_applySpare t u)

/-- What a partition's parameter registers hold is the same. -/
def SamePars (p : Nat) (s t : State) : Prop := regParams t p = regParams s p

theorem samePars_of_sameRegs {s t : State} (h : SameRegs s t) {p : Nat} (hp : p < 16) : SamePars p s t := by
  unfold SamePars regParams
  rw [h _ (by unfold fabOff; omega), h _ (by unfold fabOff; omega), h _ (by unfold fabOff; omega), h _ (by omega)]

/-- A recorded refusal is no parameter (R538). -/
theorem samePars_recordErr (s : State) {p q c : Nat} (hp : p < 16) (hq : q < 16) : SamePars p s (recordErr s (fabErr q) c) := by
  refine iteInduction (motive := SamePars p s) (fun _ => rfl) (fun _ => ?_)
  unfold SamePars regParams
  simp only [regGet_regSet]
  rw [if_neg (by unfold fabErr fabOff; omega), if_neg (by unfold fabErr fabOff; omega), if_neg (by unfold fabErr fabOff; omega),
    if_neg (by unfold fabErr fabOff; omega)]

/-- The parameters a seat puts in force. -/
def SeatedBy (x : Part) (q : PartParams) (pending : Bool) (y : Part) : Prop :=
  y.reshaping = x.reshaping ∧ y.pendingPars = pending ∧ y.pars.geom = q.geom ∧ y.pars.mem = q.mem ∧ y.pars.sched = q.sched

theorem seatedBy_seat (s : State) (p : Nat) (q : PartParams) : SeatedBy (getPart s p) q false (getPart (seat s p q) p) := by
  obtain ⟨base, h⟩ := getPart_seat s p q
  rw [h]
  exact ⟨rfl, rfl, rfl, rfl, rfl⟩

/-- Whether a copy of the parameters waits. -/
def setPending (t : State) (p : Nat) (pending : Bool) : State := setPart t p { getPart t p with pendingPars := pending }

theorem setPending_onlyPart (t : State) (p : Nat) (pending : Bool) : OnlyPart p t (setPending t p pending) := .setPart t p _

theorem setPending_regs (t : State) (p : Nat) (pending : Bool) : (setPending t p pending).regs = t.regs := rfl

theorem getPart_setPending (t : State) (p : Nat) (pending : Bool) :
    getPart (setPending t p pending) p = { getPart t p with pendingPars := pending } := getPart_setPart_same t p _

/-- Seated with the parameters in force, a pending copy left pending. -/
def keepSeat (x : Part) (p : Nat) (s : State) : State := setPending (seat s p x.pars) p x.pendingPars

theorem SeatedBy.setPending {x y : Part} {q : PartParams} {b : Bool} (h : SeatedBy x q b y) (pending : Bool) :
    SeatedBy x q pending { y with pendingPars := pending } := ⟨h.1, rfl, h.2.2⟩

theorem seatedBy_keepSeat {s : State} {p : Nat} {x : Part} (h : getPart s p = x) :
    SeatedBy x x.pars x.pendingPars (getPart (keepSeat x p s) p) := by
  have hseat : SeatedBy (getPart s p) x.pars false (getPart (seat s p x.pars) p) := seatedBy_seat s p x.pars
  rw [h] at hseat
  rw [keepSeat, getPart_setPending]
  exact hseat.setPending x.pendingPars

theorem reseat_eq (s : State) (p : Nat) : reseat s p =
    if (getPart s p).applyPars && (getPart s p).pendingPars then
      if reshapeRefused s p (regParams s p) then keepSeat (getPart s p) p (recordErr s (fabErr p) 10) else seat s p (regParams s p)
    else keepSeat (getPart s p) p s := rfl

theorem keepSeat_onlyPart (x : Part) (p : Nat) (s : State) : OnlyPart p s (keepSeat x p s) :=
  (seat_onlyPart s p x.pars).trans (setPending_onlyPart _ p _)

theorem recordErr_parts (s : State) (o c : Nat) : (recordErr s o c).parts = s.parts :=
  iteInduction (motive := fun t : State => t.parts = s.parts) (fun _ => rfl) (fun _ => rfl)

theorem reseat_onlyPart (s : State) (p : Nat) : OnlyPart p s (reseat s p) := by
  rw [reseat_eq]
  refine iteInduction (motive := OnlyPart p s) (fun _ => ?_) (fun _ => keepSeat_onlyPart _ p s)
  exact iteInduction (motive := OnlyPart p s)
    (fun _ => (OnlyPart.of_eq (recordErr_parts s _ _)).trans (keepSeat_onlyPart _ p _)) (fun _ => seat_onlyPart s p _)

theorem seat_regs (s : State) (p : Nat) (q : PartParams) : (seat s p q).regs = s.regs := same_of_law .regs (seat_touch p q) rfl

theorem keepSeat_regs (x : Part) (p : Nat) (s : State) : (keepSeat x p s).regs = s.regs :=
  (setPending_regs _ p _).trans (seat_regs s p x.pars)

theorem samePars_reseat (s : State) {p q : Nat} (hp : p < 16) (hq : q < 16) : SamePars p s (reseat s q) := by
  have hseat : ∀ (t : State) x, SamePars p t (seat t q x) := fun t x => samePars_of_sameRegs (.of_eq (seat_regs t q x)) hp
  have hkeep : ∀ (t : State) x, SamePars p t (keepSeat x q t) := fun t x =>
    samePars_of_sameRegs (.of_eq (keepSeat_regs x q t)) hp
  rw [reseat_eq]
  refine iteInduction (motive := SamePars p s) (fun _ => ?_) (fun _ => hkeep s _)
  exact iteInduction (motive := SamePars p s) (fun _ => (hkeep _ _).trans (samePars_recordErr s hp hq)) (fun _ => hseat s _)

/-- What a partition's own seat makes of it (R334, R335, R540). -/
def Seated (x : Part) (r : PartParams) (y : Part) : Prop :=
  (x.applyPars = false ∨ x.pendingPars = false → SeatedBy x x.pars x.pendingPars y)
    ∧ (x.applyPars = true → x.pendingPars = true → SeatedBy x x.pars x.pendingPars y ∨ SeatedBy x r false y)

theorem seated_reseat (s : State) (p : Nat) : Seated (getPart s p) (regParams s p) (getPart (reseat s p) p) := by
  rw [reseat_eq]
  by_cases hpending : ((getPart s p).applyPars && (getPart s p).pendingPars) = true
  · obtain ⟨happly, hpend⟩ := Bool.and_eq_true_iff.1 hpending
    rw [if_pos hpending]
    refine ⟨fun h => by simp [happly, hpend] at h, fun _ _ => ?_⟩
    exact iteInduction (motive := fun t => SeatedBy _ _ _ (getPart t p) ∨ SeatedBy _ _ _ (getPart t p))
      (fun _ => .inl (seatedBy_keepSeat (getPart_congr (recordErr_parts s _ _) p))) (fun _ => .inr (seatedBy_seat s p _))
  · rw [if_neg hpending]
    exact ⟨fun _ => seatedBy_keepSeat rfl, fun happly hpend => absurd (by simp [happly, hpend]) hpending⟩

theorem reloadSeat_seating (s : State) (p : Nat) : KeepsPartBy Part.seating s (reloadSeat s p) :=
  (KeepsPartBy.of_eq (freshTiles_parts s p)).trans (reloadResident_seating _ p)

section
variable {s : State} {p : Nat}

/-- Before its own seat a partition that re-shapes is as it was, but for its lanes. -/
theorem getPart_cleared (hp : p ∈ reshapers s) :
    getPart ((reshapers s).foldl clearSeat s) p = { getPart s p with pars := { (getPart s p).pars with lanes := 0 } } := by
  obtain ⟨t, hbefore, hafter⟩ := foldl_nodup_at (F := clearSeat) (K := fun t u => getPart u p = getPart t p) (fun _ => rfl)
    (fun h g => g.trans h) (reshapers_nodup s) hp (fun t q hq => (clearSeat_eq t q).2 p (Ne.symm hq)) s
  rw [hafter, (clearSeat_eq t p).1, hbefore]

/-- A pass over the partitions that re-shape leaves the others. -/
theorem pass_other {F : State → Nat → State} (hF : ∀ t q, OnlyPart q t (F t q)) (hp : p ∉ reshapers s) (t : State) :
    getPart ((reshapers s).foldl F t) p = getPart t p :=
  foldl_keeps (K := fun t u => getPart u p = getPart t p) (fun _ => rfl) (fun h g => g.trans h) _
    (fun t q hq => hF t q p fun h => hp (h ▸ hq)) t

theorem takeSeat_onlyPart (s₀ t : State) (q : Nat) : OnlyPart q t (takeSeat s₀ t q) := (OnlyPart.setPart t q _).trans (reseat_onlyPart _ q)

theorem samePars_takeSeat (s₀ t : State) {q : Nat} (hp : p < 16) (hq : q < 16) : SamePars p t (takeSeat s₀ t q) :=
  samePars_reseat (setPart t q { getPart t q with pars := (getPart s₀ q).pars }) hp hq

/-- The partitions after the pass that seats them. -/
theorem seated_pass (hp : p ∈ reshapers s) :
    Seated (getPart s p) (regParams s p)
      (getPart ((reshapers s).foldl (takeSeat s) (takeSpares ((reshapers s).foldl clearSeat s))) p) := by
  have hlt := (mem_reshapers.1 hp).1
  have hregs : SamePars p s (takeSpares ((reshapers s).foldl clearSeat s)) := by
    refine (samePars_of_sameRegs (sameRegs_takeSpares _) hlt).trans (samePars_of_sameRegs (.of_eq ?_) hlt)
    exact foldl_keeps (K := fun t u : State => u.regs = t.regs) (fun _ => rfl) (fun h g => g.trans h) _
      (fun t q _ => clearSeat_regs t q) s
  have hpart := (getPart_takeSpares ((reshapers s).foldl clearSeat s) p).trans (getPart_cleared hp)
  obtain ⟨l, m, hlm⟩ := List.append_of_mem hp
  have hnodup := hlm ▸ reshapers_nodup s
  obtain ⟨-, hrest, hdis⟩ := List.nodup_append.1 hnodup
  obtain ⟨hpm, -⟩ := List.nodup_cons.1 hrest
  have hmem : ∀ q ∈ l ++ p :: m, q < 16 := fun q hq => (mem_reshapers.1 (hlm ▸ hq : q ∈ reshapers s)).1
  have hpass : ∀ k : List Nat, (∀ q ∈ k, q ≠ p ∧ q < 16) → ∀ t,
      getPart (k.foldl (takeSeat s) t) p = getPart t p ∧ SamePars p t (k.foldl (takeSeat s) t) := fun k hk t =>
    foldl_keeps (K := fun t u => getPart u p = getPart t p ∧ SamePars p t u) (fun _ => ⟨rfl, rfl⟩)
      (fun h g => ⟨g.1.trans h.1, g.2.trans h.2⟩) k
      (fun t q hq => ⟨takeSeat_onlyPart s t q p (Ne.symm (hk q hq).1), samePars_takeSeat s t hlt (hk q hq).2⟩) t
  obtain ⟨hbefore, hbeforeRegs⟩ := hpass l (fun q hq => ⟨hdis q hq p (by simp), hmem q (by simp [hq])⟩)
    (takeSpares ((reshapers s).foldl clearSeat s))
  rw [hlm, List.foldl_append, List.foldl_cons, ← hlm,
    (hpass m (fun q hq => ⟨fun h => hpm (h ▸ hq), hmem q (by simp [hq])⟩) _).1]
  generalize hu : l.foldl (takeSeat s) (takeSpares ((reshapers s).foldl clearSeat s)) = u at hbefore hbeforeRegs ⊢
  have hback : getPart (setPart u p { getPart u p with pars := (getPart s p).pars }) p = getPart s p := by
    rw [getPart_setPart_same, hbefore, hpart]
  have hself := seated_reseat (setPart u p { getPart u p with pars := (getPart s p).pars }) p
  rw [hback] at hself
  exact (hbeforeRegs.trans hregs : regParams u p = regParams s p) ▸ hself

theorem endSeat_onlyPart (t : State) (q : Nat) : OnlyPart q t (endSeat t q) := .setPart t q _

theorem getPart_ended (hp : p ∈ reshapers s) (t : State) :
    getPart ((reshapers s).foldl endSeat t) p = { getPart t p with reshaping := false, applyPars := false } := by
  obtain ⟨u, hbefore, hafter⟩ := foldl_nodup_at (F := endSeat) (K := fun t u => getPart u p = getPart t p) (fun _ => rfl)
    (fun h g => g.trans h) (reshapers_nodup s) hp (fun t q hq => endSeat_onlyPart t q p (Ne.symm hq)) t
  rw [hafter, endSeat, getPart_setPart_same, hbefore]

end

theorem reloaded_seating (s t : State) : KeepsPartBy Part.seating t ((reshapers s).foldl reloadSeat t) :=
  .fold _ t reloadSeat_seating

theorem reseated_of_seated {s t : State} {p : Nat} {y : Part} (h : Seated (getPart s p) (regParams s p) y)
    (hpend : (getPart t p).pendingPars = y.pendingPars) (hpars : (getPart t p).pars = y.pars) : Reseated s t p := by
  unfold Reseated
  dsimp only
  rw [hpend, hpars]
  refine ⟨fun hnone => ?_, fun happly hpending => ?_⟩
  · obtain ⟨-, hpend, hgeom, hmem, hsched⟩ := h.1 hnone
    exact ⟨hgeom, hmem, hsched, hpend⟩
  · obtain ⟨-, hpend, hgeom, hmem, hsched⟩ | ⟨-, hpend, hgeom, hmem, hsched⟩ := h.2 happly hpending
    · exact .inl ⟨hgeom, hmem, hsched, hpend⟩
    · exact .inr ⟨hpend, hgeom, hmem, hsched⟩

theorem reshapesRunTogether : ReshapesRunTogether := by
  intro s
  refine ⟨fun hready hhold ⟨p₀, hp₀, haff₀, hon₀⟩ hidle => ?start, fun hhold ⟨p₀, hp₀, hshape₀⟩ hkills => ?finish,
    fun hphase ⟨u, hu, hneeds, hmode⟩ => ?go⟩
  case start =>
    have hsome : reshapeParts s ≠ [] := List.ne_nil_of_mem (mem_reshapeParts.2 ⟨hp₀, haff₀, hon₀⟩)
    refine ⟨_, reshapeStart_of_idle hready hhold hsome fun p hp => ?_, fun p hp haff hon => ?_⟩
    · obtain ⟨hp, haff, hon⟩ := mem_reshapeParts.1 hp
      exact hidle p hp haff hon
    · exact reshapeStart_part (mem_reshapeParts.2 ⟨hp, haff, hon⟩)
  case finish =>
    have hsome : reshapers s ≠ [] := List.ne_nil_of_mem (mem_reshapers.2 ⟨hp₀, hshape₀⟩)
    have hnone : (reshapers s).any (fun p => (getPart s p).kill.isSome) = false := by
      simp only [List.any_eq_false, Bool.not_eq_true, Option.isSome_eq_false_iff, Option.isNone_iff_eq_none]
      exact fun p hp => hkills p (mem_reshapers.1 hp).1 (mem_reshapers.1 hp).2
    refine ⟨_, (execReshapeEnd_eq s).trans (if_neg (by simp [hhold, hsome, hnone])), fun p hp => ?_⟩
    generalize hu : (reshapers s).foldl (takeSeat s) (takeSpares ((reshapers s).foldl clearSeat s)) = u
    have hkeep := reloaded_seating s u p
    simp only [Part.seating, Prod.mk.injEq] at hkeep
    obtain ⟨-, hshape, -, -, hpend, hpars⟩ := hkeep
    by_cases hmem : p ∈ reshapers s
    · rw [getPart_ended hmem]
      refine ⟨rfl, fun _ => ⟨rfl, reseated_of_seated (hu ▸ seated_pass hmem) ?_ ?_⟩⟩
      · rw [getPart_ended hmem]; exact hpend
      · rw [getPart_ended hmem]; exact hpars
    · have hoff : (getPart s p).reshaping = false := by
        simpa [hp] using fun h => hmem (mem_reshapers.2 ⟨hp, h⟩)
      refine ⟨?_, fun h => absurd h (by simp [hoff])⟩
      rw [pass_other endSeat_onlyPart hmem, hshape, ← hu, pass_other (takeSeat_onlyPart s) hmem, getPart_takeSpares,
        pass_other (fun t q => (clearSeat_eq t q).2) hmem, hoff]
  case go =>
    have hwaits : s.anl.pending.any (fun u => needsReshape u && decide (unitMode s u ≠ 0)) = true :=
      List.any_eq_true.2 ⟨u, hu, by simp [hneeds, hmode]⟩
    exact ⟨_, (hostWrite_of_phase_ne_bootFail _ hphase).trans (congrArg Host.Outcome.next (if_pos hwaits)), rfl, rfl⟩

/-- Settles O37, by the requests and by each affected partition's turn in the start and in the end of a re-shape. -/
theorem partitionsReshape : Obligations.PartitionsReshape := ⟨partitionRequests, reshapesRunTogether⟩

end Sys2Proof.Machine
end

section
/-! SUPPORT. Binding and unbinding (R170 to R173, Table 06.7): the item of a load or of an unbind leaves its ring, a slot's commands that
wait are dropped each in its own turn, and the slot is reset with its instances. -/

namespace Sys2Proof.Machine

/-- What a law says of a function's own state. -/
theorem Touch.of_law {L : List Field} {s t : State} (law : Field.sub L L = true → Touch L s s → Touch L s t) : Touch L s t :=
  law (by simp [Field.sub]) (.refl L s)

-- the completion of a ring's only item

theorem items_setRing (s : State) (c r : Nat) (x : Ring) (hx : x.items = (getRing s c r).items) (d q : Nat) :
    (getRing (setRing s c r x) d q).items = (getRing s d q).items := by
  refine (congrArg Ring.items (tblGet_set Ring.reset s.rings (8 * c + r) (8 * d + q) x)).trans ?_
  split_ifs with h
  · exact hx.trans (congrArg (fun k => (tblGet Ring.reset s.rings k).items) h)
  · rfl

theorem items_enterGroup (s : State) (w : WaitGroup) (d q : Nat) : (getRing (enterGroup s w) d q).items = (getRing s d q).items := by
  cases hw : w.item with
  | none => rw [getRing_congr (enterGroup_rings_of_none hw)]
  | some e =>
    obtain ⟨r, gen⟩ := e
    unfold enterGroup
    simp only [hw]
    generalize hu : setCtx (writeGroup s w.ctx w.head w.exts) w.ctx _ = u
    have hrings : u.rings = s.rings := by rw [← hu]; simp
    split
    · exact (items_setRing u w.ctx r { getRing u w.ctx r with cmp := (getRing u w.ctx r).cmp + 1 } rfl d q).trans
        (congrArg Ring.items (getRing_congr hrings d q))
    · exact congrArg Ring.items (getRing_congr hrings d q)

theorem items_postGroup (s : State) (w : WaitGroup) (d q : Nat) : (getRing (postGroup s w) d q).items = (getRing s d q).items := by
  unfold postGroup
  split
  · exact items_enterGroup s w d q
  · rfl

theorem items_finishItem_of_only {s : State} {c r : Nat} {it : Item} (h : (getRing s c r).items = [it]) (status cause : Nat) :
    (getRing (finishItem s c r status cause) c r).items = [] := by
  have hone : (getRing (completeOne s c r status cause 0 0 [] 0) c r).items = [] := by
    rw [getRing_congr ((completeOne_touch_post h status cause 0 0 [] 0).keeps .rings rfl), items_postGroup]
    simp [popItem, h]
  have hdone : finishItem s c r status cause = completeOne s c r status cause 0 0 [] 0 := settle_of_empty hone _
  rw [hdone, hone]

-- a slot of a partition

theorem getSlot_setSlot_same (s : State) (p k : Nat) (v : Slot) : getSlot (setSlot s p k v) p k = v := by
  unfold getSlot setSlot
  rw [getPart_setPart_same]
  simp [Part.slot, Part.setSlot, tblGet_set_same]

theorem slot_setSlot_dropInsts (x : Part) (k : Nat) (v : Slot) (gone : Inst → Bool) : ((x.setSlot k v).dropInsts gone).slot k = v :=
  tblGet_set_same Slot.reset x.slots k v

theorem insts_setSlot_dropInsts (x : Part) (k : Nat) (v : Slot) (gone : Inst → Bool) :
    ((x.setSlot k v).dropInsts gone).insts = x.insts.filter (fun i => !gone i) := rfl

theorem insts_setSlot (s : State) (p k : Nat) (v : Slot) : (getPart (setSlot s p k v) p).insts = (getPart s p).insts := by
  unfold setSlot
  rw [getPart_setPart_same]
  rfl

theorem getSlot_of_parts {s t : State} (h : t.parts = s.parts) (p k : Nat) : getSlot t p k = getSlot s p k :=
  getSlot_congr (congrArg Part.slots (getPart_congr h p)) k

-- the load (R170, R171)

theorem imageBind_of_hold {c : CtxId} {r : RingId} {i : Item} {s : State} (h : headOp s c.val r.val 0x02 = some i) (hold : inHold s = true) :
    execImageBind c r s = .next s := by
  unfold execImageBind
  rw [h]
  exact if_pos hold

/-- A load begins in its slot. -/
def loadingState (s : State) (c r p k : Nat) (im : Image) : State :=
  let s1 := setSlot (beginItem s c r) p k { getSlot s p k with loading := some (im, c, r) }
  { s1 with mem := { s1.mem with imgUsed := s1.mem.imgUsed + im.masterBytes } }

/-- What IMAGE_BIND does of an image outside Hold. -/
def bindStep (s : State) (c r p k : Nat) : Nat ⊕ Image → State
  | .inl cause => finishItem s c r stImage cause
  | .inr im => loadingState s c r p k im

theorem imageBind_of_head {c : CtxId} {r : RingId} {i : Item} {s : State} (h : headOp s c.val r.val 0x02 = some i) (hold : inHold s = false) :
    execImageBind c r s = .next (bindStep s c.val r.val (getCtx s c.val).part i.slot
      (bindChecks s (getCtx s c.val).part i.slot (memBytes (hostMem s (getCtx s c.val)) i.addr i.bytes))) := by
  unfold execImageBind
  rw [h]
  dsimp only
  rw [if_neg (by simp [hold])]
  cases bindChecks s (getCtx s c.val).part i.slot (memBytes (hostMem s (getCtx s c.val)) i.addr i.bytes) with
  | inl cause => rfl
  | inr im => rfl

theorem loadingState_spec (s : State) (c r p k : Nat) (im : Image) :
    getSlot (loadingState s c r p k im) p k = { getSlot s p k with loading := some (im, c, r) }
      ∧ (loadingState s c r p k im).mem.imgUsed = s.mem.imgUsed + im.masterBytes := by
  have hmem : (beginItem s c r).mem = s.mem := rfl
  have hslot := fun (t : State) (m : MemSys) => getSlot_of_parts (s := t) (t := { t with mem := m }) rfl p k
  exact ⟨(hslot _ _).trans (getSlot_setSlot_same _ p k _), congrArg (fun m : MemSys => m.imgUsed + im.masterBytes) hmem⟩

/-- A slot with its image, before its strokes are in place. -/
def boundState (s : State) (p k : Nat) (im : Image) : State :=
  setSlot s p k { Slot.reset with img := some im, space := tableSpace im, params := im.boundParams }

/-- The strokes of a latency-critical image are in place, and the bind is recorded. -/
def loadedState (s : State) (p k : Nat) (im : Image) : State :=
  slotConfig (if im.isLc then loadStrokes (boundState s p k im) p k false im.stored else boundState s p k im) p k im true

theorem bindComplete_of_open {p : PartId} {k : SlotId} {s : State} {im : Image} {c r : Nat}
    (h : (getSlot s p.val k.val).loading = some (im, c, r)) (hopen : openTick s p.val (count s p.val) = true) (hold : inHold s = false) :
    execBindComplete p k s = .next (finishItem (loadedState s p.val k.val im) c r stOk 0) := by
  unfold execBindComplete
  simp only [h, hopen, hold, Bool.not_true, Bool.or_self, Bool.false_eq_true, if_false]
  rfl

theorem loadedState_touch (s : State) (p k : Nat) (im : Image) : Touch [.tiles, .blt] (boundState s p k im) (loadedState s p k im) :=
  slotConfig_touch p k im true rfl (.ite (loadStrokes_touch p k false im.stored rfl (.refl _ _)) (.refl _ _))

theorem bindingLoadsThenBinds : BindingLoadsThenBinds := by
  intro c r i p k im s
  refine ⟨imageBind_of_hold, fun hhead hold => ⟨_, imageBind_of_head hhead hold, ?_⟩, fun d q it hload hopen hold hitems => ?_⟩
  · dsimp only
    cases bindChecks s (getCtx s c.val).part i.slot (memBytes (hostMem s (getCtx s c.val)) i.addr i.bytes) with
    | inl cause => rfl
    | inr m => exact loadingState_spec s c.val r.val _ i.slot m
  · have htouch := loadedState_touch s p.val k.val im
    have hparts : (finishItem (loadedState s p.val k.val im) d q stOk 0).parts = (boundState s p.val k.val im).parts :=
      (completeItem_parts _ d q stOk 0 0 0 [] 0).trans (htouch.keeps .parts rfl)
    have hslot := (getSlot_of_parts hparts p.val k.val).trans (getSlot_setSlot_same s p.val k.val _)
    have hring : (getRing (loadedState s p.val k.val im) d q).items = [it] := by
      rw [getRing_congr (htouch.keeps .rings rfl)]
      exact hitems
    refine ⟨_, bindComplete_of_open hload hopen hold, ?_, ?_, ?_, ?_, items_finishItem_of_only hring _ _, ?_⟩
    · rw [hslot]
    · rw [hslot]; rfl
    · rw [hslot]
    · rw [hslot]
    · rw [getPart_congr hparts]
      exact insts_setSlot s p.val k.val _

-- commands that wait are dropped (Table 06.7)

/-- What an unbind asks of a partition, and what its commands' drops keep of it. -/
def Part.binding (x : Part) : Tbl Slot × Option CmdKey := (x.slots, x.holder)

/-- A drop leaves the other commands, the slots and the tiles' holders, and the image bytes. -/
structure KeepsBinding (s t : State) : Prop where
  part : KeepsPartBy Part.binding s t
  img : t.mem.imgUsed = s.mem.imgUsed

theorem KeepsBinding.refl (s : State) : KeepsBinding s s := ⟨.refl s, rfl⟩

theorem KeepsBinding.trans {s t u : State} (h : KeepsBinding s t) (g : KeepsBinding t u) : KeepsBinding s u :=
  ⟨h.part.trans g.part, g.img.trans h.img⟩

theorem KeepsBinding.slot {s t : State} (h : KeepsBinding s t) (p k : Nat) : getSlot t p k = getSlot s p k :=
  getSlot_congr (congrArg Prod.fst (h.part p)) k

theorem KeepsBinding.holder {s t : State} (h : KeepsBinding s t) (p : Nat) : (getPart t p).holder = (getPart s p).holder :=
  congrArg Prod.snd (h.part p)

theorem staleTargets_binding (s : State) (im : Image) : KeepsPartBy Part.binding s (staleTargets s im) := by
  refine KeepsPartBy.fold _ s fun t e => ?_
  split
  · exact iteInduction (fun _ => .setPart rfl) (fun _ => .refl t)
  · exact .refl t

theorem staleOf_binding (s : State) (p k : Nat) : KeepsPartBy Part.binding s (staleOf s p k) := by
  unfold staleOf
  split
  · exact staleTargets_binding s _
  · exact .refl s

/-- A command is out of its table, its workspace freed. -/
def outOfBe (s : State) (r ws : Nat) : State := setBe { s with mem := { s.mem with wsUsed := s.mem.wsUsed - ws } } r none

theorem dropBe_of_some {s : State} {r : Nat} {b : BeCmd} (h : getBe s r = some b) (status cause : Nat) : dropBe s r status cause =
    freeReleased (finishItem (outOfBe (staleOf s b.part b.slot) r b.ws) b.ctx b.ring status cause) b.part := by
  unfold dropBe
  rw [h]
  rfl

theorem finishItem_of_outOfBe (s : State) (r ws c q status cause : Nat) :
    (finishItem (outOfBe s r ws) c q status cause).parts = s.parts ∧ (finishItem (outOfBe s r ws) c q status cause).mem.imgUsed = s.mem.imgUsed
      ∧ (finishItem (outOfBe s r ws) c q status cause).be = (setBe s r none).be := by
  have h := Touch.of_law (finishItem_touch (s := outOfBe s r ws) c q status cause)
  have hmem : (finishItem (outOfBe s r ws) c q status cause).mem = { s.mem with wsUsed := s.mem.wsUsed - ws } := h.keeps .mem rfl
  exact ⟨h.keeps .parts rfl, (congrArg MemSys.imgUsed hmem).trans rfl, h.keeps .be rfl⟩

theorem dropBe_binding (s : State) (r status cause : Nat) : KeepsBinding s (dropBe s r status cause) := by
  cases h : getBe s r with
  | none => rw [show dropBe s r status cause = s by unfold dropBe; rw [h]]; exact .refl s
  | some b =>
    obtain ⟨hparts, himg, -⟩ := finishItem_of_outOfBe (staleOf s b.part b.slot) r b.ws b.ctx b.ring status cause
    have hstale : (staleOf s b.part b.slot).mem = s.mem := same_of_law .mem (staleOf_touch b.part b.slot) rfl
    rw [dropBe_of_some h]
    exact ⟨((staleOf_binding s b.part b.slot).trans (.of_eq hparts)).trans (.setPart rfl), himg.trans (congrArg MemSys.imgUsed hstale)⟩

theorem getBe_dropBe (s : State) (r status cause q : Nat) :
    getBe (dropBe s r status cause) q = if r = q then none else getBe s q := by
  cases h : getBe s r with
  | none =>
    rw [show dropBe s r status cause = s by unfold dropBe; rw [h]]
    split_ifs with hq
    · rw [← hq, h]
    · rfl
  | some b =>
    obtain ⟨-, -, hbe⟩ := finishItem_of_outOfBe (staleOf s b.part b.slot) r b.ws b.ctx b.ring status cause
    have hfree : ∀ t : State, (freeReleased t b.part).be = t.be := fun t => rfl
    rw [dropBe_of_some h, getBe_congr ((hfree _).trans hbe), getBe_setBe,
      getBe_congr (same_of_law .be (staleOf_touch b.part b.slot) rfl : (staleOf s b.part b.slot).be = s.be)]

/-- A best-effort command of a slot that waits off the tiles. -/
def WaitsFor (s : State) (p k r : Nat) (b : BeCmd) : Prop :=
  b.part = p ∧ b.slot = k ∧ (b.cmd.st = .wait ∨ b.cmd.st = .waitRerun) ∧ (getPart s p).holder ≠ some (.ring r)

/-- One ring's turn. -/
def dropTurn (p k : Nat) (t : State) (r : Nat) : State :=
  match getBe t r with
  | some b =>
    if b.part = p ∧ b.slot = k ∧ (b.cmd.st = .wait ∨ b.cmd.st = .waitRerun) ∧ (getPart t p).holder ≠ some (.ring r) then
      dropBe t r stImage 0xC
    else t
  | none => t

theorem dropQueued_eq (s : State) (p k : Nat) : dropQueued s p k = (upTo 512).foldl (dropTurn p k) s := rfl

theorem dropTurn_binding (p k : Nat) (t : State) (r : Nat) : KeepsBinding t (dropTurn p k t r) := by
  unfold dropTurn
  split
  · exact iteInduction (fun _ => dropBe_binding t r _ _) (fun _ => .refl t)
  · exact .refl t

theorem getBe_dropTurn_of_ne (p k : Nat) (t : State) {r q : Nat} (h : r ≠ q) : getBe (dropTurn p k t r) q = getBe t q := by
  unfold dropTurn
  split
  · refine iteInduction (motive := fun u => getBe u q = getBe t q) (fun _ => ?_) (fun _ => rfl)
    rw [getBe_dropBe, if_neg h]
  · rfl

theorem getBe_dropTurn_of_waits {p k r : Nat} {t : State} {b : BeCmd} (hb : getBe t r = some b) (hw : WaitsFor t p k r b) :
    getBe (dropTurn p k t r) r = none := by
  unfold dropTurn
  rw [hb]
  dsimp only
  obtain ⟨hpart, hslot, hst, hholder⟩ := hw
  rw [if_pos ⟨hpart, hslot, hst, hholder⟩, getBe_dropBe, if_pos rfl]

theorem dropTurn_of_other {p k r : Nat} {t : State} (h : ∀ b, getBe t r = some b → b.part = p → b.slot ≠ k) : dropTurn p k t r = t := by
  unfold dropTurn
  split
  next b hb => exact if_neg fun hw => h b hb hw.1 hw.2.1
  · rfl

theorem dropQueued_binding (s : State) (p k : Nat) : KeepsBinding s (dropQueued s p k) :=
  foldl_keeps KeepsBinding.refl KeepsBinding.trans _ (fun t r _ => dropTurn_binding p k t r) s

/-- A command that waits is gone. -/
theorem getBe_dropQueued_of_waits {s : State} {p k r : Nat} {b : BeCmd} (hr : r < 512) (hb : getBe s r = some b) (hw : WaitsFor s p k r b) :
    getBe (dropQueued s p k) r = none := by
  obtain ⟨u, ⟨hbefore, hbind⟩, hafter, -⟩ := foldl_nodup_at (F := dropTurn p k)
    (K := fun t u => getBe u r = getBe t r ∧ KeepsBinding t u) (fun t => ⟨rfl, .refl t⟩)
    (fun h g => ⟨g.1.trans h.1, h.2.trans g.2⟩) List.nodup_range (List.mem_range.2 hr)
    (fun t q hq => ⟨getBe_dropTurn_of_ne p k t hq, dropTurn_binding p k t q⟩) s
  rw [dropQueued_eq]
  refine hafter.trans (getBe_dropTurn_of_waits (hbefore.trans hb) ?_)
  obtain ⟨hpart, hslot, hst, hholder⟩ := hw
  exact ⟨hpart, hslot, hst, by rwa [hbind.holder]⟩

/-- With no command of the slot queued nothing is dropped. -/
theorem dropQueued_of_none {s : State} {p k : Nat} (h : ∀ r < 512, ∀ b, getBe s r = some b → b.part = p → b.slot ≠ k) :
    dropQueued s p k = s := by
  rw [dropQueued_eq]
  have hturns : ∀ l : List Nat, (∀ r ∈ l, r < 512) → l.foldl (dropTurn p k) s = s := fun l => by
    induction l with
    | nil => exact fun _ => rfl
    | cons r l ih =>
      intro hl
      rw [List.foldl_cons, dropTurn_of_other (h r (hl r (by simp)))]
      exact ih fun q hq => hl q (by simp [hq])
  exact hturns _ fun r hr => List.mem_range.1 hr

/-- With the slot idle, each command of it waits off the tiles. -/
theorem waitsFor_of_idle {s : State} {p k r : Nat} {b : BeCmd} (hidle : slotBusy s p k = false) (hr : r < 512) (hb : getBe s r = some b)
    (hp : b.part = p) (hk : b.slot = k) : WaitsFor s p k r b := by
  have hring := (Bool.or_eq_false_iff.1 hidle).2
  have hnone := List.any_eq_false.1 hring r (List.mem_range.2 hr)
  simp only [hb, hp, hk, Bool.not_eq_true, Bool.or_eq_false_iff, decide_eq_false_iff_not, true_and, and_true, not_and, not_not] at hnone
  refine ⟨hp, hk, ?_, hnone.2⟩
  by_cases hst : b.cmd.st = .wait
  · exact .inl hst
  · exact .inr (hnone.1 hst)

-- the slot is reset (R173)

/-- The slot and its instances are out of the partition. -/
def clearedSlot (s : State) (p k : Nat) : State :=
  setPart (dropStrokes s p (fun w => w.slot == k)) p
    (((getPart (dropStrokes s p (fun w => w.slot == k)) p).setSlot k Slot.reset).dropInsts (fun i => i.slot == k))

theorem getPart_clearedSlot (s : State) (p k : Nat) :
    getPart (clearedSlot s p k) p = ((getPart s p).setSlot k Slot.reset).dropInsts (fun i => i.slot == k) := by
  have hdrop : (dropStrokes s p (fun w => w.slot == k)).parts = s.parts := same_of_law .parts (dropStrokes_touch p _) rfl
  rw [clearedSlot, getPart_setPart_same, getPart_congr hdrop]

/-- Engines bound to the slot's launch entries lose their source. -/
def sourcesLost (s : State) (p k : Nat) : State := (entriesOfSlot s p k).foldl (fun t j => noPlanEntry t p j) s

theorem unbindSlot_of_img {s : State} {p k : Nat} {im : Image} (h : (getSlot s p k).img = some im) : unbindSlot s p k =
    slotConfig { sourcesLost (clearedSlot s p k) p k with
      mem := { (sourcesLost (clearedSlot s p k) p k).mem with imgUsed := (sourcesLost (clearedSlot s p k) p k).mem.imgUsed - im.masterBytes } }
      p k im false := by
  unfold unbindSlot
  rw [h]
  rfl

theorem sourcesLost_keeps (s : State) (p k : Nat) :
    (sourcesLost s p k).parts = s.parts ∧ (sourcesLost s p k).mem = s.mem ∧ (sourcesLost s p k).be = s.be :=
  foldl_keeps (K := fun t u : State => u.parts = t.parts ∧ u.mem = t.mem ∧ u.be = t.be) (fun _ => ⟨rfl, rfl, rfl⟩)
    (fun h g => ⟨g.1.trans h.1, g.2.1.trans h.2.1, g.2.2.trans h.2.2⟩) _
    (fun t j _ => by
      have h := Touch.of_law (noPlanEntry_touch (s := t) p j)
      exact ⟨h.keeps .parts rfl, h.keeps .mem rfl, h.keeps .be rfl⟩) s

theorem unbindSlot_spec {s : State} {p k : Nat} {im : Image} (h : (getSlot s p k).img = some im) :
    getPart (unbindSlot s p k) p = ((getPart s p).setSlot k Slot.reset).dropInsts (fun i => i.slot == k)
      ∧ (unbindSlot s p k).mem.imgUsed = s.mem.imgUsed - im.masterBytes ∧ (unbindSlot s p k).be = s.be := by
  have hrec := fun t : State => Touch.of_law (slotConfig_touch (s := t) p k im false)
  obtain ⟨hparts, hmem, hbe⟩ := sourcesLost_keeps (clearedSlot s p k) p k
  have hdrop := Touch.of_law (dropStrokes_touch (s := s) p (fun w => w.slot == k))
  rw [unbindSlot_of_img h]
  refine ⟨?_, ?_, ?_⟩
  · rw [getPart_congr ((hrec _).keeps .parts rfl)]
    exact (getPart_congr hparts p).trans (getPart_clearedSlot s p k)
  · rw [(hrec _).keeps .mem rfl]
    have hused : (sourcesLost (clearedSlot s p k) p k).mem = s.mem := hmem.trans (hdrop.keeps .mem rfl)
    exact congrArg (fun m : MemSys => m.imgUsed - im.masterBytes) hused
  · rw [(hrec _).keeps .be rfl]
    exact hbe.trans (hdrop.keeps .be rfl)

/-- An unbind of an idle slot, the completion of its item included. -/
def unboundState (s : State) (p k c r : Nat) : State := finishItem (unbindSlot (dropQueued s p k) p k) c r stOk 0

theorem unbound_of_idle {s : State} {p k : Nat} {im : Image} (himg : (getSlot s p k).img = some im) (hidle : slotBusy s p k = false) (c r : Nat) :
    Unbound s (unboundState s p k c r) p k im := by
  have hbind := dropQueued_binding s p k
  obtain ⟨hpart, hused, hbe⟩ := unbindSlot_spec (s := dropQueued s p k) (by rw [hbind.slot, himg])
  have hdone := Touch.of_law (finishItem_touch (s := unbindSlot (dropQueued s p k) p k) c r stOk 0)
  have hlast : getPart (unboundState s p k c r) p =
      ((getPart (dropQueued s p k) p).setSlot k Slot.reset).dropInsts (fun i => i.slot == k) :=
    (getPart_congr (hdone.keeps .parts rfl) p).trans hpart
  have hinsts : (getPart (unboundState s p k c r) p).insts = (getPart (dropQueued s p k) p).insts.filter (fun i => !(i.slot == k)) :=
    (congrArg Part.insts hlast).trans (insts_setSlot_dropInsts _ k Slot.reset _)
  refine ⟨?_, fun i hi => ?_, fun q hq b hb hp hk => ?_, fun hnone => ?_, ?_⟩
  · exact congrArg Slot.img ((congrArg (fun x : Part => x.slot k) hlast).trans (slot_setSlot_dropInsts _ k Slot.reset _))
  · rw [hinsts] at hi
    simpa using (List.mem_filter.1 hi).2
  · rw [unboundState, getBe_congr ((hdone.keeps .be rfl).trans hbe)]
    exact getBe_dropQueued_of_waits hq hb (waitsFor_of_idle hidle hq hb hp hk)
  · rw [hinsts, dropQueued_of_none hnone]
    exact List.filter_congr fun i _ => by simp [beq_eq_decide]
  · rw [unboundState, hdone.keeps .mem rfl, hused, hbind.img]

-- the opcode and its boundary

theorem imageUnbind_of_idle {c : CtxId} {r : RingId} {i : Item} {s : State} (hhead : headOp s c.val r.val 0x03 = some i)
    (himg : (getSlot s (getCtx s c.val).part i.slot).img.isSome = true)
    (hunb : (getSlot s (getCtx s c.val).part i.slot).unbinding = none)
    (hentries : ∀ j < 64, entryImg s (getCtx s c.val).part j = i.slot → entryOn s (getCtx s c.val).part j = false)
    (hsource : isSource (getPart s (getCtx s c.val).part) i.slot = false) :
    execImageUnbind c r s = .next (if slotBusy s (getCtx s c.val).part i.slot then
      dropQueued (setSlot (beginItem s c.val r.val) (getCtx s c.val).part i.slot
        { getSlot s (getCtx s c.val).part i.slot with unbinding := some (c.val, r.val) }) (getCtx s c.val).part i.slot
      else unboundState s (getCtx s c.val).part i.slot c.val r.val) := by
  have hoff : (entriesOfSlot s (getCtx s c.val).part i.slot).any (entryOn s (getCtx s c.val).part) = false := by
    simp only [entriesOfSlot, List.any_eq_false, List.mem_filter, upTo, List.mem_range, decide_eq_true_eq, Bool.not_eq_true]
    exact fun j hj => hentries j hj.1 hj.2
  unfold execImageUnbind
  simp only [hhead, Option.isNone_eq_false_iff.2 himg, hunb, hoff, hsource, Option.isSome_none, Bool.or_self, Bool.false_eq_true, if_false]
  split
  · rfl
  · rfl

theorem unbindAtBoundary_eq {p : PartId} {k : SlotId} {s : State} {d o : Nat} (h : (getSlot s p.val k.val).unbinding = some (d, o)) :
    execUnbindAtBoundary p k s = if slotBusy s p.val k.val then .next s else .next (unboundState s p.val k.val d o) := by
  unfold execUnbindAtBoundary
  rw [h]
  rfl

theorem unbindingWaitsForTheBoundary : UnbindingWaitsForTheBoundary := by
  intro c r i p k im s
  refine ⟨fun hhead himg hunb hentries hsource => ?_, fun d o hunb himg => ?_⟩
  · have hrun := imageUnbind_of_idle hhead (by simp [himg]) hunb hentries hsource
    refine ⟨fun hidle => ⟨_, hrun.trans (congrArg Host.Outcome.next (if_neg (by simp [hidle]))), unbound_of_idle himg hidle _ _⟩,
      fun hbusy => ⟨_, hrun.trans (congrArg Host.Outcome.next (if_pos hbusy)), ?_⟩⟩
    rw [(dropQueued_binding _ _ _).slot, getSlot_setSlot_same]
  · rw [show exec (.unbindAtBoundary p k) s = _ from unbindAtBoundary_eq hunb]
    exact ⟨fun hidle => ⟨_, if_neg (by simp [hidle]), unbound_of_idle himg hidle _ _⟩, fun hbusy => if_pos hbusy⟩

/-- Settles O34, by the load's two steps and by the slot's reset after its waiting commands are dropped. -/
theorem imagesBindAndUnbind : Obligations.ImagesBindAndUnbind := ⟨bindingLoadsThenBinds, unbindingWaitsForTheBoundary⟩

end Sys2Proof.Machine
end

section
/-! SUPPORT. Power domains, temperature and the safe state (R470 to R476): a domain reads the state it was set to, and events leave the
power block. -/

namespace Sys2Proof.Machine

-- power domains (R470)

theorem domState_setDom (s : State) (d e : Nat) (x : PowerState) : domState (setDom s e x) d =
    if 76 ≤ d ∧ d < 84 ∧ gddrNeeded s = true then .run else if e = d then x else tblGet .run s.pwr.doms d :=
  if_congr Iff.rfl rfl (tblGet_set _ _ e d x)

theorem domState_setDom_of_ne (s : State) {d e : Nat} (h : e ≠ d) (x : PowerState) : domState (setDom s e x) d = domState s d := by
  rw [domState_setDom, if_neg h]
  rfl

theorem domState_setDom_run (s : State) (d : Nat) : domState (setDom s d .run) d = .run := by
  rw [domState_setDom, if_pos rfl, ite_self]

theorem domState_setDom_of_free {s : State} {d : Nat} (h : ¬ (76 ≤ d ∧ d < 84 ∧ gddrNeeded s = true)) (x : PowerState) :
    domState (setDom s d x) d = x := by
  rw [domState_setDom, if_neg h, if_pos rfl]

/-- The eight GDDR6 PHY pairs move together (R470). -/
def setPairs (s : State) (x : PowerState) : State := (upTo 8).foldl (fun t i => setDom t (76 + i) x) s

theorem domState_setPairs (s : State) (x : PowerState) {d : Nat} (h : 76 ≤ d ∧ d < 84) :
    ∃ t, gddrNeeded t = gddrNeeded s ∧ domState (setPairs s x) d = domState (setDom t d x) d := by
  obtain ⟨t, ⟨hneed, -⟩, -, hafter⟩ := foldl_upTo_at (F := fun t i => setDom t (76 + i) x)
    (K := fun t u => gddrNeeded u = gddrNeeded t ∧ domState u d = domState t d) (fun _ => ⟨rfl, rfl⟩)
    (fun h g => ⟨g.1.trans h.1, g.2.trans h.2⟩) (show d - 76 < 8 by omega)
    (fun t q _ hq => ⟨rfl, domState_setDom_of_ne t (by omega) x⟩) s
  rw [show 76 + (d - 76) = d by omega] at hafter
  exact ⟨t, hneed, hafter⟩

theorem lowerDom_of_pair {d : Nat} (h : 76 ≤ d ∧ d < 84) (s : State) (x : PowerState) : lowerDom s d x = setPairs s x := if_pos h

theorem lowerDom_of_quad {d : Nat} (h : d < 64) (s : State) (x : PowerState) : lowerDom s d x = setDom (lowerTiles s d x) d x :=
  (if_neg (by omega)).trans (if_pos h)

theorem lowerDom_of_other {d : Nat} (h : 64 ≤ d) (hpair : ¬ (76 ≤ d ∧ d < 84)) (s : State) (x : PowerState) : lowerDom s d x = setDom s d x :=
  (if_neg hpair).trans (if_neg (by omega))

/-- No PHY pair is lowered while GDDR6 is needed. -/
theorem gddrFree_of_domAllowed {s : State} {d : Nat} {x : PowerState} (h : 76 ≤ d ∧ d < 84) (hallowed : domAllowed s d x = true) :
    gddrNeeded s = false := by
  unfold domAllowed at hallowed
  rw [if_neg (by omega), if_neg (by omega), if_neg (by omega), if_pos h.2] at hallowed
  simpa using (Bool.and_eq_true_iff.1 hallowed).2

theorem domState_lowerDom {s : State} {d : Nat} {x : PowerState} (hallowed : domAllowed s d x = true) : domState (lowerDom s d x) d = x := by
  by_cases hpair : 76 ≤ d ∧ d < 84
  · obtain ⟨t, hneed, hdom⟩ := domState_setPairs s x hpair
    rw [lowerDom_of_pair hpair, hdom]
    exact domState_setDom_of_free (by simp [hneed, gddrFree_of_domAllowed hpair hallowed]) x
  · have hfree : ∀ t : State, domState (setDom t d x) d = x := fun t => domState_setDom_of_free (fun h => hpair ⟨h.1, h.2.1⟩) x
    by_cases hquad : d < 64
    · rw [lowerDom_of_quad hquad]; exact hfree _
    · rw [lowerDom_of_other (by omega) hpair]; exact hfree _

-- waking

/-- A domain that no reload and no count holds back is in Run. -/
theorem wake_of_free {d : Fin 96} {s : State} (hrun : ¬ (domState s d.val = .run ∨ s.pwr.reloads.contains d.val = true))
    (h : 64 ≤ d.val ∨ domState s d.val = .gated) : ∃ t, execPowerDomainWake d s = .next t ∧ domState t d.val = .run := by
  unfold execPowerDomainWake
  dsimp only
  rw [if_neg hrun]
  by_cases hpair : 76 ≤ d.val ∧ d.val < 84
  · rw [if_pos hpair]
    obtain ⟨t, -, hdom⟩ := domState_setPairs s .run hpair
    exact ⟨_, rfl, hdom.trans (domState_setDom_run t d.val)⟩
  · rw [if_neg hpair, if_neg]
    · exact ⟨_, rfl, domState_setDom_run s d.val⟩
    · rintro ⟨hquad, hst⟩
      obtain h | h := h
      · omega
      · simp [h] at hst

/-- One more quad leaves Off or Retain in this µs. -/
def countWake (s : State) : State := { s with pwr := { s.pwr with wakes := s.pwr.wakes + 1 } }

theorem domState_of_doms {s t : State} (h : t.pwr.doms = s.pwr.doms) {d : Nat} (hd : d < 64) : domState t d = domState s d := by
  unfold domState
  rw [if_neg (by omega), if_neg (by omega), h]

/-- Its strokes are to be reloaded. -/
def askReload (s : State) (d : Nat) : State := { s with pwr := { s.pwr with reloads := s.pwr.reloads ++ [d] } }

theorem wake_of_off {d : Fin 96} {s : State} (hquad : d.val < 64) (hoff : domState s d.val = .off)
    (hload : s.pwr.reloads.contains d.val = false) (hsame : s.lt - s.pwr.wakeTick < 400) :
    execPowerDomainWake d s = if 8 ≤ s.pwr.wakes then .next s
      else if quadResident s d.val then .next (askReload (countWake s) d.val) else .next (setDom (countWake s) d.val .run) := by
  have hfresh : decide (400 ≤ s.lt - s.pwr.wakeTick) = false := by simp [hsame]
  unfold execPowerDomainWake
  dsimp only
  rw [if_neg (by rw [hoff, hload]; decide), if_neg (by omega), if_pos ⟨hquad, .inl hoff⟩, hfresh]
  by_cases hres : quadResident s d.val = true
  · simp only [hoff, hres, Bool.false_eq_true, if_false, true_and, if_true]
    rfl
  · simp only [hoff, hres, Bool.false_eq_true, if_false, true_and]
    rfl

-- the strokes of a quad are reloaded (R167)

/-- A quad that leaves Off, out of the reloads asked for. -/
def reloaded (s : State) (q : Nat) : State :=
  setDom { s with pwr := { s.pwr with reloads := s.pwr.reloads.filter (· ≠ q) } } q .run

theorem reloadParts_pwr (l : List Nat) (s : State) : (l.foldl reloadResident s).pwr = s.pwr :=
  foldl_keeps (K := fun t u : State => u.pwr = t.pwr) (fun _ => rfl) (fun h g => g.trans h) l
    (fun _ p _ => same_of_law .pwr (reloadResident_touch p) rfl) s

theorem strokeReload_of_asked {q : Fin 64} {s : State} (h : s.pwr.reloads.contains q.val = true) :
    execStrokeReload q s = .next ((quadParts s q.val).foldl reloadResident (reloaded s q.val)) := if_neg (by simp only [h]; decide)

theorem powerDomainsMove : PowerDomainsMove := by
  intro d st s
  refine ⟨fun hdeeper hallowed => ⟨_, if_pos ⟨hdeeper, hallowed⟩, domState_lowerDom hallowed⟩, fun h => if_neg fun hmove => ?_,
    fun h hload hrun => wake_of_free (by simpa [hrun] using hload) h, fun hquad hoff hload hsame => ?_, fun q hq => ?_⟩
  · obtain h | h := h
    · rw [h] at hmove; exact absurd hmove.2 (by decide)
    · exact absurd hmove.1 (by omega)
  · rw [show exec (.powerDomainWake d) s = _ from wake_of_off hquad hoff hload hsame]
    refine ⟨fun hfull => if_pos hfull, fun hroom hres => ?_, fun hroom hres => ?_⟩
    · exact ⟨_, (if_neg (by omega)).trans (if_neg (by simp [hres])), domState_setDom_run _ d.val, rfl⟩
    · exact ⟨_, (if_neg (by omega)).trans (if_pos hres),
        (domState_of_doms (s := s) (t := askReload (countWake s) d.val) rfl hquad).trans hoff,
        List.mem_append_right _ (List.mem_singleton_self _)⟩
  · have hpwr := reloadParts_pwr (quadParts s q.val) (reloaded s q.val)
    refine ⟨_, strokeReload_of_asked hq, (domState_of_doms (congrArg _ hpwr) q.isLt).trans (domState_setDom_run _ q.val), ?_⟩
    rw [hpwr]
    exact fun hmem => by simpa using (List.mem_filter.1 hmem).2

-- the throttle level (R475)

theorem throttle_of_sameRegs {s t : State} (h : SameRegs s t) : throttle t = throttle s :=
  congrArg (fun w => fld w 3 0) (h (pwrOff 0x3C) (by unfold pwrOff; omega))

theorem throttle_setThrottle (s : State) : throttle (setThrottle s 8) = 8 := by
  unfold throttle setThrottle
  rw [regGet_regSet, if_pos rfl]
  decide

@[simp] theorem healthEvent_pwr (s : State) (code kind index a2 a3 : Nat) : (healthEvent s code kind index a2 a3).pwr = s.pwr :=
  same_of_law .pwr (healthEvent_touch code kind index a2 a3) rfl

/-- What the safe state and the readings of the power block say. -/
def SameSafety (s t : State) : Prop := t.pwr.safe = s.pwr.safe ∧ t.pwr.readings = s.pwr.readings

theorem SameSafety.refl (s : State) : SameSafety s s := ⟨rfl, rfl⟩

theorem SameSafety.trans {s t u : State} (h : SameSafety s t) (g : SameSafety t u) : SameSafety s u :=
  ⟨g.1.trans h.1, g.2.trans h.2⟩

theorem SameSafety.of_eq {s t : State} (h : t.pwr = s.pwr) : SameSafety s t := ⟨congrArg _ h, congrArg _ h⟩

theorem sameSafety_lowerDom (s : State) (d : Nat) (x : PowerState) : SameSafety s (lowerDom s d x) := by
  have hset : ∀ (t : State) e, SameSafety t (setDom t e x) := fun _ _ => ⟨rfl, rfl⟩
  unfold lowerDom
  refine iteInduction (motive := SameSafety s) (fun _ => ?_) (fun _ => iteInduction (motive := SameSafety s) (fun _ => ?_) (fun _ => hset s d))
  · exact foldl_keeps SameSafety.refl SameSafety.trans _ (fun t i _ => hset t (76 + i)) s
  · exact (SameSafety.of_eq (same_of_law .pwr (lowerTiles_touch d x) rfl)).trans (hset _ d)

theorem sameSafety_lowerIdle (s : State) (x : PowerState) : SameSafety s (lowerIdle s x) :=
  foldl_keeps SameSafety.refl SameSafety.trans _ (fun t d _ =>
    iteInduction (motive := SameSafety t) (fun _ => sameSafety_lowerDom t d _) (fun _ => .refl t)) s

/-- The safe state's throttle level stands, and its readings are those it began with. -/
theorem enterSafe_spec (s : State) (sensor : Nat) (tj : Int) : (enterSafe s sensor tj).pwr.safe = true
    ∧ (enterSafe s sensor tj).pwr.readings = s.pwr.readings ∧ throttle (enterSafe s sensor tj) = 8 := by
  unfold enterSafe
  dsimp only
  generalize hu : setThrottle { s with pwr := { s.pwr with safe := true, coolSince := none } } 8 = u
  have hsafe : u.pwr.safe = true ∧ u.pwr.readings = s.pwr.readings ∧ throttle u = 8 := by
    rw [← hu]
    exact ⟨rfl, rfl, throttle_setThrottle _⟩
  have hask := Touch.of_law (askSafe_touch (s := u))
  have hlow := Touch.of_law (lowerIdle_touch (s := askSafe u) .off)
  have hsame : SameSafety u (lowerIdle (askSafe u) .off) := (SameSafety.of_eq (hask.keeps .pwr rfl)).trans (sameSafety_lowerIdle _ .off)
  have hregs : SameRegs u (lowerIdle (askSafe u) .off) := .of_eq ((hlow.keeps .regs rfl).trans (hask.keeps .regs rfl))
  rw [healthEvent_pwr, throttle_of_sameRegs (hregs.trans (sameRegs_healthEvent _ _ _ _ _ _)), hsame.1, hsame.2]
  exact hsafe

/-- 32 readings taken, before the safe state. -/
theorem tjSample_of_32 {l : List Int} (h : l.length = 32) (s : State) : ∃ u, execTjSample l s =
      .next (if tjCrit s ≤ tjMax l ∧ u.pwr.safe = false ∧ isReady u = true then enterSafe u (hotSensor l) (tjMax l) else u)
    ∧ u.pwr.readings = l ∧ u.pwr.safe = s.pwr.safe ∧ isReady u = isReady s ∧ throttle u = throttle s := by
  unfold execTjSample
  dsimp only
  rw [if_neg (not_not.2 h)]
  refine ⟨_, rfl, ?_⟩
  generalize hu : ite (l.all (fun r => decide (r < tjCool s)) = true) _ _ = u
  have hfirst : u.pwr.readings = l ∧ u.pwr.safe = s.pwr.safe ∧ isReady u = isReady s ∧ throttle u = throttle s := by
    subst hu
    split
    · exact ⟨rfl, rfl, rfl, rfl⟩
    · exact ⟨rfl, rfl, rfl, rfl⟩
  refine iteInduction (motive := fun t : State => t.pwr.readings = l ∧ t.pwr.safe = s.pwr.safe ∧ isReady t = isReady s
    ∧ throttle t = throttle s) (fun _ => ?_) (fun _ => hfirst)
  rw [healthEvent_pwr, throttle_of_sameRegs (sameRegs_healthEvent _ _ _ _ _ _), isReady, healthEvent_rst]
  exact hfirst

-- the throttle's step

theorem throttleStep_up {s : State} (hsafe : s.pwr.safe = false) (h : tjWarn s ≤ tjMax s.pwr.readings ∨ capMw s < s.pwr.estimate) :
    execThrottleStep s = .next (setThrottle s (min 8 (throttle s + 1))) := by
  unfold execThrottleStep
  dsimp only
  rw [if_neg (by simp [hsafe]), if_pos h]

theorem throttleStep_down {s : State} (hsafe : s.pwr.safe = false) (hcap : s.pwr.estimate ≤ capMw s)
    (hcool : tjMax s.pwr.readings < tjWarn s - 12) : execThrottleStep s = .next (setThrottle s (throttle s - 1)) := by
  unfold execThrottleStep
  dsimp only
  rw [if_neg (by simp [hsafe]), if_neg (by omega), if_pos hcool]

theorem powerEstimate_pwr (mW : Nat) (s : State) : ∃ t, execPowerEstimate mW s = .next t ∧ t.pwr = { s.pwr with estimate := mW } := by
  unfold execPowerEstimate
  dsimp only
  split
  · exact ⟨_, rfl, healthEvent_pwr _ _ _ _ _ _⟩
  · exact ⟨_, rfl, rfl⟩

-- the end of the safe state (R476)

theorem safeClear_of_cool {s : State} {k : Nat} (hsafe : s.pwr.safe = true) (hk : s.pwr.coolSince = some k) (h : k + 40000000 ≤ s.lt) :
    (safeClear s).pwr.safe = false := by
  unfold safeClear
  rw [hk]
  dsimp only
  rw [if_pos ⟨hsafe, h⟩, healthEvent_pwr]

theorem safeClear_of_soon {s : State} {k : Nat} (hk : s.pwr.coolSince = some k) (h : s.lt < k + 40000000) : safeClear s = s := by
  unfold safeClear
  rw [hk]
  exact if_neg fun hcool => absurd hcool.2 (by omega)

theorem temperatureThrottles : TemperatureThrottles := by
  intro l s
  refine ⟨fun hlen => ?_, throttleStep_up, throttleStep_down, fun mW => powerEstimate_pwr mW s, fun hphase hsafe k hk => ?_⟩
  · obtain ⟨u, hrun, hread, hsafe, hready, hthr⟩ := tjSample_of_32 hlen s
    refine ⟨_, hrun, ?_, fun hcrit hrdy hnot => ?_, fun hcool => ?_⟩
    · exact iteInduction (motive := fun t : State => t.pwr.readings = l) (fun _ => (enterSafe_spec u _ _).2.1.trans hread) (fun _ => hread)
    · rw [if_pos ⟨hcrit, hsafe.trans hnot, hready.trans hrdy⟩]
      obtain ⟨hin, -, hlevel⟩ := enterSafe_spec u (hotSensor l) (tjMax l)
      exact ⟨hin, hlevel⟩
    · rw [if_neg fun h => absurd h.1 (by omega)]
      exact ⟨hsafe, hthr⟩
  · have hwrite : exec .pwrSafeClr s = .next (safeClear s) := hostWrite_of_phase_ne_bootFail _ hphase
    exact ⟨fun h => ⟨_, hwrite, safeClear_of_cool hsafe hk h⟩, fun h => hwrite.trans (congrArg _ (safeClear_of_soon hk h))⟩

/-- Settles O39, by the domain a move sets and by what the readings and the safe state's events keep of the power block. -/
theorem powerAndTemperature : Obligations.PowerAndTemperature := ⟨powerDomainsMove, temperatureThrottles⟩

end Sys2Proof.Machine
end

section
/-! SUPPORT. Errors and known-answer tests (R284, R285, R444, R524): what marking a unit and charging an error keep, and the verdicts that a
clock fault gives. -/

namespace Sys2Proof.Machine

-- a unit is marked failed (R524)

theorem healthEvent_quiet (s : State) (code kind index a2 a3 : Nat) : Quiet s (healthEvent s code kind index a2 a3) :=
  raiseEvent_quiet s _ _ _ _ _ _ _

theorem applySpare_quiet (s : State) (u : FailedUnit) : Quiet s (applySpare s u) := by
  unfold applySpare
  dsimp only
  refine iteInduction (motive := Quiet s) (fun _ => ?_) (fun _ => ?_)
  · refine Quiet.trans (Quiet.trans ?_ (healthEvent_quiet _ _ _ _ _ _)) (healthEvent_quiet _ _ _ _ _ _)
    exact iteInduction (motive := Quiet s) (fun _ => .of_eq rfl rfl rfl) (fun _ => .of_eq rfl rfl rfl)
  · refine Quiet.trans ?_ (healthEvent_quiet _ _ _ _ _ _)
    exact iteInduction (motive := Quiet s) (fun _ => .of_eq rfl rfl rfl) (fun _ => .of_eq rfl rfl rfl)

theorem markUnit_quiet (s : State) (kind index crit n : Nat) (parts : BitVec 16) : Quiet s (markUnit s kind index crit n parts) := by
  have hlast := fun (t : State) (a : Health) code k i x y => Quiet.trans (s := t) (t := { t with anl := a }) (.of_eq rfl rfl rfl)
    (healthEvent_quiet _ code k i x y)
  unfold markUnit
  dsimp only
  refine iteInduction (motive := Quiet s) (fun _ => .refl s) (fun _ => ?_)
  generalize hu : healthEvent (writeFault s _) 0x01 kind index crit n = u
  have hmarked : Quiet s u := hu ▸ (writeFault_quiet s _).trans (healthEvent_quiet _ _ _ _ _ _)
  refine hmarked.trans ?_
  refine iteInduction (motive := Quiet u) (fun _ => ?_) (fun _ => ?_)
  · exact iteInduction (motive := Quiet u) (fun _ => applySpare_quiet u _) (fun _ => hlast u _ _ _ _ _ _)
  · refine iteInduction (motive := Quiet u) (fun _ => ?_) (fun _ => healthEvent_quiet u _ _ _ _ _)
    split
    · exact hlast u _ _ _ _ _ _
    · exact healthEvent_quiet u _ _ _ _ _

theorem countTileUe_quiet (s : State) (t : Nat) : Quiet s (countTileUe s t) := by
  have hcount := fun (a : Health) => (.of_eq rfl rfl rfl : Quiet s { s with anl := a })
  unfold countTileUe
  exact iteInduction (motive := Quiet s) (fun _ => (hcount _).trans (markUnit_quiet _ _ _ _ _ _)) (fun _ => hcount _)

-- the record of an error (R444)

/-- The log entry of an error. -/
def errorRec (s : State) (e : ErrorPlace) (addr : Word) : UeEntry := ⟨(placeOf s e addr.toNat).1, addr, lc s⟩

/-- An error logged and counted. -/
def recordedError (s : State) (e : ErrorPlace) (addr : Word) : State :=
  { s with mem := { s.mem with
    log := (s.mem.log ++ [errorRec s e addr]).drop ((s.mem.log ++ [errorRec s e addr]).length - 16)
    ueCount := satInc 32 s.mem.ueCount } }

/-- Its fault record stands, and its row may be marked. -/
def rowJudged (s : State) (e : ErrorPlace) (addr : Word) : State :=
  markRow (writeFault (recordedError s e addr) { faultOf 0x04 (placePart s e) with
    place := put (placeOf s e addr.toNat).1 24 ||| BitVec.ofNat 32 (addr.toNat % 2 ^ 24) })
    (placeOf s e addr.toNat).1 (placeOf s e addr.toNat).2 1 1

/-- The tile whose memory an error lies in. -/
def errorTile (addr : Word) : ErrorPlace → Option Nat
  | .scratchpad t => some t.val
  | .strokes _ _ _ => some (addr.toNat / 2 ^ 16 % 240)
  | _ => none

def tileJudged (s : State) : Option Nat → State
  | some t => countTileUe s t
  | none => s

/-- Before an error is charged. -/
def loggedError (s : State) (e : ErrorPlace) (addr : Word) : State := tileJudged (rowJudged s e addr) (errorTile addr e)

theorem execUncorrectableError_eq (e : ErrorPlace) (addr : Word) (s : State) :
    execUncorrectableError e addr s = .next (chargeError (loggedError s e addr) e addr.toNat) := by
  have htile : ∀ u : State, (match e with
      | .scratchpad t => countTileUe u t.val
      | .strokes _ _ _ => countTileUe u (addr.toNat / 2 ^ 16 % 240)
      | _ => u) = tileJudged u (errorTile addr e) := fun u => by cases e <;> rfl
  exact congrArg (fun t => Host.Outcome.next (chargeError t e addr.toNat)) (htile (rowJudged s e addr))

/-- What an error's record and its marks touch. -/
def logFields : List Field := [.regs, .ctxs, .rings, .journal, .waiting, .host, .mailbox, .fuse, .blt, .anl]

theorem rowJudged_spec (s : State) (e : ErrorPlace) (addr : Word) :
    Quiet (recordedError s e addr) (rowJudged s e addr) ∧ Touch logFields (recordedError s e addr) (rowJudged s e addr) := by
  unfold rowJudged
  generalize recordedError s e addr = u
  exact ⟨(writeFault_quiet u _).trans (markUnit_quiet _ _ _ _ _ _), markRow_touch _ _ _ _ rfl (writeFault_touch _ rfl (.refl _ u))⟩

theorem loggedError_spec (s : State) (e : ErrorPlace) (addr : Word) :
    Quiet (recordedError s e addr) (loggedError s e addr) ∧ Touch logFields (recordedError s e addr) (loggedError s e addr) := by
  obtain ⟨hquiet, htouch⟩ := rowJudged_spec s e addr
  unfold loggedError
  generalize rowJudged s e addr = u at hquiet htouch ⊢
  cases errorTile addr e with
  | none => exact ⟨hquiet, htouch⟩
  | some t => exact ⟨hquiet.trans (countTileUe_quiet u t), countTileUe_touch t rfl htouch⟩

-- the log outlasts the charge

/-- The error log and its count stand. -/
def KeepsLog (s t : State) : Prop := t.mem.log = s.mem.log ∧ t.mem.ueCount = s.mem.ueCount

theorem KeepsLog.refl (s : State) : KeepsLog s s := ⟨rfl, rfl⟩

theorem KeepsLog.trans {s t u : State} (h : KeepsLog s t) (g : KeepsLog t u) : KeepsLog s u := ⟨g.1.trans h.1, g.2.trans h.2⟩

theorem KeepsLog.of_eq {s t : State} (h : t.mem = s.mem) : KeepsLog s t := ⟨congrArg _ h, congrArg _ h⟩

theorem KeepsLog.fold {α : Type} {F : State → α → State} (l : List α) (s : State) (hF : ∀ t a, KeepsLog t (F t a)) :
    KeepsLog s (l.foldl F s) := foldl_keeps KeepsLog.refl KeepsLog.trans l (fun t a _ => hF t a) s

theorem teardownStart_keepsLog (s : State) (c : Nat) (cause : KillCause) : KeepsLog s (teardownStart s c cause) := by
  have hfree : ∀ t : State, KeepsLog t (freeWorkspaces t c) := fun _ => ⟨rfl, rfl⟩
  have hdrop : ∀ t : State, KeepsLog t (dropContextWork t c) := fun t => .of_eq (same_of_law .mem (dropContextWork_touch c) rfl)
  unfold teardownStart
  dsimp only
  refine KeepsLog.trans (KeepsLog.trans ?_ (hfree _)) (hdrop _)
  split
  · exact iteInduction (fun _ => .of_eq (same_of_law .mem (beginKill_touch _ _ _ _) rfl)) (fun _ => .refl s)
  · exact .refl s

theorem teardown_keepsLog (s : State) (c cause : Nat) : KeepsLog s (teardown s c cause) := by
  have hrings := fun t : State => KeepsLog.fold (F := fun t r => failRing t c r stContext cause .halted) (upTo 8) t
    fun t r => .of_eq (same_of_law .mem (failRing_touch c r stContext cause .halted) rfl)
  have hlaunches := fun t : State => KeepsLog.fold (F := fun t j => teardownLaunch t (getCtx s c).part j c cause) (upTo 64) t
    fun t j => .of_eq (same_of_law .mem (teardownLaunch_touch _ j c cause) rfl)
  have hinsts := fun t : State => (.of_eq (same_of_law .mem (releaseInstances_touch c) rfl) : KeepsLog t (releaseInstances t c))
  have hfault := fun (t : State) f => (.of_eq (same_of_law .mem (writeFault_touch f) rfl) : KeepsLog t (writeFault t f))
  unfold teardown
  exact iteInduction (motive := KeepsLog s) (fun _ => .refl s) (fun _ =>
    ((((teardownStart_keepsLog s c .teardown).trans (hrings _)).trans (hlaunches _)).trans (hinsts _)).trans (hfault _ _))

theorem finishItem_keepsLog (s : State) (c r status cause : Nat) : KeepsLog s (finishItem s c r status cause) :=
  .of_eq (same_of_law .mem (finishItem_touch c r status cause) rfl)

theorem dropBe_keepsLog (s : State) (r status cause : Nat) : KeepsLog s (dropBe s r status cause) := by
  cases h : getBe s r with
  | none => rw [show dropBe s r status cause = s by unfold dropBe; rw [h]]; exact .refl s
  | some b =>
    have hstale : KeepsLog s (staleOf s b.part b.slot) := .of_eq (same_of_law .mem (staleOf_touch b.part b.slot) rfl)
    have hout : ∀ t : State, KeepsLog t (outOfBe t r b.ws) := fun _ => ⟨rfl, rfl⟩
    have hfree : ∀ t : State, KeepsLog t (freeReleased t b.part) := fun _ => ⟨rfl, rfl⟩
    rw [dropBe_of_some h]
    exact ((hstale.trans (hout _)).trans (finishItem_keepsLog _ _ _ _ _)).trans (hfree _)

theorem failRingsOf_keepsLog (s : State) (p k : Nat) : KeepsLog s (failRingsOf s p k) := by
  refine .fold _ s fun t r => ?_
  split
  · refine iteInduction (motive := KeepsLog t) (fun _ => KeepsLog.trans ?_ (dropBe_keepsLog _ r _ _)) (fun _ => .refl t)
    exact iteInduction (motive := KeepsLog t) (fun _ => .of_eq (same_of_law .mem (beginKill_touch _ _ _ _) rfl))
      (fun _ => .of_eq (same_of_law .mem (dropPostings_touch _ _) rfl))
  · exact .refl t

theorem unbindSlot_keepsLog (s : State) (p k : Nat) : KeepsLog s (unbindSlot s p k) := by
  cases h : (getSlot s p k).img with
  | none => rw [show unbindSlot s p k = s by unfold unbindSlot; rw [h]]; exact .refl s
  | some im =>
    have hdrop : (clearedSlot s p k).mem = s.mem := (same_of_law .mem (dropStrokes_touch p _) rfl : (dropStrokes s p _).mem = s.mem)
    have hlost : KeepsLog s (sourcesLost (clearedSlot s p k) p k) := .of_eq ((sourcesLost_keeps _ p k).2.1.trans hdrop)
    have hfreed := fun t : State => (⟨rfl, rfl⟩ : KeepsLog t { t with mem := { t.mem with imgUsed := t.mem.imgUsed - im.masterBytes } })
    have hrec := fun t : State => KeepsLog.of_eq (same_of_law .mem (slotConfig_touch (s := t) p k im false) rfl)
    rw [unbindSlot_of_img h]
    exact (hlost.trans (hfreed _)).trans (hrec _)

theorem unbindBad_keepsLog (s : State) (p k : Nat) : KeepsLog s (unbindBad s p k) := by
  have hlaunch : KeepsLog s (failLaunchesOf s p k) := .of_eq (same_of_law .mem (failLaunchesOf_touch p k) rfl)
  have hfail := hlaunch.trans (failRingsOf_keepsLog _ p k)
  unfold unbindBad
  dsimp only
  split
  · exact (hfail.trans (finishItem_keepsLog _ _ _ _ _)).trans (unbindSlot_keepsLog _ p k)
  · exact hfail.trans (unbindSlot_keepsLog _ p k)

theorem reloadSlot_keepsLog (s : State) (p k : Nat) (bad : Bool) : KeepsLog s (reloadSlot s p k bad) := by
  have hkill : KeepsLog s (killForReload s p k) := .of_eq (same_of_law .mem (killForReload_touch p k) rfl)
  have hfault := fun (t : State) f => KeepsLog.of_eq (same_of_law .mem (writeFault_touch (s := t) f) rfl)
  unfold reloadSlot
  exact iteInduction (motive := KeepsLog s) (fun _ => (hkill.trans (hfault _ _)).trans (unbindBad_keepsLog _ p k)) (fun _ => hkill.trans (hfault _ _))

/-- A context is torn down for an error, if one is charged. -/
def teardownSome (s : State) : Option Nat → State
  | some c => teardown s c 2
  | none => s

theorem teardownSome_keepsLog (s : State) (c : Option Nat) : KeepsLog s (teardownSome s c) := by
  cases c with
  | none => exact .refl s
  | some c => exact teardown_keepsLog s c 2

/-- Whose context an `Inst` belongs to. -/
def instCtx (s : State) (p num : Nat) : Option Nat := ((getPart s p).inst? num).map (fun i => i.ctx)

/-- The tiles' contexts are torn down. -/
def teardownTile (s : State) (t : Nat) : State :=
  match tilePart s t with
  | some p => (holderCtxs s p).foldl (fun u c => teardown u c 2) s
  | none => s

theorem teardownTile_keepsLog (s : State) (t : Nat) : KeepsLog s (teardownTile s t) := by
  unfold teardownTile
  split
  · exact .fold _ s fun u c => teardown_keepsLog u c 2
  · exact .refl s

/-- A bound slot is reloaded. -/
def reloadBound (s : State) (p k : Nat) (bad : Bool) : State := if (getSlot s p k).img.isSome then reloadSlot s p k bad else s

theorem reloadBound_keepsLog (s : State) (p k : Nat) (bad : Bool) : KeepsLog s (reloadBound s p k bad) :=
  iteInduction (motive := KeepsLog s) (fun _ => reloadSlot_keepsLog s p k bad) (fun _ => .refl s)

/-- A model on the tiles is killed for its re-run. -/
def killStaged (s : State) (p : Nat) : State := if (modelHolder s p).isSome then beginKill s p .staging true [] else s

theorem killStaged_keepsLog (s : State) (p : Nat) : KeepsLog s (killStaged s p) :=
  iteInduction (motive := KeepsLog s) (fun _ => .of_eq (same_of_law .mem (beginKill_touch _ _ _ _) rfl)) (fun _ => .refl s)

theorem chargeError_of_inst {s : State} {e : ErrorPlace} {p : PartId} {num : BitVec 10}
    (h : e = .primary p num ∨ e = .assayCopy p num ∨ e = .saved p (.state num)) (addr : Nat) :
    chargeError s e addr = teardownSome s (instCtx s p.val num.toNat) := by
  have hcharge : ∀ o : Option Inst, (match o with | some i => teardown s i.ctx 2 | none => s) = teardownSome s (o.map (fun i => i.ctx)) :=
    fun o => by cases o <;> rfl
  obtain rfl | rfl | rfl := h
  · exact hcharge _
  · exact hcharge _
  · exact hcharge _

theorem chargeError_of_workspace {s : State} {p : PartId} {addr : Nat} {o : Option Nat} (h : workspaceCtx s p.val addr = o) :
    chargeError s (.workspace p) addr = teardownSome s o := by
  unfold chargeError
  dsimp only
  rw [h]
  cases o with
  | none => rfl
  | some c => rfl

/-- Teardown and reload are the outcomes of Table 16.8 that give back memory, and none writes the log. -/
theorem chargeError_keepsLog (s : State) (e : ErrorPlace) (addr : Nat) : KeepsLog s (chargeError s e addr) := by
  cases e with
  | scratchpad t => exact teardownTile_keepsLog s t.val
  | accumulator t => exact teardownTile_keepsLog s t.val
  | primary p num => rw [chargeError_of_inst (.inl rfl)]; exact teardownSome_keepsLog s _
  | assayCopy p num => rw [chargeError_of_inst (.inr (.inl rfl))]; exact teardownSome_keepsLog s _
  | workspace p => rw [chargeError_of_workspace rfl]; exact teardownSome_keepsLog s _
  | strokes p k bad => exact reloadBound_keepsLog s p.val k.val bad
  | store p k bad => exact reloadBound_keepsLog s p.val k.val bad
  | entryTable p k bad => exact reloadBound_keepsLog s p.val k.val bad
  | master p k =>
    exact iteInduction (c := (getSlot s p.val k.val).img.isSome = true) (motive := KeepsLog s) (fun _ => .of_eq rfl) (fun _ => .refl s)
  | staging p => exact killStaged_keepsLog s p.val
  | mailbox c =>
    exact iteInduction (c := (getCtx s c.val).func = 16) (motive := KeepsLog s) (fun _ => teardown_keepsLog s c.val 1) (fun _ => .refl s)
  | retained =>
    exact iteInduction (c := s.rst.phase = .warmRelease ∨ s.ctxs.any (fun e => e.2.recover) = true) (motive := KeepsLog s)
      (fun _ => .of_eq rfl) (fun _ => .refl s)
  | saved p part =>
    cases part with
    | state num => rw [chargeError_of_inst (.inr (.inr rfl))]; exact teardownSome_keepsLog s _
    | table k bad => exact reloadBound_keepsLog s p.val k.val bad
    | stage => exact killStaged_keepsLog s p.val
  | blotter seq => exact .of_eq rfl
  | ferrule k => exact .of_eq (same_of_law .mem (failCore_touch k.val) rfl)
  | unowned a => exact .refl s

-- the outcomes of Table 16.8

theorem teardown_empties {s : State} {c : Nat} (hon : (getCtx s c).on = true) (cause : Nat) {r : Nat} (hr : r < 8) :
    (getRing (teardown s c cause) c r).items = [] := by
  obtain ⟨t, u, f, hrun, hstart, -, hrest⟩ := teardown_of_on hon cause
  have hhalted := RingHalted.of_keeps (hstart.keepsRing c r) (RingHalted.keeps (failRings_halted t c stContext cause hr)
    ((hrest.trans (writeFault_quiet u f)).keepsRing c r))
  rw [hrun]
  exact hhalted.1

theorem Ctx.on_of_sameBut {x y : Ctx} (h : x.sameBut y) : y.on = x.on := 
  (congrArg Ctx.on (show y = { x with cqTail := y.cqTail, drop := y.drop, notify := y.notify } from h)).trans rfl

section
variable (s : State) (e : ErrorPlace) (addr : Word)

theorem loggedError_parts : (loggedError s e addr).parts = s.parts := (loggedError_spec s e addr).2.keeps .parts rfl

theorem loggedError_be : (loggedError s e addr).be = s.be := (loggedError_spec s e addr).2.keeps .be rfl

theorem on_loggedError (c : Nat) : (getCtx (loggedError s e addr) c).on = (getCtx s c).on :=
  Ctx.on_of_sameBut ((loggedError_spec s e addr).1.ctxs c)

theorem loggedError_log : (loggedError s e addr).mem.ueCount = satInc 32 s.mem.ueCount
    ∧ (loggedError s e addr).mem.log.getLast? = some (errorRec s e addr) := by
  have hmem : (loggedError s e addr).mem = (recordedError s e addr).mem := (loggedError_spec s e addr).2.keeps .mem rfl
  refine ⟨congrArg MemSys.ueCount hmem, (congrArg (fun m : MemSys => m.log.getLast?) hmem).trans ?_⟩
  show ((s.mem.log ++ [errorRec s e addr]).drop ((s.mem.log ++ [errorRec s e addr]).length - 16)).getLast? = some (errorRec s e addr)
  rw [List.getLast?_drop, if_neg (by simp), List.getLast?_concat]

theorem workspaceCtx_congr {s t : State} (h : t.be = s.be) (p addr : Nat) : workspaceCtx t p addr = workspaceCtx s p addr := by
  unfold workspaceCtx getBe
  rw [h]

theorem uncorrectableErrorIsCharged : ∃ t, execUncorrectableError e addr s = .next t ∧ t.mem.ueCount = satInc 32 s.mem.ueCount
    ∧ t.mem.log.getLast? = some (errorRec s e addr)
    ∧ (∀ (p : PartId) (num : BitVec 10) i, (e = .primary p num ∨ e = .assayCopy p num ∨ e = .saved p (.state num)) →
        (getPart s p.val).inst? num.toNat = some i → (getCtx s i.ctx).on = true → ∀ r < 8, (getRing t i.ctx r).items = [])
    ∧ (∀ p c, e = .workspace p → workspaceCtx s p.val addr.toNat = some c → (getCtx s c).on = true →
        ∀ r < 8, (getRing t c r).items = [])
    ∧ (∀ p k, e = .master p k → (getSlot s p.val k.val).img.isSome = true → (getSlot t p.val k.val).masterBad = true) := by
  obtain ⟨hcount, hlog⟩ := loggedError_log s e addr
  obtain ⟨hkeepLog, hkeepCount⟩ := chargeError_keepsLog (loggedError s e addr) e addr.toNat
  refine ⟨_, execUncorrectableError_eq e addr s, hkeepCount.trans hcount, (congrArg List.getLast? hkeepLog).trans hlog,
    fun p num i he hi hon r hr => ?_, fun p c he hc hon r hr => ?_, fun p k he himg => ?_⟩
  · have hinst : instCtx (loggedError s e addr) p.val num.toNat = some i.ctx := by
      unfold instCtx
      rw [getPart_congr (loggedError_parts s e addr), hi]
      rfl
    rw [chargeError_of_inst he, hinst]
    exact teardown_empties ((on_loggedError s e addr i.ctx).trans hon) 2 hr
  · subst he
    rw [chargeError_of_workspace ((workspaceCtx_congr (loggedError_be s _ addr) p.val addr.toNat).trans hc)]
    exact teardown_empties ((on_loggedError s _ addr c).trans hon) 2 hr
  · subst he
    have hslot := getSlot_of_parts (loggedError_parts s (.master p k) addr) p.val k.val
    have hcharge : chargeError (loggedError s (.master p k) addr) (.master p k) addr.toNat =
        setSlot (loggedError s (.master p k) addr) p.val k.val
          { getSlot (loggedError s (.master p k) addr) p.val k.val with masterBad := true } :=
      if_pos ((congrArg (fun x : Slot => x.img.isSome) hslot).trans himg)
    rw [hcharge, getSlot_setSlot_same]

end

-- scrubs (R442, R444)

/-- A corrected word is counted. -/
def scrubbed (s : State) (array : Nat) (addr : Word) : State :=
  let k := array * 2 ^ 32 + addr.toNat
  let all := tblGet [] s.anl.rowCe k ++ [s.lt]
  { s with
    anl := { s.anl with rowCe := tblSet [] s.anl.rowCe k all }
    mem := { s.mem with
      ce := tblSet 0 s.mem.ce array (satInc 32 (tblGet 0 s.mem.ce array))
      ceMulti := if decide (all.length = 2) then tblSet 0 s.mem.ceMulti array (satInc 32 (tblGet 0 s.mem.ceMulti array)) else s.mem.ceMulti } }

theorem execScrub_mem (array : Fin 55) (addr : Word) (s : State) :
    ∃ t, execScrub array addr true s = .next t ∧ t.mem = (scrubbed s array.val addr).mem := by
  have hrow := fun (u : State) a b c d => (same_of_law .mem (markRow_touch a b c d) rfl : (markRow u a b c d).mem = u.mem)
  have htile := fun (u : State) a => (same_of_law .mem (countTileCe_touch a) rfl : (countTileCe u a).mem = u.mem)
  have hmarked := fun (u : State) (c : Prop) [Decidable c] a b d e =>
    iteInduction (c := c) (motive := fun t : State => t.mem = u.mem) (fun _ => hrow u a b d e) (fun _ => rfl)
  refine ⟨_, rfl, ?_⟩
  exact iteInduction (motive := fun t : State => t.mem = _) (fun _ => (htile _ _).trans (hmarked (scrubbed s array.val addr) _ _ _ _ _))
    (fun _ => hmarked (scrubbed s array.val addr) _ _ _ _ _)

theorem scrubbed_counts (s : State) (array : Nat) (addr : Word) :
    tblGet 0 (scrubbed s array addr).mem.ce array = satInc 32 (tblGet 0 s.mem.ce array)
      ∧ tblGet 0 (scrubbed s array addr).mem.ceMulti array = (if (tblGet [] s.anl.rowCe (array * 2 ^ 32 + addr.toNat)).length = 1
        then satInc 32 (tblGet 0 s.mem.ceMulti array) else tblGet 0 s.mem.ceMulti array) := by
  refine ⟨tblGet_set_same _ _ _ _, ?_⟩
  by_cases h : (tblGet [] s.anl.rowCe (array * 2 ^ 32 + addr.toNat)).length = 1
  · rw [if_pos h]
    exact (congrArg (fun m => tblGet 0 m array) (if_pos (by simpa using h))).trans (tblGet_set_same _ _ _ _)
  · rw [if_neg h]
    exact congrArg (fun m => tblGet 0 m array) (if_neg (by simpa using h))

theorem errorsAreLoggedAndCharged : ErrorsAreLoggedAndCharged := by
  intro e addr s
  refine ⟨uncorrectableErrorIsCharged s e addr, fun a => ⟨?_, rfl⟩⟩
  obtain ⟨t, hrun, hmem⟩ := execScrub_mem a addr s
  refine ⟨t, hrun, ?_⟩
  rw [hmem]
  exact scrubbed_counts s a.val addr

-- the lanes' tests (R284, R285)

theorem assayKat_of_idle {lane : Fin 16} {s : State}
    (h : ∀ p < 16, (laneParts s lane.val).getLsbD p = true → (getPart s p).postings = []) :
    (upTo 16).any (fun p => (laneParts s lane.val).getLsbD p && decide ((getPart s p).postings ≠ [])) = false := by
  simp only [List.any_eq_false, Bool.and_eq_true, decide_eq_true_eq, not_and, not_not]
  exact fun p hp => h p (List.mem_range.1 hp)

theorem assayKat_pass {lane : Fin 16} {s : State}
    (h : ∀ p < 16, (laneParts s lane.val).getLsbD p = true → (getPart s p).postings = []) :
    ∃ t, execAssayKat lane true s = .next t ∧ t.assay.proven = s.assay.proven ||| BitVec.ofNat 16 (2 ^ lane.val)
      ∧ t.assay.clockOk = (s.assay.clockOk || decide (t.assay.proven = 0xFFFF)) ∧ t.assay.faulty = s.assay.faulty := by
  unfold execAssayKat
  dsimp only
  rw [if_neg (by rw [assayKat_of_idle h]; decide), if_pos rfl]
  exact ⟨_, rfl, rfl, rfl, rfl⟩

theorem assayKat_fail {lane : Fin 16} {s : State}
    (h : ∀ p < 16, (laneParts s lane.val).getLsbD p = true → (getPart s p).postings = []) :
    ∃ t, execAssayKat lane false s = .next t ∧ t.assay.faulty = s.assay.faulty ||| BitVec.ofNat 16 (2 ^ lane.val) := by
  have hassay := fun (u : State) f a b c d e =>
    (same_of_law .assay (markUnit_touch a b c d e) rfl : (markUnit (writeFault u f) a b c d e).assay = (writeFault u f).assay).trans
      (same_of_law .assay (writeFault_touch f) rfl)
  unfold execAssayKat
  dsimp only
  rw [if_neg (by rw [assayKat_of_idle h]; decide), if_neg (by decide)]
  exact ⟨_, rfl, congrArg Assay.faulty (hassay _ _ _ _ _ _ _)⟩

-- a fault of the Assay clock (R285)

theorem gateDecide_assay (s : State) (p j : Nat) : (gateDecide s p j).assay = s.assay := by
  have hmembers := fun (im : Image) (c : Cmd) (t : State) => foldl_keeps (K := fun t u : State => u.assay = t.assay) (fun _ => rfl)
    (fun h g => g.trans h) c.members (F := fun t m => gateMember t p j im c m) (fun t m _ => same_of_law .assay (gateMember_touch p j im c m) rfl) t
  have htraj := fun (im : Image) (c : Cmd) (t : State) => (same_of_law .assay (keepTraj_touch p j im c) rfl : (keepTraj t p j im c).assay = t.assay)
  have hend := fun t : State => (same_of_law .assay (endRun_touch p j) rfl : (endRun t p j).assay = t.assay)
  have hfree := fun t : State => (rfl : (freeReleased t p).assay = t.assay)
  have hdrop : (dropPostings s p (.entry j)).assay = s.assay := rfl
  unfold gateDecide
  split
  · rfl
  · dsimp only
    split
    · exact (hend _).trans hdrop
    · refine (hfree _).trans ((hend _).trans ?_)
      exact iteInduction (motive := fun t : State => t.assay = s.assay) (fun _ => (hmembers _ _ _).trans hdrop)
        (fun _ => (htraj _ _ _).trans ((hmembers _ _ _).trans hdrop))

theorem certRecord_assay (s : State) (p entry : Nat) (c : AssayCert) : (certRecord s p entry c).assay = s.assay :=
  same_of_law .assay (certRecord_touch p entry c) rfl

theorem certRecords_assay (p j : Nat) (l : List (Nat × List Word × Option AssayCert)) (s : State) :
    (l.foldl (fun t e => match e.2.2 with | some k => certRecord t p j k | none => t) s).assay = s.assay := by
  refine foldl_keeps (K := fun t u : State => u.assay = t.assay) (fun _ => rfl) (fun h g => g.trans h) l (fun t e _ => ?_) s
  split
  · exact certRecord_assay t p j _
  · rfl

theorem writeFault_assay (s : State) (f : FaultRec) : (writeFault s f).assay = s.assay := same_of_law .assay (writeFault_touch f) rfl

theorem faulted_assay (s : State) (c : Prop) [Decidable c] (f : FaultRec) : (if c then writeFault s f else s).assay = s.assay :=
  iteInduction (motive := fun t : State => t.assay = s.assay) (fun _ => writeFault_assay s f) (fun _ => rfl)

theorem entryVerdict_assay (s : State) (p j : Nat) (q : Posting) (fault : VerdictFault) : (entryVerdict s p j q fault).assay = s.assay := by
  have hput := fun (t : State) (c : Cmd) => (rfl : (putCmd t p (.entry j) c).assay = t.assay)
  unfold entryVerdict
  dsimp only
  split
  · rfl
  split
  · rfl
  next im _ =>
    exact iteInduction (motive := fun t : State => t.assay = s.assay)
      (fun _ => (hput _ _).trans ((faulted_assay _ _ _).trans (certRecords_assay p j _ _)))
      (fun _ => (gateDecide_assay _ p j).trans ((hput _ _).trans ((faulted_assay _ _ _).trans (certRecords_assay p j _ _))))

theorem partVerdict_assay (s : State) (p : Nat) (fault : VerdictFault) : (partVerdict s p fault).assay = s.assay := by
  unfold partVerdict
  split
  · split
    · exact entryVerdict_assay s p _ _ fault
    · rfl
  · rfl

theorem failPostings_assay (n : Nat) (s : State) (p : Nat) : (failPostings n s p).assay = s.assay := by
  induction n generalizing s with
  | zero => rfl
  | succ n ih =>
    unfold failPostings
    split
    · rfl
    · exact (ih _).trans (partVerdict_assay s p .none)

/-- The check at the head of the pool is out of it. -/
def poolDropped (a : Assay) : Assay := { a with beQueue := a.beQueue.drop 1 }

theorem poolVerdict_assay (s : State) (p r : Nat) (b : BeCmd) (fault : VerdictFault) :
    (poolVerdict s p r b fault).assay = poolDropped s.assay := by
  have hput := fun (t : State) (x : Option BeCmd) => (rfl : (setBe t r x).assay = t.assay)
  unfold poolVerdict
  dsimp only
  split
  · rfl
  split
  · rfl
  · refine (hput _ _).trans ((faulted_assay _ _ _).trans ?_)
    split
    · exact certRecord_assay _ p 0 _
    · rfl

/-- One check of the pool fails. -/
def failCheck (t : State) (r : Nat) : State :=
  match getBe t r with
  | some b => poolVerdict t b.part r b .none
  | none => { t with assay := poolDropped t.assay }

theorem failPool_eq (s : State) : failPool s = s.assay.beQueue.foldl failCheck s := rfl

theorem failCheck_assay (t : State) (r : Nat) : (failCheck t r).assay = poolDropped t.assay := by
  unfold failCheck
  split
  · exact poolVerdict_assay t _ r _ .none
  · rfl

/-- As many checks leave the pool as fail. -/
theorem failChecks_assay (l : List Nat) (s : State) :
    (l.foldl failCheck s).assay = { s.assay with beQueue := s.assay.beQueue.drop l.length } := by
  induction l generalizing s with
  | nil => rfl
  | cons r l ih =>
    rw [List.foldl_cons, ih, failCheck_assay]
    simp [poolDropped]

theorem assayClockFault_clears (s : State) : ∃ t, execAssayClockFault s = .next t ∧ t.assay.clockOk = false ∧ t.assay.proven = 0
    ∧ t.assay.beQueue = [] := by
  refine ⟨_, rfl, ?_⟩
  generalize hu : (upTo 16).foldl (fun t p => failPostings (getPart t p).postings.length t p) _ = u
  have hassay : u.assay = { s.assay with clockOk := false, proven := 0 } := by
    rw [← hu]
    refine (foldl_keeps (K := fun t u : State => u.assay = t.assay) (fun _ => rfl) (fun h g => g.trans h) _
      (fun t p _ => failPostings_assay _ t p) _).trans (writeFault_assay _ _)
  rw [failPool_eq, failChecks_assay, hassay]
  exact ⟨rfl, rfl, List.drop_length⟩

-- a tile's test (R524)

/-- The tiles' failures in a row. -/
def KeepsKat (s t : State) : Prop := t.anl.kat = s.anl.kat

theorem KeepsKat.trans {s t u : State} (h : KeepsKat s t) (g : KeepsKat t u) : KeepsKat s u := Eq.trans g h

theorem healthEvent_keepsKat (s : State) (code kind index a2 a3 : Nat) : KeepsKat s (healthEvent s code kind index a2 a3) :=
  congrArg Health.kat (same_of_law .anl (healthEvent_touch code kind index a2 a3) rfl)

/-- The device's health with one more fault record. -/
def loggedAnl (s : State) (f : FaultRec) : Health :=
  let g : FaultRec := { f with index := s.anl.index + 1, tick := lc s }
  let log := s.anl.log ++ [g]
  { s.anl with index := s.anl.index + 1, log := log.drop (log.length - 4096), last := some g }

/-- The record's event is raised. -/
def faultRaised (s : State) (f : FaultRec) : State :=
  raiseEvent { s with anl := loggedAnl s f } 0x04 (some f.part) f.part (s.anl.index + 1) 0 0 0

theorem writeFault_eq (s : State) (f : FaultRec) : writeFault s f =
    if wbit (regGet (faultRaised s f) (bltOff 0x30)) 1 then bltTrigger (faultRaised s f) 5 else faultRaised s f := rfl

/-- A fault record is the health log's alone. -/
theorem writeFault_anl {α : Type} {g : Health → α} (hg : ∀ a i l r, g { a with index := i, log := l, last := r } = g a) (s : State)
    (f : FaultRec) : g (writeFault s f).anl = g s.anl := by
  have hlogged : g (loggedAnl s f) = g s.anl := hg s.anl _ _ _
  have hraised : (faultRaised s f).anl = loggedAnl s f :=
    same_of_law (s := { s with anl := loggedAnl s f }) .anl (raiseEvent_touch 0x04 (some f.part) f.part (s.anl.index + 1) 0 0 0) rfl
  rw [writeFault_eq]
  refine Eq.trans (congrArg g ?_) hlogged
  exact iteInduction (motive := fun t : State => t.anl = loggedAnl s f)
    (fun _ => (same_of_law .anl (bltTrigger_touch 5) rfl).trans hraised) (fun _ => hraised)

theorem writeFault_keepsKat (s : State) (f : FaultRec) : KeepsKat s (writeFault s f) :=
  writeFault_anl (g := Health.kat) (fun _ _ _ _ => rfl) s f

theorem applySpare_keepsKat (s : State) (u : FailedUnit) : KeepsKat s (applySpare s u) := by
  have hkat : ∀ t : State, t.anl.kat = s.anl.kat → KeepsKat s t := fun _ h => h
  unfold applySpare
  dsimp only
  refine iteInduction (motive := KeepsKat s) (fun _ => KeepsKat.trans (KeepsKat.trans ?_ (healthEvent_keepsKat _ _ _ _ _ _))
    (healthEvent_keepsKat _ _ _ _ _ _)) (fun _ => KeepsKat.trans ?_ (healthEvent_keepsKat _ _ _ _ _ _))
  all_goals refine hkat _ ?_; split_ifs <;> rfl

theorem markUnit_keepsKat (s : State) (kind index crit n : Nat) (parts : BitVec 16) : KeepsKat s (markUnit s kind index crit n parts) := by
  have hlast := fun (t : State) (a : Health) (h : a.kat = t.anl.kat) code k i x y => KeepsKat.trans (s := t) (t := { t with anl := a }) h
    (healthEvent_keepsKat _ code k i x y)
  unfold markUnit
  dsimp only
  refine iteInduction (motive := KeepsKat s) (fun _ => rfl) (fun _ => ?_)
  generalize hu : healthEvent (writeFault s _) 0x01 kind index crit n = u
  have hmarked : KeepsKat s u := hu ▸ (writeFault_keepsKat s _).trans (healthEvent_keepsKat _ _ _ _ _ _)
  refine hmarked.trans ?_
  refine iteInduction (motive := KeepsKat u) (fun _ => ?_) (fun _ => ?_)
  · exact iteInduction (motive := KeepsKat u) (fun _ => applySpare_keepsKat u _) (fun _ => hlast u _ (by rfl) _ _ _ _ _)
  · refine iteInduction (motive := KeepsKat u) (fun _ => ?_) (fun _ => healthEvent_keepsKat u _ _ _ _ _)
    split
    · exact hlast u _ (by rfl) _ _ _ _ _
    · exact healthEvent_keepsKat u _ _ _ _ _

theorem tileKat_of_free {n : TileId} {p : Nat} {s : State} (pass : Bool) (hp : tilePart s n.val = some p) (hholder : (getPart s p).holder = none)
    (hkill : (getPart s p).kill = none) (hfree : openTick s p (count s p) = true ∨ (getPart s p).returned = true)
    (hrun : domState s (tileQuad s n.val) = .run) : ∃ t, execTileKat n pass s = .next t
      ∧ tblGet 0 t.anl.kat (physTile s n.val) = if pass then 0 else tblGet 0 s.anl.kat (physTile s n.val) + 1 := by
  have hfreeTick : freeTick s p = true := by simpa [freeTick] using hfree
  have hkat := fun (u : State) (c : Prop) [Decidable c] a b => iteInduction (c := c) (motive := fun t => KeepsKat u t)
    (t := markTile u a 0 b) (e := u) (fun _ => markUnit_keepsKat u _ _ _ _ _) (fun _ => rfl)
  unfold execTileKat
  rw [hp]
  dsimp only
  rw [if_neg (by simp [hholder, hkill, hfreeTick, hrun])]
  exact ⟨_, rfl, (congrArg (fun t => tblGet 0 t (physTile s n.val)) (hkat _ _ _ _)).trans (tblGet_set_same _ _ _ _)⟩

theorem knownAnswersJudgeTheUnits : KnownAnswersJudgeTheUnits := fun s =>
  ⟨fun _ h => ⟨assayKat_pass h, assayKat_fail h⟩, assayClockFault_clears s, fun _ _ pass => tileKat_of_free pass⟩

/-- Settles O40, by what the charge of an error keeps of its record and by the verdicts a clock fault and the known-answer tests give. -/
theorem errorsAndKnownAnswers : Obligations.ErrorsAndKnownAnswers := ⟨errorsAreLoggedAndCharged, knownAnswersJudgeTheUnits⟩

end Sys2Proof.Machine
end

section
/-! SUPPORT. Quill links (R378 to R391, Table 14.6): what a link's own operations keep of it, and which parts of the device leave every
link alone. -/

namespace Sys2Proof.Machine

theorem getLink_congr {s t : State} (h : t.links = s.links) (q : Nat) : getLink t q = getLink s q := by
  unfold getLink
  rw [h]

theorem regGet_bump_same (s : State) (o : Nat) : regGet (bump s o) o = BitVec.ofNat 32 (satInc 32 (regGet s o).toNat) := by
  unfold bump
  rw [regGet_regSet, if_pos rfl]

-- partners leave (Table 14.14)

@[simp] theorem attachmentGone_links (s : State) (att : Attach → Bool) : (attachmentGone s att).links = s.links :=
  same_of_law .links (attachmentGone_touch att) rfl

@[simp] theorem identify_links (s : State) (att : Attach) (i : Ident) : (identify s att i).links = s.links :=
  same_of_law .links (identify_touch att i) rfl

theorem putPartner_regs (s : State) (n : Nat) (x : Partner) {o : Nat} (ho : o ≠ fioOff 0) :
    regGet (putPartner s n x) o = regGet s o := by
  unfold putPartner
  dsimp only
  refine iteInduction (motive := fun t => regGet t o = regGet s o) (fun _ => rfl) (fun _ => ?_)
  have hrec := fun (t : State) a b d e => (same_of_law .regs (bltRecord_touch a b d e) rfl : (bltRecord t a b d e).regs = t.regs)
  rw [regGet_congr (hrec _ _ _ _ _), regGet_regSet, if_neg (Ne.symm ho)]
  rfl

theorem partnerGone_regs (s : State) (n : Nat) {o : Nat} (ho : o ≠ fioOff 0) : regGet (partnerGone s n) o = regGet s o :=
  iteInduction (motive := fun t => regGet t o = regGet s o) (fun _ => putPartner_regs s n _ ho) (fun _ => rfl)

theorem attachmentGone_regs (s : State) (att : Attach → Bool) {o : Nat} (ho : o ≠ fioOff 0) :
    regGet (attachmentGone s att) o = regGet s o :=
  foldl_keeps (K := fun t u => regGet u o = regGet t o) (fun _ => rfl) (fun h g => g.trans h) _
    (fun t n _ => iteInduction (motive := fun u => regGet u o = regGet t o) (fun _ => partnerGone_regs t n ho) (fun _ => rfl)) s

-- a link leaves its state (R380)

/-- A link in another state, with the frames it held lost. -/
def Link.left (x : Link) (st : LinkState) : Link :=
  { x with
    st := st, frags := [], bulkIn := [], dataOut := [], bulkOut := [], busy := none
    lc := { x.lc with nak := false, waitRetx := false, replay := [] }
    be := { x.be with nak := false, waitRetx := false, replay := [] } }

theorem leaveLink_eq (s : State) (q : Nat) (st : LinkState) : leaveLink s q st =
    if (getLink s q).st = .up then attachmentGone (setLink s q ((getLink s q).left st)) (onQuill q)
    else setLink s q ((getLink s q).left st) := rfl

theorem getLink_leaveLink (s : State) (q : Nat) (st : LinkState) : getLink (leaveLink s q st) q = (getLink s q).left st := by
  rw [leaveLink_eq]
  split
  · rw [getLink_congr (attachmentGone_links _ _), getLink_setLink_same]
  · rw [getLink_setLink_same]

theorem leaveLink_regs (s : State) (q : Nat) (st : LinkState) {o : Nat} (ho : o ≠ fioOff 0) : regGet (leaveLink s q st) o = regGet s o := by
  rw [leaveLink_eq]
  split
  · exact attachmentGone_regs _ _ ho
  · rfl

-- best-effort frames leave (R332, R386)

/-- What a frame of the BE class that leaves does not change. -/
def Link.steady (x : Link) :=
  (x.st, x.pll, x.epoch, x.lc, x.lastSet, x.partnerBuf, x.frags, x.bulkIn, x.be.rx, x.be.nak, x.be.waitRetx, x.be.partnerFreed, x.be.freed)

theorem steady_sendBe (x : Link) (now : Nat) (f : TxFrame) : (x.sendBe now f).steady = x.steady := rfl

theorem steady_pump (n now : Nat) (x : Link) : (Link.pump n now x).steady = x.steady := by
  induction n generalizing x with
  | zero => rfl
  | succ n ih =>
    rw [Link.pump.eq_def]
    dsimp only
    split
    · rfl
    next f t _ =>
      exact iteInduction (motive := fun y : Link => y.steady = x.steady)
        (fun _ => (ih _).trans (steady_sendBe { x with bulkOut := t } now f)) (fun _ => rfl)

theorem steady_pumpAll (x : Link) (now : Nat) : (x.pumpAll now).steady = x.steady := steady_pump _ now x

theorem pumpAll_of_empty {x : Link} (h : x.bulkOut = []) (now : Nat) : x.pumpAll now = x := by
  unfold Link.pumpAll
  rw [h]
  rfl

-- entry to UP (R383)

/-- A link in UP, before its IDENT leaves. -/
def Link.upEntered (x : Link) (f : TxFrame) (now : Nat) : Link :=
  { x with
    st := LinkState.up, lc := ⟨x.epoch, x.epoch, false, false, [], 0, 0, 0⟩, be := ⟨x.epoch, x.epoch, false, false, [], 0, 0, 0⟩
    frags := [], bulkIn := [], dataOut := [], bulkOut := [f], busy := none, partnerBuf := 16, upAt := now, errs := [] }

theorem ownIdent_links (s : State) : (ownIdent s).1.links = s.links := same_of_law .links ownIdent_touch rfl

theorem enterUp_eq (s : State) (q : Nat) : enterUp s q = setLink (ownIdent s).1 q
    (((getLink (ownIdent s).1 q).upEntered (ownIdent s).2 (ownIdent s).1.lt).pumpAll (ownIdent s).1.lt) := rfl

theorem steady_enterUp (s : State) (q : Nat) : ∃ f now, (getLink (enterUp s q) q).steady = ((getLink s q).upEntered f now).steady := by
  refine ⟨(ownIdent s).2, (ownIdent s).1.lt, ?_⟩
  rw [enterUp_eq, getLink_setLink_same, steady_pumpAll, getLink_congr (ownIdent_links s)]

/-- Both classes begin at the epoch. -/
theorem enterUp_spec (s : State) (q : Nat) : (getLink (enterUp s q) q).st = .up ∧ (getLink (enterUp s q) q).epoch = (getLink s q).epoch
    ∧ (getLink (enterUp s q) q).lc = ⟨(getLink s q).epoch, (getLink s q).epoch, false, false, [], 0, 0, 0⟩
    ∧ (getLink (enterUp s q) q).be.rx = (getLink s q).epoch ∧ (getLink (enterUp s q) q).lastSet = (getLink s q).lastSet := by
  obtain ⟨f, now, h⟩ := steady_enterUp s q
  simp only [Link.steady, Link.upEntered, Prod.mk.injEq] at h
  obtain ⟨hst, -, hepoch, hlc, hset, -, -, -, hrx, -⟩ := h
  exact ⟨hst, hepoch, hlc, hrx, hset⟩

end Sys2Proof.Machine
end

section
/-! SUPPORT. The states of a link (Table 14.6): each command's one move. -/

namespace Sys2Proof.Machine

section
variable {q : LinkId} {s : State}

/-- A link whose PLL is locked. -/
def pllLocked (s : State) (q : Nat) : State := setLink s q { getLink s q with pll := true }

theorem restState_pllLocked (s : State) (q : Nat) :
    restState (pllLocked s q) q = (if qlOn s q = true ∧ qlRole s q ≠ 0 then .train else .unconf) := by
  have hlink : (getLink (pllLocked s q) q).pll = true := by rw [pllLocked, getLink_setLink_same]
  have hon : qlOn (pllLocked s q) q = qlOn s q := rfl
  have hrole : qlRole (pllLocked s q) q = qlRole s q := rfl
  unfold restState
  rw [hlink, hon, hrole]
  simp

theorem portPllLock_of_off (hst : (getLink s q.val).st = .off) (hready : isReady s = true) (hport : s.rst.portRst.getLsbD q.val = false) :
    ∃ t, execPortPllLock (.quill q) s = .next t ∧ (getLink t q.val).pll = true
      ∧ (getLink t q.val).st = (if qlOn s q.val = true ∧ qlRole s q.val ≠ 0 then .train else .unconf) := by
  have hfree : portInReset s (Port.num (.quill q)) = false := by simp [portInReset, hready, Port.num, hport]
  have hrun : execPortPllLock (.quill q) s = .next (setLink (pllLocked s q.val) q.val
      { getLink (pllLocked s q.val) q.val with st := restState (pllLocked s q.val) q.val }) :=
    (if_neg (by rw [hfree]; decide)).trans (if_neg (not_not.2 hst))
  refine ⟨_, hrun, ?_⟩
  rw [getLink_setLink_same]
  refine ⟨?_, restState_pllLocked s q.val⟩
  rw [pllLocked, getLink_setLink_same]

theorem lockAcquired_of_train (hst : (getLink s q.val).st = .train) : execLockAcquired q s = .next (setLink s q.val { getLink s q.val with
    st := .sync, conflict := false, crLc := fld (regGet s (qlOff q.val 0)) 28 24, rxLc := fld (regGet s (qlOff q.val 0)) 23 19
    epoch := if qlRole s q.val = 1 then (getLink s q.val).lastUsed + 0x4000 else (getLink s q.val).epoch }) := if_neg (by simp [hst])

theorem linkUp_of_node (hst : (getLink s q.val).st = .sync) (hrole : qlRole s q.val = 2) (ep : BitVec 16) : execLinkUp q ep s =
    .next (enterUp (setLink s q.val { getLink s q.val with epoch := ep, lastSet := some (.linkAck ep) }) q.val) :=
  (if_neg (by simp [hst])).trans (if_pos hrole)

theorem linkUp_of_controller (hst : (getLink s q.val).st = .sync) (hrole : qlRole s q.val = 1) (ep : BitVec 16) : execLinkUp q ep s =
    .next (setLink s q.val { getLink s q.val with conflict := true }) := (if_neg (by simp [hst])).trans (if_neg (by omega))

theorem leftUp_leaveLink (s : State) (q : Nat) : LeftUp s (leaveLink s q (restState s q)) q := by
  unfold LeftUp
  rw [getLink_leaveLink]
  exact ⟨rfl, rfl, rfl, rfl, rfl, rfl, rfl⟩

/-- An UP link sends DOWN before its role changes. -/
def downSent (s : State) (q : Nat) : State :=
  if (getLink s q).st = .up then setLink s q { getLink s q with lastSet := some .down } else s

theorem loopRole_eq (s : State) (q : Nat) :
    loopRole s q = leaveLink (downSent (regSet s (qlOff q 0) (regGet s (qlOff q 0) ||| 0xC0000000)) q) q .looped := rfl

theorem downSent_regs (s : State) (q o : Nat) : regGet (downSent s q) o = regGet s o :=
  iteInduction (motive := fun t => regGet t o = regGet s o) (fun _ => rfl) (fun _ => rfl)

theorem loopRole_spec (s : State) (q : Nat) : (getLink (loopRole s q) q).st = .looped ∧ (getLink (loopRole s q) q).lc.replay = []
    ∧ regGet (loopRole s q) (qlOff q 0) = regGet s (qlOff q 0) ||| 0xC0000000 := by
  rw [loopRole_eq, getLink_leaveLink, leaveLink_regs _ _ _ (by unfold qlOff fioOff; omega), downSent_regs, regGet_regSet, if_pos rfl]
  exact ⟨rfl, rfl, rfl⟩

end

/-- Settles O44, by the one move each command of Table 14.6 makes. -/
theorem linkStatesFollowTable14_6 : Obligations.LinkStatesFollowTable14_6 := by
  intro q ep s
  refine ⟨portPllLock_of_off, lockAcquired_of_train, fun hst hrole => if_pos ⟨hst, hrole⟩, fun hst hrole => ?node,
    fun hst hrole => ⟨?ack, fun hep => if_neg fun h => hep h.2.2, linkUp_of_controller hst hrole ep⟩, fun hst => ?leave, fun hphase => ?loop⟩
  case node =>
    obtain ⟨hup, hepoch, hlc, hrx, hset⟩ :=
      enterUp_spec (setLink s q.val { getLink s q.val with epoch := ep, lastSet := some (.linkAck ep) }) q.val
    rw [getLink_setLink_same] at hepoch hlc hrx hset
    exact ⟨_, linkUp_of_node hst hrole ep, hup, hepoch, hlc, hrx, hset⟩
  case ack =>
    obtain ⟨hup, -, hlc, hrx, -⟩ := enterUp_spec s q.val
    exact ⟨_, if_pos ⟨hst, hrole, rfl⟩, hup, hrx, hlc⟩
  case leave =>
    exact ⟨⟨_, if_pos hst, leftUp_leaveLink s q.val⟩, ⟨_, if_pos hst, leftUp_leaveLink s q.val⟩⟩
  case loop =>
    exact ⟨_, hostWrite_of_phase_ne_bootFail _ hphase, loopRole_spec s q.val⟩

end Sys2Proof.Machine
end

section
/-! SUPPORT. Frames a link receives (R379, R384, R385, R398): the judgement of a frame, and what the work an accepted one brings leaves of
its class. -/

namespace Sys2Proof.Machine

@[simp] theorem Link.cls_setCls (x : Link) (k : FrameClass) (c : LinkClass) : (x.setCls k c).cls k = c := by cases k <;> rfl

@[simp] theorem frameRecord_links (s : State) (i v st n tick : Nat) (ws : List Word) : (frameRecord s i v st n tick ws).1.links = s.links :=
  same_of_law .links (frameRecord_touch i v st n tick ws) rfl

@[simp] theorem frameRecord_regs (s : State) (i v st n tick : Nat) (ws : List Word) : (frameRecord s i v st n tick ws).1.regs = s.regs :=
  same_of_law .regs (frameRecord_touch i v st n tick ws) rfl

-- the judgement of a frame (R379, R385)

/-- A NAK's set is sent. -/
def nakSent (s : State) (q : Nat) (k : FrameClass) (sent : Bool) : State := if sent then sendNak s q k else s

theorem nakSent_regs (s : State) (q : Nat) (k : FrameClass) (sent : Bool) : (nakSent s q k sent).regs = s.regs :=
  iteInduction (motive := fun t : State => t.regs = s.regs) (fun _ => rfl) (fun _ => rfl)

theorem getLink_nakSent (s : State) (q : Nat) (k : FrameClass) (sent : Bool) : getLink (nakSent s q k sent) q =
    if sent then { getLink s q with lastSet := some (nakSet k ((getLink s q).cls k).rx) } else getLink s q := by
  cases sent
  · rfl
  · exact getLink_setLink_same s q _

theorem cls_nakSent (s : State) (q : Nat) (k : FrameClass) (sent : Bool) :
    (getLink (nakSent s q k sent) q).cls k = (getLink s q).cls k := by
  rw [getLink_nakSent]
  cases sent <;> cases k <;> rfl

section
variable {s : State} {q : Nat} {k : FrameClass} {f : QuillFrame}

theorem receive_of_discard (h : rxCheck f = .discard) : receive s q k f = (bump s (qlOff q (if f.wire = .abort then qlCode else qlType)), none) := by
  unfold receive
  rw [h]

/-- A frame whose CRC or code is wrong is waited for again. -/
def retryAsked (s : State) (q : Nat) (k : FrameClass) (c : LinkClass) : State :=
  setLink s q ((getLink s q).setCls k { c with nak := true, waitRetx := true })

theorem cls_retryAsked (s : State) (q : Nat) (k : FrameClass) (c : LinkClass) :
    (getLink (retryAsked s q k c) q).cls k = { c with nak := true, waitRetx := true } := by
  rw [retryAsked, getLink_setLink_same, Link.cls_setCls]

theorem retryAsked_regs (s : State) (q : Nat) (k : FrameClass) (c : LinkClass) : (retryAsked s q k c).regs = s.regs := rfl

theorem nakSent_not (s : State) (q : Nat) (k : FrameClass) (b : Bool) : (if b then s else sendNak s q k) = nakSent s q k (!b) := by
  cases b <;> rfl

theorem receive_of_retry (h : rxCheck f = .retry) : receive s q k f =
    (nakSent (retryAsked (laneError s q) q k ((getLink s q).cls k)) q k (!((getLink s q).cls k).nak), none) := by
  have hsent := nakSent_not (retryAsked (laneError s q) q k ((getLink s q).cls k)) q k ((getLink s q).cls k).nak
  rw [← hsent]
  unfold receive retryAsked
  generalize laneError s q = t
  rw [h]

/-- A judged frame's state, before a late one is counted. -/
def judged (s : State) (q : Nat) (k : FrameClass) (c : LinkClass) (sent : Bool) : State :=
  nakSent (setLink s q ((getLink s q).setCls k c)) q k sent

theorem receive_of_good (h : rxCheck f = .good) {c : LinkClass} {o : SeqCheck} {sent : Bool}
    (hj : ((getLink s q).cls k).judge f.seq f.retx = (c, o, sent)) :
    receive s q k f = (if o = .late then bump (judged s q k c sent) (qlOff q qlLate) else judged s q k c sent, some o) := by
  unfold receive
  rw [h]
  dsimp only
  rw [hj]
  rfl

end

theorem cls_judged (s : State) (q : Nat) (k : FrameClass) (c : LinkClass) (sent : Bool) : (getLink (judged s q k c sent) q).cls k = c := by
  rw [judged, cls_nakSent, getLink_setLink_same, Link.cls_setCls]

theorem judged_regs (s : State) (q : Nat) (k : FrameClass) (c : LinkClass) (sent : Bool) : (judged s q k c sent).regs = s.regs :=
  nakSent_regs _ q k sent

/-- A class that has taken the frame it expected. -/
def LinkClass.took (c : LinkClass) : LinkClass := { c with rx := c.rx + 1, nak := false, waitRetx := false, freed := c.freed + 1 }

theorem judge_of_expected {c : LinkClass} {seq : BitVec 16} {retx : Bool} (hseq : seq = c.rx) (hwait : c.waitRetx = true → retx = true) :
    c.judge seq retx = (c.took, .accept, false) := by
  unfold LinkClass.judge
  dsimp only
  by_cases hw : c.waitRetx = true
  · rw [if_pos hw, if_pos ⟨hseq, hwait hw⟩]
    rfl
  · rw [if_neg hw, if_pos hseq]
    rfl

theorem judge_of_ahead {c : LinkClass} {seq : BitVec 16} (hwait : c.waitRetx = false) (h : 2 ^ 15 < (c.rx - seq).toNat) (retx : Bool) :
    c.judge seq retx = ({ c with nak := true }, .drop, !c.nak) := by
  have hne : seq ≠ c.rx := by rintro rfl; simp at h
  unfold LinkClass.judge
  rw [if_neg (by simp [hwait]), if_neg hne, if_neg (by omega)]

theorem judge_of_late {c : LinkClass} {seq : BitVec 16} (hwait : c.waitRetx = false) (hne : seq ≠ c.rx) (h : (c.rx - seq).toNat ≤ 2 ^ 15)
    (retx : Bool) : c.judge seq retx = (c, .late, false) := by
  unfold LinkClass.judge
  rw [if_neg (by simp [hwait]), if_neg hne, if_pos h]

theorem receive_of_expected {s : State} {q : Nat} {k : FrameClass} {f : QuillFrame} (h : rxCheck f = .good)
    (hseq : f.seq = ((getLink s q).cls k).rx) (hwait : ((getLink s q).cls k).waitRetx = true → f.retx = true) :
    receive s q k f = (judged s q k ((getLink s q).cls k).took false, some .accept) := receive_of_good h (judge_of_expected hseq hwait)

-- a code violation or CRC failure (R524)

/-- An error counted and noted among those of the last 10 s. -/
def errorNoted (s : State) (q : Nat) : State :=
  setLink (bump s (qlOff q qlCode)) q { getLink s q with errs := within (getLink s q).errs s.lt ticks10s }

theorem laneError_eq (s : State) (q : Nat) : laneError s q =
    if (getLink s q).upAt + ticks10s ≤ s.lt ∧ fld (regGet s (anlOff 4)) 13 0 < 200 * (within (getLink s q).errs s.lt ticks10s).length then
      markUnit (errorNoted s q) uQuill q 2 (within (getLink s q).errs s.lt ticks10s).length 0
    else errorNoted s q := rfl

theorem markUnit_links (s : State) (a b c d : Nat) (e : BitVec 16) : (markUnit s a b c d e).links = s.links :=
  same_of_law .links (markUnit_touch a b c d e) rfl

theorem laneError_links (s : State) (q : Nat) : (laneError s q).links = (errorNoted s q).links := by
  rw [laneError_eq]
  exact iteInduction (motive := fun t : State => t.links = _) (fun _ => markUnit_links _ _ _ _ _ _) (fun _ => rfl)

theorem sameRegs_markUnit (s : State) (kind index crit n : Nat) (parts : BitVec 16) : SameRegs s (markUnit s kind index crit n parts) := by
  have hlast := fun (t : State) (a : Health) code k i x y => SameRegs.trans (s := t) (t := { t with anl := a }) (.of_eq rfl)
    (sameRegs_healthEvent _ code k i x y)
  unfold markUnit
  dsimp only
  refine iteInduction (motive := SameRegs s) (fun _ => .refl s) (fun _ => ?_)
  generalize hu : healthEvent (writeFault s _) 0x01 kind index crit n = u
  have hmarked : SameRegs s u := hu ▸ (sameRegs_writeFault s _).trans (sameRegs_healthEvent _ _ _ _ _ _)
  refine hmarked.trans ?_
  refine iteInduction (motive := SameRegs u) (fun _ => ?_) (fun _ => ?_)
  · exact iteInduction (motive := SameRegs u) (fun _ => sameRegs_applySpare u _) (fun _ => hlast u _ _ _ _ _ _)
  · refine iteInduction (motive := SameRegs u) (fun _ => ?_) (fun _ => sameRegs_healthEvent u _ _ _ _ _)
    split
    · exact hlast u _ _ _ _ _ _
    · exact sameRegs_healthEvent u _ _ _ _ _

theorem laneError_code (s : State) (q : Nat) :
    regGet (laneError s q) (qlOff q qlCode) = BitVec.ofNat 32 (satInc 32 (regGet s (qlOff q qlCode)).toNat) := by
  have hnoted : SameRegs (errorNoted s q) (laneError s q) := by
    rw [laneError_eq]
    exact iteInduction (motive := SameRegs (errorNoted s q)) (fun _ => sameRegs_markUnit _ _ _ _ _ _) (fun _ => .refl _)
  rw [hnoted _ (by unfold qlOff; omega)]
  exact regGet_bump_same s _

-- the work an accepted frame brings

/-- A class's place in its sequence. -/
def LinkClass.place (c : LinkClass) := (c.rx, c.nak, c.waitRetx, c.freed)

/-- The sequence of a link's class is left alone. -/
def KeepsPlace (q : Nat) (k : FrameClass) (s t : State) : Prop := ((getLink t q).cls k).place = ((getLink s q).cls k).place

theorem KeepsPlace.trans {q : Nat} {k : FrameClass} {s t u : State} (h : KeepsPlace q k s t) (g : KeepsPlace q k t u) : KeepsPlace q k s u :=
  Eq.trans g h

theorem KeepsPlace.of_links {s t : State} (h : t.links = s.links) (q : Nat) (k : FrameClass) : KeepsPlace q k s t := by
  unfold KeepsPlace
  rw [getLink_congr h]

theorem KeepsPlace.setLink {s : State} {q : Nat} {k : FrameClass} {x : Link} (h : (x.cls k).place = ((getLink s q).cls k).place) :
    KeepsPlace q k s (setLink s q x) := by
  unfold KeepsPlace
  rw [getLink_setLink_same]
  exact h

theorem dropFrags_place (s : State) (q : Nat) : KeepsPlace q .lc s (dropFrags s q) := by
  have hset : KeepsPlace q .lc s (setLink s q { getLink s q with frags := [] }) := .setLink rfl
  unfold dropFrags
  dsimp only
  split
  · exact hset
  · exact hset.trans (.of_links (frameRecord_links _ _ _ _ _ _ _) q .lc)

theorem takeSample_links (s : State) (q stat : Nat) (seq : BitVec 16) (ws : List Word) : (takeSample s q stat seq ws).links = s.links :=
  same_of_law .links (takeSample_touch q stat seq ws) rfl

theorem takeFragment_place (s : State) (q : Nat) (f : QuillFrame) : KeepsPlace q .lc s (takeFragment s q f) := by
  unfold takeFragment
  dsimp only
  generalize hu : ite (f.frag.toNat = (getLink s q).frags.length) s (dropFrags s q) = u
  have hfirst : KeepsPlace q .lc s u :=
    hu ▸ iteInduction (motive := KeepsPlace q .lc s) (fun _ => rfl) (fun _ => dropFrags_place s q)
  have hset := fun l => (.setLink rfl : KeepsPlace q .lc u (setLink u q { getLink u q with frags := l }))
  refine hfirst.trans ?_
  refine iteInduction (motive := KeepsPlace q .lc u) (fun _ => (hset _).trans (dropFrags_place _ q)) (fun _ => ?_)
  exact iteInduction (motive := KeepsPlace q .lc u) (fun _ => (hset _).trans (.of_links (takeSample_links _ _ _ _ _) q .lc)) (fun _ => hset _)

theorem takeBulk_links (s : State) (q stat : Nat) (seq : BitVec 16) (ws : List Word) : (takeBulk s q stat seq ws).links = s.links :=
  same_of_law .links (takeBulk_touch q stat seq ws) rfl

/-- A BULK fragment joins its message, or ends it. -/
def takeBulkFrame (s : State) (q : Nat) (f : QuillFrame) : State :=
  if f.last then
    takeBulk (setLink s q { getLink s q with bulkIn := [] }) q f.stat.toNat f.seq ((getLink s q).bulkIn ++ [padWords 8 f.payload]).flatten
  else setLink s q { getLink s q with bulkIn := (getLink s q).bulkIn ++ [padWords 8 f.payload] }

theorem takeBulkFrame_place (s : State) (q : Nat) (f : QuillFrame) : KeepsPlace q .be s (takeBulkFrame s q f) := by
  have hset := fun l => (.setLink rfl : KeepsPlace q .be s (setLink s q { getLink s q with bulkIn := l }))
  exact iteInduction (motive := KeepsPlace q .be s) (fun _ => (hset _).trans (.of_links (takeBulk_links _ _ _ _ _) q .be)) (fun _ => hset _)

/-- An IDENT gives the partner and its buffer. -/
def takeIdent (s : State) (q : LinkId) (i : Ident) : State :=
  if i.bad then identify s (.quill q) i
  else setLink (identify s (.quill q) i) q.val
    ({ getLink (identify s (.quill q) i) q.val with partnerBuf := i.buf }.pumpAll (identify s (.quill q) i).lt)

theorem takeIdent_place (s : State) (q : LinkId) (i : Ident) : KeepsPlace q.val .be s (takeIdent s q i) := by
  have hid : KeepsPlace q.val .be s (identify s (.quill q) i) := .of_links (identify_links _ _ _) _ _
  refine iteInduction (motive := KeepsPlace q.val .be s) (fun _ => hid) (fun _ => hid.trans (.setLink ?_))
  exact congrArg (fun y => (y.2.2.2.2.2.2.2.2.1, y.2.2.2.2.2.2.2.2.2.1, y.2.2.2.2.2.2.2.2.2.2.1, y.2.2.2.2.2.2.2.2.2.2.2.2))
    (steady_pumpAll { getLink (identify s (.quill q) i) q.val with partnerBuf := i.buf } _)

/-- What a frame's command does after the frame's judgement. -/
def afterJudge (q : LinkId) (f : QuillFrame) (s : State) : Instr → Option SeqCheck → State
  | .data _ _, some .accept => takeFragment s q.val f
  | .data _ _, some .late => (frameRecord s q.val vLate f.stat.toNat f.seq.toNat (lc s) f.payload).1
  | .data _ _, _ => (frameRecord s q.val vDiscarded f.stat.toNat f.seq.toNat (lc s) f.payload).1
  | .bulk _ _, some .accept => takeBulkFrame s q.val f
  | .ident _ _, some .accept => takeIdent s q (identOf (padWords 8 f.payload))
  | .leave _ _, some .accept => attachmentGone s (onQuill q.val)
  | _, _ => s

section
variable {s : State} {q : LinkId} (hears : linkHears s q.val = true) (f : QuillFrame)
include hears

theorem execData_of_hears : execData q f s =
    .next (afterJudge q f (receive s q.val .lc f).1 (.data q f) (receive s q.val .lc f).2) := by
  unfold execData
  rw [if_neg (by simp [hears])]
  obtain ⟨t, o⟩ := receive s q.val .lc f
  cases o with
  | none => rfl
  | some o => cases o <;> rfl

theorem execBulk_of_hears : execBulk q f s =
    .next (afterJudge q f (receive s q.val .be f).1 (.bulk q f) (receive s q.val .be f).2) := by
  unfold execBulk
  rw [if_neg (by simp [hears])]
  obtain ⟨t, o⟩ := receive s q.val .be f
  cases o with
  | none => rfl
  | some o =>
    cases o with
    | accept => exact (apply_ite Host.Outcome.next _ _ _).symm
    | late => rfl
    | drop => rfl

theorem execIdent_of_hears : execIdent q f s =
    .next (afterJudge q f (receive s q.val .be f).1 (.ident q f) (receive s q.val .be f).2) := by
  unfold execIdent
  rw [if_neg (by simp [hears])]
  obtain ⟨t, o⟩ := receive s q.val .be f
  cases o with
  | none => rfl
  | some o =>
    cases o with
    | accept => exact (apply_ite Host.Outcome.next _ _ _).symm
    | late => rfl
    | drop => rfl

theorem execLeave_of_hears : execLeave q f s =
    .next (afterJudge q f (receive s q.val .be f).1 (.leave q f) (receive s q.val .be f).2) := by
  unfold execLeave
  rw [if_neg (by simp [hears])]
  obtain ⟨t, o⟩ := receive s q.val .be f
  cases o with
  | none => rfl
  | some o => cases o <;> rfl

end

/-- A frame's command is the frame's judgement and the work that follows it. -/
theorem exec_of_frame {c : Instr} {q : LinkId} {f : QuillFrame} {k : FrameClass} {s : State} (hc : frameOf c = some (q, f, k))
    (hears : linkHears s q.val = true) : exec c s = .next (afterJudge q f (receive s q.val k f).1 c (receive s q.val k f).2) := by
  unfold frameOf at hc
  split at hc
  · cases hc; exact execData_of_hears hears f
  · cases hc; exact execBulk_of_hears hears f
  · cases hc; exact execIdent_of_hears hears f
  · cases hc; exact execLeave_of_hears hears f
  · cases hc

theorem afterJudge_accept {c : Instr} {q : LinkId} {f : QuillFrame} {k : FrameClass} (hc : frameOf c = some (q, f, k)) (s : State) :
    KeepsPlace q.val k s (afterJudge q f s c (some .accept)) := by
  unfold frameOf at hc
  split at hc
  · cases hc; exact takeFragment_place s q.val f
  · cases hc; exact takeBulkFrame_place s q.val f
  · cases hc; exact takeIdent_place s q _
  · cases hc; exact .of_links (attachmentGone_links _ _) _ _
  · cases hc

/-- A frame that is not accepted is recorded at most. -/
theorem afterJudge_other {c : Instr} {q : LinkId} {f : QuillFrame} {k : FrameClass} (hc : frameOf c = some (q, f, k)) (s : State)
    {o : Option SeqCheck} (ho : o ≠ some .accept) : (afterJudge q f s c o).links = s.links ∧ (afterJudge q f s c o).regs = s.regs := by
  have hrec := fun v => And.intro (frameRecord_links s q.val v f.stat.toNat f.seq.toNat (lc s) f.payload)
    (frameRecord_regs s q.val v f.stat.toNat f.seq.toNat (lc s) f.payload)
  unfold frameOf at hc
  split at hc
  · cases hc
    cases o with
    | none => exact hrec _
    | some o =>
      cases o with
      | accept => exact absurd rfl ho
      | late => exact hrec _
      | drop => exact hrec _
  all_goals cases hc
  all_goals
    cases o with
    | none => exact ⟨rfl, rfl⟩
    | some o =>
      cases o with
      | accept => exact absurd rfl ho
      | late => exact ⟨rfl, rfl⟩
      | drop => exact ⟨rfl, rfl⟩

theorem framesAreTakenInSequence : FramesAreTakenInSequence := by
  intro c q f k s hc hears
  have hrun := exec_of_frame hc hears
  have hother := fun {o : Option SeqCheck} (t : State) (ho : o ≠ some .accept) => afterJudge_other hc t ho
  refine ⟨fun hgood hseq hwait => ?accept, fun hgood hwait hahead => ?ahead, fun hgood hwait hne hlate => ?late, fun hretry => ?retry,
    fun hdisc => ?discard⟩
  case accept =>
    rw [receive_of_expected hgood hseq hwait] at hrun
    have hplace := afterJudge_accept hc (judged s q.val k ((getLink s q.val).cls k).took false)
    rw [KeepsPlace, cls_judged] at hplace
    simp only [LinkClass.place, LinkClass.took, Prod.mk.injEq] at hplace
    obtain ⟨hrx, hnak, -, hfreed⟩ := hplace
    exact ⟨_, hrun, hrx, hnak, hfreed⟩
  case ahead =>
    rw [receive_of_good hgood (judge_of_ahead hwait hahead f.retx)] at hrun
    obtain ⟨hlinks, -⟩ := hother (judged s q.val k { (getLink s q.val).cls k with nak := true } (!((getLink s q.val).cls k).nak))
      (o := some .drop) (by simp)
    refine ⟨_, hrun, ?_⟩
    simp only [reduceCtorEq, if_false]
    rw [getLink_congr hlinks, cls_judged]
    refine ⟨rfl, rfl, fun hnak => ?_⟩
    rw [judged, getLink_nakSent, getLink_setLink_same, Link.cls_setCls, hnak]
    rfl
  case late =>
    rw [receive_of_good hgood (judge_of_late hwait hne hlate f.retx)] at hrun
    obtain ⟨hlinks, hregs⟩ := hother (bump (judged s q.val k ((getLink s q.val).cls k) false) (qlOff q.val qlLate))
      (o := some .late) (by simp)
    refine ⟨_, hrun, ?_, ?_⟩
    · simp only [if_true]
      rw [getLink_congr hlinks]
      exact cls_judged s q.val k _ false
    · simp only [if_true]
      rw [regGet_congr hregs, regGet_bump_same, regGet_congr (judged_regs _ _ _ _ _)]
  case retry =>
    rw [receive_of_retry hretry] at hrun
    obtain ⟨hlinks, hregs⟩ := hother (o := none) (nakSent (retryAsked (laneError s q.val) q.val k ((getLink s q.val).cls k)) q.val k
      (!((getLink s q.val).cls k).nak)) (by simp)
    refine ⟨_, hrun, ?_⟩
    rw [getLink_congr hlinks, cls_nakSent, cls_retryAsked]
    refine ⟨rfl, rfl, rfl, ?_⟩
    rw [regGet_congr hregs, regGet_congr (nakSent_regs _ _ _ _), regGet_congr (retryAsked_regs _ _ _ _)]
    exact laneError_code s q.val
  case discard =>
    rw [receive_of_discard hdisc] at hrun
    obtain ⟨hlinks, -⟩ := hother (o := none) (bump s (qlOff q.val (if f.wire = .abort then qlCode else qlType))) (by simp)
    exact ⟨_, hrun, by rw [getLink_congr hlinks]; rfl⟩

-- partners leave (Table 14.14)

theorem getPartner_putPartner (s : State) (n m : Nat) (x : Partner) :
    getPartner (putPartner s n x) m = if n = m then x else getPartner s m := by
  have hset : (putPartner s n x).partners = (setPartner s n x).partners := by
    unfold putPartner
    exact iteInduction (motive := fun t : State => t.partners = (setPartner s n x).partners) (fun _ => rfl)
      (fun _ => (same_of_law .partners (bltRecord_touch _ _ _ _) rfl).trans rfl)
  rw [show getPartner (putPartner s n x) m = getPartner (setPartner s n x) m by unfold getPartner; rw [hset], getPartner_setPartner]

theorem getPartner_partnerGone_of_ne (s : State) {n m : Nat} (h : m ≠ n) : getPartner (partnerGone s m) n = getPartner s n := by
  refine iteInduction (motive := fun t => getPartner t n = getPartner s n) (fun _ => ?_) (fun _ => rfl)
  rw [getPartner_putPartner, if_neg h]

/-- A partner that has left is neither JOINING nor ACTIVE. -/
theorem st_partnerGone (s : State) (n : Nat) :
    (getPartner (partnerGone s n) n).st ≠ .active ∧ (getPartner (partnerGone s n) n).st ≠ .joining := by
  unfold partnerGone
  dsimp only
  split
  · rw [getPartner_putPartner, if_pos rfl]
    exact ⟨by simp, by simp⟩
  next h =>
    obtain ⟨hjoin, hact⟩ := not_or.1 h
    exact ⟨hact, hjoin⟩

/-- One entry's turn as an attachment's partners leave. -/
def goneTurn (att : Attach → Bool) (t : State) (n : Nat) : State := if att (getPartner t n).att then partnerGone t n else t

theorem attachmentGone_eq (s : State) (att : Attach → Bool) : attachmentGone s att = (upTo 256).foldl (goneTurn att) s := rfl

theorem attachmentGone_leaves {s : State} {att : Attach → Bool} {n : Nat} (hn : n < 256) (hatt : att (getPartner s n).att = true) :
    (getPartner (attachmentGone s att) n).st ≠ .active ∧ (getPartner (attachmentGone s att) n).st ≠ .joining := by
  obtain ⟨t, hbefore, hafter⟩ := foldl_upTo_at (F := goneTurn att) (K := fun t u => getPartner u n = getPartner t n) (fun _ => rfl)
    (fun h g => g.trans h) hn (fun t m _ hm => iteInduction (motive := fun u => getPartner u n = getPartner t n)
      (fun _ => getPartner_partnerGone_of_ne t hm) (fun _ => rfl)) s
  rw [attachmentGone_eq, hafter, goneTurn, if_pos (by rw [hbefore, hatt])]
  exact st_partnerGone t n

-- what accepted frames of the BE class bring (R333, R398)

theorem getLink_judged (s : State) (q : Nat) (k : FrameClass) (c : LinkClass) : getLink (judged s q k c false) q = (getLink s q).setCls k c :=
  getLink_setLink_same s q _

theorem partnerBuf_takeIdent {s : State} {q : LinkId} {i : Ident} (h : i.bad = false) : (getLink (takeIdent s q i) q.val).partnerBuf = i.buf := by
  unfold takeIdent
  rw [if_neg (by simp [h]), getLink_setLink_same]
  have hsteady := steady_pumpAll { getLink (identify s (.quill q) i) q.val with partnerBuf := i.buf } (identify s (.quill q) i).lt
  simp only [Link.steady, Prod.mk.injEq] at hsteady
  obtain ⟨-, -, -, -, -, hbuf, -⟩ := hsteady
  exact hbuf

theorem bulkIn_takeBulkFrame {s : State} {q : Nat} {f : QuillFrame} (h : f.last = false) :
    (getLink (takeBulkFrame s q f) q).bulkIn = (getLink s q).bulkIn ++ [padWords 8 f.payload] := by
  unfold takeBulkFrame
  rw [if_neg (by simp [h]), getLink_setLink_same]

-- NULL frames (R378, R524)

theorem execNull_of_good {q : LinkId} {f : QuillFrame} {s : State} (hears : linkHears s q.val = true) (h : rxCheck f = .good) :
    execNull q f s = .next s := by
  unfold execNull
  rw [if_neg (by simp [hears]), h]

theorem execNull_of_retry {q : LinkId} {f : QuillFrame} {s : State} (hears : linkHears s q.val = true) (h : rxCheck f = .retry) :
    execNull q f s = .next (laneError s q.val) := by
  unfold execNull
  rw [if_neg (by simp [hears]), h]

/-- What a unit's spares and the units that wait for one are told by. -/
def Health.units (a : Health) := (a.pending, a.bringing, a.quillSpares)

theorem marked_units (s : State) (f : FaultRec) (code kind index a2 a3 : Nat) :
    (healthEvent (writeFault s f) code kind index a2 a3).anl.units = s.anl.units :=
  (congrArg Health.units (same_of_law .anl (healthEvent_touch code kind index a2 a3) rfl)).trans
    (writeFault_anl (g := Health.units) (fun _ _ _ _ => rfl) s f)

/-- A transceiver whose spare is free waits for it. -/
theorem unitMarked_markUnit_quill {s : State} {q crit n : Nat} (hfree : unitMarked s uQuill q = false) (hspare : sparesLeft s uQuill q = 1)
    (hclaims : spareClaims s uQuill q = 0) : unitMarked (markUnit s uQuill q crit n 0) uQuill q = true := by
  unfold markUnit
  rw [if_neg (by simp [hfree])]
  dsimp only
  generalize hu : healthEvent (writeFault s _) 0x01 uQuill q crit n = u
  have hunits : u.anl.units = s.anl.units := hu ▸ marked_units s _ _ _ _ _ _
  simp only [Health.units, Prod.mk.injEq] at hunits
  obtain ⟨hpending, hbringing, hquill⟩ := hunits
  have hleft : sparesLeft u uQuill q = 1 := hspare ▸ by simp [sparesLeft, uQuill, uTile, hquill]
  have hclaimed : spareClaims u uQuill q = 0 := hclaims ▸ by simp [spareClaims, hpending, hbringing]
  rw [if_pos (by rw [hleft, hclaimed]; decide), if_neg fun h => absurd h.1 (by decide)]
  unfold unitMarked
  rw [same_of_law .anl (healthEvent_touch _ _ _ _ _) rfl]
  simp

theorem bestEffortFramesAndNull : BestEffortFramesAndNull := by
  intro q f s hears
  refine ⟨fun hgood hseq hwait => ?accept, execNull_of_good hears, fun hretry => ?retry⟩
  case accept =>
    have hreceive := receive_of_expected (k := .be) hgood hseq fun h => absurd (hwait.symm.trans h) (by decide)
    refine ⟨fun hok _ => ⟨_, (execIdent_of_hears hears f).trans (by rw [hreceive]), ?_⟩,
      ⟨_, (execLeave_of_hears hears f).trans (by rw [hreceive]), fun n hn hatt => ?_⟩,
      fun hlast => ⟨_, (execBulk_of_hears hears f).trans (by rw [hreceive]), ?_⟩⟩
    · exact partnerBuf_takeIdent hok
    · exact attachmentGone_leaves hn (show onQuill q.val (getPartner s n).att = true by simp [onQuill, hatt])
    · refine (bulkIn_takeBulkFrame (s := judged s q.val .be _ false) hlast).trans ?_
      rw [getLink_judged]
      rfl
  case retry =>
    refine ⟨_, execNull_of_retry hears hretry, laneError_links s q.val, laneError_code s q.val, fun hup herrs hfree hspare hclaims => ?_,
      fun hearly => ?_⟩
    · rw [laneError_eq, if_pos ⟨hup, herrs⟩]
      exact unitMarked_markUnit_quill (s := errorNoted s q.val) hfree hspare hclaims
    · rw [laneError_eq, if_neg fun h => absurd h.1 (Nat.not_le.2 hearly)]
      rfl

/-- Settles O45, by the judgement of a frame and by what the work an accepted one brings leaves of its class. -/
theorem quillFramesAreTaken : Obligations.QuillFramesAreTaken := ⟨framesAreTakenInSequence, bestEffortFramesAndNull⟩

end Sys2Proof.Machine
end

section
/-! SUPPORT. What a link in UP sends (R385, R386, R387, R390): samples within its credits, the frames a NAK names, and the counts of frames
freed. -/

namespace Sys2Proof.Machine

-- a sample leaves (R387, R390)

/-- The frames of a sample sent. -/
def Link.sendAll (x : Link) (fs : List TxFrame) : Link := fs.foldl (fun (y : Link) f => y.send .lc f) x

theorem sendAll_counts (fs : List TxFrame) (x : Link) : (x.sendAll fs).dataOut = x.dataOut
    ∧ (x.sendAll fs).lc.sent = x.lc.sent + fs.length ∧ (x.sendAll fs).lc.tx = x.lc.tx + BitVec.ofNat 16 fs.length := by
  induction fs generalizing x with
  | nil => simp [Link.sendAll]
  | cons f fs ih =>
    obtain ⟨hout, hsent, htx⟩ := ih (x.send .lc f)
    have hone : (x.send .lc f).dataOut = x.dataOut ∧ (x.send .lc f).lc.sent = x.lc.sent + 1 ∧ (x.send .lc f).lc.tx = x.lc.tx + 1 :=
      ⟨rfl, rfl, rfl⟩
    obtain ⟨hout1, hsent1, htx1⟩ := hone
    refine ⟨hout.trans hout1, hsent.trans ?_, htx.trans ?_⟩
    · rw [hsent1, List.length_cons]
      omega
    · rw [htx1, List.length_cons, Nat.add_comm fs.length 1, BitVec.ofNat_add, ← BitVec.add_assoc]
      rfl

/-- A BE-class frame in progress is aborted by a sample. -/
def Link.overtaken (x y : Link) (now : Nat) : Link :=
  if x.inProgress now then { y with lastSet := some .abort, lastTx := y.busy, busyAt := now } else { y with busy := none }

theorem overtaken_counts (x y : Link) (now : Nat) : (x.overtaken y now).dataOut = y.dataOut ∧ (x.overtaken y now).lc = y.lc :=
  iteInduction (motive := fun z : Link => z.dataOut = y.dataOut ∧ z.lc = y.lc) (fun _ => ⟨rfl, rfl⟩) (fun _ => ⟨rfl, rfl⟩)

section
variable {q : LinkId} {s : State} {o : OutSample} {rest : List OutSample}

/-- A link in UP with a sample at hand, which is out of its queue. -/
theorem dataHandover_of_up (hst : (getLink s q.val).st = .up) (hout : (getLink s q.val).dataOut = o :: rest) : execDataHandover q s =
    if (getLink s q.val).credits .lc < (sampleFrames o.stat o.words).length then
      .next (regSet (setLink s q.val { getLink s q.val with dataOut := rest }) (qlOff q.val qlNoCred)
        (BitVec.ofNat 32 (satAdd 32 (regGet s (qlOff q.val qlNoCred)).toNat (sampleFrames o.stat o.words).length)))
    else
      let y := { getLink s q.val with dataOut := rest }.sendAll (sampleFrames o.stat o.words)
      .next (setLink (frameRecord s q.val vOutbound o.stat (y.lc.tx - 1).toNat (lc s) o.words).1 q.val
        ((getLink s q.val).overtaken y s.lt)) := by
  unfold execDataHandover
  dsimp only
  rw [hout]
  dsimp only
  rw [if_neg (by simp [hst]), if_neg (not_not.2 hst)]
  rfl

theorem dataHandover_sends (hst : (getLink s q.val).st = .up) (hout : (getLink s q.val).dataOut = o :: rest)
    (hcred : (sampleFrames o.stat o.words).length ≤ (getLink s q.val).credits .lc) : ∃ t, execDataHandover q s = .next t
      ∧ (getLink t q.val).dataOut = rest
      ∧ (getLink t q.val).lc.sent = (getLink s q.val).lc.sent + (sampleFrames o.stat o.words).length
      ∧ (getLink t q.val).lc.tx = (getLink s q.val).lc.tx + BitVec.ofNat 16 (sampleFrames o.stat o.words).length := by
  obtain ⟨hrest, hsent, htx⟩ := sendAll_counts (sampleFrames o.stat o.words) { getLink s q.val with dataOut := rest }
  refine ⟨_, (dataHandover_of_up hst hout).trans (if_neg (by omega)), ?_⟩
  rw [getLink_setLink_same]
  obtain ⟨hout', hlc⟩ := overtaken_counts (getLink s q.val)
    ({ getLink s q.val with dataOut := rest }.sendAll (sampleFrames o.stat o.words)) s.lt
  rw [hout', hlc]
  exact ⟨hrest, hsent, htx⟩

end

-- a NAK (R386)

/-- The frames from one on are sent again. -/
def sentAgain (i : Nat) (l : List TxFrame) : List TxFrame := l.zipIdx.map (fun e => if i ≤ e.2 then { e.1 with retx := true } else e.1)

theorem map_zipIdx_from (i k : Nat) (l : List TxFrame) :
    (l.zipIdx k).map (fun e => if i ≤ e.2 then { e.1 with retx := true } else e.1)
      = l.take (i - k) ++ (l.drop (i - k)).map (fun f => { f with retx := true }) := by
  induction l generalizing k with
  | nil => simp
  | cons f l ih =>
    rw [List.zipIdx_cons, List.map_cons, ih]
    by_cases hk : i ≤ k
    · simp [hk, show i - k = 0 by omega, show i - (k + 1) = 0 by omega]
    · obtain ⟨m, hm⟩ : ∃ m, i - k = m + 1 := ⟨i - k - 1, by omega⟩
      simp [hk, hm, show i - (k + 1) = m by omega]

theorem sentAgain_eq (i : Nat) (l : List TxFrame) : sentAgain i l = l.take i ++ (l.drop i).map (fun f => { f with retx := true }) :=
  map_zipIdx_from i 0 l

/-- The frames a NAK names and those after it. -/
def resent (s : State) (q : Nat) (k : FrameClass) (i : Nat) : State :=
  let rp := sentAgain i ((getLink s q).cls k).replay
  setLink s q { (getLink s q).setCls k { (getLink s q).cls k with replay := rp } with lastTx := rp.getLast? }

section
variable {s : State} {q : Nat} {k : FrameClass} {seq : BitVec 16} (hst : (getLink s q).st = .up)
include hst

theorem takeNak_of_kept {i : Nat} (h : ((getLink s q).cls k).replay.findIdx? (fun f => decide (f.seq = seq ∧ f.retx = false)) = some i) :
    takeNak s q k seq = resent s q k i := by
  unfold takeNak
  dsimp only
  rw [if_neg (not_not.2 hst), h]
  rfl

theorem takeNak_of_lost (h : ((getLink s q).cls k).replay.findIdx? (fun f => decide (f.seq = seq ∧ f.retx = false)) = none) :
    takeNak s q k seq = bump s (qlOff q qlNakIgn) := by
  unfold takeNak
  dsimp only
  rw [if_neg (not_not.2 hst), h]

end

theorem Link.cls_lastTx (x : Link) (k : FrameClass) (f : Option TxFrame) : { x with lastTx := f }.cls k = x.cls k := by cases k <;> rfl

theorem cls_resent (s : State) (q : Nat) (k : FrameClass) (i : Nat) :
    (getLink (resent s q k i) q).cls k = { (getLink s q).cls k with replay := sentAgain i ((getLink s q).cls k).replay } := by
  rw [resent, getLink_setLink_same, Link.cls_lastTx, Link.cls_setCls]

theorem findIdx?_of_sent {l : List TxFrame} {seq : BitVec 16} (h : ∀ f ∈ l, f.seq = seq → f.retx = true) :
    l.findIdx? (fun f => decide (f.seq = seq ∧ f.retx = false)) = none := by
  rw [List.findIdx?_eq_none_iff]
  exact fun f hf => decide_eq_false fun hn => absurd (h f hf hn.1) (by simp [hn.2])

theorem nakIsAnswered {s : State} {q : Nat} (k : FrameClass) (seq : BitVec 16) (hst : (getLink s q).st = .up) :
    (∀ i, ((getLink s q).cls k).replay.findIdx? (fun f => decide (f.seq = seq ∧ f.retx = false)) = some i →
        ∃ t, (.next (takeNak s q k seq) : Result) = .next t ∧ ((getLink t q).cls k).replay
            = ((getLink s q).cls k).replay.take i ++ (((getLink s q).cls k).replay.drop i).map (fun f => { f with retx := true })
          ∧ ((getLink t q).cls k).tx = ((getLink s q).cls k).tx)
      ∧ ((∀ f ∈ ((getLink s q).cls k).replay, f.seq = seq → f.retx = true) →
        (.next (takeNak s q k seq) : Result) = .next (bump s (qlOff q qlNakIgn))) := by
  refine ⟨fun i hi => ⟨_, congrArg _ (takeNak_of_kept hst hi), ?_⟩, fun h => congrArg _ (takeNak_of_lost hst (findIdx?_of_sent h))⟩
  rw [cls_resent]
  exact ⟨sentAgain_eq i _, rfl⟩

-- a NAK that is not answered (R385)

/-- The expected frame is given up. -/
def givenUp (s : State) (q : Nat) (k : FrameClass) : State :=
  bump (setLink s q ((getLink s q).setCls k ((getLink s q).cls k).took)) (qlOff q qlLost)

theorem cls_givenUp (s : State) (q : Nat) (k : FrameClass) : (getLink (givenUp s q k) q).cls k = ((getLink s q).cls k).took :=
  (congrArg (fun x : Link => x.cls k) (getLink_setLink_same s q _)).trans (Link.cls_setCls _ k _)

/-- Its sample, or message, is discarded. -/
def halfDropped (s : State) (q : Nat) : FrameClass → State
  | .lc => dropFrags s q
  | .be => setLink s q { getLink s q with bulkIn := [] }

theorem halfDropped_place (s : State) (q : Nat) (k : FrameClass) : KeepsPlace q k s (halfDropped s q k) := by
  cases k with
  | lc => exact dropFrags_place s q
  | be => exact .setLink rfl

theorem halfDropped_regs (s : State) (q : Nat) (k : FrameClass) : (halfDropped s q k).regs = s.regs := by
  cases k with
  | lc => exact same_of_law .regs (dropFrags_touch q) rfl
  | be => rfl

theorem nakTimeout_of_waiting {q : LinkId} {k : FrameClass} {s : State} (hst : (getLink s q.val).st = .up)
    (hnak : ((getLink s q.val).cls k).nak = true) : execNakTimeout q k s = .next (halfDropped (givenUp s q.val k) q.val k) := by
  unfold execNakTimeout
  dsimp only
  rw [if_neg (by simp [hst, hnak])]
  cases k <;> rfl

theorem nakTimeout_gives_up {q : LinkId} {s : State} (k : FrameClass) (hst : (getLink s q.val).st = .up)
    (hnak : ((getLink s q.val).cls k).nak = true) : ∃ t, execNakTimeout q k s = .next t
      ∧ ((getLink t q.val).cls k).rx = ((getLink s q.val).cls k).rx + 1 ∧ ((getLink t q.val).cls k).nak = false
      ∧ regGet t (qlOff q.val qlLost) = BitVec.ofNat 32 (satInc 32 (regGet s (qlOff q.val qlLost)).toNat) := by
  have hplace := halfDropped_place (givenUp s q.val k) q.val k
  rw [KeepsPlace, cls_givenUp] at hplace
  simp only [LinkClass.place, LinkClass.took, Prod.mk.injEq] at hplace
  obtain ⟨hrx, hnak', -⟩ := hplace
  refine ⟨_, nakTimeout_of_waiting hst hnak, hrx, hnak', ?_⟩
  rw [regGet_congr (halfDropped_regs _ _ _), givenUp, regGet_bump_same]
  rfl

-- the replay buffer and the credits (R386, R390)

theorem replayExpire_drops {q : LinkId} {s : State} (k : FrameClass) (f : TxFrame) (rest : List TxFrame)
    (h : ((getLink s q.val).cls k).replay = f :: rest) :
    ∃ t, execReplayExpire q k s = .next t ∧ ((getLink t q.val).cls k).replay = rest := by
  have hbusy : ∀ (x : Link) (b : Option TxFrame), { x with busy := b }.cls k = x.cls k := fun x b => by cases k <;> rfl
  unfold execReplayExpire
  dsimp only
  rw [h]
  refine ⟨_, rfl, ?_⟩
  rw [getLink_setLink_same]
  refine iteInduction (motive := fun x : Link => (x.cls k).replay = rest) (fun _ => ?_) (fun _ => ?_)
  · rw [hbusy, Link.cls_setCls]
  · rw [Link.cls_setCls]

theorem freedOf_spec (old : Nat) (n : BitVec 8) : freedOf old n % 256 = n.toNat ∧ old ≤ freedOf old n := by
  unfold freedOf
  have := n.isLt
  omega

/-- The partner's freed counts moved on. -/
def Link.credited (x : Link) (a b : BitVec 8) : Link :=
  { x with lc := { x.lc with partnerFreed := freedOf x.lc.partnerFreed a }, be := { x.be with partnerFreed := freedOf x.be.partnerFreed b } }

theorem execCredit_of_up {q : LinkId} {s : State} (a b : BitVec 8) (hst : (getLink s q.val).st = .up) :
    execCredit q a b s = .next (setLink s q.val (((getLink s q.val).credited a b).pumpAll s.lt)) := if_neg (not_not.2 hst)

/-- Credits that come back to a link with no BE-class frame waiting. -/
theorem credit_of_up {q : LinkId} {s : State} (a b : BitVec 8) (hst : (getLink s q.val).st = .up) (hout : (getLink s q.val).bulkOut = []) :
    ∃ t, execCredit q a b s = .next t
      ∧ (getLink t q.val).lc.partnerFreed % 256 = a.toNat ∧ (getLink t q.val).be.partnerFreed % 256 = b.toNat
      ∧ (getLink s q.val).lc.partnerFreed ≤ (getLink t q.val).lc.partnerFreed
      ∧ (getLink s q.val).be.partnerFreed ≤ (getLink t q.val).be.partnerFreed := by
  obtain ⟨hlc, hlcLe⟩ := freedOf_spec (getLink s q.val).lc.partnerFreed a
  obtain ⟨hbe, hbeLe⟩ := freedOf_spec (getLink s q.val).be.partnerFreed b
  refine ⟨_, execCredit_of_up a b hst, ?_⟩
  rw [getLink_setLink_same, pumpAll_of_empty (x := (getLink s q.val).credited a b) hout]
  exact ⟨hlc, hbe, hlcLe, hbeLe⟩

/-- Settles O46, by what each of a link's sending commands does to its class and its queue. -/
theorem linksSendAndReplay : Obligations.LinksSendAndReplay := by
  intro q s
  refine ⟨fun o rest hst hout => ⟨dataHandover_sends hst hout, fun hcred => (dataHandover_of_up hst hout).trans (if_pos hcred)⟩,
    fun c k seq hc hst => ?nak, fun k => nakTimeout_gives_up k, replayExpire_drops, fun hst => if_pos hst, fun a b => credit_of_up a b,
    fun hst => ?null⟩
  case nak =>
    obtain ⟨rfl, rfl⟩ | ⟨rfl, rfl⟩ := hc
    · exact nakIsAnswered .lc seq hst
    · exact nakIsAnswered .be seq hst
  case null =>
    refine ⟨_, ⟨0, 0, 6, 0, false, false, List.replicate 8 0⟩, if_pos hst, ?_, rfl, rfl⟩
    rw [getLink_setLink_same]

end Sys2Proof.Machine
end

section
/-! SUPPORT. Direct ports, Ethernet ports and partners (R374, R392 to R399, Table 14.14): the way of an accepted frame to the engines, and
what a frame's MAC and stream note of it. -/

namespace Sys2Proof.Machine

theorem portFree_of_ready {s : State} {n : Nat} (hready : isReady s = true) (hport : s.rst.portRst.getLsbD n = false) :
    portInReset s n = false := by simp [portInReset, hready, hport]

-- an accepted frame reaches the engines (R374)

theorem enginePart_congr {s t : State} (h : t.parts = s.parts) (n : Nat) : enginePart t n = enginePart s n := by
  unfold enginePart
  simp only [getPart_congr h]

theorem engineReplays_congr {s t : State} (h : t.parts = s.parts) (n : Nat) : engineReplays t n = engineReplays s n := by
  unfold engineReplays replayPart
  simp only [enginePart_congr h, getPart_congr h]

/-- One engine's turn as a frame reaches all. -/
def feedTurn (i : Nat) (f : NibFrame) (replay : Bool) (t : State) (n : Nat) : State :=
  if (enginePart t n).isNone ∨ engineReplays t n ≠ replay then t
  else (nibStreams t n).zipIdx.foldl (fun u e => if e.1 = i then feedStream u n e.2 f else u) (noteFrame t n i f)

theorem feedEngines_eq (s : State) (i : Nat) (f : NibFrame) (replay : Bool) :
    feedEngines s i f replay = (upTo 16).foldl (feedTurn i f replay) s := rfl

/-- An engine and what decides its turn are left alone. -/
def KeepsEngine (n : Nat) (s t : State) : Prop := getNib t n = getNib s n ∧ t.parts = s.parts ∧ t.regs = s.regs

theorem KeepsEngine.refl (n : Nat) (s : State) : KeepsEngine n s s := ⟨rfl, rfl, rfl⟩

theorem KeepsEngine.trans {n : Nat} {s t u : State} (h : KeepsEngine n s t) (g : KeepsEngine n t u) : KeepsEngine n s u :=
  ⟨g.1.trans h.1, g.2.1.trans h.2.1, g.2.2.trans h.2.2⟩

theorem KeepsEngine.setNib {n m : Nat} (h : m ≠ n) (s : State) (x : Nib) : KeepsEngine n s (setNib s m x) :=
  ⟨by rw [getNib_setNib, if_neg h], rfl, rfl⟩

theorem feedTurn_of_ne {n m : Nat} (h : m ≠ n) (i : Nat) (f : NibFrame) (replay : Bool) (t : State) :
    KeepsEngine n t (feedTurn i f replay t m) := by
  refine iteInduction (motive := KeepsEngine n t) (fun _ => .refl n t) (fun _ => ?_)
  have hnote : KeepsEngine n t (noteFrame t m i f) := .setNib h t _
  refine hnote.trans (foldl_keeps (KeepsEngine.refl n) KeepsEngine.trans _ (fun u e _ => ?_) _)
  exact iteInduction (motive := KeepsEngine n u) (fun _ => .setNib h u _) (fun _ => .refl n u)

/-- The trigger stream's frame waits for its sample. -/
theorem triggers_feedTurn {t : State} {n i : Nat} {f : NibFrame} (hpart : (enginePart t n).isSome = true)
    (hreplay : engineReplays t n = false) (hstreams : nibStreams t n = [i]) (htrig : nibTrig t n = 0) :
    (getNib (feedTurn i f false t n) n).triggers = (getNib t n).triggers ++ [f] := by
  have hnote : nibTrig (noteFrame t n i f) n = 0 := htrig
  have hframes : (getNib (noteFrame t n i f) n).triggers = (getNib t n).triggers := by
    rw [noteFrame, getNib_setNib_same]
  have hnone : ¬ ((enginePart t n).isNone = true ∨ engineReplays t n ≠ false) := by
    rw [hreplay, Option.isNone_iff_eq_none]
    rintro (h | h)
    · rw [h] at hpart; cases hpart
    · exact h rfl
  unfold feedTurn
  rw [if_neg hnone, hstreams]
  show (getNib (if i = i then feedStream (noteFrame t n i f) n 0 f else noteFrame t n i f) n).triggers = _
  rw [if_pos rfl, feedStream, getNib_setNib_same, hnote, if_pos rfl, ← hframes]
  exact iteInduction (motive := fun e : Nib => e.triggers ++ [f] = (getNib (noteFrame t n i f) n).triggers ++ [f]) (fun _ => rfl) (fun _ => rfl)

theorem triggers_feedEngines {s : State} {n i : Nat} {f : NibFrame} (hn : n < 16) (hpart : (enginePart s n).isSome = true)
    (hreplay : engineReplays s n = false) (hstreams : nibStreams s n = [i]) (htrig : nibTrig s n = 0) :
    (getNib (feedEngines s i f false) n).triggers = (getNib s n).triggers ++ [f] := by
  obtain ⟨t, ⟨hnib, hparts, hregs⟩, hafter, -⟩ := foldl_upTo_at (F := feedTurn i f false) (KeepsEngine.refl n) KeepsEngine.trans hn
    (fun t m _ hm => feedTurn_of_ne hm i f false t) s
  have hstreams' : nibStreams t n = nibStreams s n := by unfold nibStreams; rw [regGet_congr hregs]
  have htrig' : nibTrig t n = nibTrig s n := by unfold nibTrig; rw [regGet_congr hregs]
  rw [feedEngines_eq, hafter, triggers_feedTurn (by rw [enginePart_congr hparts]; exact hpart)
    (by rw [engineReplays_congr hparts]; exact hreplay) (hstreams'.trans hstreams) (htrig'.trans htrig), hnib]

theorem frameRecord_keeps (s : State) (i v st n tick : Nat) (ws : List Word) : (frameRecord s i v st n tick ws).1.nibs = s.nibs
    ∧ (frameRecord s i v st n tick ws).1.parts = s.parts ∧ (frameRecord s i v st n tick ws).1.regs = s.regs := by
  have h := Touch.of_law (frameRecord_touch (s := s) i v st n tick ws)
  exact ⟨h.keeps .nibs rfl, h.keeps .parts rfl, h.keeps .regs rfl⟩

theorem triggers_acceptFrame {s : State} {n i stat : Nat} {f : NibFrame} (hn : n < 16) (hpart : (enginePart s n).isSome = true)
    (hreplay : engineReplays s n = false) (hstreams : nibStreams s n = [i]) (htrig : nibTrig s n = 0) :
    (getNib (acceptFrame s i stat f) n).triggers = (getNib s n).triggers ++ [f] := by
  unfold acceptFrame
  dsimp only
  generalize hu : frameRecord s i vAccepted stat _ f.cap f.words = u
  obtain ⟨hnibs, hparts, hregs⟩ : u.1.nibs = s.nibs ∧ u.1.parts = s.parts ∧ u.1.regs = s.regs := hu ▸ frameRecord_keeps s i _ _ _ _ _
  have hstreams' : nibStreams u.1 n = nibStreams s n := by unfold nibStreams; rw [regGet_congr hregs]
  have htrig' : nibTrig u.1 n = nibTrig s n := by unfold nibTrig; rw [regGet_congr hregs]
  rw [getNib_congr (same_of_law .nibs (streamSet_touch i u.2 0 f.words false) rfl), triggers_feedEngines hn
    (by rw [enginePart_congr hparts]; exact hpart) (by rw [engineReplays_congr hparts]; exact hreplay) (hstreams'.trans hstreams)
    (htrig'.trans htrig), getNib_congr hnibs]

-- the frames of direct ports (R392 to R394, R403)

/-- The safe frame of an unconfigured output port (R403). -/
def safeFrame (s : State) (d : Nat) : TxFrame :=
  ⟨1, (getDport s d).safeSeq, 6, 0, true, false, List.replicate (fld (tblGet 0 s.fuse.dpSafe d) 12 8 + 1)
    (topBits (fld (tblGet 0 s.fuse.dpSafe d) 4 0 + 1) (tblGet 0 s.fuse.dpSafeWord d))⟩

section
variable {d : PortId} {f : PortFrame} {s : State} (hready : isReady s = true) (hport : s.rst.portRst.getLsbD (16 + d.val) = false)
include hready hport

theorem dpFrameRx_of_bad (hin : dpIsIn s d.val = true) (hpll : (getDport s d.val).pll = true) (hbad : dpFrameOk s d.val f = false) :
    ∃ t, execDpFrameRx d f s = .next t ∧ t.nibs = s.nibs
      ∧ regGet t (dpOff d.val 4) = BitVec.ofNat 32 (satInc 32 (regGet s (dpOff d.val 4)).toNat) := by
  unfold execDpFrameRx
  dsimp only
  rw [if_neg (by simp [hin, hpll, portFree_of_ready hready hport]), if_pos (by simp [hbad])]
  obtain ⟨hnibs, -, hregs⟩ := frameRecord_keeps (bump s (dpOff d.val 4)) (16 + d.val) vDiscarded (fld f.header 15 12) (fld f.header 31 16)
    (lc (bump s (dpOff d.val 4))) (f.words.map (fun (w : Word) => w <<< (32 - dpWidth s d.val)))
  exact ⟨_, rfl, hnibs, by rw [regGet_congr hregs, regGet_bump_same]⟩

/-- A good frame, with the words' bits at the top. -/
def portNibFrame (s : State) (d : Nat) (f : PortFrame) : NibFrame :=
  ⟨lc s, if wbit (regGet s (dpOff d 0)) 29 then some (BitVec.ofNat 16 (fld f.header 31 16)) else none, 1,
    f.words.map (fun (w : Word) => w <<< (32 - dpWidth s d))⟩

theorem dpFrameRx_of_good (hin : dpIsIn s d.val = true) (hpll : (getDport s d.val).pll = true) (hok : dpFrameOk s d.val f = true)
    (hstat : fld f.header 15 12 ≠ 6) (hon : strmOn s (16 + d.val) = true) (hout : strmIsOut s (16 + d.val) = false) :
    execDpFrameRx d f s = .next (acceptFrame s (16 + d.val) (fld f.header 15 12) (portNibFrame s d.val f)) := by
  unfold execDpFrameRx
  dsimp only
  rw [if_neg (by simp [hin, hpll, portFree_of_ready hready hport]), if_neg (by simp [hok]), if_neg hstat, if_neg (by simp [hon, hout])]
  rfl

theorem safeFrameTimer_of_unconfigured (hfuse : s.fuse.dpOutputs.getLsbD d.val = true) (hsafe : wbit (tblGet 0 s.fuse.dpSafe d.val) 31 = true)
    (hperiod : fld (tblGet 0 s.fuse.dpSafe d.val) 23 16 ≠ 0) (hpll : (getDport s d.val).pll = true)
    (hconf : wbit (regGet s (dpOff d.val 0)) 31 = false) : ∃ t g, execSafeFrameTimer d s = .next t
      ∧ (getDport t d.val).lastTx = some g ∧ g.stat = 6 ∧ g.seq = (getDport s d.val).safeSeq
      ∧ (getDport t d.val).safeSeq = (getDport s d.val).safeSeq + 1
      ∧ g.payload.length = fld (tblGet 0 s.fuse.dpSafe d.val) 12 8 + 1 := by
  unfold execSafeFrameTimer
  dsimp only
  rw [if_pos (by rw [hfuse, hsafe, hpll, hconf, portFree_of_ready hready hport, decide_eq_true hperiod]; rfl)]
  refine ⟨_, safeFrame s d.val, rfl, ?_⟩
  rw [getDport_setDport_same]
  exact ⟨rfl, rfl, rfl, rfl, List.length_replicate⟩

end

theorem directPortFrames : DirectPortFrames := by
  intro d f s hready hport
  refine ⟨if_neg (by simp [portFree_of_ready hready hport, Port.num]), dpFrameRx_of_bad hready hport,
    fun hin hpll hok hstat hon hout => ?_, safeFrameTimer_of_unconfigured hready hport⟩
  exact ⟨_, portNibFrame s d.val f, dpFrameRx_of_good hready hport hin hpll hok hstat hon hout, rfl, rfl,
    fun n hn hpart _ hreplay hstreams htrig => triggers_acceptFrame hn hpart hreplay hstreams htrig⟩

end Sys2Proof.Machine
end

section
/-! SUPPORT. Stream frames on Ethernet ports, and the partner table (R396, R397, R399, Table 14.14). -/

namespace Sys2Proof.Machine

theorem getEth_congr {s t : State} (h : t.eths = s.eths) (e : Nat) : getEth t e = getEth s e := by
  unfold getEth
  rw [h]

theorem getPartner_congr {s t : State} (h : t.partners = s.partners) (n : Nat) : getPartner t n = getPartner s n := by
  unfold getPartner
  rw [h]

-- a frame ends its MAC's silence

/-- One entry's turn as a MAC is heard. -/
def hearTurn (e : Nat) (mac : BitVec 48) (t : State) (n : Nat) : State :=
  if onMac t e mac n then setPartner t n { getPartner t n with seen := t.lt } else t

theorem hearMac_eq (s : State) (e : Nat) (mac : BitVec 48) : hearMac s e mac = (upTo 256).foldl (hearTurn e mac) s := rfl

/-- Every entry is as it was, but for when it was heard. -/
def SamePartners (s t : State) : Prop := t.lt = s.lt ∧ ∀ n, { getPartner t n with seen := 0 } = { getPartner s n with seen := 0 }

theorem SamePartners.refl (s : State) : SamePartners s s := ⟨rfl, fun _ => rfl⟩

theorem SamePartners.trans {s t u : State} (h : SamePartners s t) (g : SamePartners t u) : SamePartners s u :=
  ⟨g.1.trans h.1, fun n => (g.2 n).trans (h.2 n)⟩

theorem samePartners_hearTurn (e : Nat) (mac : BitVec 48) (t : State) (n : Nat) : SamePartners t (hearTurn e mac t n) := by
  refine iteInduction (motive := SamePartners t) (fun _ => ⟨rfl, fun m => ?_⟩) (fun _ => .refl t)
  rw [getPartner_setPartner]
  split_ifs with h
  · rw [h]
  · rfl

theorem samePartners_hearMac (s : State) (e : Nat) (mac : BitVec 48) : SamePartners s (hearMac s e mac) :=
  foldl_keeps SamePartners.refl SamePartners.trans _ (fun t n _ => samePartners_hearTurn e mac t n) s

theorem SamePartners.st {s t : State} (h : SamePartners s t) (n : Nat) : (getPartner t n).st = (getPartner s n).st :=
  (congrArg Partner.st (h.2 n)).trans rfl

theorem SamePartners.att {s t : State} (h : SamePartners s t) (n : Nat) : (getPartner t n).att = (getPartner s n).att :=
  (congrArg Partner.att (h.2 n)).trans rfl

theorem SamePartners.pid {s t : State} (h : SamePartners s t) (n : Nat) : (getPartner t n).pid = (getPartner s n).pid :=
  (congrArg Partner.pid (h.2 n)).trans rfl

theorem SamePartners.onMac {s t : State} (h : SamePartners s t) (e : Nat) (mac : BitVec 48) (n : Nat) :
    Machine.onMac t e mac n = Machine.onMac s e mac n := by
  unfold Machine.onMac
  rw [h.st, h.att]

theorem SamePartners.macEntry {s t : State} (h : SamePartners s t) (e : Nat) (mac : BitVec 48) :
    Machine.macEntry t e mac = Machine.macEntry s e mac := by
  have hon : Machine.onMac t e mac = Machine.onMac s e mac := funext (h.onMac e mac)
  unfold Machine.macEntry
  simp only [hon, h.st]

/-- A partner's entry is one learned for the MAC. -/
theorem onMac_of_macEntry {s : State} {e n : Nat} {mac : BitVec 48} (h : macEntry s e mac = some n) : n < 256 ∧ onMac s e mac n = true := by
  have hfind : ∀ {P : Nat → Bool}, (upTo 256).find? P = some n → n < 256 ∧ P n = true := fun h =>
    ⟨List.mem_range.1 (List.mem_of_find?_eq_some h), List.find?_some h⟩
  unfold macEntry at h
  obtain h | ⟨-, h⟩ := Option.or_eq_some_iff.1 h
  · obtain ⟨hn, hon⟩ := hfind h
    exact ⟨hn, (Bool.and_eq_true_iff.1 hon).1⟩
  · exact hfind h

theorem seen_hearMac {s : State} {e n : Nat} {mac : BitVec 48} (hn : n < 256) (hon : onMac s e mac n = true) :
    (getPartner (hearMac s e mac) n).seen = s.lt := by
  obtain ⟨t, hbefore, hafter⟩ := foldl_upTo_at (F := hearTurn e mac) (K := fun t u => SamePartners t u ∧ getPartner u n = getPartner t n)
    (fun t => ⟨.refl t, rfl⟩) (fun h g => ⟨h.1.trans g.1, g.2.trans h.2⟩) hn
    (fun t m _ hm => ⟨samePartners_hearTurn e mac t m, iteInduction (motive := fun u => getPartner u n = getPartner t n)
      (fun _ => by rw [getPartner_setPartner, if_neg hm]) (fun _ => rfl)⟩) s
  rw [hearMac_eq, hafter.2, hearTurn, if_pos (by rw [hbefore.1.onMac, hon]), getPartner_setPartner_same]
  exact hbefore.1.1

-- a stream frame (R396)

/-- A frame's port and MAC are noted. -/
def ethHeard (s : State) (e : Nat) (mac : BitVec 48) : State := hearMac (setEth s e { getEth s e with up := true }) e mac

theorem getEth_ethHeard (s : State) (e : Nat) (mac : BitVec 48) : getEth (ethHeard s e mac) e = { getEth s e with up := true } := by
  rw [getEth_congr (same_of_law .eths (hearMac_touch e mac) rfl : (ethHeard s e mac).eths = _), getEth_setEth_same]

theorem samePartners_setEth (s : State) (e : Nat) (x : EthPort) : SamePartners s (setEth s e x) := ⟨rfl, fun _ => rfl⟩

theorem samePartners_ethHeard (s : State) (e : Nat) (mac : BitVec 48) : SamePartners s (ethHeard s e mac) :=
  (samePartners_setEth s e _).trans (samePartners_hearMac _ e mac)

theorem seen_ethHeard {s : State} {e n : Nat} {mac : BitVec 48} (hn : n < 256) (hon : onMac s e mac n = true) :
    (getPartner (ethHeard s e mac) n).seen = s.lt := by
  unfold ethHeard
  rw [seen_hearMac hn (((samePartners_setEth s e _).onMac e mac n).trans hon)]
  rfl

theorem ethHeard_regs (s : State) (e : Nat) (mac : BitVec 48) : (ethHeard s e mac).regs = s.regs :=
  (same_of_law .regs (hearMac_touch e mac) rfl : (hearMac (setEth s e _) e mac).regs = (setEth s e _).regs)

/-- The frame's work after that. -/
def ethWork (s t : State) (e : EthId) (f : EthFrame) : State :=
  if fld (regGet s (ethOff e.val 0)) 31 16 ≠ f.etype.toNat || !ethHeaderOk f then t
  else if EthFrame.ftype f = 3 then identify t (.eth e.val f.src) (identOf f.payload)
  else if EthFrame.ftype f = 4 then attachmentGone t (fun a => decide (a = .eth e.val f.src))
  else ethMatch t e.val f

theorem ethStreamRx_of_on {e : EthId} {s : State} (hon : ethOn s e.val = true) (hpll : (getEth s e.val).pll = true)
    (hready : isReady s = true) (hport : s.rst.portRst.getLsbD (24 + e.val) = false) (f : EthFrame) :
    execEthStreamRx e f s = .next (ethWork s (ethHeard s e.val f.src) e f) := by
  unfold execEthStreamRx ethWork
  dsimp only
  rw [if_neg (by simp [hon, hpll, portFree_of_ready hready hport])]
  simp only [apply_ite Host.Outcome.next]
  rfl

/-- No work of a frame takes a link down. -/
def KeepsUp (e : Nat) (s t : State) : Prop := (getEth t e).up = (getEth s e).up

theorem KeepsUp.of_eths {s t : State} (h : t.eths = s.eths) (e : Nat) : KeepsUp e s t := congrArg EthPort.up (getEth_congr h e)

theorem KeepsUp.trans {e : Nat} {s t u : State} (h : KeepsUp e s t) (g : KeepsUp e t u) : KeepsUp e s u := Eq.trans g h

theorem frameRecord_eths (s : State) (i v st n tick : Nat) (ws : List Word) : (frameRecord s i v st n tick ws).1.eths = s.eths :=
  same_of_law .eths (frameRecord_touch i v st n tick ws) rfl

/-- A frame's stream notes the SEQ it expects next. -/
def expectNext (s : State) (e i : Nat) (f : EthFrame) : State :=
  setEth s e { getEth s e with expect := tblSet none (getEth s e).expect i (some (BitVec.ofNat 16 (fld f.header0 15 0) + 1)) }

theorem expectNext_partners (s : State) (e i : Nat) (f : EthFrame) : (expectNext s e i f).partners = s.partners := rfl

theorem expect_expectNext (s : State) (e i : Nat) (f : EthFrame) :
    tblGet none (getEth (expectNext s e i f) e).expect i = some (BitVec.ofNat 16 (fld f.header0 15 0) + 1) := by
  rw [expectNext, getEth_setEth_same]
  exact tblGet_set_same none (getEth s e).expect i (some (BitVec.ofNat 16 (fld f.header0 15 0) + 1))

/-- An accepted frame brings its words. -/
def ethBrings (s : State) (i : Nat) (f : EthFrame) : State :=
  let seq := BitVec.ofNat 16 (fld f.header0 15 0)
  let stat := fld f.header0 23 20
  if EthFrame.ftype f = 2 then
    streamSet (frameRecord s i vAccepted stat seq.toNat (lc s) f.payload).1 i (frameRecord s i vAccepted stat seq.toNat (lc s) f.payload).2 0
      f.payload false
  else if stat = 6 then (frameRecord s i vNotValid stat seq.toNat (lc s) f.payload).1
  else acceptFrame s i stat ⟨lc s, some seq, 1, f.payload⟩

theorem ethBrings_keeps (s : State) (i : Nat) (f : EthFrame) :
    (ethBrings s i f).eths = s.eths ∧ (ethBrings s i f).partners = s.partners := by
  have hrec := fun v n => Touch.of_law (frameRecord_touch (s := s) i v (fld f.header0 23 20) n (lc s) f.payload)
  have hset := fun (t : State) w => Touch.of_law (streamSet_touch (s := t) i w 0 f.payload false)
  have hacc := fun g => Touch.of_law (acceptFrame_touch (s := s) i (fld f.header0 23 20) g)
  refine iteInduction (motive := fun t : State => t.eths = s.eths ∧ t.partners = s.partners) (fun _ => ?_) (fun _ =>
    iteInduction (motive := fun t : State => t.eths = s.eths ∧ t.partners = s.partners) (fun _ => ?_) (fun _ => ?_))
  · exact ⟨((hset _ _).keeps .eths rfl).trans ((hrec _ _).keeps .eths rfl),
      ((hset _ _).keeps .partners rfl).trans ((hrec _ _).keeps .partners rfl)⟩
  · exact ⟨(hrec _ _).keeps .eths rfl, (hrec _ _).keeps .partners rfl⟩
  · exact ⟨(hacc _).keeps .eths rfl, (hacc _).keeps .partners rfl⟩

theorem ethTake_eq (s : State) (e i : Nat) (f : EthFrame) : ethTake s e i f =
    if ethSeqLate (getEth s e) i (BitVec.ofNat 16 (fld f.header0 15 0)) then
      (frameRecord s i vLate (fld f.header0 23 20) (BitVec.ofNat 16 (fld f.header0 15 0)).toNat (lc s) f.payload).1
    else ethBrings (expectNext s e i f) i f := rfl

theorem keepsUp_ethTake (s : State) (e i : Nat) (f : EthFrame) : KeepsUp e s (ethTake s e i f) := by
  rw [ethTake_eq]
  refine iteInduction (motive := KeepsUp e s) (fun _ => .of_eths (frameRecord_eths _ _ _ _ _ _ _) e) (fun _ => ?_)
  have hexp : KeepsUp e s (expectNext s e i f) := (congrArg EthPort.up (getEth_setEth_same s e _)).trans rfl
  exact hexp.trans (.of_eths (ethBrings_keeps _ i f).1 e)

theorem keepsUp_ethMatch (s : State) (e : Nat) (f : EthFrame) : KeepsUp e s (ethMatch s e f) := by
  have hbump := fun (t : State) o => (.of_eths rfl e : KeepsUp e t (bump t o))
  have hrec := fun i v st n tick ws => KeepsUp.of_eths (frameRecord_eths s i v st n tick ws) e
  unfold ethMatch
  split
  · exact hbump s _
  dsimp only
  split
  · exact iteInduction (motive := KeepsUp e s) (fun _ => keepsUp_ethTake s e _ f) (fun _ => (hrec _ _ _ _ _ _).trans (hbump _ _))
  · exact (hrec _ _ _ _ _ _).trans (hbump _ _)
  · exact hbump s _

theorem keepsUp_ethWork (s t : State) (e : EthId) (f : EthFrame) : KeepsUp e.val t (ethWork s t e f) := by
  refine iteInduction (motive := KeepsUp e.val t) (fun _ => rfl) (fun _ => iteInduction (motive := KeepsUp e.val t) (fun _ => ?_)
    (fun _ => iteInduction (motive := KeepsUp e.val t) (fun _ => ?_) (fun _ => keepsUp_ethMatch t e.val f)))
  · exact .of_eths (same_of_law .eths (identify_touch _ _) rfl) e.val
  · exact .of_eths (same_of_law .eths (attachmentGone_touch _) rfl) e.val

/-- A DATA frame of an ACTIVE partner on the one stream of its port and tag, not late. -/
structure DataFrameOf (s : State) (e : EthId) (f : EthFrame) (m i : Nat) : Prop where
  etype : fld (regGet s (ethOff e.val 0)) 31 16 = f.etype.toNat
  header : ethHeaderOk f = true
  data : EthFrame.ftype f = 1
  entry : macEntry s e.val f.src = some m
  active : (getPartner s m).st = .active
  stream : tagStreams s e.val (fld f.header1 31 16) = [i]
  pid : pidMatches s i (some (getPartner s m)) = true
  seq : ethSeqLate (getEth s e.val) i (BitVec.ofNat 16 (fld f.header0 15 0)) = false

theorem ethWork_of_data {s : State} {e : EthId} {f : EthFrame} {m i : Nat} (h : DataFrameOf s e f m i) :
    ethWork s (ethHeard s e.val f.src) e f = ethBrings (expectNext (ethHeard s e.val f.src) e.val i f) i f := by
  have hsame := samePartners_ethHeard s e.val f.src
  have hregs := ethHeard_regs s e.val f.src
  have heth := getEth_ethHeard s e.val f.src
  generalize ethHeard s e.val f.src = t at hsame hregs heth ⊢
  have hstreams : tagStreams t e.val (fld f.header1 31 16) = [i] := by
    rw [← h.stream]
    unfold tagStreams strmOn strmIsOut strmEthPort strmTag strmBind
    simp only [regGet_congr hregs]
  have hpid : pidMatches t i (some (getPartner t m)) = true := by
    rw [← h.pid]
    unfold pidMatches strmPid regGet64
    simp only [regGet_congr hregs, hsame.pid]
  have hmatch : ethMatch t e.val f = ethTake t e.val i f := by
    unfold ethMatch
    rw [hsame.macEntry, h.entry]
    dsimp only
    have hfind : [i].find? (fun k => pidMatches t k (some (getPartner t m))) = some i := by simp [hpid]
    rw [hstreams, hfind]
    exact if_pos ((hsame.st m).trans h.active)
  unfold ethWork
  rw [if_neg (by simp [h.etype, h.header]), if_neg (by simp [h.data]), if_neg (by simp [h.data]), hmatch, ethTake_eq, if_neg]
  rw [heth]
  exact fun hlate => absurd (h.seq.symm.trans hlate) (by decide)

-- the partner table (R397)

theorem regGet_putPartner_gen {s : State} {n : Nat} {x : Partner} (h : (getPartner s n).st ≠ x.st) :
    regGet (putPartner s n x) (fioOff 0) = regGet s (fioOff 0) + 1 := by
  have hrec := fun (t : State) a b d e => (same_of_law .regs (bltRecord_touch a b d e) rfl : (bltRecord t a b d e).regs = t.regs)
  unfold putPartner
  dsimp only
  rw [if_neg h, regGet_congr (hrec _ _ _ _ _), regGet_regSet, if_pos rfl]
  rfl

theorem putPartner_spec {s : State} {n : Nat} {x : Partner} (h : (getPartner s n).st ≠ x.st) :
    getPartner (putPartner s n x) n = x ∧ regGet (putPartner s n x) (fioOff 0) = regGet s (fioOff 0) + 1 :=
  ⟨by rw [getPartner_putPartner, if_pos rfl], regGet_putPartner_gen h⟩

theorem partnerGone_of_here {s : State} {n : Nat} (hst : (getPartner s n).st = .joining ∨ (getPartner s n).st = .active) :
    partnerGone s n = putPartner s n { getPartner s n with st := .gone, leave := lc s } := if_pos hst

theorem partnerSilence_of_silent {n : PartnerId} {s : State} {a : Nat} {m : BitVec 48} (hatt : (getPartner s n.val).att = .eth a m)
    (hst : (getPartner s n.val).st = .joining ∨ (getPartner s n.val).st = .active)
    (hsilent : (getPartner s n.val).seen + 400000 * fld (regGet s (fioOff 0x30)) 13 0 ≤ s.lt) :
    execPartnerSilence n s = .next (putPartner s n.val { getPartner s n.val with st := .gone, leave := lc s }) := by
  unfold execPartnerSilence
  dsimp only
  split
  next => rw [if_pos hsilent, partnerGone_of_here hst]
  next q hq => cases hatt.symm.trans hq

theorem approve_of_joining {s : State} {n : Nat} (h : (getPartner s n).st = .joining) :
    approve s n = putPartner s n { getPartner s n with st := .active } := if_pos h

theorem reject_of_joining {s : State} {n : Nat} (h : (getPartner s n).st = .joining) :
    reject s n = putPartner s n { getPartner s n with st := .gone, leave := lc s } := if_pos h

theorem ethernetFramesAndPartners : EthernetFramesAndPartners := by
  intro e f n s
  refine ⟨fun hon hpll hready hport => ?frame, fun a m hatt hst hsilent => ?silent, fun hphase hst => ?judged⟩
  case frame =>
    have hrun := ethStreamRx_of_on hon hpll hready hport f
    refine ⟨⟨_, hrun, Eq.trans (keepsUp_ethWork s _ e f) ?_⟩, fun m i h1 h2 h3 h4 h5 h6 h7 h8 => ?_⟩
    · exact congrArg EthPort.up (getEth_ethHeard s e.val f.src)
    · have hdata : DataFrameOf s e f m i := ⟨h1, h2, h3, h4, h5, h6, h7, h8⟩
      obtain ⟨heths, hpartners⟩ := ethBrings_keeps (expectNext (ethHeard s e.val f.src) e.val i f) i f
      obtain ⟨hm, honMac⟩ := onMac_of_macEntry h4
      refine ⟨_, hrun.trans (congrArg Host.Outcome.next (ethWork_of_data hdata)), ?_, ?_⟩
      · rw [getPartner_congr (hpartners.trans (expectNext_partners _ _ _ _)), seen_ethHeard hm honMac]
      · rw [getEth_congr heths, expect_expectNext]
  case silent =>
    exact ⟨_, partnerSilence_of_silent hatt hst hsilent, putPartner_spec (by obtain h | h := hst <;> simp [h])⟩
  case judged =>
    have happrove : execApprove n s = .next (approve s n.val) := hostWrite_of_phase_ne_bootFail _ hphase
    have hreject : execReject n s = .next (reject s n.val) := hostWrite_of_phase_ne_bootFail _ hphase
    rw [approve_of_joining hst] at happrove
    rw [reject_of_joining hst] at hreject
    exact ⟨⟨_, happrove, putPartner_spec (by simp [hst])⟩, ⟨_, hreject, putPartner_spec (by simp [hst])⟩⟩

/-- Settles O47, by an accepted frame's way to the engines and by what an Ethernet frame and a change of state note. -/
theorem otherPortsAndPartners : Obligations.OtherPortsAndPartners := ⟨directPortFrames, ethernetFramesAndPartners⟩

end Sys2Proof.Machine
end

section
/-! SUPPORT. The time unit (R405, R416 to R422): events leave it alone, and what a change of servo state sets. -/

namespace Sys2Proof.Machine

-- what events and changes of servo state leave

theorem tuEvent_tu (s : State) (code : Nat) (a b : Word) (d : Word64) : (tuEvent s code a b d).tu = s.tu :=
  same_of_law .tu (tuEvent_touch code a b d) rfl

theorem sameRegs_bltRecord (s : State) (kind src tick : Nat) (payload : List Word) : SameRegs s (bltRecord s kind src tick payload) :=
  .of_eq (same_of_law .regs (bltRecord_touch kind src tick payload) rfl)

theorem sameRegs_tuEvent (s : State) (code : Nat) (a b : Word) (d : Word64) : SameRegs s (tuEvent s code a b d) := by
  have hrecord (sl : List Word) := (sameRegs_raiseEvent s 0x05 none 0 (put s.tu.st.code 8 ||| BitVec.ofNat 32 code) a b d).trans
    (sameRegs_bltRecord _ kTime 0 (lc (raiseEvent s 0x05 none 0 (put s.tu.st.code 8 ||| BitVec.ofNat 32 code) a b d)) sl)
  unfold tuEvent
  exact iteInduction (fun _ => (hrecord _).trans (sameRegs_bltTrigger _ 3)) (fun _ => hrecord _)

/-- A register of the time unit, which no event touches. -/
theorem SameRegs.tu {s t : State} (h : SameRegs s t) (k : Nat) : regGet t (tuOff k) = regGet s (tuOff k) :=
  h _ (.inr (by unfold tuOff; omega))

theorem SameRegs.tuSrc {s t : State} (h : SameRegs s t) : tuSrc t = tuSrc s := by
  unfold Sys2Proof.Machine.tuSrc
  rw [h.tu]

theorem SameRegs.jumpFails {s t : State} (h : SameRegs s t) (e : Int) : jumpFails t e = jumpFails s e := by
  unfold Sys2Proof.Machine.jumpFails syncP
  rw [h.tuSrc, h.tu, h.tu]

theorem SameRegs.asymFails {s t : State} (h : SameRegs s t) (m : Int × Nat) (pd : Int) : asymFails t m pd = asymFails s m pd := by
  unfold Sys2Proof.Machine.asymFails
  rw [h.tu]

theorem sameRegs_modTu (s : State) (f : TimeUnit → TimeUnit) : SameRegs s (modTu s f) := .of_eq rfl

/-- The increment with which a servo state begins (R420). -/
def servoIncr (s : State) (st : ServoState) : BitVec 40 :=
  match st with
  | .freerun => incrNom s
  | .holdover | .stepPending => holdIncr s.tu
  | _ => s.tu.incr

theorem setServo_tu (s : State) (st : ServoState) (cause : Nat) : (setServo s st cause).tu
    = { s.tu with st := st, cause := if st = .holdover then cause else 0, lockRun := 0, incr := servoIncr s st } := by
  refine iteInduction (motive := fun t : State => t.tu = _) (fun _ => ?_) (fun _ => (tuEvent_tu _ _ _ _ _).trans ?_) <;> rfl

theorem sameRegs_setServo (s : State) (st : ServoState) (cause : Nat) : SameRegs s (setServo s st cause) :=
  iteInduction (fun _ => sameRegs_modTu s _) (fun _ => (sameRegs_modTu s _).trans (sameRegs_tuEvent _ _ _ _ _))

theorem enterHoldover_tu (s : State) (cause : Nat) : (enterHoldover s cause).tu
    = { s.tu with recover := 0, refused := 0, st := .holdover, cause := cause, lockRun := 0, incr := holdIncr s.tu } :=
  setServo_tu _ .holdover cause

theorem sameRegs_enterHoldover (s : State) (cause : Nat) : SameRegs s (enterHoldover s cause) :=
  (sameRegs_modTu s _).trans (sameRegs_setServo _ _ _)

-- time moves (R405, R421, R422)

theorem execTick_runs {s : State} (hphase : s.rst.phase ≠ .coldReset) (hlost : s.tu.refLost = false) :
    execTick s = .next ((upTo 16).foldl tickPart (replayTick (advanceTime s 1))) :=
  if_neg (by rintro (h | h); exacts [hphase h, Bool.false_ne_true (hlost.symm.trans h)])

theorem ticked_keeps (s : State) :
    ((upTo 16).foldl tickPart (replayTick s)).lt = s.lt ∧ ((upTo 16).foldl tickPart (replayTick s)).tu = s.tu := by
  have htouch : Touch [.parts, .blt] s ((upTo 16).foldl tickPart (replayTick s)) :=
    Touch.fold _ (replayTick_touch (by decide) (Touch.refl _ s)) fun t p h => tickPart_touch p (by decide) h
  exact ⟨htouch.same .lt (by decide), htouch.same .tu (by decide)⟩

theorem execSyncOutPulse_due {s : State} (hon : wbit (regGet s (tuOff 0x58)) 31 = true) (hmark : s.tu.mark < syncCount s)
    (hnow : reachedNow s (syncCount s) = true) :
    execSyncOutPulse s = .next (modTu s fun v => { v with syncOut := true, syncLeft := fld (regGet s (tuOff 0x58)) 7 0 }) :=
  if_pos (by rw [hon, hnow, decide_eq_true hmark]; rfl)

-- REFCLK (R421, R447)

/-- The state in which a Warm source asserted in READY resets its reach: a servo that follows PTP has held over (R419). -/
def warmLevel (s : State) (bit : Nat) : State :=
  let lvl := { s with rst := { s.rst with warm := s.rst.warm ||| BitVec.ofNat 4 (2 ^ (bit - 8)) } }
  if tuSrc s = 1 ∧ s.tu.st ≠ .stepPending then enterHoldover lvl 3 else lvl

theorem warmLevel_rst (s : State) (bit : Nat) :
    (warmLevel s bit).rst = { s.rst with warm := s.rst.warm ||| BitVec.ofNat 4 (2 ^ (bit - 8)) } :=
  iteInduction (motive := fun t : State => t.rst = _) (fun _ => same_of_law .rst (enterHoldover_touch 3) rfl) (fun _ => rfl)

theorem warmLevel_tu {s : State} {bit : Nat} (h : tuSrc s ≠ 1) : (warmLevel s bit).tu = s.tu :=
  iteInduction (motive := fun t : State => t.tu = s.tu) (fun hc => (h hc.1).elim) (fun _ => rfl)

/-- The reset unit once a Warm source asserted in READY has its reach in reset. -/
def warmRst (r : ResetUnit) (bit : Nat) : ResetUnit :=
  { r with hold := none, partRst := 0, portRst := 0, paused := false, phase := .warmReset, cause := bit, warmCount := r.warmCount + 1 }

theorem assertWarm_of_ready {s : State} {bit : Nat} (h : s.rst.phase = .ready) :
    assertWarm s bit = { warmState (warmLevel s bit) with rst := warmRst (warmLevel s bit).rst bit } := by
  unfold assertWarm warmLevel
  simp only [h]
  rfl

theorem warmReset_of_ready {s : State} (bit : Nat) (h : s.rst.phase = .ready) : warmReset s bit = noteWarm (assertWarm s bit) := by
  refine if_pos ⟨?_, h⟩
  rw [assertWarm_of_ready h]
  rfl

theorem warmReset_rst {s : State} (bit : Nat) (h : s.rst.phase = .ready) : (warmReset s bit).rst
    = warmRst { s.rst with warm := s.rst.warm ||| BitVec.ofNat 4 (2 ^ (bit - 8)) } bit := by
  rw [warmReset_of_ready bit h, ← warmLevel_rst, show (noteWarm (assertWarm s bit)).rst = (assertWarm s bit).rst from rfl,
    assertWarm_of_ready h]

theorem warmReset_tu {s : State} (bit : Nat) (h : s.rst.phase = .ready) (hsrc : tuSrc s ≠ 1) : (warmReset s bit).tu = s.tu := by
  rw [warmReset_of_ready bit h, show (noteWarm (assertWarm s bit)).tu = (assertWarm s bit).tu from rfl, assertWarm_of_ready h]
  exact warmLevel_tu hsrc

/-- The time unit as REFCLK is lost, but for its servo. -/
def lostRef (s : State) : State := modTu s fun u => { u with refLost := true }

/-- What the servo does as REFCLK is lost outside Cold reset. -/
def lossServo (s : State) : State := if tuSrc s = 0 then lostRef s else enterHoldover (lostRef s) 4

/-- The servo and its event as REFCLK is lost in READY. -/
def lossNoted (s : State) : State := tuEvent (lossServo s) 0x08 0 0 0

theorem execRefclkLoss_ready {s : State} (hlost : s.tu.refLost = false) (hready : s.rst.phase = .ready) :
    execRefclkLoss s = .next (warmReset (lossNoted s) bClockLoss) := by
  have hphase : ¬ (lostRef s).rst.phase = .coldReset := fun h => by cases hready.symm.trans h
  have hstep : execRefclkLoss s = .next (warmReset (if (lostRef s).rst.phase = .coldReset
      then (if (lostRef s).rst.phase = .coldReset ∨ tuSrc (lostRef s) = 0 then lostRef s else enterHoldover (lostRef s) 4)
      else tuEvent (if (lostRef s).rst.phase = .coldReset ∨ tuSrc (lostRef s) = 0 then lostRef s else enterHoldover (lostRef s) 4)
        0x08 0 0 0) bClockLoss) := if_neg (by rw [hlost]; exact Bool.false_ne_true)
  rw [hstep, if_neg hphase]
  simp only [hphase, false_or]
  rfl

theorem lossServo_rst (s : State) : (lossServo s).rst = s.rst :=
  iteInduction (motive := fun t : State => t.rst = s.rst) (fun _ => rfl)
    (fun _ => (same_of_law .rst (enterHoldover_touch (s := lostRef s) 4) rfl : (enterHoldover (lostRef s) 4).rst = (lostRef s).rst))

theorem lossNoted_rst (s : State) : (lossNoted s).rst = s.rst :=
  (same_of_law .rst (tuEvent_touch (s := lossServo s) _ _ _ _) rfl : (lossNoted s).rst = (lossServo s).rst).trans (lossServo_rst s)

theorem lossNoted_tu (s : State) : (lossNoted s).tu = if tuSrc s = 0 then (lostRef s).tu else (enterHoldover (lostRef s) 4).tu :=
  (tuEvent_tu (lossServo s) _ _ _ _).trans (apply_ite State.tu _ _ _)

theorem lossNoted_src (s : State) : tuSrc (lossNoted s) = tuSrc s :=
  SameRegs.tuSrc (.trans (iteInduction (motive := SameRegs s) (fun _ => sameRegs_modTu s _)
    (fun _ => (sameRegs_modTu s _).trans (sameRegs_enterHoldover _ _))) (sameRegs_tuEvent (lossServo s) _ _ _ _))

theorem lossNoted_refLost (s : State) : (lossNoted s).tu.refLost = true := by
  rw [lossNoted_tu, enterHoldover_tu]
  exact iteInduction (motive := fun u : TimeUnit => u.refLost = true) (fun _ => rfl) (fun _ => rfl)

theorem warmReset_refLost {s : State} (bit : Nat) (h : s.rst.phase = .ready) : (warmReset s bit).tu.refLost = s.tu.refLost := by
  rw [warmReset_of_ready bit h, show (noteWarm (assertWarm s bit)).tu = (assertWarm s bit).tu from rfl, assertWarm_of_ready h]
  exact iteInduction (motive := fun t : State => t.tu.refLost = s.tu.refLost)
    (fun _ => (congrArg TimeUnit.refLost (enterHoldover_tu _ 3)).trans rfl) (fun _ => rfl)

/-- The state with REFCLK back and CLOCK_LOSS ended. -/
def refBack (s : State) : State :=
  { modTu s (fun u => { u with refLost := false }) with rst := { s.rst with warm := s.rst.warm &&& 0x7 } }

theorem execRefclkReturn_eq (s : State) : execRefclkReturn s
    = .next (if s.tu.refLost = false ∨ s.rst.phase = .coldReset then refBack s else tuEvent (refBack s) 0x08 1 0 0) := rfl

theorem refclkReturn_keeps (s : State) :
    ∃ t, execRefclkReturn s = .next t ∧ t.tu = { s.tu with refLost := false } ∧ t.rst = { s.rst with warm := s.rst.warm &&& 0x7 } := by
  refine ⟨_, execRefclkReturn_eq s, ?_⟩
  refine iteInduction (motive := fun t : State => t.tu = { s.tu with refLost := false } ∧ t.rst = { s.rst with warm := s.rst.warm &&& 0x7 })
    (fun _ => ⟨rfl, rfl⟩) (fun _ => ⟨tuEvent_tu _ _ _ _ _, ?_⟩)
  exact same_of_law .rst (tuEvent_touch (s := refBack s) _ _ _ _) rfl

/-- REFCLK lost in READY: CLOCK_LOSS holds the device in Warm reset, and a servo on SYNC_IN has held over. -/
theorem refclkLoss_spec {s : State} (hlost : s.tu.refLost = false) (hready : s.rst.phase = .ready) :
    ∃ t, execRefclkLoss s = .next t ∧ t.tu.refLost = true ∧ t.rst.phase = .warmReset ∧ t.rst.warm.getLsbD 3 = true
      ∧ t.rst.cause = 11 ∧ (regGet s (tuOff 0x40) = 0 → t.tu = { s.tu with refLost := true })
      ∧ (fld (regGet s (tuOff 0x40)) 1 0 = 2 → t.tu.st = .holdover ∧ t.tu.cause = 4) := by
  have hphase : (lossNoted s).rst.phase = .ready := by rw [lossNoted_rst, hready]
  have hrst := warmReset_rst bClockLoss hphase
  have htu (h : tuSrc s ≠ 1) := warmReset_tu bClockLoss hphase (by rw [lossNoted_src]; exact h)
  refine ⟨_, execRefclkLoss_ready hlost hready, ?_, congrArg ResetUnit.phase hrst, ?_, congrArg ResetUnit.cause hrst, ?_, ?_⟩
  · rw [warmReset_refLost _ hphase, lossNoted_refLost]
  · rw [hrst]
    simp [warmRst, bClockLoss]
  · intro hsrc
    have hzero : tuSrc s = 0 := by rw [tuSrc, hsrc]; rfl
    rw [htu (by omega), lossNoted_tu, if_pos hzero]
    rfl
  · intro hsrc
    have htwo : tuSrc s = 2 := hsrc
    rw [htu (by omega), lossNoted_tu, if_neg (by omega), enterHoldover_tu]
    exact ⟨rfl, rfl⟩

/-- Settles O48: a tick and an oscillator cycle add the increment to T, and what else a tick does leaves the time unit alone; a loss of
REFCLK changes the servo, then the Warm reset keeps the time unit. -/
theorem timeMoves : Obligations.TimeMoves := by
  intro s
  refine ⟨fun hphase hlost => ?_, fun hphase hlost => ⟨_, if_pos ⟨hphase, hlost⟩, rfl, rfl, rfl, rfl, rfl⟩, fun h => if_pos h, ?_,
    refclkLoss_spec, refclkReturn_keeps s⟩
  · have hrun := execTick_runs hphase hlost
    obtain ⟨hlt, htu⟩ := ticked_keeps (advanceTime s 1)
    refine ⟨_, hrun, hlt, ?_, by rw [htu]; rfl, by rw [htu]; rfl, by rw [htu]; rfl⟩
    rw [htu]
    exact congrArg (fun n => s.tu.t + BitVec.ofNat 96 n) (Nat.one_mul _)
  · intro w x hon hmark hnow
    exact execSyncOutPulse_due hon hmark (decide_eq_true hnow)

end Sys2Proof.Machine
end

section
/-! SUPPORT. The servo's rule (R416, R418): what an accepted and a refused offset do to it, and how near a SYNC_IN edge's pulse instant
lies (R414). -/

namespace Sys2Proof.Machine

/-- The jump count and offset of a measurement noted. -/
def noteMeasure (s : State) (n : Nat) (e : Int) : State := modTu s fun v => { v with refused := n, lastE := e }

/-- The JUMP_N-th refusal in a row proposes a step. -/
def proposeStep (s : State) (n : Nat) (e : Int) : State :=
  let id := s.tu.stepNext
  let s1 := modTu s fun v => { v with proposal := roundPow (-e) 16, stepId := id, stepNext := if id = 0xFFFF then 1 else id + 1 }
  tuEvent (modTu (setServo s1 .stepPending 0) (fun v => { v with refused := n })) 0x03 (BitVec.ofNat 32 id.toNat) 0
    (BitVec.ofInt 64 (roundPow (-e) 16))

/-- A refused measurement counted and told. -/
def refusedOnce (s : State) (e : Int) : State :=
  tuEvent (noteMeasure s (s.tu.refused + 1) e) 0x02 (BitVec.ofNat 32 (s.tu.refused + 1)) 0 (BitVec.ofInt 64 e)

theorem refuseJump_eq (s : State) (e : Int) : refuseJump s e =
    if s.tu.refused + 1 = fld (regGet (refusedOnce s e) (tuOff 0x4C)) 31 24 then proposeStep (refusedOnce s e) (s.tu.refused + 1) e
    else refusedOnce s e := rfl

theorem refusedOnce_tu (s : State) (e : Int) : (refusedOnce s e).tu = { s.tu with refused := s.tu.refused + 1, lastE := e } :=
  tuEvent_tu (noteMeasure s (s.tu.refused + 1) e) _ _ _ _

theorem sameRegs_refusedOnce (s : State) (e : Int) : SameRegs s (refusedOnce s e) :=
  (sameRegs_modTu s _).trans (sameRegs_tuEvent (noteMeasure s (s.tu.refused + 1) e) _ _ _ _)

theorem proposeStep_tu (s : State) (n : Nat) (e : Int) : (proposeStep s n e).tu
    = { s.tu with
        proposal := roundPow (-e) 16, stepId := s.tu.stepNext
        stepNext := if s.tu.stepNext = 0xFFFF then 1 else s.tu.stepNext + 1
        st := .stepPending, cause := 0, lockRun := 0, incr := holdIncr s.tu, refused := n } :=
  (tuEvent_tu _ _ _ _ _).trans (congrArg (fun u : TimeUnit => { u with refused := n }) (setServo_tu _ _ _))

/-- What a measurement's use leaves of the time unit. -/
def TimeUnit.unsteered (u : TimeUnit) : BitVec 96 × Option (Int × Nat) × Option Int := (u.t, u.pdMean, u.lastEdge)

theorem refuseJump_spec (s : State) (e : Int) :
    (refuseJump s e).tu.unsteered = s.tu.unsteered ∧ (refuseJump s e).tu.integ = s.tu.integ
      ∧ (refuseJump s e).tu.refused = s.tu.refused + 1
      ∧ (s.tu.refused + 1 ≠ fld (regGet s (tuOff 0x4C)) 31 24 →
          (refuseJump s e).tu.st = s.tu.st ∧ (refuseJump s e).tu.incr = s.tu.incr)
      ∧ (s.tu.refused + 1 = fld (regGet s (tuOff 0x4C)) 31 24 →
          (refuseJump s e).tu.st = .stepPending ∧ (refuseJump s e).tu.proposal = roundPow (-e) 16
            ∧ (refuseJump s e).tu.stepId = s.tu.stepNext ∧ (refuseJump s e).tu.incr = holdIncr s.tu) := by
  have honce := refusedOnce_tu s e
  rw [refuseJump_eq, (sameRegs_refusedOnce s e).tu]
  by_cases hn : s.tu.refused + 1 = fld (regGet s (tuOff 0x4C)) 31 24
  · rw [if_pos hn, proposeStep_tu, honce]
    exact ⟨rfl, rfl, rfl, fun h => (h hn).elim, fun _ => ⟨rfl, rfl, rfl, rfl⟩⟩
  · rw [if_neg hn, honce]
    exact ⟨rfl, rfl, rfl, fun _ => ⟨rfl, rfl⟩, fun h => (hn h).elim⟩

/-- Lock tracking changes at most the state, between ACQUIRE and LOCKED, its cause and the run. -/
theorem trackLock_tu (s : State) (e : Int) : ∃ st cause n, (trackLock s e).tu = { s.tu with st := st, cause := cause, lockRun := n }
    ∧ (s.tu.st ≠ .stepPending → st ≠ .stepPending) := by
  unfold trackLock
  refine iteInduction (motive := fun t : State => ∃ st cause n, t.tu = { s.tu with st := st, cause := cause, lockRun := n }
    ∧ (s.tu.st ≠ .stepPending → st ≠ .stepPending)) (fun _ => ?_) (fun _ => ⟨s.tu.st, s.tu.cause, _, rfl, id⟩)
  by_cases hst : s.tu.st = .acquire
  · rw [if_pos hst, setServo_tu]
    exact ⟨_, _, _, rfl, fun _ h => by cases h⟩
  · rw [if_neg hst, setServo_tu]
    exact ⟨_, _, _, rfl, fun _ h => by cases h⟩

/-- The servo before an accepted measurement steers it: a pending step is given up. -/
def readyToSteer (s : State) (e : Int) : State :=
  if s.tu.st = .stepPending then setServo (noteMeasure s 0 e) .acquire 0 else noteMeasure s 0 e

/-- I after an accepted measurement (R416). -/
def nextInteg (s : State) (e : Int) : Int :=
  clampI (s.tu.integ - roundPow ((regGet s (tuOff 0x48)).toNat * e) 32) (-tuFadj) tuFadj

/-- INCR after an accepted measurement, of the I it leaves (R416). -/
def nextIncr (s : State) (i e : Int) : Int :=
  clampI (tuNom + (i - roundPow ((regGet s (tuOff 0x44)).toNat * e) 32)) (tuNom - tuFadj) (tuNom + tuFadj)

/-- I and INCR moved. -/
def steered (s : State) (e : Int) : State :=
  modTu s fun v => { v with integ := nextInteg s e, incr := BitVec.ofInt 40 (nextIncr s (nextInteg s e) e) }

/-- I and INCR moved, and the limit told. -/
def steeredTold (s : State) (e : Int) : State :=
  let adj := nextInteg s e - roundPow ((regGet s (tuOff 0x44)).toNat * e) 32
  if nextIncr s (nextInteg s e) e = tuNom + adj then steered s e else tuEvent (steered s e) 0x06 0 0 (BitVec.ofInt 64 adj)

theorem servoStep_eq (s : State) (e : Int) : servoStep s e = trackLock (steeredTold (readyToSteer s e) e) e := rfl

theorem steeredTold_tu (s : State) (e : Int) : (steeredTold s e).tu = (steered s e).tu :=
  iteInduction (motive := fun t : State => t.tu = (steered s e).tu) (fun _ => rfl) (fun _ => tuEvent_tu _ _ _ _ _)

theorem readyToSteer_tu (s : State) (e : Int) : ∃ st cause n, (readyToSteer s e).tu
    = { s.tu with refused := 0, lastE := e, st := st, cause := cause, lockRun := n } ∧ st ≠ .stepPending := by
  by_cases hst : s.tu.st = .stepPending
  · rw [readyToSteer, if_pos hst, setServo_tu]
    exact ⟨_, _, _, rfl, fun h => by cases h⟩
  · rw [readyToSteer, if_neg hst]
    exact ⟨s.tu.st, s.tu.cause, s.tu.lockRun, rfl, hst⟩

theorem sameRegs_readyToSteer (s : State) (e : Int) : SameRegs s (readyToSteer s e) :=
  iteInduction (fun _ => (sameRegs_modTu s _).trans (sameRegs_setServo (noteMeasure s 0 e) _ _)) (fun _ => sameRegs_modTu s _)

theorem servoStep_spec (s : State) (e : Int) :
    (servoStep s e).tu.unsteered = s.tu.unsteered ∧ (servoStep s e).tu.integ = nextInteg s e
      ∧ (servoStep s e).tu.incr = BitVec.ofInt 40 (nextIncr s (nextInteg s e) e) ∧ (servoStep s e).tu.refused = 0
      ∧ (servoStep s e).tu.st ≠ .stepPending := by
  obtain ⟨st, cause, n, htu, hst⟩ := readyToSteer_tu s e
  obtain ⟨st', cause', n', hlock, hst'⟩ := trackLock_tu (steeredTold (readyToSteer s e) e) e
  have hregs := sameRegs_readyToSteer s e
  have hinteg : nextInteg (readyToSteer s e) e = nextInteg s e := by
    unfold nextInteg
    rw [hregs.tu, htu]
  have hincr (i : Int) : nextIncr (readyToSteer s e) i e = nextIncr s i e := by
    unfold nextIncr
    rw [hregs.tu]
  rw [steeredTold_tu, steered, modTu, hinteg, hincr, htu] at hlock hst'
  rw [servoStep_eq, hlock]
  exact ⟨rfl, rfl, rfl, rfl, hst' hst⟩

/-- With a tracking servo a measurement is refused or steers. -/
theorem measureOffset_tracking {s : State} (h : tracking s) (e : Int) :
    measureOffset s e = if jumpFails s e then refuseJump s e else servoStep s e := by
  have hhold : s.tu.st ≠ .holdover := by rintro hst; rcases h with h | h | h <;> cases hst.symm.trans h
  have hfree : s.tu.st ≠ .freerun := by rintro hst; rcases h with h | h | h <;> cases hst.symm.trans h
  exact (if_neg hhold).trans (if_neg hfree)

/-- The part of the servo's state the rule of R416 reads. -/
def TimeUnit.ruled (u : TimeUnit) : ServoState × BitVec 40 × Int × Nat × BitVec 16 := (u.st, u.incr, u.integ, u.refused, u.stepNext)

/-- A measurement of a tracking servo follows R416's rule, read in any state with its registers and servo. -/
theorem measureOffset_rule {r s : State} (h : tracking r) (hregs : SameRegs r s) (htu : s.tu.ruled = r.tu.ruled) (e : Int) :
    servoRule r (measureOffset s e) e ∧ (measureOffset s e).tu.unsteered = s.tu.unsteered := by
  simp only [TimeUnit.ruled, Prod.mk.injEq] at htu
  obtain ⟨hst, hincr, hinteg, hrefused, hnext⟩ := htu
  rw [measureOffset_tracking (s := s) (by unfold tracking; rwa [hst]), hregs.jumpFails]
  by_cases hjump : jumpFails r e = true
  · obtain ⟨hkeep, hinteg', hrefused', hfew, hmany⟩ := refuseJump_spec s e
    rw [if_pos hjump]
    rw [hinteg] at hinteg'
    rw [hrefused] at hrefused' hfew hmany
    rw [hregs.tu, hst, hincr] at hfew
    rw [hregs.tu, hnext, holdIncr, hinteg] at hmany
    refine ⟨⟨fun hno => ?_, fun _ => ⟨hinteg', hrefused', hfew, hmany⟩⟩, hkeep⟩
    rw [hjump] at hno
    cases hno
  · obtain ⟨hkeep, hinteg', hincr', hrefused', hst'⟩ := servoStep_spec s e
    rw [if_neg hjump]
    refine ⟨⟨fun _ => ⟨?_, ?_, hrefused', hst'⟩, fun hyes => ?_⟩, hkeep⟩
    · rw [hinteg', nextInteg, hregs.tu, hinteg]
      rfl
    · rw [hincr', hinteg', nextIncr, hregs.tu, Int.add_sub_assoc]
      rfl
    · exact (hjump hyes).elim

-- PTP (R415 to R418)

/-- The port that measured is the slave. -/
def ptpNoted (s : State) (port : Nat) : State :=
  modTu (setEth s port { getEth s port with up := true, slave := true }) fun v => { v with port := port }

theorem execPtpMeasurement_used {s : State} {p : EthId} {y : PtpSync} {d : PtpDelay} (hready : isReady s = true) (hsrc : tuSrc s = 1)
    (hport : ptpPortOn s p.val = true) (hbegan : s.tu.stepTick ≤ min y.began d.began) :
    execPtpMeasurement p y d s = .next (measurePtp (ptpNoted s p.val) p.val (ptpOffset s p.val y d) (ptpPd s p.val y d)) := by
  refine if_neg ?_
  rw [hready, hport, hsrc, decide_eq_false (Nat.not_lt.2 hbegan)]
  decide

/-- A path delay taken into the mean. -/
def meanTaken (s : State) (m : Int × Nat) (pd : Int) : State := modTu s fun v => { v with pdMean := some m, lastPd := pd }

theorem measurePtp_first {s : State} {port : Nat} {e pd : Int} (h : s.tu.pdMean = none) :
    measurePtp s port e pd = measureOffset (meanTaken s (pd, 0) pd) e := by
  unfold measurePtp
  simp only [h]
  rfl

/-- A path delay past ASYM_NS noted. -/
def asymNoted (s : State) (e pd : Int) : State := enterHoldover (modTu s fun v => { v with lastPd := pd, lastE := e }) 1

theorem measurePtp_later {s : State} {port : Nat} {e pd : Int} {m : Int × Nat} (h : s.tu.pdMean = some m) (htrack : tracking s) :
    measurePtp s port e pd = if asymFails s m pd
      then tuEvent (asymNoted s e pd) 0x05 (BitVec.ofNat 32 port) (BitVec.ofInt 32 pd) (BitVec.ofInt 64 (pdWord m % 2 ^ 32))
      else measureOffset (meanTaken s (pdFilter s m pd) pd) e := by
  unfold measurePtp
  simp only [h]
  refine if_neg fun hc => ?_
  rcases htrack with ht | ht | ht <;> cases hc.1.symm.trans ht

/-- An accepted PTP exchange: its offset steers the servo, unless its path is too far from the mean (R416, R418). -/
theorem ptpMeasurement_spec {s : State} (htrack : tracking s) {p : EthId} {y : PtpSync} {d : PtpDelay} (hready : isReady s = true)
    (hsrc : tuSrc s = 1) (hport : ptpPortOn s p.val = true) (hbegan : s.tu.stepTick ≤ min y.began d.began) {e pd : Int}
    (he : e = ptpOffset s p.val y d) (hpd : pd = ptpPd s p.val y d) :
    ∃ t, execPtpMeasurement p y d s = .next t ∧ t.tu.t = s.tu.t
      ∧ (s.tu.pdMean = none → t.tu.pdMean = some (pd, 0) ∧ servoRule s t e)
      ∧ (∀ m, s.tu.pdMean = some m → asymFails s m pd = true →
          t.tu.st = .holdover ∧ t.tu.cause = 1 ∧ t.tu.pdMean = some m ∧ t.tu.integ = s.tu.integ ∧ t.tu.incr = holdIncr s.tu)
      ∧ (∀ m, s.tu.pdMean = some m → asymFails s m pd = false → t.tu.pdMean = some (pdFilter s m pd) ∧ servoRule s t e) := by
  refine ⟨_, execPtpMeasurement_used hready hsrc hport hbegan, ?_⟩
  rw [← he, ← hpd]
  have hregs : SameRegs s (ptpNoted s p.val) := .of_eq rfl
  have hmean : (ptpNoted s p.val).tu.pdMean = s.tu.pdMean := rfl
  have hnoted (m : Int × Nat) := measureOffset_rule (s := meanTaken (ptpNoted s p.val) m pd) htrack (.of_eq rfl) rfl e
  have hparts (m : Int × Nat) : (measureOffset (meanTaken (ptpNoted s p.val) m pd) e).tu.t = s.tu.t
      ∧ (measureOffset (meanTaken (ptpNoted s p.val) m pd) e).tu.pdMean = some m :=
    ⟨congrArg Prod.fst (hnoted m).2, congrArg (fun x => x.2.1) (hnoted m).2⟩
  rcases hm : s.tu.pdMean with _ | m
  · rw [measurePtp_first (hmean.trans hm)]
    exact ⟨(hparts (pd, 0)).1, fun _ => ⟨(hparts (pd, 0)).2, (hnoted (pd, 0)).1⟩, fun _ h => (by cases h), fun _ h => (by cases h)⟩
  · rw [measurePtp_later (hmean.trans hm) htrack, hregs.asymFails]
    by_cases hasym : asymFails s m pd = true
    · rw [if_pos hasym, tuEvent_tu, asymNoted, enterHoldover_tu]
      refine ⟨rfl, fun h => (by cases h), fun m' h _ => ?_, fun m' h hno => ?_⟩
      · exact ⟨rfl, rfl, hm.trans h, rfl, rfl⟩
      · rw [← Option.some.inj h, hasym] at hno
        cases hno
    · rw [if_neg hasym, show pdFilter (ptpNoted s p.val) m pd = pdFilter s m pd from rfl]
      refine ⟨(hparts _).1, fun h => (by cases h), fun m' h hyes => ?_, fun m' h _ => ?_⟩
      · exact (hasym (by rw [Option.some.inj h]; exact hyes)).elim
      · rw [← Option.some.inj h]
        exact ⟨(hparts _).2, (hnoted _).1⟩

-- SYNC_IN (R414, R423)

/-- Division to the nearest leaves at most half the divisor. -/
theorem nearest_within {d per : Int} (hper : 0 < per) : 2 * absI (d - (2 * d + per) / (2 * per) * per) ≤ per := by
  have hmod := Int.emod_nonneg (2 * d + per) (b := 2 * per) (by omega)
  have hlt := Int.emod_lt_of_pos (2 * d + per) (b := 2 * per) (by omega)
  have hdiv := Int.mul_ediv_add_emod (2 * d + per) (2 * per)
  have hmul : 2 * per * ((2 * d + per) / (2 * per)) = 2 * ((2 * d + per) / (2 * per) * per) := by ring
  rw [hmul] at hdiv
  unfold absI
  split <;> omega

/-- The edge noted. -/
def edgeNoted (s : State) (te : Int) : State := { s with tu := { s.tu with lastEdge := some te } }

/-- The edge came before half a period had passed since the last. -/
def edgeEarly (s : State) (te : Int) : Bool :=
  match s.tu.lastEdge with
  | some t => decide (2 * (te - t) < (2 : Int) ^ syncP s * 163840)
  | none => false

theorem edgeEarly_iff (s : State) (te : Int) :
    edgeEarly s te = true ↔ ∃ last, s.tu.lastEdge = some last ∧ 2 * (te - last) < (2 : Int) ^ syncP s * 163840 := by
  unfold edgeEarly
  cases s.tu.lastEdge <;> simp

/-- The pulse instant nearest to an edge. -/
def nearestPulse (s : State) (te : Int) : Int :=
  (2 * (te - (regGet s (tuOff 0x5C)).toInt * 256) + 2 ^ syncP s * 163840) / (2 * (2 ^ syncP s * 163840))

theorem execSyncInEdge_eq {s : State} (edge : Int) (narrow : Bool) (hsrc : tuSrc s = 2) :
    execSyncInEdge edge narrow s = if narrow || edgeEarly s (edge / 20480 * 20480)
      then .next (bump (edgeNoted s (edge / 20480 * 20480)) (tuOff 0x94))
      else .next (measureOffset (edgeNoted s (edge / 20480 * 20480)) (edge / 20480 * 20480 - (regGet s (tuOff 0x5C)).toInt * 256
        - nearestPulse s (edge / 20480 * 20480) * (2 ^ syncP s * 163840))) :=
  if_neg (not_not_intro hsrc)

/-- Settles O49: a refused and an accepted offset follow R416's rule, a path past ASYM_NS holds over, and division to the nearest bounds an
edge's offset. -/
theorem measurementsSteer : Obligations.MeasurementsSteer := by
  intro s htrack
  refine ⟨fun p y d hbegan => ?_, fun p y d hready hsrc hport hbegan => ?_, fun edge narrow hsrc => ?_⟩
  · exact if_pos (by rw [decide_eq_true hbegan, Bool.or_true])
  · exact ptpMeasurement_spec htrack hready hsrc hport hbegan rfl rfl
  · intro te
    have hstep := execSyncInEdge_eq edge narrow hsrc
    refine ⟨fun hnarrow => ?_, fun last hlast hearly => ?_, fun hwide hlate => ?_⟩
    · exact hstep.trans (if_pos (by rw [hnarrow, Bool.true_or]))
    · exact hstep.trans (if_pos (by rw [(edgeEarly_iff s te).2 ⟨last, hlast, hearly⟩, Bool.or_true]))
    · have hno : edgeEarly s te ≠ true := fun h => by
        obtain ⟨last, hlast, hearly⟩ := (edgeEarly_iff s te).1 h
        exact absurd hearly (not_lt.2 (hlate last hlast))
      obtain ⟨hrule, hkeep⟩ := measureOffset_rule (s := edgeNoted s te) htrack (.of_eq rfl) rfl
        (te - (regGet s (tuOff 0x5C)).toInt * 256 - nearestPulse s te * (2 ^ syncP s * 163840))
      refine ⟨_, nearestPulse s te, _, hstep.trans (if_neg ?_), congrArg Prod.fst hkeep, congrArg (fun x => x.2.2) hkeep, rfl,
        nearest_within (by positivity), hrule⟩
      rw [hwide, Bool.false_or]
      exact hno

end Sys2Proof.Machine
end

section
/-! SUPPORT. Steps of T and the servo's sources (R417 to R419, Table 15.4). -/

namespace Sys2Proof.Machine

theorem hostWrite_running {s : State} (t : State) (h : s.rst.phase ≠ .bootFail) : hostWrite s t = .next t := congrArg _ (if_neg h)

-- TU_STEP_CMD (R417)

/-- The ID a step must name. -/
def stepWanted (s : State) : BitVec 16 := if s.tu.st = .stepPending then s.tu.stepId else 0

/-- An engine moves. -/
def enginesBusy (s : State) : Bool :=
  (upTo 16).any fun n => decide ((getNib s n).st ≠ .config ∧ (getNib s n).st ≠ .armed ∧ (getNib s n).st ≠ .safe)

/-- The nanoseconds written to TU_STEP. -/
def stepBy (s : State) : Int := (regGet64 s (tuOff 0x80)).toInt

theorem enginesBusy_iff (s : State) : enginesBusy s = true
    ↔ ∃ n < 16, (getNib s n).st ≠ .config ∧ (getNib s n).st ≠ .armed ∧ (getNib s n).st ≠ .safe := by
  simp [enginesBusy, upTo]

theorem stepCmd_eq (s : State) (v : Word) : stepCmd s v =
    if BitVec.ofNat 16 (fld v 15 0) ≠ stepWanted s then tuRefuse s 4
    else if wbit v 31 = false ∧ (anyEntryValid s || enginesBusy s) = true then tuRefuse s 5
    else if stepNegative s (stepBy s) then tuRefuse s 6
    else modTu s fun u => { u with accepted := some (stepBy s, BitVec.ofNat 16 (fld v 15 0)) } := rfl

theorem stepWanted_iff (s : State) (v : Word) : BitVec.ofNat 16 (fld v 15 0) ≠ stepWanted s
    ↔ fld v 15 0 ≠ if s.tu.st = .stepPending then s.tu.stepId.toNat else 0 := by
  have hlt : fld v 15 0 < 65536 := fld_lt v 15 0
  have hwant : (stepWanted s).toNat = if s.tu.st = .stepPending then s.tu.stepId.toNat else 0 := apply_ite BitVec.toNat _ _ _
  rw [← hwant, Ne, Ne, not_iff_not, BitVec.toNat_eq, BitVec.toNat_ofNat, Nat.mod_eq_of_lt hlt]

-- STEP_APPLY (R417, Table 15.5)

/-- What a skipped launch leaves of the time unit and its SRC. -/
def KeepsSource (s t : State) : Prop := t.tu = s.tu ∧ regGet t (tuOff 0x40) = regGet s (tuOff 0x40)

theorem KeepsSource.refl (s : State) : KeepsSource s s := ⟨rfl, rfl⟩

theorem KeepsSource.trans {s t u : State} (h : KeepsSource s t) (g : KeepsSource t u) : KeepsSource s u :=
  ⟨g.1.trans h.1, g.2.trans h.2⟩

theorem skipLaunch_keepsSource (s : State) {p : Nat} (hp : p < 16) (j reason : Nat) : KeepsSource s (skipLaunch s p j reason) := by
  obtain ⟨-, -, hregs⟩ := skipLaunch_entry s p j reason
  refine ⟨same_of_law .tu (skipLaunch_touch p j reason) rfl, ?_⟩
  rw [regGet_congr hregs, bump, regGet_regSet, if_neg (by unfold fabOff tuOff; omega)]

theorem skipUntil_keepsSource (n : Nat) {p : Nat} (hp : p < 16) (j l : Nat) :
    ∀ s : State, KeepsSource s (skipUntil n s p j l).1 := by
  induction n with
  | zero => exact .refl
  | succ n ih =>
    intro s
    refine iteInduction (motive := fun r : State × Nat => KeepsSource s r.1) (fun _ => ?_) (fun _ => .refl s)
    exact (skipLaunch_keepsSource s hp j 5).trans (ih _)

theorem skipPassed_keepsSource (s : State) : KeepsSource s (skipPassed s).1 := by
  refine List.foldlRecOn (upTo 16) _ (motive := fun r : State × Nat => KeepsSource s r.1) (.refl s) fun a ha p hp => ?_
  refine iteInduction (motive := fun r : State × Nat => KeepsSource s r.1) (fun _ => ha) (fun _ => ?_)
  refine List.foldlRecOn (upTo 64) _ (motive := fun r : State × Nat => KeepsSource s r.1) ha fun b hb j _ => ?_
  exact hb.trans (skipUntil_keepsSource _ (List.mem_range.1 hp) j _ b.1)

/-- T moved by a step. -/
def moved (s : State) (by' : Int) : State :=
  modTu s fun u => { u with
    t := BitVec.ofInt 96 ((u.t.toNat : Int) + by' * 2 ^ 32), accepted := none, refused := 0, proposal := 0, stepId := 0
    stepTick := s.lt
    mark := if by' < 0 then max u.mark (lc s) else u.mark }

/-- T moved, and the launches it passed skipped. -/
def movedPast (s : State) (by' : Int) : State × Nat := if 0 < by' then skipPassed (moved s by') else (moved s by', 0)

/-- The servo after a step. -/
def stepServo (s : State) : State := if tuSrc s = 0 then s else setServo s .acquire 0

theorem execStepApply_eq {s : State} {by' : Int} {id : BitVec 16} (h : s.tu.accepted = some (by', id)) :
    execStepApply s = .next (tuEvent (stepServo (movedPast s by').1) 0x04 (BitVec.ofNat 32 id.toNat)
      (BitVec.ofNat 32 (movedPast s by').2) (BitVec.ofInt 64 by')) := by
  unfold execStepApply
  simp only [h]
  rfl

theorem movedPast_keepsSource (s : State) (by' : Int) : KeepsSource (moved s by') (movedPast s by').1 :=
  iteInduction (motive := fun r : State × Nat => KeepsSource (moved s by') r.1) (fun _ => skipPassed_keepsSource _) (fun _ => .refl _)

theorem stepServo_tu (s : State) : ∃ st cause n, (stepServo s).tu = { s.tu with st := st, cause := cause, lockRun := n }
    ∧ (tuSrc s ≠ 0 → st = .acquire) := by
  by_cases hsrc : tuSrc s = 0
  · rw [stepServo, if_pos hsrc]
    exact ⟨_, _, _, rfl, fun h => (h hsrc).elim⟩
  · rw [stepServo, if_neg hsrc, setServo_tu]
    exact ⟨_, _, _, rfl, fun _ => rfl⟩

theorem stepApply_spec {s : State} {by' : Int} {id : BitVec 16} (h : s.tu.accepted = some (by', id)) :
    ∃ t, execStepApply s = .next t ∧ t.tu.t = BitVec.ofInt 96 ((s.tu.t.toNat : Int) + by' * 2 ^ 32) ∧ t.tu.accepted = none
      ∧ t.tu.proposal = 0 ∧ t.tu.integ = s.tu.integ ∧ (tuSrc s ≠ 0 → t.tu.st = .acquire) ∧ (by' < 0 → lc s ≤ t.tu.mark) := by
  obtain ⟨htu, hregs⟩ := movedPast_keepsSource s by'
  obtain ⟨st, cause, n, hservo, hst⟩ := stepServo_tu (movedPast s by').1
  have hsrc : tuSrc (movedPast s by').1 = tuSrc s := congrArg (fun w => fld w 1 0) hregs
  refine ⟨_, execStepApply_eq h, ?_⟩
  rw [tuEvent_tu, hservo, htu]
  refine ⟨rfl, rfl, rfl, rfl, fun h0 => hst (by rw [hsrc]; exact h0), fun hneg => ?_⟩
  have hmark : (moved s by').tu.mark = max s.tu.mark (lc s) := if_pos hneg
  exact hmark ▸ Nat.le_max_right _ _

-- ACCEPT (R418)

/-- The last path delay taken as the mean. -/
def pathTaken (s : State) : State := modTu s fun u => { u with pdMean := some (u.lastPd, 0) }

theorem acceptPath_asym {s : State} (hst : s.tu.st = .holdover) (hcause : s.tu.cause = 1) :
    acceptPath s = setServo (pathTaken s) .acquire 0 := if_pos ⟨hst, hcause⟩

-- TU_SRC (Table 15.4)

/-- SRC taken, with no proposal and no edge left. -/
def srcTaken (s : State) (src : Nat) : State :=
  modTu (regSet s (tuOff 0x40) (BitVec.ofNat 32 src)) fun u => { u with refused := 0, proposal := 0, stepId := 0, lastEdge := none }

/-- The servo on its new source. -/
def srcServo (s : State) (src : Nat) : State :=
  if src = 0 then setServo s .freerun 0 else if s.tu.refLost then enterHoldover s 4 else setServo s .acquire 0

theorem srcWrite_eq {s : State} {v : Word} (h : fld v 1 0 ≠ 3) : srcWrite s v =
    tuEvent (srcServo (srcTaken s (fld v 1 0)) (fld v 1 0)) 0x07 (BitVec.ofNat 32 (fld v 1 0))
      (if fld v 1 0 = 1 then BitVec.ofNat 32 (srcServo (srcTaken s (fld v 1 0)) (fld v 1 0)).tu.port else 0xFF) 0 := if_neg h

/-- What a new source leaves of the time unit. -/
def TimeUnit.sourceKept (u : TimeUnit) : Int × BitVec 16 × BitVec 96 := (u.proposal, u.stepId, u.t)

theorem srcServo_kept (s : State) (src : Nat) : (srcServo s src).tu.sourceKept = s.tu.sourceKept := by
  refine iteInduction (motive := fun t : State => t.tu.sourceKept = s.tu.sourceKept) (fun _ => by rw [setServo_tu]; rfl) (fun _ => ?_)
  exact iteInduction (motive := fun t : State => t.tu.sourceKept = s.tu.sourceKept) (fun _ => by rw [enterHoldover_tu]; rfl)
    (fun _ => by rw [setServo_tu]; rfl)

theorem sameRegs_srcServo (s : State) (src : Nat) : SameRegs s (srcServo s src) :=
  iteInduction (fun _ => sameRegs_setServo _ _ _)
    (fun _ => iteInduction (fun _ => sameRegs_enterHoldover _ _) (fun _ => sameRegs_setServo _ _ _))

theorem incrNom_srcTaken (s : State) (src : Nat) : incrNom (srcTaken s src) = incrNom s := by
  unfold incrNom regGet64
  have hother (k : Nat) (hk : k ≠ 0x40) : regGet (srcTaken s src) (tuOff k) = regGet s (tuOff k) := by
    change regGet (regSet s (tuOff 0x40) _) _ = _
    rw [regGet_regSet, if_neg (by unfold tuOff; omega)]
  rw [hother 0 (by decide), show tuOff 0 + 4 = tuOff 4 from rfl, hother 4 (by decide)]

theorem srcWrite_spec {s : State} {v : Word} (h : fld v 1 0 ≠ 3) :
    (srcWrite s v).tu.proposal = 0 ∧ (srcWrite s v).tu.stepId = 0 ∧ (srcWrite s v).tu.t = s.tu.t
      ∧ regGet (srcWrite s v) (tuOff 0x40) = BitVec.ofNat 32 (fld v 1 0)
      ∧ (fld v 1 0 = 0 → (srcWrite s v).tu.st = .freerun ∧ (srcWrite s v).tu.incr = incrNom s)
      ∧ (fld v 1 0 ≠ 0 → s.tu.refLost = false → (srcWrite s v).tu.st = .acquire) := by
  have hkept := srcServo_kept (srcTaken s (fld v 1 0)) (fld v 1 0)
  have htu : (srcWrite s v).tu = (srcServo (srcTaken s (fld v 1 0)) (fld v 1 0)).tu := by rw [srcWrite_eq h, tuEvent_tu]
  rw [htu]
  refine ⟨congrArg Prod.fst hkept, congrArg (fun x => x.2.1) hkept, congrArg (fun x => x.2.2) hkept, ?_, fun hfree => ?_,
    fun hsrc hlost => ?_⟩
  · rw [srcWrite_eq h, (sameRegs_tuEvent _ _ _ _ _).tu, (sameRegs_srcServo _ _).tu]
    exact regGet_regSet_same s (tuOff 0x40) _
  · rw [srcServo, if_pos hfree, setServo_tu]
    exact ⟨rfl, incrNom_srcTaken s _⟩
  · have hno : ¬ (srcTaken s (fld v 1 0)).tu.refLost = true := fun hc => Bool.false_ne_true (hlost.symm.trans hc)
    rw [srcServo, if_neg hsrc, if_neg hno, setServo_tu]

-- lost sources (R419)

theorem sourceLost_tracking {s : State} (h : s.tu.st = .acquire ∨ s.tu.st = .locked) : sourceLost s = enterHoldover s 2 := if_pos h

theorem sourceLost_eths (s : State) : (sourceLost s).eths = s.eths := same_of_law .eths sourceLost_touch rfl

/-- The port is slave no more. -/
def slaveOff (s : State) (e : Nat) : State := setEth s e { getEth s e with slave := false }

theorem slaveLost_eq (s : State) (e : Nat) : slaveLost s e =
    if (getEth s e).slave ∧ tuSrc s = 1 ∧ s.tu.port = e then sourceLost (slaveOff s e) else slaveOff s e := rfl

theorem slaveLost_slave (s : State) (e : Nat) : (getEth (slaveLost s e) e).slave = false := by
  have hoff : (getEth (slaveOff s e) e).slave = false := by rw [slaveOff, getEth_setEth_same]
  rw [slaveLost_eq]
  refine iteInduction (motive := fun t : State => (getEth t e).slave = false) (fun _ => ?_) (fun _ => hoff)
  rw [getEth_congr (sourceLost_eths _), hoff]

/-- A port without its link. -/
def linkDown (s : State) (e : Nat) : State := setEth s e { getEth s e with up := false, expect := [] }

theorem execEthLinkDown_eq (e : EthId) (s : State) : execEthLinkDown e s = .next (linkDown (slaveLost s e.val) e.val) := rfl

theorem ethLinkDown_spec (s : State) (e : EthId) : ∃ t, execEthLinkDown e s = .next t ∧ (getEth t e.val).up = false
    ∧ (getEth t e.val).slave = false
    ∧ (tuSrc s = 1 → s.tu.port = e.val → (getEth s e.val).slave = true → (s.tu.st = .acquire ∨ s.tu.st = .locked) →
        t.tu.st = .holdover ∧ t.tu.cause = 2) := by
  refine ⟨_, execEthLinkDown_eq e s, ?_, ?_, fun hsrc hport hslave htrack => ?_⟩
  · rw [linkDown, getEth_setEth_same]
  · rw [linkDown, getEth_setEth_same]
    exact slaveLost_slave s e.val
  · have hlost : slaveLost s e.val = enterHoldover (slaveOff s e.val) 2 := by
      rw [slaveLost_eq, if_pos ⟨hslave, hsrc, hport⟩, sourceLost_tracking (s := slaveOff s e.val) htrack]
    rw [hlost, show (linkDown (enterHoldover (slaveOff s e.val) 2) e.val).tu = (enterHoldover (slaveOff s e.val) 2).tu from rfl,
      enterHoldover_tu]
    exact ⟨rfl, rfl⟩

/-- The mean path forgotten with the grandmaster. -/
def meanCleared (s : State) : State := modTu s fun v => { v with pdMean := none }

theorem execGrandmasterChange_holds {s : State} (g : Word64) (hsrc : tuSrc s = 1) (hst : s.tu.st ≠ .stepPending) :
    execGrandmasterChange g s = .next (tuEvent (enterHoldover (meanCleared s) 2) 0x07 1
      (BitVec.ofNat 32 (enterHoldover (meanCleared s) 2).tu.port) g) := by
  have hholds : (if (meanCleared s).tu.st = .stepPending then meanCleared s else enterHoldover (meanCleared s) 2)
      = enterHoldover (meanCleared s) 2 := if_neg hst
  rw [← hholds]
  exact if_neg (not_not_intro hsrc)

/-- Settles O50: each request of the time unit with its refusals, the step's skipped launches leaving T and SRC, and each lost source
holding over. -/
theorem stepsAndSources : Obligations.StepsAndSources := by
  intro s hphase src
  refine ⟨fun v => ?_, fun by' id h => stepApply_spec h, fun hst hcause => ?_, fun hno => ?_, fun v => ⟨fun h3 => ?_, fun h3 => ?_⟩,
    fun hsrc htrack => ?_, ethLinkDown_spec s, fun g hsrc hst => ?_⟩
  · intro by' want busy
    have hbusy : (anyEntryValid s || enginesBusy s) = true ↔ busy := by rw [Bool.or_eq_true, enginesBusy_iff]
    have hcmd : execTuStepCmd v s = .next (stepCmd s v) := hostWrite_running _ hphase
    rw [stepCmd_eq] at hcmd
    have hidle (h : wbit v 31 = true ∨ ¬ busy) : ¬ (wbit v 31 = false ∧ (anyEntryValid s || enginesBusy s) = true) := by
      rw [hbusy]
      rintro ⟨hbit, hb⟩
      exact h.elim (fun ht => Bool.false_ne_true (hbit.symm.trans ht)) (fun hn => hn hb)
    refine ⟨fun hid => ?_, fun hid hbit hb => ?_, fun hid h hneg => ?_, fun hid h hpos => ?_⟩
    · rw [if_pos ((stepWanted_iff s v).2 hid)] at hcmd
      exact hcmd
    · rw [if_neg (fun hc => (stepWanted_iff s v).1 hc hid), if_pos ⟨hbit, hbusy.2 hb⟩] at hcmd
      exact hcmd
    · rw [if_neg (fun hc => (stepWanted_iff s v).1 hc hid), if_neg (hidle h),
        if_pos (show stepNegative s (stepBy s) = true from decide_eq_true hneg)] at hcmd
      exact hcmd
    · rw [if_neg (fun hc => (stepWanted_iff s v).1 hc hid), if_neg (hidle h),
        if_neg (fun hc : stepNegative s (stepBy s) = true => absurd (of_decide_eq_true hc) (Int.not_lt.2 hpos))] at hcmd
      exact hcmd
  · have hacc : execAccept s = .next (acceptPath s) := hostWrite_running _ hphase
    refine ⟨_, hacc, ?_⟩
    rw [acceptPath_asym hst hcause, setServo_tu]
    exact ⟨rfl, rfl, rfl⟩
  · have hacc : execAccept s = .next (acceptPath s) := hostWrite_running _ hphase
    exact hacc.trans (congrArg _ (if_neg hno))
  · have hw : execTuSrcWrite v s = .next (srcWrite s v) := hostWrite_running _ hphase
    exact hw.trans (congrArg _ (if_pos h3))
  · exact ⟨_, hostWrite_running _ hphase, srcWrite_spec h3⟩
  · refine ⟨_, if_neg hsrc, ?_⟩
    rw [sourceLost_tracking htrack, enterHoldover_tu]
    exact ⟨rfl, rfl, rfl⟩
  · refine ⟨_, execGrandmasterChange_holds g hsrc hst, ?_⟩
    rw [tuEvent_tu, enterHoldover_tu]
    exact ⟨rfl, rfl, rfl, rfl⟩

end Sys2Proof.Machine
end

section
/-! SUPPORT. Why the narrow sources are not proved as stated (R234): the mark UPSTREAM_STALE is put on the first `Inst` of a number, and
a list that holds the number twice then shows the first in both places. -/

namespace Sys2Proof.Machine

/-- An image that commits to number 0 of slot 0 in partition 1. -/
def committingImage : Image :=
  { (default : Image) with
    targets := [{ (default : MapTarget) with valid := true, part := 1 }], commitMap := [{ (default : MapRec) with src := 0 }] }

/-- READY: partition 0 runs a command of that image, and partition 1 lists two instances under the number 0. -/
def listedTwiceTargets : State :=
  setPart (setPart { State.reset with rst := { ResetUnit.reset with phase := .ready } } 0 { Part.reset with
    slots := [(0, { Slot.reset with img := some committingImage })]
    entries := [(0, { EntryRun.reset with cmd := some { (default : Cmd) with st := .run } })] }) 1
    { Part.reset with insts := [{ (default : Inst) with member := 0 }, { (default : Inst) with member := 1 }] }

/-- The members of partition 1's instances before and after the reset of partition 0. -/
theorem reset_of_listedTwiceTargets :
    (getPart listedTwiceTargets 1).insts.map Inst.member = [0, 1]
      ∧ (getPart (answered listedTwiceTargets (execRstPartReq 1 listedTwiceTargets)) 1).insts.map Inst.member = [0, 0] := by
  decide +kernel

/-- Instances alike but for the mark have the same members. -/
theorem members_of_sameButStale {x y : Part} (h : SameButStale x y) : y.insts.map Inst.member = x.insts.map Inst.member := by
  have hmembers := congrArg (List.map Inst.member) h.2
  rw [List.map_map, List.map_map] at hmembers
  exact hmembers

/-- Refutes O52: in `listedTwiceTargets` the reset of partition 0 replaces the second `Inst` of partition 1 by the first, marked. -/
theorem not_warmAndNarrowSources : ¬ Obligations.WarmAndNarrowSources := by
  intro h
  obtain ⟨-, -, -, -, -, -, hpart, -⟩ := h listedTwiceTargets rfl
  obtain ⟨t, hrun, -, -, hkeeps⟩ := hpart 1
  have hsame := ((hkeeps 1 (by decide)).2 (.inl (by decide))).2
  obtain ⟨hbefore, hafter⟩ := reset_of_listedTwiceTargets
  have hexec : execRstPartReq 1 listedTwiceTargets = .next t := hrun
  have hmembers := members_of_sameButStale hsame
  rw [hexec] at hafter
  rw [hbefore] at hmembers
  exact absurd (hafter.symm.trans hmembers) (by decide)

end Sys2Proof.Machine
end

section
/-! SUPPORT. The Cold sources (R448, R450, R467, R476, R499): each is `assertCold` on a state that differs in the reset unit or a counter. -/

namespace Sys2Proof.Machine

theorem regGet_gradeRegs (f : Fuses) (s : State) (hregs : s.regs = gradeRegs f []) (off : Nat) :
    regGet s off = if f.gradeAI = true ∧ off = pwrOff 0x38 then 0x190 else regDefault off := by
  unfold regGet
  rw [hregs, gradeRegs]
  by_cases hgrade : f.gradeAI = true
  · rw [if_pos hgrade]
    by_cases hoff : off = pwrOff 0x38
    · subst hoff
      rw [if_pos ⟨hgrade, rfl⟩, tblGet_set_same]
    · rw [if_neg fun h => hoff h.2]
      exact (regGet_regSet { s with regs := [] } (pwrOff 0x38) off 0x190).trans (if_neg fun h => hoff h.symm)
  · rw [if_neg hgrade, if_neg fun h => hgrade h.1]
    rfl

/-- A Cold source resets the device, from any state with the same device outside the reset unit. -/
theorem assertCold_coldResetBy {s u : State} (bit : Nat) (hcold : u.rst.cold = s.rst.cold) (hcause : u.rst.cause = s.rst.cause)
    (hphase : u.rst.phase = s.rst.phase) (htu : u.tu.refLost = s.tu.refLost) (hfuse : u.fuse = s.fuse) (hflash : u.flash = s.flash)
    (hhost : u.host = s.host) : ColdResetBy s (assertCold u bit) bit := by
  refine ⟨rfl, by rw [← hcold]; rfl, by rw [← hcause, ← hphase]; rfl, by rw [← htu]; rfl, fun off => ?_, rfl, rfl, rfl, rfl, rfl, rfl,
    rfl, hfuse, hflash, hhost⟩
  rw [← hfuse]
  exact regGet_gradeRegs u.fuse _ rfl off

-- RESET_N (R450)

theorem resetNLow_between {ns : Nat} {s : State} (hlow : 250 ≤ ns) (hhigh : ns < 1000) :
    execResetNLow ns s = .next (if (drawBit s).1 then assertCold (drawBit s).2 bResetN else (drawBit s).2) :=
  (if_neg (Nat.not_le.2 hhigh)).trans (if_neg (Nat.not_lt.2 hlow))

-- supplies (R467)

/-- A rail is not good. -/
def railLost (s : State) (r : Rail) : State := { s with rst := { s.rst with good := s.rst.good &&& ~~~BitVec.ofNat 7 (2 ^ Rail.bit r) } }

/-- The brown-out source stands for the rail. -/
def railBrown (s : State) (r : Rail) : State :=
  { railLost s r with rst := { (railLost s r).rst with brown := s.rst.brown ||| BitVec.ofNat 7 (2 ^ Rail.bit r) } }

theorem brownout_of_rail {r : Rail} (h : r ≠ .vaux) (s : State) : execBrownout r s = .next (assertCold (railBrown s r) bBrownout) :=
  if_neg h

theorem brownout_of_vaux (s : State) : execBrownout .vaux s
    = .next (assertCold { railLost s .vaux with rst := { (railLost s .vaux).rst with latch := false } } bPowerOn) := rfl

/-- The reset unit once a rail other than VAUX is back. -/
def railBack (x : ResetUnit) (r : Rail) : ResetUnit :=
  let brown := x.brown &&& ~~~BitVec.ofNat 7 (2 ^ Rail.bit r)
  { x with
    good := x.good ||| BitVec.ofNat 7 (2 ^ Rail.bit r), brown := brown, cold := if brown = 0 then x.cold &&& 0x3D else x.cold }

theorem supplyGood_of_rail {r : Rail} (h : r ≠ .vaux) (s : State) : execSupplyGood r s = .next { s with rst := railBack s.rst r } :=
  if_neg h

theorem railBack_cold (x : ResetUnit) (r : Rail) : ((railBack x r).brown = 0 → (railBack x r).cold.getLsbD 1 = false)
    ∧ ((railBack x r).brown ≠ 0 → (railBack x r).cold = x.cold) := by
  refine ⟨fun h => ?_, fun h => if_neg h⟩
  rw [show (railBack x r).cold = x.cold &&& 0x3D from if_pos h, BitVec.getLsbD_and]
  exact Bool.and_false _

-- tampers (R499)

theorem fld_eq_extract (w : Word) (hi lo : Nat) : fld w hi lo = (w.extractLsb' lo (hi + 1 - lo)).toNat := by
  rw [BitVec.extractLsb'_toNat, Nat.shiftRight_eq_div_pow]
  rfl

/-- A byte put into a word at one of its two low bytes. -/
theorem put_byte (x : BitVec 8) : put x.toNat 0 = x.setWidth 32 ∧ put x.toNat 8 = x.setWidth 32 <<< 8 := by
  constructor
  · apply BitVec.eq_of_toNat_eq
    simp [put]
  · apply BitVec.eq_of_toNat_eq
    simp [put, Nat.shiftLeft_eq]

/-- The low byte of a word replaced: that byte, and the next. -/
theorem fld_replaceLow (w : Word) {x : Nat} (hx : x < 256) :
    fld ((w &&& ~~~(put 0xFF 0)) ||| put x 0) 7 0 = x ∧ fld ((w &&& ~~~(put 0xFF 0)) ||| put x 0) 15 8 = fld w 15 8 := by
  obtain ⟨b, rfl⟩ : ∃ b : BitVec 8, x = b.toNat := ⟨BitVec.ofNat 8 x, (Nat.mod_eq_of_lt hx).symm⟩
  rw [(put_byte b).1, show put 0xFF 0 = 0xFF#32 from rfl, fld_eq_extract, fld_eq_extract, fld_eq_extract w]
  refine ⟨congrArg BitVec.toNat (BitVec.eq_of_getLsbD_eq fun i hi => ?_), congrArg BitVec.toNat (BitVec.eq_of_getLsbD_eq fun i hi => ?_)⟩
  · interval_cases i <;> simp
  · interval_cases i <;> simp

/-- The second byte of a word replaced: that byte, and the low one. -/
theorem fld_replaceHigh (w : Word) {x : Nat} (hx : x < 256) :
    fld ((w &&& ~~~(put 0xFF 8)) ||| put x 8) 15 8 = x ∧ fld ((w &&& ~~~(put 0xFF 8)) ||| put x 8) 7 0 = fld w 7 0 := by
  obtain ⟨b, rfl⟩ : ∃ b : BitVec 8, x = b.toNat := ⟨BitVec.ofNat 8 x, (Nat.mod_eq_of_lt hx).symm⟩
  rw [(put_byte b).2, show put 0xFF 8 = 0xFF00#32 from rfl, fld_eq_extract, fld_eq_extract, fld_eq_extract w]
  refine ⟨congrArg BitVec.toNat (BitVec.eq_of_getLsbD_eq fun i hi => ?_), congrArg BitVec.toNat (BitVec.eq_of_getLsbD_eq fun i hi => ?_)⟩
  · interval_cases i <;> simp
  · interval_cases i <;> simp

theorem satInc_byte (n : Nat) : satInc 8 n < 256 := by
  unfold satInc
  split <;> omega

/-- Which byte a tamper counts in. -/
def tamperByte (k : TamperKind) : Nat := match k with | .glitch => 0 | .oscillator => 8

theorem execTamper_eq (k : TamperKind) (s : State) : execTamper k s = .next (tampered (countTamper s (tamperByte k))) := rfl

theorem tampered_secured {s : State} (h : s.fuse.lifecycle = 2) (lo : Nat) :
    tampered (countTamper s lo) = assertCold (countTamper s lo) bTamper := if_pos h

theorem tampered_counts {s : State} (h : s.fuse.lifecycle ≠ 2) (lo : Nat) : tampered (countTamper s lo) = countTamper s lo := if_neg h

theorem regGet_countTamper (s : State) (lo : Nat) : regGet (countTamper s lo) (hmkOff 0x0C)
    = (regGet s (hmkOff 0x0C) &&& ~~~(put 0xFF lo)) ||| put (satInc 8 (fld (regGet s (hmkOff 0x0C)) (lo + 7) lo)) lo :=
  regGet_regSet_same _ _ _

/-- Settles O51: every Cold source is `assertCold`, whose state is read off; the others change the reset unit or a tamper's byte. -/
theorem coldSourcesResetEverything : Obligations.ColdSourcesResetEverything := by
  intro s
  refine ⟨fun ns => ⟨fun h => ?_, fun h => ?_, fun hlow hhigh => ?_⟩, fun r hr => ?_, ?_, fun k => ?_, fun k => ⟨fun h => ?_, fun h => ?_⟩,
    fun h => if_pos h, fun r hr => ?_⟩
  · exact ⟨_, if_pos h, assertCold_coldResetBy bResetN rfl rfl rfl rfl rfl rfl rfl⟩
  · exact (if_neg (by omega)).trans (if_pos h)
  · refine ⟨_, resetNLow_between hlow hhigh, ?_⟩
    exact iteInduction (motive := fun t => ColdResetBy s t 2 ∨ t = { s with freeCtr := s.freeCtr + 1 })
      (fun _ => .inl (assertCold_coldResetBy bResetN rfl rfl rfl rfl rfl rfl rfl)) (fun _ => .inr rfl)
  · exact ⟨_, brownout_of_rail hr s, assertCold_coldResetBy bBrownout rfl rfl rfl rfl rfl rfl rfl, rfl, rfl⟩
  · exact ⟨_, brownout_of_vaux s, assertCold_coldResetBy bPowerOn rfl rfl rfl rfl rfl rfl rfl, rfl⟩
  · exact ⟨_, rfl, assertCold_coldResetBy bThermal rfl rfl rfl rfl rfl rfl rfl⟩
  · refine ⟨_, execTamper_eq k s, ?_⟩
    rw [tampered_secured h]
    exact assertCold_coldResetBy bTamper rfl rfl rfl rfl rfl rfl rfl
  · refine ⟨_, execTamper_eq k s, ?_⟩
    rw [tampered_counts h]
    refine ⟨rfl, rfl, ?_, ?_⟩
    · rintro rfl
      rw [regGet_countTamper]
      exact fld_replaceLow _ (satInc_byte _)
    · rintro rfl
      rw [regGet_countTamper]
      exact fld_replaceHigh _ (satInc_byte _)
  · obtain ⟨hnone, hsome⟩ := railBack_cold s.rst r
    exact ⟨_, supplyGood_of_rail hr s, rfl, hnone, hsome⟩

end Sys2Proof.Machine
end

section
/-! SUPPORT. Releases (R454 to R458, R463 to R466): fresh bits depend on the generator and the model's counter alone; the steps of a boot;
what a Partition release leaves of its rings. -/

namespace Sys2Proof.Machine

-- the generator (R491, R492)

/-- The parts of two states that fresh bits come from are alike. -/
def SameTrng (s t : State) : Prop := t.freeCtr = s.freeCtr ∧ t.hmk = s.hmk

/-- A failed health test counted, with the generator stopped. -/
def failCounted (s : State) : State := { s with hmk := { s.hmk with fails := min 2 (s.hmk.fails + 1), drbg := Drbg.reset } }

theorem noteFailure_eq (s : State) : noteFailure s = healthEvent (failCounted s) 0x09 7 0 (min 2 (s.hmk.fails + 1)) 0 := rfl

theorem noteFailure_sameTrng (s : State) : SameTrng (failCounted s) (noteFailure s) := by
  rw [noteFailure_eq]
  exact ⟨same_of_law .freeCtr (healthEvent_touch _ _ _ _ _) rfl, same_of_law .hmk (healthEvent_touch _ _ _ _ _) rfl⟩

/-- A window drawn. -/
def windowDrawn (s : State) : State := { s with freeCtr := s.freeCtr + 1 }

theorem seedOnce_eq (s : State) : seedOnce s = if healthOk (Config.rawBits s.freeCtr)
    then { windowDrawn s with hmk := { s.hmk with drbg := s.hmk.drbg.seed (Config.rawBits s.freeCtr) } }
    else noteFailure (windowDrawn s) := rfl

theorem sameTrng_seedOnce {s t : State} (h : SameTrng s t) : SameTrng (seedOnce s) (seedOnce t) := by
  obtain ⟨hctr, hhmk⟩ := h
  rw [seedOnce_eq, seedOnce_eq, hctr, hhmk]
  by_cases hok : healthOk (Config.rawBits s.freeCtr) = true
  · rw [if_pos hok, if_pos hok]
    exact ⟨congrArg (· + 1) hctr, rfl⟩
  · obtain ⟨hctr₁, hhmk₁⟩ := noteFailure_sameTrng (windowDrawn s)
    obtain ⟨hctr₂, hhmk₂⟩ := noteFailure_sameTrng (windowDrawn t)
    rw [if_neg hok, if_neg hok]
    refine ⟨?_, ?_⟩
    · rw [hctr₁, hctr₂]
      exact congrArg (· + 1) hctr
    · rw [hhmk₁, hhmk₂]
      exact congrArg (fun x : Hallmark => { x with fails := min 2 (x.fails + 1), drbg := Drbg.reset }) hhmk

theorem SameTrng.failed {s t : State} (h : SameTrng s t) : trngFailed t = trngFailed s := by unfold trngFailed; rw [h.2]

theorem sameTrng_seedDrbg {s t : State} (h : SameTrng s t) : SameTrng (seedDrbg s) (seedDrbg t) := by
  have hserves {u v : State} (g : SameTrng u v) : (trngFailed v || v.hmk.drbg.ready) = (trngFailed u || u.hmk.drbg.ready) := by
    rw [g.failed, g.2]
  unfold seedDrbg
  simp only [hserves h, hserves (sameTrng_seedOnce h)]
  split
  · exact h
  · split
    · exact sameTrng_seedOnce h
    · exact sameTrng_seedOnce (sameTrng_seedOnce h)

/-- The generator after one request. -/
def requestServed (s : State) : State := { s with hmk := { s.hmk with drbg := s.hmk.drbg.generate.2 } }

theorem freshBits_eq (s : State) : freshBits s = if trngFailed (seedDrbg s) then (none, seedDrbg s)
    else (some (seedDrbg s).hmk.drbg.generate.1, requestServed (seedDrbg s)) := rfl

theorem sameTrng_freshBits {s t : State} (h : SameTrng s t) :
    (freshBits t).1 = (freshBits s).1 ∧ SameTrng (freshBits s).2 (freshBits t).2 := by
  have hseed := sameTrng_seedDrbg h
  rw [freshBits_eq, freshBits_eq, hseed.failed]
  by_cases hfailed : trngFailed (seedDrbg s) = true
  · rw [if_pos hfailed, if_pos hfailed]
    exact ⟨rfl, hseed⟩
  · rw [if_neg hfailed, if_neg hfailed, hseed.2]
    exact ⟨rfl, hseed.1, congrArg (fun x : Hallmark => { x with drbg := x.drbg.generate.2 }) hseed.2⟩

-- a transition carried out (R497)

theorem takeIntent_rst (s : State) : (takeIntent s).rst = s.rst := same_of_law .rst takeIntent_touch rfl
theorem takeIntent_flash (s : State) : (takeIntent s).flash = s.flash := same_of_law .flash takeIntent_touch rfl

/-- What a transition fuses depends on the fuses, the generator and the booted slot's owners. -/
theorem takeIntent_fuse_congr {s t : State} (htrng : SameTrng s t) (hfuse : t.fuse = s.fuse) (howners : bootOwners t = bootOwners s) :
    (takeIntent t).fuse = (takeIntent s).fuse := by
  obtain ⟨hbits, hctr, -⟩ := sameTrng_freshBits htrng
  unfold takeIntent
  simp only [hfuse, howners]
  cases s.fuse.intent with
  | none => exact hfuse
  | some l =>
    match l with
    | 1 =>
      dsimp only
      rcases hs : freshBits s with ⟨_ | x, u⟩ <;> rcases ht : freshBits t with ⟨_ | y, v⟩ <;> rw [hs, ht] at hbits hctr
      · simp [show v.freeCtr = u.freeCtr from hctr]
      · cases hbits
      · cases hbits
      · simp [Option.some.inj hbits]
    | 0 | 2 | 3 | 4 | (_ + 5) => rfl

-- the steps of a boot (Tables 17.3 and 17.4)

theorem pickSlot_congr {s t : State} (hfuse : t.fuse = s.fuse) (hflash : t.flash = s.flash) : pickSlot t = pickSlot s := by
  unfold pickSlot
  rw [hfuse, hflash]

/-- A slot picked. -/
def slotPicked (s : State) (b : Bool) : State := { s with rst := { s.rst with bootSlot := b } }

/-- The release held up before training (R466). -/
def heldUp (s : State) (b : Bool) : State := { slotPicked s b with rst := { (slotPicked s b).rst with paused := true } }

/-- GDDR6 training over, whichever way. -/
def trainingOver (s : State) (b : Bool) (fault : BootFault) : State :=
  { slotPicked s b with rst := { (slotPicked s b).rst with trained := s.rst.trained || decide (fault ≠ .training) } }

/-- Training and the wipe over. -/
def wiped (s : State) (b : Bool) (fault : BootFault) : State := { trainingOver s b fault with mailbox := [] }

theorem enterReady_rst (s : State) : (enterReady s).rst = { s.rst with
    phase := .ready, bootCause := 0, paused := false, partRst := s.rst.partHeld, portRst := s.rst.portHeld } := rfl

theorem enterReady_mailbox (s : State) : (enterReady s).mailbox = s.mailbox := rfl
theorem enterReady_fuse (s : State) : (enterReady s).fuse = s.fuse := rfl
theorem enterReady_anl (s : State) : (enterReady s).anl = s.anl := rfl
theorem enterReady_tu (s : State) : (enterReady s).tu = s.tu := rfl
theorem enterReady_ctxs (s : State) : (enterReady s).ctxs = s.ctxs := rfl
theorem fuseAnneal_mailbox (s : State) : (fuseAnneal s).mailbox = s.mailbox := rfl
theorem fuseAnneal_fuse (s : State) : (fuseAnneal s).fuse = s.fuse := rfl
theorem fuseAnneal_rst (s : State) : (fuseAnneal s).rst = s.rst := rfl
theorem fuseAnneal_skip (s : State) : (fuseAnneal s).anl.skip = s.fuse.skips := rfl

theorem wiped_rst (s : State) (b : Bool) (fault : BootFault) : (wiped s b fault).rst
    = { s.rst with bootSlot := b, trained := s.rst.trained || decide (fault ≠ .training) } := rfl

theorem wiped_mailbox (s : State) (b : Bool) (fault : BootFault) : (wiped s b fault).mailbox = [] := rfl
theorem wiped_fuse (s : State) (b : Bool) (fault : BootFault) : (wiped s b fault).fuse = s.fuse := rfl
theorem wiped_tu (s : State) (b : Bool) (fault : BootFault) : (wiped s b fault).tu = s.tu := rfl

theorem bootSteps_noSlot {s : State} (h : pickSlot s = none) (fault : BootFault) (last : State → State) :
    bootSteps s fault last = bootFail s 1 := by
  unfold bootSteps
  simp only [h]

theorem bootSteps_heldUp {s : State} {b : Bool} (h : pickSlot s = some b) (hwarn : s.rst.vddkWarn = true) (fault : BootFault)
    (last : State → State) : bootSteps s fault last = heldUp s b := by
  unfold bootSteps
  simp only [h]
  exact if_pos hwarn

section
variable {s : State} {b : Bool} (h : pickSlot s = some b) (hwarn : s.rst.vddkWarn = false) (last : State → State)
include h hwarn

theorem bootSteps_training : bootSteps s .training last = bootFail (trainingOver s b .training) 3 := by
  unfold bootSteps
  simp only [h]
  exact if_neg (by rw [hwarn]; exact Bool.false_ne_true)

theorem bootSteps_wipe : bootSteps s .wipe last = bootFail (trainingOver s b .wipe) 4 := by
  unfold bootSteps
  simp only [h]
  exact if_neg (by rw [hwarn]; exact Bool.false_ne_true)

theorem bootSteps_done : bootSteps s .none last = enterReady (last (wiped s b .none)) := by
  unfold bootSteps
  simp only [h]
  exact if_neg (by rw [hwarn]; exact Bool.false_ne_true)

end

-- Cold (Table 17.4)

/-- A Cold release begun. -/
def coldBegun (s : State) : State :=
  { s with rst := { s.rst with phase := .coldRelease, cold := 0, warm := 0, kickAt := dogStart s } }

theorem execColdRelease_runs {s : State} (fault : BootFault) (hfree : coldFree s = true) : execColdRelease fault s =
    if fault = .shadow then .next (bootFail (takeIntent (coldBegun s)) 2)
    else if (takeIntent (coldBegun s)).fuse.lifecycle = 4 then .next (bootFail (takeIntent (coldBegun s)) 5)
    else .next (bootSteps (takeIntent (coldBegun s)) fault fuseAnneal) := if_neg (by rw [hfree]; decide)

theorem takeIntent_coldBegun (s : State) : (takeIntent (coldBegun s)).fuse = (takeIntent s).fuse :=
  takeIntent_fuse_congr (s := s) (t := coldBegun s) ⟨rfl, rfl⟩ rfl rfl

theorem pickSlot_coldBegun (s : State) : pickSlot (takeIntent (coldBegun s)) = pickSlot (takeIntent s) :=
  pickSlot_congr (takeIntent_coldBegun s) ((takeIntent_flash _).trans (takeIntent_flash s).symm)

theorem coldRelease_boots {s : State} {fault : BootFault} (hfree : coldFree s = true) (hshadow : fault ≠ .shadow)
    (hlife : (takeIntent s).fuse.lifecycle ≠ 4) :
    execColdRelease fault s = .next (bootSteps (takeIntent (coldBegun s)) fault fuseAnneal) := by
  rw [execColdRelease_runs fault hfree, if_neg hshadow, takeIntent_coldBegun, if_neg hlife]

/-- The end of a Cold release without a fault (R464, R465). -/
theorem coldEnd_spec (u : State) (b : Bool) :
    (enterReady (fuseAnneal (wiped u b .none))).rst.phase = .ready ∧ (enterReady (fuseAnneal (wiped u b .none))).rst.cold = u.rst.cold
      ∧ (enterReady (fuseAnneal (wiped u b .none))).rst.bootSlot = b
      ∧ (enterReady (fuseAnneal (wiped u b .none))).rst.partRst = u.rst.partHeld
      ∧ (enterReady (fuseAnneal (wiped u b .none))).rst.portRst = u.rst.portHeld
      ∧ (enterReady (fuseAnneal (wiped u b .none))).mailbox = [] ∧ (enterReady (fuseAnneal (wiped u b .none))).fuse = u.fuse
      ∧ (enterReady (fuseAnneal (wiped u b .none))).anl.skip = u.fuse.skips := by
  rw [enterReady_rst, fuseAnneal_rst, wiped_rst, enterReady_mailbox, fuseAnneal_mailbox, wiped_mailbox, enterReady_fuse, fuseAnneal_fuse,
    wiped_fuse, enterReady_anl, fuseAnneal_skip, wiped_fuse]
  exact ⟨rfl, rfl, rfl, rfl, rfl, rfl, rfl, rfl⟩

/-- A Cold release with a slot and no fault ends in READY (R464, R465). -/
theorem coldRelease_ready {s : State} {b : Bool} (hfree : coldFree s = true) (hwarn : s.rst.vddkWarn = false)
    (hlife : (takeIntent s).fuse.lifecycle ≠ 4) (hslot : pickSlot (takeIntent s) = some b) :
    ∃ t, execColdRelease .none s = .next t ∧ t.rst.phase = .ready ∧ t.rst.cold = 0 ∧ t.rst.bootSlot = b
      ∧ t.rst.partRst = s.rst.partHeld ∧ t.rst.portRst = s.rst.portHeld ∧ t.mailbox = [] ∧ t.fuse = (takeIntent s).fuse
      ∧ t.anl.skip = (takeIntent s).fuse.skips := by
  have hrst : (takeIntent (coldBegun s)).rst = (coldBegun s).rst := takeIntent_rst _
  have hboot := bootSteps_done (s := takeIntent (coldBegun s)) ((pickSlot_coldBegun s).trans hslot) (by rw [hrst]; exact hwarn) fuseAnneal
  refine ⟨_, coldRelease_boots hfree (by decide) hlife, ?_⟩
  rw [hboot, ← takeIntent_coldBegun]
  have hend := coldEnd_spec (takeIntent (coldBegun s)) b
  rw [hrst] at hend
  exact hend

-- Warm (Table 17.3)

/-- A Warm release begun. -/
def warmBegun (s : State) : State := { s with rst := { s.rst with phase := .warmRelease, warm := 0, kickAt := dogStart s } }

/-- Every pending spare brought in. -/
def sparesIn (s : State) : State := bringIn s (fun _ => true)

/-- The throttle of a safe state kept through the reset, and the Blotter resumed. -/
def warmEnd (s : State) : State := bltResume (if s.pwr.safe then setThrottle s 8 else s)

theorem execWarmRelease_runs {s : State} (fault : BootFault) (hfree : warmFree s = true) : execWarmRelease fault s =
    if isReady (bootSteps (warmBegun s) fault sparesIn) then .next (warmEnd (bootSteps (warmBegun s) fault sparesIn))
    else .next (bootSteps (warmBegun s) fault sparesIn) := if_neg (by rw [hfree]; decide)

theorem warmEnd_touch (s : State) : Touch [.regs, .freeCtr, .blt] s (warmEnd s) := by
  refine bltResume_touch (by decide) ?_
  exact iteInduction (motive := Touch [.regs, .freeCtr, .blt] s) (fun _ => setThrottle_touch 8 (by decide) (.refl _ s)) (fun _ => .refl _ s)

theorem healthEvent_anl (s : State) (code kind index a2 a3 : Nat) : (healthEvent s code kind index a2 a3).anl = s.anl :=
  same_of_law .anl (healthEvent_touch _ _ _ _ _) rfl

theorem applySpare_pending (s : State) (u : FailedUnit) : (applySpare s u).anl.pending = s.anl.pending := by
  unfold applySpare
  dsimp only
  refine iteInduction (motive := fun t : State => t.anl.pending = s.anl.pending) (fun _ => ?_) (fun _ => ?_)
  · rw [healthEvent_anl, healthEvent_anl]
    split_ifs <;> rfl
  · rw [healthEvent_anl]
    split_ifs <;> rfl

theorem sparesIn_keeps (s : State) : (sparesIn s).rst = s.rst ∧ (sparesIn s).tu = s.tu ∧ (sparesIn s).anl.pending = []
    ∧ SameCtxs s (sparesIn s) := by
  refine ⟨same_of_law .rst (bringIn_touch _) rfl, same_of_law .tu (bringIn_touch _) rfl, ?_, ?_⟩
  · have hfilter : s.anl.pending.filter (fun _ => !true) = [] := by simp
    refine (List.foldlRecOn (s.anl.pending.filter fun _ => true) applySpare
      (motive := fun t : State => t.anl.pending = s.anl.pending.filter fun _ => !true) rfl fun t h u _ => ?_).trans hfilter
    rw [applySpare_pending, h]
  · exact (Quiet.fold _ _ applySpare_quiet).ctxs

/-- The end of a Warm release without a fault, before the Blotter resumes. -/
def warmRestored (s : State) (b : Bool) : State := enterReady (sparesIn (wiped (warmBegun s) b .none))

theorem warmRestored_spec (s : State) (b : Bool) : (warmRestored s b).rst.phase = .ready ∧ (warmRestored s b).rst.warm = 0
    ∧ (warmRestored s b).rst.bootSlot = b ∧ (warmRestored s b).rst.partRst = s.rst.partHeld
    ∧ (warmRestored s b).rst.portRst = s.rst.portHeld ∧ (warmRestored s b).tu = s.tu ∧ SameCtxs s (warmRestored s b)
    ∧ (warmRestored s b).anl.pending = [] := by
  obtain ⟨hrst, htu, hpending, hctxs⟩ := sparesIn_keeps (wiped (warmBegun s) b .none)
  have hbegun : SameCtxs s (wiped (warmBegun s) b .none) := .of_eq rfl
  rw [warmRestored, enterReady_rst, hrst, wiped_rst, enterReady_tu, htu, wiped_tu, enterReady_anl]
  exact ⟨rfl, rfl, rfl, rfl, rfl, rfl, (hbegun.trans hctxs).trans (.of_eq (enterReady_ctxs _)), hpending⟩

theorem execWarmRelease_ready {s : State} {b : Bool} (hfree : warmFree s = true) (hwarn : s.rst.vddkWarn = false)
    (hslot : pickSlot s = some b) :
    ∃ t, execWarmRelease .none s = .next t ∧ t.rst.phase = .ready ∧ t.rst.warm = 0 ∧ t.rst.bootSlot = b
      ∧ t.rst.partRst = s.rst.partHeld ∧ t.rst.portRst = s.rst.portHeld ∧ t.tu = s.tu
      ∧ (∀ c, (getCtx t c).recover = (getCtx s c).recover) ∧ t.anl.pending = [] := by
  have hboot : bootSteps (warmBegun s) .none sparesIn = warmRestored s b := bootSteps_done (s := warmBegun s) hslot hwarn sparesIn
  obtain ⟨hphase, hwarm, hboots, hpart, hport, htu, hctxs, hpending⟩ := warmRestored_spec s b
  have htouch := warmEnd_touch (warmRestored s b)
  have hend : (warmEnd (warmRestored s b)).rst = (warmRestored s b).rst := htouch.same .rst (by decide)
  have hrun := execWarmRelease_runs .none hfree
  rw [hboot, if_pos (by rw [isReady, hphase]; rfl)] at hrun
  refine ⟨_, hrun, ?_⟩
  rw [hend]
  refine ⟨hphase, hwarm, hboots, hpart, hport, (htouch.same .tu (by decide)).trans htu, fun c => ?_,
    (congrArg Health.pending (htouch.same .anl (by decide))).trans hpending⟩
  rw [getCtx_congr (htouch.same .ctxs (by decide)), show getCtx (warmRestored s b) c = _ from hctxs c]

theorem warmRelease_fails {s u : State} {fault : BootFault} (hfree : warmFree s = true) (hboot : bootSteps (warmBegun s) fault sparesIn = u)
    (hphase : u.rst.phase ≠ .ready) : execWarmRelease fault s = .next u := by
  have hrun := execWarmRelease_runs fault hfree
  rw [hboot] at hrun
  exact hrun.trans (if_neg fun h => hphase (of_decide_eq_true h))

-- a Partition release (R368)

/-- A context whose rings a Partition release fails. -/
def failsWith (s : State) (p c : Nat) : Prop := (getCtx s c).on = true ∧ (getCtx s c).recover = false ∧ (getCtx s c).part = p

/-- Its rings failed. -/
def ctxFailed (s : State) (c : Nat) : State := (upTo 8).foldl (fun u r => failRing u c r stReset 1 .halted) s

/-- One context's turn of a Partition release. -/
def failTurn (p : Nat) (t : State) (c : Nat) : State :=
  if (getCtx t c).on && !(getCtx t c).recover && decide ((getCtx t c).part = p) then ctxFailed t c else t

theorem failPart_eq (s : State) (p : Nat) : failPart s p = (upTo 64).foldl (failTurn p) s := rfl

/-- A context's contexts' fields and one of its rings are left alone. -/
def KeepsFailing (c r : Nat) (s t : State) : Prop := SameCtxs s t ∧ KeepsRing c r s t

theorem KeepsFailing.refl (c r : Nat) (s : State) : KeepsFailing c r s s := ⟨.refl s, .refl c r s⟩

theorem KeepsFailing.trans {c r : Nat} {s t u : State} (h : KeepsFailing c r s t) (g : KeepsFailing c r t u) : KeepsFailing c r s u :=
  ⟨h.1.trans g.1, h.2.trans g.2⟩

theorem ctxFailed_sameCtxs (s : State) (c : Nat) : SameCtxs s (ctxFailed s c) :=
  foldl_keeps SameCtxs.refl SameCtxs.trans _ (fun t r _ => failRing_sameCtxs t c r _ _ _) s

theorem failTurn_of_ne {c d : Nat} (h : d ≠ c) {r : Nat} (hr : r < 8) (p : Nat) (t : State) : KeepsFailing c r t (failTurn p t d) :=
  iteInduction (motive := KeepsFailing c r t) (fun _ => ⟨ctxFailed_sameCtxs t d, failRings_keepsRing t h stReset 1 hr⟩)
    (fun _ => .refl c r t)

theorem failRing_emptied (s : State) (c r status cause : Nat) (st : RingState) :
    (getRing (failRing s c r status cause st) c r).items = [] ∧ (getRing (failRing s c r status cause st) c r).paused = false := by
  rw [failRing_eq, getRing_setRing_same]
  exact ⟨rfl, rfl⟩

/-- Every ring of a failed context is empty and not paused. -/
theorem ctxFailed_emptied (s : State) (c : Nat) {r : Nat} (hr : r < 8) :
    (getRing (ctxFailed s c) c r).items = [] ∧ (getRing (ctxFailed s c) c r).paused = false := by
  obtain ⟨t, -, hafter⟩ := foldl_upTo_at (F := fun t r => failRing t c r stReset 1 .halted) (KeepsRing.refl c r) KeepsRing.trans
    hr (fun t q hq hne => failRing_keepsRing hq stReset 1 .halted hr (by simp [hne])) s
  rw [ctxFailed, hafter.1]
  exact failRing_emptied _ _ _ _ _ _

theorem failPart_emptied {s : State} {p c : Nat} (hc : c < 64) (hfails : failsWith s p c) {r : Nat} (hr : r < 8) :
    (getRing (failPart s p) c r).items = [] ∧ (getRing (failPart s p) c r).paused = false := by
  obtain ⟨hon, hrec, hpart⟩ := hfails
  obtain ⟨t, hbefore, hafter⟩ := foldl_upTo_at (F := failTurn p) (KeepsFailing.refl c r) KeepsFailing.trans hc
    (fun t d _ hne => failTurn_of_ne hne hr p t) s
  have hctx : getCtx t c = _ := hbefore.1 c
  have hturn : failTurn p t c = ctxFailed t c := if_pos (by
    rw [hctx]
    simp [hon, hrec, hpart])
  rw [failPart_eq, hafter.2.1, hturn]
  exact ctxFailed_emptied t c hr

/-- A partition out of reset. -/
def partFreed (s : State) (p : Nat) : State :=
  { s with rst := { s.rst with partRst := s.rst.partRst &&& ~~~BitVec.ofNat 16 (2 ^ p) } }

theorem partFreed_rst (s : State) (p : Nat) :
    (partFreed s p).rst = { s.rst with partRst := s.rst.partRst &&& ~~~BitVec.ofNat 16 (2 ^ p) } := rfl
theorem partFreed_parts (s : State) (p : Nat) : (partFreed s p).parts = s.parts := rfl
theorem partFreed_rings (s : State) (p : Nat) : (partFreed s p).rings = s.rings := rfl

theorem execPartitionRelease_runs {p : PartId} {fault : BootFault} {s : State} (hready : isReady s = true)
    (hrst : s.rst.partRst.getLsbD p.val = true) (hheld : s.rst.partHeld.getLsbD p.val = false) : execPartitionRelease p fault s =
    if fault = .wipe then .next (bootFail s 4)
    else .next (partFreed (failPart s p.val) p.val) :=
  if_pos (by rw [hready, hrst, hheld]; rfl)

/-- A port out of reset. -/
def portFreed (s : State) (n : Nat) : State :=
  { s with rst := { s.rst with portRst := s.rst.portRst &&& ~~~BitVec.ofNat 28 (2 ^ n) } }

/-- A link's pending spares brought in. -/
def linkSpares (s : State) (n : Nat) : State := bringIn s (fun u => decide (u.kind = uQuill ∧ u.index = n))

theorem execPortRelease_runs {port : Port} {s : State} (hready : isReady s = true) (hrst : s.rst.portRst.getLsbD (Port.num port) = true)
    (hheld : s.rst.portHeld.getLsbD (Port.num port) = false) : execPortRelease port s =
    .next (if Port.num port < 16 then linkSpares (portFreed s (Port.num port)) (Port.num port) else portFreed s (Port.num port)) :=
  if_pos (by rw [hready, hrst, hheld]; rfl)

/-- Settles O53: the cases of the boot's steps for both releases; a Partition release's fold empties each ring in its context's turn; what a
port's release brings in touches no port. -/
theorem releasesEndResets : Obligations.ReleasesEndResets := by
  intro fault s
  refine ⟨?_, fun b hfree hwarn hslot => ?_, fun b hwarn => ?_, fun p hready hrst hheld => ?_,
    fun port hready hrst hheld => ?_⟩
  · intro hfree hwarn f
    have hlife : (takeIntent (coldBegun s)).fuse = f := takeIntent_coldBegun s
    refine ⟨fun h => ?_, fun hshadow h4 => ?_, fun hshadow h4 hnone => ?_, fun b h4 hslot => ⟨?_, ?_, ?_⟩⟩
    · exact ⟨_, (execColdRelease_runs fault hfree).trans (if_pos h), rfl, rfl⟩
    · refine ⟨_, (execColdRelease_runs fault hfree).trans ((if_neg hshadow).trans (if_pos ?_)), rfl, rfl⟩
      rw [hlife, h4]
    · refine ⟨_, coldRelease_boots hfree hshadow h4, ?_⟩
      rw [bootSteps_noSlot ((pickSlot_coldBegun s).trans hnone)]
      exact ⟨rfl, rfl⟩
    · rintro rfl
      refine ⟨_, coldRelease_boots hfree (by decide) h4, ?_⟩
      rw [bootSteps_training ((pickSlot_coldBegun s).trans hslot) (by rw [takeIntent_rst]; exact hwarn)]
      exact ⟨rfl, rfl⟩
    · rintro rfl
      refine ⟨_, coldRelease_boots hfree (by decide) h4, ?_⟩
      rw [bootSteps_wipe ((pickSlot_coldBegun s).trans hslot) (by rw [takeIntent_rst]; exact hwarn)]
      exact ⟨rfl, rfl⟩
    · rintro rfl
      exact coldRelease_ready hfree hwarn h4 hslot
  · refine ⟨?_, ?_⟩
    · rintro rfl
      exact execWarmRelease_ready hfree hwarn hslot
    · rintro rfl
      exact ⟨_, warmRelease_fails hfree (bootSteps_wipe (s := warmBegun s) hslot hwarn sparesIn) (by rintro ⟨⟩), rfl, rfl⟩
  · refine ⟨fun hfree hshadow h4 hslot => ?_, fun hfree hslot => ?_⟩
    · refine ⟨_, coldRelease_boots hfree hshadow h4, ?_⟩
      have hrst : (takeIntent (coldBegun s)).rst = (coldBegun s).rst := takeIntent_rst _
      rw [bootSteps_heldUp ((pickSlot_coldBegun s).trans hslot) (by rw [hrst]; exact hwarn)]
      have htrained : (takeIntent (coldBegun s)).rst.trained = (coldBegun s).rst.trained := congrArg ResetUnit.trained hrst
      exact ⟨congrArg ResetUnit.phase hrst, rfl, htrained⟩
    · exact ⟨_, warmRelease_fails hfree (bootSteps_heldUp (s := warmBegun s) hslot hwarn fault sparesIn) (by rintro ⟨⟩), rfl, rfl, rfl⟩
  · have hrun := execPartitionRelease_runs (fault := fault) hready hrst hheld
    refine ⟨fun h => ⟨_, hrun.trans (if_pos h), rfl, rfl⟩, fun h => ⟨_, hrun.trans (if_neg h), ?_, ?_, ?_⟩⟩
    · have hkept : (failPart s p.val).rst = s.rst := same_of_law .rst (failPart_touch p.val) rfl
      rw [partFreed_rst, hkept]
    · rw [partFreed_parts]
      exact same_of_law .parts (failPart_touch p.val) rfl
    · intro c hc hon hrec hpart r hr
      rw [getRing_congr (partFreed_rings _ _)]
      exact failPart_emptied hc ⟨hon, hrec, hpart⟩ hr
  · refine ⟨_, execPortRelease_runs hready hrst hheld, ?_⟩
    refine iteInduction (motive := fun t : State => t.rst = (portFreed s (Port.num port)).rst ∧ t.links = s.links ∧ t.dports = s.dports
      ∧ t.eths = s.eths) (fun _ => ?_) (fun _ => ⟨rfl, rfl, rfl, rfl⟩)
    have htouch : Touch _ (portFreed s (Port.num port)) (linkSpares (portFreed s (Port.num port)) (Port.num port)) :=
      Touch.of_law (bringIn_touch _)
    exact ⟨htouch.same .rst (by decide), htouch.same .links (by decide), htouch.same .dports (by decide), htouch.same .eths (by decide)⟩

end Sys2Proof.Machine
end

section
/-! SUPPORT. Register writes (R345, R535 to R539) and the tables of the fabric and of Ductus (R170, R540, R542, R544). -/

namespace Sys2Proof.Machine

-- the register file

theorem execRegisterWrite_register {s : State} {h : HostPort} {a : BitVec 32} {off : Nat} (bytes : Nat) (v : Word)
    (hphase : s.rst.phase ≠ .bootFail) (hoff : regOffset h a = some off) :
    execRegisterWrite h a bytes v s = .next (if bytes ≠ 4 ∨ off % 4 ≠ 0 then regRefuse s else regWrite h s off v) := by
  unfold execRegisterWrite
  simp only [hoff, hostWrite_running _ hphase]
  exact (apply_ite _ _ _ _).symm

theorem execRegisterWrite_xspi {s : State} {a : BitVec 32} (bytes : Nat) (v : Word) (hphase : s.rst.phase ≠ .bootFail)
    (hoff : regOffset .xspi a = none) : execRegisterWrite .xspi a bytes v s = .next (xspiWrite s a.toNat bytes v) := by
  unfold execRegisterWrite
  simp only [hoff]
  exact hostWrite_running _ hphase

theorem regOffset_xspi_none {a : BitVec 32} (h : a.toNat < 0x1000000 ∨ 0x2000000 ≤ a.toNat) : regOffset .xspi a = none :=
  if_neg (by omega)

/-- A 32-bit register written: its RW bits taken, its W1C bits written 1 lost (R3, R10). -/
def plainValue (r : RegRow) (old v : Word) : Word :=
  ((old &&& ~~~BitVec.ofNat 32 r.rw) ||| (v &&& BitVec.ofNat 32 r.rw)) &&& ~~~(v &&& BitVec.ofNat 32 r.w1c)

theorem plainWrite_narrow {s : State} {off : Nat} {r : RegRow} {is : List Nat} (hrow : regRow? off = some (r, is)) (hwide : r.wide = 0)
    (v : Word) : plainWrite s off v = regSet s off (plainValue r (regGet s off) v) := by
  unfold plainWrite
  simp only [hrow]
  exact (if_neg (by omega)).trans (if_neg (by omega))

/-- The reset block's registers without a behaviour of their own. -/
theorem regWrite_reset {s : State} {off : Nat} (h : HostPort) (v : Word) (hblock : off / 0x100000 = 10) (h8 : off ≠ 0xA00008)
    (hc : off ≠ 0xA0000C) (h10 : off ≠ 0xA00010) (h18 : off ≠ 0xA00018) : regWrite h s off v = plainWrite s off v := by
  unfold regWrite
  rw [hblock]
  exact (if_neg h8).trans ((if_neg hc).trans ((if_neg h10).trans ((if_neg h18).trans (if_neg (by unfold pwrOff; omega)))))

/-- Counters set to 0, in any order. -/
theorem regGet_cleared (l : List Nat) (o : Nat) :
    ∀ s : State, regGet (l.foldl (fun t o => regSet t o 0) s) o = if o ∈ l then 0 else regGet s o := by
  induction l with
  | nil => exact fun s => rfl
  | cons a l ih =>
    intro s
    rw [List.foldl_cons, ih, regGet_regSet]
    by_cases hl : o ∈ l
    · rw [if_pos hl, if_pos (List.mem_cons_of_mem a hl)]
    · rw [if_neg hl]
      by_cases ha : a = o
      · rw [if_pos ha, if_pos (ha ▸ List.mem_cons_self)]
      · rw [if_neg ha, if_neg (by rw [List.mem_cons]; rintro (h | h); exacts [ha h.symm, hl h])]

/-- Settles O54: the address map's cases, the plain write of a 32-bit row, and a fold over the counters of one unit. -/
theorem registerWrites : Obligations.RegisterWrites := by
  intro s hphase
  refine ⟨fun h a off bytes v hoff hbad => ?_, fun h a off v r is hoff hblock halign hrow hwide hplain => ?_, fun a bytes v => ?_,
    fun off v => ⟨fun hkey => ?_, fun hkey => ?_⟩⟩
  · exact (execRegisterWrite_register bytes v hphase hoff).trans (congrArg _ (if_pos hbad))
  · obtain ⟨h8, hc, h10, h18⟩ := hplain
    have hgood : ¬ ((4 : Nat) ≠ 4 ∨ off % 4 ≠ 0) := by omega
    refine ⟨_, (execRegisterWrite_register 4 v hphase hoff).trans (congrArg _ (if_neg hgood)), ?_⟩
    rw [regWrite_reset h v hblock h8 hc h10 h18, plainWrite_narrow hrow hwide]
    exact ⟨regGet_regSet_same _ _ _, fun o ho => by rw [regGet_regSet, if_neg (Ne.symm ho)], rfl⟩
  · refine ⟨fun h => if_pos h, fun hlow hhigh => if_pos ⟨hlow, hhigh⟩, fun hpast hout => ?_, fun hbox => ?_⟩
    · refine (execRegisterWrite_xspi bytes v hphase (regOffset_xspi_none hout)).trans (congrArg _ ?_)
      exact (if_neg (by omega)).trans (if_neg (by omega))
    · exact (execRegisterWrite_xspi bytes v hphase (regOffset_xspi_none (by omega))).trans (congrArg _ (if_pos hbox))
  · have hclear : clearCounters s off.toNat v = s := if_neg hkey
    exact (hostWrite_running (clearCounters s off.toNat v) hphase).trans (congrArg _ hclear)
  · refine ⟨_, hostWrite_running (clearCounters s off.toNat v) hphase, fun o => ?_⟩
    have hclear : clearCounters s off.toNat v = (clearedBy off.toNat).foldl (fun t o => regSet t o 0) s := if_pos hkey
    rw [hclear, regGet_cleared]

-- TICKS (R540)

/-- The low bits of a word, as the number of them that is written, read back. -/
theorem fld_ofNat_fld (v : Word) : fld (BitVec.ofNat 32 (fld v 12 0)) 12 0 = fld v 12 0 := by
  have hlt : fld v 12 0 < 8192 := fld_lt v 12 0
  unfold fld at hlt ⊢
  simp only [BitVec.toNat_ofNat]
  omega

theorem ofNat_fld_low (v : Word) : BitVec.ofNat 32 (fld v 15 0) = v &&& 0xFFFF := by
  apply BitVec.eq_of_toNat_eq
  have hlt : fld v 15 0 < 65536 := fld_lt v 15 0
  rw [BitVec.toNat_ofNat, BitVec.toNat_and, show (0xFFFF : Word).toNat = 2 ^ 16 - 1 from rfl, Nat.and_two_pow_sub_one_eq_mod]
  unfold fld at hlt ⊢
  omega

/-- TICKS written. -/
def ticksSet (s : State) (p : Nat) (v : Word) : State := regSet s (fabOff p 0x10) (BitVec.ofNat 32 (fld v 12 0))

theorem cutoffWrite_off {s : State} {p : Nat} {v : Word} (h : (getPart s p).on = false) : cutoffWrite s p v = ticksSet s p v :=
  if_pos (by rw [h]; rfl)

/-- TICKS taken by an enabled partition: a lowered one leaves the old value in force for now. -/
theorem cutoffWrite_taken {s : State} {p : Nat} {v : Word} (hon : (getPart s p).on = true) (h : 8 ≤ fld v 12 0 ∧ fld v 12 0 ≤ 4096) :
    cutoffWrite s p v = setPart (ticksSet s p v) p { getPart s p with
      oldTicks := if fld v 12 0 < ticksEff s p then some (ticksEff s p) else none } :=
  (if_neg (by rw [hon]; decide)).trans (if_neg (by omega))

theorem cutoffWrite_refused {s : State} {p : Nat} {v : Word} (hon : (getPart s p).on = true) (h : fld v 12 0 < 8 ∨ 4096 < fld v 12 0) :
    cutoffWrite s p v = recordErr s (fabErr p) 4 := (if_neg (by rw [hon]; decide)).trans (if_pos h)

theorem ticksEff_of_none {s : State} {p : Nat} (h : (getPart s p).oldTicks = none) : ticksEff s p = fld (regGet s (fabOff p 0x10)) 12 0 := by
  unfold ticksEff
  simp only [h]

theorem cutoffWrite_spec {s : State} {p : Nat} {v : Word} (h : (getPart s p).on = false ∨ (8 ≤ fld v 12 0 ∧ fld v 12 0 ≤ 4096)) :
    fld (regGet (cutoffWrite s p v) (fabOff p 0x10)) 12 0 = fld v 12 0
      ∧ ((getPart s p).on = true → ticksEff s p ≤ fld v 12 0 → ticksEff (cutoffWrite s p v) p = fld v 12 0) := by
  have hreg : fld (regGet (ticksSet s p v) (fabOff p 0x10)) 12 0 = fld v 12 0 := by
    rw [ticksSet, regGet_regSet_same, fld_ofNat_fld]
  by_cases hon : (getPart s p).on = true
  · have hrange := h.resolve_left (by rw [hon]; decide)
    rw [cutoffWrite_taken hon hrange]
    refine ⟨hreg, fun _ hge => ?_⟩
    rw [ticksEff_of_none (by rw [getPart_setPart_same]; exact if_neg (Nat.not_lt.2 hge))]
    exact hreg
  · rw [cutoffWrite_off (Bool.eq_false_iff.2 hon)]
    exact ⟨hreg, fun h' => absurd h' hon⟩

-- binding records (R170)

theorem bindWrite_high {s : State} {p k w : Nat} (hempty : (getSlot s p k).img = none) (hw : 16 ≤ w) (v : Word) :
    bindWrite s p k w v = regSet s (ducOff p (0x80 * k + 4 * w)) v := by
  have hmask : bindMask w = 0xFFFFFFFF := (if_neg (by omega)).trans (if_pos (by omega))
  have hplain : bindWrite s p k w v = regSet s (ducOff p (0x80 * k + 4 * w)) (v &&& bindMask w) :=
    (if_neg (by rw [hempty]; decide)).trans ((if_neg (by omega)).trans (if_neg (by omega)))
  rw [hplain, hmask, show v &&& 0xFFFFFFFF = v from BitVec.and_allOnes]

/-- SIGNATURE whole: its lower word kept back until the upper one comes (R535). -/
def signatureSet (s : State) (o : Nat) (lo hi : Word) : State :=
  let t := regSet s o lo
  regSet { t with latch64 := tblSet none t.latch64 o none } (o + 4) hi

theorem bindWrite_signature {s : State} {p k : Nat} (hempty : (getSlot s p k).img = none) {lo : Word} (v : Word)
    (hlatch : tblGet none s.latch64 (ducOff p (0x80 * k + 8)) = some lo) :
    bindWrite s p k 3 v = signatureSet s (ducOff p (0x80 * k + 8)) lo v := by
  have hoff : ducOff p (0x80 * k + 4 * 3) - 4 = ducOff p (0x80 * k + 8) := by unfold ducOff; omega
  have hup : ducOff p (0x80 * k + 4 * 3) = ducOff p (0x80 * k + 8) + 4 := by unfold ducOff; omega
  unfold bindWrite
  simp only [hoff, hlatch, hempty]
  rw [hup]
  rfl

theorem regGet64_signatureSet (s : State) (o : Nat) (lo hi : Word) : regGet64 (signatureSet s o lo hi) o = word64 lo hi := by
  unfold regGet64 signatureSet
  rw [regGet_regSet, if_neg (by omega), regGet_regSet, if_pos rfl]
  exact congrArg (word64 · hi) (regGet_regSet_same s o lo)

/-- Settles O55: each table's write by the branches of its rule. -/
theorem fabricTables : Obligations.FabricTables := by
  intro p v s hphase x
  refine ⟨fun n => ?_, fun h => ?_, fun hon h => ?_, fun k w => ⟨fun hfree hrsv hbeyond => ?_, fun h => ?_⟩, fun k w => ⟨fun h => ?_,
    fun hempty hw => ?_, fun lo hempty hw hlatch => ?_⟩⟩
  · refine ⟨_, hostWrite_running (semWrite s n.toNat v) hphase, ?_, fun o ho => ?_⟩
    · exact (regGet_regSet_same _ _ _).trans (ofNat_fld_low v)
    · exact (regGet_regSet _ _ _ _).trans (if_neg (Ne.symm ho))
  · exact ⟨_, hostWrite_running (cutoffWrite s p.val v) hphase, cutoffWrite_spec h⟩
  · exact (hostWrite_running (cutoffWrite s p.val v) hphase).trans (congrArg _ (cutoffWrite_refused hon h))
  · have htaken : slotTableWrite s p.val k.toNat w.val v = regSet s (slotTabOff p.val k.toNat w.val) v :=
      if_neg (by rw [hfree, hrsv, hbeyond]; decide)
    exact (hostWrite_running (slotTableWrite s p.val k.toNat w.val v) hphase).trans (congrArg _ htaken)
  · have hrefused : slotTableWrite s p.val k.toNat w.val v = recordErr s (fabErr p.val) 9 :=
      if_pos (by rcases h with h | h | h <;> simp [h])
    exact (hostWrite_running (slotTableWrite s p.val k.toNat w.val v) hphase).trans (congrArg _ hrefused)
  · have hbound : bindWrite s p.val k.val w.val v = recordErr s (ducOff p.val 0xC04) 1 := if_pos h
    exact (hostWrite_running (bindWrite s p.val k.val w.val v) hphase).trans (congrArg _ hbound)
  · exact (hostWrite_running (bindWrite s p.val k.val w.val v) hphase).trans (congrArg _ (bindWrite_high hempty hw v))
  · refine ⟨_, hostWrite_running (bindWrite s p.val k.val w.val v) hphase, ?_⟩
    rw [hw, bindWrite_signature hempty v hlatch, regGet64_signatureSet]

end Sys2Proof.Machine
end

section
/-! SUPPORT. Launch entries (R184, R185, R543): what enabling and disabling one leave of its registers, its command and the tiles. -/

namespace Sys2Proof.Machine

theorem launchConfig_keeps (s : State) (p j : Nat) : (launchConfig s p j).regs = s.regs ∧ (launchConfig s p j).parts = s.parts :=
  ⟨same_of_law .regs (launchConfig_touch p j) rfl, same_of_law .parts (launchConfig_touch p j) rfl⟩

theorem regGet_launchConfig (s : State) (p j o : Nat) : regGet (launchConfig s p j) o = regGet s o :=
  regGet_congr (launchConfig_keeps s p j).1 o

theorem getRun_launchConfig (s : State) (p j k : Nat) : getRun (launchConfig s p j) p k = getRun s p k :=
  getRun_of_parts (launchConfig_keeps s p j).2 p k

/-- Word 6 of an entry written with VALID clear. -/
def validCleared (s : State) (p j : Nat) (v : Word) : State := regSet s (launchOff p j 6) (v &&& 0xFFFF7FFF)

theorem launchEnable_valid {s : State} {p j : Nat} (v : Word) (h : entryValid s p j = true) :
    launchEnable s p j v = recordErr s (ducOff p 0xC04) 2 := if_pos h

theorem launchEnable_cause {s : State} {p j c : Nat} {v : Word} (h : entryValid s p j = false)
    (hc : launchCause (validCleared s p j v) p j = some c) :
    launchEnable s p j v = launchConfig (recordErr (validCleared s p j v) (ducOff p 0xC00) (256 * j + c)) p j := by
  unfold launchEnable
  unfold validCleared at hc
  simp only [hc]
  exact if_neg (by rw [h]; exact Bool.false_ne_true)

/-- An entry on, with its first launch. -/
def entryOnAt (s : State) (p j : Nat) : State :=
  setRun s p j { getRun s p j with on := true, next := firstLaunch s p j, cutDone := false, cutBlocked := false }

theorem launchEnable_passed {s : State} {p j : Nat} {v : Word} (h : entryValid s p j = false)
    (hc : launchCause (validCleared s p j v) p j = none) :
    launchEnable s p j v = launchConfig (regSet (entryOnAt (validCleared s p j v) p j) (launchOff p j 6) (v ||| 0x8000)) p j := by
  unfold launchEnable
  unfold validCleared at hc
  simp only [hc]
  exact if_neg (by rw [h]; exact Bool.false_ne_true)

theorem regGet_recordErr_other {s : State} {off o : Nat} (h : off ≠ o) (cause : Nat) : regGet (recordErr s off cause) o = regGet s o :=
  iteInduction (motive := fun t : State => regGet t o = regGet s o) (fun _ => rfl) (fun _ => by rw [regGet_regSet, if_neg h])

theorem recordErr_first {s : State} {off : Nat} (h : wbit (regGet s off) 31 = false) (cause : Nat) :
    regGet (recordErr s off cause) off = put 1 31 ||| BitVec.ofNat 32 cause := by
  rw [recordErr, if_neg (by rw [h]; exact Bool.false_ne_true), regGet_regSet_same]

-- disabling (R543)

/-- A launch's reason to be skipped at once: its count has come. -/
def skipDue (s : State) (p j : Nat) : State :=
  if (getRun s p j).on && decide ((getRun s p j).next ≤ count s p) then skipLaunch s p j 7 else s

/-- What a disabled entry's launch becomes. -/
def launchEnded (s : State) (p j : Nat) : State :=
  match (getRun s p j).cmd with
  | some c => if elapsed s c = 0 then withdrawLaunch s p j c else skipDue s p j
  | none => skipDue s p j

/-- An entry off. -/
def entryOff (s : State) (p j : Nat) : State := setRun s p j { getRun s p j with on := false, cutDone := false, cutBlocked := false }

theorem launchDisable_valid {s : State} {p j : Nat} (v : Word) (h : entryValid s p j = true) :
    launchDisable s p j v = launchConfig (noPlanEntry (validCleared (entryOff (launchEnded s p j) p j) p j v) p j) p j :=
  if_neg (by rw [h]; decide)

theorem launchDisable_invalid {s : State} {p j : Nat} (v : Word) (h : entryValid s p j = false) :
    launchDisable s p j v = launchConfig (validCleared s p j v) p j := if_pos (by rw [h]; rfl)

theorem getRun_skipDue (s : State) (p j : Nat) : (getRun (skipDue s p j) p j).cmd = (getRun s p j).cmd :=
  iteInduction (motive := fun t : State => (getRun t p j).cmd = (getRun s p j).cmd) (fun _ => (skipLaunch_entry s p j 7).2.1) (fun _ => rfl)

/-- A register outside the contexts' and the engines' blocks, which no loss of a plan moves. -/
theorem regGet_noPlan {o : Nat} (ho : o < 0x200000) (s : State) (n : Nat) : regGet (noPlan s n) o = regGet s o := by
  have hflags (t : State) : regGet (nibFlags t n [nfPlanLost]) o = regGet t o := by
    rw [nibFlags_regs t n [nfPlanLost] o (.inl (by omega)), List.foldl_cons, List.foldl_nil,
      regGet_nibCount_other (by unfold nibOff; omega), regGet_regSet, if_neg (by unfold nibOff; omega)]
  refine iteInduction (motive := fun t : State => regGet t o = regGet s o) (fun _ => rfl) (fun _ => ?_)
  exact hflags _

theorem regGet_noPlanEntry {o : Nat} (ho : o < 0x200000) (s : State) (p j : Nat) : regGet (noPlanEntry s p j) o = regGet s o :=
  List.foldlRecOn _ noPlan (motive := fun t : State => regGet t o = regGet s o) rfl fun t h n _ => (regGet_noPlan ho t n).trans h

theorem getPart_noPlanEntry (s : State) (p j q : Nat) : getPart (noPlanEntry s p j) q = getPart s q :=
  getPart_congr (same_of_law .parts (noPlanEntry_touch p j) rfl) q

-- a launch withdrawn

theorem leaveFabric_holder (s : State) (p : Nat) (k : CmdKey) : (getPart (leaveFabric s p k) p).holder = (getPart s p).holder := by
  unfold leaveFabric
  split
  · rw [getPart_setPart_same]
  · rfl

theorem skipping_holder (s : State) (p j reason : Nat) : (getPart (skipping s p j reason) p).holder = (getPart s p).holder := by
  unfold skipping
  dsimp only
  rw [leaveFabric_holder, getPart_setPart_same, getPart_congr (same_of_law .parts (bltRecord_touch _ _ _ _) rfl)]
  rfl

theorem setRun_holder (s : State) (p j : Nat) (e : EntryRun) : (getPart (setRun s p j e) p).holder = (getPart s p).holder := by
  rw [getPart_setRun]
  rfl

/-- A skipped launch leaves the tiles to their holder. -/
theorem skipLaunch_holder (s : State) (p j reason : Nat) : (getPart (skipLaunch s p j reason) p).holder = (getPart s p).holder := by
  obtain ⟨u, rels, hu, hskip⟩ := skipLaunch_eq s p j reason
  rw [hskip, setRun_holder]
  obtain rfl | ⟨im, rfl⟩ := hu
  · exact skipping_holder s p j reason
  · exact (staleTargets_onlyInsts _ p im).holder.trans (skipping_holder s p j reason)

/-- The tiles of a withdrawn launch given back, and what it froze. -/
def launchUnfrozen (s : State) (p j : Nat) (c : Cmd) : State :=
  let s1 := if (getPart s p).holder = some (.entry j) then freeTiles s p else s
  c.before.foldl (fun t b =>
    match (getPart t p).inst? b.num with | some i => putInst t p (i.unfreeze b) | none => t) (dropPostings s1 p (.entry j))

/-- The entry of a withdrawn launch, back at its count. -/
def launchBack (s : State) (p j launch release : Nat) : State :=
  let e := getRun s p j
  setRun s p j { e with cmd := none, next := launch, rels := e.rels.filter (fun r => r.count ≠ release) }

theorem freeTiles_holder (s : State) (p : Nat) : (getPart (freeTiles s p) p).holder = none := by
  unfold freeTiles
  dsimp only
  rw [getPart_setPart_same]

theorem launchUnfrozen_holder (s : State) (p j : Nat) (c : Cmd) : (getPart (launchUnfrozen s p j c) p).holder ≠ some (.entry j) := by
  have hfold (t : State) : OnlyInsts p t (c.before.foldl (fun t b =>
      match (getPart t p).inst? b.num with | some i => putInst t p (i.unfreeze b) | none => t) t) := by
    refine foldl_keeps (OnlyInsts.refl p) OnlyInsts.trans _ (fun t b _ => ?_) t
    split
    · exact putInst_onlyInsts _ _ _ _
    · exact .refl p t
  have hdropped (t : State) : (getPart (dropPostings t p (.entry j)) p).holder = (getPart t p).holder := by rw [getPart_dropPostings]
  have hfreed : (getPart (if (getPart s p).holder = some (.entry j) then freeTiles s p else s) p).holder ≠ some (.entry j) :=
    iteInduction (motive := fun t : State => (getPart t p).holder ≠ some (.entry j))
      (fun _ => by rw [freeTiles_holder]; exact (nofun)) (fun h => h)
  rw [← hdropped, ← (hfold _).holder] at hfreed
  exact hfreed

theorem withdrawLaunch_eq (s : State) (p j : Nat) (c : Cmd) :
    withdrawLaunch s p j c =
    skipLaunch (launchBack (launchUnfrozen s p j c) p j c.launch (c.launch + entryRelease s p j)) p j 7 := rfl

/-- A withdrawn launch has no command, and does not hold the tiles. -/
theorem withdrawLaunch_spec (s : State) (p j : Nat) (c : Cmd) : (getRun (withdrawLaunch s p j c) p j).cmd = none
    ∧ (getPart (withdrawLaunch s p j c) p).holder ≠ some (.entry j) := by
  rw [withdrawLaunch_eq]
  refine ⟨(skipLaunch_entry _ p j 7).2.1.trans (congrArg EntryRun.cmd (getRun_setRun_same _ _ _ _)), ?_⟩
  rw [skipLaunch_holder, launchBack, setRun_holder]
  exact launchUnfrozen_holder s p j c

/-- What disabling a valid entry leaves, as the end of its launch has it. -/
theorem launchDisable_entry {s : State} {p j : Nat} (v : Word) (h : entryValid s p j = true) :
    (getRun (launchDisable s p j v) p j).on = false ∧ (getRun (launchDisable s p j v) p j).cmd = (getRun (launchEnded s p j) p j).cmd
      ∧ (getPart (launchDisable s p j v) p).holder = (getPart (launchEnded s p j) p).holder := by
  have hpart : getPart (launchDisable s p j v) p = getPart (entryOff (launchEnded s p j) p j) p := by
    rw [launchDisable_valid v h, getPart_congr (launchConfig_keeps _ p j).2, getPart_noPlanEntry]
    rfl
  have hrun : getRun (launchDisable s p j v) p j = _ := (getRun_congr (congrArg Part.entries hpart) j).trans (getRun_setRun_same _ _ _ _)
  refine ⟨by rw [hrun], by rw [hrun], ?_⟩
  rw [hpart, entryOff, setRun_holder]

theorem regGet_launchDisable {s : State} {p j : Nat} (hp : p < 16) (hj : j < 64) (v : Word) :
    regGet (launchDisable s p j v) (launchOff p j 6) = v &&& 0xFFFF7FFF := by
  cases hvalid : entryValid s p j with
  | false => rw [launchDisable_invalid v hvalid, regGet_launchConfig, validCleared, regGet_regSet_same]
  | true =>
    rw [launchDisable_valid v hvalid, regGet_launchConfig, regGet_noPlanEntry (by unfold launchOff ducOff; omega), validCleared,
      regGet_regSet_same]

theorem launchEnded_none {s : State} {p j : Nat} (h : (getRun s p j).cmd = none) : launchEnded s p j = skipDue s p j := by
  unfold launchEnded
  simp only [h]

theorem launchEnded_some {s : State} {p j : Nat} {c : Cmd} (h : (getRun s p j).cmd = some c) :
    launchEnded s p j = if elapsed s c = 0 then withdrawLaunch s p j c else skipDue s p j := by
  unfold launchEnded
  simp only [h]

/-- A disabled entry's command, when the launch is not withdrawn. -/
theorem launchDisable_keepsCmd {s : State} {p j : Nat} (v : Word) (h : launchEnded s p j = skipDue s p j) :
    (getRun (launchDisable s p j v) p j).cmd = (getRun s p j).cmd := by
  cases hvalid : entryValid s p j with
  | false => rw [launchDisable_invalid v hvalid, getRun_launchConfig]; rfl
  | true => rw [(launchDisable_entry v hvalid).2.1, h, getRun_skipDue]

/-- Settles O56: the three outcomes of an enable; what ends a disabled entry's launch, and how its command then reads. -/
theorem launchEntriesAreChecked : Obligations.LaunchEntriesAreChecked := by
  intro p j v s hphase off s1
  have hp := p.isLt
  have hj := j.isLt
  have hbits : wbit (v &&& 0xFFFF7FFF) 15 = false := by
    rw [wbit, BitVec.getLsbD_and]
    exact Bool.and_false _
  have henable : execLaunchEntryEnable p j v s = .next (launchEnable s p.val j.val v) := hostWrite_running _ hphase
  refine ⟨fun hvalid => ?_, fun c hvalid hc => ?_, fun hvalid hc => ?_, _, hostWrite_running (launchDisable s p.val j.val v) hphase,
    regGet_launchDisable hp hj v, fun hvalid => (launchDisable_entry v hvalid).1, fun hnone => ?_, fun c hcmd hold => ?_,
    fun c hvalid hcmd hnew => ?_⟩
  · exact henable.trans (congrArg _ (launchEnable_valid v hvalid))
  · have hne : ducOff p.val 0xC00 ≠ launchOff p.val j.val 6 := by unfold launchOff ducOff; omega
    refine ⟨_, henable, ?_⟩
    rw [launchEnable_cause hvalid hc, entryValid, regGet_launchConfig, regGet_recordErr_other hne, validCleared, regGet_regSet_same]
    refine ⟨hbits, ?_, fun hfirst => ?_⟩
    · rw [getRun_launchConfig, getRun_of_parts (same_of_law .parts (recordErr_touch _ _) rfl)]
      rfl
    · rw [regGet_launchConfig, recordErr_first (by rw [regGet_regSet, if_neg (Ne.symm hne)]; exact hfirst)]
  · refine ⟨_, henable, ?_⟩
    rw [launchEnable_passed hvalid hc, regGet_launchConfig, getRun_launchConfig]
    have hrun : getRun (regSet (entryOnAt (validCleared s p.val j.val v) p.val j.val) (launchOff p.val j.val 6) (v ||| 0x8000)) p.val j.val
        = _ := getRun_setRun_same _ _ _ _
    rw [hrun]
    exact ⟨regGet_regSet_same _ _ _, rfl, rfl⟩
  · rw [launchDisable_keepsCmd v (launchEnded_none hnone), hnone]
  · rw [launchDisable_keepsCmd v ((launchEnded_some hcmd).trans (if_neg hold)), hcmd]
  · obtain ⟨-, hrun, hholder⟩ := launchDisable_entry v hvalid
    rw [hrun, hholder, launchEnded_some hcmd, if_pos hnew]
    exact withdrawLaunch_spec s p.val j.val c

end Sys2Proof.Machine
end

section
/-! SUPPORT. Rings and contexts made and taken down (R346 to R349, R547, R548): each by the first check that fails. -/

namespace Sys2Proof.Machine

-- rings

/-- The ring a creation makes (R347, R348). -/
def madeRing (s : State) (c r : Nat) (v : Word) : Ring :=
  { Ring.reset with
    st := .enabled, base := regGet64 s (ringOff c r 0), log2 := fld v 28 24, gen := BitVec.ofNat 8 (fld v 23 16)
    lastGen := some (BitVec.ofNat 8 (fld v 23 16)), version := 1, headTick := s.lt }

theorem getRing_ringMake_same (s : State) (c r : Nat) (v : Word) : getRing (ringMake s c r v) c r = madeRing s c r v :=
  getRing_setRing_same _ _ _ _

theorem getRing_ringMake_other (s : State) {c r d q : Nat} (hr : r < 8) (hq : q < 8) (h : (d, q) ≠ (c, r)) (v : Word) :
    getRing (ringMake s c r v) d q = getRing s d q :=
  (getRing_setRing _ _ _ _ _ _ hr hq).trans (if_neg fun hc => h (Prod.ext hc.1.symm hc.2.symm))

theorem ringCreate_made {s : State} {c r : Nat} {v : Word} (h : ringCause s c r v = none)
    (hbus : (getRing s c r).st ≠ .lost ∨ busOk s (getCtx s c) = true) : ringCreate s c r v = ringMake s c r v := by
  unfold ringCreate
  simp only [h]
  exact if_pos hbus

/-- A LOST ring's function with its Bus Master Enable found set (assumption 91). -/
def busFound (s : State) (func : Nat) : State :=
  { (drawBit s).2 with bme := (drawBit s).2.bme ||| BitVec.ofNat 16 (2 ^ func) }

theorem ringCreate_lost {s : State} {c r : Nat} {v : Word} (h : ringCause s c r v = none) (hst : (getRing s c r).st = .lost)
    (hbus : busOk s (getCtx s c) = false) :
    ringCreate s c r v = if (drawBit s).1 then ringMake (busFound s (getCtx s c).func) c r v else (drawBit s).2 := by
  unfold ringCreate
  simp only [h]
  exact if_neg (by rw [hst, hbus]; simp)

theorem ringCreate_refused {s : State} {c r n : Nat} {v : Word} (h : ringCause s c r v = some n) :
    (getRing (ringCreate s c r v) c r).st = (getRing s c r).st ∧ (getRing (ringCreate s c r v) c r).items = (getRing s c r).items
      ∧ (ringCreate s c r v).regs = (ringRefuse s c r n).regs := by
  have hrefuse (m : Nat) : getRing (ringRefuse s c r m) c r = getRing s c r :=
    getRing_congr (same_of_law .rings (ringRefuse_touch c r m) rfl) c r
  by_cases hn : n = 5
  · subst hn
    have hstep : ringCreate s c r v = setRing (ringRefuse s c r 5) c r { getRing s c r with version := 0 } := by
      unfold ringCreate
      simp only [h]
    rw [hstep, getRing_setRing_same]
    exact ⟨rfl, rfl, rfl⟩
  · have hstep : ringCreate s c r v = ringRefuse s c r n := by
      unfold ringCreate
      simp only [h]
    rw [hstep, hrefuse]
    exact ⟨rfl, rfl, rfl⟩

theorem regGet_statRefuse {s : State} {off : Nat} (h : wbit (regGet s off) 28 = false) (cause : Nat) :
    regGet (statRefuse s off cause) off = put 1 28 ||| put cause 24 := by
  rw [statRefuse, if_neg (by rw [h]; exact Bool.false_ne_true), regGet_regSet_same]

theorem ringsComeAndGo : RingsComeAndGo := by
  intro c r v s hphase g made
  have hr := r.isLt
  have hcreate : execRingCreate c r v s = .next (ringCreate s c.val r.val v) := hostWrite_running _ hphase
  refine ⟨fun hcause hbus => ?_, fun hcause hst hbus => ?_, fun n hcause => ?_, fun hst => ?_, fun hst hitems hwaits => ?_⟩
  · refine ⟨_, hcreate, ?_⟩
    rw [ringCreate_made hcause hbus]
    exact ⟨getRing_ringMake_same s c.val r.val v, fun d q hq h => getRing_ringMake_other s hr hq h v⟩
  · refine ⟨_, hcreate, ?_⟩
    rw [ringCreate_lost hcause hst hbus]
    exact iteInduction (motive := fun t : State => getRing t c.val r.val = made ∨ getRing t c.val r.val = g)
      (fun _ => .inl (getRing_ringMake_same _ c.val r.val v)) (fun _ => .inr rfl)
  · obtain ⟨hst, hitems, hregs⟩ := ringCreate_refused hcause
    refine ⟨_, hcreate, hst, hitems, fun hfirst => ?_⟩
    rw [regGet_congr hregs]
    exact regGet_statRefuse hfirst n
  · have hdrain : ringDisable s c.val r.val = setRing s c.val r.val { g with st := .draining } := if_pos hst
    exact (hostWrite_running (ringDisable s c.val r.val) hphase).trans (congrArg _ hdrain)
  · exact if_pos ⟨hst, hitems, hwaits⟩

-- contexts

/-- ENABLE set in HQ_CTX_CFG leaves its fields. -/
theorem fld_or_enable (v : Word) : fld (v ||| 0x80000000) 28 25 = fld v 28 25 ∧ fld (v ||| 0x80000000) 24 20 = fld v 24 20 := by
  simp only [fld_eq_extract]
  refine ⟨congrArg BitVec.toNat (BitVec.eq_of_getLsbD_eq fun i hi => ?_), congrArg BitVec.toNat (BitVec.eq_of_getLsbD_eq fun i hi => ?_)⟩
  · interval_cases i <;> simp
  · interval_cases i <;> simp

/-- The context a creation makes on a doorbell page (R346). -/
def madeCtx (s : State) (c func part page : Nat) : Ctx :=
  let w := regGet s (ctxOff c 0x28)
  { Ctx.reset with
    on := true, func := func, part := part, page := page, cqBase := regGet64 s (ctxOff c 0x20), cqLog2 := fld w 28 24
    cqGen := BitVec.ofNat 8 (fld w 23 16), cqLastGen := some (BitVec.ofNat 8 (fld w 23 16)) }

/-- A context on its page, its completion block judged. -/
def ctxOnPage (s : State) (c : Nat) (v : Word) (page : Nat) : State :=
  match cqCause s c (fld v 24 20) with
  | some n => ctxRefuse (statRefuse s (ctxOff c 0x30) n) c 3
  | none => setCtx (regSet s (ctxOff c 0) (v &&& 0x9FF00000)) c (madeCtx s c (fld v 24 20) (fld v 28 25) page)

section
variable {s : State} {c : Nat} {v : Word}

theorem ctxCreate_on (hon : (getCtx s c).on = true) : ctxCreate s c v = ctxRefuse s c 5 := if_pos hon

theorem ctxCreate_early (hoff : (getCtx s c).on = false) (hready : isReady s = false) : ctxCreate s c v = ctxRefuse s c 6 :=
  (if_neg (by rw [hoff]; exact Bool.false_ne_true)).trans (if_pos (by rw [hready]; rfl))

variable (hoff : (getCtx s c).on = false) (hready : isReady s = true)
include hoff hready

theorem ctxCreate_noPart (hpart : (getPart s (fld v 28 25)).on = false) : ctxCreate s c v = ctxRefuse s c 1 :=
  (if_neg (by rw [hoff]; exact Bool.false_ne_true)).trans
    ((if_neg (by rw [hready]; decide)).trans (if_pos (by rw [hpart]; rfl)))

theorem ctxCreate_noPage (hpart : (getPart s (fld v 28 25)).on = true)
    (hpage : (if 16 < fld v 24 20 then none else freePage s c (fld v 24 20)) = none) : ctxCreate s c v = ctxRefuse s c 2 := by
  unfold ctxCreate
  simp only [hoff, hready, hpart, hpage]
  rfl

theorem ctxCreate_page (hpart : (getPart s (fld v 28 25)).on = true) {page : Nat} (hfunc : fld v 24 20 ≤ 16)
    (hpage : freePage s c (fld v 24 20) = some page) : ctxCreate s c v = ctxOnPage s c v page := by
  have hfree : (if 16 < fld v 24 20 then none else freePage s c (fld v 24 20)) = some page := by rw [if_neg (by omega), hpage]
  unfold ctxCreate
  simp only [hoff, hready, hpart, hfree]
  rfl

end

theorem ctxOnPage_made {s : State} {c page : Nat} {v : Word} (h : cqCause s c (fld v 24 20) = none) : ctxOnPage s c v page
    = setCtx (regSet s (ctxOff c 0) (v &&& 0x9FF00000)) c (madeCtx s c (fld v 24 20) (fld v 28 25) page) := by
  unfold ctxOnPage
  simp only [h]

theorem ctxOnPage_refused {s : State} {c page n : Nat} {v : Word} (h : cqCause s c (fld v 24 20) = some n) :
    ctxOnPage s c v page = ctxRefuse (statRefuse s (ctxOff c 0x30) n) c 3 := by
  unfold ctxOnPage
  simp only [h]

/-- A context taken down. -/
def ctxGone (s : State) (c : Nat) : State :=
  setCtx (regSet s (ctxOff c 0) (regGet s (ctxOff c 0) &&& 0x7FFFFFFF)) c { Ctx.reset with cqLastGen := (getCtx s c).cqLastGen }

/-- A submission ring of the context is not UNCREATED. -/
def ringsLeft (s : State) (c : Nat) : Bool := (upTo 8).any (fun r => (getRing s c r).st ≠ .uncreated)

theorem ringsLeft_iff (s : State) (c : Nat) : ringsLeft s c = true ↔ ∃ r < 8, (getRing s c r).st ≠ .uncreated := by
  simp [ringsLeft, upTo]

theorem ctxDestroy_of_on {s : State} {c : Nat} (h : (getCtx s c).on = true) :
    ctxDestroy s c = if ringsLeft s c then ctxRefuse s c 4 else ctxGone s c := if_neg (by rw [h]; decide)

theorem contextsComeAndGo : ContextsComeAndGo := by
  intro c v s hphase x part func w
  obtain ⟨hpartv, hfuncv⟩ := fld_or_enable v
  have hcreate : execContextCreate c v s = .next (ctxCreate s c.val (v ||| 0x80000000)) := hostWrite_running _ hphase
  have hdestroy : execContextDestroy c s = .next (ctxDestroy s c.val) := hostWrite_running _ hphase
  refine ⟨fun page hoff hready hpart hfunc hpage hcq => ?_, fun hon => ?_, fun hoff hready => ?_, fun hoff hready hpart => ?_,
    fun hoff hready hpart hfunc => ?_, fun n hoff hready hpart hfunc hpage hcq => ?_, fun hon hrings => ?_, fun r hr hon hst => ?_⟩
  · refine ⟨_, hcreate, ?_⟩
    rw [ctxCreate_page hoff hready (by rw [hpartv]; exact hpart) (by rw [hfuncv]; exact hfunc) (by rw [hfuncv]; exact hpage),
      ctxOnPage_made (by rw [hfuncv]; exact hcq), hpartv, hfuncv]
    exact ⟨getCtx_setCtx_same _ _ _, rfl, fun d hd => (getCtx_setCtx _ _ _ _).trans (if_neg (Ne.symm hd))⟩
  · exact hcreate.trans (congrArg _ (ctxCreate_on hon))
  · exact hcreate.trans (congrArg _ (ctxCreate_early hoff hready))
  · exact hcreate.trans (congrArg _ (ctxCreate_noPart hoff hready (by rw [hpartv]; exact hpart)))
  · refine hcreate.trans (congrArg _ (ctxCreate_noPage hoff hready (by rw [hpartv]; exact hpart) ?_))
    rw [hfuncv]
    exact if_pos hfunc
  · obtain ⟨page, hsome⟩ := Option.isSome_iff_exists.1 hpage
    refine hcreate.trans (congrArg _ ?_)
    rw [ctxCreate_page hoff hready (by rw [hpartv]; exact hpart) (by rw [hfuncv]; exact hfunc) (by rw [hfuncv]; exact hsome)]
    exact ctxOnPage_refused (by rw [hfuncv]; exact hcq)
  · refine ⟨_, hdestroy, ?_⟩
    have hnone : ¬ ringsLeft s c.val = true := fun h => by
      obtain ⟨r, hr, hst⟩ := (ringsLeft_iff s c.val).1 h
      exact hst (hrings r hr)
    rw [ctxDestroy_of_on hon, if_neg hnone]
    refine ⟨getCtx_setCtx_same _ _ _, ?_, fun d hd => (getCtx_setCtx _ _ _ _).trans (if_neg (Ne.symm hd))⟩
    have hcfg : regGet (ctxGone s c.val) (ctxOff c.val 0) = regGet s (ctxOff c.val 0) &&& 0x7FFFFFFF := regGet_regSet_same _ _ _
    rw [hcfg, wbit, BitVec.getLsbD_and]
    exact Bool.and_false _
  · exact hdestroy.trans (congrArg _ ((ctxDestroy_of_on hon).trans (if_pos ((ringsLeft_iff s c.val).2 ⟨r, hr, hst⟩))))

/-- Settles O57: rings by the checks of R547, contexts by those of R548. -/
theorem ringsAndContextsComeAndGo : Obligations.RingsAndContextsComeAndGo := ⟨ringsComeAndGo, contextsComeAndGo⟩

end Sys2Proof.Machine
end

section
/-! SUPPORT. Why the Blotter's trigger is not proved as stated (R505, R506): the MARK record that a trigger shares is any of its tick in the
buffer, not the last record alone. -/

namespace Sys2Proof.Machine

/-- In TRIGGER with BLT_TRIG's cause enabled: a trigger's MARK of this tick is buffered, and a record of another kind behind it. -/
def markedBefore : State :=
  { State.reset with
    regs := [(bltOff 0x30, 4)]
    blt := { Blotter.reset with
      mode := .trigger, buf := [⟨kMark, 0, 0, 0, false, false, [1, 0, 0]⟩, ⟨kTime, 0, 1, 0, false, false, []⟩] } }

/-- The trigger joins the buffered MARK, and no record is added. -/
theorem trigger_of_markedBefore :
    markedBefore.blt.buf.length = 2 ∧ (answered markedBefore (execBltTrig markedBefore)).blt.buf.length = 2 := by decide +kernel

theorem bltRoom_markedBefore : BltRoom markedBefore :=
  ⟨by decide +kernel, by decide +kernel, by decide +kernel, by decide +kernel, by decide +kernel⟩

/-- A record written lengthens the buffer. -/
theorem length_lt_of_recorded {s t : State} {kind src : Nat} {payload : List Word} (h : Recorded s t kind src payload) :
    s.blt.buf.length < t.blt.buf.length := by
  obtain ⟨pad, r, hbuf, -⟩ := h
  rw [hbuf, List.length_append, List.length_append, List.length_singleton]
  omega

/-- Refutes O59: in `markedBefore` the trigger's MARK shares the record of its tick that stands before the last, and writes none. -/
theorem not_blotterRecords : ¬ Obligations.BlotterRecords := by
  intro h
  obtain ⟨-, -, htrigger, -⟩ := h markedBefore (by decide +kernel)
  obtain ⟨t, hrun, hrecorded, -⟩ := htrigger bltRoom_markedBefore rfl (by decide +kernel) fun r hlast hkind => by
    have hr : r = ⟨kTime, 0, 1, 0, false, false, []⟩ := (Option.some.inj hlast).symm
    rw [hr] at hkind
    exact absurd hkind (by decide)
  have hexec : execBltTrig markedBefore = .next t := hrun
  obtain ⟨hbefore, hafter⟩ := trigger_of_markedBefore
  have hlt := length_lt_of_recorded hrecorded
  rw [hexec] at hafter
  exact absurd (hbefore ▸ hlt) (by rw [show t.blt.buf.length = 2 from hafter]; decide)

end Sys2Proof.Machine
end

section
/-! SUPPORT. Hallmark (R486, R488, R492, R493, R495, R497, R498): its requests by their branches, the generator's failures, and that records of
the Blotter leave running exports alone. -/

namespace Sys2Proof.Machine

-- records leave exports and replays alone (R509)

/-- What the writing of records leaves of the Blotter. -/
def Blotter.sessions (b : Blotter) : Option (Word × Word) × Replay := (b.exporting, b.replay)

/-- Running exports and replays are left alone. -/
def KeepsSessions (s t : State) : Prop := t.blt.sessions = s.blt.sessions

theorem KeepsSessions.refl (s : State) : KeepsSessions s s := rfl

theorem KeepsSessions.trans {s t u : State} (h : KeepsSessions s t) (g : KeepsSessions t u) : KeepsSessions s u := Eq.trans g h

theorem KeepsSessions.of_eq {s t : State} (h : t.blt = s.blt) : KeepsSessions s t := congrArg Blotter.sessions h

theorem KeepsSessions.exporting {s t : State} (h : KeepsSessions s t) : t.blt.exporting = s.blt.exporting := congrArg Prod.fst h

theorem bltPlace_sessions (b : Blotter) (r : BRec) : (bltPlace b r).sessions = b.sessions := by
  unfold bltPlace
  dsimp only
  split <;> rfl

theorem bltWrite_keepsSessions (s : State) (kind src tick : Nat) (payload : List Word) :
    KeepsSessions s (bltWrite s kind src tick payload) := by
  refine iteInduction (motive := KeepsSessions s) (fun _ => rfl) (fun _ => ?_)
  refine iteInduction (motive := KeepsSessions s) (fun _ => rfl) (fun _ => ?_)
  exact List.foldlRecOn _ bltPlace (motive := fun b => b.sessions = s.blt.sessions) rfl fun b h r _ => (bltPlace_sessions b r).trans h

theorem bltRecord_keepsSessions (s : State) (kind src tick : Nat) (payload : List Word) :
    KeepsSessions s (bltRecord s kind src tick payload) :=
  iteInduction (motive := KeepsSessions s) (fun _ => bltWrite_keepsSessions s kind src tick payload) (fun _ => rfl)

theorem raiseEvent_keepsSessions (s : State) (ev : Nat) (p : Option Nat) (sub : Nat) (a b d : Word) (e : Word64) :
    KeepsSessions s (raiseEvent s ev p sub a b d e) := by
  refine foldl_keeps KeepsSessions.refl KeepsSessions.trans _ (fun t c _ => ?_) s
  have hwrite : KeepsSessions t (writeOrDrop t c (eventSlot ev sub a b d e) []) :=
    .of_eq (same_of_law .blt (writeOrDrop_touch c (eventSlot ev sub a b d e) []) rfl)
  refine iteInduction (fun _ => ?_) (fun _ => .refl t)
  exact iteInduction (fun _ => hwrite) (fun _ => hwrite.trans (bltRecord_keepsSessions _ _ _ _ _))

theorem healthEvent_keepsSessions (s : State) (code kind index a2 a3 : Nat) : KeepsSessions s (healthEvent s code kind index a2 a3) :=
  raiseEvent_keepsSessions s _ _ _ _ _ _ _

theorem noteFailure_keepsSessions (s : State) : KeepsSessions s (noteFailure s) := by
  rw [noteFailure_eq]
  exact (KeepsSessions.of_eq (t := failCounted s) rfl).trans (healthEvent_keepsSessions _ _ _ _ _ _)

theorem noteFailure_exporting (s : State) : (noteFailure s).blt.exporting = s.blt.exporting :=
  (noteFailure_keepsSessions s).exporting

theorem drawWord_hmk (s : State) : (drawWord s).2.hmk = s.hmk := rfl

-- owner keys and versions (R486, R488, R495)

theorem revoke_takes {s : State} {v : Word} (hkey : fld v 31 24 = 0xC3) (hother : (bootedSlot s).sealedBy ≠ fld v 1 0) :
    revoke s v = { s with fuse := { s.fuse with revoked := s.fuse.revoked ||| BitVec.ofNat 4 (2 ^ fld v 1 0) } } :=
  (if_neg (not_not_intro hkey)).trans (if_neg hother)

theorem getLsbD_or_bit (w : BitVec 4) (j : Nat) {k : Nat} (hk : k < 4) :
    (w ||| BitVec.ofNat 4 (2 ^ j)).getLsbD k = (w.getLsbD k || decide (k = j)) := by
  rw [BitVec.getLsbD_or, BitVec.getLsbD_ofNat]
  have hbit : (2 ^ j).testBit k = decide (k = j) := by
    rw [Nat.testBit_two_pow]
    exact decide_eq_decide.2 eq_comm
  rw [hbit, decide_eq_true hk, Bool.true_and]

-- the entropy source (R492)

/-- The count of failures after one more. -/
theorem min_failures (n : Nat) : min 2 (n + 1) = if n = 0 then 1 else 2 := by
  split <;> omega

theorem noteFailure_stops (s : State) :
    (noteFailure s).hmk = { s.hmk with fails := if s.hmk.fails = 0 then 1 else 2, drbg := Drbg.reset } := by
  rw [noteFailure_hmk, min_failures]

theorem noteFailure_fuse (s : State) : (noteFailure s).fuse = s.fuse := by
  rw [noteFailure_eq]
  exact same_of_law (s := failCounted s) .fuse (healthEvent_touch _ _ _ _ _) rfl

theorem trngHealthFail_idle {s : State} (h : s.blt.exporting = none) : execTrngHealthFail s = .next (noteFailure s) := by
  unfold execTrngHealthFail
  simp only [noteFailure_exporting, h]

theorem trngHealthFail_exporting {s : State} {f l : Word} (h : s.blt.exporting = some (f, l)) : ∃ n,
    execTrngHealthFail s = .next (writeExport (drawWord (noteFailure s)).2 f l n 1) := by
  unfold execTrngHealthFail
  simp only [noteFailure_exporting, h]
  exact ⟨_, rfl⟩

/-- The end of exports: the result, and nothing left of the draw. -/
theorem writeExport_spec (s : State) (f l : Word) (chunks cause : Nat) :
    (writeExport s f l chunks cause).hmk = { s.hmk with exportDraw := none }
      ∧ (writeExport s f l chunks cause).blt = { s.blt with exporting := none }
      ∧ (writeExport s f l chunks cause).mailbox = s.mailbox
      ∧ regGet (writeExport s f l chunks cause) (bltOff 0x98)
        = put 1 31 ||| put (min chunks (layChunks (exportRecs s f l)).length) 8 ||| BitVec.ofNat 32 cause := by
  refine ⟨rfl, rfl, rfl, ?_⟩
  unfold writeExport
  dsimp only
  rw [regGet_regSet_same, List.length_map, List.length_zipIdx, List.length_take]

/-- The result of exports that fail reads VALID and cause 1. -/
theorem failed_result (n : Nat) : wbit (put 1 31 ||| put n 8 ||| BitVec.ofNat 32 1) 31 = true
    ∧ fld (put 1 31 ||| put n 8 ||| BitVec.ofNat 32 1) 3 0 = 1 := by
  have hput : put n 8 = BitVec.ofNat 32 n <<< 8 := by
    apply BitVec.eq_of_toNat_eq
    simp [put, Nat.shiftLeft_eq]
  rw [hput, show put 1 31 = 0x80000000#32 from rfl, fld_eq_extract]
  refine ⟨by simp [wbit], congrArg BitVec.toNat (BitVec.eq_of_getLsbD_eq (y := 1#4) fun i hi => ?_)⟩
  interval_cases i <;> simp

theorem keysVersionsAndEntropy : KeysVersionsAndEntropy := by
  intro s hphase b
  refine ⟨fun v => ⟨fun hkey => ?_, fun hkey hown => ?_, fun hkey hother => ?_⟩, fun hsecured => ?_, fun hother => ?_, ?_, fun hnone => ?_,
    fun r hexp => ?_⟩
  · have hkept : revoke s v = s := if_pos hkey
    exact (hostWrite_running (revoke s v) hphase).trans (congrArg _ hkept)
  · have hrefused : revoke s v = recordErr s (hmkOff 0x04) 7 := (if_neg (not_not_intro hkey)).trans (if_pos hown)
    exact (hostWrite_running (revoke s v) hphase).trans (congrArg _ hrefused)
  · refine ⟨_, hostWrite_running (revoke s v) hphase, ?_⟩
    rw [revoke_takes hkey hother]
    exact ⟨rfl, fun k hk => getLsbD_or_bit _ (fld v 1 0) hk⟩
  · have hraised : raiseSvn s = { s with fuse := { s.fuse with
        fwSvn := max s.fuse.fwSvn b.fwSvn, cfgSvn := max s.fuse.cfgSvn b.cfgSvn } } := if_pos hsecured
    exact (hostWrite_running (raiseSvn s) hphase).trans (congrArg _ hraised)
  · have hkept : raiseSvn s = s := if_neg hother
    exact (hostWrite_running (raiseSvn s) hphase).trans (congrArg _ hkept)
  · exact hostWrite_running (loadRecipient s) hphase
  · have hrun : execTrngHealthFail s = .next (noteFailure s) := trngHealthFail_idle hnone
    exact ⟨noteFailure s, hrun, noteFailure_stops s, noteFailure_fuse s⟩
  · obtain ⟨n, hrun⟩ := trngHealthFail_exporting hexp
    obtain ⟨hhmk, hblt, -, hreg⟩ := writeExport_spec (drawWord (noteFailure s)).2 r.1 r.2 n 1
    refine ⟨_, hrun, ?_, congrArg Blotter.exporting hblt, ?_⟩
    · rw [hhmk, drawWord_hmk, noteFailure_stops]
    · rw [hreg]
      exact failed_result _

-- attestation (R493)

/-- An attestation request as its registers hold it. -/
def attRequest (s : State) (h : HostPort) : AttReq :=
  ⟨decide (h = .xspi), (regGet64 s (hmkOff 0x100)).toNat, (upTo 16).map (fun k => regGet s (hmkOff (0xC0 + 4 * k)))⟩

theorem attest_taken {s : State} (h : HostPort) (hid : (identityClass s).isSome = true) (hfree : s.hmk.busy = none) :
    attest s h = { s with hmk := { s.hmk with busy := some (attRequest s h), done := false } } :=
  (if_neg (by rw [Option.isNone_iff_eq_none]; exact fun hn => by rw [hn] at hid; cases hid)).trans
    (if_neg (by rw [hfree]; exact Bool.false_ne_true))

theorem attest_busy {s : State} (h : HostPort) (hid : (identityClass s).isSome = true) (hbusy : s.hmk.busy ≠ none) :
    attest s h = recordErr s (hmkOff 0x04) 2 :=
  (if_neg (by rw [Option.isNone_iff_eq_none]; exact fun hn => by rw [hn] at hid; cases hid)).trans
    (if_pos (Option.isSome_iff_ne_none.2 hbusy))

theorem attest_nobody {s : State} (h : HostPort) (hid : identityClass s = none) : attest s h = recordErr s (hmkOff 0x04) 3 :=
  if_pos (by rw [hid]; rfl)

/-- A report stored where its request asked. -/
def attested (s : State) (q : AttReq) : State :=
  let s1 := portStore s q.xspi q.addr (report s q.nonce)
  { s1 with hmk := { s1.hmk with busy := none, done := true } }

theorem execAttestationDone_runs {s : State} {q : AttReq} (h : s.hmk.busy = some q) : execAttestationDone s = .next (attested s q) := by
  unfold execAttestationDone
  simp only [h]
  rfl

theorem attested_spec (s : State) (q : AttReq) : (attested s q).hmk = { s.hmk with busy := none, done := true }
    ∧ (q.xspi = false → (attested s q).host = memPutBytes s.host q.addr (report s q.nonce) ∧ (attested s q).mailbox = s.mailbox)
    ∧ (q.xspi = true → (attested s q).mailbox = memPutBytes s.mailbox q.addr ((report s q.nonce).take (0x40000 - q.addr))
      ∧ (attested s q).host = s.host) := by
  unfold attested
  generalize report s q.nonce = bs
  cases q.xspi with
  | false => exact ⟨rfl, fun _ => ⟨rfl, rfl⟩, fun h => (by cases h)⟩
  | true => exact ⟨rfl, fun h => (by cases h), fun _ => ⟨rfl, rfl⟩⟩

-- challenges (R492, R497)

theorem challenge_eq (s : State) : challenge s = if trngFailed (seedDrbg s) then hmkRefuse (seedDrbg s) 1
    else { seedDrbg s with hmk := { (seedDrbg s).hmk with
      drbg := (seedDrbg s).hmk.drbg.generate.2, challenge := some (seedDrbg s).hmk.drbg.generate.1.toNat } } := by
  unfold challenge
  rw [freshBits_eq]
  by_cases h : trngFailed (seedDrbg s) = true
  · rw [if_pos h, if_pos h]
  · rw [if_neg h, if_neg h]
    rfl

theorem trngFailed_iff (s : State) : trngFailed s = true ↔ 2 ≤ s.hmk.fails := decide_eq_true_iff

theorem seedDrbg_ready {s : State} (h : s.hmk.drbg.ready = true) : seedDrbg s = s := if_pos (by rw [h, Bool.or_true])

theorem seedDrbg_failed {s : State} (h : trngFailed s = true) : seedDrbg s = s := if_pos (by rw [h, Bool.true_or])

/-- A generator that needs a seed draws one window, and a second when the first fails. -/
theorem seedDrbg_seeds {s : State} (hworks : s.hmk.fails < 2) (hready : s.hmk.drbg.ready = false) :
    seedDrbg s = if trngFailed (seedOnce s) || (seedOnce s).hmk.drbg.ready then seedOnce s else seedOnce (seedOnce s) :=
  if_neg (by
    rw [hready, Bool.or_false, trngFailed_iff]
    omega)

/-- The generator seeded with a window that passed. -/
def seeded (s : State) : State :=
  { windowDrawn s with hmk := { s.hmk with drbg := s.hmk.drbg.seed (Config.rawBits s.freeCtr) } }

theorem seedDrbg_passed {s : State} (hworks : s.hmk.fails < 2) (hready : s.hmk.drbg.ready = false)
    (hok : healthOk (Config.rawBits s.freeCtr) = true) : seedDrbg s = seeded s := by
  have honce : seedOnce s = seeded s := by rw [seedOnce_eq, if_pos hok]; rfl
  rw [seedDrbg_seeds hworks hready, honce]
  exact if_pos (by rw [show (seeded s).hmk.drbg.ready = true from Drbg.seed_ready _ _, Bool.or_true])

theorem fails_le_seedOnce {s : State} (hworks : s.hmk.fails ≤ 2) : s.hmk.fails ≤ (seedOnce s).hmk.fails := by
  obtain ⟨h, -⟩ | h := seedOnce_cases s <;> omega

/-- A window that fails is counted, whatever the restart brings. -/
theorem fails_lt_seedDrbg {s : State} (hworks : s.hmk.fails < 2) (hready : s.hmk.drbg.ready = false)
    (hbad : ¬ healthOk (Config.rawBits s.freeCtr) = true) : s.hmk.fails < (seedDrbg s).hmk.fails := by
  have honce : (seedOnce s).hmk.fails = min 2 (s.hmk.fails + 1) := by
    rw [seedOnce_eq, if_neg hbad, noteFailure_hmk]
    rfl
  have htwice := fails_le_seedOnce (s := seedOnce s) (by omega)
  rw [seedDrbg_seeds hworks hready]
  refine iteInduction (motive := fun t : State => s.hmk.fails < t.hmk.fails) (fun _ => ?_) (fun _ => ?_) <;> omega

theorem challenge_fails (s : State) : (challenge s).hmk.fails = (seedDrbg s).hmk.fails := by
  rw [challenge_eq]
  exact iteInduction (motive := fun t : State => t.hmk.fails = (seedDrbg s).hmk.fails)
    (fun _ => congrArg Hallmark.fails (same_of_law .hmk (hmkRefuse_touch 1) rfl)) (fun _ => rfl)

/-- A generator seeded and used once for a challenge. -/
def challenged (s : State) (g : Drbg) : State :=
  { s with freeCtr := s.freeCtr + 1, hmk := { s.hmk with drbg := g.generate.2, challenge := some g.generate.1.toNat } }

theorem challenge_seeded {s : State} (hworks : s.hmk.fails < 2) (hready : s.hmk.drbg.ready = false)
    (hok : healthOk (Config.rawBits s.freeCtr) = true) :
    challenge s = challenged s (s.hmk.drbg.seed (Config.rawBits s.freeCtr)) := by
  rw [challenge_eq, seedDrbg_passed hworks hready hok, if_neg (by rw [trngFailed_iff]; exact Nat.not_le.2 hworks)]
  rfl

/-- A challenge read with a generator whose seed fails: a failure is counted. -/
theorem challenge_unseeded {s : State} (hworks : s.hmk.fails < 2) (hready : s.hmk.drbg.ready = false)
    (hbad : ¬ healthOk (Config.rawBits s.freeCtr) = true) : s.hmk.fails < (challenge s).hmk.fails := by
  rw [challenge_fails]
  exact fails_lt_seedDrbg hworks hready hbad

-- tokens (R497, R498)

/-- The token a request names. -/
def tokenAt (s : State) (h : HostPort) : Token :=
  let m := portMem s (decide (h = .xspi))
  let a := (regGet64 s (hmkOff 0x80)).toNat
  ⟨memBytes m a 96, memBytes m (a + 96) 144⟩

theorem portMem_of_port (s : State) (h : HostPort) : portMem s (decide (h = .xspi)) = if h = .xspi then s.mailbox else s.host := by
  cases h <;> rfl

theorem submitToken_eq (s : State) (h : HostPort) : submitToken s h =
    if (tokenAt s h).kind = 1 then lifecycleToken s (tokenAt s h)
    else if (tokenAt s h).kind = 2 then debugToken s (tokenAt s h)
    else hmkRefuse s 5 := rfl

section
variable {s : State} {k : Token}

theorem lifecycleToken_stranger (h : tokenBody s k = false) : lifecycleToken s k = recordErr s (hmkOff 0x04) 5 :=
  if_pos (by rw [h]; rfl)

variable (hbody : tokenBody s k = true)
include hbody

theorem lifecycleToken_noTransition (h : transitionKeys s k.target = none) : lifecycleToken s k = recordErr s (hmkOff 0x04) 6 := by
  unfold lifecycleToken
  simp only [hbody, h]
  rfl

/-- The intent of a lifecycle token fused. -/
def intentFused (s : State) (target : Nat) : State := { s with fuse := { s.fuse with intent := some target } }

theorem lifecycleToken_judged {ks : List Nat} (h : transitionKeys s k.target = some ks) : lifecycleToken s k =
    if sealBy ks k.body k.sealed then assertCold (intentFused s k.target) bLifecycle else recordErr s (hmkOff 0x04) 5 := by
  unfold lifecycleToken
  simp only [hbody, h]
  rfl

theorem debugToken_judged (htarget : k.target = 1 ∨ k.target = 2) : debugToken s k =
    if sealVerifies s .debugToken k.body k.sealed then { s with hmk := { s.hmk with debugOpen := k.target } } else rejectDebug s := by
  have htarget : (decide (k.target = 1) || decide (k.target = 2)) = true := by
    rcases htarget with h | h <;> simp [h]
  unfold debugToken
  simp only [hbody, htarget, Bool.true_and]

end

theorem assertCold_intentFused (s : State) (target : Nat) :
    (assertCold (intentFused s target) bLifecycle).rst.phase = .coldReset
      ∧ (assertCold (intentFused s target) bLifecycle).rst.cold.getLsbD 4 = true
      ∧ (assertCold (intentFused s target) bLifecycle).tu.t = 0
      ∧ (assertCold (intentFused s target) bLifecycle).fuse = { s.fuse with intent := some target } := by
  have hcold : (assertCold (intentFused s target) bLifecycle).rst.cold = s.rst.cold ||| BitVec.ofNat 6 (2 ^ 4) := rfl
  refine ⟨rfl, ?_, rfl, rfl⟩
  rw [hcold, BitVec.getLsbD_or]
  exact Bool.or_true _

/-- The third byte of a word replaced reads back. -/
theorem fld_replaceThird (w : Word) {x : Nat} (hx : x < 256) : fld ((w &&& ~~~(put 0xFF 16)) ||| put x 16) 23 16 = x := by
  obtain ⟨b, rfl⟩ : ∃ b : BitVec 8, x = b.toNat := ⟨BitVec.ofNat 8 x, (Nat.mod_eq_of_lt hx).symm⟩
  have hput : put b.toNat 16 = b.setWidth 32 <<< 16 := by
    apply BitVec.eq_of_toNat_eq
    simp [put, Nat.shiftLeft_eq]
  rw [hput, show put 0xFF 16 = 0xFF0000#32 from rfl, fld_eq_extract]
  refine congrArg BitVec.toNat (BitVec.eq_of_getLsbD_eq fun i hi => ?_)
  interval_cases i <;> simp

/-- A rejected debug token outside Secured is counted. -/
theorem rejectDebug_spec {s : State} (h : s.fuse.lifecycle ≠ 2) : (rejectDebug s).hmk = s.hmk
    ∧ fld (regGet (rejectDebug s) (hmkOff 0x0C)) 23 16 = satInc 8 (fld (regGet s (hmkOff 0x0C)) 23 16) := by
  have hlife : (hmkRefuse s 5).fuse.lifecycle ≠ 2 := by
    rwa [show (hmkRefuse s 5).fuse = s.fuse from same_of_law .fuse (hmkRefuse_touch 5) rfl]
  have hkept : rejectDebug s = countTamper (hmkRefuse s 5) 16 :=
    iteInduction (motive := fun t : State => t = countTamper (hmkRefuse s 5) 16) (fun _ => tampered_counts hlife 16) (fun _ => rfl)
  have hother : regGet (hmkRefuse s 5) (hmkOff 0x0C) = regGet s (hmkOff 0x0C) := regGet_recordErr_other (by decide) 5
  have hhmk : (hmkRefuse s 5).hmk = s.hmk := same_of_law .hmk (hmkRefuse_touch 5) rfl
  rw [hkept]
  refine ⟨hhmk, ?_⟩
  rw [regGet_countTamper, hother]
  exact fld_replaceThird _ (satInc_byte _)

theorem attestationAndTokens : AttestationAndTokens := by
  intro h s hphase m a k g raw
  have hatt : execHmkAttCmd h s = .next (attest s h) := hostWrite_running _ hphase
  have htok : execHmkTokenCmd h s = .next (submitToken s h) := hostWrite_running _ hphase
  have hchal : execHmkChalRead s = .next (challenge s) := rfl
  have hk : tokenAt s h = k := by
    unfold tokenAt
    rw [portMem_of_port]
  have hkind1 (h1 : k.kind = 1) : submitToken s h = lifecycleToken s k := by rw [submitToken_eq, hk, if_pos h1]
  refine ⟨fun hid hfree => ?_, fun hid hbusy => ?_, fun hid => ?_, fun q hq => ?_, fun hworks hready => ?_, fun hworks hready => ?_,
    fun hfailed => ?_, fun h1 hbody => ?_, fun h1 hbody hkeys => ?_, fun ks h1 hbody hkeys => ?_, fun h2 hbody htarget hlife => ?_,
    fun h1 h2 => ?_⟩
  · exact ⟨_, attRequest s h, hatt, attest_taken h hid hfree, rfl, rfl, rfl⟩
  · exact hatt.trans (congrArg _ (attest_busy h hid hbusy))
  · exact hatt.trans (congrArg _ (attest_nobody h hid))
  · exact ⟨_, execAttestationDone_runs hq, attested_spec s q⟩
  · have hserved : challenge s = { s with hmk := { s.hmk with drbg := g.generate.2, challenge := some g.generate.1.toNat } } := by
      rw [challenge_eq, seedDrbg_ready hready, if_neg (by rw [trngFailed_iff]; omega)]
    change execHmkChalRead s = _
    rw [hchal, hserved]
  · generalize hok : healthOk raw = ok
    cases ok with
    | true =>
      rw [challenge_seeded hworks hready hok] at hchal
      exact hchal
    | false =>
      have hfails := challenge_unseeded hworks hready (Bool.eq_false_iff.1 hok)
      exact ⟨challenge s, hchal, hfails⟩
  · have hfail := (trngFailed_iff s).2 hfailed
    rw [challenge_eq, seedDrbg_failed hfail, if_pos hfail] at hchal
    exact hchal
  · rw [hkind1 h1, lifecycleToken_stranger hbody] at htok
    exact htok
  · rw [hkind1 h1, lifecycleToken_noTransition hbody hkeys] at htok
    exact htok
  · rw [hkind1 h1, lifecycleToken_judged hbody hkeys] at htok
    refine ⟨_, htok, ?_⟩
    by_cases hseal : sealBy ks k.body k.sealed = true
    · rw [if_pos hseal, if_pos hseal]
      exact assertCold_intentFused s k.target
    · rw [if_neg hseal, if_neg hseal]
  · have hdebug : submitToken s h = debugToken s k := by rw [submitToken_eq, hk, if_neg (by omega), if_pos h2]
    rw [hdebug, debugToken_judged hbody htarget] at htok
    refine ⟨_, htok, ?_⟩
    by_cases hseal : sealVerifies s .debugToken k.body k.sealed = true
    · rw [if_pos hseal, if_pos hseal]
    · rw [if_neg hseal, if_neg hseal]
      exact rejectDebug_spec hlife
  · have hother : submitToken s h = recordErr s (hmkOff 0x04) 5 := by rw [submitToken_eq, hk, if_neg h1, if_neg h2]; rfl
    exact htok.trans (congrArg _ hother)

/-- Settles O58: keys, versions and the source's failures; then attestation, challenges and tokens, each request by its branches. -/
theorem hallmarkServesRequests : Obligations.HallmarkServesRequests := ⟨keysVersionsAndEntropy, attestationAndTokens⟩

end Sys2Proof.Machine
end

section
/-! SUPPORT. Exports, imports and replays (R509 to R514, R551). -/

namespace Sys2Proof.Machine

-- what exports draw (R492, R496)

theorem seedOnce_fails_le {s : State} (h : s.hmk.fails ≤ 2) : (seedOnce s).hmk.fails ≤ 2 := by
  obtain ⟨h', -⟩ | h' := seedOnce_cases s <;> omega

theorem seedDrbg_fails_le {s : State} (h : s.hmk.fails ≤ 2) : (seedDrbg s).hmk.fails ≤ 2 := by
  unfold seedDrbg
  dsimp only
  split
  · exact h
  · split
    · exact seedOnce_fails_le h
    · exact seedOnce_fails_le (seedOnce_fails_le h)

theorem freshBits_fails (s : State) : (freshBits s).2.hmk.fails = (seedDrbg s).hmk.fails := by
  rw [freshBits_eq]
  by_cases h : trngFailed (seedDrbg s) = true
  · rw [if_pos h]
  · rw [if_neg h]
    rfl

/-- Without fresh bits the source has failed for good. -/
theorem fails_of_noBits {s t : State} (h : s.hmk.fails ≤ 2) (hbits : freshBits s = (none, t)) : t.hmk.fails = 2 := by
  have hfails : t.hmk.fails = (seedDrbg s).hmk.fails := by rw [← freshBits_fails, hbits]
  have hsome := freshBits_isSome s
  rw [hbits] at hsome
  have hfailed : 2 ≤ (seedDrbg s).hmk.fails := (trngFailed_iff _).1 (by simpa using hsome)
  have hle := seedDrbg_fails_le h
  omega

theorem drawExport_none {s t : State} (h : s.hmk.fails ≤ 2) (hdraw : drawExport s = (none, t)) : t.hmk.fails = 2 := by
  unfold drawExport at hdraw
  rcases hfirst : freshBits s with ⟨_ | x, u⟩ <;> rw [hfirst] at hdraw <;> dsimp only at hdraw
  · cases hdraw
    exact fails_of_noBits h hfirst
  · have hle : u.hmk.fails ≤ 2 := by
      rw [show u = (freshBits s).2 by rw [hfirst], freshBits_fails]
      exact seedDrbg_fails_le h
    rcases hsecond : freshBits u with ⟨_ | y, v⟩ <;> rw [hsecond] at hdraw <;> cases hdraw
    exact fails_of_noBits hle hsecond

theorem freshBits_ready {s : State} (hworks : s.hmk.fails < 2) (hready : s.hmk.drbg.ready = true) :
    freshBits s = (some s.hmk.drbg.generate.1, requestServed s) := by
  rw [freshBits_eq, seedDrbg_ready hready]
  exact if_neg (by rw [trngFailed_iff]; omega)

theorem Drbg.ready_of_count {g : Drbg} {n : Nat} (hon : g.on = true) (hcount : g.requests + n < 2 ^ 20) : g.ready = true := by
  rw [Drbg.ready, hon, decide_eq_true (by omega)]
  rfl

theorem drawExport_ready {s : State} (hworks : s.hmk.fails < 2) (hon : s.hmk.drbg.on = true)
    (hcount : s.hmk.drbg.requests + 1 < 2 ^ 20) : drawExport s =
    (some ((s.hmk.drbg.generate.1.extractLsb' 256 256).toNat, s.hmk.drbg.generate.2.generate.1.toNat), requestServed (requestServed s)) := by
  have hfirst := freshBits_ready hworks (Drbg.ready_of_count (n := 1) hon hcount)
  have hsecond := freshBits_ready (s := requestServed s) hworks (Drbg.ready_of_count (n := 0) hon hcount)
  unfold drawExport
  simp only [hfirst, hsecond]
  rfl

-- BLT_EXP_CMD (R509, R551)

/-- The ring holds a record of the number. -/
def inRing (s : State) (q : Word) : Bool := s.blt.ring.any (fun r => decide (r.seq = q))

theorem inRing_iff (s : State) (q : Word) : inRing s q = true ↔ ∃ r ∈ s.blt.ring, r.seq = q := by simp [inRing]

/-- BLT_EXP_CMD cannot be taken in this state: one runs, or its range is not in the ring. -/
def exportBad (s : State) (f l : Word) : Bool :=
  s.blt.exporting.isSome || !inRing s f || !inRing s l || decide (2 ^ 31 ≤ (l - f).toNat)

/-- BLT_EXP_CMD taken, on its draw. -/
def exportBegun (s : State) (f l : Word) (k : Nat × Nat) : State :=
  regSet { s with
    blt := { s.blt with exporting := some (f, l) }
    hmk := { s.hmk with exportNo := s.hmk.exportNo + 1, exportDraw := some k } } (bltOff 0x98) 0

/-- BLT_EXP_CMD taken, with its salt and key to be drawn. -/
def exportDrawn (s : State) (f l : Word) : State :=
  match drawExport s with
  | (none, t) => hmkRefuse t 1
  | (some k, t) => exportBegun t f l k

theorem startExport_eq (s : State) : startExport s =
    if exportBad s (regGet s (bltOff 0x80)) (regGet s (bltOff 0x84)) then bltRefuse s
    else if trngFailed s then hmkRefuse s 1
    else if s.hmk.recipient.isNone then hmkRefuse s 4
    else exportDrawn s (regGet s (bltOff 0x80)) (regGet s (bltOff 0x84)) := rfl

theorem exportBad_iff (s : State) (f l : Word) : exportBad s f l = true
    ↔ ¬ (s.blt.exporting = none ∧ (∃ r ∈ s.blt.ring, r.seq = f) ∧ (∃ r ∈ s.blt.ring, r.seq = l) ∧ (l - f).toNat < 2 ^ 31) := by
  rw [← inRing_iff, ← inRing_iff]
  unfold exportBad
  rw [Bool.or_eq_true, Bool.or_eq_true, Bool.or_eq_true, Bool.not_eq_true', Bool.not_eq_true', decide_eq_true_iff, Option.isSome_iff_ne_none,
    ← Bool.not_eq_true, ← Bool.not_eq_true, ← not_lt]
  tauto

theorem exportDrawn_begins {s : State} (hworks : s.hmk.fails < 2) (f l : Word) :
    ((exportDrawn s f l).blt.exporting = some (f, l) ∧ (exportDrawn s f l).hmk.exportDraw.isSome = true
      ∧ regGet (exportDrawn s f l) (bltOff 0x98) = 0) ∨ (exportDrawn s f l).hmk.fails = 2 := by
  unfold exportDrawn
  rcases hdraw : drawExport s with ⟨_ | k, t⟩ <;> dsimp only
  · right
    rw [show (hmkRefuse t 1).hmk = t.hmk from same_of_law .hmk (hmkRefuse_touch 1) rfl]
    exact drawExport_none (by omega) hdraw
  · exact .inl ⟨rfl, rfl, regGet_regSet_same _ _ _⟩

theorem exportDrawn_ready {s : State} (hworks : s.hmk.fails < 2) (hon : s.hmk.drbg.on = true)
    (hcount : s.hmk.drbg.requests + 1 < 2 ^ 20) (f l : Word) :
    exportDrawn s f l = exportBegun (requestServed (requestServed s)) f l
      ((s.hmk.drbg.generate.1.extractLsb' 256 256).toNat, s.hmk.drbg.generate.2.generate.1.toNat) := by
  unfold exportDrawn
  simp only [drawExport_ready hworks hon hcount]

-- EXPORT_DONE (R509, R510)

theorem wordsBytes_length (ws : List Word) : (wordsBytes ws).length = 4 * ws.length := by
  induction ws with
  | nil => rfl
  | cons w ws ih => rw [wordsBytes, List.length_append, ih, List.length_cons]; simp [leBytes]; omega

theorem fitBytes_length (n : Nat) (bs : List Byte) : (fitBytes n bs).length = n := by simp [fitBytes]

theorem exportHeader_length (s : State) (f l : Word) (salt pub : List Byte) : (exportHeader s f l salt pub).length = 256 := by
  unfold exportHeader
  simp only [List.length_append, wordsBytes_length, fitBytes_length, List.length_replicate, List.length_cons, List.length_nil]

/-- Chunks stored one behind the other. -/
def storeChunks (m : Memory) (a n : Nat) (chunks : List (List Byte)) : Memory :=
  chunks.zipIdx.foldl (fun m e => memPutBytes m (a + n * e.2) e.1) m

/-- Chunks of one length leave every byte outside them. -/
theorem memByte_storeChunks {chunks : List (List Byte)} {n : Nat} (hlen : ∀ c ∈ chunks, c.length = n) (m : Memory) {a x : Nat}
    (hx : x < a ∨ a + n * chunks.length ≤ x) : memByte (storeChunks m a n chunks) x = memByte m x := by
  refine List.foldlRecOn _ _ (motive := fun t => memByte t x = memByte m x) rfl fun t h e he => ?_
  obtain ⟨hlt, hget⟩ := List.mem_zipIdx' he
  have hbound : n * (e.2 + 1) ≤ n * chunks.length := Nat.mul_le_mul_left n hlt
  rw [Nat.mul_add, Nat.mul_one] at hbound
  have hsize : e.1.length = n := hlen e.1 (hget ▸ List.getElem_mem hlt)
  rw [memByte_putBytes_outside _ _ _ _ (by omega), h]

/-- The header that exports begin with, of their salt and key. -/
def exportHead (s : State) (f l : Word) : List Byte :=
  exportHeader s f l (bigBytes 32 (s.hmk.exportDraw.getD (0, 0)).1) (Config.exportPub (s.hmk.exportDraw.getD (0, 0)).2)

/-- The first chunks as they are written, encrypted. -/
def exportChunks (s : State) (f l : Word) (chunks : Nat) : List (List Byte) :=
  ((layChunks (exportRecs s f l)).take chunks).zipIdx.map (fun e =>
    fitBytes 65552 (Config.exportChunk (s.hmk.recipient.getD 0) s.hmk.exportNo e.2 (exportHead s f l) e.1))

theorem exportChunks_length (s : State) (f l : Word) (chunks : Nat) :
    (exportChunks s f l chunks).length = min chunks (layChunks (exportRecs s f l)).length := by
  rw [exportChunks, List.length_map, List.length_zipIdx, List.length_take]

theorem writeExport_host (s : State) (f l : Word) (chunks cause : Nat) : (writeExport s f l chunks cause).host =
    storeChunks (memPutBytes s.host (regGet64 s (bltOff 0x88)).toNat (exportHead s f l)) ((regGet64 s (bltOff 0x88)).toNat + 256) 65552
      (exportChunks s f l chunks) := rfl

/-- The header and the chunks are written, and no other byte. -/
theorem memByte_writeExport (s : State) (f l : Word) (chunks cause : Nat) {x : Nat}
    (hx : x < (regGet64 s (bltOff 0x88)).toNat
      ∨ (regGet64 s (bltOff 0x88)).toNat + 256 + 65552 * min chunks (layChunks (exportRecs s f l)).length ≤ x) :
    memByte (writeExport s f l chunks cause).host x = memByte s.host x := by
  have hlen : ∀ c ∈ exportChunks s f l chunks, c.length = 65552 := by
    intro c hc
    obtain ⟨e, -, rfl⟩ := List.mem_map.1 hc
    exact fitBytes_length _ _
  have hhead : (exportHead s f l).length = 256 := exportHeader_length _ _ _ _ _
  rw [writeExport_host, memByte_storeChunks hlen _ (by rw [exportChunks_length]; omega),
    memByte_putBytes_outside _ _ _ _ (by rw [hhead]; omega)]

theorem execExportDone_runs {s : State} {f l : Word} (h : s.blt.exporting = some (f, l)) :
    execExportDone s = .next (writeExport s f l (chunksFit s f l) 0) := by
  unfold execExportDone
  simp only [h]

theorem chunksFit_le (s : State) (f l : Word) : min (chunksFit s f l) (layChunks (exportRecs s f l)).length = chunksFit s f l :=
  Nat.min_eq_left (Nat.min_le_left _ _)

-- imports (R511)

/-- The words an import reads. -/
def importWords (s : State) : List Word := memWords s.host (regGet64 s (bltOff 0xA0)).toNat ((regGet s (bltOff 0xA8)).toNat / 4)

/-- The ring an import leaves, with its two result words. -/
def imported (s : State) (b : Blotter) (result offset : Word) : State :=
  regSet (regSet { s with blt := b } (bltOff 0xB0) result) (bltOff 0xB4) offset

theorem imported_regs (s : State) (b : Blotter) (result offset : Word) :
    regGet (imported s b result offset) (bltOff 0xB0) = result ∧ regGet (imported s b result offset) (bltOff 0xB4) = offset := by
  refine ⟨?_, regGet_regSet_same _ _ _⟩
  rw [imported, regGet_regSet, if_neg (by decide), regGet_regSet_same]

section
variable {s : State} (hoff : s.blt.mode = .off) (hidle : s.blt.exporting = none) (hunarmed : s.blt.replay.armed = false)
include hoff hidle hunarmed

theorem importRecs_good {rs : List BRec}
    (h : readRecs (bltRegion s) ((importWords s).length + 1) (importWords s) 0 [] = .inr rs) : ∃ next,
    importRecs s = imported s { s.blt with ring := rs, buf := [], next := next } (put 1 31) 0 := by
  unfold importWords at h
  unfold importRecs
  simp only [h, hoff, hidle, hunarmed]
  exact ⟨_, rfl⟩

theorem importRecs_bad {off : Nat}
    (h : readRecs (bltRegion s) ((importWords s).length + 1) (importWords s) 0 [] = .inl off) :
    importRecs s = imported s { s.blt with ring := [], buf := [] } (put 1 30) (BitVec.ofNat 32 off) := by
  unfold importWords at h
  unfold importRecs
  simp only [h, hoff, hidle, hunarmed]
  rfl

end

-- replays (R512 to R514)

theorem armReplay_armed {s : State} (hfree : s.blt.replay.armed = false) (h : rplCause s = none) : armReplay s =
    { s with blt := { s.blt with replay := { Replay.reset with armed := true, window := rplWindow s } } } := by
  unfold armReplay
  simp only [hfree, h]
  rfl

theorem armReplay_cause {s : State} {c : Nat} (hfree : s.blt.replay.armed = false) (h : rplCause s = some c) :
    armReplay s = recordErr s (bltOff 0xC8) c := by
  unfold armReplay
  simp only [hfree, h]
  rfl

/-- A replay running from its first tick. -/
def replayRuns (s : State) : State :=
  { s with blt := { s.blt with replay := { s.blt.replay with
    started := true, rlc := firstTick s, sub := 0, todo := s.blt.replay.window.filter (deliverable s) } } }

/-- One partition's entries set to their first replayed launches. -/
def replayEntries (t0 : Nat) (t : State) (p : Nat) : State :=
  let t1 := match firstAsn t p with | some a => regSet t (fabOff p 0x3C) a | none => t
  (upTo 64).foldl (fun u j =>
    let e := getRun u p j
    if e.on then setRun u p j { e with next := nextCount (entryPhase u p j) (entryPeriod u p j) (t0 - 1) } else u) t1

theorem execReplayStart_due {s : State} (harmed : s.blt.replay.armed = true) (hfresh : s.blt.replay.started = false)
    (hdue : (regGet64 s (bltOff 0xD0)).toNat ≤ lc s) :
    execReplayStart s = .next (restoreAll ((rplParts s).foldl (replayEntries (firstTick s)) (replayRuns s))) :=
  if_neg (by
    rw [harmed, hfresh, decide_eq_false (Nat.not_lt.2 hdue)]
    decide)

theorem execReplayStart_waits {s : State} (hwait : lc s < (regGet64 s (bltOff 0xD0)).toNat) : execReplayStart s = .next s :=
  if_pos (by rw [decide_eq_true hwait, Bool.or_true])

theorem replayEntries_blt (t0 : Nat) (t : State) (p : Nat) : (replayEntries t0 t p).blt = t.blt := by
  unfold replayEntries
  dsimp only
  have hfirst : (match firstAsn t p with | some a => regSet t (fabOff p 0x3C) a | none => t).blt = t.blt := by
    cases firstAsn t p <;> rfl
  refine List.foldlRecOn (upTo 64) _ (motive := fun u : State => u.blt = t.blt) hfirst fun u hu j _ => ?_
  exact iteInduction (motive := fun v : State => v.blt = t.blt) (fun _ => hu) (fun _ => hu)

theorem replayStarted_blt (s : State) : (restoreAll ((rplParts s).foldl (replayEntries (firstTick s)) (replayRuns s))).blt
    = (replayRuns s).blt := by
  have hfold := List.foldlRecOn (rplParts s) (replayEntries (firstTick s)) (b := replayRuns s)
    (motive := fun u : State => u.blt = (replayRuns s).blt) rfl fun u hu p _ => (replayEntries_blt _ u p).trans hu
  exact (same_of_law .blt restoreAll_touch rfl).trans hfold

/-- The next record of a replay. -/
def replayNext (s : State) : Option BRec := s.blt.replay.todo.find? (fun r => decide (r.tick ≤ s.blt.replay.rlc))

theorem execReplayDelivery_next {s : State} {r : BRec} (hruns : s.blt.replay.started = true) (h : replayNext s = some r) :
    execReplayDelivery s = .next (if r.kind = kFrame then deliverFrame (dropTodo s r) r
      else if r.source = 0 then deliverHost (dropTodo s r) r else deliverCommit (dropTodo s r) r) := by
  unfold replayNext at h
  unfold execReplayDelivery
  simp only [hruns, h]
  by_cases hframe : r.kind = kFrame
  · simp only [if_pos hframe]
    rfl
  · by_cases hhost : r.source = 0
    · simp only [if_neg hframe, if_pos hhost]
      rfl
    · simp only [if_neg hframe, if_neg hhost]
      rfl

/-- A recorded set is queued at its partition's gate. -/
theorem deliverSet_gate (s : State) (r : BRec) :
    ∃ g, (getPart (if r.source = 0 then deliverHost (dropTodo s r) r else deliverCommit (dropTodo s r) r) r.src).gate
        = (getPart s r.src).gate ++ [g]
      ∧ g.asn = r.w 1 ∧ g.inst = fld (r.w 2) 31 22 ∧ g.src = .replay r.seq.toNat (if r.source = 0 then 0 else 2) := by
  by_cases hhost : r.source = 0
  · rw [if_pos hhost, if_pos hhost, deliverHost, getPart_setPart_same]
    exact ⟨_, rfl, rfl, rfl, rfl⟩
  · rw [if_neg hhost, if_neg hhost, deliverCommit, getPart_setPart_same]
    exact ⟨_, rfl, rfl, rfl, rfl⟩

theorem deliverSet_todo (s : State) (r : BRec) :
    (if r.source = 0 then deliverHost (dropTodo s r) r else deliverCommit (dropTodo s r) r).blt.replay.todo = s.blt.replay.todo.erase r :=
  iteInduction (motive := fun t : State => t.blt.replay.todo = s.blt.replay.todo.erase r) (fun _ => rfl) (fun _ => rfl)

/-- Settles O60: exports by their draw, their bytes by their places, an import by what it reads, and a replay by its branches. -/
theorem exportImportReplay : Obligations.ExportImportReplay := by
  intro s hphase f l has
  have hexp : execBltExpCmd s = .next (startExport s) := hostWrite_running _ hphase
  have himp : execBltImpCmd s = .next (importRecs s) := hostWrite_running _ hphase
  have harm : execBltRplArm s = .next (armReplay s) := hostWrite_running _ hphase
  rw [startExport_eq] at hexp
  refine ⟨fun hidle hf hl hrange => ?_, fun hbad => ?_, fun a b hrun => ?_, fun hoff hidle hunarmed => ?_, fun hbusy => ?_,
    fun hfree hcause => ?_, fun c hfree hcause => ?_, ?_, fun harmed hfresh hdue => ?_, fun _ _ hwait => ?_, fun r hruns hnext => ?_⟩
  · have hgood : ¬ exportBad s f l = true := fun h => (exportBad_iff s f l).1 h ⟨hidle, hf, hl, hrange⟩
    rw [if_neg hgood] at hexp
    have hworking (hworks : s.hmk.fails < 2) : ¬ trngFailed s = true := by
      rw [trngFailed_iff]
      omega
    refine ⟨fun hworks hrec => ?_, fun hworks hrec hon hcount => ?_, fun hworks hrec => ?_, fun hfailed => ?_⟩
    · rw [if_neg (hworking hworks), if_neg (by rw [Option.isNone_iff_eq_none]; exact hrec)] at hexp
      exact ⟨_, hexp, exportDrawn_begins hworks f l⟩
    · rw [if_neg (hworking hworks), if_neg (by rw [Option.isNone_iff_eq_none]; exact hrec), exportDrawn_ready hworks hon hcount] at hexp
      exact ⟨_, hexp, rfl, regGet_regSet_same _ _ _, rfl⟩
    · rw [if_neg (hworking hworks), if_pos (by rw [hrec]; rfl)] at hexp
      exact hexp
    · rw [if_pos ((trngFailed_iff s).2 hfailed)] at hexp
      exact hexp
  · rw [if_pos ((exportBad_iff s f l).2 hbad)] at hexp
    exact hexp
  · obtain ⟨hhmk, hblt, hbox, hreg⟩ := writeExport_spec s a b (chunksFit s a b) 0
    rw [chunksFit_le] at hreg
    refine ⟨_, execExportDone_runs hrun, hblt, hhmk, hreg, hbox, fun x hx => memByte_writeExport s a b _ 0 ?_⟩
    rw [chunksFit_le]
    exact hx
  · intro ws
    rcases hread : readRecs (bltRegion s) (ws.length + 1) ws 0 [] with off | rs
    · rw [importRecs_bad hoff hidle hunarmed hread] at himp
      obtain ⟨hresult, hoffset⟩ := imported_regs s { s.blt with ring := [], buf := [] } (put 1 30) (BitVec.ofNat 32 off)
      refine ⟨_, himp, rfl, fun rs h => (by cases h), fun o h => ?_⟩
      cases h
      exact ⟨rfl, hresult, hoffset⟩
    · obtain ⟨next, hgood⟩ := importRecs_good hoff hidle hunarmed hread
      rw [hgood] at himp
      refine ⟨_, himp, rfl, fun rs' h => ?_, fun o h => (by cases h)⟩
      cases h
      exact ⟨rfl, (imported_regs s { s.blt with ring := rs, buf := [], next := next } (put 1 31) 0).1⟩
  · have hrefused : importRecs s = bump s 0x508008 := if_pos (by
      rcases hbusy with h | h | h
      · exact .inl h
      · exact .inr (.inl (Option.isSome_iff_ne_none.2 h))
      · exact .inr (.inr h))
    exact himp.trans (congrArg _ hrefused)
  · rw [armReplay_armed hfree hcause] at harm
    exact ⟨_, harm, rfl, rfl, rfl, rfl, rfl⟩
  · exact harm.trans (congrArg _ (armReplay_cause hfree hcause))
  · exact hostWrite_running (abortReplay s) hphase
  · refine ⟨_, execReplayStart_due harmed hfresh hdue, ?_⟩
    rw [replayStarted_blt]
    exact ⟨rfl, rfl, rfl⟩
  · exact execReplayStart_waits hwait
  · refine ⟨_, execReplayDelivery_next hruns hnext, fun hframe hverdict => ?_, fun hother => ?_⟩
    · rw [if_pos hframe, deliverFrame, if_pos hverdict]
      exact ⟨rfl, rfl, rfl⟩
    · rw [if_neg hother]
      exact ⟨deliverSet_todo s r, deliverSet_gate s r⟩

end Sys2Proof.Machine
end
